-- ==== Sys2Proof/Word.lean ====
section
/-!
DEFINITION. The words of the QX9 (spec 00 R5, R6): bit 0 is least significant, multi-byte values are little-endian.
-/

namespace Sys2Proof

/-- A byte. -/
abbrev Byte := BitVec 8

/-- A 32-bit lane value or word. -/
abbrev Word32 := BitVec 32

/-- A 64-bit scalar, address or record word. -/
abbrev Word64 := BitVec 64

end Sys2Proof
end

