-- ==== Sys2Proof/Config.lean ====
section
/-!
DEFINITION. What an installation or a package fixes, and the values the spec leaves open. Every constant here is
opaque: it has no body, so no proof can see a value of it, and a statement about it holds for every value.
-/

namespace Sys2Proof.Config

/-- A free choice (which ready core, which due event, whether a cache keeps a line), by a plain counter of the state. -/
opaque choose : Nat → Nat

/-- Which form of its code a fetch returns, of those a sheaf has kept and the one in memory (R149), by a counter. -/
opaque codeForm : Nat → Nat

/-- A free word, by a plain counter of the state. -/
opaque freeWord : Nat → BitVec 64

/-- How many core cycles a step takes beyond one (R443: not architected). -/
opaque stepCycles : Nat → Nat

/-- Nanoseconds that pass in a step, as domain time counts them. -/
opaque stepNanos : Nat → Nat

/-- The bits an approximate instruction would return, by instruction code, element type code and operand (R214): the
model keeps them only where Table 10-4 admits them. -/
opaque approx : Nat → Nat → BitVec 32 → BitVec 32

/-- A byte read from another package where the reading unit does not show the frames that carried it, by package,
low address and a counter (log entry 12). -/
opaque peerByte : Nat → Nat → Nat → Byte

/-- The seed of Wohal's ML-DSA-44 key pair, whose public key the package fuses, byte by byte (R349). -/
opaque wohalSeed : Nat → Byte

/-- The seed of the package's ML-DSA-44 key pair, byte by byte (R348). -/
opaque deviceSeed : Nat → Byte

/-- The randomness with which Wohal signed the package's public key, byte by byte (R348). -/
opaque certRandom : Nat → Byte

/-- The fused 64-bit device identifier (R348). -/
opaque devId : BitVec 64

/-- The laser ageing threshold of a wavelength of a fibre, which `thresholdOf` brings into the range of R423. -/
opaque laserThreshold : Nat → Nat → Nat

/-- Round-trip delay entries measured at training (R306). -/
opaque fibreDelay : Nat → BitVec 64

/-- How much warmer the package is than when a plane's delay was measured, in °C, by domain time (R306). -/
opaque tempRise : Nat → Int

/-- Erroneous symbols of a codeword by a counter and wavelength, which `State.codewordErrors` bounds by the 34 symbols that the
wavelength carries (R313). -/
opaque symbolErrors : Nat → Nat → Nat

/-- The DEVID of the package at the far end of a long-reach link, by link (R307, R348). -/
opaque linkDev : Nat → BitVec 64

/-- How far the domain time at the far end of a long-reach link is ahead where its slots follow that end's, in ns, by link
(R307); the package with the lower DEVID has 0. -/
opaque linkOffset : Nat → Int

/-- Relay buffers of each of the two channels that have some; `relayHalf` bounds them by the memory set aside (R311). -/
opaque relayBuffers : Nat

/-- A leaf entry that privileged software wrote in a module's tables, whose place and structure are the module's own (R97), by
module, page and the number of the invalidation after which the module reads it. -/
opaque leafEntry : Nat → Nat → Nat → BitVec 64

/-- Software had written the leaf entry of a page before an invalidation, by module, page and the number of the invalidation
(R97). -/
opaque leafWritten : Nat → Nat → Nat → Bool

/-- The AES-256-GCM key of a direction of a long-reach link, by link, whether this package sends, key epoch and byte; ML-KEM-768
agrees it (R318). -/
opaque linkKey : Nat → Bool → BitVec 32 → Nat → Byte

/-- The peers that have a package in the fabric domain (R95). -/
opaque peerPresent : Nat → Bool

/-- The stripe groups the passive memory fabric routes, by fibre, group and module number (R21). -/
opaque fabricRoute : Nat → Nat → Nat → Bool

/-- A module with this number answers on the passive memory fabric (R339). -/
opaque moduleThere : Nat → Bool

/-- The module has a free storage frame for a page that must be materialised, and which (R102). -/
opaque freeFrame : Nat → Nat → Option (BitVec 32)

/-- The contents a compressed page expands to, by module, frame and byte (R101); what compression stores is the
module's own. -/
opaque compressed : Nat → Nat → Nat → Byte

/-- The module has a free slot and copy space for a version (R416). -/
opaque copySpace : Nat → Nat → Bool

/-- The bytes of a saved span or a checkpoint image, whose layout is the QX9's own (R143, R345), by a number and an offset. -/
opaque imageByte : Nat → Nat → BitVec 8

/-- The length of a checkpoint image (R345). -/
opaque imageLen : Nat → Nat

/-- The module's activation window has room for an all-bank operation when it is asked (R342). -/
opaque moduleRoom : Nat → Nat → Bool

end Sys2Proof.Config
end

