-- ==== Sys2Proof/Syntax.lean ====
section
/-!
DEFINITION. The instructions and steps of the QX9: one constructor of `Instr` for each row of
spec/opcode_table.json. The first 229 are instruction forms (spec 08 R146 to R163, and the entries of files 09 to
14); the others are the events of spec/95_what_each_step_holds.md, each one indivisible step of a unit or of the
outside world.
-/

namespace Sys2Proof

/-- Element types, Table 8-5 (R157). -/
inductive Ty where
  | none | i8 | i16 | i32 | i64 | n8 | n16 | n32 | n64 | b32 | b64
  | f16 | bf16 | f32 | f64 | f16x2 | bf16x2
  | e4m3 | e5m2 | e3m2 | e2m3 | e2m1 | e8m0
  | i4 | n4 | i8x4 | i4x8
  deriving DecidableEq, Repr

/-- Rounding modes, Table 4-6 (R74). -/
inductive Rnd where
  | rne | rtz | rup | rdn | srnd
  deriving DecidableEq, Repr

/-- Integer conditions (R184, R213, R301). -/
inductive Cond where
  | eq | ne | lt | le | gt | ge
  deriving DecidableEq, Repr

/-- Float conditions (R215). -/
inductive FCond where
  | eq | ne | lt | le | gt | ge | un | ord
  deriving DecidableEq, Repr

/-- Order codes, Table 6-1 (R108). -/
inductive Order where
  | rlx | acq | rel | ar
  deriving DecidableEq, Repr

/-- Scope codes, Table 6-1 (R108). -/
inductive Scope where
  | sheaf | crew | span | pkg | job
  deriving DecidableEq, Repr

/-- Atomic operations, Table 11-6 (R237). -/
inductive AtomOp where
  | add | min | max | and | or | xor | exch | inc
  deriving DecidableEq, Repr

/-- Operations of VRED and VSCAN (R226). -/
inductive RedOp where
  | add | min | max | and | or | xor
  deriving DecidableEq, Repr

/-- Modes of VSHFL (R226). -/
inductive ShflMode where
  | idx | up | down | xor
  deriving DecidableEq, Repr

/-- Sizes of XACQ (R186). -/
inductive XSize where
  | x32 | x64 | x128
  deriving DecidableEq, Repr

/-- What GENQ names (R186, R189). -/
inductive GenWhich where
  | base | ext | scr | slice | acc | visit
  deriving DecidableEq, Repr

/-- What ABQ reads (R244). -/
inductive AbqWhat where
  | cnt | phase | fault
  deriving DecidableEq, Repr

/-- What TWQ reads (R252). -/
inductive TwqWhat where
  | allow | flight | queued
  deriving DecidableEq, Repr

/-- Operations of MRED (R252). -/
inductive MredOp where
  | add | min | max
  deriving DecidableEq, Repr

/-- What MIGQ reads (R299). -/
inductive MigqWhat where
  | away | refused | where_ | home
  deriving DecidableEq, Repr

/-- The masks MIGSET writes (R287). -/
inductive MigPart where
  | v0 | v1 | v2 | s | p
  deriving DecidableEq, Repr

/-- What DBGRD reads (R204). -/
inductive DbgWhat where
  | mem | reg | acc
  deriving DecidableEq, Repr

/-- The vector registers v0 to v191 (R154). -/
abbrev VReg := Fin 192
/-- The scalar registers s0 to s63. -/
abbrev SReg := Fin 64
/-- The predicates p0 to p7. -/
abbrev PReg := Fin 8
/-- The accumulator tiles a0 to a63, crew-relative (R260). -/
abbrev Tile := Fin 64
/-- The tile descriptors d0 to d15. -/
abbrev Desc := Fin 16
/-- The arrival barrier slots b0 to b63 (R241). -/
abbrev BSlot := Fin 64

/-- Guard and switch marker of an instruction (R150, R152). -/
structure Hdr where
  gn : Bool
  gp : PReg
  sw : Bool
  deriving DecidableEq, Repr

/-- A vector source: a vector register, or a scalar supplied to every lane (R154, R155). -/
inductive VSrc where
  | v (r : VReg)
  | s (r : SReg)
  deriving DecidableEq, Repr

/-- Operand B of a vector instruction: a source, or IMM32 in the 96-bit form (R158). -/
inductive BSrc where
  | r (x : VSrc)
  | imm (x : Word32)
  deriving DecidableEq, Repr

/-- Operand B of a scalar instruction: a scalar, or IMM32 in the 96-bit form (R184). -/
inductive SSrc where
  | r (x : SReg)
  | imm (x : Word32)
  deriving DecidableEq, Repr

/-- The offset part of a memory operand: the imm8 of the 64-bit form or the IMM32 of the 96-bit form (Table 11-1). -/
inductive Off where
  | imm8 (x : Byte)
  | imm32 (x : Word32)
  deriving DecidableEq, Repr

/-- A memory operand (R231). -/
structure Mem where
  base : Option SReg
  idx : Option VSrc
  off : Off
  deriving DecidableEq, Repr

/-- Row and column masks of a maskable matrix command; none is the 64-bit form, which selects all (R267). -/
abbrev Masks := Option (BitVec 16 × BitVec 16)

/-- Where the incoming value of MMA comes from (R268): nothing (Z), the tile itself (K), or a tile. -/
inductive Incoming where
  | z
  | k
  | tile (c : Tile)
  deriving DecidableEq, Repr

/-- The operation of MEW with its operands (R267, R271). -/
inductive MewOp where
  | scale (b : SReg)
  | add (c : Tile)
  | decay (b : SReg) (c : Tile)
  deriving DecidableEq, Repr

/-- What TAGQ examines (R186, R189). -/
inductive TagqSrc where
  | vec (a : VSrc)
  | acc (a : Tile) (row : BitVec 4)
  | sca (a : SReg)
  deriving DecidableEq, Repr

/-- The operation of XRESID with its operands (R322, R331). -/
inductive ResidOp where
  | rd (d a c : SReg)
  | clr (a c : SReg)
  | set (a b c : SReg)
  deriving DecidableEq, Repr

/-- A place where lanes run: a slot of a core (0 to 15 sheaf slots, 16 to 23 visiting slots, R27), or a visiting
slot of a near-memory unit of a module (R293). -/
inductive Place where
  | core (c slot : Nat)
  | nmu (module unit slot : Nat)
  deriving DecidableEq, Repr

/-- The reasons for which a wavelength is declared erased (R421). -/
inductive EraseCause where
  | search
  | loss
  deriving DecidableEq, Repr

/-- A frame header and payload as far as software and the destination see them (Table 14-2). -/
structure Frame where
  daddr : BitVec 56
  baddr : BitVec 56
  fval : Word32
  seq : BitVec 16
  ack : BitVec 16
  src : BitVec 9
  dst : BitVec 9
  type : BitVec 4
  hop : BitVec 2
  len : BitVec 3
  ordf : Bool
  last : Bool
  path : BitVec 2
  np : BitVec 2
  pcnt : BitVec 16
  xid : BitVec 16
  ctx : BitVec 10
  payload : List Byte
  deriving DecidableEq, Repr

/-- The steps of the machine. -/
inductive Instr where
  -- control, class 0x0 (R174)
  | pad (p : BitVec 30)
  | nop (h : Hdr)
  | bra (h : Hdr) (off : BitVec 24)
  | braReg (h : Hdr) (a : SReg)
  | brp (h : Hdr) (off : BitVec 24)
  | brpJoin (h : Hdr) (off : BitVec 24) (j : Word32)
  | join (h : Hdr)
  | loop (h : Hdr) (d : SReg) (off : BitVec 24)
  | call (h : Hdr) (d : SReg) (off : BitVec 24)
  | callReg (h : Hdr) (d a : SReg)
  | calli (h : Hdr) (d : SReg) (a : VSrc)
  | ret (h : Hdr) (a : SReg)
  | exit (h : Hdr)
  | yield (h : Hdr)
  | trap (h : Hdr) (code : Byte)
  | tret (h : Hdr)
  | mcall (h : Hdr) (p0 p1 p2 p3 : Byte) (m : Fin 64)
  | bkpt (h : Hdr) (code : Byte)
  | waita (h : Hdr) (d a : SReg)
  | waitaTimeout (p : Place)
  | sleep (h : Hdr) (a : SReg)
  | sleepImm (h : Hdr) (n : Word32)
  | sleepExpiry (p : Place)
  | elect (h : Hdr) (d : PReg) (a : SReg)
  -- scalar, class 0x1 (R184)
  | smov (h : Hdr) (d a : SReg)
  | smovi (h : Hdr) (ty : Ty) (d : SReg) (imm : Word32)
  | smovq (h : Hdr) (d : SReg) (imm : Word64)
  | sadd (h : Hdr) (ty : Ty) (sat : Bool) (d a : SReg) (b : SSrc)
  | ssub (h : Hdr) (ty : Ty) (sat : Bool) (d a : SReg) (b : SSrc)
  | smul (h : Hdr) (ty : Ty) (sat : Bool) (d a : SReg) (b : SSrc)
  | smulh (h : Hdr) (ty : Ty) (d a : SReg) (b : SSrc)
  | sdiv (h : Hdr) (ty : Ty) (d a : SReg) (b : SSrc)
  | srem (h : Hdr) (ty : Ty) (d a : SReg) (b : SSrc)
  | sand (h : Hdr) (d a : SReg) (b : SSrc)
  | sor (h : Hdr) (d a : SReg) (b : SSrc)
  | sxor (h : Hdr) (d a : SReg) (b : SSrc)
  | sshl (h : Hdr) (ty : Ty) (d a : SReg) (b : SSrc)
  | sshr (h : Hdr) (ty : Ty) (d a : SReg) (b : SSrc)
  | ssar (h : Hdr) (d a : SReg) (b : SSrc)
  | smin (h : Hdr) (ty : Ty) (d a : SReg) (b : SSrc)
  | smax (h : Hdr) (ty : Ty) (d a : SReg) (b : SSrc)
  | scmp (h : Hdr) (ty : Ty) (cond : Cond) (d a : SReg) (b : SSrc)
  | ssel (h : Hdr) (d a : SReg) (b : SSrc) (c : SReg)
  | slea (h : Hdr) (ty : Ty) (d a : SReg) (b : SSrc) (sh : Byte)
  | sclz (h : Hdr) (d a : SReg)
  | spopc (h : Hdr) (d a : SReg)
  | sbfe (h : Hdr) (ty : Ty) (d a : SReg) (b : SSrc) (w : Byte)
  | sbfi (h : Hdr) (d a : SReg) (b : SSrc) (w : Byte)
  -- vector integer, class 0x2 (R212)
  | vmov (h : Hdr) (ty : Ty) (d : VReg) (a : VSrc)
  | vmovi (h : Hdr) (ty : Ty) (d : VReg) (imm : Word32)
  | vidx (h : Hdr) (d : VReg) (b : SSrc)
  | vadd (h : Hdr) (ty : Ty) (d : VReg) (a : VSrc) (b : BSrc)
  | vsub (h : Hdr) (ty : Ty) (d : VReg) (a : VSrc) (b : BSrc)
  | vadds (h : Hdr) (ty : Ty) (d : VReg) (a : VSrc) (b : BSrc)
  | vsubs (h : Hdr) (ty : Ty) (d : VReg) (a : VSrc) (b : BSrc)
  | vmul (h : Hdr) (ty : Ty) (sat : Bool) (d : VReg) (a : VSrc) (b : BSrc)
  | vmulh (h : Hdr) (ty : Ty) (d : VReg) (a : VSrc) (b : BSrc)
  | vmad (h : Hdr) (ty : Ty) (sat : Bool) (d : VReg) (a : VSrc) (b : BSrc) (c : VSrc)
  | vmin (h : Hdr) (ty : Ty) (d : VReg) (a : VSrc) (b : BSrc)
  | vmax (h : Hdr) (ty : Ty) (d : VReg) (a : VSrc) (b : BSrc)
  | vabs (h : Hdr) (ty : Ty) (sat : Bool) (d : VReg) (a : VSrc)
  | vneg (h : Hdr) (ty : Ty) (sat : Bool) (d : VReg) (a : VSrc)
  | vand (h : Hdr) (ty : Ty) (d : VReg) (a : VSrc) (b : BSrc)
  | vor (h : Hdr) (ty : Ty) (d : VReg) (a : VSrc) (b : BSrc)
  | vxor (h : Hdr) (ty : Ty) (d : VReg) (a : VSrc) (b : BSrc)
  | vnot (h : Hdr) (ty : Ty) (d : VReg) (a : VSrc)
  | vshl (h : Hdr) (ty : Ty) (d : VReg) (a : VSrc) (b : BSrc)
  | vshr (h : Hdr) (ty : Ty) (d : VReg) (a : VSrc) (b : BSrc)
  | vsar (h : Hdr) (ty : Ty) (d : VReg) (a : VSrc) (b : BSrc)
  | vrot (h : Hdr) (d : VReg) (a : VSrc) (b : BSrc)
  | vbfe (h : Hdr) (ty : Ty) (d : VReg) (a : VSrc) (b : BSrc) (w : Byte)
  | vbfi (h : Hdr) (d : VReg) (a : VSrc) (b : BSrc) (w : Byte)
  | vclz (h : Hdr) (d : VReg) (a : VSrc)
  | vpopc (h : Hdr) (d : VReg) (a : VSrc)
  | vbrev (h : Hdr) (d : VReg) (a : VSrc)
  | vcmp (h : Hdr) (ty : Ty) (cond : Cond) (d : PReg) (a : VSrc) (b : BSrc)
  | vsel (h : Hdr) (ty : Ty) (d : VReg) (a : VSrc) (b : BSrc) (c : PReg)
  | vlea (h : Hdr) (ty : Ty) (d : VReg) (a : VSrc) (b : BSrc) (sh : Byte)
  -- vector float, class 0x3 (R214)
  | vfadd (h : Hdr) (ty : Ty) (rnd : Rnd) (d : VReg) (a : VSrc) (b : BSrc)
  | vfsub (h : Hdr) (ty : Ty) (rnd : Rnd) (d : VReg) (a : VSrc) (b : BSrc)
  | vfmul (h : Hdr) (ty : Ty) (rnd : Rnd) (d : VReg) (a : VSrc) (b : BSrc)
  | vfma (h : Hdr) (ty : Ty) (rnd : Rnd) (d : VReg) (a : VSrc) (b : BSrc) (c : VSrc)
  | vfnma (h : Hdr) (ty : Ty) (rnd : Rnd) (d : VReg) (a : VSrc) (b : BSrc) (c : VSrc)
  | vfmin (h : Hdr) (ty : Ty) (d : VReg) (a : VSrc) (b : BSrc)
  | vfmax (h : Hdr) (ty : Ty) (d : VReg) (a : VSrc) (b : BSrc)
  | vfabs (h : Hdr) (ty : Ty) (d : VReg) (a : VSrc)
  | vfneg (h : Hdr) (ty : Ty) (d : VReg) (a : VSrc)
  | vfcmp (h : Hdr) (ty : Ty) (cond : FCond) (d : PReg) (a : VSrc) (b : BSrc)
  | vfclass (h : Hdr) (ty : Ty) (d : VReg) (a : VSrc)
  | vfdiv (h : Hdr) (ty : Ty) (rnd : Rnd) (d : VReg) (a : VSrc) (b : BSrc)
  | vrcp (h : Hdr) (ty : Ty) (d : VReg) (a : VSrc)
  | vrsq (h : Hdr) (ty : Ty) (d : VReg) (a : VSrc)
  | vsqrt (h : Hdr) (ty : Ty) (rnd : Rnd) (d : VReg) (a : VSrc)
  | vexp2 (h : Hdr) (ty : Ty) (d : VReg) (a : VSrc)
  | vlog2 (h : Hdr) (ty : Ty) (d : VReg) (a : VSrc)
  | vsin (h : Hdr) (ty : Ty) (d : VReg) (a : VSrc)
  | vcos (h : Hdr) (ty : Ty) (d : VReg) (a : VSrc)
  | vtanh (h : Hdr) (ty : Ty) (d : VReg) (a : VSrc)
  | vfloor (h : Hdr) (ty : Ty) (d : VReg) (a : VSrc)
  | vceil (h : Hdr) (ty : Ty) (d : VReg) (a : VSrc)
  | vfract (h : Hdr) (ty : Ty) (rnd : Rnd) (d : VReg) (a : VSrc)
  | vfscale (h : Hdr) (ty : Ty) (rnd : Rnd) (d : VReg) (a : VSrc) (b : BSrc)
  -- conversion, class 0x4 (R216)
  | vcvt (h : Hdr) (dt st : Ty) (rnd : Rnd) (sat : Bool) (d : VReg) (a : VSrc)
  | vpack (h : Hdr) (dt : Ty) (rnd : Rnd) (sat : Bool) (d : VReg) (a : VSrc) (b : BSrc) (p : Fin 8)
  | vunpk (h : Hdr) (dt st : Ty) (d : VReg) (a : VSrc) (p : Fin 8)
  | vquant (h : Hdr) (dt : Ty) (rnd : Rnd) (d : VReg) (a : VSrc) (c : SReg) (p : Fin 8)
  | vdeq (h : Hdr) (st : Ty) (rnd : Rnd) (d : VReg) (a : VSrc) (b : SSrc) (p : Fin 8)
  | vsplit6 (h : Hdr) (ty : Ty) (lo : Bool) (d : VReg) (a : VSrc) (p : Fin 4)
  | vjoin6 (h : Hdr) (ty : Ty) (d : VReg) (a : VSrc) (b : BSrc) (p : Fin 4)
  | vdot8 (h : Hdr) (ty : Ty) (rnd : Rnd) (sat : Bool) (d : VReg) (a : VSrc) (b : BSrc)
  | vdot4 (h : Hdr) (ty : Ty) (rnd : Rnd) (sat : Bool) (d : VReg) (a : VSrc) (b : BSrc)
  | vtag (h : Hdr) (d : VReg) (a : VSrc) (tag : BitVec 4)
  | vsrnd (h : Hdr) (a : SReg)
  | vsrndDraw (h : Hdr) (d : SReg)
  -- cross-lane and predicates, class 0x5 (R226)
  | vshfl (h : Hdr) (ty : Ty) (mode : ShflMode) (d : VReg) (a : VSrc) (b : BSrc) (fill : Option VSrc)
  | vbcast (h : Hdr) (ty : Ty) (d : VReg) (a : VSrc) (b : SSrc) (fill : Option VSrc)
  | vlrot (h : Hdr) (ty : Ty) (d : VReg) (a : VSrc) (b : SSrc) (fill : Option VSrc)
  | vred (h : Hdr) (ty : Ty) (op : RedOp) (rnd : Rnd) (d : SReg) (a : VSrc)
  | vscan (h : Hdr) (ty : Ty) (op : RedOp) (rnd : Rnd) (d : VReg) (a : VSrc)
  | vballot (h : Hdr) (d : SReg) (a : PReg)
  | vmatch (h : Hdr) (ty : Ty) (d : VReg) (a : VSrc)
  | pset (h : Hdr) (d : PReg) (a : SReg)
  | psetImm (h : Hdr) (d : PReg) (imm : Word32)
  | pand (h : Hdr) (d a b : PReg)
  | por (h : Hdr) (d a b : PReg)
  | pxor (h : Hdr) (d a b : PReg)
  | pnot (h : Hdr) (d a : PReg)
  | pmov (h : Hdr) (d a : PReg)
  | pcnt (h : Hdr) (d : SReg) (a : PReg)
  | pfirst (h : Hdr) (d : SReg) (a : PReg)
  -- state, class 0x6 (R186)
  | xacq (h : Hdr) (n : XSize)
  | xrel (h : Hdr)
  | sread (h : Hdr) (d : VSrc) (sr : BitVec 4)
  | swrite (h : Hdr) (sr : BitVec 4) (a : SReg)
  | genq (h : Hdr) (which : GenWhich) (d : SReg)
  | tagq (h : Hdr) (d : SReg) (src : TagqSrc)
  | rdtime (h : Hdr) (dom : Bool) (d : SReg)
  | lread (h : Hdr) (d a : SReg)
  | ctxsave (h : Hdr) (a : SReg)
  | ctxload (h : Hdr) (a : SReg)
  -- memory, class 0x7 (R234 to R240)
  | ldl (h : Hdr) (ty : Ty) (d : VReg) (m : Mem)
  | stl (h : Hdr) (ty : Ty) (d : VSrc) (m : Mem)
  | lds (h : Hdr) (ty : Ty) (d : VReg) (m : Mem)
  | sts (h : Hdr) (ty : Ty) (d : VSrc) (m : Mem)
  | ldg (h : Hdr) (ty : Ty) (d : VReg) (m : Mem)
  | stg (h : Hdr) (ty : Ty) (d : VSrc) (m : Mem)
  | ldx (h : Hdr) (ty : Ty) (d : VReg) (m : Mem)
  | stx (h : Hdr) (ty : Ty) (d : VSrc) (m : Mem)
  | ldb (h : Hdr) (ty : Ty) (d : VReg) (base : Option SReg) (off : Off)
  | ldbLoc (h : Hdr) (ty : Ty) (d : VReg) (base : Option SReg) (off : Off)
  | lda (h : Hdr) (ty : Ty) (ord : Order) (scp : Scope) (d : VReg) (m : Mem)
  | str (h : Hdr) (ty : Ty) (ord : Order) (scp : Scope) (c : VSrc) (m : Mem)
  | atom (h : Hdr) (ty : Ty) (op : AtomOp) (ord : Order) (scp : Scope) (d : VReg) (a : SReg) (b : VSrc)
      (off : Option Word32) (c : VSrc)
  | atomn (h : Hdr) (ty : Ty) (op : AtomOp) (ord : Order) (scp : Scope) (a : SReg) (b : VSrc)
      (off : Option Word32) (c : VSrc)
  | acas (h : Hdr) (ty : Ty) (ord : Order) (scp : Scope) (d : VReg) (a : SReg) (b : VSrc)
      (off : Option Word32) (c : VSrc)
  | fence (h : Hdr) (ord : Order) (scp : Scope)
  | prefg (h : Hdr) (m : Mem)
  | cflush (h : Hdr) (m : Mem)
  | cflushAll (h : Hdr)
  -- barriers, class 0x8 (R244)
  | abinit (h : Hdr) (b : BSlot) (a : SReg)
  | abexp (h : Hdr) (b : BSlot) (a : SReg)
  | abarr (h : Hdr) (b : BSlot) (a : SReg)
  | abwait (h : Hdr) (b : BSlot) (a : SReg)
  | abtest (h : Hdr) (d : SReg) (b : BSlot) (a : SReg)
  | abtestPar (h : Hdr) (d : SReg) (b : BSlot) (a : SReg)
  | abret (h : Hdr) (b : BSlot)
  | abq (h : Hdr) (w : AbqWhat) (d : SReg) (b : BSlot)
  | cbar (h : Hdr)
  | sbar (h : Hdr)
  -- far memory, class 0x9 (R252)
  | tfetch (h : Hdr) (ord : Order) (scp : Scope) (s : BSlot) (a b c : SReg)
  | tstore (h : Hdr) (ord : Order) (scp : Scope) (s : BSlot) (a b c : SReg)
  | twin (h : Hdr) (a : SReg)
  | twq (h : Hdr) (w : TwqWhat) (d : SReg)
  | mcopy (h : Hdr) (ord : Order) (scp : Scope) (s : BSlot) (a b c : SReg)
  | mfill (h : Hdr) (ord : Order) (scp : Scope) (s : BSlot) (a b c : SReg)
  | mred (h : Hdr) (ty : Ty) (op : MredOp) (ord : Order) (scp : Scope) (s : BSlot) (a b c : SReg)
  | msnap (h : Hdr) (ord : Order) (scp : Scope) (d a b : SReg)
  | mclose (h : Hdr) (ord : Order) (scp : Scope) (a : SReg)
  -- matrix, class 0xA (R267)
  | tdset (h : Hdr) (ty : Ty) (d : Desc) (a b : SReg)
  | tdtag (h : Hdr) (d : Desc) (tag : BitVec 4)
  | mma (h : Hdr) (ty : Ty) (inc : Incoming) (f : Bool) (d : Tile) (a b : Desc) (rows cols depth : BitVec 16)
  | mmas (h : Hdr) (ty : Ty) (inc : Incoming) (d : Tile) (a b : Desc) (rows cols depth : BitVec 16)
  | mzero (h : Hdr) (d : Tile) (ms : Masks)
  | mew (h : Hdr) (ty : Ty) (op : MewOp) (d a : Tile) (ms : Masks)
  | mst (h : Hdr) (ty : Ty) (rnd : Rnd) (sat : Bool) (d : Desc) (a : Tile) (ms : Masks)
  | mlda (h : Hdr) (ty : Ty) (d : Tile) (a : Desc) (ms : Masks)
  | mrdv (h : Hdr) (ty : Ty) (rnd : Rnd) (sat : Bool) (part : Fin 8) (d : VReg) (a : Tile) (r : Byte)
  | mwrv (h : Hdr) (ty : Ty) (part : Fin 8) (d : Tile) (a : VSrc) (r : Byte)
  | mtrn (h : Hdr) (d a : Tile)
  | mfen (h : Hdr) (ord : Order) (scp : Scope) (s : BSlot)
  | mfenNoarrive (h : Hdr) (scp : Scope)
  -- migration and bit-serial, class 0xB (R287 to R301)
  | mig (h : Hdr) (d : SReg) (base : Option SReg) (idx : Option VSrc) (off : Byte) (j : Word32)
  | home (h : Hdr)
  | migset (h : Hdr) (part : MigPart) (wb : Bool) (mask : Word64)
  | migsetHome (h : Hdr) (j : Word32)
  | migq (h : Hdr) (w : MigqWhat) (d : SReg)
  | bsadd (h : Hdr) (sat : Bool) (d a b c : SReg) (wa wb wd : BitVec 4) (sg : Bool)
  | bsmul (h : Hdr) (sat : Bool) (d a b c : SReg) (wa wb wd : BitVec 4) (sg : Bool)
  | bsmac (h : Hdr) (sat : Bool) (d a b c : SReg) (wa wb wd : BitVec 4) (sg : Bool)
  | bscmp (h : Hdr) (cond : Cond) (d a b c : SReg) (wa wb wd : BitVec 4) (sg : Bool)
  | bspopc (h : Hdr) (d a c : SReg) (wa : BitVec 4) (sg : Bool)
  -- fabric, class 0xC (R322)
  | xsend (h : Hdr) (ord : Order) (scp : Scope) (d : SReg) (a : VReg) (b c : SReg)
  | xsendNobar (h : Hdr) (ord : Order) (scp : Scope) (a : VReg) (b c : SReg)
  | xsendf (h : Hdr) (ord : Order) (scp : Scope) (d : SReg) (a : VReg) (b c : SReg)
  | xget (h : Hdr) (ty : Ty) (ord : Order) (scp : Scope) (d : VReg) (a b : VSrc)
  | xatom (h : Hdr) (ty : Ty) (op : AtomOp) (ord : Order) (scp : Scope) (d : VReg) (a b c : VSrc)
  | xmcast (h : Hdr) (ord : Order) (scp : Scope) (d a b : SReg) (g : Byte) (len : BitVec 3) (slot : BSlot) (bv : Bool)
  | xfence (h : Hdr) (scp : Scope)
  | xred (h : Hdr) (ty : Ty) (srnd : Bool) (ord : Order) (scp : Scope) (d a b c : SReg)
  | xresid (h : Hdr) (op : ResidOp)
  | xgrpSet (h : Hdr) (g : Byte) (a : SReg)
  | xgrpGet (h : Hdr) (g : Byte) (a : SReg)
  -- launch, class 0xD (R193)
  | lnch (h : Hdr) (d a : SReg)
  | larm (h : Hdr) (d a : SReg) (b : BSlot)
  | ldep (h : Hdr) (a : SReg)
  | lprio (h : Hdr) (a b : SReg)
  | lwait (h : Hdr) (d a : SReg)
  -- system, class 0xE (R198)
  | rrset (h : Hdr) (a b c : SReg) (own : Bool) (ctx : BitVec 10) (n : BitVec 4)
  | rrinv (h : Hdr) (own : Bool) (ctx : BitVec 10) (mask : BitVec 16)
  | pginv (h : Hdr) (a b : SReg)
  | pginvMod (h : Hdr) (a : SReg)
  | wcsld (h : Hdr) (a : SReg) (m : Fin 64) (n : BitVec 5)
  | wcsldAll (h : Hdr) (a : SReg) (m : Fin 64) (n : BitVec 5)
  | evpost (h : Hdr) (a b c : SReg)
  | preq (h : Hdr) (d a : SReg)
  | preqRel (h : Hdr) (a : SReg)
  | dbgrd (h : Hdr) (w : DbgWhat) (d a : SReg)
  | gensweep (h : Hdr)
  | gensweepSlice (h : Hdr)
  -- events of the core, its registers and its slots
  | loadLaneReturn (p : Place) (id lane : Nat)
  | memoryFaultSettle (p : Place) (b : Bool)
  | trapEntry (p : Place) (b : Bool)
  | extendedBlockGrant (core : Nat)
  | compactorMove (core : Nat)
  | compactorMoveDone (core : Nat)
  | sweeperPassEnd (slice : Bool) (n : Nat)
  -- events of the Orrery
  | submissionWrite (ctx off : Nat) (data : List Byte)
  | orreryAdmit
  | spanPlacement
  | crewRetire (crew : Nat)
  | preemptionWaitExpiry (launch : Nat)
  | spanSave (span : Nat)
  | spanRestore (span : Nat)
  | recallTimeout (p : Place)
  -- events of the Sextant, the matrix engine and the permit governor
  | chunkSend (core : Nat)
  | chunkArrival (id : Nat)
  | matrixCommandExecute (core : Nat)
  | matrixCommandComplete (core : Nat)
  | matrixBurstEnd (core : Nat)
  | permitGrant (power : Nat)
  | moduleRoomReport (m : Nat)
  | reservationExpiry (ctx num : Nat)
  | eventQueueRecheck
  -- events of the Heliostat
  | continuationDepart (id : Nat)
  | continuationArrival (id : Nat)
  | migrationReturn (id : Nat)
  -- events of the fabric and the link layer
  | frameSend (fibre : Nat)
  | frameWrite (fibre : Nat) (f : Frame)
  | frameReadRequest (fibre : Nat) (f : Frame)
  | frameReadResponse (fibre : Nat) (f : Frame)
  | frameAtomicRequest (fibre : Nat) (f : Frame)
  | frameAtomicResponse (fibre : Nat) (f : Frame)
  | frameEndToEndAck (fibre : Nat) (f : Frame)
  | frameMulticast (fibre : Nat) (f : Frame)
  | frameIdle (fibre : Nat) (f : Frame)
  | replayRequest (fibre : Nat) (f : Frame)
  | frameModuleCompletion (fibre : Nat) (f : Frame)
  | frameCorrupt (fibre : Nat)
  | replayTimeout (fibre : Nat)
  | relayForward (id : Nat)
  | relayLossTimeout (peer : Nat)
  | multicastMemberTimeout (xid child : Nat)
  | rotorSlotBoundary (plane : Nat)
  | guardBeacon (plane cycle slot domain : Nat)
  | rotorPlaneFailure (plane : Nat) (offset : Option Nat)
  | rotorPlaneRestore (plane : Nat) (offset : Option Nat)
  | wavelengthWindowEnd (fibre wl corrected : Nat)
  | uncorrectableCodeword (fibre group : Nat)
  | lossOfLock (fibre wl : Nat)
  | erasureDeclare (fibre wl : Nat)
  | linkEscalation (fibre group : Nat)
  | retrainSlot (fibre group : Nat) (lit : Bool)
  | forcedRetrain (fibre group : Nat)
  | forcedRetrainEnd (fibre group : Nat) (ok : Bool)
  | laserAgeingThreshold (fibre wl rise : Nat)
  | theodoliteWatchdogReset (engine : Nat)
  | theodoliteRecovered (engine : Nat)
  | lrRetryTimeout (link : Nat)
  | lrAckTimeout (link : Nat)
  | lrTrainingAttempt (link : Nat) (ok : Bool)
  | lrLinkTrained (link : Nat) (keyHash : BitVec 256) (rtt : Nat)
  | lrLossDiscard (link : Nat)
  | lrRekey (link : Nat) (out : Bool)
  | lrDedupExpiry (link : Nat) (xid : BitVec 16) (daddr : BitVec 56)
  -- events of modules, containment and the environment
  | moduleFault (m sub addr unit : Nat)
  | moduleRecovered (m : Nat)
  | discardRelease (launch : Nat)
  | thermalWarning (temp : Nat)
  | thermalThrottle (temp : Nat)
  | thermalRecover (temp : Nat)
  | powerExcursion (power : Nat)
  | thermalShutdown (temp : Nat)
  -- events of bring-up, the host port and the control die
  | coldReset
  | identityEntry
  | stateReqOptics
  | opticsTrainingDone (ok : Bool)
  | stateReqMapped
  | stateReqOperational
  | ctxCreate (c : Nat) (w : Vector Word64 8)
  | ctxDelete (c : Nat)
  | ctxPreSet (c : Nat)
  | ctxPreClear (c : Nat)
  | splitRequest (fibre : Nat) (n : Byte)
  | invarCheckpoint
  | checkpointDone (ok : Bool) (us : Nat)
  | invarPersist
  | persistDone (ok : Bool) (us : Nat)
  | invarRestore
  | restoreDone (ok : Bool) (us : Nat)
  | qctlSign
  | quoteReady
  | hostWindowRead (off n : Nat)
  | hostWindowWrite (off : Nat) (data : List Byte)
  | registerWrite (off : Nat) (val : Word64)
  | powerExcursionEnd (power : Nat)
  | firmwareStagingWrite (off : Nat) (data : List Byte)
  deriving DecidableEq, Repr

end Sys2Proof
end

