-- ==== Sys2Proof/Machine/Num.lean ====
section
/-!
DEFINITION. Numbers (spec 04): integers that wrap or saturate, float formats bit by bit, exact values and their one
rounding, special values, conversions, stochastic rounding, block quantisation, and the bounds of the approximate
instructions (Table 10-4).
-/

namespace Sys2Proof.Machine

open Sys2Proof

/-! Integers (R68, R69). -/

/-- The exact value wrapped to w bits. -/
def wrapI (w : Nat) (x : Int) : BitVec w := BitVec.ofInt w x

/-- The exact value clamped to the range of a signed or unsigned type of w bits, as bits. -/
def clampI (w : Nat) (signed : Bool) (x : Int) : BitVec w :=
  let lo : Int := if signed then -(2 ^ (w - 1) : Nat) else 0
  let hi : Int := if signed then (2 ^ (w - 1) : Nat) - 1 else (2 ^ w : Nat) - 1
  BitVec.ofInt w (if x < lo then lo else if hi < x then hi else x)

/-- Wraps, or clamps under .sat (R69). -/
def narrowI (w : Nat) (signed sat : Bool) (x : Int) : BitVec w := if sat then clampI w signed x else wrapI w x

/-- Reads bits as a signed or an unsigned integer. -/
def readI {w : Nat} (signed : Bool) (x : BitVec w) : Int := if signed then x.toInt else x.toNat

/-- Quotient truncated towards zero; division by zero gives 0 (R69). -/
def quotI (a b : Int) : Int := if b = 0 then 0 else Int.tdiv a b

/-- Remainder; division by zero gives the dividend (R69). -/
def remI (a b : Int) : Int := if b = 0 then a else a - b * Int.tdiv a b

/-- An integer condition. -/
def condHolds (c : Cond) (a b : Int) : Bool :=
  match c with
  | .eq => a == b
  | .ne => a != b
  | .lt => decide (a < b)
  | .le => decide (a ≤ b)
  | .gt => decide (b < a)
  | .ge => decide (b ≤ a)

/-- The i types are signed. -/
def tySigned : Ty → Bool
  | .i4 | .i8 | .i16 | .i32 | .i64 | .i8x4 | .i4x8 => true
  | _ => false

/-- Leading zeros of a word of w bits. -/
def clz {w : Nat} (x : BitVec w) : Nat := if x = 0 then w else w - 1 - Nat.log2 x.toNat

/-- One bits among the low n. -/
def popcNat : Nat → Nat → Nat
  | 0, _ => 0
  | n + 1, x => x % 2 + popcNat n (x / 2)

def popc {w : Nat} (x : BitVec w) : Nat := popcNat w x.toNat

/-! Float values (R70 to R73). -/

/-- A value: NaN, an infinity, or (−1)^neg × m × 2^e. -/
inductive FV where
  | nan
  | inf (neg : Bool)
  | fin (neg : Bool) (m : Nat) (e : Int)
  deriving DecidableEq, Repr

/-- What the all-ones exponent means: infinity and NaN, NaN only at the all-ones mantissa, or a number. -/
inductive FKind where
  | ieee
  | nanOnly
  | plain
  deriving DecidableEq, Repr

/-- A format: exponent bits, mantissa bits, bias. -/
structure Fmt where
  e : Nat
  m : Nat
  bias : Int
  kind : FKind
  deriving DecidableEq, Repr

def fmtF16 : Fmt := ⟨5, 10, 15, .ieee⟩
def fmtBf16 : Fmt := ⟨8, 7, 127, .ieee⟩
def fmtF32 : Fmt := ⟨8, 23, 127, .ieee⟩
def fmtF64 : Fmt := ⟨11, 52, 1023, .ieee⟩
def fmtE4m3 : Fmt := ⟨4, 3, 7, .nanOnly⟩
def fmtE5m2 : Fmt := ⟨5, 2, 15, .ieee⟩
def fmtE3m2 : Fmt := ⟨3, 2, 3, .plain⟩
def fmtE2m3 : Fmt := ⟨2, 3, 1, .plain⟩
def fmtE2m1 : Fmt := ⟨2, 1, 1, .plain⟩
def fmtAcc : Fmt := ⟨15, 80, 16383, .ieee⟩

/-- The format of a float type's element. -/
def tyFmt : Ty → Fmt
  | .f16 | .f16x2 => fmtF16
  | .bf16 | .bf16x2 => fmtBf16
  | .f64 => fmtF64
  | .e4m3 => fmtE4m3
  | .e5m2 => fmtE5m2
  | .e3m2 => fmtE3m2
  | .e2m3 => fmtE2m3
  | .e2m1 => fmtE2m1
  | _ => fmtF32

/-- emax of a narrow element format, Table 4-3. -/
def tyEmax : Ty → Int
  | .e4m3 => 8
  | .e5m2 => 15
  | .e3m2 => 4
  | _ => 2

/-- The value of an encoding. -/
def Fmt.decode (f : Fmt) (x : Nat) : FV :=
  let m := x % 2 ^ f.m
  let e := x / 2 ^ f.m % 2 ^ f.e
  let neg := x / 2 ^ (f.m + f.e) % 2 == 1
  if f.kind == .ieee && e == 2 ^ f.e - 1 then (if m = 0 then .inf neg else .nan)
  else if f.kind == .nanOnly && e == 2 ^ f.e - 1 && m == 2 ^ f.m - 1 then .nan
  else if e = 0 then .fin neg m (1 - f.bias - f.m)
  else .fin neg (m + 2 ^ f.m) (e - f.bias - f.m)

/-- The sign bit in place. -/
def Fmt.sign (f : Fmt) (neg : Bool) : Nat := if neg then 2 ^ (f.e + f.m) else 0

/-- The canonical NaN; a format without NaN gives +0 (R78, R81). -/
def Fmt.nan (f : Fmt) : Nat :=
  match f.kind with
  | .ieee => (2 ^ f.e - 1) * 2 ^ f.m + 2 ^ (f.m - 1)
  | .nanOnly => 2 ^ (f.e + f.m) - 1
  | .plain => 0

/-- The magnitude of the largest finite value, as an encoding. -/
def Fmt.maxFin (f : Fmt) : Nat :=
  match f.kind with
  | .ieee => (2 ^ f.e - 1) * 2 ^ f.m - 1
  | .nanOnly => 2 ^ (f.e + f.m) - 2
  | .plain => 2 ^ (f.e + f.m) - 1

/-- An infinite value, Table 4-8. -/
def Fmt.infinity (f : Fmt) (sat neg : Bool) : Nat :=
  if sat then f.sign neg + f.maxFin
  else match f.kind with
    | .ieee => f.sign neg + (2 ^ f.e - 1) * 2 ^ f.m
    | .nanOnly => f.nan
    | .plain => f.sign neg + f.maxFin

/-- A finite value beyond the largest finite one (R75, Table 4-8). -/
def Fmt.overflow (f : Fmt) (mode : Rnd) (sat neg : Bool) : Nat :=
  if sat then f.sign neg + f.maxFin
  else match f.kind with
    | .nanOnly => f.nan
    | .plain => f.sign neg + f.maxFin
    | .ieee =>
      let big := f.sign neg + (2 ^ f.e - 1) * 2 ^ f.m
      let fin := f.sign neg + f.maxFin
      match mode with
      | .rne | .srnd => big
      | .rtz => fin
      | .rup => if neg then fin else big
      | .rdn => if neg then big else fin

/-- Whether a magnitude lo + rem ÷ 2^sh rounds up to lo + 1 (Table 4-6, R76); `rnd` is the 32-bit draw. -/
def roundsUp (mode : Rnd) (rnd : Nat) (neg : Bool) (lo rem sh : Nat) : Bool :=
  match mode with
  | .rne => 2 * rem > 2 ^ sh || (2 * rem == 2 ^ sh && lo % 2 == 1)
  | .rtz => false
  | .rup => !neg && rem != 0
  | .rdn => neg && rem != 0
  | .srnd => decide (rnd < rem * 2 ^ 32 / 2 ^ sh)

/-- m × 2^e rounded to a multiple of 2^u, in units of 2^u. A magnitude far below 2^u is shortened first, which keeps
every comparison. -/
def roundMag (mode : Rnd) (rnd : Nat) (neg : Bool) (m : Nat) (e u : Int) : Nat :=
  if u ≤ e then m * 2 ^ (e - u).toNat
  else
    let sh := (u - e).toNat
    let big := Nat.log2 m + 40 < sh
    let m' := if big then (if m = 0 then 0 else 1) else m
    let sh' := if big then 40 else sh
    let lo := m' / 2 ^ sh'
    let rem := m' % 2 ^ sh'
    lo + (if roundsUp mode rnd neg lo rem sh' then 1 else 0)

/-- The encoding of a value rounded once (R74, R75, R81). A result overflows when, rounded as if the exponent had no bound, it
lies beyond the largest finite value: 65,512 to f16 under RNE is 65,504, and 449 to 463 to e4m3 is 448 (R75 and R81 do not
say whether the value before or after rounding decides: DEDUCED, log entry 106). -/
def Fmt.round (f : Fmt) (mode : Rnd) (rnd : Nat) (sat : Bool) (v : FV) : Nat :=
  match v with
  | .nan => f.nan
  | .inf neg => f.infinity sat neg
  | .fin neg m e =>
    if m = 0 then f.sign neg
    else
      let top : Int := Nat.log2 m + e
      let emin : Int := 1 - f.bias
      if (2 ^ f.e : Nat) - f.bias + 1 < top then f.overflow mode sat neg
      else
        let u : Int := (if top < emin then emin else top) - f.m
        let mag := roundMag mode rnd neg m e u
        -- the encoding of mag × 2^u: exponent field and mantissa add up, carries included
        let enc := if mag < 2 ^ f.m then mag else (u + f.m + f.bias - 1).toNat * 2 ^ f.m + mag
        if f.maxFin < enc then f.overflow mode sat neg else f.sign neg + enc

/-- Clears the sign or negates. -/
def FV.neg : FV → FV
  | .nan => .nan
  | .inf n => .inf (!n)
  | .fin n m e => .fin (!n) m e

def FV.isNeg : FV → Bool
  | .nan => false
  | .inf n => n
  | .fin n _ _ => n

def FV.isNan : FV → Bool
  | .nan => true
  | _ => false

def FV.isInf : FV → Bool
  | .inf _ => true
  | _ => false

def FV.isZero : FV → Bool
  | .fin _ m _ => m == 0
  | _ => false

/-- A signed integer times a power of two. -/
def FV.ofInt (x : Int) (e : Int) : FV := .fin (decide (x < 0)) x.natAbs e

/-- The mantissas of two finite values at their common exponent. -/
def alignInt (n : Bool) (m : Nat) (e lo : Int) : Int :=
  let x : Int := (m * 2 ^ (e - lo).toNat : Nat)
  if n then -x else x

/-- The exact sum (R79); `rdn` gives the sign of a cancelling sum. -/
def FV.add (rdn : Bool) (x y : FV) : FV :=
  match x, y with
  | .nan, _ => .nan
  | _, .nan => .nan
  | .inf a, .inf b => if a = b then .inf a else .nan
  | .inf a, _ => .inf a
  | _, .inf b => .inf b
  | .fin a m e, .fin b n f =>
    if m = 0 ∧ n = 0 then .fin (if a = b then a else rdn) 0 0
    else if m = 0 then y
    else if n = 0 then x
    else
      let lo := min e f
      let s := alignInt a m e lo + alignInt b n f lo
      if s = 0 then .fin rdn 0 0 else FV.ofInt s lo

/-- The exact product (R79). -/
def FV.mul (x y : FV) : FV :=
  match x, y with
  | .nan, _ => .nan
  | _, .nan => .nan
  | .inf a, .inf b => .inf (a != b)
  | .inf a, .fin b n _ => if n = 0 then .nan else .inf (a != b)
  | .fin a m _, .inf b => if m = 0 then .nan else .inf (a != b)
  | .fin a m e, .fin b n f => .fin (a != b) (m * n) (e + f)

/-- a × b + c with one rounding to come. -/
def FV.fma (rdn : Bool) (a b c : FV) : FV := FV.add rdn (FV.mul a b) c

/-- The quotient, with a sticky low bit far below any rounding place. -/
def FV.div (x y : FV) : FV :=
  match x, y with
  | .nan, _ => .nan
  | _, .nan => .nan
  | .inf _, .inf _ => .nan
  | .inf a, .fin b _ _ => .inf (a != b)
  | .fin a _ _, .inf b => .fin (a != b) 0 0
  | .fin a m e, .fin b n f =>
    if n = 0 then (if m = 0 then .nan else .inf (a != b))
    else if m = 0 then .fin (a != b) 0 0
    else
      let k := 128 + Nat.log2 n
      let q := m * 2 ^ k / n
      let r := m * 2 ^ k % n
      .fin (a != b) (2 * q + (if r = 0 then 0 else 1)) (e - f - k - 1)

/-- The square root, with a sticky low bit. -/
def FV.sqrt (x : FV) : FV :=
  match x with
  | .nan => .nan
  | .inf a => if a then .nan else .inf false
  | .fin a m e =>
    if m = 0 then .fin a 0 0
    else if a then .nan
    else
      let k : Nat := if e % 2 = 0 then 256 else 257
      let w := m * 2 ^ k
      let q := Nat.sqrt w
      .fin false (2 * q + (if q * q = w then 0 else 1)) ((e - k) / 2 - 1)

/-- a × 2^b. -/
def FV.scale (x : FV) (b : Int) : FV :=
  match x with
  | .fin n m e => .fin n m (e + b)
  | v => v

/-- The greatest integer at most a finite value, as an exact value that keeps the sign of zero (R215). -/
def FV.floor (x : FV) : FV :=
  match x with
  | .fin n m e =>
    if 0 ≤ e then x
    else
      let k := (-e).toNat
      let big := Nat.log2 m + 2 < k
      let d := if big then 0 else m / 2 ^ k
      let exact := if big then m == 0 else m % 2 ^ k == 0
      .fin n (if n && !exact then d + 1 else d) 0
  | v => v

/-- The least integer at least a value. -/
def FV.ceil (x : FV) : FV := (x.neg.floor).neg

/-- Less than, on values that are not NaN; −0 and +0 are equal. -/
def FV.lt (x y : FV) : Bool :=
  match x, y with
  | .nan, _ => false
  | _, .nan => false
  | .inf a, .inf b => a && !b
  | .inf a, .fin _ _ _ => a
  | .fin _ _ _, .inf b => !b
  | .fin a m e, .fin b n f =>
    -- compare leading places first, so that no shift is longer than the values need
    if m = 0 ∧ n = 0 then false
    else if m = 0 then !b
    else if n = 0 then a
    else if a != b then a
    else
      let tx : Int := Nat.log2 m + e
      let ty : Int := Nat.log2 n + f
      if tx < ty then !a
      else if ty < tx then a
      else
        let lo := min e f
        decide (alignInt a m e lo < alignInt b n f lo)

def FV.eq (x y : FV) : Bool := !x.isNan && !y.isNan && !x.lt y && !y.lt x

/-- A float condition (R80). -/
def fcondHolds (c : FCond) (x y : FV) : Bool :=
  let un := x.isNan || y.isNan
  match c with
  | .eq => FV.eq x y
  | .ne => !FV.eq x y
  | .lt => x.lt y
  | .le => !un && !y.lt x
  | .gt => y.lt x
  | .ge => !un && !x.lt y
  | .un => un
  | .ord => !un

/-- minimumNumber (R80): true where the first operand is the result. -/
def FV.minFirst (x y : FV) : Bool :=
  if x.isNan then false
  else if y.isNan then true
  else if x.lt y then true
  else if y.lt x then false
  else x.isNeg

def FV.minNum (x y : FV) : FV := if x.minFirst y then x else y
def FV.maxNum (x y : FV) : FV :=
  if x.isNan then y
  else if y.isNan then x
  else if x.lt y then y
  else if y.lt x then x
  else if x.isNeg then y else x

/-- A value rounded to an integer (R82). -/
def FV.toInt (mode : Rnd) (rnd : Nat) (v : FV) : Int :=
  match v with
  | .fin n m e =>
    let x : Int := (roundMag mode rnd n m (min e 200) 0 : Nat)
    if n then -x else x
  | _ => 0

/-- Float to integer: saturates; NaN gives 0 (R82). -/
def FV.toBits (w : Nat) (signed : Bool) (mode : Rnd) (rnd : Nat) (v : FV) : BitVec w :=
  match v with
  | .nan => 0
  | .inf neg =>
    if signed then BitVec.ofInt w (if neg then -(2 ^ (w - 1) : Nat) else (2 ^ (w - 1) : Nat) - 1)
    else if neg then 0 else BitVec.allOnes w
  | v => clampI w signed (FV.toInt mode rnd v)

/-- The class mask of VFCLASS (R215). -/
def Fmt.classOf (f : Fmt) (x : Nat) : Nat :=
  let sub := x / 2 ^ f.m % 2 ^ f.e == 0
  match f.decode x with
  | .nan => 1
  | .inf neg => if neg then 2 else 256
  | .fin neg m _ =>
    if m = 0 then (if neg then 16 else 32)
    else if sub then (if neg then 8 else 64)
    else if neg then 4 else 128

/-! Stochastic rounding (R76). -/

def laneRand (s : Word64) (n : Nat) : Word64 :=
  let z := s + BitVec.ofNat 64 ((n + 1) * 0x9E3779B97F4A7C15)
  let z := (z ^^^ (z >>> 30)) * 0xBF58476D1CE4E5B9
  let z := (z ^^^ (z >>> 27)) * 0x94D049BB133111EB
  z ^^^ (z >>> 31)

def stepState (s : Word64) : Word64 :=
  let s := s ^^^ (s <<< 13)
  let s := s ^^^ (s >>> 7)
  s ^^^ (s <<< 17)

/-- The 32-bit draw of element j of lane L. -/
def drawOf (s : Word64) (j lane : Nat) : Nat := (laneRand s (32 * j + lane)).toNat % 2 ^ 32

/-! Block quantisation (R85, R86). -/

/-- Quantises the participating values of a block: scale byte, and an encoding for each; the Bool is QNV. -/
def quantise (ty : Ty) (mode : Rnd) (rnd : Nat → Nat) (vals : List (Option FV)) : Byte × List Nat × Bool :=
  let f := (tyFmt ty)
  let part := vals.filterMap id
  if part.any (fun v => v.isNan || v.isInf) then (0xFF, vals.map (fun _ => 0), true)
  else
    let tops := part.filterMap fun v => match v with
      | .fin _ m e => if m = 0 then none else some ((Nat.log2 m : Int) + e)
      | _ => none
    match tops with
    | [] => (0, vals.map (fun o => match o with
        | some v => f.round mode 0 true v
        | none => 0), false)
    | t :: ts =>
      let top := ts.foldl max t
      let x : Int := max (-127) (min 127 (top - tyEmax ty))
      let els := vals.zipIdx.map fun p => match p.1 with
        | some v => f.round mode (rnd p.2) true (v.scale (-x))
        | none => 0
      (BitVec.ofInt 8 (x + 127), els, false)

/-- An element with its scale; 0xFF makes NaN (R86). -/
def scaled (v : FV) (x : Byte) : FV := if x = 0xFF then .nan else v.scale ((x.toNat : Int) - 127)

/-! The approximate instructions (R214, R215, Table 10-4): a reference value by series in fixed point with 192 fraction
bits, and the free bits of the package where they lie within the bound. -/

/-- Fraction bits of the series. -/
def serBits : Nat := 192

/-- The product of two fixed-point numbers. -/
def fxMul (a b : Int) : Int := a * b / (2 ^ serBits : Nat)

/-- ln 2 in fixed point: the sum of 1 ÷ (k 2^k). -/
def fxLn2 : Int := (List.range 200).foldl (fun s k => s + ((2 ^ serBits : Nat) : Int) / (((k + 1) * 2 ^ (k + 1) : Nat) : Int)) 0

/-- exp of a fixed-point number of small magnitude. -/
def fxExp (x : Int) : Int :=
  ((List.range 60).foldl (fun (st : Int × Int) (k : Nat) => (st.1 + st.2, fxMul st.2 x / ((k : Int) + 1)))
    ((0 : Int), ((2 ^ serBits : Nat) : Int))).1

/-- π in fixed point, by Machin's formula. -/
def fxAtanInv (n : Nat) : Int :=
  ((List.range 140).foldl (fun (st : Int × Int) (k : Nat) =>
    (st.1 + (if k % 2 = 0 then st.2 else -st.2) / (2 * (k : Int) + 1), st.2 / ((n * n : Nat) : Int)))
    ((0 : Int), ((2 ^ serBits : Nat) : Int) / (n : Int))).1

def fxPi : Int := 4 * (4 * fxAtanInv 5 - fxAtanInv 239)

/-- sin of a fixed-point angle of magnitude at most π ÷ 2. -/
def fxSin (x : Int) : Int :=
  ((List.range 40).foldl (fun (st : Int × Int) (k : Nat) =>
    (st.1 + st.2, -(fxMul (fxMul st.2 x) x) / ((2 * (k : Int) + 2) * (2 * (k : Int) + 3))))
    ((0 : Int), x)).1

/-- A finite value as a fixed-point number of serBits fraction bits, rounded down; large magnitudes are cut. -/
def toFx (m : Nat) (e : Int) : Int := (roundMag .rtz 0 false m (min e 64) (-(serBits : Int)) : Nat)

/-- 2^a. -/
def refExp2 (n : Bool) (m : Nat) (e : Int) : FV :=
  let top : Int := Nat.log2 m + e
  if m = 0 then .fin false 1 0
  else if 16 ≤ top then .fin false 1 (if n then -100000 else 100000)
  else
    let x := if n then -(toFx m e) else toFx m e
    let k := x / ((2 ^ serBits : Nat) : Int)
    let fr := x - k * ((2 ^ serBits : Nat) : Int)
    .fin false (fxExp (fxMul fr fxLn2)).toNat (k - serBits)

/-- log2 of a positive value. -/
def refLog2 (m : Nat) (e : Int) : FV :=
  let l := Nat.log2 m
  let one : Int := ((2 ^ serBits : Nat) : Int)
  let x : Int := (m * 2 ^ serBits / 2 ^ l : Nat)
  let z := (x - one) * one / (x + one)
  let z2 := fxMul z z
  let s := ((List.range 70).foldl (fun (st : Int × Int) (k : Nat) => (st.1 + st.2 / (2 * (k : Int) + 1), fxMul st.2 z2))
    ((0 : Int), z)).1
  FV.ofInt (((l : Int) + e) * one + 2 * s * one / fxLn2) (-(serBits : Int))

/-- sin(2π r) with r in [0, 1) in fixed point. -/
def refTurn (r : Int) : FV :=
  let one : Int := ((2 ^ serBits : Nat) : Int)
  let neg := one / 2 ≤ r
  let r := if neg then r - one / 2 else r
  let r := if one / 4 < r then one / 2 - r else r
  let v := fxSin (fxMul (2 * r) fxPi)
  FV.ofInt (if neg then -v else v) (-(serBits : Int))

/-- a modulo 1 in fixed point. -/
def turnOf (n : Bool) (m : Nat) (e : Int) : Int :=
  let one : Int := ((2 ^ serBits : Nat) : Int)
  if 0 ≤ e then 0
  else
    let x : Int := (roundMag .rtz 0 false (if (Nat.log2 m : Int) + e < 0 then m else m % 2 ^ (-e).toNat) e (-(serBits : Int)) : Nat)
    let y := (if n then -x else x) % one
    y

/-- tanh of a finite value. -/
def refTanh (n : Bool) (m : Nat) (e : Int) : FV :=
  let one : Int := ((2 ^ serBits : Nat) : Int)
  let top : Int := Nat.log2 m + e
  let v : Int :=
    if m = 0 then 0
    else if 7 ≤ top then one - 1
    else
      let y := 2 * toFx m e * one / fxLn2
      let k := y / one
      let fr := y - k * one
      let ex := one * one / (fxExp (fxMul fr fxLn2)) / (2 ^ k.toNat : Nat)
      (one - ex) * one / (one + ex)
  FV.ofInt (if n then -v else v) (-(serBits : Int))

/-- The approximate instructions. -/
inductive ApFn where
  | rcp | rsq | exp2 | log2 | sin | cos | tanh
  deriving DecidableEq, Repr

def ApFn.code : ApFn → Nat
  | .rcp => 12
  | .rsq => 13
  | .exp2 => 15
  | .log2 => 16
  | .sin => 17
  | .cos => 18
  | .tanh => 19

/-- A result the spec fixes exactly: special values (Table 4-7) and the special points of R215. -/
def ApFn.exact (fn : ApFn) (v : FV) : Option FV :=
  match v with
  | .nan => some .nan
  | .inf neg => match fn with
    | .rcp => some (.fin neg 0 0)
    | .rsq => some (if neg then .nan else .fin false 0 0)
    | .exp2 => some (if neg then .fin false 0 0 else .inf false)
    | .log2 => some (if neg then .nan else .inf false)
    | .sin | .cos => some .nan
    | .tanh => some (.fin neg 1 0)
  | .fin neg m e =>
    if m = 0 then match fn with
      | .rcp | .rsq => some (.inf neg)
      | .exp2 | .cos => some (.fin false 1 0)
      | .log2 => some (.inf true)
      | .sin | .tanh => some (.fin neg 0 0)
    else match fn with
      | .rsq => if neg then some .nan else none
      | .log2 => if neg then some .nan else if FV.eq v (.fin false 1 0) then some (.fin false 0 0) else none
      | .sin | .cos =>
        let one : Int := ((2 ^ serBits : Nat) : Int)
        let quarter := (-2 ≤ e) || m % 2 ^ (-2 - e).toNat == 0
        if quarter then
          let q := (turnOf neg m e * 4 / one).toNat
          let q := if fn = .sin then q else (q + 1) % 4
          some (match q with
            | 1 => .fin false 1 0
            | 3 => .fin true 1 0
            | _ => .fin false 0 0)
        else none
      | _ => none

/-- The reference value where nothing is exact. -/
def ApFn.ref (fn : ApFn) (v : FV) : FV :=
  match v with
  | .fin n m e => match fn with
    | .rcp => FV.div (.fin false 1 0) v
    | .rsq => FV.sqrt (FV.div (.fin false 1 0) v)
    | .exp2 => refExp2 n m e
    | .log2 => refLog2 m e
    | .sin => refTurn (turnOf n m e)
    | .cos => refTurn ((turnOf n m e + ((2 ^ serBits : Nat) : Int) / 4) % ((2 ^ serBits : Nat) : Int))
    | .tanh => refTanh n m e
  | v => v

/-- Table 10-4: units in the last place, and the exponent of the absolute bound. -/
def ApFn.bound (fn : ApFn) (ty : Ty) : Nat × Option Int :=
  match fn, ty with
  | .rcp, _ => (1, none)
  | .rsq, _ => (1, none)
  | .exp2, .f32 => (2, none)
  | .log2, .f32 => (2, none)
  | .exp2, _ => (1, none)
  | .log2, _ => (1, none)
  | _, .f32 => (2, some (-22))
  | _, .f16x2 => (1, some (-11))
  | _, _ => (1, some (-8))

/-- The distance of two values is at most k × 2^x. -/
def within (a b : FV) (k : Nat) (x : Int) : Bool :=
  let d := FV.add false a b.neg
  match d with
  | .fin _ m e => !(FV.lt (.fin false k x) (.fin false m e))
  | _ => false

/-- The result bits of an approximate instruction: exact where the spec fixes them; otherwise the package's own bits,
a free value that Table 10-4 bounds, or the nearest encoding where those bits are out of bounds (log entry 13). -/
def approxBits (fn : ApFn) (ty : Ty) (x : Nat) : Nat :=
  let f := (tyFmt ty)
  let v := f.decode x
  match fn.exact v with
  | some r => f.round .rne 0 false r
  | none =>
    let t := fn.ref v
    let near := f.round .rne 0 false t
    let cand := (Config.approx fn.code (if ty = .f32 then 0x12 else if ty = .f16x2 then 0x14 else 0x15)
      (BitVec.ofNat 32 x)).toNat % 2 ^ (1 + f.e + f.m)
    let top : Int := match t with
      | .fin _ m e => Nat.log2 m + e
      | _ => 0
    let u : Int := (if top < 1 - f.bias then 1 - f.bias else top) - f.m
    let ok := match f.decode near, f.decode cand with
      | .fin _ _ _, .fin nb mb eb =>
        within (.fin nb mb eb) t (fn.bound ty).1 u || (match (fn.bound ty).2 with
          | some a => within (.fin nb mb eb) t 1 a
          | none => false)
      | _, _ => false
    if ok then cand else near

end Sys2Proof.Machine
end

