-- ==== Sys2Proof/WellFormed.lean ====
section
/-!
DEFINITION. Which instruction forms have an encoding: the limits the entries of spec 09 to 14 put on types,
modifiers, operands and immediate fields. `Instr.wf` is the conjunction of four checks, one for each reason of
Table 19-3 that a field can give. An event of the table has no encoding and is never well formed here.
-/

namespace Sys2Proof

/-- 64-bit types, whose vector operands name an even register (R156). -/
def Ty.is64 : Ty → Bool
  | .i64 | .n64 | .b64 | .f64 => true
  | _ => false

/-- Types of 32 bits. -/
def Ty.isF : Ty → Bool
  | .f16 | .bf16 | .f32 | .f64 => true
  | _ => false

/-- Types of VCVT that are integers (R217). -/
def Ty.isCvtInt : Ty → Bool
  | .i8 | .i16 | .i32 | .i64 | .n8 | .n16 | .n32 | .n64 => true
  | _ => false

/-- Types of loads and stores, Table 11-3. -/
def Ty.isMem : Ty → Bool
  | .i8 | .n8 | .i16 | .n16 | .f16 | .bf16 | .b32 | .i32 | .n32 | .f32 | .f16x2 | .bf16x2 | .e4m3 | .e5m2 | .e2m1
  | .e8m0 | .i8x4 | .i4x8 | .b64 | .i64 | .n64 | .f64 => true
  | _ => false

/-- Types of 4 and 8 bytes of Table 11-3, which LDA and XGET accept (R236, R322). -/
def Ty.isMem48 : Ty → Bool
  | .b32 | .i32 | .n32 | .f32 | .f16x2 | .bf16x2 | .e4m3 | .e5m2 | .e2m1 | .e8m0 | .i8x4 | .i4x8 | .b64 | .i64 | .n64
  | .f64 => true
  | _ => false

/-- The scalar integer types of Table 9-2. -/
def Ty.isS : Ty → Bool
  | .i64 | .n64 => true
  | _ => false

/-- The four float types of class 0x3 (R214). -/
def Ty.isVF : Ty → Bool
  | .f32 | .f64 | .f16x2 | .bf16x2 => true
  | _ => false

/-- The types of the approximate instructions (R214). -/
def Ty.isAp : Ty → Bool
  | .f32 | .f16x2 | .bf16x2 => true
  | _ => false

def Ty.isF3264 : Ty → Bool
  | .f32 | .f64 => true
  | _ => false

def Ty.isB : Ty → Bool
  | .b32 | .b64 => true
  | _ => false

/-- i32 and n32. -/
def Ty.isI32 : Ty → Bool
  | .i32 | .n32 => true
  | _ => false

/-- i32, n32, i64, n64. -/
def Ty.isI3264 : Ty → Bool
  | .i32 | .n32 | .i64 | .n64 => true
  | _ => false

/-- i32, n32, i64, n64, i8x4. -/
def Ty.isI3264x4 : Ty → Bool
  | .i32 | .n32 | .i64 | .n64 | .i8x4 => true
  | _ => false

/-- i32, n32, i8x4. -/
def Ty.isI32x4 : Ty → Bool
  | .i32 | .n32 | .i8x4 => true
  | _ => false

/-- i32, i64, i8x4. -/
def Ty.isAbs : Ty → Bool
  | .i32 | .i64 | .i8x4 => true
  | _ => false

def Ty.isShl : Ty → Bool
  | .b32 | .i32 | .n32 | .b64 | .i64 | .n64 => true
  | _ => false

def Ty.isShr : Ty → Bool
  | .b32 | .n32 | .b64 | .n64 => true
  | _ => false

def Ty.isMovi : Ty → Bool
  | .b32 | .i32 | .n32 | .f32 | .f16x2 | .bf16x2 | .i64 | .n64 | .f64 => true
  | _ => false

/-- Types of VCVT (R217). -/
def Ty.isCvt (t : Ty) : Bool := t.isCvtInt || t.isF

/-- Packed float rows of Table 10-6. -/
def Ty.isPackF : Ty → Bool
  | .f16x2 | .bf16x2 | .e4m3 | .e5m2 | .e2m1 | .e3m2 | .e2m3 => true
  | _ => false

/-- Packed integer rows of Table 10-6. -/
def Ty.isPackI : Ty → Bool
  | .i8x4 | .i4x8 => true
  | _ => false

def Ty.isE6 : Ty → Bool
  | .e3m2 | .e2m3 => true
  | _ => false

/-- Element types of VQUANT and VDEQ (R220, R221). -/
def Ty.isQuant : Ty → Bool
  | .e4m3 | .e5m2 | .e2m1 | .e3m2 | .e2m3 => true
  | _ => false

/-- Number of VPACK parts, Table 10-6. -/
def Ty.packParts : Ty → Nat
  | .f16x2 | .bf16x2 => 1
  | .e2m1 | .i4x8 => 4
  | _ => 2

/-- Number of VUNPK parts, Table 10-6; also the number of elements in a packed register. -/
def Ty.unpkParts : Ty → Nat
  | .f16x2 | .bf16x2 => 2
  | .e2m1 | .i4x8 => 8
  | _ => 4

/-- Types of the matrix elements (R267). -/
def Ty.isMma : Ty → Bool
  | .f16 | .bf16 | .e4m3 | .e5m2 | .e3m2 | .e2m3 | .e2m1 | .i8x4 | .i4x8 => true
  | _ => false

def Ty.isMmas : Ty → Bool
  | .f16 | .bf16 | .e4m3 | .e5m2 | .i8x4 => true
  | _ => false

def Ty.isTdset : Ty → Bool
  | .none | .f16 | .bf16 | .e4m3 | .e5m2 | .e3m2 | .e2m3 | .e2m1 | .i8x4 | .i4x8 | .f32 | .i32 => true
  | _ => false

def Ty.isMst : Ty → Bool
  | .f32 | .f16 | .bf16 | .e4m3 | .e5m2 | .e2m1 | .i32 => true
  | _ => false

def Ty.isMrdv : Ty → Bool
  | .f32 | .f64 | .i32 | .b32 => true
  | _ => false

/-- Depth limit K of Table 12-2. -/
def Ty.matK : Ty → Nat
  | .f16 | .bf16 => 128
  | .e2m1 | .i4x8 => 512
  | _ => 256

/-- The types each atomic operation accepts, Table 11-6. -/
def AtomOp.accepts : AtomOp → Ty → Bool
  | .add, t => t.isI3264 || t == .f32
  | .min, t => t.isI3264 || t == .f32
  | .max, t => t.isI3264 || t == .f32
  | .and, t => t.isB
  | .or, t => t.isB
  | .xor, t => t.isB
  | .exch, t => t.isB
  | .inc, t => t == .n32

/-- The types each reduction accepts (R229). -/
def RedOp.accepts : RedOp → Ty → Bool
  | .add, t => t.isI32 || t == .f32
  | .min, t => t.isI32 || t == .f32
  | .max, t => t.isI32 || t == .f32
  | .and, t => t == .b32
  | .or, t => t == .b32
  | .xor, t => t == .b32

/-- The second type of VCVT, VUNPK. -/
def Instr.tyOk : Instr → Bool
  | .smovi _ ty .. => ty.isS
  | .sadd _ ty .. | .ssub _ ty .. | .smul _ ty .. | .smulh _ ty .. | .sdiv _ ty .. | .srem _ ty .. | .smin _ ty ..
  | .smax _ ty .. | .scmp _ ty .. | .slea _ ty .. => ty.isS
  | .sshl _ ty .. => ty.isS || ty == .b64
  | .sshr _ ty .. => ty == .b64 || ty == .n64
  | .sbfe _ ty .. => ty.isS || ty == .b64
  | .vmov _ ty .. => ty.isB
  | .vmovi _ ty .. => ty.isMovi
  | .vadd _ ty .. | .vsub _ ty .. | .vmin _ ty .. | .vmax _ ty .. => ty.isI3264x4
  | .vadds _ ty .. | .vsubs _ ty .. => ty.isI32x4
  | .vmul _ ty .. | .vmulh _ ty .. | .vmad _ ty .. | .vbfe _ ty .. => ty.isI32
  | .vabs _ ty .. | .vneg _ ty .. => ty.isAbs
  | .vand _ ty .. | .vor _ ty .. | .vxor _ ty .. | .vnot _ ty .. | .vsel _ ty .. => ty.isB
  | .vshl _ ty .. => ty.isShl
  | .vshr _ ty .. => ty.isShr
  | .vsar _ ty .. => ty == .i32 || ty == .i64
  | .vcmp _ ty .. | .vlea _ ty .. => ty.isI3264
  | .vfadd _ ty .. | .vfsub _ ty .. | .vfmul _ ty .. | .vfma _ ty .. | .vfnma _ ty .. | .vfmin _ ty .. | .vfmax _ ty ..
  | .vfabs _ ty .. | .vfneg _ ty .. | .vfloor _ ty .. | .vceil _ ty .. | .vfract _ ty .. | .vfscale _ ty .. => ty.isVF
  | .vfcmp _ ty .. | .vfclass _ ty .. | .vfdiv _ ty .. | .vsqrt _ ty .. => ty.isF3264
  | .vrcp _ ty .. | .vrsq _ ty .. | .vexp2 _ ty .. | .vlog2 _ ty .. | .vsin _ ty .. | .vcos _ ty ..
  | .vtanh _ ty .. => ty.isAp
  | .vcvt _ dt st .. => dt.isCvt && st.isCvt && dt != st
  | .vpack _ dt .. => dt.isPackF || dt.isPackI
  | .vunpk _ dt st .. => (st.isPackF && dt == .f32) || (st.isPackI && dt == .i32)
  | .vquant _ dt .. => dt.isQuant
  | .vdeq _ st .. => st.isQuant
  | .vsplit6 _ ty .. | .vjoin6 _ ty .. => ty.isE6
  | .vdot8 _ ty .. => ty == .i8x4 || ty == .e4m3 || ty == .e5m2
  | .vdot4 _ ty .. => ty == .i4x8 || ty == .e2m1
  | .vshfl _ ty .. | .vbcast _ ty .. | .vlrot _ ty .. | .vmatch _ ty .. => ty.isB
  | .vred _ ty op .. | .vscan _ ty op .. => op.accepts ty
  | .ldl _ ty .. | .stl _ ty .. | .lds _ ty .. | .sts _ ty .. | .ldg _ ty .. | .stg _ ty .. | .ldx _ ty .. | .stx _ ty ..
  | .ldb _ ty .. | .ldbLoc _ ty .. => ty.isMem
  | .lda _ ty .. => ty.isMem48
  | .str _ ty .. => ty.isI3264 || ty.isB || ty.isF3264
  | .atom _ ty op .. | .atomn _ ty op .. | .xatom _ ty op .. => op.accepts ty
  | .acas _ ty .. => ty.isB
  | .mred _ ty .. => ty == .f32 || ty == .bf16 || ty.isI32
  | .tdset _ ty .. => ty.isTdset
  | .mma _ ty .. => ty.isMma
  | .mmas _ ty .. => ty.isMmas
  | .mew _ ty .. => ty == .f64 || ty == .i64
  | .mst _ ty .. | .mlda _ ty .. => ty.isMst
  | .mrdv _ ty .. | .mwrv _ ty .. => ty.isMrdv
  | .xget _ ty .. => ty.isMem48
  | .xred _ ty .. => ty == .f32 || ty == .bf16 || ty == .e4m3 || ty == .e5m2 || ty == .e2m1
  | _ => true

/-- Rounding, saturation, order and part limits (R159 and the entries). Table 12-3 writes the two suffixes of MST and MRDV for
every TY; the values that do not round (i32, b32) admit RND 0 alone, and b32, which keeps bits as they are, no SAT (R159, R272,
R274: DEDUCED, log entry 125). -/
def Instr.mdOk : Instr → Bool
  | .vcvt _ dt st rnd sat .. =>
    if dt.isF && st.isF then true
    else if dt.isF then !sat
    else if st.isF then !sat
    else rnd == .rne
  | .vpack _ dt rnd _ _ _ _ p => p.val < dt.packParts && (dt.isPackF || rnd == .rne)
  | .vunpk _ _ st _ _ p => p.val < st.unpkParts
  | .vquant _ dt _ _ _ _ p => p.val < dt.unpkParts
  | .vdeq _ st _ _ _ _ p => p.val < st.unpkParts
  | .vdot8 _ ty rnd sat .. => if ty == .i8x4 then rnd == .rne else !sat
  | .vdot4 _ ty rnd sat .. => if ty == .i4x8 then rnd == .rne else !sat
  | .vred _ ty op rnd .. | .vscan _ ty op rnd .. => rnd == .rne || (ty == .f32 && op == .add)
  | .vshfl _ _ mode _ _ b _ => match mode, b with
    | .idx, .imm _ => false
    | _, _ => true
  | .lda _ _ ord .. => ord == .rlx || ord == .acq
  | .str _ _ ord .. => ord == .rlx || ord == .rel
  | .fence _ ord _ => ord != .rlx
  | .mst _ ty rnd .. => rnd != .srnd && (ty != .i32 || rnd == .rne)
  | .mrdv _ ty rnd sat part .. =>
    rnd != .srnd && (ty.isF3264 || rnd == .rne) && (ty != .b32 || !sat) &&
      (part.val == 0 || (ty == .b32 && part.val ≤ 2))
  | .mwrv _ ty part .. => part.val == 0 || (ty == .b32 && part.val ≤ 2)
  | _ => true

/-- An even register code. -/
def VReg.even (r : VReg) : Bool := r.val % 2 == 0

/-- A vector source of a 64-bit type names an even register; a scalar always fits (R156). -/
def VSrc.pairOk (ty : Ty) : VSrc → Bool
  | .v r => !ty.is64 || VReg.even r
  | .s _ => true

def BSrc.pairOk (ty : Ty) : BSrc → Bool
  | .r x => x.pairOk ty
  | .imm _ => true

def VReg.pairOk (ty : Ty) (r : VReg) : Bool := !ty.is64 || VReg.even r

/-- The registers that follow C in ACAS exist (R238). -/
def VSrc.nextOk (ty : Ty) : VSrc → Bool
  | .v r => if ty.is64 then VReg.even r && r.val + 3 < 192 else r.val + 1 < 192
  | .s r => r.val + 1 < 64

/-- Operand limits: pairs, registers that must follow, operand kinds (R154, R156). -/
def Instr.opOk : Instr → Bool
  | .vmov _ ty d a => d.pairOk ty && a.pairOk ty
  | .vmovi _ ty d _ => d.pairOk ty
  | .vadd _ ty d a b | .vsub _ ty d a b | .vadds _ ty d a b | .vsubs _ ty d a b | .vmulh _ ty d a b
  | .vmin _ ty d a b | .vmax _ ty d a b | .vand _ ty d a b | .vor _ ty d a b | .vxor _ ty d a b =>
    d.pairOk ty && a.pairOk ty && b.pairOk ty
  | .vmul _ ty _ d a b => d.pairOk ty && a.pairOk ty && b.pairOk ty
  | .vabs _ ty _ d a | .vneg _ ty _ d a | .vnot _ ty d a => d.pairOk ty && a.pairOk ty
  | .vshl _ ty d a _ | .vshr _ ty d a _ | .vsar _ ty d a _ => d.pairOk ty && a.pairOk ty
  | .vcmp _ ty _ _ a b => a.pairOk ty && b.pairOk ty
  | .vsel _ ty d a b _ => d.pairOk ty && a.pairOk ty && b.pairOk ty
  | .vlea _ ty d a _ _ => d.pairOk ty && a.pairOk ty
  | .vfadd _ ty _ d a b | .vfsub _ ty _ d a b | .vfmul _ ty _ d a b | .vfdiv _ ty _ d a b =>
    d.pairOk ty && a.pairOk ty && b.pairOk ty
  | .vfma _ ty _ d a b c | .vfnma _ ty _ d a b c => d.pairOk ty && a.pairOk ty && b.pairOk ty && c.pairOk ty
  | .vfmin _ ty d a b | .vfmax _ ty d a b => d.pairOk ty && a.pairOk ty && b.pairOk ty
  | .vfabs _ ty d a | .vfneg _ ty d a | .vfloor _ ty d a | .vceil _ ty d a => d.pairOk ty && a.pairOk ty
  | .vsqrt _ ty _ d a | .vfract _ ty _ d a => d.pairOk ty && a.pairOk ty
  | .vfcmp _ ty _ _ a b => a.pairOk ty && b.pairOk ty
  | .vfclass _ ty _ a => a.pairOk ty
  | .vfscale _ ty _ d a _ => d.pairOk ty && a.pairOk ty
  | .vcvt _ dt st _ _ d a => d.pairOk dt && a.pairOk st
  | .vshfl _ ty _ d a _ fill => d.pairOk ty && a.pairOk ty && fill.all (·.pairOk ty)
  | .vbcast _ ty d a _ fill | .vlrot _ ty d a _ fill => d.pairOk ty && a.pairOk ty && fill.all (·.pairOk ty)
  | .vmatch _ ty _ a => a.pairOk ty
  | .sread _ d sr => match d with
    | .v _ => sr == 0
    | .s _ => sr != 0
  | .ldl _ ty d _ | .lds _ ty d _ | .ldg _ ty d _ => d.pairOk ty
  | .ldb _ ty d _ _ | .ldbLoc _ ty d _ _ => d.pairOk ty
  | .lda _ ty _ _ d _ => d.pairOk ty
  | .ldx _ ty d m => d.pairOk ty && m.idx.all (·.pairOk .i64)
  | .stl _ ty d _ | .sts _ ty d _ | .stg _ ty d _ => d.pairOk ty
  | .stx _ ty d m => d.pairOk ty && m.idx.all (·.pairOk .i64)
  | .str _ ty _ _ c m => c.pairOk ty && (match m.off with
    | .imm8 x => x == 0
    | .imm32 x => x != 0)
  | .atom _ ty _ _ _ d _ _ _ c => d.pairOk ty && c.pairOk ty
  | .atomn _ ty _ _ _ _ _ _ c => c.pairOk ty
  | .acas _ ty _ _ d _ _ _ c => d.pairOk ty && c.nextOk ty
  | .mrdv _ ty _ _ _ d _ _ => d.pairOk ty
  | .mwrv _ ty _ _ a _ => a.pairOk ty
  | .xsend _ _ _ _ a .. | .xsendNobar _ _ _ a .. | .xsendf _ _ _ _ a .. => VReg.even a
  | .xget _ ty _ _ d _ _ => d.pairOk ty
  | .xatom _ ty _ _ _ d _ _ c => d.pairOk ty && c.pairOk ty
  | .dbgrd _ _ d _ => d.val % 2 == 0
  | _ => true

/-- Limits of immediate fields and of the guard of JOIN and HOME. -/
def Instr.fldOk : Instr → Bool
  | .join h | .home h => !h.gn && h.gp == 7
  | .brpJoin _ _ j => j.extractLsb' 0 2 == 0
  | .mig _ _ _ _ _ j => j.extractLsb' 0 2 == 0 && j != 0
  | .migsetHome _ j => j.extractLsb' 0 2 == 0
  | .migset _ part _ mask => part != .p || mask.extractLsb' 7 57 == 0
  | .slea _ _ _ _ _ sh => sh.toNat ≤ 63
  | .sbfe _ _ _ _ _ w | .sbfi _ _ _ _ w => 1 ≤ w.toNat && w.toNat ≤ 64
  | .vlea _ _ _ _ _ sh => sh.toNat ≤ 31
  | .vbfe _ _ _ _ _ w | .vbfi _ _ _ _ w => 1 ≤ w.toNat && w.toNat ≤ 32
  | .mma _ ty _ f _ _ _ _ _ depth =>
    depth.toNat ≤ ty.matK && (!f || (ty != .e2m1 && ty != .i8x4 && ty != .i4x8))
  | .mmas _ ty _ _ _ _ _ _ depth => depth.toNat ≤ ty.matK
  | .mrdv _ _ _ _ _ _ _ r | .mwrv _ _ _ _ _ r => r.toNat % 2 == 0 && r.toNat ≤ 14
  | .bscmp _ _ _ _ _ _ _ _ wd _ => wd == 0
  | .rrset _ _ _ _ own ctx _ => !own || ctx == 0
  | .rrinv _ own ctx _ => !own || ctx == 0
  | _ => true

/-- The events of the table, which have no encoding. -/
def Instr.isEvent : Instr → Bool
  | .waitaTimeout _ | .sleepExpiry _ | .loadLaneReturn .. | .memoryFaultSettle .. | .trapEntry .. | .extendedBlockGrant _
  | .compactorMove _ | .compactorMoveDone _ | .sweeperPassEnd .. | .submissionWrite .. | .orreryAdmit | .spanPlacement
  | .crewRetire _ | .preemptionWaitExpiry _ | .spanSave _ | .spanRestore _ | .recallTimeout _ | .chunkSend _
  | .chunkArrival _ | .matrixCommandExecute _ | .matrixCommandComplete _ | .matrixBurstEnd _ | .permitGrant _
  | .moduleRoomReport _ | .reservationExpiry .. | .eventQueueRecheck | .continuationDepart _ | .continuationArrival _
  | .migrationReturn _ | .frameSend _ | .frameWrite .. | .frameReadRequest .. | .frameReadResponse ..
  | .frameAtomicRequest .. | .frameAtomicResponse .. | .frameEndToEndAck .. | .frameMulticast .. | .frameIdle ..
  | .replayRequest .. | .frameModuleCompletion .. | .frameCorrupt _ | .replayTimeout _ | .relayForward _
  | .relayLossTimeout _ | .multicastMemberTimeout .. | .rotorSlotBoundary _ | .guardBeacon .. | .rotorPlaneFailure ..
  | .rotorPlaneRestore .. | .wavelengthWindowEnd .. | .uncorrectableCodeword .. | .lossOfLock .. | .erasureDeclare ..
  | .linkEscalation .. | .retrainSlot .. | .forcedRetrain .. | .forcedRetrainEnd .. | .laserAgeingThreshold ..
  | .theodoliteWatchdogReset _ | .theodoliteRecovered _ | .lrRetryTimeout _ | .lrAckTimeout _ | .lrTrainingAttempt ..
  | .lrLinkTrained .. | .lrLossDiscard _ | .lrRekey .. | .lrDedupExpiry .. | .moduleFault .. | .moduleRecovered _
  | .discardRelease _ | .thermalWarning _ | .thermalThrottle _ | .thermalRecover _ | .powerExcursion _
  | .thermalShutdown _ | .coldReset | .identityEntry | .stateReqOptics | .opticsTrainingDone _ | .stateReqMapped
  | .stateReqOperational | .ctxCreate .. | .ctxDelete _ | .ctxPreSet _ | .ctxPreClear _ | .splitRequest ..
  | .invarCheckpoint | .checkpointDone .. | .invarPersist | .persistDone .. | .invarRestore | .restoreDone ..
  | .qctlSign | .quoteReady | .hostWindowRead .. | .hostWindowWrite .. | .registerWrite .. | .powerExcursionEnd _
  | .firmwareStagingWrite .. => true
  | _ => false

/-- The instruction has an encoding. -/
def Instr.wf (i : Instr) : Bool := !i.isEvent && i.tyOk && i.mdOk && i.opOk && i.fldOk

end Sys2Proof
end

