-- ==== Sys2Proof/Decode.lean ====
section
/-!
DEFINITION. The decoder and the encoder (spec 08 R146 to R163). A word is read into its fields (`Raw`, Table 8-2),
`candidate` reads the fields in the roles the entry of its opcode gives them, and the word is accepted exactly when
that candidate is well formed and encodes to the same fields: so a reserved code, an unassigned bit or a length the
entry does not permit is never an alias of a defined encoding (R3). `encodeRaw` is written from the same tables.
-/

namespace Sys2Proof

/-- Instruction length, Table 8-1; PAD is decoded apart. -/
inductive Len where
  | w64 | w96 | w128
  deriving DecidableEq, Repr

def Len.bytes : Len → Nat
  | .w64 => 8
  | .w96 => 12
  | .w128 => 16

/-- The fields of an instruction word, Tables 8-2 and 8-3 (R150, R151). -/
structure Raw where
  len : Len
  sw : Bool
  code : BitVec 5
  cls : BitVec 4
  gp : BitVec 3
  gn : Bool
  d : Byte
  a : Byte
  b : Byte
  c : Byte
  ty : Byte
  md : Byte
  ext : BitVec 64
  deriving DecidableEq, Repr

/-! Codes of the small types. -/

def Ty.code : Ty → Byte
  | .none => 0x00 | .i8 => 0x01 | .i16 => 0x02 | .i32 => 0x03 | .i64 => 0x04 | .n8 => 0x05 | .n16 => 0x06
  | .n32 => 0x07 | .n64 => 0x08 | .b32 => 0x09 | .b64 => 0x0A | .f16 => 0x10 | .bf16 => 0x11 | .f32 => 0x12
  | .f64 => 0x13 | .f16x2 => 0x14 | .bf16x2 => 0x15 | .e4m3 => 0x18 | .e5m2 => 0x19 | .e3m2 => 0x1A | .e2m3 => 0x1B
  | .e2m1 => 0x1C | .e8m0 => 0x1D | .i4 => 0x20 | .n4 => 0x21 | .i8x4 => 0x22 | .i4x8 => 0x23

/-- The type of a TY code, Table 8-5; none where the code is reserved. -/
def Ty.ofCode? (c : Byte) : Option Ty :=
  match c.toNat with
  | 0x00 => some .none | 0x01 => some .i8 | 0x02 => some .i16 | 0x03 => some .i32 | 0x04 => some .i64
  | 0x05 => some .n8 | 0x06 => some .n16 | 0x07 => some .n32 | 0x08 => some .n64 | 0x09 => some .b32
  | 0x0A => some .b64 | 0x10 => some .f16 | 0x11 => some .bf16 | 0x12 => some .f32 | 0x13 => some .f64
  | 0x14 => some .f16x2 | 0x15 => some .bf16x2 | 0x18 => some .e4m3 | 0x19 => some .e5m2 | 0x1A => some .e3m2
  | 0x1B => some .e2m3 | 0x1C => some .e2m1 | 0x1D => some .e8m0 | 0x20 => some .i4 | 0x21 => some .n4
  | 0x22 => some .i8x4 | 0x23 => some .i4x8 | _ => none

/-- The type of a TY code; a reserved code reads as none and then fails to encode back. -/
def Ty.ofCode (c : Byte) : Ty := (Ty.ofCode? c).getD .none

def Rnd.code : Rnd → BitVec 3
  | .rne => 0 | .rtz => 1 | .rup => 2 | .rdn => 3 | .srnd => 4

def Rnd.ofCode (c : BitVec 3) : Rnd :=
  match c.toNat with
  | 1 => .rtz | 2 => .rup | 3 => .rdn | 4 => .srnd | _ => .rne

def Cond.code : Cond → BitVec 3
  | .eq => 0 | .ne => 1 | .lt => 2 | .le => 3 | .gt => 4 | .ge => 5

def Cond.ofCode (c : BitVec 3) : Cond :=
  match c.toNat with
  | 1 => .ne | 2 => .lt | 3 => .le | 4 => .gt | 5 => .ge | _ => .eq

def FCond.code : FCond → BitVec 3
  | .eq => 0 | .ne => 1 | .lt => 2 | .le => 3 | .gt => 4 | .ge => 5 | .un => 6 | .ord => 7

def FCond.ofCode (c : BitVec 3) : FCond :=
  match c.toNat with
  | 1 => .ne | 2 => .lt | 3 => .le | 4 => .gt | 5 => .ge | 6 => .un | 7 => .ord | _ => .eq

def Order.code : Order → BitVec 2
  | .rlx => 0 | .acq => 1 | .rel => 2 | .ar => 3

def Order.ofCode (c : BitVec 2) : Order :=
  match c.toNat with
  | 1 => .acq | 2 => .rel | 3 => .ar | _ => .rlx

def Scope.code : Scope → BitVec 3
  | .sheaf => 0 | .crew => 1 | .span => 2 | .pkg => 3 | .job => 4

def Scope.ofCode (c : BitVec 3) : Scope :=
  match c.toNat with
  | 1 => .crew | 2 => .span | 3 => .pkg | 4 => .job | _ => .sheaf

def AtomOp.code : AtomOp → BitVec 3
  | .add => 0 | .min => 1 | .max => 2 | .and => 3 | .or => 4 | .xor => 5 | .exch => 6 | .inc => 7

def AtomOp.ofCode (c : BitVec 3) : AtomOp :=
  match c.toNat with
  | 1 => .min | 2 => .max | 3 => .and | 4 => .or | 5 => .xor | 6 => .exch | 7 => .inc | _ => .add

def RedOp.code : RedOp → BitVec 3
  | .add => 0 | .min => 1 | .max => 2 | .and => 3 | .or => 4 | .xor => 5

def RedOp.ofCode (c : BitVec 3) : RedOp :=
  match c.toNat with
  | 1 => .min | 2 => .max | 3 => .and | 4 => .or | 5 => .xor | _ => .add

def MredOp.code : MredOp → BitVec 3
  | .add => 0 | .min => 1 | .max => 2

def MredOp.ofCode (c : BitVec 3) : MredOp :=
  match c.toNat with
  | 1 => .min | 2 => .max | _ => .add

def ShflMode.code : ShflMode → BitVec 2
  | .idx => 0 | .up => 1 | .down => 2 | .xor => 3

def ShflMode.ofCode (c : BitVec 2) : ShflMode :=
  match c.toNat with
  | 1 => .up | 2 => .down | 3 => .xor | _ => .idx

def XSize.code : XSize → BitVec 3
  | .x32 => 1 | .x64 => 2 | .x128 => 3

def XSize.ofCode (c : BitVec 3) : XSize :=
  match c.toNat with
  | 2 => .x64 | 3 => .x128 | _ => .x32

def GenWhich.code : GenWhich → BitVec 3
  | .base => 0 | .ext => 1 | .scr => 2 | .slice => 3 | .acc => 4 | .visit => 5

def GenWhich.ofCode (c : BitVec 3) : GenWhich :=
  match c.toNat with
  | 1 => .ext | 2 => .scr | 3 => .slice | 4 => .acc | 5 => .visit | _ => .base

def AbqWhat.code : AbqWhat → BitVec 3
  | .cnt => 0 | .phase => 1 | .fault => 2

def AbqWhat.ofCode (c : BitVec 3) : AbqWhat :=
  match c.toNat with
  | 1 => .phase | 2 => .fault | _ => .cnt

def TwqWhat.code : TwqWhat → BitVec 3
  | .allow => 0 | .flight => 1 | .queued => 2

def TwqWhat.ofCode (c : BitVec 3) : TwqWhat :=
  match c.toNat with
  | 1 => .flight | 2 => .queued | _ => .allow

def MigqWhat.code : MigqWhat → BitVec 3
  | .away => 0 | .refused => 1 | .where_ => 2 | .home => 3

def MigqWhat.ofCode (c : BitVec 3) : MigqWhat :=
  match c.toNat with
  | 1 => .refused | 2 => .where_ | 3 => .home | _ => .away

def MigPart.code : MigPart → BitVec 3
  | .v0 => 0 | .v1 => 1 | .v2 => 2 | .s => 3 | .p => 4

def MigPart.ofCode (c : BitVec 3) : MigPart :=
  match c.toNat with
  | 1 => .v1 | 2 => .v2 | 3 => .s | 4 => .p | _ => .v0

def DbgWhat.code : DbgWhat → BitVec 3
  | .mem => 0 | .reg => 1 | .acc => 2

def DbgWhat.ofCode (c : BitVec 3) : DbgWhat :=
  match c.toNat with
  | 1 => .reg | 2 => .acc | _ => .mem

/-! Operand codes, Table 8-4. -/

def VReg.code (r : VReg) : Byte := BitVec.ofNat 8 r.val
def SReg.code (r : SReg) : Byte := BitVec.ofNat 8 (0xC0 + r.val)
def PReg.code (r : PReg) : Byte := BitVec.ofNat 8 r.val
def Tile.code (r : Tile) : Byte := BitVec.ofNat 8 r.val
def Desc.code (r : Desc) : Byte := BitVec.ofNat 8 r.val

def VSrc.code : VSrc → Byte
  | .v r => VReg.code r
  | .s r => SReg.code r

/-- A code outside a role reads as the role's last register, whose own code then differs from the one read. -/
def vregOf (c : Byte) : VReg := if h : c.toNat < 192 then ⟨c.toNat, h⟩ else 191
def sregOf (c : Byte) : SReg := ⟨c.toNat % 64, Nat.mod_lt _ (by decide)⟩
def pregOf (c : Byte) : PReg := if h : c.toNat < 8 then ⟨c.toNat, h⟩ else 7
def tileOf (c : Byte) : Tile := if h : c.toNat < 64 then ⟨c.toNat, h⟩ else 63
def descOf (c : Byte) : Desc := if h : c.toNat < 16 then ⟨c.toNat, h⟩ else 15
/-- A special register number, 0x00 to 0x0F. -/
def srOf (c : Byte) : BitVec 4 := if c.toNat < 16 then c.extractLsb' 0 4 else 15
def vsrcOf (c : Byte) : VSrc := if c.toNat < 192 then .v (vregOf c) else .s (sregOf c)

/-! Modifier bytes, Table 8-6 (R158). -/

/-- Layout A: RND, SAT, SB, XOP. -/
def mdA (rnd : Rnd) (sat sb : Bool) (xop : BitVec 3) : Byte :=
  rnd.code ++ BitVec.ofBool sat ++ BitVec.ofBool sb ++ xop

/-- Layout O: ORD, SCP, XOP. -/
def mdO (ord : Order) (scp : Scope) (xop : BitVec 3) : Byte := ord.code ++ scp.code ++ xop

/-- Layout G: XOP alone. -/
def mdG (xop : BitVec 3) : Byte := (0 : BitVec 5) ++ xop

def Raw.xop (r : Raw) : BitVec 3 := r.md.extractLsb' 0 3
/-- XOP as a number. -/
def Raw.x (r : Raw) : Nat := r.md.toNat % 8
def Raw.rnd (r : Raw) : Rnd := .ofCode (r.md.extractLsb' 5 3)
def Raw.sat (r : Raw) : Bool := r.md.getLsbD 4
def Raw.sb (r : Raw) : Bool := r.md.getLsbD 3
def Raw.ord (r : Raw) : Order := .ofCode (r.md.extractLsb' 6 2)
def Raw.scp (r : Raw) : Scope := .ofCode (r.md.extractLsb' 3 3)
def Raw.imm32 (r : Raw) : Word32 := r.ext.extractLsb' 0 32
def Raw.hdr (r : Raw) : Hdr := ⟨r.gn, ⟨r.gp.toNat, by omega⟩, r.sw⟩
def Raw.t (r : Raw) : Ty := .ofCode r.ty
/-- OFF in bits [47:24] (R173): fields A, B and C. -/
def Raw.off24 (r : Raw) : BitVec 24 := r.c ++ r.b ++ r.a
def Raw.bsrc (r : Raw) : BSrc := if r.sb then .imm r.imm32 else .r (vsrcOf r.b)
def Raw.ssrc (r : Raw) : SSrc := if r.sb then .imm r.imm32 else .r (sregOf r.b)
def Raw.off (r : Raw) : Off := if r.len = .w96 then .imm32 r.imm32 else .imm8 r.c
def Raw.offO (r : Raw) : Option Word32 := if r.len = .w96 then some r.imm32 else none
def Raw.base (r : Raw) : Option SReg := if r.md.getLsbD 0 then none else some (sregOf r.a)
def Raw.idx (r : Raw) : Option VSrc := if r.md.getLsbD 1 then none else some (vsrcOf r.b)
def Raw.memOp (r : Raw) : Mem := ⟨r.base, r.idx, r.off⟩
def Raw.strOff (r : Raw) : Off := if r.len = .w96 then .imm32 r.imm32 else .imm8 0
def Raw.masks (r : Raw) : Masks :=
  if r.len = .w128 then some (r.ext.extractLsb' 0 16, r.ext.extractLsb' 16 16) else none
def Raw.fill (r : Raw) : Option VSrc := if r.md.getLsbD 2 then some (vsrcOf r.c) else none
def Raw.incoming (r : Raw) : Incoming :=
  if r.ext.getLsbD 48 then .z else if r.ext.getLsbD 49 then .k else .tile (tileOf r.c)

/-- The fields of a class 0x0 word in the roles of its entries; none where the code is reserved (Table 8-7). -/
def candControl (r : Raw) : Option Instr :=
  match r.code.toNat with
  | 0 => some (.nop r.hdr)
  | 1 => some (if r.x = 1 then .braReg r.hdr (sregOf r.a) else .bra r.hdr r.off24)
  | 2 => some (if r.len = .w96 then .brpJoin r.hdr r.off24 r.imm32 else .brp r.hdr r.off24)
  | 3 => some (.join r.hdr)
  | 4 => some (.loop r.hdr (sregOf r.d) r.off24)
  | 5 => some (if r.x = 1 then .callReg r.hdr (sregOf r.d) (sregOf r.a) else .call r.hdr (sregOf r.d) r.off24)
  | 6 => some (.calli r.hdr (sregOf r.d) (vsrcOf r.a))
  | 7 => some (.ret r.hdr (sregOf r.a))
  | 8 => some (.exit r.hdr)
  | 9 => some (.yield r.hdr)
  | 10 => some (.trap r.hdr r.c)
  | 11 => some (.tret r.hdr)
  | 12 => some (.mcall r.hdr r.d r.a r.b r.c ⟨r.imm32.toNat % 64, Nat.mod_lt _ (by decide)⟩)
  | 13 => some (.bkpt r.hdr r.c)
  | 14 => some (.waita r.hdr (sregOf r.d) (sregOf r.a))
  | 15 => some (if r.x = 1 then .sleepImm r.hdr r.imm32 else .sleep r.hdr (sregOf r.a))
  | 16 => some (.elect r.hdr (pregOf r.d) (sregOf r.a))
  | _ => none

/-- The fields of a class 0x1 word in the roles of its entries; none where the code is reserved (Table 8-7). -/
def candScalar (r : Raw) : Option Instr :=
  match r.code.toNat with
  | 0 => some (.smov r.hdr (sregOf r.d) (sregOf r.a))
  | 1 => some (.smovi r.hdr r.t (sregOf r.d) r.imm32)
  | 2 => some (.smovq r.hdr (sregOf r.d) r.ext)
  | 3 => some (.sadd r.hdr r.t r.sat (sregOf r.d) (sregOf r.a) r.ssrc)
  | 4 => some (.ssub r.hdr r.t r.sat (sregOf r.d) (sregOf r.a) r.ssrc)
  | 5 => some (.smul r.hdr r.t r.sat (sregOf r.d) (sregOf r.a) r.ssrc)
  | 6 => some (.smulh r.hdr r.t (sregOf r.d) (sregOf r.a) r.ssrc)
  | 7 => some (.sdiv r.hdr r.t (sregOf r.d) (sregOf r.a) r.ssrc)
  | 8 => some (.srem r.hdr r.t (sregOf r.d) (sregOf r.a) r.ssrc)
  | 9 => some (.sand r.hdr (sregOf r.d) (sregOf r.a) r.ssrc)
  | 10 => some (.sor r.hdr (sregOf r.d) (sregOf r.a) r.ssrc)
  | 11 => some (.sxor r.hdr (sregOf r.d) (sregOf r.a) r.ssrc)
  | 12 => some (.sshl r.hdr r.t (sregOf r.d) (sregOf r.a) r.ssrc)
  | 13 => some (.sshr r.hdr r.t (sregOf r.d) (sregOf r.a) r.ssrc)
  | 14 => some (.ssar r.hdr (sregOf r.d) (sregOf r.a) r.ssrc)
  | 15 => some (.smin r.hdr r.t (sregOf r.d) (sregOf r.a) r.ssrc)
  | 16 => some (.smax r.hdr r.t (sregOf r.d) (sregOf r.a) r.ssrc)
  | 17 => some (.scmp r.hdr r.t (.ofCode r.xop) (sregOf r.d) (sregOf r.a) r.ssrc)
  | 18 => some (.ssel r.hdr (sregOf r.d) (sregOf r.a) r.ssrc (sregOf r.c))
  | 19 => some (.slea r.hdr r.t (sregOf r.d) (sregOf r.a) r.ssrc r.c)
  | 20 => some (.sclz r.hdr (sregOf r.d) (sregOf r.a))
  | 21 => some (.spopc r.hdr (sregOf r.d) (sregOf r.a))
  | 22 => some (.sbfe r.hdr r.t (sregOf r.d) (sregOf r.a) r.ssrc r.c)
  | 23 => some (.sbfi r.hdr (sregOf r.d) (sregOf r.a) r.ssrc r.c)
  | _ => none

/-- The fields of a class 0x2 word in the roles of its entries; none where the code is reserved (Table 8-7). -/
def candVecInt (r : Raw) : Option Instr :=
  match r.code.toNat with
  | 0 => some (.vmov r.hdr r.t (vregOf r.d) (vsrcOf r.a))
  | 1 => some (.vmovi r.hdr r.t (vregOf r.d) r.imm32)
  | 2 => some (.vidx r.hdr (vregOf r.d) r.ssrc)
  | 3 => some (.vadd r.hdr r.t (vregOf r.d) (vsrcOf r.a) r.bsrc)
  | 4 => some (.vsub r.hdr r.t (vregOf r.d) (vsrcOf r.a) r.bsrc)
  | 5 => some (.vadds r.hdr r.t (vregOf r.d) (vsrcOf r.a) r.bsrc)
  | 6 => some (.vsubs r.hdr r.t (vregOf r.d) (vsrcOf r.a) r.bsrc)
  | 7 => some (.vmul r.hdr r.t r.sat (vregOf r.d) (vsrcOf r.a) r.bsrc)
  | 8 => some (.vmulh r.hdr r.t (vregOf r.d) (vsrcOf r.a) r.bsrc)
  | 9 => some (.vmad r.hdr r.t r.sat (vregOf r.d) (vsrcOf r.a) r.bsrc (vsrcOf r.c))
  | 10 => some (.vmin r.hdr r.t (vregOf r.d) (vsrcOf r.a) r.bsrc)
  | 11 => some (.vmax r.hdr r.t (vregOf r.d) (vsrcOf r.a) r.bsrc)
  | 12 => some (.vabs r.hdr r.t r.sat (vregOf r.d) (vsrcOf r.a))
  | 13 => some (.vneg r.hdr r.t r.sat (vregOf r.d) (vsrcOf r.a))
  | 14 => some (.vand r.hdr r.t (vregOf r.d) (vsrcOf r.a) r.bsrc)
  | 15 => some (.vor r.hdr r.t (vregOf r.d) (vsrcOf r.a) r.bsrc)
  | 16 => some (.vxor r.hdr r.t (vregOf r.d) (vsrcOf r.a) r.bsrc)
  | 17 => some (.vnot r.hdr r.t (vregOf r.d) (vsrcOf r.a))
  | 18 => some (.vshl r.hdr r.t (vregOf r.d) (vsrcOf r.a) r.bsrc)
  | 19 => some (.vshr r.hdr r.t (vregOf r.d) (vsrcOf r.a) r.bsrc)
  | 20 => some (.vsar r.hdr r.t (vregOf r.d) (vsrcOf r.a) r.bsrc)
  | 21 => some (.vrot r.hdr (vregOf r.d) (vsrcOf r.a) r.bsrc)
  | 22 => some (.vbfe r.hdr r.t (vregOf r.d) (vsrcOf r.a) r.bsrc r.c)
  | 23 => some (.vbfi r.hdr (vregOf r.d) (vsrcOf r.a) r.bsrc r.c)
  | 24 => some (.vclz r.hdr (vregOf r.d) (vsrcOf r.a))
  | 25 => some (.vpopc r.hdr (vregOf r.d) (vsrcOf r.a))
  | 26 => some (.vbrev r.hdr (vregOf r.d) (vsrcOf r.a))
  | 27 => some (.vcmp r.hdr r.t (.ofCode r.xop) (pregOf r.d) (vsrcOf r.a) r.bsrc)
  | 28 => some (.vsel r.hdr r.t (vregOf r.d) (vsrcOf r.a) r.bsrc (pregOf r.c))
  | 29 => some (.vlea r.hdr r.t (vregOf r.d) (vsrcOf r.a) r.bsrc r.c)
  | _ => none

/-- The fields of a class 0x3 word in the roles of its entries; none where the code is reserved (Table 8-7). -/
def candVecFloat (r : Raw) : Option Instr :=
  match r.code.toNat with
  | 0 => some (.vfadd r.hdr r.t r.rnd (vregOf r.d) (vsrcOf r.a) r.bsrc)
  | 1 => some (.vfsub r.hdr r.t r.rnd (vregOf r.d) (vsrcOf r.a) r.bsrc)
  | 2 => some (.vfmul r.hdr r.t r.rnd (vregOf r.d) (vsrcOf r.a) r.bsrc)
  | 3 => some (.vfma r.hdr r.t r.rnd (vregOf r.d) (vsrcOf r.a) r.bsrc (vsrcOf r.c))
  | 4 => some (.vfnma r.hdr r.t r.rnd (vregOf r.d) (vsrcOf r.a) r.bsrc (vsrcOf r.c))
  | 5 => some (.vfmin r.hdr r.t (vregOf r.d) (vsrcOf r.a) r.bsrc)
  | 6 => some (.vfmax r.hdr r.t (vregOf r.d) (vsrcOf r.a) r.bsrc)
  | 7 => some (.vfabs r.hdr r.t (vregOf r.d) (vsrcOf r.a))
  | 8 => some (.vfneg r.hdr r.t (vregOf r.d) (vsrcOf r.a))
  | 9 => some (.vfcmp r.hdr r.t (.ofCode r.xop) (pregOf r.d) (vsrcOf r.a) r.bsrc)
  | 10 => some (.vfclass r.hdr r.t (vregOf r.d) (vsrcOf r.a))
  | 11 => some (.vfdiv r.hdr r.t r.rnd (vregOf r.d) (vsrcOf r.a) r.bsrc)
  | 12 => some (.vrcp r.hdr r.t (vregOf r.d) (vsrcOf r.a))
  | 13 => some (.vrsq r.hdr r.t (vregOf r.d) (vsrcOf r.a))
  | 14 => some (.vsqrt r.hdr r.t r.rnd (vregOf r.d) (vsrcOf r.a))
  | 15 => some (.vexp2 r.hdr r.t (vregOf r.d) (vsrcOf r.a))
  | 16 => some (.vlog2 r.hdr r.t (vregOf r.d) (vsrcOf r.a))
  | 17 => some (.vsin r.hdr r.t (vregOf r.d) (vsrcOf r.a))
  | 18 => some (.vcos r.hdr r.t (vregOf r.d) (vsrcOf r.a))
  | 19 => some (.vtanh r.hdr r.t (vregOf r.d) (vsrcOf r.a))
  | 20 => some (.vfloor r.hdr r.t (vregOf r.d) (vsrcOf r.a))
  | 21 => some (.vceil r.hdr r.t (vregOf r.d) (vsrcOf r.a))
  | 22 => some (.vfract r.hdr r.t r.rnd (vregOf r.d) (vsrcOf r.a))
  | 23 => some (.vfscale r.hdr r.t r.rnd (vregOf r.d) (vsrcOf r.a) r.bsrc)
  | _ => none

/-- The fields of a class 0x4 word in the roles of its entries; none where the code is reserved (Table 8-7). -/
def candConvert (r : Raw) : Option Instr :=
  match r.code.toNat with
  | 0 => some (.vcvt r.hdr r.t (.ofCode r.c) r.rnd r.sat (vregOf r.d) (vsrcOf r.a))
  | 1 => some (.vpack r.hdr r.t r.rnd r.sat (vregOf r.d) (vsrcOf r.a) r.bsrc r.xop.toFin)
  | 2 => some (.vunpk r.hdr r.t (.ofCode r.c) (vregOf r.d) (vsrcOf r.a) r.xop.toFin)
  | 3 => some (.vquant r.hdr r.t r.rnd (vregOf r.d) (vsrcOf r.a) (sregOf r.c) r.xop.toFin)
  | 4 => some (.vdeq r.hdr r.t r.rnd (vregOf r.d) (vsrcOf r.a) r.ssrc r.xop.toFin)
  | 5 => some (.vsplit6 r.hdr r.t (r.md.getLsbD 2) (vregOf r.d) (vsrcOf r.a) (r.md.extractLsb' 0 2).toFin)
  | 6 => some (.vjoin6 r.hdr r.t (vregOf r.d) (vsrcOf r.a) r.bsrc (r.md.extractLsb' 0 2).toFin)
  | 7 => some (.vdot8 r.hdr r.t r.rnd r.sat (vregOf r.d) (vsrcOf r.a) r.bsrc)
  | 8 => some (.vdot4 r.hdr r.t r.rnd r.sat (vregOf r.d) (vsrcOf r.a) r.bsrc)
  | 9 => some (.vtag r.hdr (vregOf r.d) (vsrcOf r.a) (r.c.extractLsb' 0 4))
  | 10 => some (if r.x = 1 then .vsrndDraw r.hdr (sregOf r.d) else .vsrnd r.hdr (sregOf r.a))
  | _ => none

/-- The fields of a class 0x5 word in the roles of its entries; none where the code is reserved (Table 8-7). -/
def candCrossLane (r : Raw) : Option Instr :=
  match r.code.toNat with
  | 0 => some (.vshfl r.hdr r.t (.ofCode (r.md.extractLsb' 0 2)) (vregOf r.d) (vsrcOf r.a) r.bsrc r.fill)
  | 1 => some (.vbcast r.hdr r.t (vregOf r.d) (vsrcOf r.a) r.ssrc r.fill)
  | 2 => some (.vlrot r.hdr r.t (vregOf r.d) (vsrcOf r.a) r.ssrc r.fill)
  | 3 => some (.vred r.hdr r.t (.ofCode r.xop) r.rnd (sregOf r.d) (vsrcOf r.a))
  | 4 => some (.vscan r.hdr r.t (.ofCode r.xop) r.rnd (vregOf r.d) (vsrcOf r.a))
  | 5 => some (.vballot r.hdr (sregOf r.d) (pregOf r.a))
  | 6 => some (.vmatch r.hdr r.t (vregOf r.d) (vsrcOf r.a))
  | 7 => some (if r.sb then .psetImm r.hdr (pregOf r.d) r.imm32 else .pset r.hdr (pregOf r.d) (sregOf r.a))
  | 8 => some (.pand r.hdr (pregOf r.d) (pregOf r.a) (pregOf r.b))
  | 9 => some (.por r.hdr (pregOf r.d) (pregOf r.a) (pregOf r.b))
  | 10 => some (.pxor r.hdr (pregOf r.d) (pregOf r.a) (pregOf r.b))
  | 11 => some (.pnot r.hdr (pregOf r.d) (pregOf r.a))
  | 12 => some (.pmov r.hdr (pregOf r.d) (pregOf r.a))
  | 13 => some (.pcnt r.hdr (sregOf r.d) (pregOf r.a))
  | 14 => some (.pfirst r.hdr (sregOf r.d) (pregOf r.a))
  | _ => none

/-- The fields of a class 0x6 word in the roles of its entries; none where the code is reserved (Table 8-7). -/
def candState (r : Raw) : Option Instr :=
  match r.code.toNat with
  | 0 => some (.xacq r.hdr (.ofCode r.xop))
  | 1 => some (.xrel r.hdr)
  | 2 => some (.sread r.hdr (vsrcOf r.d) (srOf r.a))
  | 3 => some (.swrite r.hdr (srOf r.d) (sregOf r.a))
  | 4 => some (.genq r.hdr (.ofCode r.xop) (sregOf r.d))
  | 5 => some (.tagq r.hdr (sregOf r.d)
      (if r.x = 1 then .acc (tileOf r.a) (r.c.extractLsb' 0 4) else if r.x = 2 then .sca (sregOf r.a) else .vec (vsrcOf r.a)))
  | 6 => some (.rdtime r.hdr (r.md.getLsbD 0) (sregOf r.d))
  | 7 => some (.lread r.hdr (sregOf r.d) (sregOf r.a))
  | 8 => some (.ctxsave r.hdr (sregOf r.a))
  | 9 => some (.ctxload r.hdr (sregOf r.a))
  | _ => none

/-- The fields of a class 0x7 word in the roles of its entries; none where the code is reserved (Table 8-7). -/
def candMemory (r : Raw) : Option Instr :=
  match r.code.toNat with
  | 0 => some (.ldl r.hdr r.t (vregOf r.d) r.memOp)
  | 1 => some (.stl r.hdr r.t (vsrcOf r.d) r.memOp)
  | 2 => some (.lds r.hdr r.t (vregOf r.d) r.memOp)
  | 3 => some (.sts r.hdr r.t (vsrcOf r.d) r.memOp)
  | 4 => some (.ldg r.hdr r.t (vregOf r.d) r.memOp)
  | 5 => some (.stg r.hdr r.t (vsrcOf r.d) r.memOp)
  | 6 => some (.ldx r.hdr r.t (vregOf r.d) r.memOp)
  | 7 => some (.stx r.hdr r.t (vsrcOf r.d) r.memOp)
  | 8 => some (if r.md.getLsbD 2 then .ldbLoc r.hdr r.t (vregOf r.d) r.base r.off else .ldb r.hdr r.t (vregOf r.d) r.base r.off)
  | 9 => some (.lda r.hdr r.t r.ord r.scp (vregOf r.d) r.memOp)
  | 10 => some (.str r.hdr r.t r.ord r.scp (vsrcOf r.c) ⟨r.base, r.idx, r.strOff⟩)
  | 11 => some (.atom r.hdr r.t (.ofCode r.xop) r.ord r.scp (vregOf r.d) (sregOf r.a) (vsrcOf r.b) r.offO (vsrcOf r.c))
  | 12 => some (.atomn r.hdr r.t (.ofCode r.xop) r.ord r.scp (sregOf r.a) (vsrcOf r.b) r.offO (vsrcOf r.c))
  | 13 => some (.acas r.hdr r.t r.ord r.scp (vregOf r.d) (sregOf r.a) (vsrcOf r.b) r.offO (vsrcOf r.c))
  | 14 => some (.fence r.hdr r.ord r.scp)
  | 15 => some (.prefg r.hdr r.memOp)
  | 16 => some (if r.md.getLsbD 2 then .cflushAll r.hdr else .cflush r.hdr r.memOp)
  | _ => none

/-- The fields of a class 0x8 word in the roles of its entries; none where the code is reserved (Table 8-7). -/
def candBarrier (r : Raw) : Option Instr :=
  match r.code.toNat with
  | 0 => some (.abinit r.hdr (tileOf r.d) (sregOf r.a))
  | 1 => some (.abexp r.hdr (tileOf r.d) (sregOf r.a))
  | 2 => some (.abarr r.hdr (tileOf r.d) (sregOf r.a))
  | 3 => some (.abwait r.hdr (tileOf r.d) (sregOf r.a))
  | 4 => some (if r.x = 1 then .abtestPar r.hdr (sregOf r.d) (tileOf r.b) (sregOf r.a)
      else .abtest r.hdr (sregOf r.d) (tileOf r.b) (sregOf r.a))
  | 5 => some (.abret r.hdr (tileOf r.d))
  | 6 => some (.abq r.hdr (.ofCode r.xop) (sregOf r.d) (tileOf r.b))
  | 7 => some (.cbar r.hdr)
  | 8 => some (.sbar r.hdr)
  | _ => none

/-- The fields of a class 0x9 word in the roles of its entries; none where the code is reserved (Table 8-7). -/
def candFarMemory (r : Raw) : Option Instr :=
  match r.code.toNat with
  | 0 => some (.tfetch r.hdr r.ord r.scp (tileOf r.d) (sregOf r.a) (sregOf r.b) (sregOf r.c))
  | 1 => some (.tstore r.hdr r.ord r.scp (tileOf r.d) (sregOf r.a) (sregOf r.b) (sregOf r.c))
  | 2 => some (.twin r.hdr (sregOf r.a))
  | 3 => some (.twq r.hdr (.ofCode r.xop) (sregOf r.d))
  | 4 => some (.mcopy r.hdr r.ord r.scp (tileOf r.d) (sregOf r.a) (sregOf r.b) (sregOf r.c))
  | 5 => some (.mfill r.hdr r.ord r.scp (tileOf r.d) (sregOf r.a) (sregOf r.b) (sregOf r.c))
  | 6 => some (.mred r.hdr r.t (.ofCode r.xop) r.ord r.scp (tileOf r.d) (sregOf r.a) (sregOf r.b) (sregOf r.c))
  | 7 => some (.msnap r.hdr r.ord r.scp (sregOf r.d) (sregOf r.a) (sregOf r.b))
  | 8 => some (.mclose r.hdr r.ord r.scp (sregOf r.a))
  | _ => none

/-- The fields of a class 0xA word in the roles of its entries; none where the code is reserved (Table 8-7). -/
def candMatrix (r : Raw) : Option Instr :=
  match r.code.toNat with
  | 0 => some (.tdset r.hdr r.t (descOf r.d) (sregOf r.a) (sregOf r.b))
  | 1 => some (.tdtag r.hdr (descOf r.d) (r.c.extractLsb' 0 4))
  | 2 => some (.mma r.hdr r.t r.incoming (r.ext.getLsbD 50) (tileOf r.d) (descOf r.a) (descOf r.b)
      (r.ext.extractLsb' 0 16) (r.ext.extractLsb' 16 16) (r.ext.extractLsb' 32 16))
  | 3 => some (.mmas r.hdr r.t r.incoming (tileOf r.d) (descOf r.a) (descOf r.b)
      (r.ext.extractLsb' 0 16) (r.ext.extractLsb' 16 16) (r.ext.extractLsb' 32 16))
  | 4 => some (.mzero r.hdr (tileOf r.d) r.masks)
  | 5 => some (.mew r.hdr r.t
      (if r.x = 1 then .add (tileOf r.c) else if r.x = 2 then .decay (sregOf r.b) (tileOf r.c) else .scale (sregOf r.b))
      (tileOf r.d) (tileOf r.a) r.masks)
  | 6 => some (.mst r.hdr r.t r.rnd r.sat (descOf r.d) (tileOf r.a) r.masks)
  | 7 => some (.mlda r.hdr r.t (tileOf r.d) (descOf r.a) r.masks)
  | 8 => some (.mrdv r.hdr r.t r.rnd r.sat r.xop.toFin (vregOf r.d) (tileOf r.a) r.c)
  | 9 => some (.mwrv r.hdr r.t r.xop.toFin (tileOf r.d) (vsrcOf r.a) r.c)
  | 10 => some (.mtrn r.hdr (tileOf r.d) (tileOf r.a))
  | 11 => some (if r.x = 1 then .mfenNoarrive r.hdr r.scp else .mfen r.hdr r.ord r.scp (tileOf r.d))
  | _ => none

/-- The fields of a class 0xB word in the roles of its entries; none where the code is reserved (Table 8-7). -/
def candMigration (r : Raw) : Option Instr :=
  match r.code.toNat with
  | 0 => some (.mig r.hdr (sregOf r.d) r.base r.idx r.c r.imm32)
  | 1 => some (.home r.hdr)
  | 2 => some (if r.x = 5 then .migsetHome r.hdr r.imm32 else .migset r.hdr (.ofCode r.xop) (r.c.getLsbD 0) r.ext)
  | 3 => some (.migq r.hdr (.ofCode r.xop) (sregOf r.d))
  | 4 => some (.bsadd r.hdr r.sat (sregOf r.d) (sregOf r.a) (sregOf r.b) (sregOf r.c) (r.ext.extractLsb' 0 4)
      (r.ext.extractLsb' 4 4) (r.ext.extractLsb' 8 4) (r.ext.getLsbD 12))
  | 5 => some (.bsmul r.hdr r.sat (sregOf r.d) (sregOf r.a) (sregOf r.b) (sregOf r.c) (r.ext.extractLsb' 0 4)
      (r.ext.extractLsb' 4 4) (r.ext.extractLsb' 8 4) (r.ext.getLsbD 12))
  | 6 => some (.bsmac r.hdr r.sat (sregOf r.d) (sregOf r.a) (sregOf r.b) (sregOf r.c) (r.ext.extractLsb' 0 4)
      (r.ext.extractLsb' 4 4) (r.ext.extractLsb' 8 4) (r.ext.getLsbD 12))
  | 7 => some (.bscmp r.hdr (.ofCode r.xop) (sregOf r.d) (sregOf r.a) (sregOf r.b) (sregOf r.c) (r.ext.extractLsb' 0 4)
      (r.ext.extractLsb' 4 4) (r.ext.extractLsb' 8 4) (r.ext.getLsbD 12))
  | 8 => some (.bspopc r.hdr (sregOf r.d) (sregOf r.a) (sregOf r.c) (r.ext.extractLsb' 0 4) (r.ext.getLsbD 12))
  | _ => none

/-- The fields of a class 0xC word in the roles of its entries; none where the code is reserved (Table 8-7). Field A of XSEND and
XSENDF holds two vector registers from an even one on (R323), so a scalar code, which Table 8-4 lets a vector source have, is
reserved there; the spec does not settle it (DESIGN CHOICE, log entry 125). -/
def candFabric (r : Raw) : Option Instr :=
  match r.code.toNat with
  | 0 => some (if r.x = 1 then .xsendNobar r.hdr r.ord r.scp (vregOf r.a) (sregOf r.b) (sregOf r.c)
      else .xsend r.hdr r.ord r.scp (sregOf r.d) (vregOf r.a) (sregOf r.b) (sregOf r.c))
  | 1 => some (.xsendf r.hdr r.ord r.scp (sregOf r.d) (vregOf r.a) (sregOf r.b) (sregOf r.c))
  | 2 => some (.xget r.hdr r.t r.ord r.scp (vregOf r.d) (vsrcOf r.a) (vsrcOf r.b))
  | 3 => some (.xatom r.hdr r.t (.ofCode r.xop) r.ord r.scp (vregOf r.d) (vsrcOf r.a) (vsrcOf r.b) (vsrcOf r.c))
  | 4 => some (.xmcast r.hdr r.ord r.scp (sregOf r.d) (sregOf r.a) (sregOf r.b) (r.ext.extractLsb' 0 8)
      (r.ext.extractLsb' 8 3) (r.ext.extractLsb' 11 6).toFin (r.ext.getLsbD 17))
  | 5 => some (.xfence r.hdr r.scp)
  | 6 => some (.xred r.hdr r.t (r.md.getLsbD 0) r.ord r.scp (sregOf r.d) (sregOf r.a) (sregOf r.b) (sregOf r.c))
  | 7 => some (.xresid r.hdr (if r.x = 1 then .clr (sregOf r.a) (sregOf r.c)
      else if r.x = 2 then .set (sregOf r.a) (sregOf r.b) (sregOf r.c) else .rd (sregOf r.d) (sregOf r.a) (sregOf r.c)))
  | 8 => some (if r.x = 1 then .xgrpGet r.hdr r.c (sregOf r.a) else .xgrpSet r.hdr r.c (sregOf r.a))
  | _ => none

/-- The fields of a class 0xD word in the roles of its entries; none where the code is reserved (Table 8-7). -/
def candLaunch (r : Raw) : Option Instr :=
  match r.code.toNat with
  | 0 => some (.lnch r.hdr (sregOf r.d) (sregOf r.a))
  | 1 => some (.larm r.hdr (sregOf r.d) (sregOf r.a) (tileOf r.b))
  | 2 => some (.ldep r.hdr (sregOf r.a))
  | 3 => some (.lprio r.hdr (sregOf r.a) (sregOf r.b))
  | 4 => some (.lwait r.hdr (sregOf r.d) (sregOf r.a))
  | _ => none

/-- The fields of a class 0xE word in the roles of its entries; none where the code is reserved (Table 8-7). -/
def candSystem (r : Raw) : Option Instr :=
  match r.code.toNat with
  | 0 => some (.rrset r.hdr (sregOf r.a) (sregOf r.b) (sregOf r.c) (r.ext.getLsbD 14) (r.ext.extractLsb' 4 10)
      (r.ext.extractLsb' 0 4))
  | 1 => some (.rrinv r.hdr (r.ext.getLsbD 26) (r.ext.extractLsb' 16 10) (r.ext.extractLsb' 0 16))
  | 2 => some (if r.x = 1 then .pginvMod r.hdr (sregOf r.a) else .pginv r.hdr (sregOf r.a) (sregOf r.b))
  | 3 => some (if r.x = 1 then .wcsldAll r.hdr (sregOf r.a) (r.ext.extractLsb' 0 6).toFin (r.ext.extractLsb' 8 5)
      else .wcsld r.hdr (sregOf r.a) (r.ext.extractLsb' 0 6).toFin (r.ext.extractLsb' 8 5))
  | 4 => some (.evpost r.hdr (sregOf r.a) (sregOf r.b) (sregOf r.c))
  | 5 => some (if r.x = 1 then .preqRel r.hdr (sregOf r.a) else .preq r.hdr (sregOf r.d) (sregOf r.a))
  | 6 => some (.dbgrd r.hdr (.ofCode r.xop) (sregOf r.d) (sregOf r.a))
  | 7 => some (if r.x = 1 then .gensweepSlice r.hdr else .gensweep r.hdr)
  | _ => none

/-- Reads the fields in the roles of the opcode's entry; none where the opcode is reserved (R160). -/
def candidate (r : Raw) : Option Instr :=
  match r.cls.toNat with
  | 0 => candControl r
  | 1 => candScalar r
  | 2 => candVecInt r
  | 3 => candVecFloat r
  | 4 => candConvert r
  | 5 => candCrossLane r
  | 6 => candState r
  | 7 => candMemory r
  | 8 => candBarrier r
  | 9 => candFarMemory r
  | 10 => candMatrix r
  | 11 => candMigration r
  | 12 => candFabric r
  | 13 => candLaunch r
  | 14 => candSystem r
  | _ => none

/-! The encoder, from the same tables. -/

/-- The 64-bit word of an opcode with every other field zero. -/
def word (h : Hdr) (cls : BitVec 4) (code : BitVec 5) : Raw :=
  ⟨.w64, h.sw, code, cls, BitVec.ofNat 3 h.gp.val, h.gn, 0, 0, 0, 0, 0, 0, 0⟩

def BSrc.isImm : BSrc → Bool
  | .imm _ => true
  | .r _ => false

def SSrc.isImm : SSrc → Bool
  | .imm _ => true
  | .r _ => false

def fin3 (p : Fin 8) : BitVec 3 := BitVec.ofNat 3 p.val

def fillCode : Option VSrc → Byte
  | none => 0
  | some x => x.code

def baseCode : Option SReg → Byte
  | none => 0
  | some x => SReg.code x

def idxCode : Option VSrc → Byte
  | none => 0
  | some x => x.code

def Incoming.code : Incoming → Byte
  | .tile c => Tile.code c
  | _ => 0

/-- CF0 to CF3 of MMA and MMAS (R267). -/
def cf (rows cols depth : BitVec 16) (inc : Incoming) (f : Bool) : BitVec 64 :=
  0#13 ++ BitVec.ofBool f ++ BitVec.ofBool (inc == .k) ++ BitVec.ofBool (inc == .z) ++ depth ++ cols ++ rows

/-- IMM32 of the bit-serial instructions (R301). -/
def bsImm (wa wb wd : BitVec 4) (sg : Bool) : Word32 := 0#19 ++ BitVec.ofBool sg ++ wd ++ wb ++ wa

/-- The 96-bit form with IMM32. -/
def Raw.imm96 (r : Raw) (x : Word32) : Raw := { r with len := .w96, ext := x.setWidth 64 }

/-- The 128-bit form with its extension. -/
def Raw.imm128 (r : Raw) (x : BitVec 64) : Raw := { r with len := .w128, ext := x }

/-- Operand B of a vector instruction. -/
def Raw.withB (r : Raw) : BSrc → Raw
  | .r x => { r with b := x.code }
  | .imm x => r.imm96 x

/-- Operand B of a scalar instruction. -/
def Raw.withSB (r : Raw) : SSrc → Raw
  | .r x => { r with b := SReg.code x }
  | .imm x => r.imm96 x

/-- OFF in bits [47:24]. -/
def Raw.withOff (r : Raw) (o : BitVec 24) : Raw :=
  { r with a := o.extractLsb' 0 8, b := o.extractLsb' 8 8, c := o.extractLsb' 16 8 }

/-- A memory operand with its order and scope (Table 11-1); `x2` is XOP[2]. -/
def Raw.withMem (r : Raw) (m : Mem) (ord : Order) (scp : Scope) (x2 : BitVec 1) : Raw :=
  let r := { r with
    a := baseCode m.base
    b := idxCode m.idx
    md := mdO ord scp (x2 ++ BitVec.ofBool m.idx.isNone ++ BitVec.ofBool m.base.isNone) }
  match m.off with
  | .imm8 x => { r with c := x }
  | .imm32 x => r.imm96 x

/-- The offset of an atomic. -/
def Raw.withOffO (r : Raw) : Option Word32 → Raw
  | none => r
  | some x => r.imm96 x

/-- Masks of a maskable matrix command. -/
def Raw.withMasks (r : Raw) : Masks → Raw
  | none => r
  | some (rows, cols) => r.imm128 (0#32 ++ cols ++ rows)

/-- The fields of the word of an instruction; an event, which has none, gives a word of the reserved class 0xF. -/
def encodeRaw : Instr → Raw
  | .nop h => word h 0x0 0
  | .bra h off => (word h 0x0 1).withOff off
  | .braReg h a => { word h 0x0 1 with a := SReg.code a, md := 1 }
  | .brp h off => (word h 0x0 2).withOff off
  | .brpJoin h off j => ((word h 0x0 2).withOff off).imm96 j
  | .join h => word h 0x0 3
  | .loop h d off => ({ word h 0x0 4 with d := SReg.code d }).withOff off
  | .call h d off => ({ word h 0x0 5 with d := SReg.code d }).withOff off
  | .callReg h d a => { word h 0x0 5 with d := SReg.code d, a := SReg.code a, md := 1 }
  | .calli h d a => { word h 0x0 6 with d := SReg.code d, a := a.code }
  | .ret h a => { word h 0x0 7 with a := SReg.code a }
  | .exit h => word h 0x0 8
  | .yield h => word h 0x0 9
  | .trap h c => { word h 0x0 10 with c := c }
  | .tret h => word h 0x0 11
  | .mcall h p0 p1 p2 p3 m => ({ word h 0x0 12 with d := p0, a := p1, b := p2, c := p3 }).imm96 (BitVec.ofNat 32 m.val)
  | .bkpt h c => { word h 0x0 13 with c := c }
  | .waita h d a => { word h 0x0 14 with d := SReg.code d, a := SReg.code a }
  | .sleep h a => { word h 0x0 15 with a := SReg.code a }
  | .sleepImm h n => ({ word h 0x0 15 with md := 1 }).imm96 (n)
  | .elect h d a => { word h 0x0 16 with d := PReg.code d, a := SReg.code a }
  | .smov h d a => { word h 0x1 0 with d := SReg.code d, a := SReg.code a }
  | .smovi h ty d imm => ({ word h 0x1 1 with d := SReg.code d, ty := ty.code }).imm96 (imm)
  | .smovq h d imm => ({ word h 0x1 2 with d := SReg.code d }).imm128 (imm)
  | .sadd h ty sat d a b => ({ word h 0x1 3 with d := SReg.code d, a := SReg.code a, ty := ty.code, md := mdA .rne sat b.isImm 0 }).withSB b
  | .ssub h ty sat d a b => ({ word h 0x1 4 with d := SReg.code d, a := SReg.code a, ty := ty.code, md := mdA .rne sat b.isImm 0 }).withSB b
  | .smul h ty sat d a b => ({ word h 0x1 5 with d := SReg.code d, a := SReg.code a, ty := ty.code, md := mdA .rne sat b.isImm 0 }).withSB b
  | .smulh h ty d a b => ({ word h 0x1 6 with d := SReg.code d, a := SReg.code a, ty := ty.code, md := mdA .rne false b.isImm 0 }).withSB b
  | .sdiv h ty d a b => ({ word h 0x1 7 with d := SReg.code d, a := SReg.code a, ty := ty.code, md := mdA .rne false b.isImm 0 }).withSB b
  | .srem h ty d a b => ({ word h 0x1 8 with d := SReg.code d, a := SReg.code a, ty := ty.code, md := mdA .rne false b.isImm 0 }).withSB b
  | .sshl h ty d a b => ({ word h 0x1 12 with d := SReg.code d, a := SReg.code a, ty := ty.code, md := mdA .rne false b.isImm 0 }).withSB b
  | .sshr h ty d a b => ({ word h 0x1 13 with d := SReg.code d, a := SReg.code a, ty := ty.code, md := mdA .rne false b.isImm 0 }).withSB b
  | .smin h ty d a b => ({ word h 0x1 15 with d := SReg.code d, a := SReg.code a, ty := ty.code, md := mdA .rne false b.isImm 0 }).withSB b
  | .smax h ty d a b => ({ word h 0x1 16 with d := SReg.code d, a := SReg.code a, ty := ty.code, md := mdA .rne false b.isImm 0 }).withSB b
  | .sand h d a b => ({ word h 0x1 9 with d := SReg.code d, a := SReg.code a, ty := 0x0A, md := mdA .rne false b.isImm 0 }).withSB b
  | .sor h d a b => ({ word h 0x1 10 with d := SReg.code d, a := SReg.code a, ty := 0x0A, md := mdA .rne false b.isImm 0 }).withSB b
  | .sxor h d a b => ({ word h 0x1 11 with d := SReg.code d, a := SReg.code a, ty := 0x0A, md := mdA .rne false b.isImm 0 }).withSB b
  | .ssar h d a b => ({ word h 0x1 14 with d := SReg.code d, a := SReg.code a, ty := 0x04, md := mdA .rne false b.isImm 0 }).withSB b
  | .scmp h ty cond d a b => ({ word h 0x1 17 with d := SReg.code d, a := SReg.code a, ty := ty.code, md := mdA .rne false b.isImm cond.code }).withSB b
  | .ssel h d a b c => ({ word h 0x1 18 with d := SReg.code d, a := SReg.code a, c := SReg.code c, ty := 0x0A, md := mdA .rne false b.isImm 0 }).withSB b
  | .slea h ty d a b sh => ({ word h 0x1 19 with d := SReg.code d, a := SReg.code a, c := sh, ty := ty.code, md := mdA .rne false b.isImm 0 }).withSB b
  | .sclz h d a => { word h 0x1 20 with d := SReg.code d, a := SReg.code a, ty := 0x0A }
  | .spopc h d a => { word h 0x1 21 with d := SReg.code d, a := SReg.code a, ty := 0x0A }
  | .sbfe h ty d a b w => ({ word h 0x1 22 with d := SReg.code d, a := SReg.code a, c := w, ty := ty.code, md := mdA .rne false b.isImm 0 }).withSB b
  | .sbfi h d a b w => ({ word h 0x1 23 with d := SReg.code d, a := SReg.code a, c := w, ty := 0x0A, md := mdA .rne false b.isImm 0 }).withSB b
  | .vmov h ty d a => { word h 0x2 0 with d := VReg.code d, a := a.code, ty := ty.code }
  | .vmovi h ty d imm => ({ word h 0x2 1 with d := VReg.code d, ty := ty.code }).imm96 (imm)
  | .vidx h d b => ({ word h 0x2 2 with d := VReg.code d, ty := 0x03, md := mdA .rne false b.isImm 0 }).withSB b
  | .vadd h ty d a b => ({ word h 0x2 3 with d := VReg.code d, a := a.code, ty := ty.code, md := mdA .rne false b.isImm 0 }).withB b
  | .vsub h ty d a b => ({ word h 0x2 4 with d := VReg.code d, a := a.code, ty := ty.code, md := mdA .rne false b.isImm 0 }).withB b
  | .vadds h ty d a b => ({ word h 0x2 5 with d := VReg.code d, a := a.code, ty := ty.code, md := mdA .rne false b.isImm 0 }).withB b
  | .vsubs h ty d a b => ({ word h 0x2 6 with d := VReg.code d, a := a.code, ty := ty.code, md := mdA .rne false b.isImm 0 }).withB b
  | .vmulh h ty d a b => ({ word h 0x2 8 with d := VReg.code d, a := a.code, ty := ty.code, md := mdA .rne false b.isImm 0 }).withB b
  | .vmin h ty d a b => ({ word h 0x2 10 with d := VReg.code d, a := a.code, ty := ty.code, md := mdA .rne false b.isImm 0 }).withB b
  | .vmax h ty d a b => ({ word h 0x2 11 with d := VReg.code d, a := a.code, ty := ty.code, md := mdA .rne false b.isImm 0 }).withB b
  | .vand h ty d a b => ({ word h 0x2 14 with d := VReg.code d, a := a.code, ty := ty.code, md := mdA .rne false b.isImm 0 }).withB b
  | .vor h ty d a b => ({ word h 0x2 15 with d := VReg.code d, a := a.code, ty := ty.code, md := mdA .rne false b.isImm 0 }).withB b
  | .vxor h ty d a b => ({ word h 0x2 16 with d := VReg.code d, a := a.code, ty := ty.code, md := mdA .rne false b.isImm 0 }).withB b
  | .vshl h ty d a b => ({ word h 0x2 18 with d := VReg.code d, a := a.code, ty := ty.code, md := mdA .rne false b.isImm 0 }).withB b
  | .vshr h ty d a b => ({ word h 0x2 19 with d := VReg.code d, a := a.code, ty := ty.code, md := mdA .rne false b.isImm 0 }).withB b
  | .vsar h ty d a b => ({ word h 0x2 20 with d := VReg.code d, a := a.code, ty := ty.code, md := mdA .rne false b.isImm 0 }).withB b
  | .vmul h ty sat d a b => ({ word h 0x2 7 with d := VReg.code d, a := a.code, ty := ty.code, md := mdA .rne sat b.isImm 0 }).withB b
  | .vmad h ty sat d a b c => ({ word h 0x2 9 with d := VReg.code d, a := a.code, c := c.code, ty := ty.code, md := mdA .rne sat b.isImm 0 }).withB b
  | .vabs h ty sat d a => { word h 0x2 12 with d := VReg.code d, a := a.code, ty := ty.code, md := mdA .rne sat false 0 }
  | .vneg h ty sat d a => { word h 0x2 13 with d := VReg.code d, a := a.code, ty := ty.code, md := mdA .rne sat false 0 }
  | .vnot h ty d a => { word h 0x2 17 with d := VReg.code d, a := a.code, ty := ty.code }
  | .vrot h d a b => ({ word h 0x2 21 with d := VReg.code d, a := a.code, ty := 0x09, md := mdA .rne false b.isImm 0 }).withB b
  | .vbfe h ty d a b w => ({ word h 0x2 22 with d := VReg.code d, a := a.code, c := w, ty := ty.code, md := mdA .rne false b.isImm 0 }).withB b
  | .vbfi h d a b w => ({ word h 0x2 23 with d := VReg.code d, a := a.code, c := w, ty := 0x09, md := mdA .rne false b.isImm 0 }).withB b
  | .vclz h d a => { word h 0x2 24 with d := VReg.code d, a := a.code, ty := 0x09 }
  | .vpopc h d a => { word h 0x2 25 with d := VReg.code d, a := a.code, ty := 0x09 }
  | .vbrev h d a => { word h 0x2 26 with d := VReg.code d, a := a.code, ty := 0x09 }
  | .vcmp h ty cond d a b => ({ word h 0x2 27 with d := PReg.code d, a := a.code, ty := ty.code, md := mdA .rne false b.isImm cond.code }).withB b
  | .vsel h ty d a b c => ({ word h 0x2 28 with d := VReg.code d, a := a.code, c := PReg.code c, ty := ty.code, md := mdA .rne false b.isImm 0 }).withB b
  | .vlea h ty d a b sh => ({ word h 0x2 29 with d := VReg.code d, a := a.code, c := sh, ty := ty.code, md := mdA .rne false b.isImm 0 }).withB b
  | .vfadd h ty rnd d a b => ({ word h 0x3 0 with d := VReg.code d, a := a.code, ty := ty.code, md := mdA rnd false b.isImm 0 }).withB b
  | .vfsub h ty rnd d a b => ({ word h 0x3 1 with d := VReg.code d, a := a.code, ty := ty.code, md := mdA rnd false b.isImm 0 }).withB b
  | .vfmul h ty rnd d a b => ({ word h 0x3 2 with d := VReg.code d, a := a.code, ty := ty.code, md := mdA rnd false b.isImm 0 }).withB b
  | .vfdiv h ty rnd d a b => ({ word h 0x3 11 with d := VReg.code d, a := a.code, ty := ty.code, md := mdA rnd false b.isImm 0 }).withB b
  | .vfscale h ty rnd d a b => ({ word h 0x3 23 with d := VReg.code d, a := a.code, ty := ty.code, md := mdA rnd false b.isImm 0 }).withB b
  | .vfma h ty rnd d a b c => ({ word h 0x3 3 with d := VReg.code d, a := a.code, c := c.code, ty := ty.code, md := mdA rnd false b.isImm 0 }).withB b
  | .vfnma h ty rnd d a b c => ({ word h 0x3 4 with d := VReg.code d, a := a.code, c := c.code, ty := ty.code, md := mdA rnd false b.isImm 0 }).withB b
  | .vfmin h ty d a b => ({ word h 0x3 5 with d := VReg.code d, a := a.code, ty := ty.code, md := mdA .rne false b.isImm 0 }).withB b
  | .vfmax h ty d a b => ({ word h 0x3 6 with d := VReg.code d, a := a.code, ty := ty.code, md := mdA .rne false b.isImm 0 }).withB b
  | .vfabs h ty d a => { word h 0x3 7 with d := VReg.code d, a := a.code, ty := ty.code }
  | .vfneg h ty d a => { word h 0x3 8 with d := VReg.code d, a := a.code, ty := ty.code }
  | .vfclass h ty d a => { word h 0x3 10 with d := VReg.code d, a := a.code, ty := ty.code }
  | .vrcp h ty d a => { word h 0x3 12 with d := VReg.code d, a := a.code, ty := ty.code }
  | .vrsq h ty d a => { word h 0x3 13 with d := VReg.code d, a := a.code, ty := ty.code }
  | .vexp2 h ty d a => { word h 0x3 15 with d := VReg.code d, a := a.code, ty := ty.code }
  | .vlog2 h ty d a => { word h 0x3 16 with d := VReg.code d, a := a.code, ty := ty.code }
  | .vsin h ty d a => { word h 0x3 17 with d := VReg.code d, a := a.code, ty := ty.code }
  | .vcos h ty d a => { word h 0x3 18 with d := VReg.code d, a := a.code, ty := ty.code }
  | .vtanh h ty d a => { word h 0x3 19 with d := VReg.code d, a := a.code, ty := ty.code }
  | .vfloor h ty d a => { word h 0x3 20 with d := VReg.code d, a := a.code, ty := ty.code }
  | .vceil h ty d a => { word h 0x3 21 with d := VReg.code d, a := a.code, ty := ty.code }
  | .vfcmp h ty cond d a b => ({ word h 0x3 9 with d := PReg.code d, a := a.code, ty := ty.code, md := mdA .rne false b.isImm cond.code }).withB b
  | .vsqrt h ty rnd d a => { word h 0x3 14 with d := VReg.code d, a := a.code, ty := ty.code, md := mdA rnd false false 0 }
  | .vfract h ty rnd d a => { word h 0x3 22 with d := VReg.code d, a := a.code, ty := ty.code, md := mdA rnd false false 0 }
  | .vcvt h dt st rnd sat d a => { word h 0x4 0 with d := VReg.code d, a := a.code, c := st.code, ty := dt.code, md := mdA rnd sat false 0 }
  | .vpack h dt rnd sat d a b p => ({ word h 0x4 1 with d := VReg.code d, a := a.code, ty := dt.code, md := mdA rnd sat b.isImm (fin3 p) }).withB b
  | .vunpk h dt st d a p => { word h 0x4 2 with d := VReg.code d, a := a.code, c := st.code, ty := dt.code, md := mdA .rne false false (fin3 p) }
  | .vquant h dt rnd d a c p => { word h 0x4 3 with d := VReg.code d, a := a.code, c := SReg.code c, ty := dt.code, md := mdA rnd false false (fin3 p) }
  | .vdeq h st rnd d a b p => ({ word h 0x4 4 with d := VReg.code d, a := a.code, ty := st.code, md := mdA rnd false b.isImm (fin3 p) }).withSB b
  | .vsplit6 h ty lo d a p => { word h 0x4 5 with d := VReg.code d, a := a.code, ty := ty.code, md := mdA .rne false false (BitVec.ofBool lo ++ BitVec.ofNat 2 p.val) }
  | .vjoin6 h ty d a b p => ({ word h 0x4 6 with d := VReg.code d, a := a.code, ty := ty.code, md := mdA .rne false b.isImm (0#1 ++ BitVec.ofNat 2 p.val) }).withB b
  | .vdot8 h ty rnd sat d a b => ({ word h 0x4 7 with d := VReg.code d, a := a.code, ty := ty.code, md := mdA rnd sat b.isImm 0 }).withB b
  | .vdot4 h ty rnd sat d a b => ({ word h 0x4 8 with d := VReg.code d, a := a.code, ty := ty.code, md := mdA rnd sat b.isImm 0 }).withB b
  | .vtag h d a tag => { word h 0x4 9 with d := VReg.code d, a := a.code, c := tag.setWidth 8 }
  | .vsrnd h a => { word h 0x4 10 with a := SReg.code a }
  | .vsrndDraw h d => { word h 0x4 10 with d := SReg.code d, md := 1 }
  | .vshfl h ty mode d a b fill => ({ word h 0x5 0 with d := VReg.code d, a := a.code, c := fillCode fill, ty := ty.code, md := mdA .rne false b.isImm (BitVec.ofBool fill.isSome ++ mode.code) }).withB b
  | .vbcast h ty d a b fill => ({ word h 0x5 1 with d := VReg.code d, a := a.code, c := fillCode fill, ty := ty.code, md := mdA .rne false b.isImm (BitVec.ofBool fill.isSome ++ 0#2) }).withSB b
  | .vlrot h ty d a b fill => ({ word h 0x5 2 with d := VReg.code d, a := a.code, c := fillCode fill, ty := ty.code, md := mdA .rne false b.isImm (BitVec.ofBool fill.isSome ++ 0#2) }).withSB b
  | .vred h ty op rnd d a => { word h 0x5 3 with d := SReg.code d, a := a.code, ty := ty.code, md := mdA rnd false false op.code }
  | .vscan h ty op rnd d a => { word h 0x5 4 with d := VReg.code d, a := a.code, ty := ty.code, md := mdA rnd false false op.code }
  | .vballot h d a => { word h 0x5 5 with d := SReg.code d, a := PReg.code a }
  | .vmatch h ty d a => { word h 0x5 6 with d := VReg.code d, a := a.code, ty := ty.code }
  | .pset h d a => { word h 0x5 7 with d := PReg.code d, a := SReg.code a }
  | .psetImm h d imm => ({ word h 0x5 7 with d := PReg.code d, md := mdA .rne false true 0 }).imm96 (imm)
  | .pand h d a b => { word h 0x5 8 with d := PReg.code d, a := PReg.code a, b := PReg.code b }
  | .por h d a b => { word h 0x5 9 with d := PReg.code d, a := PReg.code a, b := PReg.code b }
  | .pxor h d a b => { word h 0x5 10 with d := PReg.code d, a := PReg.code a, b := PReg.code b }
  | .pnot h d a => { word h 0x5 11 with d := PReg.code d, a := PReg.code a }
  | .pmov h d a => { word h 0x5 12 with d := PReg.code d, a := PReg.code a }
  | .pcnt h d a => { word h 0x5 13 with d := SReg.code d, a := PReg.code a }
  | .pfirst h d a => { word h 0x5 14 with d := SReg.code d, a := PReg.code a }
  | .xacq h n => { word h 0x6 0 with md := mdG n.code }
  | .xrel h => word h 0x6 1
  | .sread h d sr => { word h 0x6 2 with d := d.code, a := sr.setWidth 8 }
  | .swrite h sr a => { word h 0x6 3 with d := sr.setWidth 8, a := SReg.code a }
  | .genq h which d => { word h 0x6 4 with d := SReg.code d, md := mdG which.code }
  | .tagq h d (.vec a) => { word h 0x6 5 with d := SReg.code d, a := a.code }
  | .tagq h d (.acc a row) => { word h 0x6 5 with d := SReg.code d, a := Tile.code a, c := row.setWidth 8, md := 1 }
  | .tagq h d (.sca a) => { word h 0x6 5 with d := SReg.code d, a := SReg.code a, md := 2 }
  | .rdtime h dom d => { word h 0x6 6 with d := SReg.code d, md := mdG (0#2 ++ BitVec.ofBool dom) }
  | .lread h d a => { word h 0x6 7 with d := SReg.code d, a := SReg.code a }
  | .ctxsave h a => { word h 0x6 8 with a := SReg.code a }
  | .ctxload h a => { word h 0x6 9 with a := SReg.code a }
  | .ldl h ty d m => ({ word h 0x7 0 with d := VReg.code d, ty := ty.code }).withMem m .rlx .sheaf 0#1
  | .lds h ty d m => ({ word h 0x7 2 with d := VReg.code d, ty := ty.code }).withMem m .rlx .sheaf 0#1
  | .ldg h ty d m => ({ word h 0x7 4 with d := VReg.code d, ty := ty.code }).withMem m .rlx .sheaf 0#1
  | .ldx h ty d m => ({ word h 0x7 6 with d := VReg.code d, ty := ty.code }).withMem m .rlx .sheaf 0#1
  | .stl h ty d m => ({ word h 0x7 1 with d := d.code, ty := ty.code }).withMem m .rlx .sheaf 0#1
  | .sts h ty d m => ({ word h 0x7 3 with d := d.code, ty := ty.code }).withMem m .rlx .sheaf 0#1
  | .stg h ty d m => ({ word h 0x7 5 with d := d.code, ty := ty.code }).withMem m .rlx .sheaf 0#1
  | .stx h ty d m => ({ word h 0x7 7 with d := d.code, ty := ty.code }).withMem m .rlx .sheaf 0#1
  | .ldb h ty d base off => ({ word h 0x7 8 with d := VReg.code d, ty := ty.code }).withMem ⟨base, none, off⟩ .rlx .sheaf 0#1
  | .ldbLoc h ty d base off => ({ word h 0x7 8 with d := VReg.code d, ty := ty.code }).withMem ⟨base, none, off⟩ .rlx .sheaf 1#1
  | .lda h ty ord scp d m => ({ word h 0x7 9 with d := VReg.code d, ty := ty.code }).withMem m ord scp 0#1
  | .str h ty ord scp c m => { ({ word h 0x7 10 with ty := ty.code }).withMem m ord scp 0#1 with c := c.code }
  | .atom h ty op ord scp d a b off c => ({ word h 0x7 11 with d := VReg.code d, a := SReg.code a, b := b.code, c := c.code, ty := ty.code, md := mdO ord scp op.code }).withOffO off
  | .atomn h ty op ord scp a b off c => ({ word h 0x7 12 with a := SReg.code a, b := b.code, c := c.code, ty := ty.code, md := mdO ord scp op.code }).withOffO off
  | .acas h ty ord scp d a b off c => ({ word h 0x7 13 with d := VReg.code d, a := SReg.code a, b := b.code, c := c.code, ty := ty.code, md := mdO ord scp 0 }).withOffO off
  | .fence h ord scp => { word h 0x7 14 with md := mdO ord scp 0 }
  | .prefg h m => (word h 0x7 15).withMem m .rlx .sheaf 0#1
  | .cflush h m => (word h 0x7 16).withMem m .rlx .sheaf 0#1
  | .cflushAll h => { word h 0x7 16 with md := 4 }
  | .abinit h b a => { word h 0x8 0 with d := Tile.code b, a := SReg.code a }
  | .abexp h b a => { word h 0x8 1 with d := Tile.code b, a := SReg.code a }
  | .abarr h b a => { word h 0x8 2 with d := Tile.code b, a := SReg.code a }
  | .abwait h b a => { word h 0x8 3 with d := Tile.code b, a := SReg.code a }
  | .abtest h d b a => { word h 0x8 4 with d := SReg.code d, a := SReg.code a, b := Tile.code b }
  | .abtestPar h d b a => { word h 0x8 4 with d := SReg.code d, a := SReg.code a, b := Tile.code b, md := 1 }
  | .abret h b => { word h 0x8 5 with d := Tile.code b }
  | .abq h w d b => { word h 0x8 6 with d := SReg.code d, b := Tile.code b, md := mdG w.code }
  | .cbar h => word h 0x8 7
  | .sbar h => word h 0x8 8
  | .tfetch h ord scp s a b c => { word h 0x9 0 with d := Tile.code s, a := SReg.code a, b := SReg.code b, c := SReg.code c, md := mdO ord scp 0 }
  | .tstore h ord scp s a b c => { word h 0x9 1 with d := Tile.code s, a := SReg.code a, b := SReg.code b, c := SReg.code c, md := mdO ord scp 0 }
  | .mcopy h ord scp s a b c => { word h 0x9 4 with d := Tile.code s, a := SReg.code a, b := SReg.code b, c := SReg.code c, md := mdO ord scp 0 }
  | .mfill h ord scp s a b c => { word h 0x9 5 with d := Tile.code s, a := SReg.code a, b := SReg.code b, c := SReg.code c, md := mdO ord scp 0 }
  | .twin h a => { word h 0x9 2 with a := SReg.code a }
  | .twq h w d => { word h 0x9 3 with d := SReg.code d, md := mdG w.code }
  | .mred h ty op ord scp s a b c => { word h 0x9 6 with d := Tile.code s, a := SReg.code a, b := SReg.code b, c := SReg.code c, ty := ty.code, md := mdO ord scp op.code }
  | .msnap h ord scp d a b => { word h 0x9 7 with d := SReg.code d, a := SReg.code a, b := SReg.code b, md := mdO ord scp 0 }
  | .mclose h ord scp a => { word h 0x9 8 with a := SReg.code a, md := mdO ord scp 0 }
  | .tdset h ty d a b => { word h 0xA 0 with d := Desc.code d, a := SReg.code a, b := SReg.code b, ty := ty.code }
  | .tdtag h d tag => { word h 0xA 1 with d := Desc.code d, c := tag.setWidth 8 }
  | .mma h ty inc f d a b rows cols depth => ({ word h 0xA 2 with d := Tile.code d, a := Desc.code a, b := Desc.code b, c := inc.code, ty := ty.code }).imm128 (cf rows cols depth inc f)
  | .mmas h ty inc d a b rows cols depth => ({ word h 0xA 3 with d := Tile.code d, a := Desc.code a, b := Desc.code b, c := inc.code, ty := ty.code }).imm128 (cf rows cols depth inc false)
  | .mzero h d ms => ({ word h 0xA 4 with d := Tile.code d }).withMasks ms
  | .mew h ty (.scale b) d a ms => ({ word h 0xA 5 with d := Tile.code d, a := Tile.code a, b := SReg.code b, ty := ty.code }).withMasks ms
  | .mew h ty (.add c) d a ms => ({ word h 0xA 5 with d := Tile.code d, a := Tile.code a, c := Tile.code c, ty := ty.code, md := 1 }).withMasks ms
  | .mew h ty (.decay b c) d a ms => ({ word h 0xA 5 with d := Tile.code d, a := Tile.code a, b := SReg.code b, c := Tile.code c, ty := ty.code, md := 2 }).withMasks ms
  | .mst h ty rnd sat d a ms => ({ word h 0xA 6 with d := Desc.code d, a := Tile.code a, ty := ty.code, md := mdA rnd sat false 0 }).withMasks ms
  | .mlda h ty d a ms => ({ word h 0xA 7 with d := Tile.code d, a := Desc.code a, ty := ty.code }).withMasks ms
  | .mrdv h ty rnd sat part d a r => { word h 0xA 8 with d := VReg.code d, a := Tile.code a, c := r, ty := ty.code, md := mdA rnd sat false (fin3 part) }
  | .mwrv h ty part d a r => { word h 0xA 9 with d := Tile.code d, a := a.code, c := r, ty := ty.code, md := mdA .rne false false (fin3 part) }
  | .mtrn h d a => { word h 0xA 10 with d := Tile.code d, a := Tile.code a }
  | .mfen h ord scp s => { word h 0xA 11 with d := Tile.code s, md := mdO ord scp 0 }
  | .mfenNoarrive h scp => { word h 0xA 11 with md := mdO .acq scp 1 }
  | .mig h d base idx off j => ({ word h 0xB 0 with d := SReg.code d, a := baseCode base, b := idxCode idx, c := off, md := mdG (0#1 ++ BitVec.ofBool idx.isNone ++ BitVec.ofBool base.isNone) }).imm96 (j)
  | .home h => word h 0xB 1
  | .migset h part wb mask => ({ word h 0xB 2 with c := (BitVec.ofBool wb).setWidth 8, md := mdG part.code }).imm128 (mask)
  | .migsetHome h j => ({ word h 0xB 2 with md := 5 }).imm96 (j)
  | .migq h w d => { word h 0xB 3 with d := SReg.code d, md := mdG w.code }
  | .bsadd h sat d a b c wa wb wd sg => ({ word h 0xB 4 with d := SReg.code d, a := SReg.code a, b := SReg.code b, c := SReg.code c, md := mdA .rne sat false 0 }).imm96 (bsImm wa wb wd sg)
  | .bsmul h sat d a b c wa wb wd sg => ({ word h 0xB 5 with d := SReg.code d, a := SReg.code a, b := SReg.code b, c := SReg.code c, md := mdA .rne sat false 0 }).imm96 (bsImm wa wb wd sg)
  | .bsmac h sat d a b c wa wb wd sg => ({ word h 0xB 6 with d := SReg.code d, a := SReg.code a, b := SReg.code b, c := SReg.code c, md := mdA .rne sat false 0 }).imm96 (bsImm wa wb wd sg)
  | .bscmp h cond d a b c wa wb wd sg => ({ word h 0xB 7 with d := SReg.code d, a := SReg.code a, b := SReg.code b, c := SReg.code c, md := mdA .rne false false cond.code }).imm96 (bsImm wa wb wd sg)
  | .bspopc h d a c wa sg => ({ word h 0xB 8 with d := SReg.code d, a := SReg.code a, c := SReg.code c }).imm96 (bsImm wa 0 0 sg)
  | .xsend h ord scp d a b c => { word h 0xC 0 with d := SReg.code d, a := VReg.code a, b := SReg.code b, c := SReg.code c, md := mdO ord scp 0 }
  | .xsendNobar h ord scp a b c => { word h 0xC 0 with a := VReg.code a, b := SReg.code b, c := SReg.code c, md := mdO ord scp 1 }
  | .xsendf h ord scp d a b c => { word h 0xC 1 with d := SReg.code d, a := VReg.code a, b := SReg.code b, c := SReg.code c, md := mdO ord scp 0 }
  | .xget h ty ord scp d a b => { word h 0xC 2 with d := VReg.code d, a := a.code, b := b.code, ty := ty.code, md := mdO ord scp 0 }
  | .xatom h ty op ord scp d a b c => { word h 0xC 3 with d := VReg.code d, a := a.code, b := b.code, c := c.code, ty := ty.code, md := mdO ord scp op.code }
  | .xmcast h ord scp d a b g len slot bv => ({ word h 0xC 4 with d := SReg.code d, a := SReg.code a, b := SReg.code b, md := mdO ord scp 0 }).imm96 (0#14 ++ BitVec.ofBool bv ++ BitVec.ofNat 6 slot.val ++ len ++ g)
  | .xfence h scp => { word h 0xC 5 with md := mdO .rlx scp 0 }
  | .xred h ty srnd ord scp d a b c => { word h 0xC 6 with d := SReg.code d, a := SReg.code a, b := SReg.code b, c := SReg.code c, ty := ty.code, md := mdO ord scp (0#2 ++ BitVec.ofBool srnd) }
  | .xresid h (.rd d a c) => { word h 0xC 7 with d := SReg.code d, a := SReg.code a, c := SReg.code c }
  | .xresid h (.clr a c) => { word h 0xC 7 with a := SReg.code a, c := SReg.code c, md := 1 }
  | .xresid h (.set a b c) => { word h 0xC 7 with a := SReg.code a, b := SReg.code b, c := SReg.code c, md := 2 }
  | .xgrpSet h g a => { word h 0xC 8 with a := SReg.code a, c := g }
  | .xgrpGet h g a => { word h 0xC 8 with a := SReg.code a, c := g, md := 1 }
  | .lnch h d a => { word h 0xD 0 with d := SReg.code d, a := SReg.code a }
  | .larm h d a b => { word h 0xD 1 with d := SReg.code d, a := SReg.code a, b := Tile.code b }
  | .ldep h a => { word h 0xD 2 with a := SReg.code a }
  | .lprio h a b => { word h 0xD 3 with a := SReg.code a, b := SReg.code b }
  | .lwait h d a => { word h 0xD 4 with d := SReg.code d, a := SReg.code a }
  | .rrset h a b c own ctx n => ({ word h 0xE 0 with a := SReg.code a, b := SReg.code b, c := SReg.code c }).imm96 (0#17 ++ BitVec.ofBool own ++ ctx ++ n)
  | .rrinv h own ctx mask => (word h 0xE 1).imm96 (0#5 ++ BitVec.ofBool own ++ ctx ++ mask)
  | .pginv h a b => { word h 0xE 2 with a := SReg.code a, b := SReg.code b }
  | .pginvMod h a => { word h 0xE 2 with a := SReg.code a, md := 1 }
  | .wcsld h a m n => ({ word h 0xE 3 with a := SReg.code a }).imm96 (0#19 ++ n ++ 0#2 ++ BitVec.ofNat 6 m.val)
  | .wcsldAll h a m n => ({ word h 0xE 3 with a := SReg.code a, md := 1 }).imm96 (0#19 ++ n ++ 0#2 ++ BitVec.ofNat 6 m.val)
  | .evpost h a b c => { word h 0xE 4 with a := SReg.code a, b := SReg.code b, c := SReg.code c }
  | .preq h d a => { word h 0xE 5 with d := SReg.code d, a := SReg.code a }
  | .preqRel h a => { word h 0xE 5 with a := SReg.code a, md := 1 }
  | .dbgrd h w d a => { word h 0xE 6 with d := SReg.code d, a := SReg.code a, md := mdG w.code }
  | .gensweep h => word h 0xE 7
  | .gensweepSlice h => { word h 0xE 7 with md := 1 }
  | _ => word ⟨false, 7, false⟩ 0xF 0

/-! Words and bytes. -/

/-- The fields of a word that is not PAD; bits beyond its length read as zero. -/
def Raw.ofBits (w : BitVec 128) : Raw :=
  let len : Len := match (w.extractLsb' 0 2).toNat with
    | 1 => .w96
    | 2 => .w128
    | _ => .w64
  { len := len
    sw := w.getLsbD 2
    code := w.extractLsb' 3 5
    cls := w.extractLsb' 8 4
    gp := w.extractLsb' 12 3
    gn := w.getLsbD 15
    d := w.extractLsb' 16 8
    a := w.extractLsb' 24 8
    b := w.extractLsb' 32 8
    c := w.extractLsb' 40 8
    ty := w.extractLsb' 48 8
    md := w.extractLsb' 56 8
    ext := match len with
      | .w64 => 0
      | .w96 => (w.extractLsb' 64 32).setWidth 64
      | .w128 => w.extractLsb' 64 64 }

def Len.code : Len → BitVec 2
  | .w64 => 0
  | .w96 => 1
  | .w128 => 2

/-- The word of the fields. -/
def Raw.toBits (r : Raw) : BitVec 128 :=
  r.ext ++ (r.md ++ (r.ty ++ (r.c ++ (r.b ++ (r.a ++ (r.d ++ (BitVec.ofBool r.gn ++ (r.gp ++ (r.cls ++ (r.code ++
    (BitVec.ofBool r.sw ++ r.len.code)))))))))))

/-- The lengths that the forms of an opcode permit (R151). -/
def permits (r : Raw) : Bool :=
  match r.cls.toNat, r.code.toNat, r.len with
  | 0x0, 2, l => l != .w128
  | 0x0, 12, l => l == .w96
  | 0x0, 15, l => if r.x = 1 then l == .w96 else if r.x = 0 then l == .w64 else l != .w128
  | 0x0, _, l => l == .w64
  | 0x1, 1, l => l == .w96
  | 0x1, 2, l => l == .w128
  | 0x1, c, l => l == .w64 || (l == .w96 && c != 0 && c != 20 && c != 21)
  | 0x2, 1, l => l == .w96
  | 0x2, c, l => l == .w64 || (l == .w96 && !([0, 12, 13, 17, 24, 25, 26].contains c))
  | 0x3, c, l => l == .w64 || (l == .w96 && [0, 1, 2, 3, 4, 5, 6, 9, 11, 23].contains c)
  | 0x4, c, l => l == .w64 || (l == .w96 && [1, 4, 6, 7, 8].contains c)
  | 0x5, c, l => l == .w64 || (l == .w96 && [0, 1, 2, 7].contains c)
  | 0x7, 10, l => l == .w64 || (l == .w96 && r.imm32 != 0)
  | 0x7, c, l => l == .w64 || (l == .w96 && c != 14)
  | 0xA, c, l =>
    if c == 2 || c == 3 then l == .w128
    else if 4 ≤ c && c ≤ 7 then l != .w96
    else l == .w64
  | 0xB, 0, l => l == .w96
  | 0xB, 1, l => l == .w64
  | 0xB, 2, l => if r.x == 5 then l == .w96 else l == .w128
  | 0xB, 3, l => l == .w64
  | 0xB, _, l => l == .w96
  | 0xC, 4, l => l == .w96
  | 0xE, 0, l => l == .w96
  | 0xE, 1, l => l == .w96
  | 0xE, 3, l => l == .w96
  | _, _, l => l == .w64

/-- Field C holds an imm8 or a tag and not a register operand (R45, R154). -/
def cIsImm (r : Raw) : Bool :=
  match r.cls.toNat, r.code.toNat with
  | 0x1, c => c != 18
  | 0x2, c => !([9, 28].contains c)
  | 0x4, c => c != 3
  | 0x6, _ => true
  | 0x7, c => !([10, 11, 12, 13].contains c)
  | 0xA, c => !([2, 3, 5].contains c)
  | 0xB, c => c < 4
  | 0xC, 8 => true
  | _, _ => false

/-- A field that differs from the candidate's encoding: an unused field or one read as an immediate gives reason 6,
a role's field gives reason 5. -/
def fieldOff (got want : Byte) : Bool := got != want && want != 0

/-- The illegal-instruction reason of a word that is not an instruction, Table 19-3 in its own order
(the spec gives no order among several; DEDUCED, log entry 10). -/
def reasonOf (r : Raw) : Nat :=
  match candidate r with
  | none => 1
  | some i =>
    let e := encodeRaw i
    if !permits r || (r.len == .w96 && e.len == .w64 && !(r.cls == 0 && r.code == 15)) then 2
    else if (Ty.ofCode? r.ty).isNone || e.ty != r.ty || !i.tyOk then 3
    else if e.md != r.md || e.len != r.len || !i.mdOk then 4
    else if fieldOff r.d e.d || fieldOff r.a e.a || fieldOff r.b e.b || (fieldOff r.c e.c && !cIsImm r) || !i.opOk then 5
    else 6

/-- The decoder on fields: an instruction, or the reason of Table 19-3. -/
def decodeRaw (r : Raw) : Except Nat Instr :=
  match candidate r with
  | some i => if i.wf && encodeRaw i == r then .ok i else .error (reasonOf r)
  | none => .error 1

/-- The decoder: a pad word, or the instruction of the fields. -/
def decodeBits (w : BitVec 128) : Except Nat Instr :=
  if w.extractLsb' 0 2 = 3 then .ok (.pad (w.extractLsb' 2 30)) else decodeRaw (Raw.ofBits w)

/-- Replaces an operand code 0xFC + i by parameter i (R45). -/
def paramCode (par : Vector Byte 4) (c : Byte) : Byte :=
  if c.toNat < 0xFC then c else par[c.toNat - 0xFC]!

/-- Substitutes the parameters of a MCALL in the register operands of an operation. -/
def Raw.subst (r : Raw) (par : Vector Byte 4) : Raw :=
  { r with
    d := paramCode par r.d
    a := paramCode par r.a
    b := paramCode par r.b
    c := if cIsImm r then r.c else paramCode par r.c }

/-- Decodes an operation of a microprogram; a parameter that does not fit its field gives reason 9. -/
def decodeOp (par : Vector Byte 4) (w : BitVec 128) : Except Nat Instr :=
  match decodeRaw ((Raw.ofBits w).subst par) with
  | .ok i => .ok i
  | .error _ => .error 9

/-- An operation a control store may not hold: class 0x0 but NOP, class 0xE, CTXSAVE, CTXLOAD (R44); TRET is of
class 0x0. A reserved opcode is no operation (R160). -/
def Raw.forbidden (r : Raw) : Bool :=
  (candidate r).isSome && match r.cls.toNat, r.code.toNat with
  | 0x0, c => c != 0
  | 0xE, _ => true
  | 0x6, c => c == 8 || c == 9
  | _, _ => false

/-- An operation is an encoding for some valid choice of its parameters: a vector, predicate, tile or descriptor code,
or a scalar code. -/
def Raw.opValid (r : Raw) : Bool :=
  let vals : List Byte := [2, 0xC2]
  vals.any fun p0 => vals.any fun p1 => vals.any fun p2 => vals.any fun p3 =>
    match decodeRaw (r.subst #v[p0, p1, p2, p3]) with
    | .ok _ => true
    | .error _ => false

/-- A little-endian number of a list of bytes. -/
def leNat : List Byte → Nat
  | [] => 0
  | b :: bs => b.toNat + 256 * leNat bs

/-- The n low bytes of a number, lowest first. -/
def leBytes : Nat → Nat → List Byte
  | 0, _ => []
  | n + 1, w => BitVec.ofNat 8 (w % 256) :: leBytes n (w / 256)

/-- Length in bytes given by LEN of the first byte (Table 8-1). -/
def lenBytes (w : BitVec 128) : Nat :=
  match (w.extractLsb' 0 2).toNat with
  | 0 => 8
  | 1 => 12
  | 2 => 16
  | _ => 4

/-- The length of an instruction in bytes. -/
def Instr.bytes (i : Instr) : Nat :=
  match i with
  | .pad _ => 4
  | i => (encodeRaw i).len.bytes

/-- The word of an instruction, in the low bits. -/
def encode (i : Instr) : BitVec 128 :=
  match i with
  | .pad p => (p ++ (3 : BitVec 2)).setWidth 128
  | i => (encodeRaw i).toBits

/-- Decodes a list of bytes, the lowest address first; bytes that are missing read as zero. -/
def decodeBytes (bs : List Byte) : Except Nat Instr := decodeBits (BitVec.ofNat 128 (leNat bs))

/-- The bytes of an instruction, the lowest address first. -/
def encodeBytes (i : Instr) : List Byte := leBytes i.bytes (encode i).toNat

/-- The instruction that the decoder reads from a table word: its bits, little-endian from the lowest address, and
zeros above. -/
def decodeTableWord (nbits w : Nat) : Option Instr :=
  match decodeBytes (leBytes 16 (w % 2 ^ nbits)) with
  | .ok i => some i
  | .error _ => none

/-- Opcode bits [11:3] of a word (R150). -/
def opcBits (w : BitVec 128) : BitVec 9 := w.extractLsb' 3 9

end Sys2Proof
end

