-- ==== Sys2Proof/Machine/Event.lean ====
section
/-!
DEFINITION. The steps of units and of the outside world, in the form in which the state keeps those that are due. Each
constructor has the name and the arguments of the constructor of `Instr` that stands for the same row of
spec/opcode_table.json.
-/

namespace Sys2Proof.Machine

open Sys2Proof

/-- An indivisible step of a unit or of the outside world (spec/95_what_each_step_holds.md). -/
inductive Event where
  | waitaTimeout (p : Place)
  | sleepExpiry (p : Place)
  -- events of the core, its registers and its slots
  | loadLaneReturn (p : Place) (id lane : Nat)
  | memoryFaultSettle (p : Place) (b : Bool)
  | trapEntry (p : Place) (b : Bool)
  | extendedBlockGrant (core : Nat)
  | compactorMove (core : Nat)
  | compactorMoveDone (core : Nat)
  | sweeperPassEnd (slice : Bool) (n : Nat)
  -- events of the Orrery
  | submissionWrite (ctx off : Nat) (data : List Byte)
  | orreryAdmit
  | spanPlacement
  | crewRetire (crew : Nat)
  | preemptionWaitExpiry (launch : Nat)
  | spanSave (span : Nat)
  | spanRestore (span : Nat)
  | recallTimeout (p : Place)
  -- events of the Sextant, the matrix engine and the permit governor
  | chunkSend (core : Nat)
  | chunkArrival (id : Nat)
  | matrixCommandExecute (core : Nat)
  | matrixCommandComplete (core : Nat)
  | matrixBurstEnd (core : Nat)
  | permitGrant (power : Nat)
  | moduleRoomReport (m : Nat)
  | reservationExpiry (ctx num : Nat)
  | eventQueueRecheck
  -- events of the Heliostat
  | continuationDepart (id : Nat)
  | continuationArrival (id : Nat)
  | migrationReturn (id : Nat)
  -- events of the fabric and the link layer
  | frameSend (fibre : Nat)
  | frameWrite (fibre : Nat) (f : Frame)
  | frameReadRequest (fibre : Nat) (f : Frame)
  | frameReadResponse (fibre : Nat) (f : Frame)
  | frameAtomicRequest (fibre : Nat) (f : Frame)
  | frameAtomicResponse (fibre : Nat) (f : Frame)
  | frameEndToEndAck (fibre : Nat) (f : Frame)
  | frameMulticast (fibre : Nat) (f : Frame)
  | frameIdle (fibre : Nat) (f : Frame)
  | replayRequest (fibre : Nat) (f : Frame)
  | frameModuleCompletion (fibre : Nat) (f : Frame)
  | frameCorrupt (fibre : Nat)
  | replayTimeout (fibre : Nat)
  | relayForward (id : Nat)
  | relayLossTimeout (peer : Nat)
  | multicastMemberTimeout (xid child : Nat)
  | rotorSlotBoundary (plane : Nat)
  | guardBeacon (plane cycle slot domain : Nat)
  | rotorPlaneFailure (plane : Nat) (offset : Option Nat)
  | rotorPlaneRestore (plane : Nat) (offset : Option Nat)
  | wavelengthWindowEnd (fibre wl corrected : Nat)
  | uncorrectableCodeword (fibre group : Nat)
  | lossOfLock (fibre wl : Nat)
  | erasureDeclare (fibre wl : Nat)
  | linkEscalation (fibre group : Nat)
  | retrainSlot (fibre group : Nat) (lit : Bool)
  | forcedRetrain (fibre group : Nat)
  | forcedRetrainEnd (fibre group : Nat) (ok : Bool)
  | laserAgeingThreshold (fibre wl rise : Nat)
  | theodoliteWatchdogReset (engine : Nat)
  | theodoliteRecovered (engine : Nat)
  | lrRetryTimeout (link : Nat)
  | lrAckTimeout (link : Nat)
  | lrTrainingAttempt (link : Nat) (ok : Bool)
  | lrLinkTrained (link : Nat) (keyHash : BitVec 256) (rtt : Nat)
  | lrLossDiscard (link : Nat)
  | lrRekey (link : Nat) (out : Bool)
  | lrDedupExpiry (link : Nat) (xid : BitVec 16) (daddr : BitVec 56)
  -- events of modules, containment and the environment
  | moduleFault (m sub addr unit : Nat)
  | moduleRecovered (m : Nat)
  | discardRelease (launch : Nat)
  | thermalWarning (temp : Nat)
  | thermalThrottle (temp : Nat)
  | thermalRecover (temp : Nat)
  | powerExcursion (power : Nat)
  | thermalShutdown (temp : Nat)
  -- events of bring-up, the host port and the control die
  | coldReset
  | identityEntry
  | stateReqOptics
  | opticsTrainingDone (ok : Bool)
  | stateReqMapped
  | stateReqOperational
  | ctxCreate (c : Nat) (w : Vector Word64 8)
  | ctxDelete (c : Nat)
  | ctxPreSet (c : Nat)
  | ctxPreClear (c : Nat)
  | splitRequest (fibre : Nat) (n : Byte)
  | invarCheckpoint
  | checkpointDone (ok : Bool) (us : Nat)
  | invarPersist
  | persistDone (ok : Bool) (us : Nat)
  | invarRestore
  | restoreDone (ok : Bool) (us : Nat)
  | qctlSign
  | quoteReady
  | hostWindowRead (off n : Nat)
  | hostWindowWrite (off : Nat) (data : List Byte)
  | registerWrite (off : Nat) (val : Word64)
  | powerExcursionEnd (power : Nat)
  | firmwareStagingWrite (off : Nat) (data : List Byte)
  deriving DecidableEq, Repr

end Sys2Proof.Machine
end

