-- ==== Sys2Proof/Machine/Store.lean ====
section
/-!
DEFINITION. Sparse data by key: a list of key and value pairs with strictly rising keys in which no pair holds the
value that an absent key reads as, so that equal contents are equal lists. Memory, tags, register files and the
tables of the machine are kept so.
-/

namespace Sys2Proof.Machine

/-- A sparse table. -/
abbrev Tab (β : Type) := List (Nat × β)

/-- The entry of a key, if any. -/
def Tab.find {β : Type} : Tab β → Nat → Option β
  | [], _ => none
  | (k, v) :: t, i => if i = k then some v else if i < k then none else Tab.find t i

/-- Removes the entry of a key. -/
def Tab.del {β : Type} : Tab β → Nat → Tab β
  | [], _ => []
  | (k, v) :: t, i => if i = k then t else if i < k then (k, v) :: t else (k, v) :: Tab.del t i

/-- Sets the entry of a key. -/
def Tab.put {β : Type} : Tab β → Nat → β → Tab β
  | [], i, x => [(i, x)]
  | (k, v) :: t, i, x => if i = k then (i, x) :: t else if i < k then (i, x) :: (k, v) :: t else (k, v) :: Tab.put t i x

/-- The value of a key, where an absent key reads as `d`. -/
def Tab.get {β : Type} (d : β) (t : Tab β) (i : Nat) : β := (Tab.find t i).getD d

/-- Writes the value of a key; a value that an absent key reads as takes no entry. -/
def Tab.set {β : Type} [DecidableEq β] (d : β) (t : Tab β) (i : Nat) (x : β) : Tab β :=
  if x = d then Tab.del t i else Tab.put t i x

/-- Applies a change to the value of a key. -/
def Tab.upd {β : Type} [DecidableEq β] (d : β) (t : Tab β) (i : Nat) (f : β → β) : Tab β :=
  Tab.set d t i (f (Tab.get d t i))

/-- Changes an entry that exists. -/
def Tab.mod {β : Type} (t : Tab β) (i : Nat) (f : β → β) : Tab β :=
  match Tab.find t i with
  | none => t
  | some x => Tab.put t i (f x)

/-- Keys rise strictly, above a bound. -/
def Tab.sortedFrom {β : Type} : Nat → Tab β → Bool
  | _, [] => true
  | lo, (k, _) :: t => lo ≤ k && Tab.sortedFrom (k + 1) t

/-- The canonical form: keys rise strictly and no entry holds the default. -/
def Tab.wf {β : Type} [DecidableEq β] (d : β) (t : Tab β) : Bool :=
  Tab.sortedFrom 0 t && t.all fun p => p.2 != d

end Sys2Proof.Machine
end

