-- ==== Sys2Proof/Machine/State.lean ====
section
/-!
DEFINITION. The state of a QX9 package as plain data: the registers of its sheaves, their PC slots and parks, crews,
spans and launches, memory with its generation tags, the engines, the fabric and its links, the optics, the governor,
the event router, the host port, and the parts of the mapped modules that the QX9 sees (INVENTORY.md lists each with
its rule). The last fields are the model's own. `State.reset` is the machine after cold reset, in IDENTITY.
-/

namespace Sys2Proof.Machine

open Sys2Proof

/-- A generation (R53); 0x0000 is never issued. -/
abbrev Gen := BitVec 16

/-- A vector register granule: 32 lanes, generation tag, format tag (R47, R63). -/
structure VCell where
  data : Vector Word32 32
  gen : Gen
  fmt : BitVec 4
  deriving DecidableEq, Repr

/-- A scalar register granule. -/
structure SCell where
  val : Word64
  gen : Gen
  deriving DecidableEq, Repr

/-- A predicate granule: bit L is lane L. -/
structure PCell where
  val : Word32
  gen : Gen
  deriving DecidableEq, Repr

/-- An accumulator tile row: 16 elements of 96 bits and a generation tag (R260). -/
structure TileRow where
  el : Vector (BitVec 96) 16
  gen : Gen
  deriving DecidableEq, Repr

/-- What a trap records (Table 18-8). -/
structure Trap where
  kind : Byte
  detail : Byte
  lanes : Word32
  addr : BitVec 56
  rpc : Word64
  opc : BitVec 9
  opidx : BitVec 5
  inmc : Bool
  deriving DecidableEq, Repr

/-- Position inside a microprogram (R45, R46), `num` of the store: the MCALL's PC is the slot's PC. -/
structure MicroPos where
  image : List Byte
  count : Nat
  idx : Nat
  par : Vector Byte 4
  exec : Word32
  sw : Bool
  num : Nat
  deriving DecidableEq, Repr

/-- Why a PC slot alone is parked (R36): CBAR, SBAR, or an access that can fault at the memory side (R404), which
names the load and the place of the instruction. -/
inductive SlotPark where
  | cbar
  | sbar
  | memory (id : Nat) (pc : Word64) (opc : BitVec 9) (lanes : Word32) (micro : Option MicroPos)
  deriving DecidableEq, Repr

/-- A PC slot (R28) with the position inside a microprogram and the Exec of its MCALL (R45), its replay mask with the
instruction it applies to (R404), and its trap condition (R34, R382). -/
structure PcSlot where
  live : Bool
  pc : Word64
  mask : Word32
  gov : Nat
  micro : Option MicroPos
  mexec : Word32
  park : Option SlotPark
  replay : Word32
  replayPc : Word64
  replayIdx : Nat
  active : Bool
  waiting : Option Trap
  deriving DecidableEq, Repr

/-- Why a sheaf is parked by WAITA, ABWAIT, LWAIT, SLEEP or XACQ (R36). The Bool of `xacq` says that a CALLI caused it. -/
inductive Park where
  | waita (d : SReg) (limit : Nat)
  | abwait (b : Bool) (slot : BSlot) (target exec : Word32)
  | lwait (d : SReg) (launch : Nat)
  | sleep (until_ : Nat)
  | xacq (b : Bool) (size : Nat) (implicit : Bool)
  deriving DecidableEq, Repr

/-- A blocking instruction in progress (R172); the Bool names the PC slot that issued it. `retry` runs again when its
slot is next selected; the others end at an event, `matrix` when the engine's queue takes the command (R259). -/
inductive Block where
  | retry (b : Bool)
  | launch (b : Bool) (d : SReg)
  | command (b : Bool) (d : Option SReg) (xid : Nat)
  | mcast (b : Bool) (xid : Nat)
  | sweep (b : Bool) (slice : Bool) (passes : Nat)
  | matrix (b : Bool)
  deriving DecidableEq, Repr

/-- Where a variable-latency result goes (R38). -/
inductive LoadDest where
  | vec (d : VReg) (pair : Bool) (fmt : BitVec 4)
  | sca (d : SReg)
  | none_
  deriving DecidableEq, Repr

/-- A variable-latency result in flight: lanes not yet written, values that have arrived, faulted lanes; whether its reads
acquire (R111). -/
structure Load where
  id : Nat
  dest : LoadDest
  left : Word32
  ready : Word32
  vals : Vector Word64 32
  bad : Word32
  code : Byte
  addr : BitVec 56
  acq : Bool
  deriving DecidableEq, Repr

/-- An extended block: first register of the pool, size, generation (R49). -/
structure ExtBlk where
  start : Nat
  size : Nat
  gen : Gen
  deriving DecidableEq, Repr

/-- A set of registers: vectors, scalars, predicates (R286). -/
structure RegMask where
  v : BitVec 192
  s : BitVec 64
  p : BitVec 7
  deriving DecidableEq, Repr

/-- The rest of a recalled fragment (Table 7-3, step 2): its PC slots, its stack, and every granule of its visiting slot
that holds the visiting generation. -/
structure Frozen where
  a : PcSlot
  b : PcSlot
  lastB : Bool
  depth : Nat
  fstack : List Word64
  srnd : Word64
  qnv : Bool
  homePc : Option Word64
  noMig : Word32
  redepart : Word32
  ext : Nat
  vcells : List (Nat × VCell)
  scells : List (Nat × Word64)
  pcells : List (Nat × Word32)
  deriving DecidableEq, Repr

/-- A continuation (R288), with the carried values beside the header fields. `auto` marks lanes that left at the
instruction they continue at (R294, R407), as the Heliostat at home knows them (R409); `ia` is the address of the lowest
lane, from which a module selects the unit (R285). Until it departs or returns its lanes stand at the place `src`, under
the generation given there, whose registers are read at that moment (R289, R293); `stale` says that one of them was stale
when the lanes left. `trap` is a trap that a fragment met and that home takes (R296). -/
structure Cont where
  pc : Word64
  srnd : Word64
  mask : Word32
  rtok : Word32
  hgen : Gen
  xgen : Gen
  jpc : Word32
  ctx : Nat
  hpkg : BitVec 9
  home : Nat
  launch : Nat
  strict : Bool
  prio : Nat
  xblk : Nat
  hops : Nat
  kind : Nat
  rsn : Nat
  carry : RegMask
  wb : RegMask
  vregs : List (Nat × BitVec 4 × Vector Word32 32)
  sregs : List (Nat × Word64)
  pregs : List (Nat × Word32)
  fcode : Byte
  faddr : BitVec 56
  auto : Bool
  toModule : Bool
  dmod : Nat
  dunit : Nat
  dcore : Nat
  ia : Nat
  src : Option (Nat × Gen)
  stale : Bool
  trap : Option Trap
  frozen : Option Frozen
  deriving DecidableEq, Repr

/-- What a fragment keeps of its home (R288, R295); the first field is the home place; `recalled` is when it was
recalled; `ia` is the address by which its lowest lane came (R293). -/
structure Frag where
  home : Nat
  hpkg : BitVec 9
  ctx : Nat
  rtok : Word32
  hgen : Gen
  xgen : Gen
  hxblk : Nat
  jpc : Word32
  hops : Nat
  prio : Nat
  recalled : Option Nat
  ia : Nat
  deriving DecidableEq, Repr

/-- An open migration window (R291): entry index of its record, join PC, lanes away, scalars written back with the
lowest lane that wrote each. -/
structure Window where
  entry : Nat
  jpc : Word64
  away : Word32
  scal : List (Nat × Nat)
  deriving DecidableEq, Repr

/-- A sheaf in a sheaf slot, or a fragment in a visiting slot (R27, R295). `marked` says that the last instruction issued
carried a switch marker (R39); `code` holds the fetch blocks it has fetched, by address, which it may keep (R149). -/
structure Sheaf where
  launch : Nat
  span : Nat
  crew : Nat
  idx : Nat
  frag : Option Frag
  baseGen : Gen
  ext : Option ExtBlk
  vbase : Option Nat
  a : PcSlot
  b : PcSlot
  lastB : Bool
  yielded : Bool
  readyAt : Option Nat
  depth : Nat
  fstack : List Word64
  pv : BitVec 192
  ps : BitVec 64
  pp : BitVec 8
  loads : List Load
  park : Option Park
  marked : Bool
  block : Option Block
  strict : Bool
  srnd : Word64
  qnv : Bool
  watch : List Nat
  watchHit : Bool
  deps : List Nat
  carry : RegMask
  wb : RegMask
  homePc : Option Word64
  win : Option Window
  winCount : Word32
  refused : Word32
  refRsn : Nat
  noMig : Word32
  rsns : List (Word32 × Nat)
  redepart : Word32
  redHops : List (Word32 × Nat)
  returns : List Cont
  refusedAddr : Option (BitVec 56)
  code : List (Word64 × List Byte)
  ended : Bool
  deriving DecidableEq, Repr

/-- A tile descriptor: 128 bits and a format tag (R261). -/
structure TDesc where
  bits : BitVec 128
  tag : BitVec 4
  deriving DecidableEq, Repr

/-- Bytes of one 8-byte word of a crew's region that the matrix engine may still read as they were before a write (R105,
R121): their offset, what they were, the lanes, with their places, that have made or read the write (lane 32 is the engine's
own), none once a release has published it, and the MFEN queued after which they are read as written. -/
structure OldWord where
  off : Nat
  bytes : List Byte
  by_ : Option (List (Nat × Nat))
  until_ : Option Nat
  deriving DecidableEq, Repr

/-- A crew (R25, R89, R135 to R137): among the rest its engine errors not yet reported (R278), and the writes of its region that
matrix commands need not see. -/
structure Crew where
  span : Nat
  launch : Nat
  core : Nat
  unit : Nat
  units : Nat
  scrGen : Gen
  tiles : List Nat
  accGen : Gen
  bar : Nat
  sheaves : List Nat
  descs : Vector TDesc 16
  cbar : Nat
  allow : Nat
  flight : Nat
  posted : Nat
  engErr : List (Byte × BitVec 56)
  old : List OldWord
  retired : Bool
  deriving DecidableEq, Repr

/-- Span states, Table 7-5. -/
inductive SpanState where
  | waiting | running | saving | saved | retired | discarded
  deriving DecidableEq, Repr

/-- The saved image of a pre-empted span (R141, step 4): sheaves with their live registers, crews, live granules of
memory and accumulator rows, recalled continuations, and the parts of the save region that it takes: offset and bytes. -/
structure Saved where
  sheaves : List (Nat × Sheaf)
  vregs : List (Nat × Nat × VCell)
  sregs : List (Nat × Nat × SCell)
  pregs : List (Nat × Nat × PCell)
  crews : List (Nat × Crew)
  grans : List (Nat × List Byte)
  rows : List (Nat × Nat × TileRow)
  conts : List Cont
  room : List (Nat × Nat)
  deriving DecidableEq, Repr

/-- A span (R26, R135). -/
structure Span where
  launch : Nat
  num : Nat
  state : SpanState
  cluster : Nat
  first : Nat
  crews : List Nat
  unit : Nat
  units : Nat
  sliceGen : Gen
  sbar : Nat
  saved : Option Saved
  recalls : List Cont
  deriving DecidableEq, Repr

/-- A region a launch declares (R127). -/
structure Region where
  mode : BitVec 2
  pages : Nat
  base : Nat
  deriving DecidableEq, Repr

/-- A launch record (Table 7-1), fields marked "minus 1" still so encoded. -/
structure LaunchRec where
  tag : Word64
  cbar : BitVec 56
  args : Word64
  spans : Nat
  crews : Nat
  shv : Nat
  xblk : Nat
  acc : Nat
  scr : Nat
  slice : Nat
  bar : Nat
  prio : Nat
  strict : Bool
  ser : Bool
  nopre : Bool
  entry : Word64
  nin : Nat
  next : Nat
  regions : List Region
  deriving DecidableEq, Repr

/-- Launch states, Table 7-4; `ending` is a launch whose completion record waits for its queue (R377). -/
inductive LaunchState where
  | armed | blocked | eligible | active | ending | discarding
  deriving DecidableEq, Repr

/-- A launch in the window (R130). -/
structure Launch where
  ctx : Nat
  parent : Nat
  ancestors : List Nat
  record : LaunchRec
  state : LaunchState
  prio : Nat
  preds : List Nat
  placed : Nat
  retired : Nat
  arm : Option (Nat × BSlot)
  leave : Option Nat
  eligibleAt : Nat
  sub : Nat
  kind : Byte
  faddr : BitVec 56
  node : Nat
  deriving DecidableEq, Repr

/-- A record on its way to the Orrery: from a sheaf (its place, PC slot, destination, arming slot and dependence
list) or from the host (R129, R130). -/
structure Submission where
  ctx : Nat
  bytes : List Byte
  origin : Option (Nat × Bool)
  dest : SReg
  arm : Option BSlot
  deps : List Nat
  deriving DecidableEq, Repr

/-- A context (Table 15-3) and its sixteen range registers (R91). -/
structure Ctx where
  v : Bool
  priv : Bool
  dbg : Bool
  saveBase : Word64
  saveCnt : BitVec 16
  psBase : Word64
  psSize : Word64
  pre : Bool
  rr : Vector (Word64 × Word64 × Word64) 16
  deriving DecidableEq, Repr

/-- Kinds of far-memory commands in a Sextant queue. -/
inductive FarKind where
  | fetch | store
  deriving DecidableEq, Repr

/-- A tensor transfer in a Sextant (R250, R253): its slot, its memory-side descriptor, and its next row and byte; whether it
exceeds 1 MiB, releases (R118), has a DEVICE far side (R115), and holds an uncorrectable error (R372). -/
structure FarCmd where
  kind : FarKind
  crew : Nat
  place : Nat
  ctx : Nat
  slot : BSlot
  far : Word64
  fstr : Nat
  loff : Nat
  lstr : Nat
  rows : Nat
  rowBytes : Nat
  row : Nat
  byte : Nat
  big : Bool
  rel : Bool
  dev : Bool
  bad : Bool
  deriving DecidableEq, Repr

/-- A chunk in flight (R251): where it is written, its bytes, or the code with which it faulted; one of a transfer that
releases stays, landed, until every write of the transfer is performed (R118). -/
structure Chunk where
  crew : Nat
  core : Nat
  slot : BSlot
  kind : FarKind
  ia : Nat
  local_ : Nat
  len : Nat
  data : Option (List Byte)
  code : Byte
  cmd : Nat
  rel : Bool
  landed : Bool
  deriving DecidableEq, Repr

/-- A module engine command outstanding (R255, R444). -/
structure ModCmd where
  code : Nat
  ty : Ty
  op : MredOp
  w1 : Word64
  w2 : Word64
  w3 : Word64
  place : Nat
  crew : Nat
  slot : Option BSlot
  launch : Nat
  deriving DecidableEq, Repr

/-- A matrix command in an engine queue, with everything it captured at issue (R259), and whether its entry holds an
uncorrectable error (R372). -/
structure MatCmd where
  instr : Instr
  crew : Nat
  launch : Nat
  place : Nat
  strict : Bool
  da : TDesc
  db : TDesc
  scalar : Word64
  vals : Vector Word64 32
  exec : Word32
  load : Nat
  bad : Bool
  deriving DecidableEq, Repr

/-- A matrix engine (R259, R280): its queue, the commands that have issued and wait for an entry of it, and the loads of MRDV
that have run and whose lanes may not all be written (place and load, R277). -/
structure Engine where
  queue : List MatCmd
  waiting : List MatCmd
  late : List (Nat × Nat)
  running : Bool
  burst : Bool
  lastMma : Nat
  deriving DecidableEq, Repr

/-- A core's Sextant (R250): queued and spilled commands, and the crew served last. -/
structure Sextant where
  queue : List (Nat × FarCmd)
  spill : List (Nat × FarCmd)
  lastCrew : Nat
  deriving DecidableEq, Repr

/-- A microprogram of a writable control store (R44). -/
structure Micro where
  image : List Byte
  count : Nat
  deriving DecidableEq, Repr

/-- A waiting request for extended registers (R50). -/
structure PoolReq where
  place : Nat
  b : Bool
  size : Nat
  implicit : Bool
  deriving DecidableEq, Repr

/-- A core: extended pool blocks in use by first register with their sizes, waiting requests, a compactor move,
control store, engines, the sweeper's passes, and the slot that issued last. -/
structure Core where
  blocks : Tab Nat
  waiting : List PoolReq
  move : Option (Nat × Nat)
  store : Tab Micro
  engine : Engine
  sextant : Sextant
  lines : List (Nat × Nat × List Byte)
  lastSlot : Nat
  deriving DecidableEq, Repr

/-- A generation counter with its values in quarantine, each with the pass number after whose end it is free (R57). -/
structure GenCtr where
  last : Gen
  quar : List (Gen × Nat)
  passes : Nat
  deriving DecidableEq, Repr

/-- Requests for leave (R342). -/
structure LeaveReq where
  id : Nat
  kind : Nat
  charge : Nat
  ctx : Nat
  modn : Nat
  since : Nat
  deriving DecidableEq, Repr

/-- What a leave serves. -/
inductive LeaveFor where
  | matrix (core : Nat)
  | tensor (core cmd launch : Nat)
  | launch (n : Nat)
  | reservation (ctx num : Nat)
  | bitSerial (place : Nat)
  deriving DecidableEq, Repr

/-- A leave granted and not yet ended, with the reservation it draws on. -/
structure Leave where
  id : Nat
  kind : Nat
  charge : Nat
  for_ : LeaveFor
  drawn : Option Nat
  deriving DecidableEq, Repr

/-- A PREQ reservation (R203, R343). -/
structure Reservation where
  ctx : Nat
  num : Nat
  kind : Nat
  count : Nat
  charge : Nat
  drawn : Nat
  hold : Nat
  granted : Bool
  until_ : Nat
  deriving DecidableEq, Repr

/-- The permit governor; power in watts times 1,000 (R342, R344). -/
structure Governor where
  power : Nat
  queue : List (LeaveReq × LeaveFor)
  modQueue : List (LeaveReq × LeaveFor)
  room : List Nat
  leaves : List Leave
  res : List Reservation
  nextId : Nat
  grants : Vector Nat 4
  waited : Nat
  deriving DecidableEq, Repr

/-- One lane of an atomic request: its number, operand, new value of a compare, and virtual address (R116). -/
structure AtomLane where
  lane : Nat
  c : Word64
  n : Word64
  va : BitVec 56
  deriving DecidableEq, Repr

/-- What an outstanding fabric transfer is, and whom it serves (R329, R429): `write`, `read` and `atom` are accesses of lanes
of a place, `send` a transfer of the fabric engine for it. -/
inductive XKind where
  | write (place : Nat)
  | send (place : Nat)
  | read (place load lane : Nat) (ty : Ty) (off : Nat) (va : BitVec 56)
  | atom (place load : Nat) (ty : Ty) (op : Nat) (ls : List AtomLane)
  | mcast (place : Nat) (status : Word64) (group : Nat) (crew : Nat) (slot : Option BSlot)
  | cbar
  | chunk (id : Nat)
  | command
  deriving DecidableEq, Repr

/-- An outstanding fabric transfer: frames not yet acknowledged, negative members, the addresses it accesses, each with
its bytes, the peer or long-reach link included (R312), the time its last multicast frame left, the relays that took its
frames first, each with the time of the link acknowledgement and the frame's address (R428), the memory type of its access
(R115), and whether later accesses of its place wait for it (R111, R114). -/
structure Xfer where
  kind : XKind
  launch : Nat
  left : Nat
  neg : BitVec 512
  out : List (Nat × Nat)
  since : Nat
  relays : List (Nat × Nat × BitVec 56)
  mt : Nat
  bar : Bool
  deriving DecidableEq, Repr

/-- Traffic classes (R308). -/
inductive Route where
  | short
  | bulk
  | path (k : Nat)
  | link (l : Nat)
  | memory (m : Nat)
  deriving DecidableEq, Repr

/-- A frame waiting to be sent, with its remaining hop offsets (R310); the virtual addresses of its granules, from which
a resend reads them again (R319), or none; the transfers that must be over before it leaves (R107, R115); whether it has
been sent in a window of a rotor plane before (R419). -/
structure OutFrame where
  f : Frame
  route : Route
  hops : List Nat
  launch : Nat
  src : List Word64
  after : List Nat
  again : Bool
  deriving DecidableEq, Repr

/-- One direction pair of a fibre's link layer (R315, R419): next number to send, retained frames and since when no ACK
has advanced, next number expected, discarding, the numbers of the replay requests not yet reported (R436), control frames
waiting, the group whose codeword failed last, the last ACK sent; the times at which each retained frame was sent, and those at
which the expected frame is known to have been sent without being accepted, latest first (R421). -/
structure Link where
  nextSeq : BitVec 16
  retained : List OutFrame
  since : Nat
  expSeq : BitVec 16
  discarding : Bool
  reqs : List (BitVec 16)
  control : List Frame
  badGroup : Option Nat
  acked : BitVec 16
  sent : List (BitVec 16 × List Nat)
  fails : List Nat
  deriving DecidableEq, Repr

/-- A word outside the package SRAM and the vector registers that holds an uncorrectable error (Table 18-1): a scalar or
predicate register of a place, an accumulator row by its key, a microprogram of a control store, or the Orrery's window, unit
tables, event router or permit governor. -/
inductive BadWord where
  | scalar (k r : Nat)
  | pred (k r : Nat)
  | row (key : Nat)
  | store (core m : Nat)
  | control
  deriving DecidableEq, Repr

/-- A frame held by a relay buffer (R311), and whether the buffer holds an uncorrectable error. -/
structure Relay where
  f : Frame
  off : List Nat
  bad : Bool
  deriving DecidableEq, Repr

/-- A multicast frame this package forwarded: the frame, children waited for, negative members, and the time its last
frame left (R328). -/
structure McastFwd where
  f : Frame
  children : List Nat
  neg : BitVec 512
  since : Nat
  deriving DecidableEq, Repr

/-- The first of the two frames of an atomic request that has arrived (R116, log entry 16): source, transfer, which half, and
its payload. -/
structure HalfAtom where
  src : Nat
  xid : BitVec 16
  half : BitVec 2
  payload : List Byte
  deriving DecidableEq, Repr

/-- An ordered-flag transfer being received (R324): frames performed and expected on each path. -/
structure FlagRx where
  src : Nat
  xid : BitVec 16
  got : Vector Nat 4
  want : Vector (Option Nat) 4
  np : Option Nat
  flag : BitVec 56
  fval : Word32
  ctx : BitVec 10
  refused : Bool
  deriving DecidableEq, Repr

/-- Long-reach link state (R318, R353, R430 to R432). -/
inductive LrState where
  | untrained | trained | lost
  deriving DecidableEq, Repr

/-- A write frame of a long-reach link without its end-to-end acknowledgement: resends, when it was sent last, the
timeout that then applied (R319, R432). -/
structure LrWait where
  o : OutFrame
  resends : Nat
  sent : Nat
  timeout : Nat
  deriving DecidableEq, Repr

/-- A long-reach link: state; key epoch and frame counter of each direction (R318); round trip in ps; authentication
failures since the last record, and the times of the latest (R431); how far the domain time that its slots follow is ahead of
this package's, in ns (R307); resends counted; frames unacknowledged; pairs kept
(R433); when it was lost, when it trains again, when an ACK last came; when records were last posted. -/
structure LrLink where
  state : LrState
  epoch : Word32
  txCtr : BitVec 64
  rxEpoch : Word32
  rxCtr : BitVec 64
  rtt : Nat
  offset : Int
  authFail : Nat
  authTimes : List Nat
  retries : Nat
  unacked : List LrWait
  dedup : List (BitVec 16 × BitVec 56 × Nat)
  lostAt : Nat
  tryAt : Nat
  ackAt : Nat
  lastRec0 : Option Nat
  lastRec1 : Option Nat
  deriving DecidableEq, Repr

/-- Wavelength states, Table 21-1. -/
inductive WlState where
  | active | degraded | erased | dark
  deriving DecidableEq, Repr

/-- A wavelength: state, quiet windows while degraded, the wavelength whose positions it carries, whether a spare
covers it, laser bias rise, ageing record armed, loss of lock reported. -/
structure Wave where
  state : WlState
  quiet : Nat
  carries : Option Nat
  covered : Bool
  rise : Nat
  agedArmed : Bool
  lost : Bool
  deriving DecidableEq, Repr

/-- A stripe group: LREAD counters, service, direction, retrains, and the number of the last retrain slot that it used
(R316); for each of its last 4 uncorrectable codewords, latest first, the wavelengths whose erasure makes it decodable, and
when one was last declared (R421); whether it owes a forced retrain to a recovery (R425). -/
structure Group where
  corrected : Nat
  uncorr : Nat
  replays : Nat
  retrains : Nat
  oos : Bool
  towards : Bool
  retraining : Bool
  forcedFails : Nat
  slotUsed : Option Nat
  search : List (List Nat)
  declaredAt : Option Nat
  owed : Bool
  deriving DecidableEq, Repr

/-- A Theodolite: held after a watchdog reset, times of its resets (R425). -/
structure Theo where
  held : Bool
  since : Nat
  resets : List Nat
  deriving DecidableEq, Repr

/-- A rotor plane: failed as a whole, or at some offsets (R426); the domain identifier of its beacons; the slot in which
it last sent, the frames it sent there (R305), and whether one of them has been acknowledged; when a window ended in which none
was, and its offset; the slot in which it last failed (R426). -/
structure Plane where
  whole : Bool
  offs : List Nat
  domain : Option Nat
  slotNo : Nat
  sent : Nat
  acked : Bool
  silent : Option (Nat × Nat)
  failedSlot : Nat
  deriving DecidableEq, Repr

/-- A version open at a module: slot, first page, pages, and the pages copied since (R104). -/
structure Version where
  slot : Nat
  first : Nat
  pages : Nat
  copies : List (Nat × List (Nat × Byte) × Word64)
  deriving DecidableEq, Repr

/-- Pages whose leaf entries a module has read again from what software wrote in its tables (R97): the first, how many, the
number that the reading goes by, and whether the Invar has persisted the pages since. -/
structure Reread where
  first : Nat
  pages : Nat
  key : Nat
  clean : Bool
  deriving DecidableEq, Repr

/-- A module as the QX9 sees it (R97, R103, R415): leaf entries that it has changed, entries that it has read, latest first. -/
structure Mod where
  leaf : Tab Word64
  reread : List Reread
  versions : List Version
  badUnits : List Nat
  badBlocks : List Nat
  unreachable : Bool
  deriving DecidableEq, Repr

/-- Registers of the host port (Table 15-2), identity and persistence; the module map and the groups as they stood when the
module set was last mapped (R21); the quote being signed, and the Invar command that is
under way (Table 15-7). -/
structure HostPort where
  cur : Nat
  err : Nat
  req : Nat
  pdbg : Bool
  role : BitVec 32
  pkgnum : BitVec 9
  win : Word64
  modmap : Vector Word64 16
  sgmap : Tab Byte
  liveMap : Vector Word64 16
  liveGroups : Tab Byte
  split : Tab Byte
  lrpeer : Tab Byte
  lrcfg : Tab Word32
  fwlen : Vector Word64 3
  staging : Tab Byte
  meas : List Byte
  nonce : List Byte
  quote : List Byte
  quoteSig : List Byte
  quoteReady : Bool
  signing : Option (List Byte)
  delay : Tab Word64
  invarSt : Nat
  invarFc : Byte
  invarUs : Nat
  safe : Vector Word64 16
  training : Bool
  invarCmd : Nat
  reads : List Byte
  msi : Tab Nat
  deriving DecidableEq, Repr

/-- A checkpoint image (R345): the Orrery's window, and every span with the image of all it holds; the safe-region bases that
it is striped over, its length, and the number that its bytes there go by. -/
structure Image where
  launches : Tab Launch
  spans : Tab Span
  bases : List Nat
  len : Nat
  key : Nat
  deriving DecidableEq, Repr

/-- An event record waiting for room in a queue (R377): its context, queue, the record without SEQ, its launch, and whether
it has been posted since, so that the launch's window entry is due to be freed. -/
structure WaitRec where
  ctx : Nat
  queue : Nat
  body : BitVec 256
  launch : Nat
  posted : Bool
  deriving DecidableEq, Repr

/-- A fault stops the machine without a next state. No step of this model raises one: every behaviour of the spec is
a next state, traps included. Safe. -/
inductive Fault where
  /-- Raised by no step; kept so that the type has a name. Safe. -/
  | halted
  deriving DecidableEq, Repr

/-- A refusal has no meaning for the instruction. -/
inductive Refusal where
  /-- Raised by the dispatcher for an instruction that has no meaning in this model. Safe. -/
  | notModelled (mnemonic : String)
  deriving DecidableEq, Repr

/-- The machine. -/
structure State where
  mem : List Host.Cell
  tags : Tab Gen
  vregs : Tab VCell
  sregs : Tab SCell
  pregs : Tab PCell
  acc : Tab TileRow
  coreUnits : Tab Gen
  sliceUnits : Tab Gen
  sheaves : Tab Sheaf
  crews : Tab Crew
  spans : Tab Span
  launches : Tab Launch
  cores : Tab Core
  gens : Tab GenCtr
  ctxs : Tab Ctx
  nextLaunch : Nat
  nextSpan : Nat
  nextCrew : Nat
  subs : List Submission
  chunks : Tab Chunk
  modCmds : Tab ModCmd
  conts : Tab Cont
  nextId : Nat
  gov : Governor
  xfers : Tab Xfer
  nextXid : Nat
  outq : List OutFrame
  links : Tab Link
  relays : Tab Relay
  mcasts : Tab McastFwd
  flags : List FlagRx
  halves : List HalfAtom
  groups : Tab (BitVec 512)
  lr : Tab LrLink
  waves : Tab Wave
  grps : Tab Group
  fibreRec : Tab Nat
  theos : Tab Theo
  planes : Tab Plane
  heard : Tab Nat
  mods : Tab Mod
  host : HostPort
  waitRecs : List WaitRec
  warm : Bool
  throttled : Bool
  excursion : Bool
  checkpoint : Bool
  ckptFault : Bool
  images : List Image
  badSram : List Nat
  badRegs : List Nat
  badWords : List BadWord
  time : Nat
  nanos : Nat
  due : List Event
  focus : Nat
  focusB : Bool
  frees : Nat
  choices : Nat
  deriving DecidableEq, Repr

/-! Values of things that are absent. -/

def VCell.zero : VCell := ⟨Vector.replicate 32 0, 0, 0⟩
def SCell.zero : SCell := ⟨0, 0⟩
def PCell.zero : PCell := ⟨0, 0⟩
def TileRow.zero : TileRow := ⟨Vector.replicate 16 0, 0⟩
def TDesc.zero : TDesc := ⟨0, 0⟩
def RegMask.none : RegMask := ⟨0, 0, 0⟩

/-- A free PC slot. -/
def PcSlot.free : PcSlot := ⟨false, 0, 0, 63, none, 0, none, 0, 0, 0, false, none⟩

def Engine.idle : Engine := ⟨[], [], [], false, false, 0⟩
def Sextant.idle : Sextant := ⟨[], [], 0⟩

/-- A core after reset: pool free, control store counts zero (R180), engines empty. -/
def Core.init : Core := ⟨[], [], none, [], Engine.idle, Sextant.idle, [], 23⟩

def GenCtr.init : GenCtr := ⟨0, [], 0⟩

/-- A context that does not exist (Table 15-3). -/
def Ctx.init : Ctx := ⟨false, false, false, 0, 0, 0, 0, false, Vector.replicate 16 (0, 0, 0)⟩

/-- A link with nothing sent or received (R315). -/
def Link.init : Link := ⟨0, [], 0, 0, false, [], [], none, 0xFFFF, [], []⟩

def LrLink.init : LrLink := ⟨.untrained, 0, 0, 0, 0, 0, 0, 0, [], 0, [], [], 0, 0, 0, none, none⟩

/-- Wavelength w of a fibre at bring-up: 16g + 15 is DARK, the others ACTIVE (R18, R418). -/
def Wave.init (w : Nat) : Wave := ⟨if w % 16 = 15 then .dark else .active, 0, none, false, 0, true, false⟩

/-- Stripe group g of a fibre split 4:4 (R20). -/
def Group.init (g : Nat) : Group := ⟨0, 0, 0, 0, false, g < 4, false, 0, none, [], none, false⟩

def Theo.init : Theo := ⟨false, 0, []⟩
def Plane.init : Plane := ⟨false, [], none, 0, 0, false, none, 0⟩
def Mod.init : Mod := ⟨[], [], [], [], [], false⟩

/-- The governor with nothing granted; P is a DESIGN CHOICE (log entry 7). -/
def Governor.init : Governor := ⟨0, [], [], [], [], [], 1, Vector.replicate 4 0, 0⟩

/-- The host port after cold reset, in IDENTITY: CUR 1, ROLE the default of Table 1-3 (R339, R341), every other
register zero but SGMAP and the defaults its readers give SPLIT and LRCFG (log entry 7). -/
def HostPort.init : HostPort :=
  { cur := 1
    err := 0
    req := 0
    pdbg := false
    role := 0x95500000
    pkgnum := 0
    win := 0
    modmap := Vector.replicate 16 0
    sgmap := []
    liveMap := Vector.replicate 16 0
    liveGroups := []
    split := []
    lrpeer := []
    lrcfg := []
    fwlen := Vector.replicate 3 0
    staging := []
    meas := []
    nonce := []
    quote := []
    quoteSig := []
    quoteReady := false
    signing := none
    delay := []
    invarSt := 0
    invarFc := 0
    invarUs := 0
    safe := Vector.replicate 16 0
    training := false
    invarCmd := 0
    reads := []
    msi := [] }

/-- The machine right after reset: STATE.CUR is 1, IDENTITY, as the Init column of Table 15-4 gives it; nothing is
placed, nothing is listed in memory, every tag is 0x0000, every count of a control store is 0. -/
def State.reset : State :=
  { mem := []
    tags := []
    vregs := []
    sregs := []
    pregs := []
    acc := []
    coreUnits := []
    sliceUnits := []
    sheaves := []
    crews := []
    spans := []
    launches := []
    cores := []
    gens := []
    ctxs := []
    nextLaunch := 1
    nextSpan := 0
    nextCrew := 0
    subs := []
    chunks := []
    modCmds := []
    conts := []
    nextId := 0
    gov := Governor.init
    xfers := []
    nextXid := 0
    outq := []
    links := []
    relays := []
    mcasts := []
    flags := []
    halves := []
    groups := []
    lr := []
    waves := []
    grps := []
    fibreRec := []
    theos := []
    planes := []
    heard := []
    mods := []
    host := HostPort.init
    waitRecs := []
    warm := false
    throttled := false
    excursion := false
    checkpoint := false
    ckptFault := false
    images := []
    badSram := []
    badRegs := []
    badWords := []
    time := 0
    nanos := 0
    due := []
    focus := 0
    focusB := false
    frees := 0
    choices := 0 }

end Sys2Proof.Machine
end

