-- ==== Sys2Proof/Machine/Flags.lean ====
section
/-!
DEFINITION. The flags of a sheaf: masks of lanes, predicates, pending bits (R38), and the sticky QNV flag (R69).
-/

namespace Sys2Proof.Machine

open Sys2Proof

/-- The 32 lanes in ascending order. -/
def lanes : List Nat := List.range 32

/-- The mask whose bit L is `f L`. -/
def mask32 (f : Nat → Bool) : Word32 :=
  BitVec.ofNat 32 (lanes.foldr (fun i n => 2 * n + (if f i then 1 else 0)) 0)

/-- The lanes of a mask, ascending. -/
def lanesOf (m : Word32) : List Nat := lanes.filter fun i => m.getLsbD i

/-- The lowest lane of a mask; 32 when it is empty. -/
def lowest (m : Word32) : Nat := ((lanesOf m).head?).getD 32

/-- The mask of one lane. -/
def laneBit (i : Nat) : Word32 := BitVec.ofNat 32 (2 ^ i)

/-- One value per lane. -/
def vec32 {α : Type} (f : Nat → α) : Vector α 32 := Vector.ofFn fun i => f i.val

/-- One value for each of sixteen. -/
def vec16 {α : Type} (f : Nat → α) : Vector α 16 := Vector.ofFn fun i => f i.val

/-- The predicate a comparison writes: the lanes of Exec take the new value, the others keep the old (R55, R213). -/
def mergeMask (m new old : Word32) : Word32 := (new &&& m) ||| (old &&& ~~~m)

/-- A register of a sheaf. -/
inductive Reg where
  | v (r : Nat)
  | s (r : Nat)
  | p (r : Nat)
  deriving DecidableEq, Repr

/-- The pending bit of a register: those of a block that an implicit XACQ waits for are set while it waits (R38, R42). -/
def Sheaf.pending (sh : Sheaf) : Reg → Bool
  | .v r => sh.pv.getLsbD r || (match sh.park with
    | some (.xacq _ n true) => decide (64 ≤ r ∧ r < 64 + n)
    | _ => false)
  | .s r => sh.ps.getLsbD r
  | .p r => sh.pp.getLsbD r

def setBit {w : Nat} (x : BitVec w) (i : Nat) (b : Bool) : BitVec w :=
  if b then x ||| BitVec.ofNat w (2 ^ i) else x &&& ~~~(BitVec.ofNat w (2 ^ i))

/-- Sets or clears the pending bit of a register. -/
def Sheaf.setPending (sh : Sheaf) (r : Reg) (b : Bool) : Sheaf :=
  match r with
  | .v r => { sh with pv := setBit sh.pv r b }
  | .s r => { sh with ps := setBit sh.ps r b }
  | .p r => { sh with pp := setBit sh.pp r b }

/-- Some pending bit of the sheaf is set (R39). -/
def Sheaf.anyPending (sh : Sheaf) : Bool := sh.pv != 0 || sh.ps != 0 || sh.pp != 0

/-- The registers a load writes (R38). -/
def LoadDest.regs : LoadDest → List Reg
  | .vec d pair _ => if pair then [.v d.val, .v (d.val + 1)] else [.v d.val]
  | .sca d => [.s d.val]
  | .none_ => []

end Sys2Proof.Machine
end

