-- ==== Sys2Proof/Machine/Regs.lean ====
section
/-!
DEFINITION. Named operations over the registers: where a register lies (R49, R52), the generation that an access to it
carries (R54), a read of a stale granule as zero (R56), and a partial write (R55). All instructions read and write
registers through these.
-/

namespace Sys2Proof.Machine

open Sys2Proof

/-- The key of a place: 24 slots for each core, then 24 for each near-memory unit. -/
def placeKey : Place → Nat
  | .core c s => c * 24 + s
  | .nmu m u s => 6144 + (m * 64 + u) * 24 + s

/-- The place of a key. -/
def placeOf (k : Nat) : Place :=
  if k / 24 < 256 then .core (k / 24) (k % 24) else .nmu ((k / 24 - 256) / 64) ((k / 24 - 256) % 64) (k % 24)

/-- The core, or 256 plus the number of the near-memory unit, of a place. -/
def unitOf (k : Nat) : Nat := k / 24

/-- The slot number of a place. -/
def slotOf (k : Nat) : Nat := k % 24

/-- The place is a visiting slot of a near-memory unit. -/
def nearMem (k : Nat) : Bool := 256 ≤ unitOf k

/-- The key of a unit's generation counter (Table 3-3). -/
def genKey (k : Nat) : Nat := if nearMem k then 1000 + (unitOf k - 256) else unitOf k

/-- The cluster of a core (R15). -/
def clusterOf (core : Nat) : Nat := core / 8

/-- The mesh node of a core or, for a near-memory unit, which lies on no node of the package, that of the control die (R16,
R378, log entry 98). -/
def nodeOfUnit (unit : Nat) : Nat := if unit < 256 then clusterOf unit else 32

/-- A sheaf that is not there. -/
def Sheaf.empty : Sheaf :=
  { launch := 0
    span := 0
    crew := 0
    idx := 0
    frag := none
    baseGen := 0
    ext := none
    vbase := none
    a := PcSlot.free
    b := PcSlot.free
    lastB := true
    yielded := false
    readyAt := none
    depth := 0
    fstack := []
    pv := 0
    ps := 0
    pp := 0
    loads := []
    park := none
    marked := false
    block := none
    strict := false
    srnd := 0
    qnv := false
    watch := []
    watchHit := false
    deps := []
    carry := RegMask.none
    wb := RegMask.none
    homePc := none
    win := none
    winCount := 0
    refused := 0
    refRsn := 0
    noMig := 0
    rsns := []
    redepart := 0
    redHops := []
    returns := []
    refusedAddr := none
    code := []
    ended := false }

/-- The sheaf at a place. -/
def State.sheaf (s : State) (k : Nat) : Sheaf := Tab.get Sheaf.empty s.sheaves k

/-- Replaces the sheaf at a place. -/
def State.setSheaf (s : State) (k : Nat) (x : Sheaf) : State := { s with sheaves := Tab.put s.sheaves k x }

/-- Changes the sheaf at a place, where there is one. -/
def State.modSheaf (s : State) (k : Nat) (f : Sheaf → Sheaf) : State := { s with sheaves := Tab.mod s.sheaves k f }

/-- The core's state. -/
def State.core (s : State) (c : Nat) : Core := Tab.get Core.init s.cores c

def State.modCore (s : State) (c : Nat) (f : Core → Core) : State := { s with cores := Tab.upd Core.init s.cores c f }

/-- A PC slot of a sheaf; true names slot B. -/
def Sheaf.slot (sh : Sheaf) (b : Bool) : PcSlot := if b then sh.b else sh.a

def Sheaf.setSlot (sh : Sheaf) (b : Bool) (x : PcSlot) : Sheaf := if b then { sh with b := x } else { sh with a := x }

def Sheaf.modSlot (sh : Sheaf) (b : Bool) (f : PcSlot → PcSlot) : Sheaf := sh.setSlot b (f (sh.slot b))

def State.modSlot (s : State) (k : Nat) (b : Bool) (f : PcSlot → PcSlot) : State := s.modSheaf k (·.modSlot b f)

/-- Where vector register r of a place lies; none when the sheaf does not hold it (R49, R52). -/
def vphys (k : Nat) (sh : Sheaf) (r : Nat) : Option Nat :=
  let u := unitOf k * 8192
  if r < 64 then
    some (if nearMem k then u + (slotOf k - 16) * 192 + r
      else match sh.vbase with
        | none => u + slotOf k * 64 + r
        | some b => u + 1024 + b + r)
  else match sh.ext with
    | none => none
    | some x =>
      if r - 64 < x.size then some (if nearMem k then u + (slotOf k - 16) * 192 + r else u + 1024 + x.start + (r - 64))
      else none

/-- The generation an access to vector register r carries (R54). -/
def vgen (sh : Sheaf) (r : Nat) : Gen :=
  if r < 64 then sh.baseGen else match sh.ext with
    | none => 0
    | some x => x.gen

/-- Vector registers the sheaf holds (R49). -/
def Sheaf.vcount (sh : Sheaf) : Nat := 64 + match sh.ext with
  | none => 0
  | some x => x.size

/-- sr.xblk (Table 3-2). -/
def Sheaf.xblk (sh : Sheaf) : Nat := sh.vcount - 64

/-- The raw granule of a vector register, whatever its tag (R60). -/
def State.vraw (s : State) (k r : Nat) : VCell := match vphys k (s.sheaf k) r with
  | none => VCell.zero
  | some i => Tab.get VCell.zero s.vregs i

/-- The raw granule of a scalar register. -/
def State.sraw (s : State) (k r : Nat) : SCell := Tab.get SCell.zero s.sregs (k * 64 + r)

/-- The raw granule of a predicate. -/
def State.praw (s : State) (k r : Nat) : PCell := Tab.get PCell.zero s.pregs (k * 8 + r)

/-- The granule of a register is stale: its tag differs from the access generation; 0x0000 always does (R56). p7 has
no granule (R47). -/
def State.staleReg (s : State) (k : Nat) : Reg → Bool
  | .v r => let g := vgen (s.sheaf k) r; g == 0 || (s.vraw k r).gen != g
  | .s r => let g := (s.sheaf k).baseGen; g == 0 || (s.sraw k r).gen != g
  | .p r => let g := (s.sheaf k).baseGen; r != 7 && (g == 0 || (s.praw k r).gen != g)

/-- A read of a vector register: 32 lanes and the format tag; stale reads as zero with tag none (R56). -/
def State.readV (s : State) (k r : Nat) : VCell := if s.staleReg k (.v r) then VCell.zero else s.vraw k r

/-- A read of a scalar register. -/
def State.readS (s : State) (k r : Nat) : Word64 := if s.staleReg k (.s r) then 0 else (s.sraw k r).val

/-- A read of a predicate; p7 reads as true in every lane (R47). -/
def State.readP (s : State) (k r : Nat) : Word32 :=
  if r = 7 then 0xFFFFFFFF else if s.staleReg k (.p r) then 0 else (s.praw k r).val

/-- A write of the lanes of a mask of a vector register with a format tag; the other lanes keep their values when the
granule is not stale and become zero when it is (R55). An empty mask touches nothing (R55, R65). A write of the whole granule
gives it right check bits again (R414). -/
def State.writeV (s : State) (k r : Nat) (m : Word32) (f : Nat → Word32) (fmt : BitVec 4) : State :=
  if m = 0 then s else
  match vphys k (s.sheaf k) r with
  | none => s
  | some i =>
    let g := vgen (s.sheaf k) r
    let old := (s.readV k r).data
    let new := vec32 fun L => if m.getLsbD L then f L else old.getD L 0
    { s with
      vregs := Tab.put s.vregs i ⟨new, g, fmt⟩
      badRegs := if m = 0xFFFFFFFF then s.badRegs.filter (· != i) else s.badRegs }

/-- A write of a 64-bit value per lane into the pair r, r + 1: low half in the even register (R47). -/
def State.writeV64 (s : State) (k r : Nat) (m : Word32) (f : Nat → Word64) (fmt : BitVec 4) : State :=
  (s.writeV k r m (fun L => (f L).setWidth 32) fmt).writeV k (r + 1) m (fun L => (f L).extractLsb' 32 32) fmt

/-- A write of a scalar register under the base generation, with right check bits (R414). -/
def State.writeS (s : State) (k r : Nat) (x : Word64) : State :=
  { s with
    sregs := Tab.put s.sregs (k * 64 + r) ⟨x, (s.sheaf k).baseGen⟩
    badWords := s.badWords.filter (· != .scalar k r) }

/-- A write of the lanes of a mask of a predicate; writes to p7 are discarded (R47). -/
def State.writeP (s : State) (k r : Nat) (m x : Word32) : State :=
  if r = 7 ∨ m = 0 then s else
  { s with
    pregs := Tab.put s.pregs (k * 8 + r) ⟨mergeMask m x (s.readP k r), (s.sheaf k).baseGen⟩
    badWords := if m = 0xFFFFFFFF then s.badWords.filter (· != .pred k r) else s.badWords }

/-- One lane of a vector register. -/
def State.laneV (s : State) (k r L : Nat) : Word32 := (s.readV k r).data.getD L 0

/-- One lane of a register pair. -/
def State.laneV64 (s : State) (k r L : Nat) : Word64 := s.laneV k (r + 1) L ++ s.laneV k r L

/-- The sheaf's context. -/
def State.launchOf (s : State) (k : Nat) : Option Launch := Tab.find s.launches (s.sheaf k).launch

/-- The context a place runs in: its launch's, or the home context of a fragment from another package (R289). -/
def State.ctxOf (s : State) (k : Nat) : Nat := match (s.sheaf k).frag with
  | some f => f.ctx
  | none => match s.launchOf k with
    | some l => l.ctx
    | none => 0

def State.ctx (s : State) (c : Nat) : Ctx := Tab.get Ctx.init s.ctxs c

def State.crew? (s : State) (n : Nat) : Option Crew := Tab.find s.crews n

/-- A crew that is not there. -/
def Crew.empty : Crew := ⟨0, 0, 0, 0, 0, 0, [], 0, 0, [], Vector.replicate 16 TDesc.zero, 0, 4096, 0, 0, [], [], true⟩

def State.crew (s : State) (n : Nat) : Crew := Tab.get Crew.empty s.crews n

def State.modCrew (s : State) (n : Nat) (f : Crew → Crew) : State := { s with crews := Tab.mod s.crews n f }

def Span.empty : Span := ⟨0, 0, .discarded, 0, 0, [], 0, 0, 0, 0, none, []⟩

def State.span (s : State) (n : Nat) : Span := Tab.get Span.empty s.spans n

def State.modSpan (s : State) (n : Nat) (f : Span → Span) : State := { s with spans := Tab.mod s.spans n f }

def State.modLaunch (s : State) (n : Nat) (f : Launch → Launch) : State := { s with launches := Tab.mod s.launches n f }

/-- Puts an event among those due, after the others. -/
def State.later (s : State) (i : Event) : State := { s with due := s.due ++ [i] }

/-- A free word: the constant of Config at a counter of the state (log entry 2). -/
def State.free64 (s : State) : Word64 := Config.freeWord s.frees

def State.tick (s : State) : State := { s with frees := s.frees + 1 }

/-- A fresh number for loads, chunks, commands and continuations. -/
def State.freshId (s : State) : Nat × State := (s.nextId, { s with nextId := s.nextId + 1 })

end Sys2Proof.Machine
end

