-- ==== Sys2Proof/Machine/Mem.lean ====
section
/-!
DEFINITION. Named operations over memory: bytes and generations of the package SRAM (R54 to R56, R89, R94), watch sets
(R181), lines of the L1 read caches (R117), and translation through range registers (R90 to R95). The package SRAM
lies at [0, 2^32) of the one memory of the state, and byte a of module m at (m + 1) * 2^48 + a.
-/

namespace Sys2Proof.Machine

open Sys2Proof

/-- What an unlisted address reads as: zero (log entry 6). -/
def Memory.absent : Byte := 0

/-- One byte of memory as it stands. -/
def State.byte (s : State) (a : Nat) : Byte := Tab.get Memory.absent s.mem a

/-- Sets one byte of memory; a zero takes no entry. -/
def State.setByte (s : State) (a : Nat) (x : Byte) : State := { s with mem := Tab.set Memory.absent s.mem a x }

/-- The canonical form of memory. -/
def Memory.wf (m : List Host.Cell) : Bool := Tab.wf Memory.absent m

/-- The generation in the unit-table entry at the home of a package address (R54). -/
def State.accessGen (s : State) (a : Nat) : Gen :=
  if a < 2 ^ 31 then Tab.get 0 s.coreUnits (a / 2 ^ 23 * 256 + a % 2 ^ 23 / 2 ^ 15)
  else Tab.get 0 s.sliceUnits ((a - 2 ^ 31) / 2 ^ 26 * 256 + a % 2 ^ 26 / 2 ^ 18)

/-- The tag of the granule of a package address. -/
def State.tag (s : State) (a : Nat) : Gen := Tab.get 0 s.tags (a / 32)

/-- The granule of a package address reads as zero (R56). -/
def State.stale (s : State) (a : Nat) : Bool := s.accessGen a == 0 || s.tag a != s.accessGen a

/-- A read of one byte of package SRAM (R56). -/
def State.pkgByte (s : State) (a : Nat) : Byte := if s.stale a then 0 else s.byte a

/-- A read of n bytes of package SRAM. -/
def State.pkgRead (s : State) (a n : Nat) : List Byte := (List.range n).map fun i => s.pkgByte (a + i)

/-- Zeroes and stamps the granule of an address when its tag differs from the access generation (R55). -/
def State.stamp (s : State) (a : Nat) : State :=
  if s.tag a = s.accessGen a then s else
  let z := (List.range 32).foldl (fun (t : State) i => t.setByte (a / 32 * 32 + i) 0) s
  { z with tags := Tab.set 0 z.tags (a / 32) (s.accessGen a) }

/-- A write of one byte of package SRAM; to a unit that no allocation holds it is discarded (R55). -/
def State.pkgSet (s : State) (a : Nat) (x : Byte) : State :=
  if s.accessGen a = 0 then s else (s.stamp a).setByte a x

/-- WAITA returns (R181): its reason is written, the watch set becomes empty, the sheaf is no longer parked. -/
def State.wakeWaita (s : State) (k : Nat) (reason : Word64) : State :=
  match (s.sheaf k).park with
  | some (.waita d _) =>
    (s.writeS k d.val reason).modSheaf k fun sh => { sh with park := none, watch := [], watchHit := false }
  | _ => s

/-- A write performed on a granule reaches the sheaves that watch it (R181). -/
def State.notify (s : State) (g : Nat) : State :=
  (s.sheaves.filter fun p => p.2.watch.contains g).foldl
    (fun (t : State) p => (t.modSheaf p.1 fun sh => { sh with watchHit := true }).wakeWaita p.1 0) s

/-- The granules of n bytes from an address. -/
def granules (a n : Nat) : List Nat :=
  if n = 0 then [] else (List.range ((a + n - 1) / 32 - a / 32 + 1)).map (· + a / 32)

/-- Writes bytes in ascending order. -/
def State.pkgSetAll (s : State) (a : Nat) : List Byte → State
  | [] => s
  | x :: xs => State.pkgSetAll (s.pkgSet a x) (a + 1) xs

/-- A write of a whole granule gives it right check bits again (R414). -/
def State.mask (s : State) (a n : Nat) : State :=
  if s.badSram = [] then s
  else { s with badSram := s.badSram.filter fun g => !(decide (a ≤ 32 * g) && decide (32 * g + 32 ≤ a + n)) }

/-- A write of bytes of package SRAM, as its home performs it. -/
def State.pkgWrite (s : State) (a : Nat) (bs : List Byte) : State :=
  ((granules a bs.length).filter fun g => s.accessGen (32 * g) != 0).foldl State.notify
    ((s.pkgSetAll a bs).mask a bs.length)

/-! The L1 read cache of a core: lines of 32 to 256 aligned bytes with the context that filled them. -/

/-- The byte that a line of the core holds for an address in a context. -/
def State.lineByte (s : State) (core ctx a : Nat) : Option Byte :=
  (s.core core).lines.findSome? fun l =>
    if l.1 ≤ a ∧ l.2.1 = ctx then l.2.2[a - l.1]? else none

/-- A read of bytes of package SRAM through the core's lines. -/
def State.cachedRead (s : State) (core ctx a n : Nat) : List Byte :=
  (List.range n).map fun i => (s.lineByte core ctx (a + i)).getD (s.pkgByte (a + i))

/-- Bytes that an L1 holds at most (R16). -/
def l1Bytes : Nat := 131072

/-- The newest lines that fit in a number of bytes. -/
def trimLines : Nat → List (Nat × Nat × List Byte) → List (Nat × Nat × List Byte)
  | _, [] => []
  | room, l :: t => if l.2.2.length ≤ room then l :: trimLines (room - l.2.2.length) t else []

/-- The core's lines take a store of the same core (R117). -/
def State.storeLines (s : State) (core a : Nat) (bs : List Byte) : State :=
  if (s.core core).lines = [] then s else
  s.modCore core fun c => { c with lines := c.lines.map fun l =>
    (l.1, l.2.1, (List.range l.2.2.length).map fun i =>
      if a ≤ l.1 + i ∧ l.1 + i < a + bs.length then bs.getD (l.1 + i - a) 0 else l.2.2.getD i 0) }

/-- Discards the lines of a core that meet [a, a + n). -/
def State.dropRange (s : State) (core a n : Nat) : State :=
  if (s.core core).lines = [] then s else
  s.modCore core fun c => { c with lines := c.lines.filter fun l => l.1 + l.2.2.length ≤ a || a + n ≤ l.1 }

/-- What a unit reads or writes past the lines of its core is not answered from them later (R107, R113). -/
def State.freshen (s : State) (k a n : Nat) : State := if nearMem k then s else s.dropRange (unitOf k) a n

/-- A write of package SRAM by a lane of a place: its home performs it, and the lines of the core take it (R117), unless no
allocation holds the unit and it is discarded (R55). -/
def State.coreWrite (s : State) (k a : Nat) (bs : List Byte) : State :=
  let t := s.pkgWrite a bs
  if nearMem k || s.accessGen a == 0 then t else t.storeLines (unitOf k) a bs

/-- Discards every line of a context on a core. -/
def State.dropCtx (s : State) (core ctx : Nat) : State :=
  if (s.core core).lines = [] then s else
  s.modCore core fun c => { c with lines := c.lines.filter fun l => l.2.1 != ctx }

/-- Discards the lines of every core that meet a unit whose entry changes (R59, R117). -/
def State.dropUnit (s : State) (a n : Nat) : State := (s.cores.map (·.1)).foldl (fun t c => t.dropRange c a n) s

/-- Fills lines that cover n bytes; whether, and how large, is a free choice (R117). -/
def State.fillLines (s : State) (core ctx a n : Nat) : State :=
  let ch := Config.choose s.choices
  let s := { s with choices := s.choices + 1 }
  if ch % 2 = 0 then s else
  let sz := 32 * 2 ^ (ch / 2 % 4)
  let bases := (List.range ((a + n - 1) / sz - a / sz + 1)).map fun i => (a / sz + i) * sz
  let s := bases.foldl (fun t b => t.dropRange core b sz) s
  s.modCore core fun c => { c with
    lines := trimLines l1Bytes ((bases.map fun b => (b, ctx, s.pkgRead b sz)) ++ c.lines) }

/-! Regions. -/

/-- The first package address of a crew's region (R89). -/
def Crew.base (c : Crew) : Nat := c.core * 2 ^ 23 + c.unit * 2 ^ 15

/-- The bytes of a crew's region. -/
def Crew.size (c : Crew) : Nat := c.units * 2 ^ 15

/-- The first package address of a span's region (R89). -/
def Span.base (p : Span) : Nat := 2 ^ 31 + p.cluster * 2 ^ 26 + p.unit * 2 ^ 18

/-- The bytes of a span's region. -/
def Span.size (p : Span) : Nat := p.units * 2 ^ 18

/-! Translation. -/

/-- Kinds of access (R92). -/
inductive AKind where
  | rd | wr | rmw | ex | mig
  deriving DecidableEq, Repr

/-- What Translate returns. -/
structure Tr where
  ia : Nat
  mt : Nat
  mig : Bool
  sg : Bool
  deriving DecidableEq, Repr

/-- Permitted of R92, from word 0 of a range register (Table 5-2). -/
def rangePermits (w0 : Word64) : AKind → Bool
  | .rd => w0.getLsbD 2
  | .wr => w0.getLsbD 3
  | .rmw => w0.getLsbD 2 && w0.getLsbD 3 && w0.getLsbD 5
  | .ex => w0.getLsbD 4
  | .mig => true

/-- Bits [56:12] of a word. -/
def page45 (w : Word64) : Nat := (w.extractLsb' 12 45).toNat

/-- An address whose bits [63:57] all equal bit [56] (R90). -/
def canonical (va : Word64) : Bool :=
  let t := (va.extractLsb' 57 7).toNat
  if va.getLsbD 56 then t == 127 else t == 0

/-- Translate of R92, without the check of the space; a code of Table 20-2 where it fails. -/
def rangeLookup (rr : Vector (Word64 × Word64 × Word64) 16) (va : Word64) (n : Nat) (kind : AKind) : Except Byte Tr :=
  if !canonical va then .error 0x03 else
  match rr.toList.find? fun r => r.1.getLsbD 0 && page45 r.1 ≤ page45 va && page45 va ≤ page45 r.2.1 with
  | none => .error 0x01
  | some r =>
    if ((va.extractLsb' 0 57).toNat + (n - 1)) / 2 ^ 12 > page45 r.2.1 then .error 0x01
    else if !rangePermits r.1 kind then .error 0x02
    else .ok ⟨((va.extractLsb' 0 57).toNat + (r.2.2.extractLsb' 12 44).toNat * 2 ^ 12) % 2 ^ 56,
      (r.1.extractLsb' 6 2).toNat, r.1.getLsbD 8, r.1.getLsbD 9⟩

/-- The spaces of Table 5-5. A peer address that names this package is package space, marked as such (R95). -/
inductive Space where
  | pkg (a : Nat) (viaPeer : Bool)
  | peer (p a : Nat)
  | mod (m off : Nat)
  deriving DecidableEq, Repr

/-- The module is in the current map, as it was when the set was last mapped (R21, R95, Table 15-2). -/
def State.mapped (s : State) (m : Nat) : Bool :=
  s.host.liveMap.toList.any fun e => e.getLsbD 63 && (e.extractLsb' 0 11).toNat == m

/-- A package address in unit 255 of a slice, the Sextant's spill ring (R250). -/
def spillUnit (a : Nat) : Bool := 2 ^ 31 ≤ a && a % 2 ^ 26 / 2 ^ 18 == 255

/-- The space of an intermediate address, or the code with which the issuing unit refuses it (R94, R95; the code for
unit 255 is log entry 14). -/
def State.spaceOf (s : State) (ia : Nat) : Except Byte Space :=
  let top := ia / 2 ^ 48 % 256
  if top = 0 then
    if ia / 2 ^ 32 % 2 ^ 16 ≠ 0 then .error 0x03
    else if spillUnit (ia % 2 ^ 32) then .error 0x03 else .ok (.pkg (ia % 2 ^ 32) false)
  else if top = 1 then
    if ia / 2 ^ 41 % 2 ^ 7 ≠ 0 then .error 0x03
    else
      let p := ia / 2 ^ 32 % 512
      if p = s.host.pkgnum.toNat then
        if spillUnit (ia % 2 ^ 32) then .error 0x03 else .ok (.pkg (ia % 2 ^ 32) true)
      else if Config.peerPresent p then .ok (.peer p (ia % 2 ^ 32)) else .error 0x04
  else if 128 ≤ top then
    let m := ia / 2 ^ 44 % 2 ^ 11
    if s.mapped m then .ok (.mod m (ia % 2 ^ 44)) else .error 0x04
  else .error 0x03

/-- A translated access: its intermediate address, its space, what the range register says of it, and the virtual address. -/
structure Access where
  ia : Nat
  space : Space
  mt : Nat
  mig : Bool
  sg : Bool
  va : BitVec 56
  deriving DecidableEq, Repr

/-- What stands where a lane has no access. -/
def Access.none_ : Access := ⟨0, .pkg 0 false, 0, false, false, 0⟩

/-- The address that a record of a fault of an access holds (R403). -/
def Access.faultAddr (a : Access) (code : Byte) : BitVec 56 :=
  if code = 1 ∨ code = 2 ∨ code = 3 then a.va else BitVec.ofNat 56 a.ia

/-- A refusal: its code and the address that the record holds (R403). -/
structure Refused where
  code : Byte
  addr : BitVec 56
  deriving DecidableEq, Repr

/-- Translate (R92) and the checks of R94 and R95 on the first and the last byte, in a context. -/
def State.translate (s : State) (ctx : Nat) (va : Word64) (n : Nat) (kind : AKind) : Except Refused Access :=
  match rangeLookup (s.ctx ctx).rr va n kind with
  | .error c => .error ⟨c, va.setWidth 56⟩
  | .ok t => match s.spaceOf t.ia, s.spaceOf (t.ia + (n - 1)) with
    | .ok sp, .ok _ => .ok ⟨t.ia, sp, t.mt, t.mig, t.sg, va.setWidth 56⟩
    | .error c, _ | _, .error c => .error ⟨c, if c = 0x03 then va.setWidth 56 else BitVec.ofNat 56 t.ia⟩

end Sys2Proof.Machine
end

