-- ==== Sys2Proof/Machine/ModuleMem.lean ====
section
/-!
DEFINITION. Memory of a module as the QX9 sees it: leaf entries, swizzles, compressed and constant-fill pages,
materialisation, snapshot views, marked blocks (R96 to R104, R415, R416). A code of Table 20-2 says why an access is
refused; code 0x00 says that it was performed.
-/

namespace Sys2Proof.Machine

open Sys2Proof

def State.modl (s : State) (m : Nat) : Mod := Tab.get Mod.init s.mods m

def State.modMod (s : State) (m : Nat) (f : Mod → Mod) : State := { s with mods := Tab.upd Mod.init s.mods m f }

/-- What an entry reads as that a module has read from what software wrote: the reserved bits are zero (Table 5-7), and D is
after a persist. -/
def Reread.entry (r : Reread) (m page : Nat) : Word64 :=
  Config.leafEntry m page r.key &&& (if r.clean then 0xFFE0FFFFFFFF0000 else 0xFFF0FFFFFFFF0000)

/-- A reading found a new entry of a page. -/
def Reread.gives (r : Reread) (m page : Nat) : Bool :=
  decide (r.first ≤ page ∧ page < r.first + r.pages) && Config.leafWritten m page r.key

/-- The leaf entry of a page: as the module has changed it, else as it last read it from what software wrote (R97, R99); 0 has
ST = absent. -/
def State.leaf (s : State) (m page : Nat) : Word64 :=
  let x := s.modl m
  match Tab.find x.leaf page with
  | some w => w
  | none => match x.reread.find? fun r => r.gives m page with
    | some r => r.entry m page
    | none => 0

def State.setLeaf (s : State) (m page : Nat) (w : Word64) : State :=
  s.modMod m fun x => { x with leaf := Tab.put x.leaf page w }

/-- An invalidation replaces a module's entries of pages by those that software has written meanwhile; entries that it has not
written stay (R97, R99, R200). -/
def State.reread (s : State) (m first pages : Nat) : State :=
  let r : Reread := ⟨first, pages, s.choices, false⟩
  { s.modMod m fun x => { x with
      leaf := x.leaf.filter fun p => !r.gives m p.1
      reread := r :: x.reread } with choices := s.choices + 1 }

/-- ST of a leaf entry (Table 5-7). -/
def leafSt (w : Word64) : Nat := (w.extractLsb' 56 2).toNat

def leafFrame (w : Word64) : Nat := (w.extractLsb' 16 32).toNat

/-- MT of a leaf entry. -/
def leafMt (w : Word64) : Nat := (w.extractLsb' 58 2).toNat

def rotl4 (h : BitVec 4) (n : Nat) : BitVec 4 := h.rotateLeft n

/-- The block permutation of Table 5-8. -/
def swizzle (code : Nat) (i : BitVec 8) : BitVec 8 :=
  let h := i.extractLsb' 4 4
  let l := i.extractLsb' 0 4
  match code with
  | 0 => h ++ l
  | 1 => h ++ (l ^^^ h)
  | 2 => l ++ h
  | 3 => i.reverse
  | 4 => h ++ (l ^^^ rotl4 h 1)
  | 5 => h ++ (l ^^^ rotl4 h 2)
  | 6 => l ++ (h ^^^ l)
  | _ => h ++ (l + h)

/-- The physical byte address of R100. -/
def physByte (leaf : Word64) (off : Nat) : Nat :=
  leafFrame leaf * 2 ^ 16 + (swizzle (leaf.extractLsb' 60 3).toNat (BitVec.ofNat 8 (off / 256))).toNat * 256 + off % 256

/-- The channel of R100. -/
def channelOf (leaf : Word64) (phys : Nat) : Nat := if leaf.getLsbD 63 then phys / 2 ^ 12 % 16 else phys / 2 ^ 8 % 16

/-- Where byte a of module m lies in the memory of the state. -/
def modAddr (m a : Nat) : Nat := (m + 1) * 2 ^ 48 + a

/-- A byte of a page through a leaf entry, compressed and constant-fill pages expanded (R101). -/
def State.pageByte (s : State) (m : Nat) (leaf : Word64) (off : Nat) : Byte :=
  match leafSt leaf with
  | 1 => s.byte (modAddr m (physByte leaf off))
  | 2 => Config.compressed m (leafFrame leaf) off
  | 3 => BitVec.ofNat 8 (leafFrame leaf / 2 ^ (8 * (off % 4)))
  | _ => 0

/-- What a module offset names: a page with its leaf entry, or a page a version keeps. -/
inductive PageRef where
  | live (page : Nat)
  | kept (leaf : Word64) (bytes : List (Nat × Byte))
  deriving DecidableEq, Repr

/-- The page of a module offset (R96, Table 5-9); code 0x14 for a write through a view, 0x17 for a view that is not
open. -/
def State.pageOf (s : State) (m off : Nat) (kind : AKind) : Except Byte PageRef :=
  if off < 2 ^ 43 then .ok (.live (off / 2 ^ 16))
  else if kind = .wr ∨ kind = .rmw then .error 0x14
  else match (s.modl m).versions.find? fun v => v.slot == off / 2 ^ 36 % 128 with
    | none => .error 0x17
    | some v =>
      let p := off % 2 ^ 36 / 2 ^ 16
      if v.pages ≤ p then .error 0x17
      else match v.copies.find? fun c => c.1 == v.first + p with
        | some c => .ok (.kept c.2.2 c.2.1)
        | none => .ok (.live (v.first + p))

/-- What a leaf permits (R98); the code with which it refuses. -/
def leafCode (w : Word64) : AKind → Byte
  | .wr => if leafSt w = 0 then 0x10 else if w.getLsbD 54 then 0 else 0x12
  | .rmw => if leafSt w = 0 then 0x10 else if w.getLsbD 55 && w.getLsbD 54 && w.getLsbD 53 then 0 else 0x13
  | .mig => 0
  | _ => if leafSt w = 0 then 0x10 else if w.getLsbD 55 then 0 else 0x11

/-- The 256-byte block of module offsets is marked (R415): as it is addressed, or, of a page that a view has no copy of, where
the page lies. -/
def State.marked (s : State) (m off : Nat) (p : PageRef) : Bool :=
  let bad := (s.modl m).badBlocks
  bad.contains (off / 256) || (match p with
    | .live pg => bad.contains ((pg * 2 ^ 16 + off % 2 ^ 16) / 256)
    | .kept _ _ => false)

/-- The check of one piece that lies in one 256-byte block. -/
def State.pieceCode (s : State) (m off n : Nat) (kind : AKind) : Byte :=
  if (s.modl m).unreachable then 0x21 else
  match s.pageOf m off kind with
  | .error c => c
  | .ok p =>
    let c := leafCode (match p with
      | .live pg => s.leaf m pg
      | .kept w _ => w) kind
    if c ≠ 0 then c
    else if s.marked m off p && !(kind == .wr && n == 256) then 0x22 else 0

/-- The pieces of [off, off + n), split at 256-byte boundaries (R96). -/
def pieces (off n : Nat) : List (Nat × Nat) :=
  if n = 0 then [] else
  (List.range ((off + n - 1) / 256 - off / 256 + 1)).map fun i =>
    let lo := max off ((off / 256 + i) * 256)
    let hi := min (off + n) ((off / 256 + i + 1) * 256)
    (lo, hi - lo)

/-- The first code with which a piece of an access is refused; 0 when none is. -/
def State.modCheck (s : State) (m off n : Nat) (kind : AKind) : Byte :=
  ((pieces off n).map fun p => s.pieceCode m p.1 p.2 kind).find? (· != 0) |>.getD 0

/-- A byte of a module, after its check. -/
def State.modByte (s : State) (m off : Nat) : Byte :=
  match s.pageOf m off .rd with
  | .error _ => 0
  | .ok (.live pg) => s.pageByte m (s.leaf m pg) (off % 2 ^ 16)
  | .ok (.kept _ bs) => ((bs.find? fun b => b.1 == off % 2 ^ 16).map (·.2)).getD 0

/-- A read of a module. -/
def State.modRead (s : State) (m off n : Nat) : Except Byte (List Byte) :=
  let c := s.modCheck m off n .rd
  if c ≠ 0 then .error c else .ok ((List.range n).map fun i => s.modByte m (off + i))

/-- The bytes of a page that are not zero, with their places. -/
def State.pageBytes (s : State) (m page : Nat) : List (Nat × Byte) :=
  ((List.range (2 ^ 16)).map fun i => (i, s.pageByte m (s.leaf m page) i)).filter fun p => p.2 != 0

/-- The versions that use the page and have no copy of it (R104). -/
def needsCopy (x : Mod) (page : Nat) : Bool :=
  x.versions.any fun v => v.first ≤ page && page < v.first + v.pages && !(v.copies.any fun c => c.1 == page)

/-- Copies a page for the versions that use it, before the first write that would change it; code 0x16 when there is
no copy space (R104, R416). The copy keeps the leaf entry of that moment, which governs reads through a view (R104 is silent:
DESIGN CHOICE, log entry 109). -/
def State.copyPage (s : State) (m page : Nat) : Byte × State :=
  if !needsCopy (s.modl m) page then (0, s)
  else
    let ok := Config.copySpace m s.choices
    let s := { s with choices := s.choices + 1 }
    if !ok then (0x16, s)
    else
      let bs := s.pageBytes m page
      let w := s.leaf m page
      (0, s.modMod m fun x => { x with versions := x.versions.map fun v =>
        if v.first ≤ page && page < v.first + v.pages && !(v.copies.any fun c => c.1 == page)
        then { v with copies := v.copies ++ [(page, bs, w)] } else v })

/-- The storage frames that leaf entries name, and that versions keep. -/
def State.heldFrames (s : State) (m : Nat) : List Nat :=
  let x := s.modl m
  let of_ := fun (w : Word64) => if leafSt w = 1 ∨ leafSt w = 2 then [leafFrame w] else []
  (x.leaf.map fun p => of_ p.2).flatten ++
    (x.reread.map fun r => ((List.range r.pages).map fun i => of_ (s.leaf m (r.first + i))).flatten).flatten ++
    (x.versions.map fun v => (v.copies.map fun c => of_ c.2.2).flatten).flatten

/-- A free storage frame (R102): the one that the module finds, or the next that no entry holds. -/
def State.newFrame (s : State) (m : Nat) : Option (BitVec 32) :=
  match Config.freeFrame m s.choices with
  | none => none
  | some f =>
    let held := s.heldFrames m
    (((List.range (held.length + 1)).map fun i => (f.toNat + i) % 2 ^ 32).find? fun n => !held.contains n).map (BitVec.ofNat 32)

/-- Materialises a compressed or constant-fill page before a write (R102); code 0x15 when there is no frame. -/
def State.materialise (s : State) (m page : Nat) : Byte × State :=
  let w := s.leaf m page
  if leafSt w = 0 ∨ leafSt w = 1 then (0, s)
  else match s.newFrame m with
    | none => (0x15, ({ s with choices := s.choices + 1 }).later (.moduleFault m 2 (page * 2 ^ 16) 0))
    | some f =>
      let bs := (List.range (2 ^ 16)).map fun i => s.pageByte m w i
      let w2 : Word64 := (w &&& 0xFCFF0000_0000FFFF) ||| (1 <<< 56) ||| (f.setWidth 64 <<< 16)
      let s := ({ s with choices := s.choices + 1 }).setLeaf m page w2
      (0, (bs.zipIdx).foldl (fun (t : State) p => t.setByte (modAddr m (physByte w2 p.2)) p.1) s)

/-- One piece of a write, after its check: copies, materialises, writes, sets D, and clears the mark of a block that is
wholly written (R97, R102, R104, R415). -/
def State.writePiece (s : State) (m off : Nat) (bs : List Byte) : Byte × State :=
  let page := off / 2 ^ 16
  match s.copyPage m page with
  | (c, s) =>
    if c ≠ 0 then (c, s) else
    match s.materialise m page with
    | (c, s) =>
      if c ≠ 0 then (c, s) else
      let w := s.leaf m page ||| (1 <<< 52)
      let s := s.setLeaf m page w
      let s := (bs.zipIdx).foldl
        (fun (t : State) p => t.setByte (modAddr m (physByte w ((off + p.2) % 2 ^ 16))) p.1) s
      (0, if bs.length = 256 then s.modMod m fun x => { x with badBlocks := x.badBlocks.filter (· != off / 256) } else s)

/-- Writes the pieces in ascending order while none is refused. -/
def State.writePieces (s : State) (m off : Nat) (bs : List Byte) : List (Nat × Nat) → Byte × State
  | [] => (0, s)
  | (lo, n) :: ps =>
    match s.writePiece m lo ((bs.drop (lo - off)).take n) with
    | (c, s) => if c ≠ 0 then (c, s) else State.writePieces s m off bs ps

/-- A write of a module (kind .wr), or the write of a read-modify-write (.rmw). -/
def State.modWrite (s : State) (m off : Nat) (bs : List Byte) (kind : AKind) : Byte × State :=
  let c := s.modCheck m off bs.length kind
  if c ≠ 0 then (c, s) else s.writePieces m off bs (pieces off bs.length)

/-- The effective memory type of an access (R98). -/
def State.effMt (s : State) (a : Access) : Nat :=
  match a.space with
  | .mod m off => match s.pageOf m off .rd with
    | .ok (.live pg) => leafMt (s.leaf m pg)
    | .ok (.kept w _) => leafMt w
    | .error _ => a.mt
  | _ => a.mt

/-- An effective memory type that some part of [va, va + n) has (R98), page by page. -/
def State.hasMt (s : State) (ctx : Nat) (va : Word64) (n : Nat) (kind : AKind) (mt : Nat) : Bool :=
  let first := va.toNat % 2 ^ 12
  (List.range ((first + n + 2 ^ 12 - 1) / 2 ^ 12)).any fun i =>
    match s.translate ctx (va + BitVec.ofNat 64 (if i = 0 then 0 else i * 2 ^ 12 - first)) 1 kind with
    | .ok a => s.effMt a == mt
    | .error _ => false

end Sys2Proof.Machine
end

