-- ==== Sys2Proof/Machine/Post.lean ====
section
/-!
DEFINITION. The event router: queue tables, records and their posting (R376 to R380).
-/

namespace Sys2Proof.Machine

open Sys2Proof

/-- A read of n bytes at a virtual address by a unit of the package for a context; none when it does not translate or
its home refuses it. Bytes of another package come in frames that the reading unit does not show (log entry 12). -/
def State.ctxRead (s : State) (ctx : Nat) (va : Word64) (n : Nat) : Except Refused (List Byte) :=
  match s.translate ctx va n .rd with
  | .error r => .error r
  | .ok a => match a.space with
    | .pkg p _ => .ok (s.pkgRead p n)
    | .peer q p => .ok ((List.range n).map fun i => Config.peerByte q (p + i) s.choices)
    | .mod m off => match s.modRead m off n with
      | .error c => .error ⟨c, BitVec.ofNat 56 a.ia⟩
      | .ok bs => .ok bs

/-- A write of bytes at a virtual address by a unit of the package for a context, to package or module space. -/
def State.ctxWrite (s : State) (ctx : Nat) (va : Word64) (bs : List Byte) : Except Refused State :=
  match s.translate ctx va bs.length .wr with
  | .error r => .error r
  | .ok a => match a.space with
    | .pkg p _ => .ok (s.pkgWrite p bs)
    | .peer _ _ => .error ⟨0x07, BitVec.ofNat 56 a.ia⟩
    | .mod m off => match s.modWrite m off bs .wr with
      | (c, t) => if c = 0 then .ok t else .error ⟨c, BitVec.ofNat 56 a.ia⟩

/-- Mesh node of the control die (Table 1-1). -/
def nodeControl : Nat := 32

/-- Mesh node of the optical engine that drives a fibre (R15, Table 1-1). -/
def nodeOfFibre (f : Nat) : Nat := 33 + f / 8

/-- An event record without SEQ (Table 18-6). -/
def mkRecord (type sub ctx node time : Nat) (payload : BitVec 128) : BitVec 256 :=
  BitVec.ofNat 256 (payload.toNat + time % 2 ^ 64 * 2 ^ 128 + node % 256 * 2 ^ 192 + ctx % 1024 * 2 ^ 206 +
    sub % 16 * 2 ^ 216 + type % 16 * 2 ^ 220)

/-- A payload of two words, high then low. -/
def payload2 (hi lo : Word64) : BitVec 128 := hi ++ lo

/-- The link form of a payload (R378). -/
def linkForm (fibre wl value aux : Nat) : BitVec 128 :=
  BitVec.ofNat 128 (fibre % 128 + wl % 128 * 2 ^ 7 + value % 2 ^ 64 * 2 ^ 32 + aux % 2 ^ 32 * 2 ^ 96)

/-- The granules of n bytes at a virtual address of a context that hold an uncorrectable error. -/
def State.badAt (s : State) (ctx : Nat) (va : Word64) (n : Nat) : List Nat :=
  if s.badSram = [] then [] else
  match s.translate ctx va n .rd with
  | .ok a => (match a.space with
    | .pkg p _ => (granules p n).filter s.badSram.contains
    | _ => [])
  | .error _ => []

/-- The queue table entry q of a context as bits; 0, which is not valid, when it cannot be read and written
(log entry 15), or holds an uncorrectable error (R414). -/
def State.queueEntry (s : State) (ctx q : Nat) : BitVec 256 :=
  let va := (s.ctx ctx).psBase + BitVec.ofNat 64 (32 * q)
  match s.translate ctx va 32 .wr with
  | .error _ => 0
  | .ok _ => if s.badAt ctx va 32 ≠ [] then 0 else match s.ctxRead ctx va 32 with
    | .error _ => 0
    | .ok bs => BitVec.ofNat 256 (leNat bs)

/-- The entry is valid: V = 1 and no reserved value (R376). -/
def queueValid (e : BitVec 256) : Bool :=
  e.getLsbD 127 && e.extractLsb' 160 32 == 0 && e.extractLsb' 68 58 == 0 && e.extractLsb' 64 4 != 0 &&
    e.extractLsb' 0 5 == 0

/-- Writes a 32-bit field of a queue table entry. -/
def State.queueField (s : State) (ctx q byte : Nat) (x : Word32) : State :=
  match s.ctxWrite ctx ((s.ctx ctx).psBase + BitVec.ofNat 64 (32 * q + byte)) (leBytes 4 x.toNat) with
  | .ok t => t
  | .error _ => s

/-- Counts a record as lost. -/
def State.queueLost (s : State) (ctx q : Nat) : State :=
  s.queueField ctx q 28 ((s.queueEntry ctx q).extractLsb' 224 32 + 1)

/-- The queue has no room (R377, step 1). -/
def queueFull (e : BitVec 256) : Bool :=
  2 ^ (e.extractLsb' 64 4).toNat < ((e.extractLsb' 192 32 : Word32) + 1 - e.extractLsb' 128 32).toNat

/-- A record with its SEQ and the domain time of its post (Table 18-6, log entry 99). -/
def State.stampRecord (s : State) (body : BitVec 256) (n : Word32) : BitVec 256 :=
  n ++ body.extractLsb' 192 32 ++ BitVec.ofNat 64 s.nanos ++ body.extractLsb' 0 128

/-- Posts a record in a queue that has room (R377, steps 2 and 3). -/
def State.queueWrite (s : State) (ctx q : Nat) (body : BitVec 256) : State :=
  let e := s.queueEntry ctx q
  let n : Word32 := e.extractLsb' 192 32 + 1
  let logn := (e.extractLsb' 64 4).toNat
  let va : Word64 := (e.extractLsb' 5 43).setWidth 64 * 32 + BitVec.ofNat 64 (32 * ((n - 1).toNat % 2 ^ logn))
  match s.translate ctx va 32 .wr with
  | .error _ => s.queueLost ctx q
  | .ok a => match a.space with
    | .pkg p false =>
      if p < 2 ^ 31 then s.queueLost ctx q
      else
        let t := (s.pkgWrite p (leBytes 32 (s.stampRecord body n).toNat)).queueField ctx q 24 n
        if e.getLsbD 126 then { t with host := { t.host with msi := Tab.upd 0 t.host.msi ctx (· + 1) } } else t
    | _ => s.queueLost ctx q

/-- The lowest-numbered valid queue of a context whose MASK receives the type (R379). -/
def State.queueFor (s : State) (ctx type : Nat) : Option Nat :=
  (List.range 16).find? fun q => let e := s.queueEntry ctx q; queueValid e && e.getLsbD (48 + type)

/-- A reading of a queue's entry at which the records that wait for room are posted, as far as there is room, the first
first (R377). -/
def State.postWaiting (s : State) (ctx q : Nat) : State :=
  s.waitRecs.foldl (fun (t : State) w =>
    let e := t.queueEntry ctx q
    if w.ctx = ctx ∧ w.queue = q ∧ w.posted = false ∧ queueValid e ∧ queueFull e = false then
      { t.queueWrite ctx q w.body with waitRecs := t.waitRecs ++ [{ w with posted := true }] }
    else { t with waitRecs := t.waitRecs ++ [w] }) { s with waitRecs := [] }

/-- Posts a record other than a completion in a queue, behind those that wait; a full queue drops it (R377). -/
def State.postIn (s : State) (ctx q : Nat) (body : BitVec 256) : State :=
  let s := s.postWaiting ctx q
  if queueFull (s.queueEntry ctx q) then s.queueLost ctx q else s.queueWrite ctx q body

/-- The router reads the entries of a context; an error in one is contained at its next act (R414). -/
def State.readTable (s : State) (ctx : Nat) : State :=
  if s.badAt ctx (s.ctx ctx).psBase 512 = [] then s else s.later .eventQueueRecheck

/-- A record of a type and subtype tells of a fault that fails a checkpoint that is under way (R386): a contained fault, a
module fault, a lost long-reach link. -/
def State.noteFault (s : State) (type sub : Nat) : State :=
  if s.checkpoint ∧ (type = 2 ∨ type = 14 ∨ (type = 12 ∧ sub = 2)) then { s with ckptFault := true } else s

/-- Delivers a record other than a completion to a context (R379). -/
def State.post (s : State) (type sub ctx node : Nat) (payload : BitVec 128) : State :=
  let s := (s.noteFault type sub).readTable ctx
  match s.queueFor ctx type with
  | none => s
  | some q => s.postIn ctx q (mkRecord type sub ctx node s.nanos payload)

/-- Posts a record to every valid context (R379). -/
def State.postAll (s : State) (type sub node : Nat) (payload : BitVec 128) : State :=
  (s.ctxs.filter fun p => p.2.v).foldl (fun (t : State) p => t.post type sub p.1 node payload) s

/-- Posts a completion record, or lets it wait for room behind earlier ones (R377). Launch n is the one that holds
its window entry until then; 0 is none. -/
def State.postCompletion (s : State) (sub ctx n : Nat) (tag : Word64) : State × Bool :=
  let s := s.readTable ctx
  match s.queueFor ctx 0 with
  | none => (s, true)
  | some q =>
    let s := s.postWaiting ctx q
    let body := mkRecord 0 sub ctx nodeControl s.nanos (payload2 tag (BitVec.ofNat 64 n))
    if (s.waitRecs.any fun w => w.ctx == ctx && w.queue == q && !w.posted) || queueFull (s.queueEntry ctx q) then
      (({ s with waitRecs := s.waitRecs ++ [WaitRec.mk ctx q body n false] }).later .eventQueueRecheck, false)
    else (s.queueWrite ctx q body, true)

end Sys2Proof.Machine
end

