-- ==== Sys2Proof/Machine/Launches.lean ====
section
/-!
DEFINITION. Operations the Orrery, the allocators and the governor share: generations and quarantine (R57), the extended
pool (R50), leave (R342, R343), release of what a sheaf, crew or span holds, the end of a launch (R138), and discard
(R373).
-/

namespace Sys2Proof.Machine

open Sys2Proof

/-! Generations. -/

/-- The generations of a counter that live allocations hold (R57). -/
def State.liveGens (s : State) (key : Nat) : List Gen :=
  if key < 256 ∨ 1000 ≤ key then
    let sh := s.sheaves.filter fun p => genKey p.1 == key
    (sh.map fun p => p.2.baseGen) ++ (sh.filterMap fun p => p.2.ext.map (·.gen)) ++
      (if key < 256 then
        let cs := s.crews.filter fun p => p.2.core == key
        (cs.map fun p => p.2.scrGen) ++ cs.map fun p => p.2.accGen
      else [])
  else ((s.spans.filter fun p => 256 + p.2.cluster == key).map fun p => p.2.sliceGen)

def State.genCtr (s : State) (key : Nat) : GenCtr := Tab.get GenCtr.init s.gens key

/-- The next generation of a counter, if one can be issued (R57). -/
def State.nextGen (s : State) (key : Nat) : Option Gen :=
  let c := s.genCtr key
  let excl := s.liveGens key ++ c.quar.map (·.1)
  ((List.range (excl.length + 2)).map fun i => c.last + BitVec.ofNat 16 (i + 1)).find? fun g =>
    g != 0 && !excl.contains g

/-- Issues a generation. -/
def State.issueGen (s : State) (key : Nat) : Option (Gen × State) :=
  match s.nextGen key with
  | none => none
  | some g => some (g, { s with gens := Tab.upd GenCtr.init s.gens key fun c => { c with last := g } })

/-- The pass of a counter's sweeper that is under way will end (R58): cores and near-memory units by their counters,
slices by their cluster. -/
def State.sweep (s : State) (key : Nat) : State :=
  let e := if 256 ≤ key ∧ key < 1000 then Event.sweeperPassEnd true (key - 256) else Event.sweeperPassEnd false key
  if s.due.contains e then s else s.later e

/-- A retired generation stays in quarantine until the pass that begins after the one under way has ended (R57). -/
def State.quarantine (s : State) (key : Nat) (g : Gen) : State :=
  if g = 0 then s else
  { s with gens := Tab.upd GenCtr.init s.gens key fun c => { c with quar := c.quar ++ [(g, c.passes + 2)] } }.sweep key

/-! The extended pool (R50): registers 0 to 3,071 in three arenas of 1,024. -/

/-- No block in use meets [a, a + n). -/
def poolFree (b : Tab Nat) (a n : Nat) : Bool := b.all fun p => p.1 + p.2 ≤ a || a + n ≤ p.1

/-- The largest free buddy block that starts at a and contains it as its start: its size, or 0. -/
def buddyAt (b : Tab Nat) (a n : Nat) : Bool :=
  poolFree b a n && (n == 128 || !poolFree b (a / (2 * n) * (2 * n)) (2 * n))

/-- The lowest free block of exactly n registers. -/
def exactBlock (b : Tab Nat) (n : Nat) : Option Nat :=
  ((List.range (3072 / n)).map (· * n)).find? fun a => buddyAt b a n

/-- Where a request for n registers is met: the lowest free block of its size, otherwise the lowest free larger block,
split. -/
def poolPlace (b : Tab Nat) (n : Nat) : Option Nat :=
  match exactBlock b n with
  | some a => some a
  | none => ((List.range (3072 / 32)).map (· * 32)).find? fun a =>
      (n < 64 && a % 64 == 0 && buddyAt b a 64) || (n < 128 && a % 128 == 0 && buddyAt b a 128)

/-- A block of a core's pool is free again; a move of it ends. -/
def State.emptyBlock (s : State) (core start : Nat) : State :=
  s.modCore core fun c => { c with
    blocks := match c.move with
      | some (a, d) => if a = start then Tab.del (Tab.del c.blocks start) d else Tab.del c.blocks start
      | none => Tab.del c.blocks start
    move := c.move.filter fun m => m.1 != start }

/-- Takes a block of n registers for a place, under a fresh generation, copies the live registers of the old block and
frees it (R49). None when no block or no generation can be found. -/
def State.takeBlock (s : State) (k n : Nat) : Option State :=
  let c := unitOf k
  match poolPlace (s.core c).blocks n with
  | none => none
  | some a => match s.issueGen (genKey k) with
    | none => none
    | some (g, t) =>
      let old := (t.sheaf k).ext
      let t := t.modCore c fun x => { x with blocks := Tab.put x.blocks a n }
      let new : ExtBlk := ⟨a, n, g⟩
      match old with
      | none => some (t.modSheaf k fun x => { x with ext := some new })
      | some o =>
        let base := c * 8192 + 1024
        let t := (List.range o.size).foldl (fun (u : State) i =>
          let cell := Tab.get VCell.zero s.vregs (base + o.start + i)
          if cell.gen = o.gen ∧ o.gen ≠ 0 then
            { u with vregs := Tab.set VCell.zero u.vregs (base + a + i) { cell with gen := g } }
          else u) t
        let t := t.modSheaf k fun x => { x with ext := some new }
        some ((t.quarantine (genKey k) o.gen).emptyBlock c o.start)

/-- A marked instruction has issued: it holds the sheaf where a pending bit is set (R39). -/
def State.mark (s : State) (k : Nat) (sw : Bool) : State := if sw then s.modSheaf k fun x => { x with marked := x.anyPending } else s

/-- The instruction of a PC slot ends: the next operation of its microprogram, or the next instruction; the marker of
the MCALL takes effect after the last operation (R45, R180). -/
def State.advance (s : State) (k : Nat) (b : Bool) (n : Nat) : State :=
  match ((s.sheaf k).slot b).micro with
  | none => s.modSlot k b fun sl => { sl with pc := sl.pc + BitVec.ofNat 64 n }
  | some m =>
    if m.idx + 1 < m.count then s.modSlot k b fun sl => { sl with micro := some { m with idx := m.idx + 1 } }
    else
      let s := s.modSlot k b fun sl => { sl with pc := sl.pc + 12, micro := none }
      s.mark k m.sw

/-- Serves the request at the head of a core's queue, if it can be met (R50): an explicit XACQ ends, a CALLI executes
again. -/
def State.grantHead (s : State) (core : Nat) : Option State :=
  match (s.core core).waiting with
  | [] => none
  | r :: rest => (if r.size ≤ (s.sheaf r.place).xblk then some s else s.takeBlock r.place r.size).map fun t =>
      let t := t.modCore core fun c => { c with waiting := rest }
      let t := t.modSheaf r.place fun y => { y with park := none }
      if r.implicit then t else t.advance r.place r.b 8

/-- Serves n waiting requests in the order they were made, up to the first that cannot be met. -/
def State.grantBlocks : Nat → State → Nat → State
  | 0, s, _ => s
  | n + 1, s, core => match s.grantHead core with
    | none => s
    | some t => State.grantBlocks n t core

/-- Requests that wait are served with what is free; where the head is not, the compactor considers it (R51). -/
def State.offerBlocks (s : State) (core : Nat) : State :=
  let t := State.grantBlocks (s.core core).waiting.length s core
  if (t.core core).waiting = [] then t else t.later (.compactorMove core)

/-- Frees a block of a core's pool; it is offered at once to the requests that wait (R187). -/
def State.freeBlock (s : State) (core start : Nat) : State := (s.emptyBlock core start).offerBlocks core

/-! Leave. -/

/-- Watts times 1,000 that leave granted and not ended, and reservations, charge: Q of R342. -/
def Governor.q (g : Governor) : Nat :=
  ((g.leaves.filter fun l => l.drawn.isNone).map (·.charge)).sum + ((g.res.filter (·.granted)).map (·.charge)).sum

def Governor.holds (g : Governor) (f : LeaveFor) : Bool := g.leaves.any fun l => decide (l.for_ = f)

def Governor.waits (g : Governor) (f : LeaveFor) : Bool :=
  (g.queue ++ g.modQueue).any fun p => decide (p.2 = f)

/-- The lowest-numbered granted reservation that serves an operation (R343). -/
def Governor.serving (g : Governor) (ctx kind charge modn : Nat) : Option Reservation :=
  let fit := g.res.filter fun r => r.granted && r.ctx == ctx && r.kind == kind && decide (r.drawn + charge ≤ r.charge) &&
    (kind != 3 || (r.count == modn && !(g.leaves.any fun l => l.drawn == some r.num)))
  fit.foldl (fun best r => match best with
    | none => some r
    | some b => if r.num < b.num then some r else some b) none

/-- The power under which leave is granted, in mW (R342, R385); none while no leave is granted. -/
def State.powerLimit (s : State) : Option Nat :=
  if s.throttled || s.excursion then none else if s.warm then some 2700000 else some 3050000

/-- Queues a request for leave (R342). -/
def State.queueLeave (s : State) (ctx kind charge modn : Nat) (f : LeaveFor) : State :=
  let id := s.gov.nextId
  let q : LeaveReq × LeaveFor := (⟨id, kind, charge, ctx, modn, s.nanos⟩, f)
  if kind = 3 then
    ({ s with gov := { s.gov with nextId := id + 1, modQueue := s.gov.modQueue ++ [q] } }).later (.moduleRoomReport modn)
  else
    ({ s with gov := { s.gov with nextId := id + 1, queue := s.gov.queue ++ [q] } }.tick).later
      (.permitGrant (s.free64.toNat % 2 ^ 22))

/-- Asks for leave (R22, R342): drawn at once from a reservation, or queued. -/
def State.askLeave (s : State) (ctx kind charge modn : Nat) (f : LeaveFor) : State :=
  if s.gov.holds f || s.gov.waits f then s else
  let id := s.gov.nextId
  match s.gov.serving ctx kind charge modn with
  | some r =>
    let s := { s with gov := { s.gov with
        nextId := id + 1
        leaves := s.gov.leaves ++ [⟨id, kind, charge, f, some r.num⟩]
        res := s.gov.res.map fun x => if x.num = r.num then { x with drawn := x.drawn + charge } else x } }
    match f with
    | .launch _ => s.later .spanPlacement
    | _ => s
  | none =>
    s.queueLeave ctx kind charge modn f

/-- A request is granted: its counters (R344), and the reservation or the leave it becomes; the operation that asked goes
on. -/
def State.grantLeave (s : State) (q : LeaveReq × LeaveFor) : State :=
  let g : Governor := { s.gov with
    queue := s.gov.queue.filter fun p => p.1.id != q.1.id
    modQueue := s.gov.modQueue.filter fun p => p.1.id != q.1.id
    grants := s.gov.grants.setIfInBounds q.1.kind (s.gov.grants.getD q.1.kind 0 + 1)
    waited := s.gov.waited + (s.nanos - q.1.since) }
  match q.2 with
  | .reservation c n =>
    let res := g.res.map fun (r : Reservation) =>
      if r.ctx = c ∧ r.num = n then { r with granted := true, until_ := s.nanos + r.hold * 1000 } else r
    { s with gov := { g with res := res } }.later (.reservationExpiry c n)
  | f =>
    let s := { s with gov := { g with leaves := g.leaves ++ [⟨q.1.id, q.1.kind, q.1.charge, f, none⟩] } }
    match f with
    | .matrix c => s.later (.matrixCommandExecute c)
    | .tensor c _ _ => s.later (.chunkSend c)
    | .launch _ => s.later .spanPlacement
    | _ => s

/-- An operation with leave has started: the matrix engine runs it, a chunk of it has been sent, a span of it is placed. -/
def State.started (s : State) : LeaveFor → Bool
  | .matrix c => (s.core c).engine.burst || (s.core c).engine.running
  | .tensor c cmd _ => (s.chunks.any fun p => p.2.cmd == cmd) ||
      ((s.core c).sextant.queue ++ (s.core c).sextant.spill).any fun p => p.1 == cmd && (p.2.row != 0 || p.2.byte != 0)
  | .launch n => match Tab.find s.launches n with
    | some l => l.placed != 0
    | none => true
  | .reservation _ _ | .bitSerial _ => true

/-- An operation asks for leave once more. -/
def State.askAgain (s : State) : LeaveFor → State
  | .matrix c => s.later (.matrixCommandExecute c)
  | .tensor c _ _ => s.later (.chunkSend c)
  | .launch _ => s.later .spanPlacement
  | .reservation _ _ | .bitSerial _ => s

/-- A reservation ends (R343): an operation that draws on it keeps its leave, which is then charged by itself, or, where it
has not started, asks for leave of its own. -/
def State.dropReservation (s : State) (ctx num : Nat) : State :=
  if s.gov.res.any fun r => r.ctx == ctx && r.num == num then
    let lost := s.gov.leaves.filter fun l => l.drawn == some num && !s.started l.for_
    let t := { s with gov := { s.gov with
        res := s.gov.res.filter fun (r : Reservation) => !(r.ctx == ctx && r.num == num)
        queue := s.gov.queue.filter fun p => decide (p.2 ≠ .reservation ctx num)
        modQueue := s.gov.modQueue.filter fun p => decide (p.2 ≠ .reservation ctx num)
        leaves := (s.gov.leaves.filter fun l => !lost.contains l).map fun l =>
          if l.drawn = some num then { l with drawn := none } else l } }
    lost.foldl (fun (u : State) l => u.askAgain l.for_) t
  else s

/-- Reservations whose hold time has passed end (R343). -/
def State.endReservations (s : State) : State :=
  (s.gov.res.filter fun r => r.granted && decide (r.until_ ≤ s.nanos)).foldl
    (fun (t : State) r => t.dropReservation r.ctx r.num) s

/-- Ends leave, whose charge returns to the reservation it was drawn from (R343). -/
def State.endLeave (s : State) (f : LeaveFor) : State :=
  let mine := s.gov.leaves.filter fun l => decide (l.for_ = f)
  { s with gov := { s.gov with
      leaves := s.gov.leaves.filter fun l => decide (l.for_ ≠ f)
      queue := s.gov.queue.filter fun p => decide (p.2 ≠ f)
      modQueue := s.gov.modQueue.filter fun p => decide (p.2 ≠ f)
      res := s.gov.res.map fun r =>
        { r with drawn := r.drawn - ((mine.filter fun l => l.drawn == some r.num).map (·.charge)).sum } } }

/-! Release. -/

/-- Sets the unit-table entries of a crew's region; lines with bytes of the units are discarded (R59). -/
def State.setCrewUnits (s : State) (c : Crew) (g : Gen) : State :=
  let s := (List.range c.units).foldl (fun (t : State) i =>
    { t with coreUnits := Tab.set 0 t.coreUnits (c.core * 256 + c.unit + i) g }) s
  s.dropUnit c.base c.size

/-- Sets the unit-table entries of a span's slice region. -/
def State.setSpanUnits (s : State) (p : Span) (g : Gen) : State :=
  let s := (List.range p.units).foldl (fun (t : State) i =>
    { t with sliceUnits := Tab.set 0 t.sliceUnits (p.cluster * 256 + p.unit + i) g }) s
  s.dropUnit p.base p.size

/-- Frees a place: its blocks, its generations, its sheaf. -/
def State.releasePlace (s : State) (k : Nat) : State :=
  match Tab.find s.sheaves k with
  | none => s
  | some sh =>
    let s := { s with sheaves := Tab.del s.sheaves k }
    let s := if nearMem k then s
      else s.modCore (unitOf k) fun c => { c with waiting := c.waiting.filter fun w => w.place != k }
    let s := s.quarantine (genKey k) sh.baseGen
    let s := match sh.ext with
      | none => s
      | some x => let s := s.quarantine (genKey k) x.gen
        if nearMem k then s else s.freeBlock (unitOf k) x.start
    let s := match sh.vbase with
      | none => s
      | some b => if nearMem k then s else s.freeBlock (unitOf k) b
    if nearMem k then s.endLeave (.bitSerial k) else s

/-- Releases a crew: sheaf slots, units, tiles, generations. -/
def State.releaseCrew (s : State) (id : Nat) : State :=
  match s.crew? id with
  | none => s
  | some c =>
    let s := s.setCrewUnits c 0
    let s := (s.quarantine c.core c.scrGen).quarantine c.core c.accGen
    let s := c.sheaves.foldl State.releasePlace s
    { s with crews := Tab.del s.crews id }

/-- Releases a span's slice region, where it holds one, and its crews. -/
def State.releaseSpan (s : State) (id : Nat) : State :=
  match Tab.find s.spans id with
  | none => s
  | some p =>
    let s := p.crews.foldl State.releaseCrew s
    let s := if p.sliceGen = 0 then s else (s.setSpanUnits p 0).quarantine (256 + p.cluster) p.sliceGen
    (s.modSpan id fun x => { x with sliceGen := 0 }).later .spanPlacement

/-! Launches. -/

/-- The offset of barrier slot n in a region of size e (R241). -/
def slotOff (e n : Nat) : Nat := e - 8192 - 32 * (n + 1)

/-- The package address of barrier slot n of a crew. -/
def Crew.slotAddr (c : Crew) (n : Nat) : Nat := c.base + slotOff c.size n

/-- A launch becomes eligible (R133): placement is considered, and its wait of 50 µs begins (R140). -/
def State.makeEligible (s : State) (n : Nat) : State :=
  ((s.modLaunch n fun l => { l with state := .eligible, eligibleAt := s.nanos }).later .spanPlacement).later
    (.preemptionWaitExpiry n)

/-- An armed launch fires (R139). -/
def State.fire (s : State) (n : Nat) : State :=
  match Tab.find s.launches n with
  | none => s
  | some l =>
    if l.state ≠ .armed then s
    else if l.preds = [] then s.makeEligible n else s.modLaunch n fun l => { l with state := .blocked }

/-- LWAIT returns (R197): the code is written; the outcome is an acquire at .job (R117). -/
def State.wakeLwait (s : State) (k n : Nat) (code : Word64) : State :=
  match (s.sheaf k).park with
  | some (.lwait d m) =>
    if m = n then
      ((s.writeS k d.val code).modSheaf k fun sh => { sh with park := none }).dropCtx (unitOf k) (s.ctxOf k)
    else s
  | _ => s

/-- LWAIT of a saved sheaf will have returned when it is restored (R197). -/
def Saved.wakeLwait (v : Saved) (n : Nat) (code : Word64) : Saved :=
  let mine := v.sheaves.filterMap fun p => match p.2.park with
    | some (.lwait d m) => if m = n then some (p.1, d.val) else none
    | _ => none
  { v with
    sheaves := v.sheaves.map fun p =>
      if mine.any fun q => q.1 == p.1 then (p.1, { p.2 with park := none }) else p
    sregs := (v.sregs.filter fun r => !mine.contains (r.1, r.2.1)) ++ mine.map fun q => (q.1, q.2, SCell.mk code 0) }

/-- Frees the window entry of a launch whose completion record is posted: waiting sheaves wake, dependents become
eligible (R133, R138, R197). -/
def State.freeEntry (s : State) (n : Nat) (discarded : Bool) : State :=
  let s := { s with launches := Tab.del s.launches n }
  let code : Word64 := if discarded then 1 else 0
  let s := (s.sheaves.map (·.1)).foldl (fun (t : State) k => t.wakeLwait k n code) s
  let s : State := { s with spans := s.spans.map fun (p : Nat × Span) =>
    (p.1, { p.2 with saved := p.2.saved.map fun (v : Saved) => v.wakeLwait n code }) }
  (s.launches.filter fun p => p.2.preds.contains n).foldl (fun (t : State) p =>
    let t := t.modLaunch p.1 fun l => { l with preds := l.preds.filter (· != n) }
    match Tab.find t.launches p.1 with
    | none => t
    | some l => if l.preds = [] ∧ l.state = .blocked then t.makeEligible p.1 else t) s

/-- Ends a launch: its leave ends, its completion record is posted, or waits and holds the entry (R138, R377). -/
def State.endLaunch (s : State) (n : Nat) (discarded : Bool) : State :=
  match Tab.find s.launches n with
  | none => s
  | some l =>
    let s := s.endLeave (.launch n)
    let s := (s.spans.filter fun p => p.2.launch == n).foldl
      (fun (t : State) p => { t with spans := Tab.del t.spans p.1 }) s
    match s.postCompletion (if discarded then 1 else 0) l.ctx n l.record.tag with
    | (s, true) => s.freeEntry n discarded
    | (s, false) => s.modLaunch n fun l => { l with state := .ending, sub := if discarded then 1 else 0 }

/-- What a discard drops at once (Table 18-4, steps 1 to 3): commands not yet executed, with the leave that they asked for
and have not used, and fragments where they run. -/
def State.dropWork (s : State) (n : Nat) : State :=
  let mineCrew := fun (c : Nat) => (s.crew c).launch == n
  let asked := (s.cores.filter fun (p : Nat × Core) => !p.2.engine.burst && !p.2.engine.running &&
    (p.2.engine.queue.take 1).any fun q => q.launch == n).map (·.1)
  let s := asked.foldl (fun (t : State) c => t.endLeave (.matrix c)) s
  let mine := fun (p : LeaveReq × LeaveFor) => match p.2 with
    | .tensor _ _ m => m == n
    | _ => false
  let s := { s with
    gov := { s.gov with queue := s.gov.queue.filter fun p => !mine p }
    cores := s.cores.map fun (p : Nat × Core) => (p.1, { p.2 with
      engine := { p.2.engine with
        queue := p.2.engine.queue.filter fun q => q.launch != n
        waiting := p.2.engine.waiting.filter fun q => q.launch != n
        running := p.2.engine.running && (p.2.engine.queue.take 1).all fun q => q.launch != n }
      sextant := { p.2.sextant with
        queue := p.2.sextant.queue.filter fun q => !mineCrew q.2.crew
        spill := p.2.sextant.spill.filter fun q => !mineCrew q.2.crew }
      waiting := p.2.waiting.filter fun w => (s.sheaf w.place).launch != n })
    subs := s.subs.filter fun q => match q.origin with
      | some (k, _) => (s.sheaf k).launch != n
      | none => true
    modCmds := s.modCmds.filter fun p => p.2.launch != n
    due := s.due ++ (s.cores.filter fun (p : Nat × Core) => !p.2.engine.queue.isEmpty).map
      fun (p : Nat × Core) => Event.matrixCommandExecute p.1 }
  (s.sheaves.filter fun p => p.2.launch == n && p.2.frag.isSome).foldl
    (fun (t : State) p => t.releasePlace p.1) s

/-- The cluster node of the home of a package address (R378). -/
def nodeOfSram (a : Nat) : Nat := if a < 2 ^ 31 then clusterOf (a / 2 ^ 23) else (a - 2 ^ 31) / 2 ^ 26

/-- A crew of a saved span. -/
def State.savedCrew (s : State) (id : Nat) : Option Crew :=
  s.spans.findSome? fun p => match p.2.saved with
    | some v => (v.crews.find? fun c => c.1 == id).map (·.2)
    | none => none

/-- The barrier slot that an armed launch is bound to, while its crew stands, be it saved. -/
def State.armSlot (s : State) (l : Launch) : Option Nat := match l.arm with
  | some (c, b) => ((s.crew? c).or (s.savedCrew c)).map fun x => x.slotAddr b.val
  | none => none

/-- An armed launch leaves its slot: ARM is cleared unless another armed launch is bound there (Table 11-7). The slot of a
saved crew is set right when it is restored. -/
def State.disarm (s : State) (l : Launch) : State :=
  match s.armSlot l with
  | none => s
  | some a =>
    if (s.launches.any fun p => p.2.state == .armed && s.armSlot p.2 == some a) ||
        !(l.arm.any fun b => (s.crew? b.1).isSome) then s
    else s.pkgWrite (a + 8) [s.pkgByte (a + 8) &&& 0xFD]

/-- Discards a launch, and with it its armed launches and those that name it as a predecessor (R373); the fuel bounds
the chain of dependents. A launch whose last span has retired and whose completion record waits stays COMPLETE (R138 and Table
7-4 differ on when it is RETIRED: DESIGN CHOICE, log entry 110). -/
def State.discardFuel : Nat → State → Nat → Nat → Byte → BitVec 56 → Nat → State
  | 0, s, _, _, _, _, _ => s
  | f + 1, s, n, sub, kind, addr, node =>
    match Tab.find s.launches n with
    | none => s
    | some l =>
      if l.state = .discarding ∨ l.state = .ending then s
      else
        let slots := (s.launches.filter fun p => p.2.state == .armed && p.2.parent == n).map fun p =>
          (p.1, (s.armSlot p.2).getD 0)
        let s := s.modLaunch n fun l => { l with state := .discarding, sub := sub, kind := kind, faddr := addr, node := node }
        let s := s.noteFault 2 sub
        let s := if l.state = .armed then s.disarm l else s
        let s := (s.spans.filter fun p => p.2.launch == n && p.2.state != .retired).foldl
          (fun (t : State) p => t.modSpan p.1 fun x => { x with state := .discarded, saved := none }) s
        let s := s.dropWork n
        let s := slots.foldl (fun (t : State) p =>
          t.discardFuel f p.1 2 0 (BitVec.ofNat 56 p.2) nodeControl) s
        let deps := s.launches.filter fun p => p.2.preds.contains n
        let s := deps.foldl (fun (t : State) p => t.discardFuel f p.1 2 0 0 nodeControl) s
        s.later (.discardRelease n)

/-- Discards a launch, for a record that names a node. The window holds 1,024 launches, so no chain of dependents is
longer. -/
def State.discardAt (s : State) (n sub : Nat) (kind : Byte) (addr : BitVec 56) (node : Nat) : State :=
  s.discardFuel 1024 n sub kind addr node

/-- A fault of the whole package: every launch is discarded, the latest first, so that each record has the subtype given
(R372, R378). -/
def State.discardEvery (s : State) (sub : Nat) : State :=
  (s.launches.map (·.1)).reverse.foldl (fun (t : State) n => t.discardAt n sub 0 0 nodeControl) s

/-- An uncorrectable error in the Orrery's window, the unit tables, the event router or the permit governor is contained
(R372, Table 18-3). -/
def State.controlFault (s : State) : State :=
  if s.badWords.contains .control then
    { s.noteFault 2 4 with badWords := s.badWords.filter (fun w => w != BadWord.control) }.discardEvery 4
  else s

/-- The act of one of these units, unless it finds such an error. -/
def State.ifSound (s : State) (act : State → State) : State :=
  if s.badWords.contains .control then s.controlFault else act s

/-- Discards a launch; the record names the granule's home for SUB 0, otherwise the control die (R378). -/
def State.discard (s : State) (n sub : Nat) (kind : Byte) (addr : BitVec 56) : State :=
  s.discardAt n sub kind addr (if sub = 0 ∧ addr.toNat < 2 ^ 32 then nodeOfSram addr.toNat else nodeControl)

end Sys2Proof.Machine
end

