-- ==== Sys2Proof/Machine/Ops.lean ====
section
/-!
DEFINITION. The operations that instructions and events share: barrier arrivals (R243), the divergence stack and refilling
of PC slots (R30 to R32), returns of fragments (R296), taking an exception and returning from it (R381 to R383, R397),
and the order of checks of an instruction (Table 19-1).
-/

namespace Sys2Proof.Machine

open Sys2Proof

/-! Traps. -/

/-- What a failed check reports (Table 19-2). -/
structure TrapInfo where
  kind : Byte
  detail : Byte
  lanes : Word32
  addr : BitVec 56
  deriving DecidableEq, Repr

/-- The kind of trap of a memory fault code (Table 20-2). -/
def kindOf (code : Byte) : Byte := if code.toNat < 8 then 0x0C else if code = 8 then 0x0E else 0x0D

/-- The executing instruction: its place and PC slot, Exec, PC, opcode, its index in a microprogram, the lanes that
it cannot migrate this once (R298), and those that depart again to their owners (R407). -/
structure Ex where
  k : Nat
  b : Bool
  exec : Word32
  pc : Word64
  opc : BitVec 9
  opidx : Nat
  inmc : Bool
  stay : Word32
  redep : Word32
  deriving DecidableEq, Repr

/-- The record of a trap at an instruction (Table 18-8). -/
def Ex.trap (x : Ex) (t : TrapInfo) : Trap :=
  ⟨t.kind, t.detail, t.lanes, t.addr, x.pc, x.opc, BitVec.ofNat 5 x.opidx, x.inmc⟩

/-- s62 of a trap record. -/
def Trap.s62 (t : Trap) (b : Bool) : Word64 :=
  t.kind ++ t.opidx ++ BitVec.ofBool t.inmc ++ BitVec.ofBool b ++ t.opc ++ t.detail ++ t.lanes

/-- The crew whose region holds an address. -/
def State.crewAt (s : State) (a : Nat) : Option (Nat × Crew) :=
  s.crews.find? fun p => p.2.base ≤ a && a < p.2.base + p.2.size

/-- Before a write of bytes of package SRAM: what they are is kept for the matrix commands of a crew that need not see the
write (R105, R121), word by word, with the place and lane that writes. -/
def State.keepOld (s : State) (a n : Nat) (by_ : Option (Nat × Nat)) : State :=
  match s.crewAt a with
  | none => s
  | some (id, c) =>
    if c.tiles = [] ∨ n = 0 then s
    else
      let ws := (List.range ((a + n - 1) / 8 - a / 8 + 1)).map fun i =>
        let lo := max a (8 * (a / 8 + i))
        OldWord.mk (lo - c.base) (s.pkgRead lo (min (a + n) (8 * (a / 8 + i) + 8) - lo))
          (by_.map fun p => [p]) none
      s.modCrew id fun y => { y with old := y.old ++ ws }

/-- Changes the old words of the crews that a condition names. -/
def State.mapOld (s : State) (p : Crew → Bool) (f : Crew → OldWord → OldWord) : State :=
  if s.crews.all fun c => c.2.old.isEmpty then s
  else { s with crews := s.crews.map fun c =>
    (c.1, if p c.2 then { c.2 with old := c.2.old.map (f c.2) } else c.2) }

/-- Lanes of a place that read bytes know the writes there: they order them as they order their own (R112, R114). -/
def State.learn (s : State) (k : Nat) (m : Word32) (a n : Nat) : State :=
  s.mapOld (fun _ => true) fun c w =>
    if c.base + w.off < a + n ∧ a < c.base + w.off + w.bytes.length then
      { w with by_ := w.by_.map fun l => l ++ (lanesOf m).map fun L => (k, L) }
    else w

/-- The writes that lanes of a place have made or read are published: a matrix command after an MFEN of any lane reads them
(R112, R114, R123; log entry 100). -/
def State.publish (s : State) (k : Nat) (m : Word32) : State :=
  s.mapOld (fun _ => true) fun _ w =>
    if w.by_.any fun l => l.any fun p => p.1 == k && m.getLsbD p.2 then { w with by_ := none } else w

/-! Uncorrectable errors. -/

/-- The launch that holds a package address. -/
def State.holder (s : State) (a : Nat) : Option Nat :=
  match s.crewAt a with
  | some c => some c.2.launch
  | none => (s.spans.find? fun p => p.2.base ≤ a && a < p.2.base + p.2.size).map fun p => p.2.launch

/-- The granules of bytes of package SRAM that hold an uncorrectable error. -/
def State.badGranules (s : State) (a n : Nat) : List Nat :=
  if s.badSram = [] then [] else (granules a n).filter s.badSram.contains

/-- A write of n bytes that covers granules with an error only in part reads them (R414). -/
def State.badPartial (s : State) (a n : Nat) : List Nat :=
  (s.badGranules a n).filter fun g => !(decide (a ≤ 32 * g) && decide (32 * g + 32 ≤ a + n))

/-- Contains an error in a granule (R372, Table 20-6): the launch that holds it is discarded; where none does, the tag
becomes 0x0000 and context 0 is told. -/
def State.containGranule (s : State) (g : Nat) : State :=
  match s.holder (32 * g) with
  | some n => s.discard n 0 0 (BitVec.ofNat 56 (32 * g))
  | none => ({ s with tags := Tab.del s.tags g, badSram := s.badSram.filter (· != g) }).post 2 0 0 (nodeOfSram (32 * g))
      (payload2 0 (BitVec.ofNat 64 (32 * g)))

/-- Contains errors found by a reader's launch: the holders' launches and, where a granule is held, its own are discarded; of
granules that no allocation holds, the tags become 0x0000 (Table 20-6). -/
def State.contain (s : State) (gs : List Nat) (reader : Nat) : State :=
  let t := gs.foldl State.containGranule s
  match gs.filter fun g => (s.holder (32 * g)).isSome with
  | [] => t
  | g :: _ => t.discard reader 0 0 (BitVec.ofNat 56 (32 * g))

/-! The divergence stack (R30). -/

/-- The package address of entry i of the stack of a sheaf (R137). -/
def State.stackAddr (s : State) (k i : Nat) : Nat :=
  let sh := s.sheaf k
  let c := s.crew sh.crew
  c.base + c.size - 512 * (sh.idx + 1) + 8 * i

/-- Entry i of the stack; a fragment keeps its entries in slot storage (R295). -/
def State.stackGet (s : State) (k i : Nat) : Word64 :=
  if (s.sheaf k).frag.isSome then (s.sheaf k).fstack.getD i 0
  else BitVec.ofNat 64 (leNat (s.pkgRead (s.stackAddr k i) 8))

def State.stackSet (s : State) (k i : Nat) (w : Word64) : State :=
  if (s.sheaf k).frag.isSome then
    s.modSheaf k fun sh => { sh with fstack := (sh.fstack ++ List.replicate (i + 1 - sh.fstack.length) 0).set i w }
  else s.pkgWrite (s.stackAddr k i) (leBytes 8 w.toNat)

/-- Entries the stack of a place can hold (R32, R295). -/
def State.stackMax (s : State) (k : Nat) : Nat := if (s.sheaf k).frag.isSome then 16 else 64

def pathEntry (mask : Word32) (pc : Word64) : Word64 := mask ++ pc.extractLsb' 2 30 ++ (1 : BitVec 2)

def joinWord0 (mask : Word32) (j : Word64) : Word64 := mask ++ j.extractLsb' 2 30 ++ (2 : BitVec 2)

def joinWord1 (parent : Nat) (ra : Bool) : Word64 :=
  (0 : BitVec 26) ++ BitVec.ofNat 6 parent ++ (0 : BitVec 29) ++ BitVec.ofBool ra ++ (3 : BitVec 2)

def entryKind (w : Word64) : Nat := (w.extractLsb' 0 2).toNat
def entryMask (w : Word64) : Word32 := w.extractLsb' 32 32
/-- The PC an entry holds, within the code region of a base. -/
def entryPc (base w : Word64) : Word64 := base.extractLsb' 32 32 ++ w.extractLsb' 2 30 ++ (0 : BitVec 2)
def entryParent (w1 : Word64) : Nat := (w1.extractLsb' 32 6).toNat
def entryRa (w1 : Word64) : Bool := w1.getLsbD 2

/-- Pushes an entry. -/
def State.push (s : State) (k : Nat) (w : Word64) : State :=
  (s.stackSet k (s.sheaf k).depth w).modSheaf k fun sh => { sh with depth := sh.depth + 1 }

/-- Pushes a join record; its index is the depth before (R29). -/
def State.pushJoin (s : State) (k : Nat) (mask : Word32) (j : Word64) (parent : Nat) (ra : Bool) : State :=
  (s.push k (joinWord0 mask j)).push k (joinWord1 parent ra)

/-- Changes the MASK of a join record. -/
def State.modRecord (s : State) (k i : Nat) (f : Word32 → Word32) : State :=
  let w := s.stackGet k i
  s.stackSet k i (f (entryMask w) ++ w.extractLsb' 0 32)

/-- Removes lanes from the MASK of every join record (R32). -/
def State.exitRecords (s : State) (k : Nat) (m : Word32) : State :=
  (List.range (s.sheaf k).depth).foldl (fun (t : State) i =>
    if entryKind (t.stackGet k i) = 2 then t.modRecord k i (· &&& ~~~m) else t) s

/-- The index of the nearest word 0 at or below an index, or 63 (R31). -/
def State.nearestRecord (s : State) (k : Nat) : Nat → Nat
  | 0 => 63
  | i + 1 => if entryKind (s.stackGet k i) = 2 then i else State.nearestRecord s k i

/-- A PC of the sheaf's code region (R28). -/
def Sheaf.codeBase (sh : Sheaf) : Word64 := if sh.a.live then sh.a.pc else sh.b.pc

/-! Loads in flight. -/

/-- Writes the arrived values of a mask of lanes of a load to its destination, whose format tag stays. -/
def State.writeLoad (s : State) (k : Nat) (l : Load) (m : Word32) : State :=
  match l.dest with
  | .vec d true _ =>
    (s.writeV k d.val m (fun L => (l.vals.getD L 0).setWidth 32) (s.readV k d.val).fmt).writeV k (d.val + 1) m
      (fun L => (l.vals.getD L 0).extractLsb' 32 32) (s.readV k (d.val + 1)).fmt
  | .vec d false _ => s.writeV k d.val m (fun L => (l.vals.getD L 0).setWidth 32) (s.readV k d.val).fmt
  | .sca d => if m = 0 then s else s.writeS k d.val (l.vals.getD 0 0)
  | .none_ => s

/-- Sets the format tag of a register that some lane has written. -/
def State.setFmt (s : State) (k r : Nat) (fmt : BitVec 4) : State :=
  if s.staleReg k (.v r) then s else
  match vphys k (s.sheaf k) r with
  | none => s
  | some i => { s with vregs := Tab.mod s.vregs i fun c => { c with fmt := fmt } }

/-- The format tag of a load's destination, set when its last lane has returned (R65, R234). -/
def State.tagLoad (s : State) (k : Nat) : LoadDest → State
  | .vec d true fmt => (s.setFmt k d.val fmt).setFmt k (d.val + 1) fmt
  | .vec d false fmt => s.setFmt k d.val fmt
  | _ => s

/-- A sheaf whose last pending bit has cleared waits at its switch marker no longer (R39). -/
def Sheaf.unmark (sh : Sheaf) : Sheaf := { sh with marked := sh.marked && sh.anyPending }

/-- Clears the pending bits of a load whose last lane has returned (R38). -/
def Sheaf.loadDone (sh : Sheaf) (id : Nat) : Sheaf :=
  match sh.loads.find? fun l => l.id == id with
  | none => sh
  | some l =>
    let sh := { sh with loads := sh.loads.filter fun x => x.id != id }
    (l.dest.regs.foldl (fun x r => x.setPending r false) sh).unmark

/-- A switch marker parks the sheaf while one of its pending bits is set (R39). -/
def Sheaf.atMarker (sh : Sheaf) : Bool := sh.marked && sh.anyPending

/-- Returns the lanes of a mask that have arrived, in one load. -/
def State.returnLanes (s : State) (k id : Nat) (m : Word32) : State :=
  match (s.sheaf k).loads.find? fun l => l.id == id with
  | none => s
  | some l =>
    let now := l.left &&& l.ready &&& m
    let s := s.writeLoad k l now
    let left := l.left &&& ~~~now
    let s := if left = 0 then s.tagLoad k l.dest else s
    s.modSheaf k fun sh =>
      if left = 0 then sh.loadDone id
      else { sh with loads := sh.loads.map fun x => if x.id = id then { x with left := left } else x }

/-- Every arrived lane of a mask returns: what a departure waits for (R123). -/
def State.flushLoads (s : State) (k : Nat) (m : Word32) : State :=
  (s.sheaf k).loads.foldl (fun (t : State) l => t.returnLanes k l.id m) s

/-! Continuations. -/

/-- The carried positions of a set: vectors, scalars, predicates, ascending. -/
def RegMask.vregs (m : RegMask) : List Nat := (List.range 192).filter fun i => m.v.getLsbD i
def RegMask.sregs (m : RegMask) : List Nat := (List.range 64).filter fun i => m.s.getLsbD i
def RegMask.pregs (m : RegMask) : List Nat := (List.range 7).filter fun i => m.p.getLsbD i

/-- The code of an extended block size. -/
def xblkCode (n : Nat) : Nat := if n = 32 then 1 else if n = 64 then 2 else if n = 128 then 3 else 0

/-- The size of an extended block code. -/
def xblkSize (c : Nat) : Nat := if c = 1 then 32 else if c = 2 then 64 else if c = 3 then 128 else 0

/-- The priority of a place (R40, R193). -/
def State.prioOf (s : State) (k : Nat) : Nat := match (s.sheaf k).frag with
  | some f => f.prio
  | none => match s.launchOf k with
    | some l => l.prio
    | none => 0

/-- Some register of a carry set is stale (R289). -/
def State.carryStale (s : State) (k : Nat) (c : RegMask) : Bool :=
  (c.vregs.any fun r => s.staleReg k (.v r)) || (c.sregs.any fun r => s.staleReg k (.s r)) ||
    (c.pregs.any fun r => s.staleReg k (.p r))

/-- The vector registers that the lanes of a mask carry; a stale one reads as zero, other lanes are zero. -/
def State.carriedV (s : State) (k : Nat) (m : RegMask) (mask : Word32) : List (Nat × BitVec 4 × Vector Word32 32) :=
  m.vregs.map fun r => let c := s.readV k r
    (r, c.fmt, vec32 fun L => if mask.getLsbD L then c.data.getD L 0 else 0)

def State.carriedS (s : State) (k : Nat) (m : RegMask) : List (Nat × Word64) := m.sregs.map fun r => (r, s.readS k r)

def State.carriedP (s : State) (k : Nat) (m : RegMask) (mask : Word32) : List (Nat × Word32) :=
  m.pregs.map fun r => (r, s.readP k r &&& mask)

/-- The continuation of lanes that leave a place (R288, R289): carried values are read at departure, stale ones as
zero; lanes outside the mask are zero. -/
def State.mkCont (s : State) (k : Nat) (mask : Word32) (pc : Word64) (kind rsn hops : Nat) (fcode : Byte)
    (faddr : BitVec 56) : Cont :=
  let sh := s.sheaf k
  let f : Frag := match sh.frag with
    | some f => f
    | none => ⟨k, s.host.pkgnum, s.ctxOf k, sh.winCount, sh.baseGen, (sh.ext.map (·.gen)).getD 0, xblkCode sh.xblk,
        match sh.win with
          | some w => w.jpc.setWidth 32
          | none => 0,
        0, s.prioOf k, none, 0⟩
  { pc := pc
    srnd := sh.srnd
    mask := mask
    rtok := f.rtok
    hgen := f.hgen
    xgen := f.xgen
    jpc := f.jpc
    ctx := f.ctx
    hpkg := f.hpkg
    home := f.home
    launch := sh.launch
    strict := sh.strict
    prio := f.prio
    xblk := f.hxblk
    hops := hops
    kind := kind
    rsn := rsn
    carry := sh.carry
    wb := sh.wb
    vregs := s.carriedV k sh.carry mask
    sregs := s.carriedS k sh.carry
    pregs := s.carriedP k sh.carry mask
    fcode := fcode
    faddr := faddr
    auto := false
    toModule := false
    dmod := 0
    dunit := 0
    dcore := 0
    ia := 0
    src := some (k, sh.baseGen)
    stale := s.carryStale k sh.carry
    trap := none
    frozen := none }

/-- A continuation just before it departs or returns: the registers of its set and sr.srnd, read again where its lanes
still stand (R77, R289). -/
def State.carriedNow (s : State) (c : Cont) : Cont := match c.src with
  | none => c
  | some (k, g) =>
    if (s.sheaf k).baseGen = g ∧ g ≠ 0 then { c with
      srnd := (s.sheaf k).srnd
      vregs := s.carriedV k c.carry c.mask
      sregs := s.carriedS k c.carry
      pregs := s.carriedP k c.carry c.mask
      stale := s.carryStale k c.carry
      src := none }
    else { c with src := none }

/-- The accesses of the lanes of a continuation have been performed (R123): no write or atomic of its launch is outstanding
in another package, and no load of these lanes is under way where they stand. -/
def State.settled (s : State) (c : Cont) : Bool :=
  !(s.xfers.any fun x => x.2.launch == c.launch && (match x.2.kind with
    | .write _ | .send _ | .atom .. => true
    | _ => false)) &&
  (match c.src with
    | none => true
    | some (k, g) => (s.sheaf k).baseGen != g || (s.sheaf k).loads.all fun l => l.left &&& c.mask == 0)

/-- Takes lanes out of a PC slot; a slot without lanes is free (R32). -/
def PcSlot.without (sl : PcSlot) (m : Word32) : PcSlot :=
  let rest := sl.mask &&& ~~~m
  if rest = 0 then PcSlot.free else { sl with mask := rest }

/-- Continuations that have not left a place wait for the accesses of their lanes (R123). -/
def State.leaving (s : State) (k : Nat) : Bool := s.conts.any fun c => c.2.src == some (k, (s.sheaf k).baseGen)

/-- A visiting slot left with no lanes is freed (R297), once the lanes that leave it have gone (R123). -/
def State.freeVisitor (s : State) (k : Nat) : State :=
  let sh := s.sheaf k
  if sh.frag.isSome && !sh.a.live && !sh.b.live && sh.depth == 0 && sh.loads.isEmpty && !s.leaving k then s.releasePlace k
  else s

/-- Lanes leave a PC slot; those of a fragment leave its join records too, as they do not come back to it. -/
def State.leave (s : State) (k : Nat) (b : Bool) (m : Word32) : State :=
  (if (s.sheaf k).frag.isSome then s.exitRecords k m else s).modSlot k b fun sl => sl.without m

/-- The hops of a fragment; 0 at home. -/
def State.hopsOf (s : State) (k : Nat) : Nat := match (s.sheaf k).frag with
  | some f => f.hops
  | none => 0

/-- Sends lanes of a fragment home (R296, R298), with the trap that home takes, if any; their accesses come before those of the
lanes at home (R123). -/
def State.fragReturnTrap (s : State) (k : Nat) (b : Bool) (m : Word32) (pc : Word64) (kind rsn : Nat) (fcode : Byte)
    (faddr : BitVec 56) (trap : Option Trap) : State :=
  let s := (s.flushLoads k m).publish k m
  let c := { s.mkCont k m pc kind rsn (s.hopsOf k) fcode faddr with trap := trap }
  match s.freshId with
  | (id, s) => (({ s with conts := Tab.put s.conts id c }).leave k b m).later (.migrationReturn id)

/-- Sends lanes of a fragment home without a trap that is not a memory fault's. -/
def State.fragReturn (s : State) (k : Nat) (b : Bool) (m : Word32) (pc : Word64) (kind rsn : Nat) (fcode : Byte)
    (faddr : BitVec 56) : State :=
  s.fragReturnTrap k b m pc kind rsn fcode faddr none

/-! Strict reads. -/

/-- An address lies in an arrival barrier slot of a crew (R241). -/
def State.inSlot (s : State) (a : Nat) : Bool := match s.crewAt a with
  | none => false
  | some c => decide (c.2.slotAddr c.2.bar + 32 ≤ a) && decide (a < c.2.slotAddr 0 + 32)

/-- A strict read finds a stale granule (R56). -/
def State.strictStale (s : State) (a : Access) (n : Nat) : Bool := match a.space with
  | .pkg p _ => a.sg && (granules p n).any fun g => s.stale (32 * g) && !s.inSlot (32 * g)
  | _ => false

/-- The trap of a strict read of a stale granule: its detail and address are open (R56). -/
def State.staleTrap (s : State) (m : Word32) : TrapInfo :=
  let w := s.free64
  ⟨0x06, w.setWidth 8, m, w.extractLsb' 8 56⟩

/-! Fetch. -/

/-- What a fetch finds: an instruction, the trap of steps 1 to 3 of Table 19-1, or granules with uncorrectable errors
(R414). -/
inductive Fetched where
  | instr (i : Instr)
  | trap (t : Trap)
  | bad (g : List Nat)
  deriving DecidableEq, Repr

/-- The start of the fetch block of an address (R147). -/
def blockOf (pc : Word64) : Word64 := pc &&& ~~~(31 : Word64)

/-- A fetch block of a context as it stands in memory, read as one whole (R147, R149). -/
def State.readBlock (s : State) (ctx : Nat) (blk : Word64) : Except Refused (List Byte) :=
  match s.translate ctx blk 32 .ex with
  | .error r => .error r
  | .ok a => match a.space with
    | .pkg p _ => .ok (s.pkgRead p 32)
    | .peer q p => .ok ((List.range 32).map fun i => Config.peerByte q (p + i) s.choices)
    | .mod m o => match s.modRead m o 32 with
      | .error c => .error ⟨c, BitVec.ofNat 56 a.ia⟩
      | .ok bs => .ok bs

/-- The kept form of a fetch block that a fetch of a sheaf returns; none where it reads the block again. Between a kept form
that differs from the block in memory and a new read the choice is free at each fetch (R149). -/
def State.keptForm (s : State) (k : Nat) (blk : Word64) : Option (List Byte) :=
  match (s.sheaf k).code.filter fun p => p.1 == blk with
  | [] => none
  | ps => match (ps.map (·.2)).filter (fun f => match s.readBlock (s.ctxOf k) blk with
      | .ok bs => f != bs
      | .error _ => true) with
    | [] => none
    | fs => fs[Config.codeForm s.choices % (fs.length + 1)]?

/-- The bytes that a sheaf fetches from an address to the end of its fetch block (R147, R149). -/
def State.fetchBlock (s : State) (k : Nat) (pc : Word64) : Except Refused (List Byte) :=
  match s.keptForm k (blockOf pc) with
  | some bs => .ok (bs.drop (pc.extractLsb' 0 5).toNat)
  | none => match s.readBlock (s.ctxOf k) (blockOf pc) with
    | .ok bs => .ok (bs.drop (pc.extractLsb' 0 5).toNat)
    | .error r => .error r

/-- The granules with errors that a fetch reads. -/
def State.fetchErrors (s : State) (k : Nat) (pc : Word64) : List Nat :=
  if s.badSram = [] then [] else
  match s.keptForm k (blockOf pc), s.translate (s.ctxOf k) (blockOf pc) 32 .ex with
  | none, .ok ⟨_, .pkg p _, _, _, _, _⟩ => s.badGranules p 32
  | _, _ => []

/-- A fetch reads a stale granule through a range in strict mode (R56). -/
def State.fetchStale (s : State) (k : Nat) (pc : Word64) : Bool :=
  match s.keptForm k (blockOf pc), s.translate (s.ctxOf k) (blockOf pc) 32 .ex with
  | none, .ok a => s.strictStale a 32
  | _, _ => false

/-- A sheaf may keep the fetch block that it has read for a PC slot (R149). -/
def State.keepBlock (s : State) (k : Nat) (b : Bool) : State :=
  let sl := (s.sheaf k).slot b
  let blk := blockOf sl.pc
  match sl.micro, s.keptForm k blk, s.readBlock (s.ctxOf k) blk with
  | none, none, .ok bs =>
    if (s.sheaf k).code.contains (blk, bs) then s
    else s.modSheaf k fun x => { x with code := x.code ++ [(blk, bs)] }
  | _, _, _ => s

/-- The instruction that a sheaf fetches at a PC, for a PC slot with an active mask (R146, R147, R162). -/
def State.fetchAt (s : State) (k : Nat) (pc : Word64) (mask : Word32) : Fetched :=
  match s.fetchBlock k pc with
  | .error r => .trap ⟨kindOf r.code, r.code, mask, r.addr, pc, 0, 0, false⟩
  | .ok bs =>
    let w : BitVec 128 := BitVec.ofNat 128 (leNat (bs.take 16))
    if s.fetchStale k pc then
      let t := s.staleTrap mask
      .trap ⟨t.kind, t.detail, mask, t.addr, pc, opcBits w, 0, false⟩
    else if bs.length < lenBytes w then .trap ⟨0x01, 7, mask, 0, pc, opcBits w, 0, false⟩
    else match decodeBits w with
      | .ok i => .instr i
      | .error r => .trap ⟨0x01, BitVec.ofNat 8 r, mask, 0, pc, opcBits w, 0, false⟩

/-- Words of a microprogram image from the start of its nth operation; pads are no operations (R44). -/
def microWord : Nat → List Byte → Nat → BitVec 128
  | 0, _, _ => 0
  | f + 1, bs, n =>
    let w : BitVec 128 := BitVec.ofNat 128 (leNat (bs.take 16))
    let rest := bs.drop (lenBytes w)
    if lenBytes w = 4 then microWord f rest n
    else match n with
      | 0 => w
      | m + 1 => microWord f rest m

/-- The operation a PC slot stands at in a microprogram (R45); reason 10 at the MCALL where the store, read again after a
restore, no longer holds it (R399). -/
def MicroPos.fetch (m : MicroPos) (pc : Word64) (mask : Word32) : Fetched :=
  if m.count ≤ m.idx then .trap ⟨0x01, 10, mask, 0, pc, 0x00C, BitVec.ofNat 5 m.idx, true⟩ else
  let w := microWord 64 m.image m.idx
  match decodeOp m.par w with
  | .ok i => .instr i
  | .error r => .trap ⟨0x01, BitVec.ofNat 8 r, mask, 0, pc, opcBits w, BitVec.ofNat 5 m.idx, true⟩

/-- The next instruction of a PC slot. -/
def State.fetch (s : State) (k : Nat) (b : Bool) : Fetched :=
  let sl := (s.sheaf k).slot b
  match sl.micro with
  | some m => m.fetch sl.pc sl.mask
  | none =>
    let e := s.fetchErrors k sl.pc
    if e = [] then s.fetchAt k sl.pc sl.mask else .bad e

/-- The opcode of the instruction that a sheaf finds at a PC. -/
def State.opcAt (s : State) (k : Nat) (pc : Word64) : BitVec 9 := match s.fetchBlock k pc with
  | .error _ => 0
  | .ok bs => opcBits (BitVec.ofNat 128 (leNat (bs.take 16)))

/-! Taking an exception. -/

/-- A trap at entry is handled (R383): PRIV = 1, s60 is aligned and in the code region of the RPC, and no trap is active
in the slot. -/
def State.trapHandled (s : State) (k : Nat) (b : Bool) (t : Trap) : Bool :=
  let h := s.readS k 60
  (s.ctx (s.ctxOf k)).priv && h.extractLsb' 0 2 == 0 && h.extractLsb' 32 32 == t.rpc.extractLsb' 32 32 &&
    !((s.sheaf k).slot b).active

/-- Trap entry (R382, R383): the record goes to s61 to s63 and the slot continues at S[60]; a trap that is not handled
discards the launch. -/
def State.enterTrap (s : State) (k : Nat) (b : Bool) (t : Trap) : State :=
  if s.trapHandled k b t then
    let h := s.readS k 60
    let s := ((s.writeS k 61 t.rpc).writeS k 62 (t.s62 b)).writeS k 63 (t.addr.setWidth 64)
    s.modSlot k b fun sl => { sl with pc := h, micro := none, active := true, waiting := none }
  else
    (s.modSlot k b fun sl => { sl with waiting := none }).discardAt (s.sheaf k).launch 1 t.kind
      ((t.rpc.extractLsb' 2 55).setWidth 56) (nodeOfUnit (unitOf k))

/-- The pending bits of s61 to s63 are clear (R382), and no trap is active in the other slot (R398). -/
def State.canEnter (s : State) (k : Nat) (b : Bool) : Bool :=
  let sh := s.sheaf k
  !sh.pending (.s 61) && !sh.pending (.s 62) && !sh.pending (.s 63) && !(sh.slot (!b)).active

/-- Taking an exception: a fragment returns, and the trap is taken at home (R296): a memory fault by the lanes that it hit,
any other trap by the lanes of the slot (log entry 101). Otherwise the trap is entered, or
waits until it can be (R382, R398). -/
def State.takeTrap (s : State) (k : Nat) (b : Bool) (t : Trap) : State :=
  match (s.sheaf k).frag with
  | some _ =>
    let m := ((s.sheaf k).slot b).mask
    let mem := t.kind == 0x0C || t.kind == 0x0D || t.kind == 0x0E
    if mem then
      let good := m &&& ~~~t.lanes
      let s := s.fragReturn k b t.lanes t.rpc 2 0 t.detail t.addr
      let s := if good = 0 then s else s.fragReturn k b good t.rpc 2 0 0 0
      s.freeVisitor k
    else (s.fragReturnTrap k b m t.rpc 2 0 0 0 (some t)).freeVisitor k
  | none =>
    if s.canEnter k b then s.enterTrap k b t
    else (s.modSlot k b fun sl => { sl with waiting := some t }).later
      (.trapEntry (placeOf k) b)

/-! Barriers. -/

/-- A barrier slot as bits; a stale granule reads as zeros (R241). -/
def State.slotRead (s : State) (a : Nat) : BitVec 256 := BitVec.ofNat 256 (leNat (s.pkgRead a 32))

def State.slotWrite (s : State) (a : Nat) (x : BitVec 256) : State := s.pkgWrite a (leBytes 32 x.toNat)

/-- Fields of Table 11-7. -/
structure Bar where
  exp : Word32
  cnt : Word32
  flt : Bool
  arm : Bool
  wait : BitVec 16
  phase : Word32
  faddr : BitVec 56
  fcode : Byte
  deriving DecidableEq, Repr

def Bar.of (x : BitVec 256) : Bar :=
  ⟨x.extractLsb' 0 32, x.extractLsb' 32 32, x.getLsbD 64, x.getLsbD 65, x.extractLsb' 80 16, x.extractLsb' 96 32,
    x.extractLsb' 128 56, x.extractLsb' 184 8⟩

/-- The slot with its fields replaced; reserved bits keep what they hold. -/
def Bar.put (b : Bar) (x : BitVec 256) : BitVec 256 :=
  x.extractLsb' 192 64 ++ b.fcode ++ b.faddr ++ b.phase ++ b.wait ++ x.extractLsb' 66 14 ++ BitVec.ofBool b.arm ++
    BitVec.ofBool b.flt ++ b.cnt ++ b.exp

/-- A target phase is reached (R246). -/
def reached (phase target : Word32) : Bool := (phase - target).toNat < 2 ^ 31

/-- The completion loop of R243 in closed form: whole phases leave the count. -/
def Bar.complete (b : Bar) (cnt : Nat) : Bar × Nat :=
  if b.exp = 0 ∨ cnt < b.exp.toNat then ({ b with cnt := BitVec.ofNat 32 cnt }, 0)
  else
    let n := cnt / b.exp.toNat
    ({ b with cnt := BitVec.ofNat 32 (cnt % b.exp.toNat), phase := b.phase + BitVec.ofNat 32 n }, n)

/-- ABWAIT returns (R246): lines are discarded (R117) and the slot goes on. -/
def State.abwaitReturn (s : State) (k : Nat) (b : Bool) : State :=
  ((s.modSheaf k fun sh => { sh with park := none }).advance k b 8).dropCtx (unitOf k) (s.ctxOf k)

/-- The sheaves parked in ABWAIT on the slot at an address. -/
def State.waiters (s : State) (a : Nat) : List (Nat × Bool × BSlot × Word32 × Word32) :=
  s.sheaves.filterMap fun p => match p.2.park with
    | some (.abwait b n t e) =>
      if (s.crew p.2.crew).slotAddr n.val = a ∧ p.2.frag.isNone then some (p.1, b, n, t, e) else none
    | _ => none

/-- The record of the trap of ABWAIT on a faulted slot (R391, R403). -/
def faultedBarrier (s : State) (k : Nat) (b : Bool) (n : BSlot) (exec : Word32) (faddr : BitVec 56) : Trap :=
  let sl := (s.sheaf k).slot b
  ⟨0x0F, BitVec.ofNat 8 n.val, exec, faddr, sl.pc, 0x103,
    BitVec.ofNat 5 (match sl.micro with
      | some m => m.idx
      | none => 0), sl.micro.isSome⟩

/-- A target is reached, or was at one of the last n phases that completed (R243, R246). -/
def reachedIn (phase : Word32) (n : Nat) (target : Word32) : Bool :=
  reached phase target || decide ((target - (phase - BitVec.ofNat 32 n)).toNat ≤ n)

/-- Wakes the sheaves whose target is reached now or was at one of the last n phases, clearing their WAIT bits; traps them
when the slot has faulted. -/
def State.wakeWaiters (s : State) (a n : Nat) : State :=
  (s.waiters a).foldl (fun (t : State) w =>
    let x := t.slotRead a
    let br := Bar.of x
    let clear := fun (u : State) =>
      u.slotWrite a (Bar.put { br with wait := setBit br.wait (u.sheaf w.1).idx false } x)
    if br.flt then
      let u := (clear t).modSheaf w.1 fun sh => { sh with park := none }
      u.takeTrap w.1 w.2.1 (faultedBarrier u w.1 w.2.1 w.2.2.1 w.2.2.2.2 br.faddr)
    else if reachedIn br.phase n w.2.2.2.1 then (clear t).abwaitReturn w.1 w.2.1
    else t) s

/-- The armed launches bound to the slot at an address (R139). -/
def State.armedAt (s : State) (a : Nat) : List Nat :=
  (s.launches.filter fun p => p.2.state == .armed && (match p.2.arm with
    | some (c, n) => decide ((s.crew c).slotAddr n.val = a)
    | none => false)).map (·.1)

/-- After n completed phases: waiting sheaves wake, and an armed launch fires once (R243). -/
def State.phasesDone (s : State) (a n : Nat) : State :=
  if n = 0 then s else
  let s := if (Bar.of (s.slotRead a)).arm then
      let x := s.slotRead a
      (s.armedAt a).foldl State.fire (s.slotWrite a (Bar.put { Bar.of x with arm := false } x))
    else s
  s.wakeWaiters a n

/-- An arrival of a count on the slot at a package address (R243). -/
def State.arrive (s : State) (a n : Nat) : State :=
  if n = 0 then s else
  if s.badGranules a 32 ≠ [] then s.containGranule (a / 32) else
  let x := s.slotRead a
  let b := Bar.of x
  match b.complete (b.cnt.toNat + n) with
  | (b', done) => (s.slotWrite a (b'.put x)).phasesDone a done

/-- A faulted arrival (R243): FLT, and the first code and address; parked sheaves trap, and armed launches are
discarded (R139). -/
def State.arriveFault (s : State) (a : Nat) (code : Byte) (faddr : BitVec 56) : State :=
  if s.badGranules a 32 ≠ [] then s.containGranule (a / 32) else
  let x := s.slotRead a
  let b := Bar.of x
  let b' := if b.fcode = 0 then { b with flt := true, fcode := code, faddr := faddr } else { b with flt := true }
  let s := s.slotWrite a (b'.put x)
  let s := (s.armedAt a).foldl (fun (t : State) n => t.discard n 2 0 (BitVec.ofNat 56 a)) s
  s.wakeWaiters a 0

/-- The sheaves of a crew that have not ended (R248). -/
def State.liveSheaves (s : State) (c : Crew) : List Nat :=
  c.sheaves.filter fun k => !(s.sheaf k).ended

/-- Releases the slots parked on a crew or span barrier. -/
def Sheaf.unpark (sh : Sheaf) (p : SlotPark) : Sheaf :=
  let f := fun (sl : PcSlot) => if sl.park = some p then { sl with park := none } else sl
  { sh with a := f sh.a, b := f sh.b }

/-- The rounds of the crew and span barriers of a crew that are complete, each a fence towards threads on other cores (R248,
R117). -/
def State.rounds (s : State) (cid : Nat) : State :=
  let c := s.crew cid
  let s := if 0 < c.cbar ∧ (s.liveSheaves c).length ≤ c.cbar then
      let t := c.sheaves.foldl (fun (t : State) k => t.modSheaf k (·.unpark .cbar)) (s.modCrew cid fun x => { x with cbar := 0 })
      if c.sheaves.any fun q => (s.sheaf q).win.isSome then t.dropCtx c.core (t.ctxOf (c.sheaves.headD 0)) else t
    else s
  let p := s.span c.span
  let all := p.crews.map s.crew
  if 0 < p.sbar ∧ ((all.map fun x => (s.liveSheaves x).length).sum) ≤ p.sbar then
    let s := s.modSpan c.span fun x => { x with sbar := 0 }
    all.foldl (fun (t : State) x =>
      (x.sheaves.foldl (fun (u : State) k => u.modSheaf k (·.unpark .sbar)) t).dropCtx x.core (t.ctxOf (x.sheaves.headD 0))) s
  else s

/-! Refilling (R31) and the end of a sheaf (R32). -/

/-- The open window's record is the one at an index. -/
def Sheaf.isWindow (sh : Sheaf) (i : Nat) : Bool := match sh.win with
  | some w => w.entry == i
  | none => false

/-- The topmost record, at word 0 index i, is complete (R31, R291). -/
def Sheaf.recordComplete (sh : Sheaf) (i : Nat) : Bool :=
  !(sh.a.live && sh.a.gov == i) && !(sh.b.live && sh.b.gov == i) && !(sh.win.any fun w => w.entry == i && w.away != 0)

/-- Makes a free PC slot live. -/
def PcSlot.start (pc : Word64) (mask : Word32) (gov : Nat) : PcSlot := { PcSlot.free with live := true, pc := pc, mask := mask, gov := gov }

/-- The code region of a sheaf: that of its launch's entry, or of a fragment's continuation. -/
def State.codeRegion (s : State) (k : Nat) : Word64 :=
  let sh := s.sheaf k
  match s.launchOf k with
  | some l => l.record.entry
  | none => sh.codeBase

/-- One act of R31 for a sheaf with a free PC slot; none when there is nothing to do. -/
def State.refillOnce (s : State) (k : Nat) : Option State :=
  let sh := s.sheaf k
  if sh.a.live ∧ sh.b.live then none else
  let b := sh.a.live
  let base := s.codeRegion k
  match sh.returns with
  | c :: cs =>
    let gov := match sh.win with
      | some w => w.entry
      | none => 63
    let s := s.modSheaf k fun x =>
      ({ x with returns := cs }).setSlot b (PcSlot.start c.pc c.mask gov)
    match c.trap with
    | some t => some (s.takeTrap k b t)
    | none =>
    if c.fcode = 0 then some s
    else
      let s := s.modSheaf k fun x =>
        { x.modSlot b fun sl => { sl with replayPc := c.pc, replayIdx := 0 } with
          redepart := x.redepart ||| c.mask
          redHops := (c.mask, c.hops) :: x.redHops }
      some (s.takeTrap k b ⟨kindOf c.fcode, c.fcode, c.mask, c.faddr, c.pc, s.opcAt k c.pc, 0, false⟩)
  | [] =>
    if sh.depth = 0 then none else
    let top := s.stackGet k (sh.depth - 1)
    if entryKind top = 1 then
      let gov := s.nearestRecord k (sh.depth - 1)
      some (s.modSheaf k fun x =>
        ({ x with depth := x.depth - 1 }).setSlot b (PcSlot.start (entryPc base top) (entryMask top) gov))
    else if entryKind top = 3 ∧ 2 ≤ sh.depth ∧ sh.recordComplete (sh.depth - 2) then
      let w0 := s.stackGet k (sh.depth - 2)
      let i := sh.depth - 2
      let j := entryPc base w0
      let pc := if entryRa top then j else j + 8
      some (s.modSheaf k fun x =>
        let x := { x with depth := x.depth - 2, win := if x.isWindow i then none else x.win }
        if entryMask w0 = 0 then x else x.setSlot b (PcSlot.start pc (entryMask w0) (entryParent top)))
    else none

/-- Refills while it can; each act pops an entry or a return. -/
def State.refillFuel : Nat → State → Nat → State
  | 0, s, _ => s
  | f + 1, s, k => match s.refillOnce k with
    | none => s
    | some t => State.refillFuel f t k

/-- A sheaf whose slots are free and whose stack is empty has ended; its crew may retire, and a barrier round may
complete (R32, R138, R248). A fragment so ended leaves its visiting slot. -/
def State.checkEnd (s : State) (k : Nat) : State :=
  let sh := s.sheaf k
  if sh.a.live || sh.b.live || sh.depth != 0 || !sh.returns.isEmpty || sh.ended then s
  else if sh.frag.isSome then s.freeVisitor k
  else
    let s := (s.modSheaf k fun x => { x with ended := true }).rounds sh.crew
    if (s.liveSheaves (s.crew sh.crew)).isEmpty then s.later (.crewRetire sh.crew) else s

/-- The granules of a sheaf's stack, and of n entries above it, with uncorrectable errors (R414). -/
def State.badStack (s : State) (k n : Nat) : List Nat :=
  if (s.sheaf k).frag.isSome then [] else s.badGranules (s.stackAddr k 0) (8 * ((s.sheaf k).depth + n))

/-- A sheaf at home that a pre-emption or a checkpoint has stopped. -/
def State.stopped (s : State) (k : Nat) : Bool :=
  (s.sheaf k).frag.isNone && (s.checkpoint || (s.span (s.sheaf k).span).state == .saving)

/-- Refills the PC slots of a sheaf and notes its end, unless it is stopped; an entry that cannot be read discards the
launch. -/
def State.refill (s : State) (k : Nat) : State :=
  if s.stopped k then s
  else if s.badStack k 0 ≠ [] then s.contain (s.badStack k 0) (s.sheaf k).launch
  else (s.refillFuel 80 k).checkEnd k

/-! Issue. -/

/-- A register an instruction names: its site (R389), whether it is read or written, and the tag it must carry. -/
structure Use where
  site : Nat
  reg : Reg
  rd : Bool
  wr : Bool
  tag : Option (BitVec 4)
  deriving DecidableEq, Repr

/-- A source. -/
def Use.src (site : Nat) (r : Reg) : Use := ⟨site, r, true, false, none⟩

/-- A destination, site 4. -/
def Use.dst (r : Reg) : Use := ⟨4, r, false, true, none⟩

/-- The checks of steps 4 to 11 of Table 19-1 that an instruction needs: privilege, attested debug mode, no destination
among its sources (R163), its registers, barrier slots and tiles. -/
structure Checks where
  priv : Bool := false
  dbg : Bool := false
  noOverlap : Bool := false
  uses : List Use := []
  slots : List Nat := []
  tiles : List Nat := []
  deriving DecidableEq, Repr

/-- Attested debug mode of a context (R352). -/
def State.attested (s : State) (ctx : Nat) : Bool := (s.ctx ctx).dbg && s.host.pdbg

/-- The first use, by site, that a check refuses. -/
def firstUse (us : List Use) (p : Use → Bool) : Option Use :=
  (us.filter p).foldl (fun best u => match best with
    | none => some u
    | some v => if u.site < v.site then some u else some v) none

/-- The PC slot whose instruction executes. -/
def State.focusSlot (s : State) : PcSlot := (s.sheaf s.focus).slot s.focusB

/-- Steps 7 to 11 of Table 19-1. -/
def State.checkUses (s : State) (k : Nat) (h : Hdr) (c : Checks) (exec : Word32) : Option TrapInfo :=
  let sh := s.sheaf k
  let cr := s.crew sh.crew
  let t := fun (kind detail : Byte) => some (TrapInfo.mk kind detail exec 0)
  let overlap := if c.noOverlap then
      firstUse c.uses fun u => u.rd && c.uses.any fun w => w.wr && decide (w.reg = u.reg)
    else none
  match overlap with
  | some u => t 0x09 (BitVec.ofNat 8 u.site)
  | none =>
  match firstUse c.uses fun u => sh.pending u.reg with
  | some u => t 0x04 (BitVec.ofNat 8 u.site)
  | none =>
  match firstUse c.uses fun u => (match u.reg with
    | .v r => decide (sh.vcount ≤ r)
    | _ => false) with
  | some u => t 0x07 (BitVec.ofNat 8 u.site)
  | none =>
  match c.slots.find? fun n => (Tab.find s.crews sh.crew).all fun x => decide (x.bar ≤ n) with
  | some n => t 0x10 (BitVec.ofNat 8 n)
  | none =>
  match c.tiles.find? fun n => decide (cr.tiles.length ≤ n) with
  | some n => t 0x11 (BitVec.ofNat 8 n)
  | none =>
  if sh.strict && s.staleReg k (.p h.gp.val) then t 0x06 0
  else match (if sh.strict then firstUse c.uses fun u => u.rd && s.staleReg k u.reg else none) with
  | some u => t 0x06 (BitVec.ofNat 8 u.site)
  | none =>
  let found := fun (r : Reg) => match r with
    | .v r => (s.readV k r).fmt
    | _ => 0
  match firstUse c.uses fun u => (match u.tag with
    | none => false
    | some w => u.rd && found u.reg != 0 && found u.reg != w) with
  | some u => t 0x05 (found u.reg ++ BitVec.ofNat 4 u.site)
  | none => none

/-- The guard's lanes of a PC slot (R152). -/
def State.guard (s : State) (k : Nat) (h : Hdr) : Word32 :=
  let p := s.readP k h.gp.val
  if h.gn then ~~~p else p

/-- How an instruction goes on: to the next one, as it has arranged itself, not now as it has arranged itself, or again
from the start, with the replay mask it was given. -/
inductive Flow where
  | next
  | own
  | stay
  | wait
  deriving DecidableEq, Repr

/-- The instructions of R211, which a near-memory unit does not execute. -/
def coreOnly : Instr → Bool
  | .vfdiv .. | .vrcp .. | .vrsq .. | .vsqrt .. | .vexp2 .. | .vlog2 .. | .vsin .. | .vcos .. | .vtanh .. | .vpack ..
  | .vunpk .. | .vquant .. | .vdeq .. | .vsplit6 .. | .vjoin6 .. | .vdot8 .. | .vdot4 .. => true
  | .vcvt _ dt st _ _ _ _ => dt == .f16 || dt == .bf16 || st == .f16 || st == .bf16
  | _ => false

/-- The instructions that send a fragment home from a place (Table 13-5). -/
def sendsHome (k : Nat) (i : Instr) : Bool :=
  match i with
  | .exit _ | .mcall .. | .trap .. | .tret _ | .bkpt .. | .waita .. | .calli .. | .xacq .. | .xrel _ | .ctxsave ..
  | .ctxload .. | .lread .. | .abwait .. | .cbar _ | .sbar _ => true
  | _ =>
    let c := (encodeRaw i).cls
    c == 0x9 || c == 0xA || c == 0xC || c == 0xD || c == 0xE || (nearMem k && coreOnly i)

/-- After an instruction has issued: its switch marker takes effect (R39), and free slots fill (R31). -/
def State.finish (s : State) (k : Nat) (h : Hdr) : State := (s.mark k h.sw).refill k

/-- An instruction that has issued and ends later holds its sheaf: one that blocks, ABWAIT, and an explicit XACQ. -/
def Sheaf.held (sh : Sheaf) : Bool := sh.block.isSome || (match sh.park with
  | some (.abwait _ _ _ _) => true
  | some (.xacq _ _ i) => !i
  | _ => false)

/-- The slot stands at the instruction that a memory fault left it at, outside its handler (R404, R407). -/
def PcSlot.atReplay (sl : PcSlot) (idx : Nat) : Bool := !sl.active && sl.replayPc == sl.pc && sl.replayIdx == idx

/-- The replay mask applies to the instruction the slot stands at (R404). -/
def PcSlot.isReplay (sl : PcSlot) (idx : Nat) : Bool := sl.replay != 0 && sl.atReplay idx

/-- The lanes of the slot that may execute: those of the replay mask, when it applies to this instruction (R404). -/
def PcSlot.lanes (sl : PcSlot) (idx : Nat) : Word32 := if sl.isReplay idx then sl.mask &&& sl.replay else sl.mask

/-- The replay mask returns to 0 once its instruction has issued without a trap (R404, R405); a handler's instructions
leave it. -/
def State.replayed (s : State) (k : Nat) (b : Bool) : State :=
  s.modSlot k b fun sl => if sl.active then sl else { sl with replay := 0 }

/-- A register holds an uncorrectable error (R370, R414). -/
def State.badReg (s : State) (k : Nat) : Reg → Bool
  | .v r => match vphys k (s.sheaf k) r with
    | some i => s.badRegs.contains i
    | none => false
  | .s r => s.badWords.contains (.scalar k r)
  | .p r => s.badWords.contains (.pred k r)

/-- A register of a set, within those that the sheaf holds, has an uncorrectable error. -/
def State.badCarry (s : State) (k : Nat) (m : RegMask) : Bool :=
  !(s.badRegs.isEmpty && s.badWords.isEmpty) && (m.vregs.any (fun r => s.badReg k (.v r)) ||
    m.sregs.any (fun r => s.badReg k (.s r)) || m.pregs.any fun r => s.badReg k (.p r))

/-- An instruction that executes in a mask of lanes finds a register with an uncorrectable error: its guard, a source, or a
destination that it writes only in part (R414). -/
def State.badUse (s : State) (k : Nat) (h : Hdr) (us : List Use) (exec : Word32) : Bool :=
  s.badReg k (.p h.gp.val) || us.any fun u => (u.rd || (exec != 0xFFFFFFFF && (match u.reg with
    | .s _ => false
    | _ => true))) && s.badReg k u.reg

/-- The index of the operation at which a PC slot stands in its microprogram. -/
def PcSlot.index (sl : PcSlot) : Nat := match sl.micro with
  | some m => m.idx
  | none => 0

/-- The lanes that may execute before the guard: those of the slot, and inside a microprogram those of the Exec of its MCALL
(R45). -/
def PcSlot.active0 (sl : PcSlot) : Word32 := match sl.micro with
  | some m => sl.lanes sl.index &&& m.exec
  | none => sl.lanes sl.index

/-- Exec (R152), and the rest of what an effect is given. -/
def State.ex (s : State) (i : Instr) (h : Hdr) : Ex :=
  let sl := s.focusSlot
  ⟨s.focus, s.focusB, sl.active0 &&& s.guard s.focus h, sl.pc, opcBits (encode i), sl.index, sl.micro.isSome,
    if sl.active then 0 else (s.sheaf s.focus).noMig &&& sl.mask,
    if sl.atReplay sl.index then (s.sheaf s.focus).redepart &&& sl.mask else 0⟩

/-- A sheaf whose slot issues an instruction: the slot that issued last; its lanes that a refusal keeps here or that depart
again are so for this one instruction (R298, R407), and a replay mask that applies to another instruction returns to 0
(R404). -/
def Sheaf.issued (y : Sheaf) (b : Bool) : Sheaf :=
  let sl := y.slot b
  let z := { y with
    lastB := b
    yielded := false
    readyAt := none
    marked := false
    noMig := if sl.active then y.noMig else y.noMig &&& ~~~sl.mask
    redepart := if sl.active then y.redepart else y.redepart &&& ~~~sl.mask }
  if sl.active || sl.isReplay sl.index then z else z.modSlot b fun w => { w with replay := 0 }

/-- The state in which an instruction is checked: its core has selected its slot. -/
def State.picked (s : State) (x : Ex) : State :=
  (s.modSheaf x.k fun y => y.issued x.b).modCore (unitOf x.k) fun y => { y with lastSlot := slotOf x.k }

/-- Steps 4 to 6 of Table 19-1: privilege, attested debug mode, a pending guard. -/
def State.checkEarly (s : State) (k : Nat) (h : Hdr) (c : Checks) (mask : Word32) : Option TrapInfo :=
  let ctx := s.ctxOf k
  if c.priv ∧ !(s.ctx ctx).priv then some ⟨0x02, 0, mask, 0⟩
  else if c.dbg ∧ !s.attested ctx then some ⟨0x02, 1, mask, 0⟩
  else if (s.sheaf k).pending (.p h.gp.val) then some ⟨0x04, 0, mask, 0⟩
  else none

/-- An instruction has no effect, and its trap is taken. -/
def State.trapped (s : State) (x : Ex) (h : Hdr) (t : TrapInfo) : State :=
  (s.takeTrap x.k x.b (x.trap t)).finish x.k { h with sw := false }

/-- How an instruction goes on after its effect; one that waits keeps the replay mask it was given, and the lanes that a
refusal keeps here or that depart again. -/
def State.goOn (t : State) (i : Instr) (h : Hdr) (x : Ex) (replay : Word32) : Flow → State
  | .next => (t.advance x.k x.b i.bytes).finish x.k h
  | .own => t.finish x.k h
  | .stay => t.mark x.k (h.sw && (t.sheaf x.k).held)
  | .wait =>
    (t.modSlot x.k x.b fun z => { z with replay := replay }).modSheaf x.k fun y =>
      { y with noMig := y.noMig ||| x.stay, redepart := y.redepart ||| x.redep }

/-- Issues an instruction: the checks of Table 19-1 in order, its effect, and what follows it. The effect is given Exec
and answers the first trap of steps 12 to 14, or how the instruction goes on. Where a fragment has diverged and one of its slots
reaches an instruction that it does not execute, that slot's lanes go home and its other paths stay: R211 and R296 say 'the
fragment', but a continuation has one PC (DESIGN CHOICE, log entry 125). -/
def issue (i : Instr) (h : Hdr) (c : Checks) (eff : Ex → State → Except TrapInfo (Flow × State)) (s : State) : State :=
  let x := s.ex i h
  let sl := s.focusSlot
  if !sl.live then s
  else if (s.sheaf x.k).frag.isSome && sendsHome x.k i then
    (s.fragReturn x.k x.b sl.mask sl.pc 2 0 0 0).refill x.k
  else
    let u := s.picked x
    match u.checkEarly x.k h c sl.mask with
    | some t => u.trapped x h t
    | none =>
    if x.exec = 0 then (u.replayed x.k x.b).goOn i h x sl.replay .next
    else match u.checkUses x.k h c x.exec with
    | some t => u.trapped x h t
    | none =>
      if u.badUse x.k h c.uses x.exec then
        u.discardAt (u.sheaf x.k).launch 0 0 0 (nodeOfUnit (unitOf x.k))
      else
      match eff x (u.replayed x.k x.b) with
      | .error t => u.tick.trapped x h t
      | .ok (f, t) => t.goOn i h x sl.replay f

/-! What statements say of an instruction that issues. -/

/-- The state in which the effect of an instruction is computed: its core has selected its slot, and a replay mask has
been used (R36, R404). -/
def State.entered (s : State) (i : Instr) (h : Hdr) : State :=
  let x := s.ex i h
  (s.picked x).replayed x.k x.b

/-- The instruction executes in some lane and no check of steps 4 to 11 of Table 19-1 refuses it: its slot is live, it is not
one that sends the fragment home, its guard is not pending, Exec is not empty, its privilege, registers, barrier slots and
tiles pass, and no register that it reads, or writes in part, holds an uncorrectable error. -/
def State.issues (s : State) (i : Instr) (h : Hdr) (c : Checks) : Bool :=
  let x := s.ex i h
  let u := s.picked x
  s.focusSlot.live && !((s.sheaf x.k).frag.isSome && sendsHome x.k i) &&
    (u.checkEarly x.k h c s.focusSlot.mask).isNone && x.exec != 0 && (u.checkUses x.k h c x.exec).isNone &&
    !u.badUse x.k h c.uses x.exec

/-- The state after an instruction whose effect is f and which goes on in a way. -/
def State.after (s : State) (i : Instr) (h : Hdr) (w : Flow) (f : Ex → State → State) : State :=
  let x := s.ex i h
  (f x (s.entered i h)).goOn i h x s.focusSlot.replay w

/-- The state after an instruction of effect f, which goes on to the next instruction. -/
def State.completed (s : State) (i : Instr) (h : Hdr) (f : Ex → State → State) : State := s.after i h .next f

/-- The effect of an instruction that cannot trap in steps 12 to 14 and goes on to the next. -/
def simple (f : Ex → State → State) (x : Ex) (s : State) : Except TrapInfo (Flow × State) := .ok (.next, f x s)

/-- An instruction that finds no uncorrectable error in what it reads; the launches of one that does are discarded
(R414). -/
def whenSound (x : Ex) (bad : List Nat) (s : State) (r : Except TrapInfo (Flow × State)) : Except TrapInfo (Flow × State) :=
  if bad = [] then r else .ok (.stay, s.contain bad (s.sheaf x.k).launch)

/-- The outcome of a step of this machine. -/
abbrev Out := Host.Outcome State Fault Refusal

/-! Selection (R35, R36). -/

/-- A block of the place is being moved (R51). -/
def State.moving (s : State) (k : Nat) : Bool :=
  !nearMem k && (match (s.core (unitOf k)).move with
    | some (a, _) => (s.sheaf k).vbase == some a || ((s.sheaf k).ext.map (·.start)) == some a
    | none => false)

/-- A PC slot may issue (R36): live, not parked, no trap of the slot waiting and none active in the other slot (R34), no
blocking instruction of the sheaf under way but its own (R172), its launch and span running. -/
def State.ready (s : State) (k : Nat) (b : Bool) : Bool :=
  let sh := s.sheaf k
  let sl := sh.slot b
  let own := sh.block == some (.retry b)
  (!s.checkpoint || own) &&
  sl.live && sl.park.isNone && sl.waiting.isNone && sh.park.isNone && !sh.atMarker && !s.moving k && !(sh.slot (!b)).active && !sh.ended &&
    (sh.block.isNone || own) &&
    (match s.launchOf k with
      | some l => l.state == .active
      | none => false) &&
    (match sh.frag with
      | some f => f.recalled.isNone
      | none => (s.span sh.span).state == .running || ((s.span sh.span).state == .saving && own))

/-- The ready PC slots, each with its place. -/
def State.readySlots (s : State) : List (Nat × Bool) :=
  (s.sheaves.map fun p => ([false, true].filter fun b => s.ready p.1 b).map fun b => (p.1, b)).flatten

/-- An element of a list by a free number; of one element, that element. -/
def pick {α : Type} (l : List α) (n : Nat) : Option α :=
  match l with
  | [] => none
  | [x] => some x
  | x :: y :: t => (x :: y :: t)[n % (t.length + 2)]?

/-- The rank of a place in its core's selection (R36): aged first, then priority, then round robin after the slot that
issued last, a sheaf that yielded behind the others of its priority. Smaller is earlier. -/
def State.rank (s : State) (k : Nat) : Nat :=
  let sh := s.sheaf k
  let aged : Bool := match sh.readyAt with
    | some t => decide (t + 1024 ≤ s.time)
    | none => false
  let round := (slotOf k + 23 - (s.core (unitOf k)).lastSlot) % 24
  (if aged then 0 else 1000) + (3 - s.prioOf k) * 100 + (if sh.yielded then 50 else 0) + round

/-- The first of the places by rank. -/
def State.firstByRank (s : State) : List Nat → Option Nat
  | [] => none
  | k :: t => match State.firstByRank s t with
    | none => some k
    | some j => if s.rank j < s.rank k then some j else some k

/-- The PC slot that issues next: the core is a free choice, and so is which of its PC slots have had their instruction
fetched (R149); among those R36 decides, and a sheaf issues from the one that did not issue last, unless only the other is
ready (R35). -/
def State.select (s : State) : Option (Nat × Bool) :=
  let ps := s.readySlots
  match pick ps (Config.choose s.choices) with
  | none => none
  | some p =>
    let mine := ps.filter fun q => unitOf q.1 == unitOf p.1
    let fetched := if mine.length = 1 then mine else mine.filter fun q =>
      q == p || Config.choose (s.choices + 1 + 2 * slotOf q.1 + q.2.toNat) % 2 == 1
    match s.firstByRank (fetched.map (·.1)) with
    | none => none
    | some k =>
      let l := (s.sheaf k).lastB
      some (k, if fetched.contains (k, !l) then !l else l)

/-- Notes since when each sheaf has been ready. -/
def State.noteReady (s : State) : State :=
  { s with sheaves := s.sheaves.map fun p =>
    (p.1, { p.2 with readyAt := if s.ready p.1 false || s.ready p.1 true then some (p.2.readyAt.getD s.time) else none }) }

/-- The PC past the pad words from a PC on; a code region has 2^30 words. -/
def State.overPads (s : State) (k : Nat) : Nat → Word64 → Word64
  | 0, pc => pc
  | f + 1, pc => match s.fetchBlock k pc with
    | .error _ => pc
    | .ok bs => if 4 ≤ bs.length ∧ bs.getD 0 0 &&& 3 = 3 then State.overPads s k f (pc + 4) else pc

/-- A PC slot of a sheaf past the pad words that it stands at: a sheaf is never stopped at a pad (R148). -/
def State.offPads (s : State) (k : Nat) (sl : PcSlot) : PcSlot :=
  if sl.live && sl.micro.isNone && sl.waiting.isNone then { sl with pc := s.overPads k (2 ^ 30) sl.pc } else sl

/-- No sheaf stands at a pad word; one that has ended fetches nothing. -/
def State.skipPads (s : State) : State :=
  { s with sheaves := s.sheaves.map fun p =>
    (p.1, if p.2.ended || p.2.block.isSome then p.2
      else { p.2 with
        a := s.offPads p.1 p.2.a
        b := s.offPads p.1 p.2.b }) }

/-- Time passes: at least one core cycle, and a free number of nanoseconds (log entry 9). An error in the control state has
been found by then (R372), and hold times end on time (R343). -/
def State.pass (s : State) : State :=
  let s := s.controlFault.skipPads.noteReady
  State.endReservations { s with
    time := s.time + 1 + Config.stepCycles s.choices
    nanos := s.nanos + Config.stepNanos s.choices
    choices := s.choices + 1 }

/-- What a step does meets free values and choices that nothing before it, its selection included, has used (log
entry 2). -/
def State.begun (s : State) : State :=
  { s with
    frees := s.frees + 1
    choices := s.choices + 50 }

/-- Whether a due event comes before the next instruction: always when nothing can issue, otherwise a free choice. -/
def State.eventFirst (s : State) : Bool :=
  match s.due with
  | [] => false
  | _ => s.readySlots.isEmpty || Config.choose (s.choices + 49) % 2 == 1

/-- The due event that comes next, and the others. -/
def State.nextEvent (s : State) : Option (Event × List Event) :=
  match s.due with
  | [] => none
  | [e] => some (e, [])
  | e :: f :: t =>
    let i := Config.choose s.choices % (t.length + 2)
    match (e :: f :: t)[i]? with
    | none => none
    | some x => some (x, (e :: f :: t).eraseIdx i)

end Sys2Proof.Machine
end

