-- ==== Sys2Proof/Machine/Operands.lean ====
section
/-!
DEFINITION. Every operand form: the width and tag of a type (R64), scalar, vector and immediate sources (R154 to R158),
the registers they name with their sites (R389) and tags (R66), and the addresses of memory operands (R231, R232).
-/

namespace Sys2Proof.Machine

open Sys2Proof

/-- The format tag a type implies (Table 3-5). -/
def tyTag : Ty → BitVec 4
  | .i4 | .i8 | .i16 | .i32 | .n4 | .n8 | .n16 | .n32 => 0xD
  | .f16 | .f16x2 => 2
  | .bf16 | .bf16x2 => 3
  | .f32 => 1
  | .f64 => 0xE
  | .e4m3 => 4
  | .e5m2 => 5
  | .e2m1 => 6
  | .e8m0 => 0xF
  | .e3m2 => 7
  | .e2m3 => 9
  | .i8x4 => 0xB
  | .i4x8 => 0xC
  | .none | .b32 | .b64 | .i64 | .n64 => 0

/-- The tag an operand of a type must carry; b32 and b64 accept every tag (R66). -/
def tyWant : Ty → Option (BitVec 4)
  | .b32 | .b64 => none
  | t => some (tyTag t)

/-- The low-plane tag of a six-bit type (Table 3-4). -/
def lowPlane : Ty → BitVec 4
  | .e3m2 => 8
  | _ => 0xA

/-- The scalar register or immediate of operand B of a scalar instruction (R158, R184). -/
def State.ssrc (s : State) (k : Nat) : SSrc → Word64
  | .r x => s.readS k x.val
  | .imm x => x.signExtend 64

/-- The uses of operand B of a scalar instruction. -/
def ssrcUses : SSrc → List Use
  | .r x => [.src 2 (.s x.val)]
  | .imm _ => []

/-- The uses of a vector register source of a type at a site: the pair's second register is at site 5. -/
def vregUses (site : Nat) (ty : Ty) (r : Nat) (want : Option (BitVec 4)) : List Use :=
  if ty.is64 then [⟨site, .v r, true, false, want⟩, ⟨5, .v (r + 1), true, false, want⟩] else [⟨site, .v r, true, false, want⟩]

/-- The uses of a vector source (R155). -/
def srcUses (site : Nat) (ty : Ty) (want : Option (BitVec 4)) : VSrc → List Use
  | .v r => vregUses site ty r.val want
  | .s r => [.src site (.s r.val)]

/-- The uses of a source of a type, with the tag it implies. -/
def srcTyped (site : Nat) (ty : Ty) (x : VSrc) : List Use := srcUses site ty (tyWant ty) x

/-- The uses of operand B of a vector instruction. -/
def bsrcTyped (ty : Ty) : BSrc → List Use
  | .r x => srcTyped 2 ty x
  | .imm _ => []

/-- The uses of a vector destination. -/
def vdst (ty : Ty) (r : VReg) : List Use :=
  if ty.is64 then [.dst (.v r.val), ⟨5, .v (r.val + 1), false, true, none⟩] else [.dst (.v r.val)]

/-- The uses of a destination that is merged: read as well (R207). -/
def vmerge (r : VReg) (want : Option (BitVec 4)) : List Use := [⟨4, .v r.val, true, true, want⟩]

/-- Lane L of a vector source of a type, in the low bits of 64 (R155, R156). -/
def State.vsrc (s : State) (k : Nat) (ty : Ty) (L : Nat) : VSrc → Word64
  | .v r => if ty.is64 then s.laneV64 k r.val L else (s.laneV k r.val L).setWidth 64
  | .s r => if ty.is64 then s.readS k r.val else ((s.readS k r.val).setWidth 32).setWidth 64

/-- A 32-bit lane of a vector source. -/
def State.vsrc32 (s : State) (k : Nat) (L : Nat) (x : VSrc) : Word32 := (s.vsrc k .b32 L x).setWidth 32

/-- An immediate operand B of a type (R158). -/
def immB (ty : Ty) (x : Word32) : Word64 :=
  match ty with
  | .i64 | .n64 | .b64 => x.signExtend 64
  | .f64 => BitVec.ofNat 64 (fmtF64.round .rne 0 false (fmtF32.decode x.toNat))
  | _ => x.setWidth 64

/-- Lane L of operand B. -/
def State.bsrc (s : State) (k : Nat) (ty : Ty) (L : Nat) : BSrc → Word64
  | .r x => s.vsrc k ty L x
  | .imm x => immB ty x

/-- Writes the lanes of Exec of a destination of a type with a tag. -/
def State.writeTy (s : State) (x : Ex) (ty : Ty) (d : VReg) (tag : BitVec 4) (f : Nat → Word64) : State :=
  if ty.is64 then s.writeV64 x.k d.val x.exec f tag
  else s.writeV x.k d.val x.exec (fun L => (f L).setWidth 32) tag

/-! Memory operands. -/

/-- The offset of a memory operand (Table 11-1). -/
def offValue : Off → Int
  | .imm8 x => x.toInt
  | .imm32 x => x.toInt

/-- The index in a lane: a 32-bit signed value, or a pair for LDX and STX (R232). -/
def State.idxValue (s : State) (k : Nat) (pair : Bool) (L : Nat) : Option VSrc → Int
  | none => 0
  | some x => if pair then (s.vsrc k .b64 L x).toNat else (s.vsrc32 k L x).toInt

/-- The base of a memory operand, 64 bits without a sign. For a virtual address, a sum modulo 2^64, the sign is no question; for
the exact sum of a region offset R232 does not give one, and a base with bit 63 set lies past every region (DESIGN CHOICE, log
entry 125). -/
def State.baseValue (s : State) (k : Nat) : Option SReg → Int
  | none => 0
  | some r => (s.readS k r.val).toNat

/-- The sum base + index + offset of a lane, exact (R232). -/
def State.memSum (s : State) (k : Nat) (m : Mem) (pair : Bool) (L : Nat) : Int :=
  s.baseValue k m.base + s.idxValue k pair L m.idx + offValue m.off

/-- The uses of a memory operand: base at site 1, index at site 2 read as int32, or as a pair typed i64 would be for
LDX and STX. -/
def memUses (m : Mem) (pair : Bool) : List Use :=
  (match m.base with
    | some r => [Use.src 1 (.s r.val)]
    | none => []) ++
  (match m.idx with
    | some x => if pair then srcUses 2 .b64 (some 0xD) x else srcUses 2 .b32 (some 0xD) x
    | none => [])

/-- Bytes per lane of an access (Table 11-3). -/
def tyBytes : Ty → Nat
  | .i8 | .n8 => 1
  | .i16 | .n16 | .f16 | .bf16 => 2
  | .b64 | .i64 | .n64 | .f64 => 8
  | _ => 4

/-- What a load writes to a lane from the bytes it read (Table 11-3). -/
def loadValue (ty : Ty) (bs : List Byte) : Word64 :=
  let n := leNat bs
  match ty with
  | .i8 => ((BitVec.ofNat 8 n).signExtend 32).setWidth 64
  | .i16 => ((BitVec.ofNat 16 n).signExtend 32).setWidth 64
  | _ => BitVec.ofNat 64 n

/-- A result of a comparison as a scalar. -/
def boolWord (b : Bool) : Word64 := if b then 1 else 0

end Sys2Proof.Machine
end

