-- ==== Sys2Proof/Machine/Pool.lean ====
section
/-!
DEFINITION. Extended blocks: XACQ and the implicit XACQ of CALLI (R42, R49, R50), waiting requests, and the condition under
which the compactor moves (R51).
-/

namespace Sys2Proof.Machine

open Sys2Proof

/-- The smallest block that covers n extended registers (R42). -/
def blockFor (n : Nat) : Nat := if n ≤ 32 then 32 else if n ≤ 64 then 64 else 128

/-- Free registers of an arena. -/
def arenaFree (b : Tab Nat) (arena : Nat) : Nat :=
  1024 - ((b.filter fun p => p.1 / 1024 == arena).map (·.2)).sum

/-- The head request cannot be met, but one arena holds enough free space (R51): the lowest-numbered such arena, where several
do (DESIGN CHOICE, log entry 105). -/
def State.compactArena (s : State) (core : Nat) : Option Nat :=
  let c := s.core core
  match c.waiting with
  | [] => none
  | r :: _ =>
    if (poolPlace c.blocks r.size).isSome || c.move.isSome then none
    else (List.range 3).find? fun a => r.size ≤ arenaFree c.blocks a

/-- XACQ of n registers (R49): true when the sheaf holds them now; otherwise the request waits behind earlier ones and
the sheaf parks (R36, R50). -/
def State.xacq (s : State) (k : Nat) (b : Bool) (n : Nat) (implicit : Bool) : State × Bool :=
  if n ≤ (s.sheaf k).xblk then (s, true)
  else
    let c := unitOf k
    match (if (s.core c).waiting = [] then s.takeBlock k n else none) with
    | some t => (t, true)
    | none =>
      let s := s.modCore c fun x => { x with waiting := x.waiting ++ [⟨k, b, n, implicit⟩] }
      let s := s.modSheaf k fun x => { x with park := some (.xacq b n implicit) }
      ((s.later (.extendedBlockGrant c)).later (.compactorMove c), false)

end Sys2Proof.Machine
end

