-- ==== Sys2Proof/Machine/Control.lean ====
section
/-!
DEFINITION. Control instructions, class 0x0 (R173 to R183), divergence and reconvergence (R29 to R32, R41).
-/

namespace Sys2Proof.Machine

open Sys2Proof

/-- A PC-relative target (R173). -/
def relTarget (pc : Word64) (off : BitVec 24) : Word64 :=
  pc.extractLsb' 32 32 ++ (pc.setWidth 32 + 4 * off.signExtend 32)

/-- A PC at a signed byte offset, within the code region. -/
def relPc (pc : Word64) (off : Word32) : Word64 := pc.extractLsb' 32 32 ++ (pc.setWidth 32 + off)

/-- CheckTarget (R173). -/
def targetOk (pc target : Word64) : Bool :=
  target.extractLsb' 0 2 == 0 && target.extractLsb' 32 32 == pc.extractLsb' 32 32

/-- The not-taken side takes the other slot if it is free, and is pushed as a path otherwise (R29). -/
def State.placeOther (s : State) (k : Nat) (b : Bool) (m : Word32) (pc : Word64) (gov : Nat) : State :=
  if ((s.sheaf k).slot (!b)).live then s.push k (pathEntry m pc)
  else s.modSlot k (!b) fun _ => PcSlot.start pc m gov

/-- Stack entries that a placement of a not-taken side needs. -/
def State.otherNeeds (s : State) (k : Nat) (b : Bool) : Nat := if ((s.sheaf k).slot (!b)).live then 1 else 0

/-- An instruction that needs stack entries: without room it traps (R32, R394), or sends a fragment home (R295). -/
def withStack (x : Ex) (need : Nat) (s : State) (f : State → Flow × State) : Except TrapInfo (Flow × State) :=
  let used := (s.sheaf x.k).depth + need
  if 0 < need ∧ s.badStack x.k need ≠ [] then
    .ok (.stay, s.contain (s.badStack x.k need) (s.sheaf x.k).launch)
  else if used ≤ s.stackMax x.k then .ok (f s)
  else if (s.sheaf x.k).frag.isSome then
    .ok (.own, s.fragReturn x.k x.b ((s.sheaf x.k).slot x.b).mask x.pc 2 0 0 0)
  else .error ⟨0x0B, BitVec.ofNat 8 (used - s.stackMax x.k), x.exec, 0⟩

/-- Moves the lanes of a mask of the slot to a PC. -/
def State.goTo (s : State) (x : Ex) (m : Word32) (pc : Word64) (gov : Nat) : State :=
  s.modSlot x.k x.b fun sl => { sl with pc := pc, mask := m, gov := gov }

/-- The branch of R175 for the lanes of a non-empty mask: taken as a whole, or diverging (R29), with a join record when
a reconvergence PC is given. -/
def branch (x : Ex) (target next : Word64) (j : Option Word64) (pre : State → State) (s : State) :
    Except TrapInfo (Flow × State) :=
  let sl := (s.sheaf x.k).slot x.b
  if x.exec = sl.mask then .ok (.own, (pre s).goTo x sl.mask target sl.gov)
  else
    let rest := sl.mask &&& ~~~x.exec
    withStack x (s.otherNeeds x.k x.b + (if j.isSome then 2 else 0)) s fun s =>
      let s := pre s
      match j with
      | some jp =>
        let gov := (s.sheaf x.k).depth
        let s := s.pushJoin x.k sl.mask jp sl.gov false
        (.own, (s.goTo x x.exec target gov).placeOther x.k x.b rest next gov)
      | none => (.own, (s.goTo x x.exec target sl.gov).placeOther x.k x.b rest next sl.gov)

/-- The trap of a target that fails CheckTarget. -/
def badTarget (x : Ex) : TrapInfo := ⟨0x0A, 1, x.exec, 0⟩

/-- PAD (R148): no effect; execution passes to PC + 4. -/
def execPad (_p : BitVec 30) (s : State) : Out :=
  .next (s.modSlot s.focus s.focusB fun sl => if sl.live then { sl with pc := sl.pc + 4 } else sl)

/-- NOP (0x000, R178). -/
def execNop (h : Hdr) (s : State) : Out := .next (issue (.nop h) h {} (simple fun _ t => t) s)

/-- BRA (0x001, XOP 0, R175). -/
def execBra (h : Hdr) (off : BitVec 24) (s : State) : Out :=
  .next (issue (.bra h off) h {} (fun x t => branch x (relTarget x.pc off) (x.pc + 8) none id t) s)

/-- BRA to a scalar target (0x001, XOP 1). -/
def execBraReg (h : Hdr) (a : SReg) (s : State) : Out :=
  .next (issue (.braReg h a) h { uses := [.src 1 (.s a.val)] } (fun x t =>
    let target := t.readS x.k a.val
    if targetOk x.pc target then branch x target (x.pc + 8) none id t else .error (badTarget x)) s)

/-- BRP (0x002, 64-bit form). -/
def execBrp (h : Hdr) (off : BitVec 24) (s : State) : Out :=
  .next (issue (.brp h off) h {} (fun x t => branch x (relTarget x.pc off) (x.pc + 8) none id t) s)

/-- BRP with reconvergence PC (0x002, 96-bit form, R29). -/
def execBrpJoin (h : Hdr) (off : BitVec 24) (j : Word32) (s : State) : Out :=
  .next (issue (.brpJoin h off j) h {} (fun x t =>
    branch x (relTarget x.pc off) (x.pc + 12) (some (relPc x.pc j)) id t) s)

/-- The governing record of a slot is one that a JOIN at a PC reaches (R31). -/
def State.arrivesAt (s : State) (k : Nat) (sl : PcSlot) (pc : Word64) : Bool :=
  sl.gov != 63 && (s.stackGet k sl.gov).extractLsb' 2 30 == pc.extractLsb' 2 30

/-- An arrival at the governing record frees the slot; any other JOIN does nothing (R31). -/
def joinAt (x : Ex) (s : State) : Flow × State :=
  let sl := (s.sheaf x.k).slot x.b
  if s.arrivesAt x.k sl x.pc then (.own, s.modSlot x.k x.b fun _ => PcSlot.free) else (.next, s)

/-- JOIN (0x003, R176). -/
def execJoin (h : Hdr) (s : State) : Out := .next (issue (.join h) h {} (fun x t => .ok (joinAt x t)) s)

/-- LOOP (0x004, R175): the counter is decremented once; at 0 no lane branches. -/
def execLoop (h : Hdr) (d : SReg) (off : BitVec 24) (s : State) : Out :=
  .next (issue (.loop h d off) h { uses := [⟨4, .s d.val, true, true, none⟩] } (fun x t =>
    let n := t.readS x.k d.val - 1
    if n = 0 then .ok (.next, t.writeS x.k d.val n)
    else branch x (relTarget x.pc off) (x.pc + 8) none (fun u => u.writeS x.k d.val n) t) s)

/-- CALL (0x005, XOP 0). -/
def execCall (h : Hdr) (d : SReg) (off : BitVec 24) (s : State) : Out :=
  .next (issue (.call h d off) h { uses := [.dst (.s d.val)] } (fun x t =>
    branch x (relTarget x.pc off) (x.pc + 8) none (fun u => u.writeS x.k d.val (x.pc + 8)) t) s)

/-- CALL to a scalar target (0x005, XOP 1): S[A] is read first. -/
def execCallReg (h : Hdr) (d a : SReg) (s : State) : Out :=
  .next (issue (.callReg h d a) h { uses := [.src 1 (.s a.val), .dst (.s d.val)] } (fun x t =>
    let target := t.readS x.k a.val
    if targetOk x.pc target then
      branch x target (x.pc + 8) none (fun u => u.writeS x.k d.val (x.pc + 8)) t
    else .error (badTarget x)) s)

/-- The governing record of a slot was pushed by a CALLI whose return address is a PC (R41). -/
def State.returnsTo (s : State) (k : Nat) (sl : PcSlot) (pc : Word64) : Bool :=
  sl.gov != 63 && entryRa (s.stackGet k (sl.gov + 1)) && (s.stackGet k sl.gov).extractLsb' 2 30 == pc.extractLsb' 2 30

/-- RET (0x007, R175, R41): an arrival where the target is the return address of the governing CALLI record. -/
def execRet (h : Hdr) (a : SReg) (s : State) : Out :=
  .next (issue (.ret h a) h { uses := [.src 1 (.s a.val)] } (fun x t =>
    let target := t.readS x.k a.val
    let sl := (t.sheaf x.k).slot x.b
    if !targetOk x.pc target then .error (badTarget x)
    else if t.returnsTo x.k sl target then
      .ok (.own, t.modSlot x.k x.b fun y =>
        if x.exec = y.mask then PcSlot.free else { y with mask := y.mask &&& ~~~x.exec, pc := x.pc + 8 })
    else branch x target (x.pc + 8) none id t) s)

/-- EXIT (0x008, R32). -/
def execExit (h : Hdr) (s : State) : Out :=
  .next (issue (.exit h) h {} (fun x t =>
    let t := t.exitRecords x.k x.exec
    .ok (.own, t.modSlot x.k x.b fun sl =>
      if x.exec = sl.mask then PcSlot.free else { sl with mask := sl.mask &&& ~~~x.exec, pc := x.pc + 8 })) s)

/-- YIELD (0x009, R178): ranked last at its next selection. -/
def execYield (h : Hdr) (s : State) : Out :=
  .next (issue (.yield h) h {} (simple fun x t => t.modSheaf x.k fun y => { y with yielded := true }) s)

/-- The trap of TRAP and BKPT: its record names the next instruction (R179, Table 18-8). -/
def State.softTrap (s : State) (x : Ex) (kind code : Byte) : State :=
  s.takeTrap x.k x.b { x.trap ⟨kind, 0, x.exec, code.setWidth 56⟩ with rpc := x.pc + 8 }

/-- TRAP (0x00A, R179): takes a software trap. -/
def execTrap (h : Hdr) (code : Byte) (s : State) : Out :=
  .next (issue (.trap h code) h {} (fun x t => .ok (.stay, t.softTrap x 0x14 code)) s)

/-- BKPT (0x00D, R179): a breakpoint trap in attested debug mode, otherwise as NOP. -/
def execBkpt (h : Hdr) (code : Byte) (s : State) : Out :=
  .next (issue (.bkpt h code) h {} (fun x t =>
    if t.attested (t.ctxOf x.k) then .ok (.stay, t.softTrap x 0x15 code) else .ok (.next, t)) s)

/-- The microprogram m of a core's control store (R44). -/
def State.micro (s : State) (core m : Nat) : Micro := Tab.get ⟨[], 0⟩ (s.core core).store m

/-- Where TRET resumes with INMC = 1: the word at RPC must be an MCALL whose microprogram holds the operation (R397,
R399). -/
def State.resumeMicro (s : State) (k : Nat) (b : Bool) (rpc : Word64) (idx : Nat) : Except TrapInfo MicroPos :=
  let sl := (s.sheaf k).slot b
  match s.fetchAt k rpc sl.mask with
  | .bad _ => .error ⟨0x01, 10, sl.mask, 0⟩
  | .trap t => if t.kind = 0x01 then .error ⟨0x01, 10, sl.mask, 0⟩ else .error ⟨t.kind, t.detail, t.lanes, t.addr⟩
  | .instr i => match i with
    | .mcall h p0 p1 p2 p3 m =>
      let mp := s.micro (unitOf k) m.val
      if idx < mp.count then .ok ⟨mp.image, mp.count, idx, #v[p0, p1, p2, p3], sl.mexec &&& sl.mask, h.sw, m.val⟩
      else .error ⟨0x01, 10, sl.mask, 0⟩
    | _ => .error ⟨0x01, 10, sl.mask, 0⟩

/-- Return from a trap (R179, R397): the slot resumes at RPC, and OPIDX, as they stand in s61 and s62; the handler ends
and the other slot may issue again. A trap found here meets an active trap and is not handled. -/
def State.trapReturn (s : State) (x : Ex) : State :=
  let rpc := s.readS x.k 61
  let r := s.readS x.k 62
  let bad := fun (t : TrapInfo) => s.takeTrap x.k x.b { x.trap t with rpc := rpc }
  if !targetOk x.pc rpc then bad ⟨0x0A, 1, x.exec, 0⟩
  else if r.getLsbD 50 then
    match s.resumeMicro x.k x.b rpc (r.extractLsb' 51 5).toNat with
    | .error t => bad t
    | .ok m => s.modSlot x.k x.b fun sl => { sl with pc := rpc, micro := some m, active := false }
  else s.modSlot x.k x.b fun sl => { sl with pc := rpc, micro := none, active := false }

/-- TRET (0x00B, privileged, R179, R397). -/
def execTret (h : Hdr) (s : State) : Out :=
  .next (issue (.tret h) h { priv := true, uses := [.src 6 (.s 61), .src 6 (.s 62)] } (fun x t =>
    if !((t.sheaf x.k).slot x.b).active then .error ⟨0x03, 2, x.exec, 0⟩
    else
      let u := t.trapReturn x
      .ok (.stay, if ((u.sheaf x.k).slot x.b).active then u else u.mark x.k h.sw)) s)

/-- MCALL (0x00C, R45, R180). An uncorrectable error in the microprogram discards the launch that reads it (R414). -/
def execMcall (h : Hdr) (p0 p1 p2 p3 : Byte) (m : Fin 64) (s : State) : Out :=
  .next (issue (.mcall h p0 p1 p2 p3 m) h {} (fun x t =>
    let mp := t.micro (unitOf x.k) m.val
    if t.badWords.contains (.store (unitOf x.k) m.val) then
      .ok (.stay, t.discardAt (t.sheaf x.k).launch 0 0 0 (nodeOfUnit (unitOf x.k)))
    else if mp.count = 0 then .error ⟨0x01, 8, ((t.sheaf x.k).slot x.b).mask, 0⟩
    else .ok (.stay, t.modSlot x.k x.b fun sl =>
      { sl with micro := some ⟨mp.image, mp.count, 0, #v[p0, p1, p2, p3], x.exec, h.sw, m.val⟩, mexec := x.exec })) s)

/-- The intermediate address of a virtual address in a context. -/
def State.iaOf (s : State) (ctx : Nat) (va : Word64) : BitVec 56 := match s.translate ctx va 4 .ex with
  | .ok a => BitVec.ofNat 56 a.ia
  | .error r => r.addr

/-- Lane targets of CALLI (R177): code base + v[A][L]. -/
def calliTarget (s : State) (x : Ex) (a : VSrc) (L : Nat) : Word64 := x.pc.extractLsb' 32 32 ++ s.vsrc32 x.k L a

/-- The distinct targets of the lanes of a mask, in increasing order of their lowest lane. -/
def calliTargets (s : State) (x : Ex) (a : VSrc) : List Word64 :=
  ((lanesOf x.exec).map (calliTarget s x a)).foldl (fun acc t => if acc.contains t then acc else acc ++ [t]) []

/-- The budget word of a target, read as an instruction fetch (R42, R177): its address and its BUDGET, none where it is
malformed. A target at offset 0 of its code region has no word before it there; R42 says only that the word stands directly
before, and the one read is the region's last (DESIGN CHOICE, log entry 125). -/
def State.budget (s : State) (x : Ex) (target : Word64) : Except TrapInfo (Word64 × Option Nat) :=
  let va := relPc target 0xFFFFFFFC
  match s.fetchBlock x.k va with
  | .error r => .error ⟨kindOf r.code, r.code, ((s.sheaf x.k).slot x.b).mask, r.addr⟩
  | .ok bs =>
    let w : Word32 := BitVec.ofNat 32 (leNat (bs.take 4))
    if s.fetchStale x.k va then .error (s.staleTrap ((s.sheaf x.k).slot x.b).mask)
    else .ok (va, if w.extractLsb' 0 2 = 3 ∧ w.extractLsb' 10 22 = 0 then some (w.extractLsb' 2 8).toNat else none)

/-- The budget words of the targets, in order; the first fetch that fails decides. -/
def State.budgets (s : State) (x : Ex) : List Word64 → Except TrapInfo (List (Word64 × Option Nat))
  | [] => .ok []
  | t :: ts => match s.budget x t with
    | .error e => .error e
    | .ok b => match State.budgets s x ts with
      | .error e => .error e
      | .ok bs => .ok (b :: bs)

/-- Steps 2 and 3 of CALLI (R42, R177): the largest BUDGET, or the trap. Where some words are malformed and another's BUDGET is
over 128, R390 does not say which is reported: it is the first malformed word, with DETAIL 0 (DESIGN CHOICE, log entry 125). -/
def State.calliBudget (s : State) (x : Ex) (a : VSrc) : Except TrapInfo Nat :=
  let bad := mask32 fun L => x.exec.getLsbD L && (calliTarget s x a L).extractLsb' 0 2 != 0
  if bad ≠ 0 then .error ⟨0x0A, 2, bad, 0⟩
  else match s.budgets x (calliTargets s x a) with
    | .error e => .error e
    | .ok bs =>
      let ia := fun (va : Word64) => s.iaOf (s.ctxOf x.k) va
      match bs.find? fun b => b.2.isNone with
      | some b => .error ⟨0x08, 0, x.exec, ia b.1⟩
      | none =>
        let largest := (bs.map fun b => b.2.getD 0).foldl max 0
        match bs.find? fun b => 128 < b.2.getD 0 with
        | some b => .error ⟨0x08, BitVec.ofNat 8 largest, x.exec, ia b.1⟩
        | none => .ok largest

/-- The lanes enter their targets (R41). Under a record of its own with RA = 1 whose Exec lanes share one target, the active
lanes outside Exec are held in the record, as step 4 says, and do not go on at the return address (DESIGN CHOICE, log entry
102). -/
def calliEnter (x : Ex) (d : SReg) (a : VSrc) (s : State) : Except TrapInfo (Flow × State) :=
  let sl := (s.sheaf x.k).slot x.b
  let ret := x.pc + 8
  let first := calliTarget s x a (lowest x.exec)
  let go := mask32 fun L => x.exec.getLsbD L && calliTarget s x a L == first
  let rest := x.exec &&& ~~~go
  let within := s.returnsTo x.k sl ret
  let link := fun (t : State) => t.writeS x.k d.val ret
  if within then
    withStack x (if rest = 0 then 0 else s.otherNeeds x.k x.b) s fun t =>
      let t := (link t).goTo x go first sl.gov
      (.own, if rest = 0 then t else t.placeOther x.k x.b rest x.pc sl.gov)
  else if rest = 0 then branch x first ret none link s
  else
    withStack x (2 + s.otherNeeds x.k x.b) s fun t =>
      let gov := (t.sheaf x.k).depth
      let t := (link t).pushJoin x.k sl.mask ret sl.gov true
      (.own, (t.goTo x go first gov).placeOther x.k x.b rest x.pc gov)

/-- CALLI (0x006, R41, R42, R177): nothing is committed before step 5. -/
def execCalli (h : Hdr) (d : SReg) (a : VSrc) (s : State) : Out :=
  .next (issue (.calli h d a) h { uses := .dst (.s d.val) :: srcTyped 1 .b32 a } (fun x t =>
    match t.calliBudget x a with
    | .error e => .error e
    | .ok n => whenSound x ((calliTargets t x a).map fun w => t.fetchErrors x.k (relPc w 0xFFFFFFFC)).flatten t <|
      if n = 0 ∨ blockFor n ≤ (t.sheaf x.k).xblk then calliEnter x d a t
      else match calliEnter x d a t with
        | .error e => .error e
        | .ok _ => match t.xacq x.k x.b (blockFor n) true with
          | (u, false) => .ok (.stay, u)
          | (u, true) => calliEnter x d a u) s)

/-- WAITA (0x00E, R181). -/
def execWaita (h : Hdr) (d a : SReg) (s : State) : Out :=
  .next (issue (.waita h d a) h { uses := [.src 1 (.s a.val), .dst (.s d.val)] } (simple fun x t =>
    let sh := t.sheaf x.k
    let done := fun (r : Word64) =>
      (t.writeS x.k d.val r).modSheaf x.k fun y => { y with watch := [], watchHit := false }
    if sh.watch = [] then done 3
    else if sh.watchHit then done 0
    else
      let n := (t.readS x.k a.val).toNat
      let t := t.modSheaf x.k fun y => { y with park := some (.waita d (if n = 0 then 0 else t.time + n)) }
      if n = 0 then t else t.later (.waitaTimeout (placeOf x.k))) s)

/-- WAITA_TIMEOUT (R181): the limit has passed; until then the timer stays due. -/
def execWaitaTimeout (p : Place) (s : State) : Out :=
  let k := placeKey p
  match (s.sheaf k).park with
  | some (.waita _ limit) =>
    if limit = 0 then .next s
    else if limit ≤ s.time then .next (s.wakeWaita k 1) else .next (s.later (.waitaTimeout p))
  | _ => .next s

/-- Parks a sheaf for n cycles (R182). -/
def sleepFor (n : Nat) (x : Ex) (t : State) : State :=
  if n = 0 then t
  else (t.modSheaf x.k fun y => { y with park := some (.sleep (t.time + n)) }).later (.sleepExpiry (placeOf x.k))

/-- SLEEP (0x00F, XOP 0): S[A][31:0] cycles. -/
def execSleep (h : Hdr) (a : SReg) (s : State) : Out :=
  .next (issue (.sleep h a) h { uses := [.src 1 (.s a.val)] }
    (simple fun x t => sleepFor ((t.readS x.k a.val).setWidth 32).toNat x t) s)

/-- SLEEP (0x00F, XOP 1): IMM32 cycles. -/
def execSleepImm (h : Hdr) (n : Word32) (s : State) : Out :=
  .next (issue (.sleepImm h n) h {} (simple fun x t => sleepFor n.toNat x t) s)

/-- SLEEP_EXPIRY (R182). -/
def execSleepExpiry (p : Place) (s : State) : Out :=
  let k := placeKey p
  match (s.sheaf k).park with
  | some (.sleep t) =>
    if t ≤ s.time then .next (s.modSheaf k fun y => { y with park := none }) else .next (s.later (.sleepExpiry p))
  | _ => .next s

/-- ELECT (0x010, R183). -/
def execElect (h : Hdr) (d : PReg) (a : SReg) (s : State) : Out :=
  .next (issue (.elect h d a) h { uses := [.dst (.p d.val), ⟨1, .s a.val, false, true, none⟩] } (simple fun x t =>
    (t.writeP x.k d.val x.exec (laneBit (lowest x.exec))).writeS x.k a.val (BitVec.ofNat 64 (lowest x.exec))) s)

end Sys2Proof.Machine
end

