-- ==== Sys2Proof/Machine/Frames.lean ====
section
/-!
DEFINITION. Operations that accesses to other packages and to memory share: transfer numbers and frames to be sent (R312,
R314, R329), accesses of a blocking instruction through a virtual address, loads in flight (R38), the checks of
intermediate addresses (R320, R321), and uncorrectable errors (R414).
-/

namespace Sys2Proof.Machine

open Sys2Proof

/-! Frames. -/

/-- A frame with every field zero. -/
def Frame.zero : Frame :=
  { daddr := 0
    baddr := 0
    fval := 0
    seq := 0
    ack := 0
    src := 0
    dst := 0
    type := 0
    hop := 0
    len := 0
    ordf := false
    last := false
    path := 0
    np := 0
    pcnt := 0
    xid := 0
    ctx := 0
    payload := [] }

/-- LEN of a payload: 32-byte units, minus 1 (Table 14-2). -/
def lenField (n : Nat) : BitVec 3 := BitVec.ofNat 3 ((n + 31) / 32 - 1)

/-- A transfer number that no outstanding transfer uses. -/
def State.newXid (s : State) : Nat × State :=
  let cand := (List.range (s.xfers.length + 1)).map fun i => (s.nextXid + i) % 2 ^ 16
  let x := (cand.find? fun i => (Tab.find s.xfers i).isNone).getD s.nextXid
  (x, { s with nextXid := (x + 1) % 2 ^ 16 })

/-- Opens a transfer of a number of frames. -/
def State.openXfer (s : State) (kind : XKind) (launch left : Nat) (out : List (Nat × Nat)) : Nat × State :=
  match s.newXid with
  | (x, s) => (x, { s with xfers := Tab.put s.xfers x ⟨kind, launch, left, 0, out, s.nanos, [], 0, false⟩ })

/-- The fibres consider the waiting frames, one fibre after the other. -/
def State.pokeFrames (s : State) : State :=
  if s.due.any fun e => match e with
    | .frameSend _ => true
    | _ => false then s
  else s.later (.frameSend 0)

/-- Puts a frame among those to be sent; a fibre takes it when its route allows. -/
def State.sendOut (s : State) (o : OutFrame) : State := { s with outq := s.outq ++ [o] }.pokeFrames

/-- The peer-form intermediate address (R320). -/
def peerIa (p a : Nat) : Nat := 2 ^ 48 + p * 2 ^ 32 + a

/-- Destinations are numbered: 0 to 511 are peers, and 512 + l is the package at the far end of long-reach link l. -/
def destIa (p a : Nat) : Nat := if p < 512 then peerIa p a else a

/-- The route of short traffic to a destination (R308). -/
def destRoute (p : Nat) : Route := if p < 512 then .short else .link (p - 512)

/-- A frame of this package to a destination (Table 14-2). -/
def State.peerFrame (s : State) (type : BitVec 4) (ctx p a xid : Nat) (payload : List Byte) : Frame :=
  { Frame.zero with
    daddr := BitVec.ofNat 56 (destIa p a)
    src := if p < 512 then s.host.pkgnum else BitVec.ofNat 9 (p - 512)
    dst := if p < 512 then BitVec.ofNat 9 p else 0
    type := type
    len := lenField payload.length
    xid := BitVec.ofNat 16 xid
    ctx := BitVec.ofNat 10 ctx
    payload := payload }

/-- Two ranges meet in a granule. -/
def rangesMeet (a b : Nat × Nat) : Bool :=
  decide (0 < a.2 ∧ 0 < b.2 ∧ a.1 / 32 ≤ (b.1 + b.2 - 1) / 32 ∧ b.1 / 32 ≤ (a.1 + a.2 - 1) / 32)

/-- The place whose lanes access another package by a transfer. -/
def Xfer.lanesOf (x : Xfer) : Option Nat := match x.kind with
  | .write k | .read k _ _ _ _ _ | .atom k _ _ _ _ => some k
  | _ => none

/-- The place for which a transfer writes at another package, by its lanes or by the fabric engine (R329). -/
def Xfer.writesFor (x : Xfer) : Option Nat := match x.kind with
  | .write k | .send k | .atom k _ _ _ _ | .mcast k _ _ _ _ => some k
  | _ => none

/-- A transfer reads at another package for lanes of a place. -/
def Xfer.readsFor (x : Xfer) : Option Nat := match x.kind with
  | .read k _ _ _ _ _ | .atom k _ _ _ _ => some k
  | _ => none

/-- A transfer serves a load. -/
def Xfer.ofLoad (x : Xfer) (k id : Nat) : Bool := match x.kind with
  | .read p i _ _ _ _ => p == k && i == id
  | .atom p i _ _ _ => p == k && i == id
  | _ => false

/-- Accesses of lanes of a place in other packages are under way. -/
def State.remoteOut (s : State) (k : Nat) : Bool := s.xfers.any fun p => p.2.lanesOf == some k

/-- Reads of lanes of a place in other packages are under way. -/
def State.readsOut (s : State) (k : Nat) : Bool := s.xfers.any fun p => p.2.readsFor == some k

/-- Remote writes, read-modify-writes and fabric transfers of a place are without their acknowledgement (R329). -/
def State.writesOut (s : State) (k : Nat) : Bool := s.xfers.any fun p => p.2.writesFor == some k

/-- An access of a place that later ones must wait for is under way: an acquire read, or one of type STRONG (R111, R114). -/
def State.barred (s : State) (k : Nat) : Bool := s.xfers.any fun p => p.2.bar && p.2.lanesOf == some k

/-- DEVICE accesses of a place are under way in another package (R115). -/
def State.deviceOut (s : State) (k : Nat) : Bool := s.xfers.any fun p => p.2.mt == 2 && p.2.lanesOf == some k

/-- Later accesses of a place wait for those that are under way (R114). -/
def State.barPlace (s : State) (k : Nat) : State :=
  { s with xfers := s.xfers.map fun p => (p.1, if p.2.lanesOf = some k then { p.2 with bar := true } else p.2) }

/-- The transfers of a place before which an access may not be performed: those that meet its granules (R107), and, under
DEVICE, those that are DEVICE (R115). Lanes of the one load that is given are not ordered but under DEVICE. -/
def State.earlier (s : State) (k id mt : Nat) (r : Nat × Nat) : List Nat :=
  (s.xfers.filter fun p => p.2.lanesOf == some k && ((mt == 2 && p.2.mt == 2) ||
    (!p.2.ofLoad k id && p.2.out.any (rangesMeet r)))).map (·.1)

/-- An access of lanes of a place goes out as a frame, its transfer waiting for the answer (R315, R329). -/
def State.sendAccess (s : State) (kind : XKind) (k id mt : Nat) (bar : Bool) (r : Nat × Nat) (frames : Nat → List Frame)
    (p : Nat) : State :=
  let after := s.earlier k id mt r
  match s.openXfer kind (s.sheaf k).launch 1 [r] with
  | (x, s) =>
    let s := { s with xfers := Tab.mod s.xfers x fun y => { y with
      mt := mt
      bar := bar } }
    (frames x).foldl (fun (t : State) f => t.sendOut ⟨f, destRoute p, [], (s.sheaf k).launch, [], after, false⟩) s

/-- Writes bytes of another package: one write frame. -/
def State.peerWrite (s : State) (k ctx p a mt : Nat) (bs : List Byte) : State :=
  s.sendAccess (.write k) k s.nextId mt false (peerIa p a, bs.length) (fun x => [s.peerFrame 0 ctx p a x bs]) p

/-- Writes pieces cut at 256-byte boundaries to another package. -/
def State.peerWriteAll (s : State) (k ctx p a mt : Nat) (bs : List Byte) : State :=
  (pieces a bs.length).foldl (fun (t : State) c => t.peerWrite k ctx p c.1 mt ((bs.drop (c.1 - a)).take c.2)) s

/-- Requests the granule of a lane of a load from another package. -/
def State.peerRead (s : State) (k p a load lane : Nat) (ty : Ty) (acc : Access) (acq : Bool) : State :=
  s.sendAccess (.read k load lane ty (a % 32) acc.va) k load acc.mt acq (peerIa p a, tyBytes ty)
    (fun x => [s.peerFrame 1 (s.ctxOf k) p (a / 32 * 32) x (List.replicate 32 0)]) p

/-- The operands of an atomic request: each lane's, with the new value of a compare (log entry 16). -/
def atomPayload (ty : Ty) (op : Nat) (ls : List AtomLane) : List Byte :=
  let w := tyBytes ty
  (ls.map fun l => leBytes w l.c.toNat ++ (if op = 8 then leBytes w l.n.toNat else [])).flatten

/-- Requests an atomic of another package for lanes that address one location, in one request (R116): FVAL names the
operation, the type and the lanes; more operands than a frame holds travel in two (log entry 16). -/
def State.peerAtom (s : State) (k p a load : Nat) (ty : Ty) (op : Nat) (ls : List AtomLane) (acc : Access) (acq : Bool) :
    State :=
  let bs := atomPayload ty op ls
  let f := fun (x : Nat) (half : Nat) (b : List Byte) => { s.peerFrame 3 (s.ctxOf k) p a x b with
    fval := BitVec.ofNat 32 (op + 2 ^ 8 * ty.code.toNat + 2 ^ 16 * ls.length)
    path := BitVec.ofNat 2 half
    np := if 256 < bs.length then 1 else 0 }
  s.sendAccess (.atom k load ty op ls) k s.nextId acc.mt acq (peerIa p a, tyBytes ty)
    (fun x => if 256 < bs.length then [f x 0 (bs.take 256), f x 1 (bs.drop 256)] else [f x 0 bs]) p

/-! Blocking accesses. -/

/-- The trap of an access that Translate or its home refuses (R403). -/
def refusedTrap (x : Ex) (r : Refused) : TrapInfo := ⟨kindOf r.code, r.code, x.exec, r.addr⟩

/-- A write of a blocking instruction through a virtual address; it does not reach module space (R88). -/
def State.blockWrite (s : State) (k : Nat) (va : Word64) (bs : List Byte) : Except Refused State :=
  let ctx := s.ctxOf k
  match s.translate ctx va bs.length .wr with
  | .error r => .error r
  | .ok a => match a.space with
    | .peer p q => .ok (s.peerWriteAll k ctx p q a.mt bs)
    | .pkg p _ => .ok (s.coreWrite k p bs)
    | .mod _ _ => .error ⟨0x07, BitVec.ofNat 56 a.ia⟩

/-- The lines of the lane's context on its core are discarded (R117). -/
def State.acquireL1 (s : State) (k : Nat) : State := if nearMem k then s else s.dropCtx (unitOf k) (s.ctxOf k)

/-! Loads in flight. -/

/-- Starts a load with the lanes that have arrived and those that have faulted; its destination is pending (R38), and
each arrived lane returns by an event of its own. -/
def State.startLoad (s : State) (k : Nat) (dest : LoadDest) (left ready bad : Word32) (vals : Vector Word64 32)
    (code : Byte) (addr : BitVec 56) (acq : Bool) : Nat × State :=
  match s.freshId with
  | (id, s) =>
    let s := s.modSheaf k fun sh =>
      dest.regs.foldl (fun y r => y.setPending r true)
        { sh with loads := sh.loads ++ [⟨id, dest, left, ready, vals, bad, code, addr, acq⟩] }
    (id, { s with due := s.due ++ (lanesOf ready).map fun L => Event.loadLaneReturn (placeOf k) id L })

/-! Checks of intermediate addresses. -/

/-- The first package address of a register's intermediate image, and the address after its last (R320). -/
def rangeImage (r : Word64 × Word64 × Word64) : Nat × Nat :=
  let off := (r.2.2.extractLsb' 12 44).toNat
  (((page45 r.1 + off) * 2 ^ 12) % 2 ^ 56, ((page45 r.1 + off) * 2 ^ 12) % 2 ^ 56 + (page45 r.2.1 + 1 - page45 r.1) * 2 ^ 12)

/-- The check of R320 at issue: the lowest-numbered valid register whose image holds the access and that grants it. -/
def State.imageReg (s : State) (ctx ia n : Nat) (kind : AKind) : Option (Word64 × Word64 × Word64) :=
  (s.ctx ctx).rr.toList.find? fun r =>
    let i := rangeImage r
    r.1.getLsbD 0 && decide (i.1 ≤ ia) && decide (ia + n ≤ i.2) && rangePermits r.1 kind

/-- Some register passes the check of R320. -/
def State.imageGrants (s : State) (ctx ia n : Nat) (kind : AKind) : Bool := (s.imageReg ctx ia n kind).isSome

/-- The code with which the check of R320 fails: 0x01 where no valid register's image holds the access, otherwise 0x02. -/
def State.imageCode (s : State) (ctx ia n : Nat) (kind : AKind) : Byte :=
  if s.imageGrants ctx ia n kind then 0
  else if (s.ctx ctx).rr.toList.any fun r =>
      let i := rangeImage r
      r.1.getLsbD 0 && decide (i.1 ≤ ia) && decide (ia + n ≤ i.2) then 0x02
  else 0x01

/-- The check at the destination (R321): the lowest-numbered valid register whose image holds the package address
decides. -/
def State.destGrants (s : State) (ctx a n : Nat) (kind : AKind) : Bool :=
  match (s.ctx ctx).rr.toList.find? fun r =>
      let i := rangeImage r
      r.1.getLsbD 0 && decide (i.1 ≤ a) && decide (a < i.2) with
  | none => false
  | some r => decide (a + n ≤ (rangeImage r).2) && rangePermits r.1 kind && !spillUnit a

/-! Writes at their home. -/

/-- The granules with errors that a write in a frame covers only in part, where its context grants it (R414). -/
def State.homeBad (s : State) (ctx a n : Nat) : List Nat :=
  if s.badSram = [] ∨ !s.destGrants ctx a n .wr then [] else s.badPartial a n

/-- A write that reached its home in a frame: checked against the range registers of its context (R321), and performed. The
Bool tells whether it was; errors that it would read are contained (R414). -/
def State.homeWrite (s : State) (ctx a : Nat) (bs : List Byte) : Bool × State :=
  if !s.destGrants ctx a bs.length .wr then (false, s)
  else if s.homeBad ctx a bs.length ≠ [] then (false, (s.homeBad ctx a bs.length).foldl State.containGranule s)
  else (true, (s.keepOld a bs.length none).pkgWrite a bs)

/-- A sheaf keeps the first address of its writes that was refused (R429). -/
def State.noteRefused (s : State) (k ia : Nat) : State :=
  s.modSheaf k fun y => { y with refusedAddr := some (y.refusedAddr.getD (BitVec.ofNat 56 ia)) }

end Sys2Proof.Machine
end

