-- ==== Sys2Proof/Machine/Migrate.lean ====
section
/-!
DEFINITION. Operations of the Heliostat that instructions and events share: owners (R284), windows (R291, R292), departures
(R293), and what a return does at home (R298).
-/

namespace Sys2Proof.Machine

open Sys2Proof

/-- The owner of an address as a place sees it (Table 13-1): `here` for the place itself and where there is none. -/
inductive Owner where
  | here
  | core (c : Nat)
  | unit (m : Nat)
  deriving DecidableEq, Repr

/-- The core that owns a package address (Table 13-1). -/
def ownerCore (a : Nat) : Nat := if a < 2 ^ 31 then a / 2 ^ 23 else (a - 2 ^ 31) / 2 ^ 26 * 8 + a % 2 ^ 26 / 2 ^ 23

/-- The module of a near-memory place. -/
def moduleOf (k : Nat) : Nat := (unitOf k - 256) / 64

/-- The owner of a space, as a place sees it. -/
def ownerOf (k : Nat) : Space → Owner
  | .pkg a v => if v ∨ unitOf k = ownerCore a then .here else .core (ownerCore a)
  | .peer _ _ => .here
  | .mod m _ => if nearMem k && moduleOf k == m then .here else .unit m

/-- The lanes of a mask grouped by owner, in ascending order of each group's lowest lane. -/
def groupLanes (own : Nat → Owner) (m : Word32) : List (Owner × Word32) :=
  (lanesOf m).foldl (fun acc L =>
    if acc.any fun g => decide (g.1 = own L) then
      acc.map fun g => if g.1 = own L then (g.1, g.2 ||| laneBit L) else g
    else acc ++ [(own L, laneBit L)]) []

/-! Returns at home (R298). -/

/-- Puts a continuation among those that wait for a free PC slot, in ascending order of lowest lanes. -/
def insertReturn (c : Cont) : List Cont → List Cont
  | [] => [c]
  | d :: t => if lowest c.mask < lowest d.mask then c :: d :: t else d :: insertReturn c t

/-- A path of returned lanes is placed as the not-taken side of R29, governed by the window record; it waits for a slot
where the stack cannot hold it so. -/
def State.resumePath (s : State) (k : Nat) (c : Cont) (entry : Nat) : State :=
  let sh := s.sheaf k
  if !sh.a.live then s.modSheaf k fun x => { x with a := PcSlot.start c.pc c.mask entry }
  else if !sh.b.live then s.modSheaf k fun x => { x with b := PcSlot.start c.pc c.mask entry }
  else if sh.depth < s.stackMax k ∧ s.nearestRecord k sh.depth = entry then s.push k (pathEntry c.mask c.pc)
  else s.modSheaf k fun x => { x with returns := insertReturn { c with fcode := 0, trap := none } x.returns }

/-- The scalars of a return that are written: those it marks, unless an earlier return of the window with a lower lane
wrote them. -/
def returnScalars (w : Window) (c : Cont) : List (Nat × Word64) :=
  c.sregs.filter fun p => (c.kind != 1 || c.wb.s.getLsbD p.1) &&
    w.scal.all fun q => q.1 != p.1 || decide (lowest c.mask < q.2)

/-- Writes the registers of a return into the home lanes. -/
def State.returnRegs (s : State) (k : Nat) (w : Window) (c : Cont) : State :=
  let s := c.vregs.foldl (fun (t : State) p =>
    if c.kind ≠ 1 ∨ c.wb.v.getLsbD p.1 then t.writeV k p.1 c.mask (fun L => p.2.2.getD L 0) p.2.1 else t) s
  let s := c.pregs.foldl (fun (t : State) p =>
    if c.kind ≠ 1 ∨ c.wb.p.getLsbD p.1 then t.writeP k p.1 c.mask p.2 else t) s
  let ws := returnScalars w c
  let s := ws.foldl (fun (t : State) p => t.writeS k p.1 p.2) s
  s.modSheaf k fun x => { x with win := x.win.map fun w =>
    { w with scal := (ws.map fun p => (p.1, lowest c.mask)) ++ w.scal.filter fun q => ws.all fun p => p.1 != q.1 } }

/-- The return belongs to the open window of its home sheaf (R292). -/
def Sheaf.belongs (sh : Sheaf) (c : Cont) : Bool := c.rtok == sh.winCount && c.hgen == sh.baseGen && sh.frag.isNone

/-- Notes lanes refused in the window and the reason of the lowest (R299). Lanes that left at the instruction they
continue at are not migrated by it, once (R298, Table 20-4). -/
def Sheaf.refuse (sh : Sheaf) (m : Word32) (rsn : Nat) (auto : Bool) : Sheaf :=
  { sh with
    refRsn := if lowest m < lowest sh.refused then rsn else sh.refRsn
    refused := sh.refused ||| m
    noMig := if auto then sh.noMig ||| m else sh.noMig
    rsns := if auto then (m, rsn) :: sh.rsns else sh.rsns }

/-- A return is applied at home (R298, R292); it is a return edge of R123, so lines of the context are discarded. sr.qnv set
by a fragment does not come home: a continuation has no field for it (R85, R288: DESIGN CHOICE, log entry 107). The
registers that a HOME writes back are pending only within this step (R38, R365: DEDUCED, log entry 129). -/
def State.applyReturn (s : State) (c : Cont) : State :=
  let k := c.home
  match Tab.find s.sheaves k with
  | none => s
  | some sh => match sh.win with
    | none => s
    | some w =>
      if !sh.belongs c then s
      else if c.kind = 4 then (s.returnRegs k w c).modSpan sh.span fun p => { p with recalls := p.recalls ++ [c] }
      else if s.badCarry k c.carry then s.discardAt sh.launch 0 0 0 (nodeOfUnit (unitOf k))
      else
        let s := (s.returnRegs k w c).dropCtx (unitOf k) c.ctx
        let s := s.modSheaf k fun x => { x with win := x.win.map fun w => { w with away := w.away &&& ~~~c.mask } }
        let s :=
          if c.kind = 1 then s
          else if c.kind = 2 ∧ (c.fcode ≠ 0 ∨ c.trap.isSome) then s.modSheaf k fun x => { x with returns := insertReturn c x.returns }
          else (if c.kind = 3 then s.modSheaf k fun x => x.refuse c.mask c.rsn c.auto else s).resumePath k c w.entry
        s.refill k

/-! Departures. -/

/-- Opens a migration window with a join record of the slot's lanes (R291, R292). -/
def State.openWindow (s : State) (k : Nat) (b : Bool) (j : Word64) (away : Word32) : State :=
  let sl := (s.sheaf k).slot b
  let e := (s.sheaf k).depth
  (s.pushJoin k sl.mask j sl.gov false).modSheaf k fun x =>
    { x.modSlot b fun y => { y with gov := e } with
      win := some ⟨e, j, away, []⟩
      winCount := x.winCount + 1
      refused := 0
      refRsn := 0
      rsns := [] }

/-- More lanes leave within the open window. -/
def State.moreAway (s : State) (k : Nat) (m : Word32) : State :=
  s.modSheaf k fun x => { x with win := x.win.map fun w => { w with away := w.away ||| m } }

/-- Lanes that are refused where they would leave return at once with KIND 3. -/
def State.refuseHere (s : State) (k : Nat) (b : Bool) (m : Word32) (pc : Word64) (hops rsn : Nat) (auto : Bool) : State :=
  let c := { s.mkCont k m pc 3 rsn hops 0 0 with auto := auto }
  let s := s.leave k b m
  match (s.sheaf k).frag with
  | none => s.applyReturn c
  | some _ => match s.freshId with
    | (id, s) => ({ s with conts := Tab.put s.conts id c }).later (.migrationReturn id)

/-- Lanes of one owner leave to depart (R293), or are refused a fifth hop; what they carry is read, and its staleness in
strict mode tested, when they depart (R289). Their accesses come before those of the fragment (R123). -/
def State.depart (s : State) (k : Nat) (b : Bool) (m : Word32) (o : Owner) (pc : Word64) (hops : Nat) (auto : Bool)
    (ia : Nat) : State :=
  let s := (s.flushLoads k m).publish k m
  if 4 < hops then s.refuseHere k b m pc 4 3 auto
  else
    let c := { s.mkCont k m pc 0 0 hops 0 0 with auto := auto, ia := ia }
    let c := match o with
      | .core n => { c with dcore := n }
      | .unit n => { c with toModule := true, dmod := n }
      | .here => c
    match s.freshId with
    | (id, s) =>
      ({ s with conts := Tab.put s.conts id c }.leave k b m).later (.continuationDepart id)

/-- The lanes of a mask depart for their owners, in ascending order of each owner's lowest lane. -/
def State.departAll (s : State) (k : Nat) (b : Bool) (go : Word32) (own : Nat → Owner) (pc : Word64)
    (hops : Nat → Nat) (auto : Bool) (ia : Nat → Nat) : State :=
  (groupLanes own go).foldl
    (fun (t : State) g => t.depart k b g.2 g.1 pc (hops (lowest g.2)) auto (ia (lowest g.2))) s

/-- What a migration checks before any lane departs (R286, R389): pending carried registers, registers beyond the held
block, the sizes of the carry set, and the write-back set within it. -/
def State.carryCheck (s : State) (x : Ex) : Option TrapInfo :=
  let sh := s.sheaf x.k
  let c := sh.carry
  if (c.vregs.any fun r => sh.pending (.v r)) || (c.sregs.any fun r => sh.pending (.s r)) ||
      c.pregs.any fun r => sh.pending (.p r) then some ⟨0x04, 6, x.exec, 0⟩
  else if c.vregs.any fun r => decide (sh.vcount ≤ r) then some ⟨0x07, 6, x.exec, 0⟩
  else if 16 < c.vregs.length ∨ 8 < c.sregs.length ∨ sh.wb.v &&& ~~~c.v ≠ 0 ∨ sh.wb.s &&& ~~~c.s ≠ 0 ∨
      sh.wb.p &&& ~~~c.p ≠ 0 then some ⟨0x03, 4, x.exec, 0⟩
  else none

/-- The lanes of a fragment, on its stack too. -/
def State.fragLanes (s : State) (k : Nat) : Word32 :=
  let sh := s.sheaf k
  (List.range sh.depth).foldl (fun m i =>
    let e := s.stackGet k i
    if entryKind e = 1 ∨ entryKind e = 2 then m ||| entryMask e else m) (sh.a.mask ||| sh.b.mask)

end Sys2Proof.Machine
end

