-- ==== Sys2Proof/Machine/Optics.lean ====
section
/-!
DEFINITION. Fibres, planes, links and stripe groups: roles (R19), tables of the link layer, and the counters of LREAD
(R191).
-/

namespace Sys2Proof.Machine

open Sys2Proof

/-- The role of an optical engine: 0 memory, 1 rotor, 2 long reach (Table 1-3). -/
def State.roleOf (s : State) (engine : Nat) : Nat := s.host.role.toNat / 4 ^ engine % 4

/-- The role of a fibre: that of its engine (R15). -/
def State.fibreRole (s : State) (f : Nat) : Nat := s.roleOf (f / 8)

/-- The fibres of a role, ascending. -/
def State.fibresOf (s : State) (role : Nat) : List Nat := (List.range 128).filter fun f => s.fibreRole f == role

/-- The rotor plane of a fibre (R304), or the long-reach link of one (R318): its place among the fibres of its role. -/
def State.placeInRole (s : State) (f : Nat) : Nat := ((s.fibresOf (s.fibreRole f)).filter (· < f)).length

/-- The fibre of a rotor plane. -/
def State.planeFibre (s : State) (p : Nat) : Option Nat := (s.fibresOf 1)[p]?

/-- The fibre of a long-reach link. -/
def State.linkFibre (s : State) (l : Nat) : Option Nat := (s.fibresOf 2)[l]?

def State.wave (s : State) (f w : Nat) : Wave := Tab.get (Wave.init w) s.waves (f * 128 + w)

def State.modWave (s : State) (f w : Nat) (g : Wave → Wave) : State :=
  { s with waves := Tab.upd (Wave.init w) s.waves (f * 128 + w) g }

def State.grp (s : State) (f g : Nat) : Group := Tab.get (Group.init g) s.grps (f * 8 + g)

def State.modGrp (s : State) (f g : Nat) (h : Group → Group) : State :=
  { s with grps := Tab.upd (Group.init g) s.grps (f * 8 + g) h }

def State.link (s : State) (f : Nat) : Link := Tab.get Link.init s.links f

def State.modLink (s : State) (f : Nat) (h : Link → Link) : State := { s with links := Tab.upd Link.init s.links f h }

def State.lrLink (s : State) (l : Nat) : LrLink := Tab.get LrLink.init s.lr l

def State.modLr (s : State) (l : Nat) (h : LrLink → LrLink) : State := { s with lr := Tab.upd LrLink.init s.lr l h }

def State.theo (s : State) (e : Nat) : Theo := Tab.get Theo.init s.theos e

def State.modTheo (s : State) (e : Nat) (h : Theo → Theo) : State := { s with theos := Tab.upd Theo.init s.theos e h }

def State.plane (s : State) (p : Nat) : Plane := Tab.get Plane.init s.planes p

def State.modPlane (s : State) (p : Nat) (h : Plane → Plane) : State :=
  { s with planes := Tab.upd Plane.init s.planes p h }

/-- The wavelengths of a group (R18). -/
def wavesOf (g : Nat) : List Nat := (List.range 16).map (· + 16 * g)

/-- A wavelength carries symbols and is monitored (R422). -/
def Wave.lit (w : Wave) : Bool := w.state == .active || w.state == .degraded

/-- Erased wavelengths of a group whose symbol positions no spare carries (R422). -/
def State.uncovered (s : State) (f g : Nat) : List Nat :=
  (wavesOf g).filter fun w => (s.wave f w).state == .erased && !(s.wave f w).covered

/-- The ageing threshold T of a wavelength, from 5,000 to 40,000 µA (R423). -/
def thresholdOf (f w : Nat) : Nat := 5000 + Config.laserThreshold f w % 35001

/-- The code of a wavelength's state (Table 21-1). -/
def WlState.code : WlState → Nat
  | .active => 0
  | .degraded => 1
  | .erased => 2
  | .dark => 3

/-- Stripe groups of a fibre that carry traffic towards the QX9. -/
def State.towards (s : State) (f : Nat) : Nat := ((List.range 8).filter fun g => (s.grp f g).towards).length

/-- A count as a saturating 64-bit counter. -/
def sat64 (n : Nat) : Word64 := BitVec.ofNat 64 (min n (2 ^ 64 - 1))

/-- The value of an LREAD selector word (R191, Table 9-5). -/
def State.lread (s : State) (a : Word64) : Word64 :=
  let f := a.toNat % 128
  let w := a.toNat / 128 % 128
  let sel := a.toNat / 65536 % 16
  let g := s.grp f (w / 16)
  if a.toNat ≠ f + 128 * w + 65536 * sel then 0xFFFFFFFFFFFFFFFF
  else match sel with
    | 0 => BitVec.ofNat 64 (s.wave f w).state.code
    | 1 => sat64 g.corrected
    | 2 => sat64 g.uncorr
    | 3 => sat64 g.replays
    | 4 => BitVec.ofNat 64 (thresholdOf f w * 2 ^ 32 + (s.wave f w).rise % 2 ^ 32)
    | 5 => sat64 g.retrains
    | 6 => BitVec.ofNat 64 (s.towards f)
    | 7 => BitVec.ofNat 64 (s.fibreRole f)
    | 8 => if s.fibreRole f = 2 then sat64 (s.lrLink (s.placeInRole f)).retries else 0
    | 9 => if s.fibreRole f = 2 ∧ (s.lrLink (s.placeInRole f)).state ≠ .untrained then
        sat64 (s.lrLink (s.placeInRole f)).rtt
      else 0
    | _ => 0xFFFFFFFFFFFFFFFF

end Sys2Proof.Machine
end

