-- ==== Sys2Proof/Machine/Memory.lean ====
section
/-!
DEFINITION. Loads, stores, atomics, fences and the L1 read cache, class 0x7 (R231 to R240), with what an access in module
space does (R23, R294, R407), and accesses that fault at the memory side (R404).
-/

namespace Sys2Proof.Machine

open Sys2Proof

/-! Lane addresses. -/

/-- A lane of LDL, STL or LDB.loc: an offset in the crew's region (R89, R232). -/
def State.crewLane (s : State) (k : Nat) (off : Int) (n : Nat) : Except Refused Access :=
  let sh := s.sheaf k
  let c := s.crew sh.crew
  if off < 0 ∨ c.size < off + n then .error ⟨0x05, BitVec.ofInt 56 (c.base + off)⟩
  else .ok ⟨c.base + off.toNat, .pkg (c.base + off.toNat) false, 0, false, sh.strict, 0⟩

/-- A lane of LDS or STS: an offset in the span's region. -/
def State.spanLane (s : State) (k : Nat) (off : Int) (n : Nat) : Except Refused Access :=
  let sh := s.sheaf k
  let p := s.span sh.span
  if off < 0 ∨ p.size < off + n then .error ⟨0x05, BitVec.ofInt 56 (p.base + off)⟩
  else .ok ⟨p.base + off.toNat, .pkg (p.base + off.toNat) false, 0, false, sh.strict, 0⟩

/-- A lane of the instructions that translate (R232): in module space LDG, STG, ATOM and LDX, which `auto` marks, need MIG = 1,
whatever the module (R92). -/
def State.virtLane (s : State) (k : Nat) (sum : Int) (n : Nat) (kind : AKind) (auto : Bool) : Except Refused Access :=
  let va := BitVec.ofInt 64 sum
  match (if auto then rangeLookup (s.ctx (s.ctxOf k)).rr va n kind else .error 0) with
  | .ok t => if 2 ^ 55 ≤ t.ia ∧ t.mig = false then .error ⟨0x02, va.setWidth 56⟩ else s.translate (s.ctxOf k) va n kind
  | .error _ => s.translate (s.ctxOf k) va n kind

/-! What becomes of a lane. -/

/-- A lane performs its access here, leaves for its owner, was refused there, or faults. -/
inductive Fate where
  | here
  | go
  | stay
  | bad (r : Refused)
  deriving DecidableEq, Repr

/-- The conditions of R294 under which an instruction migrates by itself; in a fragment it hops (R297), without an armed home PC,
since its JPC is kept: R297 does not say whether one is asked for (DESIGN CHOICE, log entry 125). -/
def State.autoMigrates (s : State) (x : Ex) : Bool :=
  let sh := s.sheaf x.k
  sh.frag.isSome || (sh.homePc.isSome && sh.win.isNone && !x.inmc)

/-- The fate of a lane (R23, R294, R407, R409); `auto` marks LDG, STG, ATOM and LDX. The other instructions that translate
fault in module space with code 0x02 too (Table 20-2 names 0x02 for those four, and 0x07 for a space that an instruction does
not accept: DESIGN CHOICE, log entry 108). -/
def State.fate (s : State) (x : Ex) (auto : Bool) (va : BitVec 56) (L : Nat) : Except Refused Access → Fate
  | .error r => .bad r
  | .ok a => match a.space with
    | .mod m _ =>
      if nearMem x.k && moduleOf x.k == m then .here
      else if x.stay.getLsbD L then .stay
      else if x.redep.getLsbD L then .go
      else if auto && a.mig && s.autoMigrates x then .go
      else .bad ⟨0x02, va⟩
    | _ => .here

/-- The reason for which a lane was refused at its owner. -/
def State.refusedFor (s : State) (k L : Nat) : Nat := (((s.sheaf k).rsns.find? fun p => p.1.getLsbD L).map (·.2)).getD 0

/-- The trap of lanes that were refused, for a reason other than 4, where they would have executed this instruction (Table
20-4): the instruction has had no effect, and all its lanes execute it after the handler. -/
def State.refusalTrap (s : State) (x : Ex) (m : Word32) (ia : Nat → BitVec 56) : State :=
  let hard := mask32 fun i => m.getLsbD i && s.refusedFor x.k i != 4
  let L := lowest hard
  let rsn := s.refusedFor x.k L
  let mine := mask32 fun i => hard.getLsbD i && s.refusedFor x.k i == rsn
  let t : TrapInfo := if rsn = 5 then ⟨0x06, 6, mine, 0⟩ else ⟨0x16, BitVec.ofNat 8 rsn, mine, ia L⟩
  let s := s.modSheaf x.k fun y => { y with redepart := y.redepart ||| m, noMig := y.noMig ||| (m &&& ~~~mine) }
  let s := s.modSlot x.k x.b fun sl => { sl with replay := x.exec, replayPc := x.pc, replayIdx := x.opidx }
  s.takeTrap x.k x.b (x.trap t)

/-- Bytes that an instruction reads once for its lanes at a virtual address: no address in module space (R88). -/
def State.opRead (s : State) (x : Ex) (va : Word64) (n : Nat) : Except TrapInfo (List Byte) :=
  let ctx := s.ctxOf x.k
  match s.translate ctx va n .rd with
  | .error r => .error (refusedTrap x r)
  | .ok a => match a.space with
    | .mod _ _ => .error ⟨0x0C, 0x07, x.exec, BitVec.ofNat 56 a.ia⟩
    | _ =>
      if s.strictStale a n then .error (s.staleTrap x.exec)
      else match s.ctxRead ctx va n with
        | .error r => .error (refusedTrap x r)
        | .ok bs => .ok bs

/-- The granules with uncorrectable errors that a lane reads, or writes in part (R414). -/
def State.laneBad (s : State) (rd : Bool) (n : Nat) : Except Refused Access → List Nat
  | .error _ => []
  | .ok a => match a.space with
    | .pkg p _ => if rd then s.badGranules p n else s.badPartial p n
    | _ => []

/-- Lanes leave for their owners: a window is opened at home when none is (R294); lanes of R407 leave within theirs. -/
def State.sendLanes (s : State) (x : Ex) (go : Word32) (at_ : Nat → Access) : State :=
  let sh := s.sheaf x.k
  let hops := fun (L : Nat) =>
    if sh.frag.isSome then s.hopsOf x.k + 1
    else (((sh.redHops.find? fun p => p.1.getLsbD L).map (·.2)).getD 0)
  let s := if sh.frag.isSome then s
    else if sh.win.isSome then s.moreAway x.k go
    else s.openWindow x.k x.b (sh.homePc.getD 0) go
  s.departAll x.k x.b go (fun L => ownerOf x.k (at_ L).space) x.pc hops true fun L => (at_ L).ia

/-- Holds a PC slot until its lanes have been performed or have faulted (R404). -/
def State.holdSlot (s : State) (x : Ex) (id : Nat) (lanes_ bad : Word32) : State :=
  if lanes_ = 0 ∧ bad = 0 then s
  else
    let sl := (s.sheaf x.k).slot x.b
    let s := s.modSlot x.k x.b fun y =>
      { y with park := some (.memory id x.pc x.opc x.exec sl.micro) }
    if lanes_ = 0 then s.later (.memoryFaultSettle (placeOf x.k) x.b) else s

/-- Lanes that were refused with reason 4 fault with code 0x10 (Table 20-4), in the load that the instruction has started since
a number was free, or in one of their own. -/
def State.refuseLanes (s : State) (x : Ex) (from_ : Nat) (m : Word32) (ia : Nat → BitVec 56) : State :=
  let s := s.modSheaf x.k fun y => { y with redepart := y.redepart ||| m }
  match (s.sheaf x.k).loads.find? fun l => from_ ≤ l.id with
  | none => match s.startLoad x.k .none_ m 0 m (Vector.replicate 32 0) 0x10 (ia (lowest m)) false with
    | (id, t) => t.holdSlot x id 0 m
  | some l =>
    let first := lowest m < lowest l.bad
    (s.modSheaf x.k fun y => { y with loads := y.loads.map fun z => if z.id = l.id then
      { z with
        left := z.left ||| m
        bad := z.bad ||| m
        code := if first then 0x10 else z.code
        addr := if first then ia (lowest m) else z.addr }
      else z }).holdSlot x l.id (l.left &&& ~~~l.ready &&& ~~~l.bad) (l.bad ||| m)

/-- The space is another package. -/
def Space.isPeer : Space → Bool
  | .peer _ _ => true
  | _ => false

/-- How an instruction accesses memory: bytes per lane, the lane addresses, the fates of R294, whether the lanes must be
aligned, whether it reads. -/
structure Access.Plan where
  n : Nat
  lane : Nat → Except Refused Access
  va : Nat → BitVec 56
  auto : Bool
  aligned : Bool
  rd : Bool

/-- Steps 13 and 14 of Table 19-1 for a memory operand, migration of lanes, and then the accesses of the lanes that stay.
Every lane is translated before any lane is sent (R232); while an acquire read or a STRONG access of the place is under way in
another package, it waits (R111, R114), and a DEVICE access here waits for the DEVICE accesses there (R115). Lanes that were
refused for reason 4 take the page fault of R404 with the others performed; the others refused trap first (Table 20-4). -/
def memAccess (p : Access.Plan) (perform : Ex → (Nat → Access) → State → State) (x : Ex) (s : State) :
    Except TrapInfo (Flow × State) :=
  if s.barred x.k then .ok (.wait, s)
  else
  let acc := lanes.map p.lane
  let lane := fun (L : Nat) => acc.getD L (p.lane L)
  let ia := fun (L : Nat) => match lane L with
    | .ok a => BitVec.ofNat 56 a.ia
    | .error r => r.addr
  let fate := fun (L : Nat) => s.fate x p.auto (p.va L) L (lane L)
  let bad := mask32 fun L => x.exec.getLsbD L && (match fate L with
    | .bad _ => true
    | _ => false)
  let go := mask32 fun L => x.exec.getLsbD L && fate L == .go
  match (if go = 0 then none else s.carryCheck x) with
  | some t => .error t
  | none =>
  if bad ≠ 0 then
    match fate (lowest bad) with
    | .bad r => .error ⟨kindOf r.code, r.code, bad, r.addr⟩
    | _ => .error ⟨0, 0, bad, 0⟩
  else
  let crooked := mask32 fun L => x.exec.getLsbD L && p.aligned && (ia L).toNat % p.n != 0
  if crooked ≠ 0 then .error ⟨0x0E, 0x08, crooked, ia (lowest crooked)⟩
  else
  let stay := mask32 fun L => x.exec.getLsbD L && fate L == .stay
  if (lanesOf stay).any fun L => s.refusedFor x.k L != 4 then .ok (.stay, s.refusalTrap x stay ia)
  else
  let at_ := fun (L : Nat) => match lane L with
    | .ok a => a
    | .error _ => Access.none_
  let rest := x.exec &&& ~~~go &&& ~~~stay
  if s.deviceOut x.k && (lanesOf rest).any fun L => s.effMt (at_ L) == 2 && !(at_ L).space.isPeer then .ok (.wait, s)
  else
  let strict := mask32 fun L => rest.getLsbD L && p.rd && s.strictStale (at_ L) p.n
  if strict ≠ 0 then .error (s.staleTrap strict)
  else
  let errs := ((lanesOf rest).map fun L => s.laneBad p.rd p.n (lane L)).flatten
  if errs ≠ [] then .ok (.stay, s.contain errs (s.sheaf x.k).launch)
  else if go = 0 ∧ stay = 0 then .ok (.next, perform x at_ s)
  else if go = 0 then .ok (.next, (perform { x with exec := rest } at_ s).refuseLanes x s.nextId stay ia)
  else
    withStack x (if (s.sheaf x.k).frag.isNone ∧ (s.sheaf x.k).win.isNone then 2 else 0) s fun s =>
      let left := ((s.sheaf x.k).slot x.b).mask &&& ~~~go
      let s := s.sendLanes x go at_
      let t := perform { x with exec := rest } at_ s
      (if left = 0 then .own else .next, if stay = 0 then t else t.refuseLanes x s.nextId stay ia)

/-! Reads. -/

/-- A lane's read: bytes, a request to another package, or the code with which a module refuses it. -/
inductive Got where
  | bytes (bs : List Byte)
  | away (p a : Nat)
  | code (c : Byte)
  deriving DecidableEq, Repr

/-- A place reads through the L1 of its core: at home, package addresses outside the crew's own region, types NORMAL and
WCOMB (R117, Table 6-3). -/
def State.cacheable (s : State) (k p : Nat) (a : Access) : Bool :=
  let sh := s.sheaf k
  let c := s.crew sh.crew
  !nearMem k && sh.frag.isNone && !(c.base ≤ p && p < c.base + c.size) && decide (a.mt ≤ 1)

/-- Reads the bytes of a lane. LDG and LDX are served from lines; other loads, and reads through the own package's peer form,
go to the home (R117 names only what fills lines; log entry 97). -/
def State.laneRead (s : State) (k : Nat) (a : Access) (n : Nat) (cached : Bool) : Got :=
  match a.space with
  | .pkg p v =>
    .bytes (if cached && !v && s.cacheable k p a then s.cachedRead (unitOf k) (s.ctxOf k) p n else s.pkgRead p n)
  | .peer q p => .away q p
  | .mod m o => match s.modRead m o n with
    | .ok bs => .bytes bs
    | .error c => .code c

/-- The code and address of the lowest faulted lane. -/
def firstFault (bad : Word32) (got : Nat → Got) (at_ : Nat → Access) : Byte × BitVec 56 :=
  if bad = 0 then (0, 0)
  else match got (lowest bad) with
    | .code c => (c, (at_ (lowest bad)).faultAddr c)
    | _ => (0, 0)

/-- Starts a load of the lanes of Exec (R234): values that are here return lane by lane; lanes of other packages are
requested. `once` reads one value for every lane (R235), `cached` reads through the lines, and `acq` marks reads that later
accesses wait for (R111). A read past the lines is not followed by older values from them (R113). -/
def State.loadLanes (s : State) (x : Ex) (ty : Ty) (dest : LoadDest) (once cached acq : Bool) (at_ : Nat → Access) :
    State :=
  if x.exec = 0 then s else
  let n := tyBytes ty
  let s := (lanesOf x.exec).foldl (fun (t : State) L => match (at_ L).space with
    | .pkg p v => (if cached && !v && t.cacheable x.k p (at_ L) then t else t.freshen x.k p n).learn x.k
        (if once then x.exec else laneBit L) p n
    | _ => t) s
  let gots := lanes.map fun L => if x.exec.getLsbD L then s.laneRead x.k (at_ L) n cached else .bytes []
  let got := fun (L : Nat) => gots.getD L (.bytes [])
  let bad := mask32 fun L => x.exec.getLsbD L && (match got L with
    | .code _ => true
    | _ => false)
  let away := mask32 fun L => x.exec.getLsbD L && (match got L with
    | .away _ _ => true
    | _ => false)
  let vals := vec32 fun L => match got L with
    | .bytes bs => loadValue ty bs
    | _ => 0
  let f := firstFault bad got at_
  match s.startLoad x.k dest x.exec (x.exec &&& ~~~bad &&& ~~~away) bad vals f.1 f.2 acq with
  | (id, s) =>
    let req := if once then lanesOf (laneBit (lowest away) &&& away) else lanesOf away
    let s := req.foldl (fun (t : State) L => match got L with
      | .away q p => t.peerRead x.k q p id (if once then 32 else L) ty (at_ L) acq
      | _ => t) s
    s.holdSlot x id away bad

/-- The destination of a load of a type. -/
def vecDest (ty : Ty) (d : VReg) : LoadDest := .vec d ty.is64 (tyTag ty)

/-- Fills lines for the lanes that read through the L1. -/
def State.fillLanes (s : State) (x : Ex) (n : Nat) (at_ : Nat → Access) : State :=
  (lanesOf x.exec).foldl (fun (t : State) L => match (at_ L).space with
    | .pkg p false => if t.cacheable x.k p (at_ L) then t.fillLines (unitOf x.k) (t.ctxOf x.k) p n else t
    | _ => t) s


/-! Stores. -/

/-- A lane's store of bytes, as its home performs it; the code with which a module refuses it. -/
def State.laneWrite (s : State) (k L : Nat) (a : Access) (bs : List Byte) : Byte × State :=
  match a.space with
  | .pkg p _ =>
    (0, (s.keepOld p bs.length (some (k, L))).coreWrite k p bs)
  | .peer q p => (0, s.peerWriteAll k (s.ctxOf k) q p a.mt bs)
  | .mod m o => s.modWrite m o bs .wr

/-- Stores the lanes of Exec in ascending order (R107). -/
def State.storeLanes (s : State) (x : Ex) (data : Nat → List Byte) (at_ : Nat → Access) : State :=
  let r := (lanesOf x.exec).foldl (fun (acc : Word32 × Byte × BitVec 56 × State) L =>
    match acc.2.2.2.laneWrite x.k L (at_ L) (data L) with
    | (c, t) =>
      if c = 0 then (acc.1, acc.2.1, acc.2.2.1, t)
      else if acc.1 = 0 then (laneBit L, c, (at_ L).faultAddr c, t)
      else (acc.1 ||| laneBit L, acc.2.1, acc.2.2.1, t)) (0, 0, 0, s)
  let t := r.2.2.2
  if r.1 = 0 then t
  else match t.startLoad x.k .none_ r.1 0 r.1 (Vector.replicate 32 0) r.2.1 r.2.2.1 false with
    | (id, t) => t.holdSlot x id 0 r.1

/-- The stores of an instruction; of type STRONG, the lines are discarded before them and later accesses wait until they are
acknowledged (R114). -/
def State.storeOrdered (s : State) (strong : Bool) (x : Ex) (data : Nat → List Byte) (at_ : Nat → Access) : State :=
  if strong then (((s.acquireL1 x.k).storeLanes x data at_).barPlace x.k).publish x.k x.exec else s.storeLanes x data at_

/-! Atomics. -/

/-- The new value of Table 11-6. -/
def atomNew (ty : Ty) (op : AtomOp) (old c : Word64) : Word64 :=
  let w := if ty.is64 then 64 else 32
  let sg := match ty with
    | .i32 | .i64 => true
    | _ => false
  let v := fun (y : Word64) => if sg then (if w = 64 then y.toInt else (y.setWidth 32).toInt) else
    (if w = 64 then (y.toNat : Int) else ((y.setWidth 32).toNat : Int))
  let cut := fun (n : Int) => if w = 64 then BitVec.ofInt 64 n else (BitVec.ofInt 32 n).setWidth 64
  let fa := fmtF32.decode (old.toNat % 2 ^ 32)
  let fc := fmtF32.decode (c.toNat % 2 ^ 32)
  let flt := fun (x : FV) => BitVec.ofNat 64 (fmtF32.round .rne 0 false x)
  match op with
  | .add => if ty = .f32 then flt (FV.add false fa fc) else cut (v old + v c)
  | .min => if ty = .f32 then flt (FV.minNum fa fc) else cut (min (v old) (v c))
  | .max => if ty = .f32 then flt (FV.maxNum fa fc) else cut (max (v old) (v c))
  | .and => old &&& c
  | .or => old ||| c
  | .xor => old ^^^ c
  | .exch => c
  | .inc => if v c ≤ v old then 0 else cut (v old + 1)

/-- The code of an atomic operation in a request to another package (log entry 16). -/
def AtomOp.num : AtomOp → Nat
  | .add => 0
  | .min => 1
  | .max => 2
  | .and => 3
  | .or => 4
  | .xor => 5
  | .exch => 6
  | .inc => 7

/-- One lane's read-modify-write at its home: the old value. -/
def State.laneAtom (s : State) (k L : Nat) (a : Access) (n : Nat) (f : Word64 → Word64) : Got × State :=
  match a.space with
  | .pkg p _ =>
    let s := s.learn k (laneBit L) p n
    let old := s.pkgRead p n
    let new := leBytes n (f (BitVec.ofNat 64 (leNat old))).toNat
    let s := (s.keepOld p n (some (k, L))).pkgWrite p new
    (.bytes old, if nearMem k then s else s.dropRange (unitOf k) p n)
  | .peer q p => (.away q p, s)
  | .mod m o =>
    let c := s.modCheck m o n .rmw
    if c ≠ 0 then (.code c, s)
    else
      let old := (List.range n).map fun i => s.modByte m (o + i)
      match s.modWrite m o (leBytes n (f (BitVec.ofNat 64 (leNat old))).toNat) .rmw with
      | (c, t) => if c = 0 then (.bytes old, t) else (.code c, t)

/-- The lanes that go to other packages, by request: those of one location travel together, under DEVICE and STRONG each
alone (R116). -/
def State.atomGroups (s : State) (at_ : Nat → Access) (ls : List Nat) : List (List Nat) :=
  ls.foldl (fun acc L =>
    let alone := 2 ≤ s.effMt (at_ L)
    if !alone && acc.any fun g => (at_ (g.headD 0)).space == (at_ L).space then
      acc.map fun g => if (at_ (g.headD 0)).space = (at_ L).space then g ++ [L] else g
    else acc ++ [[L]]) []

/-- The read-modify-writes of the lanes of Exec in ascending order; requests combine as if so performed (R116). -/
def State.atomLanes (s : State) (x : Ex) (ty : Ty) (dest : LoadDest) (op : Nat) (acq : Bool) (c nw : Nat → Word64)
    (f : Nat → Word64 → Word64) (at_ : Nat → Access) : State :=
  if x.exec = 0 then s else
  let n := tyBytes ty
  let r := (lanesOf x.exec).foldl (fun (acc : List (Nat × Got) × State) L =>
    match acc.2.laneAtom x.k L (at_ L) n (f L) with
    | (g, t) => (acc.1 ++ [(L, g)], t)) ([], s)
  let got := fun (L : Nat) => ((r.1.find? fun p => p.1 == L).map (·.2)).getD (.bytes [])
  let bad := mask32 fun L => x.exec.getLsbD L && (match got L with
    | .code _ => true
    | _ => false)
  let away := mask32 fun L => x.exec.getLsbD L && (match got L with
    | .away _ _ => true
    | _ => false)
  let vals := vec32 fun L => match got L with
    | .bytes bs => BitVec.ofNat 64 (leNat bs)
    | _ => 0
  let e := firstFault bad got at_
  let t := r.2
  if dest = .none_ ∧ bad = 0 ∧ away = 0 then t
  else
    let left := if dest = .none_ then bad ||| away else x.exec
    match t.startLoad x.k dest left (left &&& ~~~bad &&& ~~~away) bad vals e.1 e.2 acq with
    | (id, t) =>
      let t := (s.atomGroups at_ (lanesOf away)).foldl (fun (u : State) g => match got (g.headD 0) with
        | .away q p => u.peerAtom x.k q p id ty op (g.map fun L => ⟨L, c L, nw L, (at_ L).va⟩) (at_ (g.headD 0)) acq
        | _ => u) t
      t.holdSlot x id away bad

/-! Order. -/

def Order.acquires : Order → Bool
  | .acq | .ar => true
  | _ => false

def Order.releases : Order → Bool
  | .rel | .ar => true
  | _ => false

/-- The scope is .span or wider. -/
def Scope.wide : Scope → Bool
  | .sheaf | .crew => false
  | _ => true

/-- A scope binds towards a thread that reads or writes past the lines of this core: .span and wider, and, while lanes of the
crew are away, the narrower ones, which a fragment shares (R110). -/
def State.farScope (s : State) (k : Nat) (scp : Scope) : Bool :=
  Scope.wide scp || (s.crew (s.sheaf k).crew).sheaves.any fun q => (s.sheaf q).win.isSome

/-- What an order at a scope acquires: the lines of the context are discarded (R117). -/
def State.acquires (s : State) (k : Nat) (ord : Order) (scp : Scope) : Bool := Order.acquires ord && s.farScope k scp

/-- An instruction that releases, or is STRONG, waits until the accesses of its sheaf to other packages are over and publishes
the writes that its lanes have made or read (R112), and every access waits for those of R111 and R114 that it may not
overtake. -/
def waitRemote (rel : Bool) (x : Ex) (s : State) (go : State → Except TrapInfo (Flow × State)) :
    Except TrapInfo (Flow × State) :=
  if (rel && s.remoteOut x.k) || s.barred x.k then .ok (.wait, s) else go (if rel then s.publish x.k x.exec else s)

/-! The instructions. -/

/-- Whether a lane of the plan is STRONG. -/
def Access.Plan.strong (p : Access.Plan) (s : State) (x : Ex) : Bool :=
  (lanesOf x.exec).any fun L => match p.lane L with
    | .ok a => s.effMt a == 3
    | .error _ => false

/-- The low 56 bits of a lane's virtual address. -/
def va56 (sum : Int) : BitVec 56 := BitVec.ofInt 56 sum

/-- LDL and LDS. -/
def regionLoad (i : Instr) (h : Hdr) (ty : Ty) (d : VReg) (m : Mem) (lane : State → Nat → Int → Nat → Except Refused Access)
    (s : State) : State :=
  issue i h { noOverlap := true, uses := vdst ty d ++ memUses m false } (fun x t =>
    memAccess ⟨tyBytes ty, fun L => lane t x.k (t.memSum x.k m false L) (tyBytes ty), fun _ => 0, false, false, true⟩
      (fun y at_ u => u.loadLanes y ty (vecDest ty d) false false false at_) x t) s

/-- The bytes a lane stores. -/
def State.storeBytes (s : State) (k : Nat) (ty : Ty) (d : VSrc) (L : Nat) : List Byte :=
  leBytes (tyBytes ty) (s.vsrc k ty L d).toNat

/-- STL and STS. -/
def regionStore (i : Instr) (h : Hdr) (ty : Ty) (d : VSrc) (m : Mem) (lane : State → Nat → Int → Nat → Except Refused Access)
    (s : State) : State :=
  issue i h { uses := memUses m false ++ srcTyped 4 ty d } (fun x t =>
    memAccess ⟨tyBytes ty, fun L => lane t x.k (t.memSum x.k m false L) (tyBytes ty), fun _ => 0, false, false, false⟩
      (fun y at_ u => u.storeLanes y (fun L => t.storeBytes x.k ty d L) at_) x t) s

/-- LDL (0x0E0, R234). -/
def execLdl (h : Hdr) (ty : Ty) (d : VReg) (m : Mem) (s : State) : Out :=
  .next (regionLoad (.ldl h ty d m) h ty d m State.crewLane s)

/-- STL (0x0E1). -/
def execStl (h : Hdr) (ty : Ty) (d : VSrc) (m : Mem) (s : State) : Out :=
  .next (regionStore (.stl h ty d m) h ty d m State.crewLane s)

/-- LDS (0x0E2). -/
def execLds (h : Hdr) (ty : Ty) (d : VReg) (m : Mem) (s : State) : Out :=
  .next (regionLoad (.lds h ty d m) h ty d m State.spanLane s)

/-- STS (0x0E3). -/
def execSts (h : Hdr) (ty : Ty) (d : VSrc) (m : Mem) (s : State) : Out :=
  .next (regionStore (.sts h ty d m) h ty d m State.spanLane s)

/-- The plan of a virtual access of an operand. -/
def virtPlan (s : State) (k : Nat) (m : Mem) (pair : Bool) (ty : Ty) (kind : AKind) (auto aligned rd : Bool) : Access.Plan :=
  ⟨tyBytes ty, fun L => s.virtLane k (s.memSum k m pair L) (tyBytes ty) kind auto, fun L => va56 (s.memSum k m pair L),
    auto, aligned, rd⟩

/-- LDG and LDX: reads of package SRAM may be served by, and fill, the L1 (R117). -/
def virtLoad (i : Instr) (h : Hdr) (ty : Ty) (d : VReg) (m : Mem) (pair : Bool) (s : State) : State :=
  issue i h { noOverlap := true, uses := vdst ty d ++ memUses m pair } (fun x t =>
    let p := virtPlan t x.k m pair ty .rd true false true
    let strong := p.strong t x
    waitRemote strong x t (fun t => memAccess p (fun y at_ u =>
      let u := (if strong then u.acquireL1 y.k else u).fillLanes y (tyBytes ty) at_
      u.loadLanes y ty (vecDest ty d) false true strong at_) x t)) s

/-- STG and STX. -/
def virtStore (i : Instr) (h : Hdr) (ty : Ty) (d : VSrc) (m : Mem) (pair auto : Bool) (s : State) : State :=
  issue i h { uses := memUses m pair ++ srcTyped 4 ty d } (fun x t =>
    let p := virtPlan t x.k m pair ty .wr auto false false
    let strong := p.strong t x
    waitRemote strong x t (fun t => memAccess p (fun y at_ u =>
      u.storeOrdered strong y (fun L => t.storeBytes x.k ty d L) at_) x t)) s

/-- LDG (0x0E4, R234, R294). -/
def execLdg (h : Hdr) (ty : Ty) (d : VReg) (m : Mem) (s : State) : Out :=
  .next (virtLoad (.ldg h ty d m) h ty d m false s)

/-- STG (0x0E5, R234, R294). -/
def execStg (h : Hdr) (ty : Ty) (d : VSrc) (m : Mem) (s : State) : Out :=
  .next (virtStore (.stg h ty d m) h ty d m false true s)

/-- LDX (0x0E6): the index is a pair. -/
def execLdx (h : Hdr) (ty : Ty) (d : VReg) (m : Mem) (s : State) : Out :=
  .next (virtLoad (.ldx h ty d m) h ty d m true s)

/-- STX (0x0E7). -/
def execStx (h : Hdr) (ty : Ty) (d : VSrc) (m : Mem) (s : State) : Out :=
  .next (virtStore (.stx h ty d m) h ty d m true false s)

/-- The operand of LDB: base and offset. -/
def ldbMem (base : Option SReg) (off : Off) : Mem := ⟨base, none, off⟩

/-- LDB (0x0E8, XOP[2] = 0, R235). -/
def execLdb (h : Hdr) (ty : Ty) (d : VReg) (base : Option SReg) (off : Off) (s : State) : Out :=
  .next (issue (.ldb h ty d base off) h { noOverlap := true, uses := vdst ty d ++ memUses (ldbMem base off) false }
    (fun x t =>
      let p := virtPlan t x.k (ldbMem base off) false ty .rd false false true
      let strong := p.strong t x
      waitRemote strong x t (fun t => memAccess p (fun y at_ u =>
        (if strong then u.acquireL1 y.k else u).loadLanes y ty (vecDest ty d) true false strong at_) x t)) s)

/-- LDB.loc (0x0E8, XOP[2] = 1, R235). -/
def execLdbLoc (h : Hdr) (ty : Ty) (d : VReg) (base : Option SReg) (off : Off) (s : State) : Out :=
  .next (issue (.ldbLoc h ty d base off) h { noOverlap := true, uses := vdst ty d ++ memUses (ldbMem base off) false }
    (fun x t =>
      memAccess ⟨tyBytes ty, fun L => t.crewLane x.k (t.memSum x.k (ldbMem base off) false L) (tyBytes ty), fun _ => 0,
        false, false, true⟩ (fun y at_ u => u.loadLanes y ty (vecDest ty d) true false false at_) x t) s)

/-- The granules that an LDA reads: none when a lane reaches a peer or a module (R236). -/
def watchOf (x : Ex) (n : Nat) (at_ : Nat → Access) : List Nat :=
  let far := (lanesOf x.exec).any fun L => match (at_ L).space with
    | .pkg _ v => v
    | _ => true
  if far then []
  else ((lanesOf x.exec).map fun L => match (at_ L).space with
    | .pkg p _ => granules p n
    | _ => []).flatten.eraseDups

/-- LDA (0x0E9, R236): reads at the home, watches what it read (R181), and acquires (R117). -/
def execLda (h : Hdr) (ty : Ty) (ord : Order) (scp : Scope) (d : VReg) (m : Mem) (s : State) : Out :=
  .next (issue (.lda h ty ord scp d m) h { noOverlap := true, uses := vdst ty d ++ memUses m false } (fun x t =>
    let p := virtPlan t x.k m false ty .rd false true true
    let strong := p.strong t x
    waitRemote strong x t (fun t => memAccess p (fun y at_ u =>
      let u := if strong || u.acquires y.k ord scp then u.acquireL1 y.k else u
      let u := u.modSheaf y.k fun z => { z with watch := watchOf y (tyBytes ty) at_, watchHit := false }
      u.loadLanes y ty (vecDest ty d) false false (strong || Order.acquires ord) at_) x t)) s)

/-- STR (0x0EA, R236): data in C; a release waits for the sheaf's remote writes. -/
def execStr (h : Hdr) (ty : Ty) (ord : Order) (scp : Scope) (c : VSrc) (m : Mem) (s : State) : Out :=
  .next (issue (.str h ty ord scp c m) h { uses := memUses m false ++ srcTyped 3 ty c } (fun x t =>
    let p := virtPlan t x.k m false ty .wr false true false
    let strong := p.strong t x
    waitRemote (strong || Order.releases ord) x t (fun t => memAccess p (fun y at_ u =>
      u.storeOrdered strong y (fun L => t.storeBytes x.k ty c L) at_) x t)) s)

/-- The memory operand of ATOM, ATOMN and ACAS. -/
def atomMem (a : SReg) (b : VSrc) (off : Option Word32) : Mem := ⟨some a, some b, .imm32 (off.getD 0)⟩

/-- The three atomics: a compare supplies its new value. -/
def atomic (i : Instr) (h : Hdr) (ty : Ty) (op : Nat) (ord : Order) (scp : Scope) (dest : LoadDest) (m : Mem) (auto : Bool)
    (us : List Use) (c nw : State → Nat → Nat → Word64) (f : Word64 → Word64 → Word64 → Word64) (s : State) : State :=
  issue i h { noOverlap := true, uses := us ++ memUses m false } (fun x t =>
    let p := virtPlan t x.k m false ty .rmw auto true true
    let strong := p.strong t x
    waitRemote (strong || Order.releases ord) x t (fun t => memAccess p (fun y at_ u =>
      let u := if strong || u.acquires y.k ord scp then u.acquireL1 y.k else u
      let u := u.atomLanes y ty dest op (strong || Order.acquires ord) (c t x.k) (nw t x.k)
        (fun L old => f old (c t x.k L) (nw t x.k L)) at_
      if strong then u.publish y.k y.exec else u) x t)) s

/-- ATOM (0x0EB, R237). -/
def execAtom (h : Hdr) (ty : Ty) (op : AtomOp) (ord : Order) (scp : Scope) (d : VReg) (a : SReg) (b : VSrc)
    (off : Option Word32) (c : VSrc) (s : State) : Out :=
  .next (atomic (.atom h ty op ord scp d a b off c) h ty (AtomOp.num op) ord scp (vecDest ty d) (atomMem a b off) true
    (vdst ty d ++ srcTyped 3 ty c) (fun t k L => t.vsrc k ty L c) (fun _ _ _ => 0) (fun old y _ => atomNew ty op old y) s)

/-- ATOMN (0x0EC, R237): writes no register. -/
def execAtomn (h : Hdr) (ty : Ty) (op : AtomOp) (ord : Order) (scp : Scope) (a : SReg) (b : VSrc)
    (off : Option Word32) (c : VSrc) (s : State) : Out :=
  .next (atomic (.atomn h ty op ord scp a b off c) h ty (AtomOp.num op) ord scp .none_ (atomMem a b off) false
    (srcTyped 3 ty c) (fun t k L => t.vsrc k ty L c) (fun _ _ _ => 0) (fun old y _ => atomNew ty op old y) s)

/-- The register that follows C (R238). -/
def nextC (ty : Ty) : VSrc → VSrc
  | .v r => .v (Fin.ofNat 192 (r.val + if ty.is64 then 2 else 1))
  | .s r => .s (Fin.ofNat 64 (r.val + 1))

/-- The uses of the register, or pair, that follows C, at site 5. -/
def nextUses (ty : Ty) : VSrc → List Use
  | .v r => if ty.is64 then [.src 5 (.v (r.val + 2)), .src 5 (.v (r.val + 3))] else [.src 5 (.v (r.val + 1))]
  | .s r => [.src 5 (.s (r.val + 1))]

/-- ACAS (0x0ED, R238). -/
def execAcas (h : Hdr) (ty : Ty) (ord : Order) (scp : Scope) (d : VReg) (a : SReg) (b : VSrc)
    (off : Option Word32) (c : VSrc) (s : State) : Out :=
  .next (atomic (.acas h ty ord scp d a b off c) h ty 8 ord scp (vecDest ty d) (atomMem a b off) false
    (vdst ty d ++ srcTyped 3 ty c ++ nextUses ty c) (fun t k L => t.vsrc k ty L c) (fun t k L => t.vsrc k ty L (nextC ty c))
    (fun old cmp nw => if old = cmp then nw else old) s)

/-- FENCE (0x0EE, R239): releases wait for remote accesses, acquires for remote reads (R111); acquires discard the context's
lines. -/
def execFence (h : Hdr) (ord : Order) (scp : Scope) (s : State) : Out :=
  .next (issue (.fence h ord scp) h {} (fun x t =>
    waitRemote (Order.releases ord || t.readsOut x.k) x t
      (fun t => .ok (.next, if t.acquires x.k ord scp then t.acquireL1 x.k else t))) s)

/-- The package addresses of the lanes of Exec that would not fault. -/
def State.quietLanes (s : State) (x : Ex) (m : Mem) : List (Nat × Access) :=
  (lanesOf x.exec).filterMap fun L => match s.virtLane x.k (s.memSum x.k m false L) 1 .rd false with
    | .error _ => none
    | .ok a => match a.space with
      | .pkg p false => some (p, a)
      | _ => none

/-- PREFG (0x0EF, R240): fills lines; lanes that would fault are dropped. -/
def execPrefg (h : Hdr) (m : Mem) (s : State) : Out :=
  .next (issue (.prefg h m) h { uses := memUses m false } (simple fun x t =>
    (t.quietLanes x m).foldl (fun (u : State) p =>
      if u.cacheable x.k p.1 p.2 then u.fillLines (unitOf x.k) (u.ctxOf x.k) p.1 1 else u) t) s)

/-- CFLUSH (0x0F0, R240): discards the line of each lane's address. -/
def execCflush (h : Hdr) (m : Mem) (s : State) : Out :=
  .next (issue (.cflush h m) h { uses := memUses m false } (simple fun x t =>
    if nearMem x.k then t
    else (t.quietLanes x m).foldl (fun (u : State) p => u.dropRange (unitOf x.k) p.1 1) t) s)

/-- CFLUSH.all (0x0F0, XOP[2] = 1). -/
def execCflushAll (h : Hdr) (s : State) : Out := .next (issue (.cflushAll h) h {} (simple fun x t => t.acquireL1 x.k) s)

end Sys2Proof.Machine
end

