-- ==== Sys2Proof/Machine/Barrier.lean ====
section
/-!
DEFINITION. Arrival barriers and the crew and span barriers, class 0x8 (R241 to R249).
-/

namespace Sys2Proof.Machine

open Sys2Proof

/-- The package address of a barrier slot of a place's crew (R241). -/
def State.barAddr (s : State) (k : Nat) (b : BSlot) : Nat := (s.crew (s.sheaf k).crew).slotAddr b.val

/-- A barrier slot with an uncorrectable error discards the launch that holds it (R414). -/
def slotGuard (x : Ex) (b : BSlot) (s : State) (go : Except TrapInfo (Flow × State)) : Except TrapInfo (Flow × State) :=
  let bad := s.badGranules (s.barAddr x.k b) 32
  if bad ≠ [] then .ok (.stay, s.contain bad (s.sheaf x.k).launch) else go

/-- A barrier instruction that changes a slot's fields, once no acquire read of the place is under way (R111). A sheaf that
waits for a phase which the slot then shows wakes (R246). -/
def slotChange (i : Instr) (h : Hdr) (b : BSlot) (us : List Use) (f : State → Nat → Bar → Bar × Nat) (s : State) : State :=
  issue i h { uses := us, slots := [b.val] } (fun x t => slotGuard x b t (waitRemote false x t fun t =>
    let a := t.barAddr x.k b
    let w := t.slotRead a
    match f t x.k (Bar.of w) with
    | (c, done) => .ok (.next,
        if done = 0 then (t.slotWrite a (c.put w)).wakeWaiters a 0 else (t.slotWrite a (c.put w)).phasesDone a done))) s

/-- ABINIT (0x100, R245). -/
def execAbinit (h : Hdr) (b : BSlot) (a : SReg) (s : State) : Out :=
  .next (slotChange (.abinit h b a) h b [.src 1 (.s a.val)] (fun t k c =>
    ({ c with exp := (t.readS k a.val).setWidth 32, cnt := 0, phase := 0, flt := false, fcode := 0, faddr := 0 }, 0)) s)

/-- ABEXP (0x101, R245): a count that meets the new EXP completes at once. -/
def execAbexp (h : Hdr) (b : BSlot) (a : SReg) (s : State) : Out :=
  .next (slotChange (.abexp h b a) h b [.src 1 (.s a.val)] (fun t k c =>
    let c := { c with exp := (t.readS k a.val).setWidth 32 }
    c.complete c.cnt.toNat) s)

/-- ABARR (0x102, R245): an arrival of S[A][31:0], and a release at .crew unless that is 0. -/
def execAbarr (h : Hdr) (b : BSlot) (a : SReg) (s : State) : Out :=
  .next (issue (.abarr h b a) h { uses := [.src 1 (.s a.val)], slots := [b.val] } (fun x t => slotGuard x b t (
    let n := ((t.readS x.k a.val).setWidth 32 : Word32).toNat
    waitRemote (n != 0) x t (fun t => .ok (.next, t.arrive (t.barAddr x.k b) n)))) s)

/-- ABWAIT (0x103, R246). -/
def execAbwait (h : Hdr) (b : BSlot) (a : SReg) (s : State) : Out :=
  .next (issue (.abwait h b a) h { uses := [.src 1 (.s a.val)], slots := [b.val] } (fun x t => slotGuard x b t (waitRemote false x t fun t =>
    let ad := t.barAddr x.k b
    let w := t.slotRead ad
    let c := Bar.of w
    let target : Word32 := (t.readS x.k a.val).setWidth 32
    if c.flt then .error ⟨0x0F, BitVec.ofNat 8 b.val, x.exec, c.faddr⟩
    else if reached c.phase target then .ok (.next, t.acquireL1 x.k)
    else
      let t := t.slotWrite ad (Bar.put { c with wait := setBit c.wait (t.sheaf x.k).idx true } w)
      .ok (.stay, t.modSheaf x.k fun y => { y with park := some (.abwait x.b b target x.exec) }))) s)

/-- ABTEST and ABTEST.par: 2 when faulted, else 1 or 0; a 1 is an acquire (R247). -/
def slotTest (i : Instr) (h : Hdr) (d : SReg) (b : BSlot) (a : SReg) (done : Bar → Word64 → Bool) (s : State) : State :=
  issue i h { uses := [.src 1 (.s a.val), .dst (.s d.val)], slots := [b.val] } (fun x t => slotGuard x b t (waitRemote false x t fun t =>
    let c := Bar.of (t.slotRead (t.barAddr x.k b))
    if c.flt then .ok (.next, t.writeS x.k d.val 2)
    else if done c (t.readS x.k a.val) then .ok (.next, (t.acquireL1 x.k).writeS x.k d.val 1)
    else .ok (.next, t.writeS x.k d.val 0))) s

/-- ABTEST (0x104, XOP 0). -/
def execAbtest (h : Hdr) (d : SReg) (b : BSlot) (a : SReg) (s : State) : Out :=
  .next (slotTest (.abtest h d b a) h d b a (fun c w => reached c.phase (w.setWidth 32)) s)

/-- ABTEST.par (0x104, XOP 1): the parity recorded differs from the phase's. -/
def execAbtestPar (h : Hdr) (d : SReg) (b : BSlot) (a : SReg) (s : State) : Out :=
  .next (slotTest (.abtestPar h d b a) h d b a (fun c w => c.phase.getLsbD 0 != w.getLsbD 0) s)

/-- ABRET (0x105, R245). -/
def execAbret (h : Hdr) (b : BSlot) (s : State) : Out :=
  .next (slotChange (.abret h b) h b [] (fun _ _ c => ({ c with flt := false, fcode := 0, faddr := 0, cnt := 0 }, 0)) s)

/-- ABQ (0x106, R247). -/
def execAbq (h : Hdr) (w : AbqWhat) (d : SReg) (b : BSlot) (s : State) : Out :=
  .next (issue (.abq h w d b) h { uses := [.dst (.s d.val)], slots := [b.val] } (fun x t => slotGuard x b t (waitRemote false x t fun t =>
    let v := t.slotRead (t.barAddr x.k b)
    .ok (.next, t.writeS x.k d.val (match w with
      | .cnt => v.extractLsb' 0 64
      | .phase => v.extractLsb' 64 64
      | .fault => v.extractLsb' 128 64)))) s)

/-- CBAR (0x107, R248): a fence at .crew; it parks the slot, and the last execution of a round releases every slot. -/
def execCbar (h : Hdr) (s : State) : Out :=
  .next (issue (.cbar h) h {} (fun x t => waitRemote true x t (fun t =>
    let c := (t.sheaf x.k).crew
    .ok (.next, (((if t.farScope x.k .crew then t.acquireL1 x.k else t).modSlot x.k x.b fun sl => { sl with park := some .cbar }).modCrew c fun y =>
      { y with cbar := y.cbar + 1 }).rounds c))) s)

/-- SBAR (0x108, R248): the same over the span, with a fence at .span. -/
def execSbar (h : Hdr) (s : State) : Out :=
  .next (issue (.sbar h) h {} (fun x t => waitRemote true x t (fun t =>
    let sh := t.sheaf x.k
    .ok (.next, (((t.acquireL1 x.k).modSlot x.k x.b fun sl => { sl with park := some .sbar }).modSpan sh.span fun y =>
      { y with sbar := y.sbar + 1 }).rounds sh.crew))) s)

end Sys2Proof.Machine
end

