-- ==== Sys2Proof/Machine/BitSerial.lean ====
section
/-!
DEFINITION. Bit-serial instructions, class 0xB (R301, R302): arithmetic on bit-plane arrays in SRAM, or at a near-memory
unit in its own module.
-/

namespace Sys2Proof.Machine

open Sys2Proof

/-- The shape of the arrays (R301): stride and number of elements. -/
structure BsShape where
  str : Nat
  n : Nat

def BsShape.of (c : Word64) : BsShape := ⟨c.toNat / 2 ^ 32, c.toNat % 2 ^ 32⟩

/-- The limits that R301 sets. Outside them the spec gives no result: every result is then free. -/
def BsShape.ok (q : BsShape) : Bool :=
  q.str % 32 == 0 && decide (q.n ≤ q.str * 8) && q.n % 256 == 0 && decide (256 ≤ q.n) && decide (q.n ≤ 2 ^ 24)

/-- Bytes of a row. -/
def BsShape.bytes (q : BsShape) : Nat := (q.n + 7) / 8

/-- The rows of an array, or the first refusal; on a core only SRAM is accepted, but for lanes that depart again or were refused
(R407, R409). -/
def State.bsRows (s : State) (x : Ex) (base : Word64) (q : BsShape) (kind : AKind) : Nat → Nat → Except Refused (List Access)
  | 0, _ => .ok []
  | f + 1, b =>
    match s.translate (s.ctxOf x.k) (base + BitVec.ofNat 64 (b * q.str)) q.bytes kind with
    | .error r => .error r
    | .ok a =>
      if !nearMem x.k && (x.redep ||| x.stay) &&& x.exec == 0 && (match a.space with
        | .pkg _ _ => false
        | _ => true) then .error ⟨0x07, BitVec.ofNat 56 a.ia⟩
      else match State.bsRows s x base q kind f (b + 1) with
        | .error r => .error r
        | .ok l => .ok (a :: l)

/-- A row lies in the module of a near-memory place. -/
def ownRow (k : Nat) (a : Access) : Bool := match a.space with
  | .mod m _ => moduleOf k == m
  | _ => false

/-- Bytes of a row, or the code with which the module refuses it. -/
def State.rowBytes (s : State) (a : Access) (n : Nat) : Except Refused (List Byte) :=
  match a.space with
  | .pkg p _ => .ok (s.pkgRead p n)
  | .peer q p => .ok ((List.range n).map fun i => Config.peerByte q (p + i) s.choices)
  | .mod m o => match s.modRead m o n with
    | .ok bs => .ok bs
    | .error c => .error ⟨c, BitVec.ofNat 56 a.ia⟩

def State.readRows (s : State) (n : Nat) : List Access → Except Refused (List (List Byte))
  | [] => .ok []
  | a :: t => match s.rowBytes a n with
    | .error r => .error r
    | .ok bs => match State.readRows s n t with
      | .error r => .error r
      | .ok l => .ok (bs :: l)

/-- Writes rows for the lanes of Exec, each with the kind of its access; the row that its home refuses, with its bytes and
kind, if one does. -/
def State.writeRows (s : State) (x : Ex) (rows : List (Access × List Byte × AKind)) :
    Except (Access × List Byte × AKind × Refused) State :=
  match rows with
  | [] => .ok s
  | (a, bs, kind) :: t => match a.space with
    | .pkg p _ => (((s.keepOld p bs.length (some (x.k, lowest x.exec))).learn x.k x.exec p bs.length).coreWrite x.k p bs).writeRows x t
    | .peer _ _ => .error (a, bs, kind, ⟨0x07, BitVec.ofNat 56 a.ia⟩)
    | .mod m o => match s.modWrite m o bs kind with
      | (c, u) => if c = 0 then u.writeRows x t else .error (a, bs, kind, ⟨c, BitVec.ofNat 56 a.ia⟩)
termination_by structural rows

/-- The kind with which a row of D is written: a row that the operation reads too is changed in place, which a module permits
only with RD, WR and AT (R98: DEDUCED, log entry 126). -/
def rowKind (reads : List Access) (a : Access) : AKind :=
  if reads.any fun r => decide (r.space = a.space) then .rmw else .wr

/-- Element e of an array held as rows, read as two's complement under SG. -/
def bsElem (rows : List (List Byte)) (sg : Bool) (e : Nat) : Int :=
  let bit := fun (r : List Byte) => (r.getD (e / 8) 0).getLsbD (e % 8)
  let v := rows.foldr (fun r n => 2 * n + (if bit r then 1 else 0)) 0
  if sg && (rows.getLast?.any bit) then (v : Int) - (2 ^ rows.length : Nat) else v

/-- Row b of an array whose element e is `f e`. -/
def bsRow (n b : Nat) (f : Nat → Nat) : List Byte :=
  (List.range n).map fun i => BitVec.ofNat 8
    (((List.range 8).map fun t => if (f (8 * i + t)).testBit b then 2 ^ t else 0).sum)

/-- Operands: rows of A, of B and of D as read, rows of D as written. -/
structure BsOps where
  a : List Access
  b : List Access
  dr : List Access
  dw : List Access

/-- Translates every operand before any access (R301). -/
def State.bsOps (s : State) (x : Ex) (q : BsShape) (a b d : Word64) (wa wb wdr wdw : Nat) : Except Refused BsOps :=
  match s.bsRows x a q .rd wa 0 with
  | .error r => .error r
  | .ok la => match s.bsRows x b q .rd wb 0 with
    | .error r => .error r
    | .ok lb => match s.bsRows x d q .rd wdr 0 with
      | .error r => .error r
      | .ok lr => match s.bsRows x d q .wr wdw 0 with
        | .error r => .error r
        | .ok lw => .ok ⟨la, lb, lr, lw⟩

def BsOps.all (o : BsOps) : List Access := o.a ++ o.b ++ o.dr ++ o.dw

/-- Blocks until an all-bank operation of N ≥ 65,536 on a near-memory unit holds its leave (R302). -/
def State.bsLeave (s : State) (x : Ex) (q : BsShape) : Option State :=
  if !nearMem x.k || decide (q.n < 65536) || s.gov.holds (.bitSerial x.k) then none
  else some ((s.askLeave (s.ctxOf x.k) 3 0 (moduleOf x.k) (.bitSerial x.k)).modSheaf x.k fun y =>
    { y with block := some (.retry x.b) })

/-- Ends what the instruction blocked for. -/
def State.bsEnd (s : State) (x : Ex) : State :=
  (if nearMem x.k then s.endLeave (.bitSerial x.k) else s).modSheaf x.k fun y => { y with block := none }

/-- A trap of a bit-serial instruction, which ends what it blocked for. -/
def bsTrap (x : Ex) (s : State) (t : TrapInfo) : Except TrapInfo (Flow × State) :=
  if (s.sheaf x.k).block.isNone then .error t
  else .ok (.stay, ((s.bsEnd x).takeTrap x.k x.b (x.trap t)).refill x.k)

/-- A strict read finds a stale granule in a row. -/
def State.rowsStale (s : State) (n : Nat) (l : List Access) : Bool := l.any fun a => s.strictStale a n

/-- The granules with uncorrectable errors that rows read, or write in part (R414). -/
def State.rowsBad (s : State) (n : Nat) (o : BsOps) : List Nat :=
  ((o.a ++ o.b ++ o.dr).map fun a => s.laneBad true n (.ok a)).flatten ++ (o.dw.map fun a => s.laneBad false n (.ok a)).flatten

/-- The first row in module space. -/
def BsOps.away (o : BsOps) : Option Access := o.all.find? fun a => match a.space with
  | .mod _ _ => true
  | _ => false

/-- What a bit-serial instruction does with its translated operands: homeward from a near-memory unit when an operand
lies outside its module (Table 13-5), to the owner again after a fault there (R407), otherwise its effect, which says with
which refusal it ends, if any. An operand of type STRONG orders it as a FENCE.ar does (R114). -/
def bsGo (x : Ex) (q : BsShape) (o : BsOps) (eff : State → Option Refused × State) (s : State) :
    Except TrapInfo (Flow × State) :=
  let bad := s.rowsBad q.bytes o
  if nearMem x.k && !(o.all.all (ownRow x.k)) then
    .ok (.stay, ((s.bsEnd x).fragReturn x.k x.b ((s.sheaf x.k).slot x.b).mask x.pc 2 0 0 0).refill x.k)
  else match (if nearMem x.k then none else o.away) with
  | some a =>
    if x.stay &&& x.exec ≠ 0 then
      let m := x.stay &&& x.exec
      if (lanesOf m).any fun L => s.refusedFor x.k L != 4 then
        .ok (.stay, s.refusalTrap x m fun _ => BitVec.ofNat 56 a.ia)
      else .ok (.next, s.refuseLanes x s.nextId x.exec fun _ => BitVec.ofNat 56 a.ia)
    else match s.carryCheck x with
    | some t => .error t
    | none =>
      let left := ((s.sheaf x.k).slot x.b).mask &&& ~~~x.exec
      .ok (if left = 0 then .own else .next, s.sendLanes x x.exec fun _ => a)
  | none =>
  if s.rowsStale q.bytes (o.a ++ o.b ++ o.dr) then bsTrap x s (s.staleTrap x.exec)
  else if bad ≠ [] then .ok (.stay, s.contain bad (s.sheaf x.k).launch)
  else waitRemote (o.all.any fun a => s.effMt a == 3) x s fun s => match s.bsLeave x q with
    | some t => .ok (.wait, t)
    | none => match eff s with
      | (none, t) => .ok (.next, t.bsEnd x)
      | (some r, t) => .ok (.stay, ((t.bsEnd x).takeTrap x.k x.b (x.trap (refusedTrap x r))).refill x.k)

/-- BSADD, BSMUL, BSMAC and BSCMP: element e of D from those of the sources, narrowed to WD bits (R301). -/
def bitSerial (i : Instr) (h : Hdr) (sat : Bool) (d a b c : SReg) (wa wb wd : BitVec 4) (sg acc : Bool)
    (f : Int → Int → Int → Int) (s : State) : State :=
  issue i h { uses := [.src 1 (.s a.val), .src 2 (.s b.val), .src 3 (.s c.val), ⟨4, .s d.val, true, false, none⟩] }
    (fun x t =>
    let q := BsShape.of (t.readS x.k c.val)
    let w := wd.toNat + 1
    match t.bsOps x q (t.readS x.k a.val) (t.readS x.k b.val) (t.readS x.k d.val) (wa.toNat + 1) (wb.toNat + 1)
        (if acc then w else 0) w with
    | .error r => bsTrap x t (refusedTrap x r)
    | .ok o => bsGo x q o (fun u =>
      match u.readRows q.bytes o.a with
      | .error r => (some r, u)
      | .ok ra => match u.readRows q.bytes o.b with
        | .error r => (some r, u)
        | .ok rb => match u.readRows q.bytes o.dr with
          | .error r => (some r, u)
          | .ok rd =>
            let res := fun (e : Nat) =>
              if q.ok then (narrowI w sg sat (f (bsElem ra sg e) (bsElem rb sg e) (bsElem rd sg e))).toNat
              else (Config.freeWord (u.frees + e)).toNat
            let u := if q.ok then u else { u with frees := u.frees + 8 * q.bytes }
            let reads := o.a ++ o.b ++ o.dr
            match u.writeRows x (o.dw.zipIdx.map fun p => (p.1, bsRow q.bytes p.2 res, rowKind reads p.1)) with
            | .error (a, bs, kind, r) => (some r, match a.space with
              | .mod m off => (match u.modWrite m off bs kind with
                | (c, v) => if c = 0 then u else v)
              | _ => u)
            | .ok v => (none, v)) t) s

/-- BSADD (0x164). -/
def execBsadd (h : Hdr) (sat : Bool) (d a b c : SReg) (wa wb wd : BitVec 4) (sg : Bool) (s : State) : Out :=
  .next (bitSerial (.bsadd h sat d a b c wa wb wd sg) h sat d a b c wa wb wd sg false (fun x y _ => x + y) s)

/-- BSMUL (0x165). -/
def execBsmul (h : Hdr) (sat : Bool) (d a b c : SReg) (wa wb wd : BitVec 4) (sg : Bool) (s : State) : Out :=
  .next (bitSerial (.bsmul h sat d a b c wa wb wd sg) h sat d a b c wa wb wd sg false (fun x y _ => x * y) s)

/-- BSMAC (0x166). -/
def execBsmac (h : Hdr) (sat : Bool) (d a b c : SReg) (wa wb wd : BitVec 4) (sg : Bool) (s : State) : Out :=
  .next (bitSerial (.bsmac h sat d a b c wa wb wd sg) h sat d a b c wa wb wd sg true (fun x y z => z + x * y) s)

/-- BSCMP (0x167). -/
def execBscmp (h : Hdr) (cond : Cond) (d a b c : SReg) (wa wb wd : BitVec 4) (sg : Bool) (s : State) : Out :=
  .next (bitSerial (.bscmp h cond d a b c wa wb wd sg) h false d a b c wa wb wd sg false
    (fun x y _ => if condHolds cond x y then 1 else 0) s)

/-- BSPOPC (0x168): the one bits of an array. -/
def execBspopc (h : Hdr) (d a c : SReg) (wa : BitVec 4) (sg : Bool) (s : State) : Out :=
  .next (issue (.bspopc h d a c wa sg) h { uses := [.src 1 (.s a.val), .src 3 (.s c.val), .dst (.s d.val)] } (fun x t =>
    let q := BsShape.of (t.readS x.k c.val)
    match t.bsOps x q (t.readS x.k a.val) 0 0 (wa.toNat + 1) 0 0 0 with
    | .error r => bsTrap x t (refusedTrap x r)
    | .ok o => bsGo x q o (fun u =>
      match u.readRows q.bytes o.a with
      | .error r => (some r, u)
      | .ok ra =>
        let n := ((List.range q.n).map fun e =>
          (ra.filter fun r => (r.getD (e / 8) 0).getLsbD (e % 8)).length).sum
        (none, if q.ok then u.writeS x.k d.val (BitVec.ofNat 64 n) else (u.writeS x.k d.val u.free64).tick)) t) s)

end Sys2Proof.Machine
end

