-- ==== Sys2Proof/Machine/Scalar.lean ====
section
/-!
DEFINITION. Scalar instructions, class 0x1 (R184, R185).
-/

namespace Sys2Proof.Machine

open Sys2Proof

/-- Operands of a type as integers (R184). -/
def sval (ty : Ty) (x : Word64) : Int := readI (tySigned ty) x

/-- A scalar instruction of two operands: S[D] takes the result once (R153, R184). -/
def scalar2 (i : Instr) (h : Hdr) (d a : SReg) (b : SSrc) (f : Word64 → Word64 → Word64) (s : State) : State :=
  issue i h { uses := .src 1 (.s a.val) :: .dst (.s d.val) :: ssrcUses b }
    (simple fun x t => t.writeS x.k d.val (f (t.readS x.k a.val) (t.ssrc x.k b))) s

/-- A scalar instruction of one operand. -/
def scalar1 (i : Instr) (h : Hdr) (d a : SReg) (f : Word64 → Word64) (s : State) : State :=
  issue i h { uses := [.src 1 (.s a.val), .dst (.s d.val)] }
    (simple fun x t => t.writeS x.k d.val (f (t.readS x.k a.val))) s

/-- Exact integer results, wrapped, or clamped under .sat (R69). -/
def arith (ty : Ty) (sat : Bool) (f : Int → Int → Int) (a b : Word64) : Word64 :=
  narrowI 64 (tySigned ty) sat (f (sval ty a) (sval ty b))

/-- SADD (0x023, R184). -/
def execSadd (h : Hdr) (ty : Ty) (sat : Bool) (d a : SReg) (b : SSrc) (s : State) : Out :=
  .next (scalar2 (.sadd h ty sat d a b) h d a b (arith ty sat (· + ·)) s)

/-- SSUB (0x024, R184). -/
def execSsub (h : Hdr) (ty : Ty) (sat : Bool) (d a : SReg) (b : SSrc) (s : State) : Out :=
  .next (scalar2 (.ssub h ty sat d a b) h d a b (arith ty sat (· - ·)) s)

/-- SMUL (0x025, R184). -/
def execSmul (h : Hdr) (ty : Ty) (sat : Bool) (d a : SReg) (b : SSrc) (s : State) : Out :=
  .next (scalar2 (.smul h ty sat d a b) h d a b (arith ty sat (· * ·)) s)

/-- SMULH (0x026): Floor(a × b ÷ 2^64). -/
def execSmulh (h : Hdr) (ty : Ty) (d a : SReg) (b : SSrc) (s : State) : Out :=
  .next (scalar2 (.smulh h ty d a b) h d a b (arith ty false fun p q => p * q / 2 ^ 64) s)

/-- SDIV (0x027): quotient truncated towards zero; by zero 0 (R69). -/
def execSdiv (h : Hdr) (ty : Ty) (d a : SReg) (b : SSrc) (s : State) : Out :=
  .next (scalar2 (.sdiv h ty d a b) h d a b (arith ty false quotI) s)

/-- SREM (0x028): a − b × quotient; by zero a (R69). -/
def execSrem (h : Hdr) (ty : Ty) (d a : SReg) (b : SSrc) (s : State) : Out :=
  .next (scalar2 (.srem h ty d a b) h d a b (arith ty false remI) s)

/-- SAND (0x029). -/
def execSand (h : Hdr) (d a : SReg) (b : SSrc) (s : State) : Out :=
  .next (scalar2 (.sand h d a b) h d a b (· &&& ·) s)

/-- SOR (0x02A). -/
def execSor (h : Hdr) (d a : SReg) (b : SSrc) (s : State) : Out :=
  .next (scalar2 (.sor h d a b) h d a b (· ||| ·) s)

/-- SXOR (0x02B). -/
def execSxor (h : Hdr) (d a : SReg) (b : SSrc) (s : State) : Out :=
  .next (scalar2 (.sxor h d a b) h d a b (· ^^^ ·) s)

/-- SSHL (0x02C): a × 2^(b mod 64). -/
def execSshl (h : Hdr) (ty : Ty) (d a : SReg) (b : SSrc) (s : State) : Out :=
  .next (scalar2 (.sshl h ty d a b) h d a b (fun p q => p <<< (q.toNat % 64)) s)

/-- SSHR (0x02D): logical right shift by b mod 64. -/
def execSshr (h : Hdr) (ty : Ty) (d a : SReg) (b : SSrc) (s : State) : Out :=
  .next (scalar2 (.sshr h ty d a b) h d a b (fun p q => p >>> (q.toNat % 64)) s)

/-- SSAR (0x02E): arithmetic right shift by b mod 64. -/
def execSsar (h : Hdr) (d a : SReg) (b : SSrc) (s : State) : Out :=
  .next (scalar2 (.ssar h d a b) h d a b (fun p q => p.sshiftRight (q.toNat % 64)) s)

/-- SMIN (0x02F). -/
def execSmin (h : Hdr) (ty : Ty) (d a : SReg) (b : SSrc) (s : State) : Out :=
  .next (scalar2 (.smin h ty d a b) h d a b (fun p q => if sval ty p ≤ sval ty q then p else q) s)

/-- SMAX (0x030). -/
def execSmax (h : Hdr) (ty : Ty) (d a : SReg) (b : SSrc) (s : State) : Out :=
  .next (scalar2 (.smax h ty d a b) h d a b (fun p q => if sval ty q ≤ sval ty p then p else q) s)

/-- SCMP (0x031): 1 if the condition holds, else 0. -/
def execScmp (h : Hdr) (ty : Ty) (cond : Cond) (d a : SReg) (b : SSrc) (s : State) : Out :=
  .next (scalar2 (.scmp h ty cond d a b) h d a b (fun p q => boolWord (condHolds cond (sval ty p) (sval ty q))) s)

/-- SSEL (0x032): a if S[C] ≠ 0, else b. -/
def execSsel (h : Hdr) (d a : SReg) (b : SSrc) (c : SReg) (s : State) : Out :=
  .next (issue (.ssel h d a b c) h
    { uses := .src 1 (.s a.val) :: .src 3 (.s c.val) :: .dst (.s d.val) :: ssrcUses b }
    (simple fun x t =>
      t.writeS x.k d.val (if t.readS x.k c.val ≠ 0 then t.readS x.k a.val else t.ssrc x.k b)) s)

/-- SLEA (0x033): a + b × 2^sh. -/
def execSlea (h : Hdr) (ty : Ty) (d a : SReg) (b : SSrc) (sh : Byte) (s : State) : Out :=
  .next (scalar2 (.slea h ty d a b sh) h d a b (fun p q => p + q <<< sh.toNat) s)

/-- SCLZ (0x034). -/
def execSclz (h : Hdr) (d a : SReg) (s : State) : Out :=
  .next (scalar1 (.sclz h d a) h d a (fun p => BitVec.ofNat 64 (Sys2Proof.Machine.clz p)) s)

/-- SPOPC (0x035). -/
def execSpopc (h : Hdr) (d a : SReg) (s : State) : Out :=
  .next (scalar1 (.spopc h d a) h d a (fun p => BitVec.ofNat 64 (popc p)) s)

/-- The field of R185: Floor(a ÷ 2^pos) mod 2^w of the operand as its type reads it, extended from w bits where the type is
signed. -/
def bitField (n : Nat) (signed : Bool) (a : Int) (pos w : Nat) : Nat :=
  let f := (a / 2 ^ pos % 2 ^ w).toNat
  if signed && f / 2 ^ (w - 1) % 2 == 1 then 2 ^ n - 2 ^ w + f else f

/-- The insertion of R185: bits [min(pos + w − 1, n − 1) : pos] of d take the low bits of a. -/
def bitInsert (n d a pos w : Nat) : Nat :=
  let m := min w (n - pos)
  d - d / 2 ^ pos % 2 ^ m * 2 ^ pos + a % 2 ^ m * 2 ^ pos

/-- SBFE (0x036, R185). -/
def execSbfe (h : Hdr) (ty : Ty) (d a : SReg) (b : SSrc) (w : Byte) (s : State) : Out :=
  .next (scalar2 (.sbfe h ty d a b w) h d a b
    (fun p q => BitVec.ofNat 64 (bitField 64 (tySigned ty) (sval ty p) (q.toNat % 64) w.toNat)) s)

/-- SBFI (0x037, R185): the destination is merged. -/
def execSbfi (h : Hdr) (d a : SReg) (b : SSrc) (w : Byte) (s : State) : Out :=
  .next (issue (.sbfi h d a b w) h
    { uses := .src 1 (.s a.val) :: ⟨4, .s d.val, true, true, none⟩ :: ssrcUses b }
    (simple fun x t => t.writeS x.k d.val (BitVec.ofNat 64 (bitInsert 64 (t.readS x.k d.val).toNat
      (t.readS x.k a.val).toNat ((t.ssrc x.k b).toNat % 64) w.toNat))) s)

/-- SMOV (0x020). -/
def execSmov (h : Hdr) (d a : SReg) (s : State) : Out := .next (scalar1 (.smov h d a) h d a id s)

/-- SMOVI (0x021): IMM32, sign-extended for i64, zero-extended for n64. -/
def execSmovi (h : Hdr) (ty : Ty) (d : SReg) (imm : Word32) (s : State) : Out :=
  .next (issue (.smovi h ty d imm) h { uses := [.dst (.s d.val)] }
    (simple fun x t => t.writeS x.k d.val (if tySigned ty then imm.signExtend 64 else imm.setWidth 64)) s)

/-- SMOVQ (0x022): IMM64. -/
def execSmovq (h : Hdr) (d : SReg) (imm : Word64) (s : State) : Out :=
  .next (issue (.smovq h d imm) h { uses := [.dst (.s d.val)] } (simple fun x t => t.writeS x.k d.val imm) s)

end Sys2Proof.Machine
end

