-- ==== Sys2Proof/Machine/VecInt.lean ====
section
/-!
DEFINITION. Vector integer instructions, class 0x2 (R212, R213). Every lane of Exec is computed from the sources as they
stand before any destination is written (R207).
-/

namespace Sys2Proof.Machine

open Sys2Proof

/-- Byte i of a lane as a signed integer. -/
def byteInt (x : Word64) (i : Nat) : Int := (x.extractLsb' (8 * i) 8).toInt

/-- Four bytes of a packed result, each narrowed from an exact integer. -/
def packBytes (sat : Bool) (f : Nat → Int) : Word64 :=
  BitVec.ofNat 64 ((narrowI 8 true sat (f 0)).toNat + (narrowI 8 true sat (f 1)).toNat * 2 ^ 8 +
    (narrowI 8 true sat (f 2)).toNat * 2 ^ 16 + (narrowI 8 true sat (f 3)).toNat * 2 ^ 24)

/-- A lane operand of an integer type as an exact integer. -/
def laneInt (ty : Ty) (x : Word64) : Int := if ty.is64 then readI (tySigned ty) x else readI (tySigned ty) (x.setWidth 32 : Word32)

/-- A lane result of an integer type, wrapped, or clamped under .sat (R69). -/
def laneNarrow (ty : Ty) (sat : Bool) (x : Int) : Word64 :=
  if ty.is64 then narrowI 64 (tySigned ty) sat x else (narrowI 32 (tySigned ty) sat x).setWidth 64

/-- An exact binary operation on lane values of a type, i8x4 on each byte (R212). -/
def laneArith (ty : Ty) (sat : Bool) (f : Int → Int → Int) (a b : Word64) : Word64 :=
  if ty = .i8x4 then packBytes sat fun i => f (byteInt a i) (byteInt b i)
  else laneNarrow ty sat (f (laneInt ty a) (laneInt ty b))

/-- An instruction `vd, va, vb` whose operands have the type of the instruction. -/
def vec2 (i : Instr) (h : Hdr) (ty : Ty) (d : VReg) (a : VSrc) (b : BSrc) (f : Word64 → Word64 → Word64) (s : State) :
    State :=
  issue i h { uses := vdst ty d ++ srcTyped 1 ty a ++ bsrcTyped ty b }
    (simple fun x t => t.writeTy x ty d (tyTag ty) fun L => f (t.vsrc x.k ty L a) (t.bsrc x.k ty L b)) s

/-- An instruction `vd, va`. -/
def vec1 (i : Instr) (h : Hdr) (ty : Ty) (d : VReg) (a : VSrc) (tag : BitVec 4) (f : Word64 → Word64) (s : State) : State :=
  issue i h { uses := vdst ty d ++ srcTyped 1 ty a }
    (simple fun x t => t.writeTy x ty d tag fun L => f (t.vsrc x.k ty L a)) s

/-- The uses of an operand B that is one 32-bit register checked as int32, whatever the type of the instruction; b32
and b64 forms accept every tag (R213). -/
def countUses (ty : Ty) : BSrc → List Use
  | .r x => srcUses 2 .b32 (if ty = .b32 ∨ ty = .b64 then none else some 0xD) x
  | .imm _ => []

/-- The 32-bit value of such an operand. -/
def State.count32 (s : State) (k L : Nat) : BSrc → Word32
  | .r x => s.vsrc32 k L x
  | .imm x => x

/-- An instruction `vd, va, vb` whose B is one 32-bit value. -/
def vecCount (i : Instr) (h : Hdr) (ty : Ty) (d : VReg) (a : VSrc) (b : BSrc) (f : Word64 → Word32 → Word64) (s : State) :
    State :=
  issue i h { uses := vdst ty d ++ srcTyped 1 ty a ++ countUses ty b }
    (simple fun x t => t.writeTy x ty d (tyTag ty) fun L => f (t.vsrc x.k ty L a) (t.count32 x.k L b)) s

/-- The width of a type of class 0x2. -/
def tyWidth (ty : Ty) : Nat := if ty.is64 then 64 else 32

/-- The format tag of a vector source; scalars and immediates carry none (R47, R208). -/
def State.srcTag (s : State) (k : Nat) : VSrc → BitVec 4
  | .v r => (s.readV k r.val).fmt
  | .s _ => 0

/-- The format tag of the second register of a source pair. -/
def State.srcTagHi (s : State) (k : Nat) : VSrc → BitVec 4
  | .v r => (s.readV k (r.val + 1)).fmt
  | .s _ => 0

/-- Writes the lanes of Exec of a destination of a type; the registers of a pair may take different tags. -/
def State.writeTags (s : State) (x : Ex) (ty : Ty) (d : VReg) (lo hi : BitVec 4) (f : Nat → Word64) : State :=
  let t := s.writeV x.k d.val x.exec (fun L => (f L).setWidth 32) lo
  if ty.is64 then t.writeV x.k (d.val + 1) x.exec (fun L => (f L).extractLsb' 32 32) hi else t

/-- VMOV (0x040): the tag of A. -/
def execVmov (h : Hdr) (ty : Ty) (d : VReg) (a : VSrc) (s : State) : Out :=
  .next (issue (.vmov h ty d a) h { uses := vdst ty d ++ srcTyped 1 ty a } (simple fun x t =>
    t.writeTags x ty d (t.srcTag x.k a) (t.srcTagHi x.k a) fun L => t.vsrc x.k ty L a) s)

/-- VMOVI (0x041): IMM32 as R158 reads an immediate B. -/
def execVmovi (h : Hdr) (ty : Ty) (d : VReg) (imm : Word32) (s : State) : Out :=
  .next (issue (.vmovi h ty d imm) h { uses := vdst ty d }
    (simple fun x t => t.writeTy x ty d (tyTag ty) fun _ => immB ty imm) s)

/-- VIDX (0x042): L + b. -/
def execVidx (h : Hdr) (d : VReg) (b : SSrc) (s : State) : Out :=
  .next (issue (.vidx h d b) h { uses := vdst .i32 d ++ ssrcUses b }
    (simple fun x t => t.writeTy x .i32 d (tyTag .i32) fun L => BitVec.ofNat 64 L + t.ssrc x.k b) s)

/-- VADD (0x043). -/
def execVadd (h : Hdr) (ty : Ty) (d : VReg) (a : VSrc) (b : BSrc) (s : State) : Out :=
  .next (vec2 (.vadd h ty d a b) h ty d a b (laneArith ty false (· + ·)) s)

/-- VSUB (0x044). -/
def execVsub (h : Hdr) (ty : Ty) (d : VReg) (a : VSrc) (b : BSrc) (s : State) : Out :=
  .next (vec2 (.vsub h ty d a b) h ty d a b (laneArith ty false (· - ·)) s)

/-- VADDS (0x045): always saturated. -/
def execVadds (h : Hdr) (ty : Ty) (d : VReg) (a : VSrc) (b : BSrc) (s : State) : Out :=
  .next (vec2 (.vadds h ty d a b) h ty d a b (laneArith ty true (· + ·)) s)

/-- VSUBS (0x046): always saturated. -/
def execVsubs (h : Hdr) (ty : Ty) (d : VReg) (a : VSrc) (b : BSrc) (s : State) : Out :=
  .next (vec2 (.vsubs h ty d a b) h ty d a b (laneArith ty true (· - ·)) s)

/-- VMUL (0x047). -/
def execVmul (h : Hdr) (ty : Ty) (sat : Bool) (d : VReg) (a : VSrc) (b : BSrc) (s : State) : Out :=
  .next (vec2 (.vmul h ty sat d a b) h ty d a b (laneArith ty sat (· * ·)) s)

/-- VMULH (0x048): Floor(a × b ÷ 2^32). -/
def execVmulh (h : Hdr) (ty : Ty) (d : VReg) (a : VSrc) (b : BSrc) (s : State) : Out :=
  .next (vec2 (.vmulh h ty d a b) h ty d a b (laneArith ty false fun p q => p * q / 2 ^ 32) s)

/-- VMAD (0x049): a × b + c from the exact value. -/
def execVmad (h : Hdr) (ty : Ty) (sat : Bool) (d : VReg) (a : VSrc) (b : BSrc) (c : VSrc) (s : State) : Out :=
  .next (issue (.vmad h ty sat d a b c) h
    { uses := vdst ty d ++ srcTyped 1 ty a ++ bsrcTyped ty b ++ srcTyped 3 ty c }
    (simple fun x t => t.writeTy x ty d (tyTag ty) fun L =>
      laneNarrow ty sat (laneInt ty (t.vsrc x.k ty L a) * laneInt ty (t.bsrc x.k ty L b) + laneInt ty (t.vsrc x.k ty L c))) s)

/-- VMIN (0x04A). -/
def execVmin (h : Hdr) (ty : Ty) (d : VReg) (a : VSrc) (b : BSrc) (s : State) : Out :=
  .next (vec2 (.vmin h ty d a b) h ty d a b (laneArith ty false min) s)

/-- VMAX (0x04B). -/
def execVmax (h : Hdr) (ty : Ty) (d : VReg) (a : VSrc) (b : BSrc) (s : State) : Out :=
  .next (vec2 (.vmax h ty d a b) h ty d a b (laneArith ty false max) s)

/-- VABS (0x04C): the minimum maps to itself, or to the maximum under .sat. -/
def execVabs (h : Hdr) (ty : Ty) (sat : Bool) (d : VReg) (a : VSrc) (s : State) : Out :=
  .next (vec1 (.vabs h ty sat d a) h ty d a (tyTag ty) (fun v => laneArith ty sat (fun p _ => if p < 0 then -p else p) v v) s)

/-- VNEG (0x04D): as VABS for the minimum. -/
def execVneg (h : Hdr) (ty : Ty) (sat : Bool) (d : VReg) (a : VSrc) (s : State) : Out :=
  .next (vec1 (.vneg h ty sat d a) h ty d a (tyTag ty) (fun v => laneArith ty sat (fun p _ => -p) v v) s)

/-- VAND (0x04E). -/
def execVand (h : Hdr) (ty : Ty) (d : VReg) (a : VSrc) (b : BSrc) (s : State) : Out :=
  .next (vec2 (.vand h ty d a b) h ty d a b (· &&& ·) s)

/-- VOR (0x04F). -/
def execVor (h : Hdr) (ty : Ty) (d : VReg) (a : VSrc) (b : BSrc) (s : State) : Out :=
  .next (vec2 (.vor h ty d a b) h ty d a b (· ||| ·) s)

/-- VXOR (0x050). -/
def execVxor (h : Hdr) (ty : Ty) (d : VReg) (a : VSrc) (b : BSrc) (s : State) : Out :=
  .next (vec2 (.vxor h ty d a b) h ty d a b (· ^^^ ·) s)

/-- VNOT (0x051). -/
def execVnot (h : Hdr) (ty : Ty) (d : VReg) (a : VSrc) (s : State) : Out :=
  .next (vec1 (.vnot h ty d a) h ty d a (tyTag ty) (fun p => ~~~p) s)

/-- VSHL (0x052): a × 2^(b mod w). -/
def execVshl (h : Hdr) (ty : Ty) (d : VReg) (a : VSrc) (b : BSrc) (s : State) : Out :=
  .next (vecCount (.vshl h ty d a b) h ty d a b (fun p q => p <<< (q.toNat % tyWidth ty)) s)

/-- VSHR (0x053): logical right shift by b mod w. -/
def execVshr (h : Hdr) (ty : Ty) (d : VReg) (a : VSrc) (b : BSrc) (s : State) : Out :=
  .next (vecCount (.vshr h ty d a b) h ty d a b (fun p q => p >>> (q.toNat % tyWidth ty)) s)

/-- VSAR (0x054): arithmetic right shift by b mod w. -/
def execVsar (h : Hdr) (ty : Ty) (d : VReg) (a : VSrc) (b : BSrc) (s : State) : Out :=
  .next (vecCount (.vsar h ty d a b) h ty d a b (fun p q => laneNarrow ty false (laneInt ty p / 2 ^ (q.toNat % tyWidth ty))) s)

/-- VROT (0x055): left by b mod 32; B is checked as int32, but a form typed b32 accepts every tag (R213). -/
def execVrot (h : Hdr) (d : VReg) (a : VSrc) (b : BSrc) (s : State) : Out :=
  .next (vecCount (.vrot h d a b) h .b32 d a b
    (fun p q => ((p.setWidth 32 : Word32).rotateLeft (q.toNat % 32)).setWidth 64) s)

/-- VBFE (0x056, R213). -/
def execVbfe (h : Hdr) (ty : Ty) (d : VReg) (a : VSrc) (b : BSrc) (w : Byte) (s : State) : Out :=
  .next (vec2 (.vbfe h ty d a b w) h ty d a b
    (fun p q => BitVec.ofNat 64 (bitField 32 (tySigned ty) (laneInt ty p) (q.toNat % 32) w.toNat)) s)

/-- VBFI (0x057, R213): the destination is merged. -/
def execVbfi (h : Hdr) (d : VReg) (a : VSrc) (b : BSrc) (w : Byte) (s : State) : Out :=
  .next (issue (.vbfi h d a b w) h { uses := vmerge d none ++ srcTyped 1 .b32 a ++ bsrcTyped .b32 b }
    (simple fun x t => t.writeTy x .b32 d (tyTag .b32) fun L => BitVec.ofNat 64 (bitInsert 32 (t.laneV x.k d.val L).toNat
      (t.vsrc x.k .b32 L a).toNat ((t.bsrc x.k .b32 L b).toNat % 32) w.toNat)) s)

/-- VCLZ (0x058): tag int32. -/
def execVclz (h : Hdr) (d : VReg) (a : VSrc) (s : State) : Out :=
  .next (vec1 (.vclz h d a) h .b32 d a 0xD (fun p => BitVec.ofNat 64 (clz (p.setWidth 32 : Word32))) s)

/-- VPOPC (0x059): tag int32. -/
def execVpopc (h : Hdr) (d : VReg) (a : VSrc) (s : State) : Out :=
  .next (vec1 (.vpopc h d a) h .b32 d a 0xD (fun p => BitVec.ofNat 64 (popc (p.setWidth 32 : Word32))) s)

/-- VBREV (0x05A). -/
def execVbrev (h : Hdr) (d : VReg) (a : VSrc) (s : State) : Out :=
  .next (vec1 (.vbrev h d a) h .b32 d a (tyTag .b32) (fun p => ((p.setWidth 32 : Word32).reverse).setWidth 64) s)

/-- VCMP (0x05B): the lanes of Exec of p[D]. -/
def execVcmp (h : Hdr) (ty : Ty) (cond : Cond) (d : PReg) (a : VSrc) (b : BSrc) (s : State) : Out :=
  .next (issue (.vcmp h ty cond d a b) h { uses := .dst (.p d.val) :: srcTyped 1 ty a ++ bsrcTyped ty b }
    (simple fun x t => t.writeP x.k d.val x.exec
      (mask32 fun L => condHolds cond (laneInt ty (t.vsrc x.k ty L a)) (laneInt ty (t.bsrc x.k ty L b)))) s)

/-- VSEL (0x05C): the tag of A where A and B carry the same, otherwise none (R213). -/
def execVsel (h : Hdr) (ty : Ty) (d : VReg) (a : VSrc) (b : BSrc) (c : PReg) (s : State) : Out :=
  .next (issue (.vsel h ty d a b c) h
    { uses := vdst ty d ++ srcTyped 1 ty a ++ bsrcTyped ty b ++ [.src 3 (.p c.val)] }
    (simple fun x t =>
      let p := t.readP x.k c.val
      let same := fun (ta tb : BitVec 4) => if ta = tb then ta else 0
      let lo := same (t.srcTag x.k a) (match b with
        | .r y => t.srcTag x.k y
        | .imm _ => 0)
      let hi := same (t.srcTagHi x.k a) (match b with
        | .r y => t.srcTagHi x.k y
        | .imm _ => 0)
      t.writeTags x ty d lo hi fun L => if p.getLsbD L then t.vsrc x.k ty L a else t.bsrc x.k ty L b) s)

/-- VLEA (0x05D): a + b × 2^sh, B being one 32-bit value extended as the type says (R213). -/
def execVlea (h : Hdr) (ty : Ty) (d : VReg) (a : VSrc) (b : BSrc) (sh : Byte) (s : State) : Out :=
  .next (vecCount (.vlea h ty d a b sh) h ty d a b
    (fun p q => laneNarrow ty false (laneInt ty p + readI (tySigned ty) q * 2 ^ sh.toNat)) s)

end Sys2Proof.Machine
end

