-- ==== Sys2Proof/Machine/VecFloat.lean ====
section
/-!
DEFINITION. Vector float instructions, class 0x3 (R214, R215). Packed types compute each element on its own (R78).
-/

namespace Sys2Proof.Machine

open Sys2Proof

/-- Elements of a lane value of a float type. -/
def elemCount : Ty → Nat
  | .f16x2 | .bf16x2 => 2
  | _ => 1

/-- Bits of an element of a float type. -/
def elemWidth (ty : Ty) : Nat := if elemCount ty = 2 then 16 else if ty.is64 then 64 else 32

/-- Element j of a lane value. -/
def elemBits (ty : Ty) (x : Word64) (j : Nat) : Nat := x.toNat / 2 ^ (elemWidth ty * j) % 2 ^ elemWidth ty

/-- The value of element j. -/
def elemVal (ty : Ty) (x : Word64) (j : Nat) : FV := (tyFmt ty).decode (elemBits ty x j)

/-- A lane value from the encodings of its elements. -/
def elemJoin (ty : Ty) (f : Nat → Nat) : Word64 :=
  BitVec.ofNat 64 (f 0 % 2 ^ elemWidth ty + (if elemCount ty = 2 then f 1 % 2 ^ 16 * 2 ^ 16 else 0))

/-- The state of stochastic rounding advances once when an instruction that rounds so commits (R76). -/
def State.srndStep (s : State) (k : Nat) (rnd : Rnd) : State :=
  if rnd = .srnd then s.modSheaf k fun y => { y with srnd := stepState y.srnd } else s

/-- Element j of lane L, rounded once by the mode (R74 to R76). -/
def State.roundElem (s : State) (k : Nat) (ty : Ty) (rnd : Rnd) (L j : Nat) (v : FV) : Nat :=
  (tyFmt ty).round rnd (drawOf (s.sheaf k).srnd j L) false v

/-- A correctly rounded instruction: the exact value of each element is given the lane and the element. -/
def floatCr (i : Instr) (h : Hdr) (ty : Ty) (rnd : Rnd) (d : VReg) (uses : List Use)
    (f : State → Nat → Nat → Nat → FV) (s : State) : State :=
  issue i h { uses := vdst ty d ++ uses } (simple fun x t =>
    (t.writeTy x ty d (tyTag ty) fun L => elemJoin ty fun j => t.roundElem x.k ty rnd L j (f t x.k L j)).srndStep x.k rnd) s

/-- A correctly rounded instruction of two operands. -/
def float2 (i : Instr) (h : Hdr) (ty : Ty) (rnd : Rnd) (d : VReg) (a : VSrc) (b : BSrc) (f : FV → FV → FV) (s : State) :
    State :=
  floatCr i h ty rnd d (srcTyped 1 ty a ++ bsrcTyped ty b)
    (fun t k L j => f (elemVal ty (t.vsrc k ty L a) j) (elemVal ty (t.bsrc k ty L b) j)) s

/-- A correctly rounded instruction of three operands. -/
def float3 (i : Instr) (h : Hdr) (ty : Ty) (rnd : Rnd) (d : VReg) (a : VSrc) (b : BSrc) (c : VSrc)
    (f : FV → FV → FV → FV) (s : State) : State :=
  floatCr i h ty rnd d (srcTyped 1 ty a ++ bsrcTyped ty b ++ srcTyped 3 ty c)
    (fun t k L j => f (elemVal ty (t.vsrc k ty L a) j) (elemVal ty (t.bsrc k ty L b) j) (elemVal ty (t.vsrc k ty L c) j)) s

/-- A correctly rounded instruction of one operand. -/
def float1 (i : Instr) (h : Hdr) (ty : Ty) (rnd : Rnd) (d : VReg) (a : VSrc) (f : FV → FV) (s : State) : State :=
  floatCr i h ty rnd d (srcTyped 1 ty a) (fun t k L j => f (elemVal ty (t.vsrc k ty L a) j)) s

/-- An exact or approximate instruction of one operand, given by its encodings. -/
def floatBits (i : Instr) (h : Hdr) (ty : Ty) (d : VReg) (a : VSrc) (f : Nat → Nat) (s : State) : State :=
  vec1 i h ty d a (tyTag ty) (fun v => elemJoin ty fun j => f (elemBits ty v j)) s

/-- VFADD (0x060): a + b, rounded once. -/
def execVfadd (h : Hdr) (ty : Ty) (rnd : Rnd) (d : VReg) (a : VSrc) (b : BSrc) (s : State) : Out :=
  .next (float2 (.vfadd h ty rnd d a b) h ty rnd d a b (FV.add (rnd == .rdn)) s)

/-- VFSUB (0x061): a − b, rounded once. -/
def execVfsub (h : Hdr) (ty : Ty) (rnd : Rnd) (d : VReg) (a : VSrc) (b : BSrc) (s : State) : Out :=
  .next (float2 (.vfsub h ty rnd d a b) h ty rnd d a b (fun p q => FV.add (rnd == .rdn) p q.neg) s)

/-- VFMUL (0x062): a × b, rounded once. -/
def execVfmul (h : Hdr) (ty : Ty) (rnd : Rnd) (d : VReg) (a : VSrc) (b : BSrc) (s : State) : Out :=
  .next (float2 (.vfmul h ty rnd d a b) h ty rnd d a b (FV.mul) s)

/-- VFDIV (0x06B): a ÷ b, rounded once. -/
def execVfdiv (h : Hdr) (ty : Ty) (rnd : Rnd) (d : VReg) (a : VSrc) (b : BSrc) (s : State) : Out :=
  .next (float2 (.vfdiv h ty rnd d a b) h ty rnd d a b (FV.div) s)

/-- VFMA (0x063): a × b + c, with one rounding. -/
def execVfma (h : Hdr) (ty : Ty) (rnd : Rnd) (d : VReg) (a : VSrc) (b : BSrc) (c : VSrc) (s : State) : Out :=
  .next (float3 (.vfma h ty rnd d a b c) h ty rnd d a b c (FV.fma (rnd == .rdn)) s)

/-- VFNMA (0x064): −(a × b) + c, with one rounding. -/
def execVfnma (h : Hdr) (ty : Ty) (rnd : Rnd) (d : VReg) (a : VSrc) (b : BSrc) (c : VSrc) (s : State) : Out :=
  .next (float3 (.vfnma h ty rnd d a b c) h ty rnd d a b c (fun p q r => FV.add (rnd == .rdn) (FV.mul p q).neg r) s)

/-- VFMIN (0x065, R80): exact. -/
def execVfmin (h : Hdr) (ty : Ty) (d : VReg) (a : VSrc) (b : BSrc) (s : State) : Out :=
  .next (float2 (.vfmin h ty d a b) h ty .rne d a b FV.minNum s)

/-- VFMAX (0x066, R80): exact. -/
def execVfmax (h : Hdr) (ty : Ty) (d : VReg) (a : VSrc) (b : BSrc) (s : State) : Out :=
  .next (float2 (.vfmax h ty d a b) h ty .rne d a b FV.maxNum s)

/-- VFABS (0x067): the sign is cleared, of a NaN too (R79). -/
def execVfabs (h : Hdr) (ty : Ty) (d : VReg) (a : VSrc) (s : State) : Out :=
  .next (floatBits (.vfabs h ty d a) h ty d a (fun e => e % 2 ^ (elemWidth ty - 1)) s)

/-- VFNEG (0x068): the sign is flipped. -/
def execVfneg (h : Hdr) (ty : Ty) (d : VReg) (a : VSrc) (s : State) : Out :=
  .next (floatBits (.vfneg h ty d a) h ty d a (fun e => e + 2 ^ (elemWidth ty - 1)) s)

/-- VFCMP (0x069, R80, R215). -/
def execVfcmp (h : Hdr) (ty : Ty) (cond : FCond) (d : PReg) (a : VSrc) (b : BSrc) (s : State) : Out :=
  .next (issue (.vfcmp h ty cond d a b) h { uses := .dst (.p d.val) :: srcTyped 1 ty a ++ bsrcTyped ty b }
    (simple fun x t => t.writeP x.k d.val x.exec
      (mask32 fun L => fcondHolds cond (elemVal ty (t.vsrc x.k ty L a) 0) (elemVal ty (t.bsrc x.k ty L b) 0))) s)

/-- VFCLASS (0x06A, R215): one register, tag int32. -/
def execVfclass (h : Hdr) (ty : Ty) (d : VReg) (a : VSrc) (s : State) : Out :=
  .next (issue (.vfclass h ty d a) h { uses := .dst (.v d.val) :: srcTyped 1 ty a }
    (simple fun x t => t.writeV x.k d.val x.exec
      (fun L => BitVec.ofNat 32 ((tyFmt ty).classOf (elemBits ty (t.vsrc x.k ty L a) 0))) 0xD) s)

/-- VRCP (0x06C): within the bound of Table 10-4 (log entry 13). -/
def execVrcp (h : Hdr) (ty : Ty) (d : VReg) (a : VSrc) (s : State) : Out :=
  .next (floatBits (.vrcp h ty d a) h ty d a (approxBits .rcp ty) s)

/-- VRSQ (0x06D): within the bound of Table 10-4 (log entry 13). -/
def execVrsq (h : Hdr) (ty : Ty) (d : VReg) (a : VSrc) (s : State) : Out :=
  .next (floatBits (.vrsq h ty d a) h ty d a (approxBits .rsq ty) s)

/-- VEXP2 (0x06F): within the bound of Table 10-4 (log entry 13). -/
def execVexp2 (h : Hdr) (ty : Ty) (d : VReg) (a : VSrc) (s : State) : Out :=
  .next (floatBits (.vexp2 h ty d a) h ty d a (approxBits .exp2 ty) s)

/-- VLOG2 (0x070): within the bound of Table 10-4 (log entry 13). -/
def execVlog2 (h : Hdr) (ty : Ty) (d : VReg) (a : VSrc) (s : State) : Out :=
  .next (floatBits (.vlog2 h ty d a) h ty d a (approxBits .log2 ty) s)

/-- VSIN (0x071): within the bound of Table 10-4 (log entry 13). -/
def execVsin (h : Hdr) (ty : Ty) (d : VReg) (a : VSrc) (s : State) : Out :=
  .next (floatBits (.vsin h ty d a) h ty d a (approxBits .sin ty) s)

/-- VCOS (0x072): within the bound of Table 10-4 (log entry 13). -/
def execVcos (h : Hdr) (ty : Ty) (d : VReg) (a : VSrc) (s : State) : Out :=
  .next (floatBits (.vcos h ty d a) h ty d a (approxBits .cos ty) s)

/-- VTANH (0x073): within the bound of Table 10-4 (log entry 13). -/
def execVtanh (h : Hdr) (ty : Ty) (d : VReg) (a : VSrc) (s : State) : Out :=
  .next (floatBits (.vtanh h ty d a) h ty d a (approxBits .tanh ty) s)

/-- VSQRT (0x06E): rounded once. -/
def execVsqrt (h : Hdr) (ty : Ty) (rnd : Rnd) (d : VReg) (a : VSrc) (s : State) : Out :=
  .next (float1 (.vsqrt h ty rnd d a) h ty rnd d a FV.sqrt s)

/-- VFLOOR (0x074): exact; the sign of a zero result is kept (R215). -/
def execVfloor (h : Hdr) (ty : Ty) (d : VReg) (a : VSrc) (s : State) : Out :=
  .next (float1 (.vfloor h ty d a) h ty .rne d a FV.floor s)

/-- VCEIL (0x075). -/
def execVceil (h : Hdr) (ty : Ty) (d : VReg) (a : VSrc) (s : State) : Out :=
  .next (float1 (.vceil h ty d a) h ty .rne d a FV.ceil s)

/-- The exact difference of VFRACT; zero is +0 in every mode (R215). -/
def fract (v : FV) : FV :=
  let r := FV.add false v v.floor.neg
  if r.isZero then .fin false 0 0 else r

/-- VFRACT (0x076): a − Floor(a). -/
def execVfract (h : Hdr) (ty : Ty) (rnd : Rnd) (d : VReg) (a : VSrc) (s : State) : Out :=
  .next (float1 (.vfract h ty rnd d a) h ty rnd d a fract s)

/-- VFSCALE (0x077): a × 2^b; both elements of a packed A use the same b, checked as int32 (R215). -/
def execVfscale (h : Hdr) (ty : Ty) (rnd : Rnd) (d : VReg) (a : VSrc) (b : BSrc) (s : State) : Out :=
  .next (floatCr (.vfscale h ty rnd d a b) h ty rnd d (srcTyped 1 ty a ++ countUses ty b)
    (fun t k L j => (elemVal ty (t.vsrc k ty L a) j).scale (t.count32 k L b).toInt) s)

end Sys2Proof.Machine
end

