-- ==== Sys2Proof/Machine/Convert.lean ====
section
/-!
DEFINITION. Conversion instructions, class 0x4 (R216 to R225).
-/

namespace Sys2Proof.Machine

open Sys2Proof

/-- The width of an integer type of VCVT; 0 for the float types. -/
def intWidth : Ty → Nat
  | .i8 | .n8 => 8
  | .i16 | .n16 => 16
  | .i32 | .n32 => 32
  | .i64 | .n64 => 64
  | _ => 0

/-- The integer a lane holds in a type: its low bits (R217). -/
def intOf (ty : Ty) (x : Word64) : Int := readI (tySigned ty) (x.setWidth (intWidth ty) : BitVec (intWidth ty))

/-- An integer of a type as a lane value, extended by its sign or with zeros (R217). -/
def intLane (ty : Ty) (x : BitVec (intWidth ty)) : Word64 :=
  if tySigned ty then (if ty.is64 then x.signExtend 64 else (x.signExtend 32).setWidth 64) else x.setWidth 64

/-- Bits of a float type of VCVT in a lane. -/
def cvtFloatWidth : Ty → Nat
  | .f16 | .bf16 => 16
  | .f64 => 64
  | _ => 32

/-- One conversion (R81, R82, R217). -/
def convert (dt st : Ty) (rnd : Rnd) (sat : Bool) (draw : Nat) (x : Word64) : Word64 :=
  let val := (tyFmt st).decode (x.toNat % 2 ^ cvtFloatWidth st)
  if intWidth st = 0 then
    if intWidth dt = 0 then BitVec.ofNat 64 ((tyFmt dt).round rnd draw sat val)
    else intLane dt (FV.toBits (intWidth dt) (tySigned dt) rnd draw val)
  else if intWidth dt = 0 then BitVec.ofNat 64 ((tyFmt dt).round rnd draw sat (FV.ofInt (intOf st x) 0))
  else intLane dt (narrowI (intWidth dt) (tySigned dt) sat (intOf st x))

/-- VCVT (0x080, R217). -/
def execVcvt (h : Hdr) (dt st : Ty) (rnd : Rnd) (sat : Bool) (d : VReg) (a : VSrc) (s : State) : Out :=
  .next (issue (.vcvt h dt st rnd sat d a) h { uses := vdst dt d ++ srcTyped 1 st a } (simple fun x t =>
    (t.writeTy x dt d (tyTag dt) fun L =>
      convert dt st rnd sat (drawOf (t.sheaf x.k).srnd 0 L) (t.vsrc x.k st L a)).srndStep x.k rnd) s)

/-- Bits of one element of a packed type (Table 10-6). -/
def partWidth : Ty → Nat
  | .f16x2 | .bf16x2 => 16
  | .e2m1 | .i4x8 => 4
  | _ => 8

/-- The tag of a packed type; byte form carries none (R216). -/
def packTag : Ty → BitVec 4
  | .e3m2 | .e2m3 => 0
  | t => tyTag t

/-- A packed type of integers. -/
def packInt : Ty → Bool
  | .i8x4 | .i4x8 => true
  | _ => false

/-- Replaces w bits from position p of a lane. -/
def insertBits (old : Word32) (p w v : Nat) : Word32 :=
  BitVec.ofNat 32 (old.toNat - old.toNat / 2 ^ p % 2 ^ w * 2 ^ p + v % 2 ^ w * 2 ^ p)

/-- The encoding VPACK gives a source value: element j of lane L (R218). -/
def packElem (dt : Ty) (rnd : Rnd) (sat : Bool) (draw : Nat) (x : Word64) : Nat :=
  if packInt dt then (narrowI (partWidth dt) true sat (laneInt .i32 x)).toNat
  else (tyFmt dt).round rnd draw sat (fmtF32.decode (x.toNat % 2 ^ 32))

/-- VPACK (0x081, R218). -/
def execVpack (h : Hdr) (dt : Ty) (rnd : Rnd) (sat : Bool) (d : VReg) (a : VSrc) (b : BSrc) (p : Fin 8) (s : State) : Out :=
  let st : Ty := if packInt dt then .i32 else .f32
  let w := partWidth dt
  let dst := if w = 16 then [Use.dst (.v d.val)] else vmerge d (some (packTag dt))
  .next (issue (.vpack h dt rnd sat d a b p) h { uses := dst ++ srcTyped 1 st a ++ bsrcTyped st b } (simple fun x t =>
    let srnd := (t.sheaf x.k).srnd
    (t.writeV x.k d.val x.exec (fun L =>
      let e0 := packElem dt rnd sat (drawOf srnd (2 * p.val) L) (t.vsrc x.k st L a)
      let e1 := packElem dt rnd sat (drawOf srnd (2 * p.val + 1) L) (t.bsrc x.k st L b)
      insertBits (insertBits (t.laneV x.k d.val L) (2 * p.val * w) w e0) ((2 * p.val + 1) * w) w e1)
      (packTag dt)).srndStep x.k rnd) s)

/-- Element p of a lane of a packed type, as a 32-bit result (R219). -/
def unpackElem (st : Ty) (x : Word32) (p : Nat) : Word32 :=
  let w := partWidth st
  let e := x.toNat / 2 ^ (w * p) % 2 ^ w
  if packInt st then (BitVec.ofNat w e).signExtend 32
  else BitVec.ofNat 32 (fmtF32.round .rne 0 false ((tyFmt st).decode e))

/-- VUNPK (0x082, R219): exact. -/
def execVunpk (h : Hdr) (dt st : Ty) (d : VReg) (a : VSrc) (p : Fin 8) (s : State) : Out :=
  .next (issue (.vunpk h dt st d a p) h { uses := .dst (.v d.val) :: srcUses 1 .b32 (some (packTag st)) a }
    (simple fun x t => t.writeV x.k d.val x.exec (fun L => unpackElem st (t.vsrc32 x.k L a) p.val) (tyTag dt)) s)

/-- VQUANT (0x083, R85, R220): the lanes of Exec form one block; every lane receives its element; S[C] receives the
scale. -/
def execVquant (h : Hdr) (dt : Ty) (rnd : Rnd) (d : VReg) (a : VSrc) (c : SReg) (p : Fin 8) (s : State) : Out :=
  let w := partWidth dt
  .next (issue (.vquant h dt rnd d a c p) h
    { uses := vmerge d (some (packTag dt)) ++ srcTyped 1 .f32 a ++ [⟨3, .s c.val, false, true, none⟩] }
    (simple fun x t =>
      let srnd := (t.sheaf x.k).srnd
      let vals := lanes.map fun L => if x.exec.getLsbD L then some (elemVal .f32 (t.vsrc x.k .f32 L a) 0) else none
      let q := quantise dt rnd (fun L => (laneRand srnd (33 * L)).toNat % 2 ^ 32) vals
      let u := t.writeV x.k d.val 0xFFFFFFFF
        (fun L => insertBits (t.laneV x.k d.val L) (p.val * w) w (q.2.1.getD L 0)) (packTag dt)
      let u := (u.writeS x.k c.val (q.1.setWidth 64)).srndStep x.k rnd
      if q.2.2 then u.modSheaf x.k fun y => { y with qnv := true } else u) s)

/-- VDEQ (0x084, R86, R221). -/
def execVdeq (h : Hdr) (st : Ty) (rnd : Rnd) (d : VReg) (a : VSrc) (b : SSrc) (p : Fin 8) (s : State) : Out :=
  let w := partWidth st
  .next (issue (.vdeq h st rnd d a b p) h
    { uses := .dst (.v d.val) :: srcUses 1 .b32 (some (packTag st)) a ++ ssrcUses b } (simple fun x t =>
      (t.writeV x.k d.val x.exec (fun L =>
        let e := (t.vsrc32 x.k L a).toNat / 2 ^ (w * p.val) % 2 ^ w
        let v := scaled ((tyFmt st).decode e) ((t.ssrc x.k b).setWidth 8)
        BitVec.ofNat 32 (fmtF32.round rnd (drawOf (t.sheaf x.k).srnd 0 L) false v)) (tyTag .f32)).srndStep x.k rnd) s)

/-- Bits [hi:lo] of byte j of a lane. -/
def sixPart (x : Word32) (j lo w : Nat) : Nat := x.toNat / 2 ^ (8 * j + lo) % 2 ^ w

/-- VSPLIT6 (0x085, R222): bits [5:2] or [1:0] of each byte into a plane; the destination is merged. -/
def execVsplit6 (h : Hdr) (ty : Ty) (lo : Bool) (d : VReg) (a : VSrc) (p : Fin 4) (s : State) : Out :=
  let tag := if lo then lowPlane ty else tyTag ty
  .next (issue (.vsplit6 h ty lo d a p) h { uses := vmerge d (some tag) ++ srcUses 1 .b32 (some 0) a } (simple fun x t =>
    t.writeV x.k d.val x.exec (fun L =>
      let v := t.vsrc32 x.k L a
      (List.range 4).foldl (fun old j =>
        if lo then insertBits old (8 * p.val + 2 * j) 2 (sixPart v j 0 2)
        else insertBits old (16 * (p.val % 2) + 4 * j) 4 (sixPart v j 2 4)) (t.laneV x.k d.val L)) tag) s)

/-- VJOIN6 (0x086, R222): four elements in byte form from a high and a low plane. -/
def execVjoin6 (h : Hdr) (ty : Ty) (d : VReg) (a : VSrc) (b : BSrc) (p : Fin 4) (s : State) : Out :=
  let bu := match b with
    | .r y => srcUses 2 .b32 (some (lowPlane ty)) y
    | .imm _ => []
  .next (issue (.vjoin6 h ty d a b p) h { uses := .dst (.v d.val) :: srcUses 1 .b32 (some (tyTag ty)) a ++ bu }
    (simple fun x t => t.writeV x.k d.val x.exec (fun L =>
      let hi := (t.vsrc32 x.k L a).toNat
      let low := (t.count32 x.k L b).toNat
      (List.range 4).foldl (fun old j => insertBits old (8 * j) 8
        (hi / 2 ^ (16 * (p.val % 2) + 4 * j) % 16 * 4 + low / 2 ^ (8 * p.val + 2 * j) % 4)) 0) 0) s)

/-- The dot product of a lane with its accumulator (R87): exact, then wrapped, saturated, or rounded once to f32. -/
def dotLane (ty : Ty) (rnd : Rnd) (sat : Bool) (draw : Nat) (a b acc : Word32) : Word32 :=
  let w := partWidth ty
  let el := fun (x : Word32) (i : Nat) => x.toNat / 2 ^ (w * i) % 2 ^ w
  let idx := List.range (32 / w)
  if packInt ty then
    let sum := (idx.map fun i => (BitVec.ofNat w (el a i)).toInt * (BitVec.ofNat w (el b i)).toInt).sum + acc.toInt
    narrowI 32 true sat sum
  else
    let f := tyFmt ty
    let terms := idx.map fun i => FV.mul (f.decode (el a i)) (f.decode (el b i))
    BitVec.ofNat 32 (fmtF32.round rnd draw false (terms.foldl (FV.add (rnd == .rdn)) (fmtF32.decode acc.toNat)))

/-- VDOT8 and VDOT4: D is the accumulator, merged (R223). -/
def vdot (i : Instr) (h : Hdr) (ty : Ty) (rnd : Rnd) (sat : Bool) (d : VReg) (a : VSrc) (b : BSrc) (s : State) : State :=
  let tag := if packInt ty then tyTag .i32 else tyTag .f32
  issue i h { uses := vmerge d (some tag) ++ srcTyped 1 ty a ++ bsrcTyped ty b } (simple fun x t =>
    (t.writeV x.k d.val x.exec (fun L => dotLane ty rnd sat (drawOf (t.sheaf x.k).srnd 0 L) (t.vsrc32 x.k L a)
      ((t.bsrc x.k ty L b).setWidth 32) (t.laneV x.k d.val L)) tag).srndStep x.k rnd) s

/-- VDOT8 (0x087, R223). -/
def execVdot8 (h : Hdr) (ty : Ty) (rnd : Rnd) (sat : Bool) (d : VReg) (a : VSrc) (b : BSrc) (s : State) : Out :=
  .next (vdot (.vdot8 h ty rnd sat d a b) h ty rnd sat d a b s)

/-- VDOT4 (0x088, R223). -/
def execVdot4 (h : Hdr) (ty : Ty) (rnd : Rnd) (sat : Bool) (d : VReg) (a : VSrc) (b : BSrc) (s : State) : Out :=
  .next (vdot (.vdot4 h ty rnd sat d a b) h ty rnd sat d a b s)

/-- VTAG (0x089, R224): copies A with the tag named. -/
def execVtag (h : Hdr) (d : VReg) (a : VSrc) (tag : BitVec 4) (s : State) : Out :=
  .next (issue (.vtag h d a tag) h { uses := .dst (.v d.val) :: srcUses 1 .b32 none a }
    (simple fun x t => t.writeV x.k d.val x.exec (fun L => t.vsrc32 x.k L a) tag) s)

/-- A value of sr.srnd: zero is stored as 1 (R77). -/
def srndOf (x : Word64) : Word64 := if x = 0 then 1 else x

/-- VSRND (0x08A, XOP 0, R225). -/
def execVsrnd (h : Hdr) (a : SReg) (s : State) : Out :=
  .next (issue (.vsrnd h a) h { uses := [.src 1 (.s a.val)] }
    (simple fun x t => t.modSheaf x.k fun y => { y with srnd := srndOf (t.readS x.k a.val) }) s)

/-- VSRND.draw (0x08A, XOP 1, R225). -/
def execVsrndDraw (h : Hdr) (d : SReg) (s : State) : Out :=
  .next (issue (.vsrndDraw h d) h { uses := [.dst (.s d.val)] }
    (simple fun x t => (t.writeS x.k d.val (t.sheaf x.k).srnd).modSheaf x.k fun y => { y with srnd := stepState y.srnd }) s)

end Sys2Proof.Machine
end

