-- ==== Sys2Proof/Machine/CrossLane.lean ====
section
/-!
DEFINITION. Cross-lane and predicate instructions, class 0x5 (R43, R226 to R229).
-/

namespace Sys2Proof.Machine

open Sys2Proof

/-- The uses of a fill operand: it carries A's tag or none, or any tag where A is tagged none (R227). -/
def fillUses (s : State) (ty : Ty) (a : VSrc) : Option VSrc → List Use
  | none => []
  | some (.s r) => [.src 3 (.s r.val)]
  | some (.v r) =>
    let want := fun (t : BitVec 4) => if t = 0 then none else some t
    ⟨3, .v r.val, true, false, want (s.srcTag s.focus a)⟩ ::
      (if ty.is64 then [⟨5, .v (r.val + 1), true, false, want (s.srcTagHi s.focus a)⟩] else [])

/-- Lane L takes the value of A in a source lane, or the fill (R43). -/
def State.fromLane (s : State) (x : Ex) (ty : Ty) (a : VSrc) (fill : Option VSrc) (L : Nat) (src : Int) : Word64 :=
  if 0 ≤ src ∧ src < 32 ∧ x.exec.getLsbD src.toNat then s.vsrc x.k ty src.toNat a
  else match fill with
    | none => 0
    | some f => s.vsrc x.k ty L f

/-- The cross-lane copies: the source lane is given the lane and its value of B (R227). -/
def crossCopy (i : Instr) (h : Hdr) (ty : Ty) (d : VReg) (a : VSrc) (bu : List Use) (fill : Option VSrc)
    (src : State → Nat → Nat → Int) (s : State) : State :=
  issue i h { uses := vdst ty d ++ srcTyped 1 ty a ++ bu ++ fillUses s ty a fill } (simple fun x t =>
    t.writeTags x ty d (t.srcTag x.k a) (t.srcTagHi x.k a) fun L => t.fromLane x ty a fill L (src t x.k L)) s

/-- The source lane of VSHFL (R227). -/
def shflLane (mode : ShflMode) (L b : Nat) : Int :=
  match mode with
  | .idx => b
  | .up => L - b
  | .down => L + b
  | .xor => Nat.xor L b

/-- VSHFL (0x0A0, R227). -/
def execVshfl (h : Hdr) (ty : Ty) (mode : ShflMode) (d : VReg) (a : VSrc) (b : BSrc) (fill : Option VSrc) (s : State) :
    Out :=
  .next (crossCopy (.vshfl h ty mode d a b fill) h ty d a (countUses .b32 b) fill
    (fun t k L => shflLane mode L (t.count32 k L b).toNat) s)

/-- VBCAST (0x0A1, R227). -/
def execVbcast (h : Hdr) (ty : Ty) (d : VReg) (a : VSrc) (b : SSrc) (fill : Option VSrc) (s : State) : Out :=
  .next (crossCopy (.vbcast h ty d a b fill) h ty d a (ssrcUses b) fill
    (fun t k _ => ((t.ssrc k b).setWidth 32 : Word32).toNat) s)

/-- VLROT (0x0A2, R227). -/
def execVlrot (h : Hdr) (ty : Ty) (d : VReg) (a : VSrc) (b : SSrc) (fill : Option VSrc) (s : State) : Out :=
  .next (crossCopy (.vlrot h ty d a b fill) h ty d a (ssrcUses b) fill
    (fun t k L => ((L + ((t.ssrc k b).setWidth 32 : Word32).toNat) % 32 : Nat)) s)

/-- One combination of VRED and VSCAN on 32-bit encodings (R229). -/
def redStep (ty : Ty) (op : RedOp) (rnd : Rnd) (draw : Nat) (a b : Word32) : Word32 :=
  let va := fmtF32.decode a.toNat
  let vb := fmtF32.decode b.toNat
  let flt := fun (v : FV) => BitVec.ofNat 32 (fmtF32.round rnd draw false v)
  let int := fun (f : Int → Int → Int) => wrapI 32 (f (readI (tySigned ty) a) (readI (tySigned ty) b))
  match op with
  | .add => if ty = .f32 then flt (FV.add (rnd == .rdn) va vb) else a + b
  | .min => if ty = .f32 then flt (FV.minNum va vb) else int min
  | .max => if ty = .f32 then flt (FV.maxNum va vb) else int max
  | .and => a &&& b
  | .or => a ||| b
  | .xor => a ^^^ b

/-- One level of the tree: neighbours combine; a lone member passes on unchanged. -/
def redLevel (f : Word32 → Word32 → Word32) : List (Option Word32) → List (Option Word32)
  | a :: b :: t => (match a, b with
    | some x, some y => some (f x y)
    | some x, none => some x
    | none, o => o) :: redLevel f t
  | l => l

/-- The tree of five levels over the lanes of Exec. -/
def redTree (f : Word32 → Word32 → Word32) (l : List (Option Word32)) : Word32 :=
  let r := (List.range 5).foldl (fun x _ => redLevel f x) l
  ((r.head?).getD none).getD 0

/-- VRED (0x0A3, R229). -/
def execVred (h : Hdr) (ty : Ty) (op : RedOp) (rnd : Rnd) (d : SReg) (a : VSrc) (s : State) : Out :=
  .next (issue (.vred h ty op rnd d a) h { uses := .dst (.s d.val) :: srcTyped 1 ty a } (simple fun x t =>
    let draw := drawOf (t.sheaf x.k).srnd 0 0
    let r := redTree (redStep ty op rnd draw)
      (lanes.map fun L => if x.exec.getLsbD L then some (t.vsrc32 x.k L a) else none)
    (t.writeS x.k d.val (if tySigned ty then r.signExtend 64 else r.setWidth 64)).srndStep x.k rnd) s)

/-- The inclusive combinations of a list of lanes with their values. -/
def scanFrom (f : Nat → Word32 → Word32 → Word32) : Option Word32 → List (Nat × Word32) → List (Nat × Word32)
  | _, [] => []
  | acc, (L, v) :: t =>
    let r := match acc with
      | none => v
      | some y => f L y v
    (L, r) :: scanFrom f (some r) t

/-- VSCAN (0x0A4, R229). -/
def execVscan (h : Hdr) (ty : Ty) (op : RedOp) (rnd : Rnd) (d : VReg) (a : VSrc) (s : State) : Out :=
  .next (issue (.vscan h ty op rnd d a) h { uses := .dst (.v d.val) :: srcTyped 1 ty a } (simple fun x t =>
    let srnd := (t.sheaf x.k).srnd
    let r := scanFrom (fun L => redStep ty op rnd (drawOf srnd 0 L)) none
      ((lanesOf x.exec).map fun L => (L, t.vsrc32 x.k L a))
    (t.writeV x.k d.val x.exec (fun L => ((r.find? fun p => p.1 == L).map (·.2)).getD 0) (tyTag ty)).srndStep x.k rnd) s)

/-- VBALLOT (0x0A5, R228). -/
def execVballot (h : Hdr) (d : SReg) (a : PReg) (s : State) : Out :=
  .next (issue (.vballot h d a) h { uses := [.src 1 (.p a.val), .dst (.s d.val)] }
    (simple fun x t => t.writeS x.k d.val ((x.exec &&& t.readP x.k a.val).setWidth 64)) s)

/-- VMATCH (0x0A6, R228): bitwise equality, over both registers for b64; tag int32. -/
def execVmatch (h : Hdr) (ty : Ty) (d : VReg) (a : VSrc) (s : State) : Out :=
  .next (issue (.vmatch h ty d a) h { uses := .dst (.v d.val) :: srcTyped 1 ty a } (simple fun x t =>
    t.writeV x.k d.val x.exec (fun L => mask32 fun M =>
      x.exec.getLsbD M && t.vsrc x.k ty M a == t.vsrc x.k ty L a) 0xD) s)

/-- A predicate instruction of two sources. -/
def pred2 (i : Instr) (h : Hdr) (d a b : PReg) (f : Word32 → Word32 → Word32) (s : State) : State :=
  issue i h { uses := [.src 1 (.p a.val), .src 2 (.p b.val), .dst (.p d.val)] }
    (simple fun x t => t.writeP x.k d.val x.exec (f (t.readP x.k a.val) (t.readP x.k b.val))) s

/-- A predicate instruction of one source. -/
def pred1 (i : Instr) (h : Hdr) (d a : PReg) (f : Word32 → Word32) (s : State) : State :=
  issue i h { uses := [.src 1 (.p a.val), .dst (.p d.val)] }
    (simple fun x t => t.writeP x.k d.val x.exec (f (t.readP x.k a.val))) s

/-- PSET (0x0A7, R228): bit L of S[A]. -/
def execPset (h : Hdr) (d : PReg) (a : SReg) (s : State) : Out :=
  .next (issue (.pset h d a) h { uses := [.src 1 (.s a.val), .dst (.p d.val)] }
    (simple fun x t => t.writeP x.k d.val x.exec ((t.readS x.k a.val).setWidth 32)) s)

/-- PSET with an immediate (0x0A7, SB = 1). -/
def execPsetImm (h : Hdr) (d : PReg) (imm : Word32) (s : State) : Out :=
  .next (issue (.psetImm h d imm) h { uses := [.dst (.p d.val)] } (simple fun x t => t.writeP x.k d.val x.exec imm) s)

/-- PAND (0x0A8). -/
def execPand (h : Hdr) (d a b : PReg) (s : State) : Out := .next (pred2 (.pand h d a b) h d a b (· &&& ·) s)

/-- POR (0x0A9). -/
def execPor (h : Hdr) (d a b : PReg) (s : State) : Out := .next (pred2 (.por h d a b) h d a b (· ||| ·) s)

/-- PXOR (0x0AA). -/
def execPxor (h : Hdr) (d a b : PReg) (s : State) : Out := .next (pred2 (.pxor h d a b) h d a b (· ^^^ ·) s)

/-- PNOT (0x0AB). -/
def execPnot (h : Hdr) (d a : PReg) (s : State) : Out := .next (pred1 (.pnot h d a) h d a (fun p => ~~~p) s)

/-- PMOV (0x0AC). -/
def execPmov (h : Hdr) (d a : PReg) (s : State) : Out := .next (pred1 (.pmov h d a) h d a id s)

/-- PCNT (0x0AD, R228). -/
def execPcnt (h : Hdr) (d : SReg) (a : PReg) (s : State) : Out :=
  .next (issue (.pcnt h d a) h { uses := [.src 1 (.p a.val), .dst (.s d.val)] }
    (simple fun x t => t.writeS x.k d.val (BitVec.ofNat 64 (popc (x.exec &&& t.readP x.k a.val)))) s)

/-- PFIRST (0x0AE, R228): the lowest such lane, or 32. -/
def execPfirst (h : Hdr) (d : SReg) (a : PReg) (s : State) : Out :=
  .next (issue (.pfirst h d a) h { uses := [.src 1 (.p a.val), .dst (.s d.val)] }
    (simple fun x t => t.writeS x.k d.val (BitVec.ofNat 64 (lowest (x.exec &&& t.readP x.k a.val)))) s)

end Sys2Proof.Machine
end

