-- ==== Sys2Proof/Machine/EvCore.lean ====
section
/-!
DEFINITION. Events of the cores, their registers and their slots: returns of lanes (R38), the settling of memory faults
(R404, R406), trap entry (R382), grants of extended blocks and the compactor (R50, R51), and the sweepers (R57, R58).
-/

namespace Sys2Proof.Machine

open Sys2Proof

/-! Loads. -/

/-- LOAD_LANE_RETURN (R38, R113): one lane of a load is written; the last clears the pending bits. -/
def execLoadLaneReturn (p : Place) (id lane : Nat) (s : State) : Out :=
  .next ((s.returnLanes (placeKey p) id (laneBit lane)).freeVisitor (placeKey p))

/-- The trap record of a settled fault: KIND of the code, the faulted lanes, the instruction (R403, R404). -/
def settleTrap (l : Load) (pc : Word64) (opc : BitVec 9) (micro : Option MicroPos) : Trap :=
  ⟨kindOf l.code, l.code, l.bad, l.addr, pc, opc, BitVec.ofNat 5 (match micro with
    | some m => m.idx
    | none => 0), micro.isSome⟩

/-- The slot settles: the lanes performed are written, and those that faulted are replayed after the trap (R404); in a
fragment they return home, and the others go on (R406). -/
def State.settle (s : State) (k : Nat) (b : Bool) (l : Load) (pc : Word64) (opc : BitVec 9)
    (micro : Option MicroPos) : State :=
  let s := ((s.returnLanes k l.id l.ready).tagLoad k l.dest).modSheaf k fun y =>
    (y.loadDone l.id).modSlot b fun sl => { sl with park := none }
  if (s.sheaf k).frag.isSome then (s.fragReturn k b l.bad pc 2 0 l.code l.addr).refill k
  else
    let s := s.modSlot k b fun sl =>
      { sl with
        pc := pc
        micro := micro
        replay := l.bad
        replayPc := pc
        replayIdx := match micro with
          | some m => m.idx
          | none => 0 }
    s.takeTrap k b (settleTrap l pc opc micro)

/-- MEMORY_FAULT_SETTLE (R404): once every lane has been performed or has faulted. -/
def execMemoryFaultSettle (p : Place) (b : Bool) (s : State) : Out :=
  let k := placeKey p
  .next (match ((s.sheaf k).slot b).park with
    | some (.memory id pc opc _ micro) =>
      match (s.sheaf k).loads.find? fun l => l.id == id with
      | none => s.modSlot k b fun sl => { sl with park := none }
      | some l =>
        if l.left &&& ~~~l.ready &&& ~~~l.bad ≠ 0 then s
        else if l.bad = 0 then s.modSlot k b fun sl => { sl with park := none }
        else (s.settle k b l pc opc micro).refill k
    | _ => s)

/-! Traps. -/

/-- TRAP_ENTRY (R382, R398): a trap that waits is entered once it can be. -/
def execTrapEntry (p : Place) (b : Bool) (s : State) : Out :=
  let k := placeKey p
  .next (match Tab.find s.sheaves k with
    | none => s
    | some sh => match (sh.slot b).waiting with
      | none => s
      | some t =>
        let runs := (match s.launchOf k with
          | some l => l.state == .active
          | none => false) && (s.span sh.span).state == .running && !s.checkpoint
        if runs && s.canEnter k b then (s.enterTrap k b t).refill k else s.later (.trapEntry p b))

/-! The extended pool. -/

/-- EXTENDED_BLOCK_GRANT (R49, R50): the requests that wait are met in the order they were made. -/
def execExtendedBlockGrant (core : Nat) (s : State) : Out := .next (s.offerBlocks core)

/-- The place that holds register idx of a unit's vector store (R49, R52). -/
def State.regOwner (s : State) (unit idx : Nat) : Option Nat :=
  (s.sheaves.find? fun p => unitOf p.1 == unit &&
    (if nearMem p.1 then decide ((slotOf p.1 - 16) * 192 ≤ idx ∧ idx < (slotOf p.1 - 16) * 192 + p.2.vcount)
    else if idx < 1024 then p.2.vbase.isNone && idx / 64 == slotOf p.1
    else (match p.2.vbase with
        | some b => decide (1024 + b ≤ idx ∧ idx < 1024 + b + 64)
        | none => false) ||
      (match p.2.ext with
        | some x => decide (1024 + x.start ≤ idx ∧ idx < 1024 + x.start + x.size)
        | none => false))).map (·.1)

/-- The generation under which register idx of a unit's vector store is held; 0 where nothing holds it. -/
def State.regGen (s : State) (unit idx : Nat) : Gen :=
  match s.regOwner unit idx with
  | none => 0
  | some k =>
    let sh := s.sheaf k
    match sh.ext with
    | none => sh.baseGen
    | some x =>
      let e := if nearMem k then (slotOf k - 16) * 192 + 64 else 1024 + x.start
      if e ≤ idx ∧ idx < e + x.size then x.gen else sh.baseGen

/-- Every live PC slot of a sheaf is parked (R36). -/
def Sheaf.allParked (sh : Sheaf) : Bool :=
  sh.park.isSome || sh.atMarker || ((!sh.a.live || sh.a.park.isSome) && (!sh.b.live || sh.b.park.isSome))

/-- The block may move: its owner is parked, with no pending bit in the block (R51). -/
def State.movable (s : State) (core start size : Nat) : Bool :=
  match s.regOwner core (1024 + start) with
  | none => false
  | some k =>
    let sh := s.sheaf k
    let lo := if sh.vbase = some start then 0 else 64
    sh.allParked && (List.range size).all fun i => !sh.pending (.v (lo + i))

/-- The moves that the compactor may make in an arena: each block that may move, to each free place of its size. -/
def State.moves (s : State) (core arena : Nat) : List (Nat × Nat) :=
  let c := s.core core
  let mine := c.blocks.filter fun p => p.1 / 1024 == arena && s.movable core p.1 p.2
  (mine.map fun p => ((List.range (1024 / p.2)).map fun i => (p.1, arena * 1024 + i * p.2)).filter fun m =>
    poolFree c.blocks m.2 p.2).flatten

/-- COMPACTOR_MOVE (R51): a move begins when the first request cannot be met but one arena holds enough; a move after
which it can be met comes first, otherwise which is the machine's choice. -/
def execCompactorMove (core : Nat) (s : State) : Out :=
  .next (match s.compactArena core with
    | none => s
    | some a =>
      let c := s.core core
      let size := match c.waiting with
        | [] => 0
        | r :: _ => r.size
      let ms := s.moves core a
      let good := ms.filter fun m =>
        (poolPlace (Tab.put (Tab.del c.blocks m.1) m.2 (Tab.get 0 c.blocks m.1)) size).isSome
      match pick (if good = [] then ms else good) (Config.choose s.choices) with
      | none => s.later (.compactorMove core)
      | some m =>
        (s.modCore core fun x => { x with
          move := some m
          blocks := Tab.put x.blocks m.2 (Tab.get 0 x.blocks m.1) }).later (.compactorMoveDone core))

/-- The launch that holds a register with an uncorrectable error is discarded (R414). -/
def State.containReg (s : State) (unit idx : Nat) : State :=
  match s.regOwner unit idx with
  | some k => s.discardAt (s.sheaf k).launch 0 0 0 (nodeOfUnit unit)
  | none => { s with
      vregs := Tab.upd VCell.zero s.vregs (unit * 8192 + idx) fun c => { c with gen := 0 }
      badRegs := s.badRegs.filter (· != unit * 8192 + idx) }.post 2 0 0 (nodeOfUnit unit) 0

/-- Contains an uncorrectable error in a register or an accumulator row (R372, R414): the launch that holds it is discarded;
where none does, the tag becomes 0x0000 and context 0 is told. -/
def State.containWord (s : State) (w : BadWord) : State :=
  let gone := { s with badWords := s.badWords.filter (· != w) }
  match w with
  | .scalar k r => (match Tab.find s.sheaves k with
    | some sh => s.discardAt sh.launch 0 0 0 (nodeOfUnit (unitOf k))
    | none => { gone with sregs := Tab.upd SCell.zero s.sregs (k * 64 + r) fun c => { c with gen := 0 } }.post 2 0 0
        (nodeOfUnit (unitOf k)) 0)
  | .pred k r => (match Tab.find s.sheaves k with
    | some sh => s.discardAt sh.launch 0 0 0 (nodeOfUnit (unitOf k))
    | none => { gone with pregs := Tab.upd PCell.zero s.pregs (k * 8 + r) fun c => { c with gen := 0 } }.post 2 0 0
        (nodeOfUnit (unitOf k)) 0)
  | .row key => (match s.crews.find? fun p => p.2.core == key / 1024 && p.2.tiles.contains (key / 16 % 64) with
    | some c => s.discardAt c.2.launch 0 0 0 (clusterOf (key / 1024))
    | none => { gone with acc := Tab.upd TileRow.zero s.acc key fun c => { c with gen := 0 } }.post 2 0 0
        (clusterOf (key / 1024)) 0)
  | .store _ _ => s
  | .control => s

/-- The unit in whose store a word with an error lies, where a sweeper finds it. -/
def BadWord.unit : BadWord → Option Nat
  | .scalar k _ | .pred k _ => some (unitOf k)
  | .row key => some (key / 1024)
  | .store _ _ | .control => none

/-- COMPACTOR_MOVE_DONE (R51): data and tags lie at the new place. -/
def execCompactorMoveDone (core : Nat) (s : State) : Out :=
  .next (match (s.core core).move with
    | none => s
    | some (a, d) =>
      let size := Tab.get 0 (s.core core).blocks a
      let base := core * 8192 + 1024
      let bad := (List.range size).filter fun i => s.badRegs.contains (base + a + i)
      match bad with
      | i :: _ =>
        (s.modCore core fun c => { c with
          move := none
          blocks := Tab.del c.blocks d }).containReg core (1024 + a + i)
      | [] =>
        let s := (List.range size).foldl (fun (t : State) i =>
          { t with vregs := Tab.set VCell.zero t.vregs (base + d + i) (Tab.get VCell.zero s.vregs (base + a + i)) }) s
        let s := match s.regOwner core (1024 + a) with
          | none => s
          | some k => s.modSheaf k fun y =>
            if y.vbase = some a then { y with vbase := some d }
            else { y with ext := y.ext.map fun (x : ExtBlk) => { x with start := d } }
        (s.modCore core fun c => { c with
          move := none
          blocks := Tab.del c.blocks a }).offerBlocks core)

/-! The sweepers. -/

/-- The tags of stale register granules and accumulator rows of a unit become 0x0000; data stays (R58). -/
def State.sweepRegs (s : State) (unit : Nat) : State :=
  let place := fun (key per : Nat) => key / per
  let held := fun (k : Nat) => (s.sheaf k).baseGen
  let accGen := fun (key : Nat) =>
    ((s.crews.find? fun p => p.2.core == key / 1024 && p.2.tiles.contains (key / 16 % 64)).map (·.2.accGen)).getD 0
  { s with
    vregs := (s.vregs.map fun (p : Nat × VCell) =>
      if p.1 / 8192 = unit ∧ p.2.gen ≠ s.regGen unit (p.1 % 8192) then (p.1, { p.2 with gen := 0 }) else p).filter
        fun p => p.2 != VCell.zero
    sregs := (s.sregs.map fun (p : Nat × SCell) =>
      if unitOf (place p.1 64) = unit ∧ p.2.gen ≠ held (place p.1 64) then (p.1, { p.2 with gen := 0 }) else p).filter
        fun p => p.2 != SCell.zero
    pregs := (s.pregs.map fun (p : Nat × PCell) =>
      if unitOf (place p.1 8) = unit ∧ p.2.gen ≠ held (place p.1 8) then (p.1, { p.2 with gen := 0 }) else p).filter
        fun p => p.2 != PCell.zero
    acc := (s.acc.map fun (p : Nat × TileRow) =>
      if p.1 / 1024 = unit ∧ p.2.gen ≠ accGen p.1 then (p.1, { p.2 with gen := 0 }) else p).filter
        fun p => p.2 != TileRow.zero }

/-- The tags of stale granules in [a, a + n) become 0x0000, and errors found there are contained. -/
def State.sweepGranules (s : State) (a n : Nat) : State :=
  let s := { s with tags := s.tags.filter fun p => !(decide (a ≤ 32 * p.1 ∧ 32 * p.1 < a + n) && s.stale (32 * p.1)) }
  (s.badSram.filter fun g => decide (a ≤ 32 * g ∧ 32 * g < a + n)).foldl State.containGranule s

/-- A GENSWEEP ends once the pass it waits for has ended (R205). -/
def State.wakeSweeps (s : State) (slice : Bool) (key passes : Nat) : State :=
  (s.sheaves.map (·.1)).foldl (fun (t : State) k => match (t.sheaf k).block with
    | some (.sweep b sl n) =>
      if sl = slice ∧ n ≤ passes ∧ (if slice then 256 + clusterOf (unitOf k) else unitOf k) = key then
        (t.modSheaf k fun y => { y with block := none }).advance k b 8
      else t
    | _ => t) s

/-- A sheaf waits for a sweeper's pass. -/
def State.sweepWaited (s : State) (slice : Bool) (key : Nat) : Bool :=
  s.sheaves.any fun p => (match p.2.block with
    | some (.sweep _ sl _) => sl == slice && (if slice then 256 + clusterOf (unitOf p.1) else unitOf p.1) == key
    | _ => false)

/-- SWEEPER_PASS_END (R57, R58, R205): a pass has examined every granule; values whose quarantine ends are free. -/
def execSweeperPassEnd (slice : Bool) (n : Nat) (s : State) : Out :=
  if (if slice then 32 ≤ n else 256 ≤ n ∧ n < 1000) then .next s else
  let key := if slice then 256 + n else n
  let unit := if n < 1000 then n else 256 + (n - 1000)
  let s : State := if slice then s.sweepGranules (2 ^ 31 + n * 2 ^ 26) (2 ^ 26)
    else
      let s := if n < 256 then s.sweepGranules (n * 2 ^ 23) (2 ^ 23) else s
      let s := (s.badRegs.filter fun i => i / 8192 == unit).foldl
        (fun (t : State) i => t.containReg unit (i % 8192)) s
      ((s.badWords.filter fun w => w.unit == some unit).foldl State.containWord s).sweepRegs unit
  let passes := (s.genCtr key).passes + 1
  let s := { s with gens := Tab.upd GenCtr.init s.gens key fun c =>
    { c with
      passes := passes
      quar := c.quar.filter fun q => decide (passes < q.2) } }
  let s := (s.wakeSweeps slice key passes).later .spanPlacement
  let s := if !slice && decide (n < 256) && !(s.core n).waiting.isEmpty then s.later (.extendedBlockGrant n) else s
  .next (if !(s.genCtr key).quar.isEmpty || s.sweepWaited slice key then s.sweep key else s)

end Sys2Proof.Machine
end

