-- ==== Sys2Proof/Machine/FarMemory.lean ====
section
/-!
DEFINITION. Far-memory and module commands, class 0x9 (R250 to R257): what is checked and posted at issue. The Sextant and
the modules go on from there by steps of their own.
-/

namespace Sys2Proof.Machine

open Sys2Proof

/-! Addresses of commands. -/

/-- The intermediate address that a record names for a command's address: that of the register that maps it, otherwise
the virtual address (R403). -/
def State.iaName (s : State) (k : Nat) (va : Word64) : BitVec 56 :=
  match rangeLookup (s.ctx (s.ctxOf k)).rr va 1 .mig with
  | .ok t => BitVec.ofNat 56 t.ia
  | .error _ => va.setWidth 56

/-- The alignment trap of a command (R253, R255, R256, R323). -/
def State.crooked (s : State) (x : Ex) (va : Word64) : TrapInfo := ⟨0x0E, 0x08, x.exec, s.iaName x.k va⟩

/-- The illegal use of a value outside its range. -/
def outOfRange (x : Ex) : TrapInfo := ⟨0x03, 10, x.exec, 0⟩

/-- The n bytes at a command's address as a place in one module, or the range fault (R255, R256). -/
def State.moduleArg (s : State) (x : Ex) (va : Word64) (n : Nat) (kind : AKind) : Except TrapInfo (Nat × Nat) :=
  match s.translate (s.ctxOf x.k) va (max n 1) kind with
  | .error r => .error (refusedTrap x r)
  | .ok a => match a.space with
    | .mod m o => if 2 ^ 44 < o + n then .error ⟨0x0C, 0x07, x.exec, BitVec.ofNat 56 a.ia⟩ else .ok (m, o)
    | _ => .error ⟨0x0C, 0x07, x.exec, BitVec.ofNat 56 a.ia⟩

/-! Tensor transfers. -/

/-- The shape of a tensor transfer (Table 11-10). -/
structure Shape where
  lstr : Nat
  loff : Nat
  fstr : Nat
  rows : Nat
  rb : Nat

/-- The shape that S[B] and S[C] give. -/
def Shape.of (b c : Word64) : Shape :=
  { lstr := b.toNat / 2 ^ 32
    loff := b.toNat % 2 ^ 32
    fstr := c.toNat / 2 ^ 32
    rows := c.toNat / 2 ^ 16 % 2 ^ 16 + 1
    rb := (c.toNat % 2 ^ 16 + 1) * 32 }

/-- The virtual address of a byte of a far row. -/
def farVa (far : Word64) (fstr row byte : Nat) : Word64 := far + BitVec.ofNat 64 (row * fstr + byte)

/-- The first far row whose first or last byte does not translate, by row from the lowest. -/
def State.farRows (s : State) (x : Ex) (far : Word64) (sh : Shape) (kind : AKind) : Nat → Nat → Option Refused
  | 0, _ => none
  | f + 1, r =>
    let ctx := s.ctxOf x.k
    match s.translate ctx (farVa far sh.fstr r 0) 1 kind with
    | .error e => some e
    | .ok _ => match s.translate ctx (farVa far sh.fstr r (sh.rb - 1)) 1 kind with
      | .error e => some e
      | .ok _ => State.farRows s x far sh kind f (r + 1)

/-- The checks of R253, in order. -/
def State.tensorCheck (s : State) (x : Ex) (far : Word64) (sh : Shape) (kind : AKind) : Option TrapInfo :=
  let c := s.crew (s.sheaf x.k).crew
  if far.toNat % 32 ≠ 0 ∨ sh.lstr % 32 ≠ 0 ∨ sh.loff % 32 ≠ 0 ∨ sh.fstr % 32 ≠ 0 then some (s.crooked x far)
  else match (List.range sh.rows).find? fun r => decide (c.size < sh.loff + r * sh.lstr + sh.rb) with
    | some r => some ⟨0x0C, 0x05, x.exec, BitVec.ofNat 56 (c.base + sh.loff + r * sh.lstr)⟩
    | none => (s.farRows x far sh kind sh.rows 0).map (refusedTrap x)

/-- Adds a command to the Sextant: in the crew's share of the queue, otherwise in the spill ring; none when both are full
(R250). A crew with room in its share that finds all 256 records of the queue taken spills too, of which R250 does not speak
(DESIGN CHOICE, log entry 125). -/
def Sextant.post (q : Sextant) (id : Nat) (c : FarCmd) : Option Sextant :=
  let mine := (q.queue.filter fun p => p.2.crew == c.crew).length
  let spilled := q.spill.any fun p => p.2.crew == c.crew
  if mine < 64 ∧ q.queue.length < 256 ∧ !spilled then some { q with queue := q.queue ++ [(id, c)] }
  else if q.spill.length < 512 then some { q with spill := q.spill ++ [(id, c)] }
  else none

/-- Posts a tensor transfer; with the spill ring full too, its sheaf blocks (R250). -/
def State.postTensor (s : State) (x : Ex) (c : FarCmd) : Flow × State :=
  let core := unitOf x.k
  let sx := (s.core core).sextant
  match sx.post s.nextId c with
  | none => (.wait, s.modSheaf x.k fun y => { y with block := some (.retry x.b) })
  | some q =>
    let s := s.modCore core fun y => { y with sextant := q }
    let s := { s with nextId := s.nextId + 1 }
    let s := s.modCrew c.crew fun y => { y with posted := y.posted + 1 }
    let s := s.modSheaf x.k fun y => { y with block := none }
    (.next, if sx.queue = [] ∧ sx.spill = [] then s.later (.chunkSend core) else s)

/-- Some far row has a memory type (R98, R254). -/
def State.farHas (s : State) (x : Ex) (far : Word64) (sh : Shape) (kind : AKind) (mt : Nat) : Bool :=
  (List.range sh.rows).any fun r => s.hasMt (s.ctxOf x.k) (farVa far sh.fstr r 0) sh.rb kind mt

/-- TFETCH and TSTORE. On a STRONG far side the command acts as .ar at .job, whatever it states (R115). -/
def tensor (i : Instr) (h : Hdr) (kind : FarKind) (ord : Order) (b : BSlot) (ra rb rc : SReg) (s : State) : State :=
  issue i h { uses := [.src 1 (.s ra.val), .src 2 (.s rb.val), .src 3 (.s rc.val)], slots := [b.val] } (fun x t =>
    let far := t.readS x.k ra.val
    let sh := Shape.of (t.readS x.k rb.val) (t.readS x.k rc.val)
    let acc : AKind := match kind with
      | .fetch => .rd
      | .store => .wr
    match t.tensorCheck x far sh acc with
    | some e => .error e
    | none =>
      let strong := t.farHas x far sh acc 3
      waitRemote (strong || Order.acquires ord) x t (fun t => .ok (t.postTensor x
        { kind := kind
          crew := (t.sheaf x.k).crew
          place := x.k
          ctx := t.ctxOf x.k
          slot := b
          far := far
          fstr := sh.fstr
          loff := sh.loff
          lstr := sh.lstr
          rows := sh.rows
          rowBytes := sh.rb
          row := 0
          byte := 0
          big := decide (2 ^ 20 < sh.rows * sh.rb)
          rel := strong || Order.releases ord
          dev := t.farHas x far sh acc 2
          bad := false }))) s

/-- TFETCH (0x120, R253, R254). -/
def execTfetch (h : Hdr) (ord : Order) (scp : Scope) (sl : BSlot) (a b c : SReg) (s : State) : Out :=
  .next (tensor (.tfetch h ord scp sl a b c) h .fetch ord sl a b c s)

/-- TSTORE (0x121, R253, R254). -/
def execTstore (h : Hdr) (ord : Order) (scp : Scope) (sl : BSlot) (a b c : SReg) (s : State) : Out :=
  .next (tensor (.tstore h ord scp sl a b c) h .store ord sl a b c s)

/-- TWIN (0x122, R257). -/
def execTwin (h : Hdr) (a : SReg) (s : State) : Out :=
  .next (issue (.twin h a) h { uses := [.src 1 (.s a.val)] } (simple fun x t =>
    let n := max 1 (min 65536 (t.readS x.k a.val).toNat)
    t.modCrew (t.sheaf x.k).crew fun y => { y with allow := n }) s)

/-- The crew's commands queued or spilled and not yet fully sent (R257). -/
def State.queuedOf (s : State) (core crew : Nat) : Nat :=
  let q := (s.core core).sextant
  ((q.queue ++ q.spill).filter fun p => p.2.crew == crew).length

/-- TWQ (0x123, R257). -/
def execTwq (h : Hdr) (w : TwqWhat) (d : SReg) (s : State) : Out :=
  .next (issue (.twq h w d) h { uses := [.dst (.s d.val)] } (simple fun x t =>
    let n := (t.sheaf x.k).crew
    let c := t.crew n
    t.writeS x.k d.val (BitVec.ofNat 64 (match w with
      | .allow => c.allow
      | .flight => c.flight
      | .queued => t.queuedOf (unitOf x.k) n))) s)

/-! Module commands. -/

/-- The TY code of a command frame: that of MRED, or 0 (R444). -/
def ModCmd.tyCode (c : ModCmd) : Nat := if c.code = 2 then c.ty.code.toNat else 0

def MredOp.num : MredOp → Nat
  | .add => 0
  | .min => 1
  | .max => 2

/-- The 64-byte payload of a command frame (R444). -/
def ModCmd.payload (c : ModCmd) : List Byte :=
  leBytes 8 (c.code + c.tyCode * 256 + (if c.code = 2 then MredOp.num c.op * 65536 else 0)) ++ leBytes 8 c.w1.toNat ++
    leBytes 8 c.w2.toNat ++ leBytes 8 c.w3.toNat ++ List.replicate 32 0

/-- Sends a command to a module (R444): its number at the source, and the state. -/
def State.sendCmd (s : State) (m : Nat) (ctx : Nat) (c : ModCmd) : Nat × State :=
  match s.openXfer .command c.launch 1 [] with
  | (xid, s) =>
    let f : Frame := { Frame.zero with
      daddr := c.w1.setWidth 56
      src := s.host.pkgnum
      type := 8
      len := 1
      xid := BitVec.ofNat 16 xid
      ctx := BitVec.ofNat 10 ctx
      payload := c.payload }
    (xid, ({ s with modCmds := Tab.put s.modCmds xid c }).sendOut ⟨f, .memory m, [], c.launch, [], [], false⟩)

/-- A place in a module as the address that a command frame carries. -/
def modIa (p : Nat × Nat) : Word64 := BitVec.ofNat 64 (2 ^ 55 + p.1 * 2 ^ 44 + p.2)

/-- A command of this place. -/
def State.newCmd (s : State) (x : Ex) (code : Nat) (ty : Ty) (op : MredOp) (w1 w2 w3 : Word64) (slot : Option BSlot) :
    ModCmd :=
  ⟨code, ty, op, w1, w2, w3, x.k, (s.sheaf x.k).crew, slot, (s.sheaf x.k).launch⟩

/-- Posts a command whose completion arrives on a slot (R255); one to a module that is unreachable faults it (R415). -/
def State.postCmd (s : State) (x : Ex) (m : Nat) (c : ModCmd) : State :=
  if (s.modl m).unreachable then match c.slot with
    | some b => s.arriveFault ((s.crew c.crew).slotAddr b.val) 0x21 (c.w1.setWidth 56)
    | none => s
  else ((s.sendCmd m (s.ctxOf x.k) c).2).modCrew c.crew fun y => { y with posted := y.posted + 1 }

/-- MCOPY and MRED: two addresses of one module, multiples of a unit, and a length in 32-byte units; its limit is checked
before the alignment (Table 19-1). -/
def twoArgs (i : Instr) (h : Hdr) (code : Nat) (ty : Ty) (op : MredOp) (unit limit : Nat) (ord : Order) (b : BSlot)
    (ra rb rc : SReg) (s : State) : State :=
  issue i h { uses := [.src 1 (.s ra.val), .src 2 (.s rb.val), .src 3 (.s rc.val)], slots := [b.val] } (fun x t =>
    let da := t.readS x.k ra.val
    let sa := t.readS x.k rb.val
    let n := (t.readS x.k rc.val).toNat
    if limit < n then .error (outOfRange x)
    else if da.toNat % unit ≠ 0 ∨ n % 32 ≠ 0 then .error (t.crooked x da)
    else if sa.toNat % unit ≠ 0 then .error (t.crooked x sa)
    else match t.moduleArg x da n .wr with
      | .error e => .error e
      | .ok d => match t.moduleArg x sa n .rd with
        | .error e => .error e
        | .ok q =>
          if d.1 ≠ q.1 then .error ⟨0x0C, 0x07, x.exec, t.iaName x.k sa⟩
          else if n = 0 then .ok (.next, t.arrive (t.crew (t.sheaf x.k).crew |>.slotAddr b.val) 1)
          else waitRemote (Order.acquires ord || t.hasMt (t.ctxOf x.k) da n .wr 3 || t.hasMt (t.ctxOf x.k) sa n .rd 3) x t
            (fun t => .ok (.next, t.postCmd x d.1 (t.newCmd x code ty op (modIa d) (modIa q) (BitVec.ofNat 64 n) (some b))))) s

/-- MCOPY (0x124, R255). -/
def execMcopy (h : Hdr) (ord : Order) (scp : Scope) (sl : BSlot) (a b c : SReg) (s : State) : Out :=
  .next (twoArgs (.mcopy h ord scp sl a b c) h 0 .none .add 32 (2 ^ 40) ord sl a b c s)

/-- MRED (0x126, R255). -/
def execMred (h : Hdr) (ty : Ty) (op : MredOp) (ord : Order) (scp : Scope) (sl : BSlot) (a b c : SReg) (s : State) : Out :=
  .next (twoArgs (.mred h ty op ord scp sl a b c) h 2 ty op 1 (2 ^ 64) ord sl a b c s)

/-- MFILL (0x125, R255). -/
def execMfill (h : Hdr) (ord : Order) (scp : Scope) (sl : BSlot) (a b c : SReg) (s : State) : Out :=
  .next (issue (.mfill h ord scp sl a b c) h
    { uses := [.src 1 (.s a.val), .src 2 (.s b.val), .src 3 (.s c.val)], slots := [sl.val] } (fun x t =>
    let da := t.readS x.k a.val
    let n := (t.readS x.k c.val).toNat
    if da.toNat % 8 ≠ 0 ∨ n % 8 ≠ 0 then .error (t.crooked x da)
    else match t.moduleArg x da n .wr with
      | .error e => .error e
      | .ok d =>
        if n = 0 then .ok (.next, t.arrive (t.crew (t.sheaf x.k).crew |>.slotAddr sl.val) 1)
        else waitRemote (Order.acquires ord || t.hasMt (t.ctxOf x.k) da n .wr 3) x t (fun t => .ok (.next, t.postCmd x d.1
          (t.newCmd x 1 .none .add (modIa d) (t.readS x.k b.val) (BitVec.ofNat 64 n) (some sl))))) s)

/-- MSNAP (0x127, R256): blocks until the module answers; of a module that is unreachable it has the result of R417. -/
def execMsnap (h : Hdr) (ord : Order) (scp : Scope) (d a b : SReg) (s : State) : Out :=
  .next (issue (.msnap h ord scp d a b) h { uses := [.src 1 (.s a.val), .src 2 (.s b.val), .dst (.s d.val)] } (fun x t =>
    let va := t.readS x.k a.val
    let n := (t.readS x.k b.val).toNat
    if n < 2 ^ 16 ∨ 2 ^ 36 < n then .error (outOfRange x)
    else if va.toNat % 2 ^ 16 ≠ 0 ∨ n % 2 ^ 16 ≠ 0 then .error (t.crooked x va)
    else match t.moduleArg x va n .rd with
      | .error e => .error e
      | .ok m => waitRemote (Order.acquires ord || t.hasMt (t.ctxOf x.k) va n .rd 3) x t (fun t =>
        if (t.modl m.1).unreachable then .ok (.next, t.writeS x.k d.val 0x8000000000000002)
        else match t.sendCmd m.1 (t.ctxOf x.k) (t.newCmd x 3 .none .add (modIa m) 0 (BitVec.ofNat 64 n) none) with
        | (xid, u) => .ok (.stay, u.modSheaf x.k fun y => { y with block := some (.command x.b (some d) xid) }))) s)

/-- MCLOSE (0x128, R256): posts the release; a handle that names no view has no effect. -/
def execMclose (h : Hdr) (ord : Order) (scp : Scope) (a : SReg) (s : State) : Out :=
  .next (issue (.mclose h ord scp a) h { uses := [.src 1 (.s a.val)] } (fun x t =>
    let v := t.readS x.k a.val
    let m := v.toNat / 2 ^ 44 % 2 ^ 11
    if v.toNat / 2 ^ 55 ≠ 1 ∨ !v.getLsbD 43 ∨ v.toNat % 2 ^ 36 ≠ 0 then .ok (.next, t)
    else if !t.mapped m then .error ⟨0x0C, 0x04, x.exec, v.setWidth 56⟩
    else waitRemote (Order.acquires ord) x t
      (fun t => .ok (.next, if (t.modl m).unreachable then t else (t.sendCmd m (t.ctxOf x.k) (t.newCmd x 4 .none .add v 0 0 none)).2))) s)

end Sys2Proof.Machine
end

