-- ==== Sys2Proof/Machine/StateInstr.lean ====
section
/-!
DEFINITION. State instructions, class 0x6 (R186 to R192).
-/

namespace Sys2Proof.Machine

open Sys2Proof

/-- Registers of a size of XACQ. -/
def XSize.regs : XSize → Nat
  | .x32 => 32
  | .x64 => 64
  | .x128 => 128

/-- XACQ (0x0C0, R49, R187): a sheaf that cannot be served parks, and goes on when its request is granted. -/
def execXacq (h : Hdr) (n : XSize) (s : State) : Out :=
  .next (issue (.xacq h n) h {} (fun x t =>
    match t.xacq x.k x.b (XSize.regs n) false with
    | (u, true) => .ok (.next, u)
    | (u, false) => .ok (.stay, u)) s)

/-- Frees the extended block of a place (R49). -/
def State.dropBlock (s : State) (k : Nat) : State := match (s.sheaf k).ext with
  | none => s
  | some e =>
    ((s.modSheaf k fun y => { y with ext := none }).quarantine (genKey k) e.gen).freeBlock (unitOf k) e.start

/-- XREL (0x0C1, R187): a pending extended register is a hazard at site 6. -/
def execXrel (h : Hdr) (s : State) : Out :=
  .next (issue (.xrel h) h
    { uses := (List.range (s.sheaf s.focus).xblk).map fun i => ⟨6, .v (64 + i), false, false, none⟩ }
    (simple fun x t => t.dropBlock x.k) s)

/-- The position of a sheaf's crew within its span (Table 2-2). -/
def State.crewIndex (s : State) (k : Nat) : Nat :=
  ((s.span (s.sheaf k).span).crews.takeWhile (· != (s.sheaf k).crew)).length

/-- The base-block generation of a sheaf at home, as its fragments hold it too (R189). -/
def Sheaf.homeGen (sh : Sheaf) : Gen := match sh.frag with
  | some f => f.hgen
  | none => sh.baseGen

/-- The extended-block generation of a sheaf at home; 0x0000 if none is held. -/
def Sheaf.homeXgen (sh : Sheaf) : Gen := match sh.frag with
  | some f => f.xgen
  | none => (sh.ext.map (·.gen)).getD 0

/-- A special register other than sr.lane (Table 3-2). On a near-memory unit the spec gives sr.core no value: it is
free. -/
def State.special (s : State) (k : Nat) (sr : BitVec 4) : Word64 :=
  let sh := s.sheaf k
  match sr.toNat with
  | 1 => BitVec.ofNat 64 sh.idx
  | 2 => BitVec.ofNat 64 (s.crewIndex k)
  | 3 => BitVec.ofNat 64 (s.span sh.span).num
  | 4 => if nearMem k then s.free64 else BitVec.ofNat 64 (unitOf k)
  | 5 => BitVec.ofNat 64 (slotOf k)
  | 6 => s.host.pkgnum.setWidth 64
  | 7 => (s.span sh.span).sliceGen ++ (s.crew sh.crew).scrGen ++ sh.homeXgen ++ sh.homeGen
  | 8 => BitVec.ofNat 64 s.time
  | 9 => BitVec.ofNat 64 (s.hopsOf k)
  | 10 => BitVec.ofNat 64 sh.xblk
  | 11 => boolWord sh.strict
  | 12 => sh.srnd
  | 13 => boolWord sh.qnv
  | 14 => BitVec.ofNat 64 (s.prioOf k)
  | 15 => BitVec.ofNat 64 sh.launch
  | _ => 0

/-- SREAD (0x0C2, R188). -/
def execSread (h : Hdr) (d : VSrc) (sr : BitVec 4) (s : State) : Out :=
  .next (match d with
    | .v r => issue (.sread h d sr) h { uses := [.dst (.v r.val)] }
        (simple fun x t => t.writeV x.k r.val x.exec (fun L => BitVec.ofNat 32 L) 0xD) s
    | .s r => issue (.sread h d sr) h { uses := [.dst (.s r.val)] }
        (simple fun x t => (t.writeS x.k r.val (t.special x.k sr)).tick) s)

/-- SWRITE (0x0C3, R188): sr.srnd, or sr.qnv by writing 1; any other register is an illegal use. -/
def execSwrite (h : Hdr) (sr : BitVec 4) (a : SReg) (s : State) : Out :=
  .next (issue (.swrite h sr a) h { uses := [.src 1 (.s a.val)] } (fun x t =>
    let v := t.readS x.k a.val
    if sr = 12 then .ok (.next, t.modSheaf x.k fun y => { y with srnd := if v = 0 then 1 else v })
    else if sr = 13 then .ok (.next, t.modSheaf x.k fun y => { y with qnv := y.qnv && !v.getLsbD 0 })
    else .error ⟨0x03, 1, x.exec, 0⟩) s)

/-- The generation GENQ reads (R189). -/
def State.genOf (s : State) (k : Nat) (w : GenWhich) : Gen :=
  let sh := s.sheaf k
  match w with
  | .base => sh.homeGen
  | .ext => sh.homeXgen
  | .scr => (s.crew sh.crew).scrGen
  | .slice => (s.span sh.span).sliceGen
  | .acc => (s.crew sh.crew).accGen
  | .visit => if sh.frag.isSome then sh.baseGen else 0

/-- GENQ (0x0C4, R189). -/
def execGenq (h : Hdr) (which : GenWhich) (d : SReg) (s : State) : Out :=
  .next (issue (.genq h which d) h { uses := [.dst (.s d.val)] }
    (simple fun x t => t.writeS x.k d.val ((t.genOf x.k which).setWidth 64)) s)

/-- The key of a row of a crew's tile in the accumulators (R260): its core and physical tile. -/
def accKey (c : Crew) (tile row : Nat) : Nat := c.core * 1024 + c.tiles.getD tile 0 * 16 + row

/-- A row of a crew's tile as it stands. -/
def State.rowRaw (s : State) (c : Crew) (tile row : Nat) : TileRow := Tab.get TileRow.zero s.acc (accKey c tile row)

/-- A row of a crew's tile is stale (R56). -/
def State.rowStale (s : State) (c : Crew) (tile row : Nat) : Bool :=
  c.accGen == 0 || (s.rowRaw c tile row).gen != c.accGen

/-- TAGQ (0x0C5, R189). Of a stale register the format tag that stands in the granule is returned; under strict mode a stale
register is a source that traps, a stale accumulator row is not (R56 and R189 leave both open: DESIGN CHOICE, log entry 103). -/
def execTagq (h : Hdr) (d : SReg) (src : TagqSrc) (s : State) : Out :=
  .next (match src with
    | .vec (.v r) => issue (.tagq h d src) h { uses := [.src 1 (.v r.val), .dst (.s d.val)] } (simple fun x t =>
        t.writeS x.k d.val (BitVec.ofNat 64 ((t.vraw x.k r.val).fmt.toNat * 16) |||
          boolWord (!t.staleReg x.k (.v r.val)))) s
    | .vec (.s r) | .sca r => issue (.tagq h d src) h { uses := [.src 1 (.s r.val), .dst (.s d.val)] } (simple fun x t =>
        t.writeS x.k d.val (boolWord (!t.staleReg x.k (.s r.val)))) s
    | .acc a row => issue (.tagq h d src) h { uses := [.dst (.s d.val)], tiles := [a.val] } (simple fun x t =>
        t.writeS x.k d.val (boolWord (!t.rowStale (t.crew (t.sheaf x.k).crew) a.val row.toNat))) s)

/-- RDTIME (0x0C6, R190). -/
def execRdtime (h : Hdr) (dom : Bool) (d : SReg) (s : State) : Out :=
  .next (issue (.rdtime h dom d) h { uses := [.dst (.s d.val)] }
    (simple fun x t => t.writeS x.k d.val (BitVec.ofNat 64 (if dom then t.nanos else t.time))) s)

/-- LREAD (0x0C7, R191): a variable-latency result. -/
def execLread (h : Hdr) (d a : SReg) (s : State) : Out :=
  .next (issue (.lread h d a) h { uses := [.src 1 (.s a.val), .dst (.s d.val)] } (simple fun x t =>
    (t.startLoad x.k (.sca d) 1 1 0 (Vector.replicate 32 (t.lread (t.readS x.k a.val))) 0 0 false).2) s)

/-! Save-area entries (R192, Table 9-6). -/

/-- The state of a PC slot in an entry; the issuing slot's PC is that of the next instruction. -/
def slotBytes (sl : PcSlot) (pc : Word64) : List Byte :=
  leBytes 8 pc.toNat ++
    leBytes 8 (sl.mask.toNat * 2 ^ 32 + (if sl.live then 256 else 0) + sl.gov % 64)

/-- The register granule is live and held. -/
def State.liveReg (s : State) (k : Nat) (r : Reg) : Bool :=
  (match r with
    | .v i => decide (i < (s.sheaf k).vcount)
    | _ => true) && !s.staleReg k r

/-- The 25,600 bytes of an entry. -/
def State.ctxEntry (s : State) (k : Nat) (b : Bool) (next : Word64) : List Byte :=
  let sh := s.sheaf k
  let pcOf := fun (c : Bool) => if c = b then next else (sh.slot c).pc
  let bits := fun (n : Nat) (f : Nat → Reg) =>
    ((List.range n).map fun i => if s.liveReg k (f i) then 2 ^ i else 0).sum
  slotBytes sh.a (pcOf false) ++ slotBytes sh.b (pcOf true) ++
    leBytes 8 ((if sh.qnv then 2 ^ 17 else 0) + (if sh.strict then 2 ^ 16 else 0) + sh.xblk * 256 + sh.depth) ++
    leBytes 8 sh.srnd.toNat ++ leBytes 8 (bits 64 Reg.s) ++ leBytes 8 (bits 7 Reg.p) ++ List.replicate 192 0 ++
    ((List.range 192).map fun i =>
      if s.liveReg k (.v i) then BitVec.ofNat 8 (16 + (s.vraw k i).fmt.toNat) else 0) ++
    ((List.range 7).map fun i => leBytes 4 (if s.liveReg k (.p i) then s.readP k i else 0).toNat).flatten ++
    List.replicate 36 0 ++
    ((List.range 64).map fun i => leBytes 8 (s.readS k i).toNat).flatten ++
    ((List.range 192).map fun i =>
      if s.liveReg k (.v i) then (lanes.map fun L => leBytes 4 (s.laneV k i L).toNat).flatten
      else List.replicate 128 0).flatten

/-- The virtual address of entry S[A][15:0], or the range fault of an entry beyond SAVECNT. -/
def State.saveEntry (s : State) (x : Ex) (a : SReg) : Except TrapInfo Word64 :=
  let c := s.ctx (s.ctxOf x.k)
  let n : BitVec 16 := (s.readS x.k a.val).setWidth 16
  let va := c.saveBase + n.setWidth 64 * 25600
  if c.saveCnt ≤ n then
    .error ⟨0x0C, 0x06, x.exec, match rangeLookup c.rr va 1 .rd with
      | .ok t => BitVec.ofNat 56 t.ia
      | .error _ => va.setWidth 56⟩
  else .ok va

/-- CTXSAVE (0x0C8, privileged, R192): blocks until no pending bit is set, then writes the entry, for which it reads every
register (R414). -/
def execCtxsave (h : Hdr) (a : SReg) (s : State) : Out :=
  .next (issue (.ctxsave h a) h { priv := true, uses := [.src 1 (.s a.val)] } (fun x t =>
    match t.saveEntry x a with
    | .error e => .error e
    | .ok va =>
      if (t.sheaf x.k).anyPending then .ok (.wait, t.modSheaf x.k fun y => { y with block := some (.retry x.b) })
      else if t.badCarry x.k ⟨(-1 : BitVec 192), (-1 : Word64), (-1 : BitVec 7)⟩ then
        .ok (.stay, t.discardAt (t.sheaf x.k).launch 0 0 0 (nodeOfUnit (unitOf x.k)))
      else match t.blockWrite x.k va (t.ctxEntry x.k x.b (x.pc + 8)) with
        | .error r => .error (refusedTrap x r)
        | .ok u => .ok (.next, u.modSheaf x.k fun y => { y with block := none })) s)

/-- Bytes of an entry as a number. -/
def field (bs : List Byte) (off n : Nat) : Nat := leNat ((bs.drop off).take n)

/-- Zero bytes and unused bits of an entry are zero, and its depth is one that exists. -/
def entryClean (bs : List Byte) : Bool :=
  let slotOk := fun (off : Nat) => field bs off 8 % 2 ^ 32 / 512 == 0 && field bs off 8 / 64 % 4 == 0
  slotOk 0x08 && slotOk 0x18 && field bs 0x20 8 / 2 ^ 18 == 0 && field bs 0x20 8 / 128 % 2 == 0 &&
    decide (field bs 0x20 8 % 128 ≤ 64) && field bs 0x38 8 / 128 == 0 && field bs 0x40 192 == 0 &&
    field bs 0x1DC 36 == 0 && ((bs.drop 0x100).take 192).all fun b => b.toNat < 32

/-- A PC slot as an entry gives it; its replay mask is cleared (R404). -/
def PcSlot.restored (sl : PcSlot) (bs : List Byte) (off : Nat) : PcSlot :=
  let w := field bs (off + 8) 8
  { PcSlot.free with
    live := w / 256 % 2 == 1
    pc := BitVec.ofNat 64 (field bs off 8)
    mask := BitVec.ofNat 32 (w / 2 ^ 32)
    gov := w % 64
    active := sl.active }

/-- A granule left holding a stale tag. -/
def State.unstamp (s : State) (k : Nat) : Reg → State
  | .v r => match vphys k (s.sheaf k) r with
    | none => s
    | some i => { s with vregs := Tab.upd VCell.zero s.vregs i fun c => { c with gen := 0 } }
  | .s r => { s with sregs := Tab.upd SCell.zero s.sregs (k * 64 + r) fun c => { c with gen := 0 } }
  | .p r => { s with pregs := Tab.upd PCell.zero s.pregs (k * 8 + r) fun c => { c with gen := 0 } }

/-- Replaces the sheaf's context with an entry's. -/
def State.ctxRestore (s : State) (k : Nat) (bs : List Byte) : State :=
  let s := (List.range 192).foldl (fun (t : State) i =>
    let m := field bs (0x100 + i) 1
    if m / 16 % 2 = 1 then
      t.writeV k i 0xFFFFFFFF (fun L => BitVec.ofNat 32 (field bs (0x400 + 128 * i + 4 * L) 4)) (BitVec.ofNat 4 m)
    else t.unstamp k (.v i)) s
  let s := (List.range 64).foldl (fun (t : State) i =>
    if (field bs 0x30 8).testBit i then t.writeS k i (BitVec.ofNat 64 (field bs (0x200 + 8 * i) 8))
    else t.unstamp k (.s i)) s
  let s := (List.range 7).foldl (fun (t : State) i =>
    if (field bs 0x38 8).testBit i then t.writeP k i 0xFFFFFFFF (BitVec.ofNat 32 (field bs (0x1C0 + 4 * i) 4))
    else t.unstamp k (.p i)) s
  let w := field bs 0x20 8
  s.modSheaf k fun y => { y with
    a := y.a.restored bs 0
    b := y.b.restored bs 0x10
    depth := w % 128
    qnv := w.testBit 17
    strict := w.testBit 16
    srnd := BitVec.ofNat 64 (field bs 0x28 8) }

/-- CTXLOAD (0x0C9, privileged, R192). -/
def execCtxload (h : Hdr) (a : SReg) (s : State) : Out :=
  .next (issue (.ctxload h a) h { priv := true, uses := [.src 1 (.s a.val)] } (fun x t =>
    match t.saveEntry x a with
    | .error e => .error e
    | .ok va => match t.opRead x va 25600 with
      | .error e => .error e
      | .ok bs => whenSound x (t.badAt (t.ctxOf x.k) va 25600) t <|
        let n := field bs 0x21 1
        if (t.sheaf x.k).xblk < n then .error ⟨0x07, BitVec.ofNat 8 (0xF0 + xblkCode n), x.exec, 0⟩
        else if !entryClean bs then .error ⟨0x03, 9, x.exec, 0⟩
        else .ok (.own, t.ctxRestore x.k bs)) s)

end Sys2Proof.Machine
end

