-- ==== Sys2Proof/Machine/Matrix.lean ====
section
/-!
DEFINITION. The matrix engine, class 0xA (R259 to R281): checks at issue, the queue, what each command does when it
completes, bursts, and the steps of the engine. A command's reads and writes are performed when it completes.
-/

namespace Sys2Proof.Machine

open Sys2Proof

/-! Descriptors (R261 to R264). -/

def TDesc.base (d : TDesc) : Nat := (d.bits.extractLsb' 0 32).toNat
def TDesc.rstr (d : TDesc) : Nat := (d.bits.extractLsb' 32 32).toNat
def TDesc.sbase (d : TDesc) : Nat := (d.bits.extractLsb' 64 32).toNat
def TDesc.sstr (d : TDesc) : Nat := (d.bits.extractLsb' 96 16).toNat
def TDesc.lpo (d : TDesc) : Nat := (d.bits.extractLsb' 112 8).toNat
def TDesc.sm (d : TDesc) : Bool := d.bits.getLsbD 127

/-- A float element tag (Table 3-4). -/
def floatTag (t : BitVec 4) : Bool := (1 ≤ t.toNat && t.toNat ≤ 10) || t.toNat == 14

/-- The reason for which a descriptor is not well formed (R262, Table 19-2); 0 when it is. -/
def TDesc.reason (d : TDesc) : Nat :=
  let fp6 := d.tag == 7 || d.tag == 9
  if d.bits.extractLsb' 120 7 ≠ 0 then 1
  else if d.bits.extractLsb' 0 5 ≠ 0 ∨ d.bits.extractLsb' 32 5 ≠ 0 then 2
  else if (if fp6 then decide (d.lpo < 4) else decide (d.lpo ≠ 0)) then 3
  else if d.sm && !floatTag d.tag then 4
  else 0

/-- The descriptor trap. -/
def descTrap (x : Ex) (reason n : Nat) : TrapInfo := ⟨0x12, BitVec.ofNat 8 (reason * 16 + n), x.exec, 0⟩

/-- The tag trap of a descriptor at a site. -/
def descTagTrap (x : Ex) (tag : BitVec 4) (site : Nat) : TrapInfo := ⟨0x05, tag ++ BitVec.ofNat 4 site, x.exec, 0⟩

/-- A descriptor of the crew of a place. -/
def State.desc (s : State) (k n : Nat) : TDesc := (s.crew (s.sheaf k).crew).descs.getD n TDesc.zero

def State.setDesc (s : State) (k n : Nat) (d : TDesc) : State :=
  s.modCrew (s.sheaf k).crew fun c => { c with descs := vec16 fun i => if i = n then d else c.descs.getD i TDesc.zero }

/-- TDSET (0x140, R261, R262). -/
def execTdset (h : Hdr) (ty : Ty) (d : Desc) (a b : SReg) (s : State) : Out :=
  .next (issue (.tdset h ty d a b) h { uses := [.src 1 (.s a.val), .src 2 (.s b.val)] } (fun x t =>
    let new : TDesc := ⟨t.readS x.k b.val ++ t.readS x.k a.val, tyTag ty⟩
    if new.reason ≠ 0 then .error (descTrap x new.reason d.val) else .ok (.next, t.setDesc x.k d.val new)) s)

/-- TDTAG (0x141, R261). -/
def execTdtag (h : Hdr) (d : Desc) (tag : BitVec 4) (s : State) : Out :=
  .next (issue (.tdtag h d tag) h {} (simple fun x t =>
    t.setDesc x.k d.val { t.desc x.k d.val with tag := tag }) s)

/-! Element formats (Table 12-2). -/

/-- The element type that a descriptor's tag names, for F = 1. -/
def tagTy (t : BitVec 4) : Ty :=
  match t.toNat with
  | 2 => .f16
  | 3 => .bf16
  | 4 => .e4m3
  | 5 => .e5m2
  | 7 => .e3m2
  | 9 => .e2m3
  | _ => .none

/-- Groups of formats that F = 1 lets meet (R266). -/
def tagGroup (t : BitVec 4) : Nat :=
  match t.toNat with
  | 2 | 3 => 1
  | 4 | 5 | 7 | 9 => 2
  | _ => 0

/-- Bits of an element in its row; those of the high plane for six-bit formats. -/
def rowBits : Ty → Nat
  | .f16 | .bf16 => 16
  | .e4m3 | .e5m2 | .i8x4 => 8
  | .f32 | .i32 => 32
  | _ => 4

/-- K of Table 12-2. -/
def tyK : Ty → Nat
  | .f16 | .bf16 => 128
  | .e2m1 | .i4x8 => 512
  | _ => 256

def fp6 : Ty → Bool
  | .e3m2 | .e2m3 => true
  | _ => false

def matInt : Ty → Bool
  | .i8x4 | .i4x8 | .i32 => true
  | _ => false

/-- Where row r of a descriptor starts (R263). -/
def TDesc.row (d : TDesc) (r : Nat) : Nat := d.base + r * d.rstr

/-- Bytes that hold the first n elements of a row. -/
def rowLen (ty : Ty) (n : Nat) : Nat := (n * rowBits ty + 7) / 8

/-! Checks at issue (R265, R266). -/

/-- The runs of a row that R265 checks: whole granules of its elements, low-plane bytes, scales of live blocks. -/
def TDesc.runs (d : TDesc) (ty : Ty) (r n : Nat) : List (Nat × Nat) :=
  if n = 0 then [] else
  [(d.row r, (rowLen ty n + 31) / 32 * 32)] ++
    (if fp6 ty then [(d.row r + 32 * d.lpo, (n + 3) / 4)] else []) ++
    (if d.sm then [(d.sbase + r * d.sstr, (n + 31) / 32)] else [])

/-- The rows or columns a mask selects. -/
def selected (m : BitVec 16) : List Nat := (List.range 16).filter fun i => m.getLsbD i

/-- The number of columns through the highest selected one. -/
def colCount (m : BitVec 16) : Nat := if m = 0 then 0 else Nat.log2 m.toNat + 1

/-- The first of the runs that leaves the crew's region raises the range fault (R89, R265). -/
def State.runsCheck (s : State) (x : Ex) (rs : List (Nat × Nat)) : Option TrapInfo :=
  let c := s.crew (s.sheaf x.k).crew
  (rs.find? fun r => decide (c.size < r.1 + r.2)).map fun r => ⟨0x0C, 0x05, x.exec, BitVec.ofNat 56 (c.base + r.1)⟩

/-- A descriptor used with the tag it must carry at a site: its tag, its form (R262), and SM where it may not be 1. -/
def descCheck (x : Ex) (n : Nat) (d : TDesc) (noSm : Bool) : Option TrapInfo :=
  if d.reason ≠ 0 then some (descTrap x d.reason n) else if noSm && d.sm then some (descTrap x 5 n) else none

/-- A tag mismatch of a descriptor; none matches every type (R66). -/
def tagCheck (x : Ex) (d : TDesc) (ty : Ty) (site : Nat) : Option TrapInfo :=
  if d.tag = 0 ∨ d.tag = tyTag ty then none else some (descTagTrap x d.tag site)

/-- The element type of B (R266). -/
def bType (ty : Ty) (f : Bool) (db : TDesc) : Ty := if f then tagTy db.tag else ty

/-- The checks of MMA (R265, R266). -/
def State.mmaCheck (s : State) (x : Ex) (ty : Ty) (f : Bool) (a b : Desc) (rows cols depth : BitVec 16) :
    Option TrapInfo :=
  let da := s.desc x.k a.val
  let db := s.desc x.k b.val
  let tb := if f then (if tagGroup db.tag ≠ 0 ∧ tagGroup db.tag = tagGroup (tyTag ty) then none
      else some (descTagTrap x db.tag 2))
    else tagCheck x db ty 2
  (tagCheck x da ty 1).orElse fun _ => tb.orElse fun _ => (descCheck x a.val da (matInt ty)).orElse fun _ =>
    (descCheck x b.val db (matInt ty)).orElse fun _ => s.runsCheck x
      (((selected rows).map fun i => da.runs ty i depth.toNat).flatten ++
        ((selected cols).map fun j => db.runs (bType ty f db) j depth.toNat).flatten)

/-- A sparse descriptor (R269): RSTR holds the row pointers; SM, LPO and SSTR are zero. -/
def sparseReason (d : TDesc) : Nat := if d.reason ≠ 0 then d.reason else if d.sm then 5 else if d.sstr ≠ 0 then 1 else 0

/-- The checks of MMAS (R265, R266, R269). -/
def State.mmasCheck (s : State) (x : Ex) (ty : Ty) (a b : Desc) (rows depth : BitVec 16) : Option TrapInfo :=
  let da := s.desc x.k a.val
  let db := s.desc x.k b.val
  (tagCheck x da ty 1).orElse fun _ => (tagCheck x db ty 2).orElse fun _ => (descCheck x a.val da true).orElse fun _ =>
    (if sparseReason db ≠ 0 then some (descTrap x (sparseReason db) b.val) else none).orElse fun _ => s.runsCheck x
      (((selected rows).map fun i => da.runs ty i depth.toNat).flatten ++ [(db.rstr, 2 * (depth.toNat + 1))])

/-- The row and column masks of a maskable command (R267). -/
def maskRows (ms : Masks) : BitVec 16 := match ms with
  | some m => m.1
  | none => 0xFFFF

def maskCols (ms : Masks) : BitVec 16 := match ms with
  | some m => m.2
  | none => 0xFFFF

/-- The checks of MST and MLDA. -/
def State.rowsCheck (s : State) (x : Ex) (ty : Ty) (d : Desc) (site : Nat) (ms : Masks) : Option TrapInfo :=
  let dd := s.desc x.k d.val
  (tagCheck x dd ty site).orElse fun _ => (descCheck x d.val dd true).orElse fun _ => s.runsCheck x
    ((selected (maskRows ms)).map fun i => dd.runs ty i (colCount (maskCols ms))).flatten

/-! The queue (R259). -/

/-- A command of this place with what it captures. -/
def State.matCmd (s : State) (x : Ex) (i : Instr) : MatCmd :=
  let sh := s.sheaf x.k
  { instr := i
    crew := sh.crew
    launch := sh.launch
    place := x.k
    strict := sh.strict
    da := TDesc.zero
    db := TDesc.zero
    scalar := 0
    vals := Vector.replicate 32 0
    exec := x.exec
    load := 0
    bad := false }

/-- The engine of a place's core. -/
def State.engine (s : State) (core : Nat) : Engine := (s.core core).engine

def State.modEngine (s : State) (core : Nat) (f : Engine → Engine) : State :=
  s.modCore core fun c => { c with engine := f c.engine }

/-- Issues a command, which has captured what it names: it enters the queue, or, with the queue of 32 full or
earlier commands waiting, waits for an entry, its sheaf blocked. -/
def State.matPost (s : State) (x : Ex) (c : State → MatCmd × State) : Flow × State :=
  match c s with
  | (q, s) =>
    if 32 ≤ (s.engine (unitOf x.k)).queue.length ∨ (s.engine (unitOf x.k)).waiting ≠ [] then
      (.stay, (s.modEngine (unitOf x.k) fun e => { e with waiting := e.waiting ++ [q] }).modSheaf x.k fun y =>
        { y with block := some (.matrix x.b) })
    else
      (.next, (s.modEngine (unitOf x.k) fun e => { e with queue := e.queue ++ [q] }).later
        (.matrixCommandExecute (unitOf x.k)))

/-- A command that waited has entered the queue: its sheaf goes on. -/
def State.matEntered (s : State) (c : MatCmd) : State := match (s.sheaf c.place).block with
  | some (.matrix b) => (s.modSheaf c.place fun y => { y with block := none }).advance c.place b c.instr.bytes
  | _ => s

/-- Commands that wait enter the queue in their order of issue while it has room; the fuel bounds their number. -/
def State.fillQueue (s : State) (core : Nat) : Nat → State
  | 0 => s
  | n + 1 =>
    let e := s.engine core
    match e.waiting with
    | [] => s
    | c :: rest =>
      if 32 ≤ e.queue.length then s
      else State.fillQueue ((s.modEngine core fun x => { x with queue := x.queue ++ [c], waiting := rest }).matEntered c) core n

/-- A matrix command: its checks after those of the tiles, and its capture. -/
def matIssue (i : Instr) (h : Hdr) (c : Checks) (chk : Ex → State → Option TrapInfo)
    (cap : Ex → State → MatCmd → MatCmd) (s : State) : State :=
  issue i h c (fun x t => match chk x t with
    | some e => .error e
    | none => .ok (t.matPost x fun u => (cap x u (u.matCmd x i), u))) s

/-- The tiles an incoming value names. -/
def incTiles : Incoming → List Nat
  | .tile c => [c.val]
  | _ => []

/-- MMA (0x142, R268). -/
def execMma (h : Hdr) (ty : Ty) (inc : Incoming) (f : Bool) (d : Tile) (a b : Desc) (rows cols depth : BitVec 16)
    (s : State) : Out :=
  .next (matIssue (.mma h ty inc f d a b rows cols depth) h { tiles := d.val :: incTiles inc }
    (fun x t => t.mmaCheck x ty f a b rows cols depth)
    (fun x t c => { c with da := t.desc x.k a.val, db := t.desc x.k b.val }) s)

/-- MMAS (0x143, R269). -/
def execMmas (h : Hdr) (ty : Ty) (inc : Incoming) (d : Tile) (a b : Desc) (rows cols depth : BitVec 16) (s : State) : Out :=
  .next (matIssue (.mmas h ty inc d a b rows cols depth) h { tiles := d.val :: incTiles inc }
    (fun x t => t.mmasCheck x ty a b rows depth)
    (fun x t c => { c with da := t.desc x.k a.val, db := t.desc x.k b.val }) s)

/-- MZERO (0x144, R270). -/
def execMzero (h : Hdr) (d : Tile) (ms : Masks) (s : State) : Out :=
  .next (matIssue (.mzero h d ms) h { tiles := [d.val] } (fun _ _ => none) (fun _ _ c => c) s)

/-- The scalar and the tile that an operation of MEW names. -/
def mewScalar : MewOp → List SReg
  | .scale b => [b]
  | .add _ => []
  | .decay b _ => [b]

def mewTile : MewOp → List Tile
  | .scale _ => []
  | .add c => [c]
  | .decay _ c => [c]

/-- MEW (0x145, R271). -/
def execMew (h : Hdr) (ty : Ty) (op : MewOp) (d a : Tile) (ms : Masks) (s : State) : Out :=
  .next (matIssue (.mew h ty op d a ms) h
    { uses := (mewScalar op).map fun r => .src 2 (.s r.val)
      tiles := [d.val, a.val] ++ (mewTile op).map (·.val) }
    (fun _ _ => none)
    (fun x t c => { c with scalar := ((mewScalar op).head?.map fun r => t.readS x.k r.val).getD 0 }) s)

/-- MST (0x146, R272). -/
def execMst (h : Hdr) (ty : Ty) (rnd : Rnd) (sat : Bool) (d : Desc) (a : Tile) (ms : Masks) (s : State) : Out :=
  .next (matIssue (.mst h ty rnd sat d a ms) h { tiles := [a.val] } (fun x t => t.rowsCheck x ty d 4 ms)
    (fun x t c => { c with da := t.desc x.k d.val }) s)

/-- MLDA (0x147, R273). -/
def execMlda (h : Hdr) (ty : Ty) (d : Tile) (a : Desc) (ms : Masks) (s : State) : Out :=
  .next (matIssue (.mlda h ty d a ms) h { tiles := [d.val] } (fun x t => t.rowsCheck x ty a 1 ms)
    (fun x t c => { c with da := t.desc x.k a.val }) s)

/-- MRDV (0x148, R274): its destination is pending from its issue. -/
def execMrdv (h : Hdr) (ty : Ty) (rnd : Rnd) (sat : Bool) (part : Fin 8) (d : VReg) (a : Tile) (r : Byte) (s : State) : Out :=
  .next (issue (.mrdv h ty rnd sat part d a r) h { uses := vdst ty d, tiles := [a.val] } (fun x t =>
    .ok (t.matPost x fun u =>
      match u.startLoad x.k (.vec d ty.is64 (tyTag ty)) x.exec 0 0 (Vector.replicate 32 0) 0 0 false with
      | (id, u) => ({ u.matCmd x (.mrdv h ty rnd sat part d a r) with load := id }, u))) s)

/-- MWRV (0x149, R275): its source is read at issue. -/
def execMwrv (h : Hdr) (ty : Ty) (part : Fin 8) (d : Tile) (a : VSrc) (r : Byte) (s : State) : Out :=
  .next (matIssue (.mwrv h ty part d a r) h { uses := srcTyped 1 ty a, tiles := [d.val] } (fun _ _ => none)
    (fun x t c => { c with vals := vec32 fun L => t.vsrc x.k ty L a }) s)

/-- MTRN (0x14A, R276). -/
def execMtrn (h : Hdr) (d a : Tile) (s : State) : Out :=
  .next (matIssue (.mtrn h d a) h { tiles := [d.val, a.val] } (fun _ _ => none) (fun _ _ c => c) s)

/-- Writes to regions of the core that are published, or that lanes of Exec have made or read, and that commands after the MFEN
of a number read as written (R121, R277). -/
def State.ordered (s : State) (x : Ex) (id : Nat) : State :=
  s.mapOld (fun c => c.core == unitOf x.k) fun _ w =>
    if w.until_ = none ∧ w.by_.all (fun l => l.any fun p => p.1 == x.k && x.exec.getLsbD p.2) then
      { w with until_ := some id } else w

/-- MFEN: one that acquires waits until the accesses of its lanes to other packages are over, and orders their writes before the
reads of later commands (R277). -/
def mfence (i : Instr) (h : Hdr) (c : Checks) (acq : Bool) (s : State) : State :=
  issue i h c (fun x t => waitRemote acq x t (fun t => .ok (t.matPost x fun u => match u.freshId with
    | (id, v) => ({ u.matCmd x i with load := id }, if acq then v.ordered x id else v)))) s

/-- MFEN with an arrival (0x14B, XOP 0, R277). -/
def execMfen (h : Hdr) (ord : Order) (scp : Scope) (sl : BSlot) (s : State) : Out :=
  .next (mfence (.mfen h ord scp sl) h { slots := [sl.val] } (Order.acquires ord) s)

/-- MFEN without an arrival (0x14B, XOP 1, R277). -/
def execMfenNoarrive (h : Hdr) (scp : Scope) (s : State) : Out :=
  .next (mfence (.mfenNoarrive h scp) h {} true s)

/-! What a command does when it completes. -/

/-- Why a command writes nothing: an engine error (R278), or granules with an uncorrectable error (R414), none where it is an
accumulator row that has one. -/
inductive MatErr where
  | code (c : Byte) (a : BitVec 56)
  | bad (gs : List Nat)
  deriving DecidableEq, Repr

/-- The byte at an offset of a crew's region as a command reads it: what it was before the first write that the command need
not see, otherwise what it is. -/
def State.oldByte (s : State) (c : Crew) (off : Nat) : Byte :=
  match c.old.find? fun w => decide (w.off ≤ off ∧ off < w.off + w.bytes.length) with
  | some w => w.bytes.getD (off - w.off) 0
  | none => s.pkgByte (c.base + off)

/-- Two old words meet. -/
def OldWord.meets (a b : OldWord) : Bool := decide (a.off < b.off + b.bytes.length ∧ b.off < a.off + a.bytes.length)

/-- The writes still unseen when some are seen, given by number: of two writes of one byte the later is not seen without the
earlier. -/
def stillHidden (seen : Nat → OldWord → Bool) : Nat → List OldWord → List OldWord
  | _, [] => []
  | n, w :: t =>
    let rest := stillHidden seen (n + 1) t
    if seen n w || t.any (fun v => w.meets v && !rest.contains v) then rest else w :: rest

/-- A command starts: which of the writes that it need not see it sees is free, word by word (R105); those after it see them
too. -/
def State.seeWrites (s : State) (c : MatCmd) : State :=
  if (s.crew c.crew).old = [] then s
  else { s.modCrew c.crew fun y => { y with old := stillHidden (fun n _ => Config.choose n % 2 == 1) s.choices y.old } with
    choices := s.choices + (s.crew c.crew).old.length }

/-- Bytes of the crew's region under its scratchpad generation (R265); stale ones are zero, or an engine error under
strict mode, but in barrier slots (R56, R241). -/
def State.matRead (s : State) (c : MatCmd) (off n : Nat) : Except MatErr (List Byte) :=
  let cr := s.crew c.crew
  let a := cr.base + off
  if n = 0 then .ok []
  else if s.badGranules a n ≠ [] then .error (.bad (s.badGranules a n))
  else match (if c.strict then (granules a n).find? fun g => s.stale (32 * g) && !s.inSlot (32 * g) else none) with
    | some g => .error (.code 0x44 (BitVec.ofNat 56 (max a (32 * g))))
    | none => .ok ((List.range n).map fun i => s.oldByte cr (off + i))

/-- A row of a crew's tile; a stale one is +0, or an engine error under strict mode, for which the spec gives no
address: it is free (R260, R278). -/
def State.tileRow (s : State) (c : MatCmd) (tile row : Nat) : Except MatErr (Vector (BitVec 96) 16) :=
  let cr := s.crew c.crew
  if s.badWords.contains (.row (accKey cr tile row)) then .error (.bad [])
  else if s.rowStale cr tile row then
    if c.strict then .error (.code 0x44 (s.free64.setWidth 56)) else .ok (Vector.replicate 16 0)
  else .ok (s.rowRaw cr tile row).el

/-- Writes elements of a row; the rest of a stale row becomes zero (R55, R260). -/
def State.writeRow (s : State) (c : MatCmd) (tile row : Nat) (f : Nat → Option (BitVec 96)) : State :=
  let cr := s.crew c.crew
  if (List.range 16).all fun j => (f j).isNone then s
  else
    let old := fun (j : Nat) => if s.rowStale cr tile row then 0 else (s.rowRaw cr tile row).el.getD j 0
    { s with
      acc := Tab.set TileRow.zero s.acc (accKey cr tile row) ⟨Vector.ofFn fun j => (f j.val).getD (old j.val), cr.accGen⟩
      badWords := s.badWords.filter (· != .row (accKey cr tile row)) }

/-- A number of w bits at element k of packed bytes. -/
def packedAt (bs : List Byte) (w k : Nat) : Nat := leNat bs / 2 ^ (w * k) % 2 ^ w

/-- Elements 0 to n − 1 of a row as bits, six-bit planes rejoined (R67, R263). -/
def State.rowCodes (s : State) (c : MatCmd) (d : TDesc) (ty : Ty) (r n : Nat) : Except MatErr (List Nat) :=
  match s.matRead c (d.row r) (rowLen ty n) with
  | .error e => .error e
  | .ok hi =>
    if fp6 ty then match s.matRead c (d.row r + 32 * d.lpo) ((n + 3) / 4) with
      | .error e => .error e
      | .ok lo => .ok ((List.range n).map fun k => packedAt hi 4 k * 4 + packedAt lo 2 k)
    else .ok ((List.range n).map fun k => packedAt hi (rowBits ty) k)

/-- Scales of the live blocks of a row (R264). -/
def State.rowScales (s : State) (c : MatCmd) (d : TDesc) (r n : Nat) : Except MatErr (List Byte) :=
  if d.sm then s.matRead c (d.sbase + r * d.sstr) ((n + 31) / 32) else .ok (List.replicate ((n + 31) / 32) 127)

/-- A row with its scales. -/
def State.scaledRow (s : State) (c : MatCmd) (d : TDesc) (ty : Ty) (n r : Nat) :
    Except MatErr (Nat × List Nat × List Byte) :=
  match s.rowCodes c d ty r n with
  | .error e => .error e
  | .ok cs => match s.rowScales c d r n with
    | .error e => .error e
    | .ok xs => .ok (r, cs, xs)

/-- The results of a list of reads, or the first error. -/
def allOk {α β : Type} (f : α → Except MatErr β) : List α → Except MatErr (List β)
  | [] => .ok []
  | a :: t => match f a with
    | .error e => .error e
    | .ok b => match allOk f t with
      | .error e => .error e
      | .ok bs => .ok (b :: bs)

/-- RoundAcc96 (R83). -/
def acc96 (v : FV) : BitVec 96 := BitVec.ofNat 96 (fmtAcc.round .rne 0 false v)

def ofAcc (x : BitVec 96) : FV := fmtAcc.decode x.toNat

/-- RoundAcc96 as a value. -/
def roundAcc (v : FV) : FV := ofAcc (acc96 v)

/-- The exact sum of a block, scaled; an exact zero is +0 (R83). -/
def blockSum (ps : List FV) (xa xb : Byte) : FV :=
  if ps = [] then .fin false 0 0
  else
    let t := scaled (scaled (ps.foldl (FV.add false) (.fin false 0 0)) xa) xb
    if t.isZero then .fin false 0 0 else roundAcc t

/-- One level of the tree of R83. -/
def pairSums : List FV → List FV
  | a :: b :: t => roundAcc (FV.add false a b) :: pairSums t
  | l => l

def treeSum : Nat → List FV → FV
  | 0, l => l.headD (.fin false 0 0)
  | f + 1, l => if l.length ≤ 1 then l.headD (.fin false 0 0) else treeSum f (pairSums l)

/-- The sum of R83 over K elements, of which the lists hold those below Depth. -/
def floatSum (k : Nat) (as bs : List FV) (xa xb : List Byte) : FV :=
  treeSum 4 ((List.range (k / 32)).map fun b =>
    blockSum (((as.drop (32 * b)).take 32).zipWith FV.mul ((bs.drop (32 * b)).take 32)) (xa.getD b 127) (xb.getD b 127))

/-- The sum of R84. -/
def intSum (ty : Ty) (as bs : List Nat) : Int :=
  let rd := fun (n : Nat) => (BitVec.ofNat (rowBits ty) n).toInt
  (as.zipWith (fun a b => rd a * rd b) bs).sum

/-- The incoming rows (R268). -/
def State.incomingRow (s : State) (c : MatCmd) (inc : Incoming) (d : Tile) (row : Nat) :
    Except MatErr (Vector (BitVec 96) 16) :=
  match inc with
  | .z => .ok (Vector.replicate 16 0)
  | .k => s.tileRow c d.val row
  | .tile t => s.tileRow c t.val row

/-- A row or column of operands found in a list. -/
def rowOf (l : List (Nat × List Nat × List Byte)) (r : Nat) : List Nat × List Byte :=
  ((l.find? fun p => p.1 == r).map (·.2)).getD ([], [])

/-- The product of rows and columns (R268). -/
def product (ty tb : Ty) (a b : List Nat × List Byte) (inc : BitVec 96) : BitVec 96 :=
  if matInt ty then BitVec.ofInt 96 (inc.toInt + intSum ty a.1 b.1)
  else acc96 (FV.add false (floatSum (tyK ty) (a.1.map (tyFmt ty).decode) (b.1.map (tyFmt tb).decode) a.2 b.2) (ofAcc inc))

/-- MMA and MMAS, given the columns of B. -/
def State.multiply (s : State) (c : MatCmd) (ty tb : Ty) (inc : Incoming) (d : Tile) (rows : List Nat) (cols : BitVec 16)
    (depth : Nat) (bs : List (Nat × List Nat × List Byte)) : Except MatErr State :=
  match allOk (s.scaledRow c c.da ty depth) rows with
  | .error e => .error e
  | .ok as => match allOk (fun i => (s.incomingRow c inc d i).map fun r => (i, r)) rows with
    | .error e => .error e
    | .ok ins => .ok (ins.foldl (fun (t : State) p => t.writeRow c d.val p.1 fun j =>
        if cols.getLsbD j then some (product ty tb (rowOf as p.1) (rowOf bs j) (p.2.getD j 0)) else none) s)

/-- MMA (R268). -/
def State.runMma (s : State) (c : MatCmd) (ty : Ty) (inc : Incoming) (f : Bool) (d : Tile) (rows cols depth : BitVec 16) :
    Except MatErr State :=
  if rows = 0 ∨ cols = 0 then .ok s
  else
    let tb := bType ty f c.db
    match allOk (s.scaledRow c c.db tb depth.toNat) (selected cols) with
    | .error e => .error e
    | .ok bs => s.multiply c ty tb inc d (selected rows) cols depth.toNat bs

/-- A column of sparse entries: column, row k, value. -/
abbrev Entry := Nat × Nat × Nat

/-- Reads through a sparse descriptor may leave the region (R269). -/
def State.sparseRead (s : State) (c : MatCmd) (off n : Nat) : Except MatErr Nat :=
  let cr := s.crew c.crew
  if cr.size < off + n then .error (.code 0x43 (BitVec.ofNat 56 (cr.base + off)))
  else (s.matRead c off n).map leNat

/-- Entry e of row k. -/
def State.sparseEntry (s : State) (c : MatCmd) (ty : Ty) (k e : Nat) : Except MatErr Entry :=
  match s.sparseRead c (c.db.sbase + e) 1 with
  | .error x => .error x
  | .ok col =>
    if 15 < col then .error (.code 0x42 (BitVec.ofNat 56 ((s.crew c.crew).base + c.db.sbase + e)))
    else
      let n := rowBits ty / 8
      (s.sparseRead c (c.db.base + e * n) n).map fun v => (col, k, v)

/-- The entries of row k, between its pointers. -/
def State.sparseRow (s : State) (c : MatCmd) (ty : Ty) (depth : Nat) (ptr : List Nat) (k : Nat) :
    Except MatErr (List Entry) :=
  let lo := ptr.getD k 0
  let hi := ptr.getD (k + 1) 0
  let at_ := BitVec.ofNat 56 ((s.crew c.crew).base + c.db.rstr + 2 * (k + 1))
  if hi < lo then .error (.code 0x40 at_)
  else if 16 * depth < hi then .error (.code 0x41 at_)
  else allOk (s.sparseEntry c ty k) ((List.range (hi - lo)).map (· + lo))

/-- The dense B of R269: of a repeated column the later entry. -/
def State.gather (s : State) (c : MatCmd) (ty : Ty) (depth : Nat) : Except MatErr (List (Nat × List Nat × List Byte)) :=
  match s.matRead c c.db.rstr (2 * (depth + 1)) with
  | .error e => .error e
  | .ok raw =>
    let ptr := (List.range (depth + 1)).map fun k => packedAt raw 16 k
    if 16 * depth < ptr.headD 0 then .error (.code 0x41 (BitVec.ofNat 56 ((s.crew c.crew).base + c.db.rstr)))
    else match allOk (s.sparseRow c ty depth ptr) (List.range depth) with
    | .error e => .error e
    | .ok rows =>
      let all := rows.flatten.reverse
      .ok ((List.range 16).map fun j =>
        (j, (List.range depth).map fun k =>
            ((all.find? fun e => e.1 == j && e.2.1 == k).map fun e => e.2.2).getD 0,
          List.replicate ((depth + 31) / 32) 127))

/-- MMAS (R269): it gathers, and meets its engine errors, whatever its masks. -/
def State.runMmas (s : State) (c : MatCmd) (ty : Ty) (inc : Incoming) (d : Tile) (rows cols depth : BitVec 16) :
    Except MatErr State :=
  match s.gather c ty depth.toNat with
  | .error e => .error e
  | .ok bs => if rows = 0 ∨ cols = 0 then .ok s else s.multiply c ty ty inc d (selected rows) cols depth.toNat bs

/-- The selected rows of a maskable command; none when no column is selected. -/
def maskSel (ms : Masks) : List Nat := if maskCols ms = 0 then [] else selected (maskRows ms)

/-- MZERO (R270). -/
def State.runMzero (s : State) (c : MatCmd) (d : Tile) (ms : Masks) : State :=
  (maskSel ms).foldl (fun (t : State) i => t.writeRow c d.val i fun j =>
    if (maskCols ms).getLsbD j then some 0 else none) s

/-- An element of MEW (R271). -/
def mewElem (ty : Ty) (op : MewOp) (f : Word64) (a c : BitVec 96) : BitVec 96 :=
  if ty = .f64 then
    let fv := fmtF64.decode f.toNat
    acc96 (match op with
      | .scale _ => FV.mul (ofAcc a) fv
      | .add _ => FV.add false (ofAcc a) (ofAcc c)
      | .decay _ _ => FV.fma false (ofAcc a) fv (ofAcc c))
  else BitVec.ofInt 96 (match op with
    | .scale _ => a.toInt * f.toInt
    | .add _ => a.toInt + c.toInt
    | .decay _ _ => a.toInt * f.toInt + c.toInt)

/-- MEW: every element is read before any is written (R271). -/
def State.runMew (s : State) (c : MatCmd) (ty : Ty) (op : MewOp) (d a : Tile) (ms : Masks) : Except MatErr State :=
  match allOk (fun i => match s.tileRow c a.val i with
      | .error e => .error e
      | .ok x => match (mewTile op).head? with
        | none => .ok (i, x, x)
        | some t => (s.tileRow c t.val i).map fun y => (i, x, y)) (maskSel ms) with
  | .error e => .error e
  | .ok rs => .ok (rs.foldl (fun (t : State) p => t.writeRow c d.val p.1 fun j =>
      if (maskCols ms).getLsbD j then some (mewElem ty op c.scalar (p.2.1.getD j 0) (p.2.2.getD j 0)) else none) s)

/-- An element of a tile converted for MST or MRDV (R272, R274). -/
def fromAcc (ty : Ty) (rnd : Rnd) (sat : Bool) (x : BitVec 96) : Nat :=
  if ty = .i32 then (if sat then clampI 32 true x.toInt else x.setWidth 32).toNat
  else (tyFmt ty).round rnd 0 sat (ofAcc x)

/-- An element converted for MLDA or MWRV (R273, R275). -/
def toAcc (ty : Ty) (x : Nat) : BitVec 96 :=
  if ty = .i32 then (BitVec.ofNat 32 x).signExtend 96 else acc96 ((tyFmt ty).decode x)

/-- Writes an element of a row to memory; the other nibble of its byte stays. The engine does not order the write before its
later reads (R121). -/
def State.storeElem (s : State) (k a : Nat) (ty : Ty) (j v : Nat) : State :=
  let at_ := if rowBits ty = 4 then a + j / 2 else a + j * (rowBits ty / 8)
  let old := (s.pkgByte at_).toNat
  let bs := if rowBits ty = 4 then [BitVec.ofNat 8 (if j % 2 = 0 then old / 16 * 16 + v % 16 else old % 16 + v % 16 * 16)]
    else leBytes (rowBits ty / 8) v
  (s.keepOld at_ bs.length (some (k, 32))).pkgWrite at_ bs

/-- MST: rows in ascending order (R272). -/
def State.runMst (s : State) (c : MatCmd) (ty : Ty) (rnd : Rnd) (sat : Bool) (a : Tile) (ms : Masks) : Except MatErr State :=
  let cols := selected (maskCols ms)
  let at_ := fun (i : Nat) => (s.crew c.crew).base + c.da.row i
  match allOk (fun i => (s.tileRow c a.val i).map fun r => (i, r)) (maskSel ms) with
  | .error e => .error e
  | .ok rs =>
    let bad := (rs.map fun p => (cols.map fun j =>
      s.badPartial (at_ p.1 + j * rowBits ty / 8) ((rowBits ty + 7) / 8)).flatten).flatten
    if bad ≠ [] then .error (.bad bad)
    else .ok (rs.foldl (fun (t : State) p => cols.foldl (fun (u : State) j =>
      u.storeElem c.place (at_ p.1) ty j (fromAcc ty rnd sat (p.2.getD j 0))) t) s)

/-- MLDA (R273). -/
def State.runMlda (s : State) (c : MatCmd) (ty : Ty) (d : Tile) (ms : Masks) : Except MatErr State :=
  match allOk (fun i => (s.rowCodes c c.da ty i (colCount (maskCols ms))).map fun r => (i, r)) (maskSel ms) with
  | .error e => .error e
  | .ok rs => .ok (rs.foldl (fun (t : State) p => t.writeRow c d.val p.1 fun j =>
      if (maskCols ms).getLsbD j then some (toAcc ty (p.2.getD j 0)) else none) s)

/-- Ends a load that writes nothing more. -/
def State.dropLoad (s : State) (k id : Nat) : State := s.modSheaf k fun sh => sh.loadDone id

/-- MRDV (R274): the values arrive, and each lane returns; rows of which no lane takes an element are not read. -/
def State.runMrdv (s : State) (c : MatCmd) (ty : Ty) (rnd : Rnd) (sat : Bool) (part : Fin 8) (a : Tile) (r : Byte) :
    Except MatErr State :=
  let row := fun (n : Nat) => if c.exec.extractLsb' (16 * n) 16 = 0 then .ok (Vector.replicate 16 0)
    else s.tileRow c a.val (r.toNat + n)
  match row 0 with
  | .error e => .error e
  | .ok lo => match row 1 with
    | .error e => .error e
    | .ok hi =>
      let el := fun (L : Nat) => if L < 16 then lo.getD L 0 else hi.getD (L - 16) 0
      let vals := vec32 fun L =>
        if ty = .b32 then ((el L).extractLsb' (32 * part.val) 32).setWidth 64
        else BitVec.ofNat 64 (fromAcc ty rnd sat (el L))
      .ok { ((s.modSheaf c.place fun sh => { sh with loads := sh.loads.map fun l =>
          if l.id = c.load then { l with vals := vals, ready := l.left } else l }).modEngine (unitOf c.place) fun e =>
            { e with late := e.late ++ [(c.place, c.load)] }) with
        due := s.due ++ (lanesOf c.exec).map fun L => Event.loadLaneReturn (placeOf c.place) c.load L }

/-- The element MWRV writes from a lane (R275). -/
def mwrvElem (ty : Ty) (part : Fin 8) (old : BitVec 96) (x : Word64) : BitVec 96 :=
  if ty = .b32 then
    (old &&& ~~~((0xFFFFFFFF : BitVec 96) <<< (32 * part.val))) ||| (x.setWidth 32).setWidth 96 <<< (32 * part.val)
  else toAcc ty (if ty.is64 then x.toNat else x.toNat % 2 ^ 32)

/-- MWRV (R275). -/
def State.runMwrv (s : State) (c : MatCmd) (ty : Ty) (part : Fin 8) (d : Tile) (r : Byte) : State :=
  let cr := s.crew c.crew
  [0, 1].foldl (fun (t : State) n =>
    let row := r.toNat + n
    let old := fun (j : Nat) => if t.rowStale cr d.val row then 0 else (t.rowRaw cr d.val row).el.getD j 0
    t.writeRow c d.val row fun j =>
      if c.exec.getLsbD (16 * n + j) then some (mwrvElem ty part (old j) (c.vals.getD (16 * n + j) 0)) else none) s

/-- MTRN (R276). -/
def State.runMtrn (s : State) (c : MatCmd) (d a : Tile) : Except MatErr State :=
  match allOk (fun i => s.tileRow c a.val i) (List.range 16) with
  | .error e => .error e
  | .ok rs => .ok ((List.range 16).foldl (fun (t : State) i =>
      t.writeRow c d.val i fun j => some ((rs.getD j (Vector.replicate 16 0)).getD i 0)) s)

/-- Commands of the engine after an MFEN that acquires read the writes that it ordered (R277). -/
def State.mfenSeen (s : State) (c : MatCmd) : State :=
  { s with crews := s.crews.map fun p => (p.1,
    if p.2.core = unitOf c.place ∧ p.2.old ≠ [] then
      { p.2 with old := stillHidden (fun _ w => w.until_ == some c.load) 0 p.2.old }
    else p.2) }

/-- The arrival of an MFEN: engine errors of its crew not yet reported fault the slot, with the code of the first (R277, R278);
it follows the engine's earlier writes. -/
def State.runMfen (s : State) (c : MatCmd) (b : BSlot) : State :=
  let cr := s.crew c.crew
  let s := (s.modCrew c.crew fun x => { x with engErr := [] }).mapOld (fun x => x.core == unitOf c.place) fun _ w =>
    if w.by_.any (fun l => l.any fun p => p.2 == 32) then { w with by_ := none } else w
  match cr.engErr with
  | [] => s.arrive (cr.slotAddr b.val) 1
  | e :: _ => s.arriveFault (cr.slotAddr b.val) e.1 e.2

/-- What a command does. -/
def State.matRun (s : State) (c : MatCmd) : Except MatErr State :=
  match c.instr with
  | .mma _ ty inc f d _ _ rows cols depth => s.runMma c ty inc f d rows cols depth
  | .mmas _ ty inc d _ _ rows cols depth => s.runMmas c ty inc d rows cols depth
  | .mzero _ d ms => .ok (s.runMzero c d ms)
  | .mew _ ty op d a ms => s.runMew c ty op d a ms
  | .mst _ ty rnd sat _ a ms => s.runMst c ty rnd sat a ms
  | .mlda _ ty d _ ms => s.runMlda c ty d ms
  | .mrdv _ ty rnd sat part _ a r => s.runMrdv c ty rnd sat part a r
  | .mwrv _ ty part d _ r => .ok (s.runMwrv c ty part d r)
  | .mtrn _ d a => s.runMtrn c d a
  | .mfen _ _ _ b => .ok ((s.mfenSeen c).runMfen c b)
  | .mfenNoarrive _ _ => .ok (s.mfenSeen c)
  | _ => .ok s

/-- A command with an error writes nothing (R278): its crew keeps it, and a register result ends unwritten; a command that meets an uncorrectable error has its launch discarded (R414). -/
def State.matFail (s : State) (c : MatCmd) (e : MatErr) : State :=
  let s := match c.instr with
    | .mrdv .. => s.dropLoad c.place c.load
    | _ => s
  match e with
  | .code n a => (s.modCrew c.crew fun x => { x with engErr := x.engErr ++ [(n, a)] }).tick
  | .bad gs => if gs = [] then s.discardAt c.launch 0 0 0 (clusterOf (unitOf c.place)) else s.contain gs c.launch

/-- The tile, rows and columns that a command writes, and whether it writes whole rows. -/
def matDest (c : MatCmd) : List (Tile × BitVec 16 × Bool) := match c.instr with
  | .mma _ _ _ _ d _ _ rows cols _ | .mmas _ _ _ d _ _ rows cols _ => [(d, rows, cols == 0xFFFF)]
  | .mzero _ d ms | .mew _ _ _ d _ ms | .mlda _ _ d _ ms => [(d, maskRows ms, maskCols ms == 0xFFFF)]
  | .mwrv _ _ part d _ r => [(d, 3 <<< r.toNat, c.exec == 0xFFFFFFFF && part.val == 0)]
  | _ => []

/-- A command writes a row that holds an uncorrectable error only in part, and so reads it (R414). -/
def State.badDest (s : State) (c : MatCmd) : Bool :=
  (matDest c).any fun d => !d.2.2 && (selected d.2.1).any fun i =>
    s.badWords.contains (.row (accKey (s.crew c.crew) d.1.val i))

/-! Steps of the engine. -/

/-- A multiplication, which starts or continues a burst (R280). -/
def isMma : Instr → Bool
  | .mma .. | .mmas .. => true
  | _ => false

/-- The command at the head of the queue starts. -/
def State.matStart (s : State) (core : Nat) : State :=
  (s.modEngine core fun e => { e with running := true }).later (.matrixCommandComplete core)

/-- MATRIX_COMMAND_EXECUTE (R259, R279, R280): a burst asks leave before its first command, and the queue does not advance
while leave is pending; an entry with an uncorrectable error discards the launch that issued it (R372). -/
def execMatrixCommandExecute (core : Nat) (s : State) : Out :=
  .next (
    let s := s.fillQueue core 32
    let e := s.engine core
    match e.queue with
    | [] => s
    | c :: _ =>
      if e.running then s
      else if c.bad then s.discardAt c.launch 3 0 0 (clusterOf core)
      else if !isMma c.instr then s.matStart core
      else if e.burst ∧ s.time < e.lastMma + 4096 then
        (s.modEngine core fun x => { x with lastMma := s.time }).matStart core
      else if e.burst then
        ((s.endLeave (.matrix core)).modEngine core fun x => { x with burst := false }).later (.matrixCommandExecute core)
      else if s.gov.holds (.matrix core) then
        (((s.modEngine core fun x => { x with burst := true, lastMma := s.time }).matStart core).later
          (.matrixBurstEnd core))
      else (s.askLeave ((Tab.find s.launches c.launch).map (·.ctx) |>.getD 0) 0 6000 0 (.matrix core)).later
        (.matrixCommandExecute core))

/-- An MFEN, which follows every write of the commands before it (R277). -/
def isFence : Instr → Bool
  | .mfen .. | .mfenNoarrive .. => true
  | _ => false

/-- MATRIX_COMMAND_COMPLETE (R279): the command's writes are performed, or its error is kept; the next one may start, and a
crew that has ended may retire (R138). -/
def execMatrixCommandComplete (core : Nat) (s : State) : Out :=
  .next (
    let e := s.engine core
    match e.queue with
    | [] => s
    | c :: rest =>
      if !e.running then s
      else if isFence c.instr && e.late.any fun p => (s.sheaf p.1).loads.any fun l => l.id == p.2 then
        s.later (.matrixCommandComplete core)
      else
        let s := s.modEngine core fun x => { x with queue := rest, running := false, late := if isFence c.instr then [] else x.late }
        let s := s.seeWrites c
        let s := match (if s.badDest c then .error (.bad []) else s.matRun c) with
          | .ok t => t
          | .error f => s.matFail c f
        let s := s.fillQueue core 32
        let s := if (s.engine core).queue = [] then s else s.later (.matrixCommandExecute core)
        if (s.liveSheaves (s.crew c.crew)).isEmpty then s.later (.crewRetire c.crew) else s)

/-- MATRIX_BURST_END (R280): leave ends when 4,096 cycles pass with no multiplication started. -/
def execMatrixBurstEnd (core : Nat) (s : State) : Out :=
  .next (
    let e := s.engine core
    if !e.burst then s
    else if s.time < e.lastMma + 4096 then s.later (.matrixBurstEnd core)
    else (s.endLeave (.matrix core)).modEngine core fun x => { x with burst := false })

end Sys2Proof.Machine
end

