-- ==== Sys2Proof/Machine/Launch.lean ====
section
/-!
DEFINITION. Launch records (R126 to R128), admission (R130 to R132, R139, R393), and the launch instructions, class 0xD
(R193 to R197).
-/

namespace Sys2Proof.Machine

open Sys2Proof

/-! Records. -/

/-- A region entry (Table 7-2). -/
def Region.of (w : Word64) : Region := ⟨w.extractLsb' 62 2, (w.extractLsb' 44 18).toNat, (w.extractLsb' 0 44).toNat⟩

/-- The fields of a record's 512 bits (Table 7-1) with regions given. -/
def LaunchRec.of (r : BitVec 512) (regions : List Region) : LaunchRec :=
  { tag := r.extractLsb' 256 64
    cbar := r.extractLsb' 192 56
    args := r.extractLsb' 128 64
    spans := (r.extractLsb' 112 16).toNat
    crews := (r.extractLsb' 109 3).toNat
    shv := (r.extractLsb' 105 4).toNat
    xblk := (r.extractLsb' 103 2).toNat
    acc := (r.extractLsb' 96 7).toNat
    scr := (r.extractLsb' 88 8).toNat
    slice := (r.extractLsb' 80 8).toNat
    bar := (r.extractLsb' 74 6).toNat
    prio := (r.extractLsb' 72 2).toNat
    strict := r.getLsbD 66
    ser := r.getLsbD 65
    nopre := r.getLsbD 64
    entry := r.extractLsb' 0 64
    nin := (r.extractLsb' 70 2).toNat
    next := (r.extractLsb' 67 3).toNat
    regions := regions }

/-- CBAR is absent, or a 32-byte-aligned package or peer address (R128, Table 5-5). -/
def cbarOk (a : BitVec 56) : Bool :=
  a == 0 || (a.extractLsb' 0 5 == 0 &&
    ((a.extractLsb' 48 8 == 0 && a.extractLsb' 32 16 == 0) || (a.extractLsb' 48 8 == 1 && a.extractLsb' 41 7 == 0)))

/-- The record is refused for a field of its own (R128, R393). Field widths keep every demand within an empty core. -/
def badFields (r : BitVec 512) (x : LaunchRec) : Bool :=
  r.extractLsb' 248 8 != 0 || decide (64 < x.acc) || decide (251 < x.slice) || x.nin == 3 || x.next == 7 ||
    x.entry.extractLsb' 0 2 != 0 || !canonical x.entry || !cbarOk x.cbar

/-- Regions of an extension block. -/
def extRegions (bs : List Byte) (n : Nat) : List Region :=
  (List.range n).map fun i => Region.of (BitVec.ofNat 64 (leNat ((bs.drop (8 * i)).take 8)))

/-- The launch record of 64 bytes in a context, with the regions of its extension block; none when R128 refuses it. -/
def State.readRecord (s : State) (ctx : Nat) (bytes : List Byte) : Option LaunchRec :=
  let r : BitVec 512 := BitVec.ofNat 512 (leNat bytes)
  let x := LaunchRec.of r []
  let inline := ([Region.of (r.extractLsb' 320 64), Region.of (r.extractLsb' 384 64)]).take x.nin
  if badFields r x then none
  else
    let ext : Word64 := r.extractLsb' 448 64
    let more : Option (List Region) :=
      if x.next = 0 then some []
      else if ext.extractLsb' 0 6 ≠ 0 ∨ !canonical ext then none
      else match s.ctxRead ctx ext (8 * x.next) with
        | .error _ => none
        | .ok bs => some (extRegions bs x.next)
    match more with
    | none => none
    | some m => if (inline ++ m).any fun g => g.mode == 0 then none else some { x with regions := inline ++ m }

/-- The address and the bytes of a record's extension block. -/
def extBlock (bytes : List Byte) : Word64 × Nat :=
  (BitVec.ofNat 64 (leNat ((bytes.drop 56).take 8)), 8 * (LaunchRec.of (BitVec.ofNat 512 (leNat bytes)) []).next)

/-- The granules with errors of a record's extension block (R414). -/
def State.extBad (s : State) (ctx : Nat) (bytes : List Byte) : List Nat :=
  if (extBlock bytes).2 = 0 then [] else s.badAt ctx (extBlock bytes).1 (extBlock bytes).2

/-- An armed record describes one span of one crew and no dependence (R139). -/
def LaunchRec.armable (x : LaunchRec) : Bool :=
  x.spans == 0 && x.crews == 0 && x.nin == 0 && x.next == 0 && !x.ser

/-! Admission. -/

/-- Two regions meet, at 4 KiB grain (R132). -/
def Region.meets (a b : Region) : Bool := decide (a.base ≤ b.base + b.pages) && decide (b.base ≤ a.base + a.pages)

/-- A region of an earlier launch and one of a later conflict: one of them is written. -/
def Region.conflicts (a b : Region) : Bool := a.meets b && (a.mode.getLsbD 1 || b.mode.getLsbD 1)

/-- The launch is being discarded. -/
def Launch.gone (l : Launch) : Bool := l.state == .discarding || (l.state == .ending && l.sub != 0)

/-- The predecessors of a launch at its admission (R132). -/
def State.predsOf (s : State) (ctx : Nat) (ancestors deps : List Nat) (x : LaunchRec) : List Nat :=
  (s.launches.filter fun p => p.2.ctx == ctx && !ancestors.contains p.1 &&
    (x.ser || deps.contains p.1 || p.2.record.regions.any fun a => x.regions.any fun b => a.conflicts b)).map (·.1)

/-- A launch as it enters the window. -/
def newLaunch (ctx parent : Nat) (ancestors : List Nat) (x : LaunchRec) (preds : List Nat)
    (arm : Option (Nat × BSlot)) (state : LaunchState) : Launch :=
  { ctx := ctx
    parent := parent
    ancestors := ancestors
    record := x
    state := state
    prio := x.prio
    preds := preds
    placed := 0
    retired := 0
    arm := arm
    leave := none
    eligibleAt := 0
    sub := 0
    kind := 0
    faddr := 0
    node := 0 }

/-- A launch that names one that is being discarded as a predecessor is discarded too (Table 18-4, step 4). -/
def State.loseWith (s : State) (n : Nat) (preds : List Nat) : State :=
  if preds.any fun m => (Tab.find s.launches m).any Launch.gone then s.discardAt n 2 0 0 nodeControl else s

/-- Admits a record, which takes the next launch number (R130, R131); an armed one sets ARM in its slot (R139). A launch that
names as a predecessor one that is being discarded is discarded too (Table 18-4, step 4). -/
def State.accept (s : State) (ctx parent : Nat) (deps : List Nat) (arm : Option (Nat × BSlot)) (x : LaunchRec) :
    Nat × State :=
  let n := s.nextLaunch
  let anc := match Tab.find s.launches parent with
    | none => []
    | some l => parent :: l.ancestors
  let preds := s.predsOf ctx anc deps x
  let state : LaunchState := if arm.isSome then .armed else .blocked
  let s := { s with
    nextLaunch := n + 1
    launches := Tab.put s.launches n (newLaunch ctx parent anc x preds arm state) }
  match arm with
  | some (c, b) =>
    let a := (s.crew c).slotAddr b.val
    let w := s.slotRead a
    (n, s.slotWrite a (Bar.put { Bar.of w with arm := true } w) |>.loseWith n preds)
  | none => (n, if preds = [] then s.makeEligible n else s.loseWith n preds)

/-- The window has a free entry (R130). -/
def State.windowRoom (s : State) : Bool := decide (s.launches.length < 1024)

/-- The answer to LNCH or LARM: S[D] is written, and the instruction ends (R194, R172). -/
def State.answerLaunch (s : State) (k : Nat) (b : Bool) (d : SReg) (code : Word64) : State :=
  ((s.writeS k d.val code).modSheaf k fun x => { x with block := none }).advance k b 8

/-- The Orrery decides a record of a sheaf (Table 9-8). -/
def State.admitSheaf (s : State) (q : Submission) (k : Nat) (b : Bool) : State :=
  let sh := s.sheaf k
  match s.readRecord q.ctx q.bytes with
  | none => s.answerLaunch k b q.dest 0x8000000000000002
  | some x =>
    if q.arm.isSome && !x.armable then s.answerLaunch k b q.dest 0x8000000000000003
    else if !s.windowRoom then s.answerLaunch k b q.dest 0x8000000000000001
    else match s.accept q.ctx sh.launch q.deps (q.arm.map fun n => (sh.crew, n)) x with
      | (n, s) => s.answerLaunch k b q.dest (BitVec.ofNat 64 n)

/-- The Orrery decides a record of the host: a refused one is answered by a completion record (R393). -/
def State.admitHost (s : State) (q : Submission) : State :=
  match s.readRecord q.ctx q.bytes with
  | none => (s.postCompletion 1 q.ctx 0 (BitVec.ofNat 64 (leNat ((q.bytes.drop 32).take 8)))).1
  | some x => (s.accept q.ctx 0 [] none x).2

/-- The record that the Orrery decides next: the first, but host records wait while the window is full (R129, R130) and
while a checkpoint runs (R345). -/
def State.nextSub (s : State) : Option (Submission × List Submission) :=
  match s.subs.findIdx? fun q => q.origin.isSome || (s.windowRoom && !s.checkpoint) with
  | none => none
  | some i => (s.subs[i]?).map fun q => (q, s.subs.eraseIdx i)

/-- ORRERY_ADMIT (R130, R339): one record is admitted or refused, in OPERATIONAL. -/
def execOrreryAdmit (s : State) : Out :=
  .next (s.ifSound fun s => if s.host.cur ≠ 4 then (if s.subs = [] then s else s.later .orreryAdmit) else match s.nextSub with
    | none => if s.subs = [] then s else s.later .orreryAdmit
    | some (q, rest) =>
      let s := { s with subs := rest }
      let bad := s.extBad q.ctx q.bytes
      match q.origin with
      | some (k, b) => if bad = [] then s.admitSheaf q k b else s.contain bad (s.sheaf k).launch
      | none => (bad.foldl State.containGranule s).admitHost q)

/-! The instructions. -/

/-- The extension block of a record, read through a range in strict mode, has a stale granule (R56). -/
def State.extStale (s : State) (ctx : Nat) (bytes : List Byte) : Bool :=
  (extBlock bytes).2 != 0 && (match s.translate ctx (extBlock bytes).1 (extBlock bytes).2 .rd with
    | .ok a => s.strictStale a (extBlock bytes).2
    | .error _ => false)

/-- LNCH and LARM: the record is read, and the sheaf waits for the Orrery's decision (R194). -/
def launchWith (i : Instr) (h : Hdr) (d a : SReg) (arm : Option BSlot) (s : State) : State :=
  issue i h { uses := [.src 1 (.s a.val), .dst (.s d.val)], slots := (arm.map fun b => b.val).toList } (fun x t =>
    let ctx := t.ctxOf x.k
    match t.opRead x (t.readS x.k a.val) 64 with
    | .error e => .error e
    | .ok bs =>
      if t.extStale ctx bs then .error (t.staleTrap x.exec)
      else whenSound x (t.badAt ctx (t.readS x.k a.val) 64 ++ t.extBad ctx bs) t <| waitRemote true x t (fun t =>
        let q : Submission := ⟨ctx, bs, some (x.k, x.b), d, arm, (t.sheaf x.k).deps⟩
        .ok (.stay, ({ t with subs := t.subs ++ [q] }.modSheaf x.k fun y =>
          { y with deps := [], block := some (.launch x.b d) }).later .orreryAdmit))) s

/-- LNCH (0x1A0, R193, R194). -/
def execLnch (h : Hdr) (d a : SReg) (s : State) : Out := .next (launchWith (.lnch h d a) h d a none s)

/-- LARM (0x1A1, R139, R194). -/
def execLarm (h : Hdr) (d a : SReg) (b : BSlot) (s : State) : Out :=
  .next (launchWith (.larm h d a b) h d a (some b) s)

/-- LDEP (0x1A2, R195): a ninth number is an illegal use. -/
def execLdep (h : Hdr) (a : SReg) (s : State) : Out :=
  .next (issue (.ldep h a) h { uses := [.src 1 (.s a.val)] } (fun x t =>
    if 8 ≤ (t.sheaf x.k).deps.length then .error ⟨0x03, 3, x.exec, 0⟩
    else .ok (.next, t.modSheaf x.k fun y => { y with deps := y.deps ++ [(t.readS x.k a.val).toNat] })) s)

/-- LPRIO (0x1A3, R196): clamped to the issuing launch's own priority. -/
def execLprio (h : Hdr) (a b : SReg) (s : State) : Out :=
  .next (issue (.lprio h a b) h { uses := [.src 1 (.s a.val), .src 2 (.s b.val)] } (simple fun x t =>
    let n := (t.readS x.k a.val).toNat
    let p := min ((t.readS x.k b.val).toNat % 4) (t.prioOf x.k)
    match Tab.find t.launches n with
    | none => t
    | some l => if l.ctx = t.ctxOf x.k then t.modLaunch n fun y => { y with prio := p } else t) s)

/-- LWAIT (0x1A4, R197): answers at once for a launch that is not there, or that it would wait for itself to end;
otherwise parks its sheaf. -/
def execLwait (h : Hdr) (d a : SReg) (s : State) : Out :=
  .next (issue (.lwait h d a) h { uses := [.src 1 (.s a.val), .dst (.s d.val)] } (simple fun x t =>
    let n := (t.readS x.k a.val).toNat
    let own := (t.sheaf x.k).launch
    let anc := match Tab.find t.launches own with
      | none => []
      | some l => l.ancestors
    match Tab.find t.launches n with
    | none => t.writeS x.k d.val 2
    | some l =>
      if l.ctx ≠ t.ctxOf x.k then t.writeS x.k d.val 2
      else if n = own ∨ anc.contains n then t.writeS x.k d.val 3
      else t.modSheaf x.k fun y => { y with park := some (.lwait d n) }) s)

end Sys2Proof.Machine
end

