-- ==== Sys2Proof/Machine/System.lean ====
section
/-!
DEFINITION. System instructions, class 0xE, all privileged (R198 to R205).
-/

namespace Sys2Proof.Machine

open Sys2Proof

/-! Range registers. -/

/-- The bits of the three words that are not reserved (Tables 5-2 to 5-4). -/
def rangeMasks : Word64 × Word64 × Word64 := (0x01FFFFFFFFFFF3FD, 0x01FFFFFFFFFFF000, 0x00FFFFFFFFFFF000)

/-- A range register as three words set it; reserved bits stay zero (R8, R91). -/
def rangeValue (a b c : Word64) : Word64 × Word64 × Word64 :=
  (a &&& rangeMasks.1, b &&& rangeMasks.2.1, c &&& rangeMasks.2.2)

/-- Changes the range registers of the named context; one named with OWN = 0 that does not exist keeps them (R199). -/
def State.rangeWrite (s : State) (k : Nat) (own : Bool) (ctx : BitVec 10)
    (f : Vector (Word64 × Word64 × Word64) 16 → Vector (Word64 × Word64 × Word64) 16) : State :=
  let n := if own then s.ctxOf k else ctx.toNat
  let c := s.ctx n
  if !own && !c.v then s else { s with ctxs := Tab.put s.ctxs n { c with rr := f c.rr } }

/-- RRSET (0x1C0, R199). -/
def execRrset (h : Hdr) (a b c : SReg) (own : Bool) (ctx : BitVec 10) (n : BitVec 4) (s : State) : Out :=
  .next (issue (.rrset h a b c own ctx n) h
    { priv := true, uses := [.src 1 (.s a.val), .src 2 (.s b.val), .src 3 (.s c.val)] } (simple fun x t =>
    t.rangeWrite x.k own ctx fun rr => rr.setIfInBounds n.toNat
      (rangeValue (t.readS x.k a.val) (t.readS x.k b.val) (t.readS x.k c.val))) s)

/-- RRINV (0x1C1, R199). -/
def execRrinv (h : Hdr) (own : Bool) (ctx : BitVec 10) (mask : BitVec 16) (s : State) : Out :=
  .next (issue (.rrinv h own ctx mask) h { priv := true } (simple fun x t =>
    t.rangeWrite x.k own ctx fun rr => Vector.ofFn fun (i : Fin 16) =>
      if mask.getLsbD i.val then (0, 0, 0) else rr.getD i.val (0, 0, 0)) s)

/-! Page invalidation. -/

/-- PGINV of a module: releases, sends the command, and blocks until the module answers (R200, R444); a module that is
unreachable, whose every access faults (R415), has nothing to invalidate. -/
def invalidate (x : Ex) (m code : Nat) (w1 w3 : Word64) (t : State) : Except TrapInfo (Flow × State) :=
  waitRemote true x t (fun t =>
    if (t.modl m).unreachable then .ok (.next, t)
    else match t.sendCmd m (t.ctxOf x.k) (t.newCmd x code .none .add w1 0 w3 none) with
    | (xid, u) => .ok (.stay, u.modSheaf x.k fun y => { y with block := some (.command x.b none xid) }))

/-- PGINV (0x1C2, XOP 0, R200): S[B] pages from S[A]; an address that names no mapped module, or no pages, leaves
nothing to invalidate. -/
def execPginv (h : Hdr) (a b : SReg) (s : State) : Out :=
  .next (issue (.pginv h a b) h { priv := true, uses := [.src 1 (.s a.val), .src 2 (.s b.val)] } (fun x t =>
    let w := t.readS x.k a.val &&& ~~~(0xFFFF : Word64)
    let n := t.readS x.k b.val
    let m := w.toNat / 2 ^ 44 % 2 ^ 11
    if w.toNat / 2 ^ 55 ≠ 1 ∨ !t.mapped m ∨ n = 0 then waitRemote true x t (fun t => .ok (.next, t))
    else invalidate x m 5 w n t) s)

/-- PGINV.mod (0x1C2, XOP 1, R200): every page of module S[A][54:44]. -/
def execPginvMod (h : Hdr) (a : SReg) (s : State) : Out :=
  .next (issue (.pginvMod h a) h { priv := true, uses := [.src 1 (.s a.val)] } (fun x t =>
    let m := (t.readS x.k a.val).toNat / 2 ^ 44 % 2 ^ 11
    if !t.mapped m then waitRemote true x t (fun t => .ok (.next, t))
    else invalidate x m 6 (modIa (m, 0)) 0 t) s)

/-! The writable control store. -/

/-- Bytes of an image so far and the checks that failed: the image up to the end of n operations, read in 32-byte
blocks; an address fault ends the reading (R201). The fuel bounds words and blocks of 256 bytes. -/
inductive Scan where
  | done (bytes : List Byte)
  | bad (detail : Byte)
  | trap (e : TrapInfo)
  | errors (g : List Nat)
  deriving DecidableEq, Repr

/-- DETAIL of a control-store trap (Table 19-2). -/
def storeDetail (reason i : Nat) : Byte := BitVec.ofNat 8 (reason * 32 + i)

/-- The reason with which an operation is refused, 0 for none: forbidden (R44), or a reserved encoding (R162). -/
def opReason (w : BitVec 128) : Nat :=
  let r := Raw.ofBits w
  if Raw.forbidden r then 1 else if !Raw.opValid r then 2 else 0

/-- Reads and checks an image from byte o, at operation i of n. -/
def State.scanImage (s : State) (x : Ex) (va : Word64) (n : Nat) : Nat → List Byte → Nat → Nat → Scan
  | 0, _, _, i => .bad (storeDetail 4 i)
  | f + 1, bs, o, i =>
    if i = n then .done (bs.take o)
    else if 256 ≤ o then .bad (storeDetail 4 i)
    else if bs.length ≤ o then
      let at_ := va + BitVec.ofNat 64 bs.length
      match s.opRead x at_ 32 with
      | .error e => .trap e
      | .ok b =>
        let e := match s.translate (s.ctxOf x.k) at_ 32 .rd with
          | .ok a => s.laneBad true 32 (.ok a)
          | .error _ => []
        if e = [] then State.scanImage s x va n f (bs ++ b) o i else .errors e
    else
      let w : BitVec 128 := BitVec.ofNat 128 (leNat ((bs.drop o).take 16))
      let l := lenBytes w
      if l = 4 then State.scanImage s x va n f bs (o + 4) i
      else if 32 < o % 32 + l then .bad (storeDetail 3 i)
      else match opReason w with
        | 0 => State.scanImage s x va n f bs (o + l) (i + 1)
        | r => .bad (storeDetail r i)

/-- Loads microprogram m of a core. -/
def State.loadMicro (s : State) (core m : Nat) (p : Micro) : State :=
  { s.modCore core fun c => { c with store := Tab.put c.store m p } with
    badWords := s.badWords.filter (· != .store core m) }

/-- WCSLD of the stores of a list of cores. -/
def loadStore (i : Instr) (h : Hdr) (a : SReg) (m : Fin 64) (n : BitVec 5) (cores : Ex → List Nat) (s : State) : State :=
  issue i h { priv := true, uses := [.src 1 (.s a.val)] } (fun x t =>
    match t.scanImage x (t.readS x.k a.val) (n.toNat + 1) 128 [] 0 0 with
    | .bad d => .error ⟨0x13, d, x.exec, 0⟩
    | .trap e => .error e
    | .errors g => .ok (.stay, t.contain g (t.sheaf x.k).launch)
    | .done bs => .ok (.next, (cores x).foldl (fun (u : State) c => u.loadMicro c m.val ⟨bs, n.toNat + 1⟩) t)) s

/-- WCSLD (0x1C3, XOP 0, R201): the issuing core's store. -/
def execWcsld (h : Hdr) (a : SReg) (m : Fin 64) (n : BitVec 5) (s : State) : Out :=
  .next (loadStore (.wcsld h a m n) h a m n (fun x => [unitOf x.k]) s)

/-- WCSLD.all (0x1C3, XOP 1, R201): the store of every core. -/
def execWcsldAll (h : Hdr) (a : SReg) (m : Fin 64) (n : BitVec 5) (s : State) : Out :=
  .next (loadStore (.wcsldAll h a m n) h a m n (fun _ => List.range 256) s)

/-! Events. -/

/-- EVPOST (0x1C4, R202, R380): posts a software record, or requests a checkpoint, unless ST = 1 (R345). -/
def execEvpost (h : Hdr) (a b c : SReg) (s : State) : Out :=
  .next (issue (.evpost h a b c) h
    { priv := true, uses := [.src 1 (.s a.val), .src 2 (.s b.val), .src 3 (.s c.val)] } (fun x t =>
    let q := (t.readS x.k a.val).toNat
    let lo := t.readS x.k b.val
    let ctx := t.ctxOf x.k
    if q < 16 then
      waitRemote true x t (fun t =>
        let t := t.readTable ctx
        .ok (.next, if queueValid (t.queueEntry ctx q) then
          t.postIn ctx q (mkRecord 1 0 ctx (clusterOf (unitOf x.k)) t.nanos (payload2 (t.readS x.k c.val) lo))
        else t))
    else if q = 0xFFFFFFFF ∧ lo = 1 then waitRemote true x t (fun t =>
        .ok (.next, if t.host.invarSt = 1 then t else t.later .invarCheckpoint))
    else .error ⟨0x03, 8, x.exec, 0⟩) s)

/-! Reservations of leave. -/

/-- The charge of a reservation in mW (R343). -/
def resCharge (kind n : Nat) : Nat :=
  if kind = 0 then 6000 * n else if kind = 1 then 3000 * n else if kind = 2 then 2000 * min n 256 else 0

/-- A number for a reservation, never 0 in 32 bits. -/
def resNumber (id : Nat) : Nat := id % (2 ^ 32 - 1) + 1

/-- Leave can be granted at once: nothing queues before the request, and the governor finds room, or the module reports
it, before the instruction completes (R342). -/
def State.roomNow (s : State) (kind charge modn : Nat) : Bool :=
  match s.powerLimit with
  | none => false
  | some limit =>
    if kind = 3 then !(s.gov.modQueue.any fun p => p.1.modn == modn) && Config.moduleRoom modn s.choices
    else s.gov.queue.isEmpty && decide (s.free64.toNat % 2 ^ 22 + s.gov.q + charge ≤ limit) &&
      Config.choose s.choices % 2 == 1

/-- Makes a reservation: its number, with bit 63 when it is granted now; 0 where R203 or R343 refuses it. Of kind 3 with a module
number above 2,047, for which R203 states no result, it is made and waits like any other (DESIGN CHOICE, log entry 125). -/
def State.reserve (s : State) (ctx kind n hold : Nat) : Word64 × State :=
  if 4 ≤ kind ∨ hold = 0 ∨ 16 ≤ (s.gov.res.filter fun r => r.ctx == ctx).length then (0, s)
  else
    let id := s.gov.nextId
    let num := resNumber id
    let charge := resCharge kind n
    let now := s.roomNow kind charge n
    let r : Reservation := ⟨ctx, num, kind, n, charge, 0, hold, false, 0⟩
    let s := ({ s with gov := { s.gov with res := s.gov.res ++ [r] } }.tick).queueLeave ctx kind charge n
      (.reservation ctx num)
    let s := if now then
        match (s.gov.queue ++ s.gov.modQueue).find? fun p => p.1.id == id with
        | some q => s.grantLeave q
        | none => s
      else s
    (BitVec.ofNat 64 ((if now then 2 ^ 63 else 0) + num), s)

/-- PREQ (0x1C5, XOP 0, R203). -/
def execPreq (h : Hdr) (d a : SReg) (s : State) : Out :=
  .next (issue (.preq h d a) h { priv := true, uses := [.src 1 (.s a.val), .dst (.s d.val)] } (simple fun x t =>
    let w := (t.readS x.k a.val).toNat
    let kind := w % 8
    let n := w / 8 % 2 ^ 13
    match t.reserve (t.ctxOf x.k) kind (if n = 0 ∧ kind ≠ 3 then 1 else n) (w / 2 ^ 16 % 2 ^ 16) with
    | (r, u) => u.writeS x.k d.val r) s)

/-- PREQ.rel (0x1C5, XOP 1, R203). -/
def execPreqRel (h : Hdr) (a : SReg) (s : State) : Out :=
  .next (issue (.preqRel h a) h { priv := true, uses := [.src 1 (.s a.val)] } (simple fun x t =>
    t.dropReservation (t.ctxOf x.k) ((t.readS x.k a.val).toNat % 2 ^ 32)) s)

/-! Raw reads. -/

/-- A register granule as DBGRD.reg sees it: the lane's value, or the whole scalar, and the tags; an empty slot gives
zeros. -/
def State.rawReg (s : State) (w : Nat) : Word64 × Word64 :=
  let k := w % 256 * 24 + w / 2 ^ 8 % 32
  let code := w / 2 ^ 13 % 256
  if 24 ≤ w / 2 ^ 8 % 32 ∨ (Tab.find s.sheaves k).isNone then (0, 0)
  else if code < 192 then
    let c := s.vraw k code
    ((c.data.getD (w / 2 ^ 21 % 32) 0).setWidth 64, BitVec.ofNat 64 (c.fmt.toNat * 2 ^ 16 + c.gen.toNat))
  else
    let c := s.sraw k (code - 192)
    (c.val, c.gen.setWidth 64)

/-- An accumulator element as DBGRD.acc sees it. -/
def State.rawAcc (s : State) (w : Nat) : Word64 × Word64 :=
  let row := Tab.get TileRow.zero s.acc (w % 256 * 1024 + w / 2 ^ 8 % 64 * 16 + w / 2 ^ 14 % 16)
  let e := row.el.getD (w / 2 ^ 18 % 16) 0
  (e.extractLsb' 0 64, BitVec.ofNat 64 (row.gen.toNat * 2 ^ 32) ||| (e.extractLsb' 64 32).setWidth 64)

/-- DBGRD (0x1C6, R60, R204). -/
def execDbgrd (h : Hdr) (w : DbgWhat) (d a : SReg) (s : State) : Out :=
  .next (issue (.dbgrd h w d a) h
    { priv := true, dbg := true, uses := [.src 1 (.s a.val), .dst (.s d.val), ⟨5, .s (d.val + 1), false, true, none⟩] }
    (fun x t =>
      let v := t.readS x.k a.val
      let put := fun (r : Word64 × Word64) =>
        Except.ok (Flow.next, (t.writeS x.k d.val r.1).writeS x.k (d.val + 1) r.2)
      match w with
      | .reg => put (t.rawReg v.toNat)
      | .acc => put (t.rawAcc v.toNat)
      | .mem =>
        if v.toNat % 8 ≠ 0 then .error (t.crooked x v)
        else match t.translate (t.ctxOf x.k) v 8 .rd with
          | .error r => .error (refusedTrap x r)
          | .ok acc => match acc.space with
            | .pkg p _ =>
              let e := t.badGranules p 8
              if e ≠ [] then .ok (.stay, t.contain e (t.sheaf x.k).launch)
              else put (BitVec.ofNat 64 (leNat ((List.range 8).map fun i => t.byte (p + i))), (t.tag p).setWidth 64)
            | _ => .error ⟨0x0C, 0x07, x.exec, BitVec.ofNat 56 acc.ia⟩) s)

/-! The sweepers. -/

/-- GENSWEEP of a counter's sweeper: blocks until the pass after the one under way has ended (R205). -/
def sweepWait (i : Instr) (h : Hdr) (slice : Bool) (key : Nat → Nat) (s : State) : State :=
  issue i h { priv := true } (fun x t =>
    let n := key x.k
    .ok (.stay, (t.modSheaf x.k fun y =>
      { y with block := some (.sweep x.b slice ((t.genCtr n).passes + 2)) }).sweep n)) s

/-- GENSWEEP (0x1C7, XOP 0, R205): the core's sweeper. -/
def execGensweep (h : Hdr) (s : State) : Out := .next (sweepWait (.gensweep h) h false (fun k => unitOf k) s)

/-- GENSWEEP.slice (0x1C7, XOP 1, R205): the cluster's slice sweeper. -/
def execGensweepSlice (h : Hdr) (s : State) : Out :=
  .next (sweepWait (.gensweepSlice h) h true (fun k => 256 + clusterOf (unitOf k)) s)

end Sys2Proof.Machine
end

