-- ==== Sys2Proof/Machine/Orrery.lean ====
section
/-!
DEFINITION. Events of the Orrery: submissions (R129, R338), placement (R134 to R137), retirement (R138), pre-emption and
restore (R140 to R144, R410).
-/

namespace Sys2Proof.Machine

open Sys2Proof

/-! Submissions. -/

/-- SUBMISSION_WRITE (R129, R338): a write of the host to the window of a context. -/
def execSubmissionWrite (ctx off : Nat) (data : List Byte) (s : State) : Out :=
  .next (
    if s.host.cur ≠ 4 then s
    else
      let refuse := fun (sub : Nat) => s.post 4 sub ctx nodeControl (payload2 0 (BitVec.ofNat 64 (4096 * ctx + off)))
      if off % 64 ≠ 0 ∨ data.length ≠ 64 then refuse 0
      else if !(s.ctx ctx).v then refuse 1
      else
        let q : Submission := ⟨ctx, data, none, 0, none, []⟩
        { s with subs := s.subs ++ [q] }.later .orreryAdmit)

/-! Fitting a span (R135). -/

/-- Resources of a core that a placement asks about: slots taken, units taken, tiles taken, blocks of the pool. -/
structure CoreUse where
  slots : List Nat
  units : List Nat
  tiles : List Nat
  blocks : Tab Nat
  deriving DecidableEq, Repr

/-- The blocks of a core's pool that the sheaves of crews hold there, at home and in visiting slots, and those to which one of
them is being moved. -/
def State.crewBlocks (s : State) (core : Nat) (ids : List Nat) : List Nat :=
  let mine := s.sheaves.filter fun p => unitOf p.1 == core && !nearMem p.1 && ids.contains p.2.crew
  let held := (mine.map fun p => (p.2.ext.map (·.start)).toList ++ p.2.vbase.toList).flatten
  match (s.core core).move with
  | some m => if held.contains m.1 then m.2 :: held else held
  | none => held

/-- What a core holds, but for the crews that a pre-emption would free. -/
def State.coreUse (s : State) (core : Nat) (gone : List Nat) : CoreUse :=
  let mine := gone.filterMap fun id => match s.crew? id with
    | some c => if c.core = core then some c else none
    | none => none
  let freed := (mine.map fun c => (List.range c.units).map (· + c.unit)).flatten
  let starts := if gone = [] then [] else s.crewBlocks core gone
  { slots := (List.range 16).filter fun i =>
      (Tab.find s.sheaves (core * 24 + i)).isSome && !(mine.any fun c => c.sheaves.contains (core * 24 + i))
    units := (List.range 256).filter fun u => Tab.get 0 s.coreUnits (core * 256 + u) != 0 && !freed.contains u
    tiles := ((s.crews.filter fun p => p.2.core == core && !gone.contains p.1).map (·.2.tiles)).flatten
    blocks := (s.core core).blocks.filter fun p => !starts.contains p.1 }

/-- The lowest run of n values of a range that a list does not name. -/
def freeRun (taken : List Nat) (limit n : Nat) : Option Nat :=
  (List.range (limit + 1 - n)).find? fun a => (List.range n).all fun i => !taken.contains (a + i)

/-- Places n blocks of a size one after the other. -/
def placeBlocks (size : Nat) : Nat → Tab Nat → Option (List Nat)
  | 0, _ => some []
  | n + 1, b => match poolPlace b size with
    | none => none
    | some a => (placeBlocks size n (Tab.put b a size)).map (a :: ·)

/-- Issues n generations of a counter. -/
def State.issueGens (s : State) (key : Nat) : Nat → Option (List Gen × State)
  | 0 => some ([], s)
  | n + 1 => match s.issueGen key with
    | none => none
    | some (g, t) => (State.issueGens t key n).map fun r => (g :: r.1, r.2)

/-- A counter can issue n generations (R57). -/
def State.canIssue (s : State) (key n : Nat) : Bool := (s.issueGens key n).isSome

/-- What a crew receives on its core. -/
structure CoreFit where
  core : Nat
  unit : Nat
  slots : List Nat
  tiles : List Nat
  blocks : List Nat
  deriving DecidableEq, Repr

/-- A crew of a record on a core. -/
def fitCore (u : CoreUse) (x : LaunchRec) (core : Nat) : Option CoreFit :=
  let slots := (List.range 16).filter fun i => !u.slots.contains i
  let tiles := (List.range 64).filter fun i => !u.tiles.contains i
  if slots.length < x.shv + 1 ∨ tiles.length < x.acc then none
  else match freeRun u.units 256 (x.scr + 1) with
    | none => none
    | some a =>
      match (if x.xblk = 0 then some [] else placeBlocks (xblkSize x.xblk) (x.shv + 1) u.blocks) with
      | none => none
      | some bs => some ⟨core, a, slots.take (x.shv + 1), tiles.take x.acc, bs⟩

/-- A placement of a span: its cluster, its first core, its cores, its first slice unit. -/
structure Fit where
  cluster : Nat
  first : Nat
  cores : List CoreFit
  unit : Nat
  deriving DecidableEq, Repr

/-- All of a list of options, or none. -/
def allSome {α : Type} : List (Option α) → Option (List α)
  | [] => some []
  | none :: _ => none
  | some x :: t => (allSome t).map (x :: ·)

/-- The placement from a first core of a cluster, on consecutive positions of its ring (R26), where every core can issue the
generations of its crew. -/
def State.fitAt (s : State) (x : LaunchRec) (gone : List Nat) (cluster first : Nat) : Option (List CoreFit) :=
  allSome ((List.range (x.crews + 1)).map fun k =>
    let core := cluster * 8 + (first + k) % 8
    if s.canIssue core ((x.shv + 1) * (if x.xblk = 0 then 1 else 2) + 2) then fitCore (s.coreUse core gone) x core
    else none)

/-- The slice units of a span in a cluster; units 251 to 255 are kept (R126, R250). -/
def State.fitSlice (s : State) (x : LaunchRec) (goneSpans : List Nat) (cluster : Nat) : Option Nat :=
  if x.slice = 0 then some 0
  else if !s.canIssue (256 + cluster) 1 then none
  else
    let freed := (goneSpans.map fun id =>
      let p := s.span id
      if p.cluster = cluster then (List.range p.units).map (· + p.unit) else []).flatten
    freeRun ((List.range 251).filter fun u => Tab.get 0 s.sliceUnits (cluster * 256 + u) != 0 && !freed.contains u) 251 x.slice

/-- The placement in a cluster from the lowest first core. -/
def State.fitCluster (s : State) (x : LaunchRec) (goneSpans : List Nat) (cluster : Nat) : Option Fit :=
  let gone := (goneSpans.map fun id => (s.span id).crews).flatten
  match s.fitSlice x goneSpans cluster with
  | none => none
  | some u => (List.range 8).findSome? fun f => (s.fitAt x gone cluster f).map fun cs => ⟨cluster, f, cs, u⟩

/-- The placement of the next span of a record: the lowest cluster, then the lowest first core, then the lowest units
(R135). -/
def State.fit (s : State) (x : LaunchRec) : Option Fit := (List.range 32).findSome? fun c => s.fitCluster x [] c

/-! Placement (R137). -/

/-- sr.srnd at placement (R77). -/
def placedSrnd (launch span crew idx : Nat) : Word64 :=
  let x := BitVec.ofNat 64 (launch % 2 ^ 32 * 2 ^ 32 + span * 2 ^ 16 + crew * 16 + idx)
  if x = 0 then 1 else x

/-- A sheaf as placed: PC slot A is live at ENTRY (R28, R137). -/
def newSheaf (launch span crew idx : Nat) (x : LaunchRec) (base : Gen) (ext : Option ExtBlk) (srnd : Word64) : Sheaf :=
  { Sheaf.empty with
    launch := launch
    span := span
    crew := crew
    idx := idx
    baseGen := base
    ext := ext
    a := PcSlot.start x.entry 0xFFFFFFFF 63
    strict := x.strict
    srnd := srnd }

/-- Places a crew on its core; none when a generation cannot be issued. What a launch reads is ordered after what came before
its placement (R124, R133, R139), so lines of its context are discarded. -/
def State.placeCrew (s : State) (launch span c : Nat) (x : LaunchRec) (spanNum : Nat) (f : CoreFit) : Option State :=
  let n := f.slots.length
  match s.issueGens f.core (n + f.blocks.length + 2) with
  | none => none
  | some (gs, s) =>
    let id := s.nextCrew
    let places := f.slots.map fun i => f.core * 24 + i
    let crew : Crew := { Crew.empty with
      span := span
      launch := launch
      core := f.core
      unit := f.unit
      units := x.scr + 1
      scrGen := gs.getD (n + f.blocks.length) 0
      tiles := f.tiles
      accGen := gs.getD (n + f.blocks.length + 1) 0
      bar := x.bar
      sheaves := places
      retired := false }
    let s := { s with
      nextCrew := id + 1
      crews := Tab.put s.crews id crew }.setCrewUnits crew crew.scrGen
    let s := match Tab.find s.launches launch with
      | some l => s.dropCtx f.core l.ctx
      | none => s
    let s := s.modSpan span fun p => { p with crews := p.crews ++ [id] }
    let s := s.modCore f.core fun y => { y with blocks := f.blocks.foldl (fun b a => Tab.put b a (xblkSize x.xblk)) y.blocks }
    some ((places.zipIdx).foldl (fun (t : State) p =>
      let ext := (f.blocks[p.2]?).map fun a => ExtBlk.mk a (xblkSize x.xblk) (gs.getD (n + p.2) 0)
      let t := t.setSheaf p.1 (newSheaf launch span id p.2 x (gs.getD p.2 0) ext (placedSrnd launch spanNum c p.2))
      t.writeS p.1 0 x.args) s)

/-- Places the crews of a span in order. -/
def State.placeCrews (s : State) (launch span : Nat) (x : LaunchRec) (spanNum : Nat) : Nat → List CoreFit → Option State
  | _, [] => some s
  | c, f :: fs => match s.placeCrew launch span c x spanNum f with
    | none => none
    | some t => State.placeCrews t launch span x spanNum (c + 1) fs

/-- Places the next span of a launch in one step (R135, R137); none when a generation cannot be issued. -/
def State.placeSpan (s : State) (n : Nat) (l : Launch) (f : Fit) : Option State :=
  let id := s.nextSpan
  let span : Span := { Span.empty with
    launch := n
    num := l.placed
    state := .running
    cluster := f.cluster
    first := f.first
    unit := f.unit
    units := l.record.slice }
  let s := { s with
    nextSpan := id + 1
    spans := Tab.put s.spans id span }
  match s.placeCrews n id l.record l.placed 0 f.cores with
  | none => none
  | some t =>
    let done := fun (t : State) => t.modLaunch n fun y => { y with placed := y.placed + 1, state := .active, eligibleAt := t.nanos }
    if l.record.slice = 0 then some (done t)
    else match t.issueGen (256 + f.cluster) with
      | none => none
      | some (g, t) =>
        let t := t.modSpan id fun p => { p with sliceGen := g }
        some (done (t.setSpanUnits (t.span id) g))

/-- Crews of a launch (R136). -/
def LaunchRec.total (x : LaunchRec) : Nat := (x.spans + 1) * (x.crews + 1)

/-- A launch whose next span is to be placed. -/
def Launch.wants (l : Launch) : Bool :=
  (l.state == .eligible || l.state == .active) && decide (l.placed ≤ l.record.spans)

/-- A saved span finds its own slots and units free, and space and generations for the rest (Table 7-3, step 6); no
restore while PRE holds its context. -/
def State.canRestore (s : State) (p : Span) (v : Saved) : Bool :=
  let ctx := (Tab.get fetchNone s.launches p.launch).ctx
  let cores := v.crews.map fun c =>
    let u := s.coreUse c.2.core []
    let mine := v.sheaves.filter fun q => c.2.sheaves.contains q.1
    let sizes := mine.filterMap fun q => q.2.ext.map (·.size)
    let blocks := (sizes.mergeSort fun a b => decide (b ≤ a)).foldl (fun (b : Option (Tab Nat)) n => b.bind fun b =>
      (poolPlace b n).map fun a => Tab.put b a n) (some u.blocks)
    mine.all (fun q => !u.slots.contains (slotOf q.1)) &&
      (List.range c.2.units).all (fun i => !u.units.contains (c.2.unit + i)) &&
      decide (u.tiles.length + c.2.tiles.length ≤ 64) && blocks.isSome && s.canIssue c.2.core (2 + mine.length + sizes.length)
  !(s.ctx ctx).pre && cores.all id && (p.units == 0 || s.canIssue (256 + p.cluster) 1) &&
    (List.range p.units).all fun i => Tab.get 0 s.sliceUnits (p.cluster * 256 + p.unit + i) == 0
where
  fetchNone : Launch := newLaunch 0 0 [] (LaunchRec.of 0 []) [] none .ending

/-- The launches and saved spans that wait for resources, as R134 orders them: by priority, by admission, saved spans of a
launch first. -/
def State.waitingOrder (s : State) : List (Nat × Option Nat) :=
  let ls := s.launches.filter fun p => !p.2.gone
  let items := (List.range 4).map fun i => (ls.filter fun p => p.2.prio == 3 - i).map fun (p : Nat × Launch) =>
    (((s.spans.filter fun q => q.2.launch == p.1 && q.2.state == .saved).map fun q => (p.1, some q.1)) ++
      (if p.2.wants then [(p.1, none)] else []) : List (Nat × Option Nat))
  items.flatten.flatten

/-- Considers the waiting launches in order: the first span that can be placed is placed, the first saved span that can be
restored goes on to its restore. -/
def State.placeFirst (s : State) : List (Nat × Option Nat) → State
  | [] => s
  | (_, some id) :: t => match (s.span id).saved with
    | none => State.placeFirst s t
    | some v => if s.canRestore (s.span id) v then s.later (.spanRestore id) else State.placeFirst s t
  | (n, none) :: t =>
    match Tab.find s.launches n with
    | none => State.placeFirst s t
    | some l =>
      let crews := l.record.total
      if 64 < crews ∧ !s.gov.holds (.launch n) then
        State.placeFirst (s.askLeave l.ctx 2 (2000 * min crews 256) 0 (.launch n)) t
      else match s.fit l.record with
        | none => State.placeFirst s t
        | some f => match s.placeSpan n l f with
          | none => State.placeFirst s t
          | some u => u.later .spanPlacement

/-- SPAN_PLACEMENT (R134, R135): at most one span is placed in a step; while a checkpoint runs none is. -/
def execSpanPlacement (s : State) : Out :=
  .next (if s.checkpoint ∨ s.host.cur ≠ 4 then s.later .spanPlacement
    else s.ifSound fun t => t.placeFirst t.waitingOrder)

/-! Retirement (R138). -/

/-- An arrival of 1 on CBAR (R138): on the package, or by a short frame that counts 1 (log entry 16). -/
def State.arriveCbar (s : State) (ctx launch : Nat) (a : BitVec 56) : State :=
  let low := a.toNat % 2 ^ 32
  let p := a.toNat / 2 ^ 32 % 512
  if a = 0 then s
  else if a.extractLsb' 48 8 = 0 then s.arrive low 1
  else if p = s.host.pkgnum.toNat then if s.destGrants ctx low 32 .wr then s.arrive low 1 else s
  else match s.openXfer .cbar launch 1 [] with
    | (x, s) =>
      let f := { s.peerFrame 0 ctx p low x [] with baddr := BitVec.ofNat 56 low, np := 1 }
      s.sendOut ⟨f, .short, [], launch, [], [], false⟩

/-- A launch whose last span has retired ends (R138). -/
def State.retireLaunch (s : State) (n : Nat) : State :=
  match Tab.find s.launches n with
  | none => s
  | some l => if l.record.spans < l.retired ∧ l.state = .active then s.endLaunch n false else s

/-- A span whose crews have all retired retires, and arrives on CBAR (R138). -/
def State.retireSpan (s : State) (id : Nat) : State :=
  let p := s.span id
  if p.crews.any fun c => (s.crew? c).isSome then s
  else
    let n := p.launch
    let s := (s.releaseSpan id).modSpan id fun x => { x with state := .retired }
    match Tab.find s.launches n with
    | none => s
    | some l =>
      let s := s.arriveCbar l.ctx n l.record.cbar
      (s.modLaunch n fun y => { y with retired := y.retired + 1 }).retireLaunch n

/-- Commands of a crew that its core's matrix engine has not completed. -/
def State.matrixLeft (s : State) (id : Nat) (c : Crew) : Bool :=
  let e := (s.core c.core).engine
  (e.queue ++ e.waiting).any fun q => q.crew == id

/-- Engine errors that no MFEN reported become type-3 records (R278). -/
def State.reportEngine (s : State) (c : Crew) : State :=
  match Tab.find s.launches c.launch with
  | some l => c.engErr.foldl (fun (t : State) e =>
      t.post 3 0 l.ctx (clusterOf c.core) (payload2 (BitVec.ofNat 64 c.launch) (e.1 ++ e.2))) s
  | none => s

/-- CREW_RETIRE (R138, R250): once every command of the crew has made its last arrival, and every access of its lanes is
performed (Table 6-4). -/
def execCrewRetire (id : Nat) (s : State) : Out :=
  .next (match s.crew? id with
    | none => s
    | some c =>
      let active := match Tab.find s.launches c.launch with
        | some l => l.state == .active
        | none => false
      if !active ∨ (s.liveSheaves c) ≠ [] then s
      else if c.posted ≠ 0 ∨ c.flight ≠ 0 ∨ s.matrixLeft id c ∨ s.checkpoint ∨
          c.sheaves.any (fun k => s.remoteOut k || s.writesOut k) then s.later (.crewRetire id)
      else
        let s := s.reportEngine c
        let armed := s.launches.filter fun p => p.2.state == .armed && (match p.2.arm with
          | some (a, _) => a == id
          | none => false)
        let s := armed.foldl (fun (t : State) p =>
          t.discard p.1 2 0 (BitVec.ofNat 56 ((t.armSlot p.2).getD 0))) s
        ((s.releaseCrew id).retireSpan c.span).later .spanPlacement)

/-! Pre-emption (R140 to R144). -/

/-- The most bytes that a saved span of a record takes (R143). -/
def LaunchRec.saveBytes (x : LaunchRec) : Nat :=
  4096 + (x.crews + 1) * (4096 + (x.scr + 1) * 32896 + x.acc * 3074 + (x.shv + 1) * 99840) + x.slice * 263168

def State.recordOf (s : State) (n : Nat) : LaunchRec :=
  match Tab.find s.launches n with
  | some l => l.record
  | none => LaunchRec.of 0 []

def State.ctxOfLaunch (s : State) (n : Nat) : Nat :=
  match Tab.find s.launches n with
  | some l => l.ctx
  | none => 0

/-- Bytes of a context's save region beyond its first 512 that no span reserves. -/
def State.saveRoom (s : State) (ctx : Nat) : Nat :=
  (s.ctx ctx).psSize.toNat - 512 - ((s.spans.filter fun p =>
    (p.2.state == .saving || p.2.state == .saved) && s.ctxOfLaunch p.2.launch == ctx).map
      fun p => (s.recordOf p.2.launch).saveBytes).sum

/-- A running span that its last EXIT has not completed (R144). -/
def State.spanLive (s : State) (p : Span) : Bool :=
  p.state == .running && p.crews.any fun c => match s.crew? c with
    | some x => s.liveSheaves x != []
    | none => false

/-- A sheaf that waits in WAITA returns with reason 2 (R141, R181); a CALLI parked in its implicit XACQ executes again
(R395). -/
def State.stopSheaf (s : State) (k : Nat) : State :=
  let s := s.wakeWaita k 2
  match (s.sheaf k).park with
  | some (.xacq _ _ true) =>
    (s.modSheaf k fun y => { y with park := none }).modCore (unitOf k) fun c =>
      { c with waiting := c.waiting.filter fun w => w.place != k }
  | _ => s

/-- The fragments of the sheaves of a list of places. -/
def State.fragsOf (s : State) (places : List Nat) : List Nat :=
  (s.sheaves.filter fun p => match p.2.frag with
    | some f => places.contains f.home
    | none => false).map (·.1)

/-- Recalls a fragment (Table 7-3, step 2). -/
def State.recallFrag (s : State) (k : Nat) : State :=
  (s.modSheaf k fun y => { y with frag := y.frag.map fun (f : Frag) => { f with recalled := some (f.recalled.getD s.nanos) } }).later
    (.recallTimeout (placeOf k))

/-- The home places of a span. -/
def State.placesOf (s : State) (p : Span) : List Nat := (p.crews.map fun c => (s.crew c).sheaves).flatten

/-- Steps 1 and 2 of Table 7-3: the span issues nothing further, and its fragments are recalled. -/
def State.stopAndRecall (s : State) (id : Nat) : State :=
  let places := s.placesOf (s.span id)
  (s.fragsOf places).foldl State.recallFrag (places.foldl State.stopSheaf s)

/-- Pre-empts a span. -/
def State.preempt (s : State) (id : Nat) : State :=
  ((s.modSpan id fun p => { p with state := .saving, recalls := [] }).stopAndRecall id).later (.spanSave id)

/-- The spans that a launch of a priority may pre-empt, in the order of R140. -/
def State.victims (s : State) (prio : Nat) : List (Nat × Span) :=
  let ok := s.spans.filter fun p => s.spanLive p.2 && (match Tab.find s.launches p.2.launch with
    | some l => l.state == .active && decide (l.prio < prio) && !l.record.nopre
    | none => false)
  let rank : Nat × Span → Nat × Nat × Nat := fun p => ((match Tab.find s.launches p.2.launch with
    | some l => l.prio
    | none => 0), p.2.launch, p.2.num)
  ok.mergeSort fun a b =>
    let x := rank a
    let y := rank b
    decide (x.1 < y.1 ∨ (x.1 = y.1 ∧ (y.2.1 < x.2.1 ∨ (y.2.1 = x.2.1 ∧ y.2.2 ≤ x.2.2))))

/-- Bytes that chosen victims take of the save region of a context (R143). -/
def State.saveTaken (s : State) (ctx : Nat) (got : List (Nat × Span)) : Nat :=
  ((got.filter fun v => s.ctxOfLaunch v.2.launch == ctx).map fun v => (s.recordOf v.2.launch).saveBytes).sum

/-- Victims taken in order, each within the save region of its context, until those of one cluster let the span fit there
(R140, R143): that cluster and its victims. -/
def State.takeVictims (s : State) (x : LaunchRec) : List (Nat × Span) → List (Nat × Span) → Option (Nat × List Nat)
  | [], _ => none
  | v :: vs, got =>
    let ctx := s.ctxOfLaunch v.2.launch
    let mine := got.filter fun w => w.2.cluster == v.2.cluster
    if s.saveRoom ctx < s.saveTaken ctx mine + (s.recordOf v.2.launch).saveBytes then State.takeVictims s x vs got
    else
      let ids := (mine ++ [v]).map (·.1)
      if (s.fitCluster x ids v.2.cluster).isSome then some (v.2.cluster, ids)
      else State.takeVictims s x vs (got ++ [v])

/-- Leaves out victims that the placement does without, the last chosen first. -/
def State.fewest (s : State) (x : LaunchRec) (cluster : Nat) : List Nat → List Nat → List Nat
  | [], got => got
  | v :: vs, got =>
    let rest := got.filter (· != v)
    State.fewest s x cluster vs (if (s.fitCluster x rest cluster).isSome then rest else got)

/-- The spans that are pre-empted for the next span of a launch (R140). -/
def State.chooseVictims (s : State) (l : Launch) : Option (List Nat) :=
  (s.takeVictims l.record (s.victims l.prio) []).map fun got => s.fewest l.record got.1 got.2.reverse got.2

/-- PREEMPTION_WAIT_EXPIRY (R140): a launch has waited 50 µs for its next span. An armed launch never pre-empts (R139). After
victims are chosen the wait begins again, and may choose further ones (R140 is silent: DESIGN CHOICE, log entry 111). -/
def execPreemptionWaitExpiry (n : Nat) (s : State) : Out :=
  .next (s.ifSound fun s => match Tab.find s.launches n with
    | none => s
    | some l =>
      if !l.wants ∨ l.arm.isSome then s
      else if s.nanos < l.eligibleAt + 50000 ∨ s.checkpoint ∨ (64 < l.record.total ∧ !s.gov.holds (.launch n)) then
        s.later (.preemptionWaitExpiry n)
      else match s.chooseVictims l with
        | none => s.later (.preemptionWaitExpiry n)
        | some vs =>
          let s := vs.foldl State.preempt s
          (s.modLaunch n fun y => { y with eligibleAt := s.nanos }).later (.preemptionWaitExpiry n))

/-! Recall. -/

/-- A fragment has stopped at an instruction boundary: no lane of a load is outstanding, and none waits to leave. -/
def State.fragStill (s : State) (k : Nat) : Bool :=
  let sh := s.sheaf k
  !s.leaving k && sh.loads.all fun l => l.left &&& ~~~l.ready == 0

/-- The live vector, scalar and predicate granules of a place (R62). -/
def State.liveV (s : State) (k : Nat) : List (Nat × VCell) :=
  (((List.range (s.sheaf k).vcount).filter fun r => !s.staleReg k (.v r)).map fun r => (r, s.vraw k r))

def State.liveS (s : State) (k : Nat) : List (Nat × SCell) :=
  (((List.range 64).filter fun r => !s.staleReg k (.s r)).map fun r => (r, s.sraw k r))

def State.liveP (s : State) (k : Nat) : List (Nat × PCell) :=
  (((List.range 7).filter fun r => !s.staleReg k (.p r)).map fun r => (r, s.praw k r))

/-- The continuation of a recalled fragment, KIND 4: everything its visiting slot holds. -/
def State.freeze (s : State) (k : Nat) : Cont :=
  let sh := s.sheaf k
  let c := s.mkCont k (s.fragLanes k) (if sh.a.live then sh.a.pc else sh.b.pc) 4 0 (s.hopsOf k) 0 0
  { c with
    toModule := nearMem k
    dmod := if nearMem k then moduleOf k else 0
    dunit := if nearMem k then (unitOf k - 256) % 64 else 0
    dcore := if nearMem k then 0 else unitOf k
    ia := (sh.frag.map (·.ia)).getD 0
    frozen := some
      { a := { sh.a with park := none }
        b := { sh.b with park := none }
        lastB := sh.lastB
        depth := sh.depth
        fstack := sh.fstack
        srnd := sh.srnd
        qnv := sh.qnv
        homePc := sh.homePc
        noMig := sh.noMig
        redepart := sh.redepart
        ext := sh.xblk
        vcells := s.liveV k
        scells := (s.liveS k).map fun p => (p.1, p.2.val)
        pcells := (s.liveP k).map fun p => (p.1, p.2.val) } }

/-- A recalled fragment that has stopped goes home, and its visiting slot is freed. -/
def State.pullFrag (s : State) (k : Nat) : State :=
  if !s.fragStill k then s
  else
    let s := s.flushLoads k 0xFFFFFFFF
    if s.fragLanes k = 0 then s.releasePlace k else
    let c := s.freeze k
    match s.freshId with
    | (id, s) => ({ s with conts := Tab.put s.conts id { c with src := none } }.releasePlace k).later (.migrationReturn id)

/-- RECALL_TIMEOUT (R410): a recalled fragment has not stopped within 25 µs; its launch is discarded. -/
def execRecallTimeout (p : Place) (s : State) : Out :=
  let k := placeKey p
  .next (match (s.sheaf k).frag with
    | none => s
    | some f => match f.recalled with
      | none => s
      | some t =>
        if s.nanos < t + 25000 then s.later (.recallTimeout p)
        else s.discardAt (s.sheaf k).launch 3 0 0 (clusterOf (unitOf f.home)))

/-! Save and restore. -/

/-- Everything that steps 2 and 3 of Table 7-3 wait for has come about: fragments are home, commands and accesses are
complete, no pending bit is set, nothing blocks. -/
def State.drained (s : State) (id : Nat) : Bool :=
  let p := s.span id
  let places := s.placesOf p
  (s.fragsOf places).isEmpty && !(s.conts.any fun c => places.contains c.2.home) &&
    p.crews.all (fun c => match s.crew? c with
      | none => true
      | some x => x.posted == 0 && x.flight == 0 && !s.matrixLeft c x) &&
    places.all fun k =>
      let sh := s.sheaf k
      sh.loads.isEmpty && !sh.anyPending && sh.block.isNone && !s.remoteOut k && !s.writesOut k &&
        sh.a.park.all (fun x => x == .cbar || x == .sbar) && sh.b.park.all fun x => x == .cbar || x == .sbar

/-- The live granules of a region (R62): address and bytes. -/
def State.liveGranules (s : State) (a n : Nat) : List (Nat × List Byte) :=
  (s.tags.filter fun p => decide (a ≤ 32 * p.1 ∧ 32 * p.1 < a + n) && !s.stale (32 * p.1)).map fun p =>
    (32 * p.1, (List.range 32).map fun i => s.byte (32 * p.1 + i))

/-- The live accumulator rows of a crew: place of the tile among the crew's, row, contents. -/
def State.liveRows (s : State) (c : Crew) : List (Nat × Nat × TileRow) :=
  ((c.tiles.zipIdx).map fun t => (List.range 16).filterMap fun r =>
    let row := Tab.get TileRow.zero s.acc (c.core * 1024 + t.1 * 16 + r)
    if row.gen = c.accGen ∧ c.accGen ≠ 0 then some (t.2, r, row) else none).flatten

/-- A PC slot as it is saved: a trap that is not yet entered, and is not held behind the other slot's, is found again by
the instruction (R400). -/
def savedSlot (sl other : PcSlot) : PcSlot := if other.active then sl else { sl with waiting := none }

/-- A sheaf as it is saved: without its watch set. -/
def savedSheaf (sh : Sheaf) : Sheaf :=
  { sh with
    a := savedSlot sh.a sh.b
    b := savedSlot sh.b sh.a
    watch := []
    watchHit := false
    readyAt := none }

/-- The parts of a context's save region that its saved spans take: offset and bytes. -/
def State.savedAt (s : State) (ctx : Nat) : List (Nat × Nat) := (s.spans.filterMap fun p =>
  if s.ctxOfLaunch p.2.launch = ctx then p.2.saved.map (·.room) else none).flatten

/-- The parts of a region from o to n that sorted parts leave free. -/
def freeParts (n : Nat) : Nat → List (Nat × Nat) → List (Nat × Nat)
  | o, [] => if o < n then [(o, n - o)] else []
  | o, u :: us => (if o < u.1 then [(o, u.1 - o)] else []) ++ freeParts n (max o (u.1 + u.2)) us

/-- The first n bytes of some parts. -/
def firstBytes : List (Nat × Nat) → Nat → List (Nat × Nat)
  | [], _ => []
  | p :: ps, n => if n = 0 then [] else if n ≤ p.2 then [(p.1, n)] else p :: firstBytes ps (n - p.2)

/-- Where a span is saved (R143): the lowest free bytes of the save region beyond its first 512. -/
def State.saveParts (s : State) (ctx n : Nat) : List (Nat × Nat) :=
  firstBytes (freeParts (s.ctx ctx).psSize.toNat 512 ((s.savedAt ctx).mergeSort fun a b => decide (a.1 ≤ b.1))) n

/-- A saved span is written to its place in the save region, by units of 64 bytes (R143): bytes of a layout that is the
Orrery's own. -/
def State.writeSaved (s : State) (ctx : Nat) (v : Saved) : State :=
  let key := s.choices
  v.room.foldl (fun (t : State) p => (List.range ((p.2 + 63) / 64)).foldl (fun (t : State) i =>
    match t.ctxWrite ctx ((t.ctx ctx).psBase + BitVec.ofNat 64 (p.1 + 64 * i))
        ((List.range (min 64 (p.2 - 64 * i))).map fun j => Config.imageByte key (p.1 + 64 * i + j)) with
    | .ok u => u
    | .error _ => t) t) { s with choices := s.choices + 1 }

/-- The granules with errors among the bytes of a saved span (R386, R414). -/
def State.savedErrors (s : State) (ctx : Nat) (v : Saved) : List Nat :=
  (v.room.map fun p => s.badAt ctx ((s.ctx ctx).psBase + BitVec.ofNat 64 p.1) p.2).flatten

/-- The image of a span (Table 7-3, step 4). -/
def State.saveImage (s : State) (p : Span) : Saved :=
  let crews := p.crews.filterMap fun c => (s.crew? c).map fun x => (c, { x with old := [] })
  let places := s.placesOf p
  { sheaves := places.map fun k => (k, savedSheaf (s.sheaf k))
    vregs := (places.map fun k => (s.liveV k).map fun r => (k, r.1, r.2)).flatten
    sregs := (places.map fun k => (s.liveS k).map fun r => (k, r.1, r.2)).flatten
    pregs := (places.map fun k => (s.liveP k).map fun r => (k, r.1, r.2)).flatten
    crews := crews
    grans := (crews.map fun c => s.liveGranules c.2.base c.2.size).flatten ++ s.liveGranules p.base p.size
    rows := (crews.map fun c => (s.liveRows c.2).map fun r => (c.1 * 64 + r.1, r.2.1, r.2.2)).flatten
    conts := p.recalls
    room := s.saveParts (s.ctxOfLaunch p.launch) (s.recordOf p.launch).saveBytes }

/-- Granules of a span with uncorrectable errors (R386). -/
def State.spanErrors (s : State) (p : Span) : List Nat :=
  if s.badSram = [] then [] else
  (p.crews.map fun c => s.badGranules (s.crew c).base (s.crew c).size).flatten ++ s.badGranules p.base p.size

/-- Some register or accumulator row of a span holds an uncorrectable error (R386). -/
def State.spanWordError (s : State) (p : Span) : Bool :=
  let places := s.placesOf p
  (s.badRegs.any fun i => match s.regOwner (i / 8192) (i % 8192) with
    | some k => places.contains k
    | none => false) ||
  s.badWords.any fun w => match w with
    | .scalar k _ | .pred k _ => places.contains k
    | .row key => p.crews.any fun c => (s.crew c).core == key / 1024 && (s.crew c).tiles.contains (key / 16 % 64)
    | .store _ _ | .control => false

/-- SPAN_SAVE (Table 7-3, steps 2 to 5): recalled fragments go home as they stop; once everything has drained the span is
saved and all it holds is freed. -/
def execSpanSave (id : Nat) (s : State) : Out :=
  .next (
    let p := s.span id
    if p.state ≠ .saving then s
    else
      let s := ((s.fragsOf (s.placesOf p)).filter fun k => (s.sheaf k).frag.any fun f => f.recalled.isSome).foldl
        State.pullFrag s
      if !s.drained id then s.later (.spanSave id)
      else
        let p := s.span id
        match s.spanErrors p with
        | g :: gs => s.contain (g :: gs) p.launch
        | [] =>
          if s.spanWordError p then s.discardAt p.launch 0 0 0 p.cluster else
          let v := s.saveImage p
          let s := (s.writeSaved (s.ctxOfLaunch p.launch) v).releaseSpan id
          s.modSpan id fun x => { x with state := .saved, saved := some v, recalls := [] })

/-- A restored PC slot inside a microprogram goes on in the store of the core it is restored to (R46, R399). -/
def State.rereadMicro (s : State) (core : Nat) (sl : PcSlot) : PcSlot :=
  { sl with micro := sl.micro.map fun m =>
      { m with image := (s.micro core m.num).image, count := (s.micro core m.num).count } }

/-- Restores a sheaf under fresh generations. -/
def State.restoreSheaf (s : State) (v : Saved) (k : Nat) (sh : Sheaf) : Option State :=
  match s.issueGen (genKey k) with
  | none => none
  | some (g, s) =>
    let ext : Option (Option ExtBlk × State) := match sh.ext with
      | none => some (none, s)
      | some x => match poolPlace (s.core (unitOf k)).blocks x.size, s.issueGen (genKey k) with
        | some a, some (h, t) => some (some ⟨a, x.size, h⟩,
            t.modCore (unitOf k) fun c => { c with blocks := Tab.put c.blocks a x.size })
        | _, _ => none
    match ext with
    | none => none
    | some (e, s) =>
      let s := s.setSheaf k { sh with
        baseGen := g
        ext := e
        a := s.rereadMicro (unitOf k) sh.a
        b := s.rereadMicro (unitOf k) sh.b }
      let s := (v.vregs.filter fun r => r.1 == k).foldl (fun (t : State) r =>
        t.writeV k r.2.1 0xFFFFFFFF (fun L => r.2.2.data.getD L 0) r.2.2.fmt) s
      let s := (v.sregs.filter fun r => r.1 == k).foldl (fun (t : State) r => t.writeS k r.2.1 r.2.2.val) s
      some ((v.pregs.filter fun r => r.1 == k).foldl (fun (t : State) r => t.writeP k r.2.1 0xFFFFFFFF r.2.2.val) s)

/-- Restores the sheaves of a list, larger blocks first. -/
def State.restoreSheaves (s : State) (v : Saved) : List (Nat × Sheaf) → Option State
  | [] => some s
  | p :: ps => match s.restoreSheaf v p.1 p.2 with
    | none => none
    | some t => State.restoreSheaves t v ps

/-- Restores a crew: its units, fresh tiles with their rows, its descriptors, its barriers. -/
def State.restoreCrew (s : State) (v : Saved) (id : Nat) (c : Crew) : Option State :=
  match s.issueGens c.core 2 with
  | none => none
  | some (gs, s) =>
    let used := (s.coreUse c.core []).tiles
    let tiles := ((List.range 64).filter fun i => !used.contains i).take c.tiles.length
    let crew : Crew := { c with
      scrGen := gs.getD 0 0
      accGen := gs.getD 1 0
      tiles := tiles }
    let s := { s with crews := Tab.put s.crews id crew }.setCrewUnits crew crew.scrGen
    some ((v.rows.filter fun r => r.1 / 64 == id).foldl (fun (t : State) r =>
      let key := crew.core * 1024 + tiles.getD (r.1 % 64) 0 * 16 + r.2.1
      { t with acc := Tab.set TileRow.zero t.acc key { r.2.2 with gen := crew.accGen } }) s)

def State.restoreCrews (s : State) (v : Saved) : List (Nat × Crew) → Option State
  | [] => some s
  | c :: cs => match s.restoreCrew v c.1 c.2 with
    | none => none
    | some t => State.restoreCrews t v cs

/-- Re-sends a recalled fragment, with the generations of the restored blocks (R292). -/
def State.resend (s : State) (c : Cont) : State :=
  let sh := s.sheaf c.home
  let c : Cont := { c with
    kind := 0
    hgen := sh.baseGen
    xgen := (sh.ext.map (·.gen)).getD 0 }
  match s.freshId with
  | (id, s) => { s with conts := Tab.put s.conts id c }.later (.continuationArrival id)

/-- A restored sheaf parks again on its saved condition (Table 7-3, step 8), or goes on. -/
def State.reparkSheaf (s : State) (k : Nat) : State :=
  let sh := s.sheaf k
  let s := if sh.a.waiting.isSome then s.later (.trapEntry (placeOf k) false) else s
  let s := if sh.b.waiting.isSome then s.later (.trapEntry (placeOf k) true) else s
  let s := match sh.park with
    | some (.sleep _) => s.later (.sleepExpiry (placeOf k))
    | some (.xacq b n false) =>
      match (s.modSheaf k fun y => { y with park := none }).xacq k b n false with
      | (t, true) => t.advance k b 8
      | (t, false) => t
    | some (.abwait _ b _ _) => s.wakeWaiters ((s.crew sh.crew).slotAddr b.val) 0
    | _ => s
  s.refill k

/-- ARM stands only in slots that an armed launch is bound to. -/
def State.rearm (s : State) (c : Crew) : State :=
  (List.range c.bar).foldl (fun (t : State) n =>
    let a := c.slotAddr n
    let w := t.slotRead a
    if (Bar.of w).arm && (t.armedAt a).isEmpty then t.slotWrite a (Bar.put { Bar.of w with arm := false } w) else t) s

/-- Steps 7 and 8 of Table 7-3; none when a generation or space is lacking. The restore acts as FENCE.ar.job (Table 6-4), so
lines of the context are discarded; a crew whose sheaves had all ended retires now. -/
def State.restoreSpan (s : State) (id : Nat) (p : Span) (v : Saved) : Option State :=
  let slice : Option State := if p.units = 0 then some s
    else match s.issueGen (256 + p.cluster) with
      | none => none
      | some (g, t) => some ((t.modSpan id fun x => { x with sliceGen := g }).setSpanUnits p g)
  match slice with
  | none => none
  | some s => match s.restoreCrews v v.crews with
    | none => none
    | some s =>
      match s.restoreSheaves v (v.sheaves.mergeSort fun a b => decide (b.2.xblk ≤ a.2.xblk)) with
      | none => none
      | some s =>
        let s := v.grans.foldl (fun (t : State) g => t.pkgSetAll g.1 g.2) s
        let s := s.modSpan id fun x => { x with state := .running, saved := none }
        let s := v.crews.foldl (fun (t : State) c => t.rearm (t.crew c.1)) s
        let s := v.crews.foldl (fun (t : State) c => t.dropCtx c.2.core (t.ctxOfLaunch p.launch)) s
        let s := v.conts.foldl State.resend s
        let s := (v.sheaves.map (·.1)).foldl State.reparkSheaf s
        some ((v.crews.filter fun c => (s.liveSheaves (s.crew c.1)).isEmpty).foldl
          (fun (t : State) c => t.later (.crewRetire c.1)) s)

/-- SPAN_RESTORE (Table 7-3, steps 7 and 8); an uncorrectable error in what was saved discards the launch (R386). -/
def execSpanRestore (id : Nat) (s : State) : Out :=
  .next (
    let p := s.span id
    match p.saved with
    | none => s
    | some v =>
      if p.state ≠ .saved ∨ !s.canRestore p v ∨ s.checkpoint then s.later .spanPlacement
      else if s.savedErrors (s.ctxOfLaunch p.launch) v ≠ [] then
        s.contain (s.savedErrors (s.ctxOfLaunch p.launch) v) p.launch
      else match s.restoreSpan id p v with
        | none => s.later .spanPlacement
        | some t => t.later .spanPlacement)

end Sys2Proof.Machine
end

