-- ==== Sys2Proof/Machine/EvEngines.lean ====
section
/-!
DEFINITION. Events of the Sextant (R250 to R254), the permit governor (R342 to R344) and the event router (R377). The events
of the matrix engine stand beside its instructions.
-/

namespace Sys2Proof.Machine

open Sys2Proof

/-! The Sextant. -/

/-- The Sextant of a core goes on sending. -/
def State.pokeSend (s : State) (core : Nat) : State :=
  if s.due.contains (.chunkSend core) then s else s.later (.chunkSend core)

/-- A spilled command enters the queue when its crew's share and the queue have room, in posting order (R250). -/
def Sextant.pull (q : Sextant) : Sextant :=
  if 256 ≤ q.queue.length then q
  else
    let share := fun (c : Nat) => (q.queue.filter fun p => p.2.crew == c).length
    match q.spill.find? fun p => decide (share p.2.crew < 64) with
    | none => q
    | some p => { q with
        queue := q.queue ++ [p]
        spill := q.spill.filter fun x => x.1 != p.1 }

/-- Removes a command that is fully sent, or replaces it. -/
def Sextant.setCmd (q : Sextant) (id : Nat) (c : Option FarCmd) : Sextant :=
  match c with
  | none => { q with
      queue := q.queue.filter fun p => p.1 != id
      spill := q.spill.filter fun p => p.1 != id }.pull
  | some c => { q with
      queue := q.queue.map fun p => if p.1 = id then (id, c) else p
      spill := q.spill.map fun p => if p.1 = id then (id, c) else p }

/-- The first command of each crew, in posting order. -/
def Sextant.heads (q : Sextant) : List (Nat × FarCmd) :=
  (q.queue ++ q.spill).foldl (fun acc p => if acc.any fun a => a.2.crew == p.2.crew then acc else acc ++ [p]) []

/-- A command may send: its crew's allowance has room, chunks of a releasing transfer that wait only for its others to be performed
apart (log entry 113); a transfer of more than 1 MiB holds leave (R251), and a chunk of a
DEVICE far side follows the one before it (R115). -/
def State.maySend (s : State) (core : Nat) (p : Nat × FarCmd) : Bool :=
  let c := s.crew p.2.crew
  let landed := (s.chunks.filter fun k => k.2.landed && k.2.crew == p.2.crew).length
  decide (c.flight < c.allow + landed) && (!p.2.big || s.gov.holds (.tensor core p.1 c.launch)) &&
    !(p.2.dev && s.chunks.any fun k => k.2.cmd == p.1 && !k.2.landed)

/-- Leave is asked for each large transfer that stands first (R22, R251). -/
def State.askTensor (s : State) (core : Nat) : State :=
  ((s.core core).sextant.heads.filter fun p => p.2.big).foldl (fun (t : State) p =>
    t.askLeave p.2.ctx 1 3000 0 (.tensor core p.1 (t.crew p.2.crew).launch)) s

/-- The command that sends next: crews take turns (R250). -/
def State.nextSend (s : State) (core : Nat) : Option (Nat × FarCmd) :=
  let q := (s.core core).sextant
  let ok := q.heads.filter (s.maySend core)
  let least := fun (l : List (Nat × FarCmd)) => l.foldl (fun (b : Option (Nat × FarCmd)) p => match b with
    | none => some p
    | some x => if p.2.crew < x.2.crew then some p else some x) none
  (least (ok.filter fun p => decide (q.lastCrew < p.2.crew))).or (least ok)

/-- The next chunk of a command: its intermediate address and bytes, or the code with which it is refused; a row is cut
at 256-byte boundaries of its intermediate address (R253). -/
def State.cutChunk (s : State) (c : FarCmd) : Except (Refused × Nat) (Access × Nat) :=
  let kind : AKind := match c.kind with
    | .fetch => .rd
    | .store => .wr
  let va := farVa c.far c.fstr c.row c.byte
  match s.translate c.ctx va 1 kind with
  | .error r => .error (r, min (c.rowBytes - c.byte) (256 - va.toNat % 256))
  | .ok a =>
    let n := min (c.rowBytes - c.byte) (256 - a.ia % 256)
    match s.translate c.ctx va n kind with
    | .error r => .error (r, n)
    | .ok a => .ok (a, n)

/-- Where a byte of a row lies, from the start, on the side in whose ascending order chunks leave: the source (R250); under DEVICE
the far side, where they are performed in ascending order (R115). -/
def FarCmd.source (c : FarCmd) (row byte : Nat) : Nat := row * (match c.kind with
  | .fetch => c.fstr
  | .store => if c.dev then c.fstr else c.lstr) + byte

/-- The first byte of a chunk of a row at or after a byte: rows are cut at 256-byte boundaries of the far side (R253). -/
def FarCmd.cut (c : FarCmd) (row byte : Nat) : Nat :=
  let a := (c.far.toNat + row * c.fstr) % 256
  if byte = 0 then 0 else (a + byte + 255) / 256 * 256 - a

/-- The command after a chunk: its next chunk in ascending order of source addresses (R250), by rows where they are equal;
none when it is fully sent. -/
def FarCmd.after (c : FarCmd) : Option FarCmd :=
  let here := c.source c.row c.byte
  ((List.range c.rows).foldl (fun (best : Option (Nat × Nat)) r =>
    let b := c.cut r ((if r ≤ c.row then here + 1 else here) - c.source r 0)
    if c.rowBytes ≤ b then best
    else match best with
      | none => some (r, b)
      | some (q, d) => if c.source r b < c.source q d then some (r, b) else best) none).map fun n =>
    { c with
      row := n.1
      byte := n.2 }

/-- A chunk to or from a module travels as one frame on a memory fibre, with the intermediate address (R317). -/
def State.memFrame (s : State) (type : BitVec 4) (ctx m ia xid : Nat) (payload : List Byte) (launch : Nat) : OutFrame :=
  ⟨{ Frame.zero with
    daddr := BitVec.ofNat 56 ia
    src := s.host.pkgnum
    type := type
    len := lenField payload.length
    xid := BitVec.ofNat 16 xid
    ctx := BitVec.ofNat 10 ctx
    payload := payload }, .memory m, [], launch, [], [], false⟩

/-- A chunk leaves: a fetch reads its far bytes, a store its local bytes; another package and a module are asked by a frame
(R254, R317). Granules with uncorrectable errors are contained (R414). -/
def State.launchChunk (s : State) (core cmd : Nat) (c : FarCmd) : State :=
  let crew := s.crew c.crew
  let local_ := crew.base + c.loff + c.row * c.lstr + c.byte
  let base : Chunk := ⟨c.crew, core, c.slot, c.kind, 0, local_, 0, none, 0, cmd, c.rel, false⟩
  let put := fun (t : State) (k : Chunk) => match t.freshId with
    | (id, t) => (id, { t with chunks := Tab.put t.chunks id k })
  let now := fun (t : State) (k : Chunk) => match put t k with
    | (id, t) => t.later (.chunkArrival id)
  match s.cutChunk c with
  | .error (r, n) => now s { base with
      ia := r.addr.toNat
      len := n
      code := r.code }
  | .ok (a, n) =>
    let base := { base with
      ia := a.ia
      len := n }
    match c.kind with
    | .fetch => match a.space with
      | .pkg p _ =>
        if s.badGranules p n ≠ [] then (s.contain (s.badGranules p n) crew.launch) else now s { base with data := some (s.pkgRead p n) }
      | .mod m _ =>
        if (s.modl m).unreachable then now s { base with code := 0x21 }
        else match put s base with
        | (id, s) => match s.openXfer (.chunk id) crew.launch 1 [] with
          | (x, s) => s.sendOut (s.memFrame 1 c.ctx m a.ia x (List.replicate n 0) crew.launch)
      | .peer q p => match put s base with
        | (id, s) => match s.openXfer (.chunk id) crew.launch 1 [] with
          | (x, s) => s.sendOut ⟨s.peerFrame 1 c.ctx q p x (List.replicate n 0), .bulk, [], crew.launch, [], [], false⟩
    | .store =>
      if s.badGranules local_ n ≠ [] then s.contain (s.badGranules local_ n) crew.launch
      else
        let base := { base with data := some (s.pkgRead local_ n) }
        match a.space with
        | .peer q p => match put s base with
          | (id, s) => match s.openXfer (.chunk id) crew.launch 1 [(peerIa q p, n)] with
            | (x, s) => s.sendOut ⟨s.peerFrame 0 c.ctx q p x (s.pkgRead local_ n), .bulk, [], crew.launch, [], [], false⟩
        | .mod m _ =>
          if (s.modl m).unreachable then now s { base with code := 0x21 }
          else match put s base with
          | (id, s) => match s.openXfer (.chunk id) crew.launch 1 [(a.ia, n)] with
            | (x, s) => s.sendOut (s.memFrame 0 c.ctx m a.ia x (s.pkgRead local_ n) crew.launch)
        | .pkg _ _ => now s base

/-- CHUNK_SEND (R250, R251): one chunk of the command whose turn it is; a record with an uncorrectable error discards its launch
(R372). -/
def execChunkSend (core : Nat) (s : State) : Out :=
  let s := s.askTensor core
  .next (match s.nextSend core with
    | none => if (s.core core).sextant.heads = [] then s else s.pokeSend core
    | some (id, c) =>
      if c.bad then s.discardAt (s.crew c.crew).launch 3 0 0 (clusterOf core) else
      let next := c.after
      let s := s.modCrew c.crew fun y =>
        { y with
          flight := y.flight + 1
          posted := if next.isNone then y.posted - 1 else y.posted }
      let t := s.launchChunk core id c
      let t := t.modCore core fun y => { y with
        sextant := { y.sextant.setCmd id next with lastCrew := c.crew } }
      if (t.core core).sextant.heads = [] then t else t.pokeSend core)

/-- A chunk's arrival is performed, and it leaves the count in flight (R251, R411): the slot of its crew counts it, or faults
(R119, R243, R254). -/
def State.chunkArrive (s : State) (k : Chunk) (code : Byte) : State :=
  let a := (s.crew k.crew).slotAddr k.slot.val
  let s := s.modCrew k.crew fun y => { y with flight := y.flight - 1 }
  if code = 0 then s.arrive a k.len else s.arriveFault a code (BitVec.ofNat 56 k.ia)

/-- A command has chunks that it has not sent, or whose writes have not been performed. -/
def State.chunksLeft (s : State) (core cmd : Nat) : Bool :=
  let sx := (s.core core).sextant
  (s.chunks.any fun p => p.2.cmd == cmd && !p.2.landed) || (sx.queue ++ sx.spill).any fun p => p.1 == cmd

/-- A chunk's write is performed or has faulted: its slot counts it. A transfer that releases makes its arrivals once every
write of it has been performed (R118). -/
def State.chunkDone (s : State) (id : Nat) (k : Chunk) (code : Byte) : State :=
  if !k.rel then s.chunkArrive k code
  else
    let s := { s with chunks := Tab.put s.chunks id { k with
      code := code
      data := none
      landed := true } }
    if s.chunksLeft k.core k.cmd then s
    else
      let mine := s.chunks.filter fun p => p.2.cmd == k.cmd
      let s := { s with chunks := s.chunks.filter fun p => p.2.cmd != k.cmd }
      mine.foldl (fun (t : State) p => t.chunkArrive p.2 p.2.code) s

/-- A chunk's write at its destination: the code with which a module refuses it. -/
def State.chunkWrite (s : State) (k : Chunk) : Byte × State :=
  let bs := k.data.getD []
  match k.kind with
  | .fetch => (0, (s.keepOld k.local_ bs.length none).pkgWrite k.local_ bs)
  | .store => match s.spaceOf k.ia with
    | .ok (.pkg p _) => (0, s.pkgWrite p bs)
    | .ok (.mod m o) => s.modWrite m o bs .wr
    | .ok (.peer _ _) => (0, s)
    | .error c => (c, s)

/-- CHUNK_ARRIVAL (R243, R254): the chunk's write is performed, and it arrives on its slot. A chunk of a discarded launch
is dropped and makes no arrival (Table 18-4). -/
def execChunkArrival (id : Nat) (s : State) : Out :=
  .next (match Tab.find s.chunks id with
    | none => s
    | some k =>
      let live := match s.crew? k.crew with
        | none => false
        | some c => (match Tab.find s.launches c.launch with
          | some l => l.state == .active
          | none => false)
      let s := { s with chunks := Tab.del s.chunks id }
      let s := if !live then s.modCrew k.crew fun y => { y with flight := y.flight - 1 }
        else if k.code ≠ 0 then s.chunkDone id k k.code
        else match s.chunkWrite k with
          | (c, t) => t.chunkDone id k c
      let s := if s.chunksLeft k.core k.cmd then s else s.endLeave (.tensor k.core k.cmd (s.crew k.crew).launch)
      if (s.core k.core).sextant.heads = [] then s else s.pokeSend k.core)

/-! The permit governor. -/

/-- A measured power, as a free value. -/
def State.measured (s : State) : Nat := s.free64.toNat % 2 ^ 22

/-- PERMIT_GRANT (R342): with the power measured, the request at the head of the queue is granted when it fits. -/
def execPermitGrant (power : Nat) (s : State) : Out :=
  let s := { s with gov := { s.gov with power := power } }
  .next (s.ifSound fun s => match s.gov.queue with
    | [] => s
    | q :: _ =>
      let fits := match s.powerLimit with
        | none => false
        | some l => decide (power + s.gov.q + q.1.charge ≤ l)
      let s := if fits then s.grantLeave q else s
      if s.gov.queue = [] then s else s.tick.later (.permitGrant s.measured))

/-- MODULE_ROOM_REPORT (R342): the module's activation window has room, and the first request of its queue is granted. -/
def execModuleRoomReport (m : Nat) (s : State) : Out :=
  .next (s.ifSound fun s => match s.gov.modQueue.find? fun q => q.1.modn == m with
    | none => s
    | some q =>
      if s.throttled || s.excursion then s.later (.moduleRoomReport m)
      else
        let s := s.grantLeave q
        if s.gov.modQueue.any fun q => q.1.modn == m then s.later (.moduleRoomReport m) else s)

/-- RESERVATION_EXPIRY (R343): its hold time has ended. -/
def execReservationExpiry (ctx num : Nat) (s : State) : Out :=
  .next (match s.gov.res.find? fun r => r.ctx == ctx && r.num == num && r.granted with
    | none => s
    | some r => if s.nanos < r.until_ then s.later (.reservationExpiry ctx num) else s.dropReservation ctx num)

/-! The event router. -/

/-- Posts the waiting records whose queues have room, the first of each queue first; a queue that is no longer valid loses
its records. Each posted record frees the entry of its launch (R377). -/
def State.recheck (s : State) : List WaitRec → List (Nat × Nat) → State
  | [], _ => s
  | w :: ws, full =>
    let e := s.queueEntry w.ctx w.queue
    if !w.posted && (full.contains (w.ctx, w.queue) || (queueValid e && queueFull e)) then
      State.recheck { s with waitRecs := s.waitRecs ++ [w] } ws ((w.ctx, w.queue) :: full)
    else
      let s := if queueValid e && !w.posted then s.queueWrite w.ctx w.queue w.body else s
      let s := match Tab.find s.launches w.launch with
        | none => s
        | some l => s.freeEntry w.launch (l.sub != 0)
      State.recheck s ws full

/-- An error in a queue table discards the launch that holds the granule; where none does, those of the context that owns it,
the latest first (Table 20-6: DEDUCED, log entry 124). -/
def State.containTable (s : State) (ctx g : Nat) : State :=
  if (s.holder (32 * g)).isSome then s.containGranule g
  else ((s.launches.filter fun p => p.2.ctx == ctx).map (·.1)).reverse.foldl
    (fun (t : State) n => t.discard n 0 0 (BitVec.ofNat 56 (32 * g))) (s.containGranule g)

/-- The errors in the queue tables of valid contexts are contained. -/
def State.containTables (s : State) : State :=
  if s.badSram = [] then s else
  (s.ctxs.filter fun p => p.2.v).foldl (fun (t : State) p =>
    (t.badAt p.1 p.2.psBase 512).foldl (fun u g => u.containTable p.1 g) t) s

/-- EVENT_QUEUE_RECHECK (R377): the router reads the entries of full queues again. -/
def execEventQueueRecheck (s : State) : Out :=
  .next (s.ifSound fun s =>
    let s := s.containTables
    let t := { s with waitRecs := [] }.recheck s.waitRecs []
    if t.waitRecs = [] then t else t.later .eventQueueRecheck)

end Sys2Proof.Machine
end

