-- ==== Sys2Proof/Machine/Fabric.lean ====
section
/-!
DEFINITION. Fabric instructions, class 0xC (R320 to R331): what they check, read and send at issue. Frames leave and
acknowledgements arrive by steps of the fabric.
-/

namespace Sys2Proof.Machine

open Sys2Proof

/-! Selectors (R320). -/

/-- An access at an intermediate address, with the memory type and the strict bit of the register that lets it pass (R98). -/
def State.imageAccess (s : State) (ctx ia n : Nat) (kind : AKind) (at_ : Nat) (sp : Space) : Access :=
  let w := match s.imageReg ctx ia n kind with
    | some r => r.1
    | none => 0
  ⟨at_, sp, (w.extractLsb' 6 2).toNat, false, w.getLsbD 9, BitVec.ofNat 56 at_⟩

/-- The place a peer selector and a low address name, for an access of n bytes (Table 14-3). -/
def State.selTarget (s : State) (x : Ex) (sel low : Word32) (n : Nat) (kind : AKind) (lrOk : Bool) : Except Refused Access :=
  let a := low.toNat
  let ctx := s.ctxOf x.k
  let own := s.host.pkgnum.toNat
  if sel.extractLsb' 9 22 ≠ 0 ∨ (sel.getLsbD 31 ∧ sel.extractLsb' 5 4 ≠ 0) then .error ⟨0x03, low.setWidth 56⟩
  else if sel.getLsbD 31 then
    let l := (sel.extractLsb' 0 5).toNat
    let c := s.imageCode ctx (peerIa own a) n kind
    if !lrOk then .error ⟨0x07, low.setWidth 56⟩
    else if c ≠ 0 then .error ⟨c, BitVec.ofNat 56 (peerIa own a)⟩
    else if (s.linkFibre l).isNone then .error ⟨0x04, low.setWidth 56⟩
    else .ok (s.imageAccess ctx (peerIa own a) n kind a (.peer (512 + l) a))
  else
    let p := (sel.extractLsb' 0 9).toNat
    let ia := peerIa p a
    let c := s.imageCode ctx ia n kind
    if c ≠ 0 then .error ⟨c, BitVec.ofNat 56 ia⟩
    else match s.spaceOf ia with
      | .error e => .error ⟨e, BitVec.ofNat 56 ia⟩
      | .ok sp => .ok (s.imageAccess ctx ia n kind ia sp)

/-- The lanes of Exec that a check refuses, and the code and address of the lowest (R388, R403). -/
def laneFault (x : Ex) (f : Nat → Except Refused Access) : Option TrapInfo :=
  let bad := mask32 fun L => x.exec.getLsbD L && (match f L with
    | .ok _ => false
    | .error _ => true)
  if bad = 0 then none
  else match f (lowest bad) with
    | .error r => some ⟨kindOf r.code, r.code, bad, r.addr⟩
    | .ok _ => none

/-- The access of a lane that was not refused. -/
def gotAccess : Except Refused Access → Access
  | .ok a => a
  | .error _ => Access.none_

/-- The uses of a vector operand of selectors or addresses (R322). -/
def selUses (site : Nat) (v : VSrc) : List Use := srcUses site .b32 (some 0xD) v

/-! Cutting a transfer into frames (R323). -/

/-- Granules of a transfer by target granule number, each with its bytes and the virtual address of its source, if it has
one. -/
abbrev Cover := Tab (Option Word64 × List Byte)

/-- Adds the granules of bytes at a target address; later ones replace earlier ones. -/
def Cover.add (c : Cover) (low : Nat) (va : Option Word64) (bs : List Byte) : Cover :=
  (List.range (bs.length / 32)).foldl (fun (t : Cover) i =>
    Tab.put t (low / 32 + i) (va.map (· + BitVec.ofNat 64 (32 * i)), (bs.drop (32 * i)).take 32)) c

/-- Maximal runs of contiguous granules within 256-byte blocks: first granule, and the granules. -/
def cutRuns : Cover → List (Nat × List (Option Word64 × List Byte))
  | [] => []
  | (g, b) :: t => match cutRuns t with
    | [] => [(g, [b])]
    | (k, l) :: r => if k = g + 1 ∧ k % 8 ≠ 0 then (g, b :: l) :: r else (g, [b]) :: (k, l) :: r

/-- One run as a write: target address, source addresses (none for bytes that no memory holds), bytes. -/
structure Run where
  low : Nat
  vas : List Word64
  bs : List Byte

def Cover.runs (c : Cover) : List Run :=
  (cutRuns c).map fun p => ⟨32 * p.1, p.2.filterMap (·.1), (p.2.map (·.2)).flatten⟩

/-- The ordered flag of XSENDF: its low address and value. -/
abbrev Flag := Option (Nat × Word32)

/-- The offset of path k from a package to another (R309). -/
def pathOffset (o k : Nat) : Nat := if k = 0 then o else 64 * ((o / 64 + k) % 8) + o % 64

/-- The usable paths to a peer (R309). -/
def State.usablePaths (s : State) (p : Nat) : List Nat :=
  let own := s.host.pkgnum.toNat
  let o := own ^^^ p
  [0, 1, 2, 3].filter fun k => k == 0 || (pathOffset o k != 0 && Config.peerPresent (own ^^^ pathOffset o k))

/-- Frames a path carries when n frames are dealt to P paths. -/
def dealt (n paths i : Nat) : Nat := (n + paths - 1 - i) / paths

/-- The frames of a transfer to another package, its barrier slot or flag, and their route (R308, R323, R324). -/
def State.sendRuns (s : State) (x : Ex) (p : Nat) (runs : List Run) (slot : Option Nat) (flag : Flag) : State :=
  let ctx := s.ctxOf x.k
  let launch := (s.sheaf x.k).launch
  let bytes := (runs.map fun r => r.bs.length).sum
  let paths := if p < 512 then s.usablePaths p else [0]
  let np := min paths.length runs.length
  match s.openXfer (.send x.k) launch runs.length ((runs.map fun r => (peerIa p r.low, r.bs.length)) ++
      (flag.map fun f => (peerIa p f.1, 4)).toList) with
  | (xid, s) => runs.zipIdx.foldl (fun (t : State) q =>
      let r := q.1
      let f := t.peerFrame 0 ctx p r.low xid r.bs
      let f := match slot with
        | some b => { f with baddr := BitVec.ofNat 56 (destIa p b) }
        | none => f
      let i := q.2 % paths.length
      let k := paths.getD i 0
      match flag with
      | none => t.sendOut ⟨f, if 512 ≤ p then destRoute p else if bytes < 8192 then .short else .bulk, [], launch, r.vas, [], false⟩
      | some (fl, v) =>
        let last := runs.length ≤ q.2 + paths.length
        let f := { f with path := BitVec.ofNat 2 k, np := BitVec.ofNat 2 (np - 1) }
        let f := if last then { f with
            last := true
            ordf := true
            pcnt := BitVec.ofNat 16 (dealt runs.length paths.length i)
            baddr := BitVec.ofNat 56 (destIa p fl)
            fval := v }
          else f
        t.sendOut ⟨f, if 512 ≤ p then destRoute p else .path k, [], launch, r.vas, [], false⟩) s

/-- The writes of a transfer to the issuing package itself, with the same check (R95, R321); once all are performed, those that
were not refused arrive, or the flag is written (R118, R323, R324). Errors that a write reads are contained (R414). -/
def State.selfRuns (s : State) (x : Ex) (runs : List Run) (slot : Option Nat) (flag : Flag) : State :=
  let ctx := s.ctxOf x.k
  let own := s.host.pkgnum.toNat
  let bad := (runs.map fun r => s.homeBad ctx r.low r.bs.length).flatten ++ (match flag with
    | some (fl, _) => s.homeBad ctx fl 4
    | none => [])
  let s := if bad = [] then s else s.contain bad (s.sheaf x.k).launch
  let r := runs.foldl (fun (acc : List Nat × Bool × State) r =>
    match acc.2.2.homeWrite ctx r.low r.bs with
    | (true, t) => (r.bs.length :: acc.1, acc.2.1, t)
    | (false, t) => (acc.1, false, t.noteRefused x.k (peerIa own r.low))) ([], true, s)
  match flag, slot with
  | none, none => r.2.2
  | none, some b => r.1.reverse.foldl (fun (t : State) n => t.arrive b n) r.2.2
  | some (fl, v), _ =>
    if !r.2.1 then r.2.2
    else match r.2.2.homeWrite ctx fl (leBytes 4 v.toNat) with
      | (true, t) => t
      | (false, t) => t.noteRefused x.k (peerIa own fl)

/-- Sends a cover to a destination. -/
def State.sendCover (s : State) (x : Ex) (sp : Space) (c : Cover) (slot : Option Nat) (flag : Flag) : State :=
  match sp with
  | .peer p _ => s.sendRuns x p c.runs slot flag
  | _ => s.selfRuns x c.runs slot flag

/-- Two destinations are one. -/
def sameDest : Space → Space → Bool
  | .peer p _, .peer q _ => p == q
  | .pkg _ _, .pkg _ _ => true
  | _, _ => false

/-! XSEND and XSENDF. -/

/-- A lane of XSEND: its target, and the bytes it sends with the address of their source. -/
structure SendLane where
  tgt : Access
  low : Nat
  va : Word64
  bs : List Byte

/-- The lanes' covers by destination, in ascending order of their lowest lanes. -/
def sendCovers (ls : List SendLane) : List (Space × Cover) :=
  ls.foldl (fun acc l =>
    if acc.any fun d => sameDest d.1 l.tgt.space then
      acc.map fun d => if sameDest d.1 l.tgt.space then (d.1, Cover.add d.2 l.low (some l.va) l.bs) else d
    else acc ++ [(l.tgt.space, Cover.add [] l.low (some l.va) l.bs)]) []

/-- The volume that lanes send to the destination of a lane: distinct granules. -/
def volumeOf (sel low : Nat → Nat) (n : Nat) (ls : List Nat) (L : Nat) : Nat :=
  let same := ls.filter fun M => sel M == sel L
  32 * ((same.map fun M => (List.range (n / 32)).map (· + low M / 32)).flatten.eraseDups).length

/-- XSEND and XSENDF (R323, R324): steps 12 and 13, then the frames. -/
def xsend (i : Instr) (h : Hdr) (ord : Order) (d : Option SReg) (a : VReg) (rb rc : SReg) (flagged : Bool) (s : State) :
    State :=
  let us : List Use := [⟨1, .v a.val, true, false, some 0xD⟩, ⟨5, .v (a.val + 1), true, false, some 0xD⟩,
    .src 2 (.s rb.val), .src 3 (.s rc.val)] ++ (match d with
      | some r => [⟨4, .s r.val, true, false, none⟩]
      | none => [])
  issue i h { uses := us } (fun x t =>
    let n := (t.readS x.k rc.val).toNat % 2 ^ 32
    let lstr := (t.readS x.k rc.val).toNat / 2 ^ 32
    let base := t.readS x.k rb.val
    let w := match d with
      | some r => t.readS x.k r.val
      | none => 0
    let sel := fun (L : Nat) => t.laneV x.k a.val L
    let low := fun (L : Nat) => t.laneV x.k (a.val + 1) L
    let va := fun (L : Nat) => base + BitVec.ofNat 64 (L * lstr)
    let at_ := fun (L : Nat) => t.selTarget x (sel L) (low L) n .wr true
    let crook := mask32 fun L => x.exec.getLsbD L && (low L).toNat % 32 != 0
    let src := fun (L : Nat) => match t.translate (t.ctxOf x.k) (va L) n .rd with
      | .ok b => (match b.space with
        | .mod _ _ => .error ⟨0x07, BitVec.ofNat 56 b.ia⟩
        | _ => Except.ok b)
      | .error r => .error r
    let mark := fun (L : Nat) => match d with
      | some _ => t.selTarget x (sel L) (w.setWidth 32) (if flagged then 4 else 32) .wr true
      | none => at_ L
    if n < 32 ∨ 2 ^ 24 < n then .error (outOfRange x)
    else if flagged && (lanesOf x.exec).any fun L =>
        decide (2 ^ 23 < volumeOf (fun M => (sel M).toNat) (fun M => (low M).toNat) n (lanesOf x.exec) L) then
      .error ⟨0x03, 7, x.exec, 0⟩
    else if n % 32 ≠ 0 ∨ lstr % 32 ≠ 0 then .error (t.crooked x base)
    else if flagged && w.toNat % 4 != 0 then .error ⟨0x0E, 0x08, x.exec, (w.setWidth 32).setWidth 56⟩
    else if crook ≠ 0 then .error ⟨0x0E, 0x08, crook, (low (lowest crook)).setWidth 56⟩
    else match laneFault x at_ with
    | some e => .error e
    | none => match laneFault x mark with
    | some e => .error e
    | none => match laneFault x src with
    | some e => .error e
    | none =>
      let strict := mask32 fun L => x.exec.getLsbD L && t.strictStale (gotAccess (src L)) n
      if strict ≠ 0 then .error (t.staleTrap strict)
      else
      let bad := ((lanesOf x.exec).map fun L => t.badAt (t.ctxOf x.k) (va L) n).flatten
      if bad ≠ [] then .ok (.stay, t.contain bad (t.sheaf x.k).launch)
      else
        let ls := (lanesOf x.exec).map fun L => SendLane.mk (gotAccess (at_ L)) (low L).toNat (va L)
          (match t.ctxRead (t.ctxOf x.k) (va L) n with
            | .ok bs => bs
            | .error _ => [])
        let slot := if flagged then none else d.map fun _ => w.toNat % 2 ^ 32
        let flag : Flag := if flagged then some (w.toNat % 2 ^ 32, w.extractLsb' 32 32) else none
        let strong := (lanesOf x.exec).any fun L => t.effMt (gotAccess (at_ L)) == 3 || t.effMt (gotAccess (src L)) == 3
        waitRemote (strong || Order.acquires ord) x t
          (fun t => .ok (.next, (sendCovers ls).foldl (fun (u : State) c => u.sendCover x c.1 c.2 slot flag) t))) s

/-- XSEND (0x180, XOP 0, R323). -/
def execXsend (h : Hdr) (ord : Order) (scp : Scope) (d : SReg) (a : VReg) (b c : SReg) (s : State) : Out :=
  .next (xsend (.xsend h ord scp d a b c) h ord (some d) a b c false s)

/-- XSEND without a target barrier (0x180, XOP 1). -/
def execXsendNobar (h : Hdr) (ord : Order) (scp : Scope) (a : VReg) (b c : SReg) (s : State) : Out :=
  .next (xsend (.xsendNobar h ord scp a b c) h ord none a b c false s)

/-- XSENDF (0x181, R324). -/
def execXsendf (h : Hdr) (ord : Order) (scp : Scope) (d : SReg) (a : VReg) (b c : SReg) (s : State) : Out :=
  .next (xsend (.xsendf h ord scp d a b c) h ord (some d) a b c true s)

/-! XGET and XATOM. -/

/-- The lanes of XGET and XATOM: selector in A, low address in B; alignment comes after translation (R325). -/
def selLanes (x : Ex) (s : State) (ty : Ty) (a b : VSrc) (kind : AKind) (lrOk : Bool) :
    Except TrapInfo (Nat → Access) :=
  let n := tyBytes ty
  let acc := lanes.map fun L => s.selTarget x (s.vsrc32 x.k L a) (s.vsrc32 x.k L b) n kind lrOk
  let at_ := fun (L : Nat) => acc.getD L (.error ⟨0, 0⟩)
  let crook := mask32 fun L => x.exec.getLsbD L && (s.vsrc32 x.k L b).toNat % n != 0
  match laneFault x at_ with
  | some e => .error e
  | none =>
    if crook ≠ 0 then .error ⟨0x0E, 0x08, crook, BitVec.ofNat 56 (gotAccess (at_ (lowest crook))).ia⟩
    else .ok fun L => gotAccess (at_ L)

/-- XGET (0x182, R325). -/
def execXget (h : Hdr) (ty : Ty) (ord : Order) (scp : Scope) (d : VReg) (a b : VSrc) (s : State) : Out :=
  .next (issue (.xget h ty ord scp d a b) h { noOverlap := true, uses := vdst ty d ++ selUses 1 a ++ selUses 2 b }
    (fun x t => match selLanes x t ty a b .rd true with
      | .error e => .error e
      | .ok at_ =>
        let strong := (lanesOf x.exec).any fun L => t.effMt (at_ L) == 3
        waitRemote (strong || Order.releases ord) x t (fun t =>
          let u := if strong || t.acquires x.k ord scp then t.acquireL1 x.k else t
          .ok (.next, u.loadLanes x ty (vecDest ty d) false false (strong || Order.acquires ord) at_))) s)

/-- XATOM (0x183, R326). -/
def execXatom (h : Hdr) (ty : Ty) (op : AtomOp) (ord : Order) (scp : Scope) (d : VReg) (a b c : VSrc) (s : State) : Out :=
  .next (issue (.xatom h ty op ord scp d a b c) h
    { noOverlap := true, uses := vdst ty d ++ selUses 1 a ++ selUses 2 b ++ srcTyped 3 ty c }
    (fun x t => match selLanes x t ty a b .rmw false with
      | .error e => .error e
      | .ok at_ =>
        let strong := (lanesOf x.exec).any fun L => t.effMt (at_ L) == 3
        waitRemote (strong || Order.releases ord) x t (fun t =>
          let u := if strong || t.acquires x.k ord scp then t.acquireL1 x.k else t
          .ok (.next, u.atomLanes x ty (vecDest ty d) (AtomOp.num op) (strong || Order.acquires ord)
            (fun L => t.vsrc x.k ty L c) (fun _ => 0) (fun L old => atomNew ty op old (t.vsrc x.k ty L c)) at_))) s)

/-! Multicast (R327, R328). -/

/-- The members of a group other than a source, ascending. -/
def State.members (s : State) (g src : Nat) : List Nat :=
  (List.range 512).filter fun p => (Tab.get 0 s.groups g).getLsbD p && p != src

/-- The members that a member of a list, by index, forwards to; the source stands at index −1, given as 0 with `src`. -/
def childrenOf (ms : List Nat) (i : Nat) (src : Bool) : List Nat :=
  (if src then [0, 1] else [2 * i + 2, 2 * i + 3]).filterMap fun j => ms[j]?

/-- Writes the mask of negative members and arrives on the slot, after which XMCAST is done (R328). -/
def State.mcastStatus (s : State) (k : Nat) (status : Word64) (neg : BitVec 512) (crew : Nat) (slot : Option BSlot) : State :=
  let s := match s.blockWrite k status (leBytes 64 neg.toNat) with
    | .ok t => t
    | .error _ => s
  match slot with
  | some b => s.arrive ((s.crew crew).slotAddr b.val) 1
  | none => s

/-- One multicast frame (R328); its group travels in PCNT (log entry 16). -/
def State.mcastFrame (s : State) (ctx p low xid g : Nat) (payload : List Byte) : Frame :=
  { s.peerFrame 6 ctx p low xid payload with pcnt := BitVec.ofNat 16 g }

/-- XMCAST (0x184, R328): blocks until the members have answered. -/
def execXmcast (h : Hdr) (ord : Order) (scp : Scope) (d a b : SReg) (g : Byte) (len : BitVec 3) (slot : BSlot) (bv : Bool)
    (s : State) : Out :=
  .next (issue (.xmcast h ord scp d a b g len slot bv) h
    { uses := [.src 1 (.s a.val), .src 2 (.s b.val), ⟨4, .s d.val, true, false, none⟩] } (fun x t =>
    let n := (len.toNat + 1) * 32
    let ctx := t.ctxOf x.k
    let va := t.readS x.k a.val
    let low := (t.readS x.k b.val).toNat % 2 ^ 32
    let st := t.readS x.k d.val
    let own := t.host.pkgnum.toNat
    let ms := t.members g.toNat own
    let cr := t.crew (t.sheaf x.k).crew
    if bv && decide (cr.bar ≤ slot.val) then .error (outOfRange x)
    else if 256 < low % 256 + n then .error (outOfRange x)
    else if low % 32 ≠ 0 then .error ⟨0x0E, 0x08, x.exec, BitVec.ofNat 56 low⟩
    else if st.toNat % 64 ≠ 0 then .error (t.crooked x st)
    else match ms.findSome? fun p => match t.selTarget x (BitVec.ofNat 32 p) (BitVec.ofNat 32 low) n .wr false with
        | .ok _ => none
        | .error r => some r with
    | some r => .error (refusedTrap x r)
    | none => match t.translate ctx st 64 .wr with
    | .error r => .error (refusedTrap x r)
    | .ok sa => if (match sa.space with
        | .mod _ _ => true
        | _ => false) then .error (refusedTrap x ⟨0x07, BitVec.ofNat 56 sa.ia⟩)
    else match t.opRead x va n with
    | .error e => .error e
    | .ok bs =>
      let bad := t.badAt ctx va n
      let strong := Order.acquires ord || t.hasMt ctx va n .rd 3 || t.hasMt ctx st 64 .wr 3 || ms.any fun p =>
        t.effMt (gotAccess (t.selTarget x (BitVec.ofNat 32 p) (BitVec.ofNat 32 low) n .wr false)) == 3
      if bad ≠ [] then .ok (.stay, t.contain bad (t.sheaf x.k).launch)
      else waitRemote strong x t (fun t =>
        let sl := if bv then some slot else none
        if ms = [] then .ok (.next, t.mcastStatus x.k st 0 (t.sheaf x.k).crew sl)
        else
          let kids := childrenOf ms 0 true
          match t.openXfer (.mcast x.k st g.toNat (t.sheaf x.k).crew sl) (t.sheaf x.k).launch kids.length
              (ms.map fun p => (peerIa p low, n)) with
          | (xid, u) =>
            let u := kids.foldl (fun (v : State) p =>
              v.sendOut ⟨v.mcastFrame ctx p low xid g.toNat bs, .short, [], (t.sheaf x.k).launch, [], [], false⟩) u
            .ok (.stay, u.modSheaf x.k fun y => { y with block := some (.mcast x.b xid) }))) s)

/-- XFENCE (0x185, R329, R429): blocks until every acknowledgement has arrived; a refused write then traps, with the
ordering effect done and the record cleared. -/
def execXfence (h : Hdr) (scp : Scope) (s : State) : Out :=
  .next (issue (.xfence h scp) h {} (fun x t =>
    if t.remoteOut x.k || t.writesOut x.k then .ok (.wait, t.modSheaf x.k fun y => { y with block := some (.retry x.b) })
    else
      let t := (t.modSheaf x.k fun y => { y with block := none }).publish x.k x.exec
      let t := if t.farScope x.k scp then t.acquireL1 x.k else t
      match (t.sheaf x.k).refusedAddr with
      | none => .ok (.next, t)
      | some a => .ok (.stay, (t.modSheaf x.k fun y => { y with refusedAddr := none }).takeTrap x.k x.b
          (x.trap ⟨0x0C, 0x02, x.exec, a⟩))) s)

/-! XRED and XRESID. -/

/-- An operand in package space (R330); a strict read of a stale granule traps (R56). -/
def State.pkgArg (s : State) (x : Ex) (va : Word64) (n : Nat) (kind : AKind) : Except TrapInfo Nat :=
  match s.translate (s.ctxOf x.k) va n kind with
  | .error r => .error (refusedTrap x r)
  | .ok a => match a.space with
    | .pkg p false => if kind = .rd ∧ s.strictStale a n then .error (s.staleTrap x.exec) else .ok p
    | _ => .error ⟨0x0C, 0x07, x.exec, BitVec.ofNat 56 a.ia⟩

/-- N f32 values as bits. -/
def State.readF32 (s : State) (p n : Nat) : List Nat :=
  (List.range n).map fun i => leNat (s.pkgRead (p + 4 * i) 4)

def writeF32 (l : List Nat) : List Byte := (l.map fun x => leBytes 4 x).flatten

/-- Bits of an element of an image. -/
def imageBits : Ty → Nat
  | .f32 => 32
  | .bf16 => 16
  | .e2m1 => 4
  | _ => 8

/-- One block of R330: scale, element codes, residuals, QNV. R367 gives f32 and bf16 the scale 0x7F. -/
def redBlock (ty : Ty) (rnd : Rnd) (draw : Nat → Nat) (t : List FV) : Byte × List Nat × List Nat × Bool :=
  let q : Byte × List Nat × Bool := match ty with
    | .f32 => (0x7F, t.map (fmtF32.round .rne 0 false), false)
    | .bf16 => (0x7F, t.zipIdx.map fun p => fmtBf16.round rnd (draw p.2) false p.1, false)
    | _ => quantise ty rnd draw (t.map some)
  let res := (t.zip q.2.1).map fun p =>
    if q.1 = 0xFF then 0
    else fmtF32.round .rne 0 false (FV.add false p.1 (scaled ((tyFmt ty).decode p.2) q.1).neg)
  (q.1, q.2.1, res, q.2.2)

/-- Elements packed in ascending order, then the scales, then zeros to a multiple of 32 bytes (R330). -/
def imageOf (ty : Ty) (els : List Nat) (xs : List Byte) : List Byte :=
  let w := imageBits ty
  let body := leBytes (els.length * w / 8) ((els.zipIdx.map fun p => p.1 * 2 ^ (w * p.2)).sum)
  let bs := body ++ xs
  bs ++ List.replicate ((32 - bs.length % 32) % 32) 0

/-- Bytes of an image of n elements. -/
def imageLen (ty : Ty) (n : Nat) : Nat := (n * imageBits ty / 8 + n / 32 + 31) / 32 * 32

/-- XRED (0x186, R330). -/
def execXred (h : Hdr) (ty : Ty) (srnd : Bool) (ord : Order) (scp : Scope) (d a b c : SReg) (s : State) : Out :=
  .next (issue (.xred h ty srnd ord scp d a b c) h
    { uses := [.src 1 (.s a.val), .src 2 (.s b.val), .src 3 (.s c.val), ⟨4, .s d.val, true, false, none⟩] } (fun x t =>
    let va := t.readS x.k a.val
    let vb := t.readS x.k b.val
    let n := (t.readS x.k c.val).toNat % 2 ^ 32
    let low := (t.readS x.k c.val).toNat / 2 ^ 32
    let sel : Word32 := (t.readS x.k d.val).setWidth 32
    let bar := (t.readS x.k d.val).toNat / 2 ^ 32
    if n < 32 ∨ 65536 < n ∨ n % 32 ≠ 0 then .error (outOfRange x)
    else if va.toNat % 32 ≠ 0 then .error (t.crooked x va)
    else if vb.toNat % 32 ≠ 0 then .error (t.crooked x vb)
    else if low % 32 ≠ 0 then .error ⟨0x0E, 0x08, x.exec, BitVec.ofNat 56 low⟩
    else match t.pkgArg x va (4 * n) .rd with
    | .error e => .error e
    | .ok pa => match t.pkgArg x vb (4 * n) .rd with
    | .error e => .error e
    | .ok pb => match t.pkgArg x vb (4 * n) .wr with
    | .error e => .error e
    | .ok _ => match t.selTarget x sel (BitVec.ofNat 32 low) (imageLen ty n) .wr true with
    | .error r => .error (refusedTrap x r)
    | .ok tgt => match (if bar = 0 then .ok tgt else t.selTarget x sel (BitVec.ofNat 32 bar) 32 .wr true) with
    | .error r => .error (refusedTrap x r)
    | .ok _ =>
      let bad := t.badGranules pa (4 * n) ++ t.badGranules pb (4 * n)
      if bad ≠ [] then .ok (.stay, t.contain bad (t.sheaf x.k).launch)
      else waitRemote (Order.acquires ord || t.effMt tgt == 3 || t.hasMt (t.ctxOf x.k) va (4 * n) .rd 3 ||
          t.hasMt (t.ctxOf x.k) vb (4 * n) .rd 3) x t (fun t =>
        let t := ((t.freshen x.k pa (4 * n)).freshen x.k pb (4 * n)).learn x.k x.exec pa (4 * n)
        let f := fun (w : Nat) => fmtF32.decode w
        let ts := ((t.readF32 pa n).zip (t.readF32 pb n)).map fun p =>
          f (fmtF32.round .rne 0 false (FV.add false (f p.1) (f p.2)))
        let st := (t.sheaf x.k).srnd
        let rnd : Rnd := if srnd then .srnd else .rne
        let bl := (List.range (n / 32)).map fun j =>
          redBlock ty rnd (fun i => (laneRand st (32 * j + i)).toNat % 2 ^ 32) ((ts.drop (32 * j)).take 32)
        let img := imageOf ty (bl.map fun q => q.2.1).flatten (bl.map fun q => q.1)
        let u := t.coreWrite x.k pb (writeF32 (bl.map fun q => q.2.2.1).flatten)
        let u := u.modSheaf x.k fun y =>
          { y with qnv := y.qnv || bl.any fun q => q.2.2.2, srnd := if srnd then stepState y.srnd else y.srnd }
        .ok (.next, u.sendCover x tgt.space (Cover.add [] low none img) (if bar = 0 then none else some bar) none))) s)

/-- An operand of XRESID has memory type STRONG (R114). -/
def residStrong (op : ResidOp) (s : State) (x : Ex) (va vb : Word64) (n : Nat) : Bool :=
  match op with
  | .rd .. => s.hasMt (s.ctxOf x.k) va n .rd 3
  | .clr .. => s.hasMt (s.ctxOf x.k) va n .wr 3
  | .set .. => s.hasMt (s.ctxOf x.k) va n .wr 3 || s.hasMt (s.ctxOf x.k) vb n .rd 3

/-- XRESID (0x187, R331). -/
def execXresid (h : Hdr) (op : ResidOp) (s : State) : Out :=
  let us : List Use := match op with
    | .rd d a c => [.src 1 (.s a.val), .src 3 (.s c.val), .dst (.s d.val)]
    | .clr a c => [.src 1 (.s a.val), .src 3 (.s c.val)]
    | .set a b c => [.src 1 (.s a.val), .src 2 (.s b.val), .src 3 (.s c.val)]
  let ra := match op with
    | .rd _ a _ => a
    | .clr a _ => a
    | .set a _ _ => a
  let rc := match op with
    | .rd _ _ c => c
    | .clr _ c => c
    | .set _ _ c => c
  .next (issue (.xresid h op) h { uses := us } (fun x t =>
    let va := t.readS x.k ra.val
    let n := (t.readS x.k rc.val).toNat % 2 ^ 32
    let vb := match op with
      | .set _ b _ => t.readS x.k b.val
      | _ => 0
    if n < 32 ∨ 65536 < n ∨ n % 32 ≠ 0 then .error (outOfRange x)
    else if va.toNat % 32 ≠ 0 then .error (t.crooked x va)
    else if vb.toNat % 32 ≠ 0 then .error (t.crooked x vb)
    else match t.pkgArg x va (4 * n) (match op with
      | .rd .. => .rd
      | _ => .wr) with
    | .error e => .error e
    | .ok p => waitRemote (residStrong op t x va vb (4 * n)) x t fun t =>
      match op with
      | .clr _ _ => .ok (.next, t.coreWrite x.k p (List.replicate (4 * n) 0))
      | .set _ _ _ => (match t.pkgArg x vb (4 * n) .rd with
        | .error e => .error e
        | .ok q =>
          if t.badGranules q (4 * n) ≠ [] then .ok (.stay, t.contain (t.badGranules q (4 * n)) (t.sheaf x.k).launch)
          else .ok (.next, (t.freshen x.k q (4 * n)).coreWrite x.k p (t.pkgRead q (4 * n))))
      | .rd d _ _ =>
        if t.badGranules p (4 * n) ≠ [] then .ok (.stay, t.contain (t.badGranules p (4 * n)) (t.sheaf x.k).launch)
        else
          let t := t.freshen x.k p (4 * n)
          let mags := (t.readF32 p n).map fun w => w % 2 ^ 31
          let nan := mags.any fun m => (fmtF32.decode m).isNan
          let top : Word32 := if nan then t.free64.setWidth 32 else BitVec.ofNat 32 (mags.foldl max 0)
          .ok (.next, (t.writeS x.k d.val (BitVec.ofNat 32 ((mags.filter (· != 0)).length) ++ top)).tick)) s)

/-! The group table (R327). -/

/-- XGRP (0x188, XOP 0, privileged): entry g from memory. -/
def execXgrpSet (h : Hdr) (g : Byte) (a : SReg) (s : State) : Out :=
  .next (issue (.xgrpSet h g a) h { priv := true, uses := [.src 1 (.s a.val)] } (fun x t =>
    match t.opRead x (t.readS x.k a.val) 64 with
    | .error e => .error e
    | .ok bs => .ok (.next, { t with groups := Tab.set 0 t.groups g.toNat (BitVec.ofNat 512 (leNat bs)) })) s)

/-- XGRP.get (0x188, XOP 1, privileged): entry g to memory. -/
def execXgrpGet (h : Hdr) (g : Byte) (a : SReg) (s : State) : Out :=
  .next (issue (.xgrpGet h g a) h { priv := true, uses := [.src 1 (.s a.val)] } (fun x t =>
    match t.blockWrite x.k (t.readS x.k a.val) (leBytes 64 (Tab.get 0 t.groups g.toNat).toNat) with
    | .error r => .error (refusedTrap x r)
    | .ok u => .ok (.next, u)) s)

end Sys2Proof.Machine
end

