-- ==== Sys2Proof/Machine/Link.lean ====
section
/-!
DEFINITION. Routes of the rotor fabric (R304, R305, R309, R310, R427), the Sprinkebry link layer (R315, R419 to R421), and
what a stripe group, a plane or a long-reach link that stops carrying frames means (R422, R426, R432).
-/

namespace Sys2Proof.Machine

open Sys2Proof

/-- Puts an event among those due, unless it is there. -/
def State.laterOnce (s : State) (e : Event) : State := if s.due.contains e then s else s.later e

/-! Planes and slots. -/

/-- The place of a time in a plane's cycle (R305). -/
def cyclePos (p t : Nat) : Nat := (t % 652800 + 652800 - 130560 * (p % 5)) % 652800

/-- The offset that a plane offers at a time (R304, R305). -/
def planeOffset (p t : Nat) : Nat := 64 * (p / 5) + cyclePos p t / 10200

/-- Slots of a plane, counted. -/
def slotNumber (p t : Nat) : Nat := (t + 652800 - 130560 * (p % 5)) / 10200

/-- Half the round trip of a plane in ns: its measured delay, with its temperature coefficient (R306); the temperature is frozen
while its engine is held (R425). -/
def State.halfTrip (s : State) (p : Nat) : Nat :=
  let w := Tab.get 0 s.host.delay p
  let y := s.theo ((s.planeFibre p).getD 0 / 8)
  let rise := Config.tempRise (if y.held then y.since else s.nanos)
  (((w.toNat / 2 ^ 32 : Nat) : Int) + (w.extractLsb' 16 16).toInt * rise).toNat / 2000

/-- The time at which what is sent now reaches the switch of a plane (R306). -/
def State.planeTime (s : State) (p : Nat) : Nat := s.nanos + s.halfTrip p

/-- Groups of a direction that carry frames. -/
def State.liveGroups (s : State) (f : Nat) (towards : Bool) : List Nat :=
  (List.range 8).filter fun g => (s.grp f g).towards == towards && !(s.grp f g).oos

/-- A fibre can send frames. -/
def State.carriesOut (s : State) (f : Nat) : Bool := (s.liveGroups f false).any fun g => !(s.grp f g).retraining

/-- Frames that a plane has sent in its current data window. -/
def State.sentNow (s : State) (p : Nat) : Nat :=
  if (s.plane p).slotNo = slotNumber p (s.planeTime p) then (s.plane p).sent else 0

/-- The offset that a plane offers now in a data window with at least `need` ns left (R305, R426). -/
def State.planeOpen (s : State) (p need : Nat) : Option Nat :=
  match s.planeFibre p with
  | none => none
  | some f =>
    let t := s.planeTime p
    let o := planeOffset p t
    let x := cyclePos p t % 10200
    if (s.plane p).whole || (s.plane p).offs.contains o || o = 0 || !Config.peerPresent (s.host.pkgnum.toNat ^^^ o) ||
        !s.carriesOut f || x < 200 || 10200 < x + need || 7251 ≤ s.sentNow p then none
    else some o

/-- Some plane of its family offers an offset when its turn comes (R427). -/
def State.offsetWorks (s : State) (o : Nat) : Bool :=
  (List.range 5).any fun i =>
    let p := 5 * (o / 64) + i
    (s.planeFibre p).isSome && !(s.plane p).whole && !(s.plane p).offs.contains o

/-- The offset of the current data window of a working plane, on which another package may forward (R310, R427). -/
def State.planeOffers (s : State) (p : Nat) : Option Nat :=
  let t := s.planeTime p
  let o := planeOffset p t
  if (s.planeFibre p).isNone || (s.plane p).whole || (s.plane p).offs.contains o || o = 0 || cyclePos p t % 10200 < 200 then none
  else some o

/-- The route of R310 over an offset in at most `limit` hops: its first plane, on which this package sends now, and its
offsets; the planes after it offer theirs, and each relay is in the domain. -/
def State.shortRoute (s : State) (o limit : Nat) : Option (Nat × List Nat) :=
  let own := s.host.pkgnum.toNat
  let there := fun (n : Nat) => Config.peerPresent (own ^^^ n)
  match (List.range 40).find? fun p => s.planeOpen p 1000 == some o with
  | some p => some (p, [o])
  | none =>
    let first := (List.range 40).filterMap fun p => (s.planeOpen p 2).map fun x => (p, x)
    let later := (List.range 40).filterMap fun p => (s.planeOffers p).map fun x => (p, x)
    let two := first.findSome? fun a => (later.find? fun b => decide (a.1 < b.1) && (a.2 ^^^ b.2) == o).map fun b =>
      (a.1, [a.2, b.2])
    if limit < 2 then none
    else match two with
      | some r => some r
      | none =>
        if limit < 3 then none
        else first.findSome? fun a => (later.filter fun b => decide (a.1 < b.1) && there (a.2 ^^^ b.2)).findSome? fun b =>
          (later.find? fun c => decide (b.1 < c.1) && (a.2 ^^^ b.2 ^^^ c.2) == o).map fun c => (a.1, [a.2, b.2, c.2])

/-- A hop on a fixed offset from a plane: direct, or relayed where no plane of the family works for it (R427). -/
def State.fixedHop (s : State) (p taken h : Nat) (rest : List Nat) : Option (List Nat) :=
  if s.offsetWorks h then (if s.planeOpen p 2 = some h then some (h :: rest) else none)
  else match s.shortRoute h (3 - taken - rest.length) with
    | some (q, r) => if q = p then some (r ++ rest) else none
    | none => none

/-- The hops on which a frame leaves by a plane now. -/
def State.hopsBy (s : State) (p : Nat) (o : OutFrame) : Option (List Nat) :=
  let d := s.host.pkgnum.toNat ^^^ o.f.dst.toNat
  let taken := o.f.hop.toNat
  match o.hops with
  | h :: rest => s.fixedHop p taken h rest
  | [] => match o.route with
    | .short => (match s.shortRoute d 3 with
      | some (q, r) => if q = p then some r else none
      | none => none)
    | .bulk => s.fixedHop p taken d []
    | .path k =>
      if k = 0 then s.fixedHop p taken d []
      else s.fixedHop p taken (pathOffset d k) [64 * ((d / 64) ^^^ ((d / 64 + k) % 8))]
    | _ => none

/-! Memory fibres. -/

/-- The module that a stripe group of a memory fibre reaches (R21). -/
def State.moduleOfGroup (s : State) (f g : Nat) : Option Nat :=
  let i := (Tab.get 0xFF s.host.liveGroups (8 * f + g)).toNat
  match s.host.liveMap[i]? with
  | some e => if e.getLsbD 63 then some (e.extractLsb' 0 11).toNat else none
  | none => none

/-- The groups in service of a direction that reach a module. -/
def State.groupsTo (s : State) (m : Nat) (towards : Bool) : List (Nat × Nat) :=
  ((s.fibresOf 0).map fun f => ((s.liveGroups f towards).filter fun g => s.moduleOfGroup f g == some m).map
    fun g => (f, g)).flatten

/-! Sending. -/

/-- The address range of a frame's write at its destination, as transfers note it. -/
def OutFrame.range (o : OutFrame) : Nat × Nat :=
  let low := o.f.daddr.toNat % 2 ^ 32
  (match o.route with
    | .link l => peerIa (512 + l) low
    | .memory _ => o.f.daddr.toNat
    | _ => peerIa o.f.dst.toNat low, o.f.payload.length)

/-- A frame writes at its destination. -/
def frameWrites (f : Frame) : Bool := f.type == 0 || f.type == 3 || f.type == 6

/-- A transfer writes at its destination. -/
def Xfer.writes (x : Xfer) : Bool := match x.kind with
  | .read .. => false
  | _ => true

/-- A frame leaves once the transfers it must follow are over (R107, R115); a write only after earlier writes of its
granules have been acknowledged (R312): no other transfer that overlaps it is outstanding, unless all its frames wait behind
this one. -/
def State.mayLeave (s : State) (before : List OutFrame) (o : OutFrame) (after : List OutFrame) : Bool :=
  o.after.all (fun i => (Tab.find s.xfers i).isNone) && (!frameWrites o.f || s.xfers.all fun x =>
    x.1 == o.f.xid.toNat || !x.2.writes || !(x.2.out.any fun r => rangesMeet r o.range) ||
      (!(before.any fun b => b.f.xid.toNat == x.1) && after.any fun b => b.f.xid.toNat == x.1))

/-- A short frame that finds no route of at most three hops waits for the direct one (R310). -/
def State.fixRoute (s : State) (o : OutFrame) : OutFrame :=
  let d := s.host.pkgnum.toNat ^^^ o.f.dst.toNat
  if o.route = .short ∧ o.hops = [] ∧ (s.shortRoute d 3).isNone then { o with hops := [d] } else o

/-- A fibre may take a frame now: the hops it takes. -/
def State.fits (s : State) (fb : Nat) (o : OutFrame) : Option (List Nat) :=
  if 16384 ≤ (s.link fb).retained.length then none
  else match s.fibreRole fb, o.route with
    | 0, .memory m => if (s.groupsTo m false).any (fun q => q.1 == fb && !(s.grp fb q.2).retraining) then some [] else none
    | 2, .link l =>
      if s.placeInRole fb = l ∧ (s.lrLink l).state = .trained ∧ (s.lrLink l).txCtr.toNat < 2 ^ 31 ∧ s.carriesOut fb then some []
      else none
    | 1, .memory _ => none
    | 1, .link _ => none
    | 1, _ => s.hopsBy (s.placeInRole fb) o
    | _, _ => none

/-- The first frame that a fibre may take, its hops, and the others. -/
def State.takeFrame (s : State) (fb : Nat) : List OutFrame → List OutFrame → Option (OutFrame × List Nat × List OutFrame)
  | _, [] => none
  | before, o :: t =>
    match (if s.mayLeave before o t then s.fits fb o else none) with
    | some h => some (o, h, before ++ t)
    | none => State.takeFrame s fb (before ++ [o]) t

/-- The retry timeout of a long-reach link in ns (R319). -/
def State.retryTimeout (s : State) (l : Nat) : Nat := (Tab.get 2000 s.host.lrcfg l).toNat * 1000

/-- How many frames may leave on a fibre now: none while every group is in a retrain or out of service (R422, R424); on a rotor
fibre within a data window and its count (R305); on a trained long-reach link under its key (R318, R432). -/
def State.sendRoom (s : State) (fb : Nat) : Nat :=
  let p := s.placeInRole fb
  match s.fibreRole fb with
  | 0 => if s.carriesOut fb then 16384 else 0
  | 1 => if (s.planeOpen p 2).isSome then 7251 - s.sentNow p else 0
  | 2 => if (s.lrLink p).state = .trained ∧ s.carriesOut fb then 2 ^ 31 - (s.lrLink p).txCtr.toNat else 0
  | _ => 0

/-- Counts frames that have left a fibre, of whatever type: those of a rotor window (R305), and those under the key of a
long-reach link, each of which takes a counter value (R318). -/
def State.noteFrames (s : State) (fb n : Nat) : State :=
  let p := s.placeInRole fb
  match s.fibreRole fb with
  | 1 =>
    let no := slotNumber p (s.planeTime p)
    let c := s.sentNow p + n
    (s.modPlane p fun y => { y with
      slotNo := no
      sent := c
      acked := y.acked && y.slotNo == no }).laterOnce (.rotorSlotBoundary p)
  | 2 =>
    let s := s.modLr p fun y => { y with txCtr := y.txCtr + BitVec.ofNat 64 n }
    if 2 ^ 31 ≤ (s.lrLink p).txCtr.toNat then s.laterOnce (.lrRekey p true) else s
  | _ => s

/-- A long-reach frame waits for its acknowledgement (R319). -/
def State.lrSent (s : State) (l : Nat) (o : OutFrame) : State :=
  let s := s.modLr l fun y => { y with ackAt := if y.unacked = [] then s.nanos else y.ackAt }
  if o.f.type ≠ 0 then s
  else
    let mine := fun (w : LrWait) => w.o.f.xid == o.f.xid && w.o.f.daddr == o.f.daddr
    let t := s.retryTimeout l
    let s := s.modLr l fun y =>
      if y.unacked.any mine then
        { y with unacked := y.unacked.map fun w => if mine w then { w with sent := s.nanos, timeout := t } else w }
      else { y with unacked := y.unacked ++ [⟨o, 0, s.nanos, t⟩] }
    (s.laterOnce (.lrRetryTimeout l)).laterOnce (.lrAckTimeout l)

/-- A multicast frame has left: its child has 1 ms (R429). `key` names the transfer, or the forwarding. -/
def State.mcastSent (s : State) (o : OutFrame) : State :=
  if o.f.type ≠ 6 then s
  else
    let child := o.f.dst.toNat
    if o.f.src = s.host.pkgnum then
      { s with xfers := Tab.mod s.xfers o.f.xid.toNat fun x => { x with since := s.nanos } }.laterOnce
        (.multicastMemberTimeout o.f.xid.toNat child)
    else
      let key := (o.f.src.toNat + 1) * 2 ^ 16 + o.f.xid.toNat
      { s with mcasts := Tab.mod s.mcasts key fun x => { x with since := s.nanos } }.laterOnce
        (.multicastMemberTimeout key child)

/-- A number lies at or before another in a sequence modulo 2^16. -/
def seqLe (a b : BitVec 16) : Bool := decide ((b - a).toNat < 2 ^ 15)

/-- An idle frame that carries ACK (R315); with OF a replay request (R419), with LAST a replay report (R436). -/
def idleFrame (ack : BitVec 16) (ordf last : Bool) (pcnt : Nat) : Frame :=
  { Frame.zero with
    type := 7
    ack := ack
    ordf := ordf
    last := last
    pcnt := BitVec.ofNat 16 pcnt }

/-- The group that a frame's failure is counted for: the one whose codeword failed last, otherwise a free choice. -/
def State.blameGroup (s : State) (fb : Nat) (towards : Bool) : Nat :=
  match (s.link fb).badGroup with
  | some g => if (s.grp fb g).towards = towards then g else s.free64.toNat % 8
  | none => s.free64.toNat % 8

/-- Of the times of a frame, latest first, four lie within 100 µs, and no wavelength of the group has been declared since the
first (R421). -/
def fourSends (ts : List Nat) (declared : Option Nat) : Bool := match ts with
  | a :: _ :: _ :: d :: _ => decide (a ≤ d + 100000) && !(declared.any fun t => decide (d ≤ t))
  | _ => false

/-- A group escalates (R421): a frame in its direction was sent 4 times within 100 µs without being accepted. -/
def State.escalates (s : State) (fb g : Nat) : Bool :=
  let y := s.grp fb g
  if y.towards then fourSends (s.link fb).fails y.declaredAt
  else (s.link fb).sent.any fun p => fourSends p.2 y.declaredAt

/-- A group escalates, if it does. -/
def State.mayEscalate (s : State) (fb g : Nat) : State :=
  if s.escalates fb g then s.laterOnce (.linkEscalation fb g) else s

/-- Frames have been sent again on a fibre: they count in selector 3 of a group (R420), and the next idle frame reports them
(R436). -/
def State.countReplay (s : State) (fb n : Nat) : State :=
  let s := s.tick
  let g := s.blameGroup fb false
  let s := s.modGrp fb g fun y => { y with replays := y.replays + n }
  let more := fun (f : Frame) => if f.last then { f with pcnt := f.pcnt + BitVec.ofNat 16 n } else f
  let report := idleFrame ((s.link fb).expSeq - 1) false true n
  let c := (s.link fb).control
  let c := if c.any fun f => f.last then c.map more else report :: c
  (s.modLink fb fun y => { y with control := c }).pokeFrames.mayEscalate fb g

/-- A frame leaves on a fibre (R315): numbered, with the last number accepted, and kept until it is acknowledged. -/
def State.emit (s : State) (fb : Nat) (o : OutFrame) (hops : List Nat) : State :=
  let again := o.again
  let o : OutFrame := { o with
    hops := hops
    again := false }
  let s := s.modLink fb fun y => { y with
    nextSeq := y.nextSeq + 1
    acked := y.expSeq - 1
    retained := y.retained ++ [{ o with f := { o.f with seq := y.nextSeq, ack := y.expSeq - 1 } }]
    sent := y.sent ++ [(y.nextSeq, [s.nanos])]
    since := if y.retained = [] then s.nanos else y.since }
  let s := (s.laterOnce (.replayTimeout fb)).noteFrames fb 1
  let s := match o.route with
    | .link l => s.lrSent l o
    | _ => s
  let s := if again then s.countReplay fb 1 else s
  s.mcastSent o

/-! Receiving. -/

/-- A relay has taken a frame of a launch (R428): its transfer notes the relay, when, and the frame's address. -/
def State.noteRelay (s : State) (o : OutFrame) : State :=
  if o.hops.length < 2 ∨ o.launch = 0 then s
  else
    let relay := s.host.pkgnum.toNat ^^^ o.hops.headD 0
    { s with xfers := Tab.mod s.xfers o.f.xid.toNat fun x =>
        { x with relays := x.relays ++ [(relay, s.nanos, o.f.daddr)] } }.laterOnce (.relayLossTimeout relay)

/-- ACK releases the frames up to it (R315). -/
def State.ackLink (s : State) (fb : Nat) (ack : BitVec 16) : State :=
  let gone := (s.link fb).retained.filter fun o => seqLe o.f.seq ack
  if gone = [] then s
  else
    let s := s.modLink fb fun y => { y with
      retained := y.retained.filter fun o => !seqLe o.f.seq ack
      sent := y.sent.filter fun p => !seqLe p.1 ack
      since := s.nanos }
    match s.fibreRole fb with
    | 1 => gone.foldl State.noteRelay (s.modPlane (s.placeInRole fb) fun y => { y with acked := true })
    | 2 => s.modLr (s.placeInRole fb) fun y => { y with ackAt := s.nanos }
    | _ => s

/-- A peer is heard directly on a rotor fibre (R428): the one that the plane's matching joins. -/
def State.hear (s : State) (fb : Nat) : State :=
  if s.fibreRole fb ≠ 1 then s
  else
    let p := s.placeInRole fb
    { s with heard := Tab.put s.heard (s.host.pkgnum.toNat ^^^ planeOffset p (s.planeTime p)) s.nanos }

/-- A control frame waits to be sent ahead of others. -/
def State.control (s : State) (fb : Nat) (f : Frame) : State :=
  (s.modLink fb fun y => { y with control := y.control ++ [f] }).pokeFrames

/-- A frame is discarded: the first discard after an accepted frame asks for a replay (R419). -/
def State.discardFrame (s : State) (fb : Nat) : State :=
  let lk := s.link fb
  if lk.discarding then s
  else (s.modLink fb fun y => { y with
    discarding := true
    reqs := y.reqs ++ [y.expSeq]
    fails := [s.nanos] }).control fb (idleFrame (lk.expSeq - 1) true false 0)

/-- A frame fails its CRC or its header check (R314, R419). -/
def State.badFrame (s : State) (fb : Nat) : State :=
  let s := s.tick
  let g := s.blameGroup fb true
  (s.modGrp fb g fun y => { y with uncorr := y.uncorr + 1 }).discardFrame fb

/-- Counts a received long-reach frame (R318). -/
def State.lrReceived (s : State) (fb : Nat) : State :=
  if s.fibreRole fb ≠ 2 then s
  else
    let l := s.placeInRole fb
    let s := s.modLr l fun y => { y with rxCtr := y.rxCtr + 1 }
    if 2 ^ 31 ≤ (s.lrLink l).rxCtr.toNat then s.laterOnce (.lrRekey l false) else s

/-- A fibre receives frames: some group carries them, in service and not in a retrain (R422, R424). -/
def State.carriesIn (s : State) (fb : Nat) : Bool :=
  decide (2 ≤ s.host.cur) && decide (fb < 128) && (s.fibreRole fb != 2 || (s.lrLink (s.placeInRole fb)).state == .trained) &&
    (s.liveGroups fb true).any fun g => !(s.grp fb g).retraining

/-- The buffers of one channel: half of the 32 MiB of units 251 to 254 of every cluster slice, each for a frame (R311). -/
def relayHalf : Nat := min Config.relayBuffers (2 ^ 24 / 292)

/-- A relay buffer of a channel is free, so that a credit for it may stand granted (R311). -/
def State.relayRoom (s : State) (hop : BitVec 2) : Bool :=
  decide ((s.relays.filter fun p => p.2.f.hop == hop).length < relayHalf)

/-- The hops that a source can have fixed for a frame from the relay on that it reached on a plane (R309, R310): over a path other
than 0 its last hop is that path's second; otherwise the families of its planes ascend. -/
def State.relayHops (s : State) (p : Nat) (f : Frame) : List (List Nat) :=
  let own := s.host.pkgnum.toNat
  let d := own ^^^ f.dst.toNat
  let fam := (f.src.toNat ^^^ f.dst.toNat) / 64
  let last := 64 * (fam ^^^ ((fam + f.path.toNat) % 8))
  if f.type = 0 ∧ f.path ≠ 0 then (if d = last ∨ f.hop ≠ 0 then [[d]] else [[d ^^^ last, last]])
  else
    let one := if p / 5 ≤ d / 64 then [[d]] else []
    let two := (List.range 512).filter fun v => v != 0 && v != d && decide (p / 5 ≤ v / 64 ∧ v / 64 ≤ (d ^^^ v) / 64) &&
      Config.peerPresent (own ^^^ v)
    one ++ (if f.hop = 0 then two.map fun v => [v, d ^^^ v] else [])

/-- A relay holds a frame in a buffer of its channel (R311); its next hops, which the source fixed (R310) and the header does
not carry, are a free choice among those it can have fixed. -/
def State.relayIn (s : State) (fb : Nat) (f : Frame) : State :=
  if f.hop = 2 then s
  else match s.freshId with
    | (id, s) =>
      let s := s.tick
      let d := s.host.pkgnum.toNat ^^^ f.dst.toNat
      let off := (pick (s.relayHops (s.placeInRole fb) f) s.free64.toNat).getD [d]
      { s with relays := Tab.put s.relays id ⟨f, off, false⟩ }.later (.relayForward id)

/-- A frame of a type arrives with a good CRC (R419, R420): accepted only when its number is the next; one already accepted is
acknowledged again. A frame for a relay comes only with a credit for its channel (R311). -/
def State.receive (s : State) (fb : Nat) (f : Frame) (ty : BitVec 4) (act : State → State) : State :=
  if !s.carriesIn fb then s
  else if s.fibreRole fb = 1 ∧ f.dst ≠ s.host.pkgnum ∧ f.hop ≠ 2 ∧ !s.relayRoom f.hop then s
  else if f.type ≠ ty then (s.hear fb).badFrame fb
  else
    let s := (s.hear fb).lrReceived fb
    let lk := s.link fb
    if f.seq = lk.expSeq then
      let s := (s.modLink fb fun y => { y with expSeq := y.expSeq + 1, discarding := false, fails := [] }).ackLink fb f.ack
      (if s.fibreRole fb = 1 ∧ f.dst ≠ s.host.pkgnum then s.relayIn fb f else act s).pokeFrames
    else if seqLe f.seq (lk.expSeq - 1) then s.control fb (idleFrame (lk.expSeq - 1) false false 0)
    else s.discardFrame fb

/-- A sender sends its retained frames after ACK again, as far as they may leave now (R419, R424). -/
def State.resendFrames (s : State) (fb : Nat) : State :=
  let n := min (s.link fb).retained.length (s.sendRoom fb)
  if n = 0 then s
  else
    ((s.modLink fb fun y => { y with
      since := s.nanos
      sent := y.sent.mapIdx fun i p => if i < n then (p.1, (s.nanos :: p.2).take 4) else p }).noteFrames fb n).countReplay fb n
      |>.laterOnce (.replayTimeout fb)

/-! Records of the link layer (R378). -/

/-- Posts a link record to every valid context. -/
def State.linkRecord (s : State) (type sub fb wl value aux : Nat) : State :=
  s.postAll type sub (nodeOfFibre fb) (linkForm fb wl value aux)

/-! What fails. -/

/-- A long-reach link that is not trained will try to train again; whether that succeeds is free. -/
def State.tryLink (s : State) (l : Nat) : State :=
  if s.due.any fun e => match e with
    | .lrTrainingAttempt m _ => m == l
    | _ => false then s
  else s.tick.later (.lrTrainingAttempt l (s.tick.free64.getLsbD 0))

/-- A long-reach link is lost (R432). -/
def State.loseLink (s : State) (l : Nat) : State :=
  if (s.lrLink l).state = .lost then s
  else
    let s := s.modLr l fun y => { y with
      state := .lost
      lostAt := s.nanos
      tryAt := s.nanos + 10000000 }
    let s := match s.linkFibre l with
      | none => s
      | some f => s.linkRecord 12 2 f 0 0 l
    (s.tryLink l).laterOnce (.lrLossDiscard l)

/-- Retained frames of a fibre that are picked go back among those that wait for a fibre, to be sent again (R419, R422). -/
def State.requeue (s : State) (fb : Nat) (out : OutFrame → Bool) : State :=
  let kept := (s.link fb).retained.filter out
  if kept = [] then s
  else
    let seqs := kept.map fun o => o.f.seq
    let s := s.modLink fb fun y => { y with
      retained := y.retained.filter fun o => !out o
      sent := y.sent.filter fun p => !seqs.contains p.1 }
    ({ s with outq := (kept.map fun (o : OutFrame) => { o with again := true }) ++ s.outq }).pokeFrames

/-- Frames that a plane has not had acknowledged wait for another window that offers their offset (R419, R426). -/
def State.requeuePlane (s : State) (p : Nat) : State :=
  match s.planeFibre p with
  | none => s
  | some f => s.requeue f fun _ => true

/-- A plane, or one matching on it, fails (R426). -/
def State.failPlane (s : State) (p : Nat) (offset : Option Nat) : State :=
  match s.planeFibre p with
  | none => s
  | some f =>
    let known := (s.plane p).whole || (match offset with
      | some o => (s.plane p).offs.contains o
      | none => false)
    if known then s
    else
      let s := s.modPlane p fun y => match offset with
        | none => { y with whole := true, failedSlot := slotNumber p (s.planeTime p) }
        | some o => { y with offs := o :: y.offs, failedSlot := slotNumber p (s.planeTime p) }
      (s.linkRecord 13 0 f 0 (offset.getD 0xFFFF) p).requeuePlane p

/-- A module with no group left in a direction is unreachable; one that has them again has recovered (R415, R422). -/
def State.checkReach (s : State) (m : Nat) : State :=
  let ok := s.groupsTo m true != [] && s.groupsTo m false != []
  if !ok && !(s.modl m).unreachable then s.laterOnce (.moduleFault m 3 0 0)
  else if ok && (s.modl m).unreachable then s.laterOnce (.moduleRecovered m)
  else s

/-- What follows when a group of a fibre leaves service (R422). -/
def State.afterOut (s : State) (fb g : Nat) : State :=
  let none_ := fun (towards : Bool) => s.liveGroups fb towards == []
  match s.fibreRole fb with
  | 0 => (match s.moduleOfGroup fb g with
    | some m => s.checkReach m
    | none => s)
  | 1 => if none_ true || none_ false then s.failPlane (s.placeInRole fb) none else s
  | 2 => if none_ true || none_ false then s.loseLink (s.placeInRole fb) else s
  | _ => s

/-- The frames retained for a group that has left service are replayed over the other groups of its direction (R422): on a
memory fibre, by another fibre where none of this one's reaches their module. -/
def State.replayOver (s : State) (fb g : Nat) : State :=
  if (s.grp fb g).towards then s
  else
    (s.requeue fb fun o => match o.route with
      | .memory m => !((s.groupsTo m false).any fun q => q.1 == fb)
      | _ => false).resendFrames fb

/-- A group goes out of service; for good after three failed forced retrains or three resets (R424, R425). -/
def State.groupOut (s : State) (fb g : Nat) (forGood : Bool) : State :=
  let was := (s.grp fb g).oos
  let s := s.modGrp fb g fun y => { y with
    oos := true
    forcedFails := if forGood then 3 else y.forcedFails }
  if was then s else (s.replayOver fb g).afterOut fb g

/-- A group returns to service (R422). -/
def State.groupIn (s : State) (fb g : Nat) : State :=
  let s := (s.modGrp fb g fun y => { y with oos := false }).pokeFrames
  match s.fibreRole fb with
  | 0 => (match s.moduleOfGroup fb g with
    | some m => s.checkReach m
    | none => s)
  | _ => s

end Sys2Proof.Machine
end

