-- ==== Sys2Proof/Machine/EvFabric.lean ====
section
/-!
DEFINITION. Frames: what each type does where it is accepted (R321, R323 to R326, R328, R428, R429, R433, R444), sending
(R305, R310), relays (R311) and replay (R419).
-/

namespace Sys2Proof.Machine

open Sys2Proof

/-! Sending. -/

/-- A fibre has accepted frames since it last sent an ACK (R315). -/
def Link.owesAck (l : Link) : Bool := l.acked != l.expSeq - 1

/-- Frames, control frames or acknowledgements wait on some fibre. -/
def State.framesWait (s : State) : Bool := !s.outq.isEmpty || s.links.any fun p => !p.2.control.isEmpty || p.2.owesAck

/-- The control frame that a fibre sends next; a report waits until the frames that are sent again have left (R436). -/
def Link.nextControl (l : Link) (again : Bool) : Option Frame := match l.control with
  | f :: _ => if f.last && again then none else some f
  | [] => none

/-- A fibre sends an idle frame with the acknowledgement that it carries (R315); it counts like any other frame. -/
def State.sendIdle (s : State) (fb : Nat) (ack : BitVec 16) : State :=
  (s.modLink fb fun y => { y with acked := ack }).noteFrames fb 1

/-- What one fibre sends now: a control frame, or the first waiting frame that its window, its route and the next package's credit
let go, or, with no data to send, an idle frame that carries ACK. -/
def State.sendOne (s : State) (fb : Nat) (credit : Bool) : State :=
  let room := decide (0 < s.sendRoom fb)
  let s := if s.fibreRole fb = 1 then { s with outq := s.outq.map s.fixRoute } else s
  let next := if credit then s.takeFrame fb [] s.outq else none
  match (if room then (s.link fb).nextControl (next.any fun q => q.1.again) else none), next with
  | some f, _ => (s.modLink fb fun y => { y with control := y.control.tail }).sendIdle fb f.ack
  | none, some (o, h, rest) => { s with outq := rest }.emit fb o h
  | none, none => if room && (s.link fb).owesAck then s.sendIdle fb ((s.link fb).expSeq - 1) else s

/-- FRAME_SEND (R305, R310, R315): a fibre sends what it may; then the next fibre is considered. -/
def execFrameSend (fibre : Nat) (s : State) : Out :=
  .next (
    let s := s.tick
    let s := s.sendOne fibre (s.fibreRole fibre != 1 || s.free64.getLsbD 0)
    if s.framesWait then s.later (.frameSend ((fibre + 1) % 128)) else s)

/-- REPLAY_TIMEOUT (R419, R430): unacknowledged frames and no advance of ACK for 20 µs, on long reach for 2 × RTT + 1 ms. -/
def execReplayTimeout (fibre : Nat) (s : State) : Out :=
  .next (
    let lk := s.link fibre
    let wait := if s.fibreRole fibre = 2 then 2 * (s.lrLink (s.placeInRole fibre)).rtt / 1000 + 1000000 else 20000
    if lk.retained = [] then s
    else if s.nanos < lk.since + wait ∨ s.sendRoom fibre = 0 then s.later (.replayTimeout fibre)
    else s.resendFrames fibre)

/-- FRAME_CORRUPT (R314, R318, R419, R431): a frame fails its CRC or header check, or, on long reach, its authentication;
which it is, is open. -/
def execFrameCorrupt (fibre : Nat) (s : State) : Out :=
  .next (
    if !s.carriesIn fibre then s
    else
      let s := (s.hear fibre).tick
      if s.fibreRole fibre = 2 ∧ s.free64.getLsbD 0 then
        let l := s.placeInRole fibre
        let s := (s.modLr l fun y => { y with
          authFail := y.authFail + 1
          authTimes := (s.nanos :: y.authTimes).take 64 }).discardFrame fibre
        let y := s.lrLink l
        let s := if (match y.lastRec1 with
            | some t => decide (t + 1000000 ≤ s.nanos)
            | none => true) then
            (s.linkRecord 12 1 fibre 0 y.authFail l).modLr l fun z => { z with
              authFail := 0
              lastRec1 := some s.nanos }
          else s
        if 64 ≤ y.authTimes.length ∧ s.nanos ≤ (y.authTimes.getLastD 0) + 1000000 then
          (s.modLr l fun z => { z with
            state := .untrained
            authTimes := []
            tryAt := s.nanos }).tryLink l
        else s
      else s.badFrame fibre)

/-! Acknowledgements. -/

/-- The package that a frame came from: a peer, or 512 plus a link. -/
def State.origin (s : State) (fb : Nat) (f : Frame) : Nat := if s.fibreRole fb = 2 then 512 + s.placeInRole fb else f.src.toNat

/-- Answers a frame to its origin as short traffic (R308); the address of the frame names it (log entry 16). -/
def State.answer (s : State) (fb : Nat) (f : Frame) (type : BitVec 4) (payload : List Byte) (daddr : BitVec 56) : State :=
  let p := s.origin fb f
  let g := { s.peerFrame type f.ctx.toNat p 0 f.xid.toNat payload with
    daddr := daddr
    pcnt := if type = 5 then 1 else 0 }
  s.sendOut ⟨g, destRoute p, [], 0, [], [], false⟩

/-- The end-to-end acknowledgement of a frame: code 0x00, or the code with which it is refused (R315, R429). -/
def State.ackFrame (s : State) (fb : Nat) (f : Frame) (code : Byte) : State :=
  s.answer fb f 5 (code :: List.replicate 31 0) f.daddr

/-! Writes. -/

/-- A frame of a transfer that may end in an ordered flag: it has one, or it has no barrier slot (R324). -/
def frameFlagged (f : Frame) : Bool := f.ordf || f.baddr == 0

/-- Transfers without a flag whose numbers lie far behind a number are forgotten. -/
def oldFlag (src : Nat) (xid : BitVec 16) (r : FlagRx) : Bool :=
  r.src == src && r.np.isNone && decide (2 ^ 14 ≤ (xid - r.xid).toNat ∧ (xid - r.xid).toNat ≤ 2 ^ 15)

/-- Counts a frame of a transfer (R324). -/
def FlagRx.count (r : FlagRx) (f : Frame) (ok : Bool) : FlagRx :=
  let i := f.path.toNat
  let r := { r with
    got := if ok then r.got.setIfInBounds i (r.got.getD i 0 + 1) else r.got
    refused := r.refused || !ok }
  if f.ordf && f.last then
    { r with
      want := r.want.setIfInBounds i (some f.pcnt.toNat)
      np := some (f.np.toNat + 1)
      flag := f.baddr
      fval := f.fval
      ctx := f.ctx }
  else r

/-- LAST has come from every path, with that path's frames performed. -/
def FlagRx.done (r : FlagRx) : Bool :=
  let full := (List.range 4).filter fun i => match r.want.getD i none with
    | none => false
    | some n => n == r.got.getD i 0
  r.np == some full.length

/-- Counts a frame of its transfer, and writes the flag once when it is due; it answers whether the flag was refused, and with
which errors. -/
def State.countFlag (s : State) (src : Nat) (f : Frame) (ok : Bool) : Option (List Nat) × State :=
  let mine := fun (r : FlagRx) => r.src == src && r.xid == f.xid
  let r := ((s.flags.find? mine).getD
    ⟨src, f.xid, Vector.replicate 4 0, Vector.replicate 4 none, none, 0, 0, 0, false⟩).count f ok
  let others := s.flags.filter fun x => !mine x && !oldFlag src f.xid x
  if r.done then
    let s := { s with flags := others }
    if r.refused then (none, s)
    else match s.homeWrite r.ctx.toNat (r.flag.toNat % 2 ^ 32) (leBytes 4 r.fval.toNat) with
      | (true, t) => (none, t)
      | (false, t) => (some (s.homeBad r.ctx.toNat (r.flag.toNat % 2 ^ 32) 4), t)
  else (none, { s with flags := r :: others })

/-- An access of another package finds an uncorrectable error (Table 20-6): the holder's launch is discarded, and LAST in the
negative acknowledgement tells the reader's package (log entry 16). -/
def State.refuseBad (s : State) (fb : Nat) (f : Frame) (bad : List Nat) : State :=
  let s := bad.foldl State.containGranule s
  let p := s.origin fb f
  let g := { s.peerFrame 5 f.ctx.toNat p 0 f.xid.toNat (List.replicate 32 0) with
    daddr := f.daddr
    pcnt := 1
    last := true }
  s.sendOut ⟨g, destRoute p, [], 0, [], [], false⟩

/-- A write frame at its home (R321, R323, R324): checked, performed, counted on its slot, acknowledged. A frame without
payload counts 1 on its slot (R138). -/
def State.performWrite (s : State) (fb : Nat) (f : Frame) : State :=
  let a := f.daddr.toNat % 2 ^ 32
  let slot := if f.ordf ∨ f.baddr = 0 then none else some (f.baddr.toNat % 2 ^ 32)
  if f.payload = [] then
    let b := f.baddr.toNat % 2 ^ 32
    if s.destGrants f.ctx.toNat b 32 .wr then (s.arrive b 1).ackFrame fb f 0 else s.ackFrame fb f 2
  else
    let bad := s.homeBad f.ctx.toNat a f.payload.length
    match s.homeWrite f.ctx.toNat a f.payload with
    | (ok, s) =>
      let s := match ok, slot with
        | true, some b => s.arrive b f.payload.length
        | _, _ => s
      let r := if frameFlagged f then s.countFlag (s.origin fb f) f ok else (none, s)
      let bad := bad ++ r.1.getD []
      if bad = [] then r.2.ackFrame fb f (if ok && r.1.isNone then 0 else 2) else r.2.refuseBad fb f bad

/-- FRAME_WRITE (R321): on long reach a resend that was already performed is only acknowledged (R433). -/
def execFrameWrite (fibre : Nat) (f : Frame) (s : State) : Out :=
  .next (s.receive fibre f 0 fun s =>
    if s.fibreRole fibre ≠ 2 then s.performWrite fibre f
    else
      let l := s.placeInRole fibre
      if (s.lrLink l).dedup.any fun p => p.1 == f.xid && p.2.1 == f.daddr then s.ackFrame fibre f 0
      else
        let ok := s.destGrants f.ctx.toNat (f.daddr.toNat % 2 ^ 32) f.payload.length .wr
        let s := s.performWrite fibre f
        if ok then
          (s.modLr l fun y => { y with dedup := y.dedup ++ [(f.xid, f.daddr, s.nanos)] }).later
            (.lrDedupExpiry l f.xid f.daddr)
        else s)

/-! Reads and atomics. -/

/-- FRAME_READ_REQUEST (R321): checked, read, answered. -/
def execFrameReadRequest (fibre : Nat) (f : Frame) (s : State) : Out :=
  .next (s.receive fibre f 1 fun s =>
    let a := f.daddr.toNat % 2 ^ 32
    let n := f.payload.length
    if !s.destGrants f.ctx.toNat a n .rd then s.ackFrame fibre f 2
    else if s.badGranules a n ≠ [] then s.refuseBad fibre f (s.badGranules a n)
    else s.answer fibre f 2 (s.pkgRead a n) f.daddr)

/-- The new value of an atomic request, by its operation code: those of Table 11-6, and 8, a compare and swap. -/
def requestValue (op : Nat) (ty : Ty) (old c n : Word64) : Word64 :=
  match op with
  | 0 => atomNew ty .add old c
  | 1 => atomNew ty .min old c
  | 2 => atomNew ty .max old c
  | 3 => atomNew ty .and old c
  | 4 => atomNew ty .or old c
  | 5 => atomNew ty .xor old c
  | 6 => c
  | 7 => atomNew ty .inc old c
  | _ => if old = c then n else old

/-- The operands that an atomic request carries for a number of lanes: each with the new value of a compare. -/
def requestOperands (ty : Ty) (op n : Nat) (bs : List Byte) : List (Word64 × Word64) :=
  let w := tyBytes ty
  let word := fun (i : Nat) => BitVec.ofNat 64 (leNat ((bs.drop (i * w)).take w))
  (List.range n).map fun i => if op = 8 then (word (2 * i), word (2 * i + 1)) else (word i, 0)

/-- An atomic request at its home (R116, R326): one read-modify-write for all its lanes; the old value returns. -/
def State.performAtomic (s : State) (fb : Nat) (f : Frame) (bs : List Byte) : State :=
  let a := f.daddr.toNat % 2 ^ 32
  let op := f.fval.toNat % 2 ^ 8
  let ty := Ty.ofCode (f.fval.extractLsb' 8 8)
  let n := tyBytes ty
  if !s.destGrants f.ctx.toNat a n .rmw then s.ackFrame fb f 2
  else if s.badGranules a n ≠ [] then s.refuseBad fb f (s.badGranules a n)
  else
    let old := s.pkgRead a n
    let new := (requestOperands ty op (f.fval.toNat / 2 ^ 16) bs).foldl (fun v c => requestValue op ty v c.1 c.2)
      (BitVec.ofNat 64 (leNat old))
    (s.pkgWrite a (leBytes n new.toNat)).answer fb f 4 (old ++ List.replicate (32 - n) 0) f.daddr

/-- FRAME_ATOMIC_REQUEST: of two frames the first waits for the other (log entry 16). -/
def execFrameAtomicRequest (fibre : Nat) (f : Frame) (s : State) : Out :=
  .next (s.receive fibre f 3 fun s =>
    let src := s.origin fibre f
    let mine := fun (h : HalfAtom) => h.src == src && h.xid == f.xid
    if f.np = 0 then s.performAtomic fibre f f.payload
    else match s.halves.find? mine with
      | none => { s with halves := s.halves ++ [⟨src, f.xid, f.path, f.payload⟩] }
      | some h =>
        { s with halves := s.halves.filter fun x => !mine x }.performAtomic fibre f
          (if h.half = 0 then h.payload ++ f.payload else f.payload ++ h.payload))

/-- The slots that wait for a load settle once every lane has answered (R404). -/
def State.settleLoad (s : State) (k id : Nat) : State :=
  match (s.sheaf k).loads.find? fun l => l.id == id with
  | none => s
  | some l =>
    if l.left &&& ~~~l.ready &&& ~~~l.bad ≠ 0 then s
    else [false, true].foldl (fun (t : State) b => match ((t.sheaf k).slot b).park with
      | some (.memory i _ _ _ _) => if i = id then t.later (.memoryFaultSettle (placeOf k) b) else t
      | _ => t) s

/-- The lanes of a load that an answer serves: one, or, for number 32, all that are still out (R235). -/
def Load.answered (l : Load) (lane : Nat) : Word32 :=
  if lane = 32 then l.left &&& ~~~l.ready &&& ~~~l.bad else laneBit lane &&& l.left

/-- A value arrives for a load (R113, R325); one of an acquire read discards the lines of the context, which others may have
filled since it was sent (R117). -/
def State.loadValueIn (s : State) (k id lane : Nat) (v : Word64) : State :=
  match (s.sheaf k).loads.find? fun l => l.id == id with
  | none => s
  | some l =>
    let m := l.answered lane
    let s := s.modSheaf k fun y => { y with loads := y.loads.map fun x =>
      if x.id = id then { x with
        ready := x.ready ||| m
        vals := vec32 fun L => if m.getLsbD L then v else x.vals.getD L 0 } else x }
    let s := { s with due := s.due ++ (lanesOf m).map fun L => Event.loadLaneReturn (placeOf k) id L }
    (if l.acq then s.acquireL1 k else s).settleLoad k id

/-- A lane of a load is refused at its home (R404, R429). -/
def State.loadFaultIn (s : State) (k id lane : Nat) (code : Byte) (addr : BitVec 56) : State :=
  match (s.sheaf k).loads.find? fun l => l.id == id with
  | none => s
  | some l =>
    let m := l.answered lane
    let s := s.modSheaf k fun y => { y with loads := y.loads.map fun x =>
      if x.id = id then
        let first := x.bad = 0 ∨ lowest m < lowest x.bad
        { x with
          bad := x.bad ||| m
          code := if first then code else x.code
          addr := if first then addr else x.addr }
      else x }
    s.settleLoad k id

/-- A transfer is over; no frame waits for it any more. -/
def State.closeXfer (s : State) (xid : Nat) : State :=
  { s with
    xfers := Tab.del s.xfers xid
    outq := s.outq.map fun o => { o with after := o.after.filter (· != xid) } }

/-- The bytes that answer a chunk: those of a frame from another package, or what the module holds, or its refusal (R317). -/
def State.chunkBytes (s : State) (c : Chunk) (payload : List Byte) : Chunk :=
  match s.spaceOf c.ia with
  | .ok (.mod m o) => (match s.modRead m o c.len with
    | .ok bs => { c with data := some bs }
    | .error e => { c with code := e })
  | _ => { c with data := some (payload.take c.len) }

/-- FRAME_READ_RESPONSE (R325): a value for a lane, or the bytes of a chunk. -/
def execFrameReadResponse (fibre : Nat) (f : Frame) (s : State) : Out :=
  .next (s.receive fibre f 2 fun s =>
    let xid := f.xid.toNat
    match Tab.find s.xfers xid with
    | none => s
    | some x => match x.kind with
      | .read k id lane ty off _ =>
        (s.closeXfer xid).loadValueIn k id lane (loadValue ty ((f.payload.drop off).take (tyBytes ty)))
      | .chunk id =>
        { s.closeXfer xid with chunks := Tab.mod s.chunks id fun c => s.chunkBytes c f.payload }.later (.chunkArrival id)
      | _ => s)

/-- The old values that the lanes of an atomic request return, as if they had operated one after another in ascending order
(R116). -/
def laneValues (ty : Ty) (op : Nat) : Word64 → List AtomLane → List (Nat × Word64)
  | _, [] => []
  | v, l :: t => (l.lane, v) :: laneValues ty op (loadValue ty (leBytes (tyBytes ty) (requestValue op ty v l.c l.n).toNat)) t

/-- FRAME_ATOMIC_RESPONSE (R326): the old values for the lanes. -/
def execFrameAtomicResponse (fibre : Nat) (f : Frame) (s : State) : Out :=
  .next (s.receive fibre f 4 fun s =>
    let xid := f.xid.toNat
    match Tab.find s.xfers xid with
    | none => s
    | some x => match x.kind with
      | .atom k id ty op ls =>
        (laneValues ty op (loadValue ty (f.payload.take (tyBytes ty))) ls).foldl
          (fun (t : State) p => t.loadValueIn k id p.1 p.2) (s.closeXfer xid)
      | _ => s)

/-! Multicast (R328, R429). -/

/-- Members below a member of a list, itself included; the fuel bounds the depth. -/
def subtree (ms : List Nat) : Nat → Nat → List Nat
  | 0, _ => []
  | n + 1, i => match ms[i]? with
    | none => []
    | some p => p :: (subtree ms n (2 * i + 1 + 1) ++ subtree ms n (2 * i + 1 + 2))

/-- A set of packages as a mask. -/
def maskOf (ps : List Nat) : BitVec 512 := ps.foldl (fun m p => m ||| ((1 : BitVec 512) <<< p)) 0

/-- The members below a child in a group, as a mask. -/
def State.below (s : State) (g src child : Nat) : BitVec 512 :=
  let ms := s.members g src
  match ms.findIdx? (· == child) with
  | none => maskOf [child]
  | some i => maskOf (subtree ms 10 i)

/-- The source of a multicast writes the status and XMCAST ends. -/
def State.mcastEnd (s : State) (xid : Nat) (k : Nat) (status : Word64) (neg : BitVec 512) (crew : Nat)
    (slot : Option BSlot) : State :=
  let s := s.closeXfer xid
  match (s.sheaf k).block with
  | some (.mcast b y) =>
    if y = xid then
      ((s.mcastStatus k status neg crew slot).modSheaf k fun z => { z with block := none }).advance k b 12
    else s
  | _ => s

/-- A child of the source has answered, or is given up: its negative members. -/
def State.mcastChild (s : State) (xid child : Nat) (neg : BitVec 512) : State :=
  match Tab.find s.xfers xid with
  | none => s
  | some x => match x.kind with
    | .mcast k status _ crew slot =>
      if !(x.out.any fun r => r.1 / 2 ^ 32 % 512 == child) then s
      else
        let out := x.out.filter fun r => r.1 / 2 ^ 32 % 512 != child
        let neg := x.neg ||| neg
        if out = [] then s.mcastEnd xid k status neg crew slot
        else { s with xfers := Tab.put s.xfers xid { x with
          out := out
          left := out.length
          neg := neg } }
    | _ => s

/-- The parent of this package in the tree of a source. -/
def State.mcastParent (s : State) (g src : Nat) : Nat :=
  let ms := s.members g src
  match ms.findIdx? (· == s.host.pkgnum.toNat) with
  | none => src
  | some i => if i < 2 then src else ms.getD (i / 2 - 1) src

/-- A member acknowledges its parent with the negative members of its subtree; the address names the source. -/
def State.mcastAck (s : State) (f : Frame) (neg : BitVec 512) : State :=
  let src := f.src.toNat
  let p := s.mcastParent f.pcnt.toNat src
  let g := { s.peerFrame 5 f.ctx.toNat p 0 f.xid.toNat (leBytes 64 neg.toNat) with
    daddr := BitVec.ofNat 56 (peerIa src (f.daddr.toNat % 2 ^ 32))
    pcnt := 1 }
  s.sendOut ⟨g, .short, [], 0, [], [], false⟩

/-- The number under which a forwarded multicast is kept. -/
def fwdKey (src xid : Nat) : Nat := (src + 1) * 2 ^ 16 + xid

/-- A child of a forwarding member has answered, or is given up. -/
def State.fwdChild (s : State) (key child : Nat) (neg : BitVec 512) : State :=
  match Tab.find s.mcasts key with
  | none => s
  | some w =>
    if !w.children.contains child then s
    else
      let rest := w.children.filter (· != child)
      let neg := w.neg ||| neg
      if rest = [] then { s with mcasts := Tab.del s.mcasts key }.mcastAck w.f neg
      else { s with mcasts := Tab.put s.mcasts key { w with
        children := rest
        neg := neg } }

/-- A multicast frame for a child of this member. -/
def childFrame (f : Frame) (p : Nat) : OutFrame :=
  ⟨{ f with
    daddr := BitVec.ofNat 56 (peerIa p (f.daddr.toNat % 2 ^ 32))
    dst := BitVec.ofNat 9 p
    hop := 0
    seq := 0
    ack := 0 }, .short, [], 0, [], [], false⟩

/-- The children of this package in the tree of a frame. -/
def State.mcastKids (s : State) (f : Frame) : List Nat :=
  let ms := s.members f.pcnt.toNat f.src.toNat
  match ms.findIdx? (· == s.host.pkgnum.toNat) with
  | none => []
  | some i => childrenOf ms i false

/-- A multicast frame at a member (R328): it writes unless R321 refuses it, and forwards either way. -/
def State.mcastIn (s : State) (f : Frame) : State :=
  let r := s.homeWrite f.ctx.toNat (f.daddr.toNat % 2 ^ 32) f.payload
  let neg : BitVec 512 := if r.1 then 0 else maskOf [s.host.pkgnum.toNat]
  let s := r.2
  let kids := s.mcastKids f
  if kids.isEmpty then s.mcastAck f neg
  else
    let w : McastFwd := ⟨f, kids, neg, s.nanos⟩
    let s := { s with mcasts := Tab.put s.mcasts (fwdKey f.src.toNat f.xid.toNat) w }
    kids.foldl (fun (t : State) p => t.sendOut (childFrame f p)) s

/-- FRAME_MULTICAST (R328): the member writes, forwards, and acknowledges once its children have. -/
def execFrameMulticast (fibre : Nat) (f : Frame) (s : State) : Out :=
  .next (s.receive fibre f 6 fun s => s.mcastIn f)

/-- A package has sent nothing for 1 ms after a time: no frame, idle or otherwise, on any plane that joined it to this one (R428);
so is a silent member of a multicast read (log entry 127). -/
def State.silentSince (s : State) (peer since : Nat) : Bool :=
  decide (max since (Tab.get 0 s.heard peer) + 1000000 ≤ s.nanos)

/-- MULTICAST_MEMBER_TIMEOUT (R429): a member silent for 1 ms is negative with its subtree. -/
def execMulticastMemberTimeout (xid child : Nat) (s : State) : Out :=
  .next (
    if xid < 2 ^ 16 then match Tab.find s.xfers xid with
      | none => s
      | some x =>
        if !(x.out.any fun r => r.1 / 2 ^ 32 % 512 == child) then s
        else if !s.silentSince child x.since then s.later (.multicastMemberTimeout xid child)
        else
          let g := match x.kind with
            | .mcast _ _ g _ _ => g
            | _ => 0
          s.mcastChild xid child (s.below g s.host.pkgnum.toNat child)
    else match Tab.find s.mcasts xid with
      | none => s
      | some w =>
        if !w.children.contains child then s
        else if !s.silentSince child w.since then s.later (.multicastMemberTimeout xid child)
        else s.fwdChild xid child (s.below w.f.pcnt.toNat w.f.src.toNat child))

/-! End-to-end acknowledgements. -/

/-- Frames of a long-reach transfer that an acknowledgement covers are no longer resent: how many they were. -/
def State.lrAcked (s : State) (l : Nat) (f : Frame) : Nat × State :=
  let un := (s.lrLink l).unacked
  let mine := un.filter fun w => w.o.f.xid == f.xid && (f.pcnt != 1 || w.o.f.daddr == f.daddr)
  let gone := mine.take f.pcnt.toNat
  (gone.length, s.modLr l fun y => { y with unacked := y.unacked.filter fun w => !gone.contains w })

/-- What an acknowledgement of n frames does to its transfer (R315, R429). -/
def State.ackXfer (s : State) (f : Frame) (n : Nat) : State :=
  let xid := f.xid.toNat
  let code := f.payload.getD 0 0
  match Tab.find s.xfers xid with
  | none => s
  | some x =>
    if f.last then (s.closeXfer xid).discardAt x.launch 0 0 f.daddr (nodeOfSram (f.daddr.toNat % 2 ^ 32))
    else match x.kind with
      | .read k id lane _ off va => (s.closeXfer xid).loadFaultIn k id lane code
          (if code = 1 ∨ code = 2 ∨ code = 3 then va else f.daddr + BitVec.ofNat 56 off)
      | .atom k id _ _ ls => ls.foldl (fun (t : State) l => t.loadFaultIn k id l.lane code
          (if code = 1 ∨ code = 2 ∨ code = 3 then l.va else f.daddr)) (s.closeXfer xid)
      | .chunk id =>
        let s := s.closeXfer xid
        { s with chunks := if code = 0 then s.chunks else Tab.mod s.chunks id fun c => { c with code := code } }.later
          (.chunkArrival id)
      | .mcast .. => s.mcastChild xid f.src.toNat (BitVec.ofNat 512 (leNat f.payload))
      | .command => s
      | .write _ | .send _ | .cbar =>
        let rest := x.relays.filter fun r => !(f.pcnt == 1 && r.2.2 == f.daddr)
        let s := match x.kind with
          | .write k | .send k => if code = 0 then s else s.noteRefused k f.daddr.toNat
          | _ => s
        if x.left ≤ n then s.closeXfer xid
        else { s with xfers := Tab.put s.xfers xid { x with
          left := x.left - n
          relays := rest } }

/-- FRAME_END_TO_END_ACK (R315, R329, R429). -/
def execFrameEndToEndAck (fibre : Nat) (f : Frame) (s : State) : Out :=
  .next (s.receive fibre f 5 fun s =>
    if s.fibreRole fibre = 2 then
      match s.lrAcked (s.placeInRole fibre) f with
      | (n, s) => (match Tab.find s.xfers f.xid.toNat with
        | none => s
        | some x => (match x.kind with
          | .write _ | .send _ => if n = 0 then s else s.ackXfer f n
          | .chunk _ => s
          | _ => s.ackXfer f f.pcnt.toNat))
    else
      let src := f.daddr.toNat / 2 ^ 32 % 512
      if f.payload.length = 64 ∧ src ≠ s.host.pkgnum.toNat then
        s.fwdChild (fwdKey src f.xid.toNat) f.src.toNat (BitVec.ofNat 512 (leNat f.payload))
      else s.ackXfer f f.pcnt.toNat)

/-! Idle frames and replay. -/

/-- An idle frame without a number: it is not one of the sequence, and is never replayed (Table 22-3). On a long-reach link it
takes a counter value like any other frame (R318). -/
def State.receiveIdle (s : State) (fb : Nat) (f : Frame) (act : State → State) : State :=
  if !s.carriesIn fb then s
  else if f.type ≠ 7 then (s.hear fb).badFrame fb
  else act (((s.hear fb).lrReceived fb).ackLink fb f.ack)

/-- The report of a replay (R436): its frames count in selector 3, and a type-8 record is posted, at most one in 1 ms on the
fibre (R420). VALUE is the number after ACK of the request that started it; of a replay that the timer started, the first of the
frames that have been accepted since (log entry 128). -/
def State.replayReport (s : State) (fb n : Nat) : State :=
  let s := s.tick
  let g := s.blameGroup fb true
  let lk := s.link fb
  let s := s.modGrp fb g fun y => { y with replays := y.replays + n }
  let s := (s.modLink fb fun y => { y with
    reqs := y.reqs.tail
    fails := if y.discarding then (s.nanos :: y.fails).take 4 else y.fails }).mayEscalate fb g
  let due := match Tab.find s.fibreRec fb with
    | some t => decide (t + 1000000 ≤ s.nanos)
    | none => true
  if !due then s
  else { s with fibreRec := Tab.put s.fibreRec fb s.nanos }.linkRecord 8 0 fb (16 * g)
    (lk.reqs.headD (lk.expSeq - BitVec.ofNat 16 n)).toNat n

/-- What an idle frame asks and reports (R419, R436): with OF its sender wants the frames after ACK again, with LAST it has
sent some again. -/
def State.idleIn (s : State) (fb : Nat) (f : Frame) : State :=
  let s := if f.ordf then s.resendFrames fb else s
  if f.last then s.replayReport fb f.pcnt.toNat else s

/-- FRAME_IDLE (R315, R419, R436): an acknowledgement, and what the frame asks and reports. -/
def execFrameIdle (fibre : Nat) (f : Frame) (s : State) : Out :=
  .next (s.receiveIdle fibre f fun s => s.idleIn fibre f)

/-- REPLAY_REQUEST (R419): an idle frame; with OF the frames after ACK are sent again. -/
def execReplayRequest (fibre : Nat) (f : Frame) (s : State) : Out :=
  .next (s.receiveIdle fibre f fun s => s.idleIn fibre f)

/-! Relays. -/

/-- RELAY_FORWARD (R310, R311, R427): a relay forwards on the first window, on any plane of the next hop's family, that offers
the next offset; a buffer with an uncorrectable error is dropped, and its source discards the launch (R372, R428). -/
def execRelayForward (id : Nat) (s : State) : Out :=
  .next (match Tab.find s.relays id with
    | none => s
    | some r =>
      if r.bad then { s with relays := Tab.del s.relays id }
      else
      let s := s.tick
      let o : OutFrame := ⟨{ r.f with hop := r.f.hop + 1 }, .short, r.off, 0, [], [], false⟩
      let ready := (s.fibresOf 1).findSome? fun fb => (s.fits fb o).map fun h => (fb, h)
      match (if s.free64.getLsbD 0 then ready else none) with
      | none => s.later (.relayForward id)
      | some (fb, h) => { s with relays := Tab.del s.relays id }.emit fb o h)

/-- The node of the core for which a transfer was sent (R378). -/
def State.nodeOfXfer (s : State) (x : Xfer) : Nat := match x.kind with
  | .write k | .send k | .read k _ _ _ _ _ | .atom k _ _ _ _ | .mcast k _ _ _ _ => nodeOfUnit (unitOf k)
  | .chunk id => (match Tab.find s.chunks id with
    | some c => clusterOf c.core
    | none => nodeControl)
  | _ => nodeControl

/-- RELAY_LOSS_TIMEOUT (R428): a relay silent for 1 ms after it took a frame that still waits for its end-to-end
acknowledgement has lost it; launches with such frames are discarded. -/
def execRelayLossTimeout (peer : Nat) (s : State) : Out :=
  .next (
    let held := s.xfers.filter fun x => x.2.relays.any fun r => r.1 == peer
    let lost := held.filter fun x => x.2.relays.any fun r => r.1 == peer && s.silentSince peer r.2.1
    let nodes := lost.map fun x => (x.2.launch, s.nodeOfXfer x.2)
    let s := lost.foldl (fun (t : State) x => t.closeXfer x.1) s
    let s := nodes.foldl (fun (t : State) x => t.discardAt x.1 3 0 0 x.2) s
    if lost.length < held.length then s.laterOnce (.relayLossTimeout peer) else s)

/-! Completions of module commands (R444). -/

/-- A word of a payload. -/
def payloadWord (f : Frame) (i : Nat) : Word64 := BitVec.ofNat 64 (leNat ((f.payload.drop (8 * i)).take 8))

/-- The module offset that a word of a command names, and the module. -/
def cmdPlace (w : Word64) : Nat × Nat := (w.toNat / 2 ^ 44 % 2 ^ 11, w.toNat % 2 ^ 44)

/-- MCOPY (R255): the bytes read, then written. -/
def State.modCopy (s : State) (m d a n : Nat) : Byte × State :=
  match s.modRead m a n with
  | .error c => (c, s)
  | .ok bs => s.modWrite m d bs .wr

/-- The parts of a range in each page: first offset and bytes. -/
def pageParts (d n : Nat) : List (Nat × Nat) :=
  if n = 0 then [] else
  (List.range ((d + n - 1) / 2 ^ 16 - d / 2 ^ 16 + 1)).map fun i =>
    let lo := max d ((d / 2 ^ 16 + i) * 2 ^ 16)
    (lo, min (d + n) ((d / 2 ^ 16 + i + 1) * 2 ^ 16) - lo)

/-- A whole constant-fill page takes another pattern of 4 bytes: FRAME changes (R102), and D is set (R97). -/
def State.refillPage (s : State) (m page : Nat) (w : Word32) : Byte × State :=
  match s.copyPage m page with
  | (c, s) =>
    if c ≠ 0 then (c, s)
    else
      let l := (s.leaf m page &&& 0xFFFF00000000FFFF) ||| (w.setWidth 64 <<< 16) ||| (1 <<< 52)
      (0, (s.setLeaf m page l).modMod m fun x =>
        { x with badBlocks := x.badBlocks.filter fun b => b / 256 != page })

/-- Fills part after part until one is refused. -/
def State.fillParts (s : State) (m d : Nat) (w : Word64) : List (Nat × Nat) → Byte × State
  | [] => (0, s)
  | (lo, n) :: t =>
    let page := lo / 2 ^ 16
    let r := if n = 2 ^ 16 ∧ leafSt (s.leaf m page) = 3 ∧ w.extractLsb' 0 32 = w.extractLsb' 32 32 then
        s.refillPage m page (w.setWidth 32)
      else s.modWrite m lo ((List.range n).map fun i => BitVec.ofNat 8 (w.toNat / 2 ^ (8 * ((lo + i - d) % 8)))) .wr
    if r.1 ≠ 0 then r else State.fillParts r.2 m d w t

/-- MFILL (R102, R255): an 8-byte pattern. -/
def State.modFill (s : State) (m d n : Nat) (w : Word64) : Byte × State :=
  let c := s.modCheck m d n .wr
  if c ≠ 0 then (c, s) else s.fillParts m d w (pageParts d n)

/-- Op of MRED on two elements (R255): floats round under RNE, integers wrap. -/
def redElement (ty : Ty) (op : MredOp) (x y : Word64) : Word64 :=
  let flt := fun (f : Fmt) =>
    let a := f.decode x.toNat
    let b := f.decode y.toNat
    BitVec.ofNat 64 (f.round .rne 0 false (match op with
      | .add => FV.add false a b
      | .min => FV.minNum a b
      | .max => FV.maxNum a b))
  match ty with
  | .f32 => flt fmtF32
  | .bf16 => flt fmtBf16
  | _ => atomNew ty (match op with
    | .add => .add
    | .min => .min
    | .max => .max) x y

/-- MRED (R98, R255): element by element, in place. -/
def State.modReduce (s : State) (m d a n : Nat) (ty : Ty) (op : MredOp) : Byte × State :=
  let c := s.modCheck m d n .rmw
  if c ≠ 0 then (c, s)
  else match s.modRead m d n, s.modRead m a n with
    | .ok x, .ok y =>
      let w := if ty = .bf16 then 2 else tyBytes ty
      let el := fun (l : List Byte) (i : Nat) => BitVec.ofNat 64 (leNat ((l.drop (i * w)).take w))
      s.modWrite m d (((List.range (n / w)).map fun i =>
        leBytes w (redElement ty op (el x i) (el y i)).toNat).flatten) .rmw
    | .error c, _ => (c, s)
    | _, .error c => (c, s)

/-- MSNAP opens a version in a free slot (R103, R104): the handle, or what R256 returns where there is no slot or no copy
space; an unreachable module gives the latter (R417). The version begins at the page that holds the offset, whatever bit 43 and
bits [15:0] of it are (R103 is silent: DESIGN CHOICE, log entry 109). -/
def State.openVersion (s : State) (m off n : Nat) : Word64 × State :=
  let x := s.modl m
  let free := (List.range 128).filter fun i => x.versions.all fun v => v.slot != i
  let space := Config.copySpace m s.choices
  let s := { s with choices := s.choices + 1 }
  if x.unreachable then (0x8000000000000002, s)
  else match pick free (Config.choose s.choices) with
    | none => (0x8000000000000001, s)
    | some i =>
      if !space then (0x8000000000000002, s)
      else (BitVec.ofNat 64 (2 ^ 55 + m * 2 ^ 44 + 2 ^ 43 + i * 2 ^ 36),
        s.modMod m fun y => { y with versions := y.versions ++ [⟨i, off / 2 ^ 16, n / 2 ^ 16, []⟩] })

/-- MCLOSE releases a handle (R104); one that is not open has no effect. -/
def State.closeVersion (s : State) (m off : Nat) : State :=
  s.modMod m fun y => { y with versions := y.versions.filter fun v => v.slot != off / 2 ^ 36 % 128 }

/-- What a module does for a command: the code, the result, the state. -/
def State.runCmd (s : State) (c : ModCmd) : Byte × Word64 × State :=
  let d := cmdPlace c.w1
  let a := cmdPlace c.w2
  let n := c.w3.toNat
  match c.code with
  | 0 => let r := s.modCopy d.1 d.2 a.2 n; (r.1, 0, r.2)
  | 1 => let r := s.modFill d.1 d.2 n c.w2; (r.1, 0, r.2)
  | 2 => let r := s.modReduce d.1 d.2 a.2 n c.ty c.op; (r.1, 0, r.2)
  | 3 => let r := s.openVersion d.1 d.2 n; (0, r.1, r.2)
  | 4 => (0, 0, s.closeVersion d.1 d.2)
  | 5 => (0, 0, s.reread d.1 (d.2 / 2 ^ 16) n)
  | 6 => (0, 0, s.reread d.1 0 (2 ^ 28))
  | _ => (0, 0, s)

/-- The end of a command: its arrival on its slot, or the end of the instruction that waits for it (R255, R256, R411). -/
def State.cmdDone (s : State) (xid : Nat) (c : ModCmd) (code : Byte) (result : Word64) : State :=
  match c.slot with
  | some b =>
    let s := s.modCrew c.crew fun y => { y with posted := y.posted - 1 }
    if !(match Tab.find s.launches c.launch with
      | some l => l.state == .active
      | none => false) then s
    else
      let a := (s.crew c.crew).slotAddr b.val
      if code = 0 then s.arrive a 1 else s.arriveFault a code (c.w1.setWidth 56)
  | none => match (s.sheaf c.place).block with
    | some (.command b d y) =>
      if y = xid then
        let s := match d with
          | some r => s.writeS c.place r.val result
          | none => s
        (s.modSheaf c.place fun z => { z with block := none }).advance c.place b 8
      else s
    | _ => s

/-- A fibre brings frames from a module: a stripe group that R21 routes from it carries traffic towards the QX9. -/
def State.routesFrom (s : State) (fb m : Nat) : Bool := (s.groupsTo m true).any fun q => q.1 == fb

/-- FRAME_MODULE_COMPLETION (R444): the command is performed once, and arrives once. The type is illegal on another role's fibres
(Table 14-2), and a module's frames come only on the groups that R21 routes from it. -/
def execFrameModuleCompletion (fibre : Nat) (f : Frame) (s : State) : Out :=
  .next (
    if s.fibreRole fibre ≠ 0 then (if s.carriesIn fibre then (s.hear fibre).badFrame fibre else s)
    else if (Tab.find s.modCmds f.xid.toNat).any fun c => !s.routesFrom fibre (cmdPlace c.w1).1 then s
    else s.receive fibre f 9 fun s =>
      let xid := f.xid.toNat
      match Tab.find s.modCmds xid with
      | none => s.closeXfer xid
      | some c =>
        let s := { s.closeXfer xid with modCmds := Tab.del s.modCmds xid }
        match s.runCmd c with
        | (own, res, s) => s.cmdDone xid c (if own ≠ 0 then own else (payloadWord f 0).setWidth 8) res)

end Sys2Proof.Machine
end

