-- ==== Sys2Proof/Machine/EvHeliostat.lean ====
section
/-!
DEFINITION. Events of the Heliostat: continuations depart, arrive and return (R285, R289, R292, R293, R295, R298, R300).
-/

namespace Sys2Proof.Machine

open Sys2Proof

/-- A launch runs. -/
def State.launchActive (s : State) (n : Nat) : Bool := match Tab.find s.launches n with
  | some l => l.state == .active
  | none => false

/-- A continuation is gone. -/
def State.dropCont (s : State) (id : Nat) : State := { s with conts := Tab.del s.conts id }

/-- The place that a continuation has left is freed when nothing else holds it. -/
def State.vacate (s : State) (c : Cont) : State := match c.src with
  | some (k, _) => s.freeVisitor k
  | none => s

/-- A continuation that its issuing slot refuses: its lanes return at once with KIND 3, without the hop. -/
def State.refuseDeparture (s : State) (id : Nat) (c : Cont) (rsn : Nat) : State :=
  let d := { c with kind := 3, rsn := rsn, hops := c.hops - 1 }
  if (s.sheaf c.home).belongs d && c.hops == 0 then (s.dropCont id).applyReturn d
  else { s with conts := Tab.put s.conts id d }.later (.migrationReturn id)

/-- CONTINUATION_DEPART (R123, R289, R293): once every access of its lanes has been performed it is sent, with the registers
read now; a stale one in strict mode refuses it, and one with an uncorrectable error discards the launch (R414). -/
def execContinuationDepart (id : Nat) (s : State) : Out :=
  .next (match Tab.find s.conts id with
    | none => s
    | some c =>
      if !s.launchActive c.launch then s.dropCont id
      else if !s.settled c then s.later (.continuationDepart id)
      else if c.src.any fun p => s.badCarry p.1 c.carry then s.discardAt c.launch 0 0 0 (nodeOfUnit (unitOf c.home))
      else
        let d := s.carriedNow c
        (if d.strict && d.stale then s.refuseDeparture id d 5
        else { s with conts := Tab.put s.conts id d }.later (.continuationArrival id)).vacate c)

/-! Arrival. -/

/-- Where a visiting slot is made: its place, its block for v0 to v63, and its second block. -/
structure Berth where
  place : Nat
  base : Option Nat
  ext : Option Nat
  deriving DecidableEq, Repr

/-- The lowest free visiting slot of a unit. -/
def State.freeVisit (s : State) (unit : Nat) : Option Nat :=
  ((List.range 8).map fun i => unit * 24 + 16 + i).find? fun k => (Tab.find s.sheaves k).isNone

/-- A visiting slot of a core with its blocks (R52). -/
def State.coreBerth (s : State) (core size : Nat) : Option Berth :=
  match s.freeVisit core, poolPlace (s.core core).blocks 64 with
  | some k, some a =>
    if size = 0 then some ⟨k, some a, none⟩
    else (poolPlace (Tab.put (s.core core).blocks a 64) size).map fun e => ⟨k, some a, some e⟩
  | _, _ => none

/-- The leaf entry of an address of a module, and the physical byte. -/
def State.leafAt (s : State) (m off : Nat) : Option Word64 := match s.pageOf m off .rd with
  | .error _ => none
  | .ok (.live pg) => some (s.leaf m pg)
  | .ok (.kept w _) => some w

/-- The unit that R285 selects by a leaf entry: 4 × channel + FRAME[1:0]; 0 for a constant-fill page. -/
def unitFor (w : Word64) (off : Nat) : Nat :=
  if leafSt w = 3 then 0 else 4 * channelOf w (physByte w (off % 2 ^ 16)) + leafFrame w % 4

/-- The next working unit from a number, ascending and wrapping (R285, R415). -/
def Mod.working (x : Mod) (u : Nat) : Option Nat :=
  ((List.range 64).map fun i => (u + i) % 64).find? fun v => !x.badUnits.contains v

/-- The berth that a module gives a continuation, or the reason of its refusal (Table 13-4). What an unreachable module
gives as its reason is open. -/
def State.moduleBerth (s : State) (c : Cont) (size : Nat) : Except Nat Berth :=
  let m := c.dmod
  let off := c.ia % 2 ^ 44
  if (s.modl m).unreachable then .error (if s.free64.getLsbD 0 then 1 else 4)
  else match s.leafAt m off with
    | none => .error 4
    | some w =>
      if leafSt w = 0 then .error 4
      else match (s.modl m).working (if c.frozen.isSome then c.dunit else unitFor w off) with
        | none => .error 1
        | some u => match s.freeVisit (256 + m * 64 + u) with
          | none => .error 1
          | some k => .ok ⟨k, none, if size = 0 then none else some 0⟩

/-- The berth of a continuation. -/
def State.berth (s : State) (c : Cont) : Except Nat Berth :=
  let size := xblkSize c.xblk
  if c.toModule then s.moduleBerth c size
  else match s.coreBerth c.dcore size with
    | some b => .ok b
    | none => .error 1

/-- The paths of a recalled fragment that is refused when it is sent again: its PC slots, the paths on its stack, and the
lanes that wait at its records. -/
def frozenPaths (base : Word64) (f : Frozen) : List (Word64 × Word32) :=
  let live := [f.a, f.b].filter (·.live)
  let start : List (Word64 × Word32) × Word32 × Bool :=
    (live.map fun sl => (sl.pc, sl.mask), (live.map (·.mask)).foldl (· ||| ·) 0, false)
  ((f.fstack.take f.depth).reverse.foldl (fun (acc : List (Word64 × Word32) × Word32 × Bool) w =>
    let m := entryMask w
    let j := entryPc base w
    match entryKind w with
    | 1 => (acc.1 ++ [(j, m)], acc.2.1 ||| m, acc.2.2)
    | 3 => (acc.1, acc.2.1, entryRa w)
    | _ =>
      let rest := m &&& ~~~acc.2.1
      (if rest = 0 then acc.1 else acc.1 ++ [(if acc.2.2 then j else j + 8, rest)], acc.2.1 ||| m, acc.2.2)) start).1

/-- What a refused continuation sends home: KIND 3, one for each path of a recalled fragment. -/
def Cont.refusals (c : Cont) (rsn : Nat) : List Cont :=
  let base : Cont := { c with
    kind := 3
    rsn := rsn
    frozen := none }
  match c.frozen with
  | none => [base]
  | some f => (frozenPaths c.pc f).map fun p =>
    { base with
      pc := p.1
      mask := p.2
      auto := true
      vregs := c.vregs.map fun r => (r.1, r.2.1, vec32 fun L => if p.2.getLsbD L then r.2.2.getD L 0 else 0)
      pregs := c.pregs.map fun r => (r.1, r.2 &&& p.2) }

/-- A continuation is refused (R293). -/
def State.refuseCont (s : State) (id : Nat) (c : Cont) (rsn : Nat) : State :=
  (c.refusals rsn).foldl (fun (t : State) d => match t.freshId with
    | (n, t) => { t with conts := Tab.put t.conts n d }.later (.migrationReturn n)) (s.dropCont id)

/-- The sheaf of a fragment as it arrives: slot A is live at PC on MASK (R293, R295). -/
def visitor (home : Sheaf) (c : Cont) (b : Berth) (g : Gen) : Sheaf :=
  let size := xblkSize c.xblk
  let frag : Frag := ⟨c.home, c.hpkg, c.ctx, c.rtok, c.hgen, c.xgen, c.xblk, c.jpc, c.hops, c.prio, none, c.ia⟩
  { Sheaf.empty with
    launch := c.launch
    span := home.span
    crew := home.crew
    idx := home.idx
    frag := some frag
    baseGen := g
    ext := b.ext.map fun e => ExtBlk.mk e size g
    vbase := b.base
    a := PcSlot.start c.pc c.mask 63
    strict := c.strict
    srnd := c.srnd
    carry := c.carry
    wb := c.wb }

/-- A recalled fragment goes on as it was (Table 7-3, step 7). -/
def Sheaf.thaw (sh : Sheaf) (f : Frozen) : Sheaf :=
  { sh with
    a := f.a
    b := f.b
    lastB := f.lastB
    depth := f.depth
    fstack := f.fstack
    srnd := f.srnd
    qnv := f.qnv
    homePc := f.homePc
    noMig := f.noMig
    redepart := f.redepart }

/-- The registers of an arriving fragment: its carried ones (R61), or all that a recalled fragment held. -/
def State.landRegs (s : State) (k : Nat) (c : Cont) : State :=
  match c.frozen with
  | none =>
    let s := c.vregs.foldl (fun (t : State) r => t.writeV k r.1 c.mask (fun L => r.2.2.getD L 0) r.2.1) s
    let s := c.sregs.foldl (fun (t : State) r => t.writeS k r.1 r.2) s
    c.pregs.foldl (fun (t : State) r => t.writeP k r.1 c.mask r.2) s
  | some f =>
    let s := f.vcells.foldl (fun (t : State) r =>
      t.writeV k r.1 0xFFFFFFFF (fun L => r.2.data.getD L 0) r.2.fmt) s
    let s := f.scells.foldl (fun (t : State) r => t.writeS k r.1 r.2) s
    f.pcells.foldl (fun (t : State) r => t.writeP k r.1 0xFFFFFFFF r.2) s

/-- A continuation is accepted (R293): blocks, a visiting generation, registers; lines of its context are discarded (R117).
None while no generation can be issued. -/
def State.land (s : State) (id : Nat) (c : Cont) (b : Berth) : Option State :=
  match s.issueGen (genKey b.place) with
  | none => none
  | some (g, s) =>
    let k := b.place
    let s := s.dropCont id
    let s := match b.base with
      | none => s
      | some a => s.modCore (unitOf k) fun y =>
        let t := Tab.put y.blocks a 64
        { y with blocks := match b.ext with
            | none => t
            | some e => Tab.put t e (xblkSize c.xblk) }
    let sh := visitor (s.sheaf c.home) c b g
    let sh := match c.frozen with
      | none => sh
      | some f => sh.thaw f
    let s := (s.setSheaf k sh).landRegs k c
    let s := if nearMem k then s else s.dropCtx (unitOf k) c.ctx
    some (if s.stopped c.home then s.recallFrag k else s)

/-- CONTINUATION_ARRIVAL (R285, R293): accepted or refused at its destination. -/
def execContinuationArrival (id : Nat) (s : State) : Out :=
  .next (match Tab.find s.conts id with
    | none => s
    | some c =>
      if !s.launchActive c.launch then s.dropCont id
      else match s.berth c with
        | .error r => s.tick.refuseCont id c r
        | .ok b => match s.land id c b with
          | some t => t
          | none => s.later (.continuationArrival id))

/-! Return. -/

/-- MIGRATION_RETURN (R123, R298): once every access of its lanes has been performed a return is applied at home. -/
def execMigrationReturn (id : Nat) (s : State) : Out :=
  .next (match Tab.find s.conts id with
    | none => s
    | some c =>
      if !s.launchActive c.launch then s.dropCont id
      else if !s.settled c then s.later (.migrationReturn id)
      else ((s.dropCont id).applyReturn (s.carriedNow c)).vacate c)

end Sys2Proof.Machine
end

