-- ==== Sys2Proof/Machine/Crypto.lean ====
section
/-!
DEFINITION. The algorithms of the standards that the spec names and whose inputs the QX9 has (R1): SHA3-256 (R349, Table
15-2), the CRC-32 of IEEE 802.3 (R314), and AES-256-GCM (R318). Blocks and digests are lists of bytes in the order in
which they are stored.
-/

namespace Sys2Proof.Machine

open Sys2Proof

/-- A number as n bytes, the most significant first. -/
def beBytes (n x : Nat) : List Byte := (List.range n).map fun i => BitVec.ofNat 8 (x / 2 ^ (8 * (n - 1 - i)))

/-- The number of bytes of which the first is most significant. -/
def beNat (bs : List Byte) : Nat := bs.foldl (fun n b => 256 * n + b.toNat) 0

/-! SHA3-256. -/

/-- The round constants of Keccak-f[1600]. -/
def keccakRc : List (BitVec 64) :=
  [0x0000000000000001, 0x0000000000008082, 0x800000000000808A, 0x8000000080008000, 0x000000000000808B, 0x0000000080000001,
   0x8000000080008081, 0x8000000000008009] ++
  [0x000000000000008A, 0x0000000000000088, 0x0000000080008009, 0x000000008000000A, 0x000000008000808B, 0x800000000000008B,
   0x8000000000008089, 0x8000000000008003] ++
  [0x8000000000008002, 0x8000000000000080, 0x000000000000800A, 0x800000008000000A, 0x8000000080008081, 0x8000000000008080,
   0x0000000080000001, 0x8000000080008008]

/-- The rotation of each lane, lane (x, y) at x + 5y. -/
def keccakRot : List Nat :=
  [0, 1, 62, 28, 27, 36, 44, 6, 55, 20, 3, 10, 43, 25, 39, 41, 45, 15, 21, 8, 18, 2, 61, 56, 14]

/-- One round of Keccak-f[1600] on 25 lanes. -/
def keccakRound (a : List (BitVec 64)) (rc : BitVec 64) : List (BitVec 64) :=
  let g := fun (l : List (BitVec 64)) (x y : Nat) => l.getD (x % 5 + 5 * (y % 5)) 0
  let c := (List.range 5).map fun x => g a x 0 ^^^ g a x 1 ^^^ g a x 2 ^^^ g a x 3 ^^^ g a x 4
  let d := (List.range 5).map fun x => c.getD ((x + 4) % 5) 0 ^^^ (c.getD ((x + 1) % 5) 0).rotateLeft 1
  let t := (List.range 25).map fun i => a.getD i 0 ^^^ d.getD (i % 5) 0
  let b := (List.range 25).map fun i =>
    let x := (i % 5 + 3 * (i / 5)) % 5
    let y := i % 5
    (g t x y).rotateLeft (keccakRot.getD (x + 5 * y) 0)
  (List.range 25).map fun i =>
    let v := g b (i % 5) (i / 5) ^^^ (~~~(g b (i % 5 + 1) (i / 5)) &&& g b (i % 5 + 2) (i / 5))
    if i = 0 then v ^^^ rc else v

/-- The permutation. -/
def keccak (a : List (BitVec 64)) : List (BitVec 64) := keccakRc.foldl keccakRound a

/-- A block of 136 bytes enters the sponge. -/
def absorb (a : List (BitVec 64)) (block : List Byte) : List (BitVec 64) :=
  keccak ((List.range 25).map fun i =>
    a.getD i 0 ^^^ BitVec.ofNat 64 (beNat (((block.drop (8 * i)).take 8).reverse)))

/-- A message padded to whole blocks. -/
def sha3Pad (m : List Byte) : List Byte :=
  let n := 136 - m.length % 136
  if n = 1 then m ++ [0x86] else m ++ [0x06] ++ List.replicate (n - 2) 0 ++ [0x80]

/-- SHA3-256 of a message: 32 bytes. -/
def sha3 (m : List Byte) : List Byte :=
  let p := sha3Pad m
  let a := (List.range (p.length / 136)).foldl (fun s i => absorb s ((p.drop (136 * i)).take 136)) (List.replicate 25 0)
  ((a.take 4).map fun w => (beBytes 8 w.toNat).reverse).flatten

/-! CRC-32. -/

/-- One bit of the CRC register, the polynomial of IEEE 802.3 reflected. -/
def crcBit (c : Word32) : Word32 := if c.getLsbD 0 then (c >>> 1) ^^^ 0xEDB88320 else c >>> 1

/-- One byte. -/
def crcByte (c : Word32) (b : Byte) : Word32 := (List.range 8).foldl (fun x _ => crcBit x) (c ^^^ b.setWidth 32)

/-- The CRC-32 of bytes. -/
def crc32 (bs : List Byte) : Word32 := ~~~(bs.foldl crcByte 0xFFFFFFFF)

/-! AES-256. -/

/-- The product by x in the field of AES. -/
def xtime (a : Byte) : Byte := if a.getLsbD 7 then (a <<< 1) ^^^ 0x1B else a <<< 1

/-- The product in the field of AES. -/
def aesMul (a b : Byte) : Byte :=
  ((List.range 8).foldl (fun (r : Byte × Byte) i => (if b.getLsbD i then r.1 ^^^ r.2 else r.1, xtime r.2)) (0, a)).1

/-- The inverse, a to the power 254; of 0 it is 0. -/
def aesInv (a : Byte) : Byte :=
  ((List.range 7).foldl (fun (r : Byte × Byte) _ => let q := aesMul r.2 r.2; (aesMul r.1 q, q)) (1, a)).1

/-- The substitution of one byte. -/
def aesSub (a : Byte) : Byte :=
  let b := aesInv a
  b ^^^ b.rotateLeft 1 ^^^ b.rotateLeft 2 ^^^ b.rotateLeft 3 ^^^ b.rotateLeft 4 ^^^ 0x63

/-- Bytes combined. -/
def xorBytes (a b : List Byte) : List Byte := a.zipWith (· ^^^ ·) b

/-- The key schedule: words of four bytes, to a number of them. -/
def aesWords : Nat → List (List Byte) → Byte → List (List Byte)
  | 0, ws, _ => ws
  | n + 1, ws, rc =>
    let i := ws.length
    let p := ws.getD (i - 1) []
    let q := if i % 8 = 0 then xorBytes ((p.drop 1 ++ p.take 1).map aesSub) [rc, 0, 0, 0]
      else if i % 8 = 4 then p.map aesSub else p
    aesWords n (ws ++ [xorBytes (ws.getD (i - 8) []) q]) (if i % 8 = 0 then xtime rc else rc)

/-- The fifteen round keys of a 32-byte key. -/
def aesKeys (key : List Byte) : List (List Byte) :=
  let ws := aesWords 52 ((List.range 8).map fun i => (key.drop (4 * i)).take 4) 1
  (List.range 15).map fun r => ((ws.drop (4 * r)).take 4).flatten

/-- Row r of the state moves left by r. -/
def shiftRows (s : List Byte) : List Byte := (List.range 16).map fun i => s.getD ((i + 4 * (i % 4)) % 16) 0

/-- Each column is multiplied by the fixed polynomial. -/
def mixColumns (s : List Byte) : List Byte :=
  (List.range 16).map fun i =>
    let g := fun (j : Nat) => s.getD (4 * (i / 4) + (i + j) % 4) 0
    xtime (g 0) ^^^ (xtime (g 1) ^^^ g 1) ^^^ g 2 ^^^ g 3

/-- The encryption of a block of 16 bytes under round keys. -/
def aesBlock (ks : List (List Byte)) (b : List Byte) : List Byte :=
  let s := (List.range 13).foldl (fun s r => xorBytes (mixColumns (shiftRows (s.map aesSub))) (ks.getD (r + 1) []))
    (xorBytes b (ks.getD 0 []))
  xorBytes (shiftRows (s.map aesSub)) (ks.getD 14 [])

/-! GCM. -/

/-- The product in the field of GCM, whose bit 0 is the most significant. -/
def gcmMul (x y : BitVec 128) : BitVec 128 :=
  ((List.range 128).foldl (fun (r : BitVec 128 × BitVec 128) i =>
    (if x.getMsbD i then r.1 ^^^ r.2 else r.1,
      if r.2.getLsbD 0 then (r.2 >>> 1) ^^^ ((0xE1 : BitVec 128) <<< 120) else r.2 >>> 1)) (0, y)).1

/-- Bytes as blocks of 16, the last one padded with zeros. -/
def blocks16 (bs : List Byte) : List (List Byte) :=
  (List.range ((bs.length + 15) / 16)).map fun i =>
    let b := (bs.drop (16 * i)).take 16
    b ++ List.replicate (16 - b.length) 0

/-- The hash of GCM under H. -/
def ghash (h : BitVec 128) (bs : List (List Byte)) : BitVec 128 :=
  bs.foldl (fun y b => gcmMul (y ^^^ BitVec.ofNat 128 (beNat b)) h) 0

/-- The counter block of a nonce. -/
def gcmCtr (nonce : List Byte) (n : Nat) : List Byte := nonce ++ beBytes 4 n

/-- AES-256-GCM of a 32-byte key, a 12-byte nonce, data to be authenticated, and a payload: the payload encrypted, and the
16-byte tag. -/
def aesGcm (key nonce aad payload : List Byte) : List Byte × List Byte :=
  let ks := aesKeys key
  let stream := ((List.range ((payload.length + 15) / 16)).map fun i => aesBlock ks (gcmCtr nonce (i + 2))).flatten
  let ct := xorBytes payload stream
  let h := BitVec.ofNat 128 (beNat (aesBlock ks (List.replicate 16 0)))
  let lens := beBytes 8 (8 * aad.length) ++ beBytes 8 (8 * payload.length)
  let t := ghash h (blocks16 aad ++ blocks16 ct ++ [lens])
  (ct, xorBytes (beBytes 16 t.toNat) (aesBlock ks (gcmCtr nonce 1)))

end Sys2Proof.Machine
end

