-- ==== Sys2Proof/Machine/Layout.lean ====
section
/-!
DEFINITION. How what travels is laid out as bits: frames and their images (R314, R318), the codewords that carry them (R313),
and the record of a continuation (R288). Steps work on the fields; these definitions say which bytes stand for them.
-/

namespace Sys2Proof.Machine

open Sys2Proof

/-! Frames (R314). -/

/-- The header of a frame, Table 14-2. -/
def frameHeader (f : Frame) : BitVec 256 :=
  f.daddr ++ (f.baddr ++ (f.fval ++ (f.seq ++ (f.ack ++ (f.src ++ (f.dst ++ (f.type ++ (f.hop ++ (f.len ++
    (BitVec.ofBool f.ordf ++ (BitVec.ofBool f.last ++ (f.path ++ (f.np ++ (f.pcnt ++ (f.xid ++ (f.ctx ++
      (0 : BitVec 5)))))))))))))))))

/-- The fields of a header, with a payload. -/
def frameOfHeader (h : BitVec 256) (payload : List Byte) : Frame :=
  { daddr := h.extractLsb' 200 56
    baddr := h.extractLsb' 144 56
    fval := h.extractLsb' 112 32
    seq := h.extractLsb' 96 16
    ack := h.extractLsb' 80 16
    src := h.extractLsb' 71 9
    dst := h.extractLsb' 62 9
    type := h.extractLsb' 58 4
    hop := h.extractLsb' 56 2
    len := h.extractLsb' 53 3
    ordf := h.getLsbD 52
    last := h.getLsbD 51
    path := h.extractLsb' 49 2
    np := h.extractLsb' 47 2
    pcnt := h.extractLsb' 31 16
    xid := h.extractLsb' 15 16
    ctx := h.extractLsb' 5 10
    payload := payload }

/-- A header that is not discarded: its TYPE is not reserved, and its reserved field is zero (R314). -/
def headerOk (h : BitVec 256) : Bool := decide ((h.extractLsb' 58 4).toNat < 10) && h.extractLsb' 0 5 == 0

/-- A payload padded to 256 bytes. -/
def padded (bs : List Byte) : List Byte := bs.take 256 ++ List.replicate (256 - bs.length) 0

/-- The 292 bytes of a frame on a memory or rotor fibre: header, payload and CRC-32 (log entry 104). -/
def frameImage (f : Frame) : List Byte :=
  let b := leBytes 32 (frameHeader f).toNat ++ padded f.payload
  b ++ leBytes 4 (crc32 b).toNat

/-- The frame that 292 bytes stand for; none where they are discarded and counted as an uncorrectable frame (R314). -/
def frameOfImage (bs : List Byte) : Option Frame :=
  let b := bs.take 288
  let h : BitVec 256 := BitVec.ofNat 256 (leNat (b.take 32))
  if bs.length = 292 ∧ leNat (bs.drop 288) = (crc32 b).toNat ∧ headerOk h then
    some (frameOfHeader h ((b.drop 32).take (32 * ((h.extractLsb' 53 3).toNat + 1))))
  else none

/-- The nonce of a long-reach frame (R318): the key epoch, followed by the frame counter. -/
def lrNonce (epoch : Word32) (ctr : Word64) : BitVec 96 := epoch ++ ctr

/-- The 308 bytes of a frame on a long-reach link (R314, R318): the header authenticated, the payload encrypted, the tag after
the payload, and CRC-32, under the key and the counter of the sending direction. -/
def State.lrImage (s : State) (l : Nat) (f : Frame) : List Byte :=
  let y := s.lrLink l
  let h := leBytes 32 (frameHeader f).toNat
  let r := aesGcm ((List.range 32).map (Config.linkKey l true y.epoch)) (beBytes 12 (lrNonce y.epoch y.txCtr).toNat) h
    (padded f.payload)
  let b := h ++ r.1 ++ r.2
  b ++ leBytes 4 (crc32 b).toNat

/-! Codewords (R313). -/

/-- Symbols of a codeword, of 10 bits each. -/
def rsSymbols : Nat := 510

/-- Symbols of data. -/
def rsData : Nat := 450

/-- Data bits of a codeword. -/
def rsDataBits : Nat := 10 * rsData

/-- Symbols of a codeword on each active wavelength. -/
def rsPerWave : Nat := 34

/-- A codeword with e erased and s erroneous symbols is corrected. -/
def correctable (e s : Nat) : Bool := decide (2 * s + e ≤ rsSymbols - rsData)

/-- The erased symbols of the codewords of a stripe group: the positions of its ERASED wavelengths that no spare carries (R313,
R421, R422). -/
def State.erasedSymbols (s : State) (fibre g : Nat) : Nat := rsPerWave * (s.uncovered fibre g).length

/-- The erroneous symbols of a codeword of a group on each wavelength that carries symbols: free, at most 34. -/
def State.codewordErrors (s : State) (fibre g : Nat) : List (Nat × Nat) :=
  ((wavesOf g).filter fun w => (s.wave fibre w).lit).map fun w =>
    (w, Config.symbolErrors s.frees w % (rsPerWave + 1))

/-- The erasure search on a codeword (R421): the wavelengths whose 34 symbols, marked as erasures, make it decodable; none
where the codeword decodes as it stands. -/
def State.erasureSearch (s : State) (fibre g : Nat) : Option (List Nat) :=
  let es := s.codewordErrors fibre g
  let n := (es.map (·.2)).sum
  let e := s.erasedSymbols fibre g
  if correctable e n then none
  else some ((es.filter fun p => correctable (e + rsPerWave) (n - p.2)).map (·.1))

/-- Where a bit of the frames of one direction, laid end to end, travels: the stripe group, of those of the direction taken in
turn, the codeword of that group, and the data bit of the codeword. -/
def laidAt (groups : List Nat) (b : Nat) : Nat × Nat × Nat :=
  let c := b / rsDataBits
  (groups.getD (c % groups.length) 0, c / groups.length, b % rsDataBits)

/-! Continuations (R288). -/

/-- The bits of a mask at the positions of a list of registers. -/
def positions {w : Nat} (m : BitVec w) (rs : List Nat) (n : Nat) : BitVec n :=
  BitVec.ofNat n (((List.range n).map fun i => if (rs[i]?).any (fun r => m.getLsbD r) then 2 ^ i else 0).sum)

/-- The header of a continuation, Table 13-3. -/
def Cont.header (c : Cont) : BitVec 512 :=
  let vs := c.vregs.map (·.1)
  let ss := c.sregs.map (·.1)
  c.pc ++ (c.srnd ++ (c.mask ++ (c.rtok ++ (c.hgen ++ (c.xgen ++ (c.jpc ++ (BitVec.ofNat 10 c.ctx ++ (c.hpkg ++
    (BitVec.ofNat 8 (unitOf c.home) ++ (BitVec.ofNat 4 (slotOf c.home) ++ (BitVec.ofBool c.strict ++
    (BitVec.ofNat 2 c.prio ++ (BitVec.ofNat 2 c.xblk ++ (BitVec.ofNat 3 c.hops ++ (BitVec.ofNat 3 c.kind ++
    (BitVec.ofNat 3 c.rsn ++ (BitVec.ofNat 5 vs.length ++ (BitVec.ofNat 4 ss.length ++ (c.carry.p ++
    (positions c.wb.v vs 16 ++ (positions c.wb.s ss 8 ++ (c.wb.p ++ ((0 : BitVec 4) ++ (c.fcode ++ (c.faddr ++
    ((if c.toModule then 1 else 0 : BitVec 2) ++ (BitVec.ofNat 11 c.dmod ++ (BitVec.ofNat 6 c.dunit ++
    (BitVec.ofNat 8 c.dcore ++ (0 : BitVec 69))))))))))))))))))))))))))))))

/-- The bytes of a continuation: header, register codes, format tags, predicates, scalars, and the lanes of each vector
register. -/
def Cont.bytes (c : Cont) : List Byte :=
  let fill := fun (n : Nat) (bs : List Byte) => bs.take n ++ List.replicate (n - bs.length) 0
  let tags := ((c.vregs.mapIdx fun i v => v.2.1.toNat * 16 ^ i).sum)
  leBytes 64 c.header.toNat ++
    fill 16 (c.vregs.map fun v => BitVec.ofNat 8 v.1) ++ leBytes 8 tags ++
    fill 8 (c.sregs.map fun r => BitVec.ofNat 8 (0xC0 + r.1)) ++
    ((List.range 7).map fun i => leBytes 4 ((((c.pregs.find? fun p => p.1 == i).map (·.2)).getD 0) &&& c.mask).toNat).flatten ++
    List.replicate 4 0 ++ fill 64 ((c.sregs.map fun r => leBytes 8 r.2.toNat).flatten) ++
    (c.vregs.map fun v => ((lanesOf c.mask).map fun L => leBytes 4 (v.2.2.getD L 0).toNat).flatten).flatten

end Sys2Proof.Machine
end

