-- ==== Sys2Proof/Machine/EvOptics.lean ====
section
/-!
DEFINITION. Optics: rotor planes and domain time (R305 to R307, R426), wavelengths, erasures, sparing and retirement (R418,
R421 to R423), retraining (R424), the Theodolites (R425), and long-reach links (R318, R319, R353, R430 to R433).
-/

namespace Sys2Proof.Machine

open Sys2Proof

/-! Wavelengths of a stripe group. -/

/-- The dark wavelength of a group. -/
def State.darkOf (s : State) (f g : Nat) : Option Nat := (wavesOf g).find? fun w => (s.wave f w).state == .dark

/-- The Theodolite of a fibre's engine is held (R425). -/
def State.heldFibre (s : State) (f : Nat) : Bool := (s.theo (f / 8)).held

/-- The stripe groups of an engine. -/
def groupsOfEngine (e : Nat) : List (Nat × Nat) :=
  ((List.range 8).map fun i => (List.range 8).map fun g => (8 * e + i, g)).flatten

/-- The deferred actions of a fibre's engine still wait (R425): it is held, or back only after 250 ms with forced retrains of its
groups to come first. -/
def State.settling (s : State) (f : Nat) : Bool :=
  s.heldFibre f || (groupsOfEngine (f / 8)).any fun g => (s.grp g.1 g.2).owed

/-- A bias rise beyond 1.5 T (R423). -/
def State.aged (s : State) (f w : Nat) : Bool :=
  (s.wave f w).lit && decide (3 * thresholdOf f w < 2 * (s.wave f w).rise)

/-- WAVELENGTH_WINDOW_END (R418): the symbols corrected in a window of 1 ms. -/
def execWavelengthWindowEnd (fibre wl corrected : Nat) (s : State) : Out :=
  .next (
    let w := s.wave fibre wl
    if !w.lit ∨ 128 ≤ fibre ∨ 128 ≤ wl then s
    else
      let s := s.modGrp fibre (wl / 16) fun y => { y with corrected := y.corrected + corrected }
      if w.state = .active then
        if 1024 < corrected then
          (s.modWave fibre wl fun y => { y with state := .degraded, quiet := 0 }).linkRecord 5 0 fibre wl corrected 0
        else s
      else
        let q := if corrected ≤ 128 then w.quiet + 1 else 0
        if 100 ≤ q then s.modWave fibre wl fun y => { y with state := .active, quiet := 0 }
        else s.modWave fibre wl fun y => { y with quiet := q })

/-- UNCORRECTABLE_CODEWORD (R313, R421): a codeword of the group has more errors than it corrects, its errors being free; the
erasure search runs on it, and every wavelength whose erasure makes 3 of the last 4 such codewords decodable is declared. -/
def execUncorrectableCodeword (fibre group : Nat) (s : State) : Out :=
  .next (
    if 128 ≤ fibre ∨ 8 ≤ group then s
    else
      let s := s.tick
      match s.erasureSearch fibre group with
      | none => s
      | some ws =>
        let s := (s.modLink fibre fun y => { y with badGroup := some group }).modGrp fibre group fun y =>
          { y with search := (ws :: y.search).take 4 }
        let last := (s.grp fibre group).search
        ((wavesOf group).filter fun w => decide (3 ≤ (last.filter fun l => l.contains w).length)).foldl
          (fun (t : State) w => t.laterOnce (.erasureDeclare fibre w)) s)

/-- LOSS_OF_LOCK (R421, R424): the wavelength is declared erased; two in one group force a retrain. -/
def execLossOfLock (fibre wl : Nat) (s : State) : Out :=
  .next (
    if !(s.wave fibre wl).lit ∨ 128 ≤ fibre ∨ 128 ≤ wl then s
    else
      let s := (s.modWave fibre wl fun y => { y with lost := true }).later (.erasureDeclare fibre wl)
      let n := ((wavesOf (wl / 16)).filter fun w => (s.wave fibre w).lost && !(s.wave fibre w).covered).length
      if 2 ≤ n then s.laterOnce (.forcedRetrain fibre (wl / 16)) else s)

/-- The next retrain slot of a group: on a rotor fibre a guard, else a slot in which a spare lights or does not (R316, R422). -/
def State.slotSoon (s : State) (f g : Nat) : State :=
  if s.fibreRole f = 1 then s.laterOnce (.rotorSlotBoundary (s.placeInRole f))
  else s.tick.later (.retrainSlot f g (s.free64.getLsbD 0))

/-- ERASURE_DECLARE (R418, R421, R422): the wavelength is erased; two uncovered ones put the group out of service. -/
def execErasureDeclare (fibre wl : Nat) (s : State) : Out :=
  .next (
    if !(s.wave fibre wl).lit ∨ 128 ≤ fibre ∨ 128 ≤ wl then s
    else
      let g := wl / 16
      let s := (s.modWave fibre wl fun y => { y with state := .erased }).modGrp fibre g fun y =>
        { y with declaredAt := some s.nanos }
      let s := s.linkRecord 6 0 fibre wl (s.grp fibre g).uncorr 0
      let s := s.slotSoon fibre g
      if 2 ≤ (s.uncovered fibre g).length then s.groupOut fibre g false else s)

/-- The dark wavelength of a group takes the symbol positions of another; a type-7 record (R422). -/
def State.spare (s : State) (f g old : Nat) : State :=
  match s.darkOf f g with
  | none => s
  | some d =>
    let s := s.modWave f old fun y => { y with covered := true }
    let s := s.modWave f d fun y => { y with state := .active, carries := some old, quiet := 0, rise := 0, lost := false }
    s.linkRecord 7 0 f old 0 d

/-- The dark wavelength of a group fails to light: it is erased, and carried nothing (R422). -/
def State.spareFails (s : State) (f g : Nat) : State :=
  match s.darkOf f g with
  | none => s
  | some d => (s.modWave f d fun y => { y with state := .erased, covered := true }).linkRecord 6 0 f d 0 0

/-- Sparing and then retirement of a group (R422 to R424); the Bool tells whether one of them took place. -/
def State.spareAndRetire (s : State) (f g : Nat) (lit : Bool) : Bool × State :=
  match s.uncovered f g, s.darkOf f g with
  | w :: _, some _ =>
    if !lit then (false, s.spareFails f g)
    else
      let s := s.spare f g w
      let s := if (s.grp f g).oos ∧ (s.uncovered f g).length < 2 ∧ (s.grp f g).forcedFails < 3 then s.groupIn f g else s
      (true, s)
  | [], some _ => (match (wavesOf g).find? fun w => s.aged f w with
    | none => (false, s)
    | some w =>
      if !lit then (false, s.spareFails f g)
      else (true, ((s.modWave f w fun y => { y with state := .erased }).linkRecord 6 0 f w 0 0).spare f g w))
  | _, none => (false, s)

/-- The requested split of a fibre: groups towards the QX9 (R20). -/
def State.splitOf (s : State) (f : Nat) : Nat := if s.fibreRole f = 0 then (Tab.get 4 s.host.split f).toNat % 8 else 4

/-- The domain time that the retrain slots of a fibre follow (R307). -/
def State.slotTime (s : State) (f : Nat) : Nat :=
  if s.fibreRole f = 2 then ((s.nanos : Int) + (s.lrLink (s.placeInRole f)).offset).toNat else s.nanos

/-- The number of the retrain slot of a group that is open now, its last moment included (R316, R438). -/
def State.openSlot (s : State) (f g : Nat) : Option Nat :=
  let t := s.slotTime f
  let start := 5000 * (8 * f + g)
  if start ≤ t % 100000000 ∧ t % 100000000 ≤ start + 5000 then some (t / 100000000) else none

/-- RETRAIN_SLOT (R316, R424): sparing, retirement, re-tuning, direction; `lit` tells whether a spare lights. Outside
the group's slot, or in one that it has used, it waits for the slot; while the engine is held its actions wait for a later slot (R425). -/
def execRetrainSlot (fibre group : Nat) (lit : Bool) (s : State) : Out :=
  .next (
    if s.fibreRole fibre = 1 ∨ 128 ≤ fibre ∨ 8 ≤ group then s
    else if s.openSlot fibre group = none ∨ s.openSlot fibre group = (s.grp fibre group).slotUsed then
      s.laterOnce (.retrainSlot fibre group lit)
    else if s.settling fibre then s.later (.retrainSlot fibre group lit)
    else match s.spareAndRetire fibre group lit with
      | (did, s) =>
        let want := decide (group < s.splitOf fibre)
        let turn := (s.grp fibre group).towards != want
        let s := s.modGrp fibre group fun y => { y with
          towards := want
          retrains := y.retrains + 1
          slotUsed := s.openSlot fibre group }
        let s := if did || turn then
            s.linkRecord 9 0 fibre (16 * group) (s.grp fibre group).retrains (s.towards fibre)
          else s
        if turn then (match s.moduleOfGroup fibre group with
          | some m => s.checkReach m
          | none => s)
        else s)

/-- LINK_ESCALATION (R421): a frame sent 4 times within 100 µs with no wavelength declared. -/
def execLinkEscalation (fibre group : Nat) (s : State) : Out :=
  .next (if 128 ≤ fibre ∨ 8 ≤ group ∨ !s.escalates fibre group then s else s.laterOnce (.forcedRetrain fibre group))

/-- FORCED_RETRAIN (R424): the group carries no frames until it ends. A group out of service takes one only as part of a recovery
(R425). -/
def execForcedRetrain (fibre group : Nat) (s : State) : Out :=
  .next (
    if (s.grp fibre group).retraining ∨ ((s.grp fibre group).oos ∧ !(s.grp fibre group).owed) ∨ 128 ≤ fibre ∨ 8 ≤ group then s
    else
      let s := (s.modGrp fibre group fun y => { y with retraining := true }).tick
      s.later (.forcedRetrainEnd fibre group (s.free64.getLsbD 0)))

/-- FORCED_RETRAIN_END (R424): a record; replay resumes, or after three failures in a row the group goes out of service. -/
def execForcedRetrainEnd (fibre group : Nat) (ok : Bool) (s : State) : Out :=
  .next (
    if !(s.grp fibre group).retraining then s
    else
      let s := s.modGrp fibre group fun y => { y with
        retraining := false
        owed := false
        retrains := y.retrains + 1
        forcedFails := if ok then 0 else y.forcedFails + 1 }
      let s := s.linkRecord 9 0 fibre (16 * group) (s.grp fibre group).retrains (s.towards fibre)
      if ok then
        let s := (wavesOf group).foldl (fun (t : State) w =>
          if (t.wave fibre w).lit then t.modWave fibre w fun y => { y with lost := false } else t) s
        (s.resendFrames fibre).pokeFrames
      else if 3 ≤ (s.grp fibre group).forcedFails then s.groupOut fibre group true
      else s.later (.forcedRetrain fibre group))

/-- LASER_AGEING_THRESHOLD (R423): the bias rise of a wavelength; deferred while the engine is held (R425). -/
def execLaserAgeingThreshold (fibre wl rise : Nat) (s : State) : Out :=
  .next (
    let w := s.wave fibre wl
    let t := thresholdOf fibre wl
    if !w.lit ∨ 128 ≤ fibre ∨ 128 ≤ wl then s
    else if s.settling fibre then s.later (.laserAgeingThreshold fibre wl rise)
    else
      let s := s.modWave fibre wl fun y => { y with rise := rise }
      let s := if s.aged fibre wl then s.slotSoon fibre (wl / 16) else s
      if t < rise ∧ w.agedArmed then
        (s.modWave fibre wl fun y => { y with agedArmed := false }).linkRecord 10 0 fibre wl rise t
      else if 10 * rise < 9 * t then s.modWave fibre wl fun y => { y with agedArmed := true }
      else s)

/-! Theodolites. -/

/-- THEODOLITE_WATCHDOG_RESET (R425): the engine is held; three resets within 1 s put its groups out of service. -/
def execTheodoliteWatchdogReset (engine : Nat) (s : State) : Out :=
  .next (
    if 16 ≤ engine then s
    else
      let times := s.nanos :: ((s.theo engine).resets.filter fun t => decide (s.nanos < t + 1000000000))
      let s := s.modTheo engine fun y =>
        { y with
          held := true
          since := if y.held then y.since else s.nanos
          resets := times.take 3 }
      let s := s.linkRecord 11 0 (8 * engine) 0 0 engine
      if 3 ≤ times.length then
        (groupsOfEngine engine).foldl (fun (t : State) g => t.groupOut g.1 g.2 true) s
      else s)

/-- THEODOLITE_RECOVERED (R425): after more than 250 ms every group of the engine takes a forced retrain. -/
def execTheodoliteRecovered (engine : Nat) (s : State) : Out :=
  .next (
    let y := s.theo engine
    if !y.held then s
    else
      let s := (s.modTheo engine fun z => { z with held := false }).linkRecord 11 1 (8 * engine) 0 0 engine
      if y.since + 250000000 < s.nanos then
        (groupsOfEngine engine).foldl (fun (t : State) g =>
          (t.modGrp g.1 g.2 fun z => { z with owed := true }).laterOnce (.forcedRetrain g.1 g.2)) s
      else s)

/-! Rotor planes. -/

/-- A group of a rotor fibre has something to spare or to retire. -/
def State.guardWork (s : State) (f : Nat) : List Nat :=
  (List.range 8).filter fun g => (s.darkOf f g).isSome && (s.uncovered f g != [] || (wavesOf g).any fun w => s.aged f w)

/-- A plane is in the guard that opens a slot (R305). -/
def State.inGuard (s : State) (p : Nat) : Bool := decide (cyclePos p (s.planeTime p) % 10200 < 200)

/-- The groups of a rotor fibre may be spared or retired in a guard (R316, R422, R424); each waits for a guard that suits, and only
one in which either took place counts as a retrain. -/
def State.guardRetrains (s : State) (f : Nat) : State :=
  (s.guardWork f).foldl (fun (t : State) g =>
    let t := t.tick
    if !t.free64.getLsbD 0 then t
    else match t.spareAndRetire f g (t.free64.getLsbD 1) with
      | (false, t) => t
      | (true, t) =>
        let t := t.modGrp f g fun y => { y with retrains := y.retrains + 1 }
        t.linkRecord 9 0 f (16 * g) (t.grp f g).retrains (t.towards f)) s

/-- A window has ended: where none of its frames was acknowledged, the plane was silent in it (R426); they wait for another
(R419). -/
def State.windowEnds (s : State) (p f : Nat) : State :=
  if (s.link f).retained = [] then s
  else
    (s.modPlane p fun y => { y with
      silent := if y.acked then none else some (s.nanos, 64 * (p / 5) + y.slotNo % 64) }).requeuePlane p

/-- ROTOR_SLOT_BOUNDARY (R305, R306, R316, R419, R422): a window has ended, and its frames not acknowledged wait for another; in
a guard groups may be spared or retired, and a family-0 plane in its idle slot measures its delay. -/
def execRotorSlotBoundary (plane : Nat) (s : State) : Out :=
  .next (match s.planeFibre plane with
    | none => s
    | some f =>
      let waiting := (s.link f).retained != [] && (s.plane plane).slotNo == slotNumber plane (s.planeTime plane)
      let s := if waiting then s else s.windowEnds plane f
      let s := s.tick
      let s := if plane < 5 ∧ planeOffset plane (s.planeTime plane) = 0 then
          { s with host := { s.host with
              delay := Tab.set 0 s.host.delay plane ((s.free64 &&& 0xFFFFFFFF00000000) |||
                (Tab.get 0 s.host.delay plane &&& 0xFFFF0000)) } }.tick
        else s
      let s := if s.inGuard plane && !s.settling f then s.guardRetrains f else s
      if waiting || s.guardWork f != [] then s.laterOnce (.rotorSlotBoundary plane) else s)

/-- GUARD_BEACON (R307): while the optics train, the engine locks to a plane's beacons and measures its delay, and the first beacon
sets domain time; later ones correct it. -/
def execGuardBeacon (plane cycle slot domain : Nat) (s : State) : Out :=
  .next (match s.planeFibre plane with
    | none => s
    | some _ =>
      let s := if s.host.cur = 1 ∧ s.host.training ∧ (Tab.find s.host.delay plane).isNone then
          { s with host := { s.host with
              delay := Tab.set 0 s.host.delay plane (Config.fibreDelay plane &&& 0xFFFFFFFFFFFF0000) } }
        else s
      let t := 652800 * cycle + 130560 * (plane % 5) + 10200 * slot + s.halfTrip plane
      if s.host.cur = 1 ∧ s.host.training then
        let first := (List.range 40).all fun p => (s.plane p).domain.isNone
        let s := s.modPlane plane fun y => { y with domain := some domain }
        if first then { s with nanos := t } else s
      else if 2 ≤ s.host.cur ∧ (s.plane plane).domain = some domain ∧ !(s.plane plane).whole then { s with nanos := t }
      else s)

/-- The frames that a plane sent during a data window have received no link acknowledgement (R426): the window that is open, or one
that ended at most 50 µs ago; a matching fails by its own window. -/
def State.unheard (s : State) (p f : Nat) (offset : Option Nat) : Bool :=
  let is := fun (o : Nat) => offset.all (· == o)
  let y := s.plane p
  let t := s.planeTime p
  ((s.link f).retained != [] && !y.acked && y.slotNo == slotNumber p t && is (planeOffset p t)) ||
    y.silent.any fun q => decide (s.nanos ≤ q.1 + 50000) && is q.2

/-- ROTOR_PLANE_FAILURE (R426): the guard's probe failed, or the receiver reports loss of light, after a window without
acknowledgement. -/
def execRotorPlaneFailure (plane : Nat) (offset : Option Nat) (s : State) : Out :=
  .next (match s.planeFibre plane with
    | none => s
    | some f => if s.unheard plane f offset then s.failPlane plane offset else s)

/-- ROTOR_PLANE_RESTORE (R426): the probes have succeeded in 10 slots since the failure: a record, and frames may go there again,
where groups carry both directions. -/
def execRotorPlaneRestore (plane : Nat) (offset : Option Nat) (s : State) : Out :=
  .next (match s.planeFibre plane with
    | none => s
    | some f =>
      let known := match offset with
        | none => (s.plane plane).whole
        | some o => (s.plane plane).offs.contains o
      if !known ∨ s.liveGroups f true = [] ∨ s.liveGroups f false = [] then s
      else if slotNumber plane (s.planeTime plane) < (s.plane plane).failedSlot + 10 then s.laterOnce (.rotorPlaneRestore plane offset)
      else
        let s := s.modPlane plane fun y => match offset with
          | none => { y with whole := false }
          | some o => { y with offs := y.offs.filter (· != o) }
        (s.linkRecord 13 1 f 0 (offset.getD 0xFFFF) plane).pokeFrames)

/-! Long-reach links. -/

/-- The transfer that a long-reach frame serves still waits, and its launch runs: the bytes that a resend reads again from
its source (R319). -/
def State.rereadSource (s : State) (o : OutFrame) : List Byte :=
  (o.src.map fun va => match s.ctxRead o.f.ctx.toNat va 32 with
    | .ok bs => bs
    | .error _ => []).flatten

/-- A frame as it is resent. -/
def State.resent (s : State) (o : OutFrame) : OutFrame :=
  let bs := if o.src = [] then o.f.payload else s.rereadSource o
  { o with f := { o.f with payload := if bs.length = o.f.payload.length then bs else o.f.payload } }

/-- LR_RETRY_TIMEOUT (R319, R432): frames without end-to-end acknowledgement are resent; after 4 resends the link is lost. -/
def execLrRetryTimeout (link : Nat) (s : State) : Out :=
  .next (match s.linkFibre link with
    | none => s
    | some f =>
      let y := s.lrLink link
      if y.state ≠ .trained ∨ y.unacked = [] then s
      else
        let late := y.unacked.filter fun w => decide (w.sent + w.timeout ≤ s.nanos) &&
          !(s.outq.any fun o => o.f.xid == w.o.f.xid && o.f.daddr == w.o.f.daddr && decide (o.route = .link link))
        if late = [] then s.later (.lrRetryTimeout link)
        else if late.any fun w => decide (4 ≤ w.resends) then s.loseLink link
        else
          let s := s.modLr link fun z => { z with
            retries := z.retries + late.length
            unacked := z.unacked.map fun w => if late.contains w then { w with resends := w.resends + 1 } else w }
          let s := { s with outq := (late.map fun (w : LrWait) => s.resent w.o) ++ s.outq }.pokeFrames
          let due := match y.lastRec0 with
            | some t => decide (t + 1000000 ≤ s.nanos)
            | none => true
          let s := if due then (s.linkRecord 12 0 f 0 late.length link).modLr link fun z =>
              { z with lastRec0 := some s.nanos }
            else s
          s.later (.lrRetryTimeout link))

/-- LR_ACK_TIMEOUT (R432): 100 ms without any link acknowledgement. -/
def execLrAckTimeout (link : Nat) (s : State) : Out :=
  .next (match s.linkFibre link with
    | none => s
    | some f =>
      let y := s.lrLink link
      if y.state = .lost ∨ (s.link f).retained = [] then s
      else if s.nanos < y.ackAt + 100000000 then s.later (.lrAckTimeout link)
      else s.loseLink link)

/-- LR_TRAINING_ATTEMPT (R431, R432): a link that is not trained tries again every 10 ms; one that fails stays as it is, with a
record unless its loss was reported. -/
def execLrTrainingAttempt (link : Nat) (ok : Bool) (s : State) : Out :=
  .next (match s.linkFibre link with
    | none => s
    | some f =>
      let y := s.lrLink link
      if y.state = .trained ∨ s.host.cur < 2 then s
      else if s.nanos < y.tryAt then s.later (.lrTrainingAttempt link ok)
      else
        let s := s.tick
        if ok then
          let key := (List.range 32).map fun i => Tab.get 0 s.host.lrpeer (32 * link + i)
          let far : BitVec 256 := if s.free64.getLsbD 0 then BitVec.ofNat 256 (leNat key)
            else BitVec.ofNat 256 (s.tick.free64.toNat)
          let s := s.tick.tick
          s.later (.lrLinkTrained link far (s.free64.toNat % 2 ^ 32))
        else
          let s := if y.state = .untrained then s.linkRecord 12 2 f 0 0 link else s
          (s.modLr link fun z => { z with tryAt := s.nanos + 10000000 }).later
            (.lrTrainingAttempt link (s.free64.getLsbD 1)))

/-- LR_LINK_TRAINED (R318, R353, R430): the far key must hash to LRPEER; keys of a new epoch; resends start again from the
oldest frame (R432), and count as any other. The slots of the link follow the domain time of the end with the lower DEVID
(R307). -/
def execLrLinkTrained (link : Nat) (keyHash : BitVec 256) (rtt : Nat) (s : State) : Out :=
  .next (match s.linkFibre link with
    | none => s
    | some f =>
      let y := s.lrLink link
      let key := (List.range 32).map fun i => Tab.get 0 s.host.lrpeer (32 * link + i)
      if y.state = .trained ∨ s.host.cur < 2 then s
      else if keyHash ≠ BitVec.ofNat 256 (leNat key) then
        let s := s.tick
        ((s.modLr link fun z => { z with
          state := .untrained
          tryAt := s.nanos + 10000000 }).linkRecord 12 2 f 0 0 link).later
            (.lrTrainingAttempt link (s.free64.getLsbD 0))
      else
        let s := s.modLr link fun z =>
          { z with
            state := .trained
            epoch := z.epoch + 1
            txCtr := 0
            rxEpoch := z.rxEpoch + 1
            rxCtr := 0
            rtt := rtt
            offset := if Config.devId.toNat ≤ (Config.linkDev link).toNat then 0 else Config.linkOffset link
            ackAt := s.nanos
            unacked := z.unacked.map fun w => { w with resends := 0 } }
        let again := (s.lrLink link).unacked.filter fun w =>
          !(s.outq.any fun o => o.f.xid == w.o.f.xid && o.f.daddr == w.o.f.daddr && decide (o.route = .link link))
        let s := s.modLr link fun z => { z with retries := z.retries + again.length }
        { s with outq := (again.map fun (w : LrWait) => s.resent w.o) ++ s.outq }.pokeFrames)

/-- A transfer has frames to a long-reach link, or awaits answers from there. -/
def Xfer.overLink (x : Xfer) (l : Nat) : Bool := x.out.any fun r => r.1 / 2 ^ 32 == 2 ^ 16 + 512 + l

/-- LR_LOSS_DISCARD (R432): a link not back within 1 s: launches with unacknowledged frames on it are discarded, those that
wait for their turn, for a link acknowledgement or for an answer among them. -/
def execLrLossDiscard (link : Nat) (s : State) : Out :=
  .next (
    let y := s.lrLink link
    if y.state = .trained then s
    else if s.nanos < y.lostAt + 1000000000 then s.later (.lrLossDiscard link)
    else
      let lost := s.xfers.filter fun x => x.2.launch != 0 && x.2.overLink link
      let nodes := lost.map fun x => (x.2.launch, s.nodeOfXfer x.2)
      let mine := fun (o : OutFrame) => decide (o.route = .link link) && o.launch != 0
      let s := s.modLr link fun z => { z with unacked := z.unacked.filter fun w => !mine w.o }
      let s := { s with outq := s.outq.filter fun o => !mine o }
      let s := match s.linkFibre link with
        | none => s
        | some f => s.modLink f fun z => { z with retained := z.retained.filter fun o => !mine o }
      let s := lost.foldl (fun (t : State) x => t.closeXfer x.1) s
      nodes.foldl (fun (t : State) x => t.discardAt x.1 3 0 0 x.2) s)

/-- LR_REKEY (R318): a direction agrees a new key; its counter starts again. -/
def execLrRekey (link : Nat) (out : Bool) (s : State) : Out :=
  .next (s.modLr link fun y =>
    if y.state ≠ .trained then y
    else if out then (if y.txCtr.toNat < 2 ^ 31 then y else { y with epoch := y.epoch + 1, txCtr := 0 })
    else if y.rxCtr.toNat < 2 ^ 31 then y
    else { y with rxEpoch := y.rxEpoch + 1, rxCtr := 0 })

/-- LR_DEDUP_EXPIRY (R433): a pair is kept for 1.2 s. -/
def execLrDedupExpiry (link : Nat) (xid : BitVec 16) (daddr : BitVec 56) (s : State) : Out :=
  .next (
    let mine := fun (p : BitVec 16 × BitVec 56 × Nat) => p.1 == xid && p.2.1 == daddr
    match (s.lrLink link).dedup.find? mine with
    | none => s
    | some p =>
      if s.nanos < p.2.2 + 1200000000 then s.later (.lrDedupExpiry link xid daddr)
      else s.modLr link fun y => { y with dedup := y.dedup.filter fun q => !mine q })

end Sys2Proof.Machine
end

