-- ==== Sys2Proof/Machine/EvModule.lean ====
section
/-!
DEFINITION. Events of modules (R415 to R417), the end of a discard (R373, R374, R378), thermal and power excursions (R385).
-/

namespace Sys2Proof.Machine

open Sys2Proof

/-! Module faults. -/

/-- The node of a module's records (R378). -/
def State.nodeOfModule (s : State) (m : Nat) : Nat :=
  match (s.fibresOf 0).find? fun f => (List.range 8).any fun g => s.moduleOfGroup f g == some m with
  | some f => nodeOfFibre f
  | none => nodeControl

/-- Posts a module record to every valid context. -/
def State.moduleRecord (s : State) (m sub value : Nat) : State :=
  s.postAll 14 sub (s.nodeOfModule m) (linkForm 0 0 value m)

/-- The fragments of a list of places are lost: their home launches are discarded (R410). -/
def State.loseFrags (s : State) (places : List Nat) : State :=
  places.foldl (fun (t : State) k => match (t.sheaf k).frag with
    | some f => t.discardAt (t.sheaf k).launch 3 0 0 (clusterOf (unitOf f.home))
    | none => t) s

/-- A command that waits for an unreachable module ends: its barrier faults, MSNAP has its code (R417), PGINV completes. -/
def State.loseCmd (s : State) (xid : Nat) (c : ModCmd) : State :=
  let s := { s.closeXfer xid with
    modCmds := Tab.del s.modCmds xid
    outq := s.outq.filter fun (o : OutFrame) => o.f.xid.toNat != xid }
  if c.code = 3 then s.cmdDone xid c 0 0x8000000000000002
  else if c.code = 5 ∨ c.code = 6 then s.cmdDone xid c 0 0
  else s.cmdDone xid c 0x21 0

/-- The chunks in flight of an unreachable module fault (R415): no frame of theirs is awaited any more. -/
def State.loseChunks (s : State) (m : Nat) : State :=
  let hit := (s.chunks.filter fun p => p.2.code == 0 && !p.2.landed && decide (2 ^ 55 ≤ p.2.ia) &&
    p.2.ia / 2 ^ 44 % 2 ^ 11 == m).map (·.1)
  let s := { s with
    chunks := s.chunks.map fun (p : Nat × Chunk) => if hit.contains p.1 then (p.1, { p.2 with code := 0x21 }) else p }
  let out := s.xfers.filterMap fun p => match p.2.kind with
    | .chunk id => if hit.contains id then some (p.1, id) else none
    | _ => none
  out.foldl (fun (t : State) p => ({ t.closeXfer p.1 with
    outq := (t.closeXfer p.1).outq.filter fun o => o.f.xid.toNat != p.1 }).later (.chunkArrival p.2)) s

/-- A module becomes unreachable (R415, SUB 3): its versions are lost (R417), chunks and commands in flight fault. -/
def State.loseModule (s : State) (m : Nat) : State :=
  let s := s.modMod m fun x => { x with unreachable := true, versions := [] }
  let s := s.loseChunks m
  let s := (s.modCmds.filter fun p => (cmdPlace p.2.w1).1 == m).foldl (fun (t : State) p => t.loseCmd p.1 p.2) s
  s.loseFrags ((s.sheaves.map (·.1)).filter fun k => nearMem k && moduleOf k == m)

/-- MODULE_FAULT (Table 20-7). A persist that is under way fails for a flash error. -/
def execModuleFault (m sub addr unit : Nat) (s : State) : Out :=
  .next (
    if !s.mapped m then s
    else match sub with
      | 0 => (s.modMod m fun x =>
          if x.badBlocks.contains (addr / 256) then x else { x with badBlocks := addr / 256 :: x.badBlocks }).moduleRecord m 0 0x22
      | 1 =>
        let s := if s.host.invarSt = 1 ∧ s.host.invarCmd = 2 then
            { s with host := { s.host with invarSt := 3, invarFc := 0x22, invarCmd := 0 } }
          else s
        s.moduleRecord m 1 0x22
      | 2 => s.moduleRecord m 2 0x15
      | 3 => if (s.modl m).unreachable then s else (s.loseModule m).moduleRecord m 3 0x21
      | 4 =>
        if 64 ≤ unit ∨ (s.modl m).badUnits.contains unit then s
        else
          let s := s.modMod m fun x => { x with badUnits := unit :: x.badUnits }
          let s := s.loseFrags ((s.sheaves.map (·.1)).filter fun k => unitOf k == 256 + m * 64 + unit)
          s.moduleRecord m 4 (0x21 + 256 * unit)
      | _ => s)

/-- MODULE_RECOVERED (Table 20-7, SUB 5): a module that was unreachable is reachable again. -/
def execModuleRecovered (m : Nat) (s : State) : Out :=
  .next (if !(s.modl m).unreachable then s
    else (s.modMod m fun x => { x with unreachable := false }).moduleRecord m 5 0x21)

/-! The end of a discard. -/

/-- Something that a launch sent has not landed (Table 18-4, step 5). -/
def State.stillOut (s : State) (n : Nat) : Bool :=
  (s.chunks.any fun p => !p.2.landed && (s.crew p.2.crew).launch == n) || s.xfers.any fun p => p.2.launch == n

/-- DISCARD_RELEASE (Table 18-4, steps 5 and 6): once all that the launch sent has landed, what it holds is released, its
contained-fault record is posted, and then its completion record. -/
def execDiscardRelease (n : Nat) (s : State) : Out :=
  .next (match Tab.find s.launches n with
    | none => s
    | some l =>
      if l.state ≠ .discarding then s
      else if s.stillOut n then s.later (.discardRelease n)
      else
        let gone := s.gov.leaves.filter fun (x : Leave) => match x.for_ with
          | .tensor _ _ m => m == n
          | _ => false
        let s := gone.foldl (fun (t : State) x => t.endLeave x.for_) s
        let s := { s with chunks := s.chunks.filter fun p => (s.crew p.2.crew).launch != n }
        let s := (s.spans.filter fun p => p.2.launch == n).foldl (fun (t : State) p => t.releaseSpan p.1) s
        let lo : Word64 := BitVec.ofNat 64 ((if l.sub = 1 then l.kind.toNat else 0) * 2 ^ 56) ||| l.faddr.setWidth 64
        let s := s.post 2 l.sub l.ctx l.node (payload2 (BitVec.ofNat 64 n) lo)
        s.endLaunch n true)

/-! Thermal and power excursions (Table 18-10). -/

/-- Posts a thermal or power record to every valid context. -/
def State.heatRecord (s : State) (sub value : Nat) : State := s.postAll 15 sub nodeControl (linkForm 0 0 value 0)

/-- THERMAL_WARNING: a sensor above 95 °C; the governor's limit is 2,700 W. -/
def execThermalWarning (temp : Nat) (s : State) : Out :=
  .next (if temp ≤ 95000 then s else { s with warm := true }.heatRecord 0 temp)

/-- THERMAL_THROTTLE: a sensor above 100 °C; no new leave, and half the issue. -/
def execThermalThrottle (temp : Nat) (s : State) : Out :=
  .next (if temp ≤ 100000 then s else { s with warm := true, throttled := true }.heatRecord 1 temp)

/-- THERMAL_RECOVER: all sensors below 90 °C after SUB 0 or 1. -/
def execThermalRecover (temp : Nat) (s : State) : Out :=
  .next (if 90000 ≤ temp ∨ !(s.warm || s.throttled) then s
    else { s with warm := false, throttled := false }.heatRecord 2 temp)

/-- POWER_EXCURSION: power above 3,150 W over 1 ms; no new leave. -/
def execPowerExcursion (power : Nat) (s : State) : Out :=
  .next (if power ≤ 3150000 then s
    else { s with excursion := true, gov := { s.gov with power := power } }.heatRecord 3 power)

/-- POWER_EXCURSION_END: power below 3,000 W; leave is granted again. -/
def execPowerExcursionEnd (power : Nat) (s : State) : Out :=
  .next (if 3000000 ≤ power ∨ !s.excursion then s
    else { s with excursion := false, gov := { s.gov with power := power } })

/-- THERMAL_SHUTDOWN: a sensor above 110 °C, or a supply fault; every launch is discarded with SUB 5, dependents before those
that they depend on, and the package resets to COLD once their records are posted. -/
def execThermalShutdown (temp : Nat) (s : State) : Out :=
  .next (
    (s.discardEvery 5 |>.heatRecord 4 temp).later .coldReset)

end Sys2Proof.Machine
end

