-- ==== Sys2Proof/Machine/Signature.lean ====
section
/-!
DEFINITION. ML-DSA-44 (R1, R348, R349, R351) with an empty context string: key generation, signing and verification, over lists of
256 coefficients modulo q, and the SHAKE functions that it draws from.
-/

namespace Sys2Proof.Machine

open Sys2Proof

/-! SHAKE. -/

/-- A message padded for SHAKE to whole blocks of a rate. -/
def shakePad (rate : Nat) (m : List Byte) : List Byte :=
  let n := rate - m.length % rate
  if n = 1 then m ++ [0x9F] else m ++ [0x1F] ++ List.replicate (n - 2) 0 ++ [0x80]

/-- Blocks that the sponge gives. -/
def squeeze (rate : Nat) : Nat → List (BitVec 64) → List Byte
  | 0, _ => []
  | n + 1, a => ((a.take (rate / 8)).map fun w => leBytes 8 w.toNat).flatten ++ squeeze rate n (keccak a)

/-- The first n bytes of SHAKE of a message: SHAKE128 has the rate 168, SHAKE256 the rate 136. -/
def shake (rate : Nat) (m : List Byte) (n : Nat) : List Byte :=
  let p := shakePad rate m
  let a := (List.range (p.length / rate)).foldl (fun s i => absorb s ((p.drop (rate * i)).take rate)) (List.replicate 25 0)
  (squeeze rate ((n + rate - 1) / rate) a).take n

/-- SHAKE256, the H of ML-DSA. -/
def mlH (m : List Byte) (n : Nat) : List Byte := shake 136 m n

/-! The ring. -/

/-- The modulus q. -/
def mlQ : Nat := 8380417

/-- A polynomial: 256 coefficients below q. -/
abbrev Poly := List Nat

/-- A signed number modulo q. -/
def modQ (x : Int) : Nat := (x % 8380417).toNat

/-- The representative of r modulo m in the half-open interval around 0. -/
def centred (r m : Nat) : Int := if 2 * (r % m) ≤ m then (r % m : Nat) else ((r % m : Nat) : Int) - m

/-- The powers of the root of unity 1753. -/
def zetaPowers : Array Nat :=
  ((List.range 512).foldl (fun (p : Array Nat × Nat) _ => (p.1.push p.2, p.2 * 1753 % mlQ)) (#[], 1)).1

/-- The exponent of the point at which entry i of a transform is taken. -/
def pointExp (i : Nat) : Nat :=
  2 * ((List.range 8).map fun b => if i.testBit b then 2 ^ (7 - b) else 0).sum + 1

/-- The number-theoretic transform: the values at the points. -/
def ntt (w : Poly) : Poly := (List.range 256).map fun i =>
  let x := zetaPowers.getD (pointExp i) 0
  w.foldr (fun c r => (c + x * r) % mlQ) 0

/-- Its inverse. -/
def nttInv (v : Poly) : Poly :=
  let es := (List.range 256).map fun i => 512 - pointExp i
  (List.range 256).map fun j =>
    8347681 * ((v.zip es).foldl (fun r p => (r + p.1 * zetaPowers.getD (p.2 * j % 512) 0) % mlQ) 0) % mlQ

def polyAdd (a b : Poly) : Poly := a.zipWith (fun x y => (x + y) % mlQ) b
def polySub (a b : Poly) : Poly := a.zipWith (fun x y => (x + mlQ - y) % mlQ) b
def polyMul (a b : Poly) : Poly := a.zipWith (fun x y => x * y % mlQ) b

/-- The zero polynomial. -/
def polyZero : Poly := List.replicate 256 0

/-- A matrix times a vector, both transformed. -/
def matVec (a : List (List Poly)) (v : List Poly) : List Poly :=
  a.map fun r => (r.zipWith polyMul v).foldl polyAdd polyZero

/-- The largest absolute value of the coefficients of a vector. -/
def normInf (v : List Poly) : Nat := (v.flatten.map fun c => (centred c mlQ).natAbs).foldl max 0

/-! Bytes. -/

/-- Coefficients of w bits each, the first one lowest. -/
def packBits (w : Nat) (l : List Nat) : List Byte := leBytes (32 * w) (l.foldr (fun c n => c + 2 ^ w * n) 0)

/-- The 256 coefficients of w bits each. -/
def unpackBits (w : Nat) (bs : List Byte) : List Nat :=
  let n := leNat bs
  (List.range 256).map fun i => n / 2 ^ (w * i) % 2 ^ w

/-- Bytes n·i onwards, n of them, for each i below k. -/
def cutBytes (k n : Nat) (bs : List Byte) : List (List Byte) := (List.range k).map fun i => (bs.drop (n * i)).take n

/-! Sampling. -/

/-- The matrix of a public seed, transformed. -/
def expandA (rho : List Byte) : List (List Poly) :=
  (List.range 4).map fun r => (List.range 4).map fun c =>
    let bs := shake 168 (rho ++ [BitVec.ofNat 8 c, BitVec.ofNat 8 r]) 1008
    (((cutBytes 336 3 bs).map fun t => leNat t % 2 ^ 23).filter (· < mlQ)).take 256

/-- A polynomial with coefficients from -2 to 2. -/
def smallPoly (rho : List Byte) (r : Nat) : Poly :=
  let bs := mlH (rho ++ leBytes 2 r) 544
  (((bs.map fun b => [b.toNat % 16, b.toNat / 16]).flatten.filter (· < 15)).take 256).map fun x => modQ (2 - (x % 5 : Nat))

/-- The mask of an attempt. -/
def expandMask (rho : List Byte) (kappa : Nat) : List Poly :=
  (List.range 4).map fun r => (unpackBits 18 (mlH (rho ++ leBytes 2 (kappa + r)) 576)).map fun x => modQ (2 ^ 17 - (x : Nat))

/-- The challenge: 39 coefficients of 1 or -1. The bytes beyond the first 8 choose the places. -/
def challenge (seed : List Byte) : Poly :=
  let bs := mlH seed 408
  let signs := leNat (bs.take 8)
  ((List.range 39).foldl (fun (p : Poly × List Byte) t =>
    let i := 217 + t
    let rest := p.2.dropWhile fun b => decide (i < b.toNat)
    let j := (rest.headD 0).toNat
    ((p.1.set i (p.1.getD j 0)).set j (if signs.testBit t then mlQ - 1 else 1), rest.tail)) (polyZero, bs.drop 8)).1

/-! Rounding. -/

/-- The high and low parts of a coefficient: 2γ₂ is 190464. -/
def decompose (r : Nat) : Nat × Int :=
  let r0 := centred r 190464
  if (r : Int) - r0 = 8380416 then (0, r0 - 1) else ((((r : Int) - r0) / 190464).toNat, r0)

/-- The high part that a hint corrects. -/
def useHint (h : Bool) (r : Nat) : Nat :=
  match decompose r with
  | (r1, r0) => if !h then r1 else if 0 < r0 then (r1 + 1) % 44 else (r1 + 43) % 44

/-- The bytes of high parts. -/
def highBytes (v : List Poly) : List Byte := (v.map (packBits 6)).flatten

/-- The bytes of hints: the places of each polynomial, then how many there are up to its end. -/
def hintBytes (h : List (List Bool)) : List Byte :=
  let places := h.map fun l => (List.range 256).filter fun i => l.getD i false
  let all := places.flatten
  (all ++ List.replicate (80 - all.length) 0).map (BitVec.ofNat 8) ++
    (List.range 4).map fun i => BitVec.ofNat 8 ((places.take (i + 1)).flatten.length)

/-- A list rises strictly. -/
def rises : List Nat → Bool
  | a :: b :: t => decide (a < b) && rises (b :: t)
  | _ => true

/-- The hints of 84 bytes; none where they are not in their one form. -/
def hintsOf (bs : List Byte) : Option (List (List Bool)) :=
  let y := bs.map (·.toNat)
  let ends := 0 :: y.drop 80
  let parts := (List.range 4).map fun i => ((y.take (ends.getD (i + 1) 0)).drop (ends.getD i 0))
  if (List.range 4).all (fun i => decide (ends.getD i 0 ≤ ends.getD (i + 1) 0 ∧ ends.getD (i + 1) 0 ≤ 80)) && parts.all rises &&
      ((y.take 80).drop (ends.getD 4 0)).all (· == 0) then
    some (parts.map fun p => (List.range 256).map fun i => p.contains i)
  else none

/-! Key pairs. -/

/-- A key pair: the public seed, the seed of signatures, the hash of the public key, the secret vectors, transformed, and the
public key of 1,312 bytes. -/
structure MlKey where
  rho : List Byte
  seed : List Byte
  tr : List Byte
  s1 : List Poly
  s2 : List Poly
  t0 : List Poly
  pk : List Byte
  deriving DecidableEq, Repr

/-- The key pair of a seed of 32 bytes. -/
def mlKeyGen (xi : List Byte) : MlKey :=
  let g := mlH (xi ++ [4, 4]) 128
  let rho := g.take 32
  let small := (g.drop 32).take 64
  let s1 := (List.range 4).map (smallPoly small)
  let s2 := (List.range 4).map fun r => smallPoly small (r + 4)
  let t := (matVec (expandA rho) (s1.map ntt)).zipWith (fun a b => polyAdd (nttInv a) b) s2
  let low := t.map fun p => p.map fun (c : Nat) => modQ (centred c 8192)
  let high := t.map fun p => p.map fun (c : Nat) => (((c : Int) - centred c 8192) / 8192).toNat
  let pk := rho ++ (high.map (packBits 10)).flatten
  ⟨rho, g.drop 96, mlH pk 64, s1.map ntt, s2.map ntt, low.map ntt, pk⟩

/-! Signatures. -/

/-- The representative of a message, under an empty context string. -/
def mlMu (tr m : List Byte) : List Byte := mlH (tr ++ [0, 0] ++ m) 64

/-- One attempt at a signature; none where it is rejected. -/
def mlAttempt (k : MlKey) (a : List (List Poly)) (mu rho : List Byte) (kappa : Nat) : Option (List Byte) :=
  let y := expandMask rho kappa
  let w := (matVec a (y.map ntt)).map nttInv
  let seed := mlH (mu ++ highBytes (w.map fun p => p.map fun c => (decompose c).1)) 32
  let c := ntt (challenge seed)
  let times := fun (v : List Poly) => v.map fun p => nttInv (polyMul c p)
  let z := y.zipWith polyAdd (times k.s1)
  let r := w.zipWith polySub (times k.s2)
  let t := times k.t0
  let h := (r.zip t).map fun p => (p.1.zip p.2).map fun q =>
    decide ((decompose ((q.1 + q.2) % mlQ)).1 ≠ (decompose q.1).1)
  if 2 ^ 17 - 78 ≤ normInf z ∨ (r.any fun p => p.any fun x => decide (95232 - 78 ≤ (decompose x).2.natAbs)) ∨
      95232 ≤ normInf t ∨ 80 < (h.flatten.filter id).length then none
  else some (seed ++ (z.map fun p => packBits 18 (p.map fun x => (2 ^ 17 - centred x mlQ).toNat)).flatten ++ hintBytes h)

/-- Attempts until one succeeds; the fuel bounds them. -/
def mlAttempts (k : MlKey) (a : List (List Poly)) (mu rho : List Byte) : Nat → Nat → List Byte
  | 0, _ => []
  | n + 1, kappa => match mlAttempt k a mu rho kappa with
    | some s => s
    | none => mlAttempts k a mu rho n (kappa + 4)

/-- The signature of a message, of 2,420 bytes, with 32 bytes of randomness. -/
def mlSign (k : MlKey) (m rnd : List Byte) : List Byte :=
  let mu := mlMu k.tr m
  mlAttempts k (expandA k.rho) mu (mlH (k.seed ++ rnd ++ mu) 64) 1024 0

/-- A signature of a message is one of a public key. -/
def mlVerify (pk m sig : List Byte) : Bool :=
  let z := (cutBytes 4 576 (sig.drop 32)).map fun b => (unpackBits 18 b).map fun x => modQ (2 ^ 17 - (x : Nat))
  match hintsOf (sig.drop 2336) with
  | none => false
  | some h =>
    let t1 := (cutBytes 4 320 (pk.drop 32)).map fun b => (unpackBits 10 b).map fun x => x * 8192 % mlQ
    let c := ntt (challenge (sig.take 32))
    let w := (matVec (expandA (pk.take 32)) (z.map ntt)).zipWith (fun a t => nttInv (polySub a (polyMul c (ntt t)))) t1
    let w1 := (w.zip h).map fun p => (p.1.zip p.2).map fun q => useHint q.2 q.1
    decide (pk.length = 1312 ∧ sig.length = 2420 ∧ normInf z < 2 ^ 17 - 78) &&
      sig.take 32 == mlH (mlMu (mlH pk 64) m ++ highBytes w1) 32

/-! The keys of a package (R348, R349). -/

/-- Wohal's key pair; the package holds its public key. -/
def wohalKey : MlKey := mlKeyGen ((List.range 32).map Config.wohalSeed)

/-- The package's key pair. -/
def deviceKey : MlKey := mlKeyGen ((List.range 32).map Config.deviceSeed)

/-- The certificate: the package's public key signed with Wohal's key. -/
def certificate : List Byte := mlSign wohalKey deviceKey.pk ((List.range 32).map Config.certRandom)

end Sys2Proof.Machine
end

