-- ==== Sys2Proof/Machine/EvHost.lean ====
section
/-!
DEFINITION. Events of bring-up, the host port and the control die (R334 to R353): reset and the states of Table 15-4, contexts,
the SRAM window, registers, checkpoint, persist and restore, quotes.
-/

namespace Sys2Proof.Machine

open Sys2Proof

def State.modHost (s : State) (f : HostPort → HostPort) : State := { s with host := f s.host }

/-! Bring-up (Table 15-4). -/

/-- COLD_RESET (R339, R340): everything is as after cold reset, in COLD; memory of the modules is not the package's. -/
def execColdReset (s : State) : Out :=
  .next (if s.host.cur = 4 && s.launches.any fun p => p.2.state == .discarding then s.later .coldReset else { State.reset with
    images := s.images
    host := { HostPort.init with cur := 0 }
    mem := s.mem.filter fun c => decide (2 ^ 48 ≤ c.1)
    mods := s.mods
    frees := s.frees
    choices := s.choices
    due := [Event.identityEntry] })

/-- IDENTITY_ENTRY (R339). -/
def execIdentityEntry (s : State) : Out := .next (if s.host.cur = 0 then s.modHost fun h => { h with cur := 1 } else s)

/-- A request is refused: ERR, and CUR as it was (R340). -/
def State.refuseReq (s : State) (err : Nat) : State := s.modHost fun h => { h with err := err }

/-- A request succeeds: CUR, and ERR cleared (R340). -/
def State.enter (s : State) (cur : Nat) : State := s.modHost fun h => { h with cur := cur, err := 0 }

/-- The payload of a staging slot; none when it is missing or longer than a slot (R350). -/
def State.firmware (s : State) (slot : Nat) : Option (List Byte) :=
  let n := ((s.host.fwlen[slot]?).getD 0).toNat % 2 ^ 22
  if n = 0 ∨ 2 ^ 22 - 2420 < n then none
  else some ((List.range n).map fun i => Tab.get 0 s.host.staging (slot * 2 ^ 22 + i))

/-- The signature that follows a payload. -/
def State.firmwareSig (s : State) (slot n : Nat) : List Byte :=
  (List.range 2420).map fun i => Tab.get 0 s.host.staging (slot * 2 ^ 22 + n + i)

/-- The image of a slot passes the check of R349. -/
def State.firmwareOk (s : State) (slot : Nat) : Bool := match s.firmware slot with
  | none => false
  | some p => mlVerify wohalKey.pk p (s.firmwareSig slot p.length)

/-- MEAS after a request: the measurement of each payload in its place (R350, step 2). -/
def State.measure (s : State) : List Byte :=
  ((List.range 3).map fun i => match s.firmware i with
    | some p => sha3 p
    | none => (List.range 32).map fun j => s.host.meas.getD (32 * i + j) 0).flatten

/-- The assignment of roles is valid (R19, R341). -/
def State.rolesOk (s : State) : Bool :=
  let n := fun (r : Nat) => ((List.range 16).filter fun e => s.roleOf e == r).length
  n 3 == 0 && (n 1 == 0 || n 1 == 5) && decide (n 2 ≤ 4)

/-- STATE_REQ_OPTICS (R339, R349, R350): firmware and roles are checked, and training starts. -/
def State.reqOptics (s : State) : State :=
  if s.host.cur = 0 then s
  else if s.host.cur ≠ 1 then s.refuseReq 6
  else if s.host.training then s
  else
    let ok := (List.range 3).all s.firmwareOk
    let m := s.measure
    let s := s.modHost fun h => { h with meas := m }
    if !ok then s.refuseReq 1
    else if !s.rolesOk then s.refuseReq 2
    else
      let s := { s.modHost (fun h => { h with training := true }) with
        planes := s.planes.map fun (p : Nat × Plane) => (p.1, { p.2 with domain := none }) }
      s.tick.later (.opticsTrainingDone (s.free64.getLsbD 0))

/-- STATE_REQ_OPTICS. -/
def execStateReqOptics (s : State) : Out := .next (s.reqOptics)

/-- The planes have beacons of one domain (R307). -/
def State.oneDomain (s : State) : Bool :=
  s.fibresOf 1 == [] || (match (s.plane 0).domain with
    | none => false
    | some d => (List.range 40).all fun p => (s.plane p).domain == some d)

/-- OPTICS_TRAINING_DONE (R306, R307, R339): the package enters OPTICS, or ERR tells why not; the staging region then reads as
zero (R350), and the long-reach links begin to train (R353). -/
def execOpticsTrainingDone (ok : Bool) (s : State) : Out :=
  .next (
    if !s.host.training ∨ s.host.cur ≠ 1 then s
    else
      let s := s.modHost fun h => { h with training := false }
      if !s.rolesOk then s.refuseReq 2
      else if !ok ∨ !s.oneDomain then s.refuseReq 3
      else
        let planes := List.range (s.fibresOf 1).length
        let s := (s.enter 2).modHost fun h => { h with
          staging := []
          delay := planes.foldl (fun (t : Tab Word64) p => if (Tab.find t p).isSome then t
            else Tab.set 0 t p (Config.fibreDelay p &&& 0xFFFFFFFFFFFF0000)) s.host.delay }
        (List.range (s.fibresOf 2).length).foldl (fun (t : State) l =>
          t.tick.laterOnce (.lrTrainingAttempt l (t.free64.getLsbD 0))) s)

/-- The modules of the valid entries of the current map. -/
def State.mapModules (s : State) : List Nat :=
  (s.host.liveMap.toList.filter fun e => e.getLsbD 63).map fun e => (e.extractLsb' 0 11).toNat

/-- The module set is mapped as MODMAP and SGMAP stand: they hold until it is mapped again (R21), and failed near-memory units
are working again (R415). -/
def State.mapSet (s : State) : State :=
  { s with
    mods := s.mods.map fun (p : Nat × Mod) => (p.1, { p.2 with badUnits := [] })
    host := { s.host with
      liveMap := s.host.modmap
      liveGroups := s.host.sgmap } }

/-- The check of the current map. -/
def State.liveCheck (s : State) : Nat :=
  let ms := s.mapModules
  let answers := fun (m : Nat) => Config.moduleThere m && !(s.modl m).unreachable && s.groupsTo m true != [] &&
    s.groupsTo m false != []
  let agrees := fun (f g : Nat) => match s.moduleOfGroup f g with
    | some m => Config.fabricRoute f g m
    | none => Tab.get 0xFF s.host.liveGroups (8 * f + g) == 0xFF && ms.all fun m => !Config.fabricRoute f g m
  if !ms.all answers then 4
  else if ms.eraseDups.length ≠ ms.length ∨
      !((s.fibresOf 0).all fun f => (List.range 8).all fun g => agrees f g) then 5
  else 0

/-- The module set that MODMAP and SGMAP ask for is checked (Table 15-4): 4 for a module that does not answer, 5 for maps that
do not agree with the passive fabric, 0 where all is well. -/
def State.mapCheck (s : State) : Nat := s.mapSet.liveCheck

/-- STATE_REQ_MAPPED (R339). -/
def State.reqMapped (s : State) : State :=
  match s.host.cur with
  | 0 => s
  | 2 => if s.mapCheck = 0 then s.mapSet.enter 3 else s.refuseReq s.mapCheck
  | 4 => if s.launches = [] then s.enter 3 else s.refuseReq 6
  | _ => s.refuseReq 6

/-- STATE_REQ_MAPPED. -/
def execStateReqMapped (s : State) : Out := .next (s.reqMapped)

/-- STATE_REQ_OPERATIONAL (R339, R307): outside any domain, domain time counts from here. -/
def State.reqOperational (s : State) : State :=
  match s.host.cur with
  | 0 => s
  | 3 =>
    if s.mapCheck ≠ 0 then s.refuseReq s.mapCheck
    else
      let s := s.mapSet.enter 4
      if s.fibresOf 1 = [] then { s with nanos := 0 } else s
  | _ => s.refuseReq 6

/-- STATE_REQ_OPERATIONAL. -/
def execStateReqOperational (s : State) : Out := .next (s.reqOperational)

/-! Contexts (R336). -/

/-- The host may configure contexts. -/
def State.configures (s : State) : Bool := s.host.cur == 3 || s.host.cur == 4

def State.modCtx (s : State) (c : Nat) (f : Ctx → Ctx) : State := { s with ctxs := Tab.put s.ctxs c (f (s.ctx c)) }

/-- CTX_CREATE: word 0 with V = 1; range registers are zeroed. -/
def State.createCtx (s : State) (c : Nat) (w : Vector Word64 8) : State :=
  if !s.configures ∨ 1024 ≤ c ∨ (s.ctx c).v ∨ !w[0].getLsbD 0 then s
  else s.modCtx c fun x =>
    { x with
      v := true
      priv := w[0].getLsbD 2
      dbg := w[0].getLsbD 3
      saveBase := w[1]
      saveCnt := w[2].extractLsb' 0 16
      psBase := w[3]
      psSize := w[4]
      rr := Ctx.init.rr }

/-- CTX_CREATE. -/
def execCtxCreate (c : Nat) (w : Vector Word64 8) (s : State) : Out := .next (s.createCtx c w)

/-- CTX_DELETE: V = 0, once the context's launches have all retired. -/
def State.deleteCtx (s : State) (c : Nat) : State :=
  if !s.configures ∨ !(s.ctx c).v ∨ s.launches.any (fun p => p.2.ctx == c) then s
  else s.modCtx c fun x => { x with v := false }

/-- CTX_DELETE. -/
def execCtxDelete (c : Nat) (s : State) : Out := .next (s.deleteCtx c)

/-- CTX_PRE_SET: every running span of the context with NOPRE = 0 that its save region has room for is pre-empted. -/
def State.setPre (s : State) (c : Nat) : State :=
  if !s.configures ∨ 1024 ≤ c then s
  else
    let s := s.modCtx c fun x => { x with pre := true }
    (s.spans.filter fun p => s.spanLive p.2 && s.ctxOfLaunch p.2.launch == c && !(s.recordOf p.2.launch).nopre).foldl
      (fun (t : State) p =>
        if t.saveRoom c < (t.recordOf p.2.launch).saveBytes then t else t.preempt p.1) s

/-- CTX_PRE_SET. -/
def execCtxPreSet (c : Nat) (s : State) : Out := .next (s.setPre c)

/-- CTX_PRE_CLEAR: the saved spans of the context may be restored. -/
def State.clearPre (s : State) (c : Nat) : State :=
  if !s.configures ∨ 1024 ≤ c then s else (s.modCtx c fun x => { x with pre := false }).later .spanPlacement

/-- CTX_PRE_CLEAR. -/
def execCtxPreClear (c : Nat) (s : State) : Out := .next (s.clearPre c)

/-- HELD (Table 15-3): some span of the context is SAVED. -/
def State.heldCtx (s : State) (c : Nat) : Bool :=
  s.spans.any fun p => p.2.state == .saved && s.ctxOfLaunch p.2.launch == c

/-- SPLIT_REQUEST (R20): each group whose direction changes turns at its next retrain slot; refused when a module of the map
would be left with no group in one direction. -/
def State.splitRequest (s : State) (fibre : Nat) (n : Byte) : State :=
  let n := n.toNat % 8
  let dir := fun (f g : Nat) => decide (g < if f = fibre then n else s.splitOf f)
  let keeps := fun (m : Nat) (d : Bool) => (s.fibresOf 0).any fun f => (List.range 8).any fun g =>
    s.moduleOfGroup f g == some m && dir f g == d
  if !s.configures ∨ 128 ≤ fibre ∨ s.fibreRole fibre ≠ 0 ∨ n < 2 ∨ 6 < n ∨
      !(s.mapModules.all fun m => keeps m true && keeps m false) then s
  else
    let turns := (List.range 8).filter fun g => (s.grp fibre g).towards != dir fibre g
    let s := s.modHost fun h => { h with split := Tab.set 4 h.split fibre (BitVec.ofNat 8 n) }
    turns.foldl (fun (t : State) g => t.slotSoon fibre g) s

/-- SPLIT_REQUEST. -/
def execSplitRequest (fibre : Nat) (n : Byte) (s : State) : Out := .next (s.splitRequest fibre n)

/-! Checkpoint, persist and restore (R345 to R347). -/

/-- An Invar command ends: its state and its duration; the fault code of one that fails. -/
def State.invarEnd (s : State) (st : Nat) (fc : Byte) (us : Nat) : State :=
  s.modHost fun h => { h with invarSt := st, invarFc := fc, invarUs := us % 2 ^ 32, invarCmd := 0 }

/-- An Invar command ends with a fault code that the spec does not state. -/
def State.invarFails (s : State) (us : Nat) : State := s.tick.invarEnd 3 (s.free64.setWidth 8) us

/-- An Invar command begins. -/
def State.invarBegin (s : State) (cmd : Nat) : State := s.modHost fun h => { h with invarSt := 1, invarCmd := cmd }

/-- The spans that run. -/
def State.runningSpans (s : State) : List (Nat × Span) := s.spans.filter fun p => p.2.state == .running

/-- INVAR_CHECKPOINT (R345): every running span stops, whatever its NOPRE; ignored while a command is busy. -/
def State.askCheckpoint (s : State) : State :=
  if !s.configures ∨ s.host.invarSt = 1 then s
  else
    let s := { s.invarBegin 1 with checkpoint := true, ckptFault := false }
    let s := s.runningSpans.foldl (fun (t : State) p => t.stopAndRecall p.1) s
    s.tick.later (.checkpointDone (s.free64.getLsbD 0) (s.free64.toNat / 2 % 2 ^ 32))

/-- INVAR_CHECKPOINT. -/
def execInvarCheckpoint (s : State) : Out := .next (s.askCheckpoint)

/-- The bases of the valid safe-region entries. -/
def State.safeBases (s : State) : List Nat :=
  (s.host.safe.toList.filter fun e => e.getLsbD 63).map fun e => (e.extractLsb' 0 56).toNat

/-- What the checkpoint engine reads that holds an uncorrectable error is contained (R414). -/
def State.containAll (s : State) : State :=
  let s := s.badSram.foldl (fun (t : State) g => t.containGranule g) s
  let s := s.badRegs.foldl (fun (t : State) i => t.containReg (i / 8192) (i % 8192)) s
  (s.badWords.filter fun w => w.unit.isSome).foldl State.containWord s

/-- The 256 KiB pieces of an image, over the bases of its safe region in ascending order: the address of each and where it
begins in the image. -/
def Image.stripes (i : Image) : List (Nat × Nat) :=
  (List.range ((i.len + 2 ^ 18 - 1) / 2 ^ 18)).map fun p =>
    (i.bases.getD (p % i.bases.length) 0 + p / i.bases.length * 2 ^ 18, p * 2 ^ 18)

/-- Byte n of an image, whose layout the spec leaves to the QX9. -/
def Image.byte (i : Image) (n : Nat) : Byte := Config.imageByte i.key n

/-- A piece of an image at an address of its safe region; the code with which it is refused. -/
def State.writePart (s : State) (i : Image) (p : Nat × Nat) : Byte × State := match s.spaceOf p.1 with
  | .ok (.mod m o) =>
    if o % 2 ^ 16 ≠ 0 then (0x08, s)
    else s.modWrite m o ((List.range (min (2 ^ 18) (i.len - p.2))).map fun j => i.byte (p.2 + j)) .wr
  | .ok _ => (0x07, s)
  | .error c => (c, s)

/-- The image is written to the modules of its safe region (R345, step 3), up to the first piece that is refused. -/
def State.writeImage (s : State) (i : Image) : Byte × State :=
  i.stripes.foldl (fun (r : Byte × State) p => if r.1 = 0 then r.2.writePart i p else r) (0, s)

/-- The safe region holds the image: its valid entries are those that it was striped over, and its bytes stand there. -/
def State.imageStands (s : State) (i : Image) : Bool :=
  s.safeBases == i.bases && i.stripes.all fun p => match s.spaceOf p.1 with
    | .ok (.mod m o) => (match s.modRead m o (min (2 ^ 18) (i.len - p.2)) with
      | .ok bs => bs == (List.range (min (2 ^ 18) (i.len - p.2))).map fun j => i.byte (p.2 + j)
      | .error _ => false)
    | _ => false

/-- The image: every span with all it holds, and the Orrery's window, in at most 4.5 GiB of the safe region. -/
def State.checkpointImage (s : State) : Image :=
  { bases := s.safeBases
    len := Config.imageLen s.choices % (9 * 2 ^ 29 + 1)
    key := s.choices
    launches := s.launches
    spans := (s.spans.filter fun p => p.2.state == .running || p.2.state == .saved).map fun (p : Nat × Span) =>
      if p.2.state = .running then (p.1, { p.2 with saved := some (s.saveImage p.2), recalls := [] }) else p }

/-- Step 4 of R345: every span resumes under its generations, recalled fragments are sent again, and the lines of the L1 read
caches are discarded (FENCE.ar.job for every lane). -/
def State.resume (s : State) : State :=
  let rs := s.runningSpans
  let places := (rs.map fun p => s.placesOf p.2).flatten
  let s := { s with
    checkpoint := false
    cores := s.cores.map fun (p : Nat × Core) => (p.1, { p.2 with lines := [] }) }
  let s := rs.foldl (fun (t : State) p => p.2.recalls.foldl State.resend (t.modSpan p.1 fun x => { x with recalls := [] })) s
  (places.foldl State.refill s).later .spanPlacement

/-- CHECKPOINT_DONE (R345): once every running span has drained and none is being saved, the image is written and the spans
resume; an error that the engine finds, or a safe region that refuses, fails the command (R386, R414). -/
def execCheckpointDone (ok : Bool) (us : Nat) (s : State) : Out :=
  .next (
    if !s.checkpoint then s
    else
      let s := ((s.fragsOf ((s.runningSpans.map fun p => s.placesOf p.2).flatten)).filter fun k =>
        (s.sheaf k).frag.any fun f => f.recalled.isSome).foldl State.pullFrag s
      if !(s.runningSpans.all fun p => s.drained p.1) || s.spans.any (fun p => p.2.state == .saving) then
        s.later (.checkpointDone ok us)
      else
        let bad := s.badSram != [] || s.badRegs != [] || s.badWords.any fun w => w.unit.isSome
        if bad then (s.containAll.invarFails us).resume
        else if s.ckptFault then (s.invarFails us).resume
        else if !ok ∨ s.safeBases = [] then (s.invarFails us).resume
        else
          let i := s.checkpointImage
          match s.writeImage i with
          | (0, t) => ({ t.invarEnd 2 0 us with images := i :: s.images, choices := s.choices + 1 }).resume
          | (c, t) => (t.invarEnd 3 c us).resume)

/-- INVAR_PERSIST (R346). -/
def State.askPersist (s : State) : State :=
  if !s.configures ∨ s.host.invarSt = 1 then s
  else
    let s := s.invarBegin 2
    s.tick.later (.persistDone (s.free64.getLsbD 0) (s.free64.toNat / 2 % 2 ^ 32))

/-- INVAR_PERSIST. -/
def execInvarPersist (s : State) : Out := .next (s.askPersist)

/-- PERSIST_DONE (R346): D is cleared on every page of the mapped modules; a flash failure keeps it (Table 20-7). -/
def execPersistDone (ok : Bool) (us : Nat) (s : State) : Out :=
  .next (
    if s.host.invarCmd ≠ 2 then s
    else if !ok then
      let s := s.invarEnd 3 0x22 us
      match pick s.mapModules (Config.choose s.choices) with
      | none => s
      | some m => { s with choices := s.choices + 1 }.later (.moduleFault m 1 0 0)
    else
      let ms := s.mapModules
      ({ s with mods := s.mods.map fun (p : Nat × Mod) =>
        if ms.contains p.1 then (p.1, { p.2 with
            leaf := p.2.leaf.map fun (l : Nat × Word64) => (l.1, l.2 &&& 0xFFEFFFFFFFFFFFFF)
            reread := p.2.reread.map fun (r : Reread) => ({ r with clean := true } : Reread) })
        else p }).invarEnd 2 0 us)

/-- INVAR_RESTORE (R347): needs OPERATIONAL, no launch in the window, and an image in the safe region. -/
def State.askRestore (s : State) : State :=
  if !s.configures ∨ s.host.invarSt = 1 then s
  else if s.host.cur ≠ 4 ∨ s.launches ≠ [] ∨ !s.images.any s.imageStands then s.invarFails 0
  else
    let s := s.invarBegin 3
    s.tick.later (.restoreDone (s.free64.getLsbD 0) (s.free64.toNat / 2 % 2 ^ 32))

/-- INVAR_RESTORE. -/
def execInvarRestore (s : State) : Out := .next (s.askRestore)

/-- One more than the highest key of a table, at least n. -/
def keyAfter {β : Type} (n : Nat) (t : Tab β) : Nat := t.foldl (fun m p => max m (p.1 + 1)) n

/-- Restores the spans of an image that ran; none while a generation is lacking. -/
def State.restoreAll (s : State) : List (Nat × Span) → Option State
  | [] => some s
  | p :: ps => match p.2.state, p.2.saved with
    | .running, some v => (match s.restoreSpan p.1 p.2 v with
      | none => none
      | some t => State.restoreAll t ps)
    | _, _ => State.restoreAll s ps

/-- A restored launch goes on in its state (Table 7-4). -/
def State.resumeLaunch (s : State) (n : Nat) (l : Launch) : State := match l.state with
  | .ending => s.endLaunch n (l.sub != 0)
  | .discarding => s.later (.discardRelease n)
  | .eligible | .active => (s.modLaunch n fun x => { x with eligibleAt := s.nanos }).later (.preemptionWaitExpiry n)
  | _ => s

/-- The window and the spans of an image, and what they hold under fresh generations (R347, R62). -/
def State.restoreImage (s : State) (i : Image) : Option State :=
  let crews := (i.spans.map fun p => p.2.crews).flatten
  let s : State := { s with
    launches := i.launches
    spans := i.spans
    nextLaunch := keyAfter s.nextLaunch i.launches
    nextSpan := keyAfter s.nextSpan i.spans
    nextCrew := crews.foldl (fun m c => max m (c + 1)) s.nextCrew }
  match s.restoreAll i.spans with
  | none => none
  | some s =>
    let s := crews.foldl (fun (t : State) c => t.later (.crewRetire c)) s
    some ((i.launches.foldl (fun (t : State) p => t.resumeLaunch p.1 p.2) s).later .spanPlacement)

/-- RESTORE_DONE (R347). -/
def execRestoreDone (ok : Bool) (us : Nat) (s : State) : Out :=
  .next (
    if s.host.invarCmd ≠ 3 then s
    else if !ok ∨ s.launches ≠ [] then s.invarFails us
    else match s.images.find? s.imageStands with
      | none => s.invarFails us
      | some i => match s.restoreImage i with
        | none => s.later (.restoreDone ok us)
        | some t => t.invarEnd 2 0 us)

/-! Quotes (R351). -/

/-- The quote message: nonce, DEVID, CUR, PDBG, zeros, MEAS. -/
def State.quoteMessage (s : State) : List Byte :=
  ((List.range 32).map fun i => s.host.nonce.getD i 0) ++ leBytes 8 Config.devId.toNat ++
    [BitVec.ofNat 8 s.host.cur, if s.host.pdbg then 1 else 0] ++ List.replicate 6 0 ++
    (List.range 96).map fun i => s.host.meas.getD i 0

/-- QCTL_SIGN: QCTL[0] is cleared, and the message of this quote is built. -/
def State.signQuote (s : State) : State :=
  if s.host.cur = 0 ∨ s.host.signing.isSome then s
  else
    let m := s.quoteMessage
    (s.modHost fun h => { h with quoteReady := false, signing := some m }).later .quoteReady

/-- QCTL_SIGN. -/
def execQctlSign (s : State) : Out := .next (s.signQuote)

/-- The randomness of a signature, 32 free bytes: ML-DSA-44 admits any, and the spec does not name it. -/
def State.signRandom (s : State) : List Byte :=
  ((List.range 4).map fun i => leBytes 8 (Config.freeWord (s.frees + i)).toNat).flatten

/-- QUOTE_READY: the quote, signed with the package's key, stands in its registers, and QCTL[0] is set. -/
def execQuoteReady (s : State) : Out :=
  .next (match s.host.signing with
    | none => s
    | some m => { s with frees := s.frees + 4 }.modHost fun h =>
      { h with
        quote := m
        quoteSig := mlSign deviceKey m s.signRandom
        quoteReady := true
        signing := none })

/-! The SRAM window (R337). -/

/-- An access of the host lies in the window and in one block of 64 bytes. -/
def windowFits (off n : Nat) : Bool := decide (1 ≤ n) && decide (off % 64 + n ≤ 64) && decide (off + n ≤ 2 ^ 30)

/-- WIN is valid, and its state lets it answer. -/
def State.windowOpen (s : State) : Bool := s.configures && s.host.win.getLsbD 63

def State.winCtx (s : State) : Nat := (s.host.win.extractLsb' 32 10).toNat

def State.winAddr (s : State) (off : Nat) : Nat := s.host.win.toNat % 4 * 2 ^ 30 + off

/-- The check of a window access (R320, R337). -/
def State.winGrants (s : State) (a n : Nat) (kind : AKind) : Bool :=
  s.imageGrants s.winCtx a n kind && !spillUnit a

/-- The record of a window access that went wrong (R337, R414). -/
def State.windowRecord (s : State) (a : Nat) : State :=
  s.post 4 2 s.winCtx nodeControl (payload2 0 (BitVec.ofNat 64 a))

/-- HOST_WINDOW_READ (R337, R414): what was read stands in the state; zeros where it is refused or holds an error. -/
def execHostWindowRead (off n : Nat) (s : State) : Out :=
  .next (
    if !windowFits off n then s
    else
      let a := s.winAddr off
      let zero := fun (t : State) => t.modHost fun h => { h with reads := List.replicate n 0 }
      if !s.windowOpen || !s.winGrants a n .rd then zero s
      else if s.badGranules a n ≠ [] then
        zero (((s.badGranules a n).foldl State.containGranule s).windowRecord a)
      else s.modHost fun h => { h with reads := s.pkgRead a n })

/-- HOST_WINDOW_WRITE (R337, R414): performed, or discarded with a type-4 record where it is refused or would read an error. -/
def execHostWindowWrite (off : Nat) (data : List Byte) (s : State) : Out :=
  .next (
    if !windowFits off data.length then s
    else if !s.windowOpen then s
    else
      let a := s.winAddr off
      let bad := s.badPartial a data.length
      if !s.winGrants a data.length .wr then s.windowRecord a
      else if bad ≠ [] then (bad.foldl State.containGranule s).windowRecord a
      else s.pkgWrite a data)

/-! Registers (Table 15-2). -/

/-- A byte of a word. -/
def byteOf (w : Word64) (i : Nat) : Byte := w.extractLsb' (8 * i) 8

/-- Stores the eight bytes of a word in a table of bytes. -/
def setBytes (d : Byte) (t : Tab Byte) (i : Nat) (w : Word64) : Tab Byte :=
  (List.range 8).foldl (fun (u : Tab Byte) j => Tab.set d u (i + j) (byteOf w j)) t

/-- STATE (Table 15-4): a request of the named state, and PDBG in IDENTITY. -/
def State.writeState (s : State) (val : Word64) : State :=
  let req := (val.extractLsb' 4 3).toNat
  let s := s.modHost fun h => { h with
    req := req
    pdbg := h.pdbg || (h.cur == 1 && val.getLsbD 16) }
  match req with
  | 2 => s.reqOptics
  | 3 => s.reqMapped
  | 4 => s.reqOperational
  | _ => s.refuseReq 6

/-- The words of a context as its registers hold them (Table 15-3). -/
def State.ctxWords (s : State) (c : Nat) : Vector Word64 8 :=
  let x := s.ctx c
  let bit := fun (b : Bool) (i : Nat) => if b then (1 : Word64) <<< i else 0
  #v[bit x.v 0 ||| bit x.priv 2 ||| bit x.dbg 3, x.saveBase, x.saveCnt.setWidth 64, x.psBase, x.psSize,
    bit x.pre 0 ||| bit (s.heldCtx c) 1, 0, 0]

/-- A word of CTXCFG (R336): the write itself creates the context, deletes it, or sets or clears PRE; while V = 1 the other
fields are read only. -/
def State.writeCtx (s : State) (c w : Nat) (val : Word64) : State :=
  let v := (s.ctx c).v
  match w with
  | 0 =>
    if val.getLsbD 0 then
      if v then s else s.createCtx c ((s.ctxWords c).set 0 (val &&& 0xD))
    else if v then s.deleteCtx c
    else s.modCtx c fun x => { x with priv := val.getLsbD 2, dbg := val.getLsbD 3 }
  | 1 => if v then s else s.modCtx c fun x => { x with saveBase := val }
  | 2 => if v then s else s.modCtx c fun x => { x with saveCnt := val.extractLsb' 0 16 }
  | 3 => if v then s else s.modCtx c fun x => { x with psBase := val }
  | 4 => if v then s else s.modCtx c fun x => { x with psSize := val }
  | 5 => if val.getLsbD 0 then s.setPre c else s.clearPre c
  | _ => s

/-- A word of a range register is replaced; reserved bits stay zero. -/
def setRange (r : Word64 × Word64 × Word64) (w : Nat) (val : Word64) : Word64 × Word64 × Word64 :=
  match w with
  | 0 => rangeValue val r.2.1 r.2.2
  | 1 => rangeValue r.1 val r.2.2
  | _ => rangeValue r.1 r.2.1 val

/-- A word of RR (R91, R335). -/
def State.writeRange (s : State) (c n w : Nat) (val : Word64) : State :=
  s.modCtx c fun x => { x with rr := x.rr.setIfInBounds n (setRange (x.rr.getD n (0, 0, 0)) w val) }

/-- A register is writable now (Table 15-2). -/
def State.writable (s : State) (states : List Nat) : Bool := states.contains s.host.cur

/-- REGISTER_WRITE (R335, R339): one aligned access of 8 bytes; offsets not listed, and states not named, are ignored. A
package without rotor fibres is outside any domain, and keeps peer number 0 (R24, R307). One write to SPLIT carries the requests
of eight fibres: R20 does not say in which order they are judged, and here it is that of the fibres, each under the splits that
the ones before it have left (DESIGN CHOICE, log entry 125). -/
def execRegisterWrite (off : Nat) (val : Word64) (s : State) : Out :=
  let on := fun (states : List Nat) (t : State) => if s.writable states then t else s
  .next (
    if off % 8 ≠ 0 then s
    else if off = 0x0000 then on [1, 2, 3, 4] (s.writeState val)
    else if off = 0x0008 then on [1] (s.modHost fun h => { h with role := val.extractLsb' 0 32 })
    else if off = 0x0010 then on [2] (if s.fibresOf 1 = [] then s else s.modHost fun h => { h with pkgnum := val.extractLsb' 0 9 })
    else if off = 0x0018 then on [3, 4] (s.modHost fun h => { h with win := val &&& 0x800003FF00000003 })
    else if 0x0100 ≤ off ∧ off < 0x0180 then
      on [2, 3] (s.modHost fun h => { h with modmap := h.modmap.setIfInBounds ((off - 0x0100) / 8) (val &&& 0x80000000000007FF) })
    else if off = 0x0200 then
      on [3, 4] (match (val.extractLsb' 0 2).toNat with
        | 1 => s.askCheckpoint
        | 2 => s.askPersist
        | 3 => s.askRestore
        | _ => s)
    else if 0x0240 ≤ off ∧ off < 0x02C0 then
      on [3, 4] (s.modHost fun h => { h with safe := h.safe.setIfInBounds ((off - 0x0240) / 8) (val &&& 0x80FFFFFFFFFFFFFF) })
    else if 0x1000 ≤ off ∧ off < 0x1400 then
      on [2, 3] (s.modHost fun h => { h with sgmap := setBytes 0xFF h.sgmap (off - 0x1000) val })
    else if 0x3100 ≤ off ∧ off < 0x3120 then
      on [1, 2, 3, 4] (s.modHost fun h => { h with nonce := (List.range 32).map fun i =>
        if off - 0x3100 ≤ i ∧ i < off - 0x3100 + 8 then byteOf val (i - (off - 0x3100)) else h.nonce.getD i 0 })
    else if off = 0x3120 then on [1, 2, 3, 4] (if val.getLsbD 0 then s.signQuote else s)
    else if 0x4000 ≤ off ∧ off < 0x4400 then
      on [2] (s.modHost fun h => { h with lrpeer := setBytes 0 h.lrpeer (off - 0x4000) val })
    else if 0x4400 ≤ off ∧ off < 0x4500 then
      on [2, 3, 4] (
        let t : Word32 := val.extractLsb' 0 32
        if t.toNat < 200 ∨ 20000 < t.toNat then s
        else s.modHost fun h => { h with lrcfg := Tab.set 2000 h.lrcfg ((off - 0x4400) / 8) t })
    else if 0x4800 ≤ off ∧ off < 0x4880 then
      on [3, 4] ((List.range 8).foldl (fun (t : State) i => t.splitRequest (off - 0x4800 + i) (byteOf val i)) s)
    else if 0x5000 ≤ off ∧ off < 0x5018 then
      on [1] (s.modHost fun h => { h with fwlen := h.fwlen.setIfInBounds ((off - 0x5000) / 8) (val &&& 0x3FFFFF) })
    else if 0x100000 ≤ off ∧ off < 0x110000 then
      on [3, 4] (s.writeCtx ((off - 0x100000) / 64) (off % 64 / 8) val)
    else if 0x200000 ≤ off ∧ off < 0x280000 then
      let i := (off - 0x200000) % 512 / 8
      on [3, 4] (if i < 48 then s.writeRange ((off - 0x200000) / 512) (i / 3) (i % 3) val else s)
    else s)

/-- FIRMWARE_STAGING_WRITE (R350): 1 to 64 bytes of the staging region, in IDENTITY. Its last 4 MiB, which R350 calls reserved,
keep what is written as the slots do (DESIGN CHOICE, log entry 125). -/
def execFirmwareStagingWrite (off : Nat) (data : List Byte) (s : State) : Out :=
  .next (
    if s.host.cur ≠ 1 ∨ data.length < 1 ∨ 64 < data.length ∨ 2 ^ 24 < off + data.length then s
    else s.modHost fun h => { h with staging := data.zipIdx.foldl (fun (t : Tab Byte) p => Tab.set 0 t (off + p.2) p.1) h.staging })

/-! What the host reads (Table 15-2, R344, R350). -/

/-- A read of n bytes of the staging region: zero in every state but IDENTITY (R350). -/
def State.stagingRead (s : State) (off n : Nat) : List Byte :=
  (List.range n).map fun i => if s.host.cur = 1 then Tab.get 0 s.host.staging (off + i) else 0

/-- Eight bytes of a list of bytes. -/
def wordAt (l : List Byte) (i : Nat) : Word64 := BitVec.ofNat 64 (leNat ((l.drop i).take 8))

/-- Eight bytes of a table of bytes. -/
def tabWord (d : Byte) (t : Tab Byte) (i : Nat) : Word64 :=
  BitVec.ofNat 64 (leNat ((List.range 8).map fun j => Tab.get d t (i + j)))

/-- A read of eight aligned bytes of BAR0; zero where nothing is listed, and in COLD. -/
def State.regRead (s : State) (off : Nat) : Word64 :=
  let h := s.host
  let from_ := fun (n : Nat) (w : Word64) => if n ≤ h.cur then w else 0
  if h.cur = 0 ∨ off % 8 ≠ 0 then 0
  else if off = 0x0000 then BitVec.ofNat 64 (h.cur + h.req * 16 + h.err * 256 + (if h.pdbg then 65536 else 0))
  else if off = 0x0008 then h.role.setWidth 64
  else if off = 0x0010 then from_ 2 (h.pkgnum.setWidth 64)
  else if off = 0x0018 then from_ 3 h.win
  else if off = 0x0080 then from_ 4 (BitVec.ofNat 64 (s.gov.power % 2 ^ 32 + s.gov.q % 2 ^ 32 * 2 ^ 32))
  else if 0x0088 ≤ off ∧ off < 0x00A8 then from_ 4 (BitVec.ofNat 64 (s.gov.grants.getD ((off - 0x0088) / 8) 0))
  else if off = 0x00A8 then from_ 4 (BitVec.ofNat 64 (s.gov.queue.length + s.gov.modQueue.length))
  else if off = 0x00B0 then from_ 4 (BitVec.ofNat 64 s.gov.waited)
  else if 0x0100 ≤ off ∧ off < 0x0180 then from_ 2 ((h.modmap[(off - 0x0100) / 8]?).getD 0)
  else if off = 0x0208 then
    from_ 3 (BitVec.ofNat 64 (h.invarSt + (if h.invarSt = 3 then h.invarFc.toNat else 0) * 256 + h.invarUs * 2 ^ 32))
  else if 0x0240 ≤ off ∧ off < 0x02C0 then from_ 3 ((h.safe[(off - 0x0240) / 8]?).getD 0)
  else if 0x0400 ≤ off ∧ off < 0x0540 then from_ 2 (Tab.get 0 h.delay ((off - 0x0400) / 8))
  else if 0x1000 ≤ off ∧ off < 0x1400 then from_ 2 (tabWord 0xFF h.sgmap (off - 0x1000))
  else if off = 0x2000 then Config.devId
  else if 0x2040 ≤ off ∧ off < 0x20A0 then wordAt h.meas (off - 0x2040)
  else if 0x2100 ≤ off ∧ off < 0x2620 then wordAt deviceKey.pk (off - 0x2100)
  else if 0x2700 ≤ off ∧ off < 0x3078 then wordAt certificate (off - 0x2700)
  else if 0x3100 ≤ off ∧ off < 0x3120 then wordAt h.nonce (off - 0x3100)
  else if off = 0x3120 then if h.quoteReady then 1 else 0
  else if 0x3200 ≤ off ∧ off < 0x3290 then wordAt h.quote (off - 0x3200)
  else if 0x3300 ≤ off ∧ off < 0x3C78 then wordAt h.quoteSig (off - 0x3300)
  else if 0x4000 ≤ off ∧ off < 0x4400 then from_ 2 (tabWord 0 h.lrpeer (off - 0x4000))
  else if 0x4400 ≤ off ∧ off < 0x4500 then from_ 2 ((Tab.get 2000 h.lrcfg ((off - 0x4400) / 8)).setWidth 64)
  else if 0x4800 ≤ off ∧ off < 0x4880 then from_ 3 (tabWord 4 h.split (off - 0x4800))
  else if 0x5000 ≤ off ∧ off < 0x5018 then (h.fwlen[(off - 0x5000) / 8]?).getD 0
  else if 0x100000 ≤ off ∧ off < 0x110000 then
    from_ 3 (((s.ctxWords ((off - 0x100000) / 64))[off % 64 / 8]?).getD 0)
  else if 0x200000 ≤ off ∧ off < 0x280000 then
    let i := (off - 0x200000) % 512 / 8
    let r := (s.ctx ((off - 0x200000) / 512)).rr.getD (i / 3) (0, 0, 0)
    from_ 3 (if 48 ≤ i then 0 else if i % 3 = 0 then r.1 else if i % 3 = 1 then r.2.1 else r.2.2)
  else 0

end Sys2Proof.Machine
end

