-- ==== Sys2Proof/Machine/Migration.lean ====
section
/-!
DEFINITION. Migration instructions, class 0xB (R287 to R299): MIG, HOME, MIGSET, MIGQ.
-/

namespace Sys2Proof.Machine

open Sys2Proof

/-- The illegal use of MIG, HOME and MIGSET.home in a microprogram (R294). -/
def inMicro (x : Ex) : TrapInfo := ⟨0x03, 6, x.exec, 0⟩

/-- A PC of the code region from a byte offset (R28). -/
def pcOffset (pc : Word64) (j : Word32) : Word64 :=
  pc.extractLsb' 32 32 ++ (pc + j.signExtend 64).extractLsb' 0 32

/-- The uses of the carry set: a migration reads its registers at site 6 (R389). -/
def carryUses (m : RegMask) : List Use :=
  m.vregs.map (fun r => ⟨6, .v r, false, false, none⟩) ++ m.sregs.map (fun r => ⟨6, .s r, false, false, none⟩) ++
    m.pregs.map fun r => ⟨6, .p r, false, false, none⟩

/-- A MIG at home within an open window names another join PC (R291). -/
def State.otherWindow (s : State) (k : Nat) (j : Word64) : Bool :=
  let sh := s.sheaf k
  sh.frag.isNone && (match sh.win with
    | some w => w.jpc.extractLsb' 2 30 != j.extractLsb' 2 30
    | none => false)

/-- MIG sends lanes to their owners (R291); in a fragment it makes a hop (R297). Lanes whose range forbids it return at
once with reason 2; they have made no hop. -/
def State.migrate (s : State) (x : Ex) (d : SReg) (j : Word64) (go no : Word32) (own : Nat → Owner)
    (ia : Nat → Nat) : Flow × State :=
  let sh := s.sheaf x.k
  let left := (sh.slot x.b).mask &&& ~~~go &&& ~~~no
  let s := s.writeS x.k d.val (go.setWidth 64)
  if go ||| no = 0 then (.next, s)
  else
    let s := if sh.frag.isSome then s
      else if sh.win.isSome then s.moreAway x.k (go ||| no)
      else s.openWindow x.k x.b j (go ||| no)
    let hops := if sh.frag.isSome then s.hopsOf x.k + 1 else 0
    let s := s.departAll x.k x.b go own (x.pc + 12) (fun _ => hops) false ia
    let s := if no = 0 then s else s.refuseHere x.k x.b no (x.pc + 12) (s.hopsOf x.k) 2 false
    (if left = 0 then .own else .next, s)

/-- MIG (0x160, R290, R291, R297). Of several illegal uses at once the microprogram comes first (DETAIL 6), then another join PC
(5), then the carry set (4); Table 19-1 gives no order within its step 12 (DESIGN CHOICE, log entry 125). -/
def execMig (h : Hdr) (d : SReg) (base : Option SReg) (idx : Option VSrc) (off : Byte) (j : Word32) (s : State) : Out :=
  let m : Mem := ⟨base, idx, .imm8 off⟩
  .next (issue (.mig h d base idx off j) h
    { uses := memUses m false ++ [.dst (.s d.val)] ++ carryUses (s.sheaf s.focus).carry } (fun x t =>
    let acc := lanes.map fun L => t.virtLane x.k (t.memSum x.k m false L) 1 .mig false
    let lane := fun (L : Nat) => acc.getD L (t.virtLane x.k (t.memSum x.k m false L) 1 .mig false)
    let own := fun (L : Nat) => match lane L with
      | .ok a => if x.stay.getLsbD L then .here else ownerOf x.k a.space
      | .error _ => .here
    let bad := mask32 fun L => x.exec.getLsbD L && (match lane L with
      | .ok _ => false
      | .error _ => true)
    let away := fun (want : Bool) => mask32 fun L => x.exec.getLsbD L && own L != .here && (match lane L with
      | .ok a => a.mig == want
      | .error _ => false)
    let go := away true
    let no := away false
    if x.inmc then .error (inMicro x)
    else if t.otherWindow x.k (pcOffset x.pc j) then .error ⟨0x03, 5, x.exec, 0⟩
    else match t.carryCheck x with
    | some e => .error e
    | none =>
      if bad ≠ 0 then
        match lane (lowest bad) with
        | .error r => .error ⟨kindOf r.code, r.code, bad, r.addr⟩
        | .ok _ => .error ⟨0x0C, 0, bad, 0⟩
      else withStack x
        (if go ||| no ≠ 0 ∧ (t.sheaf x.k).frag.isNone ∧ (t.sheaf x.k).win.isNone then 2 else 0) t
        fun u => u.migrate x d (pcOffset x.pc j) go no own fun L => match lane L with
          | .ok a => a.ia
          | .error _ => 0) s)

/-- HOME (0x161, R298): a fragment's lanes return with KIND 1; at home it acts as JOIN. -/
def execHome (h : Hdr) (s : State) : Out :=
  .next (issue (.home h) h {} (fun x t =>
    if x.inmc then .error (inMicro x)
    else if (t.sheaf x.k).frag.isNone then .ok (joinAt x t)
    else
      let left := ((t.sheaf x.k).slot x.b).mask &&& ~~~x.exec
      .ok (if left = 0 then .own else .next, t.fragReturn x.k x.b x.exec x.pc 1 0 0 0)) s)

/-- One part of a mask replaced. -/
def RegMask.setPart (m : RegMask) (part : MigPart) (w : Word64) : RegMask :=
  let put := fun (n : Nat) => (m.v &&& ~~~(((0xFFFFFFFFFFFFFFFF : BitVec 64).setWidth 192) <<< n)) |||
    (w.setWidth 192 <<< n)
  match part with
  | .v0 => { m with v := put 0 }
  | .v1 => { m with v := put 64 }
  | .v2 => { m with v := put 128 }
  | .s => { m with s := w }
  | .p => { m with p := w.setWidth 7 }

/-- MIGSET (0x162, XOP 0 to 4, R287): the carry part, which clears the part of the write-back set, or the write-back
part. -/
def execMigset (h : Hdr) (part : MigPart) (wb : Bool) (mask : Word64) (s : State) : Out :=
  .next (issue (.migset h part wb mask) h {} (simple fun x t => t.modSheaf x.k fun y =>
    if wb then { y with wb := y.wb.setPart part mask }
    else { y with carry := y.carry.setPart part mask, wb := y.wb.setPart part 0 }) s)

/-- MIGSET.home (0x162, XOP 5, R294): arms the home PC, or disarms it. -/
def execMigsetHome (h : Hdr) (j : Word32) (s : State) : Out :=
  .next (issue (.migsetHome h j) h {} (fun x t =>
    if x.inmc then .error (inMicro x)
    else .ok (.next, t.modSheaf x.k fun y =>
      { y with homePc := if j = 0 then none else some (pcOffset x.pc j) })) s)

/-- Where a fragment runs (R299). -/
def whereWord (k : Nat) : Word64 :=
  if nearMem k then BitVec.ofNat 64 (2 ^ 63 + 2 ^ 62 + moduleOf k % 2 ^ 11 * 2 ^ 51 + (unitOf k - 256) % 64 * 2 ^ 45)
  else BitVec.ofNat 64 (2 ^ 63 + unitOf k)

/-- The value of MIGQ. -/
def State.migq (s : State) (k : Nat) (w : MigqWhat) : Word64 :=
  let sh := s.sheaf k
  if sh.frag.isSome then match w with
    | .away => (s.fragLanes k).setWidth 64
    | .where_ => whereWord k
    | .refused | .home => 0
  else match w with
    | .away => (match sh.win with
      | some w => w.away.setWidth 64
      | none => 0)
    | .refused => BitVec.ofNat 64 (sh.refused.toNat + sh.refRsn * 2 ^ 32)
    | .where_ => 0
    | .home => sh.homePc.getD 0

/-- MIGQ (0x163, R299). -/
def execMigq (h : Hdr) (w : MigqWhat) (d : SReg) (s : State) : Out :=
  .next (issue (.migq h w d) h { uses := [.dst (.s d.val)] }
    (simple fun x t => t.writeS x.k d.val (t.migq x.k w)) s)

end Sys2Proof.Machine
end

