-- ==== Sys2Proof/Machine/Dispatch.lean ====
section
/-!
DEFINITION. The dispatcher: one arm for each constructor of `Instr`, a direct call of its meaning.
-/

namespace Sys2Proof.Machine

open Sys2Proof

def exec (i : Instr) (s : State) : Host.Outcome State Fault Refusal :=
  match i with
  | .pad p => Sys2Proof.Machine.execPad p s
  | .nop h => Sys2Proof.Machine.execNop h s
  | .bra h off => Sys2Proof.Machine.execBra h off s
  | .braReg h a => Sys2Proof.Machine.execBraReg h a s
  | .brp h off => Sys2Proof.Machine.execBrp h off s
  | .brpJoin h off j => Sys2Proof.Machine.execBrpJoin h off j s
  | .join h => Sys2Proof.Machine.execJoin h s
  | .loop h d off => Sys2Proof.Machine.execLoop h d off s
  | .call h d off => Sys2Proof.Machine.execCall h d off s
  | .callReg h d a => Sys2Proof.Machine.execCallReg h d a s
  | .calli h d a => Sys2Proof.Machine.execCalli h d a s
  | .ret h a => Sys2Proof.Machine.execRet h a s
  | .exit h => Sys2Proof.Machine.execExit h s
  | .yield h => Sys2Proof.Machine.execYield h s
  | .trap h code => Sys2Proof.Machine.execTrap h code s
  | .tret h => Sys2Proof.Machine.execTret h s
  | .mcall h p0 p1 p2 p3 m => Sys2Proof.Machine.execMcall h p0 p1 p2 p3 m s
  | .bkpt h code => Sys2Proof.Machine.execBkpt h code s
  | .waita h d a => Sys2Proof.Machine.execWaita h d a s
  | .waitaTimeout p => Sys2Proof.Machine.execWaitaTimeout p s
  | .sleep h a => Sys2Proof.Machine.execSleep h a s
  | .sleepImm h n => Sys2Proof.Machine.execSleepImm h n s
  | .sleepExpiry p => Sys2Proof.Machine.execSleepExpiry p s
  | .elect h d a => Sys2Proof.Machine.execElect h d a s
  | .smov h d a => Sys2Proof.Machine.execSmov h d a s
  | .smovi h ty d imm => Sys2Proof.Machine.execSmovi h ty d imm s
  | .smovq h d imm => Sys2Proof.Machine.execSmovq h d imm s
  | .sadd h ty sat d a b => Sys2Proof.Machine.execSadd h ty sat d a b s
  | .ssub h ty sat d a b => Sys2Proof.Machine.execSsub h ty sat d a b s
  | .smul h ty sat d a b => Sys2Proof.Machine.execSmul h ty sat d a b s
  | .smulh h ty d a b => Sys2Proof.Machine.execSmulh h ty d a b s
  | .sdiv h ty d a b => Sys2Proof.Machine.execSdiv h ty d a b s
  | .srem h ty d a b => Sys2Proof.Machine.execSrem h ty d a b s
  | .sand h d a b => Sys2Proof.Machine.execSand h d a b s
  | .sor h d a b => Sys2Proof.Machine.execSor h d a b s
  | .sxor h d a b => Sys2Proof.Machine.execSxor h d a b s
  | .sshl h ty d a b => Sys2Proof.Machine.execSshl h ty d a b s
  | .sshr h ty d a b => Sys2Proof.Machine.execSshr h ty d a b s
  | .ssar h d a b => Sys2Proof.Machine.execSsar h d a b s
  | .smin h ty d a b => Sys2Proof.Machine.execSmin h ty d a b s
  | .smax h ty d a b => Sys2Proof.Machine.execSmax h ty d a b s
  | .scmp h ty cond d a b => Sys2Proof.Machine.execScmp h ty cond d a b s
  | .ssel h d a b c => Sys2Proof.Machine.execSsel h d a b c s
  | .slea h ty d a b sh => Sys2Proof.Machine.execSlea h ty d a b sh s
  | .sclz h d a => Sys2Proof.Machine.execSclz h d a s
  | .spopc h d a => Sys2Proof.Machine.execSpopc h d a s
  | .sbfe h ty d a b w => Sys2Proof.Machine.execSbfe h ty d a b w s
  | .sbfi h d a b w => Sys2Proof.Machine.execSbfi h d a b w s
  | .vmov h ty d a => Sys2Proof.Machine.execVmov h ty d a s
  | .vmovi h ty d imm => Sys2Proof.Machine.execVmovi h ty d imm s
  | .vidx h d b => Sys2Proof.Machine.execVidx h d b s
  | .vadd h ty d a b => Sys2Proof.Machine.execVadd h ty d a b s
  | .vsub h ty d a b => Sys2Proof.Machine.execVsub h ty d a b s
  | .vadds h ty d a b => Sys2Proof.Machine.execVadds h ty d a b s
  | .vsubs h ty d a b => Sys2Proof.Machine.execVsubs h ty d a b s
  | .vmul h ty sat d a b => Sys2Proof.Machine.execVmul h ty sat d a b s
  | .vmulh h ty d a b => Sys2Proof.Machine.execVmulh h ty d a b s
  | .vmad h ty sat d a b c => Sys2Proof.Machine.execVmad h ty sat d a b c s
  | .vmin h ty d a b => Sys2Proof.Machine.execVmin h ty d a b s
  | .vmax h ty d a b => Sys2Proof.Machine.execVmax h ty d a b s
  | .vabs h ty sat d a => Sys2Proof.Machine.execVabs h ty sat d a s
  | .vneg h ty sat d a => Sys2Proof.Machine.execVneg h ty sat d a s
  | .vand h ty d a b => Sys2Proof.Machine.execVand h ty d a b s
  | .vor h ty d a b => Sys2Proof.Machine.execVor h ty d a b s
  | .vxor h ty d a b => Sys2Proof.Machine.execVxor h ty d a b s
  | .vnot h ty d a => Sys2Proof.Machine.execVnot h ty d a s
  | .vshl h ty d a b => Sys2Proof.Machine.execVshl h ty d a b s
  | .vshr h ty d a b => Sys2Proof.Machine.execVshr h ty d a b s
  | .vsar h ty d a b => Sys2Proof.Machine.execVsar h ty d a b s
  | .vrot h d a b => Sys2Proof.Machine.execVrot h d a b s
  | .vbfe h ty d a b w => Sys2Proof.Machine.execVbfe h ty d a b w s
  | .vbfi h d a b w => Sys2Proof.Machine.execVbfi h d a b w s
  | .vclz h d a => Sys2Proof.Machine.execVclz h d a s
  | .vpopc h d a => Sys2Proof.Machine.execVpopc h d a s
  | .vbrev h d a => Sys2Proof.Machine.execVbrev h d a s
  | .vcmp h ty cond d a b => Sys2Proof.Machine.execVcmp h ty cond d a b s
  | .vsel h ty d a b c => Sys2Proof.Machine.execVsel h ty d a b c s
  | .vlea h ty d a b sh => Sys2Proof.Machine.execVlea h ty d a b sh s
  | .vfadd h ty rnd d a b => Sys2Proof.Machine.execVfadd h ty rnd d a b s
  | .vfsub h ty rnd d a b => Sys2Proof.Machine.execVfsub h ty rnd d a b s
  | .vfmul h ty rnd d a b => Sys2Proof.Machine.execVfmul h ty rnd d a b s
  | .vfma h ty rnd d a b c => Sys2Proof.Machine.execVfma h ty rnd d a b c s
  | .vfnma h ty rnd d a b c => Sys2Proof.Machine.execVfnma h ty rnd d a b c s
  | .vfmin h ty d a b => Sys2Proof.Machine.execVfmin h ty d a b s
  | .vfmax h ty d a b => Sys2Proof.Machine.execVfmax h ty d a b s
  | .vfabs h ty d a => Sys2Proof.Machine.execVfabs h ty d a s
  | .vfneg h ty d a => Sys2Proof.Machine.execVfneg h ty d a s
  | .vfcmp h ty cond d a b => Sys2Proof.Machine.execVfcmp h ty cond d a b s
  | .vfclass h ty d a => Sys2Proof.Machine.execVfclass h ty d a s
  | .vfdiv h ty rnd d a b => Sys2Proof.Machine.execVfdiv h ty rnd d a b s
  | .vrcp h ty d a => Sys2Proof.Machine.execVrcp h ty d a s
  | .vrsq h ty d a => Sys2Proof.Machine.execVrsq h ty d a s
  | .vsqrt h ty rnd d a => Sys2Proof.Machine.execVsqrt h ty rnd d a s
  | .vexp2 h ty d a => Sys2Proof.Machine.execVexp2 h ty d a s
  | .vlog2 h ty d a => Sys2Proof.Machine.execVlog2 h ty d a s
  | .vsin h ty d a => Sys2Proof.Machine.execVsin h ty d a s
  | .vcos h ty d a => Sys2Proof.Machine.execVcos h ty d a s
  | .vtanh h ty d a => Sys2Proof.Machine.execVtanh h ty d a s
  | .vfloor h ty d a => Sys2Proof.Machine.execVfloor h ty d a s
  | .vceil h ty d a => Sys2Proof.Machine.execVceil h ty d a s
  | .vfract h ty rnd d a => Sys2Proof.Machine.execVfract h ty rnd d a s
  | .vfscale h ty rnd d a b => Sys2Proof.Machine.execVfscale h ty rnd d a b s
  | .vcvt h dt st rnd sat d a => Sys2Proof.Machine.execVcvt h dt st rnd sat d a s
  | .vpack h dt rnd sat d a b p => Sys2Proof.Machine.execVpack h dt rnd sat d a b p s
  | .vunpk h dt st d a p => Sys2Proof.Machine.execVunpk h dt st d a p s
  | .vquant h dt rnd d a c p => Sys2Proof.Machine.execVquant h dt rnd d a c p s
  | .vdeq h st rnd d a b p => Sys2Proof.Machine.execVdeq h st rnd d a b p s
  | .vsplit6 h ty lo d a p => Sys2Proof.Machine.execVsplit6 h ty lo d a p s
  | .vjoin6 h ty d a b p => Sys2Proof.Machine.execVjoin6 h ty d a b p s
  | .vdot8 h ty rnd sat d a b => Sys2Proof.Machine.execVdot8 h ty rnd sat d a b s
  | .vdot4 h ty rnd sat d a b => Sys2Proof.Machine.execVdot4 h ty rnd sat d a b s
  | .vtag h d a tag => Sys2Proof.Machine.execVtag h d a tag s
  | .vsrnd h a => Sys2Proof.Machine.execVsrnd h a s
  | .vsrndDraw h d => Sys2Proof.Machine.execVsrndDraw h d s
  | .vshfl h ty mode d a b fill => Sys2Proof.Machine.execVshfl h ty mode d a b fill s
  | .vbcast h ty d a b fill => Sys2Proof.Machine.execVbcast h ty d a b fill s
  | .vlrot h ty d a b fill => Sys2Proof.Machine.execVlrot h ty d a b fill s
  | .vred h ty op rnd d a => Sys2Proof.Machine.execVred h ty op rnd d a s
  | .vscan h ty op rnd d a => Sys2Proof.Machine.execVscan h ty op rnd d a s
  | .vballot h d a => Sys2Proof.Machine.execVballot h d a s
  | .vmatch h ty d a => Sys2Proof.Machine.execVmatch h ty d a s
  | .pset h d a => Sys2Proof.Machine.execPset h d a s
  | .psetImm h d imm => Sys2Proof.Machine.execPsetImm h d imm s
  | .pand h d a b => Sys2Proof.Machine.execPand h d a b s
  | .por h d a b => Sys2Proof.Machine.execPor h d a b s
  | .pxor h d a b => Sys2Proof.Machine.execPxor h d a b s
  | .pnot h d a => Sys2Proof.Machine.execPnot h d a s
  | .pmov h d a => Sys2Proof.Machine.execPmov h d a s
  | .pcnt h d a => Sys2Proof.Machine.execPcnt h d a s
  | .pfirst h d a => Sys2Proof.Machine.execPfirst h d a s
  | .xacq h n => Sys2Proof.Machine.execXacq h n s
  | .xrel h => Sys2Proof.Machine.execXrel h s
  | .sread h d sr => Sys2Proof.Machine.execSread h d sr s
  | .swrite h sr a => Sys2Proof.Machine.execSwrite h sr a s
  | .genq h which d => Sys2Proof.Machine.execGenq h which d s
  | .tagq h d src => Sys2Proof.Machine.execTagq h d src s
  | .rdtime h dom d => Sys2Proof.Machine.execRdtime h dom d s
  | .lread h d a => Sys2Proof.Machine.execLread h d a s
  | .ctxsave h a => Sys2Proof.Machine.execCtxsave h a s
  | .ctxload h a => Sys2Proof.Machine.execCtxload h a s
  | .ldl h ty d m => Sys2Proof.Machine.execLdl h ty d m s
  | .stl h ty d m => Sys2Proof.Machine.execStl h ty d m s
  | .lds h ty d m => Sys2Proof.Machine.execLds h ty d m s
  | .sts h ty d m => Sys2Proof.Machine.execSts h ty d m s
  | .ldg h ty d m => Sys2Proof.Machine.execLdg h ty d m s
  | .stg h ty d m => Sys2Proof.Machine.execStg h ty d m s
  | .ldx h ty d m => Sys2Proof.Machine.execLdx h ty d m s
  | .stx h ty d m => Sys2Proof.Machine.execStx h ty d m s
  | .ldb h ty d base off => Sys2Proof.Machine.execLdb h ty d base off s
  | .ldbLoc h ty d base off => Sys2Proof.Machine.execLdbLoc h ty d base off s
  | .lda h ty ord scp d m => Sys2Proof.Machine.execLda h ty ord scp d m s
  | .str h ty ord scp c m => Sys2Proof.Machine.execStr h ty ord scp c m s
  | .atom h ty op ord scp d a b off c => Sys2Proof.Machine.execAtom h ty op ord scp d a b off c s
  | .atomn h ty op ord scp a b off c => Sys2Proof.Machine.execAtomn h ty op ord scp a b off c s
  | .acas h ty ord scp d a b off c => Sys2Proof.Machine.execAcas h ty ord scp d a b off c s
  | .fence h ord scp => Sys2Proof.Machine.execFence h ord scp s
  | .prefg h m => Sys2Proof.Machine.execPrefg h m s
  | .cflush h m => Sys2Proof.Machine.execCflush h m s
  | .cflushAll h => Sys2Proof.Machine.execCflushAll h s
  | .abinit h b a => Sys2Proof.Machine.execAbinit h b a s
  | .abexp h b a => Sys2Proof.Machine.execAbexp h b a s
  | .abarr h b a => Sys2Proof.Machine.execAbarr h b a s
  | .abwait h b a => Sys2Proof.Machine.execAbwait h b a s
  | .abtest h d b a => Sys2Proof.Machine.execAbtest h d b a s
  | .abtestPar h d b a => Sys2Proof.Machine.execAbtestPar h d b a s
  | .abret h b => Sys2Proof.Machine.execAbret h b s
  | .abq h w d b => Sys2Proof.Machine.execAbq h w d b s
  | .cbar h => Sys2Proof.Machine.execCbar h s
  | .sbar h => Sys2Proof.Machine.execSbar h s
  | .tfetch h ord scp sl a b c => Sys2Proof.Machine.execTfetch h ord scp sl a b c s
  | .tstore h ord scp sl a b c => Sys2Proof.Machine.execTstore h ord scp sl a b c s
  | .twin h a => Sys2Proof.Machine.execTwin h a s
  | .twq h w d => Sys2Proof.Machine.execTwq h w d s
  | .mcopy h ord scp sl a b c => Sys2Proof.Machine.execMcopy h ord scp sl a b c s
  | .mfill h ord scp sl a b c => Sys2Proof.Machine.execMfill h ord scp sl a b c s
  | .mred h ty op ord scp sl a b c => Sys2Proof.Machine.execMred h ty op ord scp sl a b c s
  | .msnap h ord scp d a b => Sys2Proof.Machine.execMsnap h ord scp d a b s
  | .mclose h ord scp a => Sys2Proof.Machine.execMclose h ord scp a s
  | .tdset h ty d a b => Sys2Proof.Machine.execTdset h ty d a b s
  | .tdtag h d tag => Sys2Proof.Machine.execTdtag h d tag s
  | .mma h ty inc f d a b rows cols depth => Sys2Proof.Machine.execMma h ty inc f d a b rows cols depth s
  | .mmas h ty inc d a b rows cols depth => Sys2Proof.Machine.execMmas h ty inc d a b rows cols depth s
  | .mzero h d ms => Sys2Proof.Machine.execMzero h d ms s
  | .mew h ty op d a ms => Sys2Proof.Machine.execMew h ty op d a ms s
  | .mst h ty rnd sat d a ms => Sys2Proof.Machine.execMst h ty rnd sat d a ms s
  | .mlda h ty d a ms => Sys2Proof.Machine.execMlda h ty d a ms s
  | .mrdv h ty rnd sat part d a r => Sys2Proof.Machine.execMrdv h ty rnd sat part d a r s
  | .mwrv h ty part d a r => Sys2Proof.Machine.execMwrv h ty part d a r s
  | .mtrn h d a => Sys2Proof.Machine.execMtrn h d a s
  | .mfen h ord scp sl => Sys2Proof.Machine.execMfen h ord scp sl s
  | .mfenNoarrive h scp => Sys2Proof.Machine.execMfenNoarrive h scp s
  | .mig h d base idx off j => Sys2Proof.Machine.execMig h d base idx off j s
  | .home h => Sys2Proof.Machine.execHome h s
  | .migset h part wb mask => Sys2Proof.Machine.execMigset h part wb mask s
  | .migsetHome h j => Sys2Proof.Machine.execMigsetHome h j s
  | .migq h w d => Sys2Proof.Machine.execMigq h w d s
  | .bsadd h sat d a b c wa wb wd sg => Sys2Proof.Machine.execBsadd h sat d a b c wa wb wd sg s
  | .bsmul h sat d a b c wa wb wd sg => Sys2Proof.Machine.execBsmul h sat d a b c wa wb wd sg s
  | .bsmac h sat d a b c wa wb wd sg => Sys2Proof.Machine.execBsmac h sat d a b c wa wb wd sg s
  | .bscmp h cond d a b c wa wb wd sg => Sys2Proof.Machine.execBscmp h cond d a b c wa wb wd sg s
  | .bspopc h d a c wa sg => Sys2Proof.Machine.execBspopc h d a c wa sg s
  | .xsend h ord scp d a b c => Sys2Proof.Machine.execXsend h ord scp d a b c s
  | .xsendNobar h ord scp a b c => Sys2Proof.Machine.execXsendNobar h ord scp a b c s
  | .xsendf h ord scp d a b c => Sys2Proof.Machine.execXsendf h ord scp d a b c s
  | .xget h ty ord scp d a b => Sys2Proof.Machine.execXget h ty ord scp d a b s
  | .xatom h ty op ord scp d a b c => Sys2Proof.Machine.execXatom h ty op ord scp d a b c s
  | .xmcast h ord scp d a b g len slot bv => Sys2Proof.Machine.execXmcast h ord scp d a b g len slot bv s
  | .xfence h scp => Sys2Proof.Machine.execXfence h scp s
  | .xred h ty srnd ord scp d a b c => Sys2Proof.Machine.execXred h ty srnd ord scp d a b c s
  | .xresid h op => Sys2Proof.Machine.execXresid h op s
  | .xgrpSet h g a => Sys2Proof.Machine.execXgrpSet h g a s
  | .xgrpGet h g a => Sys2Proof.Machine.execXgrpGet h g a s
  | .lnch h d a => Sys2Proof.Machine.execLnch h d a s
  | .larm h d a b => Sys2Proof.Machine.execLarm h d a b s
  | .ldep h a => Sys2Proof.Machine.execLdep h a s
  | .lprio h a b => Sys2Proof.Machine.execLprio h a b s
  | .lwait h d a => Sys2Proof.Machine.execLwait h d a s
  | .rrset h a b c own ctx n => Sys2Proof.Machine.execRrset h a b c own ctx n s
  | .rrinv h own ctx mask => Sys2Proof.Machine.execRrinv h own ctx mask s
  | .pginv h a b => Sys2Proof.Machine.execPginv h a b s
  | .pginvMod h a => Sys2Proof.Machine.execPginvMod h a s
  | .wcsld h a m n => Sys2Proof.Machine.execWcsld h a m n s
  | .wcsldAll h a m n => Sys2Proof.Machine.execWcsldAll h a m n s
  | .evpost h a b c => Sys2Proof.Machine.execEvpost h a b c s
  | .preq h d a => Sys2Proof.Machine.execPreq h d a s
  | .preqRel h a => Sys2Proof.Machine.execPreqRel h a s
  | .dbgrd h w d a => Sys2Proof.Machine.execDbgrd h w d a s
  | .gensweep h => Sys2Proof.Machine.execGensweep h s
  | .gensweepSlice h => Sys2Proof.Machine.execGensweepSlice h s
  | .loadLaneReturn p id lane => Sys2Proof.Machine.execLoadLaneReturn p id lane s
  | .memoryFaultSettle p b => Sys2Proof.Machine.execMemoryFaultSettle p b s
  | .trapEntry p b => Sys2Proof.Machine.execTrapEntry p b s
  | .extendedBlockGrant core => Sys2Proof.Machine.execExtendedBlockGrant core s
  | .compactorMove core => Sys2Proof.Machine.execCompactorMove core s
  | .compactorMoveDone core => Sys2Proof.Machine.execCompactorMoveDone core s
  | .sweeperPassEnd slice n => Sys2Proof.Machine.execSweeperPassEnd slice n s
  | .submissionWrite ctx off data => Sys2Proof.Machine.execSubmissionWrite ctx off data s
  | .orreryAdmit => Sys2Proof.Machine.execOrreryAdmit s
  | .spanPlacement => Sys2Proof.Machine.execSpanPlacement s
  | .crewRetire crew => Sys2Proof.Machine.execCrewRetire crew s
  | .preemptionWaitExpiry launch => Sys2Proof.Machine.execPreemptionWaitExpiry launch s
  | .spanSave span => Sys2Proof.Machine.execSpanSave span s
  | .spanRestore span => Sys2Proof.Machine.execSpanRestore span s
  | .recallTimeout p => Sys2Proof.Machine.execRecallTimeout p s
  | .chunkSend core => Sys2Proof.Machine.execChunkSend core s
  | .chunkArrival id => Sys2Proof.Machine.execChunkArrival id s
  | .matrixCommandExecute core => Sys2Proof.Machine.execMatrixCommandExecute core s
  | .matrixCommandComplete core => Sys2Proof.Machine.execMatrixCommandComplete core s
  | .matrixBurstEnd core => Sys2Proof.Machine.execMatrixBurstEnd core s
  | .permitGrant power => Sys2Proof.Machine.execPermitGrant power s
  | .moduleRoomReport m => Sys2Proof.Machine.execModuleRoomReport m s
  | .reservationExpiry ctx num => Sys2Proof.Machine.execReservationExpiry ctx num s
  | .eventQueueRecheck => Sys2Proof.Machine.execEventQueueRecheck s
  | .continuationDepart id => Sys2Proof.Machine.execContinuationDepart id s
  | .continuationArrival id => Sys2Proof.Machine.execContinuationArrival id s
  | .migrationReturn id => Sys2Proof.Machine.execMigrationReturn id s
  | .frameSend fibre => Sys2Proof.Machine.execFrameSend fibre s
  | .frameWrite fibre f => Sys2Proof.Machine.execFrameWrite fibre f s
  | .frameReadRequest fibre f => Sys2Proof.Machine.execFrameReadRequest fibre f s
  | .frameReadResponse fibre f => Sys2Proof.Machine.execFrameReadResponse fibre f s
  | .frameAtomicRequest fibre f => Sys2Proof.Machine.execFrameAtomicRequest fibre f s
  | .frameAtomicResponse fibre f => Sys2Proof.Machine.execFrameAtomicResponse fibre f s
  | .frameEndToEndAck fibre f => Sys2Proof.Machine.execFrameEndToEndAck fibre f s
  | .frameMulticast fibre f => Sys2Proof.Machine.execFrameMulticast fibre f s
  | .frameIdle fibre f => Sys2Proof.Machine.execFrameIdle fibre f s
  | .replayRequest fibre f => Sys2Proof.Machine.execReplayRequest fibre f s
  | .frameModuleCompletion fibre f => Sys2Proof.Machine.execFrameModuleCompletion fibre f s
  | .frameCorrupt fibre => Sys2Proof.Machine.execFrameCorrupt fibre s
  | .replayTimeout fibre => Sys2Proof.Machine.execReplayTimeout fibre s
  | .relayForward id => Sys2Proof.Machine.execRelayForward id s
  | .relayLossTimeout peer => Sys2Proof.Machine.execRelayLossTimeout peer s
  | .multicastMemberTimeout xid child => Sys2Proof.Machine.execMulticastMemberTimeout xid child s
  | .rotorSlotBoundary plane => Sys2Proof.Machine.execRotorSlotBoundary plane s
  | .guardBeacon plane cycle slot domain => Sys2Proof.Machine.execGuardBeacon plane cycle slot domain s
  | .rotorPlaneFailure plane offset => Sys2Proof.Machine.execRotorPlaneFailure plane offset s
  | .rotorPlaneRestore plane offset => Sys2Proof.Machine.execRotorPlaneRestore plane offset s
  | .wavelengthWindowEnd fibre wl corrected => Sys2Proof.Machine.execWavelengthWindowEnd fibre wl corrected s
  | .uncorrectableCodeword fibre group => Sys2Proof.Machine.execUncorrectableCodeword fibre group s
  | .lossOfLock fibre wl => Sys2Proof.Machine.execLossOfLock fibre wl s
  | .erasureDeclare fibre wl => Sys2Proof.Machine.execErasureDeclare fibre wl s
  | .linkEscalation fibre group => Sys2Proof.Machine.execLinkEscalation fibre group s
  | .retrainSlot fibre group lit => Sys2Proof.Machine.execRetrainSlot fibre group lit s
  | .forcedRetrain fibre group => Sys2Proof.Machine.execForcedRetrain fibre group s
  | .forcedRetrainEnd fibre group ok => Sys2Proof.Machine.execForcedRetrainEnd fibre group ok s
  | .laserAgeingThreshold fibre wl rise => Sys2Proof.Machine.execLaserAgeingThreshold fibre wl rise s
  | .theodoliteWatchdogReset engine => Sys2Proof.Machine.execTheodoliteWatchdogReset engine s
  | .theodoliteRecovered engine => Sys2Proof.Machine.execTheodoliteRecovered engine s
  | .lrRetryTimeout link => Sys2Proof.Machine.execLrRetryTimeout link s
  | .lrAckTimeout link => Sys2Proof.Machine.execLrAckTimeout link s
  | .lrTrainingAttempt link ok => Sys2Proof.Machine.execLrTrainingAttempt link ok s
  | .lrLinkTrained link keyHash rtt => Sys2Proof.Machine.execLrLinkTrained link keyHash rtt s
  | .lrLossDiscard link => Sys2Proof.Machine.execLrLossDiscard link s
  | .lrRekey link out => Sys2Proof.Machine.execLrRekey link out s
  | .lrDedupExpiry link xid daddr => Sys2Proof.Machine.execLrDedupExpiry link xid daddr s
  | .moduleFault m sub addr unit => Sys2Proof.Machine.execModuleFault m sub addr unit s
  | .moduleRecovered m => Sys2Proof.Machine.execModuleRecovered m s
  | .discardRelease launch => Sys2Proof.Machine.execDiscardRelease launch s
  | .thermalWarning temp => Sys2Proof.Machine.execThermalWarning temp s
  | .thermalThrottle temp => Sys2Proof.Machine.execThermalThrottle temp s
  | .thermalRecover temp => Sys2Proof.Machine.execThermalRecover temp s
  | .powerExcursion power => Sys2Proof.Machine.execPowerExcursion power s
  | .thermalShutdown temp => Sys2Proof.Machine.execThermalShutdown temp s
  | .coldReset => Sys2Proof.Machine.execColdReset s
  | .identityEntry => Sys2Proof.Machine.execIdentityEntry s
  | .stateReqOptics => Sys2Proof.Machine.execStateReqOptics s
  | .opticsTrainingDone ok => Sys2Proof.Machine.execOpticsTrainingDone ok s
  | .stateReqMapped => Sys2Proof.Machine.execStateReqMapped s
  | .stateReqOperational => Sys2Proof.Machine.execStateReqOperational s
  | .ctxCreate c w => Sys2Proof.Machine.execCtxCreate c w s
  | .ctxDelete c => Sys2Proof.Machine.execCtxDelete c s
  | .ctxPreSet c => Sys2Proof.Machine.execCtxPreSet c s
  | .ctxPreClear c => Sys2Proof.Machine.execCtxPreClear c s
  | .splitRequest fibre n => Sys2Proof.Machine.execSplitRequest fibre n s
  | .invarCheckpoint => Sys2Proof.Machine.execInvarCheckpoint s
  | .checkpointDone ok us => Sys2Proof.Machine.execCheckpointDone ok us s
  | .invarPersist => Sys2Proof.Machine.execInvarPersist s
  | .persistDone ok us => Sys2Proof.Machine.execPersistDone ok us s
  | .invarRestore => Sys2Proof.Machine.execInvarRestore s
  | .restoreDone ok us => Sys2Proof.Machine.execRestoreDone ok us s
  | .qctlSign => Sys2Proof.Machine.execQctlSign s
  | .quoteReady => Sys2Proof.Machine.execQuoteReady s
  | .hostWindowRead off n => Sys2Proof.Machine.execHostWindowRead off n s
  | .hostWindowWrite off data => Sys2Proof.Machine.execHostWindowWrite off data s
  | .registerWrite off val => Sys2Proof.Machine.execRegisterWrite off val s
  | .powerExcursionEnd power => Sys2Proof.Machine.execPowerExcursionEnd power s
  | .firmwareStagingWrite off data => Sys2Proof.Machine.execFirmwareStagingWrite off data s

end Sys2Proof.Machine
end

