-- ==== Sys2Proof/Machine/Events.lean ====
section
/-!
DEFINITION. A due event runs as the meaning of its constructor of `Instr` says.
-/

namespace Sys2Proof.Machine

open Sys2Proof

/-- One due event. -/
def runEvent (e : Event) (s : State) : Host.Outcome State Fault Refusal :=
  match e with
  | .waitaTimeout p => Sys2Proof.Machine.execWaitaTimeout p s
  | .sleepExpiry p => Sys2Proof.Machine.execSleepExpiry p s
  | .loadLaneReturn p id lane => Sys2Proof.Machine.execLoadLaneReturn p id lane s
  | .memoryFaultSettle p b => Sys2Proof.Machine.execMemoryFaultSettle p b s
  | .trapEntry p b => Sys2Proof.Machine.execTrapEntry p b s
  | .extendedBlockGrant core => Sys2Proof.Machine.execExtendedBlockGrant core s
  | .compactorMove core => Sys2Proof.Machine.execCompactorMove core s
  | .compactorMoveDone core => Sys2Proof.Machine.execCompactorMoveDone core s
  | .sweeperPassEnd slice n => Sys2Proof.Machine.execSweeperPassEnd slice n s
  | .submissionWrite ctx off data => Sys2Proof.Machine.execSubmissionWrite ctx off data s
  | .orreryAdmit => Sys2Proof.Machine.execOrreryAdmit s
  | .spanPlacement => Sys2Proof.Machine.execSpanPlacement s
  | .crewRetire crew => Sys2Proof.Machine.execCrewRetire crew s
  | .preemptionWaitExpiry launch => Sys2Proof.Machine.execPreemptionWaitExpiry launch s
  | .spanSave span => Sys2Proof.Machine.execSpanSave span s
  | .spanRestore span => Sys2Proof.Machine.execSpanRestore span s
  | .recallTimeout p => Sys2Proof.Machine.execRecallTimeout p s
  | .chunkSend core => Sys2Proof.Machine.execChunkSend core s
  | .chunkArrival id => Sys2Proof.Machine.execChunkArrival id s
  | .matrixCommandExecute core => Sys2Proof.Machine.execMatrixCommandExecute core s
  | .matrixCommandComplete core => Sys2Proof.Machine.execMatrixCommandComplete core s
  | .matrixBurstEnd core => Sys2Proof.Machine.execMatrixBurstEnd core s
  | .permitGrant power => Sys2Proof.Machine.execPermitGrant power s
  | .moduleRoomReport m => Sys2Proof.Machine.execModuleRoomReport m s
  | .reservationExpiry ctx num => Sys2Proof.Machine.execReservationExpiry ctx num s
  | .eventQueueRecheck => Sys2Proof.Machine.execEventQueueRecheck s
  | .continuationDepart id => Sys2Proof.Machine.execContinuationDepart id s
  | .continuationArrival id => Sys2Proof.Machine.execContinuationArrival id s
  | .migrationReturn id => Sys2Proof.Machine.execMigrationReturn id s
  | .frameSend fibre => Sys2Proof.Machine.execFrameSend fibre s
  | .frameWrite fibre f => Sys2Proof.Machine.execFrameWrite fibre f s
  | .frameReadRequest fibre f => Sys2Proof.Machine.execFrameReadRequest fibre f s
  | .frameReadResponse fibre f => Sys2Proof.Machine.execFrameReadResponse fibre f s
  | .frameAtomicRequest fibre f => Sys2Proof.Machine.execFrameAtomicRequest fibre f s
  | .frameAtomicResponse fibre f => Sys2Proof.Machine.execFrameAtomicResponse fibre f s
  | .frameEndToEndAck fibre f => Sys2Proof.Machine.execFrameEndToEndAck fibre f s
  | .frameMulticast fibre f => Sys2Proof.Machine.execFrameMulticast fibre f s
  | .frameIdle fibre f => Sys2Proof.Machine.execFrameIdle fibre f s
  | .replayRequest fibre f => Sys2Proof.Machine.execReplayRequest fibre f s
  | .frameModuleCompletion fibre f => Sys2Proof.Machine.execFrameModuleCompletion fibre f s
  | .frameCorrupt fibre => Sys2Proof.Machine.execFrameCorrupt fibre s
  | .replayTimeout fibre => Sys2Proof.Machine.execReplayTimeout fibre s
  | .relayForward id => Sys2Proof.Machine.execRelayForward id s
  | .relayLossTimeout peer => Sys2Proof.Machine.execRelayLossTimeout peer s
  | .multicastMemberTimeout xid child => Sys2Proof.Machine.execMulticastMemberTimeout xid child s
  | .rotorSlotBoundary plane => Sys2Proof.Machine.execRotorSlotBoundary plane s
  | .guardBeacon plane cycle slot domain => Sys2Proof.Machine.execGuardBeacon plane cycle slot domain s
  | .rotorPlaneFailure plane offset => Sys2Proof.Machine.execRotorPlaneFailure plane offset s
  | .rotorPlaneRestore plane offset => Sys2Proof.Machine.execRotorPlaneRestore plane offset s
  | .wavelengthWindowEnd fibre wl corrected => Sys2Proof.Machine.execWavelengthWindowEnd fibre wl corrected s
  | .uncorrectableCodeword fibre group => Sys2Proof.Machine.execUncorrectableCodeword fibre group s
  | .lossOfLock fibre wl => Sys2Proof.Machine.execLossOfLock fibre wl s
  | .erasureDeclare fibre wl => Sys2Proof.Machine.execErasureDeclare fibre wl s
  | .linkEscalation fibre group => Sys2Proof.Machine.execLinkEscalation fibre group s
  | .retrainSlot fibre group lit => Sys2Proof.Machine.execRetrainSlot fibre group lit s
  | .forcedRetrain fibre group => Sys2Proof.Machine.execForcedRetrain fibre group s
  | .forcedRetrainEnd fibre group ok => Sys2Proof.Machine.execForcedRetrainEnd fibre group ok s
  | .laserAgeingThreshold fibre wl rise => Sys2Proof.Machine.execLaserAgeingThreshold fibre wl rise s
  | .theodoliteWatchdogReset engine => Sys2Proof.Machine.execTheodoliteWatchdogReset engine s
  | .theodoliteRecovered engine => Sys2Proof.Machine.execTheodoliteRecovered engine s
  | .lrRetryTimeout link => Sys2Proof.Machine.execLrRetryTimeout link s
  | .lrAckTimeout link => Sys2Proof.Machine.execLrAckTimeout link s
  | .lrTrainingAttempt link ok => Sys2Proof.Machine.execLrTrainingAttempt link ok s
  | .lrLinkTrained link keyHash rtt => Sys2Proof.Machine.execLrLinkTrained link keyHash rtt s
  | .lrLossDiscard link => Sys2Proof.Machine.execLrLossDiscard link s
  | .lrRekey link out => Sys2Proof.Machine.execLrRekey link out s
  | .lrDedupExpiry link xid daddr => Sys2Proof.Machine.execLrDedupExpiry link xid daddr s
  | .moduleFault m sub addr unit => Sys2Proof.Machine.execModuleFault m sub addr unit s
  | .moduleRecovered m => Sys2Proof.Machine.execModuleRecovered m s
  | .discardRelease launch => Sys2Proof.Machine.execDiscardRelease launch s
  | .thermalWarning temp => Sys2Proof.Machine.execThermalWarning temp s
  | .thermalThrottle temp => Sys2Proof.Machine.execThermalThrottle temp s
  | .thermalRecover temp => Sys2Proof.Machine.execThermalRecover temp s
  | .powerExcursion power => Sys2Proof.Machine.execPowerExcursion power s
  | .thermalShutdown temp => Sys2Proof.Machine.execThermalShutdown temp s
  | .coldReset => Sys2Proof.Machine.execColdReset s
  | .identityEntry => Sys2Proof.Machine.execIdentityEntry s
  | .stateReqOptics => Sys2Proof.Machine.execStateReqOptics s
  | .opticsTrainingDone ok => Sys2Proof.Machine.execOpticsTrainingDone ok s
  | .stateReqMapped => Sys2Proof.Machine.execStateReqMapped s
  | .stateReqOperational => Sys2Proof.Machine.execStateReqOperational s
  | .ctxCreate c w => Sys2Proof.Machine.execCtxCreate c w s
  | .ctxDelete c => Sys2Proof.Machine.execCtxDelete c s
  | .ctxPreSet c => Sys2Proof.Machine.execCtxPreSet c s
  | .ctxPreClear c => Sys2Proof.Machine.execCtxPreClear c s
  | .splitRequest fibre n => Sys2Proof.Machine.execSplitRequest fibre n s
  | .invarCheckpoint => Sys2Proof.Machine.execInvarCheckpoint s
  | .checkpointDone ok us => Sys2Proof.Machine.execCheckpointDone ok us s
  | .invarPersist => Sys2Proof.Machine.execInvarPersist s
  | .persistDone ok us => Sys2Proof.Machine.execPersistDone ok us s
  | .invarRestore => Sys2Proof.Machine.execInvarRestore s
  | .restoreDone ok us => Sys2Proof.Machine.execRestoreDone ok us s
  | .qctlSign => Sys2Proof.Machine.execQctlSign s
  | .quoteReady => Sys2Proof.Machine.execQuoteReady s
  | .hostWindowRead off n => Sys2Proof.Machine.execHostWindowRead off n s
  | .hostWindowWrite off data => Sys2Proof.Machine.execHostWindowWrite off data s
  | .registerWrite off val => Sys2Proof.Machine.execRegisterWrite off val s
  | .powerExcursionEnd power => Sys2Proof.Machine.execPowerExcursionEnd power s
  | .firmwareStagingWrite off data => Sys2Proof.Machine.execFirmwareStagingWrite off data s

end Sys2Proof.Machine
end

