-- ==== Sys2Proof/Machine/Step.lean ====
section
/-!
DEFINITION. The step: a due event, or the next instruction of the PC slot that R36 selects, fetched, decoded and executed;
and the state in which a given instruction comes next.
-/

namespace Sys2Proof.Machine

open Sys2Proof

/-- Applies a change to the state of an outcome. -/
def onNext (f : State → State) : Host.Outcome State Fault Refusal → Host.Outcome State Fault Refusal
  | .next s => .next (f s)
  | .fault r => .fault r
  | .refused r => .refused r

/-- One instruction of a PC slot: what is fetched executes, and its block may be kept (R149), or its fetch
traps (Table 19-1, steps 1 to 3). -/
def stepSlot (s : State) (k : Nat) (b : Bool) : Host.Outcome State Fault Refusal :=
  let s := { s with focus := k, focusB := b }.begun
  match s.fetch k b with
  | .instr i => exec i (s.keepBlock k b)
  | .trap t => .next ((s.takeTrap k b t).refill k)
  | .bad g => .next (s.contain g (s.sheaf k).launch)

/-- One step. With nothing due and nothing ready, only time passes. -/
def step (s : State) : Host.Outcome State Fault Refusal :=
  onNext State.pass
    (if s.eventFirst then
      match s.nextEvent with
      | none => .next s
      | some (e, rest) => runEvent e { s with due := rest }.begun
    else match s.select with
      | none => .next s
      | some (k, b) => stepSlot s k b)

/-- The package address at which `withFetchWord` stores the instruction: the start of cluster 0's slice. -/
def fetchBase : Nat := 2 ^ 31

/-- The launch, span, crew and sheaf that `withFetchWord` places (log entry 11). -/
def fetchRecord : LaunchRec :=
  { tag := 0
    cbar := 0
    args := 0
    spans := 0
    crews := 0
    shv := 0
    xblk := 0
    acc := 0
    scr := 0
    slice := 0
    bar := 0
    prio := 0
    strict := false
    ser := false
    nopre := false
    entry := BitVec.ofNat 64 fetchBase
    nin := 0
    next := 0
    regions := [] }

def fetchLaunch : Launch :=
  { ctx := 0
    parent := 0
    ancestors := []
    record := fetchRecord
    state := .active
    prio := 0
    preds := []
    placed := 1
    retired := 0
    arm := none
    leave := none
    eligibleAt := 0
    sub := 0
    kind := 0
    faddr := 0
    node := 0 }

/-- A privileged context whose range register 0 maps the first 4 GiB to package space for reads and fetches. -/
def fetchCtx : Ctx :=
  { Ctx.init with v := true, priv := true, rr := Ctx.init.rr.set 0 (0x15, 0xFFFFF000, 0) }

def fetchCrew : Crew :=
  { Crew.empty with launch := 1, units := 1, scrGen := 1, accGen := 2, sheaves := [0], retired := false }

def fetchSpan : Span := { Span.empty with launch := 1, state := .running, crews := [0], units := 0 }

def fetchSheaf : Sheaf :=
  { Sheaf.empty with launch := 1, baseGen := 3, srnd := 0x100000000, a := PcSlot.start (BitVec.ofNat 64 fetchBase) 0xFFFFFFFF 63 }

/-- The state in which an instruction, given by its bits as spec/opcode_table.json numbers them, is the one that the
next step fetches and runs: one sheaf is placed, alone, and its PC names the instruction's bytes (log entry 11). -/
def State.withFetchWord (s : State) (_nbits w : Nat) : State :=
  let bytes := leBytes 16 w
  { s with
    mem := (bytes.zipIdx).foldl (fun m p => Tab.set Memory.absent m (fetchBase + p.2) p.1) s.mem
    tags := Tab.set 0 s.tags (fetchBase / 32) 1
    sliceUnits := Tab.set 0 s.sliceUnits 0 1
    coreUnits := Tab.set 0 s.coreUnits 0 1
    ctxs := Tab.put s.ctxs 0 fetchCtx
    launches := Tab.put s.launches 1 fetchLaunch
    spans := Tab.put s.spans 0 fetchSpan
    crews := Tab.put s.crews 0 fetchCrew
    sheaves := [(0, fetchSheaf)]
    due := [] }

end Sys2Proof.Machine
end

