-- ==== Sys2Proof/Safety.lean ====
section
/-!
DEFINITION. Safe runs: what a state must meet, and what a step must answer, in the terms that statements use.
-/

namespace Sys2Proof.Safety

open Sys2Proof Sys2Proof.Machine

/-- The memory of a state has its canonical form. -/
def memOk (s : State) : Prop := Memory.wf s.mem = true

/-- A step neither faults nor is refused. -/
def stepOk (s : State) : Prop := ∃ t, step s = .next t

end Sys2Proof.Safety
end

