-- ==== Sys2Proof/Certificates/Slice0/Obligations.lean ====
section
/-!
DEFINITION. The statements about the machine (`Obligations.…`), with the tables they speak of (namespace `Claims`): for
each family of instructions, what the spec says each one writes.
-/

namespace Sys2Proof.Claims

open Sys2Proof Sys2Proof.Machine

/-! What a completed instruction is. -/

/-- What the spec gives an instruction: its guard, the registers and tables its checks name (Table 19-1), the conditions
of steps 12 to 14 under which it has its own effect, how it goes on, and that effect on the state it is computed in. -/
structure Form where
  h : Hdr
  c : Checks := {}
  ok : Ex → State → Prop := fun _ _ => True
  w : Ex → State → Flow := fun _ _ => .next
  f : Ex → State → State

/-- Every instruction of a table, in every form the spec gives it, has the effect of the table whenever it issues in some
lane and the table's condition holds. -/
def Completes (table : State → Instr → Option Form) : Prop :=
  ∀ (i : Instr) (s : State) (F : Form), table s i = some F → i.wf = true → s.issues i F.h F.c = true →
    F.ok (s.ex i F.h) (s.entered i F.h) →
      exec i s = .next (s.after i F.h (F.w (s.ex i F.h) (s.entered i F.h)) F.f)

/-- A word read as an integer. -/
def int {w : Nat} (signed : Bool) (x : BitVec w) : Int := if signed then x.toInt else (x.toNat : Int)

/-- An exact integer in w bits: clamped to the range of the type under .sat, else taken modulo 2^w (R69). -/
def fit (w : Nat) (signed sat : Bool) (v : Int) : BitVec w :=
  let lo : Int := if signed then -(2 : Int) ^ (w - 1) else 0
  let hi : Int := if signed then (2 : Int) ^ (w - 1) - 1 else (2 : Int) ^ w - 1
  BitVec.ofInt w (if sat then max lo (min hi v) else v)

/-- Leading zeros. -/
def leading {w : Nat} (x : BitVec w) : Nat := ((List.range w).takeWhile fun i => !x.getMsbD i).length

/-- One bits. -/
def ones {w : Nat} (x : BitVec w) : Nat := ((List.range w).filter fun i => x.getLsbD i).length

/-- The w bits of a from a position, sign-extended from the highest of them for a signed type (R185, R213). -/
def extract (n : Nat) (signed : Bool) (a : Int) (pos w : Nat) : BitVec n :=
  let f : Int := a / 2 ^ pos % 2 ^ w
  BitVec.ofInt n (if signed && decide ((2 : Int) ^ (w - 1) ≤ f) then f - 2 ^ w else f)

/-- Bits [min(pos + w − 1, n − 1) : pos] of d replaced by the low bits of a (R185, R213). -/
def insert {n : Nat} (d a : BitVec n) (pos w : Nat) : BitVec n :=
  let m : BitVec n := (BitVec.allOnes n >>> (n - w)) <<< pos
  (d &&& ~~~m) ||| ((a <<< pos) &&& m)

/-- The six integer conditions of SCMP and VCMP. -/
def cond (c : Cond) (a b : Int) : Bool :=
  match c with
  | .eq => decide (a = b)
  | .ne => decide (a ≠ b)
  | .lt => decide (a < b)
  | .le => decide (a ≤ b)
  | .gt => decide (a > b)
  | .ge => decide (a ≥ b)

/-- An entry that cannot trap in steps 12 to 14. -/
def form (h : Hdr) (uses : List Use) (f : Ex → State → State) : Option Form := some { h := h, c := { uses := uses }, f := f }

/-! Scalar instructions, Table 9-2. -/

/-- An entry of Table 9-2: its sources at sites 1 and 2, its destination, and S[D] from a and b. -/
def s2 (h : Hdr) (d a : SReg) (b : SSrc) (v : Word64 → Word64 → Word64) : Option Form :=
  form h (.src 1 (.s a.val) :: .dst (.s d.val) :: ssrcUses b)
    (fun x t => t.writeS x.k d.val (v (t.readS x.k a.val) (t.ssrc x.k b)))

def s1 (h : Hdr) (d a : SReg) (v : Word64 → Word64) : Option Form :=
  form h [.src 1 (.s a.val), .dst (.s d.val)] (fun x t => t.writeS x.k d.val (v (t.readS x.k a.val)))

def s0 (h : Hdr) (d : SReg) (v : Word64) : Option Form := form h [.dst (.s d.val)] (fun x t => t.writeS x.k d.val v)

/-- Integer arithmetic of a scalar type. -/
def sArith (ty : Ty) (sat : Bool) (f : Int → Int → Int) (a b : Word64) : Word64 :=
  fit 64 (ty == .i64) sat (f (int (ty == .i64) a) (int (ty == .i64) b))

/-- S[D] of Table 9-2 and R185. -/
def scalarForm (_ : State) : Instr → Option Form
  | .smov h d a => s1 h d a fun a => a
  | .smovi h ty d imm => s0 h d (if ty = .i64 then imm.signExtend 64 else imm.zeroExtend 64)
  | .smovq h d imm => s0 h d imm
  | .sadd h ty sat d a b => s2 h d a b (sArith ty sat (· + ·))
  | .ssub h ty sat d a b => s2 h d a b (sArith ty sat (· - ·))
  | .smul h ty sat d a b => s2 h d a b (sArith ty sat (· * ·))
  | .smulh h ty d a b => s2 h d a b (sArith ty false fun a b => a * b / 2 ^ 64)
  | .sdiv h ty d a b => s2 h d a b (sArith ty false fun a b => if b = 0 then 0 else a.tdiv b)
  | .srem h ty d a b => s2 h d a b (sArith ty false fun a b => if b = 0 then a else a - b * a.tdiv b)
  | .sand h d a b => s2 h d a b (· &&& ·)
  | .sor h d a b => s2 h d a b (· ||| ·)
  | .sxor h d a b => s2 h d a b (· ^^^ ·)
  | .sshl h _ d a b => s2 h d a b fun a b => a <<< (b.toNat % 64)
  | .sshr h _ d a b => s2 h d a b fun a b => a >>> (b.toNat % 64)
  | .ssar h d a b => s2 h d a b fun a b => a.sshiftRight (b.toNat % 64)
  | .smin h ty d a b => s2 h d a b (sArith ty false min)
  | .smax h ty d a b => s2 h d a b (sArith ty false max)
  | .scmp h ty c d a b => s2 h d a b fun a b => if cond c (int (ty == .i64) a) (int (ty == .i64) b) then 1 else 0
  | .ssel h d a b c => form h (.src 1 (.s a.val) :: .src 3 (.s c.val) :: .dst (.s d.val) :: ssrcUses b)
      (fun x t => t.writeS x.k d.val (if t.readS x.k c.val = 0 then t.ssrc x.k b else t.readS x.k a.val))
  | .slea h _ d a b sh => s2 h d a b fun a b => a + b * 2 ^ sh.toNat
  | .sclz h d a => s1 h d a fun a => BitVec.ofNat 64 (leading a)
  | .spopc h d a => s1 h d a fun a => BitVec.ofNat 64 (ones a)
  | .sbfe h ty d a b w => s2 h d a b fun a b => extract 64 (ty == .i64) (int (ty == .i64) a) (b.toNat % 64) w.toNat
  | .sbfi h d a b w => form h (.src 1 (.s a.val) :: ⟨4, .s d.val, true, true, none⟩ :: ssrcUses b)
      (fun x t => t.writeS x.k d.val
        (insert (t.readS x.k d.val) (t.readS x.k a.val) ((t.ssrc x.k b).toNat % 64) w.toNat))
  | _ => none

/-! Vector instructions. -/

/-- The lanes of Exec of a destination of a type take their values, in a pair the low halves in the even register, and
each register its format tag; every other lane follows R55. -/
def put (x : Ex) (ty : Ty) (d : VReg) (lo hi : BitVec 4) (v : Nat → Word64) (t : State) : State :=
  let u := t.writeV x.k d.val x.exec (fun L => (v L).setWidth 32) lo
  if ty.is64 then u.writeV x.k (d.val + 1) x.exec (fun L => (v L).extractLsb' 32 32) hi else u

/-- Integer types read signed (R68). -/
def signedTy (ty : Ty) : Bool := ty == .i32 || ty == .i64 || ty == .i8x4

/-- A lane's value of an integer type. -/
def lane (ty : Ty) (a : Word64) : Int := if ty.is64 then int (signedTy ty) a else int (signedTy ty) (a.setWidth 32)

/-- A lane's result of an integer type. -/
def fitLane (ty : Ty) (sat : Bool) (v : Int) : Word64 :=
  if ty.is64 then fit 64 (signedTy ty) sat v else (fit 32 (signedTy ty) sat v).setWidth 64

/-- Byte j of a packed lane. -/
def byte (a : Word64) (j : Nat) : Int := (a.extractLsb' (8 * j) 8).toInt

/-- A lane result of an exact operation; i8x4 works on each byte. -/
def vArith (ty : Ty) (sat : Bool) (f : Int → Int → Int) (a b : Word64) : Word64 :=
  if ty = .i8x4 then
    (fit 8 true sat (f (byte a 3) (byte b 3)) ++ fit 8 true sat (f (byte a 2) (byte b 2)) ++
      fit 8 true sat (f (byte a 1) (byte b 1)) ++ fit 8 true sat (f (byte a 0) (byte b 0))).setWidth 64
  else fitLane ty sat (f (lane ty a) (lane ty b))

def v2 (h : Hdr) (ty : Ty) (d : VReg) (a : VSrc) (b : BSrc) (v : Word64 → Word64 → Word64) : Option Form :=
  form h (vdst ty d ++ srcTyped 1 ty a ++ bsrcTyped ty b)
         (fun x t => put x ty d (tyTag ty) (tyTag ty) (fun L => v (t.vsrc x.k ty L a) (t.bsrc x.k ty L b)) t)

def v1 (h : Hdr) (ty : Ty) (d : VReg) (a : VSrc) (tag : BitVec 4) (v : Word64 → Word64) : Option Form :=
  form h (vdst ty d ++ srcTyped 1 ty a)
         (fun x t => put x ty d tag tag (fun L => v (t.vsrc x.k ty L a)) t)

/-- B is one 32-bit value (R213). -/
def vc (h : Hdr) (ty : Ty) (d : VReg) (a : VSrc) (b : BSrc) (v : Word64 → Word32 → Word64) : Option Form :=
  form h (vdst ty d ++ srcTyped 1 ty a ++ countUses ty b)
         (fun x t => put x ty d (tyTag ty) (tyTag ty) (fun L => v (t.vsrc x.k ty L a) (t.count32 x.k L b)) t)

/-- A shift of a lane of the width of its type. -/
def shift (ty : Ty) (f : (w : Nat) → BitVec w → Nat → BitVec w) (a : Word64) (b : Word32) : Word64 :=
  if ty.is64 then f 64 a (b.toNat % 64) else (f 32 (a.setWidth 32) (b.toNat % 32)).setWidth 64

def lane32 (f : Word32 → Word32) (a : Word64) : Word64 := (f (a.setWidth 32)).setWidth 64

/-- The tag of a source's register; a scalar or an immediate is tagged none (R208). -/
def tagOf (t : State) (k : Nat) (hi : Nat) : VSrc → BitVec 4
  | .v r => (t.readV k (r.val + hi)).fmt
  | .s _ => 0

def tagOfB (t : State) (k : Nat) (hi : Nat) : BSrc → BitVec 4
  | .r y => tagOf t k hi y
  | .imm _ => 0

/-- The lane results of Table 10-2 and R213. -/
def vecIntForm (_ : State) : Instr → Option Form
  | .vmov h ty d a => form h (vdst ty d ++ srcTyped 1 ty a)
      (fun x t => put x ty d (tagOf t x.k 0 a) (tagOf t x.k 1 a) (fun L => t.vsrc x.k ty L a) t)
  | .vmovi h ty d imm => form h (vdst ty d)
      (fun x t => put x ty d (tyTag ty) (tyTag ty) (fun _ => immB ty imm) t)
  | .vidx h d b => form h (vdst .i32 d ++ ssrcUses b)
      (fun x t => put x .i32 d 0xD 0xD (fun L => BitVec.ofNat 64 L + t.ssrc x.k b) t)
  | .vadd h ty d a b => v2 h ty d a b (vArith ty false (· + ·))
  | .vsub h ty d a b => v2 h ty d a b (vArith ty false (· - ·))
  | .vadds h ty d a b => v2 h ty d a b (vArith ty true (· + ·))
  | .vsubs h ty d a b => v2 h ty d a b (vArith ty true (· - ·))
  | .vmul h ty sat d a b => v2 h ty d a b (vArith ty sat (· * ·))
  | .vmulh h ty d a b => v2 h ty d a b (vArith ty false fun a b => a * b / 2 ^ 32)
  | .vmad h ty sat d a b c => form h (vdst ty d ++ srcTyped 1 ty a ++ bsrcTyped ty b ++ srcTyped 3 ty c)
      (fun x t => put x ty d (tyTag ty) (tyTag ty) (fun L => fitLane ty sat
        (lane ty (t.vsrc x.k ty L a) * lane ty (t.bsrc x.k ty L b) + lane ty (t.vsrc x.k ty L c))) t)
  | .vmin h ty d a b => v2 h ty d a b (vArith ty false min)
  | .vmax h ty d a b => v2 h ty d a b (vArith ty false max)
  | .vabs h ty sat d a => v1 h ty d a (tyTag ty) fun v => vArith ty sat (fun p _ => |p|) v v
  | .vneg h ty sat d a => v1 h ty d a (tyTag ty) fun v => vArith ty sat (fun p _ => -p) v v
  | .vand h ty d a b => v2 h ty d a b (· &&& ·)
  | .vor h ty d a b => v2 h ty d a b (· ||| ·)
  | .vxor h ty d a b => v2 h ty d a b (· ^^^ ·)
  | .vnot h ty d a => v1 h ty d a (tyTag ty) (~~~ ·)
  | .vshl h ty d a b => vc h ty d a b (shift ty fun _ a n => a <<< n)
  | .vshr h ty d a b => vc h ty d a b (shift ty fun _ a n => a >>> n)
  | .vsar h ty d a b => vc h ty d a b (shift ty fun _ a n => a.sshiftRight n)
  | .vrot h d a b => vc h .b32 d a b fun a b => lane32 (fun a => a.rotateLeft (b.toNat % 32)) a
  | .vbfe h ty d a b w => v2 h ty d a b fun a b =>
      (extract 32 (signedTy ty) (lane ty a) (b.toNat % 32) w.toNat).setWidth 64
  | .vbfi h d a b w => form h (vmerge d none ++ srcTyped 1 .b32 a ++ bsrcTyped .b32 b)
      (fun x t => put x .b32 d 0 0 (fun L => (insert (t.laneV x.k d.val L) ((t.vsrc x.k .b32 L a).setWidth 32)
        ((t.bsrc x.k .b32 L b).toNat % 32) w.toNat).setWidth 64) t)
  | .vclz h d a => v1 h .b32 d a 0xD (lane32 fun a => BitVec.ofNat 32 (leading a))
  | .vpopc h d a => v1 h .b32 d a 0xD (lane32 fun a => BitVec.ofNat 32 (ones a))
  | .vbrev h d a => v1 h .b32 d a 0 (lane32 BitVec.reverse)
  | .vcmp h ty c d a b => form h (.dst (.p d.val) :: srcTyped 1 ty a ++ bsrcTyped ty b)
      (fun x t => t.writeP x.k d.val x.exec
        (mask32 fun L => cond c (lane ty (t.vsrc x.k ty L a)) (lane ty (t.bsrc x.k ty L b))))
  | .vsel h ty d a b c => form h (vdst ty d ++ srcTyped 1 ty a ++ bsrcTyped ty b ++ [.src 3 (.p c.val)])
      (fun x t =>
        let same := fun (n : Nat) => if tagOf t x.k n a = tagOfB t x.k n b then tagOf t x.k n a else 0
        put x ty d (same 0) (same 1)
          (fun L => if (t.readP x.k c.val).getLsbD L then t.vsrc x.k ty L a else t.bsrc x.k ty L b) t)
  | .vlea h ty d a b sh => vc h ty d a b fun a b =>
      fitLane ty false (lane ty a + int (signedTy ty) b * 2 ^ sh.toNat)
  | _ => none

/-! Float instructions, Table 10-3. -/

/-- Element j of a lane of a float type, as bits. -/
def elem (ty : Ty) (a : Word64) (j : Nat) : Nat :=
  if ty = .f16x2 ∨ ty = .bf16x2 then (a.extractLsb' (16 * j) 16).toNat
  else if ty = .f64 then a.toNat else (a.setWidth 32).toNat

/-- A lane of a float type from the bits of its elements. -/
def join (ty : Ty) (e : Nat → Nat) : Word64 :=
  if ty = .f16x2 ∨ ty = .bf16x2 then (BitVec.ofNat 16 (e 1) ++ BitVec.ofNat 16 (e 0)).setWidth 64
  else if ty = .f64 then BitVec.ofNat 64 (e 0) else (BitVec.ofNat 32 (e 0)).setWidth 64

/-- The value of element j. -/
def fval (ty : Ty) (a : Word64) (j : Nat) : FV := (tyFmt ty).decode (elem ty a j)

/-- An instruction that rounds stochastically steps sr.srnd once when it commits (R76). -/
def stepped (x : Ex) (rnd : Rnd) (u : State) : State :=
  if rnd = .srnd then u.modSheaf x.k fun y => { y with srnd := stepState y.srnd } else u

/-- A correctly rounded instruction: each element is the exact value rounded once by its mode (R74, R76). -/
def fr (h : Hdr) (ty : Ty) (rnd : Rnd) (d : VReg) (uses : List Use) (v : State → Nat → Nat → Nat → FV) : Option Form :=
  form h (vdst ty d ++ uses) (fun x t => stepped x rnd (put x ty d (tyTag ty) (tyTag ty)
    (fun L => join ty fun j => (tyFmt ty).round rnd (drawOf (t.sheaf x.k).srnd j L) false (v t x.k L j)) t))

def fr1 (h : Hdr) (ty : Ty) (rnd : Rnd) (d : VReg) (a : VSrc) (v : FV → FV) : Option Form :=
  fr h ty rnd d (srcTyped 1 ty a) fun t k L j => v (fval ty (t.vsrc k ty L a) j)

def fr2 (h : Hdr) (ty : Ty) (rnd : Rnd) (d : VReg) (a : VSrc) (b : BSrc) (v : FV → FV → FV) : Option Form :=
  fr h ty rnd d (srcTyped 1 ty a ++ bsrcTyped ty b) fun t k L j =>
    v (fval ty (t.vsrc k ty L a) j) (fval ty (t.bsrc k ty L b) j)

def fr3 (h : Hdr) (ty : Ty) (rnd : Rnd) (d : VReg) (a : VSrc) (b : BSrc) (c : VSrc) (v : FV → FV → FV → FV) : Option Form :=
  fr h ty rnd d (srcTyped 1 ty a ++ bsrcTyped ty b ++ srcTyped 3 ty c) fun t k L j =>
    v (fval ty (t.vsrc k ty L a) j) (fval ty (t.bsrc k ty L b) j) (fval ty (t.vsrc k ty L c) j)

/-- The sign bits of a lane of a float type. -/
def signBits (ty : Ty) : Word64 :=
  if ty = .f16x2 ∨ ty = .bf16x2 then 0x80008000 else if ty = .f64 then 0x8000000000000000 else 0x80000000

/-- An approximate instruction: the encoding the model gives within the bound of Table 10-4 (log entry 13). -/
def ap (h : Hdr) (ty : Ty) (d : VReg) (a : VSrc) (fn : ApFn) : Option Form :=
  v1 h ty d a (tyTag ty) fun v => join ty fun j => approxBits fn ty (elem ty v j)

/-- The lane results of Table 10-3. -/
def floatForm (_ : State) : Instr → Option Form
  | .vfadd h ty rnd d a b => fr2 h ty rnd d a b fun a b => FV.add (rnd == .rdn) a b
  | .vfsub h ty rnd d a b => fr2 h ty rnd d a b fun a b => FV.add (rnd == .rdn) a b.neg
  | .vfmul h ty rnd d a b => fr2 h ty rnd d a b FV.mul
  | .vfma h ty rnd d a b c => fr3 h ty rnd d a b c fun a b c => FV.add (rnd == .rdn) (FV.mul a b) c
  | .vfnma h ty rnd d a b c => fr3 h ty rnd d a b c fun a b c => FV.add (rnd == .rdn) (FV.mul a b).neg c
  | .vfmin h ty d a b => fr2 h ty .rne d a b FV.minNum
  | .vfmax h ty d a b => fr2 h ty .rne d a b FV.maxNum
  | .vfabs h ty d a => v1 h ty d a (tyTag ty) fun v => v &&& ~~~signBits ty
  | .vfneg h ty d a => v1 h ty d a (tyTag ty) fun v => v ^^^ signBits ty
  | .vfcmp h ty c d a b => form h (.dst (.p d.val) :: srcTyped 1 ty a ++ bsrcTyped ty b)
      (fun x t => t.writeP x.k d.val x.exec
        (mask32 fun L => fcondHolds c (fval ty (t.vsrc x.k ty L a) 0) (fval ty (t.bsrc x.k ty L b) 0)))
  | .vfclass h ty d a => form h (.dst (.v d.val) :: srcTyped 1 ty a)
      (fun x t => t.writeV x.k d.val x.exec
        (fun L => BitVec.ofNat 32 ((tyFmt ty).classOf (elem ty (t.vsrc x.k ty L a) 0))) 0xD)
  | .vfdiv h ty rnd d a b => fr2 h ty rnd d a b FV.div
  | .vsqrt h ty rnd d a => fr1 h ty rnd d a FV.sqrt
  | .vrcp h ty d a => ap h ty d a .rcp
  | .vrsq h ty d a => ap h ty d a .rsq
  | .vexp2 h ty d a => ap h ty d a .exp2
  | .vlog2 h ty d a => ap h ty d a .log2
  | .vsin h ty d a => ap h ty d a .sin
  | .vcos h ty d a => ap h ty d a .cos
  | .vtanh h ty d a => ap h ty d a .tanh
  | .vfloor h ty d a => fr1 h ty .rne d a FV.floor
  | .vceil h ty d a => fr1 h ty .rne d a FV.ceil
  | .vfract h ty rnd d a => fr1 h ty rnd d a fract
  | .vfscale h ty rnd d a b => fr h ty rnd d (srcTyped 1 ty a ++ countUses ty b) fun t k L j =>
      (fval ty (t.vsrc k ty L a) j).scale (t.count32 k L b).toInt
  | _ => none

/-! Conversions, Table 10-5 and the rules after it. -/

/-- A destination of one register under the lanes of Exec. -/
def put1 (x : Ex) (d : VReg) (tag : BitVec 4) (v : Nat → Word32) (t : State) : State := t.writeV x.k d.val x.exec v tag

/-- w bits of a lane from a position replaced by the low bits of a number. -/
def setField (a : Word32) (p w v : Nat) : Word32 :=
  let m : Word32 := (BitVec.allOnes 32 >>> (32 - w)) <<< p
  (a &&& ~~~m) ||| ((BitVec.ofNat 32 v <<< p) &&& m)

/-- Field p of width w of a lane. -/
def getField (a : Word32) (p w : Nat) : Nat := (a >>> p).toNat % 2 ^ w

/-- The lane results of class 0x4. -/
def convertForm (_ : State) : Instr → Option Form
  | .vcvt h dt st rnd sat d a => form h (vdst dt d ++ srcTyped 1 st a)
      (fun x t => stepped x rnd (put x dt d (tyTag dt) (tyTag dt)
        (fun L => convert dt st rnd sat (drawOf (t.sheaf x.k).srnd 0 L) (t.vsrc x.k st L a)) t))
  | .vpack h dt rnd sat d a b p =>
      let st : Ty := if dt = .i8x4 ∨ dt = .i4x8 then .i32 else .f32
      let w := partWidth dt
      form h ((if w = 16 then [Use.dst (.v d.val)] else vmerge d (some (packTag dt))) ++ srcTyped 1 st a ++ bsrcTyped st b)
        (fun x t => stepped x rnd (put1 x d (packTag dt) (fun L =>
          let e := fun (i : Nat) (v : Word64) => packElem dt rnd sat (drawOf (t.sheaf x.k).srnd (2 * p.val + i) L) v
          setField (setField (t.laneV x.k d.val L) (2 * p.val * w) w (e 0 (t.vsrc x.k st L a)))
            ((2 * p.val + 1) * w) w (e 1 (t.bsrc x.k st L b))) t))
  | .vunpk h dt st d a p => form h (.dst (.v d.val) :: srcUses 1 .b32 (some (packTag st)) a)
      (fun x t => put1 x d (tyTag dt) (fun L => unpackElem st (t.vsrc32 x.k L a) p.val) t)
  | .vquant h dt rnd d a c p =>
      let w := partWidth dt
      form h (vmerge d (some (packTag dt)) ++ srcTyped 1 .f32 a ++ [⟨3, .s c.val, false, true, none⟩]) (fun x t =>
        let q := quantise dt rnd (fun L => (laneRand (t.sheaf x.k).srnd (33 * L)).toNat % 2 ^ 32)
          (lanes.map fun L => if x.exec.getLsbD L then some (fval .f32 (t.vsrc x.k .f32 L a) 0) else none)
        let u := t.writeV x.k d.val 0xFFFFFFFF (fun L => setField (t.laneV x.k d.val L) (p.val * w) w (q.2.1.getD L 0)) (packTag dt)
        let u := stepped x rnd (u.writeS x.k c.val (q.1.zeroExtend 64))
        if q.2.2 then u.modSheaf x.k fun y => { y with qnv := true } else u)
  | .vdeq h st rnd d a b p =>
      let w := partWidth st
      form h (.dst (.v d.val) :: srcUses 1 .b32 (some (packTag st)) a ++ ssrcUses b) (fun x t =>
        stepped x rnd (put1 x d 1 (fun L =>
          let v := scaled ((tyFmt st).decode (getField (t.vsrc32 x.k L a) (w * p.val) w)) ((t.ssrc x.k b).setWidth 8)
          BitVec.ofNat 32 (fmtF32.round rnd (drawOf (t.sheaf x.k).srnd 0 L) false v)) t))
  | .vsplit6 h ty lo d a p =>
      let tag := if lo then lowPlane ty else tyTag ty
      form h (vmerge d (some tag) ++ srcUses 1 .b32 (some 0) a) (fun x t => put1 x d tag (fun L =>
        let v := t.vsrc32 x.k L a
        let one := fun (old : Word32) (j : Nat) =>
          if lo then setField old (8 * p.val + 2 * j) 2 (getField v (8 * j) 2)
          else setField old (16 * (p.val % 2) + 4 * j) 4 (getField v (8 * j + 2) 4)
        one (one (one (one (t.laneV x.k d.val L) 0) 1) 2) 3) t)
  | .vjoin6 h ty d a b p =>
      form h (.dst (.v d.val) :: srcUses 1 .b32 (some (tyTag ty)) a ++ (match b with
        | .r y => srcUses 2 .b32 (some (lowPlane ty)) y
        | .imm _ => [])) (fun x t => put1 x d 0 (fun L =>
          let e := fun (j : Nat) => BitVec.ofNat 8 (4 * getField (t.vsrc32 x.k L a) (16 * (p.val % 2) + 4 * j) 4 +
            getField (t.count32 x.k L b) (8 * p.val + 2 * j) 2)
          e 3 ++ e 2 ++ e 1 ++ e 0) t)
  | .vdot8 h ty rnd sat d a b =>
      let tag : BitVec 4 := if ty = .i8x4 then 0xD else 1
      form h (vmerge d (some tag) ++ srcTyped 1 ty a ++ bsrcTyped ty b) (fun x t => stepped x rnd (put1 x d tag (fun L =>
        dotLane ty rnd sat (drawOf (t.sheaf x.k).srnd 0 L) (t.vsrc32 x.k L a) ((t.bsrc x.k ty L b).setWidth 32)
          (t.laneV x.k d.val L)) t))
  | .vdot4 h ty rnd sat d a b =>
      let tag : BitVec 4 := if ty = .i4x8 then 0xD else 1
      form h (vmerge d (some tag) ++ srcTyped 1 ty a ++ bsrcTyped ty b) (fun x t => stepped x rnd (put1 x d tag (fun L =>
        dotLane ty rnd sat (drawOf (t.sheaf x.k).srnd 0 L) (t.vsrc32 x.k L a) ((t.bsrc x.k ty L b).setWidth 32)
          (t.laneV x.k d.val L)) t))
  | .vtag h d a tag => form h (.dst (.v d.val) :: srcUses 1 .b32 none a) (fun x t => put1 x d tag (fun L => t.vsrc32 x.k L a) t)
  | .vsrnd h a => form h [.src 1 (.s a.val)] (fun x t => t.modSheaf x.k fun y =>
      { y with srnd := if t.readS x.k a.val = 0 then 1 else t.readS x.k a.val })
  | .vsrndDraw h d => form h [.dst (.s d.val)] (fun x t =>
      (t.writeS x.k d.val (t.sheaf x.k).srnd).modSheaf x.k fun y => { y with srnd := stepState y.srnd })
  | _ => none

/-! Cross-lane instructions and predicates, class 0x5. -/

/-- Lane L of the result of a copy from another lane: the source lane where it is an active lane of the sheaf, otherwise
the fill, or zero (R43). -/
def fetchLane (t : State) (x : Ex) (ty : Ty) (a : VSrc) (fill : Option VSrc) (L : Nat) (j : Int) : Word64 :=
  if 0 ≤ j ∧ j < 32 ∧ x.exec.getLsbD j.toNat = true then t.vsrc x.k ty j.toNat a
  else match fill with
    | some f => t.vsrc x.k ty L f
    | none => 0

def copy (s : State) (h : Hdr) (ty : Ty) (d : VReg) (a : VSrc) (bu : List Use) (fill : Option VSrc)
    (from_ : State → Nat → Nat → Int) : Option Form :=
  form h (vdst ty d ++ srcTyped 1 ty a ++ bu ++ fillUses s ty a fill) (fun x t =>
    put x ty d (tagOf t x.k 0 a) (tagOf t x.k 1 a) (fun L => fetchLane t x ty a fill L (from_ t x.k L)) t)

def p2 (h : Hdr) (d a b : PReg) (f : Word32 → Word32 → Word32) : Option Form :=
  form h [.src 1 (.p a.val), .src 2 (.p b.val), .dst (.p d.val)]
    (fun x t => t.writeP x.k d.val x.exec (f (t.readP x.k a.val) (t.readP x.k b.val)))

def p1 (h : Hdr) (d a : PReg) (f : Word32 → Word32) : Option Form :=
  form h [.src 1 (.p a.val), .dst (.p d.val)] (fun x t => t.writeP x.k d.val x.exec (f (t.readP x.k a.val)))

/-- S[D] from the lanes of Exec in which p[A] is true. -/
def ps (h : Hdr) (d : SReg) (a : PReg) (f : Word32 → Word64) : Option Form :=
  form h [.src 1 (.p a.val), .dst (.s d.val)] (fun x t => t.writeS x.k d.val (f (x.exec &&& t.readP x.k a.val)))

/-- The lowest lane of a mask, or 32. -/
def first (m : Word32) : Nat := ((List.range 32).takeWhile fun i => !m.getLsbD i).length

/-- The results of class 0x5 (R43, R226 to R229). -/
def crossForm (s : State) : Instr → Option Form
  | .vshfl h ty mode d a b fill => copy s h ty d a (countUses .b32 b) fill fun t k L =>
      let n := (t.count32 k L b).toNat
      match mode with
      | .idx => n
      | .up => (L : Int) - n
      | .down => (L : Int) + n
      | .xor => Nat.xor L n
  | .vbcast h ty d a b fill => copy s h ty d a (ssrcUses b) fill fun t k _ => ((t.ssrc k b).extractLsb' 0 32).toNat
  | .vlrot h ty d a b fill => copy s h ty d a (ssrcUses b) fill fun t k L =>
      ((L + ((t.ssrc k b).extractLsb' 0 32).toNat) % 32 : Nat)
  | .vred h ty op rnd d a => form h (.dst (.s d.val) :: srcTyped 1 ty a) (fun x t =>
      let r := redTree (redStep ty op rnd (drawOf (t.sheaf x.k).srnd 0 0))
        (lanes.map fun L => if x.exec.getLsbD L then some (t.vsrc32 x.k L a) else none)
      stepped x rnd (t.writeS x.k d.val (if ty = .i32 then r.signExtend 64 else r.zeroExtend 64)))
  | .vscan h ty op rnd d a => form h (.dst (.v d.val) :: srcTyped 1 ty a) (fun x t =>
      let r := scanFrom (fun L => redStep ty op rnd (drawOf (t.sheaf x.k).srnd 0 L)) none
        ((lanesOf x.exec).map fun L => (L, t.vsrc32 x.k L a))
      stepped x rnd (put1 x d (tyTag ty) (fun L => ((r.find? fun p => p.1 == L).map (·.2)).getD 0) t))
  | .vballot h d a => ps h d a fun m => m.zeroExtend 64
  | .vmatch h ty d a => form h (.dst (.v d.val) :: srcTyped 1 ty a) (fun x t => put1 x d 0xD
      (fun L => mask32 fun M => x.exec.getLsbD M && decide (t.vsrc x.k ty M a = t.vsrc x.k ty L a)) t)
  | .pset h d a => form h [.src 1 (.s a.val), .dst (.p d.val)]
      (fun x t => t.writeP x.k d.val x.exec ((t.readS x.k a.val).extractLsb' 0 32))
  | .psetImm h d imm => form h [.dst (.p d.val)] (fun x t => t.writeP x.k d.val x.exec imm)
  | .pand h d a b => p2 h d a b (· &&& ·)
  | .por h d a b => p2 h d a b (· ||| ·)
  | .pxor h d a b => p2 h d a b (· ^^^ ·)
  | .pnot h d a => p1 h d a (~~~ ·)
  | .pmov h d a => p1 h d a fun p => p
  | .pcnt h d a => ps h d a fun m => BitVec.ofNat 64 (ones m)
  | .pfirst h d a => ps h d a fun m => BitVec.ofNat 64 (first m)
  | _ => none

/-! Control instructions, class 0x0. -/

/-- An entry that completes under a condition and goes on in a way of its own. -/
def formIf (h : Hdr) (uses : List Use) (ok : Ex → State → Prop) (w : Ex → State → Flow) (f : Ex → State → State) :
    Option Form :=
  some { h := h, c := { uses := uses }, ok := ok, w := w, f := f }

/-- The executing PC slot. -/
def slotOf (x : Ex) (t : State) : PcSlot := (t.sheaf x.k).slot x.b

/-- Entries the divergence stack needs for the lanes that do not branch: one where the other slot is taken, and two for a
join record (R29). -/
def needs (x : Ex) (t : State) (j : Bool) : Nat := (if ((t.sheaf x.k).slot (!x.b)).live then 1 else 0) + (if j then 2 else 0)

/-- The stack has room for n more entries, and no granule that they or its top lie in holds an uncorrectable error
(R414). -/
abbrev room (x : Ex) (t : State) (n : Nat) : Prop :=
  (t.sheaf x.k).depth + n ≤ t.stackMax x.k ∧ (0 < n → t.badStack x.k n = [])

/-- A branch of the lanes of Exec: all lanes of the slot branch, or the stack has room for those that do not. -/
abbrev branchOk (x : Ex) (t : State) (j : Bool) : Prop := x.exec = (slotOf x t).mask ∨ room x t (needs x t j)

/-- A branch (R29, R175): all lanes take the target, or the lanes of Exec take it and the others go on at the next
instruction in the other PC slot or as a path entry; with a reconvergence PC a join record of the mask governs both. -/
def branchTo (x : Ex) (target next : Word64) (j : Option Word64) (pre : State → State) (t : State) : State :=
  let sl := slotOf x t
  if x.exec = sl.mask then (pre t).goTo x sl.mask target sl.gov
  else match j with
    | none => ((pre t).goTo x x.exec target sl.gov).placeOther x.k x.b (sl.mask &&& ~~~x.exec) next sl.gov
    | some jp =>
      let u := pre t
      let gov := (u.sheaf x.k).depth
      (((u.pushJoin x.k sl.mask jp sl.gov false).goTo x x.exec target gov).placeOther x.k x.b (sl.mask &&& ~~~x.exec) next gov)

/-- PC + 4 × SignExtend(OFF) in the low 32 bits (R173). -/
def rel (pc : Word64) (off : BitVec 24) : Word64 := pc.extractLsb' 32 32 ++ (pc.extractLsb' 0 32 + 4 * off.signExtend 32)

/-- The check of R173 on a target: a multiple of 4 in the code region of the PC. -/
abbrev goodTarget (pc t : Word64) : Prop := t.toNat % 4 = 0 ∧ t.toNat / 2 ^ 32 = pc.toNat / 2 ^ 32

/-- The record of TRAP and BKPT (R179, Table 18-8): their code is the address, and RPC names the next instruction. -/
def soft (x : Ex) (kind code : Byte) : Trap :=
  ⟨kind, 0, x.exec, code.zeroExtend 56, x.pc + 8, x.opc, BitVec.ofNat 5 x.opidx, x.inmc⟩

/-- The lanes of Exec whose target of CALLI is that of the lowest lane. -/
def together (x : Ex) (t : State) (a : VSrc) : Word32 :=
  mask32 fun L => x.exec.getLsbD L && decide (calliTarget t x a L = calliTarget t x a (lowest x.exec))

/-- The entries CALLI needs: none where all lanes of the slot go to one target, otherwise the join record, unless the
governing record is already the call's, and the place of the lanes that wait (R41). -/
def calliNeeds (x : Ex) (t : State) (a : VSrc) : Nat :=
  let one : Bool := decide (x.exec &&& ~~~together x t a = 0)
  let other := if ((t.sheaf x.k).slot (!x.b)).live then 1 else 0
  if t.returnsTo x.k (slotOf x t) (x.pc + 8) then (if one then 0 else other)
  else if one then (if x.exec = (slotOf x t).mask then 0 else other)
  else 2 + other

/-- The lanes of the lowest lane's target enter it, with the return address in S[D]; the other lanes of Exec wait at the
CALLI (R41, R177). -/
def calliTo (x : Ex) (d : SReg) (a : VSrc) (t : State) : State :=
  let sl := slotOf x t
  let go := together x t a
  let rest := x.exec &&& ~~~go
  let target := calliTarget t x a (lowest x.exec)
  let link := fun (u : State) => u.writeS x.k d.val (x.pc + 8)
  if t.returnsTo x.k sl (x.pc + 8) then
    let u := (link t).goTo x go target sl.gov
    if rest = 0 then u else u.placeOther x.k x.b rest x.pc sl.gov
  else if rest = 0 then branchTo x target (x.pc + 8) none link t
  else
    let gov := (t.sheaf x.k).depth
    (((link t).pushJoin x.k sl.mask (x.pc + 8) sl.gov true).goTo x go target gov).placeOther x.k x.b rest x.pc gov

/-- A sheaf sleeps n cycles (R182). -/
def sleepN (n : Nat) (x : Ex) (t : State) : State :=
  if n = 0 then t
  else { t with sheaves := Tab.mod t.sheaves x.k fun y => { y with park := some (.sleep (t.time + n)) },
                due := t.due ++ [.sleepExpiry (placeOf x.k)] }

/-- The effects of class 0x0 (R173 to R183), but for PAD. -/
def controlForm (_ : State) : Instr → Option Form
  | .nop h => form h [] (fun _ t => t)
  | .bra h off => formIf h [] (fun x t => branchOk x t false) (fun _ _ => .own)
      (fun x => branchTo x (rel x.pc off) (x.pc + 8) none id)
  | .braReg h a => formIf h [.src 1 (.s a.val)] (fun x t => goodTarget x.pc (t.readS x.k a.val) ∧ branchOk x t false)
      (fun _ _ => .own) (fun x t => branchTo x (t.readS x.k a.val) (x.pc + 8) none id t)
  | .brp h off => formIf h [] (fun x t => branchOk x t false) (fun _ _ => .own)
      (fun x => branchTo x (rel x.pc off) (x.pc + 8) none id)
  | .brpJoin h off j => formIf h [] (fun x t => branchOk x t true) (fun _ _ => .own)
      (fun x => branchTo x (rel x.pc off) (x.pc + 12) (some (x.pc.extractLsb' 32 32 ++ (x.pc.extractLsb' 0 32 + j))) id)
  | .join h => formIf h [] (fun _ _ => True) (fun x t => if t.arrivesAt x.k (slotOf x t) x.pc then .own else .next)
      (fun x t => if t.arrivesAt x.k (slotOf x t) x.pc then t.modSlot x.k x.b fun _ => PcSlot.free else t)
  | .loop h d off => formIf h [⟨4, .s d.val, true, true, none⟩] (fun x t => t.readS x.k d.val = 1 ∨ branchOk x t false)
      (fun x t => if t.readS x.k d.val = 1 then .next else .own)
      (fun x t => if t.readS x.k d.val = 1 then t.writeS x.k d.val 0
        else branchTo x (rel x.pc off) (x.pc + 8) none (fun u => u.writeS x.k d.val (t.readS x.k d.val - 1)) t)
  | .call h d off => formIf h [.dst (.s d.val)] (fun x t => branchOk x t false) (fun _ _ => .own)
      (fun x => branchTo x (rel x.pc off) (x.pc + 8) none (fun u => u.writeS x.k d.val (x.pc + 8)))
  | .callReg h d a => formIf h [.src 1 (.s a.val), .dst (.s d.val)]
      (fun x t => goodTarget x.pc (t.readS x.k a.val) ∧ branchOk x t false) (fun _ _ => .own)
      (fun x t => branchTo x (t.readS x.k a.val) (x.pc + 8) none (fun u => u.writeS x.k d.val (x.pc + 8)) t)
  | .calli h d a => formIf h (.dst (.s d.val) :: srcTyped 1 .b32 a)
      (fun x t => (∃ n, t.calliBudget x a = .ok n ∧ (n = 0 ∨ blockFor n ≤ (t.sheaf x.k).xblk)) ∧
        ((calliTargets t x a).map fun w => t.fetchErrors x.k (relPc w 0xFFFFFFFC)).flatten = [] ∧ room x t (calliNeeds x t a))
      (fun _ _ => .own) (fun x t => calliTo x d a t)
  | .ret h a => formIf h [.src 1 (.s a.val)]
      (fun x t => goodTarget x.pc (t.readS x.k a.val) ∧
        (t.returnsTo x.k (slotOf x t) (t.readS x.k a.val) = true ∨ branchOk x t false))
      (fun _ _ => .own)
      (fun x t => if t.returnsTo x.k (slotOf x t) (t.readS x.k a.val) then t.modSlot x.k x.b fun y =>
          if x.exec = y.mask then PcSlot.free else { y with mask := y.mask &&& ~~~x.exec, pc := x.pc + 8 }
        else branchTo x (t.readS x.k a.val) (x.pc + 8) none id t)
  | .exit h => formIf h [] (fun _ _ => True) (fun _ _ => .own) (fun x t =>
      (t.exitRecords x.k x.exec).modSlot x.k x.b fun y =>
        if x.exec = y.mask then PcSlot.free else { y with mask := y.mask &&& ~~~x.exec, pc := x.pc + 8 })
  | .yield h => form h [] (fun x t => t.modSheaf x.k fun y => { y with yielded := true })
  | .trap h code => formIf h [] (fun _ _ => True) (fun _ _ => .stay) (fun x t => t.takeTrap x.k x.b (soft x 0x14 code))
  | .bkpt h code => formIf h [] (fun _ _ => True) (fun x t => if t.attested (t.ctxOf x.k) then .stay else .next)
      (fun x t => if t.attested (t.ctxOf x.k) then t.takeTrap x.k x.b (soft x 0x15 code) else t)
  | .tret h => some { h := h, c := { priv := true, uses := [.src 6 (.s 61), .src 6 (.s 62)] }
                      ok := fun x t => (slotOf x t).active = true ∧ goodTarget x.pc (t.readS x.k 61) ∧
                        ((t.readS x.k 62).getLsbD 50 = true → ∃ m, t.resumeMicro x.k x.b (t.readS x.k 61)
                          ((t.readS x.k 62).extractLsb' 51 5).toNat = .ok m)
                      w := fun _ _ => .stay
                      f := fun x t => (t.modSlot x.k x.b fun y =>
                        { y with
                          pc := t.readS x.k 61
                          micro := if (t.readS x.k 62).getLsbD 50 then
                              (t.resumeMicro x.k x.b (t.readS x.k 61) ((t.readS x.k 62).extractLsb' 51 5).toNat).toOption
                            else none
                          active := false }).mark x.k h.sw }
  | .mcall h p0 p1 p2 p3 m => formIf h []
      (fun x t => t.badWords.contains (.store (unitOf x.k) m.val) = false ∧ (t.micro (unitOf x.k) m.val).count ≠ 0) (fun _ _ => .stay)
      (fun x t => t.modSlot x.k x.b fun y => { y with
        micro := some ⟨(t.micro (unitOf x.k) m.val).image, (t.micro (unitOf x.k) m.val).count, 0, #v[p0, p1, p2, p3], x.exec, h.sw, m.val⟩
        mexec := x.exec })
  | .waita h d a => form h [.src 1 (.s a.val), .dst (.s d.val)] (fun x t =>
      let y := t.sheaf x.k
      let n := (t.readS x.k a.val).toNat
      if y.watch = [] ∨ y.watchHit = true then
        (t.writeS x.k d.val (if y.watch = [] then 3 else 0)).modSheaf x.k fun y => { y with watch := [], watchHit := false }
      else
        let u := t.modSheaf x.k fun y => { y with park := some (.waita d (if n = 0 then 0 else t.time + n)) }
        if n = 0 then u else u.later (.waitaTimeout (placeOf x.k)))
  | .sleep h a => form h [.src 1 (.s a.val)] (fun x t => sleepN ((t.readS x.k a.val).extractLsb' 0 32).toNat x t)
  | .sleepImm h n => form h [] (fun x t => sleepN n.toNat x t)
  | .elect h d a => form h [.dst (.p d.val), ⟨1, .s a.val, false, true, none⟩] (fun x t =>
      (t.writeP x.k d.val x.exec (BitVec.ofNat 32 (2 ^ first x.exec))).writeS x.k a.val (BitVec.ofNat 64 (first x.exec)))
  | _ => none

/-! State instructions, class 0x6. -/

/-- A special register, Table 3-2; sr.core of a near-memory unit is a free value (the spec gives none). -/
def special (t : State) (k : Nat) (sr : BitVec 4) : Word64 :=
  let y := t.sheaf k
  match sr.toNat with
  | 1 => BitVec.ofNat 64 y.idx
  | 2 => BitVec.ofNat 64 (t.crewIndex k)
  | 3 => BitVec.ofNat 64 (t.span y.span).num
  | 4 => if nearMem k then t.free64 else BitVec.ofNat 64 (unitOf k)
  | 5 => BitVec.ofNat 64 (Machine.slotOf k)
  | 6 => t.host.pkgnum.zeroExtend 64
  | 7 => (t.span y.span).sliceGen ++ (t.crew y.crew).scrGen ++ y.homeXgen ++ y.homeGen
  | 8 => BitVec.ofNat 64 t.time
  | 9 => BitVec.ofNat 64 (t.hopsOf k)
  | 10 => BitVec.ofNat 64 y.xblk
  | 11 => if y.strict then 1 else 0
  | 12 => y.srnd
  | 13 => if y.qnv then 1 else 0
  | 14 => BitVec.ofNat 64 (t.prioOf k)
  | _ => BitVec.ofNat 64 y.launch

/-- The effects of class 0x6 (R186 to R192). -/
def stateForm (s : State) : Instr → Option Form
  | .xacq h n => formIf h [] (fun x t => XSize.regs n ≤ (t.sheaf x.k).xblk ∨
        ((t.core (unitOf x.k)).waiting = [] ∧ (t.takeBlock x.k (XSize.regs n)).isSome = true)) (fun _ _ => .next)
      (fun x t => if XSize.regs n ≤ (t.sheaf x.k).xblk then t else (t.takeBlock x.k (XSize.regs n)).getD t)
  | .xrel h => form h ((List.range (s.sheaf s.focus).xblk).map fun i => ⟨6, .v (64 + i), false, false, none⟩)
      (fun x t => t.dropBlock x.k)
  | .sread h (.v d) _ => form h [.dst (.v d.val)] (fun x t => put1 x d 0xD (fun L => BitVec.ofNat 32 L) t)
  | .sread h (.s d) sr => form h [.dst (.s d.val)] (fun x t => (t.writeS x.k d.val (special t x.k sr)).tick)
  | .swrite h sr a => formIf h [.src 1 (.s a.val)] (fun _ _ => sr = 12 ∨ sr = 13) (fun _ _ => .next) (fun x t =>
      let v := t.readS x.k a.val
      t.modSheaf x.k fun y => if sr = 12 then { y with srnd := if v = 0 then 1 else v }
        else { y with qnv := if v.getLsbD 0 then false else y.qnv })
  | .genq h which d => form h [.dst (.s d.val)] (fun x t =>
      let y := t.sheaf x.k
      t.writeS x.k d.val (match which with
        | .base => y.homeGen.zeroExtend 64
        | .ext => y.homeXgen.zeroExtend 64
        | .scr => (t.crew y.crew).scrGen.zeroExtend 64
        | .slice => (t.span y.span).sliceGen.zeroExtend 64
        | .acc => (t.crew y.crew).accGen.zeroExtend 64
        | .visit => if y.frag.isSome then y.baseGen.zeroExtend 64 else 0))
  | .tagq h d (.vec (.v a)) => form h [.src 1 (.v a.val), .dst (.s d.val)] (fun x t => t.writeS x.k d.val
      (((t.vraw x.k a.val).fmt.zeroExtend 64) <<< 4 ||| (if t.staleReg x.k (.v a.val) then 0 else 1)))
  | .tagq h d (.vec (.s a)) => form h [.src 1 (.s a.val), .dst (.s d.val)]
      (fun x t => t.writeS x.k d.val (if t.staleReg x.k (.s a.val) then 0 else 1))
  | .tagq h d (.sca a) => form h [.src 1 (.s a.val), .dst (.s d.val)]
      (fun x t => t.writeS x.k d.val (if t.staleReg x.k (.s a.val) then 0 else 1))
  | .tagq h d (.acc a row) => some { h := h, c := { uses := [.dst (.s d.val)], tiles := [a.val] }
                                     f := fun x t => t.writeS x.k d.val
                                       (if t.rowStale (t.crew (t.sheaf x.k).crew) a.val row.toNat then 0 else 1) }
  | .rdtime h dom d => form h [.dst (.s d.val)] (fun x t => t.writeS x.k d.val (BitVec.ofNat 64 (if dom then t.nanos else t.time)))
  | .lread h d a => form h [.src 1 (.s a.val), .dst (.s d.val)] (fun x t =>
      (t.startLoad x.k (.sca d) 1 1 0 (Vector.replicate 32 (t.lread (t.readS x.k a.val))) 0 0 false).2)
  | .ctxsave h a => some { h := h, c := { priv := true, uses := [.src 1 (.s a.val)] }
                           ok := fun x t => (t.sheaf x.k).anyPending = false ∧ t.badCarry x.k ⟨-1, -1, -1⟩ = false ∧
                             ∃ va u, t.saveEntry x a = .ok va ∧ t.blockWrite x.k va (t.ctxEntry x.k x.b (x.pc + 8)) = .ok u
                           f := fun x t => match t.saveEntry x a with
                             | .error _ => t
                             | .ok va => match t.blockWrite x.k va (t.ctxEntry x.k x.b (x.pc + 8)) with
                               | .error _ => t
                               | .ok u => u.modSheaf x.k fun y => { y with block := none } }
  | .ctxload h a => some { h := h, c := { priv := true, uses := [.src 1 (.s a.val)] }
                           ok := fun x t => ∃ va bs, t.saveEntry x a = .ok va ∧ t.opRead x va 25600 = .ok bs ∧
                             t.badAt (t.ctxOf x.k) va 25600 = [] ∧ field bs 0x21 1 ≤ (t.sheaf x.k).xblk ∧ entryClean bs = true
                           w := fun _ _ => .own
                           f := fun x t => match t.saveEntry x a with
                             | .error _ => t
                             | .ok va => match t.opRead x va 25600 with
                               | .error _ => t
                               | .ok bs => t.ctxRestore x.k bs }
  | _ => none

/-! Memory instructions, class 0x7. -/

/-- Every lane of Exec has an address at which it performs its access from this place: it translates, is not one that
leaves for its owner, is aligned where the entry asks for it, reads no stale granule strictly and meets no uncorrectable
error; and a DEVICE access of this package finds none of the sheaf's in another under way (R115). -/
abbrev performs (p : Access.Plan) (x : Ex) (t : State) : Prop :=
  ∀ L : Nat, L < 32 → x.exec.getLsbD L = true → ∃ a, p.lane L = .ok a ∧ t.fate x p.auto (p.va L) L (.ok a) = .here ∧
    (p.aligned = true → (BitVec.ofNat 56 a.ia).toNat % p.n = 0) ∧ (p.rd = true → t.strictStale a p.n = false) ∧
    t.laneBad p.rd p.n (.ok a) = [] ∧ (t.deviceOut x.k = true → t.effMt a = 2 → a.space.isPeer = true)

/-- The place of each lane of Exec. -/
def placeOf (p : Access.Plan) (L : Nat) : Access := match p.lane L with
  | .ok a => a
  | .error _ => Access.none_

/-- Nothing that the access may not overtake is under way in another package (R111, R114), nor, where the instruction waits
for them, are any accesses of its sheaf. -/
abbrev clear (waits : Bool) (x : Ex) (t : State) : Prop :=
  t.barred x.k = false ∧ (waits = true → t.remoteOut x.k = false)

/-- A release, or a STRONG access, makes the writes that the lanes of Exec have made or read precede later matrix commands
(R112, R277; log entry 100). -/
def pub (b : Bool) (x : Ex) (t : State) : State := if b then t.publish x.k x.exec else t

/-- An access: its checks, the addresses of its lanes, whether it waits for the sheaf's remote accesses and releases, and what
the lanes do. -/
def access (h : Hdr) (c : Checks) (p : Ex → State → Access.Plan) (s waits : Ex → State → Bool)
    (f : Ex → (Nat → Access) → Bool → State → State) : Option Form :=
  some { h := h, c := c
         ok := fun x t => clear (waits x t) x t ∧ performs (p x t) x (pub (waits x t) x t)
         f := fun x t => f x (placeOf (p x t)) (s x t) (pub (waits x t) x t) }

/-- The lanes of LDL and STL are offsets in the crew's region, of LDS and STS in the span's (R232). -/
def region (crew : Bool) (ty : Ty) (m : Mem) (rd : Bool) (x : Ex) (t : State) : Access.Plan :=
  ⟨tyBytes ty, fun L => (if crew then t.crewLane else t.spanLane) x.k (t.memSum x.k m false L) (tyBytes ty), fun _ => 0,
    false, false, rd⟩

/-- The lanes of the other accesses are virtual addresses (R232). -/
def virt (ty : Ty) (m : Mem) (pair : Bool) (kind : AKind) (auto aligned rd : Bool) (x : Ex) (t : State) : Access.Plan :=
  virtPlan t x.k m pair ty kind auto aligned rd

def regionLd (h : Hdr) (crew once : Bool) (ty : Ty) (d : VReg) (m : Mem) : Option Form :=
  access h { noOverlap := true, uses := vdst ty d ++ memUses m false } (region crew ty m true) (fun _ _ => false) (fun _ _ => false)
    (fun x at_ _ t => t.loadLanes x ty (vecDest ty d) once false false at_)

def regionSt (h : Hdr) (crew : Bool) (ty : Ty) (d : VSrc) (m : Mem) : Option Form :=
  access h { uses := memUses m false ++ srcTyped 4 ty d } (region crew ty m false) (fun _ _ => false) (fun _ _ => false)
    (fun x at_ _ t => t.storeLanes x (fun L => t.storeBytes x.k ty d L) at_)

/-- An access of memory type STRONG acts as a full fence, before it and after it (R114). -/
def strong (p : Ex → State → Access.Plan) (x : Ex) (t : State) : Bool := (p x t).strong t x

def acquireIf (b : Bool) (k : Nat) (t : State) : State := if b then t.acquireL1 k else t

def globalLd (h : Hdr) (ty : Ty) (d : VReg) (m : Mem) (pair : Bool) : Option Form :=
  let p := virt ty m pair .rd true false true
  access h { noOverlap := true, uses := vdst ty d ++ memUses m pair } p (strong p) (strong p)
    (fun x at_ st t => ((acquireIf st x.k t).fillLanes x (tyBytes ty) at_).loadLanes x ty (vecDest ty d) false true st at_)

def globalSt (h : Hdr) (ty : Ty) (d : VSrc) (m : Mem) (pair auto : Bool) : Option Form :=
  let p := virt ty m pair .wr auto false false
  access h { uses := memUses m pair ++ srcTyped 4 ty d } p (strong p) (strong p)
    (fun x at_ st t => t.storeOrdered st x (fun L => t.storeBytes x.k ty d L) at_)

/-- An atomic: each lane's read-modify-write at its home, in ascending order of lanes (R116, R237, R238). -/
def atomicForm (h : Hdr) (ty : Ty) (op : Nat) (ord : Order) (scp : Scope) (dest : LoadDest) (m : Mem) (auto : Bool)
    (us : List Use) (c n : State → Nat → Nat → Word64) (f : Word64 → Word64 → Word64 → Word64) : Option Form :=
  let p := virt ty m false .rmw auto true true
  access h { noOverlap := true, uses := us ++ memUses m false } p (strong p) (fun x t => strong p x t || Order.releases ord)
    (fun x at_ st t => pub st x ((acquireIf (st || t.acquires x.k ord scp) x.k t).atomLanes x ty dest op
      (st || Order.acquires ord) (c t x.k) (n t x.k) (fun L old => f old (c t x.k L) (n t x.k L)) at_))

/-- The effects of class 0x7 (R231 to R240). -/
def memoryForm (_ : State) : Instr → Option Form
  | .ldl h ty d m => regionLd h true false ty d m
  | .stl h ty d m => regionSt h true ty d m
  | .lds h ty d m => regionLd h false false ty d m
  | .sts h ty d m => regionSt h false ty d m
  | .ldbLoc h ty d base off => regionLd h true true ty d ⟨base, none, off⟩
  | .ldg h ty d m => globalLd h ty d m false
  | .stg h ty d m => globalSt h ty d m false true
  | .ldx h ty d m => globalLd h ty d m true
  | .stx h ty d m => globalSt h ty d m true false
  | .ldb h ty d base off =>
      let p := virt ty ⟨base, none, off⟩ false .rd false false true
      access h { noOverlap := true, uses := vdst ty d ++ memUses ⟨base, none, off⟩ false } p (strong p)
        (strong p) (fun x at_ st t => (acquireIf st x.k t).loadLanes x ty (vecDest ty d) true false st at_)
  | .lda h ty ord scp d m =>
      let p := virt ty m false .rd false true true
      access h { noOverlap := true, uses := vdst ty d ++ memUses m false } p (strong p) (strong p) (fun x at_ st t =>
        ((acquireIf (st || t.acquires x.k ord scp) x.k t).modSheaf x.k fun y =>
          { y with watch := watchOf x (tyBytes ty) at_, watchHit := false }).loadLanes x ty (vecDest ty d) false false
            (st || Order.acquires ord) at_)
  | .str h ty ord _ c m =>
      let p := virt ty m false .wr false true false
      access h { uses := memUses m false ++ srcTyped 3 ty c } p (strong p)
        (fun x t => strong p x t || Order.releases ord)
        (fun x at_ st t => t.storeOrdered st x (fun L => t.storeBytes x.k ty c L) at_)
  | .atom h ty op ord scp d a b off c => atomicForm h ty (AtomOp.num op) ord scp (vecDest ty d) (atomMem a b off) true
      (vdst ty d ++ srcTyped 3 ty c) (fun t k L => t.vsrc k ty L c) (fun _ _ _ => 0) (fun old y _ => atomNew ty op old y)
  | .atomn h ty op ord scp a b off c => atomicForm h ty (AtomOp.num op) ord scp .none_ (atomMem a b off) false
      (srcTyped 3 ty c) (fun t k L => t.vsrc k ty L c) (fun _ _ _ => 0) (fun old y _ => atomNew ty op old y)
  | .acas h ty ord scp d a b off c => atomicForm h ty 8 ord scp (vecDest ty d) (atomMem a b off) false
      (vdst ty d ++ srcTyped 3 ty c ++ nextUses ty c) (fun t k L => t.vsrc k ty L c) (fun t k L => t.vsrc k ty L (nextC ty c))
      (fun old cmp new => if old = cmp then new else old)
  | .fence h ord scp => formIf h [] (fun x t => clear (Order.releases ord || t.readsOut x.k) x t) (fun _ _ => .next)
      (fun x t =>
        let u := pub (Order.releases ord || t.readsOut x.k) x t
        acquireIf (u.acquires x.k ord scp) x.k u)
  | .prefg h m => form h (memUses m false) (fun x t => (t.quietLanes x m).foldl (fun (u : State) p =>
      if u.cacheable x.k p.1 p.2 then u.fillLines (unitOf x.k) (u.ctxOf x.k) p.1 1 else u) t)
  | .cflush h m => form h (memUses m false) (fun x t => if nearMem x.k then t
      else (t.quietLanes x m).foldl (fun (u : State) p => u.dropRange (unitOf x.k) p.1 1) t)
  | .cflushAll h => form h [] (fun x t => t.acquireL1 x.k)
  | _ => none

/-! Barrier instructions, class 0x8. -/

/-- The slot's 32 bytes hold no uncorrectable error. -/
abbrev slotClean (b : BSlot) (x : Ex) (t : State) : Prop := t.badGranules (t.barAddr x.k b) 32 = []

/-- An entry on a barrier slot: no acquire read of the place is under way (R111), and, where the instruction waits for them,
none of the sheaf's remote accesses. -/
def slotForm (h : Hdr) (b : BSlot) (us : List Use) (waits : Ex → State → Bool) (f : Ex → State → State) : Option Form :=
  some { h := h, c := { uses := us, slots := [b.val] }, ok := fun x t => slotClean b x t ∧ clear (waits x t) x t, f := f }

/-- The fields of a slot as they stand. -/
def fields (t : State) (k : Nat) (b : BSlot) : Bar := Bar.of (t.slotRead (t.barAddr k b))

/-- A slot whose fields are replaced, its reserved bits kept. -/
def putFields (t : State) (k : Nat) (b : BSlot) (c : Bar) : State :=
  t.slotWrite (t.barAddr k b) (c.put (t.slotRead (t.barAddr k b)))

/-- A slot whose fields are replaced after n completed phases; a sheaf that waits for a phase which it then shows wakes
(R243, R246). -/
def setFields (t : State) (k : Nat) (b : BSlot) (c : Bar) (n : Nat) : State :=
  if n = 0 then (putFields t k b c).wakeWaiters (t.barAddr k b) 0 else (putFields t k b c).phasesDone (t.barAddr k b) n

/-- The low 32 bits of a scalar. -/
def low32 (t : State) (k : Nat) (a : SReg) : Word32 := (t.readS k a.val).extractLsb' 0 32

/-- The effects of class 0x8 (R241 to R249). -/
def barrierForm (_ : State) : Instr → Option Form
  | .abinit h b a => slotForm h b [.src 1 (.s a.val)] (fun _ _ => false) (fun x t => setFields t x.k b
      { fields t x.k b with exp := low32 t x.k a, cnt := 0, phase := 0, flt := false, fcode := 0, faddr := 0 } 0)
  | .abexp h b a => slotForm h b [.src 1 (.s a.val)] (fun _ _ => false) (fun x t =>
      let c := { fields t x.k b with exp := low32 t x.k a }
      setFields t x.k b (c.complete c.cnt.toNat).1 (c.complete c.cnt.toNat).2)
  | .abarr h b a => slotForm h b [.src 1 (.s a.val)] (fun x t => low32 t x.k a != 0)
      (fun x t => (pub (low32 t x.k a != 0) x t).arrive (t.barAddr x.k b) (low32 t x.k a).toNat)
  | .abwait h b a => some { h := h, c := { uses := [.src 1 (.s a.val)], slots := [b.val] }
                            ok := fun x t => slotClean b x t ∧ clear false x t ∧ (fields t x.k b).flt = false
                            w := fun x t => if reached (fields t x.k b).phase (low32 t x.k a) then .next else .stay
                            f := fun x t => if reached (fields t x.k b).phase (low32 t x.k a) then t.acquireL1 x.k
                              else
                                let c := fields t x.k b
                                (putFields t x.k b { c with wait := setBit c.wait (t.sheaf x.k).idx true }).modSheaf x.k
                                  fun y => { y with park := some (.abwait x.b b (low32 t x.k a) x.exec) } }
  | .abtest h d b a => slotForm h b [.src 1 (.s a.val), .dst (.s d.val)] (fun _ _ => false) (fun x t =>
      let done := reached (fields t x.k b).phase (low32 t x.k a)
      if (fields t x.k b).flt then t.writeS x.k d.val 2
      else (acquireIf done x.k t).writeS x.k d.val (if done then 1 else 0))
  | .abtestPar h d b a => slotForm h b [.src 1 (.s a.val), .dst (.s d.val)] (fun _ _ => false) (fun x t =>
      let done := (fields t x.k b).phase.getLsbD 0 != (t.readS x.k a.val).getLsbD 0
      if (fields t x.k b).flt then t.writeS x.k d.val 2
      else (acquireIf done x.k t).writeS x.k d.val (if done then 1 else 0))
  | .abret h b => slotForm h b [] (fun _ _ => false) (fun x t => setFields t x.k b
      { fields t x.k b with flt := false, fcode := 0, faddr := 0, cnt := 0 } 0)
  | .abq h w d b => slotForm h b [.dst (.s d.val)] (fun _ _ => false) (fun x t =>
      let v := t.slotRead (t.barAddr x.k b)
      t.writeS x.k d.val (match w with
        | .cnt => v.extractLsb' 0 64
        | .phase => v.extractLsb' 64 64
        | .fault => v.extractLsb' 128 64))
  | .cbar h => formIf h [] (fun x t => clear true x t) (fun _ _ => .next) (fun x t =>
      let u := pub true x t
      (((acquireIf (u.farScope x.k .crew) x.k u).modSlot x.k x.b fun y => { y with park := some .cbar }).modCrew (t.sheaf x.k).crew fun y =>
        { y with cbar := y.cbar + 1 }).rounds (t.sheaf x.k).crew)
  | .sbar h => formIf h [] (fun x t => clear true x t) (fun _ _ => .next) (fun x t =>
      ((((pub true x t).acquireL1 x.k).modSlot x.k x.b fun y => { y with park := some .sbar }).modSpan (t.sheaf x.k).span fun y =>
        { y with sbar := y.sbar + 1 }).rounds (t.sheaf x.k).crew)
  | _ => none

/-! Far-memory and module commands, class 0x9. -/

/-- Some row of the far side has a memory type. -/
def farSide (kind : FarKind) (ra rb rc : SReg) (mt : Nat) (x : Ex) (t : State) : Bool :=
  t.farHas x (t.readS x.k ra.val) (Shape.of (t.readS x.k rb.val) (t.readS x.k rc.val)) (match kind with
    | .fetch => .rd
    | .store => .wr) mt

/-- The command of a tensor transfer (Table 11-10): the far address in S[A], rows LOFF, LSTR and FSTR bytes apart, ROWS + 1
rows of RB + 1 granules; it releases when it says so or its far side is STRONG (st, R115). -/
def command (kind : FarKind) (ord : Order) (sl : BSlot) (ra rb rc : SReg) (st : Bool) (x : Ex) (t : State) : FarCmd :=
  let b := t.readS x.k rb.val
  let c := t.readS x.k rc.val
  let rows := (c.extractLsb' 16 16).toNat + 1
  let bytes := 32 * ((c.extractLsb' 0 16).toNat + 1)
  { kind := kind
    crew := (t.sheaf x.k).crew
    place := x.k
    ctx := t.ctxOf x.k
    slot := sl
    far := t.readS x.k ra.val
    fstr := (c.extractLsb' 32 32).toNat
    loff := (b.extractLsb' 0 32).toNat
    lstr := (b.extractLsb' 32 32).toNat
    rows := rows
    rowBytes := bytes
    row := 0
    byte := 0
    big := decide (2 ^ 20 < rows * bytes)
    rel := st || Order.releases ord
    dev := farSide kind ra rb rc 2 x t
    bad := false }

/-- A tensor transfer passes the checks of R253 and the Sextant takes it (R250). -/
abbrev tensorOk (kind : FarKind) (ord : Order) (sl : BSlot) (ra rb rc : SReg) (x : Ex) (t : State) : Prop :=
  t.tensorCheck x (t.readS x.k ra.val) (Shape.of (t.readS x.k rb.val) (t.readS x.k rc.val)) (match kind with
    | .fetch => .rd
    | .store => .wr) = none ∧
  clear (farSide kind ra rb rc 3 x t || Order.acquires ord) x t ∧
  let st := farSide kind ra rb rc 3 x t
  let u := pub (st || Order.acquires ord) x t
  ((u.core (unitOf x.k)).sextant.post u.nextId (command kind ord sl ra rb rc st x u)).isSome = true

/-- The command joins the core's Sextant, its crew has one more command posted, and an idle Sextant starts. -/
def queued (x : Ex) (c : FarCmd) (t : State) : State :=
  let q := (t.core (unitOf x.k)).sextant
  let u := { t.modCore (unitOf x.k) fun y => { y with sextant := (q.post t.nextId c).getD q } with nextId := t.nextId + 1 }
  let u := (u.modCrew c.crew fun y => { y with posted := y.posted + 1 }).modSheaf x.k fun y => { y with block := none }
  if q.queue = [] ∧ q.spill = [] then u.later (.chunkSend (unitOf x.k)) else u

def tensorForm (h : Hdr) (kind : FarKind) (ord : Order) (sl : BSlot) (a b c : SReg) : Option Form :=
  some { h := h, c := { uses := [.src 1 (.s a.val), .src 2 (.s b.val), .src 3 (.s c.val)], slots := [sl.val] }
         ok := tensorOk kind ord sl a b c
         f := fun x t =>
           let st := farSide kind a b c 3 x t
           let u := pub (st || Order.acquires ord) x t
           queued x (command kind ord sl a b c st x u) u }

/-- A module command is posted: its frame leaves, and its completion will arrive on the slot (R255, R444); a module that is
unreachable faults the slot with 0x21 (R415). That a command is one frame each way is the model's choice (log entry 42). -/
def posted (x : Ex) (code : Nat) (ty : Ty) (op : MredOp) (d : Nat × Nat) (w2 w3 : Word64) (sl : BSlot) (t : State) : State :=
  let c : ModCmd := ⟨code, ty, op, modIa d, w2, w3, x.k, (t.sheaf x.k).crew, some sl, (t.sheaf x.k).launch⟩
  if (t.modl d.1).unreachable then t.arriveFault (t.barAddr x.k sl) 0x21 ((modIa d).setWidth 56)
  else ((t.sendCmd d.1 (t.ctxOf x.k) c).2).modCrew (t.sheaf x.k).crew fun y => { y with posted := y.posted + 1 }

def three (a b c : SReg) (sl : BSlot) : Checks :=
  { uses := [.src 1 (.s a.val), .src 2 (.s b.val), .src 3 (.s c.val)], slots := [sl.val] }

/-- A command waits for the sheaf's remote accesses: it acquires, or one of its sides is STRONG (R115). -/
def sideStrong (x : Ex) (t : State) (va : Word64) (n : Nat) (kind : AKind) : Bool := t.hasMt (t.ctxOf x.k) va n kind 3

/-- MCOPY and MRED: both places in one module, aligned; a length of 0 arrives at once (R255). -/
def twoForm (h : Hdr) (code : Nat) (ty : Ty) (op : MredOp) (unit limit : Nat) (ord : Order) (sl : BSlot) (a b c : SReg) :
    Option Form :=
  some { h := h, c := three a b c sl
         ok := fun x t =>
           let n := (t.readS x.k c.val).toNat
           n ≤ limit ∧ (t.readS x.k a.val).toNat % unit = 0 ∧ (t.readS x.k b.val).toNat % unit = 0 ∧ n % 32 = 0 ∧
           (∃ m od os, t.moduleArg x (t.readS x.k a.val) n .wr = .ok (m, od) ∧
             t.moduleArg x (t.readS x.k b.val) n .rd = .ok (m, os)) ∧
           (n ≠ 0 → clear (Order.acquires ord || sideStrong x t (t.readS x.k a.val) n .wr ||
             sideStrong x t (t.readS x.k b.val) n .rd) x t)
         f := fun x t =>
           let n := (t.readS x.k c.val).toNat
           if n = 0 then t.arrive (t.barAddr x.k sl) 1
           else match t.moduleArg x (t.readS x.k a.val) n .wr, t.moduleArg x (t.readS x.k b.val) n .rd with
             | .ok d, .ok q => posted x code ty op d (modIa q) (BitVec.ofNat 64 n) sl (pub (Order.acquires ord ||
                 sideStrong x t (t.readS x.k a.val) n .wr || sideStrong x t (t.readS x.k b.val) n .rd) x t)
             | _, _ => t }

/-- The effects of class 0x9 (R250 to R257). -/
def farForm (_ : State) : Instr → Option Form
  | .tfetch h ord _ sl a b c => tensorForm h .fetch ord sl a b c
  | .tstore h ord _ sl a b c => tensorForm h .store ord sl a b c
  | .twin h a => form h [.src 1 (.s a.val)] (fun x t => t.modCrew (t.sheaf x.k).crew fun y =>
      { y with allow := max 1 (min 65536 (t.readS x.k a.val).toNat) })
  | .twq h w d => form h [.dst (.s d.val)] (fun x t =>
      let n := (t.sheaf x.k).crew
      t.writeS x.k d.val (BitVec.ofNat 64 (match w with
        | .allow => (t.crew n).allow
        | .flight => (t.crew n).flight
        | .queued => t.queuedOf (unitOf x.k) n)))
  | .mcopy h ord _ sl a b c => twoForm h 0 .none .add 32 (2 ^ 40) ord sl a b c
  | .mred h ty op ord _ sl a b c => twoForm h 2 ty op 1 (2 ^ 64) ord sl a b c
  | .mfill h ord _ sl a b c => some { h := h, c := three a b c sl
                                      ok := fun x t =>
                                        let n := (t.readS x.k c.val).toNat
                                        (t.readS x.k a.val).toNat % 8 = 0 ∧ n % 8 = 0 ∧
                                        (∃ d, t.moduleArg x (t.readS x.k a.val) n .wr = .ok d) ∧
                                        (n ≠ 0 → clear (Order.acquires ord ||
                                          sideStrong x t (t.readS x.k a.val) n .wr) x t)
                                      f := fun x t =>
                                        let n := (t.readS x.k c.val).toNat
                                        if n = 0 then t.arrive (t.barAddr x.k sl) 1
                                        else match t.moduleArg x (t.readS x.k a.val) n .wr with
                                          | .ok d =>
                                            let u := pub (Order.acquires ord || sideStrong x t (t.readS x.k a.val) n .wr) x t
                                            posted x 1 .none .add d (u.readS x.k b.val) (BitVec.ofNat 64 n) sl u
                                          | .error _ => t }
  | .msnap h ord _ d a b =>
      some { h := h, c := { uses := [.src 1 (.s a.val), .src 2 (.s b.val), .dst (.s d.val)] }
             ok := fun x t =>
               let n := (t.readS x.k b.val).toNat
               (t.readS x.k a.val).toNat % 2 ^ 16 = 0 ∧ n % 2 ^ 16 = 0 ∧ 2 ^ 16 ≤ n ∧ n ≤ 2 ^ 36 ∧
               clear (Order.acquires ord || sideStrong x t (t.readS x.k a.val) n .rd) x t ∧
               ∃ m, t.moduleArg x (t.readS x.k a.val) n .rd = .ok m
             w := fun x t => match t.moduleArg x (t.readS x.k a.val) (t.readS x.k b.val).toNat .rd with
               | .ok m => if (t.modl m.1).unreachable then .next else .stay
               | .error _ => .stay
             f := fun x t => match t.moduleArg x (t.readS x.k a.val) (t.readS x.k b.val).toNat .rd with
               | .ok m =>
                 let n := (t.readS x.k b.val).toNat
                 let u := pub (Order.acquires ord || sideStrong x t (t.readS x.k a.val) n .rd) x t
                 if (t.modl m.1).unreachable then u.writeS x.k d.val 0x8000000000000002 else
                 let r := u.sendCmd m.1 (u.ctxOf x.k) ⟨3, .none, .add, modIa m, 0, t.readS x.k b.val, x.k,
                   (u.sheaf x.k).crew, none, (u.sheaf x.k).launch⟩
                 r.2.modSheaf x.k fun y => { y with block := some (.command x.b (some d) r.1) }
               | .error _ => t }
  | .mclose h ord _ a =>
      let view := fun (v : Word64) => v.extractLsb' 55 9 = 1 ∧ v.getLsbD 43 = true ∧ v.extractLsb' 0 36 = 0
      let m := fun (v : Word64) => (v.extractLsb' 44 11).toNat
      formIf h [.src 1 (.s a.val)] (fun x t => view (t.readS x.k a.val) →
          t.mapped (m (t.readS x.k a.val)) = true ∧ clear (Order.acquires ord) x t) (fun _ _ => .next)
        (fun x t =>
          let v := t.readS x.k a.val
          let u := pub (Order.acquires ord) x t
          if v.extractLsb' 55 9 = 1 ∧ v.getLsbD 43 = true ∧ v.extractLsb' 0 36 = 0 then
            if (t.modl (m v)).unreachable then u
            else (u.sendCmd (m v) (u.ctxOf x.k) ⟨4, .none, .add, v, 0, 0, x.k, (u.sheaf x.k).crew, none, (u.sheaf x.k).launch⟩).2
          else t)
  | _ => none

/-! Migration, class 0xB. -/

/-- The lanes' places of MIG. -/
def migLane (base : Option SReg) (idx : Option VSrc) (off : Byte) (x : Ex) (t : State) (L : Nat) : Except Refused Access :=
  t.virtLane x.k (t.memSum x.k ⟨base, idx, .imm8 off⟩ false L) 1 .mig false

/-- The lanes of Exec whose owner is elsewhere, by whether their range lets lanes migrate; a lane that a refusal keeps here
stays (R298). -/
def migAway (x : Ex) (lane : Nat → Except Refused Access) (may : Bool) : Word32 :=
  mask32 fun L => x.exec.getLsbD L && !x.stay.getLsbD L && (match lane L with
    | .ok a => ownerOf x.k a.space != .here && a.mig == may
    | .error _ => false)

/-- PC + SignExtend(offset), in the code region. -/
def pcAt (pc : Word64) (j : Word32) : Word64 := pc.extractLsb' 32 32 ++ (pc.extractLsb' 0 32 + j)

/-- What MIG does (R290, R291, R297). -/
def migrated (d : SReg) (base : Option SReg) (idx : Option VSrc) (off : Byte) (j : Word32) (x : Ex) (t : State) : Flow × State :=
  let lane := migLane base idx off x t
  t.migrate x d (pcAt x.pc j) (migAway x lane true) (migAway x lane false)
    (fun L => match lane L with
      | .ok a => if x.stay.getLsbD L then .here else ownerOf x.k a.space
      | .error _ => .here)
    (fun L => match lane L with
      | .ok a => a.ia
      | .error _ => 0)

/-- The effects of the migration instructions (R287 to R299). -/
def migrationForm (s : State) : Instr → Option Form
  | .mig h d base idx off j =>
      formIf h (memUses ⟨base, idx, .imm8 off⟩ false ++ [.dst (.s d.val)] ++ carryUses (s.sheaf s.focus).carry)
        (fun x t =>
          let lane := migLane base idx off x t
          x.inmc = false ∧ t.otherWindow x.k (pcAt x.pc j) = false ∧ t.carryCheck x = none ∧
          (∀ L, L < 32 → x.exec.getLsbD L = true → ∃ a, lane L = .ok a) ∧
          room x t (if migAway x lane true ||| migAway x lane false ≠ 0 ∧ (t.sheaf x.k).frag.isNone ∧
            (t.sheaf x.k).win.isNone then 2 else 0))
        (fun x t => (migrated d base idx off j x t).1) (fun x t => (migrated d base idx off j x t).2)
  | .home h => formIf h [] (fun x _ => x.inmc = false)
      (fun x t => if (t.sheaf x.k).frag.isNone then (if t.arrivesAt x.k (slotOf x t) x.pc then .own else .next)
        else if (slotOf x t).mask &&& ~~~x.exec = 0 then .own else .next)
      (fun x t => if (t.sheaf x.k).frag.isNone then
          (if t.arrivesAt x.k (slotOf x t) x.pc then t.modSlot x.k x.b fun _ => PcSlot.free else t)
        else t.fragReturn x.k x.b x.exec x.pc 1 0 0 0)
  | .migset h part wb mask => form h [] (fun x t => t.modSheaf x.k fun y =>
      if wb then { y with wb := y.wb.setPart part mask }
      else { y with carry := y.carry.setPart part mask, wb := y.wb.setPart part 0 })
  | .migsetHome h j => formIf h [] (fun x _ => x.inmc = false) (fun _ _ => .next) (fun x t => t.modSheaf x.k fun y =>
      { y with homePc := if j = 0 then none else some (pcAt x.pc j) })
  | .migq h w d => form h [.dst (.s d.val)] (fun x t => t.writeS x.k d.val (t.migq x.k w))
  | _ => none

/-! Bit-serial instructions, class 0xB. -/

/-- The stride and number of elements in S[C]. -/
def shape (t : State) (x : Ex) (c : SReg) : BsShape := BsShape.of (t.readS x.k c.val)

/-- Element e of an array: bit e of row b has weight 2^b, or −2^b in the last row of a signed array. -/
def element (rows : List (List Byte)) (signed : Bool) (e : Nat) : Int :=
  let v := BitVec.ofBoolListLE (rows.map fun r => (r.getD (e / 8) 0).getLsbD (e % 8))
  int signed v

/-- A row has memory type STRONG, so that the instruction is a full fence (R114). -/
def bitStrong (o : BsOps) (t : State) : Bool := o.all.any fun a => t.effMt a == 3

/-- The arrays of a bit-serial instruction are in its reach: on a core in package space, at a near-memory unit in its own
module, where a command of 65,536 elements or more holds its leave (R302); none of its sources is strictly stale, no row
meets an uncorrectable error, and no access that it may not overtake is under way. -/
abbrev bitReady (q : BsShape) (o : BsOps) (x : Ex) (t : State) : Prop :=
  (nearMem x.k = true → (∀ a ∈ o.all, ownRow x.k a = true) ∧ (65536 ≤ q.n → t.gov.holds (.bitSerial x.k) = true)) ∧
  (nearMem x.k = false → o.away = none) ∧
  t.rowsStale q.bytes (o.a ++ o.b ++ o.dr) = false ∧ t.rowsBad q.bytes o = [] ∧ clear (bitStrong o t) x t

/-- BSADD, BSMUL, BSMAC and BSCMP (R301): the operands are translated first; then the sources are read, and the w rows of
D written. That every row of A, B and D is read before any row of D is written is log entry 47; that a row of D which is
also read is changed in place, as an atomic access, is log entry 125: both are the model's reading. -/
def bitForm (h : Hdr) (sat : Bool) (d a b c : SReg) (wa wb wd : BitVec 4) (sg acc : Bool) (f : Int → Int → Int → Int) :
    Option Form :=
  let w := wd.toNat + 1
  let ops := fun (x : Ex) (t : State) => t.bsOps x (shape t x c) (t.readS x.k a.val) (t.readS x.k b.val) (t.readS x.k d.val)
    (wa.toNat + 1) (wb.toNat + 1) (if acc then w else 0) w
  let rows := fun (q : BsShape) (o : BsOps) (ra rb rd : List (List Byte)) => o.dw.zipIdx.map fun p =>
    (p.1, bsRow q.bytes p.2 (fun e => (fit w sg sat (f (element ra sg e) (element rb sg e) (element rd sg e))).toNat),
      rowKind (o.a ++ o.b ++ o.dr) p.1)
  some { h := h
         c := { uses := [.src 1 (.s a.val), .src 2 (.s b.val), .src 3 (.s c.val), ⟨4, .s d.val, true, false, none⟩] }
         ok := fun x t => (shape t x c).ok = true ∧ ∃ o ra rb rd u, ops x t = .ok o ∧ bitReady (shape t x c) o x t ∧
           (pub (bitStrong o t) x t).readRows (shape t x c).bytes o.a = .ok ra ∧
           (pub (bitStrong o t) x t).readRows (shape t x c).bytes o.b = .ok rb ∧
           (pub (bitStrong o t) x t).readRows (shape t x c).bytes o.dr = .ok rd ∧
           (pub (bitStrong o t) x t).writeRows x (rows (shape t x c) o ra rb rd) = .ok u
         f := fun x t =>
           let q := shape t x c
           match ops x t with
           | .error _ => t
           | .ok o =>
             let u := pub (bitStrong o t) x t
             match u.readRows q.bytes o.a, u.readRows q.bytes o.b, u.readRows q.bytes o.dr with
             | .ok ra, .ok rb, .ok rd => (match u.writeRows x (rows q o ra rb rd) with
               | .ok v => v.bsEnd x
               | .error _ => t)
             | _, _, _ => t }

/-- The effects of the bit-serial instructions (R301, R302). -/
def bitSerialForm (_ : State) : Instr → Option Form
  | .bsadd h sat d a b c wa wb wd sg => bitForm h sat d a b c wa wb wd sg false fun x y _ => x + y
  | .bsmul h sat d a b c wa wb wd sg => bitForm h sat d a b c wa wb wd sg false fun x y _ => x * y
  | .bsmac h sat d a b c wa wb wd sg => bitForm h sat d a b c wa wb wd sg true fun x y z => z + x * y
  | .bscmp h cc d a b c wa wb wd sg => bitForm h false d a b c wa wb wd sg false fun x y _ => if cond cc x y then 1 else 0
  | .bspopc h d a c wa _ =>
    let ops := fun (x : Ex) (t : State) => t.bsOps x (shape t x c) (t.readS x.k a.val) 0 0 (wa.toNat + 1) 0 0 0
    some { h := h, c := { uses := [.src 1 (.s a.val), .src 3 (.s c.val), .dst (.s d.val)] }
           ok := fun x t => (shape t x c).ok = true ∧ ∃ o ra, ops x t = .ok o ∧ bitReady (shape t x c) o x t ∧
             (pub (bitStrong o t) x t).readRows (shape t x c).bytes o.a = .ok ra
           f := fun x t => match ops x t with
             | .error _ => t
             | .ok o => match (pub (bitStrong o t) x t).readRows (shape t x c).bytes o.a with
               | .error _ => t
               | .ok ra => ((pub (bitStrong o t) x t).writeS x.k d.val (BitVec.ofNat 64 ((List.range (shape t x c).n).map fun e =>
                   (ra.filter fun r => (r.getD (e / 8) 0).getLsbD (e % 8)).length).sum)).bsEnd x }
  | _ => none

/-! The matrix engine, class 0xA. -/

/-- A well-formed descriptor (R262): its reserved bits zero, its bases and strides whole granules, a low plane only for
six-bit elements, scales only for float elements. -/
abbrev goodDesc (d : TDesc) : Prop :=
  d.bits.extractLsb' 120 7 = 0 ∧ d.base % 32 = 0 ∧ d.rstr % 32 = 0 ∧
  (if d.tag = 7 ∨ d.tag = 9 then 4 ≤ d.lpo else d.lpo = 0) ∧ (d.sm = true → floatTag d.tag = true)

/-- A descriptor that may be used as a type (R66, R265). -/
abbrev descFits (d : TDesc) (ty : Ty) : Prop := (d.tag = 0 ∨ d.tag = tyTag ty) ∧ goodDesc d

/-- Runs of bytes in the crew's region (R265). -/
abbrev inRegion (t : State) (x : Ex) (rs : List (Nat × Nat)) : Prop :=
  ∀ r ∈ rs, r.1 + r.2 ≤ (t.crew (t.sheaf x.k).crew).size

/-- A command captured at issue: its descriptors, its scalar and its lanes' values (R259). -/
def capture (t : State) (x : Ex) (i : Instr) (da db : TDesc) (scalar : Word64) (vals : Vector Word64 32) (load : Nat) :
    MatCmd :=
  { instr := i, crew := (t.sheaf x.k).crew, launch := (t.sheaf x.k).launch, place := x.k
    strict := (t.sheaf x.k).strict, da := da, db := db, scalar := scalar, vals := vals, exec := x.exec, load := load, bad := false }

/-- The queue of 32 commands has room, and no command waits for it (R259). -/
def queueRoom (x : Ex) (t : State) : Bool :=
  decide ((t.core (unitOf x.k)).engine.queue.length < 32 ∧ (t.core (unitOf x.k)).engine.waiting = [])

/-- The command joins the queue of the core's engine, which will take it; with the queue full it waits for an entry, and its
sheaf blocks (R259). -/
def enqueue (x : Ex) (c : MatCmd) (t : State) : State :=
  if queueRoom x t then
    (t.modCore (unitOf x.k) fun y => { y with engine := { y.engine with queue := y.engine.queue ++ [c] } }).later
      (.matrixCommandExecute (unitOf x.k))
  else
    (t.modCore (unitOf x.k) fun y => { y with engine := { y.engine with waiting := y.engine.waiting ++ [c] } }).modSheaf x.k
      fun y => { y with block := some (.matrix x.b) }

/-- The instruction is over, or blocks until its command has an entry. -/
def queueFlow (x : Ex) (t : State) : Flow := if queueRoom x t then .next else .stay

def matForm (h : Hdr) (c : Checks) (ok : Ex → State → Prop) (cmd : Ex → State → MatCmd) : Option Form :=
  some { h := h, c := c, ok := ok, w := queueFlow, f := fun x t => enqueue x (cmd x t) t }

/-- MFEN takes a number; one that acquires orders the writes of its lanes before the reads of later commands (R277). -/
def fenceForm (h : Hdr) (c : Checks) (acq : Bool) (i : Instr) : Option Form :=
  some { h := h, c := c, ok := clear acq, w := queueFlow
         f := fun x t =>
           let u := pub acq x t
           enqueue x (capture u x i TDesc.zero TDesc.zero 0 (Vector.replicate 32 0) u.freshId.1)
             (if acq then u.freshId.2.ordered x u.freshId.1 else u.freshId.2) }

def descOf (t : State) (x : Ex) (d : Desc) : TDesc := (t.crew (t.sheaf x.k).crew).descs.getD d.val TDesc.zero

/-- The rows of a descriptor that a command reads or writes lie in the region. -/
abbrev rowsIn (d : Desc) (ty : Ty) (ms : Masks) (x : Ex) (t : State) : Prop :=
  descFits (descOf t x d) ty ∧ (descOf t x d).sm = false ∧
  inRegion t x ((selected (maskRows ms)).map fun i => (descOf t x d).runs ty i (colCount (maskCols ms))).flatten

def noVals : Vector Word64 32 := Vector.replicate 32 0

/-- The effects of class 0xA at issue (R261, R265 to R277). -/
def matrixForm (_ : State) : Instr → Option Form
  | .tdset h ty d a b => formIf h [.src 1 (.s a.val), .src 2 (.s b.val)]
      (fun x t => goodDesc ⟨t.readS x.k b.val ++ t.readS x.k a.val, tyTag ty⟩) (fun _ _ => .next)
      (fun x t => t.setDesc x.k d.val ⟨t.readS x.k b.val ++ t.readS x.k a.val, tyTag ty⟩)
  | .tdtag h d tag => form h [] (fun x t => t.setDesc x.k d.val ⟨(descOf t x d).bits, tag⟩)
  | .mma h ty inc f d a b rows cols depth => matForm h { tiles := d.val :: incTiles inc }
      (fun x t =>
        let da := descOf t x a
        let db := descOf t x b
        descFits da ty ∧ goodDesc db ∧
        (if f then tagGroup db.tag ≠ 0 ∧ tagGroup db.tag = tagGroup (tyTag ty) else db.tag = 0 ∨ db.tag = tyTag ty) ∧
        (matInt ty = true → da.sm = false ∧ db.sm = false) ∧
        inRegion t x (((selected rows).map fun i => da.runs ty i depth.toNat).flatten ++
          ((selected cols).map fun j => db.runs (bType ty f db) j depth.toNat).flatten))
      (fun x t => capture t x (.mma h ty inc f d a b rows cols depth) (descOf t x a) (descOf t x b) 0 noVals 0)
  | .mmas h ty inc d a b rows cols depth => matForm h { tiles := d.val :: incTiles inc }
      (fun x t =>
        let da := descOf t x a
        let db := descOf t x b
        descFits da ty ∧ da.sm = false ∧ descFits db ty ∧ db.sm = false ∧ db.sstr = 0 ∧
        inRegion t x (((selected rows).map fun i => da.runs ty i depth.toNat).flatten ++ [(db.rstr, 2 * (depth.toNat + 1))]))
      (fun x t => capture t x (.mmas h ty inc d a b rows cols depth) (descOf t x a) (descOf t x b) 0 noVals 0)
  | .mzero h d ms => matForm h { tiles := [d.val] } (fun _ _ => True)
      (fun x t => capture t x (.mzero h d ms) TDesc.zero TDesc.zero 0 noVals 0)
  | .mew h ty op d a ms => matForm h
      { uses := (mewScalar op).map fun r => .src 2 (.s r.val), tiles := [d.val, a.val] ++ (mewTile op).map (·.val) }
      (fun _ _ => True)
      (fun x t => capture t x (.mew h ty op d a ms) TDesc.zero TDesc.zero (match op with
        | .scale b => t.readS x.k b.val
        | .add _ => 0
        | .decay b _ => t.readS x.k b.val) noVals 0)
  | .mst h ty rnd sat d a ms => matForm h { tiles := [a.val] } (rowsIn d ty ms)
      (fun x t => capture t x (.mst h ty rnd sat d a ms) (descOf t x d) TDesc.zero 0 noVals 0)
  | .mlda h ty d a ms => matForm h { tiles := [d.val] } (rowsIn a ty ms)
      (fun x t => capture t x (.mlda h ty d a ms) (descOf t x a) TDesc.zero 0 noVals 0)
  | .mrdv h ty rnd sat part d a r => some { h := h, c := { uses := vdst ty d, tiles := [a.val] }, w := queueFlow
                                            f := fun x t =>
                                              let l := t.startLoad x.k (.vec d ty.is64 (tyTag ty)) x.exec 0 0 noVals 0 0 false
                                              enqueue x (capture l.2 x (.mrdv h ty rnd sat part d a r) TDesc.zero
                                                TDesc.zero 0 noVals l.1) l.2 }
  | .mwrv h ty part d a r => matForm h { uses := srcTyped 1 ty a, tiles := [d.val] } (fun _ _ => True)
      (fun x t => capture t x (.mwrv h ty part d a r) TDesc.zero TDesc.zero 0 (vec32 fun L => t.vsrc x.k ty L a) 0)
  | .mtrn h d a => matForm h { tiles := [d.val, a.val] } (fun _ _ => True)
      (fun x t => capture t x (.mtrn h d a) TDesc.zero TDesc.zero 0 noVals 0)
  | .mfen h ord scp b => fenceForm h { slots := [b.val] } (Order.acquires ord) (.mfen h ord scp b)
  | .mfenNoarrive h scp => fenceForm h {} true (.mfenNoarrive h scp)
  | _ => none

/-! The fabric, class 0xC. -/

/-- Every lane of Exec names a place. -/
abbrev lanesOk (x : Ex) (f : Nat → Except Refused Access) : Prop :=
  ∀ L, L < 32 → x.exec.getLsbD L = true → ∃ a, f L = .ok a

/-- What XSEND and XSENDF send (R323): lane L sends n bytes from S[B] + L × stride to the package and low address in V[A]
and V[A+1]. -/
structure SendArgs where
  n : Nat
  stride : Nat
  base : Word64
  slot : Word64

def sendArgs (d : Option SReg) (b c : SReg) (x : Ex) (t : State) : SendArgs :=
  let w := t.readS x.k c.val
  ⟨(w.extractLsb' 0 32).toNat, (w.extractLsb' 32 32).toNat, t.readS x.k b.val, match d with
    | some r => t.readS x.k r.val
    | none => 0⟩

def SendArgs.va (q : SendArgs) (L : Nat) : Word64 := q.base + BitVec.ofNat 64 (L * q.stride)

/-- Where a lane of XSEND sends to. -/
def sendTo (a : VReg) (q : SendArgs) (x : Ex) (t : State) (L : Nat) : Except Refused Access :=
  t.selTarget x (t.laneV x.k a.val L) (t.laneV x.k (a.val + 1) L) q.n .wr true

/-- The flag of XSENDF, or the barrier slot of XSEND, at the package that a lane sends to. -/
def markTo (a : VReg) (d : Option SReg) (flagged : Bool) (q : SendArgs) (x : Ex) (t : State) (L : Nat) : Except Refused Access :=
  if d.isSome then t.selTarget x (t.laneV x.k a.val L) (q.slot.extractLsb' 0 32) (if flagged then 4 else 32) .wr true
  else sendTo a q x t L

/-- Where a lane of XSEND reads; an access of memory type STRONG is a full fence (R114). -/
def sendFrom (q : SendArgs) (x : Ex) (t : State) (L : Nat) : Except Refused Access := t.translate (t.ctxOf x.k) (q.va L) q.n .rd

def sendStrong (a : VReg) (q : SendArgs) (x : Ex) (t : State) : Bool := (lanesOf x.exec).any fun L =>
  t.effMt (gotAccess (sendTo a q x t L)) == 3 || t.effMt (gotAccess (sendFrom q x t L)) == 3

/-- The bytes of a lane of XSEND. -/
def sendBytes (q : SendArgs) (x : Ex) (t : State) (L : Nat) : Except Refused (List Byte) :=
  t.ctxRead (t.ctxOf x.k) (q.va L) q.n

def sendForm (h : Hdr) (ord : Order) (d : Option SReg) (a : VReg) (b c : SReg) (flagged : Bool) : Option Form :=
  some { h := h
         c := { uses := [⟨1, .v a.val, true, false, some 0xD⟩, ⟨5, .v (a.val + 1), true, false, some 0xD⟩,
           .src 2 (.s b.val), .src 3 (.s c.val)] ++ (match d with
             | some r => [⟨4, .s r.val, true, false, none⟩]
             | none => []) }
         ok := fun x t =>
           let q := sendArgs d b c x t
           32 ≤ q.n ∧ q.n ≤ 2 ^ 24 ∧ q.n % 32 = 0 ∧ q.stride % 32 = 0 ∧
           (flagged = true → q.slot.toNat % 4 = 0 ∧ ∀ L ∈ lanesOf x.exec,
             volumeOf (fun M => (t.laneV x.k a.val M).toNat) (fun M => (t.laneV x.k (a.val + 1) M).toNat) q.n
               (lanesOf x.exec) L ≤ 2 ^ 23) ∧
           (∀ L, L < 32 → x.exec.getLsbD L = true → (t.laneV x.k (a.val + 1) L).toNat % 32 = 0) ∧
           lanesOk x (sendTo a q x t) ∧ lanesOk x (markTo a d flagged q x t) ∧
           (∀ L, L < 32 → x.exec.getLsbD L = true → ∃ o, sendFrom q x t L = .ok o ∧ (∀ m n, o.space ≠ .mod m n) ∧
             t.strictStale o q.n = false) ∧
           (∀ L, L < 32 → x.exec.getLsbD L = true → t.badAt (t.ctxOf x.k) (q.va L) q.n = []) ∧
           clear (sendStrong a q x t || Order.acquires ord) x t
         f := fun x t =>
           let q := sendArgs d b c x t
           let part := fun (L : Nat) => SendLane.mk (gotAccess (sendTo a q x t L)) (t.laneV x.k (a.val + 1) L).toNat
             (q.va L) (match sendBytes q x t L with
               | .ok bs => bs
               | .error _ => [])
           (sendCovers ((lanesOf x.exec).map part)).foldl (fun (u : State) p => u.sendCover x p.1 p.2
             (if flagged then none else d.map fun _ => (q.slot.extractLsb' 0 32).toNat)
             (if flagged then some ((q.slot.extractLsb' 0 32).toNat, q.slot.extractLsb' 32 32) else none))
             (pub (sendStrong a q x t || Order.acquires ord) x t) }

/-- A lane of XGET or XATOM: its selector in A, its low address in B (R325, R326). -/
def peerLane (ty : Ty) (a b : VSrc) (kind : AKind) (far : Bool) (x : Ex) (t : State) (L : Nat) : Except Refused Access :=
  t.selTarget x (t.vsrc32 x.k L a) (t.vsrc32 x.k L b) (tyBytes ty) kind far

/-- The places of the lanes. -/
def peerAt (ty : Ty) (a b : VSrc) (kind : AKind) (far : Bool) (x : Ex) (t : State) (L : Nat) : Access :=
  gotAccess (if L < 32 then peerLane ty a b kind far x t L else .error ⟨0, 0⟩)

/-- Some lane's place has memory type STRONG. -/
def peerStrong (at_ : Nat → Access) (x : Ex) (t : State) : Bool := (lanesOf x.exec).any fun L => t.effMt (at_ L) == 3

def peerForm (h : Hdr) (ty : Ty) (ord : Order) (scp : Scope) (a b : VSrc) (kind : AKind) (far : Bool)
    (us : List Use) (f : Ex → Bool → (Nat → Access) → State → State → State) : Option Form :=
  some { h := h, c := { noOverlap := true, uses := us }
         ok := fun x t => lanesOk x (peerLane ty a b kind far x t) ∧
           (∀ L, L < 32 → x.exec.getLsbD L = true → (t.vsrc32 x.k L b).toNat % tyBytes ty = 0) ∧
           clear (peerStrong (peerAt ty a b kind far x t) x t || Order.releases ord) x t
         f := fun x t =>
           let st := peerStrong (peerAt ty a b kind far x t) x t
           let u := pub (st || Order.releases ord) x t
           f x (st || Order.acquires ord) (peerAt ty a b kind far x t) u (acquireIf (st || u.acquires x.k ord scp) x.k u) }

/-- Number of f32 values in S[C] of XRED and XRESID: a multiple of 32 from 32 to 65,536. -/
abbrev countOk (n : Nat) : Prop := 32 ≤ n ∧ n ≤ 65536 ∧ n % 32 = 0

/-- n f32 values of package SRAM that a register names. -/
abbrev vectorAt (t : State) (x : Ex) (a : SReg) (n : Nat) (kind : AKind) (p : Nat) : Prop :=
  (t.readS x.k a.val).toNat % 32 = 0 ∧ t.pkgArg x (t.readS x.k a.val) (4 * n) kind = .ok p

/-- The package address of such values. -/
def vectorOf (t : State) (x : Ex) (a : SReg) (n : Nat) (kind : AKind) : Nat :=
  (t.pkgArg x (t.readS x.k a.val) (4 * n) kind).toOption.getD 0

/-- The number of values in the low half of a register. -/
def lowCount (t : State) (x : Ex) (c : SReg) : Nat := ((t.readS x.k c.val).extractLsb' 0 32).toNat

/-- The sum of two f32 values, rounded to nearest even (R330). -/
def addF32 (a b : Nat) : FV := fmtF32.decode (fmtF32.round .rne 0 false (FV.add false (fmtF32.decode a) (fmtF32.decode b)))

/-- Blocks of 32 values: scale, codes, residuals and whether a value was not representable (R330, R367). -/
def redBlocks (ty : Ty) (srnd : Bool) (n : Nat) (ts : List FV) (st : Word64) : List (Byte × List Nat × List Nat × Bool) :=
  (List.range (n / 32)).map fun j => redBlock ty (if srnd then .srnd else .rne)
    (fun i => (laneRand st (32 * j + i)).toNat % 2 ^ 32) ((ts.drop (32 * j)).take 32)

/-- The effects of class 0xC (R320 to R331). -/
def fabricForm (_ : State) : Instr → Option Form
  | .xsend h ord _ d a b c => sendForm h ord (some d) a b c false
  | .xsendNobar h ord _ a b c => sendForm h ord none a b c false
  | .xsendf h ord _ d a b c => sendForm h ord (some d) a b c true
  | .xget h ty ord scp d a b => peerForm h ty ord scp a b .rd true (vdst ty d ++ selUses 1 a ++ selUses 2 b)
      (fun x acq at_ _ u => u.loadLanes x ty (vecDest ty d) false false acq at_)
  | .xatom h ty op ord scp d a b c => peerForm h ty ord scp a b .rmw false
      (vdst ty d ++ selUses 1 a ++ selUses 2 b ++ srcTyped 3 ty c)
      (fun x acq at_ t u => u.atomLanes x ty (vecDest ty d) (AtomOp.num op) acq (fun L => t.vsrc x.k ty L c) (fun _ => 0)
        (fun L old => atomNew ty op old (t.vsrc x.k ty L c)) at_)
  | .xmcast h ord _ d a b g len slot bv =>
      let n := 32 * (len.toNat + 1)
      let low := fun (x : Ex) (t : State) => ((t.readS x.k b.val).extractLsb' 0 32).toNat
      let ms := fun (t : State) => t.members g.toNat t.host.pkgnum.toNat
      let strong := fun (x : Ex) (t : State) => Order.acquires ord || t.hasMt (t.ctxOf x.k) (t.readS x.k a.val) n .rd 3 ||
        t.hasMt (t.ctxOf x.k) (t.readS x.k d.val) 64 .wr 3 || (ms t).any fun p =>
          t.effMt (gotAccess (t.selTarget x (BitVec.ofNat 32 p) (BitVec.ofNat 32 (low x t)) n .wr false)) == 3
      some { h := h, c := { uses := [.src 1 (.s a.val), .src 2 (.s b.val), ⟨4, .s d.val, true, false, none⟩] }
             ok := fun x t =>
               (bv = true → slot.val < (t.crew (t.sheaf x.k).crew).bar) ∧ low x t % 32 = 0 ∧ low x t % 256 + n ≤ 256 ∧
               (t.readS x.k d.val).toNat % 64 = 0 ∧
               (∀ p ∈ ms t, ∃ q, t.selTarget x (BitVec.ofNat 32 p) (BitVec.ofNat 32 (low x t)) n .wr false = .ok q) ∧
               (∃ q, t.translate (t.ctxOf x.k) (t.readS x.k d.val) 64 .wr = .ok q ∧ ∀ m o, q.space ≠ .mod m o) ∧
               (∃ bs, t.opRead x (t.readS x.k a.val) n = .ok bs) ∧
               t.badAt (t.ctxOf x.k) (t.readS x.k a.val) n = [] ∧ clear (strong x t) x t
             w := fun _ t => if ms t = [] then .next else .stay
             f := fun x t =>
               let sl := if bv then some slot else none
               let crew := (t.sheaf x.k).crew
               let l := (t.sheaf x.k).launch
               let q := pub (strong x t) x t
               if ms t = [] then q.mcastStatus x.k (t.readS x.k d.val) 0 crew sl
               else
                 let kids := (ms t).take 2
                 let o := q.openXfer (.mcast x.k (t.readS x.k d.val) g.toNat crew sl) l kids.length
                   ((ms t).map fun p => (peerIa p (low x t), n))
                 let bs := (t.opRead x (t.readS x.k a.val) n).toOption.getD []
                 let u := kids.foldl (fun (v : State) p => v.sendOut
                   ⟨{ v.peerFrame 6 (t.ctxOf x.k) p (low x t) o.1 bs with pcnt := g.zeroExtend 16 }, .short, [], l, [], [], false⟩) o.2
                 u.modSheaf x.k fun y => { y with block := some (.mcast x.b o.1) } }
  | .xfence h scp => formIf h []
      (fun x t => t.remoteOut x.k = false ∧ t.writesOut x.k = false ∧ (t.sheaf x.k).refusedAddr = none) (fun _ _ => .next)
      (fun x t =>
        let u := pub true x (t.modSheaf x.k fun y => { y with block := none })
        acquireIf (u.farScope x.k scp) x.k u)
  | .xred h ty srnd ord _ d a b c =>
      let low := fun (x : Ex) (t : State) => ((t.readS x.k c.val).extractLsb' 32 32).toNat
      let dest := fun (x : Ex) (t : State) => t.selTarget x ((t.readS x.k d.val).extractLsb' 0 32) (BitVec.ofNat 32 (low x t))
        (imageLen ty (lowCount t x c)) .wr true
      let strong := fun (x : Ex) (t : State) => Order.acquires ord || t.effMt (gotAccess (dest x t)) == 3 ||
        t.hasMt (t.ctxOf x.k) (t.readS x.k a.val) (4 * lowCount t x c) .rd 3 ||
        t.hasMt (t.ctxOf x.k) (t.readS x.k b.val) (4 * lowCount t x c) .rd 3
      some { h := h
             c := { uses := [.src 1 (.s a.val), .src 2 (.s b.val), .src 3 (.s c.val), ⟨4, .s d.val, true, false, none⟩] }
             ok := fun x t =>
               let n := lowCount t x c
               let bar := (t.readS x.k d.val).extractLsb' 32 32
               countOk n ∧ low x t % 32 = 0 ∧ (∃ q, dest x t = .ok q) ∧ clear (strong x t) x t ∧
               (bar ≠ 0 → ∃ q, t.selTarget x ((t.readS x.k d.val).extractLsb' 0 32) bar 32 .wr true = .ok q) ∧
               ∃ pa pb pd, vectorAt t x a n .rd pa ∧ vectorAt t x b n .rd pb ∧ vectorAt t x b n .wr pd ∧
                 t.badGranules pa (4 * n) = [] ∧ t.badGranules pb (4 * n) = []
             f := fun x t =>
               let n := lowCount t x c
               let pa := vectorOf t x a n .rd
               let pb := vectorOf t x b n .rd
               let v := (((pub (strong x t) x t).freshen x.k pa (4 * n)).freshen x.k pb (4 * n)).learn x.k x.exec pa (4 * n)
               let bl := redBlocks ty srnd n (List.zipWith addF32 (v.readF32 pa n) (v.readF32 pb n)) (v.sheaf x.k).srnd
               let u := v.coreWrite x.k pb (writeF32 (bl.map fun q => q.2.2.1).flatten)
               let u := u.modSheaf x.k fun y => { y with
                 qnv := y.qnv || bl.any (fun q => q.2.2.2)
                 srnd := if srnd then stepState y.srnd else y.srnd }
               let bar := ((t.readS x.k d.val).extractLsb' 32 32).toNat
               u.sendCover x (gotAccess (dest x t)).space
                 (Cover.add [] (low x t) none (imageOf ty (bl.map fun q => q.2.1).flatten (bl.map fun q => q.1)))
                 (if bar = 0 then none else some bar) none }
  | .xresid h (.rd d a c) => formIf h [.src 1 (.s a.val), .src 3 (.s c.val), .dst (.s d.val)]
      (fun x t => countOk (lowCount t x c) ∧ ∃ p, vectorAt t x a (lowCount t x c) .rd p ∧
        t.badGranules p (4 * lowCount t x c) = [] ∧ clear (sideStrong x t (t.readS x.k a.val) (4 * lowCount t x c) .rd) x t)
      (fun _ _ => .next)
      (fun x t =>
        let v := pub (sideStrong x t (t.readS x.k a.val) (4 * lowCount t x c) .rd) x t
        let u := v.freshen x.k (vectorOf t x a (lowCount t x c) .rd) (4 * lowCount t x c)
        let ms := (u.readF32 (vectorOf t x a (lowCount t x c) .rd) (lowCount t x c)).map fun v => v % 2 ^ 31
        let top : Word32 := if ∃ m ∈ ms, (fmtF32.decode m).isNan = true then u.free64.setWidth 32
          else BitVec.ofNat 32 (ms.foldl max 0)
        (u.writeS x.k d.val (BitVec.ofNat 32 (ms.filter (· ≠ 0)).length ++ top)).tick)
  | .xresid h (.clr a c) => formIf h [.src 1 (.s a.val), .src 3 (.s c.val)]
      (fun x t => countOk (lowCount t x c) ∧ (∃ p, vectorAt t x a (lowCount t x c) .wr p) ∧
        clear (sideStrong x t (t.readS x.k a.val) (4 * lowCount t x c) .wr) x t) (fun _ _ => .next)
      (fun x t => (pub (sideStrong x t (t.readS x.k a.val) (4 * lowCount t x c) .wr) x t).coreWrite x.k (vectorOf t x a (lowCount t x c) .wr) (List.replicate (4 * lowCount t x c) 0))
  | .xresid h (.set a b c) => formIf h [.src 1 (.s a.val), .src 2 (.s b.val), .src 3 (.s c.val)]
      (fun x t => countOk (lowCount t x c) ∧ ∃ p q, vectorAt t x a (lowCount t x c) .wr p ∧
        vectorAt t x b (lowCount t x c) .rd q ∧ t.badGranules q (4 * lowCount t x c) = [] ∧
        clear (sideStrong x t (t.readS x.k a.val) (4 * lowCount t x c) .wr ||
          sideStrong x t (t.readS x.k b.val) (4 * lowCount t x c) .rd) x t)
      (fun _ _ => .next)
      (fun x t =>
        let q := vectorOf t x b (lowCount t x c) .rd
        let u := pub (sideStrong x t (t.readS x.k a.val) (4 * lowCount t x c) .wr ||
          sideStrong x t (t.readS x.k b.val) (4 * lowCount t x c) .rd) x t
        (u.freshen x.k q (4 * lowCount t x c)).coreWrite x.k (vectorOf t x a (lowCount t x c) .wr)
          (u.pkgRead q (4 * lowCount t x c)))
  | .xgrpSet h g a => some { h := h, c := { priv := true, uses := [.src 1 (.s a.val)] }
                             ok := fun x t => ∃ bs, t.opRead x (t.readS x.k a.val) 64 = .ok bs
                             f := fun x t => { t with groups := Tab.set 0 t.groups g.toNat (BitVec.ofNat 512
                               (leNat ((t.opRead x (t.readS x.k a.val) 64).toOption.getD []))) } }
  | .xgrpGet h g a =>
      let put := fun (x : Ex) (t : State) =>
        t.blockWrite x.k (t.readS x.k a.val) (leBytes 64 (Tab.get 0 t.groups g.toNat).toNat)
      some { h := h, c := { priv := true, uses := [.src 1 (.s a.val)] }
             ok := fun x t => ∃ u, put x t = .ok u
             f := fun x t => (put x t).toOption.getD t }
  | _ => none

/-! Launches, class 0xD. -/

/-- LNCH and LARM: the record's 64 bytes go to the Orrery with the sheaf's dependence list, and the sheaf waits for its
decision (R194, R195). -/
def submitForm (h : Hdr) (d a : SReg) (arm : Option BSlot) : Option Form :=
  let rec_ := fun (x : Ex) (t : State) => t.opRead x (t.readS x.k a.val) 64
  some { h := h, c := { uses := [.src 1 (.s a.val), .dst (.s d.val)], slots := (arm.map fun b => b.val).toList }
         ok := fun x t => (∃ bs, rec_ x t = .ok bs ∧ t.extStale (t.ctxOf x.k) bs = false ∧
             t.badAt (t.ctxOf x.k) (t.readS x.k a.val) 64 = [] ∧ t.extBad (t.ctxOf x.k) bs = []) ∧ clear true x t
         w := fun _ _ => .stay
         f := fun x t => match rec_ x t with
           | .error _ => t
           | .ok bs =>
             let u := pub true x t
             let q : Submission := ⟨t.ctxOf x.k, bs, some (x.k, x.b), d, arm, (u.sheaf x.k).deps⟩
             ({ u with subs := u.subs ++ [q] }.modSheaf x.k fun y =>
               { y with deps := [], block := some (.launch x.b d) }).later .orreryAdmit }

/-- The launches that LWAIT answers 3 for: the issuing one and its ancestors (R197). -/
def ownLine (t : State) (k : Nat) : List Nat :=
  (t.sheaf k).launch :: ((Tab.find t.launches (t.sheaf k).launch).map fun l => l.ancestors).getD []

/-- A launch of the issuing context that is in the window. -/
def known (t : State) (k : Nat) (n : Nat) : Option Launch := (Tab.find t.launches n).filter fun l => l.ctx == t.ctxOf k

/-- What LWAIT does (R197). -/
def lwaitTo (d a : SReg) (x : Ex) (t : State) : State :=
  let n := (t.readS x.k a.val).toNat
  if (known t x.k n).isNone then t.writeS x.k d.val 2
  else if n ∈ ownLine t x.k then t.writeS x.k d.val 3
  else t.modSheaf x.k fun y => { y with park := some (.lwait d n) }

/-- The effects of class 0xD (R193 to R197). -/
def launchForm (_ : State) : Instr → Option Form
  | .lnch h d a => submitForm h d a none
  | .larm h d a b => submitForm h d a (some b)
  | .ldep h a => formIf h [.src 1 (.s a.val)] (fun x t => (t.sheaf x.k).deps.length < 8) (fun _ _ => .next)
      (fun x t => t.modSheaf x.k fun y => { y with deps := y.deps ++ [(t.readS x.k a.val).toNat] })
  | .lprio h a b => form h [.src 1 (.s a.val), .src 2 (.s b.val)] (fun x t =>
      if (known t x.k (t.readS x.k a.val).toNat).isNone then t
      else t.modLaunch (t.readS x.k a.val).toNat fun y =>
        { y with prio := min ((t.readS x.k b.val).extractLsb' 0 2).toNat (t.prioOf x.k) })
  | .lwait h d a => form h [.src 1 (.s a.val), .dst (.s d.val)] (lwaitTo d a)
  | _ => none

/-! System instructions, class 0xE, all privileged (R198). -/

/-- An entry of class 0xE. -/
def sysForm (h : Hdr) (us : List Use) (ok : Ex → State → Prop) (w : Ex → State → Flow) (f : Ex → State → State) : Option Form :=
  some { h := h, c := { priv := true, uses := us }, ok := ok, w := w, f := f }

/-- A word with only bits [hi − 1 : lo] kept, and without those of a mask: reserved bits stay zero (R8, Tables 5-2 to 5-4). -/
def keep (v : Word64) (hi lo : Nat) (also : Word64) : Word64 := BitVec.ofNat 64 (v.toNat % 2 ^ hi / 2 ^ lo * 2 ^ lo) &&& ~~~also

/-- The range registers of the context an instruction names; with OWN = 0 one that does not exist keeps its own (R199). -/
def ranges (own : Bool) (ctx : BitVec 10) (x : Ex) (t : State) (f : Fin 16 → Word64 × Word64 × Word64 → Word64 × Word64 × Word64) :
    State :=
  let n := if own then t.ctxOf x.k else ctx.toNat
  if own = false ∧ (t.ctx n).v = false then t
  else { t with ctxs := Tab.put t.ctxs n { t.ctx n with rr := Vector.ofFn fun i => f i ((t.ctx n).rr.get i) } }

/-- A module's page invalidation is sent, and the sheaf waits for its completion (R200); a module that is unreachable has
nothing to invalidate (R415). -/
def pagesOf (x : Ex) (m code : Nat) (w1 w3 : Word64) (t : State) : State :=
  if (t.modl m).unreachable then t else
  let r := t.sendCmd m (t.ctxOf x.k) ⟨code, .none, .add, w1, 0, w3, x.k, (t.sheaf x.k).crew, none, (t.sheaf x.k).launch⟩
  r.2.modSheaf x.k fun y => { y with block := some (.command x.b none r.1) }

/-- Module of an address of module space. -/
def moduleAt (v : Word64) : Nat := (v.extractLsb' 44 11).toNat

/-- PGINV's first page names a mapped module's address and there are pages. -/
def pagesIn (a b : SReg) (x : Ex) (t : State) : Bool :=
  decide ((t.readS x.k a.val).extractLsb' 55 9 = 1) && t.mapped (moduleAt (t.readS x.k a.val)) &&
    decide (t.readS x.k b.val ≠ 0)

/-- WCSLD: the image passes its checks, and each store takes it (R201). -/
def wcsForm (h : Hdr) (a : SReg) (m : Fin 64) (n : BitVec 5) (cores : Ex → List Nat) : Option Form :=
  let image := fun (x : Ex) (t : State) => t.scanImage x (t.readS x.k a.val) (n.toNat + 1) 128 [] 0 0
  sysForm h [.src 1 (.s a.val)] (fun x t => ∃ bs, image x t = .done bs) (fun _ _ => .next)
    (fun x t => match image x t with
      | .done bs => (cores x).foldl (fun (u : State) c =>
          { u.modCore c fun y => { y with store := Tab.put y.store m.val ⟨bs, n.toNat + 1⟩ } with
            badWords := u.badWords.filter (· != .store c m.val) }) t
      | _ => t)

/-- EVPOST's record: type 1, of the cluster, with S[B] and S[C] (R202, Table 18-5). -/
def software (b c : SReg) (x : Ex) (t : State) : BitVec 256 :=
  mkRecord 1 0 (t.ctxOf x.k) (clusterOf (unitOf x.k)) t.nanos (payload2 (t.readS x.k c.val) (t.readS x.k b.val))

/-- A sweeper's passes that have ended, and the wait for the pass after the one under way (R205). -/
def sweepForm (h : Hdr) (slice : Bool) (key : Nat → Nat) : Option Form :=
  sysForm h [] (fun _ _ => True) (fun _ _ => .stay) (fun x t => (t.modSheaf x.k fun y =>
    { y with block := some (.sweep x.b slice ((t.genCtr (key x.k)).passes + 2)) }).sweep (key x.k))

/-- DBGRD's two results (R204). -/
def debugRead (w : DbgWhat) (v : Word64) (x : Ex) (t : State) : Word64 × Word64 :=
  let core := (v.extractLsb' 0 8).toNat
  match w with
  | .reg =>
    let slot := (v.extractLsb' 8 5).toNat
    let code := (v.extractLsb' 13 8).toNat
    let L := (v.extractLsb' 21 5).toNat
    let k := core * 24 + slot
    if 24 ≤ slot ∨ (Tab.find t.sheaves k).isNone then (0, 0)
    else if code < 192 then
      (((t.vraw k code).data.getD L 0).zeroExtend 64, (((t.vraw k code).fmt ++ (t.vraw k code).gen : BitVec 20)).zeroExtend 64)
    else ((t.sraw k (code - 192)).val, (t.sraw k (code - 192)).gen.zeroExtend 64)
  | .acc =>
    let r := Tab.get TileRow.zero t.acc (core * 1024 + (v.extractLsb' 8 6).toNat * 16 + (v.extractLsb' 14 4).toNat)
    let e := r.el.getD (v.extractLsb' 18 4).toNat 0
    (e.extractLsb' 0 64, (r.gen ++ e.extractLsb' 64 32 : BitVec 48).zeroExtend 64)
  | .mem => match t.translate (t.ctxOf x.k) v 8 .rd with
    | .ok ⟨_, .pkg p _, _, _, _, _⟩ =>
      (BitVec.ofNat 64 (leNat ((List.range 8).map fun i => t.byte (p + i))), (t.tag p).zeroExtend 64)
    | _ => (0, 0)

/-- DBGRD.mem reads package space, at a multiple of 8, with no uncorrectable error (R204). -/
abbrev debugOk (w : DbgWhat) (v : Word64) (x : Ex) (t : State) : Prop :=
  w = .mem → v.toNat % 8 = 0 ∧ ∃ a p g, t.translate (t.ctxOf x.k) v 8 .rd = .ok a ∧ a.space = .pkg p g ∧ t.badGranules p 8 = []

/-- The effects of class 0xE (R198 to R205). -/
def systemForm (_ : State) : Instr → Option Form
  | .rrset h a b c own ctx n => sysForm h [.src 1 (.s a.val), .src 2 (.s b.val), .src 3 (.s c.val)] (fun _ _ => True)
      (fun _ _ => .next) (fun x t => ranges own ctx x t fun i v => if i.val = n.toNat then
          (keep (t.readS x.k a.val) 57 0 0xC02, keep (t.readS x.k b.val) 57 12 0, keep (t.readS x.k c.val) 56 12 0) else v)
  | .rrinv h own ctx mask => sysForm h [] (fun _ _ => True) (fun _ _ => .next)
      (fun x t => ranges own ctx x t fun i v => if mask.getLsbD i.val then (0, 0, 0) else v)
  | .pginv h a b => sysForm h [.src 1 (.s a.val), .src 2 (.s b.val)] (fun x t => clear true x t)
      (fun x t => if pagesIn a b x t && !(t.modl (moduleAt (t.readS x.k a.val))).unreachable then .stay else .next)
      (fun x t => if pagesIn a b x t then pagesOf x (moduleAt (t.readS x.k a.val)) 5
          ((t.readS x.k a.val).extractLsb' 16 48 ++ (0 : BitVec 16)) (t.readS x.k b.val) (pub true x t)
        else pub true x t)
  | .pginvMod h a => sysForm h [.src 1 (.s a.val)] (fun x t => clear true x t)
      (fun x t => if t.mapped (moduleAt (t.readS x.k a.val)) && !(t.modl (moduleAt (t.readS x.k a.val))).unreachable then .stay
        else .next)
      (fun x t => if t.mapped (moduleAt (t.readS x.k a.val)) then
          pagesOf x (moduleAt (t.readS x.k a.val)) 6 (modIa (moduleAt (t.readS x.k a.val), 0)) 0 (pub true x t)
        else pub true x t)
  | .wcsld h a m n => wcsForm h a m n fun x => [unitOf x.k]
  | .wcsldAll h a m n => wcsForm h a m n fun _ => List.range 256
  | .evpost h a b c => sysForm h [.src 1 (.s a.val), .src 2 (.s b.val), .src 3 (.s c.val)]
      (fun x t => clear true x t ∧ ((t.readS x.k a.val).toNat < 16 ∨
        (t.readS x.k a.val = 0xFFFFFFFF ∧ t.readS x.k b.val = 1))) (fun _ _ => .next)
      (fun x t =>
        let q := (t.readS x.k a.val).toNat
        let u := pub true x t
        if 16 ≤ q then (if u.host.invarSt = 1 then u else u.later .invarCheckpoint)
        else
          let v := u.readTable (t.ctxOf x.k)
          if queueValid (v.queueEntry (t.ctxOf x.k) q) then v.postIn (t.ctxOf x.k) q (software b c x v) else v)
  | .preq h d a => sysForm h [.src 1 (.s a.val), .dst (.s d.val)] (fun _ _ => True) (fun _ _ => .next) (fun x t =>
      let w := t.readS x.k a.val
      let kind := (w.extractLsb' 0 3).toNat
      let n := (w.extractLsb' 3 13).toNat
      let r := t.reserve (t.ctxOf x.k) kind (if kind = 3 then n else max 1 n) (w.extractLsb' 16 16).toNat
      r.2.writeS x.k d.val r.1)
  | .preqRel h a => sysForm h [.src 1 (.s a.val)] (fun _ _ => True) (fun _ _ => .next)
      (fun x t => t.dropReservation (t.ctxOf x.k) ((t.readS x.k a.val).extractLsb' 0 32).toNat)
  | .dbgrd h w d a => some { h := h
                             c := { priv := true, dbg := true, uses := [.src 1 (.s a.val), .dst (.s d.val),
                               ⟨5, .s (d.val + 1), false, true, none⟩] }
                             ok := fun x t => debugOk w (t.readS x.k a.val) x t
                             f := fun x t =>
                               let r := debugRead w (t.readS x.k a.val) x t
                               (t.writeS x.k d.val r.1).writeS x.k (d.val + 1) r.2 }
  | .gensweep h => sweepForm h false fun k => unitOf k
  | .gensweepSlice h => sweepForm h true fun k => 256 + clusterOf (unitOf k)
  | _ => none

/-! Steps of units and of the outside world. -/

/-- A step has the effect of the table in every state that meets the table's condition. -/
def Occurs (table : State → Instr → Option (Prop × State)) : Prop :=
  ∀ (i : Instr) (s : State) (P : Prop) (t : State), table s i = some (P, t) → P → exec i s = .next t

/-- A launch is ACTIVE. -/
def active (s : State) (n : Nat) : Bool := ((Tab.find s.launches n).map fun l => l.state == .active).getD false

/-- A launch and its span run, and no checkpoint is under way. -/
abbrev runsAt (s : State) (k : Nat) : Prop :=
  ((s.launchOf k).map fun l => l.state == .active).getD false = true ∧ (s.span (s.sheaf k).span).state = .running ∧
    s.checkpoint = false

/-- Lanes of a load that have neither arrived nor faulted. -/
def outstanding (l : Load) : Word32 := l.left &&& ~~~l.ready &&& ~~~l.bad

/-- The requests for extended blocks that wait at a core, in the order they were made: each takes a block, and its sheaf goes
on, up to the first that finds none, for which the compactor then looks (R49 to R51, R187). -/
def grants (core : Nat) : List PoolReq → State → State
  | [], t => t
  | r :: rest, t => match (if r.size ≤ (t.sheaf r.place).xblk then some t else t.takeBlock r.place r.size) with
    | none => t.later (.compactorMove core)
    | some u =>
      let v := (u.modCore core fun c => { c with waiting := rest }).modSheaf r.place fun y => { y with park := none }
      grants core rest (if r.implicit then v else v.advance r.place r.b 8)

/-- Those that wait now. -/
def offered (core : Nat) (t : State) : State := grants core (t.core core).waiting t

/-- The steps of cores, registers and slots (R38, R50, R51, R57, R181, R182, R382, R404). -/
def coreSteps (s : State) : Instr → Option (Prop × State)
  | .waitaTimeout p => match (s.sheaf (placeKey p)).park with
    | some (.waita d limit) => some (0 < limit ∧ limit ≤ s.time, (s.writeS (placeKey p) d.val 1).modSheaf (placeKey p)
        fun y => { y with park := none, watch := [], watchHit := false })
    | _ => none
  | .sleepExpiry p => match (s.sheaf (placeKey p)).park with
    | some (.sleep u) => some (u ≤ s.time, s.modSheaf (placeKey p) fun y => { y with park := none })
    | _ => none
  | .loadLaneReturn p id lane => ((s.sheaf (placeKey p)).loads.find? fun l => l.id == id).map fun l =>
      (lane < 32 ∧ l.left.getLsbD lane = true ∧ l.ready.getLsbD lane = true,
        let t := s.writeLoad (placeKey p) l (laneBit lane)
        (if l.left &&& ~~~laneBit lane = 0 then (t.tagLoad (placeKey p) l.dest).modSheaf (placeKey p) fun y => y.loadDone id
        else t.modSheaf (placeKey p) fun y =>
          { y with loads := y.loads.map fun x => if x.id = id then { x with left := l.left &&& ~~~laneBit lane } else x }
        ).freeVisitor (placeKey p))
  | .memoryFaultSettle p b => match ((s.sheaf (placeKey p)).slot b).park with
    | some (.memory id pc opc _ micro) => ((s.sheaf (placeKey p)).loads.find? fun l => l.id == id).map fun l =>
        (outstanding l = 0, if l.bad = 0 then s.modSlot (placeKey p) b fun sl => { sl with park := none }
          else (s.settle (placeKey p) b l pc opc micro).refill (placeKey p))
    | _ => none
  | .trapEntry p b => ((s.sheaf (placeKey p)).slot b).waiting.map fun t =>
      ((Tab.find s.sheaves (placeKey p)).isSome = true ∧ runsAt s (placeKey p) ∧ s.canEnter (placeKey p) b = true,
        (s.enterTrap (placeKey p) b t).refill (placeKey p))
  | .extendedBlockGrant core => some (True, offered core s)
  | .compactorMove core => match s.compactArena core, (s.core core).waiting with
    | some a, r :: _ =>
      let ms := s.moves core a
      let good := ms.filter fun m =>
        (poolPlace (Tab.put (Tab.del (s.core core).blocks m.1) m.2 (Tab.get 0 (s.core core).blocks m.1)) r.size).isSome
      (pick (if good = [] then ms else good) (Config.choose s.choices)).map fun m => (True,
        (s.modCore core fun x => { x with move := some m, blocks := Tab.put x.blocks m.2 (Tab.get 0 x.blocks m.1) }).later
          (.compactorMoveDone core))
    | _, _ => none
  | .compactorMoveDone core => (s.core core).move.map fun m =>
      let size := Tab.get 0 (s.core core).blocks m.1
      let base := core * 8192 + 1024
      let t : State := { s with vregs := (List.range size).foldl (fun r i =>
        Tab.set VCell.zero r (base + m.2 + i) (Tab.get VCell.zero s.vregs (base + m.1 + i))) s.vregs }
      let t := match s.regOwner core (1024 + m.1) with
        | none => t
        | some k => t.modSheaf k fun y => if y.vbase = some m.1 then { y with vbase := some m.2 }
          else { y with ext := y.ext.map fun (x : ExtBlk) => { x with start := m.2 } }
      (s.badRegs = [], offered core (t.modCore core fun c => { c with move := none, blocks := Tab.del c.blocks m.1 }))
  | .sweeperPassEnd slice n =>
      let key := if slice then 256 + n else n
      let a := if slice then 2 ^ 31 + n * 2 ^ 26 else n * 2 ^ 23
      let e := if slice then a + 2 ^ 26 else a + 2 ^ 23
      let t : State := { s with tags := s.tags.filter fun p => !(decide (a ≤ 32 * p.1 ∧ 32 * p.1 < e) && s.stale (32 * p.1)) }
      let t := if slice then t else t.sweepRegs n
      let t : State := { t with
        gens := Tab.upd GenCtr.init s.gens key fun c => { c with
          passes := c.passes + 1
          quar := c.quar.filter fun q => decide (c.passes + 1 < q.2) } }
      let t := (t.wakeSweeps slice key ((s.genCtr key).passes + 1)).later .spanPlacement
      let t := if slice = false ∧ (t.core n).waiting ≠ [] then t.later (.extendedBlockGrant n) else t
      some ((if slice then n < 32 else n < 256 ∧ s.badRegs = [] ∧ s.badWords = []) ∧ s.badSram = [],
        if (t.genCtr key).quar ≠ [] ∨ t.sweepWaited slice key then t.sweep key else t)
  | _ => none

/-- A submission that the Orrery takes from the host's window (R129, R338). -/
def hostSubmission (ctx : Nat) (data : List Byte) : Submission := ⟨ctx, data, none, 0, none, []⟩

/-- The steps of the Orrery (R129 to R144, R410). -/
def orrerySteps (s : State) : Instr → Option (Prop × State)
  | .submissionWrite ctx off data => some (s.host.cur = 4 ∧ off % 64 = 0 ∧ data.length = 64 ∧
      (s.ctx ctx).v = true, { s with subs := s.subs ++ [hostSubmission ctx data] }.later .orreryAdmit)
  | .orreryAdmit => match s.nextSub with
    | none => none
    | some (q, rest) =>
      let u : State := { s with subs := rest }
      match q.origin, u.readRecord q.ctx q.bytes with
      | some (k, b), some x =>
        let r := u.accept q.ctx (u.sheaf k).launch q.deps (q.arm.map fun n => ((u.sheaf k).crew, n)) x
        some (s.badWords = [] ∧ s.host.cur = 4 ∧ u.extBad q.ctx q.bytes = [] ∧ (q.arm.isSome = true → x.armable = true) ∧
            u.windowRoom = true,
          r.2.answerLaunch k b q.dest (BitVec.ofNat 64 r.1))
      | none, some x => some (s.badWords = [] ∧ s.host.cur = 4 ∧ u.extBad q.ctx q.bytes = [], (u.accept q.ctx 0 [] none x).2)
      | _, _ => none
  | .spanPlacement => match s.waitingOrder with
    | (n, none) :: _ => (Tab.find s.launches n).bind fun l => (s.fit l.record).bind fun f => (s.placeSpan n l f).map fun u =>
        (s.host.cur = 4 ∧ s.checkpoint = false ∧ s.badWords = [] ∧ (64 < l.record.total → s.gov.holds (.launch n) = true),
          u.later .spanPlacement)
    | _ => none
  | .crewRetire id => (s.crew? id).map fun c =>
      let armed := s.launches.filter fun p => p.2.state == .armed && ((p.2.arm.map fun a => a.1 == id).getD false)
      (active s c.launch = true ∧ s.liveSheaves c = [] ∧ c.posted = 0 ∧ c.flight = 0 ∧ s.matrixLeft id c = false ∧
        (∀ k ∈ c.sheaves, s.remoteOut k = false ∧ s.writesOut k = false) ∧
        s.checkpoint = false ∧ armed = [] ∧ c.engErr = [], ((s.releaseCrew id).retireSpan c.span).later .spanPlacement)
  | .preemptionWaitExpiry n => (Tab.find s.launches n).bind fun l => (s.chooseVictims l).map fun vs =>
      let u := vs.foldl State.preempt s
      (s.badWords = [] ∧ l.wants = true ∧ l.arm = none ∧ l.eligibleAt + 50000 ≤ s.nanos ∧ s.checkpoint = false ∧
        (64 < l.record.total → s.gov.holds (.launch n) = true),
        (u.modLaunch n fun y => { y with eligibleAt := u.nanos }).later (.preemptionWaitExpiry n))
  | .spanSave id => some ((s.span id).state = .saving ∧ s.fragsOf (s.placesOf (s.span id)) = [] ∧ s.drained id = true ∧
      s.badSram = [] ∧ s.badRegs = [] ∧ s.badWords = [],
      ((s.writeSaved (s.ctxOfLaunch (s.span id).launch) (s.saveImage (s.span id))).releaseSpan id).modSpan id fun x =>
        { x with state := .saved, saved := some (s.saveImage (s.span id)), recalls := [] })
  | .spanRestore id => (s.span id).saved.bind fun v => (s.restoreSpan id (s.span id) v).map fun u =>
      ((s.span id).state = .saved ∧ s.canRestore (s.span id) v = true ∧ s.checkpoint = false ∧ s.badSram = [], u.later .spanPlacement)
  | .recallTimeout p => (s.sheaf (placeKey p)).frag.bind fun f => f.recalled.map fun u =>
      (u + 25000 ≤ s.nanos, s.discardAt (s.sheaf (placeKey p)).launch 3 0 0 (clusterOf (unitOf f.home)))
  | _ => none

/-- A command of a Sextant sends its next chunk: its crew has one more in flight, and one fewer posted when it was the
last. -/
def chunkSent (core id : Nat) (c : FarCmd) (u : State) : State :=
  let rest := c.after
  let v := (u.modCrew c.crew fun y => { y with
    flight := y.flight + 1
    posted := if rest.isNone then y.posted - 1 else y.posted }).launchChunk core id c
  let v := v.modCore core fun y => { y with sextant := { y.sextant.setCmd id rest with lastCrew := c.crew } }
  if (v.core core).sextant.heads = [] then v else v.pokeSend core

/-- A chunk leaves the count in flight and arrives on its slot, with its bytes, or with the code of its refusal (R251, R254,
R411). -/
def arrived (k : Chunk) (code : Byte) (t : State) : State :=
  let u := t.modCrew k.crew fun y => { y with flight := y.flight - 1 }
  let a := (t.crew k.crew).slotAddr k.slot.val
  if code = 0 then u.arrive a k.len else u.arriveFault a code (BitVec.ofNat 56 k.ia)

/-- A chunk's write is performed, and it arrives. -/
def chunkArrived (k : Chunk) (t : State) : State := arrived k (t.chunkWrite k).1 (t.chunkWrite k).2

/-- A chunk of a transfer that releases is performed: with the last of them each arrives on its slot (R118); until then it
stays in the count in flight, which is the model's choice (log entry 113). -/
def chunkReleased (id : Nat) (k : Chunk) (t : State) : State :=
  let r := t.chunkWrite k
  let u : State := { r.2 with chunks := Tab.put r.2.chunks id { k with code := r.1, data := none, landed := true } }
  if u.chunksLeft k.core k.cmd then u
  else (u.chunks.filter fun p => p.2.cmd == k.cmd).foldl (fun (v : State) p => arrived p.2 p.2.code v)
    { u with chunks := u.chunks.filter fun p => p.2.cmd != k.cmd }

/-- The leave of a transfer ends with its last chunk, and the Sextant goes on. -/
def sextantGoesOn (k : Chunk) (t : State) : State :=
  let u := if t.chunksLeft k.core k.cmd then t else t.endLeave (.tensor k.core k.cmd (t.crew k.crew).launch)
  if (u.core k.core).sextant.heads = [] then u else u.pokeSend k.core

/-- A command that is no multiplication starts at once (R259, R279). -/
def matrixStarts (s : State) (core : Nat) : Option (Prop × State) :=
  match (s.core core).engine.queue with
  | [] => none
  | c :: _ => some ((s.core core).engine.waiting = [] ∧ (s.core core).engine.running = false ∧ c.bad = false ∧
      isMma c.instr = false, (s.modCore core fun y => { y with engine := { y.engine with running := true } }).later (.matrixCommandComplete core))

/-- A command completes, an MFEN once every write of the commands before it has been performed (R277): its writes are
performed, a command that waited for an entry enters, and the next may start (R279). -/
def matrixEnds (s : State) (core : Nat) : Option (Prop × State) :=
  match (s.core core).engine.queue with
  | [] => none
  | c :: rest =>
    let e := (s.core core).engine
    let t := (s.modCore core fun y => { y with
      engine := { y.engine with queue := rest, running := false, late := if isFence c.instr then [] else y.engine.late } }).seeWrites c
    match t.matRun c with
    | .error _ => none
    | .ok u =>
      let u := u.fillQueue core 32
      let u := if (u.core core).engine.queue = [] then u else u.later (.matrixCommandExecute core)
      some (e.running = true ∧ t.badDest c = false ∧
        (isFence c.instr = true → ∀ p ∈ e.late, ∀ l ∈ (s.sheaf p.1).loads, l.id ≠ p.2),
        if u.liveSheaves (u.crew c.crew) = [] then u.later (.crewRetire c.crew) else u)

/-- Leave whose charge fits under the limit is granted (R342). -/
def leaveGranted (s : State) (power : Nat) : Option (Prop × State) :=
  match s.gov.queue with
  | [] => none
  | q :: _ => s.powerLimit.map fun l =>
    let u := { s with gov := { s.gov with power := power } }.grantLeave q
    (s.badWords = [] ∧ power + s.gov.q + q.1.charge ≤ l, if u.gov.queue = [] then u else u.tick.later (.permitGrant u.measured))

/-- A record that waited is posted, and its launch's entry is freed (R377). -/
def recordPosted (s : State) (w : WaitRec) : State :=
  let u : State := { s with waitRecs := [] }
  let u := u.queueWrite w.ctx w.queue w.body
  match Tab.find u.launches w.launch with
  | none => u
  | some l => u.freeEntry w.launch (l.sub != 0)

/-- The one record that waits is posted once its queue has room. -/
def recordDue (s : State) (w : WaitRec) : Prop × State :=
  (s.waitRecs.length = 1 ∧ w.posted = false ∧ s.badWords = [] ∧ s.badSram = [] ∧ queueValid (s.queueEntry w.ctx w.queue) = true ∧ queueFull (s.queueEntry w.ctx w.queue) = false,
    if (recordPosted s w).waitRecs.isEmpty then recordPosted s w else (recordPosted s w).later .eventQueueRecheck)

/-- The steps of the Sextant, the matrix engine, the permit governor and the event router (R250, R254, R279, R280, R342, R343,
R377). -/
def engineSteps (s : State) : Instr → Option (Prop × State)
  | .chunkSend core => ((s.askTensor core).nextSend core).map fun p =>
      (p.2.bad = false, chunkSent core p.1 p.2 (s.askTensor core))
  | .chunkArrival id => (Tab.find s.chunks id).bind fun k => (s.crew? k.crew).map fun c =>
      (active s c.launch = true ∧ k.code = 0, sextantGoesOn k ((if k.rel then chunkReleased id k else chunkArrived k)
        { s with chunks := Tab.del s.chunks id }))
  | .matrixCommandExecute core => matrixStarts s core
  | .matrixCommandComplete core => matrixEnds s core
  | .matrixBurstEnd core => some ((s.core core).engine.burst = true ∧ (s.core core).engine.lastMma + 4096 ≤ s.time,
      (s.endLeave (.matrix core)).modCore core fun y => { y with engine := { y.engine with burst := false } })
  | .permitGrant power => leaveGranted s power
  | .moduleRoomReport m => (s.gov.modQueue.find? fun q => q.1.modn == m).map fun q =>
      let u := s.grantLeave q
      (s.badWords = [] ∧ s.throttled = false ∧ s.excursion = false,
        if u.gov.modQueue.any (fun q => q.1.modn == m) then u.later (.moduleRoomReport m) else u)
  | .reservationExpiry ctx num => (s.gov.res.find? fun r => r.ctx == ctx && r.num == num && r.granted).map fun r =>
      (r.until_ ≤ s.nanos, s.dropReservation ctx num)
  | .eventQueueRecheck => s.waitRecs.head?.map (recordDue s)
  | _ => none

/-! The Heliostat (R123, R285, R288, R289, R293, R298). -/

/-- Every access of the lanes of a continuation has been performed (R123): no write or atomic of its launch is under way in
another package, and no load of these lanes where they stand. Which accesses those are is log entry 64. -/
def accessed (s : State) (c : Cont) : Bool :=
  (s.xfers.all fun x => x.2.launch != c.launch || (match x.2.kind with
    | .write _ | .send _ | .atom .. => false
    | _ => true)) &&
  c.src.all fun p => (s.sheaf p.1).baseGen != p.2 || (s.sheaf p.1).loads.all fun l => l.left &&& c.mask == 0

/-- A continuation as it departs (R77, R289; log entry 116): the registers of its carry set and sr.srnd as they stand where its
lanes still stand, stale ones as zero, lanes outside its mask zero. -/
def carried (s : State) (c : Cont) : Cont := match c.src with
  | none => c
  | some (k, g) => if (s.sheaf k).baseGen = g ∧ g ≠ 0 then
      { c with
        srnd := (s.sheaf k).srnd
        vregs := ((List.range 192).filter fun r => c.carry.v.getLsbD r).map fun r =>
          (r, (s.readV k r).fmt, vec32 fun L => if c.mask.getLsbD L then s.laneV k r L else 0)
        sregs := ((List.range 64).filter fun r => c.carry.s.getLsbD r).map fun r => (r, s.readS k r)
        pregs := ((List.range 7).filter fun r => c.carry.p.getLsbD r).map fun r => (r, s.readP k r &&& c.mask)
        stale := s.carryStale k c.carry
        src := none }
    else { c with src := none }

/-- The visiting slot that a continuation has left is freed once no lane, load or path of it is left (R297). -/
def emptied (c : Cont) (t : State) : State := match c.src with
  | none => t
  | some (k, _) =>
    let y := t.sheaf k
    if y.frag.isSome = true ∧ y.a.live = false ∧ y.b.live = false ∧ y.depth = 0 ∧ y.loads = [] ∧ t.leaving k = false then
      t.releasePlace k
    else t

/-- A continuation departs once its accesses have been performed, and waits until then (R293); with a stale register under
strict mode it is refused with reason 5, and returns without the hop (R289, Table 13-4). -/
def departed (s : State) (id : Nat) (c : Cont) : State :=
  let d := carried s c
  let r : Cont := { d with kind := 3, rsn := 5, hops := d.hops - 1 }
  emptied c (if d.strict = true ∧ d.stale = true then
      (if (s.sheaf d.home).belongs r = true ∧ d.hops = 0 then { s with conts := Tab.del s.conts id }.applyReturn r
      else { s with conts := Tab.put s.conts id r }.later (.migrationReturn id))
    else { s with conts := Tab.put s.conts id d }.later (.continuationArrival id))

/-- A continuation that its destination refuses returns with KIND 3 and the reason (R293); a recalled one, one for each of its
paths (log entry 35). -/
def turnedBack (s : State) (id : Nat) (c : Cont) (r : Nat) : State :=
  (c.refusals r).foldl (fun (t : State) d =>
    { t with conts := Tab.put t.conts t.nextId d, nextId := t.nextId + 1 }.later (.migrationReturn t.nextId))
    { s.tick with conts := Tab.del s.conts id }

/-- The steps of the Heliostat but for what an accepted continuation and a return write, which `Lands` and `Returns` say. -/
def heliostatSteps (s : State) : Instr → Option (Prop × State)
  | .continuationDepart id => (Tab.find s.conts id).map fun c =>
      (active s c.launch = true ∧ ∀ k g, c.src = some (k, g) → s.badCarry k c.carry = false,
        if accessed s c then departed s id c else s.later (.continuationDepart id))
  | .continuationArrival id => (Tab.find s.conts id).bind fun c => match s.berth c with
    | .error r => some (active s c.launch = true, turnedBack s id c r)
    | .ok b => some (active s c.launch = true ∧ s.issueGen (genKey b.place) = none, s.later (.continuationArrival id))
  | .migrationReturn id => (Tab.find s.conts id).map fun c =>
      (active s c.launch = true ∧ (accessed s c = true → ∀ y w, Tab.find s.sheaves c.home = some y → y.win = some w →
          y.belongs (carried s c) = false),
        if accessed s c then emptied c { s with conts := Tab.del s.conts id } else s.later (.migrationReturn id))
  | _ => none

/-- The last value that a list has for a register. -/
def lastOf {α : Type} (l : List (Nat × α)) (r : Nat) : Option α := (l.reverse.find? fun p => p.1 == r).map (·.2)

/-- Every register of a place has a home of its own. -/
abbrev apart (t : State) (k : Nat) : Prop := ∀ p q, p < (t.sheaf k).vcount → q < (t.sheaf k).vcount →
  vphys k (t.sheaf k) p = vphys k (t.sheaf k) q → p = q

/-- Registers of a place that have been written, in the lanes of a mask, with the last value that the lists have for them; all
others, and all other lanes, read as in s, where a stale register reads as zero (R55, R56). -/
abbrev wrote (s t : State) (k : Nat) (m : Word32) (vs : List (Nat × BitVec 4 × Vector Word32 32)) (ss : List (Nat × Word64))
    (ps : List (Nat × Word32)) : Prop :=
  (∀ r L, r < (t.sheaf k).vcount → L < 32 → t.laneV k r L = match lastOf vs r with
    | some e => if m.getLsbD L then e.2.getD L 0 else s.laneV k r L
    | none => s.laneV k r L) ∧
  (∀ r e, r < (t.sheaf k).vcount → lastOf vs r = some e → m ≠ 0 → (t.readV k r).fmt = e.1) ∧
  (∀ r, r < 64 → t.readS k r = (lastOf ss r).getD (s.readS k r)) ∧
  ∀ r L, r < 7 → L < 32 → (t.readP k r).getLsbD L = match lastOf ps r with
    | some v => if m.getLsbD L then v.getLsbD L else (s.readP k r).getLsbD L
    | none => (s.readP k r).getLsbD L

/-- What an arriving continuation brings: the lanes of its carried registers (R61), or all that a recalled fragment held
(Table 7-3, step 7). -/
def broughtV (c : Cont) : List (Nat × BitVec 4 × Vector Word32 32) := match c.frozen with
  | none => c.vregs
  | some f => f.vcells.map fun r => (r.1, r.2.fmt, r.2.data)

def broughtS (c : Cont) : List (Nat × Word64) := match c.frozen with
  | none => c.sregs
  | some f => f.scells

def broughtP (c : Cont) : List (Nat × Word32) := match c.frozen with
  | none => c.pregs
  | some f => f.pcells

/-- A continuation that its destination accepts (R285, R293, R295; which slot and blocks it is given are log entries 33 and 34)
holds, under the visiting generation issued for it, its carried registers and nothing else; slot A is live at PC on MASK and
slot B free, or a recalled fragment goes on as it was. -/
def Lands : Prop := ∀ (s : State) (id : Nat) (c : Cont) (b : Berth) (g : Gen) (v : State),
  Tab.find s.conts id = some c → active s c.launch = true → s.berth c = .ok b → s.issueGen (genKey b.place) = some (g, v) →
  ∃ t, exec (.continuationArrival id) s = .next t ∧ t.conts = Tab.del s.conts id ∧
    (let k := b.place
     let y := t.sheaf k
     let home := s.sheaf c.home
     y.baseGen = g ∧ y.launch = c.launch ∧ y.crew = home.crew ∧ y.span = home.span ∧ y.idx = home.idx ∧ y.strict = c.strict ∧
     y.carry = c.carry ∧ y.wb = c.wb ∧ y.vbase = b.base ∧ y.ext = b.ext.map (fun e => ⟨e, xblkSize c.xblk, g⟩) ∧
     (∃ f, y.frag = some f ∧ f.home = c.home ∧ f.hpkg = c.hpkg ∧ f.ctx = c.ctx ∧ f.rtok = c.rtok ∧ f.hgen = c.hgen ∧
       f.jpc = c.jpc ∧ f.hops = c.hops ∧ f.prio = c.prio ∧ f.ia = c.ia) ∧
     (match c.frozen with
       | none => y.srnd = c.srnd ∧ y.a.pc = c.pc ∧ y.a.mask = c.mask ∧ y.a.micro = none ∧ y.a.active = false ∧ y.b.live = false ∧
           y.depth = 0 ∧ y.qnv = false
       | some f => y.srnd = f.srnd ∧ y.a = f.a ∧ y.b = f.b ∧ y.depth = f.depth ∧ y.fstack = f.fstack ∧ y.qnv = f.qnv) ∧
     (apart t k → g ≠ 0 → wrote (s.setSheaf k y) t k (if c.frozen.isSome then 0xFFFFFFFF else c.mask) (broughtV c) (broughtS c)
       (broughtP c)))

/-- The scalars that a return writes (R298): those it marks, unless an earlier return of the window with a lower lane wrote
them. -/
def scalars (w : Window) (c : Cont) : List (Nat × Word64) := c.sregs.filter fun p =>
  (c.kind ≠ 1 ∨ c.wb.s.getLsbD p.1 = true) && decide (∀ q ∈ w.scal, q.1 = p.1 → lowest c.mask < q.2)

/-- How the lanes of a return go on (R298, R299): a HOME's are held in the window record, a trap's wait for a free slot, the
others go on at PC as a path of that record (where it is placed is log entry 35). -/
def backTo (c : Cont) (w : Window) (u : State) : State :=
  let k := c.home
  let v := (u.dropCtx (unitOf k) c.ctx).modSheaf k fun y => { y with win := y.win.map fun z =>
    { z with away := z.away &&& ~~~c.mask } }
  (if c.kind = 1 then v
  else if c.kind = 2 ∧ (c.fcode ≠ 0 ∨ c.trap.isSome = true) then v.modSheaf k fun y => { y with returns := insertReturn c y.returns }
  else (if c.kind = 3 then v.modSheaf k fun y => y.refuse c.mask c.rsn c.auto else v).resumePath k c w.entry).refill k

/-- A return that belongs to the open window of its home sheaf (R292, R298) writes, in the lanes of its mask, the positions that
it marks, or every carried one where it is no HOME's; its lanes then go on at home. The re-sent lanes of a pre-empted span
(KIND 4) are kept with the span. -/
def Returns : Prop := ∀ (s : State) (id : Nat) (c : Cont) (y : Sheaf) (w : Window),
  Tab.find s.conts id = some c → active s c.launch = true → accessed s c = true →
  Tab.find s.sheaves c.home = some y → y.win = some w → y.belongs (carried s c) = true → y.baseGen ≠ 0 →
  (∀ e, y.ext = some e → e.gen ≠ 0) → (c.kind ≠ 4 → s.badCarry c.home c.carry = false) → apart s c.home →
  let d := carried s c
  ∃ u, wrote s u c.home d.mask (d.vregs.filter fun p => d.kind ≠ 1 ∨ d.wb.v.getLsbD p.1 = true) (scalars w d)
      (d.pregs.filter fun p => d.kind ≠ 1 ∨ d.wb.p.getLsbD p.1 = true) ∧
    u.conts = Tab.del s.conts id ∧ u.mem = s.mem ∧ u.tags = s.tags ∧
    Tab.find u.sheaves c.home = some { y with win := some { w with
      scal := (scalars w d).map (fun p => (p.1, lowest d.mask)) ++ w.scal.filter fun q => (scalars w d).all fun p => p.1 != q.1 } } ∧
    exec (.migrationReturn id) s = .next (emptied c (if d.kind = 4 then
      u.modSpan y.span fun p => { p with recalls := p.recalls ++ [d] } else backTo d w u))

/-! Frames. -/

/-- A frame of a type arrives in sequence on a fibre, and this package is where it is to be accepted (R315, R419). -/
abbrev inSequence (s : State) (fb : Nat) (f : Frame) (ty : BitVec 4) : Prop :=
  s.carriesIn fb = true ∧ f.type = ty ∧ f.seq = (((s.hear fb).lrReceived fb).link fb).expSeq ∧
    (s.fibreRole fb = 1 → f.dst = s.host.pkgnum)

/-- The link layer has accepted a frame: its sender is heard, the next number is expected, and its acknowledgement has been taken
(R315, R428). -/
def accepted (s : State) (fb : Nat) (f : Frame) : State :=
  (((s.hear fb).lrReceived fb).modLink fb fun y => { y with expSeq := y.expSeq + 1, discarding := false, fails := [] }).ackLink
    fb f.ack

/-- The low 32 bits of a frame's address. -/
def frameAddr (f : Frame) : Nat := f.daddr.toNat % 2 ^ 32

/-- A transfer that a frame answers is closed, and no frame waits for it any more. -/
def closed (t : State) (f : Frame) : State :=
  { t with
    xfers := Tab.del t.xfers f.xid.toNat
    outq := t.outq.map fun o => { o with after := o.after.filter (· != f.xid.toNat) } }

/-- What a read response does to the transfer it answers (R325). -/
def readAnswer (f : Frame) (t : State) : XKind → Option State
  | .read k id lane ty off _ =>
    some ((closed t f).loadValueIn k id lane (loadValue ty ((f.payload.drop off).take (tyBytes ty))))
  | .chunk id => some ({ closed t f with chunks := Tab.mod t.chunks id fun c => t.chunkBytes c f.payload }.later
      (.chunkArrival id))
  | _ => none

/-- What an atomic response does (R116, R326): each lane receives the value that it would have read if the lanes had operated
one after another in ascending order. -/
def atomAnswer (f : Frame) (t : State) : XKind → Option State
  | .atom k id ty op ls => some ((laneValues ty op (loadValue ty (f.payload.take (tyBytes ty))) ls).foldl
      (fun u p => u.loadValueIn k id p.1 p.2) (closed t f))
  | _ => none

/-- A module command is performed once, and arrives once (R444). -/
def moduleDone (f : Frame) (t : State) (c : ModCmd) : State :=
  let r := { closed t f with modCmds := Tab.del t.modCmds f.xid.toNat }.runCmd c
  r.2.2.cmdDone f.xid.toNat c (if r.1 = 0 then (payloadWord f 0).setWidth 8 else r.1) r.2.1

/-- Frames have been sent again: they count in selector 3 of a group, and one report of them waits among the control frames
(R420, R436). -/
def sentAgain (s : State) (fb n : Nat) : State :=
  let t := s.tick
  let g := t.blameGroup fb false
  let t := t.modGrp fb g fun y => { y with replays := y.replays + n }
  let c := (t.link fb).control
  let report := idleFrame ((t.link fb).expSeq - 1) false true n
  let c := if (c.any fun x => x.last) = true then
      c.map fun (x : Frame) => if x.last then { x with pcnt := x.pcnt + BitVec.ofNat 16 n } else x
    else report :: c
  ((t.modLink fb fun y => { y with control := c }).pokeFrames).mayEscalate fb g

/-- The retained frames of a fibre, as many as may leave now, are sent again: each has the time among those at which it was sent,
and they count in the window and under the key (R305, R318, R419). -/
def replayed (s : State) (fb : Nat) : State :=
  let n := min (s.link fb).retained.length (s.sendRoom fb)
  let t := (s.modLink fb fun y => { y with
    since := s.nanos
    sent := y.sent.mapIdx fun i p => if i < n then (p.1, (s.nanos :: p.2).take 4) else p }).noteFrames fb n
  if n = 0 then s else (sentAgain t fb n).laterOnce (.replayTimeout fb)

/-- The far end reports that it has sent n frames again: they count in selector 3, and a type-8 record is posted unless one was
on this fibre within 1 ms (R420, R436). -/
def replayTold (s : State) (fb n : Nat) : State :=
  let t := s.tick
  let g := t.blameGroup fb true
  let y := t.link fb
  let t := t.modGrp fb g fun x => { x with replays := x.replays + n }
  let t := (t.modLink fb fun x => { x with
    reqs := x.reqs.tail
    fails := if x.discarding then (t.nanos :: x.fails).take 4 else x.fails }).mayEscalate fb g
  let soon := (Tab.find t.fibreRec fb).any fun u => decide (t.nanos < u + 1000000)
  if soon = true then t
  else { t with fibreRec := Tab.put t.fibreRec fb t.nanos }.linkRecord 8 0 fb (16 * g)
    (y.reqs.headD (y.expSeq - BitVec.ofNat 16 n)).toNat n

/-- An idle frame: its sender is heard and its acknowledgement taken; with OF the frames after it are sent again, with LAST its
sender has sent some again (R315, R419, R436). -/
def idled (s : State) (fb : Nat) (f : Frame) : State :=
  let t := ((s.hear fb).lrReceived fb).ackLink fb f.ack
  let t := if f.ordf then replayed t fb else t
  if f.last then replayTold t fb f.pcnt.toNat else t

/-- A package has sent nothing to this one for 1 ms since a time (R428, R429): a model's choice of what silence is (log entry 127). -/
abbrev silent (s : State) (peer since : Nat) : Prop := max since (Tab.get 0 s.heard peer) + 1000000 ≤ s.nanos

/-- A member of a multicast has been silent for 1 ms: it is negative with the members below it (R429). -/
def silentMember (s : State) (xid child : Nat) : Option (Prop × State) :=
  if xid < 2 ^ 16 then (Tab.find s.xfers xid).bind fun x => match x.kind with
    | .mcast _ _ g _ _ => some ((x.out.any fun r => r.1 / 2 ^ 32 % 512 == child) = true ∧ silent s child x.since,
        s.mcastChild xid child (s.below g s.host.pkgnum.toNat child))
    | _ => none
  else (Tab.find s.mcasts xid).map fun w => (w.children.contains child = true ∧ silent s child w.since,
    s.fwdChild xid child (s.below w.f.pcnt.toNat w.f.src.toNat child))

/-- A relay sends a frame on (R310, R311), in a window that offers its next offset, when the next package has credit, which
is free; otherwise it tries again. -/
def relayed (s : State) (id : Nat) : Option (Prop × State) :=
  (Tab.find s.relays id).map fun r =>
    let t := s.tick
    let o : OutFrame := ⟨{ r.f with hop := r.f.hop + 1 }, .short, r.off, 0, [], [], false⟩
    (r.bad = false, match (if t.free64.getLsbD 0 then (t.fibresOf 1).findSome? fun fb => (t.fits fb o).map fun h => (fb, h) else none) with
      | some p => { t with relays := Tab.del t.relays id }.emit p.1 o p.2
      | none => t.later (.relayForward id))

/-- What follows a frame that has left: the next fibre is considered while frames wait. -/
def sendOn (fb : Nat) (t : State) : State := if t.framesWait then t.later (.frameSend ((fb + 1) % 128)) else t

/-- What leaves on a fibre (R305, R310, R315, R436): a control frame ahead of all others, a report once the frames that are sent
again have left; otherwise the first frame that its route, its window and, on a rotor fibre, the credit of the next package let
go; otherwise, with no data to send, an idle frame with the acknowledgement that is owed. A short frame without a route waits for the direct
one. -/
def frameLeaves (s : State) (fb : Nat) : Option (Prop × State) :=
  let t : State := if s.fibreRole fb = 1 then { s.tick with outq := s.outq.map s.tick.fixRoute } else s.tick
  let next := if s.fibreRole fb ≠ 1 ∨ s.tick.free64.getLsbD 0 = true then t.takeFrame fb [] t.outq else none
  match (t.link fb).nextControl (next.any fun q => q.1.again), next with
  | some f, _ => some (0 < s.tick.sendRoom fb,
      sendOn fb (((t.modLink fb fun y => { y with control := y.control.tail }).modLink fb fun y => { y with acked := f.ack }).noteFrames fb 1))
  | none, some p => some (True, sendOn fb ({ t with outq := p.2.2 }.emit fb p.1 p.2.1))
  | none, none => some (0 < s.tick.sendRoom fb ∧ (t.link fb).acked ≠ (t.link fb).expSeq - 1,
      sendOn fb ((t.modLink fb fun y => { y with acked := (t.link fb).expSeq - 1 }).noteFrames fb 1))

/-- Frames that a silent relay took and that wait for their end-to-end acknowledgement are lost with it: their launches are
discarded; for those that it took later it is watched on (R428). -/
def relayLost (s : State) (peer : Nat) : State :=
  let held := s.xfers.filter fun x => x.2.relays.any fun r => r.1 == peer
  let lost := held.filter fun x => x.2.relays.any fun r => r.1 == peer && decide (silent s peer r.2.1)
  let t := (lost.map fun x => (x.2.launch, s.nodeOfXfer x.2)).foldl (fun t x => t.discardAt x.1 3 0 0 x.2)
    (lost.foldl (fun t x => t.closeXfer x.1) s)
  if lost.length < held.length then t.laterOnce (.relayLossTimeout peer) else t

/-- The steps of the fabric and the link layer (R305 to R331, R419, R420, R428, R429, R436, R444). -/
def fabricSteps (s : State) : Instr → Option (Prop × State)
  | .frameSend fb => frameLeaves s fb
  | .frameWrite fb f => some (inSequence s fb f 0 ∧ s.fibreRole fb ≠ 2, ((accepted s fb f).performWrite fb f).pokeFrames)
  | .frameReadRequest fb f =>
      let t := accepted s fb f
      let n := f.payload.length
      some (inSequence s fb f 1, (if t.destGrants f.ctx.toNat (frameAddr f) n .rd = false then t.ackFrame fb f 2
        else if t.badGranules (frameAddr f) n = [] then t.answer fb f 2 (t.pkgRead (frameAddr f) n) f.daddr
        else t.refuseBad fb f (t.badGranules (frameAddr f) n)).pokeFrames)
  | .frameReadResponse fb f => (Tab.find (accepted s fb f).xfers f.xid.toNat).bind fun x =>
      (readAnswer f (accepted s fb f) x.kind).map fun t => (inSequence s fb f 2, t.pokeFrames)
  | .frameAtomicRequest fb f =>
      let t := accepted s fb f
      let op := f.fval.toNat % 2 ^ 8
      let ty := Ty.ofCode (f.fval.extractLsb' 8 8)
      let n := tyBytes ty
      let a := frameAddr f
      let old := t.pkgRead a n
      let new := (requestOperands ty op (f.fval.toNat / 2 ^ 16) f.payload).foldl (fun v c => requestValue op ty v c.1 c.2)
        (BitVec.ofNat 64 (leNat old))
      some (inSequence s fb f 3 ∧ f.np = 0 ∧ t.destGrants f.ctx.toNat a n .rmw = true ∧ t.badGranules a n = [],
        ((t.pkgWrite a (leBytes n new.toNat)).answer fb f 4 (old ++ List.replicate (32 - n) 0) f.daddr).pokeFrames)
  | .frameAtomicResponse fb f => (Tab.find (accepted s fb f).xfers f.xid.toNat).bind fun x =>
      (atomAnswer f (accepted s fb f) x.kind).map fun t => (inSequence s fb f 4, t.pokeFrames)
  | .frameEndToEndAck fb f => some (inSequence s fb f 5 ∧ s.fibreRole fb ≠ 2 ∧ f.payload.length ≠ 64,
      ((accepted s fb f).ackXfer f f.pcnt.toNat).pokeFrames)
  | .frameMulticast fb f => some (inSequence s fb f 6, ((accepted s fb f).mcastIn f).pokeFrames)
  | .frameIdle fb f => some (s.carriesIn fb = true ∧ f.type = 7, idled s fb f)
  | .replayRequest fb f => some (s.carriesIn fb = true ∧ f.type = 7, idled s fb f)
  | .frameModuleCompletion fb f => (Tab.find (accepted s fb f).modCmds f.xid.toNat).map fun c =>
      (inSequence s fb f 9 ∧ s.fibreRole fb = 0 ∧ s.routesFrom fb (cmdPlace c.w1).1 = true, (moduleDone f (accepted s fb f) c).pokeFrames)
  | .frameCorrupt fb => some (s.carriesIn fb = true ∧ s.fibreRole fb ≠ 2, (s.hear fb).tick.badFrame fb)
  | .replayTimeout fb => some ((s.link fb).retained ≠ [] ∧ (s.link fb).since +
      (if s.fibreRole fb = 2 then 2 * (s.lrLink (s.placeInRole fb)).rtt / 1000 + 1000000 else 20000) ≤ s.nanos ∧ s.sendRoom fb ≠ 0, replayed s fb)
  | .relayForward id => relayed s id
  | .relayLossTimeout peer => some (True, relayLost s peer)
  | .multicastMemberTimeout xid child => silentMember s xid child
  | _ => none

/-! Optics. -/

/-- A lit wavelength of a fibre. -/
abbrev litAt (s : State) (fb wl : Nat) : Prop := (s.wave fb wl).lit = true ∧ fb < 128 ∧ wl < 128

/-- A wavelength's window of 1 ms: more than 1,024 corrections degrade it, 100 windows of at most 128 restore it (R418). -/
def windowEnds (s : State) (fb wl n : Nat) : State :=
  let w := s.wave fb wl
  let t := s.modGrp fb (wl / 16) fun y => { y with corrected := y.corrected + n }
  if w.state = .active then
    (if n ≤ 1024 then t
    else (t.modWave fb wl fun y => { y with state := .degraded, quiet := 0 }).linkRecord 5 0 fb wl n 0)
  else
    let q := if n ≤ 128 then w.quiet + 1 else 0
    t.modWave fb wl fun y => if 100 ≤ q then { y with state := .active, quiet := 0 } else { y with quiet := q }

/-- A retrain slot, used once: sparing and retirement, then the group's direction (R20, R316, R424). -/
def retrained (s : State) (fb g : Nat) (lit : Bool) : State :=
  let r := s.spareAndRetire fb g lit
  let want := decide (g < r.2.splitOf fb)
  let turn := (r.2.grp fb g).towards != want
  let t := r.2.modGrp fb g fun y => { y with
    towards := want
    retrains := y.retrains + 1
    slotUsed := r.2.openSlot fb g }
  let t := if r.1 || turn then t.linkRecord 9 0 fb (16 * g) (t.grp fb g).retrains (t.towards fb) else t
  if turn then (match t.moduleOfGroup fb g with
    | some m => t.checkReach m
    | none => t) else t

/-- A window of a plane has ended: frames not acknowledged wait for another, and a window without any acknowledgement is noted
(R419, R426). -/
def windowOver (s : State) (p f : Nat) : State :=
  if (s.link f).retained = [] then s
  else (s.modPlane p fun y => { y with
    silent := if y.acked then none else some (s.nanos, 64 * (p / 5) + y.slotNo % 64) }).requeuePlane p

/-- In a guard each group that has something to spare or retire may do so (R316, R422): whether it does, and whether the spare
lights, is free (log entry 68). -/
def sparedInGuard (s : State) (f : Nat) : State := (s.guardWork f).foldl (fun u g =>
  let u := u.tick
  let r := u.spareAndRetire f g (u.free64.getLsbD 1)
  let v := r.2.modGrp f g fun y => { y with retrains := y.retrains + 1 }
  if u.free64.getLsbD 0 = false then u
  else if r.1 then v.linkRecord 9 0 f (16 * g) (v.grp f g).retrains (v.towards f)
  else r.2) s

/-- What a rotor plane does where a slot begins (R305, R306, R316, R419, R422); a family-0 plane in its idle slot measures its
delay. -/
def slotBegins (s : State) (p f : Nat) : State :=
  let waiting := (s.link f).retained ≠ [] ∧ (s.plane p).slotNo = slotNumber p (s.planeTime p)
  let t := (if waiting then s else windowOver s p f).tick
  let t := if p < 5 ∧ planeOffset p (t.planeTime p) = 0 then
      { t with host := { t.host with
        delay := Tab.set 0 t.host.delay p ((t.free64 &&& 0xFFFFFFFF00000000) ||| (Tab.get 0 t.host.delay p &&& 0xFFFF0000)) } }.tick
    else t
  let t := if t.inGuard p = true ∧ t.settling f = false then sparedInGuard t f else t
  if waiting ∨ t.guardWork f ≠ [] then t.laterOnce (.rotorSlotBoundary p) else t

/-- A beacon while the optics train: its plane's delay is measured, its domain noted, and the first sets domain time (R306,
R307). -/
def firstBeacon (s : State) (plane : Nat) : State × Bool :=
  let t : State := if (Tab.find s.host.delay plane).isNone then
      { s with host := { s.host with delay := Tab.set 0 s.host.delay plane (Config.fibreDelay plane &&& 0xFFFFFFFFFFFF0000) } }
    else s
  (t, (List.range 40).all fun p => (t.plane p).domain.isNone)

/-- A beacon's domain time (R307): of its cycle, plane and slot, and the fibre's delay. -/
def beaconTime (s : State) (plane cycle slot : Nat) : Nat :=
  652800 * cycle + 130560 * (plane % 5) + 10200 * slot + s.halfTrip plane

/-- The key that a link expects of its peer (R353). -/
def expectedKey (s : State) (link : Nat) : BitVec 256 :=
  BitVec.ofNat 256 (leNat ((List.range 32).map fun i => Tab.get 0 s.host.lrpeer (32 * link + i)))

/-- Frames of a long-reach link whose acknowledgement is late, and which do not already wait to be sent again (R319). -/
def lateFrames (s : State) (l : Nat) : List LrWait := (s.lrLink l).unacked.filter fun w =>
  decide (w.sent + w.timeout ≤ s.nanos) &&
    !(s.outq.any fun o => o.f.xid == w.o.f.xid && o.f.daddr == w.o.f.daddr && decide (o.route = .link l))

/-- Ten slots have passed since a plane failed, and groups of its fibre carry both directions (R426). -/
abbrev tenSlots (s : State) (plane f : Nat) : Prop :=
  (s.plane plane).failedSlot + 10 ≤ slotNumber plane (s.planeTime plane) ∧ s.liveGroups f true ≠ [] ∧ s.liveGroups f false ≠ []

/-- A frame of a list is among those that wait for a long-reach link. -/
def queuedFor (s : State) (l : Nat) (w : LrWait) : Bool := s.outq.any fun o =>
  o.f.xid == w.o.f.xid && o.f.daddr == w.o.f.daddr && decide (o.route = .link l)

/-- The steps of optics (R305 to R307, R318, R418, R421 to R433). -/
def opticsSteps (s : State) : Instr → Option (Prop × State)
  | .rotorSlotBoundary plane => (s.planeFibre plane).map fun f => (True, slotBegins s plane f)
  | .guardBeacon plane cycle slot domain => (s.planeFibre plane).map fun _ =>
      let r := firstBeacon s plane
      let u := r.1.modPlane plane fun y => { y with domain := some domain }
      (s.host.cur = 1 ∧ s.host.training = true ∨
          2 ≤ s.host.cur ∧ (s.plane plane).domain = some domain ∧ (s.plane plane).whole = false,
        if 2 ≤ s.host.cur then { s with nanos := beaconTime s plane cycle slot }
        else if r.2 then { u with nanos := beaconTime r.1 plane cycle slot } else u)
  | .rotorPlaneFailure plane none => (s.planeFibre plane).map fun f => (s.unheard plane f none = true ∧ (s.plane plane).whole = false,
      ((s.modPlane plane fun y => { y with
        whole := true
        failedSlot := slotNumber plane (s.planeTime plane) }).linkRecord 13 0 f 0 0xFFFF plane).requeuePlane plane)
  | .rotorPlaneFailure plane (some o) => (s.planeFibre plane).map fun f =>
      (s.unheard plane f (some o) = true ∧ (s.plane plane).whole = false ∧ o ∉ (s.plane plane).offs,
        ((s.modPlane plane fun y => { y with
          offs := o :: y.offs
          failedSlot := slotNumber plane (s.planeTime plane) }).linkRecord 13 0 f 0 o plane).requeuePlane plane)
  | .rotorPlaneRestore plane none => (s.planeFibre plane).map fun f => ((s.plane plane).whole = true ∧ tenSlots s plane f,
      ((s.modPlane plane fun y => { y with whole := false }).linkRecord 13 1 f 0 0xFFFF plane).pokeFrames)
  | .rotorPlaneRestore plane (some o) => (s.planeFibre plane).map fun f => (o ∈ (s.plane plane).offs ∧ tenSlots s plane f,
      ((s.modPlane plane fun y => { y with offs := y.offs.filter (· ≠ o) }).linkRecord 13 1 f 0 o plane).pokeFrames)
  | .wavelengthWindowEnd fb wl n => some (litAt s fb wl, windowEnds s fb wl n)
  | .uncorrectableCodeword fb g => some (fb < 128 ∧ g < 8, match s.tick.erasureSearch fb g with
      | none => s.tick
      | some ws =>
        let t := (s.tick.modLink fb fun y => { y with badGroup := some g }).modGrp fb g fun y =>
          { y with search := (ws :: y.search).take 4 }
        ((wavesOf g).filter fun w => decide (3 ≤ ((t.grp fb g).search.filter fun l => l.contains w).length)).foldl
          (fun u w => u.laterOnce (.erasureDeclare fb w)) t)
  | .lossOfLock fb wl =>
      let t := (s.modWave fb wl fun y => { y with lost := true }).later (.erasureDeclare fb wl)
      let n := ((wavesOf (wl / 16)).filter fun w => (t.wave fb w).lost && !(t.wave fb w).covered).length
      some (litAt s fb wl, if 2 ≤ n then t.laterOnce (.forcedRetrain fb (wl / 16)) else t)
  | .erasureDeclare fb wl =>
      let t := (s.modWave fb wl fun y => { y with state := .erased }).modGrp fb (wl / 16) fun y => { y with declaredAt := some s.nanos }
      let t := (t.linkRecord 6 0 fb wl (t.grp fb (wl / 16)).uncorr 0).slotSoon fb (wl / 16)
      some (litAt s fb wl, if (t.uncovered fb (wl / 16)).length < 2 then t else t.groupOut fb (wl / 16) false)
  | .linkEscalation fb g => some (fb < 128 ∧ g < 8 ∧ s.escalates fb g = true, s.laterOnce (.forcedRetrain fb g))
  | .retrainSlot fb g lit => some (s.fibreRole fb ≠ 1 ∧ fb < 128 ∧ g < 8 ∧ s.openSlot fb g ≠ none ∧
      s.openSlot fb g ≠ (s.grp fb g).slotUsed ∧ s.settling fb = false, retrained s fb g lit)
  | .forcedRetrain fb g =>
      let t := (s.modGrp fb g fun y => { y with retraining := true }).tick
      some (fb < 128 ∧ g < 8 ∧ (s.grp fb g).retraining = false ∧ ((s.grp fb g).oos = false ∨ (s.grp fb g).owed = true),
        t.later (.forcedRetrainEnd fb g (t.free64.getLsbD 0)))
  | .forcedRetrainEnd fb g false =>
      let t := s.modGrp fb g fun y =>
        { y with retraining := false, owed := false, retrains := y.retrains + 1, forcedFails := y.forcedFails + 1 }
      let t := t.linkRecord 9 0 fb (16 * g) (t.grp fb g).retrains (t.towards fb)
      some ((s.grp fb g).retraining = true,
        if 3 ≤ (t.grp fb g).forcedFails then t.groupOut fb g true else t.later (.forcedRetrain fb g))
  | .forcedRetrainEnd fb g true =>
      let t := s.modGrp fb g fun y =>
        { y with retraining := false, owed := false, retrains := y.retrains + 1, forcedFails := 0 }
      let t := t.linkRecord 9 0 fb (16 * g) (t.grp fb g).retrains (t.towards fb)
      let t := (wavesOf g).foldl (fun (u : State) w =>
        if (u.wave fb w).lit then u.modWave fb w fun y => { y with lost := false } else u) t
      some ((s.grp fb g).retraining = true, (t.resendFrames fb).pokeFrames)
  | .laserAgeingThreshold fb wl rise =>
      let t := s.modWave fb wl fun y => { y with rise := rise }
      let t := if t.aged fb wl then t.slotSoon fb (wl / 16) else t
      let limit := 5000 + Config.laserThreshold fb wl % 35001
      some (litAt s fb wl ∧ s.settling fb = false,
        if limit < rise ∧ (s.wave fb wl).agedArmed = true then
          (t.modWave fb wl fun y => { y with agedArmed := false }).linkRecord 10 0 fb wl rise limit
        else if 10 * rise < 9 * limit then t.modWave fb wl fun y => { y with agedArmed := true }
        else t)
  | .theodoliteWatchdogReset e =>
      let times := s.nanos :: (s.theo e).resets.filter fun u => decide (s.nanos < u + 1000000000)
      let t := (s.modTheo e fun y =>
        { y with held := true, since := if y.held then y.since else s.nanos, resets := times.take 3 }).linkRecord 11 0 (8 * e) 0 0 e
      some (e < 16, if times.length < 3 then t else (groupsOfEngine e).foldl (fun u g => u.groupOut g.1 g.2 true) t)
  | .theodoliteRecovered e =>
      let t := (s.modTheo e fun y => { y with held := false }).linkRecord 11 1 (8 * e) 0 0 e
      some ((s.theo e).held = true, if t.nanos ≤ (s.theo e).since + 250000000 then t
        else (groupsOfEngine e).foldl (fun u g =>
          (u.modGrp g.1 g.2 fun y => { y with owed := true }).laterOnce (.forcedRetrain g.1 g.2)) t)
  | .lrRetryTimeout l => (s.linkFibre l).map fun f =>
      let late := lateFrames s l
      let t := s.modLr l fun y => { y with
        retries := y.retries + late.length
        unacked := y.unacked.map fun w => if late.contains w then { w with resends := w.resends + 1 } else w }
      let t := { t with outq := (late.map fun (w : LrWait) => t.resent w.o) ++ t.outq }.pokeFrames
      let soon := (t.lrLink l).lastRec0.any fun r => decide (t.nanos < r + 1000000)
      let t := if soon then t
        else (t.linkRecord 12 0 f 0 late.length l).modLr l fun y => { y with lastRec0 := some t.nanos }
      ((s.lrLink l).state = .trained ∧ late ≠ [],
        if ∃ w ∈ late, 4 ≤ w.resends then s.loseLink l else t.later (.lrRetryTimeout l))
  | .lrAckTimeout l => (s.linkFibre l).map fun f => ((s.lrLink l).state ≠ .lost ∧ (s.link f).retained ≠ [] ∧
      (s.lrLink l).ackAt + 100000000 ≤ s.nanos, s.loseLink l)
  | .lrTrainingAttempt l true => (s.linkFibre l).map fun _ =>
      let t := s.tick
      let key := if t.free64.getLsbD 0 then expectedKey s l else BitVec.ofNat 256 t.tick.free64.toNat
      ((s.lrLink l).state ≠ .trained ∧ 2 ≤ s.host.cur ∧ (s.lrLink l).tryAt ≤ s.nanos,
        t.tick.tick.later (.lrLinkTrained l key (t.tick.tick.free64.toNat % 2 ^ 32)))
  | .lrTrainingAttempt l false => (s.linkFibre l).map fun f =>
      let t := s.tick
      let t := if (s.lrLink l).state = .untrained then t.linkRecord 12 2 f 0 0 l else t
      ((s.lrLink l).state ≠ .trained ∧ 2 ≤ s.host.cur ∧ (s.lrLink l).tryAt ≤ s.nanos,
        (t.modLr l fun y => { y with tryAt := t.nanos + 10000000 }).later (.lrTrainingAttempt l (t.free64.getLsbD 1)))
  | .lrLinkTrained l key rtt => (s.linkFibre l).map fun _ =>
      let t := s.modLr l fun y => { y with
        state := .trained
        epoch := y.epoch + 1
        txCtr := 0
        rxEpoch := y.rxEpoch + 1
        rxCtr := 0
        rtt := rtt
        offset := if Config.devId.toNat ≤ (Config.linkDev l).toNat then 0 else Config.linkOffset l
        ackAt := s.nanos
        unacked := y.unacked.map fun w => { w with resends := 0 } }
      let again := (t.lrLink l).unacked.filter fun w => !queuedFor t l w
      let t := t.modLr l fun y => { y with retries := y.retries + again.length }
      ((s.lrLink l).state ≠ .trained ∧ 2 ≤ s.host.cur ∧ key = expectedKey s l,
        { t with outq := (again.map fun (w : LrWait) => t.resent w.o) ++ t.outq }.pokeFrames)
  | .lrLossDiscard l =>
      let lost := s.xfers.filter fun x => x.2.launch != 0 && x.2.out.any fun r => r.1 / 2 ^ 32 == 2 ^ 16 + 512 + l
      let mine := fun (o : OutFrame) => decide (o.route = .link l) && o.launch != 0
      let t : State := { s.modLr l fun y => { y with unacked := y.unacked.filter fun w => !mine w.o } with
        outq := s.outq.filter fun o => !mine o }
      let t := match s.linkFibre l with
        | none => t
        | some f => t.modLink f fun y => { y with retained := y.retained.filter fun o => !mine o }
      some ((s.lrLink l).state ≠ .trained ∧ (s.lrLink l).lostAt + 1000000000 ≤ s.nanos,
        (lost.map fun x => (x.2.launch, s.nodeOfXfer x.2)).foldl (fun t x => t.discardAt x.1 3 0 0 x.2)
          (lost.foldl (fun t x => t.closeXfer x.1) t))
  | .lrRekey l true => some ((s.lrLink l).state = .trained ∧ 2 ^ 31 ≤ (s.lrLink l).txCtr.toNat,
      s.modLr l fun y => { y with epoch := y.epoch + 1, txCtr := 0 })
  | .lrRekey l false => some ((s.lrLink l).state = .trained ∧ 2 ^ 31 ≤ (s.lrLink l).rxCtr.toNat,
      s.modLr l fun y => { y with rxEpoch := y.rxEpoch + 1, rxCtr := 0 })
  | .lrDedupExpiry l xid a => ((s.lrLink l).dedup.find? fun p => p.1 == xid && p.2.1 == a).map fun p =>
      (p.2.2 + 1200000000 ≤ s.nanos,
        s.modLr l fun y => { y with dedup := y.dedup.filter fun q => !(q.1 == xid && q.2.1 == a) })
  | _ => none

/-! Modules, heat and power. -/

/-- The leave of the transfers of a launch. -/
def deadLeaves (s : State) (n : Nat) : List Leave := s.gov.leaves.filter fun (x : Leave) => match x.for_ with
  | .tensor _ _ m => m == n
  | _ => false

/-- A discarded launch's last effects have landed: what it holds is released, then its fault record and its completion are
posted (Table 18-4, steps 5 and 6). -/
def released (s : State) (n : Nat) (l : Launch) : State :=
  let t := (deadLeaves s n).foldl (fun u x => u.endLeave x.for_) s
  let t : State := { t with chunks := t.chunks.filter fun p => (t.crew p.2.crew).launch != n }
  let t := (t.spans.filter fun p => p.2.launch == n).foldl (fun u p => u.releaseSpan p.1) t
  (t.post 2 l.sub l.ctx l.node (payload2 (BitVec.ofNat 64 n)
    (BitVec.ofNat 64 ((if l.sub = 1 then l.kind.toNat else 0) * 2 ^ 56) ||| l.faddr.zeroExtend 64))).endLaunch n true

/-- The steps of modules, of the end of a discard, and of excursions (Tables 18-4, 18-10 and 20-7). -/
def moduleSteps (s : State) : Instr → Option (Prop × State)
  | .moduleFault m 0 a _ => some (s.mapped m = true, (s.modMod m fun x =>
      if x.badBlocks.contains (a / 256) then x else { x with badBlocks := a / 256 :: x.badBlocks }).moduleRecord m 0 0x22)
  | .moduleFault m 1 _ _ => some (s.mapped m = true, (if s.host.invarSt = 1 ∧ s.host.invarCmd = 2 then
      { s with host := { s.host with invarSt := 3, invarFc := 0x22, invarCmd := 0 } } else s).moduleRecord m 1 0x22)
  | .moduleFault m 2 _ _ => some (s.mapped m = true, s.moduleRecord m 2 0x15)
  | .moduleFault m 3 _ _ => some (s.mapped m = true ∧ (s.modl m).unreachable = false, (s.loseModule m).moduleRecord m 3 0x21)
  | .moduleFault m 4 _ u =>
      let t := s.modMod m fun x => { x with badUnits := u :: x.badUnits }
      some (s.mapped m = true ∧ u < 64 ∧ u ∉ (s.modl m).badUnits,
        (t.loseFrags ((t.sheaves.map (·.1)).filter fun k => unitOf k == 256 + m * 64 + u)).moduleRecord m 4 (0x21 + 256 * u))
  | .moduleRecovered m => some ((s.modl m).unreachable = true,
      (s.modMod m fun x => { x with unreachable := false }).moduleRecord m 5 0x21)
  | .discardRelease n => (Tab.find s.launches n).map fun l =>
      (l.state = .discarding ∧ (∀ p ∈ s.chunks, p.2.landed = false → (s.crew p.2.crew).launch ≠ n) ∧ (∀ p ∈ s.xfers, p.2.launch ≠ n), released s n l)
  | .thermalWarning v => some (95000 < v, { s with warm := true }.heatRecord 0 v)
  | .thermalThrottle v => some (100000 < v, { s with warm := true, throttled := true }.heatRecord 1 v)
  | .thermalRecover v => some (v < 90000 ∧ (s.warm = true ∨ s.throttled = true),
      { s with warm := false, throttled := false }.heatRecord 2 v)
  | .powerExcursion v => some (3150000 < v, { s with excursion := true, gov := { s.gov with power := v } }.heatRecord 3 v)
  | .powerExcursionEnd v => some (v < 3000000 ∧ s.excursion = true,
      { s with excursion := false, gov := { s.gov with power := v } })
  | .thermalShutdown v => some (True, (((s.launches.map (·.1)).reverse.foldl (fun t n => t.discardAt n 5 0 0 nodeControl) s).heatRecord 4 v).later
      .coldReset)
  | _ => none

/-! The host. -/

/-- The host port changes. -/
def hostSet (s : State) (f : HostPort → HostPort) : State := { s with host := f s.host }

/-- A context's registers change. -/
def ctxSet (s : State) (c : Nat) (f : Ctx → Ctx) : State := { s with ctxs := Tab.put s.ctxs c (f (s.ctx c)) }

/-- MAPPED or OPERATIONAL. -/
abbrev mappedState (s : State) : Prop := s.host.cur = 3 ∨ s.host.cur = 4

/-- The module set is mapped as MODMAP and SGMAP stand (R21): failed near-memory units work again (R415). -/
def modulesFresh (s : State) : State :=
  { s with
    host := { s.host with liveMap := s.host.modmap, liveGroups := s.host.sgmap }
    mods := s.mods.map fun (p : Nat × Mod) => (p.1, { p.2 with badUnits := [] }) }

/-- An access of the host is of 1 to 64 bytes in one block of 64 bytes of the window (R337). -/
abbrev inWindow (off n : Nat) : Prop := 1 ≤ n ∧ off % 64 + n ≤ 64 ∧ off + n ≤ 2 ^ 30

/-- A window access that went wrong posts a type-4 record with SUB 2 to the context of WIN (R337, R414). -/
def windowPosts (s : State) (a : Nat) : State :=
  s.post 4 2 (s.host.win.extractLsb' 32 10).toNat nodeControl (payload2 0 (BitVec.ofNat 64 a))

/-- A register that a write only replaces (Table 15-2): its states, and the change. -/
def plainRegister (off : Nat) (v : Word64) : Option (List Nat × (HostPort → HostPort)) :=
  if off = 0x0008 then some ([1], fun h => { h with role := v.extractLsb' 0 32 })
  else if off = 0x0010 then some ([2], fun h => { h with pkgnum := v.extractLsb' 0 9 })
  else if off = 0x0018 then some ([3, 4], fun h => { h with win := v &&& 0x800003FF00000003 })
  else if off % 8 = 0 ∧ 0x0100 ≤ off ∧ off < 0x0180 then
    some ([2, 3], fun h => { h with modmap := h.modmap.setIfInBounds ((off - 0x0100) / 8) (v &&& 0x80000000000007FF) })
  else if off % 8 = 0 ∧ 0x0240 ≤ off ∧ off < 0x02C0 then
    some ([3, 4], fun h => { h with safe := h.safe.setIfInBounds ((off - 0x0240) / 8) (v &&& 0x80FFFFFFFFFFFFFF) })
  else if off % 8 = 0 ∧ 0x5000 ≤ off ∧ off < 0x5018 then
    some ([1], fun h => { h with fwlen := h.fwlen.setIfInBounds ((off - 0x5000) / 8) (v &&& 0x3FFFFF) })
  else none

/-- The quote message of R351: nonce, DEVID, CUR, PDBG, six zeros, MEAS. -/
def quoteOf (s : State) : List Byte :=
  ((List.range 32).map fun i => s.host.nonce.getD i 0) ++ leBytes 8 Config.devId.toNat ++
    [BitVec.ofNat 8 s.host.cur, if s.host.pdbg then 1 else 0] ++ List.replicate 6 0 ++
    (List.range 96).map fun i => s.host.meas.getD i 0

/-- The fibre's split would leave every mapped module a group in each direction (R20). -/
def splitKeeps (s : State) (fb n : Nat) : Prop :=
  ∀ m ∈ s.mapModules, ∀ d : Bool, ∃ f ∈ s.fibresOf 0, ∃ g < 8, s.moduleOfGroup f g = some m ∧
    decide (g < if f = fb then n else s.splitOf f) = d

/-- The steps of bring-up, the host port and the control die (R334 to R353). -/
def hostSteps (s : State) : Instr → Option (Prop × State)
  | .coldReset => some (s.host.cur = 4 → ∀ p ∈ s.launches, p.2.state ≠ .discarding, { State.reset with
      images := s.images
      host := { HostPort.init with cur := 0 }
      mem := s.mem.filter fun c => decide (2 ^ 48 ≤ c.1)
      mods := s.mods
      frees := s.frees
      choices := s.choices
      due := [.identityEntry] })
  | .identityEntry => some (s.host.cur = 0, hostSet s fun h => { h with cur := 1 })
  | .stateReqOptics =>
      let t := hostSet s fun h => { h with meas := s.measure, training := true }
      let t : State := { t with planes := t.planes.map fun (p : Nat × Plane) => (p.1, { p.2 with domain := none }) }
      some (s.host.cur = 1 ∧ s.host.training = false ∧ (∀ i < 3, s.firmwareOk i = true) ∧ s.rolesOk = true,
        t.tick.later (.opticsTrainingDone (t.free64.getLsbD 0)))
  | .opticsTrainingDone ok => some (ok = true ∧ s.host.cur = 1 ∧ s.host.training = true ∧ s.rolesOk = true ∧ s.oneDomain = true,
      let t := hostSet s fun h => { h with
        training := false
        cur := 2
        err := 0
        staging := []
        delay := (List.range (s.fibresOf 1).length).foldl (fun (d : Tab Word64) p => if (Tab.find d p).isSome then d
          else Tab.set 0 d p (Config.fibreDelay p &&& 0xFFFFFFFFFFFF0000)) s.host.delay }
      (List.range (s.fibresOf 2).length).foldl (fun u l => u.tick.laterOnce (.lrTrainingAttempt l (u.free64.getLsbD 0))) t)
  | .stateReqMapped => some ((s.host.cur = 2 ∧ s.mapCheck = 0) ∨ (s.host.cur = 4 ∧ s.launches = []),
      hostSet (if s.host.cur = 2 then modulesFresh s else s) fun h => { h with cur := 3, err := 0 })
  | .stateReqOperational => some (s.host.cur = 3 ∧ s.mapCheck = 0,
      let t := hostSet (modulesFresh s) fun h => { h with cur := 4, err := 0 }
      if s.fibresOf 1 = [] then { t with nanos := 0 } else t)
  | .ctxCreate c w => some (mappedState s ∧ c < 1024 ∧ (s.ctx c).v = false ∧ (w[0]).getLsbD 0 = true, ctxSet s c fun x => { x with
      v := true
      priv := (w[0]).getLsbD 2
      dbg := (w[0]).getLsbD 3
      saveBase := w[1]
      saveCnt := (w[2]).extractLsb' 0 16
      psBase := w[3]
      psSize := w[4]
      rr := Vector.replicate 16 (0, 0, 0) })
  | .ctxDelete c => some (mappedState s ∧ (s.ctx c).v = true ∧ (∀ p ∈ s.launches, p.2.ctx ≠ c), ctxSet s c fun x => { x with v := false })
  | .ctxPreSet c =>
      let t := ctxSet s c fun x => { x with pre := true }
      some (mappedState s ∧ c < 1024, (t.spans.filter fun p => t.spanLive p.2 && t.ctxOfLaunch p.2.launch == c &&
        !(t.recordOf p.2.launch).nopre).foldl (fun u p =>
          if u.saveRoom c < (u.recordOf p.2.launch).saveBytes then u else u.preempt p.1) t)
  | .ctxPreClear c => some (mappedState s ∧ c < 1024, (ctxSet s c fun x => { x with pre := false }).later .spanPlacement)
  | .splitRequest fb v =>
      let n := v.toNat % 8
      let dir := fun (f g : Nat) => decide (g < if f = fb then n else s.splitOf f)
      let t := hostSet s fun h => { h with split := Tab.set 4 h.split fb (BitVec.ofNat 8 n) }
      some (mappedState s ∧ fb < 128 ∧ s.fibreRole fb = 0 ∧ 2 ≤ n ∧ n ≤ 6 ∧ splitKeeps s fb n,
        ((List.range 8).filter fun g => (s.grp fb g).towards != dir fb g).foldl (fun u g => u.slotSoon fb g) t)
  | .hostWindowRead off n =>
      let a := s.winAddr off
      let bad := s.badGranules a n
      some (inWindow off n ∧ s.windowOpen = true,
        if s.winGrants a n .rd = false then hostSet s fun h => { h with reads := List.replicate n 0 }
        else if bad = [] then hostSet s fun h => { h with reads := s.pkgRead a n }
        else hostSet (windowPosts (bad.foldl State.containGranule s) a) fun h => { h with reads := List.replicate n 0 })
  | .hostWindowWrite off data =>
      let a := s.winAddr off
      let bad := s.badPartial a data.length
      some (inWindow off data.length ∧ s.windowOpen = true,
        if s.winGrants a data.length .wr = false then windowPosts s a
        else if bad = [] then s.pkgWrite a data
        else windowPosts (bad.foldl State.containGranule s) a)
  | .registerWrite off v => (plainRegister off v).map fun p => (s.host.cur ∈ p.1 ∧ (off = 0x0010 → s.fibresOf 1 ≠ []), hostSet s p.2)
  | .firmwareStagingWrite off data => some (s.host.cur = 1 ∧ 1 ≤ data.length ∧ data.length ≤ 64 ∧ off + data.length ≤ 2 ^ 24,
      hostSet s fun h => { h with staging := data.zipIdx.foldl (fun (t : Tab Byte) p => Tab.set 0 t (off + p.2) p.1) h.staging })
  | .qctlSign => some (s.host.cur ≠ 0 ∧ s.host.signing = none,
      (hostSet s fun h => { h with quoteReady := false, signing := some (quoteOf s) }).later .quoteReady)
  | .quoteReady => s.host.signing.map fun m => (True,
      hostSet { s with frees := s.frees + 4 } fun h =>
        { h with quote := m, quoteSig := mlSign deviceKey m s.signRandom, quoteReady := true, signing := none })
  | _ => none

/-- An Invar command ends with its state, its fault code and its time (Table 15-2). -/
def invarOver (s : State) (st : Nat) (fc : Byte) (us : Nat) : State :=
  hostSet s fun h => { h with invarSt := st, invarFc := fc, invarUs := us % 2 ^ 32, invarCmd := 0 }

/-- The steps of checkpoint, persist and restore (R345 to R347). -/
def invarSteps (s : State) : Instr → Option (Prop × State)
  | .invarCheckpoint =>
      let t : State := { hostSet s fun h => { h with invarSt := 1, invarCmd := 1 } with checkpoint := true, ckptFault := false }
      let t := (t.spans.filter fun p => p.2.state == .running).foldl (fun u p => u.stopAndRecall p.1) t
      some (mappedState s ∧ s.host.invarSt ≠ 1, t.tick.later (.checkpointDone (t.free64.getLsbD 0) (t.free64.toNat / 2 % 2 ^ 32)))
  | .checkpointDone ok us =>
      let i := s.checkpointImage
      let r := s.writeImage i
      some (s.checkpoint = true ∧ (∀ p ∈ s.spans, p.2.state ≠ .saving) ∧
        (∀ p ∈ s.runningSpans, s.drained p.1 = true) ∧ s.fragsOf ((s.runningSpans.map fun p => s.placesOf p.2).flatten) = [] ∧
        s.badSram = [] ∧ s.badRegs = [] ∧ s.badWords = [],
        if s.ckptFault = true ∨ ok = false ∨ s.safeBases = [] then (invarOver s.tick 3 (s.free64.setWidth 8) us).resume
        else if r.1 ≠ 0 then (invarOver r.2 3 r.1 us).resume
        else { invarOver r.2 2 0 us with images := i :: s.images, choices := s.choices + 1 }.resume)
  | .invarPersist =>
      let t := (hostSet s fun h => { h with invarSt := 1, invarCmd := 2 })
      some (mappedState s ∧ s.host.invarSt ≠ 1, t.tick.later (.persistDone (t.free64.getLsbD 0) (t.free64.toNat / 2 % 2 ^ 32)))
  | .persistDone ok us => some (s.host.invarCmd = 2,
      if ok = true then invarOver { s with mods := s.mods.map fun (p : Nat × Mod) => if p.1 ∈ s.mapModules then (p.1, { p.2 with
          leaf := p.2.leaf.map fun (l : Nat × Word64) => (l.1, l.2 &&& ~~~((1 : Word64) <<< 52))
          reread := p.2.reread.map fun (r : Reread) => ({ r with clean := true } : Reread) }) else p } 2 0 us
      else match pick s.mapModules (Config.choose s.choices) with
        | none => invarOver s 3 0x22 us
        | some m => { invarOver s 3 0x22 us with choices := s.choices + 1 }.later (.moduleFault m 1 0 0))
  | .invarRestore =>
      let t := (hostSet s fun h => { h with invarSt := 1, invarCmd := 3 })
      some (mappedState s ∧ s.host.invarSt ≠ 1,
        if s.host.cur = 4 ∧ s.launches = [] ∧ s.images.any s.imageStands = true then
          t.tick.later (.restoreDone (t.free64.getLsbD 0) (t.free64.toNat / 2 % 2 ^ 32))
        else invarOver s.tick 3 (s.free64.setWidth 8) 0)
  | .restoreDone ok us => some (s.host.invarCmd = 3,
      if ok = false ∨ s.launches ≠ [] then invarOver s.tick 3 (s.free64.setWidth 8) us
      else match s.images.find? s.imageStands with
        | none => invarOver s.tick 3 (s.free64.setWidth 8) us
        | some i => match s.restoreImage i with
          | none => s.later (.restoreDone ok us)
          | some t => invarOver t 2 0 us)
  | _ => none

/-! Matrix commands, when the engine performs them (R83, R84, R260 to R276). -/

/-- Element [i][j] of a tile of a command's crew; a stale row is zero (R260). -/
def tileAt (s : State) (c : MatCmd) (t : Tile) (i j : Nat) : BitVec 96 :=
  if s.rowStale (s.crew c.crew) t.val i then 0 else (s.rowRaw (s.crew c.crew) t.val i).el.getD j 0

/-- A byte of the crew's region, as the engine reads it (log entry 100). -/
def seen (s : State) (c : MatCmd) (off : Nat) : Nat := (s.oldByte (s.crew c.crew) off).toNat

/-- Element k of row r of a descriptor (R263, Table 12-2). -/
def operand (s : State) (c : MatCmd) (d : TDesc) (ty : Ty) (r k : Nat) : Nat :=
  let b := fun (n : Nat) => seen s c (d.base + r * d.rstr + n)
  match ty with
  | .f16 | .bf16 => b (2 * k) + 2 ^ 8 * b (2 * k + 1)
  | .e4m3 | .e5m2 | .i8x4 => b k
  | .e3m2 | .e2m3 => b (k / 2) / 16 ^ (k % 2) % 16 * 4 + b (32 * d.lpo + k / 4) / 4 ^ (k % 4) % 4
  | .e2m1 | .i4x8 => b (k / 2) / 16 ^ (k % 2) % 16
  | _ => b (4 * k) + 2 ^ 8 * b (4 * k + 1) + 2 ^ 16 * b (4 * k + 2) + 2 ^ 24 * b (4 * k + 3)

/-- The scale of block b of row r, 2^0 where the descriptor has none (R264). -/
def scaleAt (s : State) (c : MatCmd) (d : TDesc) (r b : Nat) : Byte :=
  if d.sm then BitVec.ofNat 8 (seen s c (d.sbase + r * d.sstr + b)) else 127

/-- One level of the tree of R83. -/
def level (l : List FV) : List FV := (List.range (l.length / 2)).map fun n =>
  roundAcc (FV.add false (l.getD (2 * n) (.fin false 0 0)) (l.getD (2 * n + 1) (.fin false 0 0)))

/-- The sum of R83: blocks of 32 live elements, exact and scaled, rounded once, then added in pairs until one is left. -/
def sumOf (k depth : Nat) (a b : Nat → FV) (xa xb : Nat → Byte) : FV :=
  let block := fun (n : Nat) =>
    let live := ((List.range 32).map (32 * n + ·)).filter fun e => decide (e < depth)
    let t := scaled (scaled ((live.map fun e => FV.mul (a e) (b e)).foldl (FV.add false) (.fin false 0 0)) (xa n)) (xb n)
    if live = [] ∨ t.isZero = true then FV.fin false 0 0 else roundAcc t
  let l := (List.range (k / 32)).map block
  ((if k = 128 then level (level l) else if k = 256 then level (level (level l)) else level (level (level (level l))))[0]?).getD
    (.fin false 0 0)

/-- An element of a product (R83, R84, R268): of the live elements of a row of A and a column of B, and the incoming value. -/
def productOf (ty tb : Ty) (depth : Nat) (a b : Nat → Nat) (xa xb : Nat → Byte) (inc : BitVec 96) : BitVec 96 :=
  match ty with
  | .i8x4 | .i4x8 =>
    let w := if ty = .i8x4 then 8 else 4
    BitVec.ofInt 96 (inc.toInt +
      ((List.range depth).map fun k => (BitVec.ofNat w (a k)).toInt * (BitVec.ofNat w (b k)).toInt).sum)
  | _ =>
    let k := match ty with
      | .f16 | .bf16 => 128
      | .e2m1 => 512
      | _ => 256
    acc96 (FV.add false (sumOf k depth (fun e => (tyFmt ty).decode (a e)) (fun e => (tyFmt tb).decode (b e)) xa xb) (ofAcc inc))

/-- The incoming value (R268). -/
def incomingAt (s : State) (c : MatCmd) (inc : Incoming) (d : Tile) (i j : Nat) : BitVec 96 := match inc with
  | .z => 0
  | .k => tileAt s c d i j
  | .tile t => tileAt s c t i j

/-- Row pointer k of a sparse descriptor (R269). -/
def pointer (s : State) (c : MatCmd) (k : Nat) : Nat := seen s c (c.db.rstr + 2 * k) + 2 ^ 8 * seen s c (c.db.rstr + 2 * k + 1)

/-- Value e of a sparse descriptor, of one or two bytes. -/
def sparseValue (s : State) (c : MatCmd) (ty : Ty) (e : Nat) : Nat :=
  match ty with
  | .f16 | .bf16 => seen s c (c.db.base + 2 * e) + 2 ^ 8 * seen s c (c.db.base + 2 * e + 1)
  | _ => seen s c (c.db.base + e)

/-- Element [k][j] of the dense B that is gathered: of a repeated column the later entry, 0 where there is none (R269). -/
def gathered (s : State) (c : MatCmd) (ty : Ty) (k j : Nat) : Nat :=
  let es := (List.range (pointer s c (k + 1) - pointer s c k)).map (pointer s c k + ·)
  ((es.filter fun e => seen s c (c.db.sbase + e) == j).getLast?.map (sparseValue s c ty)).getD 0

/-- No engine error of R269: pointers rise, none lies beyond 16 × Depth, and the column and value of every entry lie in the
region, the column at most 15. -/
def sparseOk (s : State) (c : MatCmd) (ty : Ty) (depth : Nat) : Prop :=
  pointer s c 0 ≤ 16 * depth ∧ ∀ k < depth, pointer s c k ≤ pointer s c (k + 1) ∧ pointer s c (k + 1) ≤ 16 * depth ∧
    ∀ e, pointer s c k ≤ e → e < pointer s c (k + 1) → c.db.sbase + e < (s.crew c.crew).size ∧
      c.db.base + (e + 1) * (rowBits ty / 8) ≤ (s.crew c.crew).size ∧ seen s c (c.db.sbase + e) ≤ 15

/-- The masks select an element. -/
def picks (rows cols : BitVec 16) (i j : Nat) : Bool := rows.getLsbD i && cols.getLsbD j

/-- An element of MEW (R271). -/
def mewOf (ty : Ty) (op : MewOp) (f : Word64) (a : BitVec 96) (c : Tile → BitVec 96) : BitVec 96 :=
  if ty = .f64 then acc96 (match op with
    | .scale _ => FV.mul (ofAcc a) (fmtF64.decode f.toNat)
    | .add t => FV.add false (ofAcc a) (ofAcc (c t))
    | .decay _ t => FV.fma false (ofAcc a) (fmtF64.decode f.toNat) (ofAcc (c t)))
  else match op with
    | .scale _ => a * f.signExtend 96
    | .add t => a + c t
    | .decay _ t => a * f.signExtend 96 + c t

/-- A value in an element of a tile (R273, R275). -/
def intoAcc (ty : Ty) (v : Nat) : BitVec 96 :=
  if ty = .i32 then (BitVec.ofNat 32 v).signExtend 96 else acc96 ((tyFmt ty).decode v)

/-- An element of a tile as a value of a type (R272, R274). -/
def outOfAcc (ty : Ty) (rnd : Rnd) (sat : Bool) (v : BitVec 96) : Nat :=
  if ty = .i32 then
    (if sat then BitVec.ofInt 32 (max (-2147483648) (min 2147483647 v.toInt)) else v.extractLsb' 0 32).toNat
  else (tyFmt ty).round rnd 0 sat (ofAcc v)

/-- The tile that a command writes, and the value of each element that it writes (R268 to R271, R273, R275, R276). -/
def tileValues (s : State) (c : MatCmd) : Option (Tile × (Nat → Nat → Option (BitVec 96))) := match c.instr with
  | .mma _ ty inc f d _ _ rows cols depth =>
    let tb := if f then tagTy c.db.tag else ty
    some (d, fun i j => if picks rows cols i j then some (productOf ty tb depth.toNat (operand s c c.da ty i)
      (operand s c c.db tb j) (scaleAt s c c.da i) (scaleAt s c c.db j) (incomingAt s c inc d i j)) else none)
  | .mmas _ ty inc d _ _ rows cols depth =>
    some (d, fun i j => if picks rows cols i j then some (productOf ty ty depth.toNat (operand s c c.da ty i)
      (fun k => gathered s c ty k j) (scaleAt s c c.da i) (fun _ => 127) (incomingAt s c inc d i j)) else none)
  | .mzero _ d ms => some (d, fun i j => if picks (maskRows ms) (maskCols ms) i j then some 0 else none)
  | .mew _ ty op d a ms => some (d, fun i j => if picks (maskRows ms) (maskCols ms) i j then
      some (mewOf ty op c.scalar (tileAt s c a i j) fun t => tileAt s c t i j) else none)
  | .mlda _ ty d _ ms => some (d, fun i j => if picks (maskRows ms) (maskCols ms) i j then
      some (intoAcc ty (operand s c c.da ty i j)) else none)
  | .mwrv _ ty part d _ r => some (d, fun i j =>
      let L := 16 * (i - r.toNat) + j
      let v := c.vals.getD L 0
      if r.toNat ≤ i ∧ i < r.toNat + 2 ∧ c.exec.getLsbD L = true then
        some (if ty = .b32 then BitVec.ofNat 96 ((tileAt s c d i j).toNat % 2 ^ (32 * part.val) +
            v.toNat % 2 ^ 32 * 2 ^ (32 * part.val) +
            (tileAt s c d i j).toNat / 2 ^ (32 * part.val + 32) * 2 ^ (32 * part.val + 32))
          else intoAcc ty (if ty.is64 then v.toNat else v.toNat % 2 ^ 32))
      else none)
  | .mtrn _ d a => some (d, fun i j => some (tileAt s c a j i))
  | _ => none

/-- No error keeps a command from its effect: it is not strict, nothing holds an uncorrectable error, and a sparse operand is sound
(R278, R414). -/
def runs (s : State) (c : MatCmd) : Prop :=
  c.strict = false ∧ s.badSram = [] ∧ s.badWords = [] ∧ (match c.instr with
    | .mmas _ ty _ _ _ _ _ _ depth => sparseOk s c ty depth.toNat
    | _ => True)

/-- Bit p of package memory, as it reads. -/
def memBit (s : State) (p : Nat) : Bool := (s.pkgByte (p / 8)).getLsbD (p % 8)

/-- The first bit of element j of row i of the memory that MST writes (R263, R272). -/
def rowBit (s : State) (c : MatCmd) (ty : Ty) (i j : Nat) : Nat :=
  8 * ((s.crew c.crew).base + c.da.base + i * c.da.rstr) + rowBits ty * j

/-! Whole-machine statements. -/

/-- The instructions that only read and write registers. -/
def registerForm (s : State) (i : Instr) : Option Form :=
  (scalarForm s i).orElse fun _ => (vecIntForm s i).orElse fun _ => (floatForm s i).orElse fun _ =>
    (convertForm s i).orElse fun _ => crossForm s i

/-- What the tables give an instruction. -/
def formOf (s : State) (i : Instr) : Option Form :=
  (registerForm s i).orElse fun _ => (controlForm s i).orElse fun _ => (stateForm s i).orElse fun _ =>
    (memoryForm s i).orElse fun _ => (barrierForm s i).orElse fun _ => (farForm s i).orElse fun _ =>
    (matrixForm s i).orElse fun _ => (migrationForm s i).orElse fun _ => (bitSerialForm s i).orElse fun _ =>
    (fabricForm s i).orElse fun _ => (launchForm s i).orElse fun _ => systemForm s i

/-- The PC slot of the executing instruction is live, and the instruction is not one that sends a fragment home. -/
def stands (s : State) (i : Instr) : Prop :=
  s.focusSlot.live = true ∧ ((s.sheaf s.focus).frag.isSome && sendsHome s.focus i) = false

/-- The privileged instructions (R161). -/
def privileged (s : State) (i : Instr) : Bool := (systemForm s i).isSome || (match i with
  | .tret _ | .ctxsave .. | .ctxload .. | .xgrpSet .. | .xgrpGet .. => true
  | _ => false)

/-- The trap of an instruction, taken in the state that has selected it; the instruction itself has no effect (R381). -/
def trapsWith (s : State) (i : Instr) (h : Hdr) (t : TrapInfo) : Prop :=
  exec i s = .next ((s.picked (s.ex i h)).trapped (s.ex i h) h t)

/-- The registers that an instruction reads of which a check holds, the lowest site first, as kind and DETAIL. -/
def atSite (us : List Use) (kind : Byte) (p : Use → Bool) : Option (Byte × Byte) :=
  (firstUse us p).map fun v => (kind, BitVec.ofNat 8 v.site)

/-- The format tag that a register carries (R65); 0 where it is no vector register. -/
def tagFound (u : State) (k : Nat) (r : Reg) : BitVec 4 := match r with
  | .v n => (u.readV k n).fmt
  | _ => 0

/-- Steps 7 to 11 of Table 19-1 for an instruction whose Exec is not empty, each as kind and DETAIL: a destination among the
sources, a pending register, a register that is not held, a barrier slot or tile that is not the crew's, under strict mode a
stale guard or source, and a format tag that does not match. -/
def hazards (u : State) (k : Nat) (h : Hdr) (c : Checks) : List (Option (Byte × Byte)) :=
  let y := u.sheaf k
  let us := c.uses
  [ if c.noOverlap then atSite us 0x09 fun v => v.rd && us.any fun w => w.wr && w.reg == v.reg else none,
    atSite us 0x04 fun v => y.pending v.reg,
    atSite us 0x07 fun v => match v.reg with
      | .v r => decide (64 + y.xblk ≤ r)
      | _ => false,
    (c.slots.find? fun n => !(Tab.find u.crews y.crew).any fun q => decide (n < q.bar)).map fun n => (0x10, BitVec.ofNat 8 n),
    (c.tiles.find? fun n => decide ((u.crew y.crew).tiles.length ≤ n)).map fun n => (0x11, BitVec.ofNat 8 n),
    if y.strict && u.staleReg k (.p h.gp.val) then some (0x06, 0) else none,
    if y.strict then atSite us 0x06 fun v => v.rd && u.staleReg k v.reg else none,
    (firstUse us fun v => v.rd && tagFound u k v.reg != 0 && v.tag.any fun w => tagFound u k v.reg != w).map fun v =>
      (0x05, tagFound u k v.reg ++ BitVec.ofNat 4 v.site) ]

/-- The trap of an instruction that its own entry raises (steps 12 to 14 of Table 19-1): it has no other effect; a free value may
have been drawn to find it. -/
def trapsLate (s : State) (i : Instr) (h : Hdr) (t : TrapInfo) : Prop :=
  exec i s = .next ((s.picked (s.ex i h)).tick.trapped (s.ex i h) h t)

/-- The scalar target of a control instruction (R173). -/
def targetOf (t : State) (k : Nat) : Instr → Option Word64
  | .braReg _ a | .callReg _ _ a | .ret _ a => some (t.readS k a.val)
  | _ => none

/-- A branch, and whether it has a join record; none where no lane branches or where its lanes arrive at their record. -/
def branchOf (t : State) (x : Ex) : Instr → Option Bool
  | .bra .. | .brp .. | .call .. => some false
  | .brpJoin .. => some true
  | .loop _ d _ => if t.readS x.k d.val = 1 then none else some false
  | .braReg _ a | .callReg _ _ a => if goodTarget x.pc (t.readS x.k a.val) then some false else none
  | .ret _ a => if goodTarget x.pc (t.readS x.k a.val) ∧ t.returnsTo x.k (slotOf x t) (t.readS x.k a.val) = false then some false
      else none
  | _ => none

/-- The memory operand of an instruction of class 0x7. -/
def planOf : Instr → Option (Ex → State → Access.Plan)
  | .ldl _ ty _ m => some (region true ty m true)
  | .stl _ ty _ m => some (region true ty m false)
  | .lds _ ty _ m => some (region false ty m true)
  | .sts _ ty _ m => some (region false ty m false)
  | .ldbLoc _ ty _ base off => some (region true ty ⟨base, none, off⟩ true)
  | .ldg _ ty _ m => some (virt ty m false .rd true false true)
  | .stg _ ty _ m => some (virt ty m false .wr true false false)
  | .ldx _ ty _ m => some (virt ty m true .rd true false true)
  | .stx _ ty _ m => some (virt ty m true .wr false false false)
  | .ldb _ ty _ base off => some (virt ty ⟨base, none, off⟩ false .rd false false true)
  | .lda _ ty _ _ _ m => some (virt ty m false .rd false true true)
  | .str _ ty _ _ _ m => some (virt ty m false .wr false true false)
  | .atom _ ty _ _ _ _ a b off _ => some (virt ty (atomMem a b off) false .rmw true true true)
  | .atomn _ ty _ _ _ a b off _ => some (virt ty (atomMem a b off) false .rmw false true true)
  | .acas _ ty _ _ _ a b off _ => some (virt ty (atomMem a b off) false .rmw false true true)
  | _ => none

/-- A lane may leave for its owner, or has been refused there: an address in module space that its own module does not serve, of
an instruction that may migrate or whose lanes depart again (R294, R298, R407). -/
def mayLeave (p : Access.Plan) (x : Ex) (t : State) (L : Nat) : Bool := match p.lane L with
  | .ok a => (match a.space with
    | .mod m _ => !(nearMem x.k && moduleOf x.k == m) &&
        (x.stay.getLsbD L || x.redep.getLsbD L || (p.auto && a.mig && t.autoMigrates x))
    | _ => false)
  | .error _ => false

/-- The fault of a lane at issue (Table 20-2): its address is refused, or lies in module space where the instruction does not go
(code 0x02, with the virtual address: R403; log entry 108). -/
def laneFault (p : Access.Plan) (x : Ex) (L : Nat) : Option Refused := match p.lane L with
  | .error r => some r
  | .ok a => (match a.space with
    | .mod m _ => if nearMem x.k && moduleOf x.k == m then none else some ⟨0x02, p.va L⟩
    | _ => none)

/-- The kind of a fault code (Table 20-2). -/
def faultKind (code : Byte) : Byte := if code.toNat ≤ 7 then 0x0C else if code = 8 then 0x0E else 0x0D

/-- The lanes of Exec with an address fault, and those that are not aligned where their entry asks for it. -/
def faulted (p : Access.Plan) (x : Ex) : Word32 := mask32 fun L => x.exec.getLsbD L && (laneFault p x L).isSome

def crooked (p : Access.Plan) (x : Ex) : Word32 := mask32 fun L =>
  x.exec.getLsbD L && p.aligned && (BitVec.ofNat 56 (placeOf p L).ia).toNat % p.n != 0

/-- What a step may change in a sheaf that issues an instruction on its registers: its PC slots, what its core's selection
and a free slot's refilling use, its switch marker, and sr.srnd and sr.qnv. -/
def sheafKept (y z : Sheaf) : Prop :=
  z = { y with a := z.a, b := z.b, depth := z.depth, win := z.win, returns := z.returns, marked := z.marked, lastB := z.lastB,
               yielded := z.yielded, readyAt := z.readyAt, noMig := z.noMig, redepart := z.redepart, srnd := z.srnd,
               qnv := z.qnv }

/-- No granule holds an uncorrectable error, and no path that returns to the sheaf brings a fault or a trap. -/
def quiet (s : State) (k : Nat) : Prop := s.badSram = [] ∧ ∀ c ∈ (s.sheaf k).returns, c.fcode = 0 ∧ c.trap = none

/-- The instructions that step or set sr.srnd: those in the stochastic mode, and VSRND (R77). -/
def draws : Instr → Bool
  | .vfadd _ _ r _ _ _ | .vfsub _ _ r _ _ _ | .vfmul _ _ r _ _ _ | .vfma _ _ r _ _ _ _ | .vfnma _ _ r _ _ _ _ |
    .vfdiv _ _ r _ _ _ | .vsqrt _ _ r _ _ | .vfract _ _ r _ _ | .vfscale _ _ r _ _ _ | .vcvt _ _ _ r _ _ _ |
    .vpack _ _ r _ _ _ _ _ | .vquant _ _ r _ _ _ _ | .vdeq _ _ r _ _ _ _ | .vdot8 _ _ r _ _ _ _ | .vdot4 _ _ r _ _ _ _ |
    .vred _ _ _ r _ _ | .vscan _ _ _ r _ _ => r == .srnd
  | .vsrnd .. | .vsrndDraw .. => true
  | _ => false

/-- VQUANT, which may set sr.qnv. -/
def quantises : Instr → Bool
  | .vquant .. => true
  | _ => false

/-- The destinations among the registers an instruction names. -/
def writes (us : List Use) (r : Reg) : Prop := ∃ u ∈ us, u.wr = true ∧ u.reg = r

/-- Nothing outside registers, sheaves and cores changes; of these, only the sheaf's destination registers, what `sheafKept`
leaves out, and the slot that its core issued from last. -/
def onlyRegisters (s t : State) (k : Nat) (us : List Use) : Prop :=
  t = { s with vregs := t.vregs, sregs := t.sregs, pregs := t.pregs, sheaves := t.sheaves, cores := t.cores } ∧
  (∀ n, (∀ r, writes us (.v r) → vphys k (s.sheaf k) r ≠ some n) → Tab.find t.vregs n = Tab.find s.vregs n) ∧
  (∀ n, (∀ r, writes us (.s r) → n ≠ k * 64 + r) → Tab.find t.sregs n = Tab.find s.sregs n) ∧
  (∀ n, (∀ r, writes us (.p r) → n ≠ k * 8 + r) → Tab.find t.pregs n = Tab.find s.pregs n) ∧
  (∀ j, j ≠ k → t.sheaf j = s.sheaf j) ∧ sheafKept (s.sheaf k) (t.sheaf k) ∧
  (∀ c, t.core c = { s.core c with lastSlot := (t.core c).lastSlot })

/-- The memory operand and data of the stores. -/
def storeOf : Instr → Option (Hdr × Ty × VSrc × (Ex → State → Access.Plan))
  | .stl h ty d m => some (h, ty, d, region true ty m false)
  | .sts h ty d m => some (h, ty, d, region false ty m false)
  | .stg h ty d m => some (h, ty, d, virt ty m false .wr true false false)
  | .stx h ty d m => some (h, ty, d, virt ty m true .wr false false false)
  | .str h ty _ _ c m => some (h, ty, c, virt ty m false .wr false true false)
  | _ => none

/-- The loads, and the accesses that only discard or fill cache lines. -/
def readsOnly : Instr → Bool
  | .ldl .. | .lds .. | .ldbLoc .. | .ldg .. | .ldx .. | .ldb .. | .lda .. | .fence .. | .prefg .. | .cflush .. | .cflushAll _ => true
  | _ => false

/-- The branches, calls and joins. -/
def branches : Instr → Bool
  | .bra .. | .braReg .. | .brp .. | .brpJoin .. | .join _ | .loop .. | .call .. | .callReg .. | .calli .. | .ret .. => true
  | _ => false

/-- Lane L of Exec stores at this package address; none when its place is elsewhere. -/
def storedAt (p : Access.Plan) (x : Ex) (L : Nat) : Option Nat :=
  if L < 32 ∧ x.exec.getLsbD L = true then (match (placeOf p L).space with
    | .pkg a _ => some a
    | _ => none)
  else none

/-- Lane L of Exec stores at this offset of this module. -/
def storedMod (p : Access.Plan) (x : Ex) (L : Nat) : Option (Nat × Nat) :=
  if L < 32 ∧ x.exec.getLsbD L = true then (match (placeOf p L).space with
    | .mod m o => some (m, o)
    | _ => none)
  else none

/-- Two offsets of a module name one byte: they are the same, or both lie in uncompressed pages and share their place in storage
(R100). -/
def sameByte (s : State) (m o u : Nat) : Prop :=
  o = u ∨ leafSt (s.leaf m (o / 2 ^ 16)) = 1 ∧ leafSt (s.leaf m (u / 2 ^ 16)) = 1 ∧
    physByte (s.leaf m (o / 2 ^ 16)) (o % 2 ^ 16) = physByte (s.leaf m (u / 2 ^ 16)) (u % 2 ^ 16)

/-- One phase of R243: EXP leaves CNT, and PHASE rises by 1. -/
def onePhase (b : Bar) (cnt : Nat) : Bar × Nat := ({ b with phase := b.phase + 1 }, cnt - b.exp.toNat)

/-- The loop of R243, at most n times: while EXP ≠ 0 and CNT ≥ EXP; the phases completed are counted. -/
def phaseLoop : Nat → Bar → Nat → Bar × Nat
  | 0, b, cnt => ({ b with cnt := BitVec.ofNat 32 cnt }, 0)
  | n + 1, b, cnt =>
    if b.exp ≠ 0 ∧ b.exp.toNat ≤ cnt then
      let r := phaseLoop n (onePhase b cnt).1 (onePhase b cnt).2
      (r.1, r.2 + 1)
    else ({ b with cnt := BitVec.ofNat 32 cnt }, 0)

/-- The record that the software trap of an instruction leaves in s62 (Table 18-8). -/
def trapWord (x : Ex) : Word64 :=
  (0x14 : BitVec 8) ++ BitVec.ofNat 5 x.opidx ++ BitVec.ofBool x.inmc ++ BitVec.ofBool x.b ++ x.opc ++ (0 : BitVec 8) ++ x.exec

/-- The conditions of R383 under which a trap of the executing slot is handled, for a trap whose RPC is the next
instruction. -/
def handles (s : State) (rpc : Word64) : Prop :=
  (s.ctx (s.ctxOf s.focus)).priv = true ∧ (s.readS s.focus 60).toNat % 4 = 0 ∧
    (s.readS s.focus 60).toNat / 2 ^ 32 = rpc.toNat / 2 ^ 32 ∧ s.focusSlot.active = false

/-- The trap can enter at once (R382, R398): s61 to s63 are not pending and no trap is active in the other slot. -/
def enters (s : State) : Prop :=
  (s.sheaf s.focus).pending (.s 61) = false ∧ (s.sheaf s.focus).pending (.s 62) = false ∧
    (s.sheaf s.focus).pending (.s 63) = false ∧ ((s.sheaf s.focus).slot (!s.focusB)).active = false

/-- The state in which a step executes or takes an event: the place it has selected, and free values not used before. -/
def begins (s : State) (k : Nat) (b : Bool) : State := { s with focus := k, focusB := b }.begun

/-- The instruction bytes at a PC slot, and their first 128 bits. -/
def codeAt (u : State) (k : Nat) (b : Bool) (bs : List Byte) : Prop :=
  ((u.sheaf k).slot b).micro = none ∧ u.fetchErrors k ((u.sheaf k).slot b).pc = [] ∧
    u.fetchBlock k ((u.sheaf k).slot b).pc = .ok bs

def firstWord (bs : List Byte) : BitVec 128 := BitVec.ofNat 128 (leNat (bs.take 16))

/-- The float formats of one, two, four and eight bytes and of six and four bits. -/
def formats : List Fmt := [fmtF16, fmtBf16, fmtF32, fmtF64, fmtE4m3, fmtE5m2, fmtE3m2, fmtE2m3, fmtE2m1]

end Sys2Proof.Claims

open Sys2Proof Sys2Proof.Machine

/-- Every class 0x1 instruction that issues in some lane answers a next state: S[D] takes the value of Table 9-2 once, and
the slot goes on to the next instruction. (R184, R185, R69, R153) -/
def Obligations.ScalarResults : Prop :=
  Claims.Completes Claims.scalarForm

/-- Every integer vector instruction that issues in some lane answers a next state: each lane of Exec of D takes the value
of Table 10-2, with its format tag, and VCMP writes p[D]. (R208, R213, R69, R65) -/
def Obligations.VectorIntegerResults : Prop :=
  Claims.Completes Claims.vecIntForm

/-- Every float vector instruction that issues in some lane answers a next state: each element is the exact result of
Table 10-3 rounded once by its mode; an approximate instruction takes the encoding that the model gives within its
bound (log entry 13, free). (R74, R76, R78, R80, R214, R215) -/
def Obligations.VectorFloatResults : Prop :=
  Claims.Completes Claims.floatForm

/-- Every conversion, packing, quantisation and tag instruction that issues in some lane answers a next state with the
values of Table 10-5 and the rules that follow it. (R216, R217, R218, R220, R65) -/
def Obligations.ConversionResults : Prop :=
  Claims.Completes Claims.convertForm

/-- Every class 0x5 instruction that issues in some lane answers a next state: copies take the source lane or the fill,
reductions and scans combine the lanes of Exec, and predicates and scalars take their values. (R43, R226, R229) -/
def Obligations.CrossLaneResults : Prop :=
  Claims.Completes Claims.crossForm

/-- Every class 0x0 instruction but PAD that issues in some lane, with room on the divergence stack and a good target
where it needs them, answers a next state with the effect the rules give (R32, R180 and R182 among them). Model's
choice: a CALLI under a record of its own holds the lanes outside Exec in that record (log entry 102), and the budget
word before offset 0 of a region is its last word (log entry 125). (R29, R31, R41, R42, R173, R175, R176, R177, R178,
R179, R181, R183) -/
def Obligations.ControlResults : Prop :=
  Claims.Completes Claims.controlForm

/-- Every class 0x6 instruction that issues in some lane, with register space and a save-area entry where it needs them,
answers a next state with the effect the rules give. Model's choice: the value of sr.core on a near-memory unit is
free (log entry 36), a free PC slot is saved with PC 0 and mask 0 (log entry 37), what CTXLOAD takes as reserved
content and keeps (log entry 39), and what TAGQ gives for a stale register or row (log entry 103). (R48, R187, R188,
R189, R190, R191, R192) -/
def Obligations.StateResults : Prop :=
  Claims.Completes Claims.stateForm

/-- Every class 0x7 instruction that issues in some lane and whose lanes perform their accesses from this place answers a
next state: loads start, stores and atomics are performed in ascending lane order, fences and cache instructions
discard or fill lines. Model's choice: accesses are performed at issue (log entry 8), a store stands beside the bytes
it replaces for the engine (log entry 100), which lanes' granules are watched (log entry 31), which loads use the
lines (log entries 24 and 97), and a base of LDL, STL, LDS, STS and LDB.loc is unsigned (log entry 125). (R232, R234,
R235, R236, R237, R238, R239, R240) -/
def Obligations.MemoryResults : Prop :=
  Claims.Completes Claims.memoryForm

/-- Every class 0x8 instruction that issues in some lane answers a next state: the fields of the slot change as Table 11-7
and the rules say, tests write S[D], ABWAIT returns or parks, CBAR and SBAR park the slot and end complete rounds.
Model's choice: with EXP = 0 CNT is kept modulo 2^32 (log entry 19). (R243, R245, R246, R247, R248) -/
def Obligations.BarrierResults : Prop :=
  Claims.Completes Claims.barrierForm

/-- Every class 0x9 instruction that issues in some lane and passes its checks answers a next state: the command is queued
or sent as the rules give, TWIN and TWQ act on the allowance, MCLOSE of a handle that names no view does nothing.
Model's choice: a module command is one frame each way, with its effect at its completion (log entry 42), the codes of
its operand faults (log entry 40), and a command that finds the core's records all taken goes to the spill ring (log
entry 125). (R250, R253, R255, R256, R257) -/
def Obligations.FarMemoryResults : Prop :=
  Claims.Completes Claims.farForm

/-- MIG, HOME, MIGSET, MIGSET.home and MIGQ, when they issue in some lane and their conditions hold, answer a next state
with the effect the rules give. Model's choice: a lane whose translation is refused faults MIG as a whole (log entry
32), and a fragment hops without an armed home PC (log entry 125). (R287, R290, R291, R294, R297, R298, R299) -/
def Obligations.MigrationResults : Prop :=
  Claims.Completes Claims.migrationForm

/-- BSADD, BSMUL, BSMAC, BSCMP and BSPOPC on a shape within its limits and operands in reach answer a next state: every
element of D takes the exact result fitted to its width, and BSPOPC counts the one bits. Model's choice: every row of
A, B and D is read before any row of D is written, and the codes of operands out of reach (log entry 47); whether a
write of rows in place asks the leaf for AT (log entry 126). (R301, R302) -/
def Obligations.BitSerialResults : Prop :=
  Claims.Completes Claims.bitSerialForm

/-- Every class 0xA instruction that issues in some lane, with well-formed descriptors, answers a next state: descriptors
change, or the command, with what it has captured, joins the core engine queue of 32 entries, or, where the queue is
full or earlier commands wait, waits for an entry with its sheaf blocked. The forms are those of R265 to R277. Model's
choice: the order of the checks that the rules leave open (log entry 44). (R259, R261, R262, R265, R266, R267, R268,
R269, R271, R274, R275, R277) -/
def Obligations.MatrixResults : Prop :=
  Claims.Completes Claims.matrixForm

/-- Every class 0xC instruction that issues in some lane and passes its checks answers a next state with the frames sent,
the group entry read or written, the fence passed, or the blocks of a reduction made. Model's choice: the payload
layouts and PCNT of frames (log entry 16), transfers to the own package (log entry 49), NaN in XRESID (log entry 51),
the sizes of a flag and a slot (log entry 121), and the scalar codes that field A of XSEND and XSENDF does not name
(log entry 125). (R322, R323, R324, R325, R326, R327, R328, R329, R330, R331) -/
def Obligations.FabricResults : Prop :=
  Claims.Completes Claims.fabricForm

/-- Every class 0xD instruction that issues in some lane answers a next state: a record is submitted, a dependence is
listed, a priority changes, or the sheaf waits for a launch or knows its result. (R193, R194, R195, R196, R197) -/
def Obligations.LaunchResults : Prop :=
  Claims.Completes Claims.launchForm

/-- Every class 0xE instruction that issues in some lane in a privileged context and passes its checks answers a next
state with the effect the rules give. Model's choice: which of its outcomes PREQ takes (log entry 55), PREQ of a
module number above 2,047 (log entry 125), PGINV of an address in no mapped module (log entry 56), and the codes of
DBGRD (log entry 57). (R199, R200, R201, R202, R203, R204, R205) -/
def Obligations.SystemResults : Prop :=
  Claims.Completes Claims.systemForm

/-- Of a control instruction or an access of class 0x7 that passes the common checks: a scalar target that is misaligned
or outside the code region traps with KIND 0x0A, DETAIL 1; at home, a branch that needs more than the 64 entries of a
sound divergence stack traps with KIND 0x0B and the entries lacking; and an access whose address faults in some lanes
traps with the kind and code of the lowest of them, over those lanes, and otherwise, with some lane not aligned where
the entry asks for it, with KIND 0x0E, code 0x08. The instruction has no other effect. Model's choice: the code of a
module-space address that the instruction does not reach (log entry 108) and which byte ADDR names (log entry 29).
(R32, R173, R232, R233, R391, R394, R402, R403) -/
def Obligations.EntryTraps : Prop :=
  ∀ (i : Instr) (s : State) (F : Claims.Form), (Claims.controlForm s i = some F ∨ Claims.memoryForm s i = some F) → i.wf = true →
    s.issues i F.h F.c = true → (s.sheaf s.focus).frag = none →
    let x := s.ex i F.h
    let t := s.entered i F.h
    (∀ w, Claims.targetOf t x.k i = some w → ¬ Claims.goodTarget x.pc w → Claims.trapsLate s i F.h ⟨0x0A, 1, x.exec, 0⟩) ∧
    (∀ j, Claims.branchOf t x i = some j → x.exec ≠ (Claims.slotOf x t).mask →
      64 < (t.sheaf x.k).depth + Claims.needs x t j → t.badStack x.k (Claims.needs x t j) = [] →
      Claims.trapsLate s i F.h ⟨0x0B, BitVec.ofNat 8 ((t.sheaf x.k).depth + Claims.needs x t j - 64), x.exec, 0⟩) ∧
    (∀ p, Claims.planOf i = some p → t.barred x.k = false → t.remoteOut x.k = false →
      (∀ L, L < 32 → x.exec.getLsbD L = true → Claims.mayLeave (p x t) x t L = false) →
      (∀ r, Claims.faulted (p x t) x ≠ 0 → Claims.laneFault (p x t) x (lowest (Claims.faulted (p x t) x)) = some r →
        Claims.trapsLate s i F.h ⟨Claims.faultKind r.code, r.code, Claims.faulted (p x t) x, r.addr⟩) ∧
      (Claims.faulted (p x t) x = 0 → Claims.crooked (p x t) x ≠ 0 → Claims.trapsLate s i F.h
        ⟨0x0E, 0x08, Claims.crooked (p x t) x,
          BitVec.ofNat 56 (Claims.placeOf (p x t) (lowest (Claims.crooked (p x t) x))).ia⟩))

/-- For every bits [31:2] of a pad word and every state whose slot is live, the answer is the state in which that slot
stands at PC + 4, and which is otherwise unchanged; where the slot is not live, the state is unchanged. (R148) -/
def Obligations.PadCompletes : Prop :=
  ∀ (p : BitVec 30) (s : State),
    (s.focusSlot.live = true → exec (.pad p) s = .next (s.modSlot s.focus s.focusB fun sl => { sl with pc := sl.pc + 4 })) ∧
    (s.focusSlot.live = false → exec (.pad p) s = .next s)

/-- WAITA_TIMEOUT, SLEEP_EXPIRY, LOAD_LANE_RETURN, the settling of a memory fault, TRAP_ENTRY, the extended-block and
compactor steps and a sweeper pass, under their conditions, answer a next state with their effect. Model's choice:
which block the compactor moves is free among those that help (log entry 62), and it compacts the lowest arena that
can (log entry 105). (R38, R50, R51, R57, R58, R181, R182, R187, R382, R404) -/
def Obligations.CoreSteps : Prop :=
  Claims.Occurs Claims.coreSteps

/-- SUBMISSION_WRITE, ORRERY_ADMIT, SPAN_PLACEMENT, CREW_RETIRE, PREEMPTION_WAIT_EXPIRY, SPAN_SAVE, SPAN_RESTORE and
RECALL_TIMEOUT, under their conditions, answer a next state with their effect. Model's choice: the wait that begins
again (log entry 111), the victims (log entry 112), the bytes and place of a saved span (log entries 27 and 114), the
order of generations and of freeing (log entry 54), and what a restore asks and waits for (log entry 59). (R129, R130,
R135, R138, R140, R141, R142, R143, R410) -/
def Obligations.OrrerySteps : Prop :=
  Claims.Occurs Claims.orrerySteps

/-- A chunk sent and arrived, a matrix command started and completed, a leave granted, a waiting record posted, and the
other engine steps, under their conditions, answer a next state with their effect; what a command writes is
MatrixValues. Model's choice: a releasing chunk stays in flight until the last of its transfer is performed (log entry
113), a matrix command reads and writes when it completes (log entry 43), measured power is free (log entry 26), and a
record has the TIME of the post that queues it (log entry 99). (R250, R251, R254, R259, R264, R277, R279, R280, R342,
R343, R377, R411) -/
def Obligations.EngineSteps : Prop :=
  Claims.Occurs Claims.engineSteps

/-- A continuation departs once its accesses have been performed, with its carried registers and sr.srnd as they then
stand, or comes back with reason 5; one that its destination refuses comes back with KIND 3; one that it accepts holds
its carried registers under the visiting generation issued for it, in a sheaf of its crew that stands at its PC on its
lanes; a return writes at home the positions that it marks, in its lanes, and its lanes then wait in the window record
or go on. Model's choice: the lanes that depart again and those that cannot migrate (log entries 33 and 34), where a
path is placed (log entry 35), how a recalled fragment is refused and when a continuation departs (log entries 64 and
116), and what sr.qnv holds (log entries 3 and 107). (R61, R77, R123, R285, R288, R289, R292, R293, R295, R297, R298,
R299) -/
def Obligations.HeliostatSteps : Prop :=
  Claims.Occurs Claims.heliostatSteps ∧ Claims.Lands ∧ Claims.Returns

/-- The steps of frames on memory, rotor and long-reach fibres, under their conditions, answer a next state with their
effect. Model's choice: the payload layouts (log entry 16), idle frames without a number (log entry 65), the group
that a failed frame is counted for (log entry 67), the hops and the credit of a relay (log entries 69 and 120), frames
left over at the end of a window (log entry 70), what silence is (log entry 127), and the VALUE of a replay that a
timer began (log entry 128). (R315, R317, R321, R325, R326, R328, R329, R419, R420, R428, R429, R444) -/
def Obligations.FabricSteps : Prop :=
  Claims.Occurs Claims.fabricSteps

/-- The steps of wavelengths, stripe groups, Theodolites, rotor windows and beacons, and long-reach links, under their
conditions, answer a next state with their effect. Model's choice: the errors of a codeword are free (log entries 67
and 68), as is whether a spare lights and whether a guard is used; what the watchdog and a recovery do with a group
out of service (log entries 77 and 78), the temperature rise and the far clock (log entry 123). (R305, R306, R307,
R316, R418, R421, R422, R424, R425, R426, R432, R433) -/
def Obligations.OpticsSteps : Prop :=
  Claims.Occurs Claims.opticsSteps

/-- Discards released, module failures of every SUB, and thermal and power steps, under their conditions, answer a next
state with their effect. Model's choice: the fields of their records (log entry 79), a thermal shutdown leads to a
cold reset once the launches have posted their records (log entry 80), and what an unreachable module's commands give
(log entry 90). (R373, R374, R378, R385, R415, R416, R417) -/
def Obligations.ModuleSteps : Prop :=
  Claims.Occurs Claims.moduleSteps

/-- Register writes, window reads and writes, context creation and teardown, state requests, firmware staging and quotes,
under their conditions, answer a next state with their effect. Model's choice: what a cold reset keeps (log entry 80),
domain time outside a domain and failed units (log entry 83), which groups a SPLIT counts (log entry 84) and the order
in which one write's requests are judged (log entry 125), the moment of a quote (log entry 87), the spans that PRE
skips (log entry 89), the last 4 MiB of the staging region, which keep what is written (log entry 125), and the
randomness of a signature, which is free (log entry 93). (R20, R307, R334, R335, R336, R337, R338, R339, R340, R349,
R350, R351) -/
def Obligations.HostSteps : Prop :=
  Claims.Occurs Claims.hostSteps

/-- The steps by which the Invar checkpoints, persists and restores, under their conditions, answer a next state with
their effect. Model's choice: the layout of an image and what stands for it (log entries 28 and 114), the codes and
busy commands (log entry 85), what a restore renews (log entry 86), and that a checkpoint's steps 2 to 4 are one (log
entry 117). (R345, R346, R347) -/
def Obligations.InvarSteps : Prop :=
  Claims.Occurs Claims.invarSteps

/-- TRET, CTXSAVE, CTXLOAD, XGRP and every instruction of class 0xE, in a context whose privileged bit is clear, take a
privilege trap (KIND 0x02, DETAIL 0, the active mask) and have no other effect; DBGRD without attested debug mode
takes DETAIL 1. (R161) -/
def Obligations.PrivilegeTrap : Prop :=
  ∀ (i : Instr) (s : State) (F : Claims.Form), Claims.formOf s i = some F → i.wf = true → Claims.stands s i →
    (Claims.privileged s i = true → (s.ctx (s.ctxOf s.focus)).priv = false →
      Claims.trapsWith s i F.h ⟨0x02, 0, s.focusSlot.mask, 0⟩) ∧
    (∀ h w d a, i = .dbgrd h w d a → (s.ctx (s.ctxOf s.focus)).priv = true → s.attested (s.ctxOf s.focus) = false →
      Claims.trapsWith s i F.h ⟨0x02, 1, s.focusSlot.mask, 0⟩)

/-- Of every instruction of the tables: a pending guard traps with KIND 0x04, site 0; otherwise, with a non-empty Exec,
the first failing check of steps 7 to 11 (overlap, pending register, register not held, barrier slot, tile, a stale
guard or source under strict mode, a format tag that does not match) decides KIND and DETAIL, and the instruction has
no other effect. (R387, R388, R389, R390, R39, R56, R66, R163) -/
def Obligations.HazardTraps : Prop :=
  ∀ (i : Instr) (s : State) (F : Claims.Form), Claims.formOf s i = some F → i.wf = true → Claims.stands s i →
    ¬(F.c.priv = true ∧ (s.ctx (s.ctxOf s.focus)).priv = false) → ¬(F.c.dbg = true ∧ s.attested (s.ctxOf s.focus) = false) →
    ((s.sheaf s.focus).pending (.p F.h.gp.val) = true → Claims.trapsWith s i F.h ⟨0x04, 0, s.focusSlot.mask, 0⟩) ∧
    ((s.sheaf s.focus).pending (.p F.h.gp.val) = false → (s.ex i F.h).exec ≠ 0 →
      ∀ kind detail, (Claims.hazards (s.picked (s.ex i F.h)) s.focus F.h F.c).findSome? id = some (kind, detail) →
        Claims.trapsWith s i F.h ⟨kind, detail, (s.ex i F.h).exec, 0⟩)

/-- Every instruction of the tables whose Exec is empty, after the checks of steps 4 and 5, answers the state in which its
slot has gone on to the next instruction, its switch marker has taken effect, and nothing else is done. (R153, R387) -/
def Obligations.EmptyExec : Prop :=
  ∀ (i : Instr) (s : State) (F : Claims.Form), Claims.formOf s i = some F → i.wf = true → Claims.stands s i →
    ¬(F.c.priv = true ∧ (s.ctx (s.ctxOf s.focus)).priv = false) → ¬(F.c.dbg = true ∧ s.attested (s.ctxOf s.focus) = false) →
    (s.sheaf s.focus).pending (.p F.h.gp.val) = false → (s.ex i F.h).exec = 0 →
      exec i s = .next (s.completed i F.h fun _ t => t)

/-- In a fragment, an instruction of the tables that only the home sheaf executes sends all lanes of its slot home at its
own PC with KIND 2 and no fault code, and has no other effect. Model's choice: of a diverged fragment only that slot's
lanes return, and its other paths stay (log entry 125). (R296) -/
def Obligations.FragmentSentHome : Prop :=
  ∀ (i : Instr) (s : State) (F : Claims.Form), Claims.formOf s i = some F → i.wf = true → s.focusSlot.live = true →
    (s.sheaf s.focus).frag.isSome = true → sendsHome s.focus i = true →
      exec i s = .next ((s.fragReturn s.focus s.focusB s.focusSlot.mask s.focusSlot.pc 2 0 0 0).refill s.focus)

/-- Words written out from the encodings of the spec, among them worked encodings of its tables, decode to the
instructions they stand for. (R150, R151, R158) -/
def Obligations.DecodedWords : Prop :=
  decodeTableWord 32 3 = some (.pad 0) ∧
    decodeTableWord 96 0x200000000006003011 = some (.brpJoin ⟨false, 3, false⟩ 6 0x20) ∧
    decodeTableWord 64 0x100400C3C2C17118 = some (.sadd ⟨false, 7, false⟩ .i64 true 1 2 (.r 3)) ∧
    decodeTableWord 96 0x508080000C2C17121 = some (.ssub ⟨false, 7, false⟩ .n64 false 1 2 (.imm 5)) ∧
    decodeTableWord 64 0x22000605047218 = some (.vadd ⟨false, 7, false⟩ .i8x4 4 (.v 5) (.r (.v 6))) ∧
    decodeTableWord 64 0x2012000605047300 = some (.vfadd ⟨false, 7, false⟩ .f32 .rtz 4 (.v 5) (.r (.v 6))) ∧
    decodeTableWord 64 0x2003120005047400 = some (.vcvt ⟨false, 7, false⟩ .i32 .f32 .rtz false 4 (.v 5)) ∧
    decodeTableWord 64 0x309000605047500 = some (.vshfl ⟨false, 7, false⟩ .b32 .xor 4 (.v 5) (.r (.v 6)) none) ∧
    decodeTableWord 64 0x8C37610 = some (.sread ⟨false, 7, false⟩ (.s 3) 8) ∧
    decodeTableWord 96 0xFFFFFFFC02120000C1047721 = some (.ldg ⟨false, 7, false⟩ .f32 4 ⟨some 1, none, .imm32 0xFFFFFFFC⟩) ∧
    decodeTableWord 64 0xC1027810 = some (.abarr ⟨false, 7, false⟩ 2 1) ∧
    decodeTableWord 64 0x5000C3C2C1027900 = some (.tfetch ⟨false, 7, false⟩ .acq .span 2 1 2 3) ∧
    decodeTableWord 128 0x1008000FFFFFF0010000201047A12 = some (.mma ⟨false, 7, false⟩ .f16 .z false 4 1 2 0xFFFF 0x00FF 128) ∧
    decodeTableWord 96 0x4000000002C1C47B01 = some (.mig ⟨false, 7, false⟩ 4 (some 1) (some (.v 2)) 0 0x40) ∧
    decodeTableWord 64 0x2000C3C208C47C00 = some (.xsend ⟨false, 7, false⟩ .rlx .job 4 8 2 3) ∧
    decodeTableWord 64 0xC1C47D00 = some (.lnch ⟨false, 7, false⟩ 4 1) ∧
    decodeTableWord 96 0x40030000C3C2C1007E01 = some (.rrset ⟨false, 7, false⟩ 1 2 3 true 0 3)

/-- For every well-formed instruction, with every operand at every value its encoding admits, the decoder reads from its
encoded words exactly that instruction. Model's choice: which codes field A of XSEND and XSENDF and RND and SAT of MST
and MRDV admit (log entry 125). (R150, R151, R154, R157, R158) -/
def Obligations.DecodeEncode : Prop :=
  ∀ i : Instr, i.wf = true → decodeBits (encode i) = .ok i

/-- Whatever instruction the decoder reads is well formed, and its encoding agrees with the word in every bit of the
length that LEN gives. Model's choice: which codes field A of XSEND and XSENDF and RND and SAT of MST and MRDV admit
(log entry 125). (R146, R150, R162) -/
def Obligations.DecodedBits : Prop :=
  ∀ (w : BitVec 128) (i : Instr), decodeBits w = .ok i →
    i.wf = true ∧ i.bytes = lenBytes w ∧ ∀ n, n < 8 * lenBytes w → (encode i).getLsbD n = w.getLsbD n

/-- A word that is no pad and whose class field is 0xF is a reserved encoding: the decoder refuses it with reason 1 of
Table 19-3. (R162, R390) -/
def Obligations.ReservedClass : Prop :=
  ∀ w : BitVec 128, w.extractLsb' 0 2 ≠ 3 → w.extractLsb' 8 4 = 0xF → decodeBits w = .error 1

/-- When no event comes first and the selected PC slot stands at bytes that decode to an instruction, the step is the
execution of that instruction in the state that has selected the slot and may keep the block it read, and then time
passes. Model's choice: due events and ready slots come in a free order (log entry 1), and a sheaf may keep the forms
of a block that it has fetched (log entry 17). (R36, R149) -/
def Obligations.StepRunsInstruction : Prop :=
  ∀ (s : State) (k : Nat) (b : Bool) (bs : List Byte) (i : Instr), s.eventFirst = false → s.select = some (k, b) →
    Claims.codeAt (Claims.begins s k b) k b bs → lenBytes (Claims.firstWord bs) ≤ bs.length →
    decodeBits (Claims.firstWord bs) = .ok i →
      step s = onNext State.pass (exec i ((Claims.begins s k b).keepBlock k b))

/-- When a due event comes first, the step is that event run in the state that has taken it from those due, and then time
passes; with nothing due and nothing ready, only time passes. Model's choice: which event comes, and when, is free
(log entry 1), as are the free values that a step does not use again (log entry 2) and the time that passes (log entry
9). (95_what_each_step_holds) -/
def Obligations.StepTakesEvent : Prop :=
  (∀ (s : State) (e : Event) (rest : List Event), s.eventFirst = true → s.nextEvent = some (e, rest) →
      step s = onNext State.pass (runEvent e { s with due := rest }.begun)) ∧
    (∀ s : State, s.due = [] → s.readySlots = [] → step s = .next s.pass)

/-- Every event that may stand among those due runs exactly as the constructor of Instr that stands for its row of the
table executes. (95_what_each_step_holds) -/
def Obligations.EventsAreInstructions : Prop :=
  (∀ p s, runEvent (.waitaTimeout p) s = exec (.waitaTimeout p) s) ∧
    (∀ p s, runEvent (.sleepExpiry p) s = exec (.sleepExpiry p) s) ∧
    (∀ p id lane s, runEvent (.loadLaneReturn p id lane) s = exec (.loadLaneReturn p id lane) s) ∧
    (∀ p b s, runEvent (.memoryFaultSettle p b) s = exec (.memoryFaultSettle p b) s) ∧
    (∀ p b s, runEvent (.trapEntry p b) s = exec (.trapEntry p b) s) ∧
    (∀ core s, runEvent (.extendedBlockGrant core) s = exec (.extendedBlockGrant core) s) ∧
    (∀ core s, runEvent (.compactorMove core) s = exec (.compactorMove core) s) ∧
    (∀ core s, runEvent (.compactorMoveDone core) s = exec (.compactorMoveDone core) s) ∧
    (∀ slice n s, runEvent (.sweeperPassEnd slice n) s = exec (.sweeperPassEnd slice n) s) ∧
    (∀ ctx off data s, runEvent (.submissionWrite ctx off data) s = exec (.submissionWrite ctx off data) s) ∧
    (∀ s, runEvent .orreryAdmit s = exec .orreryAdmit s) ∧
    (∀ s, runEvent .spanPlacement s = exec .spanPlacement s) ∧
    (∀ crew s, runEvent (.crewRetire crew) s = exec (.crewRetire crew) s) ∧
    (∀ launch s, runEvent (.preemptionWaitExpiry launch) s = exec (.preemptionWaitExpiry launch) s) ∧
    (∀ span s, runEvent (.spanSave span) s = exec (.spanSave span) s) ∧
    (∀ span s, runEvent (.spanRestore span) s = exec (.spanRestore span) s) ∧
    (∀ p s, runEvent (.recallTimeout p) s = exec (.recallTimeout p) s) ∧
    (∀ core s, runEvent (.chunkSend core) s = exec (.chunkSend core) s) ∧
    (∀ id s, runEvent (.chunkArrival id) s = exec (.chunkArrival id) s) ∧
    (∀ core s, runEvent (.matrixCommandExecute core) s = exec (.matrixCommandExecute core) s) ∧
    (∀ core s, runEvent (.matrixCommandComplete core) s = exec (.matrixCommandComplete core) s) ∧
    (∀ core s, runEvent (.matrixBurstEnd core) s = exec (.matrixBurstEnd core) s) ∧
    (∀ power s, runEvent (.permitGrant power) s = exec (.permitGrant power) s) ∧
    (∀ m s, runEvent (.moduleRoomReport m) s = exec (.moduleRoomReport m) s) ∧
    (∀ ctx num s, runEvent (.reservationExpiry ctx num) s = exec (.reservationExpiry ctx num) s) ∧
    (∀ s, runEvent .eventQueueRecheck s = exec .eventQueueRecheck s) ∧
    (∀ id s, runEvent (.continuationDepart id) s = exec (.continuationDepart id) s) ∧
    (∀ id s, runEvent (.continuationArrival id) s = exec (.continuationArrival id) s) ∧
    (∀ id s, runEvent (.migrationReturn id) s = exec (.migrationReturn id) s) ∧
    (∀ fibre s, runEvent (.frameSend fibre) s = exec (.frameSend fibre) s) ∧
    (∀ fibre f s, runEvent (.frameWrite fibre f) s = exec (.frameWrite fibre f) s) ∧
    (∀ fibre f s, runEvent (.frameReadRequest fibre f) s = exec (.frameReadRequest fibre f) s) ∧
    (∀ fibre f s, runEvent (.frameReadResponse fibre f) s = exec (.frameReadResponse fibre f) s) ∧
    (∀ fibre f s, runEvent (.frameAtomicRequest fibre f) s = exec (.frameAtomicRequest fibre f) s) ∧
    (∀ fibre f s, runEvent (.frameAtomicResponse fibre f) s = exec (.frameAtomicResponse fibre f) s) ∧
    (∀ fibre f s, runEvent (.frameEndToEndAck fibre f) s = exec (.frameEndToEndAck fibre f) s) ∧
    (∀ fibre f s, runEvent (.frameMulticast fibre f) s = exec (.frameMulticast fibre f) s) ∧
    (∀ fibre f s, runEvent (.frameIdle fibre f) s = exec (.frameIdle fibre f) s) ∧
    (∀ fibre f s, runEvent (.replayRequest fibre f) s = exec (.replayRequest fibre f) s) ∧
    (∀ fibre f s, runEvent (.frameModuleCompletion fibre f) s = exec (.frameModuleCompletion fibre f) s) ∧
    (∀ fibre s, runEvent (.frameCorrupt fibre) s = exec (.frameCorrupt fibre) s) ∧
    (∀ fibre s, runEvent (.replayTimeout fibre) s = exec (.replayTimeout fibre) s) ∧
    (∀ id s, runEvent (.relayForward id) s = exec (.relayForward id) s) ∧
    (∀ peer s, runEvent (.relayLossTimeout peer) s = exec (.relayLossTimeout peer) s) ∧
    (∀ xid child s, runEvent (.multicastMemberTimeout xid child) s = exec (.multicastMemberTimeout xid child) s) ∧
    (∀ plane s, runEvent (.rotorSlotBoundary plane) s = exec (.rotorSlotBoundary plane) s) ∧
    (∀ plane cycle slot domain s, runEvent (.guardBeacon plane cycle slot domain) s = exec (.guardBeacon plane cycle slot domain) s) ∧
    (∀ plane offset s, runEvent (.rotorPlaneFailure plane offset) s = exec (.rotorPlaneFailure plane offset) s) ∧
    (∀ plane offset s, runEvent (.rotorPlaneRestore plane offset) s = exec (.rotorPlaneRestore plane offset) s) ∧
    (∀ fibre wl corrected s, runEvent (.wavelengthWindowEnd fibre wl corrected) s = exec (.wavelengthWindowEnd fibre wl corrected) s) ∧
    (∀ fibre group s, runEvent (.uncorrectableCodeword fibre group) s = exec (.uncorrectableCodeword fibre group) s) ∧
    (∀ fibre wl s, runEvent (.lossOfLock fibre wl) s = exec (.lossOfLock fibre wl) s) ∧
    (∀ fibre wl s, runEvent (.erasureDeclare fibre wl) s = exec (.erasureDeclare fibre wl) s) ∧
    (∀ fibre group s, runEvent (.linkEscalation fibre group) s = exec (.linkEscalation fibre group) s) ∧
    (∀ fibre group lit s, runEvent (.retrainSlot fibre group lit) s = exec (.retrainSlot fibre group lit) s) ∧
    (∀ fibre group s, runEvent (.forcedRetrain fibre group) s = exec (.forcedRetrain fibre group) s) ∧
    (∀ fibre group ok s, runEvent (.forcedRetrainEnd fibre group ok) s = exec (.forcedRetrainEnd fibre group ok) s) ∧
    (∀ fibre wl rise s, runEvent (.laserAgeingThreshold fibre wl rise) s = exec (.laserAgeingThreshold fibre wl rise) s) ∧
    (∀ engine s, runEvent (.theodoliteWatchdogReset engine) s = exec (.theodoliteWatchdogReset engine) s) ∧
    (∀ engine s, runEvent (.theodoliteRecovered engine) s = exec (.theodoliteRecovered engine) s) ∧
    (∀ link s, runEvent (.lrRetryTimeout link) s = exec (.lrRetryTimeout link) s) ∧
    (∀ link s, runEvent (.lrAckTimeout link) s = exec (.lrAckTimeout link) s) ∧
    (∀ link ok s, runEvent (.lrTrainingAttempt link ok) s = exec (.lrTrainingAttempt link ok) s) ∧
    (∀ link keyHash rtt s, runEvent (.lrLinkTrained link keyHash rtt) s = exec (.lrLinkTrained link keyHash rtt) s) ∧
    (∀ link s, runEvent (.lrLossDiscard link) s = exec (.lrLossDiscard link) s) ∧
    (∀ link out s, runEvent (.lrRekey link out) s = exec (.lrRekey link out) s) ∧
    (∀ link xid daddr s, runEvent (.lrDedupExpiry link xid daddr) s = exec (.lrDedupExpiry link xid daddr) s) ∧
    (∀ m sub addr unit s, runEvent (.moduleFault m sub addr unit) s = exec (.moduleFault m sub addr unit) s) ∧
    (∀ m s, runEvent (.moduleRecovered m) s = exec (.moduleRecovered m) s) ∧
    (∀ launch s, runEvent (.discardRelease launch) s = exec (.discardRelease launch) s) ∧
    (∀ temp s, runEvent (.thermalWarning temp) s = exec (.thermalWarning temp) s) ∧
    (∀ temp s, runEvent (.thermalThrottle temp) s = exec (.thermalThrottle temp) s) ∧
    (∀ temp s, runEvent (.thermalRecover temp) s = exec (.thermalRecover temp) s) ∧
    (∀ power s, runEvent (.powerExcursion power) s = exec (.powerExcursion power) s) ∧
    (∀ temp s, runEvent (.thermalShutdown temp) s = exec (.thermalShutdown temp) s) ∧
    (∀ s, runEvent .coldReset s = exec .coldReset s) ∧
    (∀ s, runEvent .identityEntry s = exec .identityEntry s) ∧
    (∀ s, runEvent .stateReqOptics s = exec .stateReqOptics s) ∧
    (∀ ok s, runEvent (.opticsTrainingDone ok) s = exec (.opticsTrainingDone ok) s) ∧
    (∀ s, runEvent .stateReqMapped s = exec .stateReqMapped s) ∧
    (∀ s, runEvent .stateReqOperational s = exec .stateReqOperational s) ∧
    (∀ c w s, runEvent (.ctxCreate c w) s = exec (.ctxCreate c w) s) ∧
    (∀ c s, runEvent (.ctxDelete c) s = exec (.ctxDelete c) s) ∧
    (∀ c s, runEvent (.ctxPreSet c) s = exec (.ctxPreSet c) s) ∧
    (∀ c s, runEvent (.ctxPreClear c) s = exec (.ctxPreClear c) s) ∧
    (∀ fibre n s, runEvent (.splitRequest fibre n) s = exec (.splitRequest fibre n) s) ∧
    (∀ s, runEvent .invarCheckpoint s = exec .invarCheckpoint s) ∧
    (∀ ok us s, runEvent (.checkpointDone ok us) s = exec (.checkpointDone ok us) s) ∧
    (∀ s, runEvent .invarPersist s = exec .invarPersist s) ∧
    (∀ ok us s, runEvent (.persistDone ok us) s = exec (.persistDone ok us) s) ∧
    (∀ s, runEvent .invarRestore s = exec .invarRestore s) ∧
    (∀ ok us s, runEvent (.restoreDone ok us) s = exec (.restoreDone ok us) s) ∧
    (∀ s, runEvent .qctlSign s = exec .qctlSign s) ∧
    (∀ s, runEvent .quoteReady s = exec .quoteReady s) ∧
    (∀ off n s, runEvent (.hostWindowRead off n) s = exec (.hostWindowRead off n) s) ∧
    (∀ off data s, runEvent (.hostWindowWrite off data) s = exec (.hostWindowWrite off data) s) ∧
    (∀ off val s, runEvent (.registerWrite off val) s = exec (.registerWrite off val) s) ∧
    (∀ power s, runEvent (.powerExcursionEnd power) s = exec (.powerExcursionEnd power) s) ∧
    (∀ off data s, runEvent (.firmwareStagingWrite off data) s = exec (.firmwareStagingWrite off data) s)

/-- From every state the step answers a next state: the model neither faults nor refuses. (R381, R162) -/
def Obligations.StepAnswers : Prop :=
  ∀ s : State, Safety.stepOk s

/-- When the selected PC slot stands at a word that crosses its fetch block, or that the decoder refuses with a reason,
the step takes the illegal-instruction trap with reason 7, or that reason, over the active mask with ADDR 0 and OPC
from the word, and nothing else. (R147, R162, R390) -/
def Obligations.ReservedWordTraps : Prop :=
  ∀ (s : State) (k : Nat) (b : Bool) (bs : List Byte), s.eventFirst = false → s.select = some (k, b) →
    Claims.codeAt (Claims.begins s k b) k b bs →
    ∀ n : Byte, (bs.length < lenBytes (Claims.firstWord bs) ∧ n = 7 ∨
        lenBytes (Claims.firstWord bs) ≤ bs.length ∧ ∃ r, decodeBits (Claims.firstWord bs) = .error r ∧ n = BitVec.ofNat 8 r) →
      step s = .next (((Claims.begins s k b).takeTrap k b
        ⟨0x01, n, ((s.sheaf k).slot b).mask, 0, ((s.sheaf k).slot b).pc, opcBits (Claims.firstWord bs), 0, false⟩).refill k).pass

/-- A completed scalar, vector, conversion, cross-lane or predicate instruction changes only its destination registers,
the PC slots and issue state of its own sheaf, sr.srnd only where it is VSRND or rounds in the stochastic mode, sr.qnv
only where it is VQUANT, and the slot its core issued from last: all memory, every other register and all other state
is as before. (R153, R184, R208, R55, R77, R85) -/
def Obligations.RegisterFrame : Prop :=
  ∀ (i : Instr) (s : State) (F : Claims.Form), Claims.registerForm s i = some F → i.wf = true →
    s.issues i F.h F.c = true → Claims.quiet s s.focus →
      ∃ t, exec i s = .next t ∧ Claims.onlyRegisters s t s.focus F.c.uses ∧
        (Claims.draws i = false → (t.sheaf s.focus).srnd = (s.sheaf s.focus).srnd) ∧
        (Claims.quantises i = false → (t.sheaf s.focus).qnv = (s.sheaf s.focus).qnv)

/-- After a completed instruction on registers, outside a microprogram, its PC slot is live on the same mask and stands at
its PC plus its length in bytes. (R146, R35) -/
def Obligations.NextInstruction : Prop :=
  ∀ (i : Instr) (s : State) (F : Claims.Form), Claims.registerForm s i = some F → i.wf = true →
    s.issues i F.h F.c = true → Claims.quiet s s.focus → s.focusSlot.micro = none →
      ∃ t, exec i s = .next t ∧ ((t.sheaf s.focus).slot s.focusB).live = true ∧
        ((t.sheaf s.focus).slot s.focusB).mask = s.focusSlot.mask ∧
        ((t.sheaf s.focus).slot s.focusB).pc = s.focusSlot.pc + BitVec.ofNat 64 i.bytes

/-- A completed STL, STS, STG, STX or STR leaves every byte of package memory and of every module outside the bytes that
its lanes store as it was, and every vector register, predicate and accumulator; a scalar register changes only in a
sheaf parked in WAITA. (R234, R236, R55, R100, R102, R181) -/
def Obligations.StoreFrame : Prop :=
  ∀ (i : Instr) (s : State) (F : Claims.Form) (h : Hdr) (ty : Ty) (d : VSrc) (p : Ex → State → Access.Plan),
    Claims.storeOf i = some (h, ty, d, p) → Claims.memoryForm s i = some F → i.wf = true → s.issues i F.h F.c = true →
    F.ok (s.ex i F.h) (s.entered i F.h) → Claims.quiet s s.focus → Safety.memOk s →
      ∃ t, exec i s = .next t ∧ t.vregs = s.vregs ∧ t.pregs = s.pregs ∧ t.acc = s.acc ∧
        (∀ j r, r < 64 → (∀ q n, (s.sheaf j).park ≠ some (.waita q n)) → t.sraw j r = s.sraw j r) ∧
        (∀ a, a < 2 ^ 32 →
          (∀ L c, Claims.storedAt (p (s.ex i F.h) (s.entered i F.h)) (s.ex i F.h) L = some c → a < c ∨ c + tyBytes ty ≤ a) →
          t.pkgByte a = s.pkgByte a) ∧
        ∀ m o, o < 2 ^ 43 →
          (∀ L u, Claims.storedMod (p (s.ex i F.h) (s.entered i F.h)) (s.ex i F.h) L = some (m, u) →
            ∀ n, n < tyBytes ty → ¬ Claims.sameByte s m o (u + n)) →
          t.modByte m o = s.modByte m o

/-- After a completed STL, STS, STG, STX or STR, each byte of a lane whose place is in a live unit of package memory reads
as that byte of the lane value, little-endian, unless a higher lane of Exec stores over it. (R234, R236, R54, R107) -/
def Obligations.StoredBytes : Prop :=
  ∀ (i : Instr) (s : State) (F : Claims.Form) (h : Hdr) (ty : Ty) (d : VSrc) (p : Ex → State → Access.Plan),
    Claims.storeOf i = some (h, ty, d, p) → Claims.memoryForm s i = some F → i.wf = true → s.issues i F.h F.c = true →
    F.ok (s.ex i F.h) (s.entered i F.h) → Claims.quiet s s.focus → Safety.memOk s →
      ∃ t, exec i s = .next t ∧
        ∀ L c n, Claims.storedAt (p (s.ex i F.h) (s.entered i F.h)) (s.ex i F.h) L = some c → n < tyBytes ty → c + n < 2 ^ 32 →
          s.accessGen (c + n) ≠ 0 →
          (∀ M e, L < M → Claims.storedAt (p (s.ex i F.h) (s.entered i F.h)) (s.ex i F.h) M = some e →
            c + n < e ∨ e + tyBytes ty ≤ c + n) →
          t.pkgByte (c + n) = (s.vsrc s.focus ty L d).extractLsb' (8 * n) 8

/-- A completed load, FENCE, PREFG or CFLUSH leaves all of memory, its tags, and the values of all registers and
accumulators as they were: a load writes its destination only when its lanes return. (R234, R239, R240, R38) -/
def Obligations.LoadFrame : Prop :=
  ∀ (i : Instr) (s : State) (F : Claims.Form), Claims.readsOnly i = true → Claims.memoryForm s i = some F → i.wf = true →
    s.issues i F.h F.c = true → F.ok (s.ex i F.h) (s.entered i F.h) → Claims.quiet s s.focus →
      ∃ t, exec i s = .next t ∧ t.mem = s.mem ∧ t.tags = s.tags ∧ t.vregs = s.vregs ∧ t.sregs = s.sregs ∧
        t.pregs = s.pregs ∧ t.acc = s.acc

/-- A completed branch, call, return, loop or join leaves every byte of package memory outside the 512 bytes of its own
divergence stack as it was, all vector registers, predicates and accumulators, and every scalar register but the one
it writes, outside sheaves parked in WAITA. (R29, R41, R175, R137) -/
def Obligations.BranchFrame : Prop :=
  ∀ (i : Instr) (s : State) (F : Claims.Form), Claims.branches i = true → Claims.controlForm s i = some F → i.wf = true →
    s.issues i F.h F.c = true → F.ok (s.ex i F.h) (s.entered i F.h) → Claims.quiet s s.focus → Safety.memOk s →
      ∃ t, exec i s = .next t ∧ t.vregs = s.vregs ∧ t.pregs = s.pregs ∧ t.acc = s.acc ∧
        (∀ j r, r < 64 → (∀ q n, (s.sheaf j).park ≠ some (.waita q n)) → ¬(j = s.focus ∧ Claims.writes F.c.uses (.s r)) →
          t.sraw j r = s.sraw j r) ∧
        ∀ a, (a < s.stackAddr s.focus 0 ∨ s.stackAddr s.focus 64 ≤ a) → t.pkgByte a = s.pkgByte a

/-- TRAP in a sheaf at home, when its trap can enter at once and is handled: s61 holds the next PC, s62 the kind, index,
slot, opcode and lanes, s63 the code; the slot continues at S[60] on its mask with the trap active; every other scalar
register and all vector registers, predicates and memory are as before. (R179, R382, R383) -/
def Obligations.TrapEntered : Prop :=
  ∀ (h : Hdr) (code : Byte) (s : State), s.issues (.trap h code) h {} = true → (s.sheaf s.focus).frag = none →
    (s.sheaf s.focus).baseGen ≠ 0 → s.badSram = [] → Claims.enters s → Claims.handles s (s.focusSlot.pc + 8) →
      ∃ t, exec (.trap h code) s = .next t ∧ t.readS s.focus 61 = s.focusSlot.pc + 8 ∧
        t.readS s.focus 62 = Claims.trapWord (s.ex (.trap h code) h) ∧ t.readS s.focus 63 = code.zeroExtend 64 ∧
        ((t.sheaf s.focus).slot s.focusB).pc = s.readS s.focus 60 ∧ ((t.sheaf s.focus).slot s.focusB).active = true ∧
        ((t.sheaf s.focus).slot s.focusB).mask = s.focusSlot.mask ∧ ((t.sheaf s.focus).slot s.focusB).live = true ∧
        (∀ r, r < 61 → t.readS s.focus r = s.readS s.focus r) ∧ t.vregs = s.vregs ∧ t.pregs = s.pregs ∧ t.mem = s.mem

/-- TRAP in a sheaf at home, when its trap can enter at once and a condition of R383 fails: its launch is being discarded
with SUB 1, the kind of the trap, and bits [56:2] of the RPC. (R373, R383) -/
def Obligations.TrapUnhandled : Prop :=
  ∀ (h : Hdr) (code : Byte) (s : State) (l : Launch), s.issues (.trap h code) h {} = true → (s.sheaf s.focus).frag = none →
    Claims.enters s → ¬ Claims.handles s (s.focusSlot.pc + 8) →
    Tab.find s.launches (s.sheaf s.focus).launch = some l → l.state = .active →
      ∃ t m, exec (.trap h code) s = .next t ∧ Tab.find t.launches (s.sheaf s.focus).launch = some m ∧
        m.state = .discarding ∧ m.sub = 1 ∧ m.kind = 0x14 ∧
        m.faddr = ((s.focusSlot.pc + 8).extractLsb' 2 55).zeroExtend 56

/-- For every slot and count, the closed form the model uses gives the CNT, PHASE and number of completed phases of the
loop: while EXP is not 0 and CNT is at least EXP, EXP leaves CNT and PHASE rises by 1. (R243) -/
def Obligations.PhaseCount : Prop :=
  ∀ (b : Bar) (cnt n : Nat), cnt ≤ n → b.complete cnt = Claims.phaseLoop n b cnt

/-- A vector source that names a scalar register supplies the same value to every lane: bits [31:0] for a type of 32 bits,
all 64 bits for a 64-bit type; it is checked as a source without a tag, under the pending bit of the scalar register.
(R155) -/
def Obligations.ScalarAsVectorSource : Prop :=
  ∀ (s : State) (k : Nat) (ty : Ty) (n : Nat) (r : SReg),
    (∀ L, s.vsrc k ty L (.s r) = if ty.is64 then s.readS k r.val else ((s.readS k r.val).extractLsb' 0 32).zeroExtend 64) ∧
    srcTyped n ty (.s r) = [.src n (.s r.val)]

/-- ELECT with a non-empty Exec writes p[D] in the lanes of Exec, true in the lowest and false in the others, leaves the
lanes outside Exec as R55 says, and sets S[A] to the number of the lowest; with an empty Exec it writes nothing.
(R183) -/
def Obligations.Elected : Prop :=
  ∀ (h : Hdr) (d : PReg) (a : SReg) (s : State), (s.sheaf s.focus).baseGen ≠ 0 → Claims.quiet s s.focus →
    (s.issues (.elect h d a) h { uses := [.dst (.p d.val), ⟨1, .s a.val, false, true, none⟩] } = true →
      ∃ t, exec (.elect h d a) s = .next t ∧
        (d.val ≠ 7 → ∀ L, L < 32 → (t.readP s.focus d.val).getLsbD L =
          if (s.ex (.elect h d a) h).exec.getLsbD L then decide (L = Claims.first (s.ex (.elect h d a) h).exec)
          else (s.readP s.focus d.val).getLsbD L) ∧
        t.readS s.focus a.val = BitVec.ofNat 64 (Claims.first (s.ex (.elect h d a) h).exec)) ∧
    (Claims.stands s (.elect h d a) → (s.sheaf s.focus).pending (.p h.gp.val) = false → (s.ex (.elect h d a) h).exec = 0 →
      ∃ t, exec (.elect h d a) s = .next t ∧ t.pregs = s.pregs ∧ t.sregs = s.sregs)

/-- After a write of the lanes of a non-empty mask, each lane of the mask reads as written, each other lane as it read
before (zero if the granule was stale), and the format tag is the one written; a write with an empty mask changes
nothing. (R55, R56, R65) -/
def Obligations.PartialWrite : Prop :=
  ∀ (s : State) (k r : Nat) (m : Word32) (f : Nat → Word32) (g : BitVec 4),
    (m ≠ 0 → vphys k (s.sheaf k) r ≠ none → vgen (s.sheaf k) r ≠ 0 →
      (∀ L, L < 32 → (s.writeV k r m f g).laneV k r L = if m.getLsbD L then f L else s.laneV k r L) ∧
        ((s.writeV k r m f g).readV k r).fmt = g) ∧
    s.writeV k r 0 f g = s

/-- In every float format, whatever the mode and the draw, rounding the value of an encoding that is not NaN, without
saturation, gives that encoding. (R74, R75) -/
def Obligations.RoundExact : Prop :=
  ∀ f ∈ Claims.formats, ∀ (mode : Rnd) (draw x : Nat), x < 2 ^ (f.e + f.m + 1) → f.decode x ≠ .nan →
    f.round mode draw false (f.decode x) = x

/-- Element e of an array of w rows that holds f reads as the low w bits of f e, in twos complement where the array is
signed. (R301) -/
def Obligations.BitRowsReadBack : Prop :=
  ∀ (n w : Nat) (f : Nat → Nat) (signed : Bool) (e : Nat), e < 8 * n → 0 < w →
    bsElem ((List.range w).map fun b => bsRow n b f) signed e = Claims.int signed (BitVec.ofNat w (f e))

/-- From every state whose memory has its canonical form, the state that a step answers has it too. (R54, R55) -/
def Obligations.MemoryFormKept : Prop :=
  ∀ s t : State, Safety.memOk s → step s = .next t → Safety.memOk t

/-- The memory of the state after reset has its canonical form: it lists nothing, so that every byte reads as the model's
choice 0 (log entry 6). (R54) -/
def Obligations.ResetMemoryForm : Prop :=
  Safety.memOk State.reset ∧ State.reset.mem = []

/-- After cold reset nothing is placed and no launch waits, launch numbers start at 1, every unit table entry and granule
tag is 0x0000, every register of every place reads as zero, every microprogram count is 0, every context is absent
with its range registers zero, and the package stands in IDENTITY. Model's choice: the values that the spec does not
give (log entries 5, 6 and 7). (R54, R56, R131, R180, R336) -/
def Obligations.ResetState : Prop :=
  State.reset.sheaves = [] ∧ State.reset.launches = [] ∧ State.reset.nextLaunch = 1 ∧
    (∀ a, State.reset.tag a = 0 ∧ State.reset.accessGen a = 0 ∧ State.reset.pkgByte a = 0) ∧
    (∀ k r, State.reset.readS k r = 0 ∧ State.reset.readV k r = VCell.zero ∧ (r ≠ 7 → State.reset.readP k r = 0)) ∧
    (∀ c m, (State.reset.micro c m).count = 0) ∧
    (∀ c, (State.reset.ctx c).v = false ∧ (State.reset.ctx c).priv = false ∧
      (State.reset.ctx c).rr = Vector.replicate 16 (0, 0, 0)) ∧ State.reset.host.cur = 1

/-- A frame whose type is not reserved and whose payload has the bytes that its LEN states is read from its 292-byte
image, header, payload and CRC-32, field by field as it was. Model's choice: the order of the bytes of header, payload
and CRC (log entry 104). (R314) -/
def Obligations.FrameImages : Prop :=
  ∀ f : Frame, f.type.toNat < 10 → f.payload.length = 32 * (f.len.toNat + 1) → frameOfImage (frameImage f) = some f

/-- The bytes that a sheaf fetches at a PC are those from the PC to the end of one whole form of its aligned 32-byte fetch
block: the form in memory, or one that the sheaf has fetched before and kept; and a sheaf that has kept no form of the
block fetches the one in memory. Model's choice: the forms that a fetch may return are those the sheaf has fetched and
the one in memory (log entry 17). (R147, R149) -/
def Obligations.FetchedForms : Prop :=
  (∀ (s : State) (k : Nat) (pc : Word64) (bs : List Byte), s.fetchBlock k pc = .ok bs →
      ∃ (blk : Word64) (whole : List Byte), blk.toNat = pc.toNat / 32 * 32 ∧ bs = whole.drop (pc.toNat % 32) ∧
        (s.readBlock (s.ctxOf k) blk = .ok whole ∨ (blk, whole) ∈ (s.sheaf k).code)) ∧
    (∀ (s : State) (k : Nat) (pc blk : Word64) (whole : List Byte), blk.toNat = pc.toNat / 32 * 32 →
      (∀ w, (blk, w) ∉ (s.sheaf k).code) → s.readBlock (s.ctxOf k) blk = .ok whole →
        s.fetchBlock k pc = .ok (whole.drop (pc.toNat % 32)))

/-- A matrix command that meets no error is performed; and whenever one is: MMA and MMAS give each selected element of D
the value of R83 or R84 with Depth, scales and the incoming value of R268, MMAS over the dense B that R269 gathers;
MZERO, MEW, MLDA, MWRV and MTRN give theirs; every other element of D, every other tile row and all other state is as
before. MST writes each selected element, converted once, into the bits that R263 gives it, later rows over earlier
ones, and no other bit of package memory. MRDV has for each lane of Exec the value of its element, and queues its
return. Model's choice: the bytes that the engine reads are those of log entry 100, at the moment of log entry 43.
(R83, R84, R263, R264, R268, R269, R270, R271, R272, R273, R274, R275) -/
def Obligations.MatrixValues : Prop :=
  ∀ (s : State) (c : MatCmd), c.instr.wf = true → (s.crew c.crew).accGen ≠ 0 →
    (Claims.runs s c → ∃ t, s.matRun c = .ok t) ∧
    ∀ t, s.matRun c = .ok t →
      (∀ d v, Claims.tileValues s c = some (d, v) →
        (∀ i j, i < 16 → j < 16 → Claims.tileAt t c d i j = (v i j).getD (Claims.tileAt s c d i j)) ∧
        (∀ n, (∀ i, i < 16 → n ≠ accKey (s.crew c.crew) d.val i) → Tab.find t.acc n = Tab.find s.acc n) ∧
        t = { s with acc := t.acc, badWords := t.badWords }) ∧
      (∀ h ty rnd sat e a ms, c.instr = .mst h ty rnd sat e a ms →
        let at_ := Claims.rowBit s c ty
        let sel := Claims.picks (maskRows ms) (maskCols ms)
        (∀ i j b, i < 16 → j < 16 → sel i j = true → b < rowBits ty → at_ i j + b < 2 ^ 35 → s.accessGen ((at_ i j + b) / 8) ≠ 0 →
          (∀ p q, i < p → p < 16 → q < 16 → sel p q = true → at_ i j + b < at_ p q ∨ at_ p q + rowBits ty ≤ at_ i j + b) →
          Claims.memBit t (at_ i j + b) = (Claims.outOfAcc ty rnd sat (Claims.tileAt s c a i j)).testBit b) ∧
        (∀ p, p < 2 ^ 35 → (∀ i j, i < 16 → j < 16 → sel i j = true → p < at_ i j ∨ at_ i j + rowBits ty ≤ p) →
          Claims.memBit t p = Claims.memBit s p) ∧ t.acc = s.acc ∧ t.vregs = s.vregs ∧ t.pregs = s.pregs) ∧
      (∀ h ty rnd sat part e a r, c.instr = .mrdv h ty rnd sat part e a r →
        (∀ l ∈ (s.sheaf c.place).loads, l.id = c.load → ∃ m ∈ (t.sheaf c.place).loads, m.id = l.id ∧ m.ready = l.left ∧
          ∀ L, L < 32 → c.exec.getLsbD L = true → m.vals.getD L 0 =
            if ty = .b32 then BitVec.ofNat 64 ((Claims.tileAt s c a (r.toNat + L / 16) (L % 16)).toNat / 2 ^ (32 * part.val) % 2 ^ 32)
            else BitVec.ofNat 64 (Claims.outOfAcc ty rnd sat (Claims.tileAt s c a (r.toNat + L / 16) (L % 16)))) ∧
        t.due = s.due ++ ((List.range 32).filter fun L => c.exec.getLsbD L).map (fun L => .loadLaneReturn (placeOf c.place) c.load L) ∧
        t.acc = s.acc ∧ t.mem = s.mem ∧ t.vregs = s.vregs)
end

