-- ==== Sys2Proof/Laws/State.lean ====
section
/-!
SUPPORT. What each plain update of the state does to each field: one lemma for each field and update, true by definition.
-/

namespace Sys2Proof.Machine

open Sys2Proof

/-! `State.setSheaf`. -/

@[simp] theorem State.setSheaf_mem (s : State) (k : Nat) (x : Sheaf) : (s.setSheaf k x).mem = s.mem := rfl
@[simp] theorem State.setSheaf_tags (s : State) (k : Nat) (x : Sheaf) : (s.setSheaf k x).tags = s.tags := rfl
@[simp] theorem State.setSheaf_vregs (s : State) (k : Nat) (x : Sheaf) : (s.setSheaf k x).vregs = s.vregs := rfl
@[simp] theorem State.setSheaf_sregs (s : State) (k : Nat) (x : Sheaf) : (s.setSheaf k x).sregs = s.sregs := rfl
@[simp] theorem State.setSheaf_pregs (s : State) (k : Nat) (x : Sheaf) : (s.setSheaf k x).pregs = s.pregs := rfl
@[simp] theorem State.setSheaf_acc (s : State) (k : Nat) (x : Sheaf) : (s.setSheaf k x).acc = s.acc := rfl
@[simp] theorem State.setSheaf_coreUnits (s : State) (k : Nat) (x : Sheaf) :
    (s.setSheaf k x).coreUnits = s.coreUnits := rfl
@[simp] theorem State.setSheaf_sliceUnits (s : State) (k : Nat) (x : Sheaf) :
    (s.setSheaf k x).sliceUnits = s.sliceUnits := rfl
@[simp] theorem State.setSheaf_sheaves (s : State) (k : Nat) (x : Sheaf) :
    (s.setSheaf k x).sheaves = Tab.put s.sheaves k x := rfl
@[simp] theorem State.setSheaf_crews (s : State) (k : Nat) (x : Sheaf) : (s.setSheaf k x).crews = s.crews := rfl
@[simp] theorem State.setSheaf_spans (s : State) (k : Nat) (x : Sheaf) : (s.setSheaf k x).spans = s.spans := rfl
@[simp] theorem State.setSheaf_launches (s : State) (k : Nat) (x : Sheaf) :
    (s.setSheaf k x).launches = s.launches := rfl
@[simp] theorem State.setSheaf_cores (s : State) (k : Nat) (x : Sheaf) : (s.setSheaf k x).cores = s.cores := rfl
@[simp] theorem State.setSheaf_gens (s : State) (k : Nat) (x : Sheaf) : (s.setSheaf k x).gens = s.gens := rfl
@[simp] theorem State.setSheaf_ctxs (s : State) (k : Nat) (x : Sheaf) : (s.setSheaf k x).ctxs = s.ctxs := rfl
@[simp] theorem State.setSheaf_nextLaunch (s : State) (k : Nat) (x : Sheaf) :
    (s.setSheaf k x).nextLaunch = s.nextLaunch := rfl
@[simp] theorem State.setSheaf_nextSpan (s : State) (k : Nat) (x : Sheaf) :
    (s.setSheaf k x).nextSpan = s.nextSpan := rfl
@[simp] theorem State.setSheaf_nextCrew (s : State) (k : Nat) (x : Sheaf) :
    (s.setSheaf k x).nextCrew = s.nextCrew := rfl
@[simp] theorem State.setSheaf_subs (s : State) (k : Nat) (x : Sheaf) : (s.setSheaf k x).subs = s.subs := rfl
@[simp] theorem State.setSheaf_chunks (s : State) (k : Nat) (x : Sheaf) : (s.setSheaf k x).chunks = s.chunks := rfl
@[simp] theorem State.setSheaf_modCmds (s : State) (k : Nat) (x : Sheaf) : (s.setSheaf k x).modCmds = s.modCmds := rfl
@[simp] theorem State.setSheaf_conts (s : State) (k : Nat) (x : Sheaf) : (s.setSheaf k x).conts = s.conts := rfl
@[simp] theorem State.setSheaf_nextId (s : State) (k : Nat) (x : Sheaf) : (s.setSheaf k x).nextId = s.nextId := rfl
@[simp] theorem State.setSheaf_gov (s : State) (k : Nat) (x : Sheaf) : (s.setSheaf k x).gov = s.gov := rfl
@[simp] theorem State.setSheaf_xfers (s : State) (k : Nat) (x : Sheaf) : (s.setSheaf k x).xfers = s.xfers := rfl
@[simp] theorem State.setSheaf_nextXid (s : State) (k : Nat) (x : Sheaf) : (s.setSheaf k x).nextXid = s.nextXid := rfl
@[simp] theorem State.setSheaf_outq (s : State) (k : Nat) (x : Sheaf) : (s.setSheaf k x).outq = s.outq := rfl
@[simp] theorem State.setSheaf_links (s : State) (k : Nat) (x : Sheaf) : (s.setSheaf k x).links = s.links := rfl
@[simp] theorem State.setSheaf_relays (s : State) (k : Nat) (x : Sheaf) : (s.setSheaf k x).relays = s.relays := rfl
@[simp] theorem State.setSheaf_mcasts (s : State) (k : Nat) (x : Sheaf) : (s.setSheaf k x).mcasts = s.mcasts := rfl
@[simp] theorem State.setSheaf_flags (s : State) (k : Nat) (x : Sheaf) : (s.setSheaf k x).flags = s.flags := rfl
@[simp] theorem State.setSheaf_halves (s : State) (k : Nat) (x : Sheaf) : (s.setSheaf k x).halves = s.halves := rfl
@[simp] theorem State.setSheaf_groups (s : State) (k : Nat) (x : Sheaf) : (s.setSheaf k x).groups = s.groups := rfl
@[simp] theorem State.setSheaf_lr (s : State) (k : Nat) (x : Sheaf) : (s.setSheaf k x).lr = s.lr := rfl
@[simp] theorem State.setSheaf_waves (s : State) (k : Nat) (x : Sheaf) : (s.setSheaf k x).waves = s.waves := rfl
@[simp] theorem State.setSheaf_grps (s : State) (k : Nat) (x : Sheaf) : (s.setSheaf k x).grps = s.grps := rfl
@[simp] theorem State.setSheaf_fibreRec (s : State) (k : Nat) (x : Sheaf) :
    (s.setSheaf k x).fibreRec = s.fibreRec := rfl
@[simp] theorem State.setSheaf_theos (s : State) (k : Nat) (x : Sheaf) : (s.setSheaf k x).theos = s.theos := rfl
@[simp] theorem State.setSheaf_planes (s : State) (k : Nat) (x : Sheaf) : (s.setSheaf k x).planes = s.planes := rfl
@[simp] theorem State.setSheaf_heard (s : State) (k : Nat) (x : Sheaf) : (s.setSheaf k x).heard = s.heard := rfl
@[simp] theorem State.setSheaf_mods (s : State) (k : Nat) (x : Sheaf) : (s.setSheaf k x).mods = s.mods := rfl
@[simp] theorem State.setSheaf_host (s : State) (k : Nat) (x : Sheaf) : (s.setSheaf k x).host = s.host := rfl
@[simp] theorem State.setSheaf_waitRecs (s : State) (k : Nat) (x : Sheaf) :
    (s.setSheaf k x).waitRecs = s.waitRecs := rfl
@[simp] theorem State.setSheaf_warm (s : State) (k : Nat) (x : Sheaf) : (s.setSheaf k x).warm = s.warm := rfl
@[simp] theorem State.setSheaf_throttled (s : State) (k : Nat) (x : Sheaf) :
    (s.setSheaf k x).throttled = s.throttled := rfl
@[simp] theorem State.setSheaf_excursion (s : State) (k : Nat) (x : Sheaf) :
    (s.setSheaf k x).excursion = s.excursion := rfl
@[simp] theorem State.setSheaf_checkpoint (s : State) (k : Nat) (x : Sheaf) :
    (s.setSheaf k x).checkpoint = s.checkpoint := rfl
@[simp] theorem State.setSheaf_ckptFault (s : State) (k : Nat) (x : Sheaf) :
    (s.setSheaf k x).ckptFault = s.ckptFault := rfl
@[simp] theorem State.setSheaf_images (s : State) (k : Nat) (x : Sheaf) : (s.setSheaf k x).images = s.images := rfl
@[simp] theorem State.setSheaf_badSram (s : State) (k : Nat) (x : Sheaf) : (s.setSheaf k x).badSram = s.badSram := rfl
@[simp] theorem State.setSheaf_badRegs (s : State) (k : Nat) (x : Sheaf) : (s.setSheaf k x).badRegs = s.badRegs := rfl
@[simp] theorem State.setSheaf_badWords (s : State) (k : Nat) (x : Sheaf) :
    (s.setSheaf k x).badWords = s.badWords := rfl
@[simp] theorem State.setSheaf_time (s : State) (k : Nat) (x : Sheaf) : (s.setSheaf k x).time = s.time := rfl
@[simp] theorem State.setSheaf_nanos (s : State) (k : Nat) (x : Sheaf) : (s.setSheaf k x).nanos = s.nanos := rfl
@[simp] theorem State.setSheaf_due (s : State) (k : Nat) (x : Sheaf) : (s.setSheaf k x).due = s.due := rfl
@[simp] theorem State.setSheaf_focus (s : State) (k : Nat) (x : Sheaf) : (s.setSheaf k x).focus = s.focus := rfl
@[simp] theorem State.setSheaf_focusB (s : State) (k : Nat) (x : Sheaf) : (s.setSheaf k x).focusB = s.focusB := rfl
@[simp] theorem State.setSheaf_frees (s : State) (k : Nat) (x : Sheaf) : (s.setSheaf k x).frees = s.frees := rfl
@[simp] theorem State.setSheaf_choices (s : State) (k : Nat) (x : Sheaf) : (s.setSheaf k x).choices = s.choices := rfl

/-! `State.modSheaf`. -/

@[simp] theorem State.modSheaf_mem (s : State) (k : Nat) (f : Sheaf → Sheaf) : (s.modSheaf k f).mem = s.mem := rfl
@[simp] theorem State.modSheaf_tags (s : State) (k : Nat) (f : Sheaf → Sheaf) : (s.modSheaf k f).tags = s.tags := rfl
@[simp] theorem State.modSheaf_vregs (s : State) (k : Nat) (f : Sheaf → Sheaf) :
    (s.modSheaf k f).vregs = s.vregs := rfl
@[simp] theorem State.modSheaf_sregs (s : State) (k : Nat) (f : Sheaf → Sheaf) :
    (s.modSheaf k f).sregs = s.sregs := rfl
@[simp] theorem State.modSheaf_pregs (s : State) (k : Nat) (f : Sheaf → Sheaf) :
    (s.modSheaf k f).pregs = s.pregs := rfl
@[simp] theorem State.modSheaf_acc (s : State) (k : Nat) (f : Sheaf → Sheaf) : (s.modSheaf k f).acc = s.acc := rfl
@[simp] theorem State.modSheaf_coreUnits (s : State) (k : Nat) (f : Sheaf → Sheaf) :
    (s.modSheaf k f).coreUnits = s.coreUnits := rfl
@[simp] theorem State.modSheaf_sliceUnits (s : State) (k : Nat) (f : Sheaf → Sheaf) :
    (s.modSheaf k f).sliceUnits = s.sliceUnits := rfl
@[simp] theorem State.modSheaf_sheaves (s : State) (k : Nat) (f : Sheaf → Sheaf) :
    (s.modSheaf k f).sheaves = Tab.mod s.sheaves k f := rfl
@[simp] theorem State.modSheaf_crews (s : State) (k : Nat) (f : Sheaf → Sheaf) :
    (s.modSheaf k f).crews = s.crews := rfl
@[simp] theorem State.modSheaf_spans (s : State) (k : Nat) (f : Sheaf → Sheaf) :
    (s.modSheaf k f).spans = s.spans := rfl
@[simp] theorem State.modSheaf_launches (s : State) (k : Nat) (f : Sheaf → Sheaf) :
    (s.modSheaf k f).launches = s.launches := rfl
@[simp] theorem State.modSheaf_cores (s : State) (k : Nat) (f : Sheaf → Sheaf) :
    (s.modSheaf k f).cores = s.cores := rfl
@[simp] theorem State.modSheaf_gens (s : State) (k : Nat) (f : Sheaf → Sheaf) : (s.modSheaf k f).gens = s.gens := rfl
@[simp] theorem State.modSheaf_ctxs (s : State) (k : Nat) (f : Sheaf → Sheaf) : (s.modSheaf k f).ctxs = s.ctxs := rfl
@[simp] theorem State.modSheaf_nextLaunch (s : State) (k : Nat) (f : Sheaf → Sheaf) :
    (s.modSheaf k f).nextLaunch = s.nextLaunch := rfl
@[simp] theorem State.modSheaf_nextSpan (s : State) (k : Nat) (f : Sheaf → Sheaf) :
    (s.modSheaf k f).nextSpan = s.nextSpan := rfl
@[simp] theorem State.modSheaf_nextCrew (s : State) (k : Nat) (f : Sheaf → Sheaf) :
    (s.modSheaf k f).nextCrew = s.nextCrew := rfl
@[simp] theorem State.modSheaf_subs (s : State) (k : Nat) (f : Sheaf → Sheaf) : (s.modSheaf k f).subs = s.subs := rfl
@[simp] theorem State.modSheaf_chunks (s : State) (k : Nat) (f : Sheaf → Sheaf) :
    (s.modSheaf k f).chunks = s.chunks := rfl
@[simp] theorem State.modSheaf_modCmds (s : State) (k : Nat) (f : Sheaf → Sheaf) :
    (s.modSheaf k f).modCmds = s.modCmds := rfl
@[simp] theorem State.modSheaf_conts (s : State) (k : Nat) (f : Sheaf → Sheaf) :
    (s.modSheaf k f).conts = s.conts := rfl
@[simp] theorem State.modSheaf_nextId (s : State) (k : Nat) (f : Sheaf → Sheaf) :
    (s.modSheaf k f).nextId = s.nextId := rfl
@[simp] theorem State.modSheaf_gov (s : State) (k : Nat) (f : Sheaf → Sheaf) : (s.modSheaf k f).gov = s.gov := rfl
@[simp] theorem State.modSheaf_xfers (s : State) (k : Nat) (f : Sheaf → Sheaf) :
    (s.modSheaf k f).xfers = s.xfers := rfl
@[simp] theorem State.modSheaf_nextXid (s : State) (k : Nat) (f : Sheaf → Sheaf) :
    (s.modSheaf k f).nextXid = s.nextXid := rfl
@[simp] theorem State.modSheaf_outq (s : State) (k : Nat) (f : Sheaf → Sheaf) : (s.modSheaf k f).outq = s.outq := rfl
@[simp] theorem State.modSheaf_links (s : State) (k : Nat) (f : Sheaf → Sheaf) :
    (s.modSheaf k f).links = s.links := rfl
@[simp] theorem State.modSheaf_relays (s : State) (k : Nat) (f : Sheaf → Sheaf) :
    (s.modSheaf k f).relays = s.relays := rfl
@[simp] theorem State.modSheaf_mcasts (s : State) (k : Nat) (f : Sheaf → Sheaf) :
    (s.modSheaf k f).mcasts = s.mcasts := rfl
@[simp] theorem State.modSheaf_flags (s : State) (k : Nat) (f : Sheaf → Sheaf) :
    (s.modSheaf k f).flags = s.flags := rfl
@[simp] theorem State.modSheaf_halves (s : State) (k : Nat) (f : Sheaf → Sheaf) :
    (s.modSheaf k f).halves = s.halves := rfl
@[simp] theorem State.modSheaf_groups (s : State) (k : Nat) (f : Sheaf → Sheaf) :
    (s.modSheaf k f).groups = s.groups := rfl
@[simp] theorem State.modSheaf_lr (s : State) (k : Nat) (f : Sheaf → Sheaf) : (s.modSheaf k f).lr = s.lr := rfl
@[simp] theorem State.modSheaf_waves (s : State) (k : Nat) (f : Sheaf → Sheaf) :
    (s.modSheaf k f).waves = s.waves := rfl
@[simp] theorem State.modSheaf_grps (s : State) (k : Nat) (f : Sheaf → Sheaf) : (s.modSheaf k f).grps = s.grps := rfl
@[simp] theorem State.modSheaf_fibreRec (s : State) (k : Nat) (f : Sheaf → Sheaf) :
    (s.modSheaf k f).fibreRec = s.fibreRec := rfl
@[simp] theorem State.modSheaf_theos (s : State) (k : Nat) (f : Sheaf → Sheaf) :
    (s.modSheaf k f).theos = s.theos := rfl
@[simp] theorem State.modSheaf_planes (s : State) (k : Nat) (f : Sheaf → Sheaf) :
    (s.modSheaf k f).planes = s.planes := rfl
@[simp] theorem State.modSheaf_heard (s : State) (k : Nat) (f : Sheaf → Sheaf) :
    (s.modSheaf k f).heard = s.heard := rfl
@[simp] theorem State.modSheaf_mods (s : State) (k : Nat) (f : Sheaf → Sheaf) : (s.modSheaf k f).mods = s.mods := rfl
@[simp] theorem State.modSheaf_host (s : State) (k : Nat) (f : Sheaf → Sheaf) : (s.modSheaf k f).host = s.host := rfl
@[simp] theorem State.modSheaf_waitRecs (s : State) (k : Nat) (f : Sheaf → Sheaf) :
    (s.modSheaf k f).waitRecs = s.waitRecs := rfl
@[simp] theorem State.modSheaf_warm (s : State) (k : Nat) (f : Sheaf → Sheaf) : (s.modSheaf k f).warm = s.warm := rfl
@[simp] theorem State.modSheaf_throttled (s : State) (k : Nat) (f : Sheaf → Sheaf) :
    (s.modSheaf k f).throttled = s.throttled := rfl
@[simp] theorem State.modSheaf_excursion (s : State) (k : Nat) (f : Sheaf → Sheaf) :
    (s.modSheaf k f).excursion = s.excursion := rfl
@[simp] theorem State.modSheaf_checkpoint (s : State) (k : Nat) (f : Sheaf → Sheaf) :
    (s.modSheaf k f).checkpoint = s.checkpoint := rfl
@[simp] theorem State.modSheaf_ckptFault (s : State) (k : Nat) (f : Sheaf → Sheaf) :
    (s.modSheaf k f).ckptFault = s.ckptFault := rfl
@[simp] theorem State.modSheaf_images (s : State) (k : Nat) (f : Sheaf → Sheaf) :
    (s.modSheaf k f).images = s.images := rfl
@[simp] theorem State.modSheaf_badSram (s : State) (k : Nat) (f : Sheaf → Sheaf) :
    (s.modSheaf k f).badSram = s.badSram := rfl
@[simp] theorem State.modSheaf_badRegs (s : State) (k : Nat) (f : Sheaf → Sheaf) :
    (s.modSheaf k f).badRegs = s.badRegs := rfl
@[simp] theorem State.modSheaf_badWords (s : State) (k : Nat) (f : Sheaf → Sheaf) :
    (s.modSheaf k f).badWords = s.badWords := rfl
@[simp] theorem State.modSheaf_time (s : State) (k : Nat) (f : Sheaf → Sheaf) : (s.modSheaf k f).time = s.time := rfl
@[simp] theorem State.modSheaf_nanos (s : State) (k : Nat) (f : Sheaf → Sheaf) :
    (s.modSheaf k f).nanos = s.nanos := rfl
@[simp] theorem State.modSheaf_due (s : State) (k : Nat) (f : Sheaf → Sheaf) : (s.modSheaf k f).due = s.due := rfl
@[simp] theorem State.modSheaf_focus (s : State) (k : Nat) (f : Sheaf → Sheaf) :
    (s.modSheaf k f).focus = s.focus := rfl
@[simp] theorem State.modSheaf_focusB (s : State) (k : Nat) (f : Sheaf → Sheaf) :
    (s.modSheaf k f).focusB = s.focusB := rfl
@[simp] theorem State.modSheaf_frees (s : State) (k : Nat) (f : Sheaf → Sheaf) :
    (s.modSheaf k f).frees = s.frees := rfl
@[simp] theorem State.modSheaf_choices (s : State) (k : Nat) (f : Sheaf → Sheaf) :
    (s.modSheaf k f).choices = s.choices := rfl

/-! `State.modSlot`. -/

@[simp] theorem State.modSlot_mem (s : State) (k : Nat) (b : Bool) (f : PcSlot → PcSlot) :
    (s.modSlot k b f).mem = s.mem := rfl
@[simp] theorem State.modSlot_tags (s : State) (k : Nat) (b : Bool) (f : PcSlot → PcSlot) :
    (s.modSlot k b f).tags = s.tags := rfl
@[simp] theorem State.modSlot_vregs (s : State) (k : Nat) (b : Bool) (f : PcSlot → PcSlot) :
    (s.modSlot k b f).vregs = s.vregs := rfl
@[simp] theorem State.modSlot_sregs (s : State) (k : Nat) (b : Bool) (f : PcSlot → PcSlot) :
    (s.modSlot k b f).sregs = s.sregs := rfl
@[simp] theorem State.modSlot_pregs (s : State) (k : Nat) (b : Bool) (f : PcSlot → PcSlot) :
    (s.modSlot k b f).pregs = s.pregs := rfl
@[simp] theorem State.modSlot_acc (s : State) (k : Nat) (b : Bool) (f : PcSlot → PcSlot) :
    (s.modSlot k b f).acc = s.acc := rfl
@[simp] theorem State.modSlot_coreUnits (s : State) (k : Nat) (b : Bool) (f : PcSlot → PcSlot) :
    (s.modSlot k b f).coreUnits = s.coreUnits := rfl
@[simp] theorem State.modSlot_sliceUnits (s : State) (k : Nat) (b : Bool) (f : PcSlot → PcSlot) :
    (s.modSlot k b f).sliceUnits = s.sliceUnits := rfl
@[simp] theorem State.modSlot_sheaves (s : State) (k : Nat) (b : Bool) (f : PcSlot → PcSlot) :
    (s.modSlot k b f).sheaves = Tab.mod s.sheaves k (·.modSlot b f) := rfl
@[simp] theorem State.modSlot_crews (s : State) (k : Nat) (b : Bool) (f : PcSlot → PcSlot) :
    (s.modSlot k b f).crews = s.crews := rfl
@[simp] theorem State.modSlot_spans (s : State) (k : Nat) (b : Bool) (f : PcSlot → PcSlot) :
    (s.modSlot k b f).spans = s.spans := rfl
@[simp] theorem State.modSlot_launches (s : State) (k : Nat) (b : Bool) (f : PcSlot → PcSlot) :
    (s.modSlot k b f).launches = s.launches := rfl
@[simp] theorem State.modSlot_cores (s : State) (k : Nat) (b : Bool) (f : PcSlot → PcSlot) :
    (s.modSlot k b f).cores = s.cores := rfl
@[simp] theorem State.modSlot_gens (s : State) (k : Nat) (b : Bool) (f : PcSlot → PcSlot) :
    (s.modSlot k b f).gens = s.gens := rfl
@[simp] theorem State.modSlot_ctxs (s : State) (k : Nat) (b : Bool) (f : PcSlot → PcSlot) :
    (s.modSlot k b f).ctxs = s.ctxs := rfl
@[simp] theorem State.modSlot_nextLaunch (s : State) (k : Nat) (b : Bool) (f : PcSlot → PcSlot) :
    (s.modSlot k b f).nextLaunch = s.nextLaunch := rfl
@[simp] theorem State.modSlot_nextSpan (s : State) (k : Nat) (b : Bool) (f : PcSlot → PcSlot) :
    (s.modSlot k b f).nextSpan = s.nextSpan := rfl
@[simp] theorem State.modSlot_nextCrew (s : State) (k : Nat) (b : Bool) (f : PcSlot → PcSlot) :
    (s.modSlot k b f).nextCrew = s.nextCrew := rfl
@[simp] theorem State.modSlot_subs (s : State) (k : Nat) (b : Bool) (f : PcSlot → PcSlot) :
    (s.modSlot k b f).subs = s.subs := rfl
@[simp] theorem State.modSlot_chunks (s : State) (k : Nat) (b : Bool) (f : PcSlot → PcSlot) :
    (s.modSlot k b f).chunks = s.chunks := rfl
@[simp] theorem State.modSlot_modCmds (s : State) (k : Nat) (b : Bool) (f : PcSlot → PcSlot) :
    (s.modSlot k b f).modCmds = s.modCmds := rfl
@[simp] theorem State.modSlot_conts (s : State) (k : Nat) (b : Bool) (f : PcSlot → PcSlot) :
    (s.modSlot k b f).conts = s.conts := rfl
@[simp] theorem State.modSlot_nextId (s : State) (k : Nat) (b : Bool) (f : PcSlot → PcSlot) :
    (s.modSlot k b f).nextId = s.nextId := rfl
@[simp] theorem State.modSlot_gov (s : State) (k : Nat) (b : Bool) (f : PcSlot → PcSlot) :
    (s.modSlot k b f).gov = s.gov := rfl
@[simp] theorem State.modSlot_xfers (s : State) (k : Nat) (b : Bool) (f : PcSlot → PcSlot) :
    (s.modSlot k b f).xfers = s.xfers := rfl
@[simp] theorem State.modSlot_nextXid (s : State) (k : Nat) (b : Bool) (f : PcSlot → PcSlot) :
    (s.modSlot k b f).nextXid = s.nextXid := rfl
@[simp] theorem State.modSlot_outq (s : State) (k : Nat) (b : Bool) (f : PcSlot → PcSlot) :
    (s.modSlot k b f).outq = s.outq := rfl
@[simp] theorem State.modSlot_links (s : State) (k : Nat) (b : Bool) (f : PcSlot → PcSlot) :
    (s.modSlot k b f).links = s.links := rfl
@[simp] theorem State.modSlot_relays (s : State) (k : Nat) (b : Bool) (f : PcSlot → PcSlot) :
    (s.modSlot k b f).relays = s.relays := rfl
@[simp] theorem State.modSlot_mcasts (s : State) (k : Nat) (b : Bool) (f : PcSlot → PcSlot) :
    (s.modSlot k b f).mcasts = s.mcasts := rfl
@[simp] theorem State.modSlot_flags (s : State) (k : Nat) (b : Bool) (f : PcSlot → PcSlot) :
    (s.modSlot k b f).flags = s.flags := rfl
@[simp] theorem State.modSlot_halves (s : State) (k : Nat) (b : Bool) (f : PcSlot → PcSlot) :
    (s.modSlot k b f).halves = s.halves := rfl
@[simp] theorem State.modSlot_groups (s : State) (k : Nat) (b : Bool) (f : PcSlot → PcSlot) :
    (s.modSlot k b f).groups = s.groups := rfl
@[simp] theorem State.modSlot_lr (s : State) (k : Nat) (b : Bool) (f : PcSlot → PcSlot) :
    (s.modSlot k b f).lr = s.lr := rfl
@[simp] theorem State.modSlot_waves (s : State) (k : Nat) (b : Bool) (f : PcSlot → PcSlot) :
    (s.modSlot k b f).waves = s.waves := rfl
@[simp] theorem State.modSlot_grps (s : State) (k : Nat) (b : Bool) (f : PcSlot → PcSlot) :
    (s.modSlot k b f).grps = s.grps := rfl
@[simp] theorem State.modSlot_fibreRec (s : State) (k : Nat) (b : Bool) (f : PcSlot → PcSlot) :
    (s.modSlot k b f).fibreRec = s.fibreRec := rfl
@[simp] theorem State.modSlot_theos (s : State) (k : Nat) (b : Bool) (f : PcSlot → PcSlot) :
    (s.modSlot k b f).theos = s.theos := rfl
@[simp] theorem State.modSlot_planes (s : State) (k : Nat) (b : Bool) (f : PcSlot → PcSlot) :
    (s.modSlot k b f).planes = s.planes := rfl
@[simp] theorem State.modSlot_heard (s : State) (k : Nat) (b : Bool) (f : PcSlot → PcSlot) :
    (s.modSlot k b f).heard = s.heard := rfl
@[simp] theorem State.modSlot_mods (s : State) (k : Nat) (b : Bool) (f : PcSlot → PcSlot) :
    (s.modSlot k b f).mods = s.mods := rfl
@[simp] theorem State.modSlot_host (s : State) (k : Nat) (b : Bool) (f : PcSlot → PcSlot) :
    (s.modSlot k b f).host = s.host := rfl
@[simp] theorem State.modSlot_waitRecs (s : State) (k : Nat) (b : Bool) (f : PcSlot → PcSlot) :
    (s.modSlot k b f).waitRecs = s.waitRecs := rfl
@[simp] theorem State.modSlot_warm (s : State) (k : Nat) (b : Bool) (f : PcSlot → PcSlot) :
    (s.modSlot k b f).warm = s.warm := rfl
@[simp] theorem State.modSlot_throttled (s : State) (k : Nat) (b : Bool) (f : PcSlot → PcSlot) :
    (s.modSlot k b f).throttled = s.throttled := rfl
@[simp] theorem State.modSlot_excursion (s : State) (k : Nat) (b : Bool) (f : PcSlot → PcSlot) :
    (s.modSlot k b f).excursion = s.excursion := rfl
@[simp] theorem State.modSlot_checkpoint (s : State) (k : Nat) (b : Bool) (f : PcSlot → PcSlot) :
    (s.modSlot k b f).checkpoint = s.checkpoint := rfl
@[simp] theorem State.modSlot_ckptFault (s : State) (k : Nat) (b : Bool) (f : PcSlot → PcSlot) :
    (s.modSlot k b f).ckptFault = s.ckptFault := rfl
@[simp] theorem State.modSlot_images (s : State) (k : Nat) (b : Bool) (f : PcSlot → PcSlot) :
    (s.modSlot k b f).images = s.images := rfl
@[simp] theorem State.modSlot_badSram (s : State) (k : Nat) (b : Bool) (f : PcSlot → PcSlot) :
    (s.modSlot k b f).badSram = s.badSram := rfl
@[simp] theorem State.modSlot_badRegs (s : State) (k : Nat) (b : Bool) (f : PcSlot → PcSlot) :
    (s.modSlot k b f).badRegs = s.badRegs := rfl
@[simp] theorem State.modSlot_badWords (s : State) (k : Nat) (b : Bool) (f : PcSlot → PcSlot) :
    (s.modSlot k b f).badWords = s.badWords := rfl
@[simp] theorem State.modSlot_time (s : State) (k : Nat) (b : Bool) (f : PcSlot → PcSlot) :
    (s.modSlot k b f).time = s.time := rfl
@[simp] theorem State.modSlot_nanos (s : State) (k : Nat) (b : Bool) (f : PcSlot → PcSlot) :
    (s.modSlot k b f).nanos = s.nanos := rfl
@[simp] theorem State.modSlot_due (s : State) (k : Nat) (b : Bool) (f : PcSlot → PcSlot) :
    (s.modSlot k b f).due = s.due := rfl
@[simp] theorem State.modSlot_focus (s : State) (k : Nat) (b : Bool) (f : PcSlot → PcSlot) :
    (s.modSlot k b f).focus = s.focus := rfl
@[simp] theorem State.modSlot_focusB (s : State) (k : Nat) (b : Bool) (f : PcSlot → PcSlot) :
    (s.modSlot k b f).focusB = s.focusB := rfl
@[simp] theorem State.modSlot_frees (s : State) (k : Nat) (b : Bool) (f : PcSlot → PcSlot) :
    (s.modSlot k b f).frees = s.frees := rfl
@[simp] theorem State.modSlot_choices (s : State) (k : Nat) (b : Bool) (f : PcSlot → PcSlot) :
    (s.modSlot k b f).choices = s.choices := rfl

/-! `State.modCore`. -/

@[simp] theorem State.modCore_mem (s : State) (c : Nat) (f : Core → Core) : (s.modCore c f).mem = s.mem := rfl
@[simp] theorem State.modCore_tags (s : State) (c : Nat) (f : Core → Core) : (s.modCore c f).tags = s.tags := rfl
@[simp] theorem State.modCore_vregs (s : State) (c : Nat) (f : Core → Core) : (s.modCore c f).vregs = s.vregs := rfl
@[simp] theorem State.modCore_sregs (s : State) (c : Nat) (f : Core → Core) : (s.modCore c f).sregs = s.sregs := rfl
@[simp] theorem State.modCore_pregs (s : State) (c : Nat) (f : Core → Core) : (s.modCore c f).pregs = s.pregs := rfl
@[simp] theorem State.modCore_acc (s : State) (c : Nat) (f : Core → Core) : (s.modCore c f).acc = s.acc := rfl
@[simp] theorem State.modCore_coreUnits (s : State) (c : Nat) (f : Core → Core) :
    (s.modCore c f).coreUnits = s.coreUnits := rfl
@[simp] theorem State.modCore_sliceUnits (s : State) (c : Nat) (f : Core → Core) :
    (s.modCore c f).sliceUnits = s.sliceUnits := rfl
@[simp] theorem State.modCore_sheaves (s : State) (c : Nat) (f : Core → Core) :
    (s.modCore c f).sheaves = s.sheaves := rfl
@[simp] theorem State.modCore_crews (s : State) (c : Nat) (f : Core → Core) : (s.modCore c f).crews = s.crews := rfl
@[simp] theorem State.modCore_spans (s : State) (c : Nat) (f : Core → Core) : (s.modCore c f).spans = s.spans := rfl
@[simp] theorem State.modCore_launches (s : State) (c : Nat) (f : Core → Core) :
    (s.modCore c f).launches = s.launches := rfl
@[simp] theorem State.modCore_cores (s : State) (c : Nat) (f : Core → Core) :
    (s.modCore c f).cores = Tab.upd Core.init s.cores c f := rfl
@[simp] theorem State.modCore_gens (s : State) (c : Nat) (f : Core → Core) : (s.modCore c f).gens = s.gens := rfl
@[simp] theorem State.modCore_ctxs (s : State) (c : Nat) (f : Core → Core) : (s.modCore c f).ctxs = s.ctxs := rfl
@[simp] theorem State.modCore_nextLaunch (s : State) (c : Nat) (f : Core → Core) :
    (s.modCore c f).nextLaunch = s.nextLaunch := rfl
@[simp] theorem State.modCore_nextSpan (s : State) (c : Nat) (f : Core → Core) :
    (s.modCore c f).nextSpan = s.nextSpan := rfl
@[simp] theorem State.modCore_nextCrew (s : State) (c : Nat) (f : Core → Core) :
    (s.modCore c f).nextCrew = s.nextCrew := rfl
@[simp] theorem State.modCore_subs (s : State) (c : Nat) (f : Core → Core) : (s.modCore c f).subs = s.subs := rfl
@[simp] theorem State.modCore_chunks (s : State) (c : Nat) (f : Core → Core) :
    (s.modCore c f).chunks = s.chunks := rfl
@[simp] theorem State.modCore_modCmds (s : State) (c : Nat) (f : Core → Core) :
    (s.modCore c f).modCmds = s.modCmds := rfl
@[simp] theorem State.modCore_conts (s : State) (c : Nat) (f : Core → Core) : (s.modCore c f).conts = s.conts := rfl
@[simp] theorem State.modCore_nextId (s : State) (c : Nat) (f : Core → Core) :
    (s.modCore c f).nextId = s.nextId := rfl
@[simp] theorem State.modCore_gov (s : State) (c : Nat) (f : Core → Core) : (s.modCore c f).gov = s.gov := rfl
@[simp] theorem State.modCore_xfers (s : State) (c : Nat) (f : Core → Core) : (s.modCore c f).xfers = s.xfers := rfl
@[simp] theorem State.modCore_nextXid (s : State) (c : Nat) (f : Core → Core) :
    (s.modCore c f).nextXid = s.nextXid := rfl
@[simp] theorem State.modCore_outq (s : State) (c : Nat) (f : Core → Core) : (s.modCore c f).outq = s.outq := rfl
@[simp] theorem State.modCore_links (s : State) (c : Nat) (f : Core → Core) : (s.modCore c f).links = s.links := rfl
@[simp] theorem State.modCore_relays (s : State) (c : Nat) (f : Core → Core) :
    (s.modCore c f).relays = s.relays := rfl
@[simp] theorem State.modCore_mcasts (s : State) (c : Nat) (f : Core → Core) :
    (s.modCore c f).mcasts = s.mcasts := rfl
@[simp] theorem State.modCore_flags (s : State) (c : Nat) (f : Core → Core) : (s.modCore c f).flags = s.flags := rfl
@[simp] theorem State.modCore_halves (s : State) (c : Nat) (f : Core → Core) :
    (s.modCore c f).halves = s.halves := rfl
@[simp] theorem State.modCore_groups (s : State) (c : Nat) (f : Core → Core) :
    (s.modCore c f).groups = s.groups := rfl
@[simp] theorem State.modCore_lr (s : State) (c : Nat) (f : Core → Core) : (s.modCore c f).lr = s.lr := rfl
@[simp] theorem State.modCore_waves (s : State) (c : Nat) (f : Core → Core) : (s.modCore c f).waves = s.waves := rfl
@[simp] theorem State.modCore_grps (s : State) (c : Nat) (f : Core → Core) : (s.modCore c f).grps = s.grps := rfl
@[simp] theorem State.modCore_fibreRec (s : State) (c : Nat) (f : Core → Core) :
    (s.modCore c f).fibreRec = s.fibreRec := rfl
@[simp] theorem State.modCore_theos (s : State) (c : Nat) (f : Core → Core) : (s.modCore c f).theos = s.theos := rfl
@[simp] theorem State.modCore_planes (s : State) (c : Nat) (f : Core → Core) :
    (s.modCore c f).planes = s.planes := rfl
@[simp] theorem State.modCore_heard (s : State) (c : Nat) (f : Core → Core) :
    (s.modCore c f).heard = s.heard := rfl
@[simp] theorem State.modCore_mods (s : State) (c : Nat) (f : Core → Core) : (s.modCore c f).mods = s.mods := rfl
@[simp] theorem State.modCore_host (s : State) (c : Nat) (f : Core → Core) : (s.modCore c f).host = s.host := rfl
@[simp] theorem State.modCore_waitRecs (s : State) (c : Nat) (f : Core → Core) :
    (s.modCore c f).waitRecs = s.waitRecs := rfl
@[simp] theorem State.modCore_warm (s : State) (c : Nat) (f : Core → Core) : (s.modCore c f).warm = s.warm := rfl
@[simp] theorem State.modCore_throttled (s : State) (c : Nat) (f : Core → Core) :
    (s.modCore c f).throttled = s.throttled := rfl
@[simp] theorem State.modCore_excursion (s : State) (c : Nat) (f : Core → Core) :
    (s.modCore c f).excursion = s.excursion := rfl
@[simp] theorem State.modCore_checkpoint (s : State) (c : Nat) (f : Core → Core) :
    (s.modCore c f).checkpoint = s.checkpoint := rfl
@[simp] theorem State.modCore_ckptFault (s : State) (c : Nat) (f : Core → Core) :
    (s.modCore c f).ckptFault = s.ckptFault := rfl
@[simp] theorem State.modCore_images (s : State) (c : Nat) (f : Core → Core) : (s.modCore c f).images = s.images := rfl
@[simp] theorem State.modCore_badSram (s : State) (c : Nat) (f : Core → Core) :
    (s.modCore c f).badSram = s.badSram := rfl
@[simp] theorem State.modCore_badRegs (s : State) (c : Nat) (f : Core → Core) :
    (s.modCore c f).badRegs = s.badRegs := rfl
@[simp] theorem State.modCore_badWords (s : State) (c : Nat) (f : Core → Core) :
    (s.modCore c f).badWords = s.badWords := rfl
@[simp] theorem State.modCore_time (s : State) (c : Nat) (f : Core → Core) : (s.modCore c f).time = s.time := rfl
@[simp] theorem State.modCore_nanos (s : State) (c : Nat) (f : Core → Core) : (s.modCore c f).nanos = s.nanos := rfl
@[simp] theorem State.modCore_due (s : State) (c : Nat) (f : Core → Core) : (s.modCore c f).due = s.due := rfl
@[simp] theorem State.modCore_focus (s : State) (c : Nat) (f : Core → Core) : (s.modCore c f).focus = s.focus := rfl
@[simp] theorem State.modCore_focusB (s : State) (c : Nat) (f : Core → Core) :
    (s.modCore c f).focusB = s.focusB := rfl
@[simp] theorem State.modCore_frees (s : State) (c : Nat) (f : Core → Core) : (s.modCore c f).frees = s.frees := rfl
@[simp] theorem State.modCore_choices (s : State) (c : Nat) (f : Core → Core) :
    (s.modCore c f).choices = s.choices := rfl

/-! `State.modCrew`. -/

@[simp] theorem State.modCrew_mem (s : State) (n : Nat) (f : Crew → Crew) : (s.modCrew n f).mem = s.mem := rfl
@[simp] theorem State.modCrew_tags (s : State) (n : Nat) (f : Crew → Crew) : (s.modCrew n f).tags = s.tags := rfl
@[simp] theorem State.modCrew_vregs (s : State) (n : Nat) (f : Crew → Crew) : (s.modCrew n f).vregs = s.vregs := rfl
@[simp] theorem State.modCrew_sregs (s : State) (n : Nat) (f : Crew → Crew) : (s.modCrew n f).sregs = s.sregs := rfl
@[simp] theorem State.modCrew_pregs (s : State) (n : Nat) (f : Crew → Crew) : (s.modCrew n f).pregs = s.pregs := rfl
@[simp] theorem State.modCrew_acc (s : State) (n : Nat) (f : Crew → Crew) : (s.modCrew n f).acc = s.acc := rfl
@[simp] theorem State.modCrew_coreUnits (s : State) (n : Nat) (f : Crew → Crew) :
    (s.modCrew n f).coreUnits = s.coreUnits := rfl
@[simp] theorem State.modCrew_sliceUnits (s : State) (n : Nat) (f : Crew → Crew) :
    (s.modCrew n f).sliceUnits = s.sliceUnits := rfl
@[simp] theorem State.modCrew_sheaves (s : State) (n : Nat) (f : Crew → Crew) :
    (s.modCrew n f).sheaves = s.sheaves := rfl
@[simp] theorem State.modCrew_crews (s : State) (n : Nat) (f : Crew → Crew) :
    (s.modCrew n f).crews = Tab.mod s.crews n f := rfl
@[simp] theorem State.modCrew_spans (s : State) (n : Nat) (f : Crew → Crew) : (s.modCrew n f).spans = s.spans := rfl
@[simp] theorem State.modCrew_launches (s : State) (n : Nat) (f : Crew → Crew) :
    (s.modCrew n f).launches = s.launches := rfl
@[simp] theorem State.modCrew_cores (s : State) (n : Nat) (f : Crew → Crew) : (s.modCrew n f).cores = s.cores := rfl
@[simp] theorem State.modCrew_gens (s : State) (n : Nat) (f : Crew → Crew) : (s.modCrew n f).gens = s.gens := rfl
@[simp] theorem State.modCrew_ctxs (s : State) (n : Nat) (f : Crew → Crew) : (s.modCrew n f).ctxs = s.ctxs := rfl
@[simp] theorem State.modCrew_nextLaunch (s : State) (n : Nat) (f : Crew → Crew) :
    (s.modCrew n f).nextLaunch = s.nextLaunch := rfl
@[simp] theorem State.modCrew_nextSpan (s : State) (n : Nat) (f : Crew → Crew) :
    (s.modCrew n f).nextSpan = s.nextSpan := rfl
@[simp] theorem State.modCrew_nextCrew (s : State) (n : Nat) (f : Crew → Crew) :
    (s.modCrew n f).nextCrew = s.nextCrew := rfl
@[simp] theorem State.modCrew_subs (s : State) (n : Nat) (f : Crew → Crew) : (s.modCrew n f).subs = s.subs := rfl
@[simp] theorem State.modCrew_chunks (s : State) (n : Nat) (f : Crew → Crew) :
    (s.modCrew n f).chunks = s.chunks := rfl
@[simp] theorem State.modCrew_modCmds (s : State) (n : Nat) (f : Crew → Crew) :
    (s.modCrew n f).modCmds = s.modCmds := rfl
@[simp] theorem State.modCrew_conts (s : State) (n : Nat) (f : Crew → Crew) : (s.modCrew n f).conts = s.conts := rfl
@[simp] theorem State.modCrew_nextId (s : State) (n : Nat) (f : Crew → Crew) :
    (s.modCrew n f).nextId = s.nextId := rfl
@[simp] theorem State.modCrew_gov (s : State) (n : Nat) (f : Crew → Crew) : (s.modCrew n f).gov = s.gov := rfl
@[simp] theorem State.modCrew_xfers (s : State) (n : Nat) (f : Crew → Crew) : (s.modCrew n f).xfers = s.xfers := rfl
@[simp] theorem State.modCrew_nextXid (s : State) (n : Nat) (f : Crew → Crew) :
    (s.modCrew n f).nextXid = s.nextXid := rfl
@[simp] theorem State.modCrew_outq (s : State) (n : Nat) (f : Crew → Crew) : (s.modCrew n f).outq = s.outq := rfl
@[simp] theorem State.modCrew_links (s : State) (n : Nat) (f : Crew → Crew) : (s.modCrew n f).links = s.links := rfl
@[simp] theorem State.modCrew_relays (s : State) (n : Nat) (f : Crew → Crew) :
    (s.modCrew n f).relays = s.relays := rfl
@[simp] theorem State.modCrew_mcasts (s : State) (n : Nat) (f : Crew → Crew) :
    (s.modCrew n f).mcasts = s.mcasts := rfl
@[simp] theorem State.modCrew_flags (s : State) (n : Nat) (f : Crew → Crew) : (s.modCrew n f).flags = s.flags := rfl
@[simp] theorem State.modCrew_halves (s : State) (n : Nat) (f : Crew → Crew) :
    (s.modCrew n f).halves = s.halves := rfl
@[simp] theorem State.modCrew_groups (s : State) (n : Nat) (f : Crew → Crew) :
    (s.modCrew n f).groups = s.groups := rfl
@[simp] theorem State.modCrew_lr (s : State) (n : Nat) (f : Crew → Crew) : (s.modCrew n f).lr = s.lr := rfl
@[simp] theorem State.modCrew_waves (s : State) (n : Nat) (f : Crew → Crew) : (s.modCrew n f).waves = s.waves := rfl
@[simp] theorem State.modCrew_grps (s : State) (n : Nat) (f : Crew → Crew) : (s.modCrew n f).grps = s.grps := rfl
@[simp] theorem State.modCrew_fibreRec (s : State) (n : Nat) (f : Crew → Crew) :
    (s.modCrew n f).fibreRec = s.fibreRec := rfl
@[simp] theorem State.modCrew_theos (s : State) (n : Nat) (f : Crew → Crew) : (s.modCrew n f).theos = s.theos := rfl
@[simp] theorem State.modCrew_planes (s : State) (n : Nat) (f : Crew → Crew) :
    (s.modCrew n f).planes = s.planes := rfl
@[simp] theorem State.modCrew_heard (s : State) (n : Nat) (f : Crew → Crew) :
    (s.modCrew n f).heard = s.heard := rfl
@[simp] theorem State.modCrew_mods (s : State) (n : Nat) (f : Crew → Crew) : (s.modCrew n f).mods = s.mods := rfl
@[simp] theorem State.modCrew_host (s : State) (n : Nat) (f : Crew → Crew) : (s.modCrew n f).host = s.host := rfl
@[simp] theorem State.modCrew_waitRecs (s : State) (n : Nat) (f : Crew → Crew) :
    (s.modCrew n f).waitRecs = s.waitRecs := rfl
@[simp] theorem State.modCrew_warm (s : State) (n : Nat) (f : Crew → Crew) : (s.modCrew n f).warm = s.warm := rfl
@[simp] theorem State.modCrew_throttled (s : State) (n : Nat) (f : Crew → Crew) :
    (s.modCrew n f).throttled = s.throttled := rfl
@[simp] theorem State.modCrew_excursion (s : State) (n : Nat) (f : Crew → Crew) :
    (s.modCrew n f).excursion = s.excursion := rfl
@[simp] theorem State.modCrew_checkpoint (s : State) (n : Nat) (f : Crew → Crew) :
    (s.modCrew n f).checkpoint = s.checkpoint := rfl
@[simp] theorem State.modCrew_ckptFault (s : State) (n : Nat) (f : Crew → Crew) :
    (s.modCrew n f).ckptFault = s.ckptFault := rfl
@[simp] theorem State.modCrew_images (s : State) (n : Nat) (f : Crew → Crew) : (s.modCrew n f).images = s.images := rfl
@[simp] theorem State.modCrew_badSram (s : State) (n : Nat) (f : Crew → Crew) :
    (s.modCrew n f).badSram = s.badSram := rfl
@[simp] theorem State.modCrew_badRegs (s : State) (n : Nat) (f : Crew → Crew) :
    (s.modCrew n f).badRegs = s.badRegs := rfl
@[simp] theorem State.modCrew_badWords (s : State) (n : Nat) (f : Crew → Crew) :
    (s.modCrew n f).badWords = s.badWords := rfl
@[simp] theorem State.modCrew_time (s : State) (n : Nat) (f : Crew → Crew) : (s.modCrew n f).time = s.time := rfl
@[simp] theorem State.modCrew_nanos (s : State) (n : Nat) (f : Crew → Crew) : (s.modCrew n f).nanos = s.nanos := rfl
@[simp] theorem State.modCrew_due (s : State) (n : Nat) (f : Crew → Crew) : (s.modCrew n f).due = s.due := rfl
@[simp] theorem State.modCrew_focus (s : State) (n : Nat) (f : Crew → Crew) : (s.modCrew n f).focus = s.focus := rfl
@[simp] theorem State.modCrew_focusB (s : State) (n : Nat) (f : Crew → Crew) :
    (s.modCrew n f).focusB = s.focusB := rfl
@[simp] theorem State.modCrew_frees (s : State) (n : Nat) (f : Crew → Crew) : (s.modCrew n f).frees = s.frees := rfl
@[simp] theorem State.modCrew_choices (s : State) (n : Nat) (f : Crew → Crew) :
    (s.modCrew n f).choices = s.choices := rfl

/-! `State.modSpan`. -/

@[simp] theorem State.modSpan_mem (s : State) (n : Nat) (f : Span → Span) : (s.modSpan n f).mem = s.mem := rfl
@[simp] theorem State.modSpan_tags (s : State) (n : Nat) (f : Span → Span) : (s.modSpan n f).tags = s.tags := rfl
@[simp] theorem State.modSpan_vregs (s : State) (n : Nat) (f : Span → Span) : (s.modSpan n f).vregs = s.vregs := rfl
@[simp] theorem State.modSpan_sregs (s : State) (n : Nat) (f : Span → Span) : (s.modSpan n f).sregs = s.sregs := rfl
@[simp] theorem State.modSpan_pregs (s : State) (n : Nat) (f : Span → Span) : (s.modSpan n f).pregs = s.pregs := rfl
@[simp] theorem State.modSpan_acc (s : State) (n : Nat) (f : Span → Span) : (s.modSpan n f).acc = s.acc := rfl
@[simp] theorem State.modSpan_coreUnits (s : State) (n : Nat) (f : Span → Span) :
    (s.modSpan n f).coreUnits = s.coreUnits := rfl
@[simp] theorem State.modSpan_sliceUnits (s : State) (n : Nat) (f : Span → Span) :
    (s.modSpan n f).sliceUnits = s.sliceUnits := rfl
@[simp] theorem State.modSpan_sheaves (s : State) (n : Nat) (f : Span → Span) :
    (s.modSpan n f).sheaves = s.sheaves := rfl
@[simp] theorem State.modSpan_crews (s : State) (n : Nat) (f : Span → Span) : (s.modSpan n f).crews = s.crews := rfl
@[simp] theorem State.modSpan_spans (s : State) (n : Nat) (f : Span → Span) :
    (s.modSpan n f).spans = Tab.mod s.spans n f := rfl
@[simp] theorem State.modSpan_launches (s : State) (n : Nat) (f : Span → Span) :
    (s.modSpan n f).launches = s.launches := rfl
@[simp] theorem State.modSpan_cores (s : State) (n : Nat) (f : Span → Span) : (s.modSpan n f).cores = s.cores := rfl
@[simp] theorem State.modSpan_gens (s : State) (n : Nat) (f : Span → Span) : (s.modSpan n f).gens = s.gens := rfl
@[simp] theorem State.modSpan_ctxs (s : State) (n : Nat) (f : Span → Span) : (s.modSpan n f).ctxs = s.ctxs := rfl
@[simp] theorem State.modSpan_nextLaunch (s : State) (n : Nat) (f : Span → Span) :
    (s.modSpan n f).nextLaunch = s.nextLaunch := rfl
@[simp] theorem State.modSpan_nextSpan (s : State) (n : Nat) (f : Span → Span) :
    (s.modSpan n f).nextSpan = s.nextSpan := rfl
@[simp] theorem State.modSpan_nextCrew (s : State) (n : Nat) (f : Span → Span) :
    (s.modSpan n f).nextCrew = s.nextCrew := rfl
@[simp] theorem State.modSpan_subs (s : State) (n : Nat) (f : Span → Span) : (s.modSpan n f).subs = s.subs := rfl
@[simp] theorem State.modSpan_chunks (s : State) (n : Nat) (f : Span → Span) :
    (s.modSpan n f).chunks = s.chunks := rfl
@[simp] theorem State.modSpan_modCmds (s : State) (n : Nat) (f : Span → Span) :
    (s.modSpan n f).modCmds = s.modCmds := rfl
@[simp] theorem State.modSpan_conts (s : State) (n : Nat) (f : Span → Span) : (s.modSpan n f).conts = s.conts := rfl
@[simp] theorem State.modSpan_nextId (s : State) (n : Nat) (f : Span → Span) :
    (s.modSpan n f).nextId = s.nextId := rfl
@[simp] theorem State.modSpan_gov (s : State) (n : Nat) (f : Span → Span) : (s.modSpan n f).gov = s.gov := rfl
@[simp] theorem State.modSpan_xfers (s : State) (n : Nat) (f : Span → Span) : (s.modSpan n f).xfers = s.xfers := rfl
@[simp] theorem State.modSpan_nextXid (s : State) (n : Nat) (f : Span → Span) :
    (s.modSpan n f).nextXid = s.nextXid := rfl
@[simp] theorem State.modSpan_outq (s : State) (n : Nat) (f : Span → Span) : (s.modSpan n f).outq = s.outq := rfl
@[simp] theorem State.modSpan_links (s : State) (n : Nat) (f : Span → Span) : (s.modSpan n f).links = s.links := rfl
@[simp] theorem State.modSpan_relays (s : State) (n : Nat) (f : Span → Span) :
    (s.modSpan n f).relays = s.relays := rfl
@[simp] theorem State.modSpan_mcasts (s : State) (n : Nat) (f : Span → Span) :
    (s.modSpan n f).mcasts = s.mcasts := rfl
@[simp] theorem State.modSpan_flags (s : State) (n : Nat) (f : Span → Span) : (s.modSpan n f).flags = s.flags := rfl
@[simp] theorem State.modSpan_halves (s : State) (n : Nat) (f : Span → Span) :
    (s.modSpan n f).halves = s.halves := rfl
@[simp] theorem State.modSpan_groups (s : State) (n : Nat) (f : Span → Span) :
    (s.modSpan n f).groups = s.groups := rfl
@[simp] theorem State.modSpan_lr (s : State) (n : Nat) (f : Span → Span) : (s.modSpan n f).lr = s.lr := rfl
@[simp] theorem State.modSpan_waves (s : State) (n : Nat) (f : Span → Span) : (s.modSpan n f).waves = s.waves := rfl
@[simp] theorem State.modSpan_grps (s : State) (n : Nat) (f : Span → Span) : (s.modSpan n f).grps = s.grps := rfl
@[simp] theorem State.modSpan_fibreRec (s : State) (n : Nat) (f : Span → Span) :
    (s.modSpan n f).fibreRec = s.fibreRec := rfl
@[simp] theorem State.modSpan_theos (s : State) (n : Nat) (f : Span → Span) : (s.modSpan n f).theos = s.theos := rfl
@[simp] theorem State.modSpan_planes (s : State) (n : Nat) (f : Span → Span) :
    (s.modSpan n f).planes = s.planes := rfl
@[simp] theorem State.modSpan_heard (s : State) (n : Nat) (f : Span → Span) :
    (s.modSpan n f).heard = s.heard := rfl
@[simp] theorem State.modSpan_mods (s : State) (n : Nat) (f : Span → Span) : (s.modSpan n f).mods = s.mods := rfl
@[simp] theorem State.modSpan_host (s : State) (n : Nat) (f : Span → Span) : (s.modSpan n f).host = s.host := rfl
@[simp] theorem State.modSpan_waitRecs (s : State) (n : Nat) (f : Span → Span) :
    (s.modSpan n f).waitRecs = s.waitRecs := rfl
@[simp] theorem State.modSpan_warm (s : State) (n : Nat) (f : Span → Span) : (s.modSpan n f).warm = s.warm := rfl
@[simp] theorem State.modSpan_throttled (s : State) (n : Nat) (f : Span → Span) :
    (s.modSpan n f).throttled = s.throttled := rfl
@[simp] theorem State.modSpan_excursion (s : State) (n : Nat) (f : Span → Span) :
    (s.modSpan n f).excursion = s.excursion := rfl
@[simp] theorem State.modSpan_checkpoint (s : State) (n : Nat) (f : Span → Span) :
    (s.modSpan n f).checkpoint = s.checkpoint := rfl
@[simp] theorem State.modSpan_ckptFault (s : State) (n : Nat) (f : Span → Span) :
    (s.modSpan n f).ckptFault = s.ckptFault := rfl
@[simp] theorem State.modSpan_images (s : State) (n : Nat) (f : Span → Span) : (s.modSpan n f).images = s.images := rfl
@[simp] theorem State.modSpan_badSram (s : State) (n : Nat) (f : Span → Span) :
    (s.modSpan n f).badSram = s.badSram := rfl
@[simp] theorem State.modSpan_badRegs (s : State) (n : Nat) (f : Span → Span) :
    (s.modSpan n f).badRegs = s.badRegs := rfl
@[simp] theorem State.modSpan_badWords (s : State) (n : Nat) (f : Span → Span) :
    (s.modSpan n f).badWords = s.badWords := rfl
@[simp] theorem State.modSpan_time (s : State) (n : Nat) (f : Span → Span) : (s.modSpan n f).time = s.time := rfl
@[simp] theorem State.modSpan_nanos (s : State) (n : Nat) (f : Span → Span) : (s.modSpan n f).nanos = s.nanos := rfl
@[simp] theorem State.modSpan_due (s : State) (n : Nat) (f : Span → Span) : (s.modSpan n f).due = s.due := rfl
@[simp] theorem State.modSpan_focus (s : State) (n : Nat) (f : Span → Span) : (s.modSpan n f).focus = s.focus := rfl
@[simp] theorem State.modSpan_focusB (s : State) (n : Nat) (f : Span → Span) :
    (s.modSpan n f).focusB = s.focusB := rfl
@[simp] theorem State.modSpan_frees (s : State) (n : Nat) (f : Span → Span) : (s.modSpan n f).frees = s.frees := rfl
@[simp] theorem State.modSpan_choices (s : State) (n : Nat) (f : Span → Span) :
    (s.modSpan n f).choices = s.choices := rfl

/-! `State.modLaunch`. -/

@[simp] theorem State.modLaunch_mem (s : State) (n : Nat) (f : Launch → Launch) : (s.modLaunch n f).mem = s.mem := rfl
@[simp] theorem State.modLaunch_tags (s : State) (n : Nat) (f : Launch → Launch) :
    (s.modLaunch n f).tags = s.tags := rfl
@[simp] theorem State.modLaunch_vregs (s : State) (n : Nat) (f : Launch → Launch) :
    (s.modLaunch n f).vregs = s.vregs := rfl
@[simp] theorem State.modLaunch_sregs (s : State) (n : Nat) (f : Launch → Launch) :
    (s.modLaunch n f).sregs = s.sregs := rfl
@[simp] theorem State.modLaunch_pregs (s : State) (n : Nat) (f : Launch → Launch) :
    (s.modLaunch n f).pregs = s.pregs := rfl
@[simp] theorem State.modLaunch_acc (s : State) (n : Nat) (f : Launch → Launch) : (s.modLaunch n f).acc = s.acc := rfl
@[simp] theorem State.modLaunch_coreUnits (s : State) (n : Nat) (f : Launch → Launch) :
    (s.modLaunch n f).coreUnits = s.coreUnits := rfl
@[simp] theorem State.modLaunch_sliceUnits (s : State) (n : Nat) (f : Launch → Launch) :
    (s.modLaunch n f).sliceUnits = s.sliceUnits := rfl
@[simp] theorem State.modLaunch_sheaves (s : State) (n : Nat) (f : Launch → Launch) :
    (s.modLaunch n f).sheaves = s.sheaves := rfl
@[simp] theorem State.modLaunch_crews (s : State) (n : Nat) (f : Launch → Launch) :
    (s.modLaunch n f).crews = s.crews := rfl
@[simp] theorem State.modLaunch_spans (s : State) (n : Nat) (f : Launch → Launch) :
    (s.modLaunch n f).spans = s.spans := rfl
@[simp] theorem State.modLaunch_launches (s : State) (n : Nat) (f : Launch → Launch) :
    (s.modLaunch n f).launches = Tab.mod s.launches n f := rfl
@[simp] theorem State.modLaunch_cores (s : State) (n : Nat) (f : Launch → Launch) :
    (s.modLaunch n f).cores = s.cores := rfl
@[simp] theorem State.modLaunch_gens (s : State) (n : Nat) (f : Launch → Launch) :
    (s.modLaunch n f).gens = s.gens := rfl
@[simp] theorem State.modLaunch_ctxs (s : State) (n : Nat) (f : Launch → Launch) :
    (s.modLaunch n f).ctxs = s.ctxs := rfl
@[simp] theorem State.modLaunch_nextLaunch (s : State) (n : Nat) (f : Launch → Launch) :
    (s.modLaunch n f).nextLaunch = s.nextLaunch := rfl
@[simp] theorem State.modLaunch_nextSpan (s : State) (n : Nat) (f : Launch → Launch) :
    (s.modLaunch n f).nextSpan = s.nextSpan := rfl
@[simp] theorem State.modLaunch_nextCrew (s : State) (n : Nat) (f : Launch → Launch) :
    (s.modLaunch n f).nextCrew = s.nextCrew := rfl
@[simp] theorem State.modLaunch_subs (s : State) (n : Nat) (f : Launch → Launch) :
    (s.modLaunch n f).subs = s.subs := rfl
@[simp] theorem State.modLaunch_chunks (s : State) (n : Nat) (f : Launch → Launch) :
    (s.modLaunch n f).chunks = s.chunks := rfl
@[simp] theorem State.modLaunch_modCmds (s : State) (n : Nat) (f : Launch → Launch) :
    (s.modLaunch n f).modCmds = s.modCmds := rfl
@[simp] theorem State.modLaunch_conts (s : State) (n : Nat) (f : Launch → Launch) :
    (s.modLaunch n f).conts = s.conts := rfl
@[simp] theorem State.modLaunch_nextId (s : State) (n : Nat) (f : Launch → Launch) :
    (s.modLaunch n f).nextId = s.nextId := rfl
@[simp] theorem State.modLaunch_gov (s : State) (n : Nat) (f : Launch → Launch) : (s.modLaunch n f).gov = s.gov := rfl
@[simp] theorem State.modLaunch_xfers (s : State) (n : Nat) (f : Launch → Launch) :
    (s.modLaunch n f).xfers = s.xfers := rfl
@[simp] theorem State.modLaunch_nextXid (s : State) (n : Nat) (f : Launch → Launch) :
    (s.modLaunch n f).nextXid = s.nextXid := rfl
@[simp] theorem State.modLaunch_outq (s : State) (n : Nat) (f : Launch → Launch) :
    (s.modLaunch n f).outq = s.outq := rfl
@[simp] theorem State.modLaunch_links (s : State) (n : Nat) (f : Launch → Launch) :
    (s.modLaunch n f).links = s.links := rfl
@[simp] theorem State.modLaunch_relays (s : State) (n : Nat) (f : Launch → Launch) :
    (s.modLaunch n f).relays = s.relays := rfl
@[simp] theorem State.modLaunch_mcasts (s : State) (n : Nat) (f : Launch → Launch) :
    (s.modLaunch n f).mcasts = s.mcasts := rfl
@[simp] theorem State.modLaunch_flags (s : State) (n : Nat) (f : Launch → Launch) :
    (s.modLaunch n f).flags = s.flags := rfl
@[simp] theorem State.modLaunch_halves (s : State) (n : Nat) (f : Launch → Launch) :
    (s.modLaunch n f).halves = s.halves := rfl
@[simp] theorem State.modLaunch_groups (s : State) (n : Nat) (f : Launch → Launch) :
    (s.modLaunch n f).groups = s.groups := rfl
@[simp] theorem State.modLaunch_lr (s : State) (n : Nat) (f : Launch → Launch) : (s.modLaunch n f).lr = s.lr := rfl
@[simp] theorem State.modLaunch_waves (s : State) (n : Nat) (f : Launch → Launch) :
    (s.modLaunch n f).waves = s.waves := rfl
@[simp] theorem State.modLaunch_grps (s : State) (n : Nat) (f : Launch → Launch) :
    (s.modLaunch n f).grps = s.grps := rfl
@[simp] theorem State.modLaunch_fibreRec (s : State) (n : Nat) (f : Launch → Launch) :
    (s.modLaunch n f).fibreRec = s.fibreRec := rfl
@[simp] theorem State.modLaunch_theos (s : State) (n : Nat) (f : Launch → Launch) :
    (s.modLaunch n f).theos = s.theos := rfl
@[simp] theorem State.modLaunch_planes (s : State) (n : Nat) (f : Launch → Launch) :
    (s.modLaunch n f).planes = s.planes := rfl
@[simp] theorem State.modLaunch_heard (s : State) (n : Nat) (f : Launch → Launch) :
    (s.modLaunch n f).heard = s.heard := rfl
@[simp] theorem State.modLaunch_mods (s : State) (n : Nat) (f : Launch → Launch) :
    (s.modLaunch n f).mods = s.mods := rfl
@[simp] theorem State.modLaunch_host (s : State) (n : Nat) (f : Launch → Launch) :
    (s.modLaunch n f).host = s.host := rfl
@[simp] theorem State.modLaunch_waitRecs (s : State) (n : Nat) (f : Launch → Launch) :
    (s.modLaunch n f).waitRecs = s.waitRecs := rfl
@[simp] theorem State.modLaunch_warm (s : State) (n : Nat) (f : Launch → Launch) :
    (s.modLaunch n f).warm = s.warm := rfl
@[simp] theorem State.modLaunch_throttled (s : State) (n : Nat) (f : Launch → Launch) :
    (s.modLaunch n f).throttled = s.throttled := rfl
@[simp] theorem State.modLaunch_excursion (s : State) (n : Nat) (f : Launch → Launch) :
    (s.modLaunch n f).excursion = s.excursion := rfl
@[simp] theorem State.modLaunch_checkpoint (s : State) (n : Nat) (f : Launch → Launch) :
    (s.modLaunch n f).checkpoint = s.checkpoint := rfl
@[simp] theorem State.modLaunch_ckptFault (s : State) (n : Nat) (f : Launch → Launch) :
    (s.modLaunch n f).ckptFault = s.ckptFault := rfl
@[simp] theorem State.modLaunch_images (s : State) (n : Nat) (f : Launch → Launch) :
    (s.modLaunch n f).images = s.images := rfl
@[simp] theorem State.modLaunch_badSram (s : State) (n : Nat) (f : Launch → Launch) :
    (s.modLaunch n f).badSram = s.badSram := rfl
@[simp] theorem State.modLaunch_badRegs (s : State) (n : Nat) (f : Launch → Launch) :
    (s.modLaunch n f).badRegs = s.badRegs := rfl
@[simp] theorem State.modLaunch_badWords (s : State) (n : Nat) (f : Launch → Launch) :
    (s.modLaunch n f).badWords = s.badWords := rfl
@[simp] theorem State.modLaunch_time (s : State) (n : Nat) (f : Launch → Launch) :
    (s.modLaunch n f).time = s.time := rfl
@[simp] theorem State.modLaunch_nanos (s : State) (n : Nat) (f : Launch → Launch) :
    (s.modLaunch n f).nanos = s.nanos := rfl
@[simp] theorem State.modLaunch_due (s : State) (n : Nat) (f : Launch → Launch) : (s.modLaunch n f).due = s.due := rfl
@[simp] theorem State.modLaunch_focus (s : State) (n : Nat) (f : Launch → Launch) :
    (s.modLaunch n f).focus = s.focus := rfl
@[simp] theorem State.modLaunch_focusB (s : State) (n : Nat) (f : Launch → Launch) :
    (s.modLaunch n f).focusB = s.focusB := rfl
@[simp] theorem State.modLaunch_frees (s : State) (n : Nat) (f : Launch → Launch) :
    (s.modLaunch n f).frees = s.frees := rfl
@[simp] theorem State.modLaunch_choices (s : State) (n : Nat) (f : Launch → Launch) :
    (s.modLaunch n f).choices = s.choices := rfl

/-! `State.later`. -/

@[simp] theorem State.later_mem (s : State) (e : Event) : (s.later e).mem = s.mem := rfl
@[simp] theorem State.later_tags (s : State) (e : Event) : (s.later e).tags = s.tags := rfl
@[simp] theorem State.later_vregs (s : State) (e : Event) : (s.later e).vregs = s.vregs := rfl
@[simp] theorem State.later_sregs (s : State) (e : Event) : (s.later e).sregs = s.sregs := rfl
@[simp] theorem State.later_pregs (s : State) (e : Event) : (s.later e).pregs = s.pregs := rfl
@[simp] theorem State.later_acc (s : State) (e : Event) : (s.later e).acc = s.acc := rfl
@[simp] theorem State.later_coreUnits (s : State) (e : Event) : (s.later e).coreUnits = s.coreUnits := rfl
@[simp] theorem State.later_sliceUnits (s : State) (e : Event) : (s.later e).sliceUnits = s.sliceUnits := rfl
@[simp] theorem State.later_sheaves (s : State) (e : Event) : (s.later e).sheaves = s.sheaves := rfl
@[simp] theorem State.later_crews (s : State) (e : Event) : (s.later e).crews = s.crews := rfl
@[simp] theorem State.later_spans (s : State) (e : Event) : (s.later e).spans = s.spans := rfl
@[simp] theorem State.later_launches (s : State) (e : Event) : (s.later e).launches = s.launches := rfl
@[simp] theorem State.later_cores (s : State) (e : Event) : (s.later e).cores = s.cores := rfl
@[simp] theorem State.later_gens (s : State) (e : Event) : (s.later e).gens = s.gens := rfl
@[simp] theorem State.later_ctxs (s : State) (e : Event) : (s.later e).ctxs = s.ctxs := rfl
@[simp] theorem State.later_nextLaunch (s : State) (e : Event) : (s.later e).nextLaunch = s.nextLaunch := rfl
@[simp] theorem State.later_nextSpan (s : State) (e : Event) : (s.later e).nextSpan = s.nextSpan := rfl
@[simp] theorem State.later_nextCrew (s : State) (e : Event) : (s.later e).nextCrew = s.nextCrew := rfl
@[simp] theorem State.later_subs (s : State) (e : Event) : (s.later e).subs = s.subs := rfl
@[simp] theorem State.later_chunks (s : State) (e : Event) : (s.later e).chunks = s.chunks := rfl
@[simp] theorem State.later_modCmds (s : State) (e : Event) : (s.later e).modCmds = s.modCmds := rfl
@[simp] theorem State.later_conts (s : State) (e : Event) : (s.later e).conts = s.conts := rfl
@[simp] theorem State.later_nextId (s : State) (e : Event) : (s.later e).nextId = s.nextId := rfl
@[simp] theorem State.later_gov (s : State) (e : Event) : (s.later e).gov = s.gov := rfl
@[simp] theorem State.later_xfers (s : State) (e : Event) : (s.later e).xfers = s.xfers := rfl
@[simp] theorem State.later_nextXid (s : State) (e : Event) : (s.later e).nextXid = s.nextXid := rfl
@[simp] theorem State.later_outq (s : State) (e : Event) : (s.later e).outq = s.outq := rfl
@[simp] theorem State.later_links (s : State) (e : Event) : (s.later e).links = s.links := rfl
@[simp] theorem State.later_relays (s : State) (e : Event) : (s.later e).relays = s.relays := rfl
@[simp] theorem State.later_mcasts (s : State) (e : Event) : (s.later e).mcasts = s.mcasts := rfl
@[simp] theorem State.later_flags (s : State) (e : Event) : (s.later e).flags = s.flags := rfl
@[simp] theorem State.later_halves (s : State) (e : Event) : (s.later e).halves = s.halves := rfl
@[simp] theorem State.later_groups (s : State) (e : Event) : (s.later e).groups = s.groups := rfl
@[simp] theorem State.later_lr (s : State) (e : Event) : (s.later e).lr = s.lr := rfl
@[simp] theorem State.later_waves (s : State) (e : Event) : (s.later e).waves = s.waves := rfl
@[simp] theorem State.later_grps (s : State) (e : Event) : (s.later e).grps = s.grps := rfl
@[simp] theorem State.later_fibreRec (s : State) (e : Event) : (s.later e).fibreRec = s.fibreRec := rfl
@[simp] theorem State.later_theos (s : State) (e : Event) : (s.later e).theos = s.theos := rfl
@[simp] theorem State.later_planes (s : State) (e : Event) : (s.later e).planes = s.planes := rfl
@[simp] theorem State.later_heard (s : State) (e : Event) : (s.later e).heard = s.heard := rfl
@[simp] theorem State.later_mods (s : State) (e : Event) : (s.later e).mods = s.mods := rfl
@[simp] theorem State.later_host (s : State) (e : Event) : (s.later e).host = s.host := rfl
@[simp] theorem State.later_waitRecs (s : State) (e : Event) : (s.later e).waitRecs = s.waitRecs := rfl
@[simp] theorem State.later_warm (s : State) (e : Event) : (s.later e).warm = s.warm := rfl
@[simp] theorem State.later_throttled (s : State) (e : Event) : (s.later e).throttled = s.throttled := rfl
@[simp] theorem State.later_excursion (s : State) (e : Event) : (s.later e).excursion = s.excursion := rfl
@[simp] theorem State.later_checkpoint (s : State) (e : Event) : (s.later e).checkpoint = s.checkpoint := rfl
@[simp] theorem State.later_ckptFault (s : State) (e : Event) : (s.later e).ckptFault = s.ckptFault := rfl
@[simp] theorem State.later_images (s : State) (e : Event) : (s.later e).images = s.images := rfl
@[simp] theorem State.later_badSram (s : State) (e : Event) : (s.later e).badSram = s.badSram := rfl
@[simp] theorem State.later_badRegs (s : State) (e : Event) : (s.later e).badRegs = s.badRegs := rfl
@[simp] theorem State.later_badWords (s : State) (e : Event) : (s.later e).badWords = s.badWords := rfl
@[simp] theorem State.later_time (s : State) (e : Event) : (s.later e).time = s.time := rfl
@[simp] theorem State.later_nanos (s : State) (e : Event) : (s.later e).nanos = s.nanos := rfl
@[simp] theorem State.later_due (s : State) (e : Event) : (s.later e).due = s.due ++ [e] := rfl
@[simp] theorem State.later_focus (s : State) (e : Event) : (s.later e).focus = s.focus := rfl
@[simp] theorem State.later_focusB (s : State) (e : Event) : (s.later e).focusB = s.focusB := rfl
@[simp] theorem State.later_frees (s : State) (e : Event) : (s.later e).frees = s.frees := rfl
@[simp] theorem State.later_choices (s : State) (e : Event) : (s.later e).choices = s.choices := rfl

/-! `State.tick`. -/

@[simp] theorem State.tick_mem (s : State) : (s.tick).mem = s.mem := rfl
@[simp] theorem State.tick_tags (s : State) : (s.tick).tags = s.tags := rfl
@[simp] theorem State.tick_vregs (s : State) : (s.tick).vregs = s.vregs := rfl
@[simp] theorem State.tick_sregs (s : State) : (s.tick).sregs = s.sregs := rfl
@[simp] theorem State.tick_pregs (s : State) : (s.tick).pregs = s.pregs := rfl
@[simp] theorem State.tick_acc (s : State) : (s.tick).acc = s.acc := rfl
@[simp] theorem State.tick_coreUnits (s : State) : (s.tick).coreUnits = s.coreUnits := rfl
@[simp] theorem State.tick_sliceUnits (s : State) : (s.tick).sliceUnits = s.sliceUnits := rfl
@[simp] theorem State.tick_sheaves (s : State) : (s.tick).sheaves = s.sheaves := rfl
@[simp] theorem State.tick_crews (s : State) : (s.tick).crews = s.crews := rfl
@[simp] theorem State.tick_spans (s : State) : (s.tick).spans = s.spans := rfl
@[simp] theorem State.tick_launches (s : State) : (s.tick).launches = s.launches := rfl
@[simp] theorem State.tick_cores (s : State) : (s.tick).cores = s.cores := rfl
@[simp] theorem State.tick_gens (s : State) : (s.tick).gens = s.gens := rfl
@[simp] theorem State.tick_ctxs (s : State) : (s.tick).ctxs = s.ctxs := rfl
@[simp] theorem State.tick_nextLaunch (s : State) : (s.tick).nextLaunch = s.nextLaunch := rfl
@[simp] theorem State.tick_nextSpan (s : State) : (s.tick).nextSpan = s.nextSpan := rfl
@[simp] theorem State.tick_nextCrew (s : State) : (s.tick).nextCrew = s.nextCrew := rfl
@[simp] theorem State.tick_subs (s : State) : (s.tick).subs = s.subs := rfl
@[simp] theorem State.tick_chunks (s : State) : (s.tick).chunks = s.chunks := rfl
@[simp] theorem State.tick_modCmds (s : State) : (s.tick).modCmds = s.modCmds := rfl
@[simp] theorem State.tick_conts (s : State) : (s.tick).conts = s.conts := rfl
@[simp] theorem State.tick_nextId (s : State) : (s.tick).nextId = s.nextId := rfl
@[simp] theorem State.tick_gov (s : State) : (s.tick).gov = s.gov := rfl
@[simp] theorem State.tick_xfers (s : State) : (s.tick).xfers = s.xfers := rfl
@[simp] theorem State.tick_nextXid (s : State) : (s.tick).nextXid = s.nextXid := rfl
@[simp] theorem State.tick_outq (s : State) : (s.tick).outq = s.outq := rfl
@[simp] theorem State.tick_links (s : State) : (s.tick).links = s.links := rfl
@[simp] theorem State.tick_relays (s : State) : (s.tick).relays = s.relays := rfl
@[simp] theorem State.tick_mcasts (s : State) : (s.tick).mcasts = s.mcasts := rfl
@[simp] theorem State.tick_flags (s : State) : (s.tick).flags = s.flags := rfl
@[simp] theorem State.tick_halves (s : State) : (s.tick).halves = s.halves := rfl
@[simp] theorem State.tick_groups (s : State) : (s.tick).groups = s.groups := rfl
@[simp] theorem State.tick_lr (s : State) : (s.tick).lr = s.lr := rfl
@[simp] theorem State.tick_waves (s : State) : (s.tick).waves = s.waves := rfl
@[simp] theorem State.tick_grps (s : State) : (s.tick).grps = s.grps := rfl
@[simp] theorem State.tick_fibreRec (s : State) : (s.tick).fibreRec = s.fibreRec := rfl
@[simp] theorem State.tick_theos (s : State) : (s.tick).theos = s.theos := rfl
@[simp] theorem State.tick_planes (s : State) : (s.tick).planes = s.planes := rfl
@[simp] theorem State.tick_heard (s : State) : (s.tick).heard = s.heard := rfl
@[simp] theorem State.tick_mods (s : State) : (s.tick).mods = s.mods := rfl
@[simp] theorem State.tick_host (s : State) : (s.tick).host = s.host := rfl
@[simp] theorem State.tick_waitRecs (s : State) : (s.tick).waitRecs = s.waitRecs := rfl
@[simp] theorem State.tick_warm (s : State) : (s.tick).warm = s.warm := rfl
@[simp] theorem State.tick_throttled (s : State) : (s.tick).throttled = s.throttled := rfl
@[simp] theorem State.tick_excursion (s : State) : (s.tick).excursion = s.excursion := rfl
@[simp] theorem State.tick_checkpoint (s : State) : (s.tick).checkpoint = s.checkpoint := rfl
@[simp] theorem State.tick_ckptFault (s : State) : (s.tick).ckptFault = s.ckptFault := rfl
@[simp] theorem State.tick_images (s : State) : (s.tick).images = s.images := rfl
@[simp] theorem State.tick_badSram (s : State) : (s.tick).badSram = s.badSram := rfl
@[simp] theorem State.tick_badRegs (s : State) : (s.tick).badRegs = s.badRegs := rfl
@[simp] theorem State.tick_badWords (s : State) : (s.tick).badWords = s.badWords := rfl
@[simp] theorem State.tick_time (s : State) : (s.tick).time = s.time := rfl
@[simp] theorem State.tick_nanos (s : State) : (s.tick).nanos = s.nanos := rfl
@[simp] theorem State.tick_due (s : State) : (s.tick).due = s.due := rfl
@[simp] theorem State.tick_focus (s : State) : (s.tick).focus = s.focus := rfl
@[simp] theorem State.tick_focusB (s : State) : (s.tick).focusB = s.focusB := rfl
@[simp] theorem State.tick_frees (s : State) : (s.tick).frees = s.frees + 1 := rfl
@[simp] theorem State.tick_choices (s : State) : (s.tick).choices = s.choices := rfl

/-! `State.writeS`. -/

@[simp] theorem State.writeS_mem (s : State) (k r : Nat) (x : Word64) : (s.writeS k r x).mem = s.mem := rfl
@[simp] theorem State.writeS_tags (s : State) (k r : Nat) (x : Word64) : (s.writeS k r x).tags = s.tags := rfl
@[simp] theorem State.writeS_vregs (s : State) (k r : Nat) (x : Word64) : (s.writeS k r x).vregs = s.vregs := rfl
@[simp] theorem State.writeS_sregs (s : State) (k r : Nat) (x : Word64) :
    (s.writeS k r x).sregs = Tab.put s.sregs (k * 64 + r) ⟨x, (s.sheaf k).baseGen⟩ := rfl
@[simp] theorem State.writeS_pregs (s : State) (k r : Nat) (x : Word64) : (s.writeS k r x).pregs = s.pregs := rfl
@[simp] theorem State.writeS_acc (s : State) (k r : Nat) (x : Word64) : (s.writeS k r x).acc = s.acc := rfl
@[simp] theorem State.writeS_coreUnits (s : State) (k r : Nat) (x : Word64) :
    (s.writeS k r x).coreUnits = s.coreUnits := rfl
@[simp] theorem State.writeS_sliceUnits (s : State) (k r : Nat) (x : Word64) :
    (s.writeS k r x).sliceUnits = s.sliceUnits := rfl
@[simp] theorem State.writeS_sheaves (s : State) (k r : Nat) (x : Word64) :
    (s.writeS k r x).sheaves = s.sheaves := rfl
@[simp] theorem State.writeS_crews (s : State) (k r : Nat) (x : Word64) : (s.writeS k r x).crews = s.crews := rfl
@[simp] theorem State.writeS_spans (s : State) (k r : Nat) (x : Word64) : (s.writeS k r x).spans = s.spans := rfl
@[simp] theorem State.writeS_launches (s : State) (k r : Nat) (x : Word64) :
    (s.writeS k r x).launches = s.launches := rfl
@[simp] theorem State.writeS_cores (s : State) (k r : Nat) (x : Word64) : (s.writeS k r x).cores = s.cores := rfl
@[simp] theorem State.writeS_gens (s : State) (k r : Nat) (x : Word64) : (s.writeS k r x).gens = s.gens := rfl
@[simp] theorem State.writeS_ctxs (s : State) (k r : Nat) (x : Word64) : (s.writeS k r x).ctxs = s.ctxs := rfl
@[simp] theorem State.writeS_nextLaunch (s : State) (k r : Nat) (x : Word64) :
    (s.writeS k r x).nextLaunch = s.nextLaunch := rfl
@[simp] theorem State.writeS_nextSpan (s : State) (k r : Nat) (x : Word64) :
    (s.writeS k r x).nextSpan = s.nextSpan := rfl
@[simp] theorem State.writeS_nextCrew (s : State) (k r : Nat) (x : Word64) :
    (s.writeS k r x).nextCrew = s.nextCrew := rfl
@[simp] theorem State.writeS_subs (s : State) (k r : Nat) (x : Word64) : (s.writeS k r x).subs = s.subs := rfl
@[simp] theorem State.writeS_chunks (s : State) (k r : Nat) (x : Word64) : (s.writeS k r x).chunks = s.chunks := rfl
@[simp] theorem State.writeS_modCmds (s : State) (k r : Nat) (x : Word64) :
    (s.writeS k r x).modCmds = s.modCmds := rfl
@[simp] theorem State.writeS_conts (s : State) (k r : Nat) (x : Word64) : (s.writeS k r x).conts = s.conts := rfl
@[simp] theorem State.writeS_nextId (s : State) (k r : Nat) (x : Word64) : (s.writeS k r x).nextId = s.nextId := rfl
@[simp] theorem State.writeS_gov (s : State) (k r : Nat) (x : Word64) : (s.writeS k r x).gov = s.gov := rfl
@[simp] theorem State.writeS_xfers (s : State) (k r : Nat) (x : Word64) : (s.writeS k r x).xfers = s.xfers := rfl
@[simp] theorem State.writeS_nextXid (s : State) (k r : Nat) (x : Word64) :
    (s.writeS k r x).nextXid = s.nextXid := rfl
@[simp] theorem State.writeS_outq (s : State) (k r : Nat) (x : Word64) : (s.writeS k r x).outq = s.outq := rfl
@[simp] theorem State.writeS_links (s : State) (k r : Nat) (x : Word64) : (s.writeS k r x).links = s.links := rfl
@[simp] theorem State.writeS_relays (s : State) (k r : Nat) (x : Word64) : (s.writeS k r x).relays = s.relays := rfl
@[simp] theorem State.writeS_mcasts (s : State) (k r : Nat) (x : Word64) : (s.writeS k r x).mcasts = s.mcasts := rfl
@[simp] theorem State.writeS_flags (s : State) (k r : Nat) (x : Word64) : (s.writeS k r x).flags = s.flags := rfl
@[simp] theorem State.writeS_halves (s : State) (k r : Nat) (x : Word64) : (s.writeS k r x).halves = s.halves := rfl
@[simp] theorem State.writeS_groups (s : State) (k r : Nat) (x : Word64) : (s.writeS k r x).groups = s.groups := rfl
@[simp] theorem State.writeS_lr (s : State) (k r : Nat) (x : Word64) : (s.writeS k r x).lr = s.lr := rfl
@[simp] theorem State.writeS_waves (s : State) (k r : Nat) (x : Word64) : (s.writeS k r x).waves = s.waves := rfl
@[simp] theorem State.writeS_grps (s : State) (k r : Nat) (x : Word64) : (s.writeS k r x).grps = s.grps := rfl
@[simp] theorem State.writeS_fibreRec (s : State) (k r : Nat) (x : Word64) :
    (s.writeS k r x).fibreRec = s.fibreRec := rfl
@[simp] theorem State.writeS_theos (s : State) (k r : Nat) (x : Word64) : (s.writeS k r x).theos = s.theos := rfl
@[simp] theorem State.writeS_planes (s : State) (k r : Nat) (x : Word64) : (s.writeS k r x).planes = s.planes := rfl
@[simp] theorem State.writeS_heard (s : State) (k r : Nat) (x : Word64) : (s.writeS k r x).heard = s.heard := rfl
@[simp] theorem State.writeS_mods (s : State) (k r : Nat) (x : Word64) : (s.writeS k r x).mods = s.mods := rfl
@[simp] theorem State.writeS_host (s : State) (k r : Nat) (x : Word64) : (s.writeS k r x).host = s.host := rfl
@[simp] theorem State.writeS_waitRecs (s : State) (k r : Nat) (x : Word64) :
    (s.writeS k r x).waitRecs = s.waitRecs := rfl
@[simp] theorem State.writeS_warm (s : State) (k r : Nat) (x : Word64) : (s.writeS k r x).warm = s.warm := rfl
@[simp] theorem State.writeS_throttled (s : State) (k r : Nat) (x : Word64) :
    (s.writeS k r x).throttled = s.throttled := rfl
@[simp] theorem State.writeS_excursion (s : State) (k r : Nat) (x : Word64) :
    (s.writeS k r x).excursion = s.excursion := rfl
@[simp] theorem State.writeS_checkpoint (s : State) (k r : Nat) (x : Word64) :
    (s.writeS k r x).checkpoint = s.checkpoint := rfl
@[simp] theorem State.writeS_ckptFault (s : State) (k r : Nat) (x : Word64) :
    (s.writeS k r x).ckptFault = s.ckptFault := rfl
@[simp] theorem State.writeS_images (s : State) (k r : Nat) (x : Word64) : (s.writeS k r x).images = s.images := rfl
@[simp] theorem State.writeS_badSram (s : State) (k r : Nat) (x : Word64) :
    (s.writeS k r x).badSram = s.badSram := rfl
@[simp] theorem State.writeS_badRegs (s : State) (k r : Nat) (x : Word64) :
    (s.writeS k r x).badRegs = s.badRegs := rfl
@[simp] theorem State.writeS_badWords (s : State) (k r : Nat) (x : Word64) :
    (s.writeS k r x).badWords = s.badWords.filter (· != .scalar k r) := rfl
@[simp] theorem State.writeS_time (s : State) (k r : Nat) (x : Word64) : (s.writeS k r x).time = s.time := rfl
@[simp] theorem State.writeS_nanos (s : State) (k r : Nat) (x : Word64) : (s.writeS k r x).nanos = s.nanos := rfl
@[simp] theorem State.writeS_due (s : State) (k r : Nat) (x : Word64) : (s.writeS k r x).due = s.due := rfl
@[simp] theorem State.writeS_focus (s : State) (k r : Nat) (x : Word64) : (s.writeS k r x).focus = s.focus := rfl
@[simp] theorem State.writeS_focusB (s : State) (k r : Nat) (x : Word64) : (s.writeS k r x).focusB = s.focusB := rfl
@[simp] theorem State.writeS_frees (s : State) (k r : Nat) (x : Word64) : (s.writeS k r x).frees = s.frees := rfl
@[simp] theorem State.writeS_choices (s : State) (k r : Nat) (x : Word64) :
    (s.writeS k r x).choices = s.choices := rfl

/-! `State.setByte`. -/

@[simp] theorem State.setByte_mem (s : State) (a : Nat) (x : Byte) :
    (s.setByte a x).mem = Tab.set Memory.absent s.mem a x := rfl
@[simp] theorem State.setByte_tags (s : State) (a : Nat) (x : Byte) : (s.setByte a x).tags = s.tags := rfl
@[simp] theorem State.setByte_vregs (s : State) (a : Nat) (x : Byte) : (s.setByte a x).vregs = s.vregs := rfl
@[simp] theorem State.setByte_sregs (s : State) (a : Nat) (x : Byte) : (s.setByte a x).sregs = s.sregs := rfl
@[simp] theorem State.setByte_pregs (s : State) (a : Nat) (x : Byte) : (s.setByte a x).pregs = s.pregs := rfl
@[simp] theorem State.setByte_acc (s : State) (a : Nat) (x : Byte) : (s.setByte a x).acc = s.acc := rfl
@[simp] theorem State.setByte_coreUnits (s : State) (a : Nat) (x : Byte) :
    (s.setByte a x).coreUnits = s.coreUnits := rfl
@[simp] theorem State.setByte_sliceUnits (s : State) (a : Nat) (x : Byte) :
    (s.setByte a x).sliceUnits = s.sliceUnits := rfl
@[simp] theorem State.setByte_sheaves (s : State) (a : Nat) (x : Byte) : (s.setByte a x).sheaves = s.sheaves := rfl
@[simp] theorem State.setByte_crews (s : State) (a : Nat) (x : Byte) : (s.setByte a x).crews = s.crews := rfl
@[simp] theorem State.setByte_spans (s : State) (a : Nat) (x : Byte) : (s.setByte a x).spans = s.spans := rfl
@[simp] theorem State.setByte_launches (s : State) (a : Nat) (x : Byte) : (s.setByte a x).launches = s.launches := rfl
@[simp] theorem State.setByte_cores (s : State) (a : Nat) (x : Byte) : (s.setByte a x).cores = s.cores := rfl
@[simp] theorem State.setByte_gens (s : State) (a : Nat) (x : Byte) : (s.setByte a x).gens = s.gens := rfl
@[simp] theorem State.setByte_ctxs (s : State) (a : Nat) (x : Byte) : (s.setByte a x).ctxs = s.ctxs := rfl
@[simp] theorem State.setByte_nextLaunch (s : State) (a : Nat) (x : Byte) :
    (s.setByte a x).nextLaunch = s.nextLaunch := rfl
@[simp] theorem State.setByte_nextSpan (s : State) (a : Nat) (x : Byte) : (s.setByte a x).nextSpan = s.nextSpan := rfl
@[simp] theorem State.setByte_nextCrew (s : State) (a : Nat) (x : Byte) : (s.setByte a x).nextCrew = s.nextCrew := rfl
@[simp] theorem State.setByte_subs (s : State) (a : Nat) (x : Byte) : (s.setByte a x).subs = s.subs := rfl
@[simp] theorem State.setByte_chunks (s : State) (a : Nat) (x : Byte) : (s.setByte a x).chunks = s.chunks := rfl
@[simp] theorem State.setByte_modCmds (s : State) (a : Nat) (x : Byte) : (s.setByte a x).modCmds = s.modCmds := rfl
@[simp] theorem State.setByte_conts (s : State) (a : Nat) (x : Byte) : (s.setByte a x).conts = s.conts := rfl
@[simp] theorem State.setByte_nextId (s : State) (a : Nat) (x : Byte) : (s.setByte a x).nextId = s.nextId := rfl
@[simp] theorem State.setByte_gov (s : State) (a : Nat) (x : Byte) : (s.setByte a x).gov = s.gov := rfl
@[simp] theorem State.setByte_xfers (s : State) (a : Nat) (x : Byte) : (s.setByte a x).xfers = s.xfers := rfl
@[simp] theorem State.setByte_nextXid (s : State) (a : Nat) (x : Byte) : (s.setByte a x).nextXid = s.nextXid := rfl
@[simp] theorem State.setByte_outq (s : State) (a : Nat) (x : Byte) : (s.setByte a x).outq = s.outq := rfl
@[simp] theorem State.setByte_links (s : State) (a : Nat) (x : Byte) : (s.setByte a x).links = s.links := rfl
@[simp] theorem State.setByte_relays (s : State) (a : Nat) (x : Byte) : (s.setByte a x).relays = s.relays := rfl
@[simp] theorem State.setByte_mcasts (s : State) (a : Nat) (x : Byte) : (s.setByte a x).mcasts = s.mcasts := rfl
@[simp] theorem State.setByte_flags (s : State) (a : Nat) (x : Byte) : (s.setByte a x).flags = s.flags := rfl
@[simp] theorem State.setByte_halves (s : State) (a : Nat) (x : Byte) : (s.setByte a x).halves = s.halves := rfl
@[simp] theorem State.setByte_groups (s : State) (a : Nat) (x : Byte) : (s.setByte a x).groups = s.groups := rfl
@[simp] theorem State.setByte_lr (s : State) (a : Nat) (x : Byte) : (s.setByte a x).lr = s.lr := rfl
@[simp] theorem State.setByte_waves (s : State) (a : Nat) (x : Byte) : (s.setByte a x).waves = s.waves := rfl
@[simp] theorem State.setByte_grps (s : State) (a : Nat) (x : Byte) : (s.setByte a x).grps = s.grps := rfl
@[simp] theorem State.setByte_fibreRec (s : State) (a : Nat) (x : Byte) : (s.setByte a x).fibreRec = s.fibreRec := rfl
@[simp] theorem State.setByte_theos (s : State) (a : Nat) (x : Byte) : (s.setByte a x).theos = s.theos := rfl
@[simp] theorem State.setByte_planes (s : State) (a : Nat) (x : Byte) : (s.setByte a x).planes = s.planes := rfl
@[simp] theorem State.setByte_heard (s : State) (a : Nat) (x : Byte) : (s.setByte a x).heard = s.heard := rfl
@[simp] theorem State.setByte_mods (s : State) (a : Nat) (x : Byte) : (s.setByte a x).mods = s.mods := rfl
@[simp] theorem State.setByte_host (s : State) (a : Nat) (x : Byte) : (s.setByte a x).host = s.host := rfl
@[simp] theorem State.setByte_waitRecs (s : State) (a : Nat) (x : Byte) : (s.setByte a x).waitRecs = s.waitRecs := rfl
@[simp] theorem State.setByte_warm (s : State) (a : Nat) (x : Byte) : (s.setByte a x).warm = s.warm := rfl
@[simp] theorem State.setByte_throttled (s : State) (a : Nat) (x : Byte) :
    (s.setByte a x).throttled = s.throttled := rfl
@[simp] theorem State.setByte_excursion (s : State) (a : Nat) (x : Byte) :
    (s.setByte a x).excursion = s.excursion := rfl
@[simp] theorem State.setByte_checkpoint (s : State) (a : Nat) (x : Byte) :
    (s.setByte a x).checkpoint = s.checkpoint := rfl
@[simp] theorem State.setByte_ckptFault (s : State) (a : Nat) (x : Byte) :
    (s.setByte a x).ckptFault = s.ckptFault := rfl
@[simp] theorem State.setByte_images (s : State) (a : Nat) (x : Byte) : (s.setByte a x).images = s.images := rfl
@[simp] theorem State.setByte_badSram (s : State) (a : Nat) (x : Byte) : (s.setByte a x).badSram = s.badSram := rfl
@[simp] theorem State.setByte_badRegs (s : State) (a : Nat) (x : Byte) : (s.setByte a x).badRegs = s.badRegs := rfl
@[simp] theorem State.setByte_badWords (s : State) (a : Nat) (x : Byte) : (s.setByte a x).badWords = s.badWords := rfl
@[simp] theorem State.setByte_time (s : State) (a : Nat) (x : Byte) : (s.setByte a x).time = s.time := rfl
@[simp] theorem State.setByte_nanos (s : State) (a : Nat) (x : Byte) : (s.setByte a x).nanos = s.nanos := rfl
@[simp] theorem State.setByte_due (s : State) (a : Nat) (x : Byte) : (s.setByte a x).due = s.due := rfl
@[simp] theorem State.setByte_focus (s : State) (a : Nat) (x : Byte) : (s.setByte a x).focus = s.focus := rfl
@[simp] theorem State.setByte_focusB (s : State) (a : Nat) (x : Byte) : (s.setByte a x).focusB = s.focusB := rfl
@[simp] theorem State.setByte_frees (s : State) (a : Nat) (x : Byte) : (s.setByte a x).frees = s.frees := rfl
@[simp] theorem State.setByte_choices (s : State) (a : Nat) (x : Byte) : (s.setByte a x).choices = s.choices := rfl

/-! `State.writeV`. -/

@[simp] theorem State.writeV_mem (s : State) (k r : Nat) (m : Word32) (f : Nat → Word32) (t : BitVec 4) :
    (s.writeV k r m f t).mem = s.mem := by
  unfold State.writeV; split
  · rfl
  · split <;> rfl
@[simp] theorem State.writeV_tags (s : State) (k r : Nat) (m : Word32) (f : Nat → Word32) (t : BitVec 4) :
    (s.writeV k r m f t).tags = s.tags := by
  unfold State.writeV; split
  · rfl
  · split <;> rfl
@[simp] theorem State.writeV_sregs (s : State) (k r : Nat) (m : Word32) (f : Nat → Word32) (t : BitVec 4) :
    (s.writeV k r m f t).sregs = s.sregs := by
  unfold State.writeV; split
  · rfl
  · split <;> rfl
@[simp] theorem State.writeV_pregs (s : State) (k r : Nat) (m : Word32) (f : Nat → Word32) (t : BitVec 4) :
    (s.writeV k r m f t).pregs = s.pregs := by
  unfold State.writeV; split
  · rfl
  · split <;> rfl
@[simp] theorem State.writeV_acc (s : State) (k r : Nat) (m : Word32) (f : Nat → Word32) (t : BitVec 4) :
    (s.writeV k r m f t).acc = s.acc := by
  unfold State.writeV; split
  · rfl
  · split <;> rfl
@[simp] theorem State.writeV_coreUnits (s : State) (k r : Nat) (m : Word32) (f : Nat → Word32) (t : BitVec 4) :
    (s.writeV k r m f t).coreUnits = s.coreUnits := by
  unfold State.writeV; split
  · rfl
  · split <;> rfl
@[simp] theorem State.writeV_sliceUnits (s : State) (k r : Nat) (m : Word32) (f : Nat → Word32) (t : BitVec 4) :
    (s.writeV k r m f t).sliceUnits = s.sliceUnits := by
  unfold State.writeV; split
  · rfl
  · split <;> rfl
@[simp] theorem State.writeV_sheaves (s : State) (k r : Nat) (m : Word32) (f : Nat → Word32) (t : BitVec 4) :
    (s.writeV k r m f t).sheaves = s.sheaves := by
  unfold State.writeV; split
  · rfl
  · split <;> rfl
@[simp] theorem State.writeV_crews (s : State) (k r : Nat) (m : Word32) (f : Nat → Word32) (t : BitVec 4) :
    (s.writeV k r m f t).crews = s.crews := by
  unfold State.writeV; split
  · rfl
  · split <;> rfl
@[simp] theorem State.writeV_spans (s : State) (k r : Nat) (m : Word32) (f : Nat → Word32) (t : BitVec 4) :
    (s.writeV k r m f t).spans = s.spans := by
  unfold State.writeV; split
  · rfl
  · split <;> rfl
@[simp] theorem State.writeV_launches (s : State) (k r : Nat) (m : Word32) (f : Nat → Word32) (t : BitVec 4) :
    (s.writeV k r m f t).launches = s.launches := by
  unfold State.writeV; split
  · rfl
  · split <;> rfl
@[simp] theorem State.writeV_cores (s : State) (k r : Nat) (m : Word32) (f : Nat → Word32) (t : BitVec 4) :
    (s.writeV k r m f t).cores = s.cores := by
  unfold State.writeV; split
  · rfl
  · split <;> rfl
@[simp] theorem State.writeV_gens (s : State) (k r : Nat) (m : Word32) (f : Nat → Word32) (t : BitVec 4) :
    (s.writeV k r m f t).gens = s.gens := by
  unfold State.writeV; split
  · rfl
  · split <;> rfl
@[simp] theorem State.writeV_ctxs (s : State) (k r : Nat) (m : Word32) (f : Nat → Word32) (t : BitVec 4) :
    (s.writeV k r m f t).ctxs = s.ctxs := by
  unfold State.writeV; split
  · rfl
  · split <;> rfl
@[simp] theorem State.writeV_nextLaunch (s : State) (k r : Nat) (m : Word32) (f : Nat → Word32) (t : BitVec 4) :
    (s.writeV k r m f t).nextLaunch = s.nextLaunch := by
  unfold State.writeV; split
  · rfl
  · split <;> rfl
@[simp] theorem State.writeV_nextSpan (s : State) (k r : Nat) (m : Word32) (f : Nat → Word32) (t : BitVec 4) :
    (s.writeV k r m f t).nextSpan = s.nextSpan := by
  unfold State.writeV; split
  · rfl
  · split <;> rfl
@[simp] theorem State.writeV_nextCrew (s : State) (k r : Nat) (m : Word32) (f : Nat → Word32) (t : BitVec 4) :
    (s.writeV k r m f t).nextCrew = s.nextCrew := by
  unfold State.writeV; split
  · rfl
  · split <;> rfl
@[simp] theorem State.writeV_subs (s : State) (k r : Nat) (m : Word32) (f : Nat → Word32) (t : BitVec 4) :
    (s.writeV k r m f t).subs = s.subs := by
  unfold State.writeV; split
  · rfl
  · split <;> rfl
@[simp] theorem State.writeV_chunks (s : State) (k r : Nat) (m : Word32) (f : Nat → Word32) (t : BitVec 4) :
    (s.writeV k r m f t).chunks = s.chunks := by
  unfold State.writeV; split
  · rfl
  · split <;> rfl
@[simp] theorem State.writeV_modCmds (s : State) (k r : Nat) (m : Word32) (f : Nat → Word32) (t : BitVec 4) :
    (s.writeV k r m f t).modCmds = s.modCmds := by
  unfold State.writeV; split
  · rfl
  · split <;> rfl
@[simp] theorem State.writeV_conts (s : State) (k r : Nat) (m : Word32) (f : Nat → Word32) (t : BitVec 4) :
    (s.writeV k r m f t).conts = s.conts := by
  unfold State.writeV; split
  · rfl
  · split <;> rfl
@[simp] theorem State.writeV_nextId (s : State) (k r : Nat) (m : Word32) (f : Nat → Word32) (t : BitVec 4) :
    (s.writeV k r m f t).nextId = s.nextId := by
  unfold State.writeV; split
  · rfl
  · split <;> rfl
@[simp] theorem State.writeV_gov (s : State) (k r : Nat) (m : Word32) (f : Nat → Word32) (t : BitVec 4) :
    (s.writeV k r m f t).gov = s.gov := by
  unfold State.writeV; split
  · rfl
  · split <;> rfl
@[simp] theorem State.writeV_xfers (s : State) (k r : Nat) (m : Word32) (f : Nat → Word32) (t : BitVec 4) :
    (s.writeV k r m f t).xfers = s.xfers := by
  unfold State.writeV; split
  · rfl
  · split <;> rfl
@[simp] theorem State.writeV_nextXid (s : State) (k r : Nat) (m : Word32) (f : Nat → Word32) (t : BitVec 4) :
    (s.writeV k r m f t).nextXid = s.nextXid := by
  unfold State.writeV; split
  · rfl
  · split <;> rfl
@[simp] theorem State.writeV_outq (s : State) (k r : Nat) (m : Word32) (f : Nat → Word32) (t : BitVec 4) :
    (s.writeV k r m f t).outq = s.outq := by
  unfold State.writeV; split
  · rfl
  · split <;> rfl
@[simp] theorem State.writeV_links (s : State) (k r : Nat) (m : Word32) (f : Nat → Word32) (t : BitVec 4) :
    (s.writeV k r m f t).links = s.links := by
  unfold State.writeV; split
  · rfl
  · split <;> rfl
@[simp] theorem State.writeV_relays (s : State) (k r : Nat) (m : Word32) (f : Nat → Word32) (t : BitVec 4) :
    (s.writeV k r m f t).relays = s.relays := by
  unfold State.writeV; split
  · rfl
  · split <;> rfl
@[simp] theorem State.writeV_mcasts (s : State) (k r : Nat) (m : Word32) (f : Nat → Word32) (t : BitVec 4) :
    (s.writeV k r m f t).mcasts = s.mcasts := by
  unfold State.writeV; split
  · rfl
  · split <;> rfl
@[simp] theorem State.writeV_flags (s : State) (k r : Nat) (m : Word32) (f : Nat → Word32) (t : BitVec 4) :
    (s.writeV k r m f t).flags = s.flags := by
  unfold State.writeV; split
  · rfl
  · split <;> rfl
@[simp] theorem State.writeV_halves (s : State) (k r : Nat) (m : Word32) (f : Nat → Word32) (t : BitVec 4) :
    (s.writeV k r m f t).halves = s.halves := by
  unfold State.writeV; split
  · rfl
  · split <;> rfl
@[simp] theorem State.writeV_groups (s : State) (k r : Nat) (m : Word32) (f : Nat → Word32) (t : BitVec 4) :
    (s.writeV k r m f t).groups = s.groups := by
  unfold State.writeV; split
  · rfl
  · split <;> rfl
@[simp] theorem State.writeV_lr (s : State) (k r : Nat) (m : Word32) (f : Nat → Word32) (t : BitVec 4) :
    (s.writeV k r m f t).lr = s.lr := by
  unfold State.writeV; split
  · rfl
  · split <;> rfl
@[simp] theorem State.writeV_waves (s : State) (k r : Nat) (m : Word32) (f : Nat → Word32) (t : BitVec 4) :
    (s.writeV k r m f t).waves = s.waves := by
  unfold State.writeV; split
  · rfl
  · split <;> rfl
@[simp] theorem State.writeV_grps (s : State) (k r : Nat) (m : Word32) (f : Nat → Word32) (t : BitVec 4) :
    (s.writeV k r m f t).grps = s.grps := by
  unfold State.writeV; split
  · rfl
  · split <;> rfl
@[simp] theorem State.writeV_fibreRec (s : State) (k r : Nat) (m : Word32) (f : Nat → Word32) (t : BitVec 4) :
    (s.writeV k r m f t).fibreRec = s.fibreRec := by
  unfold State.writeV; split
  · rfl
  · split <;> rfl
@[simp] theorem State.writeV_theos (s : State) (k r : Nat) (m : Word32) (f : Nat → Word32) (t : BitVec 4) :
    (s.writeV k r m f t).theos = s.theos := by
  unfold State.writeV; split
  · rfl
  · split <;> rfl
@[simp] theorem State.writeV_planes (s : State) (k r : Nat) (m : Word32) (f : Nat → Word32) (t : BitVec 4) :
    (s.writeV k r m f t).planes = s.planes := by
  unfold State.writeV; split
  · rfl
  · split <;> rfl
@[simp] theorem State.writeV_heard (s : State) (k r : Nat) (m : Word32) (f : Nat → Word32) (t : BitVec 4) :
    (s.writeV k r m f t).heard = s.heard := by
  unfold State.writeV; split
  · rfl
  · split <;> rfl
@[simp] theorem State.writeV_mods (s : State) (k r : Nat) (m : Word32) (f : Nat → Word32) (t : BitVec 4) :
    (s.writeV k r m f t).mods = s.mods := by
  unfold State.writeV; split
  · rfl
  · split <;> rfl
@[simp] theorem State.writeV_host (s : State) (k r : Nat) (m : Word32) (f : Nat → Word32) (t : BitVec 4) :
    (s.writeV k r m f t).host = s.host := by
  unfold State.writeV; split
  · rfl
  · split <;> rfl
@[simp] theorem State.writeV_waitRecs (s : State) (k r : Nat) (m : Word32) (f : Nat → Word32) (t : BitVec 4) :
    (s.writeV k r m f t).waitRecs = s.waitRecs := by
  unfold State.writeV; split
  · rfl
  · split <;> rfl
@[simp] theorem State.writeV_warm (s : State) (k r : Nat) (m : Word32) (f : Nat → Word32) (t : BitVec 4) :
    (s.writeV k r m f t).warm = s.warm := by
  unfold State.writeV; split
  · rfl
  · split <;> rfl
@[simp] theorem State.writeV_throttled (s : State) (k r : Nat) (m : Word32) (f : Nat → Word32) (t : BitVec 4) :
    (s.writeV k r m f t).throttled = s.throttled := by
  unfold State.writeV; split
  · rfl
  · split <;> rfl
@[simp] theorem State.writeV_excursion (s : State) (k r : Nat) (m : Word32) (f : Nat → Word32) (t : BitVec 4) :
    (s.writeV k r m f t).excursion = s.excursion := by
  unfold State.writeV; split
  · rfl
  · split <;> rfl
@[simp] theorem State.writeV_checkpoint (s : State) (k r : Nat) (m : Word32) (f : Nat → Word32) (t : BitVec 4) :
    (s.writeV k r m f t).checkpoint = s.checkpoint := by
  unfold State.writeV; split
  · rfl
  · split <;> rfl
@[simp] theorem State.writeV_ckptFault (s : State) (k r : Nat) (m : Word32) (f : Nat → Word32) (t : BitVec 4) :
    (s.writeV k r m f t).ckptFault = s.ckptFault := by
  unfold State.writeV; split
  · rfl
  · split <;> rfl
@[simp] theorem State.writeV_images (s : State) (k r : Nat) (m : Word32) (f : Nat → Word32) (t : BitVec 4) :
    (s.writeV k r m f t).images = s.images := by
  unfold State.writeV; split
  · rfl
  · split <;> rfl
@[simp] theorem State.writeV_badSram (s : State) (k r : Nat) (m : Word32) (f : Nat → Word32) (t : BitVec 4) :
    (s.writeV k r m f t).badSram = s.badSram := by
  unfold State.writeV; split
  · rfl
  · split <;> rfl
@[simp] theorem State.writeV_badWords (s : State) (k r : Nat) (m : Word32) (f : Nat → Word32) (t : BitVec 4) :
    (s.writeV k r m f t).badWords = s.badWords := by
  unfold State.writeV; split
  · rfl
  · split <;> rfl
@[simp] theorem State.writeV_time (s : State) (k r : Nat) (m : Word32) (f : Nat → Word32) (t : BitVec 4) :
    (s.writeV k r m f t).time = s.time := by
  unfold State.writeV; split
  · rfl
  · split <;> rfl
@[simp] theorem State.writeV_nanos (s : State) (k r : Nat) (m : Word32) (f : Nat → Word32) (t : BitVec 4) :
    (s.writeV k r m f t).nanos = s.nanos := by
  unfold State.writeV; split
  · rfl
  · split <;> rfl
@[simp] theorem State.writeV_due (s : State) (k r : Nat) (m : Word32) (f : Nat → Word32) (t : BitVec 4) :
    (s.writeV k r m f t).due = s.due := by
  unfold State.writeV; split
  · rfl
  · split <;> rfl
@[simp] theorem State.writeV_focus (s : State) (k r : Nat) (m : Word32) (f : Nat → Word32) (t : BitVec 4) :
    (s.writeV k r m f t).focus = s.focus := by
  unfold State.writeV; split
  · rfl
  · split <;> rfl
@[simp] theorem State.writeV_focusB (s : State) (k r : Nat) (m : Word32) (f : Nat → Word32) (t : BitVec 4) :
    (s.writeV k r m f t).focusB = s.focusB := by
  unfold State.writeV; split
  · rfl
  · split <;> rfl
@[simp] theorem State.writeV_frees (s : State) (k r : Nat) (m : Word32) (f : Nat → Word32) (t : BitVec 4) :
    (s.writeV k r m f t).frees = s.frees := by
  unfold State.writeV; split
  · rfl
  · split <;> rfl
@[simp] theorem State.writeV_choices (s : State) (k r : Nat) (m : Word32) (f : Nat → Word32) (t : BitVec 4) :
    (s.writeV k r m f t).choices = s.choices := by
  unfold State.writeV; split
  · rfl
  · split <;> rfl

/-! `State.writeP`. -/

@[simp] theorem State.writeP_mem (s : State) (k r : Nat) (m x : Word32) :
    (s.writeP k r m x).mem = s.mem := by
  unfold State.writeP; split <;> rfl
@[simp] theorem State.writeP_tags (s : State) (k r : Nat) (m x : Word32) :
    (s.writeP k r m x).tags = s.tags := by
  unfold State.writeP; split <;> rfl
@[simp] theorem State.writeP_vregs (s : State) (k r : Nat) (m x : Word32) :
    (s.writeP k r m x).vregs = s.vregs := by
  unfold State.writeP; split <;> rfl
@[simp] theorem State.writeP_sregs (s : State) (k r : Nat) (m x : Word32) :
    (s.writeP k r m x).sregs = s.sregs := by
  unfold State.writeP; split <;> rfl
@[simp] theorem State.writeP_acc (s : State) (k r : Nat) (m x : Word32) :
    (s.writeP k r m x).acc = s.acc := by
  unfold State.writeP; split <;> rfl
@[simp] theorem State.writeP_coreUnits (s : State) (k r : Nat) (m x : Word32) :
    (s.writeP k r m x).coreUnits = s.coreUnits := by
  unfold State.writeP; split <;> rfl
@[simp] theorem State.writeP_sliceUnits (s : State) (k r : Nat) (m x : Word32) :
    (s.writeP k r m x).sliceUnits = s.sliceUnits := by
  unfold State.writeP; split <;> rfl
@[simp] theorem State.writeP_sheaves (s : State) (k r : Nat) (m x : Word32) :
    (s.writeP k r m x).sheaves = s.sheaves := by
  unfold State.writeP; split <;> rfl
@[simp] theorem State.writeP_crews (s : State) (k r : Nat) (m x : Word32) :
    (s.writeP k r m x).crews = s.crews := by
  unfold State.writeP; split <;> rfl
@[simp] theorem State.writeP_spans (s : State) (k r : Nat) (m x : Word32) :
    (s.writeP k r m x).spans = s.spans := by
  unfold State.writeP; split <;> rfl
@[simp] theorem State.writeP_launches (s : State) (k r : Nat) (m x : Word32) :
    (s.writeP k r m x).launches = s.launches := by
  unfold State.writeP; split <;> rfl
@[simp] theorem State.writeP_cores (s : State) (k r : Nat) (m x : Word32) :
    (s.writeP k r m x).cores = s.cores := by
  unfold State.writeP; split <;> rfl
@[simp] theorem State.writeP_gens (s : State) (k r : Nat) (m x : Word32) :
    (s.writeP k r m x).gens = s.gens := by
  unfold State.writeP; split <;> rfl
@[simp] theorem State.writeP_ctxs (s : State) (k r : Nat) (m x : Word32) :
    (s.writeP k r m x).ctxs = s.ctxs := by
  unfold State.writeP; split <;> rfl
@[simp] theorem State.writeP_nextLaunch (s : State) (k r : Nat) (m x : Word32) :
    (s.writeP k r m x).nextLaunch = s.nextLaunch := by
  unfold State.writeP; split <;> rfl
@[simp] theorem State.writeP_nextSpan (s : State) (k r : Nat) (m x : Word32) :
    (s.writeP k r m x).nextSpan = s.nextSpan := by
  unfold State.writeP; split <;> rfl
@[simp] theorem State.writeP_nextCrew (s : State) (k r : Nat) (m x : Word32) :
    (s.writeP k r m x).nextCrew = s.nextCrew := by
  unfold State.writeP; split <;> rfl
@[simp] theorem State.writeP_subs (s : State) (k r : Nat) (m x : Word32) :
    (s.writeP k r m x).subs = s.subs := by
  unfold State.writeP; split <;> rfl
@[simp] theorem State.writeP_chunks (s : State) (k r : Nat) (m x : Word32) :
    (s.writeP k r m x).chunks = s.chunks := by
  unfold State.writeP; split <;> rfl
@[simp] theorem State.writeP_modCmds (s : State) (k r : Nat) (m x : Word32) :
    (s.writeP k r m x).modCmds = s.modCmds := by
  unfold State.writeP; split <;> rfl
@[simp] theorem State.writeP_conts (s : State) (k r : Nat) (m x : Word32) :
    (s.writeP k r m x).conts = s.conts := by
  unfold State.writeP; split <;> rfl
@[simp] theorem State.writeP_nextId (s : State) (k r : Nat) (m x : Word32) :
    (s.writeP k r m x).nextId = s.nextId := by
  unfold State.writeP; split <;> rfl
@[simp] theorem State.writeP_gov (s : State) (k r : Nat) (m x : Word32) :
    (s.writeP k r m x).gov = s.gov := by
  unfold State.writeP; split <;> rfl
@[simp] theorem State.writeP_xfers (s : State) (k r : Nat) (m x : Word32) :
    (s.writeP k r m x).xfers = s.xfers := by
  unfold State.writeP; split <;> rfl
@[simp] theorem State.writeP_nextXid (s : State) (k r : Nat) (m x : Word32) :
    (s.writeP k r m x).nextXid = s.nextXid := by
  unfold State.writeP; split <;> rfl
@[simp] theorem State.writeP_outq (s : State) (k r : Nat) (m x : Word32) :
    (s.writeP k r m x).outq = s.outq := by
  unfold State.writeP; split <;> rfl
@[simp] theorem State.writeP_links (s : State) (k r : Nat) (m x : Word32) :
    (s.writeP k r m x).links = s.links := by
  unfold State.writeP; split <;> rfl
@[simp] theorem State.writeP_relays (s : State) (k r : Nat) (m x : Word32) :
    (s.writeP k r m x).relays = s.relays := by
  unfold State.writeP; split <;> rfl
@[simp] theorem State.writeP_mcasts (s : State) (k r : Nat) (m x : Word32) :
    (s.writeP k r m x).mcasts = s.mcasts := by
  unfold State.writeP; split <;> rfl
@[simp] theorem State.writeP_flags (s : State) (k r : Nat) (m x : Word32) :
    (s.writeP k r m x).flags = s.flags := by
  unfold State.writeP; split <;> rfl
@[simp] theorem State.writeP_halves (s : State) (k r : Nat) (m x : Word32) :
    (s.writeP k r m x).halves = s.halves := by
  unfold State.writeP; split <;> rfl
@[simp] theorem State.writeP_groups (s : State) (k r : Nat) (m x : Word32) :
    (s.writeP k r m x).groups = s.groups := by
  unfold State.writeP; split <;> rfl
@[simp] theorem State.writeP_lr (s : State) (k r : Nat) (m x : Word32) :
    (s.writeP k r m x).lr = s.lr := by
  unfold State.writeP; split <;> rfl
@[simp] theorem State.writeP_waves (s : State) (k r : Nat) (m x : Word32) :
    (s.writeP k r m x).waves = s.waves := by
  unfold State.writeP; split <;> rfl
@[simp] theorem State.writeP_grps (s : State) (k r : Nat) (m x : Word32) :
    (s.writeP k r m x).grps = s.grps := by
  unfold State.writeP; split <;> rfl
@[simp] theorem State.writeP_fibreRec (s : State) (k r : Nat) (m x : Word32) :
    (s.writeP k r m x).fibreRec = s.fibreRec := by
  unfold State.writeP; split <;> rfl
@[simp] theorem State.writeP_theos (s : State) (k r : Nat) (m x : Word32) :
    (s.writeP k r m x).theos = s.theos := by
  unfold State.writeP; split <;> rfl
@[simp] theorem State.writeP_planes (s : State) (k r : Nat) (m x : Word32) :
    (s.writeP k r m x).planes = s.planes := by
  unfold State.writeP; split <;> rfl
@[simp] theorem State.writeP_heard (s : State) (k r : Nat) (m x : Word32) :
    (s.writeP k r m x).heard = s.heard := by
  unfold State.writeP; split <;> rfl
@[simp] theorem State.writeP_mods (s : State) (k r : Nat) (m x : Word32) :
    (s.writeP k r m x).mods = s.mods := by
  unfold State.writeP; split <;> rfl
@[simp] theorem State.writeP_host (s : State) (k r : Nat) (m x : Word32) :
    (s.writeP k r m x).host = s.host := by
  unfold State.writeP; split <;> rfl
@[simp] theorem State.writeP_waitRecs (s : State) (k r : Nat) (m x : Word32) :
    (s.writeP k r m x).waitRecs = s.waitRecs := by
  unfold State.writeP; split <;> rfl
@[simp] theorem State.writeP_warm (s : State) (k r : Nat) (m x : Word32) :
    (s.writeP k r m x).warm = s.warm := by
  unfold State.writeP; split <;> rfl
@[simp] theorem State.writeP_throttled (s : State) (k r : Nat) (m x : Word32) :
    (s.writeP k r m x).throttled = s.throttled := by
  unfold State.writeP; split <;> rfl
@[simp] theorem State.writeP_excursion (s : State) (k r : Nat) (m x : Word32) :
    (s.writeP k r m x).excursion = s.excursion := by
  unfold State.writeP; split <;> rfl
@[simp] theorem State.writeP_checkpoint (s : State) (k r : Nat) (m x : Word32) :
    (s.writeP k r m x).checkpoint = s.checkpoint := by
  unfold State.writeP; split <;> rfl
@[simp] theorem State.writeP_ckptFault (s : State) (k r : Nat) (m x : Word32) :
    (s.writeP k r m x).ckptFault = s.ckptFault := by
  unfold State.writeP; split <;> rfl
@[simp] theorem State.writeP_images (s : State) (k r : Nat) (m x : Word32) :
    (s.writeP k r m x).images = s.images := by
  unfold State.writeP; split <;> rfl
@[simp] theorem State.writeP_badSram (s : State) (k r : Nat) (m x : Word32) :
    (s.writeP k r m x).badSram = s.badSram := by
  unfold State.writeP; split <;> rfl
@[simp] theorem State.writeP_badRegs (s : State) (k r : Nat) (m x : Word32) :
    (s.writeP k r m x).badRegs = s.badRegs := by
  unfold State.writeP; split <;> rfl
@[simp] theorem State.writeP_time (s : State) (k r : Nat) (m x : Word32) :
    (s.writeP k r m x).time = s.time := by
  unfold State.writeP; split <;> rfl
@[simp] theorem State.writeP_nanos (s : State) (k r : Nat) (m x : Word32) :
    (s.writeP k r m x).nanos = s.nanos := by
  unfold State.writeP; split <;> rfl
@[simp] theorem State.writeP_due (s : State) (k r : Nat) (m x : Word32) :
    (s.writeP k r m x).due = s.due := by
  unfold State.writeP; split <;> rfl
@[simp] theorem State.writeP_focus (s : State) (k r : Nat) (m x : Word32) :
    (s.writeP k r m x).focus = s.focus := by
  unfold State.writeP; split <;> rfl
@[simp] theorem State.writeP_focusB (s : State) (k r : Nat) (m x : Word32) :
    (s.writeP k r m x).focusB = s.focusB := by
  unfold State.writeP; split <;> rfl
@[simp] theorem State.writeP_frees (s : State) (k r : Nat) (m x : Word32) :
    (s.writeP k r m x).frees = s.frees := by
  unfold State.writeP; split <;> rfl
@[simp] theorem State.writeP_choices (s : State) (k r : Nat) (m x : Word32) :
    (s.writeP k r m x).choices = s.choices := by
  unfold State.writeP; split <;> rfl

/-! `State.writeV64`. -/

@[simp] theorem State.writeV64_mem (s : State) (k r : Nat) (m : Word32) (f : Nat → Word64) (t : BitVec 4) :
    (s.writeV64 k r m f t).mem = s.mem := by
  simp [State.writeV64]
@[simp] theorem State.writeV64_tags (s : State) (k r : Nat) (m : Word32) (f : Nat → Word64) (t : BitVec 4) :
    (s.writeV64 k r m f t).tags = s.tags := by
  simp [State.writeV64]
@[simp] theorem State.writeV64_sregs (s : State) (k r : Nat) (m : Word32) (f : Nat → Word64) (t : BitVec 4) :
    (s.writeV64 k r m f t).sregs = s.sregs := by
  simp [State.writeV64]
@[simp] theorem State.writeV64_pregs (s : State) (k r : Nat) (m : Word32) (f : Nat → Word64) (t : BitVec 4) :
    (s.writeV64 k r m f t).pregs = s.pregs := by
  simp [State.writeV64]
@[simp] theorem State.writeV64_acc (s : State) (k r : Nat) (m : Word32) (f : Nat → Word64) (t : BitVec 4) :
    (s.writeV64 k r m f t).acc = s.acc := by
  simp [State.writeV64]
@[simp] theorem State.writeV64_coreUnits (s : State) (k r : Nat) (m : Word32) (f : Nat → Word64) (t : BitVec 4) :
    (s.writeV64 k r m f t).coreUnits = s.coreUnits := by
  simp [State.writeV64]
@[simp] theorem State.writeV64_sliceUnits (s : State) (k r : Nat) (m : Word32) (f : Nat → Word64) (t : BitVec 4) :
    (s.writeV64 k r m f t).sliceUnits = s.sliceUnits := by
  simp [State.writeV64]
@[simp] theorem State.writeV64_sheaves (s : State) (k r : Nat) (m : Word32) (f : Nat → Word64) (t : BitVec 4) :
    (s.writeV64 k r m f t).sheaves = s.sheaves := by
  simp [State.writeV64]
@[simp] theorem State.writeV64_crews (s : State) (k r : Nat) (m : Word32) (f : Nat → Word64) (t : BitVec 4) :
    (s.writeV64 k r m f t).crews = s.crews := by
  simp [State.writeV64]
@[simp] theorem State.writeV64_spans (s : State) (k r : Nat) (m : Word32) (f : Nat → Word64) (t : BitVec 4) :
    (s.writeV64 k r m f t).spans = s.spans := by
  simp [State.writeV64]
@[simp] theorem State.writeV64_launches (s : State) (k r : Nat) (m : Word32) (f : Nat → Word64) (t : BitVec 4) :
    (s.writeV64 k r m f t).launches = s.launches := by
  simp [State.writeV64]
@[simp] theorem State.writeV64_cores (s : State) (k r : Nat) (m : Word32) (f : Nat → Word64) (t : BitVec 4) :
    (s.writeV64 k r m f t).cores = s.cores := by
  simp [State.writeV64]
@[simp] theorem State.writeV64_gens (s : State) (k r : Nat) (m : Word32) (f : Nat → Word64) (t : BitVec 4) :
    (s.writeV64 k r m f t).gens = s.gens := by
  simp [State.writeV64]
@[simp] theorem State.writeV64_ctxs (s : State) (k r : Nat) (m : Word32) (f : Nat → Word64) (t : BitVec 4) :
    (s.writeV64 k r m f t).ctxs = s.ctxs := by
  simp [State.writeV64]
@[simp] theorem State.writeV64_nextLaunch (s : State) (k r : Nat) (m : Word32) (f : Nat → Word64) (t : BitVec 4) :
    (s.writeV64 k r m f t).nextLaunch = s.nextLaunch := by
  simp [State.writeV64]
@[simp] theorem State.writeV64_nextSpan (s : State) (k r : Nat) (m : Word32) (f : Nat → Word64) (t : BitVec 4) :
    (s.writeV64 k r m f t).nextSpan = s.nextSpan := by
  simp [State.writeV64]
@[simp] theorem State.writeV64_nextCrew (s : State) (k r : Nat) (m : Word32) (f : Nat → Word64) (t : BitVec 4) :
    (s.writeV64 k r m f t).nextCrew = s.nextCrew := by
  simp [State.writeV64]
@[simp] theorem State.writeV64_subs (s : State) (k r : Nat) (m : Word32) (f : Nat → Word64) (t : BitVec 4) :
    (s.writeV64 k r m f t).subs = s.subs := by
  simp [State.writeV64]
@[simp] theorem State.writeV64_chunks (s : State) (k r : Nat) (m : Word32) (f : Nat → Word64) (t : BitVec 4) :
    (s.writeV64 k r m f t).chunks = s.chunks := by
  simp [State.writeV64]
@[simp] theorem State.writeV64_modCmds (s : State) (k r : Nat) (m : Word32) (f : Nat → Word64) (t : BitVec 4) :
    (s.writeV64 k r m f t).modCmds = s.modCmds := by
  simp [State.writeV64]
@[simp] theorem State.writeV64_conts (s : State) (k r : Nat) (m : Word32) (f : Nat → Word64) (t : BitVec 4) :
    (s.writeV64 k r m f t).conts = s.conts := by
  simp [State.writeV64]
@[simp] theorem State.writeV64_nextId (s : State) (k r : Nat) (m : Word32) (f : Nat → Word64) (t : BitVec 4) :
    (s.writeV64 k r m f t).nextId = s.nextId := by
  simp [State.writeV64]
@[simp] theorem State.writeV64_gov (s : State) (k r : Nat) (m : Word32) (f : Nat → Word64) (t : BitVec 4) :
    (s.writeV64 k r m f t).gov = s.gov := by
  simp [State.writeV64]
@[simp] theorem State.writeV64_xfers (s : State) (k r : Nat) (m : Word32) (f : Nat → Word64) (t : BitVec 4) :
    (s.writeV64 k r m f t).xfers = s.xfers := by
  simp [State.writeV64]
@[simp] theorem State.writeV64_nextXid (s : State) (k r : Nat) (m : Word32) (f : Nat → Word64) (t : BitVec 4) :
    (s.writeV64 k r m f t).nextXid = s.nextXid := by
  simp [State.writeV64]
@[simp] theorem State.writeV64_outq (s : State) (k r : Nat) (m : Word32) (f : Nat → Word64) (t : BitVec 4) :
    (s.writeV64 k r m f t).outq = s.outq := by
  simp [State.writeV64]
@[simp] theorem State.writeV64_links (s : State) (k r : Nat) (m : Word32) (f : Nat → Word64) (t : BitVec 4) :
    (s.writeV64 k r m f t).links = s.links := by
  simp [State.writeV64]
@[simp] theorem State.writeV64_relays (s : State) (k r : Nat) (m : Word32) (f : Nat → Word64) (t : BitVec 4) :
    (s.writeV64 k r m f t).relays = s.relays := by
  simp [State.writeV64]
@[simp] theorem State.writeV64_mcasts (s : State) (k r : Nat) (m : Word32) (f : Nat → Word64) (t : BitVec 4) :
    (s.writeV64 k r m f t).mcasts = s.mcasts := by
  simp [State.writeV64]
@[simp] theorem State.writeV64_flags (s : State) (k r : Nat) (m : Word32) (f : Nat → Word64) (t : BitVec 4) :
    (s.writeV64 k r m f t).flags = s.flags := by
  simp [State.writeV64]
@[simp] theorem State.writeV64_halves (s : State) (k r : Nat) (m : Word32) (f : Nat → Word64) (t : BitVec 4) :
    (s.writeV64 k r m f t).halves = s.halves := by
  simp [State.writeV64]
@[simp] theorem State.writeV64_groups (s : State) (k r : Nat) (m : Word32) (f : Nat → Word64) (t : BitVec 4) :
    (s.writeV64 k r m f t).groups = s.groups := by
  simp [State.writeV64]
@[simp] theorem State.writeV64_lr (s : State) (k r : Nat) (m : Word32) (f : Nat → Word64) (t : BitVec 4) :
    (s.writeV64 k r m f t).lr = s.lr := by
  simp [State.writeV64]
@[simp] theorem State.writeV64_waves (s : State) (k r : Nat) (m : Word32) (f : Nat → Word64) (t : BitVec 4) :
    (s.writeV64 k r m f t).waves = s.waves := by
  simp [State.writeV64]
@[simp] theorem State.writeV64_grps (s : State) (k r : Nat) (m : Word32) (f : Nat → Word64) (t : BitVec 4) :
    (s.writeV64 k r m f t).grps = s.grps := by
  simp [State.writeV64]
@[simp] theorem State.writeV64_fibreRec (s : State) (k r : Nat) (m : Word32) (f : Nat → Word64) (t : BitVec 4) :
    (s.writeV64 k r m f t).fibreRec = s.fibreRec := by
  simp [State.writeV64]
@[simp] theorem State.writeV64_theos (s : State) (k r : Nat) (m : Word32) (f : Nat → Word64) (t : BitVec 4) :
    (s.writeV64 k r m f t).theos = s.theos := by
  simp [State.writeV64]
@[simp] theorem State.writeV64_planes (s : State) (k r : Nat) (m : Word32) (f : Nat → Word64) (t : BitVec 4) :
    (s.writeV64 k r m f t).planes = s.planes := by
  simp [State.writeV64]
@[simp] theorem State.writeV64_heard (s : State) (k r : Nat) (m : Word32) (f : Nat → Word64) (t : BitVec 4) :
    (s.writeV64 k r m f t).heard = s.heard := by
  simp [State.writeV64]
@[simp] theorem State.writeV64_mods (s : State) (k r : Nat) (m : Word32) (f : Nat → Word64) (t : BitVec 4) :
    (s.writeV64 k r m f t).mods = s.mods := by
  simp [State.writeV64]
@[simp] theorem State.writeV64_host (s : State) (k r : Nat) (m : Word32) (f : Nat → Word64) (t : BitVec 4) :
    (s.writeV64 k r m f t).host = s.host := by
  simp [State.writeV64]
@[simp] theorem State.writeV64_waitRecs (s : State) (k r : Nat) (m : Word32) (f : Nat → Word64) (t : BitVec 4) :
    (s.writeV64 k r m f t).waitRecs = s.waitRecs := by
  simp [State.writeV64]
@[simp] theorem State.writeV64_warm (s : State) (k r : Nat) (m : Word32) (f : Nat → Word64) (t : BitVec 4) :
    (s.writeV64 k r m f t).warm = s.warm := by
  simp [State.writeV64]
@[simp] theorem State.writeV64_throttled (s : State) (k r : Nat) (m : Word32) (f : Nat → Word64) (t : BitVec 4) :
    (s.writeV64 k r m f t).throttled = s.throttled := by
  simp [State.writeV64]
@[simp] theorem State.writeV64_excursion (s : State) (k r : Nat) (m : Word32) (f : Nat → Word64) (t : BitVec 4) :
    (s.writeV64 k r m f t).excursion = s.excursion := by
  simp [State.writeV64]
@[simp] theorem State.writeV64_checkpoint (s : State) (k r : Nat) (m : Word32) (f : Nat → Word64) (t : BitVec 4) :
    (s.writeV64 k r m f t).checkpoint = s.checkpoint := by
  simp [State.writeV64]
@[simp] theorem State.writeV64_ckptFault (s : State) (k r : Nat) (m : Word32) (f : Nat → Word64) (t : BitVec 4) :
    (s.writeV64 k r m f t).ckptFault = s.ckptFault := by
  simp [State.writeV64]
@[simp] theorem State.writeV64_images (s : State) (k r : Nat) (m : Word32) (f : Nat → Word64) (t : BitVec 4) :
    (s.writeV64 k r m f t).images = s.images := by
  simp [State.writeV64]
@[simp] theorem State.writeV64_badSram (s : State) (k r : Nat) (m : Word32) (f : Nat → Word64) (t : BitVec 4) :
    (s.writeV64 k r m f t).badSram = s.badSram := by
  simp [State.writeV64]
@[simp] theorem State.writeV64_badWords (s : State) (k r : Nat) (m : Word32) (f : Nat → Word64) (t : BitVec 4) :
    (s.writeV64 k r m f t).badWords = s.badWords := by
  simp [State.writeV64]
@[simp] theorem State.writeV64_time (s : State) (k r : Nat) (m : Word32) (f : Nat → Word64) (t : BitVec 4) :
    (s.writeV64 k r m f t).time = s.time := by
  simp [State.writeV64]
@[simp] theorem State.writeV64_nanos (s : State) (k r : Nat) (m : Word32) (f : Nat → Word64) (t : BitVec 4) :
    (s.writeV64 k r m f t).nanos = s.nanos := by
  simp [State.writeV64]
@[simp] theorem State.writeV64_due (s : State) (k r : Nat) (m : Word32) (f : Nat → Word64) (t : BitVec 4) :
    (s.writeV64 k r m f t).due = s.due := by
  simp [State.writeV64]
@[simp] theorem State.writeV64_focus (s : State) (k r : Nat) (m : Word32) (f : Nat → Word64) (t : BitVec 4) :
    (s.writeV64 k r m f t).focus = s.focus := by
  simp [State.writeV64]
@[simp] theorem State.writeV64_focusB (s : State) (k r : Nat) (m : Word32) (f : Nat → Word64) (t : BitVec 4) :
    (s.writeV64 k r m f t).focusB = s.focusB := by
  simp [State.writeV64]
@[simp] theorem State.writeV64_frees (s : State) (k r : Nat) (m : Word32) (f : Nat → Word64) (t : BitVec 4) :
    (s.writeV64 k r m f t).frees = s.frees := by
  simp [State.writeV64]
@[simp] theorem State.writeV64_choices (s : State) (k r : Nat) (m : Word32) (f : Nat → Word64) (t : BitVec 4) :
    (s.writeV64 k r m f t).choices = s.choices := by
  simp [State.writeV64]

end Sys2Proof.Machine
end

