-- ==== Sys2Proof/Laws/Fetch.lean ====
section
/-!
SUPPORT. What a fetch can find and what keeping a fetch block changes (R149).
-/

namespace Sys2Proof.Machine

open Sys2Proof

/-- Keeping a fetch block changes nothing, or adds one form to those the sheaf keeps. -/
theorem State.keepBlock_cases (s : State) (k : Nat) (b : Bool) : s.keepBlock k b = s ∨
    ∃ e, s.keepBlock k b = s.modSheaf k fun x => { x with code := x.code ++ [e] } := by
  unfold State.keepBlock
  dsimp only
  split
  · split
    · exact .inl rfl
    · exact .inr ⟨_, rfl⟩
  · exact .inl rfl

@[simp] theorem State.keepBlock_mem (s : State) (k : Nat) (b : Bool) : (s.keepBlock k b).mem = s.mem := by
  rcases s.keepBlock_cases k b with h | ⟨e, h⟩ <;> simp [h]

@[simp] theorem State.keepBlock_tags (s : State) (k : Nat) (b : Bool) : (s.keepBlock k b).tags = s.tags := by
  rcases s.keepBlock_cases k b with h | ⟨e, h⟩ <;> simp [h]

/-- A kept form that a fetch returns is one the sheaf holds for that block. -/
theorem State.keptForm_mem (s : State) (k : Nat) (blk : Word64) (bs : List Byte) (h : s.keptForm k blk = some bs) :
    (blk, bs) ∈ (s.sheaf k).code := by
  unfold State.keptForm at h
  split at h
  · exact absurd h (by simp)
  · have key : ∀ f ∈ ((s.sheaf k).code.filter fun p => p.1 == blk).map (·.2), (blk, f) ∈ (s.sheaf k).code := fun f hf => by
      obtain ⟨q, hq, rfl⟩ := List.mem_map.mp hf
      obtain ⟨hq, he⟩ := List.mem_filter.mp hq
      rwa [show blk = q.1 from (beq_iff_eq.mp he).symm]
    split at h
    · exact absurd h (by simp)
    · exact key bs (List.mem_of_mem_filter (List.mem_of_getElem? h))

/-- A sheaf that keeps no form of a block reads it again. -/
theorem State.keptForm_none (s : State) (k : Nat) (blk : Word64) (h : ∀ w, (blk, w) ∉ (s.sheaf k).code) :
    s.keptForm k blk = none := by
  cases hk : s.keptForm k blk with
  | none => rfl
  | some w => exact absurd (s.keptForm_mem k blk w hk) (h w)

end Sys2Proof.Machine
end

