-- ==== Sys2Proof/Laws/Fields.lean ====
section
/-!
SUPPORT. Laws of the fields of a word: what each small code reads as, and that a word of fields reads as those fields.
-/

namespace Sys2Proof

/-! Codes of the small types. -/

theorem Ty.ofCode_code (t : Ty) : Ty.ofCode t.code = t := by cases t <;> rfl
theorem Rnd.ofCode_code (x : Rnd) : Rnd.ofCode x.code = x := by cases x <;> rfl
theorem Cond.ofCode_code (x : Cond) : Cond.ofCode x.code = x := by cases x <;> rfl
theorem FCond.ofCode_code (x : FCond) : FCond.ofCode x.code = x := by cases x <;> rfl
theorem Order.ofCode_code (x : Order) : Order.ofCode x.code = x := by cases x <;> rfl
theorem Scope.ofCode_code (x : Scope) : Scope.ofCode x.code = x := by cases x <;> rfl
theorem AtomOp.ofCode_code (x : AtomOp) : AtomOp.ofCode x.code = x := by cases x <;> rfl
theorem RedOp.ofCode_code (x : RedOp) : RedOp.ofCode x.code = x := by cases x <;> rfl
theorem MredOp.ofCode_code (x : MredOp) : MredOp.ofCode x.code = x := by cases x <;> rfl
theorem ShflMode.ofCode_code (x : ShflMode) : ShflMode.ofCode x.code = x := by cases x <;> rfl
theorem XSize.ofCode_code (x : XSize) : XSize.ofCode x.code = x := by cases x <;> rfl
theorem GenWhich.ofCode_code (x : GenWhich) : GenWhich.ofCode x.code = x := by cases x <;> rfl
theorem AbqWhat.ofCode_code (x : AbqWhat) : AbqWhat.ofCode x.code = x := by cases x <;> rfl
theorem TwqWhat.ofCode_code (x : TwqWhat) : TwqWhat.ofCode x.code = x := by cases x <;> rfl
theorem MigqWhat.ofCode_code (x : MigqWhat) : MigqWhat.ofCode x.code = x := by cases x <;> rfl
theorem MigPart.ofCode_code (x : MigPart) : MigPart.ofCode x.code = x := by cases x <;> rfl
theorem DbgWhat.ofCode_code (x : DbgWhat) : DbgWhat.ofCode x.code = x := by cases x <;> rfl

/-! Operand codes. -/

theorem vregOf_code (r : VReg) : vregOf (VReg.code r) = r := by revert r; decide +kernel
theorem sregOf_code (r : SReg) : sregOf (SReg.code r) = r := by revert r; decide
theorem pregOf_code (r : PReg) : pregOf (PReg.code r) = r := by revert r; decide
theorem tileOf_code (r : Tile) : tileOf (Tile.code r) = r := by revert r; decide
theorem descOf_code (r : Desc) : descOf (Desc.code r) = r := by revert r; decide
theorem vreg_code_lt (r : VReg) : (VReg.code r).toNat < 192 := by revert r; decide +kernel
theorem sreg_code_ge (r : SReg) : ¬(SReg.code r).toNat < 192 := by revert r; decide

theorem vsrcOf_code (x : VSrc) : vsrcOf x.code = x := by
  cases x with
  | v r => show (if (VReg.code r).toNat < 192 then _ else _) = _; rw [if_pos (vreg_code_lt r)]; exact congrArg _ (vregOf_code r)
  | s r => show (if (SReg.code r).toNat < 192 then _ else _) = _; rw [if_neg (sreg_code_ge r)]; exact congrArg _ (sregOf_code r)

theorem srOf_code (x : BitVec 4) : srOf (x.setWidth 8) = x := by revert x; decide

theorem toFin_ofNat3 (p : Fin 8) : (fin3 p).toFin = p := by revert p; decide
theorem toFin_ofNat6 (p : Fin 64) : (BitVec.ofNat 6 p.val).toFin = p := by revert p; decide

/-! Modifier bytes. -/

theorem mdA_rnd (rnd : Rnd) (sat sb : Bool) (x : BitVec 3) : (mdA rnd sat sb x).extractLsb' 5 3 = rnd.code := by
  revert x; cases rnd <;> cases sat <;> cases sb <;> decide
theorem mdA_sat (rnd : Rnd) (sat sb : Bool) (x : BitVec 3) : (mdA rnd sat sb x).getLsbD 4 = sat := by
  revert x; cases rnd <;> cases sat <;> cases sb <;> decide
theorem mdA_sb (rnd : Rnd) (sat sb : Bool) (x : BitVec 3) : (mdA rnd sat sb x).getLsbD 3 = sb := by
  revert x; cases rnd <;> cases sat <;> cases sb <;> decide
theorem mdA_xop (rnd : Rnd) (sat sb : Bool) (x : BitVec 3) : (mdA rnd sat sb x).extractLsb' 0 3 = x := by
  revert x; cases rnd <;> cases sat <;> cases sb <;> decide
theorem mdA_x (rnd : Rnd) (sat sb : Bool) (x : BitVec 3) : (mdA rnd sat sb x).toNat % 8 = x.toNat := by
  revert x; cases rnd <;> cases sat <;> cases sb <;> decide
theorem mdA_low2 (rnd : Rnd) (sat sb : Bool) (x : BitVec 3) : (mdA rnd sat sb x).extractLsb' 0 2 = x.extractLsb' 0 2 := by
  revert x; cases rnd <;> cases sat <;> cases sb <;> decide
theorem mdA_bit0 (rnd : Rnd) (sat sb : Bool) (x : BitVec 3) : (mdA rnd sat sb x).getLsbD 0 = x.getLsbD 0 := by
  revert x; cases rnd <;> cases sat <;> cases sb <;> decide
theorem mdA_bit2 (rnd : Rnd) (sat sb : Bool) (x : BitVec 3) : (mdA rnd sat sb x).getLsbD 2 = x.getLsbD 2 := by
  revert x; cases rnd <;> cases sat <;> cases sb <;> decide
theorem mdO_ord (ord : Order) (scp : Scope) (x : BitVec 3) : (mdO ord scp x).extractLsb' 6 2 = ord.code := by
  revert x; cases ord <;> cases scp <;> decide
theorem mdO_scp (ord : Order) (scp : Scope) (x : BitVec 3) : (mdO ord scp x).extractLsb' 3 3 = scp.code := by
  revert x; cases ord <;> cases scp <;> decide
theorem mdO_xop (ord : Order) (scp : Scope) (x : BitVec 3) : (mdO ord scp x).extractLsb' 0 3 = x := by
  revert x; cases ord <;> cases scp <;> decide
theorem mdO_x (ord : Order) (scp : Scope) (x : BitVec 3) : (mdO ord scp x).toNat % 8 = x.toNat := by
  revert x; cases ord <;> cases scp <;> decide
theorem mdO_bit0 (ord : Order) (scp : Scope) (x : BitVec 3) : (mdO ord scp x).getLsbD 0 = x.getLsbD 0 := by
  revert x; cases ord <;> cases scp <;> decide
theorem mdO_bit1 (ord : Order) (scp : Scope) (x : BitVec 3) : (mdO ord scp x).getLsbD 1 = x.getLsbD 1 := by
  revert x; cases ord <;> cases scp <;> decide
theorem mdO_bit2 (ord : Order) (scp : Scope) (x : BitVec 3) : (mdO ord scp x).getLsbD 2 = x.getLsbD 2 := by
  revert x; cases ord <;> cases scp <;> decide
theorem mdG_xop (x : BitVec 3) : (mdG x).extractLsb' 0 3 = x := by revert x; decide
theorem mdG_x (x : BitVec 3) : (mdG x).toNat % 8 = x.toNat := by revert x; decide
theorem mdG_bit0 (x : BitVec 3) : (mdG x).getLsbD 0 = x.getLsbD 0 := by revert x; decide
theorem mdG_bit1 (x : BitVec 3) : (mdG x).getLsbD 1 = x.getLsbD 1 := by revert x; decide

/-! Words. -/

/-- The extension of a word holds nothing beyond its length. -/
def Raw.extOk (r : Raw) : Bool :=
  match r.len with
  | .w64 => r.ext == 0
  | .w96 => r.ext.extractLsb' 32 32 == 0
  | .w128 => true

theorem Raw.hdr_eq (r : Raw) (h : Hdr) (h1 : r.sw = h.sw) (h2 : r.gp = BitVec.ofNat 3 h.gp.val) (h3 : r.gn = h.gn) :
    r.hdr = h := by
  obtain ⟨gn, gp, sw⟩ := h
  simp only at h1 h2 h3
  unfold Raw.hdr
  subst h1 h3
  congr 1
  ext
  simp [h2]

theorem Raw.toBits_len (r : Raw) : r.toBits.extractLsb' 0 2 = r.len.code := by
  simp (disch := omega) only [Raw.toBits, BitVec.extractLsb'_append_eq_of_add_le]
  simp

theorem Raw.toBits_code (r : Raw) : r.toBits.extractLsb' 3 5 = r.code := by
  simp (disch := omega) only [Raw.toBits, BitVec.extractLsb'_append_eq_of_le, BitVec.extractLsb'_append_eq_of_add_le]
  simp

theorem Raw.toBits_cls (r : Raw) : r.toBits.extractLsb' 8 4 = r.cls := by
  simp (disch := omega) only [Raw.toBits, BitVec.extractLsb'_append_eq_of_le, BitVec.extractLsb'_append_eq_of_add_le]
  simp

theorem Raw.toBits_gp (r : Raw) : r.toBits.extractLsb' 12 3 = r.gp := by
  simp (disch := omega) only [Raw.toBits, BitVec.extractLsb'_append_eq_of_le, BitVec.extractLsb'_append_eq_of_add_le]
  simp

theorem Raw.toBits_d (r : Raw) : r.toBits.extractLsb' 16 8 = r.d := by
  simp (disch := omega) only [Raw.toBits, BitVec.extractLsb'_append_eq_of_le, BitVec.extractLsb'_append_eq_of_add_le]
  simp

theorem Raw.toBits_a (r : Raw) : r.toBits.extractLsb' 24 8 = r.a := by
  simp (disch := omega) only [Raw.toBits, BitVec.extractLsb'_append_eq_of_le, BitVec.extractLsb'_append_eq_of_add_le]
  simp

theorem Raw.toBits_b (r : Raw) : r.toBits.extractLsb' 32 8 = r.b := by
  simp (disch := omega) only [Raw.toBits, BitVec.extractLsb'_append_eq_of_le, BitVec.extractLsb'_append_eq_of_add_le]
  simp

theorem Raw.toBits_c (r : Raw) : r.toBits.extractLsb' 40 8 = r.c := by
  simp (disch := omega) only [Raw.toBits, BitVec.extractLsb'_append_eq_of_le, BitVec.extractLsb'_append_eq_of_add_le]
  simp

theorem Raw.toBits_ty (r : Raw) : r.toBits.extractLsb' 48 8 = r.ty := by
  simp (disch := omega) only [Raw.toBits, BitVec.extractLsb'_append_eq_of_le, BitVec.extractLsb'_append_eq_of_add_le]
  simp

theorem Raw.toBits_md (r : Raw) : r.toBits.extractLsb' 56 8 = r.md := by
  simp (disch := omega) only [Raw.toBits, BitVec.extractLsb'_append_eq_of_le, BitVec.extractLsb'_append_eq_of_add_le]
  simp

theorem Raw.toBits_ext (r : Raw) : r.toBits.extractLsb' 64 64 = r.ext := by
  simp (disch := omega) only [Raw.toBits, BitVec.extractLsb'_append_eq_of_le]
  simp

theorem Raw.toBits_ext32 (r : Raw) : r.toBits.extractLsb' 64 32 = r.ext.extractLsb' 0 32 := by
  simp (disch := omega) only [Raw.toBits, BitVec.extractLsb'_append_eq_of_le]

theorem Raw.toBits_sw (r : Raw) : r.toBits.getLsbD 2 = r.sw := by
  simp only [Raw.toBits, BitVec.getLsbD_append]
  simp

theorem Raw.toBits_gn (r : Raw) : r.toBits.getLsbD 15 = r.gn := by
  simp only [Raw.toBits, BitVec.getLsbD_append]
  simp

/-- The word of fields reads as those fields. -/
theorem Raw.ofBits_toBits (r : Raw) (h : r.extOk = true) : Raw.ofBits r.toBits = r := by
  unfold Raw.ofBits
  rw [r.toBits_len, r.toBits_code, r.toBits_cls, r.toBits_gp, r.toBits_d, r.toBits_a, r.toBits_b, r.toBits_c, r.toBits_ty,
    r.toBits_md, r.toBits_ext, r.toBits_ext32, r.toBits_sw, r.toBits_gn]
  obtain ⟨len, sw, code, cls, gp, gn, d, a, b, c, ty, md, ext⟩ := r
  cases len with
  | w64 =>
    simp [Raw.extOk] at h
    simp [Len.code, h]
  | w96 =>
    simp only [Raw.extOk, beq_iff_eq] at h
    simp only [Len.code]
    congr 1
    ext i hi
    have hb := congrArg (fun x => BitVec.getLsbD x (i - 32)) h
    simp at hb
    by_cases h32 : i < 32
    · simp [h32, BitVec.getLsbD_eq_getElem hi]
    · have : 32 + (i - 32) = i := by omega
      rw [this] at hb
      simp [h32]
      have := hb (by omega)
      rw [← BitVec.getLsbD_eq_getElem hi]; simpa using this
  | w128 => simp [Len.code]

/-- A word whose fields read as a well-formed instruction, whose own fields they are, decodes to it. -/
theorem decodeRaw_encodeRaw (i : Instr) (hw : i.wf = true) (hc : candidate (encodeRaw i) = some i) :
    decodeRaw (encodeRaw i) = .ok i := by
  simp [decodeRaw, hc, hw]

theorem Len.code_ne (l : Len) : l.code ≠ 3 := by cases l <;> decide

/-- The round trip of an instruction that has fields. -/
theorem decodeBits_encode (i : Instr) (hp : encode i = (encodeRaw i).toBits) (hw : i.wf = true)
    (hx : (encodeRaw i).extOk = true) (hc : candidate (encodeRaw i) = some i) : decodeBits (encode i) = .ok i := by
  rw [hp, decodeBits, Raw.toBits_len, if_neg (Len.code_ne _), Raw.ofBits_toBits _ hx, decodeRaw_encodeRaw i hw hc]

/-- The same with the fields written out. -/
theorem round (i : Instr) (r : Raw) (he : encodeRaw i = r) (hp : encode i = (encodeRaw i).toBits) (hw : i.wf = true)
    (hx : r.extOk = true) (hc : candidate r = some i) : decodeBits (encode i) = .ok i :=
  decodeBits_encode i hp hw (he ▸ hx) (he ▸ hc)

theorem extOk_imm96 (r : Raw) (x : Word32) : (r.imm96 x).extOk = true := by
  simp only [Raw.extOk, Raw.imm96, beq_iff_eq]
  ext i hi; simp

/-! Groups of fields. -/

theorem Raw.hdr_mk (len : Len) (cls : BitVec 4) (code : BitVec 5) (h : Hdr) (d a b c ty md : Byte) (ext : BitVec 64) :
    Raw.hdr ⟨len, h.sw, code, cls, BitVec.ofNat 3 h.gp.val, h.gn, d, a, b, c, ty, md, ext⟩ = h :=
  Raw.hdr_eq _ _ rfl rfl rfl

theorem imm32_setWidth (x : Word32) : (x.setWidth 64).extractLsb' 0 32 = x := by
  ext i hi
  simp only [BitVec.getElem_extractLsb', BitVec.getLsbD_setWidth, Nat.zero_add, BitVec.getLsbD_eq_getElem hi]
  simp; omega

theorem field_setWidth (x : Word32) (s n : Nat) (h : s + n ≤ 32) : (x.setWidth 64).extractLsb' s n = x.extractLsb' s n := by
  ext i hi; simp; omega

theorem off24_parts (o : BitVec 24) : o.extractLsb' 16 8 ++ o.extractLsb' 8 8 ++ o.extractLsb' 0 8 = o := by
  ext i hi
  simp only [BitVec.getElem_append, BitVec.getElem_extractLsb']
  split <;> (try split) <;> (rw [← BitVec.getLsbD_eq_getElem]; congr 1; omega)

theorem base_code (b : Option SReg) : (if b.isNone = true then none else some (sregOf (baseCode b))) = b := by
  cases b <;> simp [baseCode, sregOf_code]

theorem idx_code (b : Option VSrc) : (if b.isNone = true then none else some (vsrcOf (idxCode b))) = b := by
  cases b <;> simp [idxCode, vsrcOf_code]

theorem fill_code (b : Option VSrc) : (if b.isSome = true then some (vsrcOf (fillCode b)) else none) = b := by
  cases b <;> simp [fillCode, vsrcOf_code]

theorem bits3_0 (x : BitVec 1) (y z : Bool) : (x ++ BitVec.ofBool y ++ BitVec.ofBool z).getLsbD 0 = z := by
  revert x; cases y <;> cases z <;> decide
theorem bits3_1 (x : BitVec 1) (y z : Bool) : (x ++ BitVec.ofBool y ++ BitVec.ofBool z).getLsbD 1 = y := by
  revert x; cases y <;> cases z <;> decide
theorem bits3_2 (x : BitVec 1) (y z : Bool) : (x ++ BitVec.ofBool y ++ BitVec.ofBool z).getLsbD 2 = x.getLsbD 0 := by
  revert x; cases y <;> cases z <;> decide
theorem bits12_2 (x : Bool) (y : BitVec 2) : (BitVec.ofBool x ++ y).getLsbD 2 = x := by
  revert y; cases x <;> decide
theorem bits12_low (x : Bool) (y : BitVec 2) : (BitVec.ofBool x ++ y).extractLsb' 0 2 = y := by
  revert y; cases x <;> decide
theorem fin4_low (p : Fin 4) : (BitVec.ofNat 2 p.val).toFin = p := by revert p; decide

theorem cf_rows (rows cols depth : BitVec 16) (inc : Incoming) (f : Bool) :
    (cf rows cols depth inc f).extractLsb' 0 16 = rows := by
  simp (disch := omega) only [cf, BitVec.extractLsb'_append_eq_of_add_le]
  simp
theorem cf_cols (rows cols depth : BitVec 16) (inc : Incoming) (f : Bool) :
    (cf rows cols depth inc f).extractLsb' 16 16 = cols := by
  simp (disch := omega) only [cf, BitVec.extractLsb'_append_eq_of_le, BitVec.extractLsb'_append_eq_of_add_le]
  simp
theorem cf_depth (rows cols depth : BitVec 16) (inc : Incoming) (f : Bool) :
    (cf rows cols depth inc f).extractLsb' 32 16 = depth := by
  simp (disch := omega) only [cf, BitVec.extractLsb'_append_eq_of_le, BitVec.extractLsb'_append_eq_of_add_le]
  simp
theorem cf_z (rows cols depth : BitVec 16) (inc : Incoming) (f : Bool) :
    (cf rows cols depth inc f).getLsbD 48 = (inc == .z) := by
  simp only [cf, BitVec.getLsbD_append]
  simp
theorem cf_k (rows cols depth : BitVec 16) (inc : Incoming) (f : Bool) :
    (cf rows cols depth inc f).getLsbD 49 = (inc == .k) := by
  simp only [cf, BitVec.getLsbD_append]
  simp
theorem cf_f (rows cols depth : BitVec 16) (inc : Incoming) (f : Bool) :
    (cf rows cols depth inc f).getLsbD 50 = f := by
  simp only [cf, BitVec.getLsbD_append]
  simp

theorem bsImm_wa (wa wb wd : BitVec 4) (sg : Bool) : ((bsImm wa wb wd sg).setWidth 64).extractLsb' 0 4 = wa := by
  rw [field_setWidth _ _ _ (by omega)]
  simp (disch := omega) only [bsImm, BitVec.extractLsb'_append_eq_of_add_le]
  simp
theorem bsImm_wb (wa wb wd : BitVec 4) (sg : Bool) : ((bsImm wa wb wd sg).setWidth 64).extractLsb' 4 4 = wb := by
  rw [field_setWidth _ _ _ (by omega)]
  simp (disch := omega) only [bsImm, BitVec.extractLsb'_append_eq_of_le, BitVec.extractLsb'_append_eq_of_add_le]
  simp
theorem bsImm_wd (wa wb wd : BitVec 4) (sg : Bool) : ((bsImm wa wb wd sg).setWidth 64).extractLsb' 8 4 = wd := by
  rw [field_setWidth _ _ _ (by omega)]
  simp (disch := omega) only [bsImm, BitVec.extractLsb'_append_eq_of_le, BitVec.extractLsb'_append_eq_of_add_le]
  simp
theorem bsImm_sg (wa wb wd : BitVec 4) (sg : Bool) : ((bsImm wa wb wd sg).setWidth 64).getLsbD 12 = sg := by
  simp only [bsImm, BitVec.getLsbD_setWidth, BitVec.getLsbD_append]
  simp

theorem masks_rows (rows cols : BitVec 16) : (0#32 ++ cols ++ rows).extractLsb' 0 16 = rows := by
  simp (disch := omega) only [BitVec.extractLsb'_append_eq_of_add_le]
  simp
theorem masks_cols (rows cols : BitVec 16) : (0#32 ++ cols ++ rows).extractLsb' 16 16 = cols := by
  simp (disch := omega) only [BitVec.extractLsb'_append_eq_of_le, BitVec.extractLsb'_append_eq_of_add_le]
  simp

theorem low2_01 (p : Fin 4) : (0#1 ++ BitVec.ofNat 2 p.val).extractLsb' 0 2 = BitVec.ofNat 2 p.val := by revert p; decide
theorem bit0_21 (x : Bool) : (0#2 ++ BitVec.ofBool x).getLsbD 0 = x := by cases x <;> decide
theorem fin64_ofNat (m : Fin 64) : (⟨(BitVec.ofNat 32 m.val).toNat % 64, Nat.mod_lt _ (by decide)⟩ : Fin 64) = m := by
  revert m; decide
theorem byte_low4 (x : BitVec 4) : (x.setWidth 8).extractLsb' 0 4 = x := by revert x; decide
theorem xmcast_g (bv : Bool) (slot : BitVec 6) (len : BitVec 3) (g : Byte) : ((0#14 ++ BitVec.ofBool bv ++ slot ++ len ++ g).setWidth 64).extractLsb' 0 8 = g := by
  rw [field_setWidth _ _ _ (by omega)]
  simp (disch := omega) only [BitVec.extractLsb'_append_eq_of_add_le]
  simp
theorem xmcast_len (bv : Bool) (slot : BitVec 6) (len : BitVec 3) (g : Byte) : ((0#14 ++ BitVec.ofBool bv ++ slot ++ len ++ g).setWidth 64).extractLsb' 8 3 = len := by
  rw [field_setWidth _ _ _ (by omega)]
  simp (disch := omega) only [BitVec.extractLsb'_append_eq_of_le, BitVec.extractLsb'_append_eq_of_add_le]
  simp
theorem xmcast_slot (bv : Bool) (slot : BitVec 6) (len : BitVec 3) (g : Byte) : ((0#14 ++ BitVec.ofBool bv ++ slot ++ len ++ g).setWidth 64).extractLsb' 11 6 = slot := by
  rw [field_setWidth _ _ _ (by omega)]
  simp (disch := omega) only [BitVec.extractLsb'_append_eq_of_le, BitVec.extractLsb'_append_eq_of_add_le]
  simp
theorem xmcast_bv (bv : Bool) (slot : BitVec 6) (len : BitVec 3) (g : Byte) : ((0#14 ++ BitVec.ofBool bv ++ slot ++ len ++ g).setWidth 64).getLsbD 17 = bv := by
  simp only [BitVec.getLsbD_setWidth, BitVec.getLsbD_append]
  simp
theorem rrset_n (own : Bool) (ctx : BitVec 10) (n : BitVec 4) : ((0#17 ++ BitVec.ofBool own ++ ctx ++ n).setWidth 64).extractLsb' 0 4 = n := by
  rw [field_setWidth _ _ _ (by omega)]
  simp (disch := omega) only [BitVec.extractLsb'_append_eq_of_add_le]
  simp
theorem rrset_ctx (own : Bool) (ctx : BitVec 10) (n : BitVec 4) : ((0#17 ++ BitVec.ofBool own ++ ctx ++ n).setWidth 64).extractLsb' 4 10 = ctx := by
  rw [field_setWidth _ _ _ (by omega)]
  simp (disch := omega) only [BitVec.extractLsb'_append_eq_of_le, BitVec.extractLsb'_append_eq_of_add_le]
  simp
theorem rrset_own (own : Bool) (ctx : BitVec 10) (n : BitVec 4) : ((0#17 ++ BitVec.ofBool own ++ ctx ++ n).setWidth 64).getLsbD 14 = own := by
  simp only [BitVec.getLsbD_setWidth, BitVec.getLsbD_append]
  simp
theorem rrinv_mask (own : Bool) (ctx : BitVec 10) (mask : BitVec 16) : ((0#5 ++ BitVec.ofBool own ++ ctx ++ mask).setWidth 64).extractLsb' 0 16 = mask := by
  rw [field_setWidth _ _ _ (by omega)]
  simp (disch := omega) only [BitVec.extractLsb'_append_eq_of_add_le]
  simp
theorem rrinv_ctx (own : Bool) (ctx : BitVec 10) (mask : BitVec 16) : ((0#5 ++ BitVec.ofBool own ++ ctx ++ mask).setWidth 64).extractLsb' 16 10 = ctx := by
  rw [field_setWidth _ _ _ (by omega)]
  simp (disch := omega) only [BitVec.extractLsb'_append_eq_of_le, BitVec.extractLsb'_append_eq_of_add_le]
  simp
theorem rrinv_own (own : Bool) (ctx : BitVec 10) (mask : BitVec 16) : ((0#5 ++ BitVec.ofBool own ++ ctx ++ mask).setWidth 64).getLsbD 26 = own := by
  simp only [BitVec.getLsbD_setWidth, BitVec.getLsbD_append]
  simp
theorem wcsld_m (n : BitVec 5) (m : BitVec 6) : ((0#19 ++ n ++ 0#2 ++ m).setWidth 64).extractLsb' 0 6 = m := by
  rw [field_setWidth _ _ _ (by omega)]
  simp (disch := omega) only [BitVec.extractLsb'_append_eq_of_add_le]
  simp
theorem wcsld_n (n : BitVec 5) (m : BitVec 6) : ((0#19 ++ n ++ 0#2 ++ m).setWidth 64).extractLsb' 8 5 = n := by
  rw [field_setWidth _ _ _ (by omega)]
  simp (disch := omega) only [BitVec.extractLsb'_append_eq_of_le, BitVec.extractLsb'_append_eq_of_add_le]
  simp

/-- The round trip of a pad word. -/
theorem decodeBits_pad (p : BitVec 30) : decodeBits (encode (.pad p)) = .ok (.pad p) := by
  have h1 : (BitVec.setWidth 128 (p ++ 3#2)).extractLsb' 0 2 = 3 := by
    ext i hi
    simp only [BitVec.getElem_extractLsb', BitVec.getLsbD_setWidth, BitVec.getLsbD_append]
    simp [hi]; omega
  have h2 : (BitVec.setWidth 128 (p ++ 3#2)).extractLsb' 2 30 = p := by
    ext i hi
    simp only [BitVec.getElem_extractLsb', BitVec.getLsbD_setWidth, BitVec.getLsbD_append]
    simp [show 2 + i < 128 by omega, BitVec.getLsbD_eq_getElem hi]
    omega
  show (if (BitVec.setWidth 128 (p ++ 3#2)).extractLsb' 0 2 = 3 then _ else _) = _
  rw [if_pos h1]
  show Except.ok (Instr.pad ((BitVec.setWidth 128 (p ++ 3#2)).extractLsb' 2 30)) = _
  rw [h2]

end Sys2Proof
end

