-- ==== Sys2Proof/Laws/Tab.lean ====
section
/-!
SUPPORT. Laws of sparse tables: what a key reads as after a write or a removal, and that every operation keeps the
canonical form.
-/

namespace Sys2Proof.Machine

variable {β : Type}

theorem Tab.find_nil (i : Nat) : Tab.find ([] : Tab β) i = none := rfl

/-- A key reads as what was put there. -/
theorem Tab.find_put_same (t : Tab β) (i : Nat) (x : β) : Tab.find (Tab.put t i x) i = some x := by
  induction t with
  | nil => simp [Tab.put, Tab.find]
  | cons p t ih =>
    obtain ⟨k, v⟩ := p
    simp only [Tab.put]
    split
    · simp [Tab.find]
    · split
      · simp [Tab.find]
      · rename_i h1 h2
        simp [Tab.find, h1, h2, ih]

/-- A put leaves every other key as it was. -/
theorem Tab.find_put_other (t : Tab β) {i j : Nat} (h : j ≠ i) (x : β) : Tab.find (Tab.put t i x) j = Tab.find t j := by
  induction t with
  | nil => simp [Tab.put, Tab.find, h]
  | cons p t ih =>
    obtain ⟨k, v⟩ := p
    simp only [Tab.put]
    split
    · subst_vars; simp [Tab.find, h]
    · split
      · rename_i h1 h2
        simp only [Tab.find, h, if_false]
        split
        · rw [if_neg (by omega), if_pos (by omega)]
        · rfl
      · simp [Tab.find, ih]

theorem Tab.get_put_same (d : β) (t : Tab β) (i : Nat) (x : β) : Tab.get d (Tab.put t i x) i = x := by
  simp [Tab.get, Tab.find_put_same]

theorem Tab.get_put_other (d : β) (t : Tab β) {i j : Nat} (h : j ≠ i) (x : β) :
    Tab.get d (Tab.put t i x) j = Tab.get d t j := by simp [Tab.get, Tab.find_put_other t h]

/-- A change of an entry: the entry changes, if there is one. -/
theorem Tab.find_mod_same (t : Tab β) (i : Nat) (f : β → β) : Tab.find (Tab.mod t i f) i = (Tab.find t i).map f := by
  unfold Tab.mod
  split
  · simp_all
  · simp_all [Tab.find_put_same]

theorem Tab.find_mod_other (t : Tab β) {i j : Nat} (h : j ≠ i) (f : β → β) :
    Tab.find (Tab.mod t i f) j = Tab.find t j := by
  unfold Tab.mod
  split
  · rfl
  · exact Tab.find_put_other t h _

theorem Tab.get_mod_other (d : β) (t : Tab β) {i j : Nat} (h : j ≠ i) (f : β → β) :
    Tab.get d (Tab.mod t i f) j = Tab.get d t j := by simp [Tab.get, Tab.find_mod_other t h]

/-- Below its first key a table with rising keys holds nothing. -/
theorem Tab.find_of_lt (t : Tab β) {lo i : Nat} (hs : Tab.sortedFrom lo t = true) (h : i < lo) : Tab.find t i = none := by
  cases t with
  | nil => rfl
  | cons p t =>
    obtain ⟨k, v⟩ := p
    simp [Tab.sortedFrom] at hs
    simp only [Tab.find]
    rw [if_neg (by omega), if_pos (by omega)]

theorem Tab.sortedFrom_mono (t : Tab β) {lo lo' : Nat} (h : lo' ≤ lo) (hs : Tab.sortedFrom lo t = true) :
    Tab.sortedFrom lo' t = true := by
  cases t with
  | nil => rfl
  | cons p t =>
    obtain ⟨k, v⟩ := p
    simp [Tab.sortedFrom] at hs ⊢
    exact ⟨by omega, hs.2⟩

/-- A put keeps the keys rising. -/
theorem Tab.sortedFrom_put (t : Tab β) {lo i : Nat} (hs : Tab.sortedFrom lo t = true) (h : lo ≤ i) (x : β) :
    Tab.sortedFrom lo (Tab.put t i x) = true := by
  induction t generalizing lo with
  | nil => simp [Tab.put, Tab.sortedFrom, h]
  | cons p t ih =>
    obtain ⟨k, v⟩ := p
    simp [Tab.sortedFrom] at hs
    simp only [Tab.put]
    split
    · subst_vars; simp [Tab.sortedFrom, hs]
    · split
      · simp [Tab.sortedFrom, h, hs]; omega
      · simp [Tab.sortedFrom, hs.1]; exact ih hs.2 (by omega)

/-- A removal keeps the keys rising. -/
theorem Tab.sortedFrom_del (t : Tab β) {lo : Nat} (i : Nat) (hs : Tab.sortedFrom lo t = true) :
    Tab.sortedFrom lo (Tab.del t i) = true := by
  induction t generalizing lo with
  | nil => rfl
  | cons p t ih =>
    obtain ⟨k, v⟩ := p
    have hs' := hs
    simp [Tab.sortedFrom] at hs
    simp only [Tab.del]
    split
    · exact Tab.sortedFrom_mono t (by omega) hs.2
    · split
      · exact hs'
      · simp [Tab.sortedFrom, hs.1]; exact ih hs.2

/-- A removed key is gone. -/
theorem Tab.find_del_same (t : Tab β) {lo : Nat} (i : Nat) (hs : Tab.sortedFrom lo t = true) :
    Tab.find (Tab.del t i) i = none := by
  induction t generalizing lo with
  | nil => rfl
  | cons p t ih =>
    obtain ⟨k, v⟩ := p
    simp [Tab.sortedFrom] at hs
    simp only [Tab.del]
    split
    · exact Tab.find_of_lt t hs.2 (by omega)
    · split
      · rename_i h1 h2; simp [Tab.find, h1, h2]
      · rename_i h1 h2; simp [Tab.find, h1, h2, ih hs.2]

/-- A removal leaves every other key as it was. -/
theorem Tab.find_del_other (t : Tab β) {lo i j : Nat} (hs : Tab.sortedFrom lo t = true) (h : j ≠ i) :
    Tab.find (Tab.del t i) j = Tab.find t j := by
  induction t generalizing lo with
  | nil => rfl
  | cons p t ih =>
    obtain ⟨k, v⟩ := p
    simp [Tab.sortedFrom] at hs
    simp only [Tab.del]
    split
    · subst_vars
      simp only [Tab.find, h, if_false]
      split
      · exact Tab.find_of_lt t hs.2 (by omega)
      · rfl
    · split
      · rfl
      · simp [Tab.find, ih hs.2]

theorem Tab.sorted_of_wf [DecidableEq β] {d : β} {t : Tab β} (h : Tab.wf d t = true) : Tab.sortedFrom 0 t = true := by
  simp [Tab.wf] at h; exact h.1

/-- A written key reads as its value. -/
theorem Tab.get_set_same [DecidableEq β] (d : β) (t : Tab β) (i : Nat) (x : β) (h : Tab.wf d t = true) :
    Tab.get d (Tab.set d t i x) i = x := by
  unfold Tab.set Tab.get
  split
  · subst_vars; simp [Tab.find_del_same t i (Tab.sorted_of_wf h)]
  · simp [Tab.find_put_same]

/-- A write leaves every other key as it was. -/
theorem Tab.get_set_other [DecidableEq β] (d : β) (t : Tab β) {i j : Nat} (x : β) (h : Tab.wf d t = true) (hj : j ≠ i) :
    Tab.get d (Tab.set d t i x) j = Tab.get d t j := by
  unfold Tab.set Tab.get
  split
  · simp [Tab.find_del_other t (Tab.sorted_of_wf h) hj]
  · simp [Tab.find_put_other t hj]

theorem Tab.mem_put (t : Tab β) (i : Nat) (x : β) (p : Nat × β) (h : p ∈ Tab.put t i x) : p = (i, x) ∨ p ∈ t := by
  induction t with
  | nil => simp [Tab.put] at h; exact .inl h
  | cons q t ih =>
    obtain ⟨k, v⟩ := q
    simp only [Tab.put] at h
    split at h
    · simp at h ⊢; tauto
    · split at h
      · simp at h ⊢; tauto
      · simp at h ⊢
        rcases h with h | h
        · exact .inr (.inl h)
        · rcases ih h with h | h
          · exact .inl h
          · exact .inr (.inr h)

theorem Tab.mem_del (t : Tab β) (i : Nat) (p : Nat × β) (h : p ∈ Tab.del t i) : p ∈ t := by
  induction t with
  | nil => simp [Tab.del] at h
  | cons q t ih =>
    obtain ⟨k, v⟩ := q
    simp only [Tab.del] at h
    split at h
    · simp [h]
    · split at h
      · exact h
      · simp at h ⊢
        rcases h with h | h
        · exact .inl h
        · exact .inr (ih h)

theorem Tab.wf_nil [DecidableEq β] (d : β) : Tab.wf d ([] : Tab β) = true := rfl

/-- Putting a value other than the default keeps the canonical form. -/
theorem Tab.wf_put [DecidableEq β] (d : β) (t : Tab β) (i : Nat) (x : β) (h : Tab.wf d t = true) (hx : x ≠ d) :
    Tab.wf d (Tab.put t i x) = true := by
  simp only [Tab.wf, Bool.and_eq_true, List.all_eq_true, bne_iff_ne, ne_eq] at h ⊢
  refine ⟨Tab.sortedFrom_put t h.1 (Nat.zero_le _) x, fun p hp => ?_⟩
  rcases Tab.mem_put t i x p hp with rfl | hp
  · exact hx
  · exact h.2 p hp

/-- A removal keeps the canonical form. -/
theorem Tab.wf_del [DecidableEq β] (d : β) (t : Tab β) (i : Nat) (h : Tab.wf d t = true) : Tab.wf d (Tab.del t i) = true := by
  simp only [Tab.wf, Bool.and_eq_true, List.all_eq_true, bne_iff_ne, ne_eq] at h ⊢
  exact ⟨Tab.sortedFrom_del t i h.1, fun p hp => h.2 p (Tab.mem_del t i p hp)⟩

/-- A write keeps the canonical form. -/
theorem Tab.wf_set [DecidableEq β] (d : β) (t : Tab β) (i : Nat) (x : β) (h : Tab.wf d t = true) :
    Tab.wf d (Tab.set d t i x) = true := by
  unfold Tab.set
  split
  · exact Tab.wf_del d t i h
  · exact Tab.wf_put d t i x h ‹_›

theorem Tab.sortedFrom_filter (t : Tab β) (p : Nat × β → Bool) {lo : Nat} (h : Tab.sortedFrom lo t = true) :
    Tab.sortedFrom lo (t.filter p) = true := by
  induction t generalizing lo with
  | nil => rfl
  | cons q t ih =>
    obtain ⟨k, v⟩ := q
    simp [Tab.sortedFrom] at h
    simp only [List.filter]
    split
    · simp [Tab.sortedFrom, h.1]; exact ih h.2
    · exact Tab.sortedFrom_mono _ (by omega) (ih h.2)

/-- Keeping some of the entries keeps the canonical form. -/
theorem Tab.wf_filter [DecidableEq β] (d : β) (t : Tab β) (p : Nat × β → Bool) (h : Tab.wf d t = true) :
    Tab.wf d (t.filter p) = true := by
  simp only [Tab.wf, Bool.and_eq_true, List.all_eq_true, bne_iff_ne, ne_eq] at h ⊢
  exact ⟨Tab.sortedFrom_filter t p h.1, fun q hq => h.2 q (List.mem_filter.1 hq).1⟩

end Sys2Proof.Machine
end

