-- ==== Sys2Proof/Laws/Regs.lean ====
section
/-!
SUPPORT. Laws of the register operations: a read after a write, what a write leaves alone, and what a change of a sheaf
leaves of the registers.
-/

namespace Sys2Proof.Machine

open Sys2Proof

/-! Sheaves. -/

/-- Another place keeps its sheaf. -/
theorem State.sheaf_modSheaf_other (s : State) {k j : Nat} (h : j ≠ k) (f : Sheaf → Sheaf) :
    (s.modSheaf k f).sheaf j = s.sheaf j := by simp [State.sheaf, Tab.get_mod_other _ _ h]

/-- Where there is a sheaf, it is changed. -/
theorem State.sheaf_modSheaf_same (s : State) {k : Nat} {y : Sheaf} (h : Tab.find s.sheaves k = some y) (f : Sheaf → Sheaf) :
    (s.modSheaf k f).sheaf k = f y := by simp [State.sheaf, Tab.get, Tab.find_mod_same, h]

theorem State.sheaf_of_find (s : State) {k : Nat} {y : Sheaf} (h : Tab.find s.sheaves k = some y) : s.sheaf k = y := by
  simp [State.sheaf, Tab.get, h]

/-- A part of a sheaf that a change leaves as it was. -/
theorem State.sheaf_modSheaf_part {α : Type} (s : State) (k j : Nat) (f : Sheaf → Sheaf) (p : Sheaf → α)
    (h : ∀ y, p (f y) = p y) : p ((s.modSheaf k f).sheaf j) = p (s.sheaf j) := by
  by_cases hj : j = k
  · subst hj
    simp only [State.sheaf, Tab.get, State.modSheaf_sheaves, Tab.find_mod_same]
    cases Tab.find s.sheaves j <;> simp [h]
  · rw [State.sheaf_modSheaf_other s hj]

/-- The parts of a sheaf that say where its registers lie and under which generation they are read. -/
def Sheaf.regView (y : Sheaf) : Gen × Option ExtBlk × Option Nat := (y.baseGen, y.ext, y.vbase)

/-- Two states with the same register files, in which a place sees its registers alike. -/
def State.sameRegs (s t : State) (k : Nat) : Prop :=
  t.vregs = s.vregs ∧ t.sregs = s.sregs ∧ t.pregs = s.pregs ∧ (t.sheaf k).regView = (s.sheaf k).regView

theorem State.sameRegs.refl (s : State) (k : Nat) : s.sameRegs s k := ⟨rfl, rfl, rfl, rfl⟩

theorem State.sameRegs.trans {s t u : State} {k : Nat} (h : s.sameRegs t k) (g : t.sameRegs u k) : s.sameRegs u k :=
  ⟨g.1.trans h.1, g.2.1.trans h.2.1, g.2.2.1.trans h.2.2.1, g.2.2.2.trans h.2.2.2⟩

theorem State.sameRegs.baseGen {s t : State} {k : Nat} (h : s.sameRegs t k) : (t.sheaf k).baseGen = (s.sheaf k).baseGen :=
  congrArg (·.1) h.2.2.2

theorem State.sameRegs.vphys {s t : State} {k : Nat} (h : s.sameRegs t k) (r : Nat) :
    vphys k (t.sheaf k) r = vphys k (s.sheaf k) r := by
  have h1 : (t.sheaf k).ext = (s.sheaf k).ext := congrArg (·.2.1) h.2.2.2
  have h2 : (t.sheaf k).vbase = (s.sheaf k).vbase := congrArg (·.2.2) h.2.2.2
  simp [Sys2Proof.Machine.vphys, h1, h2]

theorem State.sameRegs.vgen {s t : State} {k : Nat} (h : s.sameRegs t k) (r : Nat) :
    vgen (t.sheaf k) r = vgen (s.sheaf k) r := by
  have h1 : (t.sheaf k).ext = (s.sheaf k).ext := congrArg (·.2.1) h.2.2.2
  simp [Sys2Proof.Machine.vgen, h1, h.baseGen]

theorem State.sameRegs.staleReg {s t : State} {k : Nat} (h : s.sameRegs t k) (r : Reg) : t.staleReg k r = s.staleReg k r := by
  cases r <;> simp [State.staleReg, State.vraw, State.sraw, State.praw, h.vphys, h.vgen, h.baseGen, h.1, h.2.1, h.2.2.1]

theorem State.sameRegs.readS {s t : State} {k : Nat} (h : s.sameRegs t k) (r : Nat) : t.readS k r = s.readS k r := by
  simp [State.readS, h.staleReg, State.sraw, h.2.1]

theorem State.sameRegs.readP {s t : State} {k : Nat} (h : s.sameRegs t k) (r : Nat) : t.readP k r = s.readP k r := by
  simp [State.readP, h.staleReg, State.praw, h.2.2.1]

theorem State.sameRegs.readV {s t : State} {k : Nat} (h : s.sameRegs t k) (r : Nat) : t.readV k r = s.readV k r := by
  simp [State.readV, h.staleReg, State.vraw, h.1, h.vphys]

/-- A change of a sheaf that leaves its register view alone leaves every read alone. -/
theorem State.sameRegs_modSheaf (s : State) (k j : Nat) (f : Sheaf → Sheaf) (h : ∀ y, (f y).regView = y.regView) :
    s.sameRegs (s.modSheaf k f) j := ⟨rfl, rfl, rfl, s.sheaf_modSheaf_part k j f _ h⟩

theorem Sheaf.regView_setSlot (y : Sheaf) (b : Bool) (x : PcSlot) : (y.setSlot b x).regView = y.regView := by
  cases b <;> rfl

theorem Sheaf.regView_modSlot (y : Sheaf) (b : Bool) (f : PcSlot → PcSlot) : (y.modSlot b f).regView = y.regView :=
  y.regView_setSlot b _

theorem State.sameRegs_modSlot (s : State) (k j : Nat) (b : Bool) (f : PcSlot → PcSlot) : s.sameRegs (s.modSlot k b f) j :=
  s.sameRegs_modSheaf k j _ fun y => y.regView_modSlot b f

theorem State.sameRegs_modCore (s : State) (c j : Nat) (f : Core → Core) : s.sameRegs (s.modCore c f) j :=
  ⟨rfl, rfl, rfl, rfl⟩

/-! Scalars. -/

/-- A scalar reads as what was written to it, while the sheaf holds a base block (R54, R56). -/
theorem State.readS_writeS_same (s : State) (k r : Nat) (x : Word64) (h : (s.sheaf k).baseGen ≠ 0) :
    (s.writeS k r x).readS k r = x := by
  have e : (s.writeS k r x).sheaf k = s.sheaf k := rfl
  have h' : ¬(s.sheaf k).baseGen = 0#16 := h
  simp [State.readS, State.staleReg, e, State.sraw, Tab.get_put_same, h']

/-- A write of a scalar leaves the other scalars of the sheaf alone. -/
theorem State.readS_writeS_other (s : State) (k : Nat) {r q : Nat} (x : Word64) (h : q ≠ r) :
    (s.writeS k r x).readS k q = s.readS k q := by
  have e : (s.writeS k r x).sheaf k = s.sheaf k := rfl
  have hk : k * 64 + q ≠ k * 64 + r := by omega
  simp [State.readS, State.staleReg, e, State.sraw, Tab.get_put_other _ _ hk]

/-- A write of a scalar leaves the vectors and predicates alone. -/
theorem State.readV_writeS (s : State) (k r : Nat) (x : Word64) (q : Nat) : (s.writeS k r x).readV k q = s.readV k q := rfl

theorem State.readP_writeS (s : State) (k r : Nat) (x : Word64) (q : Nat) : (s.writeS k r x).readP k q = s.readP k q := rfl

/-! Predicates. -/

/-- p7 reads as true in every lane (R47). -/
theorem State.readP_seven (s : State) (k : Nat) : s.readP k 7 = 0xFFFFFFFF := by simp [State.readP]

/-- A write to p7 is discarded (R47). -/
theorem State.writeP_seven (s : State) (k : Nat) (m x : Word32) : s.writeP k 7 m x = s := by simp [State.writeP]

/-- A write under an empty mask touches nothing (R55). -/
theorem State.writeP_empty (s : State) (k r : Nat) (x : Word32) : s.writeP k r 0 x = s := by simp [State.writeP]

theorem State.writeV_empty (s : State) (k r : Nat) (f : Nat → Word32) (t : BitVec 4) : s.writeV k r 0 f t = s := by
  simp [State.writeV]

/-- A predicate reads, lane by lane, as what was written under the mask and as before elsewhere. -/
theorem State.readP_writeP_same (s : State) (k r : Nat) (m x : Word32) (hr : r ≠ 7) (hm : m ≠ 0)
    (h : (s.sheaf k).baseGen ≠ 0) : (s.writeP k r m x).readP k r = mergeMask m x (s.readP k r) := by
  have e : (s.writeP k r m x).sheaf k = s.sheaf k := by simp [State.sheaf]
  have g : (s.writeP k r m x).praw k r = ⟨mergeMask m x (s.readP k r), (s.sheaf k).baseGen⟩ := by
    simp only [State.writeP, hr, hm, or_self, if_false, State.praw, Tab.get_put_same]
  have h' : ¬(s.sheaf k).baseGen = 0#16 := h
  rw [State.readP, if_neg hr]
  simp [State.staleReg, e, g, h']

/-! Vectors. -/

/-- A vector register reads, lane by lane, as what was written under the mask and as before elsewhere, with the format
tag of the write (R55, R65). -/
theorem State.readV_writeV_same (s : State) (k r : Nat) (m : Word32) (f : Nat → Word32) (t : BitVec 4) (hm : m ≠ 0)
    (hp : (vphys k (s.sheaf k) r).isSome = true) (h : vgen (s.sheaf k) r ≠ 0) :
    (s.writeV k r m f t).readV k r =
      ⟨vec32 fun L => if m.getLsbD L then f L else (s.readV k r).data.getD L 0, vgen (s.sheaf k) r, t⟩ := by
  obtain ⟨i, hi⟩ := Option.isSome_iff_exists.1 hp
  have e : (s.writeV k r m f t).sheaf k = s.sheaf k := by simp [State.sheaf]
  have g : (s.writeV k r m f t).vraw k r =
      ⟨vec32 fun L => if m.getLsbD L then f L else (s.readV k r).data.getD L 0, vgen (s.sheaf k) r, t⟩ := by
    rw [State.vraw, e, hi]
    simp only [State.writeV, hm, if_false, hi, Tab.get_put_same]
  have h' : ¬vgen (s.sheaf k) r = 0#16 := h
  rw [State.readV]
  simp [State.staleReg, e, g, h']

end Sys2Proof.Machine
end

