-- ==== Sys2Proof/Laws/Issue.lean ====
section
/-!
SUPPORT. What issuing an instruction does: an instruction that no check refuses has its effect and goes on; one that a check
refuses traps; and what `entered`, `advance` and `refill` leave alone.
-/

namespace Sys2Proof.Machine

open Sys2Proof

/-! The outcomes of `issue`. -/

/-- The parts of `issues`. -/
theorem State.issues_parts {s : State} {i : Instr} {h : Hdr} {c : Checks} (hi : s.issues i h c = true) :
    s.focusSlot.live = true ∧
    ((s.sheaf (s.ex i h).k).frag.isSome && sendsHome (s.ex i h).k i) = false ∧
    (s.picked (s.ex i h)).checkEarly (s.ex i h).k h c s.focusSlot.mask = none ∧
    (s.ex i h).exec ≠ 0 ∧
    (s.picked (s.ex i h)).checkUses (s.ex i h).k h c (s.ex i h).exec = none ∧
    (s.picked (s.ex i h)).badUse (s.ex i h).k h c.uses (s.ex i h).exec = false := by
  unfold State.issues at hi
  simp only [Bool.and_eq_true, Bool.not_eq_true', bne_iff_ne, ne_eq, Option.isNone_iff_eq_none] at hi
  obtain ⟨⟨⟨⟨⟨h1, h2⟩, h3⟩, h4⟩, h5⟩, h6⟩ := hi
  exact ⟨h1, h2, h3, h4, h5, h6⟩

/-- An instruction that no check refuses has its effect. -/
theorem issue_of_issues {i : Instr} {h : Hdr} {c : Checks} {s : State} (hi : s.issues i h c = true)
    (eff : Ex → State → Except TrapInfo (Flow × State)) :
    issue i h c eff s = match eff (s.ex i h) (s.entered i h) with
      | .error t => (s.picked (s.ex i h)).tick.trapped (s.ex i h) h t
      | .ok (f, t) => t.goOn i h (s.ex i h) s.focusSlot.replay f := by
  obtain ⟨h1, h2, h3, h4, h5, h6⟩ := State.issues_parts hi
  unfold issue
  simp only [h1, Bool.not_true, Bool.false_eq_true, if_false, h2, h3, h4, h5, h6, State.entered] <;> rfl

/-- An instruction whose effect cannot trap, and which no check refuses, completes. -/
theorem issue_simple {i : Instr} {h : Hdr} {c : Checks} {s : State} (hi : s.issues i h c = true)
    (f : Ex → State → State) : issue i h c (simple f) s = s.completed i h f := by
  rw [issue_of_issues hi]; rfl

/-- An instruction whose effect answers how it goes on, and which no check refuses. -/
theorem issue_ok {i : Instr} {h : Hdr} {c : Checks} {s : State} (hi : s.issues i h c = true)
    {eff : Ex → State → Except TrapInfo (Flow × State)} {w : Flow} {t : State}
    (he : eff (s.ex i h) (s.entered i h) = .ok (w, t)) :
    issue i h c eff s = t.goOn i h (s.ex i h) s.focusSlot.replay w := by
  rw [issue_of_issues hi, he]

/-- An instruction whose effect traps, and which no check of steps 4 to 11 refuses. -/
theorem issue_error {i : Instr} {h : Hdr} {c : Checks} {s : State} (hi : s.issues i h c = true)
    {eff : Ex → State → Except TrapInfo (Flow × State)} {t : TrapInfo}
    (he : eff (s.ex i h) (s.entered i h) = .error t) :
    issue i h c eff s = (s.picked (s.ex i h)).tick.trapped (s.ex i h) h t := by
  rw [issue_of_issues hi, he]

/-- A slot that is not live does nothing. -/
theorem issue_dead {i : Instr} {h : Hdr} {c : Checks} {s : State} (hl : s.focusSlot.live = false)
    (eff : Ex → State → Except TrapInfo (Flow × State)) : issue i h c eff s = s := by
  simp [issue, hl]

/-- An instruction that steps 4 to 6 of Table 19-1 refuse traps. -/
theorem issue_early {i : Instr} {h : Hdr} {c : Checks} {s : State} {t : TrapInfo} (hl : s.focusSlot.live = true)
    (hf : ((s.sheaf (s.ex i h).k).frag.isSome && sendsHome (s.ex i h).k i) = false)
    (ht : (s.picked (s.ex i h)).checkEarly (s.ex i h).k h c s.focusSlot.mask = some t)
    (eff : Ex → State → Except TrapInfo (Flow × State)) :
    issue i h c eff s = (s.picked (s.ex i h)).trapped (s.ex i h) h t := by
  simp only [issue, hl, hf, ht, Bool.not_true, Bool.false_eq_true, if_false]

/-- An instruction that executes in no lane only advances. -/
theorem issue_empty {i : Instr} {h : Hdr} {c : Checks} {s : State} (hl : s.focusSlot.live = true)
    (hf : ((s.sheaf (s.ex i h).k).frag.isSome && sendsHome (s.ex i h).k i) = false)
    (ht : (s.picked (s.ex i h)).checkEarly (s.ex i h).k h c s.focusSlot.mask = none)
    (he : (s.ex i h).exec = 0) (eff : Ex → State → Except TrapInfo (Flow × State)) :
    issue i h c eff s = s.completed i h fun _ t => t := by
  simp only [issue, hl, hf, ht, he, Bool.not_true, Bool.false_eq_true, if_false, if_true]
  rfl

/-- An instruction that steps 7 to 11 of Table 19-1 refuse traps. -/
theorem issue_uses {i : Instr} {h : Hdr} {c : Checks} {s : State} {t : TrapInfo} (hl : s.focusSlot.live = true)
    (hf : ((s.sheaf (s.ex i h).k).frag.isSome && sendsHome (s.ex i h).k i) = false)
    (h4 : (s.picked (s.ex i h)).checkEarly (s.ex i h).k h c s.focusSlot.mask = none)
    (he : (s.ex i h).exec ≠ 0)
    (ht : (s.picked (s.ex i h)).checkUses (s.ex i h).k h c (s.ex i h).exec = some t)
    (eff : Ex → State → Except TrapInfo (Flow × State)) :
    issue i h c eff s = (s.picked (s.ex i h)).trapped (s.ex i h) h t := by
  simp only [issue, hl, hf, h4, he, ht, Bool.not_true, Bool.false_eq_true, if_false]

/-! What `entered` leaves alone. -/

@[simp] theorem State.entered_mem (s : State) (i : Instr) (h : Hdr) : (s.entered i h).mem = s.mem := rfl
@[simp] theorem State.entered_tags (s : State) (i : Instr) (h : Hdr) : (s.entered i h).tags = s.tags := rfl
@[simp] theorem State.entered_vregs (s : State) (i : Instr) (h : Hdr) : (s.entered i h).vregs = s.vregs := rfl
@[simp] theorem State.entered_sregs (s : State) (i : Instr) (h : Hdr) : (s.entered i h).sregs = s.sregs := rfl
@[simp] theorem State.entered_pregs (s : State) (i : Instr) (h : Hdr) : (s.entered i h).pregs = s.pregs := rfl
@[simp] theorem State.entered_acc (s : State) (i : Instr) (h : Hdr) : (s.entered i h).acc = s.acc := rfl
@[simp] theorem State.entered_coreUnits (s : State) (i : Instr) (h : Hdr) : (s.entered i h).coreUnits = s.coreUnits := rfl
@[simp] theorem State.entered_sliceUnits (s : State) (i : Instr) (h : Hdr) : (s.entered i h).sliceUnits = s.sliceUnits := rfl
@[simp] theorem State.entered_crews (s : State) (i : Instr) (h : Hdr) : (s.entered i h).crews = s.crews := rfl
@[simp] theorem State.entered_spans (s : State) (i : Instr) (h : Hdr) : (s.entered i h).spans = s.spans := rfl
@[simp] theorem State.entered_launches (s : State) (i : Instr) (h : Hdr) : (s.entered i h).launches = s.launches := rfl
@[simp] theorem State.entered_gens (s : State) (i : Instr) (h : Hdr) : (s.entered i h).gens = s.gens := rfl
@[simp] theorem State.entered_ctxs (s : State) (i : Instr) (h : Hdr) : (s.entered i h).ctxs = s.ctxs := rfl
@[simp] theorem State.entered_nextLaunch (s : State) (i : Instr) (h : Hdr) : (s.entered i h).nextLaunch = s.nextLaunch := rfl
@[simp] theorem State.entered_nextSpan (s : State) (i : Instr) (h : Hdr) : (s.entered i h).nextSpan = s.nextSpan := rfl
@[simp] theorem State.entered_nextCrew (s : State) (i : Instr) (h : Hdr) : (s.entered i h).nextCrew = s.nextCrew := rfl
@[simp] theorem State.entered_subs (s : State) (i : Instr) (h : Hdr) : (s.entered i h).subs = s.subs := rfl
@[simp] theorem State.entered_chunks (s : State) (i : Instr) (h : Hdr) : (s.entered i h).chunks = s.chunks := rfl
@[simp] theorem State.entered_modCmds (s : State) (i : Instr) (h : Hdr) : (s.entered i h).modCmds = s.modCmds := rfl
@[simp] theorem State.entered_conts (s : State) (i : Instr) (h : Hdr) : (s.entered i h).conts = s.conts := rfl
@[simp] theorem State.entered_nextId (s : State) (i : Instr) (h : Hdr) : (s.entered i h).nextId = s.nextId := rfl
@[simp] theorem State.entered_gov (s : State) (i : Instr) (h : Hdr) : (s.entered i h).gov = s.gov := rfl
@[simp] theorem State.entered_xfers (s : State) (i : Instr) (h : Hdr) : (s.entered i h).xfers = s.xfers := rfl
@[simp] theorem State.entered_nextXid (s : State) (i : Instr) (h : Hdr) : (s.entered i h).nextXid = s.nextXid := rfl
@[simp] theorem State.entered_outq (s : State) (i : Instr) (h : Hdr) : (s.entered i h).outq = s.outq := rfl
@[simp] theorem State.entered_links (s : State) (i : Instr) (h : Hdr) : (s.entered i h).links = s.links := rfl
@[simp] theorem State.entered_relays (s : State) (i : Instr) (h : Hdr) : (s.entered i h).relays = s.relays := rfl
@[simp] theorem State.entered_mcasts (s : State) (i : Instr) (h : Hdr) : (s.entered i h).mcasts = s.mcasts := rfl
@[simp] theorem State.entered_flags (s : State) (i : Instr) (h : Hdr) : (s.entered i h).flags = s.flags := rfl
@[simp] theorem State.entered_halves (s : State) (i : Instr) (h : Hdr) : (s.entered i h).halves = s.halves := rfl
@[simp] theorem State.entered_groups (s : State) (i : Instr) (h : Hdr) : (s.entered i h).groups = s.groups := rfl
@[simp] theorem State.entered_lr (s : State) (i : Instr) (h : Hdr) : (s.entered i h).lr = s.lr := rfl
@[simp] theorem State.entered_waves (s : State) (i : Instr) (h : Hdr) : (s.entered i h).waves = s.waves := rfl
@[simp] theorem State.entered_grps (s : State) (i : Instr) (h : Hdr) : (s.entered i h).grps = s.grps := rfl
@[simp] theorem State.entered_fibreRec (s : State) (i : Instr) (h : Hdr) : (s.entered i h).fibreRec = s.fibreRec := rfl
@[simp] theorem State.entered_theos (s : State) (i : Instr) (h : Hdr) : (s.entered i h).theos = s.theos := rfl
@[simp] theorem State.entered_planes (s : State) (i : Instr) (h : Hdr) : (s.entered i h).planes = s.planes := rfl
@[simp] theorem State.entered_heard (s : State) (i : Instr) (h : Hdr) : (s.entered i h).heard = s.heard := rfl
@[simp] theorem State.entered_mods (s : State) (i : Instr) (h : Hdr) : (s.entered i h).mods = s.mods := rfl
@[simp] theorem State.entered_host (s : State) (i : Instr) (h : Hdr) : (s.entered i h).host = s.host := rfl
@[simp] theorem State.entered_waitRecs (s : State) (i : Instr) (h : Hdr) : (s.entered i h).waitRecs = s.waitRecs := rfl
@[simp] theorem State.entered_warm (s : State) (i : Instr) (h : Hdr) : (s.entered i h).warm = s.warm := rfl
@[simp] theorem State.entered_throttled (s : State) (i : Instr) (h : Hdr) : (s.entered i h).throttled = s.throttled := rfl
@[simp] theorem State.entered_excursion (s : State) (i : Instr) (h : Hdr) : (s.entered i h).excursion = s.excursion := rfl
@[simp] theorem State.entered_checkpoint (s : State) (i : Instr) (h : Hdr) : (s.entered i h).checkpoint = s.checkpoint := rfl
@[simp] theorem State.entered_ckptFault (s : State) (i : Instr) (h : Hdr) : (s.entered i h).ckptFault = s.ckptFault := rfl
@[simp] theorem State.entered_images (s : State) (i : Instr) (h : Hdr) : (s.entered i h).images = s.images := rfl
@[simp] theorem State.entered_badSram (s : State) (i : Instr) (h : Hdr) : (s.entered i h).badSram = s.badSram := rfl
@[simp] theorem State.entered_badRegs (s : State) (i : Instr) (h : Hdr) : (s.entered i h).badRegs = s.badRegs := rfl
@[simp] theorem State.entered_badWords (s : State) (i : Instr) (h : Hdr) : (s.entered i h).badWords = s.badWords := rfl
@[simp] theorem State.entered_time (s : State) (i : Instr) (h : Hdr) : (s.entered i h).time = s.time := rfl
@[simp] theorem State.entered_nanos (s : State) (i : Instr) (h : Hdr) : (s.entered i h).nanos = s.nanos := rfl
@[simp] theorem State.entered_due (s : State) (i : Instr) (h : Hdr) : (s.entered i h).due = s.due := rfl
@[simp] theorem State.entered_focus (s : State) (i : Instr) (h : Hdr) : (s.entered i h).focus = s.focus := rfl
@[simp] theorem State.entered_focusB (s : State) (i : Instr) (h : Hdr) : (s.entered i h).focusB = s.focusB := rfl
@[simp] theorem State.entered_frees (s : State) (i : Instr) (h : Hdr) : (s.entered i h).frees = s.frees := rfl
@[simp] theorem State.entered_choices (s : State) (i : Instr) (h : Hdr) : (s.entered i h).choices = s.choices := rfl

/-- The effect sees the registers that the instruction was checked with. -/
theorem State.sameRegs_entered (s : State) (i : Instr) (h : Hdr) (k : Nat) : s.sameRegs (s.entered i h) k := by
  unfold State.entered State.replayed State.picked
  have a : s.sameRegs (s.modSheaf (s.ex i h).k fun y => y.issued (s.ex i h).b) k :=
    s.sameRegs_modSheaf _ _ _ fun y => by
      unfold Sheaf.issued
      dsimp only
      split
      · rfl
      · rw [Sheaf.regView_modSlot]; rfl
  exact (a.trans (State.sameRegs_modCore _ _ _ _)).trans (State.sameRegs_modSlot _ _ _ _ _)

theorem State.entered_readS (s : State) (i : Instr) (h : Hdr) (k r : Nat) : (s.entered i h).readS k r = s.readS k r :=
  (s.sameRegs_entered i h k).readS r

theorem State.entered_readP (s : State) (i : Instr) (h : Hdr) (k r : Nat) : (s.entered i h).readP k r = s.readP k r :=
  (s.sameRegs_entered i h k).readP r

theorem State.entered_readV (s : State) (i : Instr) (h : Hdr) (k r : Nat) : (s.entered i h).readV k r = s.readV k r :=
  (s.sameRegs_entered i h k).readV r

theorem State.entered_laneV (s : State) (i : Instr) (h : Hdr) (k r L : Nat) :
    (s.entered i h).laneV k r L = s.laneV k r L := by simp [State.laneV, State.entered_readV]

/-- A part of a sheaf that issuing an instruction leaves as it was. -/
theorem State.entered_part {α : Type} (s : State) (i : Instr) (h : Hdr) (j : Nat) (p : Sheaf → α)
    (h1 : ∀ (y : Sheaf) b, p (y.issued b) = p y) (h2 : ∀ (y : Sheaf) b f, p (y.modSlot b f) = p y) :
    p ((s.entered i h).sheaf j) = p (s.sheaf j) := by
  unfold State.entered State.replayed State.picked State.modSlot
  dsimp only
  rw [State.sheaf_modSheaf_part _ _ _ _ p (fun y => h2 y _ _)]
  exact State.sheaf_modSheaf_part s (s.ex i h).k j (fun y => y.issued (s.ex i h).b) p (fun y => h1 y _)

theorem Sheaf.modSlot_crew (y : Sheaf) (b : Bool) (f : PcSlot → PcSlot) : (y.modSlot b f).crew = y.crew := by
  cases b <;> rfl

theorem Sheaf.issued_crew (y : Sheaf) (b : Bool) : (y.issued b).crew = y.crew := by
  unfold Sheaf.issued; dsimp only; split
  · rfl
  · rw [Sheaf.modSlot_crew]

theorem Sheaf.modSlot_frag (y : Sheaf) (b : Bool) (f : PcSlot → PcSlot) : (y.modSlot b f).frag = y.frag := by
  cases b <;> rfl

theorem Sheaf.issued_frag (y : Sheaf) (b : Bool) : (y.issued b).frag = y.frag := by
  unfold Sheaf.issued; dsimp only; split
  · rfl
  · rw [Sheaf.modSlot_frag]

/-- The crew of a place is the one it had. -/
theorem State.entered_crew (s : State) (i : Instr) (h : Hdr) (j : Nat) : ((s.entered i h).sheaf j).crew = (s.sheaf j).crew :=
  s.entered_part i h j _ Sheaf.issued_crew Sheaf.modSlot_crew

theorem State.entered_frag (s : State) (i : Instr) (h : Hdr) (j : Nat) : ((s.entered i h).sheaf j).frag = (s.sheaf j).frag :=
  s.entered_part i h j _ Sheaf.issued_frag Sheaf.modSlot_frag

/-! Refilling. -/

theorem Tab.put_put {β : Type} (t : Tab β) (i : Nat) (x y : β) : Tab.put (Tab.put t i x) i y = Tab.put t i y := by
  induction t with
  | nil => simp [Tab.put]
  | cons p t ih =>
    obtain ⟨k, v⟩ := p
    by_cases h1 : i = k
    · simp [Tab.put, h1]
    · by_cases h2 : i < k
      · simp [Tab.put, h1, h2]
      · simp [Tab.put, h1, h2, ih]

/-- Putting what is there changes nothing. -/
theorem Tab.put_self {β : Type} (t : Tab β) (i : Nat) (x : β) (h : Tab.find t i = some x) : Tab.put t i x = t := by
  induction t with
  | nil => simp [Tab.find] at h
  | cons p t ih =>
    obtain ⟨k, v⟩ := p
    simp only [Tab.find] at h
    by_cases h1 : i = k
    · simp_all [Tab.put]
    · by_cases h2 : i < k
      · simp [h1, h2] at h
      · simp [Tab.put, h1, h2] at h ⊢; exact ih h

/-- Changing a sheaf that is there replaces it. -/
theorem State.modSheaf_eq {s : State} {k : Nat} {y : Sheaf} (h : Tab.find s.sheaves k = some y) (f : Sheaf → Sheaf) :
    s.modSheaf k f = s.setSheaf k (f y) := by
  simp [State.modSheaf, State.setSheaf, Tab.mod, h]

theorem State.setSheaf_setSheaf (s : State) (k : Nat) (x y : Sheaf) :
    (s.setSheaf k x).setSheaf k y = s.setSheaf k y := by
  simp [State.setSheaf, Tab.put_put]

theorem State.find_setSheaf (s : State) (k : Nat) (x : Sheaf) : Tab.find (s.setSheaf k x).sheaves k = some x := by
  simp [Tab.find_put_same]

/-- What refilling may change of a sheaf: its slots, its depth, its window. -/
def Sheaf.refilled (y z : Sheaf) : Prop := z = { y with a := z.a, b := z.b, depth := z.depth, win := z.win }

/-- The outcomes of refilling a sheaf that runs: nothing, or its slots, depth and window. -/
def State.refillOf (s : State) (k : Nat) (y : Sheaf) (t : State) : Prop :=
  t = s ∨ ∃ z, t = s.setSheaf k z ∧ y.refilled z ∧ (z.a.live || z.b.live) = true

/-- Returned fragments do not interfere: none waits, or both slots run. -/
def Sheaf.quietReturns (y : Sheaf) : Prop := y.returns = [] ∨ (y.a.live = true ∧ y.b.live = true)

theorem Sheaf.refilled_quiet {y z : Sheaf} (h : y.refilled z) (hq : y.returns = []) : z.returns = [] := by
  rw [h]; exact hq

theorem Sheaf.setSlot_free_live (y : Sheaf) (pc : Word64) (m : Word32) (g : Nat) (b : Bool) (x : Sheaf)
    (hx : x = y.setSlot b (PcSlot.start pc m g)) : (x.a.live || x.b.live) = true := by
  subst hx; cases b <;> simp [Sheaf.setSlot, PcSlot.start]

/-- One act of refilling, of a sheaf for which no return waits. -/
theorem State.refillOnce_of {s t : State} {k : Nat} {y : Sheaf} (hy : Tab.find s.sheaves k = some y)
    (hl : (y.a.live || y.b.live) = true) (hq : y.returns = []) (h : s.refillOnce k = some t) :
    ∃ z, t = s.setSheaf k z ∧ y.refilled z ∧ (z.a.live || z.b.live) = true := by
  unfold State.refillOnce at h
  simp only [State.sheaf_of_find s hy, hq] at h
  split at h
  · cases h
  · rename_i hboth
    split at h
    · cases h
    · split at h
      · rename_i hk
        simp only [Option.some.injEq] at h
        rw [State.modSheaf_eq hy] at h
        exact ⟨_, h.symm, by cases y.a.live <;> rfl, by cases y.a.live <;> simp [Sheaf.setSlot, PcSlot.start]⟩
      · split at h
        · simp only [Option.some.injEq] at h
          rw [State.modSheaf_eq hy] at h
          refine ⟨_, h.symm, ?_, ?_⟩
          · split
            · rfl
            · cases y.a.live <;> rfl
          · split
            · exact hl
            · cases y.a.live <;> simp [Sheaf.setSlot, PcSlot.start]
        · cases h

theorem Sheaf.refilled.trans {x y z : Sheaf} (h : x.refilled y) (g : y.refilled z) : x.refilled z := by
  unfold Sheaf.refilled at *
  rw [g, h]

theorem State.refillFuel_of (n : Nat) {s : State} {k : Nat} {y : Sheaf} (hy : Tab.find s.sheaves k = some y)
    (hl : (y.a.live || y.b.live) = true) (hq : y.quietReturns) : s.refillOf k y (State.refillFuel n s k) := by
  induction n generalizing s y with
  | zero => exact .inl rfl
  | succ n ih =>
    unfold State.refillFuel
    cases ht : s.refillOnce k with
    | none => exact .inl rfl
    | some t =>
      rcases hq with hq | hb
      · obtain ⟨z, hz, hr, hlz⟩ := State.refillOnce_of hy hl hq ht
        have hf : Tab.find t.sheaves k = some z := by rw [hz]; exact s.find_setSheaf k z
        rcases ih hf hlz (.inl (Sheaf.refilled_quiet hr hq)) with h | ⟨w, hw, hrw, hlw⟩
        · exact .inr ⟨z, by simpa [hz] using h, hr, hlz⟩
        · exact .inr ⟨w, by simpa [hz, State.setSheaf_setSheaf] using hw, hr.trans hrw, hlw⟩
      · exfalso
        simp [State.refillOnce, State.sheaf_of_find s hy, hb.1, hb.2] at ht

/-- Refilling a sheaf that runs, with no errors in SRAM, changes its slots, depth and window at most. -/
theorem State.refill_of {s : State} {k : Nat} {y : Sheaf} (hy : Tab.find s.sheaves k = some y)
    (hl : (y.a.live || y.b.live) = true) (hq : y.quietReturns) (hb : s.badSram = []) : s.refillOf k y (s.refill k) := by
  unfold State.refill
  split
  · exact .inl rfl
  · have hs : s.badStack k 0 = [] := by simp [State.badStack, State.badGranules, hb]
    simp only [hs, ne_eq, not_true, if_false]
    rcases State.refillFuel_of 80 hy hl hq with h | ⟨z, hz, hr, hlz⟩
    · rw [h]
      refine .inl ?_
      unfold State.checkEnd
      simp [State.sheaf_of_find s hy, hl]
    · rw [hz]
      refine .inr ⟨z, ?_, hr, hlz⟩
      unfold State.checkEnd
      have : (s.setSheaf k z).sheaf k = z := State.sheaf_of_find _ (s.find_setSheaf k z)
      simp [this, hlz]

/-! Going on. -/

/-- What going on to the next instruction may change of a sheaf: its slots, its depth, its window, its marker. -/
def Sheaf.advanced (y z : Sheaf) : Prop :=
  z = { y with a := z.a, b := z.b, depth := z.depth, win := z.win, marked := z.marked }

theorem Sheaf.advanced.refl (y : Sheaf) : y.advanced y := rfl

theorem Sheaf.advanced.trans {x y z : Sheaf} (h : x.advanced y) (g : y.advanced z) : x.advanced z := by
  unfold Sheaf.advanced at *
  rw [g, h]

theorem Sheaf.refilled.toAdvanced {y z : Sheaf} (h : y.refilled z) : y.advanced z := by
  unfold Sheaf.advanced; unfold Sheaf.refilled at h; rw [h]

/-- The slots that run, and whether returns wait, are as before. -/
def Sheaf.sameLive (y z : Sheaf) : Prop := z.a.live = y.a.live ∧ z.b.live = y.b.live ∧ z.returns = y.returns

theorem Sheaf.sameLive_modSlot (y : Sheaf) (b : Bool) (f : PcSlot → PcSlot) (hf : ∀ w, (f w).live = w.live) :
    y.sameLive (y.modSlot b f) := by
  cases b <;> exact ⟨by simp [Sheaf.modSlot, Sheaf.setSlot, Sheaf.slot, hf], by simp [Sheaf.modSlot, Sheaf.setSlot, Sheaf.slot, hf], rfl⟩

theorem Sheaf.advanced_modSlot (y : Sheaf) (b : Bool) (f : PcSlot → PcSlot) : y.advanced (y.modSlot b f) := by
  cases b <;> rfl

theorem State.mark_of {s : State} {k : Nat} {y : Sheaf} (hy : Tab.find s.sheaves k = some y) (sw : Bool) :
    ∃ z, s.mark k sw = s.setSheaf k z ∧ y.advanced z ∧ y.sameLive z := by
  cases sw with
  | false =>
    refine ⟨y, ?_, rfl, rfl, rfl, rfl⟩
    have : s.setSheaf k y = s.modSheaf k id := (State.modSheaf_eq hy id).symm
    rw [this]
    simp only [State.mark, Bool.false_eq_true, if_false, State.modSheaf, Tab.mod, hy, id]
    have : Tab.put s.sheaves k y = s.sheaves := Tab.put_self _ _ _ hy
    rw [this]
  | true =>
    simp only [State.mark, if_true, State.modSheaf_eq hy]
    exact ⟨_, rfl, rfl, rfl, rfl, rfl⟩

theorem State.advance_of {s : State} {k : Nat} {y : Sheaf} (hy : Tab.find s.sheaves k = some y) (b : Bool) (n : Nat) :
    ∃ z, s.advance k b n = s.setSheaf k z ∧ y.advanced z ∧ y.sameLive z := by
  unfold State.advance
  split
  · simp only [State.modSlot, State.modSheaf_eq hy]
    exact ⟨_, rfl, y.advanced_modSlot b _, y.sameLive_modSlot b _ fun _ => rfl⟩
  · split
    · simp only [State.modSlot, State.modSheaf_eq hy]
      exact ⟨_, rfl, y.advanced_modSlot b _, y.sameLive_modSlot b _ fun _ => rfl⟩
    · simp only [State.modSlot, State.modSheaf_eq hy]
      obtain ⟨z, hz, ha, hl⟩ := State.mark_of (s.find_setSheaf k
        (y.modSlot b fun sl => { sl with pc := sl.pc + 12, micro := none })) (by assumption : MicroPos).sw
      rw [hz, State.setSheaf_setSheaf]
      have h1 := y.sameLive_modSlot b (fun sl => { sl with pc := sl.pc + 12, micro := none }) fun _ => rfl
      exact ⟨z, rfl, (y.advanced_modSlot b _).trans ha, hl.1.trans h1.1, hl.2.1.trans h1.2.1, hl.2.2.trans h1.2.2⟩

/-- Going on to the next instruction replaces the sheaf of the place, changing its slots, depth, window and marker at
most; nothing else of the state changes. -/
theorem State.goOn_next {t : State} {k : Nat} {y : Sheaf} (i : Instr) (h : Hdr) (x : Ex) (r : Word32) (hk : x.k = k)
    (hy : Tab.find t.sheaves k = some y) (hl : (y.a.live || y.b.live) = true) (hq : y.quietReturns)
    (hb : t.badSram = []) : ∃ z, t.goOn i h x r .next = t.setSheaf k z ∧ y.advanced z := by
  subst hk
  unfold State.goOn State.finish
  dsimp only
  obtain ⟨z1, h1, a1, l1⟩ := State.advance_of hy x.b i.bytes
  obtain ⟨z2, h2, a2, l2⟩ := State.mark_of (t.find_setSheaf x.k z1) h.sw
  rw [h1, h2, State.setSheaf_setSheaf]
  have hlz : (z2.a.live || z2.b.live) = true := by rw [l2.1, l2.2.1, l1.1, l1.2.1]; exact hl
  have hqz : z2.quietReturns := by
    unfold Sheaf.quietReturns at *
    rw [l2.1, l2.2.1, l2.2.2, l1.1, l1.2.1, l1.2.2]; exact hq
  rcases State.refill_of (t.find_setSheaf x.k z2) hlz hqz hb with e | ⟨z, e, hr, -⟩
  · exact ⟨z2, e, a1.trans a2⟩
  · exact ⟨z, by rw [e, State.setSheaf_setSheaf], (a1.trans a2).trans hr.toAdvanced⟩

end Sys2Proof.Machine
end

