-- ==== Sys2Proof/Laws/Memory.lean ====
section
/-!
SUPPORT. Laws of memory: every operation keeps the canonical form, a byte reads as what was written, and a write leaves every
other byte as it reads.
-/

namespace Sys2Proof.Machine

open Sys2Proof

/-- Memory and tags have their canonical forms. -/
def State.memInv (s : State) : Prop := Memory.wf s.mem = true ∧ Tab.wf 0 s.tags = true

theorem State.byte_setByte_same (s : State) (a : Nat) (x : Byte) (h : Memory.wf s.mem = true) :
    (s.setByte a x).byte a = x := by
  simp only [State.byte, State.setByte_mem]; exact Tab.get_set_same _ _ _ _ h

theorem State.byte_setByte_other (s : State) {a c : Nat} (x : Byte) (h : Memory.wf s.mem = true) (hc : c ≠ a) :
    (s.setByte a x).byte c = s.byte c := by
  simp only [State.byte, State.setByte_mem]; exact Tab.get_set_other _ _ _ h hc

theorem State.memInv_setByte {s : State} (h : s.memInv) (a : Nat) (x : Byte) : (s.setByte a x).memInv :=
  ⟨Tab.wf_set _ _ _ _ h.1, h.2⟩

/-- The bytes zeroed in a row. -/
@[irreducible] def State.zeroRun (s : State) (g n : Nat) : State := (List.range n).foldl (fun (t : State) i => t.setByte (g + i) 0) s

theorem State.zeroRun_succ (s : State) (g n : Nat) : s.zeroRun g (n + 1) = (s.zeroRun g n).setByte (g + n) 0 := by
  simp [State.zeroRun, List.range_succ]

theorem State.zeroRun_eq (s : State) (g n : Nat) : ∃ m, s.zeroRun g n = { s with mem := m } := by
  induction n with
  | zero => exact ⟨s.mem, by simp [State.zeroRun]⟩
  | succ n ih =>
    obtain ⟨m, hm⟩ := ih
    rw [State.zeroRun_succ, hm]
    exact ⟨_, rfl⟩

theorem State.memInv_zeroRun {s : State} (h : s.memInv) (g n : Nat) : (s.zeroRun g n).memInv := by
  induction n with
  | zero => simpa [State.zeroRun] using h
  | succ n ih => rw [State.zeroRun_succ]; exact State.memInv_setByte ih _ _

theorem State.byte_zeroRun {s : State} (h : s.memInv) (g n c : Nat) :
    (s.zeroRun g n).byte c = if g ≤ c ∧ c < g + n then 0 else s.byte c := by
  induction n with
  | zero => rw [if_neg (by omega)]; simp [State.zeroRun]
  | succ n ih =>
    rw [State.zeroRun_succ]
    by_cases hc : c = g + n
    · subst hc
      rw [State.byte_setByte_same _ _ _ (State.memInv_zeroRun h g n).1, if_pos (by omega)]
    · rw [State.byte_setByte_other _ _ (State.memInv_zeroRun h g n).1 hc, ih]
      by_cases h1 : g ≤ c ∧ c < g + n
      · rw [if_pos h1, if_pos (by omega)]
      · rw [if_neg h1, if_neg (by omega)]

/-- Addresses of one granule have one generation. -/
theorem State.accessGen_granule (s : State) {a c : Nat} (h : a / 32 = c / 32) : s.accessGen a = s.accessGen c := by
  have e : a < 2147483648 ↔ c < 2147483648 := by omega
  unfold State.accessGen
  by_cases ha : a < 2 ^ 31
  · rw [if_pos ha, if_pos (by simpa using e.1 (by simpa using ha))]
    have : a / 2 ^ 23 * 256 + a % 2 ^ 23 / 2 ^ 15 = c / 2 ^ 23 * 256 + c % 2 ^ 23 / 2 ^ 15 := by omega
    rw [this]
  · rw [if_neg ha, if_neg (fun hc => ha (by simpa using e.2 (by simpa using hc)))]
    have : (a - 2 ^ 31) / 2 ^ 26 * 256 + a % 2 ^ 26 / 2 ^ 18 = (c - 2 ^ 31) / 2 ^ 26 * 256 + c % 2 ^ 26 / 2 ^ 18 := by omega
    rw [this]

theorem State.stamp_eq (s : State) (a : Nat) : s.stamp a = if s.tag a = s.accessGen a then s else
    { s.zeroRun (a / 32 * 32) 32 with tags := Tab.set 0 (s.zeroRun (a / 32 * 32) 32).tags (a / 32) (s.accessGen a) } := by
  unfold State.stamp State.zeroRun; rfl

/-- Stamping changes memory and tags only. -/
theorem State.stamp_frame (s : State) (a : Nat) : ∃ m g, s.stamp a = { s with mem := m, tags := g } := by
  rw [State.stamp_eq]
  split
  · exact ⟨s.mem, s.tags, rfl⟩
  · obtain ⟨m, hm⟩ := s.zeroRun_eq (a / 32 * 32) 32
    rw [hm]; exact ⟨_, _, rfl⟩

theorem State.memInv_stamp {s : State} (h : s.memInv) (a : Nat) : (s.stamp a).memInv := by
  rw [State.stamp_eq]
  split
  · exact h
  · exact ⟨(State.memInv_zeroRun h _ _).1, Tab.wf_set _ _ _ _ (State.memInv_zeroRun h _ _).2⟩

theorem State.accessGen_of_units {s t : State} (h1 : t.coreUnits = s.coreUnits) (h2 : t.sliceUnits = s.sliceUnits) (a : Nat) :
    t.accessGen a = s.accessGen a := by simp [State.accessGen, h1, h2]

/-- Stamping the granule of an address whose unit is held: its tag is the access generation. -/
theorem State.tag_stamp {s : State} (h : s.memInv) (a c : Nat) :
    (s.stamp a).tag c = if c / 32 = a / 32 then s.accessGen a else s.tag c := by
  rw [State.stamp_eq]
  split
  · rename_i e
    split
    · rename_i hc; rw [← e]; simp [State.tag, hc]
    · rfl
  · obtain ⟨m, hm⟩ := s.zeroRun_eq (a / 32 * 32) 32
    rw [hm]
    simp only [State.tag]
    split
    · rename_i hc; rw [hc]; exact Tab.get_set_same _ _ _ _ h.2
    · rename_i hc; exact Tab.get_set_other _ _ _ h.2 hc

/-- No byte reads otherwise after its granule was stamped: a stale granule read as zero, and is zero. -/
theorem State.pkgByte_stamp {s : State} (h : s.memInv) (a c : Nat) (hg : s.accessGen a ≠ 0) :
    (s.stamp a).pkgByte c = s.pkgByte c := by
  have hu : ∀ c, (s.stamp a).accessGen c = s.accessGen c := fun c => by
    obtain ⟨m, g, e⟩ := s.stamp_frame a
    rw [e]; rfl
  have ht := State.tag_stamp h a c
  unfold State.pkgByte State.stale
  rw [hu, ht]
  by_cases hc : c / 32 = a / 32
  · rw [if_pos hc, State.accessGen_granule s hc]
    have hn : (s.accessGen a == 0) = false := by simpa using hg
    simp only [hn, Bool.false_or, bne_self_eq_false, Bool.false_eq_true, if_false]
    have e : s.tag c = s.tag a := by simp [State.tag, hc]
    rw [e, State.stamp_eq]
    by_cases hs : s.tag a = s.accessGen a
    · simp [hs]
    · rw [if_neg hs]
      have hz := State.byte_zeroRun h (a / 32 * 32) 32 c
      rw [if_pos (by omega)] at hz
      have : (s.tag a != s.accessGen a) = true := by simpa using hs
      rw [this, if_pos rfl]
      exact hz
  · rw [if_neg hc]
    have hb : (s.stamp a).byte c = s.byte c := by
      rw [State.stamp_eq]
      split
      · rfl
      · have hz := State.byte_zeroRun h (a / 32 * 32) 32 c
        rw [if_neg (by omega)] at hz
        exact hz
    rw [hb]

/-- A byte of package SRAM reads as it was set, zero where no allocation holds its unit; every other byte reads as it
did. -/
theorem State.pkgByte_pkgSet {s : State} (h : s.memInv) (a c : Nat) (x : Byte) :
    (s.pkgSet a x).pkgByte c = if c = a then (if s.accessGen a = 0 then 0 else x) else s.pkgByte c := by
  unfold State.pkgSet
  by_cases hg : s.accessGen a = 0
  · rw [if_pos hg]
    split
    · rename_i hc; subst hc; simp [State.pkgByte, State.stale, hg]
    · rfl
  · rw [if_neg hg, if_neg hg]
    have hi := State.memInv_stamp h a
    have hu : ∀ c, ((s.stamp a).setByte a x).accessGen c = s.accessGen c := fun c => by
      obtain ⟨m, g, e⟩ := s.stamp_frame a
      rw [e]; rfl
    by_cases hc : c = a
    · rw [if_pos hc]
      subst hc
      have ht : ((s.stamp c).setByte c x).tag c = s.accessGen c := by
        have := State.tag_stamp h c c
        rw [if_pos rfl] at this
        exact this
      unfold State.pkgByte State.stale
      rw [hu, ht, State.byte_setByte_same _ _ _ hi.1]
      have hn : ¬s.accessGen c = 0#16 := hg
      simp [hn]
    · rw [if_neg hc]
      rw [← State.pkgByte_stamp h a c hg]
      unfold State.pkgByte
      rw [State.byte_setByte_other _ _ hi.1 hc]
      rfl

theorem State.memInv_pkgSet {s : State} (h : s.memInv) (a : Nat) (x : Byte) : (s.pkgSet a x).memInv := by
  unfold State.pkgSet
  split
  · exact h
  · exact State.memInv_setByte (State.memInv_stamp h a) a x

/-- Setting a byte changes memory and tags only. -/
theorem State.pkgSet_frame (s : State) (a : Nat) (x : Byte) : ∃ m g, s.pkgSet a x = { s with mem := m, tags := g } := by
  unfold State.pkgSet
  split
  · exact ⟨s.mem, s.tags, rfl⟩
  · obtain ⟨m, g, e⟩ := s.stamp_frame a
    rw [e]; exact ⟨_, _, rfl⟩

theorem State.accessGen_pkgSet (s : State) (a : Nat) (x : Byte) (c : Nat) : (s.pkgSet a x).accessGen c = s.accessGen c := by
  obtain ⟨m, g, e⟩ := s.pkgSet_frame a x
  rw [e]; rfl

theorem State.memInv_pkgSetAll {s : State} (h : s.memInv) (bs : List Byte) (a : Nat) : (s.pkgSetAll a bs).memInv := by
  induction bs generalizing s a with
  | nil => exact h
  | cons x xs ih => exact ih (State.memInv_pkgSet h a x) (a + 1)

theorem State.pkgSetAll_frame (s : State) (a : Nat) (bs : List Byte) :
    ∃ m g, s.pkgSetAll a bs = { s with mem := m, tags := g } := by
  induction bs generalizing s a with
  | nil => exact ⟨s.mem, s.tags, rfl⟩
  | cons x xs ih =>
    obtain ⟨m, g, e⟩ := s.pkgSet_frame a x
    obtain ⟨m', g', e'⟩ := ih (s.pkgSet a x) (a + 1)
    refine ⟨m', g', ?_⟩
    rw [State.pkgSetAll, e', e]

/-- Bytes read as they were set, zero where no allocation holds their unit; every other byte reads as it did. -/
theorem State.pkgByte_pkgSetAll {s : State} (h : s.memInv) (bs : List Byte) (a c : Nat) :
    (s.pkgSetAll a bs).pkgByte c =
      if a ≤ c ∧ c < a + bs.length then (if s.accessGen c = 0 then 0 else bs.getD (c - a) 0) else s.pkgByte c := by
  induction bs generalizing s a with
  | nil => simp [State.pkgSetAll]
  | cons x xs ih =>
    rw [State.pkgSetAll, ih (State.memInv_pkgSet h a x), State.accessGen_pkgSet, State.pkgByte_pkgSet h]
    have hl : (x :: xs).length = xs.length + 1 := rfl
    by_cases h1 : a + 1 ≤ c ∧ c < a + 1 + xs.length
    · rw [if_pos h1, if_pos (show a ≤ c ∧ c < a + (x :: xs).length by rw [hl]; omega)]
      have : c - a = (c - (a + 1)) + 1 := by omega
      rw [this]; simp
    · rw [if_neg h1]
      by_cases h2 : c = a
      · subst h2
        rw [if_pos rfl, if_pos (show c ≤ c ∧ c < c + (x :: xs).length by rw [hl]; omega)]
        simp
      · rw [if_neg h2, if_neg (show ¬(a ≤ c ∧ c < a + (x :: xs).length) by rw [hl]; omega)]

/-! Writes as their homes perform them. -/

/-- What a write may change besides memory and tags: watches, registers, errors. -/
theorem State.wakeWaita_mem (s : State) (k : Nat) (r : Word64) :
    (s.wakeWaita k r).mem = s.mem ∧ (s.wakeWaita k r).tags = s.tags ∧ (s.wakeWaita k r).coreUnits = s.coreUnits ∧
      (s.wakeWaita k r).sliceUnits = s.sliceUnits := by
  unfold State.wakeWaita; split <;> simp

/-- Two states whose package SRAM reads alike. -/
def State.sameMem (s t : State) : Prop :=
  t.mem = s.mem ∧ t.tags = s.tags ∧ t.coreUnits = s.coreUnits ∧ t.sliceUnits = s.sliceUnits

theorem State.sameMem.refl (s : State) : s.sameMem s := ⟨rfl, rfl, rfl, rfl⟩

theorem State.sameMem.trans {s t u : State} (h : s.sameMem t) (g : t.sameMem u) : s.sameMem u :=
  ⟨g.1.trans h.1, g.2.1.trans h.2.1, g.2.2.1.trans h.2.2.1, g.2.2.2.trans h.2.2.2⟩

theorem State.sameMem.memInv {s t : State} (h : s.sameMem t) (g : s.memInv) : t.memInv := by
  unfold State.memInv at *; rw [h.1, h.2.1]; exact g

theorem State.sameMem.accessGen {s t : State} (h : s.sameMem t) (a : Nat) : t.accessGen a = s.accessGen a :=
  State.accessGen_of_units h.2.2.1 h.2.2.2 a

theorem State.sameMem.pkgByte {s t : State} (h : s.sameMem t) (a : Nat) : t.pkgByte a = s.pkgByte a := by
  simp [State.pkgByte, State.stale, h.accessGen, State.tag, State.byte, h.1, h.2.1]

theorem State.sameMem.pkgRead {s t : State} (h : s.sameMem t) (a n : Nat) : t.pkgRead a n = s.pkgRead a n := by
  simp [State.pkgRead, h.pkgByte]

theorem State.sameMem_foldl {α : Type} (f : State → α → State) (h : ∀ (s : State) x, s.sameMem (f s x)) (l : List α) (s : State) :
    s.sameMem (l.foldl f s) := by
  induction l generalizing s with
  | nil => exact .refl s
  | cons x l ih => exact (h s x).trans (ih (f s x))

theorem State.sameMem_notify (s : State) (g : Nat) : s.sameMem (s.notify g) := by
  unfold State.notify
  refine State.sameMem_foldl (fun (t : State) (p : Nat × Sheaf) =>
    (t.modSheaf p.1 fun sh => { sh with watchHit := true }).wakeWaita p.1 0) (fun t p => ?_) _ s
  obtain ⟨h1, h2, h3, h4⟩ := (t.modSheaf p.1 fun sh => { sh with watchHit := true }).wakeWaita_mem p.1 0
  exact ⟨h1, h2, h3, h4⟩

theorem State.sameMem_mask (s : State) (a n : Nat) : s.sameMem (s.mask a n) := by
  unfold State.mask; split
  · exact .refl s
  · exact ⟨rfl, rfl, rfl, rfl⟩

/-- After its bytes are set, a write changes nothing of memory. -/
theorem State.sameMem_pkgWrite (s : State) (a : Nat) (bs : List Byte) : (s.pkgSetAll a bs).sameMem (s.pkgWrite a bs) := by
  unfold State.pkgWrite
  exact (State.sameMem_mask _ a bs.length).trans
    (State.sameMem_foldl State.notify (fun s g => State.sameMem_notify s g) _ _)

/-- A write keeps the canonical forms. -/
theorem State.memInv_pkgWrite {s : State} (h : s.memInv) (a : Nat) (bs : List Byte) : (s.pkgWrite a bs).memInv :=
  (s.sameMem_pkgWrite a bs).memInv (State.memInv_pkgSetAll h bs a)

/-- Written bytes read as they were written, zero where no allocation holds their unit; every other byte reads as it
did. -/
theorem State.pkgByte_pkgWrite {s : State} (h : s.memInv) (bs : List Byte) (a c : Nat) :
    (s.pkgWrite a bs).pkgByte c =
      if a ≤ c ∧ c < a + bs.length then (if s.accessGen c = 0 then 0 else bs.getD (c - a) 0) else s.pkgByte c := by
  rw [(s.sameMem_pkgWrite a bs).pkgByte, State.pkgByte_pkgSetAll h]

end Sys2Proof.Machine
end

