-- ==== Sys2Proof/Laws/PerInstr.lean ====
section
/-!
SUPPORT. Statements made per instruction. Family Encoding: the word of a well-formed instruction decodes to it
(spec 08 R3, R150 to R163).
-/

set_option linter.unusedSimpArgs false
set_option linter.unusedTactic false
set_option linter.unreachableTactic false

namespace Sys2Proof.Laws

open Sys2Proof

/-- Decoding the word of a well-formed instruction gives the instruction back. -/
def Encoding.Statement (i : Instr) : Prop := i.wf = true → decodeBits (encode i) = .ok i

theorem Encoding.pad (p : BitVec 30) :
    Encoding.Statement (.pad p) := by
  intro _
  exact decodeBits_pad p

theorem Encoding.nop (h : Hdr) :
    Encoding.Statement (.nop h) := by
  intro hw
  · refine round _ (word h 0x0 0) rfl rfl hw rfl ?_
    show some (Instr.nop _) = _
    all_goals simp only [word, Raw.hdr_mk]
    all_goals simp only []
    all_goals simp

theorem Encoding.bra (h : Hdr) (off : BitVec 24) :
    Encoding.Statement (.bra h off) := by
  intro hw
  · refine round _ ((word h 0x0 1).withOff off) rfl rfl hw rfl ?_
    show some (Instr.bra _ _) = _
    all_goals simp only [word, Raw.hdr_mk, Raw.withOff, Raw.off24]
    all_goals simp only [off24_parts]
    all_goals simp

theorem Encoding.braReg (h : Hdr) (a : SReg) :
    Encoding.Statement (.braReg h a) := by
  intro hw
  · refine round _ ({ word h 0x0 1 with a := SReg.code a, md := 1 }) rfl rfl hw rfl ?_
    show some (Instr.braReg _ _) = _
    all_goals simp only [word, Raw.hdr_mk]
    all_goals simp only [sregOf_code]
    all_goals simp

theorem Encoding.brp (h : Hdr) (off : BitVec 24) :
    Encoding.Statement (.brp h off) := by
  intro hw
  · refine round _ ((word h 0x0 2).withOff off) rfl rfl hw rfl ?_
    show some (Instr.brp _ _) = _
    all_goals simp only [word, Raw.hdr_mk, Raw.withOff, Raw.off24]
    all_goals simp only [off24_parts]
    all_goals simp

theorem Encoding.brpJoin (h : Hdr) (off : BitVec 24) (j : Word32) :
    Encoding.Statement (.brpJoin h off j) := by
  intro hw
  · refine round _ (((word h 0x0 2).withOff off).imm96 j) rfl rfl hw (extOk_imm96 _ _) ?_
    show some (Instr.brpJoin _ _ _) = _
    all_goals simp only [word, Raw.hdr_mk, Raw.imm96, Raw.imm32, Raw.withOff, Raw.off24]
    all_goals simp only [imm32_setWidth, off24_parts]
    all_goals simp

theorem Encoding.join (h : Hdr) :
    Encoding.Statement (.join h) := by
  intro hw
  · refine round _ (word h 0x0 3) rfl rfl hw rfl ?_
    show some (Instr.join _) = _
    all_goals simp only [word, Raw.hdr_mk]
    all_goals simp only []
    all_goals simp

theorem Encoding.loop (h : Hdr) (d : SReg) (off : BitVec 24) :
    Encoding.Statement (.loop h d off) := by
  intro hw
  · refine round _ (({ word h 0x0 4 with d := SReg.code d }).withOff off) rfl rfl hw rfl ?_
    show some (Instr.loop _ _ _) = _
    all_goals simp only [word, Raw.hdr_mk, Raw.withOff, Raw.off24]
    all_goals simp only [sregOf_code, off24_parts]
    all_goals simp

theorem Encoding.call (h : Hdr) (d : SReg) (off : BitVec 24) :
    Encoding.Statement (.call h d off) := by
  intro hw
  · refine round _ (({ word h 0x0 5 with d := SReg.code d }).withOff off) rfl rfl hw rfl ?_
    show some (Instr.call _ _ _) = _
    all_goals simp only [word, Raw.hdr_mk, Raw.withOff, Raw.off24]
    all_goals simp only [sregOf_code, off24_parts]
    all_goals simp

theorem Encoding.callReg (h : Hdr) (d : SReg) (a : SReg) :
    Encoding.Statement (.callReg h d a) := by
  intro hw
  · refine round _ ({ word h 0x0 5 with d := SReg.code d, a := SReg.code a, md := 1 }) rfl rfl hw rfl ?_
    show some (Instr.callReg _ _ _) = _
    all_goals simp only [word, Raw.hdr_mk]
    all_goals simp only [sregOf_code]
    all_goals simp

theorem Encoding.calli (h : Hdr) (d : SReg) (a : VSrc) :
    Encoding.Statement (.calli h d a) := by
  intro hw
  · refine round _ ({ word h 0x0 6 with d := SReg.code d, a := a.code }) rfl rfl hw rfl ?_
    show some (Instr.calli _ _ _) = _
    all_goals simp only [word, Raw.hdr_mk]
    all_goals simp only [sregOf_code, vsrcOf_code]
    all_goals simp

theorem Encoding.ret (h : Hdr) (a : SReg) :
    Encoding.Statement (.ret h a) := by
  intro hw
  · refine round _ ({ word h 0x0 7 with a := SReg.code a }) rfl rfl hw rfl ?_
    show some (Instr.ret _ _) = _
    all_goals simp only [word, Raw.hdr_mk]
    all_goals simp only [sregOf_code]
    all_goals simp

theorem Encoding.exit (h : Hdr) :
    Encoding.Statement (.exit h) := by
  intro hw
  · refine round _ (word h 0x0 8) rfl rfl hw rfl ?_
    show some (Instr.exit _) = _
    all_goals simp only [word, Raw.hdr_mk]
    all_goals simp only []
    all_goals simp

theorem Encoding.yield (h : Hdr) :
    Encoding.Statement (.yield h) := by
  intro hw
  · refine round _ (word h 0x0 9) rfl rfl hw rfl ?_
    show some (Instr.yield _) = _
    all_goals simp only [word, Raw.hdr_mk]
    all_goals simp only []
    all_goals simp

theorem Encoding.trap (h : Hdr) (code : Byte) :
    Encoding.Statement (.trap h code) := by
  intro hw
  · refine round _ ({ word h 0x0 10 with c := code }) rfl rfl hw rfl ?_
    show some (Instr.trap _ _) = _
    all_goals simp only [word, Raw.hdr_mk]
    all_goals simp only []
    all_goals simp

theorem Encoding.tret (h : Hdr) :
    Encoding.Statement (.tret h) := by
  intro hw
  · refine round _ (word h 0x0 11) rfl rfl hw rfl ?_
    show some (Instr.tret _) = _
    all_goals simp only [word, Raw.hdr_mk]
    all_goals simp only []
    all_goals simp

theorem Encoding.mcall (h : Hdr) (p0 : Byte) (p1 : Byte) (p2 : Byte) (p3 : Byte) (m : Fin 64) :
    Encoding.Statement (.mcall h p0 p1 p2 p3 m) := by
  intro hw
  · refine round _ (({ word h 0x0 12 with d := p0, a := p1, b := p2, c := p3 }).imm96 (BitVec.ofNat 32 m.val)) rfl rfl hw (extOk_imm96 _ _) ?_
    show some (Instr.mcall _ _ _ _ _ _) = _
    all_goals simp only [word, Raw.hdr_mk, Raw.imm96, Raw.imm32]
    all_goals simp only [imm32_setWidth, fin64_ofNat]
    all_goals simp

theorem Encoding.bkpt (h : Hdr) (code : Byte) :
    Encoding.Statement (.bkpt h code) := by
  intro hw
  · refine round _ ({ word h 0x0 13 with c := code }) rfl rfl hw rfl ?_
    show some (Instr.bkpt _ _) = _
    all_goals simp only [word, Raw.hdr_mk]
    all_goals simp only []
    all_goals simp

theorem Encoding.waita (h : Hdr) (d : SReg) (a : SReg) :
    Encoding.Statement (.waita h d a) := by
  intro hw
  · refine round _ ({ word h 0x0 14 with d := SReg.code d, a := SReg.code a }) rfl rfl hw rfl ?_
    show some (Instr.waita _ _ _) = _
    all_goals simp only [word, Raw.hdr_mk]
    all_goals simp only [sregOf_code]
    all_goals simp

theorem Encoding.waitaTimeout (p : Place) :
    Encoding.Statement (.waitaTimeout p) :=
  fun hw => nomatch (show false = true from hw)

theorem Encoding.sleep (h : Hdr) (a : SReg) :
    Encoding.Statement (.sleep h a) := by
  intro hw
  · refine round _ ({ word h 0x0 15 with a := SReg.code a }) rfl rfl hw rfl ?_
    show some (Instr.sleep _ _) = _
    all_goals simp only [word, Raw.hdr_mk]
    all_goals simp only [sregOf_code]
    all_goals simp

theorem Encoding.sleepImm (h : Hdr) (n : Word32) :
    Encoding.Statement (.sleepImm h n) := by
  intro hw
  · refine round _ (({ word h 0x0 15 with md := 1 }).imm96 (n)) rfl rfl hw (extOk_imm96 _ _) ?_
    show some (Instr.sleepImm _ _) = _
    all_goals simp only [word, Raw.hdr_mk, Raw.imm96, Raw.imm32]
    all_goals simp only [imm32_setWidth]
    all_goals simp

theorem Encoding.sleepExpiry (p : Place) :
    Encoding.Statement (.sleepExpiry p) :=
  fun hw => nomatch (show false = true from hw)

theorem Encoding.elect (h : Hdr) (d : PReg) (a : SReg) :
    Encoding.Statement (.elect h d a) := by
  intro hw
  · refine round _ ({ word h 0x0 16 with d := PReg.code d, a := SReg.code a }) rfl rfl hw rfl ?_
    show some (Instr.elect _ _ _) = _
    all_goals simp only [word, Raw.hdr_mk]
    all_goals simp only [sregOf_code, pregOf_code]
    all_goals simp

theorem Encoding.smov (h : Hdr) (d : SReg) (a : SReg) :
    Encoding.Statement (.smov h d a) := by
  intro hw
  · refine round _ ({ word h 0x1 0 with d := SReg.code d, a := SReg.code a }) rfl rfl hw rfl ?_
    show some (Instr.smov _ _ _) = _
    all_goals simp only [word, Raw.hdr_mk]
    all_goals simp only [sregOf_code]
    all_goals simp

theorem Encoding.smovi (h : Hdr) (ty : Ty) (d : SReg) (imm : Word32) :
    Encoding.Statement (.smovi h ty d imm) := by
  intro hw
  · refine round _ (({ word h 0x1 1 with d := SReg.code d, ty := ty.code }).imm96 (imm)) rfl rfl hw (extOk_imm96 _ _) ?_
    show some (Instr.smovi _ _ _ _) = _
    all_goals simp only [word, Raw.hdr_mk, Raw.t, Raw.imm96, Raw.imm32]
    all_goals simp only [Ty.ofCode_code, sregOf_code, imm32_setWidth]
    all_goals simp

theorem Encoding.smovq (h : Hdr) (d : SReg) (imm : Word64) :
    Encoding.Statement (.smovq h d imm) := by
  intro hw
  · refine round _ (({ word h 0x1 2 with d := SReg.code d }).imm128 (imm)) rfl rfl hw rfl ?_
    show some (Instr.smovq _ _ _) = _
    all_goals simp only [word, Raw.hdr_mk, Raw.imm128]
    all_goals simp only [sregOf_code]
    all_goals simp

theorem Encoding.sadd (h : Hdr) (ty : Ty) (sat : Bool) (d : SReg) (a : SReg) (b : SSrc) :
    Encoding.Statement (.sadd h ty sat d a b) := by
  intro hw
  rcases b with b | b
  · refine round _ (({ word h 0x1 3 with d := SReg.code d, a := SReg.code a, ty := ty.code, md := mdA .rne sat (SSrc.r b).isImm 0 }).withSB (SSrc.r b)) rfl rfl hw rfl ?_
    show some (Instr.sadd _ _ _ _ _ _) = _
    all_goals simp only [word, Raw.hdr_mk, Raw.t, Raw.withSB, Raw.ssrc, SSrc.isImm, Raw.sb, Raw.sat]
    all_goals simp only [Ty.ofCode_code, sregOf_code, mdA_sb, mdA_sat]
    all_goals simp
  · refine round _ (({ word h 0x1 3 with d := SReg.code d, a := SReg.code a, ty := ty.code, md := mdA .rne sat (SSrc.imm b).isImm 0 }).withSB (SSrc.imm b)) rfl rfl hw (extOk_imm96 _ _) ?_
    show some (Instr.sadd _ _ _ _ _ _) = _
    all_goals simp only [word, Raw.hdr_mk, Raw.t, Raw.withSB, Raw.ssrc, SSrc.isImm, Raw.sb, Raw.imm96, Raw.imm32, Raw.sat]
    all_goals simp only [Ty.ofCode_code, sregOf_code, mdA_sb, imm32_setWidth, mdA_sat]
    all_goals simp

theorem Encoding.ssub (h : Hdr) (ty : Ty) (sat : Bool) (d : SReg) (a : SReg) (b : SSrc) :
    Encoding.Statement (.ssub h ty sat d a b) := by
  intro hw
  rcases b with b | b
  · refine round _ (({ word h 0x1 4 with d := SReg.code d, a := SReg.code a, ty := ty.code, md := mdA .rne sat (SSrc.r b).isImm 0 }).withSB (SSrc.r b)) rfl rfl hw rfl ?_
    show some (Instr.ssub _ _ _ _ _ _) = _
    all_goals simp only [word, Raw.hdr_mk, Raw.t, Raw.withSB, Raw.ssrc, SSrc.isImm, Raw.sb, Raw.sat]
    all_goals simp only [Ty.ofCode_code, sregOf_code, mdA_sb, mdA_sat]
    all_goals simp
  · refine round _ (({ word h 0x1 4 with d := SReg.code d, a := SReg.code a, ty := ty.code, md := mdA .rne sat (SSrc.imm b).isImm 0 }).withSB (SSrc.imm b)) rfl rfl hw (extOk_imm96 _ _) ?_
    show some (Instr.ssub _ _ _ _ _ _) = _
    all_goals simp only [word, Raw.hdr_mk, Raw.t, Raw.withSB, Raw.ssrc, SSrc.isImm, Raw.sb, Raw.imm96, Raw.imm32, Raw.sat]
    all_goals simp only [Ty.ofCode_code, sregOf_code, mdA_sb, imm32_setWidth, mdA_sat]
    all_goals simp

theorem Encoding.smul (h : Hdr) (ty : Ty) (sat : Bool) (d : SReg) (a : SReg) (b : SSrc) :
    Encoding.Statement (.smul h ty sat d a b) := by
  intro hw
  rcases b with b | b
  · refine round _ (({ word h 0x1 5 with d := SReg.code d, a := SReg.code a, ty := ty.code, md := mdA .rne sat (SSrc.r b).isImm 0 }).withSB (SSrc.r b)) rfl rfl hw rfl ?_
    show some (Instr.smul _ _ _ _ _ _) = _
    all_goals simp only [word, Raw.hdr_mk, Raw.t, Raw.withSB, Raw.ssrc, SSrc.isImm, Raw.sb, Raw.sat]
    all_goals simp only [Ty.ofCode_code, sregOf_code, mdA_sb, mdA_sat]
    all_goals simp
  · refine round _ (({ word h 0x1 5 with d := SReg.code d, a := SReg.code a, ty := ty.code, md := mdA .rne sat (SSrc.imm b).isImm 0 }).withSB (SSrc.imm b)) rfl rfl hw (extOk_imm96 _ _) ?_
    show some (Instr.smul _ _ _ _ _ _) = _
    all_goals simp only [word, Raw.hdr_mk, Raw.t, Raw.withSB, Raw.ssrc, SSrc.isImm, Raw.sb, Raw.imm96, Raw.imm32, Raw.sat]
    all_goals simp only [Ty.ofCode_code, sregOf_code, mdA_sb, imm32_setWidth, mdA_sat]
    all_goals simp

theorem Encoding.smulh (h : Hdr) (ty : Ty) (d : SReg) (a : SReg) (b : SSrc) :
    Encoding.Statement (.smulh h ty d a b) := by
  intro hw
  rcases b with b | b
  · refine round _ (({ word h 0x1 6 with d := SReg.code d, a := SReg.code a, ty := ty.code, md := mdA .rne false (SSrc.r b).isImm 0 }).withSB (SSrc.r b)) rfl rfl hw rfl ?_
    show some (Instr.smulh _ _ _ _ _) = _
    all_goals simp only [word, Raw.hdr_mk, Raw.t, Raw.withSB, Raw.ssrc, SSrc.isImm, Raw.sb]
    all_goals simp only [Ty.ofCode_code, sregOf_code, mdA_sb]
    all_goals simp
  · refine round _ (({ word h 0x1 6 with d := SReg.code d, a := SReg.code a, ty := ty.code, md := mdA .rne false (SSrc.imm b).isImm 0 }).withSB (SSrc.imm b)) rfl rfl hw (extOk_imm96 _ _) ?_
    show some (Instr.smulh _ _ _ _ _) = _
    all_goals simp only [word, Raw.hdr_mk, Raw.t, Raw.withSB, Raw.ssrc, SSrc.isImm, Raw.sb, Raw.imm96, Raw.imm32]
    all_goals simp only [Ty.ofCode_code, sregOf_code, mdA_sb, imm32_setWidth]
    all_goals simp

theorem Encoding.sdiv (h : Hdr) (ty : Ty) (d : SReg) (a : SReg) (b : SSrc) :
    Encoding.Statement (.sdiv h ty d a b) := by
  intro hw
  rcases b with b | b
  · refine round _ (({ word h 0x1 7 with d := SReg.code d, a := SReg.code a, ty := ty.code, md := mdA .rne false (SSrc.r b).isImm 0 }).withSB (SSrc.r b)) rfl rfl hw rfl ?_
    show some (Instr.sdiv _ _ _ _ _) = _
    all_goals simp only [word, Raw.hdr_mk, Raw.t, Raw.withSB, Raw.ssrc, SSrc.isImm, Raw.sb]
    all_goals simp only [Ty.ofCode_code, sregOf_code, mdA_sb]
    all_goals simp
  · refine round _ (({ word h 0x1 7 with d := SReg.code d, a := SReg.code a, ty := ty.code, md := mdA .rne false (SSrc.imm b).isImm 0 }).withSB (SSrc.imm b)) rfl rfl hw (extOk_imm96 _ _) ?_
    show some (Instr.sdiv _ _ _ _ _) = _
    all_goals simp only [word, Raw.hdr_mk, Raw.t, Raw.withSB, Raw.ssrc, SSrc.isImm, Raw.sb, Raw.imm96, Raw.imm32]
    all_goals simp only [Ty.ofCode_code, sregOf_code, mdA_sb, imm32_setWidth]
    all_goals simp

theorem Encoding.srem (h : Hdr) (ty : Ty) (d : SReg) (a : SReg) (b : SSrc) :
    Encoding.Statement (.srem h ty d a b) := by
  intro hw
  rcases b with b | b
  · refine round _ (({ word h 0x1 8 with d := SReg.code d, a := SReg.code a, ty := ty.code, md := mdA .rne false (SSrc.r b).isImm 0 }).withSB (SSrc.r b)) rfl rfl hw rfl ?_
    show some (Instr.srem _ _ _ _ _) = _
    all_goals simp only [word, Raw.hdr_mk, Raw.t, Raw.withSB, Raw.ssrc, SSrc.isImm, Raw.sb]
    all_goals simp only [Ty.ofCode_code, sregOf_code, mdA_sb]
    all_goals simp
  · refine round _ (({ word h 0x1 8 with d := SReg.code d, a := SReg.code a, ty := ty.code, md := mdA .rne false (SSrc.imm b).isImm 0 }).withSB (SSrc.imm b)) rfl rfl hw (extOk_imm96 _ _) ?_
    show some (Instr.srem _ _ _ _ _) = _
    all_goals simp only [word, Raw.hdr_mk, Raw.t, Raw.withSB, Raw.ssrc, SSrc.isImm, Raw.sb, Raw.imm96, Raw.imm32]
    all_goals simp only [Ty.ofCode_code, sregOf_code, mdA_sb, imm32_setWidth]
    all_goals simp

theorem Encoding.sand (h : Hdr) (d : SReg) (a : SReg) (b : SSrc) :
    Encoding.Statement (.sand h d a b) := by
  intro hw
  rcases b with b | b
  · refine round _ (({ word h 0x1 9 with d := SReg.code d, a := SReg.code a, ty := 0x0A, md := mdA .rne false (SSrc.r b).isImm 0 }).withSB (SSrc.r b)) rfl rfl hw rfl ?_
    show some (Instr.sand _ _ _ _) = _
    all_goals simp only [word, Raw.hdr_mk, Raw.withSB, Raw.ssrc, SSrc.isImm, Raw.sb]
    all_goals simp only [sregOf_code, mdA_sb]
    all_goals simp
  · refine round _ (({ word h 0x1 9 with d := SReg.code d, a := SReg.code a, ty := 0x0A, md := mdA .rne false (SSrc.imm b).isImm 0 }).withSB (SSrc.imm b)) rfl rfl hw (extOk_imm96 _ _) ?_
    show some (Instr.sand _ _ _ _) = _
    all_goals simp only [word, Raw.hdr_mk, Raw.withSB, Raw.ssrc, SSrc.isImm, Raw.sb, Raw.imm96, Raw.imm32]
    all_goals simp only [sregOf_code, mdA_sb, imm32_setWidth]
    all_goals simp

theorem Encoding.sor (h : Hdr) (d : SReg) (a : SReg) (b : SSrc) :
    Encoding.Statement (.sor h d a b) := by
  intro hw
  rcases b with b | b
  · refine round _ (({ word h 0x1 10 with d := SReg.code d, a := SReg.code a, ty := 0x0A, md := mdA .rne false (SSrc.r b).isImm 0 }).withSB (SSrc.r b)) rfl rfl hw rfl ?_
    show some (Instr.sor _ _ _ _) = _
    all_goals simp only [word, Raw.hdr_mk, Raw.withSB, Raw.ssrc, SSrc.isImm, Raw.sb]
    all_goals simp only [sregOf_code, mdA_sb]
    all_goals simp
  · refine round _ (({ word h 0x1 10 with d := SReg.code d, a := SReg.code a, ty := 0x0A, md := mdA .rne false (SSrc.imm b).isImm 0 }).withSB (SSrc.imm b)) rfl rfl hw (extOk_imm96 _ _) ?_
    show some (Instr.sor _ _ _ _) = _
    all_goals simp only [word, Raw.hdr_mk, Raw.withSB, Raw.ssrc, SSrc.isImm, Raw.sb, Raw.imm96, Raw.imm32]
    all_goals simp only [sregOf_code, mdA_sb, imm32_setWidth]
    all_goals simp

theorem Encoding.sxor (h : Hdr) (d : SReg) (a : SReg) (b : SSrc) :
    Encoding.Statement (.sxor h d a b) := by
  intro hw
  rcases b with b | b
  · refine round _ (({ word h 0x1 11 with d := SReg.code d, a := SReg.code a, ty := 0x0A, md := mdA .rne false (SSrc.r b).isImm 0 }).withSB (SSrc.r b)) rfl rfl hw rfl ?_
    show some (Instr.sxor _ _ _ _) = _
    all_goals simp only [word, Raw.hdr_mk, Raw.withSB, Raw.ssrc, SSrc.isImm, Raw.sb]
    all_goals simp only [sregOf_code, mdA_sb]
    all_goals simp
  · refine round _ (({ word h 0x1 11 with d := SReg.code d, a := SReg.code a, ty := 0x0A, md := mdA .rne false (SSrc.imm b).isImm 0 }).withSB (SSrc.imm b)) rfl rfl hw (extOk_imm96 _ _) ?_
    show some (Instr.sxor _ _ _ _) = _
    all_goals simp only [word, Raw.hdr_mk, Raw.withSB, Raw.ssrc, SSrc.isImm, Raw.sb, Raw.imm96, Raw.imm32]
    all_goals simp only [sregOf_code, mdA_sb, imm32_setWidth]
    all_goals simp

theorem Encoding.sshl (h : Hdr) (ty : Ty) (d : SReg) (a : SReg) (b : SSrc) :
    Encoding.Statement (.sshl h ty d a b) := by
  intro hw
  rcases b with b | b
  · refine round _ (({ word h 0x1 12 with d := SReg.code d, a := SReg.code a, ty := ty.code, md := mdA .rne false (SSrc.r b).isImm 0 }).withSB (SSrc.r b)) rfl rfl hw rfl ?_
    show some (Instr.sshl _ _ _ _ _) = _
    all_goals simp only [word, Raw.hdr_mk, Raw.t, Raw.withSB, Raw.ssrc, SSrc.isImm, Raw.sb]
    all_goals simp only [Ty.ofCode_code, sregOf_code, mdA_sb]
    all_goals simp
  · refine round _ (({ word h 0x1 12 with d := SReg.code d, a := SReg.code a, ty := ty.code, md := mdA .rne false (SSrc.imm b).isImm 0 }).withSB (SSrc.imm b)) rfl rfl hw (extOk_imm96 _ _) ?_
    show some (Instr.sshl _ _ _ _ _) = _
    all_goals simp only [word, Raw.hdr_mk, Raw.t, Raw.withSB, Raw.ssrc, SSrc.isImm, Raw.sb, Raw.imm96, Raw.imm32]
    all_goals simp only [Ty.ofCode_code, sregOf_code, mdA_sb, imm32_setWidth]
    all_goals simp

theorem Encoding.sshr (h : Hdr) (ty : Ty) (d : SReg) (a : SReg) (b : SSrc) :
    Encoding.Statement (.sshr h ty d a b) := by
  intro hw
  rcases b with b | b
  · refine round _ (({ word h 0x1 13 with d := SReg.code d, a := SReg.code a, ty := ty.code, md := mdA .rne false (SSrc.r b).isImm 0 }).withSB (SSrc.r b)) rfl rfl hw rfl ?_
    show some (Instr.sshr _ _ _ _ _) = _
    all_goals simp only [word, Raw.hdr_mk, Raw.t, Raw.withSB, Raw.ssrc, SSrc.isImm, Raw.sb]
    all_goals simp only [Ty.ofCode_code, sregOf_code, mdA_sb]
    all_goals simp
  · refine round _ (({ word h 0x1 13 with d := SReg.code d, a := SReg.code a, ty := ty.code, md := mdA .rne false (SSrc.imm b).isImm 0 }).withSB (SSrc.imm b)) rfl rfl hw (extOk_imm96 _ _) ?_
    show some (Instr.sshr _ _ _ _ _) = _
    all_goals simp only [word, Raw.hdr_mk, Raw.t, Raw.withSB, Raw.ssrc, SSrc.isImm, Raw.sb, Raw.imm96, Raw.imm32]
    all_goals simp only [Ty.ofCode_code, sregOf_code, mdA_sb, imm32_setWidth]
    all_goals simp

theorem Encoding.ssar (h : Hdr) (d : SReg) (a : SReg) (b : SSrc) :
    Encoding.Statement (.ssar h d a b) := by
  intro hw
  rcases b with b | b
  · refine round _ (({ word h 0x1 14 with d := SReg.code d, a := SReg.code a, ty := 0x04, md := mdA .rne false (SSrc.r b).isImm 0 }).withSB (SSrc.r b)) rfl rfl hw rfl ?_
    show some (Instr.ssar _ _ _ _) = _
    all_goals simp only [word, Raw.hdr_mk, Raw.withSB, Raw.ssrc, SSrc.isImm, Raw.sb]
    all_goals simp only [sregOf_code, mdA_sb]
    all_goals simp
  · refine round _ (({ word h 0x1 14 with d := SReg.code d, a := SReg.code a, ty := 0x04, md := mdA .rne false (SSrc.imm b).isImm 0 }).withSB (SSrc.imm b)) rfl rfl hw (extOk_imm96 _ _) ?_
    show some (Instr.ssar _ _ _ _) = _
    all_goals simp only [word, Raw.hdr_mk, Raw.withSB, Raw.ssrc, SSrc.isImm, Raw.sb, Raw.imm96, Raw.imm32]
    all_goals simp only [sregOf_code, mdA_sb, imm32_setWidth]
    all_goals simp

theorem Encoding.smin (h : Hdr) (ty : Ty) (d : SReg) (a : SReg) (b : SSrc) :
    Encoding.Statement (.smin h ty d a b) := by
  intro hw
  rcases b with b | b
  · refine round _ (({ word h 0x1 15 with d := SReg.code d, a := SReg.code a, ty := ty.code, md := mdA .rne false (SSrc.r b).isImm 0 }).withSB (SSrc.r b)) rfl rfl hw rfl ?_
    show some (Instr.smin _ _ _ _ _) = _
    all_goals simp only [word, Raw.hdr_mk, Raw.t, Raw.withSB, Raw.ssrc, SSrc.isImm, Raw.sb]
    all_goals simp only [Ty.ofCode_code, sregOf_code, mdA_sb]
    all_goals simp
  · refine round _ (({ word h 0x1 15 with d := SReg.code d, a := SReg.code a, ty := ty.code, md := mdA .rne false (SSrc.imm b).isImm 0 }).withSB (SSrc.imm b)) rfl rfl hw (extOk_imm96 _ _) ?_
    show some (Instr.smin _ _ _ _ _) = _
    all_goals simp only [word, Raw.hdr_mk, Raw.t, Raw.withSB, Raw.ssrc, SSrc.isImm, Raw.sb, Raw.imm96, Raw.imm32]
    all_goals simp only [Ty.ofCode_code, sregOf_code, mdA_sb, imm32_setWidth]
    all_goals simp

theorem Encoding.smax (h : Hdr) (ty : Ty) (d : SReg) (a : SReg) (b : SSrc) :
    Encoding.Statement (.smax h ty d a b) := by
  intro hw
  rcases b with b | b
  · refine round _ (({ word h 0x1 16 with d := SReg.code d, a := SReg.code a, ty := ty.code, md := mdA .rne false (SSrc.r b).isImm 0 }).withSB (SSrc.r b)) rfl rfl hw rfl ?_
    show some (Instr.smax _ _ _ _ _) = _
    all_goals simp only [word, Raw.hdr_mk, Raw.t, Raw.withSB, Raw.ssrc, SSrc.isImm, Raw.sb]
    all_goals simp only [Ty.ofCode_code, sregOf_code, mdA_sb]
    all_goals simp
  · refine round _ (({ word h 0x1 16 with d := SReg.code d, a := SReg.code a, ty := ty.code, md := mdA .rne false (SSrc.imm b).isImm 0 }).withSB (SSrc.imm b)) rfl rfl hw (extOk_imm96 _ _) ?_
    show some (Instr.smax _ _ _ _ _) = _
    all_goals simp only [word, Raw.hdr_mk, Raw.t, Raw.withSB, Raw.ssrc, SSrc.isImm, Raw.sb, Raw.imm96, Raw.imm32]
    all_goals simp only [Ty.ofCode_code, sregOf_code, mdA_sb, imm32_setWidth]
    all_goals simp

theorem Encoding.scmp (h : Hdr) (ty : Ty) (cond : Cond) (d : SReg) (a : SReg) (b : SSrc) :
    Encoding.Statement (.scmp h ty cond d a b) := by
  intro hw
  rcases b with b | b
  · refine round _ (({ word h 0x1 17 with d := SReg.code d, a := SReg.code a, ty := ty.code, md := mdA .rne false (SSrc.r b).isImm cond.code }).withSB (SSrc.r b)) rfl rfl hw rfl ?_
    show some (Instr.scmp _ _ _ _ _ _) = _
    all_goals simp only [word, Raw.hdr_mk, Raw.t, Raw.withSB, Raw.ssrc, SSrc.isImm, Raw.sb, Raw.xop]
    all_goals simp only [Ty.ofCode_code, Cond.ofCode_code, sregOf_code, mdA_sb, mdA_xop]
    all_goals simp
  · refine round _ (({ word h 0x1 17 with d := SReg.code d, a := SReg.code a, ty := ty.code, md := mdA .rne false (SSrc.imm b).isImm cond.code }).withSB (SSrc.imm b)) rfl rfl hw (extOk_imm96 _ _) ?_
    show some (Instr.scmp _ _ _ _ _ _) = _
    all_goals simp only [word, Raw.hdr_mk, Raw.t, Raw.withSB, Raw.ssrc, SSrc.isImm, Raw.sb, Raw.imm96, Raw.imm32, Raw.xop]
    all_goals simp only [Ty.ofCode_code, Cond.ofCode_code, sregOf_code, mdA_sb, imm32_setWidth, mdA_xop]
    all_goals simp

theorem Encoding.ssel (h : Hdr) (d : SReg) (a : SReg) (b : SSrc) (c : SReg) :
    Encoding.Statement (.ssel h d a b c) := by
  intro hw
  rcases b with b | b
  · refine round _ (({ word h 0x1 18 with d := SReg.code d, a := SReg.code a, c := SReg.code c, ty := 0x0A, md := mdA .rne false (SSrc.r b).isImm 0 }).withSB (SSrc.r b)) rfl rfl hw rfl ?_
    show some (Instr.ssel _ _ _ _ _) = _
    all_goals simp only [word, Raw.hdr_mk, Raw.withSB, Raw.ssrc, SSrc.isImm, Raw.sb]
    all_goals simp only [sregOf_code, mdA_sb]
    all_goals simp
  · refine round _ (({ word h 0x1 18 with d := SReg.code d, a := SReg.code a, c := SReg.code c, ty := 0x0A, md := mdA .rne false (SSrc.imm b).isImm 0 }).withSB (SSrc.imm b)) rfl rfl hw (extOk_imm96 _ _) ?_
    show some (Instr.ssel _ _ _ _ _) = _
    all_goals simp only [word, Raw.hdr_mk, Raw.withSB, Raw.ssrc, SSrc.isImm, Raw.sb, Raw.imm96, Raw.imm32]
    all_goals simp only [sregOf_code, mdA_sb, imm32_setWidth]
    all_goals simp

theorem Encoding.slea (h : Hdr) (ty : Ty) (d : SReg) (a : SReg) (b : SSrc) (sh : Byte) :
    Encoding.Statement (.slea h ty d a b sh) := by
  intro hw
  rcases b with b | b
  · refine round _ (({ word h 0x1 19 with d := SReg.code d, a := SReg.code a, c := sh, ty := ty.code, md := mdA .rne false (SSrc.r b).isImm 0 }).withSB (SSrc.r b)) rfl rfl hw rfl ?_
    show some (Instr.slea _ _ _ _ _ _) = _
    all_goals simp only [word, Raw.hdr_mk, Raw.t, Raw.withSB, Raw.ssrc, SSrc.isImm, Raw.sb]
    all_goals simp only [Ty.ofCode_code, sregOf_code, mdA_sb]
    all_goals simp
  · refine round _ (({ word h 0x1 19 with d := SReg.code d, a := SReg.code a, c := sh, ty := ty.code, md := mdA .rne false (SSrc.imm b).isImm 0 }).withSB (SSrc.imm b)) rfl rfl hw (extOk_imm96 _ _) ?_
    show some (Instr.slea _ _ _ _ _ _) = _
    all_goals simp only [word, Raw.hdr_mk, Raw.t, Raw.withSB, Raw.ssrc, SSrc.isImm, Raw.sb, Raw.imm96, Raw.imm32]
    all_goals simp only [Ty.ofCode_code, sregOf_code, mdA_sb, imm32_setWidth]
    all_goals simp

theorem Encoding.sclz (h : Hdr) (d : SReg) (a : SReg) :
    Encoding.Statement (.sclz h d a) := by
  intro hw
  · refine round _ ({ word h 0x1 20 with d := SReg.code d, a := SReg.code a, ty := 0x0A }) rfl rfl hw rfl ?_
    show some (Instr.sclz _ _ _) = _
    all_goals simp only [word, Raw.hdr_mk]
    all_goals simp only [sregOf_code]
    all_goals simp

theorem Encoding.spopc (h : Hdr) (d : SReg) (a : SReg) :
    Encoding.Statement (.spopc h d a) := by
  intro hw
  · refine round _ ({ word h 0x1 21 with d := SReg.code d, a := SReg.code a, ty := 0x0A }) rfl rfl hw rfl ?_
    show some (Instr.spopc _ _ _) = _
    all_goals simp only [word, Raw.hdr_mk]
    all_goals simp only [sregOf_code]
    all_goals simp

theorem Encoding.sbfe (h : Hdr) (ty : Ty) (d : SReg) (a : SReg) (b : SSrc) (w : Byte) :
    Encoding.Statement (.sbfe h ty d a b w) := by
  intro hw
  rcases b with b | b
  · refine round _ (({ word h 0x1 22 with d := SReg.code d, a := SReg.code a, c := w, ty := ty.code, md := mdA .rne false (SSrc.r b).isImm 0 }).withSB (SSrc.r b)) rfl rfl hw rfl ?_
    show some (Instr.sbfe _ _ _ _ _ _) = _
    all_goals simp only [word, Raw.hdr_mk, Raw.t, Raw.withSB, Raw.ssrc, SSrc.isImm, Raw.sb]
    all_goals simp only [Ty.ofCode_code, sregOf_code, mdA_sb]
    all_goals simp
  · refine round _ (({ word h 0x1 22 with d := SReg.code d, a := SReg.code a, c := w, ty := ty.code, md := mdA .rne false (SSrc.imm b).isImm 0 }).withSB (SSrc.imm b)) rfl rfl hw (extOk_imm96 _ _) ?_
    show some (Instr.sbfe _ _ _ _ _ _) = _
    all_goals simp only [word, Raw.hdr_mk, Raw.t, Raw.withSB, Raw.ssrc, SSrc.isImm, Raw.sb, Raw.imm96, Raw.imm32]
    all_goals simp only [Ty.ofCode_code, sregOf_code, mdA_sb, imm32_setWidth]
    all_goals simp

theorem Encoding.sbfi (h : Hdr) (d : SReg) (a : SReg) (b : SSrc) (w : Byte) :
    Encoding.Statement (.sbfi h d a b w) := by
  intro hw
  rcases b with b | b
  · refine round _ (({ word h 0x1 23 with d := SReg.code d, a := SReg.code a, c := w, ty := 0x0A, md := mdA .rne false (SSrc.r b).isImm 0 }).withSB (SSrc.r b)) rfl rfl hw rfl ?_
    show some (Instr.sbfi _ _ _ _ _) = _
    all_goals simp only [word, Raw.hdr_mk, Raw.withSB, Raw.ssrc, SSrc.isImm, Raw.sb]
    all_goals simp only [sregOf_code, mdA_sb]
    all_goals simp
  · refine round _ (({ word h 0x1 23 with d := SReg.code d, a := SReg.code a, c := w, ty := 0x0A, md := mdA .rne false (SSrc.imm b).isImm 0 }).withSB (SSrc.imm b)) rfl rfl hw (extOk_imm96 _ _) ?_
    show some (Instr.sbfi _ _ _ _ _) = _
    all_goals simp only [word, Raw.hdr_mk, Raw.withSB, Raw.ssrc, SSrc.isImm, Raw.sb, Raw.imm96, Raw.imm32]
    all_goals simp only [sregOf_code, mdA_sb, imm32_setWidth]
    all_goals simp

theorem Encoding.vmov (h : Hdr) (ty : Ty) (d : VReg) (a : VSrc) :
    Encoding.Statement (.vmov h ty d a) := by
  intro hw
  · refine round _ ({ word h 0x2 0 with d := VReg.code d, a := a.code, ty := ty.code }) rfl rfl hw rfl ?_
    show some (Instr.vmov _ _ _ _) = _
    all_goals simp only [word, Raw.hdr_mk, Raw.t]
    all_goals simp only [Ty.ofCode_code, vregOf_code, vsrcOf_code]
    all_goals simp

theorem Encoding.vmovi (h : Hdr) (ty : Ty) (d : VReg) (imm : Word32) :
    Encoding.Statement (.vmovi h ty d imm) := by
  intro hw
  · refine round _ (({ word h 0x2 1 with d := VReg.code d, ty := ty.code }).imm96 (imm)) rfl rfl hw (extOk_imm96 _ _) ?_
    show some (Instr.vmovi _ _ _ _) = _
    all_goals simp only [word, Raw.hdr_mk, Raw.t, Raw.imm96, Raw.imm32]
    all_goals simp only [Ty.ofCode_code, vregOf_code, imm32_setWidth]
    all_goals simp

theorem Encoding.vidx (h : Hdr) (d : VReg) (b : SSrc) :
    Encoding.Statement (.vidx h d b) := by
  intro hw
  rcases b with b | b
  · refine round _ (({ word h 0x2 2 with d := VReg.code d, ty := 0x03, md := mdA .rne false (SSrc.r b).isImm 0 }).withSB (SSrc.r b)) rfl rfl hw rfl ?_
    show some (Instr.vidx _ _ _) = _
    all_goals simp only [word, Raw.hdr_mk, Raw.withSB, Raw.ssrc, SSrc.isImm, Raw.sb]
    all_goals simp only [vregOf_code, mdA_sb, sregOf_code]
    all_goals simp
  · refine round _ (({ word h 0x2 2 with d := VReg.code d, ty := 0x03, md := mdA .rne false (SSrc.imm b).isImm 0 }).withSB (SSrc.imm b)) rfl rfl hw (extOk_imm96 _ _) ?_
    show some (Instr.vidx _ _ _) = _
    all_goals simp only [word, Raw.hdr_mk, Raw.withSB, Raw.ssrc, SSrc.isImm, Raw.sb, Raw.imm96, Raw.imm32]
    all_goals simp only [vregOf_code, mdA_sb, imm32_setWidth]
    all_goals simp

theorem Encoding.vadd (h : Hdr) (ty : Ty) (d : VReg) (a : VSrc) (b : BSrc) :
    Encoding.Statement (.vadd h ty d a b) := by
  intro hw
  rcases b with b | b
  · refine round _ (({ word h 0x2 3 with d := VReg.code d, a := a.code, ty := ty.code, md := mdA .rne false (BSrc.r b).isImm 0 }).withB (BSrc.r b)) rfl rfl hw rfl ?_
    show some (Instr.vadd _ _ _ _ _) = _
    all_goals simp only [word, Raw.hdr_mk, Raw.t, Raw.withB, Raw.bsrc, BSrc.isImm, Raw.sb]
    all_goals simp only [Ty.ofCode_code, vregOf_code, vsrcOf_code, mdA_sb]
    all_goals simp
  · refine round _ (({ word h 0x2 3 with d := VReg.code d, a := a.code, ty := ty.code, md := mdA .rne false (BSrc.imm b).isImm 0 }).withB (BSrc.imm b)) rfl rfl hw (extOk_imm96 _ _) ?_
    show some (Instr.vadd _ _ _ _ _) = _
    all_goals simp only [word, Raw.hdr_mk, Raw.t, Raw.withB, Raw.bsrc, BSrc.isImm, Raw.sb, Raw.imm96, Raw.imm32]
    all_goals simp only [Ty.ofCode_code, vregOf_code, vsrcOf_code, mdA_sb, imm32_setWidth]
    all_goals simp

theorem Encoding.vsub (h : Hdr) (ty : Ty) (d : VReg) (a : VSrc) (b : BSrc) :
    Encoding.Statement (.vsub h ty d a b) := by
  intro hw
  rcases b with b | b
  · refine round _ (({ word h 0x2 4 with d := VReg.code d, a := a.code, ty := ty.code, md := mdA .rne false (BSrc.r b).isImm 0 }).withB (BSrc.r b)) rfl rfl hw rfl ?_
    show some (Instr.vsub _ _ _ _ _) = _
    all_goals simp only [word, Raw.hdr_mk, Raw.t, Raw.withB, Raw.bsrc, BSrc.isImm, Raw.sb]
    all_goals simp only [Ty.ofCode_code, vregOf_code, vsrcOf_code, mdA_sb]
    all_goals simp
  · refine round _ (({ word h 0x2 4 with d := VReg.code d, a := a.code, ty := ty.code, md := mdA .rne false (BSrc.imm b).isImm 0 }).withB (BSrc.imm b)) rfl rfl hw (extOk_imm96 _ _) ?_
    show some (Instr.vsub _ _ _ _ _) = _
    all_goals simp only [word, Raw.hdr_mk, Raw.t, Raw.withB, Raw.bsrc, BSrc.isImm, Raw.sb, Raw.imm96, Raw.imm32]
    all_goals simp only [Ty.ofCode_code, vregOf_code, vsrcOf_code, mdA_sb, imm32_setWidth]
    all_goals simp

theorem Encoding.vadds (h : Hdr) (ty : Ty) (d : VReg) (a : VSrc) (b : BSrc) :
    Encoding.Statement (.vadds h ty d a b) := by
  intro hw
  rcases b with b | b
  · refine round _ (({ word h 0x2 5 with d := VReg.code d, a := a.code, ty := ty.code, md := mdA .rne false (BSrc.r b).isImm 0 }).withB (BSrc.r b)) rfl rfl hw rfl ?_
    show some (Instr.vadds _ _ _ _ _) = _
    all_goals simp only [word, Raw.hdr_mk, Raw.t, Raw.withB, Raw.bsrc, BSrc.isImm, Raw.sb]
    all_goals simp only [Ty.ofCode_code, vregOf_code, vsrcOf_code, mdA_sb]
    all_goals simp
  · refine round _ (({ word h 0x2 5 with d := VReg.code d, a := a.code, ty := ty.code, md := mdA .rne false (BSrc.imm b).isImm 0 }).withB (BSrc.imm b)) rfl rfl hw (extOk_imm96 _ _) ?_
    show some (Instr.vadds _ _ _ _ _) = _
    all_goals simp only [word, Raw.hdr_mk, Raw.t, Raw.withB, Raw.bsrc, BSrc.isImm, Raw.sb, Raw.imm96, Raw.imm32]
    all_goals simp only [Ty.ofCode_code, vregOf_code, vsrcOf_code, mdA_sb, imm32_setWidth]
    all_goals simp

theorem Encoding.vsubs (h : Hdr) (ty : Ty) (d : VReg) (a : VSrc) (b : BSrc) :
    Encoding.Statement (.vsubs h ty d a b) := by
  intro hw
  rcases b with b | b
  · refine round _ (({ word h 0x2 6 with d := VReg.code d, a := a.code, ty := ty.code, md := mdA .rne false (BSrc.r b).isImm 0 }).withB (BSrc.r b)) rfl rfl hw rfl ?_
    show some (Instr.vsubs _ _ _ _ _) = _
    all_goals simp only [word, Raw.hdr_mk, Raw.t, Raw.withB, Raw.bsrc, BSrc.isImm, Raw.sb]
    all_goals simp only [Ty.ofCode_code, vregOf_code, vsrcOf_code, mdA_sb]
    all_goals simp
  · refine round _ (({ word h 0x2 6 with d := VReg.code d, a := a.code, ty := ty.code, md := mdA .rne false (BSrc.imm b).isImm 0 }).withB (BSrc.imm b)) rfl rfl hw (extOk_imm96 _ _) ?_
    show some (Instr.vsubs _ _ _ _ _) = _
    all_goals simp only [word, Raw.hdr_mk, Raw.t, Raw.withB, Raw.bsrc, BSrc.isImm, Raw.sb, Raw.imm96, Raw.imm32]
    all_goals simp only [Ty.ofCode_code, vregOf_code, vsrcOf_code, mdA_sb, imm32_setWidth]
    all_goals simp

theorem Encoding.vmul (h : Hdr) (ty : Ty) (sat : Bool) (d : VReg) (a : VSrc) (b : BSrc) :
    Encoding.Statement (.vmul h ty sat d a b) := by
  intro hw
  rcases b with b | b
  · refine round _ (({ word h 0x2 7 with d := VReg.code d, a := a.code, ty := ty.code, md := mdA .rne sat (BSrc.r b).isImm 0 }).withB (BSrc.r b)) rfl rfl hw rfl ?_
    show some (Instr.vmul _ _ _ _ _ _) = _
    all_goals simp only [word, Raw.hdr_mk, Raw.t, Raw.withB, Raw.bsrc, BSrc.isImm, Raw.sb, Raw.sat]
    all_goals simp only [Ty.ofCode_code, vregOf_code, vsrcOf_code, mdA_sb, mdA_sat]
    all_goals simp
  · refine round _ (({ word h 0x2 7 with d := VReg.code d, a := a.code, ty := ty.code, md := mdA .rne sat (BSrc.imm b).isImm 0 }).withB (BSrc.imm b)) rfl rfl hw (extOk_imm96 _ _) ?_
    show some (Instr.vmul _ _ _ _ _ _) = _
    all_goals simp only [word, Raw.hdr_mk, Raw.t, Raw.withB, Raw.bsrc, BSrc.isImm, Raw.sb, Raw.imm96, Raw.imm32, Raw.sat]
    all_goals simp only [Ty.ofCode_code, vregOf_code, vsrcOf_code, mdA_sb, imm32_setWidth, mdA_sat]
    all_goals simp

theorem Encoding.vmulh (h : Hdr) (ty : Ty) (d : VReg) (a : VSrc) (b : BSrc) :
    Encoding.Statement (.vmulh h ty d a b) := by
  intro hw
  rcases b with b | b
  · refine round _ (({ word h 0x2 8 with d := VReg.code d, a := a.code, ty := ty.code, md := mdA .rne false (BSrc.r b).isImm 0 }).withB (BSrc.r b)) rfl rfl hw rfl ?_
    show some (Instr.vmulh _ _ _ _ _) = _
    all_goals simp only [word, Raw.hdr_mk, Raw.t, Raw.withB, Raw.bsrc, BSrc.isImm, Raw.sb]
    all_goals simp only [Ty.ofCode_code, vregOf_code, vsrcOf_code, mdA_sb]
    all_goals simp
  · refine round _ (({ word h 0x2 8 with d := VReg.code d, a := a.code, ty := ty.code, md := mdA .rne false (BSrc.imm b).isImm 0 }).withB (BSrc.imm b)) rfl rfl hw (extOk_imm96 _ _) ?_
    show some (Instr.vmulh _ _ _ _ _) = _
    all_goals simp only [word, Raw.hdr_mk, Raw.t, Raw.withB, Raw.bsrc, BSrc.isImm, Raw.sb, Raw.imm96, Raw.imm32]
    all_goals simp only [Ty.ofCode_code, vregOf_code, vsrcOf_code, mdA_sb, imm32_setWidth]
    all_goals simp

theorem Encoding.vmad (h : Hdr) (ty : Ty) (sat : Bool) (d : VReg) (a : VSrc) (b : BSrc) (c : VSrc) :
    Encoding.Statement (.vmad h ty sat d a b c) := by
  intro hw
  rcases b with b | b
  · refine round _ (({ word h 0x2 9 with d := VReg.code d, a := a.code, c := c.code, ty := ty.code, md := mdA .rne sat (BSrc.r b).isImm 0 }).withB (BSrc.r b)) rfl rfl hw rfl ?_
    show some (Instr.vmad _ _ _ _ _ _ _) = _
    all_goals simp only [word, Raw.hdr_mk, Raw.t, Raw.withB, Raw.bsrc, BSrc.isImm, Raw.sb, Raw.sat]
    all_goals simp only [Ty.ofCode_code, vregOf_code, vsrcOf_code, mdA_sb, mdA_sat]
    all_goals simp
  · refine round _ (({ word h 0x2 9 with d := VReg.code d, a := a.code, c := c.code, ty := ty.code, md := mdA .rne sat (BSrc.imm b).isImm 0 }).withB (BSrc.imm b)) rfl rfl hw (extOk_imm96 _ _) ?_
    show some (Instr.vmad _ _ _ _ _ _ _) = _
    all_goals simp only [word, Raw.hdr_mk, Raw.t, Raw.withB, Raw.bsrc, BSrc.isImm, Raw.sb, Raw.imm96, Raw.imm32, Raw.sat]
    all_goals simp only [Ty.ofCode_code, vregOf_code, vsrcOf_code, mdA_sb, imm32_setWidth, mdA_sat]
    all_goals simp

theorem Encoding.vmin (h : Hdr) (ty : Ty) (d : VReg) (a : VSrc) (b : BSrc) :
    Encoding.Statement (.vmin h ty d a b) := by
  intro hw
  rcases b with b | b
  · refine round _ (({ word h 0x2 10 with d := VReg.code d, a := a.code, ty := ty.code, md := mdA .rne false (BSrc.r b).isImm 0 }).withB (BSrc.r b)) rfl rfl hw rfl ?_
    show some (Instr.vmin _ _ _ _ _) = _
    all_goals simp only [word, Raw.hdr_mk, Raw.t, Raw.withB, Raw.bsrc, BSrc.isImm, Raw.sb]
    all_goals simp only [Ty.ofCode_code, vregOf_code, vsrcOf_code, mdA_sb]
    all_goals simp
  · refine round _ (({ word h 0x2 10 with d := VReg.code d, a := a.code, ty := ty.code, md := mdA .rne false (BSrc.imm b).isImm 0 }).withB (BSrc.imm b)) rfl rfl hw (extOk_imm96 _ _) ?_
    show some (Instr.vmin _ _ _ _ _) = _
    all_goals simp only [word, Raw.hdr_mk, Raw.t, Raw.withB, Raw.bsrc, BSrc.isImm, Raw.sb, Raw.imm96, Raw.imm32]
    all_goals simp only [Ty.ofCode_code, vregOf_code, vsrcOf_code, mdA_sb, imm32_setWidth]
    all_goals simp

theorem Encoding.vmax (h : Hdr) (ty : Ty) (d : VReg) (a : VSrc) (b : BSrc) :
    Encoding.Statement (.vmax h ty d a b) := by
  intro hw
  rcases b with b | b
  · refine round _ (({ word h 0x2 11 with d := VReg.code d, a := a.code, ty := ty.code, md := mdA .rne false (BSrc.r b).isImm 0 }).withB (BSrc.r b)) rfl rfl hw rfl ?_
    show some (Instr.vmax _ _ _ _ _) = _
    all_goals simp only [word, Raw.hdr_mk, Raw.t, Raw.withB, Raw.bsrc, BSrc.isImm, Raw.sb]
    all_goals simp only [Ty.ofCode_code, vregOf_code, vsrcOf_code, mdA_sb]
    all_goals simp
  · refine round _ (({ word h 0x2 11 with d := VReg.code d, a := a.code, ty := ty.code, md := mdA .rne false (BSrc.imm b).isImm 0 }).withB (BSrc.imm b)) rfl rfl hw (extOk_imm96 _ _) ?_
    show some (Instr.vmax _ _ _ _ _) = _
    all_goals simp only [word, Raw.hdr_mk, Raw.t, Raw.withB, Raw.bsrc, BSrc.isImm, Raw.sb, Raw.imm96, Raw.imm32]
    all_goals simp only [Ty.ofCode_code, vregOf_code, vsrcOf_code, mdA_sb, imm32_setWidth]
    all_goals simp

theorem Encoding.vabs (h : Hdr) (ty : Ty) (sat : Bool) (d : VReg) (a : VSrc) :
    Encoding.Statement (.vabs h ty sat d a) := by
  intro hw
  · refine round _ ({ word h 0x2 12 with d := VReg.code d, a := a.code, ty := ty.code, md := mdA .rne sat false 0 }) rfl rfl hw rfl ?_
    show some (Instr.vabs _ _ _ _ _) = _
    all_goals simp only [word, Raw.hdr_mk, Raw.t, Raw.sat]
    all_goals simp only [Ty.ofCode_code, vregOf_code, vsrcOf_code, mdA_sat]
    all_goals simp

theorem Encoding.vneg (h : Hdr) (ty : Ty) (sat : Bool) (d : VReg) (a : VSrc) :
    Encoding.Statement (.vneg h ty sat d a) := by
  intro hw
  · refine round _ ({ word h 0x2 13 with d := VReg.code d, a := a.code, ty := ty.code, md := mdA .rne sat false 0 }) rfl rfl hw rfl ?_
    show some (Instr.vneg _ _ _ _ _) = _
    all_goals simp only [word, Raw.hdr_mk, Raw.t, Raw.sat]
    all_goals simp only [Ty.ofCode_code, vregOf_code, vsrcOf_code, mdA_sat]
    all_goals simp

theorem Encoding.vand (h : Hdr) (ty : Ty) (d : VReg) (a : VSrc) (b : BSrc) :
    Encoding.Statement (.vand h ty d a b) := by
  intro hw
  rcases b with b | b
  · refine round _ (({ word h 0x2 14 with d := VReg.code d, a := a.code, ty := ty.code, md := mdA .rne false (BSrc.r b).isImm 0 }).withB (BSrc.r b)) rfl rfl hw rfl ?_
    show some (Instr.vand _ _ _ _ _) = _
    all_goals simp only [word, Raw.hdr_mk, Raw.t, Raw.withB, Raw.bsrc, BSrc.isImm, Raw.sb]
    all_goals simp only [Ty.ofCode_code, vregOf_code, vsrcOf_code, mdA_sb]
    all_goals simp
  · refine round _ (({ word h 0x2 14 with d := VReg.code d, a := a.code, ty := ty.code, md := mdA .rne false (BSrc.imm b).isImm 0 }).withB (BSrc.imm b)) rfl rfl hw (extOk_imm96 _ _) ?_
    show some (Instr.vand _ _ _ _ _) = _
    all_goals simp only [word, Raw.hdr_mk, Raw.t, Raw.withB, Raw.bsrc, BSrc.isImm, Raw.sb, Raw.imm96, Raw.imm32]
    all_goals simp only [Ty.ofCode_code, vregOf_code, vsrcOf_code, mdA_sb, imm32_setWidth]
    all_goals simp

theorem Encoding.vor (h : Hdr) (ty : Ty) (d : VReg) (a : VSrc) (b : BSrc) :
    Encoding.Statement (.vor h ty d a b) := by
  intro hw
  rcases b with b | b
  · refine round _ (({ word h 0x2 15 with d := VReg.code d, a := a.code, ty := ty.code, md := mdA .rne false (BSrc.r b).isImm 0 }).withB (BSrc.r b)) rfl rfl hw rfl ?_
    show some (Instr.vor _ _ _ _ _) = _
    all_goals simp only [word, Raw.hdr_mk, Raw.t, Raw.withB, Raw.bsrc, BSrc.isImm, Raw.sb]
    all_goals simp only [Ty.ofCode_code, vregOf_code, vsrcOf_code, mdA_sb]
    all_goals simp
  · refine round _ (({ word h 0x2 15 with d := VReg.code d, a := a.code, ty := ty.code, md := mdA .rne false (BSrc.imm b).isImm 0 }).withB (BSrc.imm b)) rfl rfl hw (extOk_imm96 _ _) ?_
    show some (Instr.vor _ _ _ _ _) = _
    all_goals simp only [word, Raw.hdr_mk, Raw.t, Raw.withB, Raw.bsrc, BSrc.isImm, Raw.sb, Raw.imm96, Raw.imm32]
    all_goals simp only [Ty.ofCode_code, vregOf_code, vsrcOf_code, mdA_sb, imm32_setWidth]
    all_goals simp

theorem Encoding.vxor (h : Hdr) (ty : Ty) (d : VReg) (a : VSrc) (b : BSrc) :
    Encoding.Statement (.vxor h ty d a b) := by
  intro hw
  rcases b with b | b
  · refine round _ (({ word h 0x2 16 with d := VReg.code d, a := a.code, ty := ty.code, md := mdA .rne false (BSrc.r b).isImm 0 }).withB (BSrc.r b)) rfl rfl hw rfl ?_
    show some (Instr.vxor _ _ _ _ _) = _
    all_goals simp only [word, Raw.hdr_mk, Raw.t, Raw.withB, Raw.bsrc, BSrc.isImm, Raw.sb]
    all_goals simp only [Ty.ofCode_code, vregOf_code, vsrcOf_code, mdA_sb]
    all_goals simp
  · refine round _ (({ word h 0x2 16 with d := VReg.code d, a := a.code, ty := ty.code, md := mdA .rne false (BSrc.imm b).isImm 0 }).withB (BSrc.imm b)) rfl rfl hw (extOk_imm96 _ _) ?_
    show some (Instr.vxor _ _ _ _ _) = _
    all_goals simp only [word, Raw.hdr_mk, Raw.t, Raw.withB, Raw.bsrc, BSrc.isImm, Raw.sb, Raw.imm96, Raw.imm32]
    all_goals simp only [Ty.ofCode_code, vregOf_code, vsrcOf_code, mdA_sb, imm32_setWidth]
    all_goals simp

theorem Encoding.vnot (h : Hdr) (ty : Ty) (d : VReg) (a : VSrc) :
    Encoding.Statement (.vnot h ty d a) := by
  intro hw
  · refine round _ ({ word h 0x2 17 with d := VReg.code d, a := a.code, ty := ty.code }) rfl rfl hw rfl ?_
    show some (Instr.vnot _ _ _ _) = _
    all_goals simp only [word, Raw.hdr_mk, Raw.t]
    all_goals simp only [Ty.ofCode_code, vregOf_code, vsrcOf_code]
    all_goals simp

theorem Encoding.vshl (h : Hdr) (ty : Ty) (d : VReg) (a : VSrc) (b : BSrc) :
    Encoding.Statement (.vshl h ty d a b) := by
  intro hw
  rcases b with b | b
  · refine round _ (({ word h 0x2 18 with d := VReg.code d, a := a.code, ty := ty.code, md := mdA .rne false (BSrc.r b).isImm 0 }).withB (BSrc.r b)) rfl rfl hw rfl ?_
    show some (Instr.vshl _ _ _ _ _) = _
    all_goals simp only [word, Raw.hdr_mk, Raw.t, Raw.withB, Raw.bsrc, BSrc.isImm, Raw.sb]
    all_goals simp only [Ty.ofCode_code, vregOf_code, vsrcOf_code, mdA_sb]
    all_goals simp
  · refine round _ (({ word h 0x2 18 with d := VReg.code d, a := a.code, ty := ty.code, md := mdA .rne false (BSrc.imm b).isImm 0 }).withB (BSrc.imm b)) rfl rfl hw (extOk_imm96 _ _) ?_
    show some (Instr.vshl _ _ _ _ _) = _
    all_goals simp only [word, Raw.hdr_mk, Raw.t, Raw.withB, Raw.bsrc, BSrc.isImm, Raw.sb, Raw.imm96, Raw.imm32]
    all_goals simp only [Ty.ofCode_code, vregOf_code, vsrcOf_code, mdA_sb, imm32_setWidth]
    all_goals simp

theorem Encoding.vshr (h : Hdr) (ty : Ty) (d : VReg) (a : VSrc) (b : BSrc) :
    Encoding.Statement (.vshr h ty d a b) := by
  intro hw
  rcases b with b | b
  · refine round _ (({ word h 0x2 19 with d := VReg.code d, a := a.code, ty := ty.code, md := mdA .rne false (BSrc.r b).isImm 0 }).withB (BSrc.r b)) rfl rfl hw rfl ?_
    show some (Instr.vshr _ _ _ _ _) = _
    all_goals simp only [word, Raw.hdr_mk, Raw.t, Raw.withB, Raw.bsrc, BSrc.isImm, Raw.sb]
    all_goals simp only [Ty.ofCode_code, vregOf_code, vsrcOf_code, mdA_sb]
    all_goals simp
  · refine round _ (({ word h 0x2 19 with d := VReg.code d, a := a.code, ty := ty.code, md := mdA .rne false (BSrc.imm b).isImm 0 }).withB (BSrc.imm b)) rfl rfl hw (extOk_imm96 _ _) ?_
    show some (Instr.vshr _ _ _ _ _) = _
    all_goals simp only [word, Raw.hdr_mk, Raw.t, Raw.withB, Raw.bsrc, BSrc.isImm, Raw.sb, Raw.imm96, Raw.imm32]
    all_goals simp only [Ty.ofCode_code, vregOf_code, vsrcOf_code, mdA_sb, imm32_setWidth]
    all_goals simp

theorem Encoding.vsar (h : Hdr) (ty : Ty) (d : VReg) (a : VSrc) (b : BSrc) :
    Encoding.Statement (.vsar h ty d a b) := by
  intro hw
  rcases b with b | b
  · refine round _ (({ word h 0x2 20 with d := VReg.code d, a := a.code, ty := ty.code, md := mdA .rne false (BSrc.r b).isImm 0 }).withB (BSrc.r b)) rfl rfl hw rfl ?_
    show some (Instr.vsar _ _ _ _ _) = _
    all_goals simp only [word, Raw.hdr_mk, Raw.t, Raw.withB, Raw.bsrc, BSrc.isImm, Raw.sb]
    all_goals simp only [Ty.ofCode_code, vregOf_code, vsrcOf_code, mdA_sb]
    all_goals simp
  · refine round _ (({ word h 0x2 20 with d := VReg.code d, a := a.code, ty := ty.code, md := mdA .rne false (BSrc.imm b).isImm 0 }).withB (BSrc.imm b)) rfl rfl hw (extOk_imm96 _ _) ?_
    show some (Instr.vsar _ _ _ _ _) = _
    all_goals simp only [word, Raw.hdr_mk, Raw.t, Raw.withB, Raw.bsrc, BSrc.isImm, Raw.sb, Raw.imm96, Raw.imm32]
    all_goals simp only [Ty.ofCode_code, vregOf_code, vsrcOf_code, mdA_sb, imm32_setWidth]
    all_goals simp

theorem Encoding.vrot (h : Hdr) (d : VReg) (a : VSrc) (b : BSrc) :
    Encoding.Statement (.vrot h d a b) := by
  intro hw
  rcases b with b | b
  · refine round _ (({ word h 0x2 21 with d := VReg.code d, a := a.code, ty := 0x09, md := mdA .rne false (BSrc.r b).isImm 0 }).withB (BSrc.r b)) rfl rfl hw rfl ?_
    show some (Instr.vrot _ _ _ _) = _
    all_goals simp only [word, Raw.hdr_mk, Raw.withB, Raw.bsrc, BSrc.isImm, Raw.sb]
    all_goals simp only [vregOf_code, vsrcOf_code, mdA_sb]
    all_goals simp
  · refine round _ (({ word h 0x2 21 with d := VReg.code d, a := a.code, ty := 0x09, md := mdA .rne false (BSrc.imm b).isImm 0 }).withB (BSrc.imm b)) rfl rfl hw (extOk_imm96 _ _) ?_
    show some (Instr.vrot _ _ _ _) = _
    all_goals simp only [word, Raw.hdr_mk, Raw.withB, Raw.bsrc, BSrc.isImm, Raw.sb, Raw.imm96, Raw.imm32]
    all_goals simp only [vregOf_code, vsrcOf_code, mdA_sb, imm32_setWidth]
    all_goals simp

theorem Encoding.vbfe (h : Hdr) (ty : Ty) (d : VReg) (a : VSrc) (b : BSrc) (w : Byte) :
    Encoding.Statement (.vbfe h ty d a b w) := by
  intro hw
  rcases b with b | b
  · refine round _ (({ word h 0x2 22 with d := VReg.code d, a := a.code, c := w, ty := ty.code, md := mdA .rne false (BSrc.r b).isImm 0 }).withB (BSrc.r b)) rfl rfl hw rfl ?_
    show some (Instr.vbfe _ _ _ _ _ _) = _
    all_goals simp only [word, Raw.hdr_mk, Raw.t, Raw.withB, Raw.bsrc, BSrc.isImm, Raw.sb]
    all_goals simp only [Ty.ofCode_code, vregOf_code, vsrcOf_code, mdA_sb]
    all_goals simp
  · refine round _ (({ word h 0x2 22 with d := VReg.code d, a := a.code, c := w, ty := ty.code, md := mdA .rne false (BSrc.imm b).isImm 0 }).withB (BSrc.imm b)) rfl rfl hw (extOk_imm96 _ _) ?_
    show some (Instr.vbfe _ _ _ _ _ _) = _
    all_goals simp only [word, Raw.hdr_mk, Raw.t, Raw.withB, Raw.bsrc, BSrc.isImm, Raw.sb, Raw.imm96, Raw.imm32]
    all_goals simp only [Ty.ofCode_code, vregOf_code, vsrcOf_code, mdA_sb, imm32_setWidth]
    all_goals simp

theorem Encoding.vbfi (h : Hdr) (d : VReg) (a : VSrc) (b : BSrc) (w : Byte) :
    Encoding.Statement (.vbfi h d a b w) := by
  intro hw
  rcases b with b | b
  · refine round _ (({ word h 0x2 23 with d := VReg.code d, a := a.code, c := w, ty := 0x09, md := mdA .rne false (BSrc.r b).isImm 0 }).withB (BSrc.r b)) rfl rfl hw rfl ?_
    show some (Instr.vbfi _ _ _ _ _) = _
    all_goals simp only [word, Raw.hdr_mk, Raw.withB, Raw.bsrc, BSrc.isImm, Raw.sb]
    all_goals simp only [vregOf_code, vsrcOf_code, mdA_sb]
    all_goals simp
  · refine round _ (({ word h 0x2 23 with d := VReg.code d, a := a.code, c := w, ty := 0x09, md := mdA .rne false (BSrc.imm b).isImm 0 }).withB (BSrc.imm b)) rfl rfl hw (extOk_imm96 _ _) ?_
    show some (Instr.vbfi _ _ _ _ _) = _
    all_goals simp only [word, Raw.hdr_mk, Raw.withB, Raw.bsrc, BSrc.isImm, Raw.sb, Raw.imm96, Raw.imm32]
    all_goals simp only [vregOf_code, vsrcOf_code, mdA_sb, imm32_setWidth]
    all_goals simp

theorem Encoding.vclz (h : Hdr) (d : VReg) (a : VSrc) :
    Encoding.Statement (.vclz h d a) := by
  intro hw
  · refine round _ ({ word h 0x2 24 with d := VReg.code d, a := a.code, ty := 0x09 }) rfl rfl hw rfl ?_
    show some (Instr.vclz _ _ _) = _
    all_goals simp only [word, Raw.hdr_mk]
    all_goals simp only [vregOf_code, vsrcOf_code]
    all_goals simp

theorem Encoding.vpopc (h : Hdr) (d : VReg) (a : VSrc) :
    Encoding.Statement (.vpopc h d a) := by
  intro hw
  · refine round _ ({ word h 0x2 25 with d := VReg.code d, a := a.code, ty := 0x09 }) rfl rfl hw rfl ?_
    show some (Instr.vpopc _ _ _) = _
    all_goals simp only [word, Raw.hdr_mk]
    all_goals simp only [vregOf_code, vsrcOf_code]
    all_goals simp

theorem Encoding.vbrev (h : Hdr) (d : VReg) (a : VSrc) :
    Encoding.Statement (.vbrev h d a) := by
  intro hw
  · refine round _ ({ word h 0x2 26 with d := VReg.code d, a := a.code, ty := 0x09 }) rfl rfl hw rfl ?_
    show some (Instr.vbrev _ _ _) = _
    all_goals simp only [word, Raw.hdr_mk]
    all_goals simp only [vregOf_code, vsrcOf_code]
    all_goals simp

theorem Encoding.vcmp (h : Hdr) (ty : Ty) (cond : Cond) (d : PReg) (a : VSrc) (b : BSrc) :
    Encoding.Statement (.vcmp h ty cond d a b) := by
  intro hw
  rcases b with b | b
  · refine round _ (({ word h 0x2 27 with d := PReg.code d, a := a.code, ty := ty.code, md := mdA .rne false (BSrc.r b).isImm cond.code }).withB (BSrc.r b)) rfl rfl hw rfl ?_
    show some (Instr.vcmp _ _ _ _ _ _) = _
    all_goals simp only [word, Raw.hdr_mk, Raw.t, Raw.withB, Raw.bsrc, BSrc.isImm, Raw.sb, Raw.xop]
    all_goals simp only [Ty.ofCode_code, Cond.ofCode_code, pregOf_code, vsrcOf_code, mdA_sb, mdA_xop]
    all_goals simp
  · refine round _ (({ word h 0x2 27 with d := PReg.code d, a := a.code, ty := ty.code, md := mdA .rne false (BSrc.imm b).isImm cond.code }).withB (BSrc.imm b)) rfl rfl hw (extOk_imm96 _ _) ?_
    show some (Instr.vcmp _ _ _ _ _ _) = _
    all_goals simp only [word, Raw.hdr_mk, Raw.t, Raw.withB, Raw.bsrc, BSrc.isImm, Raw.sb, Raw.imm96, Raw.imm32, Raw.xop]
    all_goals simp only [Ty.ofCode_code, Cond.ofCode_code, pregOf_code, vsrcOf_code, mdA_sb, imm32_setWidth, mdA_xop]
    all_goals simp

theorem Encoding.vsel (h : Hdr) (ty : Ty) (d : VReg) (a : VSrc) (b : BSrc) (c : PReg) :
    Encoding.Statement (.vsel h ty d a b c) := by
  intro hw
  rcases b with b | b
  · refine round _ (({ word h 0x2 28 with d := VReg.code d, a := a.code, c := PReg.code c, ty := ty.code, md := mdA .rne false (BSrc.r b).isImm 0 }).withB (BSrc.r b)) rfl rfl hw rfl ?_
    show some (Instr.vsel _ _ _ _ _ _) = _
    all_goals simp only [word, Raw.hdr_mk, Raw.t, Raw.withB, Raw.bsrc, BSrc.isImm, Raw.sb]
    all_goals simp only [Ty.ofCode_code, vregOf_code, pregOf_code, vsrcOf_code, mdA_sb]
    all_goals simp
  · refine round _ (({ word h 0x2 28 with d := VReg.code d, a := a.code, c := PReg.code c, ty := ty.code, md := mdA .rne false (BSrc.imm b).isImm 0 }).withB (BSrc.imm b)) rfl rfl hw (extOk_imm96 _ _) ?_
    show some (Instr.vsel _ _ _ _ _ _) = _
    all_goals simp only [word, Raw.hdr_mk, Raw.t, Raw.withB, Raw.bsrc, BSrc.isImm, Raw.sb, Raw.imm96, Raw.imm32]
    all_goals simp only [Ty.ofCode_code, vregOf_code, pregOf_code, vsrcOf_code, mdA_sb, imm32_setWidth]
    all_goals simp

theorem Encoding.vlea (h : Hdr) (ty : Ty) (d : VReg) (a : VSrc) (b : BSrc) (sh : Byte) :
    Encoding.Statement (.vlea h ty d a b sh) := by
  intro hw
  rcases b with b | b
  · refine round _ (({ word h 0x2 29 with d := VReg.code d, a := a.code, c := sh, ty := ty.code, md := mdA .rne false (BSrc.r b).isImm 0 }).withB (BSrc.r b)) rfl rfl hw rfl ?_
    show some (Instr.vlea _ _ _ _ _ _) = _
    all_goals simp only [word, Raw.hdr_mk, Raw.t, Raw.withB, Raw.bsrc, BSrc.isImm, Raw.sb]
    all_goals simp only [Ty.ofCode_code, vregOf_code, vsrcOf_code, mdA_sb]
    all_goals simp
  · refine round _ (({ word h 0x2 29 with d := VReg.code d, a := a.code, c := sh, ty := ty.code, md := mdA .rne false (BSrc.imm b).isImm 0 }).withB (BSrc.imm b)) rfl rfl hw (extOk_imm96 _ _) ?_
    show some (Instr.vlea _ _ _ _ _ _) = _
    all_goals simp only [word, Raw.hdr_mk, Raw.t, Raw.withB, Raw.bsrc, BSrc.isImm, Raw.sb, Raw.imm96, Raw.imm32]
    all_goals simp only [Ty.ofCode_code, vregOf_code, vsrcOf_code, mdA_sb, imm32_setWidth]
    all_goals simp

theorem Encoding.vfadd (h : Hdr) (ty : Ty) (rnd : Rnd) (d : VReg) (a : VSrc) (b : BSrc) :
    Encoding.Statement (.vfadd h ty rnd d a b) := by
  intro hw
  rcases b with b | b
  · refine round _ (({ word h 0x3 0 with d := VReg.code d, a := a.code, ty := ty.code, md := mdA rnd false (BSrc.r b).isImm 0 }).withB (BSrc.r b)) rfl rfl hw rfl ?_
    show some (Instr.vfadd _ _ _ _ _ _) = _
    all_goals simp only [word, Raw.hdr_mk, Raw.t, Raw.withB, Raw.bsrc, BSrc.isImm, Raw.sb, Raw.rnd]
    all_goals simp only [Ty.ofCode_code, Rnd.ofCode_code, vregOf_code, vsrcOf_code, mdA_sb, mdA_rnd]
    all_goals simp
  · refine round _ (({ word h 0x3 0 with d := VReg.code d, a := a.code, ty := ty.code, md := mdA rnd false (BSrc.imm b).isImm 0 }).withB (BSrc.imm b)) rfl rfl hw (extOk_imm96 _ _) ?_
    show some (Instr.vfadd _ _ _ _ _ _) = _
    all_goals simp only [word, Raw.hdr_mk, Raw.t, Raw.withB, Raw.bsrc, BSrc.isImm, Raw.sb, Raw.imm96, Raw.imm32, Raw.rnd]
    all_goals simp only [Ty.ofCode_code, Rnd.ofCode_code, vregOf_code, vsrcOf_code, mdA_sb, imm32_setWidth, mdA_rnd]
    all_goals simp

theorem Encoding.vfsub (h : Hdr) (ty : Ty) (rnd : Rnd) (d : VReg) (a : VSrc) (b : BSrc) :
    Encoding.Statement (.vfsub h ty rnd d a b) := by
  intro hw
  rcases b with b | b
  · refine round _ (({ word h 0x3 1 with d := VReg.code d, a := a.code, ty := ty.code, md := mdA rnd false (BSrc.r b).isImm 0 }).withB (BSrc.r b)) rfl rfl hw rfl ?_
    show some (Instr.vfsub _ _ _ _ _ _) = _
    all_goals simp only [word, Raw.hdr_mk, Raw.t, Raw.withB, Raw.bsrc, BSrc.isImm, Raw.sb, Raw.rnd]
    all_goals simp only [Ty.ofCode_code, Rnd.ofCode_code, vregOf_code, vsrcOf_code, mdA_sb, mdA_rnd]
    all_goals simp
  · refine round _ (({ word h 0x3 1 with d := VReg.code d, a := a.code, ty := ty.code, md := mdA rnd false (BSrc.imm b).isImm 0 }).withB (BSrc.imm b)) rfl rfl hw (extOk_imm96 _ _) ?_
    show some (Instr.vfsub _ _ _ _ _ _) = _
    all_goals simp only [word, Raw.hdr_mk, Raw.t, Raw.withB, Raw.bsrc, BSrc.isImm, Raw.sb, Raw.imm96, Raw.imm32, Raw.rnd]
    all_goals simp only [Ty.ofCode_code, Rnd.ofCode_code, vregOf_code, vsrcOf_code, mdA_sb, imm32_setWidth, mdA_rnd]
    all_goals simp

theorem Encoding.vfmul (h : Hdr) (ty : Ty) (rnd : Rnd) (d : VReg) (a : VSrc) (b : BSrc) :
    Encoding.Statement (.vfmul h ty rnd d a b) := by
  intro hw
  rcases b with b | b
  · refine round _ (({ word h 0x3 2 with d := VReg.code d, a := a.code, ty := ty.code, md := mdA rnd false (BSrc.r b).isImm 0 }).withB (BSrc.r b)) rfl rfl hw rfl ?_
    show some (Instr.vfmul _ _ _ _ _ _) = _
    all_goals simp only [word, Raw.hdr_mk, Raw.t, Raw.withB, Raw.bsrc, BSrc.isImm, Raw.sb, Raw.rnd]
    all_goals simp only [Ty.ofCode_code, Rnd.ofCode_code, vregOf_code, vsrcOf_code, mdA_sb, mdA_rnd]
    all_goals simp
  · refine round _ (({ word h 0x3 2 with d := VReg.code d, a := a.code, ty := ty.code, md := mdA rnd false (BSrc.imm b).isImm 0 }).withB (BSrc.imm b)) rfl rfl hw (extOk_imm96 _ _) ?_
    show some (Instr.vfmul _ _ _ _ _ _) = _
    all_goals simp only [word, Raw.hdr_mk, Raw.t, Raw.withB, Raw.bsrc, BSrc.isImm, Raw.sb, Raw.imm96, Raw.imm32, Raw.rnd]
    all_goals simp only [Ty.ofCode_code, Rnd.ofCode_code, vregOf_code, vsrcOf_code, mdA_sb, imm32_setWidth, mdA_rnd]
    all_goals simp

theorem Encoding.vfma (h : Hdr) (ty : Ty) (rnd : Rnd) (d : VReg) (a : VSrc) (b : BSrc) (c : VSrc) :
    Encoding.Statement (.vfma h ty rnd d a b c) := by
  intro hw
  rcases b with b | b
  · refine round _ (({ word h 0x3 3 with d := VReg.code d, a := a.code, c := c.code, ty := ty.code, md := mdA rnd false (BSrc.r b).isImm 0 }).withB (BSrc.r b)) rfl rfl hw rfl ?_
    show some (Instr.vfma _ _ _ _ _ _ _) = _
    all_goals simp only [word, Raw.hdr_mk, Raw.t, Raw.withB, Raw.bsrc, BSrc.isImm, Raw.sb, Raw.rnd]
    all_goals simp only [Ty.ofCode_code, Rnd.ofCode_code, vregOf_code, vsrcOf_code, mdA_sb, mdA_rnd]
    all_goals simp
  · refine round _ (({ word h 0x3 3 with d := VReg.code d, a := a.code, c := c.code, ty := ty.code, md := mdA rnd false (BSrc.imm b).isImm 0 }).withB (BSrc.imm b)) rfl rfl hw (extOk_imm96 _ _) ?_
    show some (Instr.vfma _ _ _ _ _ _ _) = _
    all_goals simp only [word, Raw.hdr_mk, Raw.t, Raw.withB, Raw.bsrc, BSrc.isImm, Raw.sb, Raw.imm96, Raw.imm32, Raw.rnd]
    all_goals simp only [Ty.ofCode_code, Rnd.ofCode_code, vregOf_code, vsrcOf_code, mdA_sb, imm32_setWidth, mdA_rnd]
    all_goals simp

theorem Encoding.vfnma (h : Hdr) (ty : Ty) (rnd : Rnd) (d : VReg) (a : VSrc) (b : BSrc) (c : VSrc) :
    Encoding.Statement (.vfnma h ty rnd d a b c) := by
  intro hw
  rcases b with b | b
  · refine round _ (({ word h 0x3 4 with d := VReg.code d, a := a.code, c := c.code, ty := ty.code, md := mdA rnd false (BSrc.r b).isImm 0 }).withB (BSrc.r b)) rfl rfl hw rfl ?_
    show some (Instr.vfnma _ _ _ _ _ _ _) = _
    all_goals simp only [word, Raw.hdr_mk, Raw.t, Raw.withB, Raw.bsrc, BSrc.isImm, Raw.sb, Raw.rnd]
    all_goals simp only [Ty.ofCode_code, Rnd.ofCode_code, vregOf_code, vsrcOf_code, mdA_sb, mdA_rnd]
    all_goals simp
  · refine round _ (({ word h 0x3 4 with d := VReg.code d, a := a.code, c := c.code, ty := ty.code, md := mdA rnd false (BSrc.imm b).isImm 0 }).withB (BSrc.imm b)) rfl rfl hw (extOk_imm96 _ _) ?_
    show some (Instr.vfnma _ _ _ _ _ _ _) = _
    all_goals simp only [word, Raw.hdr_mk, Raw.t, Raw.withB, Raw.bsrc, BSrc.isImm, Raw.sb, Raw.imm96, Raw.imm32, Raw.rnd]
    all_goals simp only [Ty.ofCode_code, Rnd.ofCode_code, vregOf_code, vsrcOf_code, mdA_sb, imm32_setWidth, mdA_rnd]
    all_goals simp

theorem Encoding.vfmin (h : Hdr) (ty : Ty) (d : VReg) (a : VSrc) (b : BSrc) :
    Encoding.Statement (.vfmin h ty d a b) := by
  intro hw
  rcases b with b | b
  · refine round _ (({ word h 0x3 5 with d := VReg.code d, a := a.code, ty := ty.code, md := mdA .rne false (BSrc.r b).isImm 0 }).withB (BSrc.r b)) rfl rfl hw rfl ?_
    show some (Instr.vfmin _ _ _ _ _) = _
    all_goals simp only [word, Raw.hdr_mk, Raw.t, Raw.withB, Raw.bsrc, BSrc.isImm, Raw.sb]
    all_goals simp only [Ty.ofCode_code, vregOf_code, vsrcOf_code, mdA_sb]
    all_goals simp
  · refine round _ (({ word h 0x3 5 with d := VReg.code d, a := a.code, ty := ty.code, md := mdA .rne false (BSrc.imm b).isImm 0 }).withB (BSrc.imm b)) rfl rfl hw (extOk_imm96 _ _) ?_
    show some (Instr.vfmin _ _ _ _ _) = _
    all_goals simp only [word, Raw.hdr_mk, Raw.t, Raw.withB, Raw.bsrc, BSrc.isImm, Raw.sb, Raw.imm96, Raw.imm32]
    all_goals simp only [Ty.ofCode_code, vregOf_code, vsrcOf_code, mdA_sb, imm32_setWidth]
    all_goals simp

theorem Encoding.vfmax (h : Hdr) (ty : Ty) (d : VReg) (a : VSrc) (b : BSrc) :
    Encoding.Statement (.vfmax h ty d a b) := by
  intro hw
  rcases b with b | b
  · refine round _ (({ word h 0x3 6 with d := VReg.code d, a := a.code, ty := ty.code, md := mdA .rne false (BSrc.r b).isImm 0 }).withB (BSrc.r b)) rfl rfl hw rfl ?_
    show some (Instr.vfmax _ _ _ _ _) = _
    all_goals simp only [word, Raw.hdr_mk, Raw.t, Raw.withB, Raw.bsrc, BSrc.isImm, Raw.sb]
    all_goals simp only [Ty.ofCode_code, vregOf_code, vsrcOf_code, mdA_sb]
    all_goals simp
  · refine round _ (({ word h 0x3 6 with d := VReg.code d, a := a.code, ty := ty.code, md := mdA .rne false (BSrc.imm b).isImm 0 }).withB (BSrc.imm b)) rfl rfl hw (extOk_imm96 _ _) ?_
    show some (Instr.vfmax _ _ _ _ _) = _
    all_goals simp only [word, Raw.hdr_mk, Raw.t, Raw.withB, Raw.bsrc, BSrc.isImm, Raw.sb, Raw.imm96, Raw.imm32]
    all_goals simp only [Ty.ofCode_code, vregOf_code, vsrcOf_code, mdA_sb, imm32_setWidth]
    all_goals simp

theorem Encoding.vfabs (h : Hdr) (ty : Ty) (d : VReg) (a : VSrc) :
    Encoding.Statement (.vfabs h ty d a) := by
  intro hw
  · refine round _ ({ word h 0x3 7 with d := VReg.code d, a := a.code, ty := ty.code }) rfl rfl hw rfl ?_
    show some (Instr.vfabs _ _ _ _) = _
    all_goals simp only [word, Raw.hdr_mk, Raw.t]
    all_goals simp only [Ty.ofCode_code, vregOf_code, vsrcOf_code]
    all_goals simp

theorem Encoding.vfneg (h : Hdr) (ty : Ty) (d : VReg) (a : VSrc) :
    Encoding.Statement (.vfneg h ty d a) := by
  intro hw
  · refine round _ ({ word h 0x3 8 with d := VReg.code d, a := a.code, ty := ty.code }) rfl rfl hw rfl ?_
    show some (Instr.vfneg _ _ _ _) = _
    all_goals simp only [word, Raw.hdr_mk, Raw.t]
    all_goals simp only [Ty.ofCode_code, vregOf_code, vsrcOf_code]
    all_goals simp

theorem Encoding.vfcmp (h : Hdr) (ty : Ty) (cond : FCond) (d : PReg) (a : VSrc) (b : BSrc) :
    Encoding.Statement (.vfcmp h ty cond d a b) := by
  intro hw
  rcases b with b | b
  · refine round _ (({ word h 0x3 9 with d := PReg.code d, a := a.code, ty := ty.code, md := mdA .rne false (BSrc.r b).isImm cond.code }).withB (BSrc.r b)) rfl rfl hw rfl ?_
    show some (Instr.vfcmp _ _ _ _ _ _) = _
    all_goals simp only [word, Raw.hdr_mk, Raw.t, Raw.withB, Raw.bsrc, BSrc.isImm, Raw.sb, Raw.xop]
    all_goals simp only [Ty.ofCode_code, FCond.ofCode_code, pregOf_code, vsrcOf_code, mdA_sb, mdA_xop]
    all_goals simp
  · refine round _ (({ word h 0x3 9 with d := PReg.code d, a := a.code, ty := ty.code, md := mdA .rne false (BSrc.imm b).isImm cond.code }).withB (BSrc.imm b)) rfl rfl hw (extOk_imm96 _ _) ?_
    show some (Instr.vfcmp _ _ _ _ _ _) = _
    all_goals simp only [word, Raw.hdr_mk, Raw.t, Raw.withB, Raw.bsrc, BSrc.isImm, Raw.sb, Raw.imm96, Raw.imm32, Raw.xop]
    all_goals simp only [Ty.ofCode_code, FCond.ofCode_code, pregOf_code, vsrcOf_code, mdA_sb, imm32_setWidth, mdA_xop]
    all_goals simp

theorem Encoding.vfclass (h : Hdr) (ty : Ty) (d : VReg) (a : VSrc) :
    Encoding.Statement (.vfclass h ty d a) := by
  intro hw
  · refine round _ ({ word h 0x3 10 with d := VReg.code d, a := a.code, ty := ty.code }) rfl rfl hw rfl ?_
    show some (Instr.vfclass _ _ _ _) = _
    all_goals simp only [word, Raw.hdr_mk, Raw.t]
    all_goals simp only [Ty.ofCode_code, vregOf_code, vsrcOf_code]
    all_goals simp

theorem Encoding.vfdiv (h : Hdr) (ty : Ty) (rnd : Rnd) (d : VReg) (a : VSrc) (b : BSrc) :
    Encoding.Statement (.vfdiv h ty rnd d a b) := by
  intro hw
  rcases b with b | b
  · refine round _ (({ word h 0x3 11 with d := VReg.code d, a := a.code, ty := ty.code, md := mdA rnd false (BSrc.r b).isImm 0 }).withB (BSrc.r b)) rfl rfl hw rfl ?_
    show some (Instr.vfdiv _ _ _ _ _ _) = _
    all_goals simp only [word, Raw.hdr_mk, Raw.t, Raw.withB, Raw.bsrc, BSrc.isImm, Raw.sb, Raw.rnd]
    all_goals simp only [Ty.ofCode_code, Rnd.ofCode_code, vregOf_code, vsrcOf_code, mdA_sb, mdA_rnd]
    all_goals simp
  · refine round _ (({ word h 0x3 11 with d := VReg.code d, a := a.code, ty := ty.code, md := mdA rnd false (BSrc.imm b).isImm 0 }).withB (BSrc.imm b)) rfl rfl hw (extOk_imm96 _ _) ?_
    show some (Instr.vfdiv _ _ _ _ _ _) = _
    all_goals simp only [word, Raw.hdr_mk, Raw.t, Raw.withB, Raw.bsrc, BSrc.isImm, Raw.sb, Raw.imm96, Raw.imm32, Raw.rnd]
    all_goals simp only [Ty.ofCode_code, Rnd.ofCode_code, vregOf_code, vsrcOf_code, mdA_sb, imm32_setWidth, mdA_rnd]
    all_goals simp

theorem Encoding.vrcp (h : Hdr) (ty : Ty) (d : VReg) (a : VSrc) :
    Encoding.Statement (.vrcp h ty d a) := by
  intro hw
  · refine round _ ({ word h 0x3 12 with d := VReg.code d, a := a.code, ty := ty.code }) rfl rfl hw rfl ?_
    show some (Instr.vrcp _ _ _ _) = _
    all_goals simp only [word, Raw.hdr_mk, Raw.t]
    all_goals simp only [Ty.ofCode_code, vregOf_code, vsrcOf_code]
    all_goals simp

theorem Encoding.vrsq (h : Hdr) (ty : Ty) (d : VReg) (a : VSrc) :
    Encoding.Statement (.vrsq h ty d a) := by
  intro hw
  · refine round _ ({ word h 0x3 13 with d := VReg.code d, a := a.code, ty := ty.code }) rfl rfl hw rfl ?_
    show some (Instr.vrsq _ _ _ _) = _
    all_goals simp only [word, Raw.hdr_mk, Raw.t]
    all_goals simp only [Ty.ofCode_code, vregOf_code, vsrcOf_code]
    all_goals simp

theorem Encoding.vsqrt (h : Hdr) (ty : Ty) (rnd : Rnd) (d : VReg) (a : VSrc) :
    Encoding.Statement (.vsqrt h ty rnd d a) := by
  intro hw
  · refine round _ ({ word h 0x3 14 with d := VReg.code d, a := a.code, ty := ty.code, md := mdA rnd false false 0 }) rfl rfl hw rfl ?_
    show some (Instr.vsqrt _ _ _ _ _) = _
    all_goals simp only [word, Raw.hdr_mk, Raw.t, Raw.rnd]
    all_goals simp only [Ty.ofCode_code, Rnd.ofCode_code, vregOf_code, vsrcOf_code, mdA_rnd]
    all_goals simp

theorem Encoding.vexp2 (h : Hdr) (ty : Ty) (d : VReg) (a : VSrc) :
    Encoding.Statement (.vexp2 h ty d a) := by
  intro hw
  · refine round _ ({ word h 0x3 15 with d := VReg.code d, a := a.code, ty := ty.code }) rfl rfl hw rfl ?_
    show some (Instr.vexp2 _ _ _ _) = _
    all_goals simp only [word, Raw.hdr_mk, Raw.t]
    all_goals simp only [Ty.ofCode_code, vregOf_code, vsrcOf_code]
    all_goals simp

theorem Encoding.vlog2 (h : Hdr) (ty : Ty) (d : VReg) (a : VSrc) :
    Encoding.Statement (.vlog2 h ty d a) := by
  intro hw
  · refine round _ ({ word h 0x3 16 with d := VReg.code d, a := a.code, ty := ty.code }) rfl rfl hw rfl ?_
    show some (Instr.vlog2 _ _ _ _) = _
    all_goals simp only [word, Raw.hdr_mk, Raw.t]
    all_goals simp only [Ty.ofCode_code, vregOf_code, vsrcOf_code]
    all_goals simp

theorem Encoding.vsin (h : Hdr) (ty : Ty) (d : VReg) (a : VSrc) :
    Encoding.Statement (.vsin h ty d a) := by
  intro hw
  · refine round _ ({ word h 0x3 17 with d := VReg.code d, a := a.code, ty := ty.code }) rfl rfl hw rfl ?_
    show some (Instr.vsin _ _ _ _) = _
    all_goals simp only [word, Raw.hdr_mk, Raw.t]
    all_goals simp only [Ty.ofCode_code, vregOf_code, vsrcOf_code]
    all_goals simp

theorem Encoding.vcos (h : Hdr) (ty : Ty) (d : VReg) (a : VSrc) :
    Encoding.Statement (.vcos h ty d a) := by
  intro hw
  · refine round _ ({ word h 0x3 18 with d := VReg.code d, a := a.code, ty := ty.code }) rfl rfl hw rfl ?_
    show some (Instr.vcos _ _ _ _) = _
    all_goals simp only [word, Raw.hdr_mk, Raw.t]
    all_goals simp only [Ty.ofCode_code, vregOf_code, vsrcOf_code]
    all_goals simp

theorem Encoding.vtanh (h : Hdr) (ty : Ty) (d : VReg) (a : VSrc) :
    Encoding.Statement (.vtanh h ty d a) := by
  intro hw
  · refine round _ ({ word h 0x3 19 with d := VReg.code d, a := a.code, ty := ty.code }) rfl rfl hw rfl ?_
    show some (Instr.vtanh _ _ _ _) = _
    all_goals simp only [word, Raw.hdr_mk, Raw.t]
    all_goals simp only [Ty.ofCode_code, vregOf_code, vsrcOf_code]
    all_goals simp

theorem Encoding.vfloor (h : Hdr) (ty : Ty) (d : VReg) (a : VSrc) :
    Encoding.Statement (.vfloor h ty d a) := by
  intro hw
  · refine round _ ({ word h 0x3 20 with d := VReg.code d, a := a.code, ty := ty.code }) rfl rfl hw rfl ?_
    show some (Instr.vfloor _ _ _ _) = _
    all_goals simp only [word, Raw.hdr_mk, Raw.t]
    all_goals simp only [Ty.ofCode_code, vregOf_code, vsrcOf_code]
    all_goals simp

theorem Encoding.vceil (h : Hdr) (ty : Ty) (d : VReg) (a : VSrc) :
    Encoding.Statement (.vceil h ty d a) := by
  intro hw
  · refine round _ ({ word h 0x3 21 with d := VReg.code d, a := a.code, ty := ty.code }) rfl rfl hw rfl ?_
    show some (Instr.vceil _ _ _ _) = _
    all_goals simp only [word, Raw.hdr_mk, Raw.t]
    all_goals simp only [Ty.ofCode_code, vregOf_code, vsrcOf_code]
    all_goals simp

theorem Encoding.vfract (h : Hdr) (ty : Ty) (rnd : Rnd) (d : VReg) (a : VSrc) :
    Encoding.Statement (.vfract h ty rnd d a) := by
  intro hw
  · refine round _ ({ word h 0x3 22 with d := VReg.code d, a := a.code, ty := ty.code, md := mdA rnd false false 0 }) rfl rfl hw rfl ?_
    show some (Instr.vfract _ _ _ _ _) = _
    all_goals simp only [word, Raw.hdr_mk, Raw.t, Raw.rnd]
    all_goals simp only [Ty.ofCode_code, Rnd.ofCode_code, vregOf_code, vsrcOf_code, mdA_rnd]
    all_goals simp

theorem Encoding.vfscale (h : Hdr) (ty : Ty) (rnd : Rnd) (d : VReg) (a : VSrc) (b : BSrc) :
    Encoding.Statement (.vfscale h ty rnd d a b) := by
  intro hw
  rcases b with b | b
  · refine round _ (({ word h 0x3 23 with d := VReg.code d, a := a.code, ty := ty.code, md := mdA rnd false (BSrc.r b).isImm 0 }).withB (BSrc.r b)) rfl rfl hw rfl ?_
    show some (Instr.vfscale _ _ _ _ _ _) = _
    all_goals simp only [word, Raw.hdr_mk, Raw.t, Raw.withB, Raw.bsrc, BSrc.isImm, Raw.sb, Raw.rnd]
    all_goals simp only [Ty.ofCode_code, Rnd.ofCode_code, vregOf_code, vsrcOf_code, mdA_sb, mdA_rnd]
    all_goals simp
  · refine round _ (({ word h 0x3 23 with d := VReg.code d, a := a.code, ty := ty.code, md := mdA rnd false (BSrc.imm b).isImm 0 }).withB (BSrc.imm b)) rfl rfl hw (extOk_imm96 _ _) ?_
    show some (Instr.vfscale _ _ _ _ _ _) = _
    all_goals simp only [word, Raw.hdr_mk, Raw.t, Raw.withB, Raw.bsrc, BSrc.isImm, Raw.sb, Raw.imm96, Raw.imm32, Raw.rnd]
    all_goals simp only [Ty.ofCode_code, Rnd.ofCode_code, vregOf_code, vsrcOf_code, mdA_sb, imm32_setWidth, mdA_rnd]
    all_goals simp

theorem Encoding.vcvt (h : Hdr) (dt : Ty) (st : Ty) (rnd : Rnd) (sat : Bool) (d : VReg) (a : VSrc) :
    Encoding.Statement (.vcvt h dt st rnd sat d a) := by
  intro hw
  · refine round _ ({ word h 0x4 0 with d := VReg.code d, a := a.code, c := st.code, ty := dt.code, md := mdA rnd sat false 0 }) rfl rfl hw rfl ?_
    show some (Instr.vcvt _ _ _ _ _ _ _) = _
    all_goals simp only [word, Raw.hdr_mk, Raw.t, Raw.sat, Raw.rnd]
    all_goals simp only [Ty.ofCode_code, Rnd.ofCode_code, vregOf_code, vsrcOf_code, mdA_sat, mdA_rnd]
    all_goals simp

theorem Encoding.vpack (h : Hdr) (dt : Ty) (rnd : Rnd) (sat : Bool) (d : VReg) (a : VSrc) (b : BSrc) (p : Fin 8) :
    Encoding.Statement (.vpack h dt rnd sat d a b p) := by
  intro hw
  rcases b with b | b
  · refine round _ (({ word h 0x4 1 with d := VReg.code d, a := a.code, ty := dt.code, md := mdA rnd sat (BSrc.r b).isImm (fin3 p) }).withB (BSrc.r b)) rfl rfl hw rfl ?_
    show some (Instr.vpack _ _ _ _ _ _ _ _) = _
    all_goals simp only [word, Raw.hdr_mk, Raw.t, Raw.withB, Raw.bsrc, BSrc.isImm, Raw.sb, Raw.sat, Raw.rnd, Raw.xop]
    all_goals simp only [Ty.ofCode_code, Rnd.ofCode_code, vregOf_code, vsrcOf_code, mdA_sb, mdA_sat, mdA_rnd, mdA_xop, toFin_ofNat3]
    all_goals simp
  · refine round _ (({ word h 0x4 1 with d := VReg.code d, a := a.code, ty := dt.code, md := mdA rnd sat (BSrc.imm b).isImm (fin3 p) }).withB (BSrc.imm b)) rfl rfl hw (extOk_imm96 _ _) ?_
    show some (Instr.vpack _ _ _ _ _ _ _ _) = _
    all_goals simp only [word, Raw.hdr_mk, Raw.t, Raw.withB, Raw.bsrc, BSrc.isImm, Raw.sb, Raw.imm96, Raw.imm32, Raw.sat, Raw.rnd, Raw.xop]
    all_goals simp only [Ty.ofCode_code, Rnd.ofCode_code, vregOf_code, vsrcOf_code, mdA_sb, imm32_setWidth, mdA_sat, mdA_rnd, mdA_xop, toFin_ofNat3]
    all_goals simp

theorem Encoding.vunpk (h : Hdr) (dt : Ty) (st : Ty) (d : VReg) (a : VSrc) (p : Fin 8) :
    Encoding.Statement (.vunpk h dt st d a p) := by
  intro hw
  · refine round _ ({ word h 0x4 2 with d := VReg.code d, a := a.code, c := st.code, ty := dt.code, md := mdA .rne false false (fin3 p) }) rfl rfl hw rfl ?_
    show some (Instr.vunpk _ _ _ _ _ _) = _
    all_goals simp only [word, Raw.hdr_mk, Raw.t, Raw.xop]
    all_goals simp only [Ty.ofCode_code, vregOf_code, vsrcOf_code, mdA_xop, toFin_ofNat3]
    all_goals simp

theorem Encoding.vquant (h : Hdr) (dt : Ty) (rnd : Rnd) (d : VReg) (a : VSrc) (c : SReg) (p : Fin 8) :
    Encoding.Statement (.vquant h dt rnd d a c p) := by
  intro hw
  · refine round _ ({ word h 0x4 3 with d := VReg.code d, a := a.code, c := SReg.code c, ty := dt.code, md := mdA rnd false false (fin3 p) }) rfl rfl hw rfl ?_
    show some (Instr.vquant _ _ _ _ _ _ _) = _
    all_goals simp only [word, Raw.hdr_mk, Raw.t, Raw.rnd, Raw.xop]
    all_goals simp only [Ty.ofCode_code, Rnd.ofCode_code, vregOf_code, sregOf_code, vsrcOf_code, mdA_rnd, mdA_xop, toFin_ofNat3]
    all_goals simp

theorem Encoding.vdeq (h : Hdr) (st : Ty) (rnd : Rnd) (d : VReg) (a : VSrc) (b : SSrc) (p : Fin 8) :
    Encoding.Statement (.vdeq h st rnd d a b p) := by
  intro hw
  rcases b with b | b
  · refine round _ (({ word h 0x4 4 with d := VReg.code d, a := a.code, ty := st.code, md := mdA rnd false (SSrc.r b).isImm (fin3 p) }).withSB (SSrc.r b)) rfl rfl hw rfl ?_
    show some (Instr.vdeq _ _ _ _ _ _ _) = _
    all_goals simp only [word, Raw.hdr_mk, Raw.t, Raw.withSB, Raw.ssrc, SSrc.isImm, Raw.sb, Raw.rnd, Raw.xop]
    all_goals simp only [Ty.ofCode_code, Rnd.ofCode_code, vregOf_code, vsrcOf_code, mdA_sb, mdA_rnd, mdA_xop, toFin_ofNat3, sregOf_code]
    all_goals simp
  · refine round _ (({ word h 0x4 4 with d := VReg.code d, a := a.code, ty := st.code, md := mdA rnd false (SSrc.imm b).isImm (fin3 p) }).withSB (SSrc.imm b)) rfl rfl hw (extOk_imm96 _ _) ?_
    show some (Instr.vdeq _ _ _ _ _ _ _) = _
    all_goals simp only [word, Raw.hdr_mk, Raw.t, Raw.withSB, Raw.ssrc, SSrc.isImm, Raw.sb, Raw.imm96, Raw.imm32, Raw.rnd, Raw.xop]
    all_goals simp only [Ty.ofCode_code, Rnd.ofCode_code, vregOf_code, vsrcOf_code, mdA_sb, imm32_setWidth, mdA_rnd, mdA_xop, toFin_ofNat3]
    all_goals simp

theorem Encoding.vsplit6 (h : Hdr) (ty : Ty) (lo : Bool) (d : VReg) (a : VSrc) (p : Fin 4) :
    Encoding.Statement (.vsplit6 h ty lo d a p) := by
  intro hw
  · refine round _ ({ word h 0x4 5 with d := VReg.code d, a := a.code, ty := ty.code, md := mdA .rne false false (BitVec.ofBool lo ++ BitVec.ofNat 2 p.val) }) rfl rfl hw rfl ?_
    show some (Instr.vsplit6 _ _ _ _ _ _) = _
    all_goals simp only [word, Raw.hdr_mk, Raw.t]
    all_goals simp only [Ty.ofCode_code, vregOf_code, vsrcOf_code, mdA_bit2, mdA_low2, bits12_2, bits12_low, fin4_low]
    all_goals simp

theorem Encoding.vjoin6 (h : Hdr) (ty : Ty) (d : VReg) (a : VSrc) (b : BSrc) (p : Fin 4) :
    Encoding.Statement (.vjoin6 h ty d a b p) := by
  intro hw
  rcases b with b | b
  · refine round _ (({ word h 0x4 6 with d := VReg.code d, a := a.code, ty := ty.code, md := mdA .rne false (BSrc.r b).isImm (0#1 ++ BitVec.ofNat 2 p.val) }).withB (BSrc.r b)) rfl rfl hw rfl ?_
    show some (Instr.vjoin6 _ _ _ _ _ _) = _
    all_goals simp only [word, Raw.hdr_mk, Raw.t, Raw.withB, Raw.bsrc, BSrc.isImm, Raw.sb]
    all_goals simp only [Ty.ofCode_code, vregOf_code, vsrcOf_code, mdA_sb, mdA_bit2, mdA_low2, bits12_2, bits12_low, fin4_low, low2_01]
    all_goals simp
  · refine round _ (({ word h 0x4 6 with d := VReg.code d, a := a.code, ty := ty.code, md := mdA .rne false (BSrc.imm b).isImm (0#1 ++ BitVec.ofNat 2 p.val) }).withB (BSrc.imm b)) rfl rfl hw (extOk_imm96 _ _) ?_
    show some (Instr.vjoin6 _ _ _ _ _ _) = _
    all_goals simp only [word, Raw.hdr_mk, Raw.t, Raw.withB, Raw.bsrc, BSrc.isImm, Raw.sb, Raw.imm96, Raw.imm32]
    all_goals simp only [Ty.ofCode_code, vregOf_code, vsrcOf_code, mdA_sb, imm32_setWidth, mdA_bit2, mdA_low2, bits12_2, bits12_low, fin4_low, low2_01]
    all_goals simp

theorem Encoding.vdot8 (h : Hdr) (ty : Ty) (rnd : Rnd) (sat : Bool) (d : VReg) (a : VSrc) (b : BSrc) :
    Encoding.Statement (.vdot8 h ty rnd sat d a b) := by
  intro hw
  rcases b with b | b
  · refine round _ (({ word h 0x4 7 with d := VReg.code d, a := a.code, ty := ty.code, md := mdA rnd sat (BSrc.r b).isImm 0 }).withB (BSrc.r b)) rfl rfl hw rfl ?_
    show some (Instr.vdot8 _ _ _ _ _ _ _) = _
    all_goals simp only [word, Raw.hdr_mk, Raw.t, Raw.withB, Raw.bsrc, BSrc.isImm, Raw.sb, Raw.sat, Raw.rnd]
    all_goals simp only [Ty.ofCode_code, Rnd.ofCode_code, vregOf_code, vsrcOf_code, mdA_sb, mdA_sat, mdA_rnd]
    all_goals simp
  · refine round _ (({ word h 0x4 7 with d := VReg.code d, a := a.code, ty := ty.code, md := mdA rnd sat (BSrc.imm b).isImm 0 }).withB (BSrc.imm b)) rfl rfl hw (extOk_imm96 _ _) ?_
    show some (Instr.vdot8 _ _ _ _ _ _ _) = _
    all_goals simp only [word, Raw.hdr_mk, Raw.t, Raw.withB, Raw.bsrc, BSrc.isImm, Raw.sb, Raw.imm96, Raw.imm32, Raw.sat, Raw.rnd]
    all_goals simp only [Ty.ofCode_code, Rnd.ofCode_code, vregOf_code, vsrcOf_code, mdA_sb, imm32_setWidth, mdA_sat, mdA_rnd]
    all_goals simp

theorem Encoding.vdot4 (h : Hdr) (ty : Ty) (rnd : Rnd) (sat : Bool) (d : VReg) (a : VSrc) (b : BSrc) :
    Encoding.Statement (.vdot4 h ty rnd sat d a b) := by
  intro hw
  rcases b with b | b
  · refine round _ (({ word h 0x4 8 with d := VReg.code d, a := a.code, ty := ty.code, md := mdA rnd sat (BSrc.r b).isImm 0 }).withB (BSrc.r b)) rfl rfl hw rfl ?_
    show some (Instr.vdot4 _ _ _ _ _ _ _) = _
    all_goals simp only [word, Raw.hdr_mk, Raw.t, Raw.withB, Raw.bsrc, BSrc.isImm, Raw.sb, Raw.sat, Raw.rnd]
    all_goals simp only [Ty.ofCode_code, Rnd.ofCode_code, vregOf_code, vsrcOf_code, mdA_sb, mdA_sat, mdA_rnd]
    all_goals simp
  · refine round _ (({ word h 0x4 8 with d := VReg.code d, a := a.code, ty := ty.code, md := mdA rnd sat (BSrc.imm b).isImm 0 }).withB (BSrc.imm b)) rfl rfl hw (extOk_imm96 _ _) ?_
    show some (Instr.vdot4 _ _ _ _ _ _ _) = _
    all_goals simp only [word, Raw.hdr_mk, Raw.t, Raw.withB, Raw.bsrc, BSrc.isImm, Raw.sb, Raw.imm96, Raw.imm32, Raw.sat, Raw.rnd]
    all_goals simp only [Ty.ofCode_code, Rnd.ofCode_code, vregOf_code, vsrcOf_code, mdA_sb, imm32_setWidth, mdA_sat, mdA_rnd]
    all_goals simp

theorem Encoding.vtag (h : Hdr) (d : VReg) (a : VSrc) (tag : BitVec 4) :
    Encoding.Statement (.vtag h d a tag) := by
  intro hw
  · refine round _ ({ word h 0x4 9 with d := VReg.code d, a := a.code, c := tag.setWidth 8 }) rfl rfl hw rfl ?_
    show some (Instr.vtag _ _ _ _) = _
    all_goals simp only [word, Raw.hdr_mk]
    all_goals simp only [vregOf_code, vsrcOf_code, srOf_code, byte_low4]
    all_goals simp

theorem Encoding.vsrnd (h : Hdr) (a : SReg) :
    Encoding.Statement (.vsrnd h a) := by
  intro hw
  · refine round _ ({ word h 0x4 10 with a := SReg.code a }) rfl rfl hw rfl ?_
    show some (Instr.vsrnd _ _) = _
    all_goals simp only [word, Raw.hdr_mk]
    all_goals simp only [sregOf_code]
    all_goals simp

theorem Encoding.vsrndDraw (h : Hdr) (d : SReg) :
    Encoding.Statement (.vsrndDraw h d) := by
  intro hw
  · refine round _ ({ word h 0x4 10 with d := SReg.code d, md := 1 }) rfl rfl hw rfl ?_
    show some (Instr.vsrndDraw _ _) = _
    all_goals simp only [word, Raw.hdr_mk]
    all_goals simp only [sregOf_code]
    all_goals simp

theorem Encoding.vshfl (h : Hdr) (ty : Ty) (mode : ShflMode) (d : VReg) (a : VSrc) (b : BSrc) (fill : Option VSrc) :
    Encoding.Statement (.vshfl h ty mode d a b fill) := by
  intro hw
  rcases b with b | b
  · refine round _ (({ word h 0x5 0 with d := VReg.code d, a := a.code, c := fillCode fill, ty := ty.code, md := mdA .rne false (BSrc.r b).isImm (BitVec.ofBool fill.isSome ++ mode.code) }).withB (BSrc.r b)) rfl rfl hw rfl ?_
    show some (Instr.vshfl _ _ _ _ _ _ _) = _
    all_goals simp only [word, Raw.hdr_mk, Raw.t, Raw.withB, Raw.bsrc, BSrc.isImm, Raw.sb, Raw.fill]
    all_goals simp only [Ty.ofCode_code, ShflMode.ofCode_code, vregOf_code, vsrcOf_code, mdA_sb, mdA_bit2, mdA_low2, bits12_2, bits12_low, fill_code]
    all_goals simp
  · refine round _ (({ word h 0x5 0 with d := VReg.code d, a := a.code, c := fillCode fill, ty := ty.code, md := mdA .rne false (BSrc.imm b).isImm (BitVec.ofBool fill.isSome ++ mode.code) }).withB (BSrc.imm b)) rfl rfl hw (extOk_imm96 _ _) ?_
    show some (Instr.vshfl _ _ _ _ _ _ _) = _
    all_goals simp only [word, Raw.hdr_mk, Raw.t, Raw.withB, Raw.bsrc, BSrc.isImm, Raw.sb, Raw.imm96, Raw.imm32, Raw.fill]
    all_goals simp only [Ty.ofCode_code, ShflMode.ofCode_code, vregOf_code, vsrcOf_code, mdA_sb, imm32_setWidth, mdA_bit2, mdA_low2, bits12_2, bits12_low, fill_code]
    all_goals simp

theorem Encoding.vbcast (h : Hdr) (ty : Ty) (d : VReg) (a : VSrc) (b : SSrc) (fill : Option VSrc) :
    Encoding.Statement (.vbcast h ty d a b fill) := by
  intro hw
  rcases b with b | b
  · refine round _ (({ word h 0x5 1 with d := VReg.code d, a := a.code, c := fillCode fill, ty := ty.code, md := mdA .rne false (SSrc.r b).isImm (BitVec.ofBool fill.isSome ++ 0#2) }).withSB (SSrc.r b)) rfl rfl hw rfl ?_
    show some (Instr.vbcast _ _ _ _ _ _) = _
    all_goals simp only [word, Raw.hdr_mk, Raw.t, Raw.withSB, Raw.ssrc, SSrc.isImm, Raw.sb, Raw.fill]
    all_goals simp only [Ty.ofCode_code, vregOf_code, vsrcOf_code, mdA_sb, mdA_bit2, mdA_low2, bits12_2, bits12_low, fill_code, sregOf_code]
    all_goals simp
  · refine round _ (({ word h 0x5 1 with d := VReg.code d, a := a.code, c := fillCode fill, ty := ty.code, md := mdA .rne false (SSrc.imm b).isImm (BitVec.ofBool fill.isSome ++ 0#2) }).withSB (SSrc.imm b)) rfl rfl hw (extOk_imm96 _ _) ?_
    show some (Instr.vbcast _ _ _ _ _ _) = _
    all_goals simp only [word, Raw.hdr_mk, Raw.t, Raw.withSB, Raw.ssrc, SSrc.isImm, Raw.sb, Raw.imm96, Raw.imm32, Raw.fill]
    all_goals simp only [Ty.ofCode_code, vregOf_code, vsrcOf_code, mdA_sb, imm32_setWidth, mdA_bit2, mdA_low2, bits12_2, bits12_low, fill_code]
    all_goals simp

theorem Encoding.vlrot (h : Hdr) (ty : Ty) (d : VReg) (a : VSrc) (b : SSrc) (fill : Option VSrc) :
    Encoding.Statement (.vlrot h ty d a b fill) := by
  intro hw
  rcases b with b | b
  · refine round _ (({ word h 0x5 2 with d := VReg.code d, a := a.code, c := fillCode fill, ty := ty.code, md := mdA .rne false (SSrc.r b).isImm (BitVec.ofBool fill.isSome ++ 0#2) }).withSB (SSrc.r b)) rfl rfl hw rfl ?_
    show some (Instr.vlrot _ _ _ _ _ _) = _
    all_goals simp only [word, Raw.hdr_mk, Raw.t, Raw.withSB, Raw.ssrc, SSrc.isImm, Raw.sb, Raw.fill]
    all_goals simp only [Ty.ofCode_code, vregOf_code, vsrcOf_code, mdA_sb, mdA_bit2, mdA_low2, bits12_2, bits12_low, fill_code, sregOf_code]
    all_goals simp
  · refine round _ (({ word h 0x5 2 with d := VReg.code d, a := a.code, c := fillCode fill, ty := ty.code, md := mdA .rne false (SSrc.imm b).isImm (BitVec.ofBool fill.isSome ++ 0#2) }).withSB (SSrc.imm b)) rfl rfl hw (extOk_imm96 _ _) ?_
    show some (Instr.vlrot _ _ _ _ _ _) = _
    all_goals simp only [word, Raw.hdr_mk, Raw.t, Raw.withSB, Raw.ssrc, SSrc.isImm, Raw.sb, Raw.imm96, Raw.imm32, Raw.fill]
    all_goals simp only [Ty.ofCode_code, vregOf_code, vsrcOf_code, mdA_sb, imm32_setWidth, mdA_bit2, mdA_low2, bits12_2, bits12_low, fill_code]
    all_goals simp

theorem Encoding.vred (h : Hdr) (ty : Ty) (op : RedOp) (rnd : Rnd) (d : SReg) (a : VSrc) :
    Encoding.Statement (.vred h ty op rnd d a) := by
  intro hw
  · refine round _ ({ word h 0x5 3 with d := SReg.code d, a := a.code, ty := ty.code, md := mdA rnd false false op.code }) rfl rfl hw rfl ?_
    show some (Instr.vred _ _ _ _ _ _) = _
    all_goals simp only [word, Raw.hdr_mk, Raw.t, Raw.rnd, Raw.xop]
    all_goals simp only [Ty.ofCode_code, Rnd.ofCode_code, RedOp.ofCode_code, sregOf_code, vsrcOf_code, mdA_rnd, mdA_xop]
    all_goals simp

theorem Encoding.vscan (h : Hdr) (ty : Ty) (op : RedOp) (rnd : Rnd) (d : VReg) (a : VSrc) :
    Encoding.Statement (.vscan h ty op rnd d a) := by
  intro hw
  · refine round _ ({ word h 0x5 4 with d := VReg.code d, a := a.code, ty := ty.code, md := mdA rnd false false op.code }) rfl rfl hw rfl ?_
    show some (Instr.vscan _ _ _ _ _ _) = _
    all_goals simp only [word, Raw.hdr_mk, Raw.t, Raw.rnd, Raw.xop]
    all_goals simp only [Ty.ofCode_code, Rnd.ofCode_code, RedOp.ofCode_code, vregOf_code, vsrcOf_code, mdA_rnd, mdA_xop]
    all_goals simp

theorem Encoding.vballot (h : Hdr) (d : SReg) (a : PReg) :
    Encoding.Statement (.vballot h d a) := by
  intro hw
  · refine round _ ({ word h 0x5 5 with d := SReg.code d, a := PReg.code a }) rfl rfl hw rfl ?_
    show some (Instr.vballot _ _ _) = _
    all_goals simp only [word, Raw.hdr_mk]
    all_goals simp only [sregOf_code, pregOf_code]
    all_goals simp

theorem Encoding.vmatch (h : Hdr) (ty : Ty) (d : VReg) (a : VSrc) :
    Encoding.Statement (.vmatch h ty d a) := by
  intro hw
  · refine round _ ({ word h 0x5 6 with d := VReg.code d, a := a.code, ty := ty.code }) rfl rfl hw rfl ?_
    show some (Instr.vmatch _ _ _ _) = _
    all_goals simp only [word, Raw.hdr_mk, Raw.t]
    all_goals simp only [Ty.ofCode_code, vregOf_code, vsrcOf_code]
    all_goals simp

theorem Encoding.pset (h : Hdr) (d : PReg) (a : SReg) :
    Encoding.Statement (.pset h d a) := by
  intro hw
  · refine round _ ({ word h 0x5 7 with d := PReg.code d, a := SReg.code a }) rfl rfl hw rfl ?_
    show some (if Raw.sb _ = true then _ else Instr.pset _ _ _) = _
    all_goals simp only [word, Raw.hdr_mk, Raw.sb]
    all_goals simp only [sregOf_code, pregOf_code, mdA_sb]
    all_goals simp

theorem Encoding.psetImm (h : Hdr) (d : PReg) (imm : Word32) :
    Encoding.Statement (.psetImm h d imm) := by
  intro hw
  · refine round _ (({ word h 0x5 7 with d := PReg.code d, md := mdA .rne false true 0 }).imm96 (imm)) rfl rfl hw (extOk_imm96 _ _) ?_
    show some (if Raw.sb _ = true then Instr.psetImm _ _ _ else _) = _
    all_goals simp only [word, Raw.hdr_mk, Raw.imm96, Raw.imm32, Raw.sb]
    all_goals simp only [pregOf_code, imm32_setWidth, mdA_sb]
    all_goals simp

theorem Encoding.pand (h : Hdr) (d : PReg) (a : PReg) (b : PReg) :
    Encoding.Statement (.pand h d a b) := by
  intro hw
  · refine round _ ({ word h 0x5 8 with d := PReg.code d, a := PReg.code a, b := PReg.code b }) rfl rfl hw rfl ?_
    show some (Instr.pand _ _ _ _) = _
    all_goals simp only [word, Raw.hdr_mk]
    all_goals simp only [pregOf_code]
    all_goals simp

theorem Encoding.por (h : Hdr) (d : PReg) (a : PReg) (b : PReg) :
    Encoding.Statement (.por h d a b) := by
  intro hw
  · refine round _ ({ word h 0x5 9 with d := PReg.code d, a := PReg.code a, b := PReg.code b }) rfl rfl hw rfl ?_
    show some (Instr.por _ _ _ _) = _
    all_goals simp only [word, Raw.hdr_mk]
    all_goals simp only [pregOf_code]
    all_goals simp

theorem Encoding.pxor (h : Hdr) (d : PReg) (a : PReg) (b : PReg) :
    Encoding.Statement (.pxor h d a b) := by
  intro hw
  · refine round _ ({ word h 0x5 10 with d := PReg.code d, a := PReg.code a, b := PReg.code b }) rfl rfl hw rfl ?_
    show some (Instr.pxor _ _ _ _) = _
    all_goals simp only [word, Raw.hdr_mk]
    all_goals simp only [pregOf_code]
    all_goals simp

theorem Encoding.pnot (h : Hdr) (d : PReg) (a : PReg) :
    Encoding.Statement (.pnot h d a) := by
  intro hw
  · refine round _ ({ word h 0x5 11 with d := PReg.code d, a := PReg.code a }) rfl rfl hw rfl ?_
    show some (Instr.pnot _ _ _) = _
    all_goals simp only [word, Raw.hdr_mk]
    all_goals simp only [pregOf_code]
    all_goals simp

theorem Encoding.pmov (h : Hdr) (d : PReg) (a : PReg) :
    Encoding.Statement (.pmov h d a) := by
  intro hw
  · refine round _ ({ word h 0x5 12 with d := PReg.code d, a := PReg.code a }) rfl rfl hw rfl ?_
    show some (Instr.pmov _ _ _) = _
    all_goals simp only [word, Raw.hdr_mk]
    all_goals simp only [pregOf_code]
    all_goals simp

theorem Encoding.pcnt (h : Hdr) (d : SReg) (a : PReg) :
    Encoding.Statement (.pcnt h d a) := by
  intro hw
  · refine round _ ({ word h 0x5 13 with d := SReg.code d, a := PReg.code a }) rfl rfl hw rfl ?_
    show some (Instr.pcnt _ _ _) = _
    all_goals simp only [word, Raw.hdr_mk]
    all_goals simp only [sregOf_code, pregOf_code]
    all_goals simp

theorem Encoding.pfirst (h : Hdr) (d : SReg) (a : PReg) :
    Encoding.Statement (.pfirst h d a) := by
  intro hw
  · refine round _ ({ word h 0x5 14 with d := SReg.code d, a := PReg.code a }) rfl rfl hw rfl ?_
    show some (Instr.pfirst _ _ _) = _
    all_goals simp only [word, Raw.hdr_mk]
    all_goals simp only [sregOf_code, pregOf_code]
    all_goals simp

theorem Encoding.xacq (h : Hdr) (n : XSize) :
    Encoding.Statement (.xacq h n) := by
  intro hw
  · refine round _ ({ word h 0x6 0 with md := mdG n.code }) rfl rfl hw rfl ?_
    show some (Instr.xacq _ _) = _
    all_goals simp only [word, Raw.hdr_mk, Raw.xop]
    all_goals simp only [XSize.ofCode_code, mdG_xop, mdG_bit0]
    all_goals simp

theorem Encoding.xrel (h : Hdr) :
    Encoding.Statement (.xrel h) := by
  intro hw
  · refine round _ (word h 0x6 1) rfl rfl hw rfl ?_
    show some (Instr.xrel _) = _
    all_goals simp only [word, Raw.hdr_mk]
    all_goals simp only []
    all_goals simp

theorem Encoding.sread (h : Hdr) (d : VSrc) (sr : BitVec 4) :
    Encoding.Statement (.sread h d sr) := by
  intro hw
  · refine round _ ({ word h 0x6 2 with d := d.code, a := sr.setWidth 8 }) rfl rfl hw rfl ?_
    show some (Instr.sread _ _ _) = _
    all_goals simp only [word, Raw.hdr_mk]
    all_goals simp only [vsrcOf_code, srOf_code, byte_low4]
    all_goals simp

theorem Encoding.swrite (h : Hdr) (sr : BitVec 4) (a : SReg) :
    Encoding.Statement (.swrite h sr a) := by
  intro hw
  · refine round _ ({ word h 0x6 3 with d := sr.setWidth 8, a := SReg.code a }) rfl rfl hw rfl ?_
    show some (Instr.swrite _ _ _) = _
    all_goals simp only [word, Raw.hdr_mk]
    all_goals simp only [sregOf_code, srOf_code, byte_low4]
    all_goals simp

theorem Encoding.genq (h : Hdr) (which : GenWhich) (d : SReg) :
    Encoding.Statement (.genq h which d) := by
  intro hw
  · refine round _ ({ word h 0x6 4 with d := SReg.code d, md := mdG which.code }) rfl rfl hw rfl ?_
    show some (Instr.genq _ _ _) = _
    all_goals simp only [word, Raw.hdr_mk, Raw.xop]
    all_goals simp only [GenWhich.ofCode_code, sregOf_code, mdG_xop, mdG_bit0]
    all_goals simp

theorem Encoding.tagq (h : Hdr) (d : SReg) (src : TagqSrc) :
    Encoding.Statement (.tagq h d src) := by
  intro hw
  rcases src with a1 | ⟨a1, row⟩ | a1
  · refine round _ ({ word h 0x6 5 with d := SReg.code d, a := a1.code }) rfl rfl hw rfl ?_
    show some (Instr.tagq _ _ _) = _
    all_goals simp only [word, Raw.hdr_mk, Raw.x]
    all_goals simp only [sregOf_code, vsrcOf_code]
    all_goals simp
  · refine round _ ({ word h 0x6 5 with d := SReg.code d, a := Tile.code a1, c := row.setWidth 8, md := 1 }) rfl rfl hw rfl ?_
    show some (Instr.tagq _ _ _) = _
    all_goals simp only [word, Raw.hdr_mk, Raw.x]
    all_goals simp only [sregOf_code, tileOf_code, srOf_code, byte_low4]
    all_goals simp
  · refine round _ ({ word h 0x6 5 with d := SReg.code d, a := SReg.code a1, md := 2 }) rfl rfl hw rfl ?_
    show some (Instr.tagq _ _ _) = _
    all_goals simp only [word, Raw.hdr_mk, Raw.x]
    all_goals simp only [sregOf_code]
    all_goals simp

theorem Encoding.rdtime (h : Hdr) (dom : Bool) (d : SReg) :
    Encoding.Statement (.rdtime h dom d) := by
  intro hw
  · refine round _ ({ word h 0x6 6 with d := SReg.code d, md := mdG (0#2 ++ BitVec.ofBool dom) }) rfl rfl hw rfl ?_
    show some (Instr.rdtime _ _ _) = _
    all_goals simp only [word, Raw.hdr_mk, Raw.xop]
    all_goals simp only [sregOf_code, mdG_xop, mdG_bit0, bit0_21]
    all_goals simp

theorem Encoding.lread (h : Hdr) (d : SReg) (a : SReg) :
    Encoding.Statement (.lread h d a) := by
  intro hw
  · refine round _ ({ word h 0x6 7 with d := SReg.code d, a := SReg.code a }) rfl rfl hw rfl ?_
    show some (Instr.lread _ _ _) = _
    all_goals simp only [word, Raw.hdr_mk]
    all_goals simp only [sregOf_code]
    all_goals simp

theorem Encoding.ctxsave (h : Hdr) (a : SReg) :
    Encoding.Statement (.ctxsave h a) := by
  intro hw
  · refine round _ ({ word h 0x6 8 with a := SReg.code a }) rfl rfl hw rfl ?_
    show some (Instr.ctxsave _ _) = _
    all_goals simp only [word, Raw.hdr_mk]
    all_goals simp only [sregOf_code]
    all_goals simp

theorem Encoding.ctxload (h : Hdr) (a : SReg) :
    Encoding.Statement (.ctxload h a) := by
  intro hw
  · refine round _ ({ word h 0x6 9 with a := SReg.code a }) rfl rfl hw rfl ?_
    show some (Instr.ctxload _ _) = _
    all_goals simp only [word, Raw.hdr_mk]
    all_goals simp only [sregOf_code]
    all_goals simp

theorem Encoding.ldl (h : Hdr) (ty : Ty) (d : VReg) (m : Mem) :
    Encoding.Statement (.ldl h ty d m) := by
  intro hw
  rcases m with ⟨base, idx, o | o⟩
  · refine round _ (({ word h 0x7 0 with d := VReg.code d, ty := ty.code }).withMem (Mem.mk base idx (Off.imm8 o)) .rlx .sheaf 0#1) rfl rfl hw rfl ?_
    show some (Instr.ldl _ _ _ _) = _
    all_goals simp only [word, Raw.hdr_mk, Raw.t, Raw.withMem, Raw.memOp, Raw.base, Raw.idx, Raw.off]
    all_goals simp only [Ty.ofCode_code, vregOf_code, mdO_bit0, mdO_bit1, bits3_0, bits3_1, base_code, idx_code]
    all_goals simp
  · refine round _ (({ word h 0x7 0 with d := VReg.code d, ty := ty.code }).withMem (Mem.mk base idx (Off.imm32 o)) .rlx .sheaf 0#1) rfl rfl hw (extOk_imm96 _ _) ?_
    show some (Instr.ldl _ _ _ _) = _
    all_goals simp only [word, Raw.hdr_mk, Raw.t, Raw.imm96, Raw.imm32, Raw.withMem, Raw.memOp, Raw.base, Raw.idx, Raw.off]
    all_goals simp only [Ty.ofCode_code, vregOf_code, imm32_setWidth, mdO_bit0, mdO_bit1, bits3_0, bits3_1, base_code, idx_code]
    all_goals simp

theorem Encoding.stl (h : Hdr) (ty : Ty) (d : VSrc) (m : Mem) :
    Encoding.Statement (.stl h ty d m) := by
  intro hw
  rcases m with ⟨base, idx, o | o⟩
  · refine round _ (({ word h 0x7 1 with d := d.code, ty := ty.code }).withMem (Mem.mk base idx (Off.imm8 o)) .rlx .sheaf 0#1) rfl rfl hw rfl ?_
    show some (Instr.stl _ _ _ _) = _
    all_goals simp only [word, Raw.hdr_mk, Raw.t, Raw.withMem, Raw.memOp, Raw.base, Raw.idx, Raw.off]
    all_goals simp only [Ty.ofCode_code, vsrcOf_code, mdO_bit0, mdO_bit1, bits3_0, bits3_1, base_code, idx_code]
    all_goals simp
  · refine round _ (({ word h 0x7 1 with d := d.code, ty := ty.code }).withMem (Mem.mk base idx (Off.imm32 o)) .rlx .sheaf 0#1) rfl rfl hw (extOk_imm96 _ _) ?_
    show some (Instr.stl _ _ _ _) = _
    all_goals simp only [word, Raw.hdr_mk, Raw.t, Raw.imm96, Raw.imm32, Raw.withMem, Raw.memOp, Raw.base, Raw.idx, Raw.off]
    all_goals simp only [Ty.ofCode_code, vsrcOf_code, imm32_setWidth, mdO_bit0, mdO_bit1, bits3_0, bits3_1, base_code, idx_code]
    all_goals simp

theorem Encoding.lds (h : Hdr) (ty : Ty) (d : VReg) (m : Mem) :
    Encoding.Statement (.lds h ty d m) := by
  intro hw
  rcases m with ⟨base, idx, o | o⟩
  · refine round _ (({ word h 0x7 2 with d := VReg.code d, ty := ty.code }).withMem (Mem.mk base idx (Off.imm8 o)) .rlx .sheaf 0#1) rfl rfl hw rfl ?_
    show some (Instr.lds _ _ _ _) = _
    all_goals simp only [word, Raw.hdr_mk, Raw.t, Raw.withMem, Raw.memOp, Raw.base, Raw.idx, Raw.off]
    all_goals simp only [Ty.ofCode_code, vregOf_code, mdO_bit0, mdO_bit1, bits3_0, bits3_1, base_code, idx_code]
    all_goals simp
  · refine round _ (({ word h 0x7 2 with d := VReg.code d, ty := ty.code }).withMem (Mem.mk base idx (Off.imm32 o)) .rlx .sheaf 0#1) rfl rfl hw (extOk_imm96 _ _) ?_
    show some (Instr.lds _ _ _ _) = _
    all_goals simp only [word, Raw.hdr_mk, Raw.t, Raw.imm96, Raw.imm32, Raw.withMem, Raw.memOp, Raw.base, Raw.idx, Raw.off]
    all_goals simp only [Ty.ofCode_code, vregOf_code, imm32_setWidth, mdO_bit0, mdO_bit1, bits3_0, bits3_1, base_code, idx_code]
    all_goals simp

theorem Encoding.sts (h : Hdr) (ty : Ty) (d : VSrc) (m : Mem) :
    Encoding.Statement (.sts h ty d m) := by
  intro hw
  rcases m with ⟨base, idx, o | o⟩
  · refine round _ (({ word h 0x7 3 with d := d.code, ty := ty.code }).withMem (Mem.mk base idx (Off.imm8 o)) .rlx .sheaf 0#1) rfl rfl hw rfl ?_
    show some (Instr.sts _ _ _ _) = _
    all_goals simp only [word, Raw.hdr_mk, Raw.t, Raw.withMem, Raw.memOp, Raw.base, Raw.idx, Raw.off]
    all_goals simp only [Ty.ofCode_code, vsrcOf_code, mdO_bit0, mdO_bit1, bits3_0, bits3_1, base_code, idx_code]
    all_goals simp
  · refine round _ (({ word h 0x7 3 with d := d.code, ty := ty.code }).withMem (Mem.mk base idx (Off.imm32 o)) .rlx .sheaf 0#1) rfl rfl hw (extOk_imm96 _ _) ?_
    show some (Instr.sts _ _ _ _) = _
    all_goals simp only [word, Raw.hdr_mk, Raw.t, Raw.imm96, Raw.imm32, Raw.withMem, Raw.memOp, Raw.base, Raw.idx, Raw.off]
    all_goals simp only [Ty.ofCode_code, vsrcOf_code, imm32_setWidth, mdO_bit0, mdO_bit1, bits3_0, bits3_1, base_code, idx_code]
    all_goals simp

theorem Encoding.ldg (h : Hdr) (ty : Ty) (d : VReg) (m : Mem) :
    Encoding.Statement (.ldg h ty d m) := by
  intro hw
  rcases m with ⟨base, idx, o | o⟩
  · refine round _ (({ word h 0x7 4 with d := VReg.code d, ty := ty.code }).withMem (Mem.mk base idx (Off.imm8 o)) .rlx .sheaf 0#1) rfl rfl hw rfl ?_
    show some (Instr.ldg _ _ _ _) = _
    all_goals simp only [word, Raw.hdr_mk, Raw.t, Raw.withMem, Raw.memOp, Raw.base, Raw.idx, Raw.off]
    all_goals simp only [Ty.ofCode_code, vregOf_code, mdO_bit0, mdO_bit1, bits3_0, bits3_1, base_code, idx_code]
    all_goals simp
  · refine round _ (({ word h 0x7 4 with d := VReg.code d, ty := ty.code }).withMem (Mem.mk base idx (Off.imm32 o)) .rlx .sheaf 0#1) rfl rfl hw (extOk_imm96 _ _) ?_
    show some (Instr.ldg _ _ _ _) = _
    all_goals simp only [word, Raw.hdr_mk, Raw.t, Raw.imm96, Raw.imm32, Raw.withMem, Raw.memOp, Raw.base, Raw.idx, Raw.off]
    all_goals simp only [Ty.ofCode_code, vregOf_code, imm32_setWidth, mdO_bit0, mdO_bit1, bits3_0, bits3_1, base_code, idx_code]
    all_goals simp

theorem Encoding.stg (h : Hdr) (ty : Ty) (d : VSrc) (m : Mem) :
    Encoding.Statement (.stg h ty d m) := by
  intro hw
  rcases m with ⟨base, idx, o | o⟩
  · refine round _ (({ word h 0x7 5 with d := d.code, ty := ty.code }).withMem (Mem.mk base idx (Off.imm8 o)) .rlx .sheaf 0#1) rfl rfl hw rfl ?_
    show some (Instr.stg _ _ _ _) = _
    all_goals simp only [word, Raw.hdr_mk, Raw.t, Raw.withMem, Raw.memOp, Raw.base, Raw.idx, Raw.off]
    all_goals simp only [Ty.ofCode_code, vsrcOf_code, mdO_bit0, mdO_bit1, bits3_0, bits3_1, base_code, idx_code]
    all_goals simp
  · refine round _ (({ word h 0x7 5 with d := d.code, ty := ty.code }).withMem (Mem.mk base idx (Off.imm32 o)) .rlx .sheaf 0#1) rfl rfl hw (extOk_imm96 _ _) ?_
    show some (Instr.stg _ _ _ _) = _
    all_goals simp only [word, Raw.hdr_mk, Raw.t, Raw.imm96, Raw.imm32, Raw.withMem, Raw.memOp, Raw.base, Raw.idx, Raw.off]
    all_goals simp only [Ty.ofCode_code, vsrcOf_code, imm32_setWidth, mdO_bit0, mdO_bit1, bits3_0, bits3_1, base_code, idx_code]
    all_goals simp

theorem Encoding.ldx (h : Hdr) (ty : Ty) (d : VReg) (m : Mem) :
    Encoding.Statement (.ldx h ty d m) := by
  intro hw
  rcases m with ⟨base, idx, o | o⟩
  · refine round _ (({ word h 0x7 6 with d := VReg.code d, ty := ty.code }).withMem (Mem.mk base idx (Off.imm8 o)) .rlx .sheaf 0#1) rfl rfl hw rfl ?_
    show some (Instr.ldx _ _ _ _) = _
    all_goals simp only [word, Raw.hdr_mk, Raw.t, Raw.withMem, Raw.memOp, Raw.base, Raw.idx, Raw.off]
    all_goals simp only [Ty.ofCode_code, vregOf_code, mdO_bit0, mdO_bit1, bits3_0, bits3_1, base_code, idx_code]
    all_goals simp
  · refine round _ (({ word h 0x7 6 with d := VReg.code d, ty := ty.code }).withMem (Mem.mk base idx (Off.imm32 o)) .rlx .sheaf 0#1) rfl rfl hw (extOk_imm96 _ _) ?_
    show some (Instr.ldx _ _ _ _) = _
    all_goals simp only [word, Raw.hdr_mk, Raw.t, Raw.imm96, Raw.imm32, Raw.withMem, Raw.memOp, Raw.base, Raw.idx, Raw.off]
    all_goals simp only [Ty.ofCode_code, vregOf_code, imm32_setWidth, mdO_bit0, mdO_bit1, bits3_0, bits3_1, base_code, idx_code]
    all_goals simp

theorem Encoding.stx (h : Hdr) (ty : Ty) (d : VSrc) (m : Mem) :
    Encoding.Statement (.stx h ty d m) := by
  intro hw
  rcases m with ⟨base, idx, o | o⟩
  · refine round _ (({ word h 0x7 7 with d := d.code, ty := ty.code }).withMem (Mem.mk base idx (Off.imm8 o)) .rlx .sheaf 0#1) rfl rfl hw rfl ?_
    show some (Instr.stx _ _ _ _) = _
    all_goals simp only [word, Raw.hdr_mk, Raw.t, Raw.withMem, Raw.memOp, Raw.base, Raw.idx, Raw.off]
    all_goals simp only [Ty.ofCode_code, vsrcOf_code, mdO_bit0, mdO_bit1, bits3_0, bits3_1, base_code, idx_code]
    all_goals simp
  · refine round _ (({ word h 0x7 7 with d := d.code, ty := ty.code }).withMem (Mem.mk base idx (Off.imm32 o)) .rlx .sheaf 0#1) rfl rfl hw (extOk_imm96 _ _) ?_
    show some (Instr.stx _ _ _ _) = _
    all_goals simp only [word, Raw.hdr_mk, Raw.t, Raw.imm96, Raw.imm32, Raw.withMem, Raw.memOp, Raw.base, Raw.idx, Raw.off]
    all_goals simp only [Ty.ofCode_code, vsrcOf_code, imm32_setWidth, mdO_bit0, mdO_bit1, bits3_0, bits3_1, base_code, idx_code]
    all_goals simp

theorem Encoding.ldb (h : Hdr) (ty : Ty) (d : VReg) (base : Option SReg) (off : Off) :
    Encoding.Statement (.ldb h ty d base off) := by
  intro hw
  rcases off with off | off
  · refine round _ (({ word h 0x7 8 with d := VReg.code d, ty := ty.code }).withMem ⟨base, none, (Off.imm8 off)⟩ .rlx .sheaf 0#1) rfl rfl hw rfl ?_
    show some (if BitVec.getLsbD (mdO _ _ _) 2 = true then _ else Instr.ldb _ _ _ _ _) = _
    all_goals simp only [word, Raw.hdr_mk, Raw.t, Raw.withMem, Raw.memOp, Raw.base, Raw.idx, Raw.off]
    all_goals simp only [Ty.ofCode_code, vregOf_code, mdO_bit0, mdO_bit1, bits3_0, bits3_1, base_code, idx_code, mdO_bit2, bits3_2]
    all_goals simp
  · refine round _ (({ word h 0x7 8 with d := VReg.code d, ty := ty.code }).withMem ⟨base, none, (Off.imm32 off)⟩ .rlx .sheaf 0#1) rfl rfl hw (extOk_imm96 _ _) ?_
    show some (if BitVec.getLsbD (mdO _ _ _) 2 = true then _ else Instr.ldb _ _ _ _ _) = _
    all_goals simp only [word, Raw.hdr_mk, Raw.t, Raw.imm96, Raw.imm32, Raw.withMem, Raw.memOp, Raw.base, Raw.idx, Raw.off]
    all_goals simp only [Ty.ofCode_code, vregOf_code, imm32_setWidth, mdO_bit0, mdO_bit1, bits3_0, bits3_1, base_code, idx_code, mdO_bit2, bits3_2]
    all_goals simp

theorem Encoding.ldbLoc (h : Hdr) (ty : Ty) (d : VReg) (base : Option SReg) (off : Off) :
    Encoding.Statement (.ldbLoc h ty d base off) := by
  intro hw
  rcases off with off | off
  · refine round _ (({ word h 0x7 8 with d := VReg.code d, ty := ty.code }).withMem ⟨base, none, (Off.imm8 off)⟩ .rlx .sheaf 1#1) rfl rfl hw rfl ?_
    show some (if BitVec.getLsbD (mdO _ _ _) 2 = true then Instr.ldbLoc _ _ _ _ _ else _) = _
    all_goals simp only [word, Raw.hdr_mk, Raw.t, Raw.withMem, Raw.memOp, Raw.base, Raw.idx, Raw.off]
    all_goals simp only [Ty.ofCode_code, vregOf_code, mdO_bit0, mdO_bit1, bits3_0, bits3_1, base_code, idx_code, mdO_bit2, bits3_2]
    all_goals simp
  · refine round _ (({ word h 0x7 8 with d := VReg.code d, ty := ty.code }).withMem ⟨base, none, (Off.imm32 off)⟩ .rlx .sheaf 1#1) rfl rfl hw (extOk_imm96 _ _) ?_
    show some (if BitVec.getLsbD (mdO _ _ _) 2 = true then Instr.ldbLoc _ _ _ _ _ else _) = _
    all_goals simp only [word, Raw.hdr_mk, Raw.t, Raw.imm96, Raw.imm32, Raw.withMem, Raw.memOp, Raw.base, Raw.idx, Raw.off]
    all_goals simp only [Ty.ofCode_code, vregOf_code, imm32_setWidth, mdO_bit0, mdO_bit1, bits3_0, bits3_1, base_code, idx_code, mdO_bit2, bits3_2]
    all_goals simp

theorem Encoding.lda (h : Hdr) (ty : Ty) (ord : Order) (scp : Scope) (d : VReg) (m : Mem) :
    Encoding.Statement (.lda h ty ord scp d m) := by
  intro hw
  rcases m with ⟨base, idx, o | o⟩
  · refine round _ (({ word h 0x7 9 with d := VReg.code d, ty := ty.code }).withMem (Mem.mk base idx (Off.imm8 o)) ord scp 0#1) rfl rfl hw rfl ?_
    show some (Instr.lda _ _ _ _ _ _) = _
    all_goals simp only [word, Raw.hdr_mk, Raw.t, Raw.withMem, Raw.memOp, Raw.base, Raw.idx, Raw.off, Raw.ord, Raw.scp]
    all_goals simp only [Ty.ofCode_code, Order.ofCode_code, Scope.ofCode_code, vregOf_code, mdO_bit0, mdO_bit1, bits3_0, bits3_1, base_code, idx_code, mdO_ord, mdO_scp]
    all_goals simp
  · refine round _ (({ word h 0x7 9 with d := VReg.code d, ty := ty.code }).withMem (Mem.mk base idx (Off.imm32 o)) ord scp 0#1) rfl rfl hw (extOk_imm96 _ _) ?_
    show some (Instr.lda _ _ _ _ _ _) = _
    all_goals simp only [word, Raw.hdr_mk, Raw.t, Raw.imm96, Raw.imm32, Raw.withMem, Raw.memOp, Raw.base, Raw.idx, Raw.off, Raw.ord, Raw.scp]
    all_goals simp only [Ty.ofCode_code, Order.ofCode_code, Scope.ofCode_code, vregOf_code, imm32_setWidth, mdO_bit0, mdO_bit1, bits3_0, bits3_1, base_code, idx_code, mdO_ord, mdO_scp]
    all_goals simp

theorem Encoding.str (h : Hdr) (ty : Ty) (ord : Order) (scp : Scope) (c : VSrc) (m : Mem) :
    Encoding.Statement (.str h ty ord scp c m) := by
  intro hw
  rcases m with ⟨base, idx, o | o⟩
  · have ho : o = 0 := by simp [Instr.wf, Instr.opOk] at hw; exact hw.1.2.2
    subst ho
    refine round _ ({ ({ word h 0x7 10 with ty := ty.code }).withMem (Mem.mk base idx (Off.imm8 0)) ord scp 0#1 with c := c.code }) rfl rfl hw rfl ?_
    show some (Instr.str _ _ _ _ _ _) = _
    all_goals simp only [word, Raw.hdr_mk, Raw.t, Raw.withMem, Raw.memOp, Raw.base, Raw.idx, Raw.off, Raw.strOff, Raw.ord, Raw.scp]
    all_goals simp only [Ty.ofCode_code, Order.ofCode_code, Scope.ofCode_code, vsrcOf_code, mdO_bit0, mdO_bit1, bits3_0, bits3_1, base_code, idx_code, mdO_ord, mdO_scp]
    all_goals simp
  · refine round _ ({ ({ word h 0x7 10 with ty := ty.code }).withMem (Mem.mk base idx (Off.imm32 o)) ord scp 0#1 with c := c.code }) rfl rfl hw (extOk_imm96 (word h 0x7 10) o) ?_
    show some (Instr.str _ _ _ _ _ _) = _
    all_goals simp only [word, Raw.hdr_mk, Raw.t, Raw.imm96, Raw.imm32, Raw.withMem, Raw.memOp, Raw.base, Raw.idx, Raw.off, Raw.strOff, Raw.ord, Raw.scp]
    all_goals simp only [Ty.ofCode_code, Order.ofCode_code, Scope.ofCode_code, vsrcOf_code, imm32_setWidth, mdO_bit0, mdO_bit1, bits3_0, bits3_1, base_code, idx_code, mdO_ord, mdO_scp]
    all_goals simp

theorem Encoding.atom (h : Hdr) (ty : Ty) (op : AtomOp) (ord : Order) (scp : Scope) (d : VReg) (a : SReg) (b : VSrc) (off : Option Word32) (c : VSrc) :
    Encoding.Statement (.atom h ty op ord scp d a b off c) := by
  intro hw
  rcases off with _ | off
  · refine round _ (({ word h 0x7 11 with d := VReg.code d, a := SReg.code a, b := b.code, c := c.code, ty := ty.code, md := mdO ord scp op.code }).withOffO none) rfl rfl hw rfl ?_
    show some (Instr.atom _ _ _ _ _ _ _ _ _ _) = _
    all_goals simp only [word, Raw.hdr_mk, Raw.t, Raw.withOffO, Raw.offO, Raw.ord, Raw.scp, Raw.xop]
    all_goals simp only [Ty.ofCode_code, Order.ofCode_code, Scope.ofCode_code, AtomOp.ofCode_code, vregOf_code, sregOf_code, vsrcOf_code, mdO_ord, mdO_scp, mdO_xop]
    all_goals simp
  · refine round _ (({ word h 0x7 11 with d := VReg.code d, a := SReg.code a, b := b.code, c := c.code, ty := ty.code, md := mdO ord scp op.code }).withOffO (some off)) rfl rfl hw (extOk_imm96 _ _) ?_
    show some (Instr.atom _ _ _ _ _ _ _ _ _ _) = _
    all_goals simp only [word, Raw.hdr_mk, Raw.t, Raw.imm96, Raw.imm32, Raw.withOffO, Raw.offO, Raw.ord, Raw.scp, Raw.xop]
    all_goals simp only [Ty.ofCode_code, Order.ofCode_code, Scope.ofCode_code, AtomOp.ofCode_code, vregOf_code, sregOf_code, vsrcOf_code, imm32_setWidth, mdO_ord, mdO_scp, mdO_xop]
    all_goals simp

theorem Encoding.atomn (h : Hdr) (ty : Ty) (op : AtomOp) (ord : Order) (scp : Scope) (a : SReg) (b : VSrc) (off : Option Word32) (c : VSrc) :
    Encoding.Statement (.atomn h ty op ord scp a b off c) := by
  intro hw
  rcases off with _ | off
  · refine round _ (({ word h 0x7 12 with a := SReg.code a, b := b.code, c := c.code, ty := ty.code, md := mdO ord scp op.code }).withOffO none) rfl rfl hw rfl ?_
    show some (Instr.atomn _ _ _ _ _ _ _ _ _) = _
    all_goals simp only [word, Raw.hdr_mk, Raw.t, Raw.withOffO, Raw.offO, Raw.ord, Raw.scp, Raw.xop]
    all_goals simp only [Ty.ofCode_code, Order.ofCode_code, Scope.ofCode_code, AtomOp.ofCode_code, sregOf_code, vsrcOf_code, mdO_ord, mdO_scp, mdO_xop]
    all_goals simp
  · refine round _ (({ word h 0x7 12 with a := SReg.code a, b := b.code, c := c.code, ty := ty.code, md := mdO ord scp op.code }).withOffO (some off)) rfl rfl hw (extOk_imm96 _ _) ?_
    show some (Instr.atomn _ _ _ _ _ _ _ _ _) = _
    all_goals simp only [word, Raw.hdr_mk, Raw.t, Raw.imm96, Raw.imm32, Raw.withOffO, Raw.offO, Raw.ord, Raw.scp, Raw.xop]
    all_goals simp only [Ty.ofCode_code, Order.ofCode_code, Scope.ofCode_code, AtomOp.ofCode_code, sregOf_code, vsrcOf_code, imm32_setWidth, mdO_ord, mdO_scp, mdO_xop]
    all_goals simp

theorem Encoding.acas (h : Hdr) (ty : Ty) (ord : Order) (scp : Scope) (d : VReg) (a : SReg) (b : VSrc) (off : Option Word32) (c : VSrc) :
    Encoding.Statement (.acas h ty ord scp d a b off c) := by
  intro hw
  rcases off with _ | off
  · refine round _ (({ word h 0x7 13 with d := VReg.code d, a := SReg.code a, b := b.code, c := c.code, ty := ty.code, md := mdO ord scp 0 }).withOffO none) rfl rfl hw rfl ?_
    show some (Instr.acas _ _ _ _ _ _ _ _ _) = _
    all_goals simp only [word, Raw.hdr_mk, Raw.t, Raw.withOffO, Raw.offO, Raw.ord, Raw.scp]
    all_goals simp only [Ty.ofCode_code, Order.ofCode_code, Scope.ofCode_code, vregOf_code, sregOf_code, vsrcOf_code, mdO_ord, mdO_scp]
    all_goals simp
  · refine round _ (({ word h 0x7 13 with d := VReg.code d, a := SReg.code a, b := b.code, c := c.code, ty := ty.code, md := mdO ord scp 0 }).withOffO (some off)) rfl rfl hw (extOk_imm96 _ _) ?_
    show some (Instr.acas _ _ _ _ _ _ _ _ _) = _
    all_goals simp only [word, Raw.hdr_mk, Raw.t, Raw.imm96, Raw.imm32, Raw.withOffO, Raw.offO, Raw.ord, Raw.scp]
    all_goals simp only [Ty.ofCode_code, Order.ofCode_code, Scope.ofCode_code, vregOf_code, sregOf_code, vsrcOf_code, imm32_setWidth, mdO_ord, mdO_scp]
    all_goals simp

theorem Encoding.fence (h : Hdr) (ord : Order) (scp : Scope) :
    Encoding.Statement (.fence h ord scp) := by
  intro hw
  · refine round _ ({ word h 0x7 14 with md := mdO ord scp 0 }) rfl rfl hw rfl ?_
    show some (Instr.fence _ _ _) = _
    all_goals simp only [word, Raw.hdr_mk, Raw.ord, Raw.scp]
    all_goals simp only [Order.ofCode_code, Scope.ofCode_code, mdO_ord, mdO_scp]
    all_goals simp

theorem Encoding.prefg (h : Hdr) (m : Mem) :
    Encoding.Statement (.prefg h m) := by
  intro hw
  rcases m with ⟨base, idx, o | o⟩
  · refine round _ ((word h 0x7 15).withMem (Mem.mk base idx (Off.imm8 o)) .rlx .sheaf 0#1) rfl rfl hw rfl ?_
    show some (Instr.prefg _ _) = _
    all_goals simp only [word, Raw.hdr_mk, Raw.withMem, Raw.memOp, Raw.base, Raw.idx, Raw.off]
    all_goals simp only [mdO_bit0, mdO_bit1, bits3_0, bits3_1, base_code, idx_code]
    all_goals simp
  · refine round _ ((word h 0x7 15).withMem (Mem.mk base idx (Off.imm32 o)) .rlx .sheaf 0#1) rfl rfl hw (extOk_imm96 _ _) ?_
    show some (Instr.prefg _ _) = _
    all_goals simp only [word, Raw.hdr_mk, Raw.imm96, Raw.imm32, Raw.withMem, Raw.memOp, Raw.base, Raw.idx, Raw.off]
    all_goals simp only [imm32_setWidth, mdO_bit0, mdO_bit1, bits3_0, bits3_1, base_code, idx_code]
    all_goals simp

theorem Encoding.cflush (h : Hdr) (m : Mem) :
    Encoding.Statement (.cflush h m) := by
  intro hw
  rcases m with ⟨base, idx, o | o⟩
  · refine round _ ((word h 0x7 16).withMem (Mem.mk base idx (Off.imm8 o)) .rlx .sheaf 0#1) rfl rfl hw rfl ?_
    show some (if BitVec.getLsbD (mdO _ _ _) 2 = true then _ else Instr.cflush _ _) = _
    all_goals simp only [word, Raw.hdr_mk, Raw.withMem, Raw.memOp, Raw.base, Raw.idx, Raw.off]
    all_goals simp only [mdO_bit0, mdO_bit1, bits3_0, bits3_1, base_code, idx_code, mdO_bit2, bits3_2]
    all_goals simp
  · refine round _ ((word h 0x7 16).withMem (Mem.mk base idx (Off.imm32 o)) .rlx .sheaf 0#1) rfl rfl hw (extOk_imm96 _ _) ?_
    show some (if BitVec.getLsbD (mdO _ _ _) 2 = true then _ else Instr.cflush _ _) = _
    all_goals simp only [word, Raw.hdr_mk, Raw.imm96, Raw.imm32, Raw.withMem, Raw.memOp, Raw.base, Raw.idx, Raw.off]
    all_goals simp only [imm32_setWidth, mdO_bit0, mdO_bit1, bits3_0, bits3_1, base_code, idx_code, mdO_bit2, bits3_2]
    all_goals simp

theorem Encoding.cflushAll (h : Hdr) :
    Encoding.Statement (.cflushAll h) := by
  intro hw
  · refine round _ ({ word h 0x7 16 with md := 4 }) rfl rfl hw rfl ?_
    show some (if BitVec.getLsbD (4 : Byte) 2 = true then Instr.cflushAll _ else _) = _
    rw [if_pos (by decide)]
    exact congrArg (fun x => some (Instr.cflushAll x)) (Raw.hdr_mk .w64 0x7 16 h 0 0 0 0 0 4 0)

theorem Encoding.abinit (h : Hdr) (b : BSlot) (a : SReg) :
    Encoding.Statement (.abinit h b a) := by
  intro hw
  · refine round _ ({ word h 0x8 0 with d := Tile.code b, a := SReg.code a }) rfl rfl hw rfl ?_
    show some (Instr.abinit _ _ _) = _
    all_goals simp only [word, Raw.hdr_mk]
    all_goals simp only [sregOf_code, tileOf_code]
    all_goals simp

theorem Encoding.abexp (h : Hdr) (b : BSlot) (a : SReg) :
    Encoding.Statement (.abexp h b a) := by
  intro hw
  · refine round _ ({ word h 0x8 1 with d := Tile.code b, a := SReg.code a }) rfl rfl hw rfl ?_
    show some (Instr.abexp _ _ _) = _
    all_goals simp only [word, Raw.hdr_mk]
    all_goals simp only [sregOf_code, tileOf_code]
    all_goals simp

theorem Encoding.abarr (h : Hdr) (b : BSlot) (a : SReg) :
    Encoding.Statement (.abarr h b a) := by
  intro hw
  · refine round _ ({ word h 0x8 2 with d := Tile.code b, a := SReg.code a }) rfl rfl hw rfl ?_
    show some (Instr.abarr _ _ _) = _
    all_goals simp only [word, Raw.hdr_mk]
    all_goals simp only [sregOf_code, tileOf_code]
    all_goals simp

theorem Encoding.abwait (h : Hdr) (b : BSlot) (a : SReg) :
    Encoding.Statement (.abwait h b a) := by
  intro hw
  · refine round _ ({ word h 0x8 3 with d := Tile.code b, a := SReg.code a }) rfl rfl hw rfl ?_
    show some (Instr.abwait _ _ _) = _
    all_goals simp only [word, Raw.hdr_mk]
    all_goals simp only [sregOf_code, tileOf_code]
    all_goals simp

theorem Encoding.abtest (h : Hdr) (d : SReg) (b : BSlot) (a : SReg) :
    Encoding.Statement (.abtest h d b a) := by
  intro hw
  · refine round _ ({ word h 0x8 4 with d := SReg.code d, a := SReg.code a, b := Tile.code b }) rfl rfl hw rfl ?_
    show some (Instr.abtest _ _ _ _) = _
    all_goals simp only [word, Raw.hdr_mk]
    all_goals simp only [sregOf_code, tileOf_code]
    all_goals simp

theorem Encoding.abtestPar (h : Hdr) (d : SReg) (b : BSlot) (a : SReg) :
    Encoding.Statement (.abtestPar h d b a) := by
  intro hw
  · refine round _ ({ word h 0x8 4 with d := SReg.code d, a := SReg.code a, b := Tile.code b, md := 1 }) rfl rfl hw rfl ?_
    show some (Instr.abtestPar _ _ _ _) = _
    all_goals simp only [word, Raw.hdr_mk]
    all_goals simp only [sregOf_code, tileOf_code]
    all_goals simp

theorem Encoding.abret (h : Hdr) (b : BSlot) :
    Encoding.Statement (.abret h b) := by
  intro hw
  · refine round _ ({ word h 0x8 5 with d := Tile.code b }) rfl rfl hw rfl ?_
    show some (Instr.abret _ _) = _
    all_goals simp only [word, Raw.hdr_mk]
    all_goals simp only [tileOf_code]
    all_goals simp

theorem Encoding.abq (h : Hdr) (w : AbqWhat) (d : SReg) (b : BSlot) :
    Encoding.Statement (.abq h w d b) := by
  intro hw
  · refine round _ ({ word h 0x8 6 with d := SReg.code d, b := Tile.code b, md := mdG w.code }) rfl rfl hw rfl ?_
    show some (Instr.abq _ _ _ _) = _
    all_goals simp only [word, Raw.hdr_mk, Raw.xop]
    all_goals simp only [AbqWhat.ofCode_code, sregOf_code, tileOf_code, mdG_xop, mdG_bit0]
    all_goals simp

theorem Encoding.cbar (h : Hdr) :
    Encoding.Statement (.cbar h) := by
  intro hw
  · refine round _ (word h 0x8 7) rfl rfl hw rfl ?_
    show some (Instr.cbar _) = _
    all_goals simp only [word, Raw.hdr_mk]
    all_goals simp only []
    all_goals simp

theorem Encoding.sbar (h : Hdr) :
    Encoding.Statement (.sbar h) := by
  intro hw
  · refine round _ (word h 0x8 8) rfl rfl hw rfl ?_
    show some (Instr.sbar _) = _
    all_goals simp only [word, Raw.hdr_mk]
    all_goals simp only []
    all_goals simp

theorem Encoding.tfetch (h : Hdr) (ord : Order) (scp : Scope) (s : BSlot) (a : SReg) (b : SReg) (c : SReg) :
    Encoding.Statement (.tfetch h ord scp s a b c) := by
  intro hw
  · refine round _ ({ word h 0x9 0 with d := Tile.code s, a := SReg.code a, b := SReg.code b, c := SReg.code c, md := mdO ord scp 0 }) rfl rfl hw rfl ?_
    show some (Instr.tfetch _ _ _ _ _ _ _) = _
    all_goals simp only [word, Raw.hdr_mk, Raw.ord, Raw.scp]
    all_goals simp only [Order.ofCode_code, Scope.ofCode_code, sregOf_code, tileOf_code, mdO_ord, mdO_scp]
    all_goals simp

theorem Encoding.tstore (h : Hdr) (ord : Order) (scp : Scope) (s : BSlot) (a : SReg) (b : SReg) (c : SReg) :
    Encoding.Statement (.tstore h ord scp s a b c) := by
  intro hw
  · refine round _ ({ word h 0x9 1 with d := Tile.code s, a := SReg.code a, b := SReg.code b, c := SReg.code c, md := mdO ord scp 0 }) rfl rfl hw rfl ?_
    show some (Instr.tstore _ _ _ _ _ _ _) = _
    all_goals simp only [word, Raw.hdr_mk, Raw.ord, Raw.scp]
    all_goals simp only [Order.ofCode_code, Scope.ofCode_code, sregOf_code, tileOf_code, mdO_ord, mdO_scp]
    all_goals simp

theorem Encoding.twin (h : Hdr) (a : SReg) :
    Encoding.Statement (.twin h a) := by
  intro hw
  · refine round _ ({ word h 0x9 2 with a := SReg.code a }) rfl rfl hw rfl ?_
    show some (Instr.twin _ _) = _
    all_goals simp only [word, Raw.hdr_mk]
    all_goals simp only [sregOf_code]
    all_goals simp

theorem Encoding.twq (h : Hdr) (w : TwqWhat) (d : SReg) :
    Encoding.Statement (.twq h w d) := by
  intro hw
  · refine round _ ({ word h 0x9 3 with d := SReg.code d, md := mdG w.code }) rfl rfl hw rfl ?_
    show some (Instr.twq _ _ _) = _
    all_goals simp only [word, Raw.hdr_mk, Raw.xop]
    all_goals simp only [TwqWhat.ofCode_code, sregOf_code, mdG_xop, mdG_bit0]
    all_goals simp

theorem Encoding.mcopy (h : Hdr) (ord : Order) (scp : Scope) (s : BSlot) (a : SReg) (b : SReg) (c : SReg) :
    Encoding.Statement (.mcopy h ord scp s a b c) := by
  intro hw
  · refine round _ ({ word h 0x9 4 with d := Tile.code s, a := SReg.code a, b := SReg.code b, c := SReg.code c, md := mdO ord scp 0 }) rfl rfl hw rfl ?_
    show some (Instr.mcopy _ _ _ _ _ _ _) = _
    all_goals simp only [word, Raw.hdr_mk, Raw.ord, Raw.scp]
    all_goals simp only [Order.ofCode_code, Scope.ofCode_code, sregOf_code, tileOf_code, mdO_ord, mdO_scp]
    all_goals simp

theorem Encoding.mfill (h : Hdr) (ord : Order) (scp : Scope) (s : BSlot) (a : SReg) (b : SReg) (c : SReg) :
    Encoding.Statement (.mfill h ord scp s a b c) := by
  intro hw
  · refine round _ ({ word h 0x9 5 with d := Tile.code s, a := SReg.code a, b := SReg.code b, c := SReg.code c, md := mdO ord scp 0 }) rfl rfl hw rfl ?_
    show some (Instr.mfill _ _ _ _ _ _ _) = _
    all_goals simp only [word, Raw.hdr_mk, Raw.ord, Raw.scp]
    all_goals simp only [Order.ofCode_code, Scope.ofCode_code, sregOf_code, tileOf_code, mdO_ord, mdO_scp]
    all_goals simp

theorem Encoding.mred (h : Hdr) (ty : Ty) (op : MredOp) (ord : Order) (scp : Scope) (s : BSlot) (a : SReg) (b : SReg) (c : SReg) :
    Encoding.Statement (.mred h ty op ord scp s a b c) := by
  intro hw
  · refine round _ ({ word h 0x9 6 with d := Tile.code s, a := SReg.code a, b := SReg.code b, c := SReg.code c, ty := ty.code, md := mdO ord scp op.code }) rfl rfl hw rfl ?_
    show some (Instr.mred _ _ _ _ _ _ _ _ _) = _
    all_goals simp only [word, Raw.hdr_mk, Raw.t, Raw.ord, Raw.scp, Raw.xop]
    all_goals simp only [Ty.ofCode_code, Order.ofCode_code, Scope.ofCode_code, MredOp.ofCode_code, sregOf_code, tileOf_code, mdO_ord, mdO_scp, mdO_xop]
    all_goals simp

theorem Encoding.msnap (h : Hdr) (ord : Order) (scp : Scope) (d : SReg) (a : SReg) (b : SReg) :
    Encoding.Statement (.msnap h ord scp d a b) := by
  intro hw
  · refine round _ ({ word h 0x9 7 with d := SReg.code d, a := SReg.code a, b := SReg.code b, md := mdO ord scp 0 }) rfl rfl hw rfl ?_
    show some (Instr.msnap _ _ _ _ _ _) = _
    all_goals simp only [word, Raw.hdr_mk, Raw.ord, Raw.scp]
    all_goals simp only [Order.ofCode_code, Scope.ofCode_code, sregOf_code, mdO_ord, mdO_scp]
    all_goals simp

theorem Encoding.mclose (h : Hdr) (ord : Order) (scp : Scope) (a : SReg) :
    Encoding.Statement (.mclose h ord scp a) := by
  intro hw
  · refine round _ ({ word h 0x9 8 with a := SReg.code a, md := mdO ord scp 0 }) rfl rfl hw rfl ?_
    show some (Instr.mclose _ _ _ _) = _
    all_goals simp only [word, Raw.hdr_mk, Raw.ord, Raw.scp]
    all_goals simp only [Order.ofCode_code, Scope.ofCode_code, sregOf_code, mdO_ord, mdO_scp]
    all_goals simp

theorem Encoding.tdset (h : Hdr) (ty : Ty) (d : Desc) (a : SReg) (b : SReg) :
    Encoding.Statement (.tdset h ty d a b) := by
  intro hw
  · refine round _ ({ word h 0xA 0 with d := Desc.code d, a := SReg.code a, b := SReg.code b, ty := ty.code }) rfl rfl hw rfl ?_
    show some (Instr.tdset _ _ _ _ _) = _
    all_goals simp only [word, Raw.hdr_mk, Raw.t]
    all_goals simp only [Ty.ofCode_code, sregOf_code, descOf_code]
    all_goals simp

theorem Encoding.tdtag (h : Hdr) (d : Desc) (tag : BitVec 4) :
    Encoding.Statement (.tdtag h d tag) := by
  intro hw
  · refine round _ ({ word h 0xA 1 with d := Desc.code d, c := tag.setWidth 8 }) rfl rfl hw rfl ?_
    show some (Instr.tdtag _ _ _) = _
    all_goals simp only [word, Raw.hdr_mk]
    all_goals simp only [descOf_code, srOf_code, byte_low4]
    all_goals simp

theorem Encoding.mma (h : Hdr) (ty : Ty) (inc : Incoming) (f : Bool) (d : Tile) (a : Desc) (b : Desc) (rows : BitVec 16) (cols : BitVec 16) (depth : BitVec 16) :
    Encoding.Statement (.mma h ty inc f d a b rows cols depth) := by
  intro hw
  rcases inc with _ | _ | tc
  · refine round _ (({ word h 0xA 2 with d := Tile.code d, a := Desc.code a, b := Desc.code b, c := Incoming.z.code, ty := ty.code }).imm128 (cf rows cols depth Incoming.z f)) rfl rfl hw rfl ?_
    show some (Instr.mma _ _ _ _ _ _ _ _ _ _) = _
    all_goals simp only [word, Raw.hdr_mk, Raw.t, Raw.imm128, Raw.incoming, Incoming.code]
    all_goals simp only [Ty.ofCode_code, tileOf_code, descOf_code, cf_rows, cf_cols, cf_depth, cf_z, cf_k, cf_f]
    all_goals simp
  · refine round _ (({ word h 0xA 2 with d := Tile.code d, a := Desc.code a, b := Desc.code b, c := Incoming.k.code, ty := ty.code }).imm128 (cf rows cols depth Incoming.k f)) rfl rfl hw rfl ?_
    show some (Instr.mma _ _ _ _ _ _ _ _ _ _) = _
    all_goals simp only [word, Raw.hdr_mk, Raw.t, Raw.imm128, Raw.incoming, Incoming.code]
    all_goals simp only [Ty.ofCode_code, tileOf_code, descOf_code, cf_rows, cf_cols, cf_depth, cf_z, cf_k, cf_f]
    all_goals simp
  · refine round _ (({ word h 0xA 2 with d := Tile.code d, a := Desc.code a, b := Desc.code b, c := (Incoming.tile tc).code, ty := ty.code }).imm128 (cf rows cols depth (Incoming.tile tc) f)) rfl rfl hw rfl ?_
    show some (Instr.mma _ _ _ _ _ _ _ _ _ _) = _
    all_goals simp only [word, Raw.hdr_mk, Raw.t, Raw.imm128, Raw.incoming, Incoming.code]
    all_goals simp only [Ty.ofCode_code, tileOf_code, descOf_code, vsrcOf_code, cf_rows, cf_cols, cf_depth, cf_z, cf_k, cf_f]
    all_goals simp

theorem Encoding.mmas (h : Hdr) (ty : Ty) (inc : Incoming) (d : Tile) (a : Desc) (b : Desc) (rows : BitVec 16) (cols : BitVec 16) (depth : BitVec 16) :
    Encoding.Statement (.mmas h ty inc d a b rows cols depth) := by
  intro hw
  rcases inc with _ | _ | tc
  · refine round _ (({ word h 0xA 3 with d := Tile.code d, a := Desc.code a, b := Desc.code b, c := Incoming.z.code, ty := ty.code }).imm128 (cf rows cols depth Incoming.z false)) rfl rfl hw rfl ?_
    show some (Instr.mmas _ _ _ _ _ _ _ _ _) = _
    all_goals simp only [word, Raw.hdr_mk, Raw.t, Raw.imm128, Raw.incoming, Incoming.code]
    all_goals simp only [Ty.ofCode_code, tileOf_code, descOf_code, cf_rows, cf_cols, cf_depth, cf_z, cf_k, cf_f]
    all_goals simp
  · refine round _ (({ word h 0xA 3 with d := Tile.code d, a := Desc.code a, b := Desc.code b, c := Incoming.k.code, ty := ty.code }).imm128 (cf rows cols depth Incoming.k false)) rfl rfl hw rfl ?_
    show some (Instr.mmas _ _ _ _ _ _ _ _ _) = _
    all_goals simp only [word, Raw.hdr_mk, Raw.t, Raw.imm128, Raw.incoming, Incoming.code]
    all_goals simp only [Ty.ofCode_code, tileOf_code, descOf_code, cf_rows, cf_cols, cf_depth, cf_z, cf_k, cf_f]
    all_goals simp
  · refine round _ (({ word h 0xA 3 with d := Tile.code d, a := Desc.code a, b := Desc.code b, c := (Incoming.tile tc).code, ty := ty.code }).imm128 (cf rows cols depth (Incoming.tile tc) false)) rfl rfl hw rfl ?_
    show some (Instr.mmas _ _ _ _ _ _ _ _ _) = _
    all_goals simp only [word, Raw.hdr_mk, Raw.t, Raw.imm128, Raw.incoming, Incoming.code]
    all_goals simp only [Ty.ofCode_code, tileOf_code, descOf_code, vsrcOf_code, cf_rows, cf_cols, cf_depth, cf_z, cf_k, cf_f]
    all_goals simp

theorem Encoding.mzero (h : Hdr) (d : Tile) (ms : Masks) :
    Encoding.Statement (.mzero h d ms) := by
  intro hw
  rcases ms with _ | ⟨r1, r2⟩
  · refine round _ (({ word h 0xA 4 with d := Tile.code d }).withMasks none) rfl rfl hw rfl ?_
    show some (Instr.mzero _ _ _) = _
    all_goals simp only [word, Raw.hdr_mk, Raw.imm128, Raw.withMasks, Raw.masks]
    all_goals simp only [tileOf_code, masks_rows, masks_cols]
    all_goals simp
  · refine round _ (({ word h 0xA 4 with d := Tile.code d }).withMasks (some (r1, r2))) rfl rfl hw rfl ?_
    show some (Instr.mzero _ _ _) = _
    all_goals simp only [word, Raw.hdr_mk, Raw.imm128, Raw.withMasks, Raw.masks]
    all_goals simp only [tileOf_code, masks_rows, masks_cols]
    all_goals simp

theorem Encoding.mew (h : Hdr) (ty : Ty) (op : MewOp) (d : Tile) (a : Tile) (ms : Masks) :
    Encoding.Statement (.mew h ty op d a ms) := by
  intro hw
  rcases op with b1 | c1 | ⟨b1, c1⟩ <;> rcases ms with _ | ⟨r1, r2⟩
  · refine round _ (({ word h 0xA 5 with d := Tile.code d, a := Tile.code a, b := SReg.code b1, ty := ty.code }).withMasks none) rfl rfl hw rfl ?_
    show some (Instr.mew _ _ _ _ _ _) = _
    all_goals simp only [word, Raw.hdr_mk, Raw.t, Raw.imm128, Raw.withMasks, Raw.masks, Raw.x]
    all_goals simp only [Ty.ofCode_code, sregOf_code, tileOf_code, masks_rows, masks_cols]
    all_goals simp
  · refine round _ (({ word h 0xA 5 with d := Tile.code d, a := Tile.code a, b := SReg.code b1, ty := ty.code }).withMasks (some (r1, r2))) rfl rfl hw rfl ?_
    show some (Instr.mew _ _ _ _ _ _) = _
    all_goals simp only [word, Raw.hdr_mk, Raw.t, Raw.imm128, Raw.withMasks, Raw.masks, Raw.x]
    all_goals simp only [Ty.ofCode_code, sregOf_code, tileOf_code, masks_rows, masks_cols]
    all_goals simp
  · refine round _ (({ word h 0xA 5 with d := Tile.code d, a := Tile.code a, c := Tile.code c1, ty := ty.code, md := 1 }).withMasks none) rfl rfl hw rfl ?_
    show some (Instr.mew _ _ _ _ _ _) = _
    all_goals simp only [word, Raw.hdr_mk, Raw.t, Raw.imm128, Raw.withMasks, Raw.masks, Raw.x]
    all_goals simp only [Ty.ofCode_code, tileOf_code, masks_rows, masks_cols]
    all_goals simp
  · refine round _ (({ word h 0xA 5 with d := Tile.code d, a := Tile.code a, c := Tile.code c1, ty := ty.code, md := 1 }).withMasks (some (r1, r2))) rfl rfl hw rfl ?_
    show some (Instr.mew _ _ _ _ _ _) = _
    all_goals simp only [word, Raw.hdr_mk, Raw.t, Raw.imm128, Raw.withMasks, Raw.masks, Raw.x]
    all_goals simp only [Ty.ofCode_code, tileOf_code, masks_rows, masks_cols]
    all_goals simp
  · refine round _ (({ word h 0xA 5 with d := Tile.code d, a := Tile.code a, b := SReg.code b1, c := Tile.code c1, ty := ty.code, md := 2 }).withMasks none) rfl rfl hw rfl ?_
    show some (Instr.mew _ _ _ _ _ _) = _
    all_goals simp only [word, Raw.hdr_mk, Raw.t, Raw.imm128, Raw.withMasks, Raw.masks, Raw.x]
    all_goals simp only [Ty.ofCode_code, sregOf_code, tileOf_code, masks_rows, masks_cols]
    all_goals simp
  · refine round _ (({ word h 0xA 5 with d := Tile.code d, a := Tile.code a, b := SReg.code b1, c := Tile.code c1, ty := ty.code, md := 2 }).withMasks (some (r1, r2))) rfl rfl hw rfl ?_
    show some (Instr.mew _ _ _ _ _ _) = _
    all_goals simp only [word, Raw.hdr_mk, Raw.t, Raw.imm128, Raw.withMasks, Raw.masks, Raw.x]
    all_goals simp only [Ty.ofCode_code, sregOf_code, tileOf_code, masks_rows, masks_cols]
    all_goals simp

theorem Encoding.mst (h : Hdr) (ty : Ty) (rnd : Rnd) (sat : Bool) (d : Desc) (a : Tile) (ms : Masks) :
    Encoding.Statement (.mst h ty rnd sat d a ms) := by
  intro hw
  rcases ms with _ | ⟨r1, r2⟩
  · refine round _ (({ word h 0xA 6 with d := Desc.code d, a := Tile.code a, ty := ty.code, md := mdA rnd sat false 0 }).withMasks none) rfl rfl hw rfl ?_
    show some (Instr.mst _ _ _ _ _ _ _) = _
    all_goals simp only [word, Raw.hdr_mk, Raw.t, Raw.imm128, Raw.withMasks, Raw.masks, Raw.sat, Raw.rnd]
    all_goals simp only [Ty.ofCode_code, Rnd.ofCode_code, tileOf_code, descOf_code, masks_rows, masks_cols, mdA_sat, mdA_rnd]
    all_goals simp
  · refine round _ (({ word h 0xA 6 with d := Desc.code d, a := Tile.code a, ty := ty.code, md := mdA rnd sat false 0 }).withMasks (some (r1, r2))) rfl rfl hw rfl ?_
    show some (Instr.mst _ _ _ _ _ _ _) = _
    all_goals simp only [word, Raw.hdr_mk, Raw.t, Raw.imm128, Raw.withMasks, Raw.masks, Raw.sat, Raw.rnd]
    all_goals simp only [Ty.ofCode_code, Rnd.ofCode_code, tileOf_code, descOf_code, masks_rows, masks_cols, mdA_sat, mdA_rnd]
    all_goals simp

theorem Encoding.mlda (h : Hdr) (ty : Ty) (d : Tile) (a : Desc) (ms : Masks) :
    Encoding.Statement (.mlda h ty d a ms) := by
  intro hw
  rcases ms with _ | ⟨r1, r2⟩
  · refine round _ (({ word h 0xA 7 with d := Tile.code d, a := Desc.code a, ty := ty.code }).withMasks none) rfl rfl hw rfl ?_
    show some (Instr.mlda _ _ _ _ _) = _
    all_goals simp only [word, Raw.hdr_mk, Raw.t, Raw.imm128, Raw.withMasks, Raw.masks]
    all_goals simp only [Ty.ofCode_code, tileOf_code, descOf_code, masks_rows, masks_cols]
    all_goals simp
  · refine round _ (({ word h 0xA 7 with d := Tile.code d, a := Desc.code a, ty := ty.code }).withMasks (some (r1, r2))) rfl rfl hw rfl ?_
    show some (Instr.mlda _ _ _ _ _) = _
    all_goals simp only [word, Raw.hdr_mk, Raw.t, Raw.imm128, Raw.withMasks, Raw.masks]
    all_goals simp only [Ty.ofCode_code, tileOf_code, descOf_code, masks_rows, masks_cols]
    all_goals simp

theorem Encoding.mrdv (h : Hdr) (ty : Ty) (rnd : Rnd) (sat : Bool) (part : Fin 8) (d : VReg) (a : Tile) (r : Byte) :
    Encoding.Statement (.mrdv h ty rnd sat part d a r) := by
  intro hw
  · refine round _ ({ word h 0xA 8 with d := VReg.code d, a := Tile.code a, c := r, ty := ty.code, md := mdA rnd sat false (fin3 part) }) rfl rfl hw rfl ?_
    show some (Instr.mrdv _ _ _ _ _ _ _ _) = _
    all_goals simp only [word, Raw.hdr_mk, Raw.t, Raw.sat, Raw.rnd, Raw.xop]
    all_goals simp only [Ty.ofCode_code, Rnd.ofCode_code, vregOf_code, tileOf_code, mdA_sat, mdA_rnd, mdA_xop, toFin_ofNat3]
    all_goals simp

theorem Encoding.mwrv (h : Hdr) (ty : Ty) (part : Fin 8) (d : Tile) (a : VSrc) (r : Byte) :
    Encoding.Statement (.mwrv h ty part d a r) := by
  intro hw
  · refine round _ ({ word h 0xA 9 with d := Tile.code d, a := a.code, c := r, ty := ty.code, md := mdA .rne false false (fin3 part) }) rfl rfl hw rfl ?_
    show some (Instr.mwrv _ _ _ _ _ _) = _
    all_goals simp only [word, Raw.hdr_mk, Raw.t, Raw.xop]
    all_goals simp only [Ty.ofCode_code, tileOf_code, vsrcOf_code, mdA_xop, toFin_ofNat3]
    all_goals simp

theorem Encoding.mtrn (h : Hdr) (d : Tile) (a : Tile) :
    Encoding.Statement (.mtrn h d a) := by
  intro hw
  · refine round _ ({ word h 0xA 10 with d := Tile.code d, a := Tile.code a }) rfl rfl hw rfl ?_
    show some (Instr.mtrn _ _ _) = _
    all_goals simp only [word, Raw.hdr_mk]
    all_goals simp only [tileOf_code]
    all_goals simp

theorem Encoding.mfen (h : Hdr) (ord : Order) (scp : Scope) (s : BSlot) :
    Encoding.Statement (.mfen h ord scp s) := by
  intro hw
  · refine round _ ({ word h 0xA 11 with d := Tile.code s, md := mdO ord scp 0 }) rfl rfl hw rfl ?_
    show some (if Raw.x _ = 1 then _ else Instr.mfen _ _ _ _) = _
    all_goals simp only [word, Raw.hdr_mk, Raw.ord, Raw.scp, Raw.x]
    all_goals simp only [Order.ofCode_code, Scope.ofCode_code, tileOf_code, mdO_ord, mdO_scp, mdO_x]
    all_goals simp

theorem Encoding.mfenNoarrive (h : Hdr) (scp : Scope) :
    Encoding.Statement (.mfenNoarrive h scp) := by
  intro hw
  · refine round _ ({ word h 0xA 11 with md := mdO .acq scp 1 }) rfl rfl hw rfl ?_
    show some (if Raw.x _ = 1 then Instr.mfenNoarrive _ _ else _) = _
    all_goals simp only [word, Raw.hdr_mk, Raw.scp, Raw.x]
    all_goals simp only [Scope.ofCode_code, mdO_scp, mdO_x]
    all_goals simp

theorem Encoding.mig (h : Hdr) (d : SReg) (base : Option SReg) (idx : Option VSrc) (off : Byte) (j : Word32) :
    Encoding.Statement (.mig h d base idx off j) := by
  intro hw
  · refine round _ (({ word h 0xB 0 with d := SReg.code d, a := baseCode base, b := idxCode idx, c := off, md := mdG (0#1 ++ BitVec.ofBool idx.isNone ++ BitVec.ofBool base.isNone) }).imm96 (j)) rfl rfl hw (extOk_imm96 _ _) ?_
    show some (Instr.mig _ _ _ _ _ _) = _
    all_goals simp only [word, Raw.hdr_mk, Raw.imm96, Raw.imm32, Raw.base, Raw.idx, Raw.xop]
    all_goals simp only [sregOf_code, imm32_setWidth, mdG_bit0, mdG_bit1, bits3_0, bits3_1, base_code, idx_code, mdG_xop]
    all_goals simp

theorem Encoding.home (h : Hdr) :
    Encoding.Statement (.home h) := by
  intro hw
  · refine round _ (word h 0xB 1) rfl rfl hw rfl ?_
    show some (Instr.home _) = _
    all_goals simp only [word, Raw.hdr_mk]
    all_goals simp only []
    all_goals simp

theorem Encoding.migset (h : Hdr) (part : MigPart) (wb : Bool) (mask : Word64) :
    Encoding.Statement (.migset h part wb mask) := by
  intro hw
  rcases part with _ | _ | _ | _ | _
  · refine round _ (({ word h 0xB 2 with c := (BitVec.ofBool wb).setWidth 8, md := mdG MigPart.v0.code }).imm128 (mask)) rfl rfl hw rfl ?_
    show some (Instr.migset _ _ _ _) = _
    all_goals simp only [word, Raw.hdr_mk, Raw.imm128, Raw.xop]
    all_goals simp only [MigPart.ofCode_code, mdG_xop, mdG_bit0]
    all_goals simp
  · refine round _ (({ word h 0xB 2 with c := (BitVec.ofBool wb).setWidth 8, md := mdG MigPart.v1.code }).imm128 (mask)) rfl rfl hw rfl ?_
    show some (Instr.migset _ _ _ _) = _
    all_goals simp only [word, Raw.hdr_mk, Raw.imm128, Raw.xop]
    all_goals simp only [MigPart.ofCode_code, mdG_xop, mdG_bit0]
    all_goals simp
  · refine round _ (({ word h 0xB 2 with c := (BitVec.ofBool wb).setWidth 8, md := mdG MigPart.v2.code }).imm128 (mask)) rfl rfl hw rfl ?_
    show some (Instr.migset _ _ _ _) = _
    all_goals simp only [word, Raw.hdr_mk, Raw.imm128, Raw.xop]
    all_goals simp only [MigPart.ofCode_code, mdG_xop, mdG_bit0]
    all_goals simp
  · refine round _ (({ word h 0xB 2 with c := (BitVec.ofBool wb).setWidth 8, md := mdG MigPart.s.code }).imm128 (mask)) rfl rfl hw rfl ?_
    show some (Instr.migset _ _ _ _) = _
    all_goals simp only [word, Raw.hdr_mk, Raw.imm128, Raw.xop]
    all_goals simp only [MigPart.ofCode_code, mdG_xop, mdG_bit0]
    all_goals simp
  · refine round _ (({ word h 0xB 2 with c := (BitVec.ofBool wb).setWidth 8, md := mdG MigPart.p.code }).imm128 (mask)) rfl rfl hw rfl ?_
    show some (Instr.migset _ _ _ _) = _
    all_goals simp only [word, Raw.hdr_mk, Raw.imm128, Raw.xop]
    all_goals simp only [MigPart.ofCode_code, mdG_xop, mdG_bit0]
    all_goals simp

theorem Encoding.migsetHome (h : Hdr) (j : Word32) :
    Encoding.Statement (.migsetHome h j) := by
  intro hw
  · refine round _ (({ word h 0xB 2 with md := 5 }).imm96 (j)) rfl rfl hw (extOk_imm96 _ _) ?_
    show some (Instr.migsetHome _ _) = _
    all_goals simp only [word, Raw.hdr_mk, Raw.imm96, Raw.imm32]
    all_goals simp only [imm32_setWidth]
    all_goals simp

theorem Encoding.migq (h : Hdr) (w : MigqWhat) (d : SReg) :
    Encoding.Statement (.migq h w d) := by
  intro hw
  · refine round _ ({ word h 0xB 3 with d := SReg.code d, md := mdG w.code }) rfl rfl hw rfl ?_
    show some (Instr.migq _ _ _) = _
    all_goals simp only [word, Raw.hdr_mk, Raw.xop]
    all_goals simp only [MigqWhat.ofCode_code, sregOf_code, mdG_xop, mdG_bit0]
    all_goals simp

theorem Encoding.bsadd (h : Hdr) (sat : Bool) (d : SReg) (a : SReg) (b : SReg) (c : SReg) (wa : BitVec 4) (wb : BitVec 4) (wd : BitVec 4) (sg : Bool) :
    Encoding.Statement (.bsadd h sat d a b c wa wb wd sg) := by
  intro hw
  · refine round _ (({ word h 0xB 4 with d := SReg.code d, a := SReg.code a, b := SReg.code b, c := SReg.code c, md := mdA .rne sat false 0 }).imm96 (bsImm wa wb wd sg)) rfl rfl hw (extOk_imm96 _ _) ?_
    show some (Instr.bsadd _ _ _ _ _ _ _ _ _ _) = _
    all_goals simp only [word, Raw.hdr_mk, Raw.imm96, Raw.imm32, Raw.sat]
    all_goals simp only [sregOf_code, imm32_setWidth, bsImm_wa, bsImm_wb, bsImm_wd, bsImm_sg, mdA_sat]
    all_goals simp

theorem Encoding.bsmul (h : Hdr) (sat : Bool) (d : SReg) (a : SReg) (b : SReg) (c : SReg) (wa : BitVec 4) (wb : BitVec 4) (wd : BitVec 4) (sg : Bool) :
    Encoding.Statement (.bsmul h sat d a b c wa wb wd sg) := by
  intro hw
  · refine round _ (({ word h 0xB 5 with d := SReg.code d, a := SReg.code a, b := SReg.code b, c := SReg.code c, md := mdA .rne sat false 0 }).imm96 (bsImm wa wb wd sg)) rfl rfl hw (extOk_imm96 _ _) ?_
    show some (Instr.bsmul _ _ _ _ _ _ _ _ _ _) = _
    all_goals simp only [word, Raw.hdr_mk, Raw.imm96, Raw.imm32, Raw.sat]
    all_goals simp only [sregOf_code, imm32_setWidth, bsImm_wa, bsImm_wb, bsImm_wd, bsImm_sg, mdA_sat]
    all_goals simp

theorem Encoding.bsmac (h : Hdr) (sat : Bool) (d : SReg) (a : SReg) (b : SReg) (c : SReg) (wa : BitVec 4) (wb : BitVec 4) (wd : BitVec 4) (sg : Bool) :
    Encoding.Statement (.bsmac h sat d a b c wa wb wd sg) := by
  intro hw
  · refine round _ (({ word h 0xB 6 with d := SReg.code d, a := SReg.code a, b := SReg.code b, c := SReg.code c, md := mdA .rne sat false 0 }).imm96 (bsImm wa wb wd sg)) rfl rfl hw (extOk_imm96 _ _) ?_
    show some (Instr.bsmac _ _ _ _ _ _ _ _ _ _) = _
    all_goals simp only [word, Raw.hdr_mk, Raw.imm96, Raw.imm32, Raw.sat]
    all_goals simp only [sregOf_code, imm32_setWidth, bsImm_wa, bsImm_wb, bsImm_wd, bsImm_sg, mdA_sat]
    all_goals simp

theorem Encoding.bscmp (h : Hdr) (cond : Cond) (d : SReg) (a : SReg) (b : SReg) (c : SReg) (wa : BitVec 4) (wb : BitVec 4) (wd : BitVec 4) (sg : Bool) :
    Encoding.Statement (.bscmp h cond d a b c wa wb wd sg) := by
  intro hw
  · refine round _ (({ word h 0xB 7 with d := SReg.code d, a := SReg.code a, b := SReg.code b, c := SReg.code c, md := mdA .rne false false cond.code }).imm96 (bsImm wa wb wd sg)) rfl rfl hw (extOk_imm96 _ _) ?_
    show some (Instr.bscmp _ _ _ _ _ _ _ _ _ _) = _
    all_goals simp only [word, Raw.hdr_mk, Raw.imm96, Raw.imm32, Raw.xop]
    all_goals simp only [Cond.ofCode_code, sregOf_code, imm32_setWidth, bsImm_wa, bsImm_wb, bsImm_wd, bsImm_sg, mdA_xop]
    all_goals simp

theorem Encoding.bspopc (h : Hdr) (d : SReg) (a : SReg) (c : SReg) (wa : BitVec 4) (sg : Bool) :
    Encoding.Statement (.bspopc h d a c wa sg) := by
  intro hw
  · refine round _ (({ word h 0xB 8 with d := SReg.code d, a := SReg.code a, c := SReg.code c }).imm96 (bsImm wa 0 0 sg)) rfl rfl hw (extOk_imm96 _ _) ?_
    show some (Instr.bspopc _ _ _ _ _ _) = _
    all_goals simp only [word, Raw.hdr_mk, Raw.imm96, Raw.imm32]
    all_goals simp only [sregOf_code, imm32_setWidth, bsImm_wa, bsImm_wb, bsImm_wd, bsImm_sg]
    all_goals simp

theorem Encoding.xsend (h : Hdr) (ord : Order) (scp : Scope) (d : SReg) (a : VReg) (b : SReg) (c : SReg) :
    Encoding.Statement (.xsend h ord scp d a b c) := by
  intro hw
  · refine round _ ({ word h 0xC 0 with d := SReg.code d, a := VReg.code a, b := SReg.code b, c := SReg.code c, md := mdO ord scp 0 }) rfl rfl hw rfl ?_
    show some (if Raw.x _ = 1 then _ else Instr.xsend _ _ _ _ _ _ _) = _
    all_goals simp only [word, Raw.hdr_mk, Raw.ord, Raw.scp, Raw.x]
    all_goals simp only [Order.ofCode_code, Scope.ofCode_code, vregOf_code, sregOf_code, mdO_ord, mdO_scp, mdO_x]
    all_goals simp

theorem Encoding.xsendNobar (h : Hdr) (ord : Order) (scp : Scope) (a : VReg) (b : SReg) (c : SReg) :
    Encoding.Statement (.xsendNobar h ord scp a b c) := by
  intro hw
  · refine round _ ({ word h 0xC 0 with a := VReg.code a, b := SReg.code b, c := SReg.code c, md := mdO ord scp 1 }) rfl rfl hw rfl ?_
    show some (if Raw.x _ = 1 then Instr.xsendNobar _ _ _ _ _ _ else _) = _
    all_goals simp only [word, Raw.hdr_mk, Raw.ord, Raw.scp, Raw.x]
    all_goals simp only [Order.ofCode_code, Scope.ofCode_code, vregOf_code, sregOf_code, mdO_ord, mdO_scp, mdO_x]
    all_goals simp

theorem Encoding.xsendf (h : Hdr) (ord : Order) (scp : Scope) (d : SReg) (a : VReg) (b : SReg) (c : SReg) :
    Encoding.Statement (.xsendf h ord scp d a b c) := by
  intro hw
  · refine round _ ({ word h 0xC 1 with d := SReg.code d, a := VReg.code a, b := SReg.code b, c := SReg.code c, md := mdO ord scp 0 }) rfl rfl hw rfl ?_
    show some (Instr.xsendf _ _ _ _ _ _ _) = _
    all_goals simp only [word, Raw.hdr_mk, Raw.ord, Raw.scp]
    all_goals simp only [Order.ofCode_code, Scope.ofCode_code, vregOf_code, sregOf_code, mdO_ord, mdO_scp]
    all_goals simp

theorem Encoding.xget (h : Hdr) (ty : Ty) (ord : Order) (scp : Scope) (d : VReg) (a : VSrc) (b : VSrc) :
    Encoding.Statement (.xget h ty ord scp d a b) := by
  intro hw
  · refine round _ ({ word h 0xC 2 with d := VReg.code d, a := a.code, b := b.code, ty := ty.code, md := mdO ord scp 0 }) rfl rfl hw rfl ?_
    show some (Instr.xget _ _ _ _ _ _ _) = _
    all_goals simp only [word, Raw.hdr_mk, Raw.t, Raw.ord, Raw.scp]
    all_goals simp only [Ty.ofCode_code, Order.ofCode_code, Scope.ofCode_code, vregOf_code, vsrcOf_code, mdO_ord, mdO_scp]
    all_goals simp

theorem Encoding.xatom (h : Hdr) (ty : Ty) (op : AtomOp) (ord : Order) (scp : Scope) (d : VReg) (a : VSrc) (b : VSrc) (c : VSrc) :
    Encoding.Statement (.xatom h ty op ord scp d a b c) := by
  intro hw
  · refine round _ ({ word h 0xC 3 with d := VReg.code d, a := a.code, b := b.code, c := c.code, ty := ty.code, md := mdO ord scp op.code }) rfl rfl hw rfl ?_
    show some (Instr.xatom _ _ _ _ _ _ _ _ _) = _
    all_goals simp only [word, Raw.hdr_mk, Raw.t, Raw.ord, Raw.scp, Raw.xop]
    all_goals simp only [Ty.ofCode_code, Order.ofCode_code, Scope.ofCode_code, AtomOp.ofCode_code, vregOf_code, vsrcOf_code, mdO_ord, mdO_scp, mdO_xop]
    all_goals simp

theorem Encoding.xmcast (h : Hdr) (ord : Order) (scp : Scope) (d : SReg) (a : SReg) (b : SReg) (g : Byte) (len : BitVec 3) (slot : BSlot) (bv : Bool) :
    Encoding.Statement (.xmcast h ord scp d a b g len slot bv) := by
  intro hw
  · refine round _ (({ word h 0xC 4 with d := SReg.code d, a := SReg.code a, b := SReg.code b, md := mdO ord scp 0 }).imm96 (0#14 ++ BitVec.ofBool bv ++ BitVec.ofNat 6 slot.val ++ len ++ g)) rfl rfl hw (extOk_imm96 _ _) ?_
    show some (Instr.xmcast _ _ _ _ _ _ _ _ _ _) = _
    all_goals simp only [word, Raw.hdr_mk, Raw.imm96, Raw.imm32, Raw.ord, Raw.scp]
    all_goals simp only [Order.ofCode_code, Scope.ofCode_code, sregOf_code, imm32_setWidth, mdO_ord, mdO_scp, xmcast_g, xmcast_len, xmcast_slot, xmcast_bv, toFin_ofNat6]
    all_goals simp

theorem Encoding.xfence (h : Hdr) (scp : Scope) :
    Encoding.Statement (.xfence h scp) := by
  intro hw
  · refine round _ ({ word h 0xC 5 with md := mdO .rlx scp 0 }) rfl rfl hw rfl ?_
    show some (Instr.xfence _ _) = _
    all_goals simp only [word, Raw.hdr_mk, Raw.scp]
    all_goals simp only [Scope.ofCode_code, mdO_scp]
    all_goals simp

theorem Encoding.xred (h : Hdr) (ty : Ty) (srnd : Bool) (ord : Order) (scp : Scope) (d : SReg) (a : SReg) (b : SReg) (c : SReg) :
    Encoding.Statement (.xred h ty srnd ord scp d a b c) := by
  intro hw
  · refine round _ ({ word h 0xC 6 with d := SReg.code d, a := SReg.code a, b := SReg.code b, c := SReg.code c, ty := ty.code, md := mdO ord scp (0#2 ++ BitVec.ofBool srnd) }) rfl rfl hw rfl ?_
    show some (Instr.xred _ _ _ _ _ _ _ _ _) = _
    all_goals simp only [word, Raw.hdr_mk, Raw.t, Raw.ord, Raw.scp]
    all_goals simp only [Ty.ofCode_code, Order.ofCode_code, Scope.ofCode_code, sregOf_code, mdO_ord, mdO_scp, mdO_bit0, bit0_21]
    all_goals simp

theorem Encoding.xresid (h : Hdr) (op : ResidOp) :
    Encoding.Statement (.xresid h op) := by
  intro hw
  rcases op with ⟨d1, a1, c1⟩ | ⟨a1, c1⟩ | ⟨a1, b1, c1⟩
  · refine round _ ({ word h 0xC 7 with d := SReg.code d1, a := SReg.code a1, c := SReg.code c1 }) rfl rfl hw rfl ?_
    show some (Instr.xresid _ _) = _
    all_goals simp only [word, Raw.hdr_mk, Raw.x]
    all_goals simp only [sregOf_code]
    all_goals simp
  · refine round _ ({ word h 0xC 7 with a := SReg.code a1, c := SReg.code c1, md := 1 }) rfl rfl hw rfl ?_
    show some (Instr.xresid _ _) = _
    all_goals simp only [word, Raw.hdr_mk, Raw.x]
    all_goals simp only [sregOf_code]
    all_goals simp
  · refine round _ ({ word h 0xC 7 with a := SReg.code a1, b := SReg.code b1, c := SReg.code c1, md := 2 }) rfl rfl hw rfl ?_
    show some (Instr.xresid _ _) = _
    all_goals simp only [word, Raw.hdr_mk, Raw.x]
    all_goals simp only [sregOf_code]
    all_goals simp

theorem Encoding.xgrpSet (h : Hdr) (g : Byte) (a : SReg) :
    Encoding.Statement (.xgrpSet h g a) := by
  intro hw
  · refine round _ ({ word h 0xC 8 with a := SReg.code a, c := g }) rfl rfl hw rfl ?_
    show some (Instr.xgrpSet _ _ _) = _
    all_goals simp only [word, Raw.hdr_mk]
    all_goals simp only [sregOf_code]
    all_goals simp

theorem Encoding.xgrpGet (h : Hdr) (g : Byte) (a : SReg) :
    Encoding.Statement (.xgrpGet h g a) := by
  intro hw
  · refine round _ ({ word h 0xC 8 with a := SReg.code a, c := g, md := 1 }) rfl rfl hw rfl ?_
    show some (Instr.xgrpGet _ _ _) = _
    all_goals simp only [word, Raw.hdr_mk]
    all_goals simp only [sregOf_code]
    all_goals simp

theorem Encoding.lnch (h : Hdr) (d : SReg) (a : SReg) :
    Encoding.Statement (.lnch h d a) := by
  intro hw
  · refine round _ ({ word h 0xD 0 with d := SReg.code d, a := SReg.code a }) rfl rfl hw rfl ?_
    show some (Instr.lnch _ _ _) = _
    all_goals simp only [word, Raw.hdr_mk]
    all_goals simp only [sregOf_code]
    all_goals simp

theorem Encoding.larm (h : Hdr) (d : SReg) (a : SReg) (b : BSlot) :
    Encoding.Statement (.larm h d a b) := by
  intro hw
  · refine round _ ({ word h 0xD 1 with d := SReg.code d, a := SReg.code a, b := Tile.code b }) rfl rfl hw rfl ?_
    show some (Instr.larm _ _ _ _) = _
    all_goals simp only [word, Raw.hdr_mk]
    all_goals simp only [sregOf_code, tileOf_code]
    all_goals simp

theorem Encoding.ldep (h : Hdr) (a : SReg) :
    Encoding.Statement (.ldep h a) := by
  intro hw
  · refine round _ ({ word h 0xD 2 with a := SReg.code a }) rfl rfl hw rfl ?_
    show some (Instr.ldep _ _) = _
    all_goals simp only [word, Raw.hdr_mk]
    all_goals simp only [sregOf_code]
    all_goals simp

theorem Encoding.lprio (h : Hdr) (a : SReg) (b : SReg) :
    Encoding.Statement (.lprio h a b) := by
  intro hw
  · refine round _ ({ word h 0xD 3 with a := SReg.code a, b := SReg.code b }) rfl rfl hw rfl ?_
    show some (Instr.lprio _ _ _) = _
    all_goals simp only [word, Raw.hdr_mk]
    all_goals simp only [sregOf_code]
    all_goals simp

theorem Encoding.lwait (h : Hdr) (d : SReg) (a : SReg) :
    Encoding.Statement (.lwait h d a) := by
  intro hw
  · refine round _ ({ word h 0xD 4 with d := SReg.code d, a := SReg.code a }) rfl rfl hw rfl ?_
    show some (Instr.lwait _ _ _) = _
    all_goals simp only [word, Raw.hdr_mk]
    all_goals simp only [sregOf_code]
    all_goals simp

theorem Encoding.rrset (h : Hdr) (a : SReg) (b : SReg) (c : SReg) (own : Bool) (ctx : BitVec 10) (n : BitVec 4) :
    Encoding.Statement (.rrset h a b c own ctx n) := by
  intro hw
  · refine round _ (({ word h 0xE 0 with a := SReg.code a, b := SReg.code b, c := SReg.code c }).imm96 (0#17 ++ BitVec.ofBool own ++ ctx ++ n)) rfl rfl hw (extOk_imm96 _ _) ?_
    show some (Instr.rrset _ _ _ _ _ _ _) = _
    all_goals simp only [word, Raw.hdr_mk, Raw.imm96, Raw.imm32]
    all_goals simp only [sregOf_code, imm32_setWidth, rrset_own, rrset_ctx, rrset_n]
    all_goals simp

theorem Encoding.rrinv (h : Hdr) (own : Bool) (ctx : BitVec 10) (mask : BitVec 16) :
    Encoding.Statement (.rrinv h own ctx mask) := by
  intro hw
  · refine round _ ((word h 0xE 1).imm96 (0#5 ++ BitVec.ofBool own ++ ctx ++ mask)) rfl rfl hw (extOk_imm96 _ _) ?_
    show some (Instr.rrinv _ _ _ _) = _
    all_goals simp only [word, Raw.hdr_mk, Raw.imm96, Raw.imm32]
    all_goals simp only [imm32_setWidth, rrinv_own, rrinv_ctx, rrinv_mask]
    all_goals simp

theorem Encoding.pginv (h : Hdr) (a : SReg) (b : SReg) :
    Encoding.Statement (.pginv h a b) := by
  intro hw
  · refine round _ ({ word h 0xE 2 with a := SReg.code a, b := SReg.code b }) rfl rfl hw rfl ?_
    show some (Instr.pginv _ _ _) = _
    all_goals simp only [word, Raw.hdr_mk]
    all_goals simp only [sregOf_code]
    all_goals simp

theorem Encoding.pginvMod (h : Hdr) (a : SReg) :
    Encoding.Statement (.pginvMod h a) := by
  intro hw
  · refine round _ ({ word h 0xE 2 with a := SReg.code a, md := 1 }) rfl rfl hw rfl ?_
    show some (Instr.pginvMod _ _) = _
    all_goals simp only [word, Raw.hdr_mk]
    all_goals simp only [sregOf_code]
    all_goals simp

theorem Encoding.wcsld (h : Hdr) (a : SReg) (m : Fin 64) (n : BitVec 5) :
    Encoding.Statement (.wcsld h a m n) := by
  intro hw
  · refine round _ (({ word h 0xE 3 with a := SReg.code a }).imm96 (0#19 ++ n ++ 0#2 ++ BitVec.ofNat 6 m.val)) rfl rfl hw (extOk_imm96 _ _) ?_
    show some (Instr.wcsld _ _ _ _) = _
    all_goals simp only [word, Raw.hdr_mk, Raw.imm96, Raw.imm32]
    all_goals simp only [sregOf_code, imm32_setWidth, wcsld_m, wcsld_n, toFin_ofNat6]
    all_goals simp

theorem Encoding.wcsldAll (h : Hdr) (a : SReg) (m : Fin 64) (n : BitVec 5) :
    Encoding.Statement (.wcsldAll h a m n) := by
  intro hw
  · refine round _ (({ word h 0xE 3 with a := SReg.code a, md := 1 }).imm96 (0#19 ++ n ++ 0#2 ++ BitVec.ofNat 6 m.val)) rfl rfl hw (extOk_imm96 _ _) ?_
    show some (Instr.wcsldAll _ _ _ _) = _
    all_goals simp only [word, Raw.hdr_mk, Raw.imm96, Raw.imm32]
    all_goals simp only [sregOf_code, imm32_setWidth, wcsld_m, wcsld_n, toFin_ofNat6]
    all_goals simp

theorem Encoding.evpost (h : Hdr) (a : SReg) (b : SReg) (c : SReg) :
    Encoding.Statement (.evpost h a b c) := by
  intro hw
  · refine round _ ({ word h 0xE 4 with a := SReg.code a, b := SReg.code b, c := SReg.code c }) rfl rfl hw rfl ?_
    show some (Instr.evpost _ _ _ _) = _
    all_goals simp only [word, Raw.hdr_mk]
    all_goals simp only [sregOf_code]
    all_goals simp

theorem Encoding.preq (h : Hdr) (d : SReg) (a : SReg) :
    Encoding.Statement (.preq h d a) := by
  intro hw
  · refine round _ ({ word h 0xE 5 with d := SReg.code d, a := SReg.code a }) rfl rfl hw rfl ?_
    show some (Instr.preq _ _ _) = _
    all_goals simp only [word, Raw.hdr_mk]
    all_goals simp only [sregOf_code]
    all_goals simp

theorem Encoding.preqRel (h : Hdr) (a : SReg) :
    Encoding.Statement (.preqRel h a) := by
  intro hw
  · refine round _ ({ word h 0xE 5 with a := SReg.code a, md := 1 }) rfl rfl hw rfl ?_
    show some (Instr.preqRel _ _) = _
    all_goals simp only [word, Raw.hdr_mk]
    all_goals simp only [sregOf_code]
    all_goals simp

theorem Encoding.dbgrd (h : Hdr) (w : DbgWhat) (d : SReg) (a : SReg) :
    Encoding.Statement (.dbgrd h w d a) := by
  intro hw
  · refine round _ ({ word h 0xE 6 with d := SReg.code d, a := SReg.code a, md := mdG w.code }) rfl rfl hw rfl ?_
    show some (Instr.dbgrd _ _ _ _) = _
    all_goals simp only [word, Raw.hdr_mk, Raw.xop]
    all_goals simp only [DbgWhat.ofCode_code, sregOf_code, mdG_xop, mdG_bit0]
    all_goals simp

theorem Encoding.gensweep (h : Hdr) :
    Encoding.Statement (.gensweep h) := by
  intro hw
  · refine round _ (word h 0xE 7) rfl rfl hw rfl ?_
    show some (Instr.gensweep _) = _
    all_goals simp only [word, Raw.hdr_mk]
    all_goals simp only []
    all_goals simp

theorem Encoding.gensweepSlice (h : Hdr) :
    Encoding.Statement (.gensweepSlice h) := by
  intro hw
  · refine round _ ({ word h 0xE 7 with md := 1 }) rfl rfl hw rfl ?_
    show some (Instr.gensweepSlice _) = _
    all_goals simp only [word, Raw.hdr_mk]
    all_goals simp only []
    all_goals simp

theorem Encoding.loadLaneReturn (p : Place) (id : Nat) (lane : Nat) :
    Encoding.Statement (.loadLaneReturn p id lane) :=
  fun hw => nomatch (show false = true from hw)

theorem Encoding.memoryFaultSettle (p : Place) (b : Bool) :
    Encoding.Statement (.memoryFaultSettle p b) :=
  fun hw => nomatch (show false = true from hw)

theorem Encoding.trapEntry (p : Place) (b : Bool) :
    Encoding.Statement (.trapEntry p b) :=
  fun hw => nomatch (show false = true from hw)

theorem Encoding.extendedBlockGrant (core : Nat) :
    Encoding.Statement (.extendedBlockGrant core) :=
  fun hw => nomatch (show false = true from hw)

theorem Encoding.compactorMove (core : Nat) :
    Encoding.Statement (.compactorMove core) :=
  fun hw => nomatch (show false = true from hw)

theorem Encoding.compactorMoveDone (core : Nat) :
    Encoding.Statement (.compactorMoveDone core) :=
  fun hw => nomatch (show false = true from hw)

theorem Encoding.sweeperPassEnd (slice : Bool) (n : Nat) :
    Encoding.Statement (.sweeperPassEnd slice n) :=
  fun hw => nomatch (show false = true from hw)

theorem Encoding.submissionWrite (ctx : Nat) (off : Nat) (data : List Byte) :
    Encoding.Statement (.submissionWrite ctx off data) :=
  fun hw => nomatch (show false = true from hw)

theorem Encoding.orreryAdmit  :
    Encoding.Statement (.orreryAdmit) :=
  fun hw => nomatch (show false = true from hw)

theorem Encoding.spanPlacement  :
    Encoding.Statement (.spanPlacement) :=
  fun hw => nomatch (show false = true from hw)

theorem Encoding.crewRetire (crew : Nat) :
    Encoding.Statement (.crewRetire crew) :=
  fun hw => nomatch (show false = true from hw)

theorem Encoding.preemptionWaitExpiry (launch : Nat) :
    Encoding.Statement (.preemptionWaitExpiry launch) :=
  fun hw => nomatch (show false = true from hw)

theorem Encoding.spanSave (span : Nat) :
    Encoding.Statement (.spanSave span) :=
  fun hw => nomatch (show false = true from hw)

theorem Encoding.spanRestore (span : Nat) :
    Encoding.Statement (.spanRestore span) :=
  fun hw => nomatch (show false = true from hw)

theorem Encoding.recallTimeout (p : Place) :
    Encoding.Statement (.recallTimeout p) :=
  fun hw => nomatch (show false = true from hw)

theorem Encoding.chunkSend (core : Nat) :
    Encoding.Statement (.chunkSend core) :=
  fun hw => nomatch (show false = true from hw)

theorem Encoding.chunkArrival (id : Nat) :
    Encoding.Statement (.chunkArrival id) :=
  fun hw => nomatch (show false = true from hw)

theorem Encoding.matrixCommandExecute (core : Nat) :
    Encoding.Statement (.matrixCommandExecute core) :=
  fun hw => nomatch (show false = true from hw)

theorem Encoding.matrixCommandComplete (core : Nat) :
    Encoding.Statement (.matrixCommandComplete core) :=
  fun hw => nomatch (show false = true from hw)

theorem Encoding.matrixBurstEnd (core : Nat) :
    Encoding.Statement (.matrixBurstEnd core) :=
  fun hw => nomatch (show false = true from hw)

theorem Encoding.permitGrant (power : Nat) :
    Encoding.Statement (.permitGrant power) :=
  fun hw => nomatch (show false = true from hw)

theorem Encoding.moduleRoomReport (m : Nat) :
    Encoding.Statement (.moduleRoomReport m) :=
  fun hw => nomatch (show false = true from hw)

theorem Encoding.reservationExpiry (ctx : Nat) (num : Nat) :
    Encoding.Statement (.reservationExpiry ctx num) :=
  fun hw => nomatch (show false = true from hw)

theorem Encoding.eventQueueRecheck  :
    Encoding.Statement (.eventQueueRecheck) :=
  fun hw => nomatch (show false = true from hw)

theorem Encoding.continuationDepart (id : Nat) :
    Encoding.Statement (.continuationDepart id) :=
  fun hw => nomatch (show false = true from hw)

theorem Encoding.continuationArrival (id : Nat) :
    Encoding.Statement (.continuationArrival id) :=
  fun hw => nomatch (show false = true from hw)

theorem Encoding.migrationReturn (id : Nat) :
    Encoding.Statement (.migrationReturn id) :=
  fun hw => nomatch (show false = true from hw)

theorem Encoding.frameSend (fibre : Nat) :
    Encoding.Statement (.frameSend fibre) :=
  fun hw => nomatch (show false = true from hw)

theorem Encoding.frameWrite (fibre : Nat) (f : Frame) :
    Encoding.Statement (.frameWrite fibre f) :=
  fun hw => nomatch (show false = true from hw)

theorem Encoding.frameReadRequest (fibre : Nat) (f : Frame) :
    Encoding.Statement (.frameReadRequest fibre f) :=
  fun hw => nomatch (show false = true from hw)

theorem Encoding.frameReadResponse (fibre : Nat) (f : Frame) :
    Encoding.Statement (.frameReadResponse fibre f) :=
  fun hw => nomatch (show false = true from hw)

theorem Encoding.frameAtomicRequest (fibre : Nat) (f : Frame) :
    Encoding.Statement (.frameAtomicRequest fibre f) :=
  fun hw => nomatch (show false = true from hw)

theorem Encoding.frameAtomicResponse (fibre : Nat) (f : Frame) :
    Encoding.Statement (.frameAtomicResponse fibre f) :=
  fun hw => nomatch (show false = true from hw)

theorem Encoding.frameEndToEndAck (fibre : Nat) (f : Frame) :
    Encoding.Statement (.frameEndToEndAck fibre f) :=
  fun hw => nomatch (show false = true from hw)

theorem Encoding.frameMulticast (fibre : Nat) (f : Frame) :
    Encoding.Statement (.frameMulticast fibre f) :=
  fun hw => nomatch (show false = true from hw)

theorem Encoding.frameIdle (fibre : Nat) (f : Frame) :
    Encoding.Statement (.frameIdle fibre f) :=
  fun hw => nomatch (show false = true from hw)

theorem Encoding.replayRequest (fibre : Nat) (f : Frame) :
    Encoding.Statement (.replayRequest fibre f) :=
  fun hw => nomatch (show false = true from hw)

theorem Encoding.frameModuleCompletion (fibre : Nat) (f : Frame) :
    Encoding.Statement (.frameModuleCompletion fibre f) :=
  fun hw => nomatch (show false = true from hw)

theorem Encoding.frameCorrupt (fibre : Nat) :
    Encoding.Statement (.frameCorrupt fibre) :=
  fun hw => nomatch (show false = true from hw)

theorem Encoding.replayTimeout (fibre : Nat) :
    Encoding.Statement (.replayTimeout fibre) :=
  fun hw => nomatch (show false = true from hw)

theorem Encoding.relayForward (id : Nat) :
    Encoding.Statement (.relayForward id) :=
  fun hw => nomatch (show false = true from hw)

theorem Encoding.relayLossTimeout (peer : Nat) :
    Encoding.Statement (.relayLossTimeout peer) :=
  fun hw => nomatch (show false = true from hw)

theorem Encoding.multicastMemberTimeout (xid : Nat) (child : Nat) :
    Encoding.Statement (.multicastMemberTimeout xid child) :=
  fun hw => nomatch (show false = true from hw)

theorem Encoding.rotorSlotBoundary (plane : Nat) :
    Encoding.Statement (.rotorSlotBoundary plane) :=
  fun hw => nomatch (show false = true from hw)

theorem Encoding.guardBeacon (plane : Nat) (cycle : Nat) (slot : Nat) (domain : Nat) :
    Encoding.Statement (.guardBeacon plane cycle slot domain) :=
  fun hw => nomatch (show false = true from hw)

theorem Encoding.rotorPlaneFailure (plane : Nat) (offset : Option Nat) :
    Encoding.Statement (.rotorPlaneFailure plane offset) :=
  fun hw => nomatch (show false = true from hw)

theorem Encoding.rotorPlaneRestore (plane : Nat) (offset : Option Nat) :
    Encoding.Statement (.rotorPlaneRestore plane offset) :=
  fun hw => nomatch (show false = true from hw)

theorem Encoding.wavelengthWindowEnd (fibre : Nat) (wl : Nat) (corrected : Nat) :
    Encoding.Statement (.wavelengthWindowEnd fibre wl corrected) :=
  fun hw => nomatch (show false = true from hw)

theorem Encoding.uncorrectableCodeword (fibre : Nat) (group : Nat) :
    Encoding.Statement (.uncorrectableCodeword fibre group) :=
  fun hw => nomatch (show false = true from hw)

theorem Encoding.lossOfLock (fibre : Nat) (wl : Nat) :
    Encoding.Statement (.lossOfLock fibre wl) :=
  fun hw => nomatch (show false = true from hw)

theorem Encoding.erasureDeclare (fibre : Nat) (wl : Nat) :
    Encoding.Statement (.erasureDeclare fibre wl) :=
  fun hw => nomatch (show false = true from hw)

theorem Encoding.linkEscalation (fibre : Nat) (group : Nat) :
    Encoding.Statement (.linkEscalation fibre group) :=
  fun hw => nomatch (show false = true from hw)

theorem Encoding.retrainSlot (fibre : Nat) (group : Nat) (lit : Bool) :
    Encoding.Statement (.retrainSlot fibre group lit) :=
  fun hw => nomatch (show false = true from hw)

theorem Encoding.forcedRetrain (fibre : Nat) (group : Nat) :
    Encoding.Statement (.forcedRetrain fibre group) :=
  fun hw => nomatch (show false = true from hw)

theorem Encoding.forcedRetrainEnd (fibre : Nat) (group : Nat) (ok : Bool) :
    Encoding.Statement (.forcedRetrainEnd fibre group ok) :=
  fun hw => nomatch (show false = true from hw)

theorem Encoding.laserAgeingThreshold (fibre : Nat) (wl : Nat) (rise : Nat) :
    Encoding.Statement (.laserAgeingThreshold fibre wl rise) :=
  fun hw => nomatch (show false = true from hw)

theorem Encoding.theodoliteWatchdogReset (engine : Nat) :
    Encoding.Statement (.theodoliteWatchdogReset engine) :=
  fun hw => nomatch (show false = true from hw)

theorem Encoding.theodoliteRecovered (engine : Nat) :
    Encoding.Statement (.theodoliteRecovered engine) :=
  fun hw => nomatch (show false = true from hw)

theorem Encoding.lrRetryTimeout (link : Nat) :
    Encoding.Statement (.lrRetryTimeout link) :=
  fun hw => nomatch (show false = true from hw)

theorem Encoding.lrAckTimeout (link : Nat) :
    Encoding.Statement (.lrAckTimeout link) :=
  fun hw => nomatch (show false = true from hw)

theorem Encoding.lrTrainingAttempt (link : Nat) (ok : Bool) :
    Encoding.Statement (.lrTrainingAttempt link ok) :=
  fun hw => nomatch (show false = true from hw)

theorem Encoding.lrLinkTrained (link : Nat) (keyHash : BitVec 256) (rtt : Nat) :
    Encoding.Statement (.lrLinkTrained link keyHash rtt) :=
  fun hw => nomatch (show false = true from hw)

theorem Encoding.lrLossDiscard (link : Nat) :
    Encoding.Statement (.lrLossDiscard link) :=
  fun hw => nomatch (show false = true from hw)

theorem Encoding.lrRekey (link : Nat) (out : Bool) :
    Encoding.Statement (.lrRekey link out) :=
  fun hw => nomatch (show false = true from hw)

theorem Encoding.lrDedupExpiry (link : Nat) (xid : BitVec 16) (daddr : BitVec 56) :
    Encoding.Statement (.lrDedupExpiry link xid daddr) :=
  fun hw => nomatch (show false = true from hw)

theorem Encoding.moduleFault (m : Nat) (sub : Nat) (addr : Nat) (unit : Nat) :
    Encoding.Statement (.moduleFault m sub addr unit) :=
  fun hw => nomatch (show false = true from hw)

theorem Encoding.moduleRecovered (m : Nat) :
    Encoding.Statement (.moduleRecovered m) :=
  fun hw => nomatch (show false = true from hw)

theorem Encoding.discardRelease (launch : Nat) :
    Encoding.Statement (.discardRelease launch) :=
  fun hw => nomatch (show false = true from hw)

theorem Encoding.thermalWarning (temp : Nat) :
    Encoding.Statement (.thermalWarning temp) :=
  fun hw => nomatch (show false = true from hw)

theorem Encoding.thermalThrottle (temp : Nat) :
    Encoding.Statement (.thermalThrottle temp) :=
  fun hw => nomatch (show false = true from hw)

theorem Encoding.thermalRecover (temp : Nat) :
    Encoding.Statement (.thermalRecover temp) :=
  fun hw => nomatch (show false = true from hw)

theorem Encoding.powerExcursion (power : Nat) :
    Encoding.Statement (.powerExcursion power) :=
  fun hw => nomatch (show false = true from hw)

theorem Encoding.thermalShutdown (temp : Nat) :
    Encoding.Statement (.thermalShutdown temp) :=
  fun hw => nomatch (show false = true from hw)

theorem Encoding.coldReset  :
    Encoding.Statement (.coldReset) :=
  fun hw => nomatch (show false = true from hw)

theorem Encoding.identityEntry  :
    Encoding.Statement (.identityEntry) :=
  fun hw => nomatch (show false = true from hw)

theorem Encoding.stateReqOptics  :
    Encoding.Statement (.stateReqOptics) :=
  fun hw => nomatch (show false = true from hw)

theorem Encoding.opticsTrainingDone (ok : Bool) :
    Encoding.Statement (.opticsTrainingDone ok) :=
  fun hw => nomatch (show false = true from hw)

theorem Encoding.stateReqMapped  :
    Encoding.Statement (.stateReqMapped) :=
  fun hw => nomatch (show false = true from hw)

theorem Encoding.stateReqOperational  :
    Encoding.Statement (.stateReqOperational) :=
  fun hw => nomatch (show false = true from hw)

theorem Encoding.ctxCreate (c : Nat) (w : Vector Word64 8) :
    Encoding.Statement (.ctxCreate c w) :=
  fun hw => nomatch (show false = true from hw)

theorem Encoding.ctxDelete (c : Nat) :
    Encoding.Statement (.ctxDelete c) :=
  fun hw => nomatch (show false = true from hw)

theorem Encoding.ctxPreSet (c : Nat) :
    Encoding.Statement (.ctxPreSet c) :=
  fun hw => nomatch (show false = true from hw)

theorem Encoding.ctxPreClear (c : Nat) :
    Encoding.Statement (.ctxPreClear c) :=
  fun hw => nomatch (show false = true from hw)

theorem Encoding.splitRequest (fibre : Nat) (n : Byte) :
    Encoding.Statement (.splitRequest fibre n) :=
  fun hw => nomatch (show false = true from hw)

theorem Encoding.invarCheckpoint  :
    Encoding.Statement (.invarCheckpoint) :=
  fun hw => nomatch (show false = true from hw)

theorem Encoding.checkpointDone (ok : Bool) (us : Nat) :
    Encoding.Statement (.checkpointDone ok us) :=
  fun hw => nomatch (show false = true from hw)

theorem Encoding.invarPersist  :
    Encoding.Statement (.invarPersist) :=
  fun hw => nomatch (show false = true from hw)

theorem Encoding.persistDone (ok : Bool) (us : Nat) :
    Encoding.Statement (.persistDone ok us) :=
  fun hw => nomatch (show false = true from hw)

theorem Encoding.invarRestore  :
    Encoding.Statement (.invarRestore) :=
  fun hw => nomatch (show false = true from hw)

theorem Encoding.restoreDone (ok : Bool) (us : Nat) :
    Encoding.Statement (.restoreDone ok us) :=
  fun hw => nomatch (show false = true from hw)

theorem Encoding.qctlSign  :
    Encoding.Statement (.qctlSign) :=
  fun hw => nomatch (show false = true from hw)

theorem Encoding.quoteReady  :
    Encoding.Statement (.quoteReady) :=
  fun hw => nomatch (show false = true from hw)

theorem Encoding.hostWindowRead (off : Nat) (n : Nat) :
    Encoding.Statement (.hostWindowRead off n) :=
  fun hw => nomatch (show false = true from hw)

theorem Encoding.hostWindowWrite (off : Nat) (data : List Byte) :
    Encoding.Statement (.hostWindowWrite off data) :=
  fun hw => nomatch (show false = true from hw)

theorem Encoding.registerWrite (off : Nat) (val : Word64) :
    Encoding.Statement (.registerWrite off val) :=
  fun hw => nomatch (show false = true from hw)

theorem Encoding.powerExcursionEnd (power : Nat) :
    Encoding.Statement (.powerExcursionEnd power) :=
  fun hw => nomatch (show false = true from hw)

theorem Encoding.firmwareStagingWrite (off : Nat) (data : List Byte) :
    Encoding.Statement (.firmwareStagingWrite off data) :=
  fun hw => nomatch (show false = true from hw)

end Sys2Proof.Laws
end

