-- ==== Sys2Proof/Tests/Slice0.lean ====
section
/-!
SUPPORT. Tests: words written out from the encodings of the spec, ill-formed terms, worked values of the spec's tables,
and a concrete state that meets the hypotheses of each statement, for every instruction and event.
-/

set_option linter.unusedSimpArgs false
set_option Elab.async false
set_option autoImplicit false
set_option maxRecDepth 20000
set_option exponentiation.threshold 600

namespace Sys2Proof.Tests

open Sys2Proof Sys2Proof.Machine Sys2Proof.Claims

/-- A header under p7: every lane. -/
def plain : Hdr := ⟨false, 7, false⟩

/-- A header under p0, which holds lane 0 alone in the states below. -/
def one : Hdr := ⟨false, 0, false⟩

/-! States. -/

/-- Range registers of package space, of peer space and of module space, with every permission. -/
def ranges : Vector (Word64 × Word64 × Word64) 16 :=
  (Vector.replicate 16 (0, 0, 0)).set 0 (0x3D, 0xFFFFF000, 0) |>.set 1 (0x000100000000013D, 0x0001FFFFFFFFF000, 0)
    |>.set 2 (0x008000000000003D, 0x00FFFFFFFFFFF000, 0)

def ctx0 : Ctx := { Ctx.init with v := true, priv := true, dbg := true, saveBase := 0x80010000, saveCnt := 4, rr := ranges }

def crew0 : Crew := { fetchCrew with units := 2, bar := 64, tiles := List.range 64 }

def sheaf0 : Sheaf :=
  { Sheaf.empty with launch := 1, baseGen := 3, srnd := 0x100000000, a := PcSlot.start 0x80000000 0xFFFFFFFF 63 }

/-- One sheaf at place 0 with its crew, span and launch, and one mapped module; p0 holds lane 0. -/
def base : State :=
  { State.reset with
    sliceUnits := [(0, 1)]
    coreUnits := [(0, 1), (1, 1)]
    pregs := [(0, ⟨1, 3⟩)]
    ctxs := [(0, ctx0)]
    launches := [(1, fetchLaunch)]
    spans := [(0, { fetchSpan with units := 1 })]
    crews := [(0, crew0)]
    sheaves := [(0, sheaf0)]
    nextLaunch := 2
    host := { HostPort.init with
      cur := 4
      pdbg := true
      modmap := (Vector.replicate 16 0).set 0 0x8000000000000000
      liveMap := (Vector.replicate 16 0).set 0 0x8000000000000000 } }

/-- Scalar registers of the sheaf hold these values. -/
def withS (l : List (Nat × Word64)) : State := { base with sregs := l.map fun p => (p.1, ⟨p.2, 3⟩) }

/-- The crew of the sheaf replaced. -/
def withCrew (c : Crew) : State := { base with crews := [(0, c)] }

/-! Statements that a concrete state decides. -/

theorem isOk_iff {ε α : Type} {e : Except ε α} : (∃ a, e = .ok a) ↔ e.toOption.isSome = true := by
  cases e <;> simp [Except.toOption]

theorem okThen_iff {ε α : Type} {e : Except ε α} {Q : α → Prop} [DecidablePred Q] :
    (∃ a, e = .ok a ∧ Q a) ↔ (e.toOption.any fun a => decide (Q a)) = true := by
  cases e <;> simp [Except.toOption]

theorem performs_of {p : Access.Plan} {x : Ex} {t : State} (h : ((List.range 32).all fun L => !x.exec.getLsbD L ||
    (p.lane L).toOption.any fun a => decide (t.fate x p.auto (p.va L) L (.ok a) = .here ∧
      (p.aligned = true → (BitVec.ofNat 56 a.ia).toNat % p.n = 0) ∧ (p.rd = true → t.strictStale a p.n = false) ∧
      t.laneBad p.rd p.n (.ok a) = [] ∧ (t.deviceOut x.k = true → t.effMt a = 2 → a.space.isPeer = true))) = true) :
    performs p x t := by
  intro L hL hx
  have h := List.all_eq_true.mp h L (List.mem_range.mpr hL)
  rw [hx] at h
  exact okThen_iff.mpr (by simpa using h)

theorem lanesOk_of {α : Type} {x : Ex} {f : Nat → Except Refused α} (h : ((List.range 32).all fun L => !x.exec.getLsbD L ||
    (f L).toOption.isSome) = true) :
    ∀ L, L < 32 → x.exec.getLsbD L = true → ∃ a, f L = .ok a := by
  intro L hL hx
  have h := List.all_eq_true.mp h L (List.mem_range.mpr hL)
  rw [hx] at h
  exact isOk_iff.mpr (by simpa using h)

/-- A place is in no module. -/
def outside (o : Access) : Bool := match o.space with
  | .mod _ _ => false
  | _ => true

theorem outside_ne {o : Access} (h : outside o = true) : ∀ m n, o.space ≠ .mod m n := by
  intro m n e
  simp [outside, e] at h

theorem notMod_of {e : Except Refused Access} (h : (e.toOption.any outside) = true) :
    ∃ q, e = .ok q ∧ ∀ m o, q.space ≠ .mod m o := by
  cases e with
  | error _ => simp [Except.toOption] at h
  | ok q => exact ⟨q, rfl, outside_ne h⟩

theorem lanesRead_of {x : Ex} {f : Nat → Except Refused Access} {Q : Access → Bool} (h : ((List.range 32).all fun L =>
    !x.exec.getLsbD L || (f L).toOption.any fun o => outside o && !Q o) = true) :
    ∀ L, L < 32 → x.exec.getLsbD L = true → ∃ o, f L = .ok o ∧ (∀ m n, o.space ≠ .mod m n) ∧ Q o = false := by
  intro L hL hx
  have h := List.all_eq_true.mp h L (List.mem_range.mpr hL)
  rw [hx] at h
  cases e : f L with
  | error _ => simp [e, Except.toOption] at h
  | ok q =>
    simp [e, Except.toOption] at h
    exact ⟨q, rfl, outside_ne h.1, h.2⟩

/-- The instruction issues in this state, and meets the condition of its entry. -/
def Meets (table : State → Instr → Option Form) (s : State) (i : Instr) : Prop :=
  ∃ F, table s i = some F ∧ i.wf = true ∧ s.issues i F.h F.c = true ∧ F.ok (s.ex i F.h) (s.entered i F.h)

/-- The event may occur in this state, under the condition of its entry. -/
def CanOccur (table : State → Instr → Option (Prop × State)) (s : State) (i : Instr) : Prop :=
  ∃ P t, table s i = some (P, t) ∧ P

/-- The sheaf of place 0 replaced. -/
def withSheaf (y : Sheaf) : State := { base with sheaves := [(0, y)] }

/-- A frame from package 1 to this one. -/
def frame0 : Frame :=
  { daddr := 0, baddr := 0, fval := 0, seq := 0, ack := 0, src := 1, dst := 0, type := 0, hop := 0, len := 0, ordf := false,
    last := true, path := 0, np := 0, pcnt := 1, xid := 0, ctx := 0, payload := List.replicate 32 0 }

/-- A load of lane 0 that waits for its value. -/
def load0 : Load := ⟨7, .vec 4 false 1, 1, 0, Vector.replicate 32 0, 0, 0, 0, false⟩

def cmd0 : FarCmd := ⟨.store, 0, 0, 0, 2, 0x0080000000000000, 0, 0, 0, 1, 32, 0, 0, false, false, false, false⟩

def chunk0 : Chunk := ⟨0, 0, 2, .fetch, 2 ^ 55, 0, 32, some (List.replicate 32 1), 0, 9, false, false⟩

def matCmd0 : MatCmd :=
  { instr := .mzero plain 0 none, crew := 0, launch := 1, place := 0, strict := false, da := TDesc.zero, db := TDesc.zero, scalar := 0,
    vals := Vector.replicate 32 0, exec := 1, load := 0, bad := false }

def withCore (f : Core → Core) : State := { base with cores := [(0, f Core.init)] }

def launchIn (st : LaunchState) : Launch := { fetchLaunch with state := st }

def cont0 : Cont :=
  { pc := 0x80000000, srnd := 1, mask := 1, rtok := 1, hgen := 3, xgen := 0, jpc := 0x80000100, ctx := 0, hpkg := 0, home := 0, launch := 1,
    strict := false, prio := 0, xblk := 0, hops := 1, kind := 0, rsn := 0, carry := RegMask.none, wb := RegMask.none, vregs := [], sregs := [],
    pregs := [], fcode := 0, faddr := 0, auto := false, toModule := false, dmod := 0, dunit := 0, dcore := 1, ia := 0, src := none, stale := false,
    trap := none, frozen := none }

def leave0 : LeaveReq := ⟨1, 0, 100, 0, 0, 0⟩

def xfer0 (k : XKind) : Xfer := ⟨k, 1, 1, 0, [(0, 32)], 0, [(2, 0, 0)], 0, false⟩

def frag0 : Frag := ⟨24, 0, 0, 1, 3, 0, 0, 0x80000100, 1, 0, some 0, 0⟩

/-- Queue 0 of context 0 has 16 entries at 0x80030000, and one record waits for it. -/
def queued0 : State :=
  { base with
    ctxs := [(0, { ctx0 with psBase := 0x80020000 })]
    tags := [(0x4001000, 1)]
    mem := [(0x80020002, 0x03), (0x80020003, 0x80), (0x80020008, 0x04), (0x8002000F, 0x80)]
    waitRecs := [⟨0, 0, 1, 1, false⟩] }

/-- A state in which no module is mapped. -/
def unmapped0 : State := { base with host := { base.host with modmap := Vector.replicate 16 0, liveMap := Vector.replicate 16 0 } }

/-- Span 0 is saved, with nothing to restore. -/
def saved0 : State :=
  { base with spans := [(0, { fetchSpan with state := .saved, saved := some ⟨[], [], [], [], [], [], [], [], []⟩ })], crews := [], sheaves := [] }

theorem restore_nothing (s : State) (id : Nat) (p : Span) (h : p.units = 0) :
    s.restoreSpan id p ⟨[], [], [], [], [], [], [], [], []⟩ =
      some (s.modSpan id fun x => { x with state := .running, saved := none }) := by
  simp [State.restoreSpan, h, State.restoreCrews, State.restoreSheaves]

theorem choose_first (s : State) (l : Launch) (vs : List (Nat × Span)) (got : Nat × List Nat) (h : s.victims l.prio = vs)
    (h2 : s.takeVictims l.record vs [] = some got) :
    s.chooseVictims l = some (s.fewest l.record got.1 got.2.reverse got.2) := by
  rw [State.chooseVictims, h, h2]
  rfl

theorem sort_one {α : Type} {l : List α} {a : α} {r : α → α → Bool} (h : l = [a]) : l.mergeSort r = [a] := by
  rw [h, List.mergeSort_singleton]

/-- Launch 2 waits for its first span, and launch 1 has a lower priority. -/
def waits0 : State :=
  { base with
    ctxs := [(0, { ctx0 with psSize := 0x100000 })]
    launches := [(1, fetchLaunch), (2, { launchIn .eligible with placed := 0, prio := 1 })]
    nanos := 50000 }

/-- The host's window is open on context 0, which exports package space. -/
def window0 : State := { base with host := { base.host with win := 0x8000000000000002 } }

/-- Package 0's host port in a state. -/
def inState (n : Nat) : State := { base with host := { base.host with cur := n } }


/-- Plane 0 has failed as a whole, or at offset 3, and ten slots have passed. -/
def downAt (whole : Bool) : State :=
  { base with nanos := 102000, planes := [(0, { Plane.init with whole := whole, offs := if whole then [] else [3] })] }

theorem ten_slots {s : State} {p f : Nat} (h : (s.plane p).failedSlot = 0) (hn : 102000 ≤ s.nanos)
    (hg : s.liveGroups f true ≠ [] ∧ s.liveGroups f false ≠ []) : tenSlots s p f :=
  ⟨by unfold slotNumber State.planeTime; omega, hg⟩

/-- With every generation in quarantine none can be issued. -/
theorem issue_none {s : State} {key : Nat} {l : List (Gen × Nat)} (hl : ∀ g, g ∈ l.map (·.1))
    (h : (s.genCtr key).quar = l) : s.issueGen key = none := by
  have hn : s.nextGen key = none := by
    rw [State.nextGen, List.find?_eq_none]
    intro g _
    simp only [h, Bool.and_eq_true, Bool.not_eq_true', not_and, Bool.not_eq_false, List.contains_eq_mem, decide_eq_true_eq]
    exact fun _ => List.mem_append_right _ (hl g)
  rw [State.issueGen, hn]

@[irreducible] def gensUpTo (n : Nat) : List (Gen × Nat) := (List.range n).map fun g => (BitVec.ofNat 16 g, 0)

theorem gens_all (n : Nat) (hn : n = 65536) : ∀ g, g ∈ (gensUpTo n).map (·.1) := by
  intro g
  unfold gensUpTo
  refine List.mem_map.mpr ⟨(g, 0), List.mem_map.mpr ⟨g.toNat, List.mem_range.mpr ?_, by simp⟩, rfl⟩
  have := g.isLt
  omega

theorem restore_whole {s : State} (hf : s.planeFibre 0 = some 80) (h : (s.plane 0).whole = true ∧ tenSlots s 0 80) :
    CanOccur opticsSteps s (.rotorPlaneRestore 0 none) := by
  unfold CanOccur
  simp only [opticsSteps, hf]
  exact ⟨_, _, rfl, h⟩

theorem restore_offset {s : State} (hf : s.planeFibre 0 = some 80) (h : 3 ∈ (s.plane 0).offs ∧ tenSlots s 0 80) :
    CanOccur opticsSteps s (.rotorPlaneRestore 0 (some 3)) := by
  unfold CanOccur
  simp only [opticsSteps, hf]
  exact ⟨_, _, rfl, h⟩
/-! A word of every instruction, written from the encodings of the spec. -/

theorem test_decode_controlA : [
      0x7000, 0x10007008, 0x1000000C5007008,
      0xFFFFFE00A010, 0x200000000006003011, 0x7018,
      0xFFFFFCC97020, 0x100C17028, 0x1000000C2C17028,
      0x7FB7030].map (decodeTableWord 128) = [
      some (.nop plain),
      some (.bra plain 0x10),
      some (.braReg plain 5),
      some (.brp ⟨true, 2, false⟩ 0xFFFFFE),
      some (.brpJoin ⟨false, 3, false⟩ 6 0x20),
      some (.join plain),
      some (.loop plain 9 0xFFFFFC),
      some (.call plain 1 0x100),
      some (.callReg plain 1 2),
      some (.calli plain 59 (.v 7))] := by
  decide +kernel

theorem test_decode_controlB : [
      0xFB007038, 0x40, 0x7048,
      0x2A0000007050, 0x7058, 0x3F0000040302017061,
      0x90000007068, 0xC4C37070, 0xC4007078,
      0x3E80100000000007079, 0xC8067080].map (decodeTableWord 128) = [
      some (.ret plain 59),
      some (.exit ⟨false, 0, false⟩),
      some (.yield plain),
      some (.trap plain 0x2A),
      some (.tret plain),
      some (.mcall plain 1 2 3 4 63),
      some (.bkpt plain 9),
      some (.waita plain 3 4),
      some (.sleep plain 4),
      some (.sleepImm plain 1000),
      some (.elect plain 6 8)] := by
  decide +kernel

theorem test_decode_scalarA : [
      0xC2C17100, 0xFFFFFFFF0004000000C17109, 0x123456789ABCDEF00000000000C17112,
      0x100400C3C2C17118, 0x508080000C2C17121, 0x800C3C2C17128,
      0x400C3C2C17130, 0x800C3C2C17138, 0x400C3C2C17140,
      0xA00C3C2C17148, 0x80000000080A0000C2C17151, 0xA00C3C2C17158].map (decodeTableWord 128) = [
      some (.smov plain 1 2),
      some (.smovi plain .i64 1 0xFFFFFFFF),
      some (.smovq plain 1 0x123456789ABCDEF0),
      some (.sadd plain .i64 true 1 2 (.r 3)),
      some (.ssub plain .n64 false 1 2 (.imm 5)),
      some (.smul plain .n64 false 1 2 (.r 3)),
      some (.smulh plain .i64 1 2 (.r 3)),
      some (.sdiv plain .n64 1 2 (.r 3)),
      some (.srem plain .i64 1 2 (.r 3)),
      some (.sand plain 1 2 (.r 3)),
      some (.sor plain 1 2 (.imm 0x80000000)),
      some (.sxor plain 1 2 (.r 3))] := by
  decide +kernel

theorem test_decode_scalarB : [
      0x800C3C2C17160, 0xA00C3C2C17168, 0x400C3C2C17170,
      0x400C3C2C17178, 0x800C3C2C17180, 0x20400C3C2C17188,
      0xAC4C3C2C17190, 0x83FC3C2C17198, 0xA0000C2C171A0,
      0xA0000C2C171A8, 0x4080A0800C2C171B1, 0xA10C3C2C171B8].map (decodeTableWord 128) = [
      some (.sshl plain .n64 1 2 (.r 3)),
      some (.sshr plain .b64 1 2 (.r 3)),
      some (.ssar plain 1 2 (.r 3)),
      some (.smin plain .i64 1 2 (.r 3)),
      some (.smax plain .n64 1 2 (.r 3)),
      some (.scmp plain .i64 .lt 1 2 (.r 3)),
      some (.ssel plain 1 2 (.r 3) 4),
      some (.slea plain .n64 1 2 (.r 3) 63),
      some (.sclz plain 1 2),
      some (.spopc plain 1 2),
      some (.sbfe plain .b64 1 2 (.imm 4) 8),
      some (.sbfi plain 1 2 (.r 3) 16)] := by
  decide +kernel

theorem test_decode_vecIntA : [
      0x90000C5047200, 0x3F8000000013000000047209, 0x300C600047210,
      0x22000605047218, 0x70803000005047221, 0x7000605047228,
      0x3000605047230, 0x1007000605047238, 0x3000605047240,
      0x3BF0605047248, 0x4000608047250, 0x7000605047258,
      0x1003000005047260, 0x22000005047268, 0x9000605047270].map (decodeTableWord 128) = [
      some (.vmov plain .b32 4 (.s 5)),
      some (.vmovi plain .f64 4 0x3F800000),
      some (.vidx plain 4 (.r 6)),
      some (.vadd plain .i8x4 4 (.v 5) (.r (.v 6))),
      some (.vsub plain .i32 4 (.v 5) (.imm 7)),
      some (.vadds plain .n32 4 (.v 5) (.r (.v 6))),
      some (.vsubs plain .i32 4 (.v 5) (.r (.v 6))),
      some (.vmul plain .n32 true 4 (.v 5) (.r (.v 6))),
      some (.vmulh plain .i32 4 (.v 5) (.r (.v 6))),
      some (.vmad plain .i32 false 4 (.v 5) (.r (.v 6)) (.v 191)),
      some (.vmin plain .i64 4 (.v 8) (.r (.v 6))),
      some (.vmax plain .n32 4 (.v 5) (.r (.v 6))),
      some (.vabs plain .i32 true 4 (.v 5)),
      some (.vneg plain .i8x4 false 4 (.v 5)),
      some (.vand plain .b32 4 (.v 5) (.r (.v 6)))] := by
  decide +kernel

theorem test_decode_vecIntB : [
      0x9000605047278, 0xA00C602047280, 0x9000005047288,
      0x7000605047290, 0xA000702047298, 0x30006050472A0,
      0x90006050472A8, 0x72006050472B0, 0x90106050472B8,
      0x90000050472C0, 0x90000050472C8, 0x90000050472D0,
      0x5070006050472D8, 0x90306050472E0, 0x30206050472E8].map (decodeTableWord 128) = [
      some (.vor plain .b32 4 (.v 5) (.r (.v 6))),
      some (.vxor plain .b64 4 (.v 2) (.r (.s 6))),
      some (.vnot plain .b32 4 (.v 5)),
      some (.vshl plain .n32 4 (.v 5) (.r (.v 6))),
      some (.vshr plain .b64 4 (.v 2) (.r (.v 7))),
      some (.vsar plain .i32 4 (.v 5) (.r (.v 6))),
      some (.vrot plain 4 (.v 5) (.r (.v 6))),
      some (.vbfe plain .n32 4 (.v 5) (.r (.v 6)) 32),
      some (.vbfi plain 4 (.v 5) (.r (.v 6)) 1),
      some (.vclz plain 4 (.v 5)),
      some (.vpopc plain 4 (.v 5)),
      some (.vbrev plain 4 (.v 5)),
      some (.vcmp plain .n32 .ge 4 (.v 5) (.r (.v 6))),
      some (.vsel plain .b32 4 (.v 5) (.r (.v 6)) 3),
      some (.vlea plain .i32 4 (.v 5) (.r (.v 6)) 2)] := by
  decide +kernel

theorem test_decode_vecFloatA : [
      0x2012000605047300, 0x8014000605047308, 0x15000605047310,
      0x12090605047318, 0x4012090605047320, 0x12000605047328,
      0x12000605047330, 0x13000002047338, 0x12000005047340,
      0x612000605047348, 0x12000005047350, 0x12000605047358].map (decodeTableWord 128) = [
      some (.vfadd plain .f32 .rtz 4 (.v 5) (.r (.v 6))),
      some (.vfsub plain .f16x2 .srnd 4 (.v 5) (.r (.v 6))),
      some (.vfmul plain .bf16x2 .rne 4 (.v 5) (.r (.v 6))),
      some (.vfma plain .f32 .rne 4 (.v 5) (.r (.v 6)) (.v 9)),
      some (.vfnma plain .f32 .rup 4 (.v 5) (.r (.v 6)) (.v 9)),
      some (.vfmin plain .f32 4 (.v 5) (.r (.v 6))),
      some (.vfmax plain .f32 4 (.v 5) (.r (.v 6))),
      some (.vfabs plain .f64 4 (.v 2)),
      some (.vfneg plain .f32 4 (.v 5)),
      some (.vfcmp plain .f32 .un 4 (.v 5) (.r (.v 6))),
      some (.vfclass plain .f32 4 (.v 5)),
      some (.vfdiv plain .f32 .rne 4 (.v 5) (.r (.v 6)))] := by
  decide +kernel

theorem test_decode_vecFloatB : [
      0x12000005047360, 0x14000005047368, 0x6012000005047370,
      0x12000005047378, 0x12000005047380, 0x12000005047388,
      0x12000005047390, 0x12000005047398, 0x120000050473A0,
      0x120000050473A8, 0x120000050473B0, 0x120006050473B8].map (decodeTableWord 128) = [
      some (.vrcp plain .f32 4 (.v 5)),
      some (.vrsq plain .f16x2 4 (.v 5)),
      some (.vsqrt plain .f32 .rdn 4 (.v 5)),
      some (.vexp2 plain .f32 4 (.v 5)),
      some (.vlog2 plain .f32 4 (.v 5)),
      some (.vsin plain .f32 4 (.v 5)),
      some (.vcos plain .f32 4 (.v 5)),
      some (.vtanh plain .f32 4 (.v 5)),
      some (.vfloor plain .f32 4 (.v 5)),
      some (.vceil plain .f32 4 (.v 5)),
      some (.vfract plain .f32 .rne 4 (.v 5)),
      some (.vfscale plain .f32 .rne 4 (.v 5) (.r (.v 6)))] := by
  decide +kernel

theorem test_decode_convert : [
      0x2003120005047400, 0x1118000605047408, 0x312180005047410,
      0x71CC60005047418, 0x21900C605047420, 0x51A000005047428,
      0x31B000605047430, 0x1022000605047438, 0x1C000605047440,
      0xB0005047448, 0xC5007450, 0x100000000C47450].map (decodeTableWord 128) = [
      some (.vcvt plain .i32 .f32 .rtz false 4 (.v 5)),
      some (.vpack plain .e4m3 .rne true 4 (.v 5) (.r (.v 6)) 1),
      some (.vunpk plain .f32 .e4m3 4 (.v 5) 3),
      some (.vquant plain .e2m1 .rne 4 (.v 5) 6 7),
      some (.vdeq plain .e5m2 .rne 4 (.v 5) (.r 6) 2),
      some (.vsplit6 plain .e3m2 true 4 (.v 5) 1),
      some (.vjoin6 plain .e2m3 4 (.v 5) (.r (.v 6)) 3),
      some (.vdot8 plain .i8x4 .rne true 4 (.v 5) (.r (.v 6))),
      some (.vdot4 plain .e2m1 .rne false 4 (.v 5) (.r (.v 6))),
      some (.vtag plain 4 (.v 5) 0xB),
      some (.vsrnd plain 5),
      some (.vsrndDraw plain 4)] := by
  decide +kernel

theorem test_decode_crossLaneA : [
      0x309000605047500, 0x40907C605047508, 0x1F0809000005047511,
      0x203000005C47518, 0x2012000005047520, 0x5C47528,
      0x9000005047530, 0xC5047538].map (decodeTableWord 128) = [
      some (.vshfl plain .b32 .xor 4 (.v 5) (.r (.v 6)) none),
      some (.vbcast plain .b32 4 (.v 5) (.r 6) (some (.v 7))),
      some (.vlrot plain .b32 4 (.v 5) (.imm 31) none),
      some (.vred plain .i32 .max .rne 4 (.v 5)),
      some (.vscan plain .f32 .add .rtz 4 (.v 5)),
      some (.vballot plain 4 5),
      some (.vmatch plain .b32 4 (.v 5)),
      some (.pset plain 4 5)] := by
  decide +kernel

theorem test_decode_crossLaneB : [
      0xF0F0F0F00800000000047539, 0x302017540, 0x302017548,
      0x302017550, 0x2017558, 0x2017560,
      0x2C17568, 0x2C17570].map (decodeTableWord 128) = [
      some (.psetImm plain 4 0xF0F0F0F0),
      some (.pand plain 1 2 3),
      some (.por plain 1 2 3),
      some (.pxor plain 1 2 3),
      some (.pnot plain 1 2),
      some (.pmov plain 1 2),
      some (.pcnt plain 1 2),
      some (.pfirst plain 1 2)] := by
  decide +kernel

theorem test_decode_state : [
      0x300000000007600, 0x7608, 0x8C37610,
      0xC30C7618, 0x400000000C37620, 0x1000F0002C37628,
      0x100000000C37630, 0xC4C37638, 0xC4007640,
      0xC4007648].map (decodeTableWord 128) = [
      some (.xacq plain .x128),
      some (.xrel plain),
      some (.sread plain (.s 3) 8),
      some (.swrite plain 12 3),
      some (.genq plain .acc 3),
      some (.tagq plain 3 (.acc 2 15)),
      some (.rdtime plain true 3),
      some (.lread plain 3 4),
      some (.ctxsave plain 4),
      some (.ctxload plain 4)] := by
  decide +kernel

theorem test_decode_memoryA : [
      0x11002C1047700, 0x91002C1047708, 0xA1002C1047710,
      0x101002C1047718, 0xFFFFFFFC02120000C1047721, 0x109100200C47728,
      0x91002C1047730, 0x91002C1047738, 0x2030800C1047740].map (decodeTableWord 128) = [
      some (.ldl plain .i8 4 ⟨some 1, some (.v 2), .imm8 16⟩),
      some (.stl plain .b32 (.v 4) ⟨some 1, some (.v 2), .imm8 16⟩),
      some (.lds plain .b64 4 ⟨some 1, some (.v 2), .imm8 16⟩),
      some (.sts plain .f16 (.v 4) ⟨some 1, some (.v 2), .imm8 16⟩),
      some (.ldg plain .f32 4 ⟨some 1, none, .imm32 0xFFFFFFFC⟩),
      some (.stg plain .b32 (.s 4) ⟨none, some (.v 2), .imm8 16⟩),
      some (.ldx plain .b32 4 ⟨some 1, some (.v 2), .imm8 16⟩),
      some (.stx plain .b32 (.v 4) ⟨some 1, some (.v 2), .imm8 16⟩),
      some (.ldb plain .i32 4 (some 1) (.imm8 8))] := by
  decide +kernel

theorem test_decode_memoryB : [
      0x6030800C1047740, 0x60091002C1047748, 0x98090402C1007750,
      0xE7070602C1047758, 0x4020030602C1007761, 0x20090602C1047768,
      0xD000000000007770, 0x1002C1007778, 0x1002C1007780,
      0x400000000007780].map (decodeTableWord 128) = [
      some (.ldbLoc plain .i32 4 (some 1) (.imm8 8)),
      some (.lda plain .b32 .acq .job 4 ⟨some 1, some (.v 2), .imm8 16⟩),
      some (.str plain .b32 .rel .pkg (.v 4) ⟨some 1, some (.v 2), .imm8 0⟩),
      some (.atom plain .n32 .inc .ar .job 4 1 (.v 2) none (.v 6)),
      some (.atomn plain .i32 .add .rlx .job 1 (.v 2) (some 64) (.v 6)),
      some (.acas plain .b32 .rlx .job 4 1 (.v 2) none (.v 6)),
      some (.fence plain .ar .span),
      some (.prefg plain ⟨some 1, some (.v 2), .imm8 16⟩),
      some (.cflush plain ⟨some 1, some (.v 2), .imm8 16⟩),
      some (.cflushAll plain)] := by
  decide +kernel

theorem test_decode_barrier : [
      0xC13F7800, 0xC1027808, 0xC1027810,
      0xC1027818, 0x2C1C37820, 0x1000002C1C37820,
      0x27828, 0x200000200C37830, 0x7838,
      0x7840].map (decodeTableWord 128) = [
      some (.abinit plain 63 1),
      some (.abexp plain 2 1),
      some (.abarr plain 2 1),
      some (.abwait plain 2 1),
      some (.abtest plain 3 2 1),
      some (.abtestPar plain 3 2 1),
      some (.abret plain 2),
      some (.abq plain .fault 3 2),
      some (.cbar plain),
      some (.sbar plain)] := by
  decide +kernel

theorem test_decode_farMemory : [
      0x5000C3C2C1027900, 0x2000C3C2C1027908, 0xC1007910,
      0x200000000C17918, 0x2000C3C2C1027920, 0x2000C3C2C1027928,
      0x2211C3C2C1027930, 0x200000C2C1C37938, 0x20000000C1007940].map (decodeTableWord 128) = [
      some (.tfetch plain .acq .span 2 1 2 3),
      some (.tstore plain .rlx .job 2 1 2 3),
      some (.twin plain 1),
      some (.twq plain .queued 1),
      some (.mcopy plain .rlx .job 2 1 2 3),
      some (.mfill plain .rlx .job 2 1 2 3),
      some (.mred plain .bf16 .max .rlx .job 2 1 2 3),
      some (.msnap plain .rlx .job 3 1 2),
      some (.mclose plain .rlx .job 1)] := by
  decide +kernel

theorem test_decode_matrix : [
      0x1800C2C10F7A00, 0x90000037A08, 0x1008000FFFFFF0010000201047A12,
      0x100000200010022050201047A1A, 0x3F7A20, 0x30001020407C605047A2A,
      0x5011000005037A30, 0x12000003057A38, 0x2090E0005047A40,
      0x12020004057A48, 0x6057A50, 0x8800000000077A58,
      0x4900000000007A58].map (decodeTableWord 128) = [
      some (.tdset plain .e4m3 15 1 2),
      some (.tdtag plain 3 9),
      some (.mma plain .f16 .z false 4 1 2 0xFFFF 0x00FF 128),
      some (.mmas plain .i8x4 (.tile 5) 4 1 2 1 2 256),
      some (.mzero plain 63 none),
      some (.mew plain .i64 (.decay 6 7) 4 5 (some (1, 3))),
      some (.mst plain .bf16 .rup true 3 5 none),
      some (.mlda plain .f32 5 3 none),
      some (.mrdv plain .b32 .rne false 2 4 5 14),
      some (.mwrv plain .f32 0 5 (.v 4) 2),
      some (.mtrn plain 5 6),
      some (.mfen plain .rel .crew 7),
      some (.mfenNoarrive plain .crew)] := by
  decide +kernel

theorem test_decode_migration : [
      0x4000000002C1C47B01, 0x7B08, 0xFF0300010000007B12,
      0x800500000000007B11, 0x100000000C47B18, 0x1F771000C3C2C1C47B21,
      0xF770000C3C2C1C47B29, 0xF770000C3C2C1C47B31, 0x770300C3C2C1C47B39,
      0x70000C300C1C47B41].map (decodeTableWord 128) = [
      some (.mig plain 4 (some 1) (some (.v 2)) 0 0x40),
      some (.home plain),
      some (.migset plain .s true 0xFF),
      some (.migsetHome plain 0x80),
      some (.migq plain .refused 4),
      some (.bsadd plain true 4 1 2 3 7 7 15 true),
      some (.bsmul plain false 4 1 2 3 7 7 15 false),
      some (.bsmac plain false 4 1 2 3 7 7 15 false),
      some (.bscmp plain .le 4 1 2 3 7 7 0 false),
      some (.bspopc plain 4 1 3 7 false)] := by
  decide +kernel

theorem test_decode_fabric : [
      0x2000C3C208C47C00, 0x2100C3C208007C00, 0x2000C3C208C47C08,
      0x2009000908047C10, 0x27070A0908047C18, 0x2AB05200000C2C1C47C21,
      0x2000000000007C28, 0x2118C3C2C1C47C30, 0x200C3C2C1007C38,
      0xFF00C1007C40, 0x1000700C1007C40].map (decodeTableWord 128) = [
      some (.xsend plain .rlx .job 4 8 2 3),
      some (.xsendNobar plain .rlx .job 8 2 3),
      some (.xsendf plain .rlx .job 4 8 2 3),
      some (.xget plain .b32 .rlx .job 4 (.v 8) (.v 9)),
      some (.xatom plain .n32 .inc .rlx .job 4 (.v 8) (.v 9) (.v 10)),
      some (.xmcast plain .rlx .job 4 1 2 5 3 21 true),
      some (.xfence plain .job),
      some (.xred plain .e4m3 true .rlx .job 4 1 2 3),
      some (.xresid plain (.set 1 2 3)),
      some (.xgrpSet plain 255 1),
      some (.xgrpGet plain 7 1)] := by
  decide +kernel

theorem test_decode_launch : [
      0xC1C47D00, 0x2C1C47D08, 0xC1007D10,
      0xC2C1007D18, 0xC1C47D20].map (decodeTableWord 128) = [
      some (.lnch plain 4 1),
      some (.larm plain 4 1 2),
      some (.ldep plain 1),
      some (.lprio plain 1 2),
      some (.lwait plain 4 1)] := by
  decide +kernel

theorem test_decode_system : [
      0x40030000C3C2C1007E01, 0x5FFFF0000000000007E09, 0xC2C1007E10,
      0x1000000C1007E10, 0x70500000000C1007E19, 0x1F3F01000000C1007E19,
      0xC3C2C1007E20, 0xC1C47E28, 0x1000000C1007E28,
      0x2000000C1C47E30, 0x7E38, 0x100000000007E38].map (decodeTableWord 128) = [
      some (.rrset plain 1 2 3 true 0 3),
      some (.rrinv plain false 5 0xFFFF),
      some (.pginv plain 1 2),
      some (.pginvMod plain 1),
      some (.wcsld plain 1 5 7),
      some (.wcsldAll plain 1 63 31),
      some (.evpost plain 1 2 3),
      some (.preq plain 4 1),
      some (.preqRel plain 1),
      some (.dbgrd plain .acc 4 1),
      some (.gensweep plain),
      some (.gensweepSlice plain)] := by
  decide +kernel

/-! Words of the spec's worked examples. -/

/-- The code images of Tables 8-9 and 9-3. -/
theorem test_worked_words_A : [
      0xfffffffb0803000004037219, 0x20120005040ca304, 0x3, 0x123456789abcdef00000000000c57112, 0x7040, 0x30004000000c77109, 0x508040000c8c87119, 0xfffffdc77020].map (decodeTableWord 128) = [
      some (.vadd plain .i32 3 (.v 4) (.imm 0xFFFFFFFB)),
      some (.vfadd ⟨true, 2, true⟩ .f32 .rtz 12 (.v 4) (.r (.v 5))),
      some (.pad 0),
      some (.smovq plain 5 0x123456789ABCDEF0),
      some (.exit plain),
      some (.smovi plain .i64 7 3),
      some (.sadd plain .i64 false 8 8 (.imm 5)),
      some (.loop plain 7 0xFFFFFD)] := by
  decide +kernel

/-- The encodings of Tables 16-3 and 16-7. -/
theorem test_worked_words_B : [
      0x10013001fffff0010000100007a12, 0x1fffff0012000000027a32, 0x12000000027a30, 0x1300d304047a28, 0x20010ffffffff0010000100047a12, 0x4067a50].map (decodeTableWord 128) = [
      some (.mma plain .f16 .z false 0 0 1 0xFFFF 0x001F 0x13),
      some (.mst plain .f32 .rne false 2 0 (some (0xFFFF, 0x001F))),
      some (.mst plain .f32 .rne false 2 0 none),
      some (.mew plain .f64 (.scale 19) 4 4 none),
      some (.mma plain .f16 .k false 4 0 1 0xFFFF 0xFFFF 16),
      some (.mtrn plain 6 4)] := by
  decide +kernel

/-- The encodings of Tables 17-4 and 17-9, of R287 and of R220. -/
theorem test_worked_words_C : [
      0x6009000904062c14, 0xe000c9c804d47c08, 0x2000000000007c28, 0x105240000000000007b12, 0x300300000000007b12, 0x20400000000007b12, 0x104200000010000007b12, 0x1807c502c405775c, 0x7b08, 0x4000000002c4cc7b01, 0x51cc300040a7418].map (decodeTableWord 128) = [
      some (.xget ⟨false, 2, true⟩ .b32 .acq .job 6 (.v 4) (.v 9)),
      some (.xsendf plain .ar .job 20 4 8 9),
      some (.xfence plain .job),
      some (.migset plain .v0 false 0x10524),
      some (.migset plain .s false 0x30),
      some (.migset plain .p false 2),
      some (.migset plain .v0 true 0x10420),
      some (.atom ⟨false, 7, true⟩ .n32 .add .rlx .pkg 5 4 (.v 2) none (.s 5)),
      some (.home plain),
      some (.mig plain 12 (some 4) (some (.v 2)) 0 0x40),
      some (.vquant plain .e2m1 .rne 10 (.v 4) 3 5)] := by
  decide +kernel

/-- The encodings of Tables 17-14 and 22-2, and of R214. -/
theorem test_worked_words_D : [
      0xe011c7c6c5c87c30, 0xd81cc7c6c5c87c30, 0x1d1d57d08, 0x2d1d52d08, 0x4800c6c5c4007900, 0xcb007818, 0xd0d8763c, 0x62090000c706774c, 0x12090501087318].map (decodeTableWord 128) = [
      some (.xred plain .bf16 false .ar .job 8 5 6 7),
      some (.xred plain .e2m1 false .ar .pkg 8 5 6 7),
      some (.larm plain 21 17 1),
      some (.larm ⟨false, 2, false⟩ 21 17 2),
      some (.tfetch plain .acq .crew 0 4 5 6),
      some (.abwait plain 0 11),
      some (.lread ⟨false, 7, true⟩ 24 16),
      some (.lda ⟨false, 7, true⟩ .b32 .acq .job 6 ⟨some 7, none, .imm8 0⟩),
      some (.vfma plain .f32 .rne 8 (.v 1) (.r (.v 5)) (.v 9))] := by
  decide +kernel

/-! Ill-formed terms: one or more for each check, which refuses them. -/

theorem test_ill_formed_tyOk : ([
    .smovi plain .i32 1 0,
    .sadd plain .n32 false 1 2 (.r 3),
    .sshl plain .i32 1 2 (.r 3),
    .sshr plain .i64 1 2 (.r 3),
    .sbfe plain .i32 1 2 (.r 3) 4,
    .vmov plain .i32 1 (.v 2),
    .vmovi plain .e4m3 2 0,
    .vadd plain .b32 1 (.v 2) (.r (.v 3)),
    .vadds plain .i64 2 (.v 4) (.r (.v 6)),
    .vmul plain .i64 false 2 (.v 4) (.r (.v 6)),
    .vabs plain .n32 false 1 (.v 2),
    .vand plain .i32 1 (.v 2) (.r (.v 3)),
    .vshl plain .f32 1 (.v 2) (.r (.v 3)),
    .vshr plain .i32 1 (.v 2) (.r (.v 3)),
    .vsar plain .n32 1 (.v 2) (.r (.v 3)),
    .vcmp plain .b32 .eq 1 (.v 2) (.r (.v 3)),
    .vfadd plain .f16 .rne 1 (.v 2) (.r (.v 3)),
    .vfcmp plain .f16x2 .eq 1 (.v 2) (.r (.v 3)),
    .vrcp plain .f64 2 (.v 4),
    .vcvt plain .f32 .f32 .rne false 1 (.v 2),
    .vpack plain .f32 .rne false 1 (.v 2) (.r (.v 3)) 0,
    .vunpk plain .f32 .i8x4 1 (.v 2) 0,
    .vquant plain .f32 .rne 1 (.v 2) 3 0,
    .vdeq plain .i8x4 .rne 1 (.v 2) (.r 3) 0,
    .vsplit6 plain .e4m3 true 1 (.v 2) 0,
    .vdot8 plain .e2m1 .rne false 1 (.v 2) (.r (.v 3)),
    .vdot4 plain .i8x4 .rne false 1 (.v 2) (.r (.v 3)),
    .vmatch plain .f32 1 (.v 2),
    .vred plain .b32 .add .rne 1 (.v 2),
    .ldl plain .e3m2 1 ⟨some 1, none, .imm8 0⟩,
    .lda plain .i16 .rlx .job 1 ⟨some 1, none, .imm8 0⟩,
    .str plain .f16 .rlx .job (.v 1) ⟨some 1, none, .imm8 0⟩,
    .atom plain .i32 .inc .rlx .job 4 1 (.v 2) none (.v 6),
    .acas plain .i32 .rlx .job 4 1 (.v 2) none (.v 6),
    .mred plain .f16 .add .rlx .job 2 1 2 3,
    .tdset plain .f64 1 1 2,
    .mma plain .f32 .z false 0 0 1 1 1 1,
    .mmas plain .e2m1 .z 0 0 1 1 1 1,
    .mew plain .f32 (.scale 1) 0 0 none,
    .mst plain .e3m2 .rne false 0 0 none,
    .mrdv plain .n32 .rne false 0 1 0 0,
    .xget plain .i8 .rlx .job 1 (.v 2) (.v 3),
    .xred plain .f16 false .rlx .job 1 2 3 4] : List Instr).all (fun i => !i.tyOk && !i.wf) = true := by
  decide +kernel

theorem test_ill_formed_mdOk : ([
    .vcvt plain .f32 .i32 .rne true 1 (.v 2),
    .vcvt plain .i32 .f32 .rne true 1 (.v 2),
    .vcvt plain .i32 .i16 .rtz false 1 (.v 2),
    .vpack plain .i8x4 .rtz false 1 (.v 2) (.r (.v 3)) 0,
    .vpack plain .f16x2 .rne false 1 (.v 2) (.r (.v 3)) 1,
    .vunpk plain .f32 .f16x2 1 (.v 2) 2,
    .vquant plain .e4m3 .rne 1 (.v 2) 3 4,
    .vdeq plain .e4m3 .rne 1 (.v 2) (.r 3) 4,
    .vdot8 plain .e4m3 .rne true 1 (.v 2) (.r (.v 3)),
    .vdot4 plain .i4x8 .rtz false 1 (.v 2) (.r (.v 3)),
    .vred plain .f32 .min .rtz 1 (.v 2),
    .vshfl plain .b32 .idx 1 (.v 2) (.imm 0) none,
    .lda plain .b32 .rel .job 1 ⟨some 1, none, .imm8 0⟩,
    .str plain .b32 .acq .job (.v 1) ⟨some 1, none, .imm8 0⟩,
    .fence plain .rlx .job,
    .mst plain .f32 .srnd false 0 0 none,
    .mrdv plain .f32 .rne false 1 1 0 0,
    .mwrv plain .f32 1 0 (.v 1) 0] : List Instr).all (fun i => !i.mdOk && !i.wf) = true := by
  decide +kernel

theorem test_ill_formed_opOk : ([
    .vmov plain .b64 1 (.v 2),
    .vmovi plain .i64 1 0,
    .vadd plain .i64 2 (.v 4) (.r (.v 5)),
    .sread plain (.v 3) 8,
    .sread plain (.s 3) 0,
    .ldx plain .b32 4 ⟨some 1, some (.v 3), .imm8 0⟩,
    .str plain .b32 .rlx .job (.v 1) ⟨some 1, none, .imm8 4⟩,
    .acas plain .b32 .rlx .job 4 1 (.v 2) none (.v 191),
    .xsend plain .rlx .job 4 7 2 3,
    .xget plain .b64 .rlx .job 5 (.v 8) (.v 9),
    .dbgrd plain .acc 5 1,
    .vcvt plain .f64 .f32 .rne false 1 (.v 2),
    .vsel plain .b64 2 (.v 4) (.r (.v 7)) 1,
    .mrdv plain .f64 .rne false 0 1 0 0] : List Instr).all (fun i => !i.opOk && !i.wf) = true := by
  decide +kernel

theorem test_ill_formed_fldOk : ([
    .join ⟨false, 2, false⟩,
    .home ⟨true, 7, false⟩,
    .brpJoin plain 1 2,
    .mig plain 4 (some 1) none 0 0,
    .migsetHome plain 2,
    .migset plain .p false 0x80,
    .slea plain .n64 1 2 (.r 3) 64,
    .sbfe plain .n64 1 2 (.r 3) 65,
    .sbfi plain 1 2 (.r 3) 0,
    .vlea plain .i32 1 (.v 2) (.r (.v 3)) 32,
    .vbfe plain .i32 1 (.v 2) (.r (.v 3)) 33,
    .vbfi plain 1 (.v 2) (.r (.v 3)) 0,
    .mma plain .f16 .z false 0 0 1 1 1 129,
    .mma plain .i8x4 .z true 0 0 1 1 1 1,
    .mmas plain .i8x4 .z 0 0 1 1 1 257,
    .mrdv plain .f32 .rne false 0 1 0 15,
    .mwrv plain .f32 0 0 (.v 1) 16,
    .bscmp plain .eq 4 1 2 3 7 7 1 false,
    .rrset plain 1 2 3 true 5 0,
    .rrinv plain true 5 1] : List Instr).all (fun i => !i.fldOk && !i.wf) = true := by
  decide +kernel

/-- An event has no encoding. -/
theorem test_event_ill_formed : (Instr.orreryAdmit).wf = false ∧ (Instr.sleepExpiry (.core 0 0)).isEvent = true := by
  decide +kernel

theorem test_decode_pad : decodeTableWord 32 0xFFFFFFFF = some (.pad 0x3FFFFFFF) := by
  decide +kernel

/-! For every instruction, a state in which it issues and meets the condition of its entry. -/

theorem witness_scalar :
    Meets scalarForm base (.smov plain 1 2) ∧
    Meets scalarForm base (.smovi plain .i64 1 0xFFFFFFFF) ∧
    Meets scalarForm base (.smovq plain 1 0x123456789ABCDEF0) ∧
    Meets scalarForm base (.sadd plain .i64 true 1 2 (.r 3)) ∧
    Meets scalarForm base (.ssub plain .n64 false 1 2 (.imm 5)) ∧
    Meets scalarForm base (.smul plain .n64 false 1 2 (.r 3)) ∧
    Meets scalarForm base (.smulh plain .i64 1 2 (.r 3)) ∧
    Meets scalarForm base (.sdiv plain .n64 1 2 (.r 3)) ∧
    Meets scalarForm base (.srem plain .i64 1 2 (.r 3)) ∧
    Meets scalarForm base (.sand plain 1 2 (.r 3)) ∧
    Meets scalarForm base (.sor plain 1 2 (.imm 0x80000000)) ∧
    Meets scalarForm base (.sxor plain 1 2 (.r 3)) ∧
    Meets scalarForm base (.sshl plain .n64 1 2 (.r 3)) ∧
    Meets scalarForm base (.sshr plain .b64 1 2 (.r 3)) ∧
    Meets scalarForm base (.ssar plain 1 2 (.r 3)) ∧
    Meets scalarForm base (.smin plain .i64 1 2 (.r 3)) ∧
    Meets scalarForm base (.smax plain .n64 1 2 (.r 3)) ∧
    Meets scalarForm base (.scmp plain .i64 .lt 1 2 (.r 3)) ∧
    Meets scalarForm base (.ssel plain 1 2 (.r 3) 4) ∧
    Meets scalarForm base (.slea plain .n64 1 2 (.r 3) 63) ∧
    Meets scalarForm base (.sclz plain 1 2) ∧
    Meets scalarForm base (.spopc plain 1 2) ∧
    Meets scalarForm base (.sbfe plain .b64 1 2 (.imm 4) 8) ∧
    Meets scalarForm base (.sbfi plain 1 2 (.r 3) 16) :=
  ⟨⟨_, rfl, by decide +kernel, by decide +kernel, trivial⟩,
    ⟨_, rfl, by decide +kernel, by decide +kernel, trivial⟩,
    ⟨_, rfl, by decide +kernel, by decide +kernel, trivial⟩,
    ⟨_, rfl, by decide +kernel, by decide +kernel, trivial⟩,
    ⟨_, rfl, by decide +kernel, by decide +kernel, trivial⟩,
    ⟨_, rfl, by decide +kernel, by decide +kernel, trivial⟩,
    ⟨_, rfl, by decide +kernel, by decide +kernel, trivial⟩,
    ⟨_, rfl, by decide +kernel, by decide +kernel, trivial⟩,
    ⟨_, rfl, by decide +kernel, by decide +kernel, trivial⟩,
    ⟨_, rfl, by decide +kernel, by decide +kernel, trivial⟩,
    ⟨_, rfl, by decide +kernel, by decide +kernel, trivial⟩,
    ⟨_, rfl, by decide +kernel, by decide +kernel, trivial⟩,
    ⟨_, rfl, by decide +kernel, by decide +kernel, trivial⟩,
    ⟨_, rfl, by decide +kernel, by decide +kernel, trivial⟩,
    ⟨_, rfl, by decide +kernel, by decide +kernel, trivial⟩,
    ⟨_, rfl, by decide +kernel, by decide +kernel, trivial⟩,
    ⟨_, rfl, by decide +kernel, by decide +kernel, trivial⟩,
    ⟨_, rfl, by decide +kernel, by decide +kernel, trivial⟩,
    ⟨_, rfl, by decide +kernel, by decide +kernel, trivial⟩,
    ⟨_, rfl, by decide +kernel, by decide +kernel, trivial⟩,
    ⟨_, rfl, by decide +kernel, by decide +kernel, trivial⟩,
    ⟨_, rfl, by decide +kernel, by decide +kernel, trivial⟩,
    ⟨_, rfl, by decide +kernel, by decide +kernel, trivial⟩,
    ⟨_, rfl, by decide +kernel, by decide +kernel, trivial⟩⟩

theorem witness_vector_integer :
    Meets vecIntForm base (.vmov plain .b32 4 (.s 5)) ∧
    Meets vecIntForm base (.vmovi plain .f64 4 0x3F800000) ∧
    Meets vecIntForm base (.vidx plain 4 (.r 6)) ∧
    Meets vecIntForm base (.vadd plain .i8x4 4 (.v 5) (.r (.v 6))) ∧
    Meets vecIntForm base (.vsub plain .i32 4 (.v 5) (.imm 7)) ∧
    Meets vecIntForm base (.vadds plain .n32 4 (.v 5) (.r (.v 6))) ∧
    Meets vecIntForm base (.vsubs plain .i32 4 (.v 5) (.r (.v 6))) ∧
    Meets vecIntForm base (.vmul plain .n32 true 4 (.v 5) (.r (.v 6))) ∧
    Meets vecIntForm base (.vmulh plain .i32 4 (.v 5) (.r (.v 6))) ∧
    Meets vecIntForm base (.vmad plain .i32 false 4 (.v 5) (.r (.v 6)) (.v 7)) ∧
    Meets vecIntForm base (.vmin plain .i64 4 (.v 8) (.r (.v 6))) ∧
    Meets vecIntForm base (.vmax plain .n32 4 (.v 5) (.r (.v 6))) ∧
    Meets vecIntForm base (.vabs plain .i32 true 4 (.v 5)) ∧
    Meets vecIntForm base (.vneg plain .i8x4 false 4 (.v 5)) ∧
    Meets vecIntForm base (.vand plain .b32 4 (.v 5) (.r (.v 6))) ∧
    Meets vecIntForm base (.vor plain .b32 4 (.v 5) (.r (.v 6))) ∧
    Meets vecIntForm base (.vxor plain .b64 4 (.v 2) (.r (.s 6))) ∧
    Meets vecIntForm base (.vnot plain .b32 4 (.v 5)) ∧
    Meets vecIntForm base (.vshl plain .n32 4 (.v 5) (.r (.v 6))) ∧
    Meets vecIntForm base (.vshr plain .b64 4 (.v 2) (.r (.v 7))) ∧
    Meets vecIntForm base (.vsar plain .i32 4 (.v 5) (.r (.v 6))) ∧
    Meets vecIntForm base (.vrot plain 4 (.v 5) (.r (.v 6))) ∧
    Meets vecIntForm base (.vbfe plain .n32 4 (.v 5) (.r (.v 6)) 32) ∧
    Meets vecIntForm base (.vbfi plain 4 (.v 5) (.r (.v 6)) 1) ∧
    Meets vecIntForm base (.vclz plain 4 (.v 5)) ∧
    Meets vecIntForm base (.vpopc plain 4 (.v 5)) ∧
    Meets vecIntForm base (.vbrev plain 4 (.v 5)) ∧
    Meets vecIntForm base (.vcmp plain .n32 .ge 4 (.v 5) (.r (.v 6))) ∧
    Meets vecIntForm base (.vsel plain .b32 4 (.v 5) (.r (.v 6)) 3) ∧
    Meets vecIntForm base (.vlea plain .i32 4 (.v 5) (.r (.v 6)) 2) :=
  ⟨⟨_, rfl, by decide +kernel, by decide +kernel, trivial⟩,
    ⟨_, rfl, by decide +kernel, by decide +kernel, trivial⟩,
    ⟨_, rfl, by decide +kernel, by decide +kernel, trivial⟩,
    ⟨_, rfl, by decide +kernel, by decide +kernel, trivial⟩,
    ⟨_, rfl, by decide +kernel, by decide +kernel, trivial⟩,
    ⟨_, rfl, by decide +kernel, by decide +kernel, trivial⟩,
    ⟨_, rfl, by decide +kernel, by decide +kernel, trivial⟩,
    ⟨_, rfl, by decide +kernel, by decide +kernel, trivial⟩,
    ⟨_, rfl, by decide +kernel, by decide +kernel, trivial⟩,
    ⟨_, rfl, by decide +kernel, by decide +kernel, trivial⟩,
    ⟨_, rfl, by decide +kernel, by decide +kernel, trivial⟩,
    ⟨_, rfl, by decide +kernel, by decide +kernel, trivial⟩,
    ⟨_, rfl, by decide +kernel, by decide +kernel, trivial⟩,
    ⟨_, rfl, by decide +kernel, by decide +kernel, trivial⟩,
    ⟨_, rfl, by decide +kernel, by decide +kernel, trivial⟩,
    ⟨_, rfl, by decide +kernel, by decide +kernel, trivial⟩,
    ⟨_, rfl, by decide +kernel, by decide +kernel, trivial⟩,
    ⟨_, rfl, by decide +kernel, by decide +kernel, trivial⟩,
    ⟨_, rfl, by decide +kernel, by decide +kernel, trivial⟩,
    ⟨_, rfl, by decide +kernel, by decide +kernel, trivial⟩,
    ⟨_, rfl, by decide +kernel, by decide +kernel, trivial⟩,
    ⟨_, rfl, by decide +kernel, by decide +kernel, trivial⟩,
    ⟨_, rfl, by decide +kernel, by decide +kernel, trivial⟩,
    ⟨_, rfl, by decide +kernel, by decide +kernel, trivial⟩,
    ⟨_, rfl, by decide +kernel, by decide +kernel, trivial⟩,
    ⟨_, rfl, by decide +kernel, by decide +kernel, trivial⟩,
    ⟨_, rfl, by decide +kernel, by decide +kernel, trivial⟩,
    ⟨_, rfl, by decide +kernel, by decide +kernel, trivial⟩,
    ⟨_, rfl, by decide +kernel, by decide +kernel, trivial⟩,
    ⟨_, rfl, by decide +kernel, by decide +kernel, trivial⟩⟩

theorem witness_vector_float :
    Meets floatForm base (.vfadd plain .f32 .rtz 4 (.v 5) (.r (.v 6))) ∧
    Meets floatForm base (.vfsub plain .f16x2 .srnd 4 (.v 5) (.r (.v 6))) ∧
    Meets floatForm base (.vfmul plain .bf16x2 .rne 4 (.v 5) (.r (.v 6))) ∧
    Meets floatForm base (.vfma plain .f32 .rne 4 (.v 5) (.r (.v 6)) (.v 9)) ∧
    Meets floatForm base (.vfnma plain .f32 .rup 4 (.v 5) (.r (.v 6)) (.v 9)) ∧
    Meets floatForm base (.vfmin plain .f32 4 (.v 5) (.r (.v 6))) ∧
    Meets floatForm base (.vfmax plain .f32 4 (.v 5) (.r (.v 6))) ∧
    Meets floatForm base (.vfabs plain .f64 4 (.v 2)) ∧
    Meets floatForm base (.vfneg plain .f32 4 (.v 5)) ∧
    Meets floatForm base (.vfcmp plain .f32 .un 4 (.v 5) (.r (.v 6))) ∧
    Meets floatForm base (.vfclass plain .f32 4 (.v 5)) ∧
    Meets floatForm base (.vfdiv plain .f32 .rne 4 (.v 5) (.r (.v 6))) ∧
    Meets floatForm base (.vrcp plain .f32 4 (.v 5)) ∧
    Meets floatForm base (.vrsq plain .f16x2 4 (.v 5)) ∧
    Meets floatForm base (.vsqrt plain .f32 .rdn 4 (.v 5)) ∧
    Meets floatForm base (.vexp2 plain .f32 4 (.v 5)) ∧
    Meets floatForm base (.vlog2 plain .f32 4 (.v 5)) ∧
    Meets floatForm base (.vsin plain .f32 4 (.v 5)) ∧
    Meets floatForm base (.vcos plain .f32 4 (.v 5)) ∧
    Meets floatForm base (.vtanh plain .f32 4 (.v 5)) ∧
    Meets floatForm base (.vfloor plain .f32 4 (.v 5)) ∧
    Meets floatForm base (.vceil plain .f32 4 (.v 5)) ∧
    Meets floatForm base (.vfract plain .f32 .rne 4 (.v 5)) ∧
    Meets floatForm base (.vfscale plain .f32 .rne 4 (.v 5) (.r (.v 6))) :=
  ⟨⟨_, rfl, by decide +kernel, by decide +kernel, trivial⟩,
    ⟨_, rfl, by decide +kernel, by decide +kernel, trivial⟩,
    ⟨_, rfl, by decide +kernel, by decide +kernel, trivial⟩,
    ⟨_, rfl, by decide +kernel, by decide +kernel, trivial⟩,
    ⟨_, rfl, by decide +kernel, by decide +kernel, trivial⟩,
    ⟨_, rfl, by decide +kernel, by decide +kernel, trivial⟩,
    ⟨_, rfl, by decide +kernel, by decide +kernel, trivial⟩,
    ⟨_, rfl, by decide +kernel, by decide +kernel, trivial⟩,
    ⟨_, rfl, by decide +kernel, by decide +kernel, trivial⟩,
    ⟨_, rfl, by decide +kernel, by decide +kernel, trivial⟩,
    ⟨_, rfl, by decide +kernel, by decide +kernel, trivial⟩,
    ⟨_, rfl, by decide +kernel, by decide +kernel, trivial⟩,
    ⟨_, rfl, by decide +kernel, by decide +kernel, trivial⟩,
    ⟨_, rfl, by decide +kernel, by decide +kernel, trivial⟩,
    ⟨_, rfl, by decide +kernel, by decide +kernel, trivial⟩,
    ⟨_, rfl, by decide +kernel, by decide +kernel, trivial⟩,
    ⟨_, rfl, by decide +kernel, by decide +kernel, trivial⟩,
    ⟨_, rfl, by decide +kernel, by decide +kernel, trivial⟩,
    ⟨_, rfl, by decide +kernel, by decide +kernel, trivial⟩,
    ⟨_, rfl, by decide +kernel, by decide +kernel, trivial⟩,
    ⟨_, rfl, by decide +kernel, by decide +kernel, trivial⟩,
    ⟨_, rfl, by decide +kernel, by decide +kernel, trivial⟩,
    ⟨_, rfl, by decide +kernel, by decide +kernel, trivial⟩,
    ⟨_, rfl, by decide +kernel, by decide +kernel, trivial⟩⟩

theorem witness_conversion :
    Meets convertForm base (.vcvt plain .i32 .f32 .rtz false 4 (.v 5)) ∧
    Meets convertForm base (.vpack plain .e4m3 .rne true 4 (.v 5) (.r (.v 6)) 1) ∧
    Meets convertForm base (.vunpk plain .f32 .e4m3 4 (.v 5) 3) ∧
    Meets convertForm base (.vquant plain .e2m1 .rne 4 (.v 5) 6 7) ∧
    Meets convertForm base (.vdeq plain .e5m2 .rne 4 (.v 5) (.r 6) 2) ∧
    Meets convertForm base (.vsplit6 plain .e3m2 true 4 (.v 5) 1) ∧
    Meets convertForm base (.vjoin6 plain .e2m3 4 (.v 5) (.r (.v 6)) 3) ∧
    Meets convertForm base (.vdot8 plain .i8x4 .rne true 4 (.v 5) (.r (.v 6))) ∧
    Meets convertForm base (.vdot4 plain .e2m1 .rne false 4 (.v 5) (.r (.v 6))) ∧
    Meets convertForm base (.vtag plain 4 (.v 5) 0xB) ∧
    Meets convertForm base (.vsrnd plain 5) ∧
    Meets convertForm base (.vsrndDraw plain 4) :=
  ⟨⟨_, rfl, by decide +kernel, by decide +kernel, trivial⟩,
    ⟨_, rfl, by decide +kernel, by decide +kernel, trivial⟩,
    ⟨_, rfl, by decide +kernel, by decide +kernel, trivial⟩,
    ⟨_, rfl, by decide +kernel, by decide +kernel, trivial⟩,
    ⟨_, rfl, by decide +kernel, by decide +kernel, trivial⟩,
    ⟨_, rfl, by decide +kernel, by decide +kernel, trivial⟩,
    ⟨_, rfl, by decide +kernel, by decide +kernel, trivial⟩,
    ⟨_, rfl, by decide +kernel, by decide +kernel, trivial⟩,
    ⟨_, rfl, by decide +kernel, by decide +kernel, trivial⟩,
    ⟨_, rfl, by decide +kernel, by decide +kernel, trivial⟩,
    ⟨_, rfl, by decide +kernel, by decide +kernel, trivial⟩,
    ⟨_, rfl, by decide +kernel, by decide +kernel, trivial⟩⟩

theorem witness_cross_lane :
    Meets crossForm base (.vshfl plain .b32 .xor 4 (.v 5) (.r (.v 6)) none) ∧
    Meets crossForm base (.vbcast plain .b32 4 (.v 5) (.r 6) (some (.v 7))) ∧
    Meets crossForm base (.vlrot plain .b32 4 (.v 5) (.imm 31) none) ∧
    Meets crossForm base (.vred plain .i32 .max .rne 4 (.v 5)) ∧
    Meets crossForm base (.vscan plain .f32 .add .rtz 4 (.v 5)) ∧
    Meets crossForm base (.vballot plain 4 5) ∧
    Meets crossForm base (.vmatch plain .b32 4 (.v 5)) ∧
    Meets crossForm base (.pset plain 4 5) ∧
    Meets crossForm base (.psetImm plain 4 0xF0F0F0F0) ∧
    Meets crossForm base (.pand plain 1 2 3) ∧
    Meets crossForm base (.por plain 1 2 3) ∧
    Meets crossForm base (.pxor plain 1 2 3) ∧
    Meets crossForm base (.pnot plain 1 2) ∧
    Meets crossForm base (.pmov plain 1 2) ∧
    Meets crossForm base (.pcnt plain 1 2) ∧
    Meets crossForm base (.pfirst plain 1 2) :=
  ⟨⟨_, rfl, by decide +kernel, by decide +kernel, trivial⟩,
    ⟨_, rfl, by decide +kernel, by decide +kernel, trivial⟩,
    ⟨_, rfl, by decide +kernel, by decide +kernel, trivial⟩,
    ⟨_, rfl, by decide +kernel, by decide +kernel, trivial⟩,
    ⟨_, rfl, by decide +kernel, by decide +kernel, trivial⟩,
    ⟨_, rfl, by decide +kernel, by decide +kernel, trivial⟩,
    ⟨_, rfl, by decide +kernel, by decide +kernel, trivial⟩,
    ⟨_, rfl, by decide +kernel, by decide +kernel, trivial⟩,
    ⟨_, rfl, by decide +kernel, by decide +kernel, trivial⟩,
    ⟨_, rfl, by decide +kernel, by decide +kernel, trivial⟩,
    ⟨_, rfl, by decide +kernel, by decide +kernel, trivial⟩,
    ⟨_, rfl, by decide +kernel, by decide +kernel, trivial⟩,
    ⟨_, rfl, by decide +kernel, by decide +kernel, trivial⟩,
    ⟨_, rfl, by decide +kernel, by decide +kernel, trivial⟩,
    ⟨_, rfl, by decide +kernel, by decide +kernel, trivial⟩,
    ⟨_, rfl, by decide +kernel, by decide +kernel, trivial⟩⟩

theorem witness_control :
    Meets controlForm base (.nop plain) ∧
    Meets controlForm base (.bra plain 0x10) ∧
    Meets controlForm (withS [(5, 0x80000010)]) (.braReg plain 5) ∧
    Meets controlForm base (.brp ⟨true, 2, false⟩ 0xFFFFFE) ∧
    Meets controlForm base (.brpJoin one 6 0x20) ∧
    Meets controlForm base (.join plain) ∧
    Meets controlForm (withS [(9, 1)]) (.loop plain 9 0xFFFFFC) ∧
    Meets controlForm base (.call plain 1 0x100) ∧
    Meets controlForm (withS [(2, 0x80000010)]) (.callReg plain 1 2) ∧
    Meets controlForm ({ withS [(7, 0x80000010)] with tags := [(0x4000000, 1)], mem := [(0x8000000C, 0x03)] }) (.calli plain 59 (.s 7)) ∧
    Meets controlForm (withS [(59, 0x80000010)]) (.ret plain 59) ∧
    Meets controlForm base (.exit one) ∧
    Meets controlForm base (.yield plain) ∧
    Meets controlForm base (.trap plain 0x2A) ∧
    Meets controlForm ({ withS [(61, 0x80000010)] with sheaves := [(0, { sheaf0 with a := { sheaf0.a with active := true } })] }) (.tret plain) ∧
    Meets controlForm ({ base with cores := [(0, { Core.init with store := [(63, ⟨[0x00, 0x70, 0, 0, 0, 0, 0, 0], 1⟩)] })] }) (.mcall plain 1 2 3 4 63) ∧
    Meets controlForm base (.bkpt plain 9) ∧
    Meets controlForm base (.waita plain 3 4) ∧
    Meets controlForm base (.sleep plain 4) ∧
    Meets controlForm base (.sleepImm plain 1000) ∧
    Meets controlForm base (.elect plain 6 8) :=
  ⟨⟨_, rfl, by decide +kernel, by decide +kernel, trivial⟩,
    ⟨_, rfl, by decide +kernel, by decide +kernel, by dsimp only; exact Or.inl (by decide +kernel)⟩,
    ⟨_, rfl, by decide +kernel, by decide +kernel, by dsimp only; exact ⟨by decide +kernel, Or.inl (by decide +kernel)⟩⟩,
    ⟨_, rfl, by decide +kernel, by decide +kernel, by dsimp only; exact Or.inl (by decide +kernel)⟩,
    ⟨_, rfl, by decide +kernel, by decide +kernel, by dsimp only; exact Or.inr (by decide +kernel)⟩,
    ⟨_, rfl, by decide +kernel, by decide +kernel, trivial⟩,
    ⟨_, rfl, by decide +kernel, by decide +kernel, by dsimp only; exact Or.inl (by decide +kernel)⟩,
    ⟨_, rfl, by decide +kernel, by decide +kernel, by dsimp only; exact Or.inl (by decide +kernel)⟩,
    ⟨_, rfl, by decide +kernel, by decide +kernel, by dsimp only; exact ⟨by decide +kernel, Or.inl (by decide +kernel)⟩⟩,
    ⟨_, rfl, by decide +kernel, by decide +kernel, by dsimp only; simp only [okThen_iff]; decide +kernel⟩,
    ⟨_, rfl, by decide +kernel, by decide +kernel, by dsimp only; exact ⟨by decide +kernel, Or.inr (Or.inl (by decide +kernel))⟩⟩,
    ⟨_, rfl, by decide +kernel, by decide +kernel, trivial⟩,
    ⟨_, rfl, by decide +kernel, by decide +kernel, trivial⟩,
    ⟨_, rfl, by decide +kernel, by decide +kernel, trivial⟩,
    ⟨_, rfl, by decide +kernel, by decide +kernel, by dsimp only; exact ⟨by decide +kernel, by decide +kernel, fun h => absurd h (by decide +kernel)⟩⟩,
    ⟨_, rfl, by decide +kernel, by decide +kernel, by dsimp only; decide +kernel⟩,
    ⟨_, rfl, by decide +kernel, by decide +kernel, trivial⟩,
    ⟨_, rfl, by decide +kernel, by decide +kernel, trivial⟩,
    ⟨_, rfl, by decide +kernel, by decide +kernel, trivial⟩,
    ⟨_, rfl, by decide +kernel, by decide +kernel, trivial⟩,
    ⟨_, rfl, by decide +kernel, by decide +kernel, trivial⟩⟩

theorem witness_state :
    Meets stateForm base (.xacq plain .x128) ∧
    Meets stateForm base (.xrel plain) ∧
    Meets stateForm base (.sread plain (.s 3) 8) ∧
    Meets stateForm base (.swrite plain 12 3) ∧
    Meets stateForm base (.genq plain .acc 3) ∧
    Meets stateForm base (.tagq plain 3 (.acc 2 15)) ∧
    Meets stateForm base (.rdtime plain true 3) ∧
    Meets stateForm base (.lread plain 3 4) ∧
    Meets stateForm base (.ctxsave plain 4) ∧
    Meets stateForm base (.ctxload plain 4) :=
  ⟨⟨_, rfl, by decide +kernel, by decide +kernel, by dsimp only; decide +kernel⟩,
    ⟨_, rfl, by decide +kernel, by decide +kernel, trivial⟩,
    ⟨_, rfl, by decide +kernel, by decide +kernel, trivial⟩,
    ⟨_, rfl, by decide +kernel, by decide +kernel, by dsimp only; decide +kernel⟩,
    ⟨_, rfl, by decide +kernel, by decide +kernel, trivial⟩,
    ⟨_, rfl, by decide +kernel, by decide +kernel, trivial⟩,
    ⟨_, rfl, by decide +kernel, by decide +kernel, trivial⟩,
    ⟨_, rfl, by decide +kernel, by decide +kernel, trivial⟩,
    ⟨_, rfl, by decide +kernel, by decide +kernel, by dsimp only; simp only [exists_and_left, isOk_iff, okThen_iff]; decide +kernel⟩,
    ⟨_, rfl, by decide +kernel, by decide +kernel, by dsimp only; exact ⟨_, _, rfl, rfl, by decide +kernel, by decide +kernel⟩⟩⟩

theorem witness_memory :
    Meets memoryForm (withS [(1, 16)]) (.ldl one .i8 4 ⟨some 1, some (.v 2), .imm8 16⟩) ∧
    Meets memoryForm (withS [(1, 16)]) (.stl one .b32 (.v 4) ⟨some 1, some (.v 2), .imm8 16⟩) ∧
    Meets memoryForm (withS [(1, 16)]) (.lds one .b64 4 ⟨some 1, some (.v 2), .imm8 16⟩) ∧
    Meets memoryForm (withS [(1, 16)]) (.sts one .f16 (.v 4) ⟨some 1, some (.v 2), .imm8 16⟩) ∧
    Meets memoryForm (withS [(1, 0x80001000)]) (.ldg one .f32 4 ⟨some 1, none, .imm32 0xFFFFFFFC⟩) ∧
    Meets memoryForm (withS [(1, 0x80001000)]) (.stg one .b32 (.s 4) ⟨some 1, none, .imm8 16⟩) ∧
    Meets memoryForm (withS [(1, 0x80001000)]) (.ldx one .b32 4 ⟨some 1, some (.v 2), .imm8 16⟩) ∧
    Meets memoryForm (withS [(1, 0x80001000)]) (.stx one .b32 (.v 4) ⟨some 1, some (.v 2), .imm8 16⟩) ∧
    Meets memoryForm (withS [(1, 0x80001000)]) (.ldb one .i32 4 (some 1) (.imm8 8)) ∧
    Meets memoryForm (withS [(1, 16)]) (.ldbLoc one .i32 4 (some 1) (.imm8 8)) ∧
    Meets memoryForm (withS [(1, 0x80001000)]) (.lda one .b32 .acq .job 4 ⟨some 1, some (.v 2), .imm8 16⟩) ∧
    Meets memoryForm (withS [(1, 0x80001000)]) (.str one .b32 .rel .pkg (.v 4) ⟨some 1, some (.v 2), .imm8 0⟩) ∧
    Meets memoryForm (withS [(1, 0x80001000)]) (.atom one .n32 .inc .ar .job 4 1 (.v 2) none (.v 6)) ∧
    Meets memoryForm (withS [(1, 0x80001000)]) (.atomn one .i32 .add .rlx .job 1 (.v 2) (some 64) (.v 6)) ∧
    Meets memoryForm (withS [(1, 0x80001000)]) (.acas one .b32 .rlx .job 4 1 (.v 2) none (.v 6)) ∧
    Meets memoryForm base (.fence one .ar .span) ∧
    Meets memoryForm (withS [(1, 0x80001000)]) (.prefg one ⟨some 1, some (.v 2), .imm8 16⟩) ∧
    Meets memoryForm (withS [(1, 0x80001000)]) (.cflush one ⟨some 1, some (.v 2), .imm8 16⟩) ∧
    Meets memoryForm base (.cflushAll one) :=
  ⟨⟨_, rfl, by decide +kernel, by decide +kernel, ⟨by decide +kernel, performs_of (by decide +kernel)⟩⟩,
    ⟨_, rfl, by decide +kernel, by decide +kernel, ⟨by decide +kernel, performs_of (by decide +kernel)⟩⟩,
    ⟨_, rfl, by decide +kernel, by decide +kernel, ⟨by decide +kernel, performs_of (by decide +kernel)⟩⟩,
    ⟨_, rfl, by decide +kernel, by decide +kernel, ⟨by decide +kernel, performs_of (by decide +kernel)⟩⟩,
    ⟨_, rfl, by decide +kernel, by decide +kernel, ⟨by decide +kernel, performs_of (by decide +kernel)⟩⟩,
    ⟨_, rfl, by decide +kernel, by decide +kernel, ⟨by decide +kernel, performs_of (by decide +kernel)⟩⟩,
    ⟨_, rfl, by decide +kernel, by decide +kernel, ⟨by decide +kernel, performs_of (by decide +kernel)⟩⟩,
    ⟨_, rfl, by decide +kernel, by decide +kernel, ⟨by decide +kernel, performs_of (by decide +kernel)⟩⟩,
    ⟨_, rfl, by decide +kernel, by decide +kernel, ⟨by decide +kernel, performs_of (by decide +kernel)⟩⟩,
    ⟨_, rfl, by decide +kernel, by decide +kernel, ⟨by decide +kernel, performs_of (by decide +kernel)⟩⟩,
    ⟨_, rfl, by decide +kernel, by decide +kernel, ⟨by decide +kernel, performs_of (by decide +kernel)⟩⟩,
    ⟨_, rfl, by decide +kernel, by decide +kernel, ⟨by decide +kernel, performs_of (by decide +kernel)⟩⟩,
    ⟨_, rfl, by decide +kernel, by decide +kernel, ⟨by decide +kernel, performs_of (by decide +kernel)⟩⟩,
    ⟨_, rfl, by decide +kernel, by decide +kernel, ⟨by decide +kernel, performs_of (by decide +kernel)⟩⟩,
    ⟨_, rfl, by decide +kernel, by decide +kernel, ⟨by decide +kernel, performs_of (by decide +kernel)⟩⟩,
    ⟨_, rfl, by decide +kernel, by decide +kernel, by dsimp only; decide +kernel⟩,
    ⟨_, rfl, by decide +kernel, by decide +kernel, trivial⟩,
    ⟨_, rfl, by decide +kernel, by decide +kernel, trivial⟩,
    ⟨_, rfl, by decide +kernel, by decide +kernel, trivial⟩⟩

theorem witness_barrier :
    Meets barrierForm base (.abinit plain 63 1) ∧
    Meets barrierForm base (.abexp plain 2 1) ∧
    Meets barrierForm base (.abarr plain 2 1) ∧
    Meets barrierForm base (.abwait plain 2 1) ∧
    Meets barrierForm base (.abtest plain 3 2 1) ∧
    Meets barrierForm base (.abtestPar plain 3 2 1) ∧
    Meets barrierForm base (.abret plain 2) ∧
    Meets barrierForm base (.abq plain .fault 3 2) ∧
    Meets barrierForm base (.cbar plain) ∧
    Meets barrierForm base (.sbar plain) :=
  ⟨⟨_, rfl, by decide +kernel, by decide +kernel, ⟨by decide +kernel, by decide +kernel⟩⟩,
    ⟨_, rfl, by decide +kernel, by decide +kernel, ⟨by decide +kernel, by decide +kernel⟩⟩,
    ⟨_, rfl, by decide +kernel, by decide +kernel, by dsimp only; decide +kernel⟩,
    ⟨_, rfl, by decide +kernel, by decide +kernel, by dsimp only; decide +kernel⟩,
    ⟨_, rfl, by decide +kernel, by decide +kernel, ⟨by decide +kernel, by decide +kernel⟩⟩,
    ⟨_, rfl, by decide +kernel, by decide +kernel, ⟨by decide +kernel, by decide +kernel⟩⟩,
    ⟨_, rfl, by decide +kernel, by decide +kernel, ⟨by decide +kernel, by decide +kernel⟩⟩,
    ⟨_, rfl, by decide +kernel, by decide +kernel, ⟨by decide +kernel, by decide +kernel⟩⟩,
    ⟨_, rfl, by decide +kernel, by decide +kernel, by dsimp only; decide +kernel⟩,
    ⟨_, rfl, by decide +kernel, by decide +kernel, by dsimp only; decide +kernel⟩⟩

theorem witness_far_memory :
    Meets farForm (withS [(1, 0x0080000000000000), (2, 0x0000002000000000), (3, 0x0000002000000000)]) (.tfetch plain .acq .span 2 1 2 3) ∧
    Meets farForm (withS [(1, 0x0080000000000000), (2, 0x0000002000000000), (3, 0x0000002000000000)]) (.tstore plain .rlx .job 2 1 2 3) ∧
    Meets farForm base (.twin plain 1) ∧
    Meets farForm base (.twq plain .queued 1) ∧
    Meets farForm (withS [(1, 0x0080000000000000), (2, 0x0080000000010000), (3, 64)]) (.mcopy plain .rlx .job 2 1 2 3) ∧
    Meets farForm (withS [(1, 0x0080000000000000), (2, 7), (3, 64)]) (.mfill plain .rlx .job 2 1 2 3) ∧
    Meets farForm (withS [(1, 0x0080000000000000), (2, 0x0080000000010000), (3, 64)]) (.mred plain .bf16 .max .rlx .job 2 1 2 3) ∧
    Meets farForm (withS [(1, 0x0080000000000000), (2, 65536)]) (.msnap plain .rlx .job 3 1 2) ∧
    Meets farForm (withS [(1, 0x0080080000000001)]) (.mclose plain .rlx .job 1) :=
  ⟨⟨_, rfl, by decide +kernel, by decide +kernel, by dsimp only; decide +kernel⟩,
    ⟨_, rfl, by decide +kernel, by decide +kernel, by dsimp only; decide +kernel⟩,
    ⟨_, rfl, by decide +kernel, by decide +kernel, trivial⟩,
    ⟨_, rfl, by decide +kernel, by decide +kernel, trivial⟩,
    ⟨_, rfl, by decide +kernel, by decide +kernel, ⟨by decide +kernel, by decide +kernel, by decide +kernel, by decide +kernel, ⟨_, _, _, rfl, rfl⟩, fun _ => by decide +kernel⟩⟩,
    ⟨_, rfl, by decide +kernel, by decide +kernel, by dsimp only; simp only [exists_and_left, isOk_iff, okThen_iff]; decide +kernel⟩,
    ⟨_, rfl, by decide +kernel, by decide +kernel, ⟨by decide +kernel, by decide +kernel, by decide +kernel, by decide +kernel, ⟨_, _, _, rfl, rfl⟩, fun _ => by decide +kernel⟩⟩,
    ⟨_, rfl, by decide +kernel, by decide +kernel, by dsimp only; simp only [exists_and_left, isOk_iff, okThen_iff]; decide +kernel⟩,
    ⟨_, rfl, by decide +kernel, by decide +kernel, by dsimp only; decide +kernel⟩⟩

theorem witness_matrix :
    Meets matrixForm base (.tdset plain .e4m3 15 1 2) ∧
    Meets matrixForm base (.tdtag plain 3 9) ∧
    Meets matrixForm base (.mma plain .f16 .z false 4 1 2 0xFFFF 0x00FF 128) ∧
    Meets matrixForm base (.mmas plain .i8x4 (.tile 5) 4 1 2 1 2 256) ∧
    Meets matrixForm base (.mzero plain 63 none) ∧
    Meets matrixForm base (.mew plain .i64 (.decay 6 7) 4 5 (some (1, 3))) ∧
    Meets matrixForm base (.mst plain .bf16 .rup true 3 5 none) ∧
    Meets matrixForm base (.mlda plain .f32 5 3 none) ∧
    Meets matrixForm base (.mrdv plain .b32 .rne false 2 4 5 14) ∧
    Meets matrixForm base (.mwrv plain .f32 0 5 (.v 4) 2) ∧
    Meets matrixForm base (.mtrn plain 5 6) ∧
    Meets matrixForm base (.mfen plain .rel .crew 7) ∧
    Meets matrixForm base (.mfenNoarrive plain .crew) :=
  ⟨⟨_, rfl, by decide +kernel, by decide +kernel, by dsimp only; decide +kernel⟩,
    ⟨_, rfl, by decide +kernel, by decide +kernel, trivial⟩,
    ⟨_, rfl, by decide +kernel, by decide +kernel, by dsimp only; decide +kernel⟩,
    ⟨_, rfl, by decide +kernel, by decide +kernel, by dsimp only; decide +kernel⟩,
    ⟨_, rfl, by decide +kernel, by decide +kernel, trivial⟩,
    ⟨_, rfl, by decide +kernel, by decide +kernel, trivial⟩,
    ⟨_, rfl, by decide +kernel, by decide +kernel, by dsimp only; decide +kernel⟩,
    ⟨_, rfl, by decide +kernel, by decide +kernel, by dsimp only; decide +kernel⟩,
    ⟨_, rfl, by decide +kernel, by decide +kernel, trivial⟩,
    ⟨_, rfl, by decide +kernel, by decide +kernel, trivial⟩,
    ⟨_, rfl, by decide +kernel, by decide +kernel, trivial⟩,
    ⟨_, rfl, by decide +kernel, by decide +kernel, by dsimp only; decide +kernel⟩,
    ⟨_, rfl, by decide +kernel, by decide +kernel, by dsimp only; decide +kernel⟩⟩

theorem witness_migration :
    Meets migrationForm (withS [(1, 0x80001000)]) (.mig plain 4 (some 1) (some (.v 2)) 0 0x40) ∧
    Meets migrationForm (withS [(1, 0x80001000)]) (.home plain) ∧
    Meets migrationForm base (.migset plain .s true 0xFF) ∧
    Meets migrationForm (withS [(1, 0x80001000)]) (.migsetHome plain 0x80) ∧
    Meets migrationForm base (.migq plain .refused 4) :=
  ⟨⟨_, rfl, by decide +kernel, by decide +kernel, ⟨by decide +kernel, by decide +kernel, by decide +kernel, lanesOk_of (by decide +kernel), by decide +kernel⟩⟩,
    ⟨_, rfl, by decide +kernel, by decide +kernel, by dsimp only; decide +kernel⟩,
    ⟨_, rfl, by decide +kernel, by decide +kernel, trivial⟩,
    ⟨_, rfl, by decide +kernel, by decide +kernel, by dsimp only; decide +kernel⟩,
    ⟨_, rfl, by decide +kernel, by decide +kernel, trivial⟩⟩

theorem witness_bit_serial :
    Meets bitSerialForm (withS [(1, 0x80001000), (2, 0x80002000), (3, 0x0000002000000100), (4, 0x80003000)]) (.bsadd plain true 4 1 2 3 7 7 15 true) ∧
    Meets bitSerialForm (withS [(1, 0x80001000), (2, 0x80002000), (3, 0x0000002000000100), (4, 0x80003000)]) (.bsmul plain false 4 1 2 3 7 7 15 false) ∧
    Meets bitSerialForm (withS [(1, 0x80001000), (2, 0x80002000), (3, 0x0000002000000100), (4, 0x80003000)]) (.bsmac plain false 4 1 2 3 7 7 15 false) ∧
    Meets bitSerialForm (withS [(1, 0x80001000), (2, 0x80002000), (3, 0x0000002000000100), (4, 0x80003000)]) (.bscmp plain .le 4 1 2 3 7 7 0 false) ∧
    Meets bitSerialForm (withS [(1, 0x80001000), (2, 0x80002000), (3, 0x0000002000000100), (4, 0x80003000)]) (.bspopc plain 4 1 3 7 false) :=
  ⟨⟨_, rfl, by decide +kernel, by decide +kernel, by dsimp only; simp only [exists_and_left, isOk_iff, okThen_iff]; decide +kernel⟩,
    ⟨_, rfl, by decide +kernel, by decide +kernel, by dsimp only; simp only [exists_and_left, isOk_iff, okThen_iff]; decide +kernel⟩,
    ⟨_, rfl, by decide +kernel, by decide +kernel, by dsimp only; simp only [exists_and_left, isOk_iff, okThen_iff]; decide +kernel⟩,
    ⟨_, rfl, by decide +kernel, by decide +kernel, by dsimp only; simp only [exists_and_left, isOk_iff, okThen_iff]; decide +kernel⟩,
    ⟨_, rfl, by decide +kernel, by decide +kernel, by dsimp only; simp only [exists_and_left, isOk_iff, okThen_iff]; decide +kernel⟩⟩

theorem witness_fabric :
    Meets fabricForm ({ withS [(2, 0x80002000), (3, 32), (4, 0x80004000)] with vregs := [(9, ⟨Vector.replicate 32 0x80003000, 3, 0⟩)] }) (.xsend one .rlx .job 4 8 2 3) ∧
    Meets fabricForm ({ withS [(2, 0x80002000), (3, 32), (4, 0x80004000)] with vregs := [(9, ⟨Vector.replicate 32 0x80003000, 3, 0⟩)] }) (.xsendNobar one .rlx .job 8 2 3) ∧
    Meets fabricForm ({ withS [(2, 0x80002000), (3, 32), (4, 0x80004000)] with vregs := [(9, ⟨Vector.replicate 32 0x80003000, 3, 0⟩)] }) (.xsendf one .rlx .job 4 8 2 3) ∧
    Meets fabricForm ({ withS [(2, 0x80002000), (3, 32), (4, 0x80004000)] with vregs := [(9, ⟨Vector.replicate 32 0x80003000, 3, 0⟩)] }) (.xget one .b32 .rlx .job 4 (.v 8) (.v 9)) ∧
    Meets fabricForm ({ withS [(2, 0x80002000), (3, 32), (4, 0x80004000)] with vregs := [(9, ⟨Vector.replicate 32 0x80003000, 3, 0⟩)] }) (.xatom one .n32 .inc .rlx .job 4 (.v 8) (.v 9) (.v 10)) ∧
    Meets fabricForm (withS [(1, 0x80001000), (2, 0x80002000), (3, 0x0000002000000020), (4, 0x80003000)]) (.xmcast one .rlx .job 4 1 2 5 3 21 true) ∧
    Meets fabricForm base (.xfence one .job) ∧
    Meets fabricForm (withS [(1, 0x80001000), (2, 0x80002000), (3, 0x8000300000000020)]) (.xred one .e4m3 true .rlx .job 4 1 2 3) ∧
    Meets fabricForm (withS [(1, 0x80001000), (2, 0x80002000), (3, 32)]) (.xresid one (.set 1 2 3)) ∧
    Meets fabricForm (withS [(1, 0x80001000), (2, 0x80002000), (3, 0x0000002000000020), (4, 0x80003000)]) (.xgrpSet one 255 1) ∧
    Meets fabricForm (withS [(1, 0x80001000), (2, 0x80002000), (3, 0x0000002000000020), (4, 0x80003000)]) (.xgrpGet one 7 1) ∧
    Meets fabricForm (withS [(1, 0x80001000), (2, 0x80002000), (3, 32)]) (.xresid one (.rd 4 1 3)) ∧
    Meets fabricForm (withS [(1, 0x80001000), (2, 0x80002000), (3, 32)]) (.xresid one (.clr 1 3)) :=
  ⟨⟨_, rfl, by decide +kernel, by decide +kernel, ⟨by decide +kernel, by decide +kernel, by decide +kernel, by decide +kernel, by decide +kernel, by decide +kernel, lanesOk_of (by decide +kernel), lanesOk_of (by decide +kernel), lanesRead_of (by decide +kernel), by decide +kernel, by decide +kernel⟩⟩,
    ⟨_, rfl, by decide +kernel, by decide +kernel, ⟨by decide +kernel, by decide +kernel, by decide +kernel, by decide +kernel, by decide +kernel, by decide +kernel, lanesOk_of (by decide +kernel), lanesOk_of (by decide +kernel), lanesRead_of (by decide +kernel), by decide +kernel, by decide +kernel⟩⟩,
    ⟨_, rfl, by decide +kernel, by decide +kernel, ⟨by decide +kernel, by decide +kernel, by decide +kernel, by decide +kernel, by decide +kernel, by decide +kernel, lanesOk_of (by decide +kernel), lanesOk_of (by decide +kernel), lanesRead_of (by decide +kernel), by decide +kernel, by decide +kernel⟩⟩,
    ⟨_, rfl, by decide +kernel, by decide +kernel, ⟨lanesOk_of (by decide +kernel), by decide +kernel, by decide +kernel⟩⟩,
    ⟨_, rfl, by decide +kernel, by decide +kernel, ⟨lanesOk_of (by decide +kernel), by decide +kernel, by decide +kernel⟩⟩,
    ⟨_, rfl, by decide +kernel, by decide +kernel, ⟨by decide +kernel, by decide +kernel, by decide +kernel, by decide +kernel, (by simp only [isOk_iff]; decide +kernel), notMod_of (by decide +kernel), isOk_iff.mpr (by decide +kernel), by decide +kernel, by decide +kernel⟩⟩,
    ⟨_, rfl, by decide +kernel, by decide +kernel, by dsimp only; decide +kernel⟩,
    ⟨_, rfl, by decide +kernel, by decide +kernel, ⟨by decide +kernel, by decide +kernel, isOk_iff.mpr (by decide +kernel), by decide +kernel, fun _ => isOk_iff.mpr (by decide +kernel), _, _, _, ⟨by decide +kernel, rfl⟩, ⟨by decide +kernel, rfl⟩, ⟨by decide +kernel, rfl⟩, by decide +kernel, by decide +kernel⟩⟩,
    ⟨_, rfl, by decide +kernel, by decide +kernel, ⟨by decide +kernel, _, _, ⟨by decide +kernel, rfl⟩, ⟨by decide +kernel, rfl⟩, by decide +kernel⟩⟩,
    ⟨_, rfl, by decide +kernel, by decide +kernel, by dsimp only; simp only [exists_and_left, isOk_iff, okThen_iff]; decide +kernel⟩,
    ⟨_, rfl, by decide +kernel, by decide +kernel, by dsimp only; simp only [exists_and_left, isOk_iff, okThen_iff]; decide +kernel⟩,
    ⟨_, rfl, by decide +kernel, by decide +kernel, ⟨by decide +kernel, _, ⟨by decide +kernel, rfl⟩, by decide +kernel⟩⟩,
    ⟨_, rfl, by decide +kernel, by decide +kernel, ⟨by decide +kernel, ⟨_, ⟨by decide +kernel, rfl⟩⟩, by decide +kernel⟩⟩⟩

theorem witness_launch :
    Meets launchForm (withS [(1, 0x80001000), (2, 2)]) (.lnch plain 4 1) ∧
    Meets launchForm (withS [(1, 0x80001000), (2, 2)]) (.larm plain 4 1 2) ∧
    Meets launchForm base (.ldep plain 1) ∧
    Meets launchForm (withS [(1, 1)]) (.lprio plain 1 2) ∧
    Meets launchForm (withS [(1, 1)]) (.lwait plain 4 1) :=
  ⟨⟨_, rfl, by decide +kernel, by decide +kernel, by dsimp only; simp only [exists_and_left, isOk_iff, okThen_iff]; decide +kernel⟩,
    ⟨_, rfl, by decide +kernel, by decide +kernel, by dsimp only; simp only [exists_and_left, isOk_iff, okThen_iff]; decide +kernel⟩,
    ⟨_, rfl, by decide +kernel, by decide +kernel, by dsimp only; decide +kernel⟩,
    ⟨_, rfl, by decide +kernel, by decide +kernel, trivial⟩,
    ⟨_, rfl, by decide +kernel, by decide +kernel, trivial⟩⟩

theorem witness_system :
    Meets systemForm (withS [(1, 0x80001000), (2, 2)]) (.rrset plain 1 2 3 true 0 3) ∧
    Meets systemForm (withS [(1, 0x80001000), (2, 2)]) (.rrinv plain false 5 0xFFFF) ∧
    Meets systemForm base (.pginv plain 1 2) ∧
    Meets systemForm base (.pginvMod plain 1) ∧
    Meets systemForm ({ withS [(1, 0x80001000)] with tags := [(0x4000080, 1)], mem := [(0x80001001, 0x70)] }) (.wcsld plain 1 5 0) ∧
    Meets systemForm ({ withS [(1, 0x80001000)] with tags := [(0x4000080, 1)], mem := [(0x80001001, 0x70)] }) (.wcsldAll plain 1 63 0) ∧
    Meets systemForm (withS [(1, 2)]) (.evpost plain 1 2 3) ∧
    Meets systemForm (withS [(1, 0x80001000), (2, 2)]) (.preq plain 4 1) ∧
    Meets systemForm (withS [(1, 0x80001000), (2, 2)]) (.preqRel plain 1) ∧
    Meets systemForm base (.dbgrd plain .acc 4 1) ∧
    Meets systemForm (withS [(1, 0x80001000), (2, 2)]) (.gensweep plain) ∧
    Meets systemForm (withS [(1, 0x80001000), (2, 2)]) (.gensweepSlice plain) ∧
    Meets systemForm (withS [(1, 0x80001000)]) (.dbgrd plain .mem 4 1) :=
  ⟨⟨_, rfl, by decide +kernel, by decide +kernel, trivial⟩,
    ⟨_, rfl, by decide +kernel, by decide +kernel, trivial⟩,
    ⟨_, rfl, by decide +kernel, by decide +kernel, by dsimp only; decide +kernel⟩,
    ⟨_, rfl, by decide +kernel, by decide +kernel, by dsimp only; decide +kernel⟩,
    ⟨_, rfl, by decide +kernel, by decide +kernel, ⟨_, rfl⟩⟩,
    ⟨_, rfl, by decide +kernel, by decide +kernel, ⟨_, rfl⟩⟩,
    ⟨_, rfl, by decide +kernel, by decide +kernel, by dsimp only; decide +kernel⟩,
    ⟨_, rfl, by decide +kernel, by decide +kernel, trivial⟩,
    ⟨_, rfl, by decide +kernel, by decide +kernel, trivial⟩,
    ⟨_, rfl, by decide +kernel, by decide +kernel, fun h => absurd h (by decide)⟩,
    ⟨_, rfl, by decide +kernel, by decide +kernel, trivial⟩,
    ⟨_, rfl, by decide +kernel, by decide +kernel, trivial⟩,
    ⟨_, rfl, by decide +kernel, by decide +kernel, fun _ => ⟨by decide +kernel, _, _, _, rfl, rfl, by decide +kernel⟩⟩⟩

/-! For every event, a state in which it may occur under the condition of its entry. -/

theorem witness_core_steps :
    CanOccur coreSteps ({ withSheaf { sheaf0 with park := some (.waita 3 5) } with time := 5 }) (.waitaTimeout (.core 0 0)) ∧
    CanOccur coreSteps ({ withSheaf { sheaf0 with park := some (.sleep 5) } with time := 5 }) (.sleepExpiry (.core 0 0)) ∧
    CanOccur coreSteps (withSheaf { sheaf0 with loads := [{ load0 with ready := 1 }] }) (.loadLaneReturn (.core 0 0) 7 0) ∧
    CanOccur coreSteps (withSheaf { sheaf0 with a := { sheaf0.a with park := some (.memory 7 0x80000000 0 1 none) }, loads := [{ load0 with bad := 1 }] }) (.memoryFaultSettle (.core 0 0) false) ∧
    CanOccur coreSteps (withSheaf { sheaf0 with a := { sheaf0.a with waiting := some ⟨0x14, 0, 1, 0, 0x80000008, 0, 0, false⟩ } }) (.trapEntry (.core 0 0) false) ∧
    CanOccur coreSteps ({ withSheaf { sheaf0 with park := some (.xacq false 128 false) } with cores := [(0, { Core.init with waiting := [⟨0, false, 128, false⟩] })] }) (.extendedBlockGrant 0) ∧
    CanOccur coreSteps ({ withSheaf { sheaf0 with ext := some ⟨64, 64, 3⟩, park := some (.sleep 5) } with cores := [(0, { Core.init with blocks := [(64, 64), (128, 128), (256, 256), (576, 64), (640, 128), (768, 256), (1024, 1024), (2048, 1024)], waiting := [⟨1, false, 128, false⟩] })] }) (.compactorMove 0) ∧
    CanOccur coreSteps ({ base with cores := [(0, { Core.init with blocks := [(0, 64), (64, 64)], move := some (64, 0) })] }) (.compactorMoveDone 0) ∧
    CanOccur coreSteps base (.sweeperPassEnd true 0) ∧
    CanOccur coreSteps base (.sweeperPassEnd false 0) :=
  ⟨⟨_, _, rfl, by decide +kernel⟩,
    ⟨_, _, rfl, by decide +kernel⟩,
    ⟨_, _, rfl, by decide +kernel⟩,
    ⟨_, _, rfl, by decide +kernel⟩,
    ⟨_, _, rfl, by decide +kernel⟩,
    ⟨_, _, rfl, by decide +kernel⟩,
    ⟨_, _, rfl, trivial⟩,
    ⟨_, _, rfl, by decide +kernel⟩,
    ⟨_, _, rfl, by decide +kernel⟩,
    ⟨_, _, rfl, by decide +kernel⟩⟩

theorem witness_orrery_steps :
    CanOccur orrerySteps base (.submissionWrite 0 0 (List.replicate 64 0)) ∧
    CanOccur orrerySteps ({ base with subs := [hostSubmission 0 (List.replicate 64 0)] }) (.orreryAdmit) ∧
    CanOccur orrerySteps ({ base with subs := [⟨0, List.replicate 64 0, some (0, false), 5, none, []⟩] }) (.orreryAdmit) ∧
    CanOccur orrerySteps ({ base with launches := [(1, fetchLaunch), (2, { launchIn .eligible with placed := 0 })] }) (.spanPlacement) ∧
    CanOccur orrerySteps (withSheaf { sheaf0 with a := PcSlot.free, ended := true }) (.crewRetire 0) ∧
    CanOccur orrerySteps (waits0) (.preemptionWaitExpiry 2) ∧
    CanOccur orrerySteps ({ base with spans := [(0, { fetchSpan with state := .saving })] }) (.spanSave 0) ∧
    CanOccur orrerySteps (saved0) (.spanRestore 0) ∧
    CanOccur orrerySteps ({ withSheaf { sheaf0 with frag := some frag0 } with nanos := 25000 }) (.recallTimeout (.core 0 0)) :=
  ⟨⟨_, _, rfl, by decide +kernel⟩,
    ⟨_, _, rfl, by decide +kernel⟩,
    ⟨_, _, rfl, by decide +kernel⟩,
    ⟨_, _, rfl, by decide +kernel⟩,
    ⟨_, _, rfl, by decide +kernel⟩,
    ⟨_, _, congrArg (Option.map _) (choose_first waits0 { launchIn .eligible with placed := 0, prio := 1 } [(0, { fetchSpan with units := 1 })] (0, [0]) (sort_one (by decide +kernel)) (by decide +kernel)), by decide +kernel⟩,
    ⟨_, _, rfl, by decide +kernel⟩,
    ⟨_, _, congrArg (Option.map _) (restore_nothing saved0 0 (saved0.span 0) (by decide +kernel)), by decide +kernel⟩,
    ⟨_, _, rfl, by decide +kernel⟩⟩

theorem witness_engine_steps :
    CanOccur engineSteps (withCore fun y => { y with sextant := ⟨[(9, cmd0)], [], 0⟩ }) (.chunkSend 0) ∧
    CanOccur engineSteps ({ base with chunks := [(5, chunk0)] }) (.chunkArrival 5) ∧
    CanOccur engineSteps (withCore fun y => { y with engine := ⟨[matCmd0], [], [], false, false, 0⟩ }) (.matrixCommandExecute 0) ∧
    CanOccur engineSteps (withCore fun y => { y with engine := ⟨[matCmd0], [], [], true, false, 0⟩ }) (.matrixCommandComplete 0) ∧
    CanOccur engineSteps ({ (withCore fun y => { y with engine := ⟨[], [], [], false, true, 0⟩ }) with time := 4096 }) (.matrixBurstEnd 0) ∧
    CanOccur engineSteps ({ base with gov := { Governor.init with queue := [(leave0, .launch 1)] } }) (.permitGrant 100) ∧
    CanOccur engineSteps ({ base with gov := { Governor.init with modQueue := [({ leave0 with kind := 3 }, .bitSerial 6144)] } }) (.moduleRoomReport 0) ∧
    CanOccur engineSteps ({ base with gov := { Governor.init with res := [⟨0, 1, 0, 1, 100, 0, 5, true, 0⟩] } }) (.reservationExpiry 0 1) ∧
    CanOccur engineSteps (queued0) (.eventQueueRecheck) :=
  ⟨⟨_, _, rfl, rfl⟩,
    ⟨_, _, rfl, by decide +kernel⟩,
    ⟨_, _, rfl, by decide +kernel⟩,
    ⟨_, _, rfl, by decide +kernel⟩,
    ⟨_, _, rfl, by decide +kernel⟩,
    ⟨_, _, rfl, by decide +kernel⟩,
    ⟨_, _, rfl, by decide +kernel⟩,
    ⟨_, _, rfl, by decide +kernel⟩,
    ⟨_, _, rfl, by decide +kernel⟩⟩

theorem witness_heliostat_steps :
    CanOccur heliostatSteps ({ base with conts := [(5, cont0)] }) (.continuationDepart 5) ∧
    CanOccur heliostatSteps ({ base with conts := [(5, { cont0 with toModule := true })] }) (.continuationArrival 5) ∧
    CanOccur heliostatSteps ({ base with conts := [(5, cont0)], gens := [(1, ⟨0, gensUpTo 65536, 0⟩)] }) (.continuationArrival 5) ∧
    CanOccur heliostatSteps ({ base with conts := [(5, { cont0 with kind := 1, home := 5 })] }) (.migrationReturn 5) :=
  ⟨⟨_, _, rfl, ⟨by decide +kernel, fun _ _ h => nomatch h⟩⟩,
    ⟨_, _, rfl, by decide +kernel⟩,
    ⟨_, _, rfl, ⟨by decide +kernel, issue_none (gens_all 65536 rfl) rfl⟩⟩,
    ⟨_, _, rfl, ⟨by decide +kernel, fun _ _ _ h _ => nomatch (show (none : Option Sheaf) = some _ from h)⟩⟩⟩

theorem witness_fabric_steps :
    CanOccur fabricSteps ({ base with links := [(0, { Link.init with control := [frame0] })] }) (.frameSend 0) ∧
    CanOccur fabricSteps ({ base with links := [(0, { Link.init with expSeq := 2 })] }) (.frameSend 0) ∧
    CanOccur fabricSteps base (.frameWrite 80 frame0) ∧
    CanOccur fabricSteps base (.frameReadRequest 80 { frame0 with type := 1 }) ∧
    CanOccur fabricSteps ({ base with sheaves := [(0, { sheaf0 with loads := [load0] })], xfers := [(3, xfer0 (.read 0 7 0 .b32 0 0))] }) (.frameReadResponse 80 { frame0 with type := 2, xid := 3 }) ∧
    CanOccur fabricSteps ({ base with chunks := [(5, chunk0)], xfers := [(3, xfer0 (.chunk 5))] }) (.frameReadResponse 80 { frame0 with type := 2, xid := 3 }) ∧
    CanOccur fabricSteps base (.frameAtomicRequest 80 { frame0 with type := 3, payload := [2, 3] ++ List.replicate 30 0, daddr := 0x0001000080001000 }) ∧
    CanOccur fabricSteps ({ base with sheaves := [(0, { sheaf0 with loads := [load0] })], xfers := [(3, xfer0 (.atom 0 7 .b32 0 [⟨0, 1, 0, 0⟩]))] }) (.frameAtomicResponse 80 { frame0 with type := 4, xid := 3 }) ∧
    CanOccur fabricSteps base (.frameEndToEndAck 80 { frame0 with type := 5 }) ∧
    CanOccur fabricSteps base (.frameMulticast 80 { frame0 with type := 6 }) ∧
    CanOccur fabricSteps base (.frameIdle 80 { frame0 with type := 7, last := false }) ∧
    CanOccur fabricSteps ({ base with links := [(80, { Link.init with retained := [⟨frame0, .short, [], 1, [], [], false⟩] })] }) (.replayRequest 80 { frame0 with type := 7, ack := 0xFFFF }) ∧
    CanOccur fabricSteps ({ base with modCmds := [(0, ⟨4, .none, .add, 0, 0, 0, 0, 0, none, 1⟩)], host := { base.host with liveGroups := [(0, 0)] } }) (.frameModuleCompletion 0 { frame0 with type := 9 }) ∧
    CanOccur fabricSteps base (.frameCorrupt 80) ∧
    CanOccur fabricSteps ({ base with nanos := 20000, links := [(0, { Link.init with retained := [⟨frame0, .short, [], 1, [], [], false⟩] })] }) (.replayTimeout 0) ∧
    CanOccur fabricSteps ({ base with relays := [(5, ⟨frame0, [1], false⟩)] }) (.relayForward 5) ∧
    CanOccur fabricSteps ({ base with xfers := [(3, xfer0 .cbar)] }) (.relayLossTimeout 2) ∧
    CanOccur fabricSteps ({ base with nanos := 1000000, xfers := [(3, { xfer0 (.mcast 0 0 5 0 none) with out := [(2 ^ 32, 32)] })] }) (.multicastMemberTimeout 3 1) :=
  ⟨⟨_, _, rfl, by decide +kernel⟩,
    ⟨_, _, rfl, by decide +kernel⟩,
    ⟨_, _, rfl, by decide +kernel⟩,
    ⟨_, _, rfl, by decide +kernel⟩,
    ⟨_, _, rfl, by decide +kernel⟩,
    ⟨_, _, rfl, by decide +kernel⟩,
    ⟨_, _, rfl, by decide +kernel⟩,
    ⟨_, _, rfl, by decide +kernel⟩,
    ⟨_, _, rfl, by decide +kernel⟩,
    ⟨_, _, rfl, by decide +kernel⟩,
    ⟨_, _, rfl, by decide +kernel⟩,
    ⟨_, _, rfl, by decide +kernel⟩,
    ⟨_, _, rfl, by decide +kernel⟩,
    ⟨_, _, rfl, by decide +kernel⟩,
    ⟨_, _, rfl, by decide +kernel⟩,
    ⟨_, _, rfl, rfl⟩,
    ⟨_, _, rfl, trivial⟩,
    ⟨_, _, rfl, by decide +kernel⟩⟩

theorem witness_optics_steps :
    CanOccur opticsSteps base (.rotorSlotBoundary 5) ∧
    CanOccur opticsSteps ({ base with planes := [(0, { Plane.init with domain := some 7 })] }) (.guardBeacon 0 1 1 7) ∧
    CanOccur opticsSteps ({ inState 1 with host := { (inState 1).host with training := true } }) (.guardBeacon 0 1 1 7) ∧
    CanOccur opticsSteps ({ base with planes := [(0, { Plane.init with silent := some (0, 5) })] }) (.rotorPlaneFailure 0 none) ∧
    CanOccur opticsSteps ({ base with planes := [(0, { Plane.init with silent := some (0, 5) })] }) (.rotorPlaneFailure 0 (some 5)) ∧
    CanOccur opticsSteps (downAt true) (.rotorPlaneRestore 0 none) ∧
    CanOccur opticsSteps (downAt false) (.rotorPlaneRestore 0 (some 3)) ∧
    CanOccur opticsSteps base (.wavelengthWindowEnd 0 1 5) ∧
    CanOccur opticsSteps base (.uncorrectableCodeword 0 1) ∧
    CanOccur opticsSteps base (.lossOfLock 0 1) ∧
    CanOccur opticsSteps base (.erasureDeclare 0 1) ∧
    CanOccur opticsSteps ({ base with links := [(0, { Link.init with sent := [(5, [30, 20, 10, 0])] })] }) (.linkEscalation 0 6) ∧
    CanOccur opticsSteps ({ base with nanos := 5000 }) (.retrainSlot 0 1 true) ∧
    CanOccur opticsSteps base (.forcedRetrain 0 1) ∧
    CanOccur opticsSteps ({ base with grps := [(1, { Group.init 1 with retraining := true })] }) (.forcedRetrainEnd 0 1 true) ∧
    CanOccur opticsSteps ({ base with grps := [(1, { Group.init 1 with retraining := true })] }) (.forcedRetrainEnd 0 1 false) ∧
    CanOccur opticsSteps base (.laserAgeingThreshold 0 1 0) ∧
    CanOccur opticsSteps base (.theodoliteWatchdogReset 1) ∧
    CanOccur opticsSteps ({ base with theos := [(1, { Theo.init with held := true })] }) (.theodoliteRecovered 1) ∧
    CanOccur opticsSteps ({ base with nanos := 5000000, lr := [(0, { LrLink.init with state := .trained, lastRec0 := some 5000000, unacked := [⟨⟨frame0, .link 0, [], 1, [], [], false⟩, 0, 0, 2000000⟩] })] }) (.lrRetryTimeout 0) ∧
    CanOccur opticsSteps ({ base with nanos := 100000000, lr := [(0, { LrLink.init with state := .trained })], links := [(120, { Link.init with retained := [⟨frame0, .link 0, [], 1, [], [], false⟩] })] }) (.lrAckTimeout 0) ∧
    CanOccur opticsSteps base (.lrTrainingAttempt 0 true) ∧
    CanOccur opticsSteps base (.lrTrainingAttempt 0 false) ∧
    CanOccur opticsSteps base (.lrLinkTrained 0 0 5) ∧
    CanOccur opticsSteps ({ base with nanos := 1000000000 }) (.lrLossDiscard 0) ∧
    CanOccur opticsSteps ({ base with lr := [(0, { LrLink.init with state := .trained, txCtr := 2 ^ 31 })] }) (.lrRekey 0 true) ∧
    CanOccur opticsSteps ({ base with lr := [(0, { LrLink.init with state := .trained, rxCtr := 2 ^ 31 })] }) (.lrRekey 0 false) ∧
    CanOccur opticsSteps ({ base with nanos := 1200000000, lr := [(0, { LrLink.init with dedup := [(3, 64, 0)] })] }) (.lrDedupExpiry 0 3 64) :=
  ⟨⟨_, _, rfl, by decide +kernel⟩,
    ⟨_, _, rfl, by decide +kernel⟩,
    ⟨_, _, rfl, by decide +kernel⟩,
    ⟨_, _, rfl, by decide +kernel⟩,
    ⟨_, _, rfl, by decide +kernel⟩,
    restore_whole (by decide +kernel) ⟨by decide +kernel, ten_slots (by decide +kernel) (by decide +kernel) (by decide +kernel)⟩,
    restore_offset (by decide +kernel) ⟨by decide +kernel, ten_slots (by decide +kernel) (by decide +kernel) (by decide +kernel)⟩,
    ⟨_, _, rfl, by decide +kernel⟩,
    ⟨_, _, rfl, by decide +kernel⟩,
    ⟨_, _, rfl, by decide +kernel⟩,
    ⟨_, _, rfl, by decide +kernel⟩,
    ⟨_, _, rfl, by decide +kernel⟩,
    ⟨_, _, rfl, by decide +kernel⟩,
    ⟨_, _, rfl, by decide +kernel⟩,
    ⟨_, _, rfl, by decide +kernel⟩,
    ⟨_, _, rfl, by decide +kernel⟩,
    ⟨_, _, rfl, by decide +kernel⟩,
    ⟨_, _, rfl, by decide +kernel⟩,
    ⟨_, _, rfl, by decide +kernel⟩,
    ⟨_, _, rfl, by decide +kernel⟩,
    ⟨_, _, rfl, by decide +kernel⟩,
    ⟨_, _, rfl, by decide +kernel⟩,
    ⟨_, _, rfl, by decide +kernel⟩,
    ⟨_, _, rfl, by decide +kernel⟩,
    ⟨_, _, rfl, by decide +kernel⟩,
    ⟨_, _, rfl, by decide +kernel⟩,
    ⟨_, _, rfl, by decide +kernel⟩,
    ⟨_, _, rfl, by decide +kernel⟩⟩

theorem witness_module_steps :
    CanOccur moduleSteps base (.moduleFault 0 0 256 0) ∧
    CanOccur moduleSteps base (.moduleFault 0 1 0 0) ∧
    CanOccur moduleSteps base (.moduleFault 0 2 0 0) ∧
    CanOccur moduleSteps base (.moduleFault 0 3 0 0) ∧
    CanOccur moduleSteps base (.moduleFault 0 4 0 1) ∧
    CanOccur moduleSteps ({ base with mods := [(0, { Mod.init with unreachable := true })] }) (.moduleRecovered 0) ∧
    CanOccur moduleSteps ({ base with launches := [(1, launchIn .discarding)] }) (.discardRelease 1) ∧
    CanOccur moduleSteps base (.thermalWarning 95001) ∧
    CanOccur moduleSteps base (.thermalThrottle 100001) ∧
    CanOccur moduleSteps ({ base with warm := true }) (.thermalRecover 89999) ∧
    CanOccur moduleSteps base (.powerExcursion 3150001) ∧
    CanOccur moduleSteps ({ base with excursion := true }) (.powerExcursionEnd 2999999) ∧
    CanOccur moduleSteps base (.thermalShutdown 110000) :=
  ⟨⟨_, _, rfl, by decide +kernel⟩,
    ⟨_, _, rfl, by decide +kernel⟩,
    ⟨_, _, rfl, by decide +kernel⟩,
    ⟨_, _, rfl, by decide +kernel⟩,
    ⟨_, _, rfl, by decide +kernel⟩,
    ⟨_, _, rfl, by decide +kernel⟩,
    ⟨_, _, rfl, by decide +kernel⟩,
    ⟨_, _, rfl, by decide +kernel⟩,
    ⟨_, _, rfl, by decide +kernel⟩,
    ⟨_, _, rfl, by decide +kernel⟩,
    ⟨_, _, rfl, by decide +kernel⟩,
    ⟨_, _, rfl, by decide +kernel⟩,
    ⟨_, _, rfl, trivial⟩⟩

theorem witness_host_steps :
    CanOccur hostSteps base (.coldReset) ∧
    CanOccur hostSteps (inState 0) (.identityEntry) ∧
    CanOccur hostSteps ({ inState 1 with host := { (inState 1).host with training := true }, planes := (List.range 40).map fun p => (p, { Plane.init with domain := some 7 }) }) (.opticsTrainingDone true) ∧
    CanOccur hostSteps ({ base with launches := [] }) (.stateReqMapped) ∧
    CanOccur hostSteps ({ inState 3 with host := { (inState 3).host with modmap := Vector.replicate 16 0 } }) (.stateReqOperational) ∧
    CanOccur hostSteps base (.ctxCreate 5 (Vector.replicate 8 1)) ∧
    CanOccur hostSteps ({ base with launches := [] }) (.ctxDelete 0) ∧
    CanOccur hostSteps base (.ctxPreSet 0) ∧
    CanOccur hostSteps base (.ctxPreClear 0) ∧
    CanOccur hostSteps (unmapped0) (.splitRequest 0 4) ∧
    CanOccur hostSteps (window0) (.hostWindowRead 0x1000 8) ∧
    CanOccur hostSteps (window0) (.hostWindowWrite 0x1000 [1, 2]) ∧
    CanOccur hostSteps base (.registerWrite 0x0018 0x8000000000000000) ∧
    CanOccur hostSteps (inState 1) (.registerWrite 0x0008 0) ∧
    CanOccur hostSteps (inState 2) (.registerWrite 0x0010 5) ∧
    CanOccur hostSteps (inState 2) (.registerWrite 0x0100 0) ∧
    CanOccur hostSteps base (.registerWrite 0x0240 0) ∧
    CanOccur hostSteps (inState 1) (.registerWrite 0x5000 4096) ∧
    CanOccur hostSteps (inState 1) (.firmwareStagingWrite 0 [1]) ∧
    CanOccur hostSteps base (.qctlSign) ∧
    CanOccur hostSteps ({ base with host := { base.host with signing := some [] } }) (.quoteReady) :=
  ⟨⟨_, _, rfl, by decide +kernel⟩,
    ⟨_, _, rfl, by decide +kernel⟩,
    ⟨_, _, rfl, by decide +kernel⟩,
    ⟨_, _, rfl, by decide +kernel⟩,
    ⟨_, _, rfl, by decide +kernel⟩,
    ⟨_, _, rfl, by decide +kernel⟩,
    ⟨_, _, rfl, by decide +kernel⟩,
    ⟨_, _, rfl, by decide +kernel⟩,
    ⟨_, _, rfl, by decide +kernel⟩,
    ⟨_, _, rfl, ⟨by decide +kernel, by decide +kernel, by decide +kernel, by decide +kernel, by decide +kernel, fun m h => absurd (show m ∈ ([] : List Nat) from (show unmapped0.mapModules = [] by decide +kernel) ▸ h) List.not_mem_nil⟩⟩,
    ⟨_, _, rfl, by decide +kernel⟩,
    ⟨_, _, rfl, by decide +kernel⟩,
    ⟨_, _, rfl, by decide +kernel⟩,
    ⟨_, _, rfl, by decide +kernel⟩,
    ⟨_, _, rfl, by decide +kernel⟩,
    ⟨_, _, rfl, by decide +kernel⟩,
    ⟨_, _, rfl, by decide +kernel⟩,
    ⟨_, _, rfl, by decide +kernel⟩,
    ⟨_, _, rfl, by decide +kernel⟩,
    ⟨_, _, rfl, by decide +kernel⟩,
    ⟨_, _, rfl, trivial⟩⟩

theorem witness_invar_steps :
    CanOccur invarSteps base (.invarCheckpoint) ∧
    CanOccur invarSteps ({ base with mods := [(0, { Mod.init with leaf := [(0, 0x01E0000000000000)] })], checkpoint := true, host := { base.host with safe := (Vector.replicate 16 0).set 0 0x8080000000000000 } }) (.checkpointDone true 5) ∧
    CanOccur invarSteps base (.invarPersist) ∧
    CanOccur invarSteps ({ base with host := { base.host with invarCmd := 2 } }) (.persistDone true 5) ∧
    CanOccur invarSteps ({ base with host := { base.host with invarCmd := 2 } }) (.persistDone false 5) ∧
    CanOccur invarSteps ({ base with launches := [], images := [⟨[], [], [], 0, 0⟩] }) (.invarRestore) ∧
    CanOccur invarSteps ({ base with launches := [], images := [⟨[], [], [], 0, 0⟩], host := { base.host with invarCmd := 3 } }) (.restoreDone true 5) :=
  ⟨⟨_, _, rfl, by decide +kernel⟩,
    ⟨_, _, rfl, by decide +kernel⟩,
    ⟨_, _, rfl, by decide +kernel⟩,
    ⟨_, _, rfl, by decide +kernel⟩,
    ⟨_, _, rfl, by decide +kernel⟩,
    ⟨_, _, rfl, by decide +kernel⟩,
    ⟨_, _, rfl, by decide +kernel⟩⟩

/-- Staging holds these bytes, as three payloads of one byte, in IDENTITY. -/
def staged (st : Tab Byte) : State := { inState 1 with host := { (inState 1).host with fwlen := #v[1, 1, 1], staging := st } }

/-- STATE_REQ_OPTICS, for staged payloads that Wohal's key signs: the key is a constant without a value. -/
theorem witness_optics_request (st : Tab Byte) (h : ∀ i < 3, (staged st).firmwareOk i = true) :
    CanOccur hostSteps (staged st) .stateReqOptics :=
  ⟨_, _, rfl, rfl, rfl, h, show (inState 1).rolesOk = true by decide +kernel⟩

/-! Hypotheses of the other statements. -/

def noPriv : State := { base with ctxs := [(0, { ctx0 with priv := false })] }
def noDebug : State := { base with ctxs := [(0, { ctx0 with dbg := false })] }

/-- A state meets the hypotheses that PrivilegeTrap, HazardTraps and EmptyExec share. -/
def Stood (s : State) (i : Instr) (Q : Form → Prop) : Prop :=
  ∃ F, formOf s i = some F ∧ i.wf = true ∧ stands s i ∧ Q F

theorem witness_pad : base.focusSlot.live = true ∧ (withSheaf { sheaf0 with a := PcSlot.free }).focusSlot.live = false := by
  decide +kernel

theorem witness_privilege :
    Stood noPriv (.gensweep plain) (fun _ => privileged noPriv (.gensweep plain) = true ∧ (noPriv.ctx (noPriv.ctxOf noPriv.focus)).priv = false) ∧
    Stood noDebug (.dbgrd plain .acc 4 1) (fun _ => (noDebug.ctx (noDebug.ctxOf noDebug.focus)).priv = true ∧
      noDebug.attested (noDebug.ctxOf noDebug.focus) = false) :=
  ⟨⟨_, rfl, by decide +kernel, ⟨by decide +kernel, by decide +kernel⟩, by decide +kernel⟩,
    ⟨_, rfl, by decide +kernel, ⟨by decide +kernel, by decide +kernel⟩, by decide +kernel⟩⟩

/-- The hypotheses of a clause of HazardTraps. -/
def Hazard (s : State) (i : Instr) (kind detail : Byte) : Prop :=
  Stood s i fun F => ¬(F.c.priv = true ∧ (s.ctx (s.ctxOf s.focus)).priv = false) ∧
    ¬(F.c.dbg = true ∧ s.attested (s.ctxOf s.focus) = false) ∧ (s.sheaf s.focus).pending (.p F.h.gp.val) = false ∧
    (s.ex i F.h).exec ≠ 0 ∧ (hazards (s.picked (s.ex i F.h)) s.focus F.h F.c).findSome? id = some (kind, detail)

/-- A strict sheaf whose guard p1 and register v1 are live, v1 with tag i32. -/
def strict0 : State :=
  { withSheaf { sheaf0 with strict := true } with
    pregs := [(1, ⟨1, 3⟩)]
    vregs := [(1, ⟨Vector.replicate 32 0, 3, 11⟩)] }

/-- Each of steps 7 to 11 refuses some instruction: overlap, pending register, register not held, barrier slot, tile, a stale
guard, a stale source, and a tag that does not match. -/
theorem witness_hazards :
    Hazard base (.ldg plain .b32 4 ⟨some 1, some (.v 4), .imm8 0⟩) 0x09 2 ∧
    Hazard (withSheaf { sheaf0 with ps := 2 }) (.smov plain 2 1) 0x04 1 ∧
    Hazard base (.vmov plain .b32 64 (.v 1)) 0x07 4 ∧
    Hazard (withCrew { crew0 with bar := 2 }) (.abret plain 5) 0x10 5 ∧
    Hazard (withCrew { crew0 with tiles := [0] }) (.mtrn plain 0 3) 0x11 3 ∧
    Hazard strict0 (.nop ⟨true, 2, false⟩) 0x06 0 ∧
    Hazard strict0 (.vmov ⟨false, 1, false⟩ .b32 4 (.v 2)) 0x06 1 ∧
    Hazard strict0 (.vfadd ⟨false, 1, false⟩ .f32 .rne 4 (.v 1) (.r (.v 1))) 0x05 0xB1 := by
  refine ⟨⟨_, rfl, ?_⟩, ⟨_, rfl, ?_⟩, ⟨_, rfl, ?_⟩, ⟨_, rfl, ?_⟩, ⟨_, rfl, ?_⟩, ⟨_, rfl, ?_⟩, ⟨_, rfl, ?_⟩, ⟨_, rfl, ?_⟩⟩ <;>
    exact ⟨by decide +kernel, ⟨by decide +kernel, by decide +kernel⟩, by decide +kernel⟩

/-- A guard that is pending, and a guard that holds no lane. -/
theorem witness_guards :
    Stood (withSheaf { sheaf0 with pp := 2 }) (.nop ⟨false, 1, false⟩)
      (fun F => ((withSheaf { sheaf0 with pp := 2 }).sheaf 0).pending (.p F.h.gp.val) = true) ∧
    Stood base (.nop ⟨false, 1, false⟩)
      (fun F => (base.sheaf 0).pending (.p F.h.gp.val) = false ∧ (base.ex (.nop ⟨false, 1, false⟩) F.h).exec = 0) :=
  ⟨⟨_, rfl, by decide +kernel, ⟨by decide +kernel, by decide +kernel⟩, by decide +kernel⟩,
    ⟨_, rfl, by decide +kernel, ⟨by decide +kernel, by decide +kernel⟩, by decide +kernel⟩⟩

/-- A fragment in visiting slot 16 of core 0. -/
def away0 : State := { base with sheaves := [(16, { sheaf0 with frag := some frag0, vbase := some 0 })], focus := 16 }

theorem witness_fragment : ∃ F, formOf away0 (.gensweep plain) = some F ∧ (Instr.gensweep plain).wf = true ∧
    away0.focusSlot.live = true ∧ (away0.sheaf away0.focus).frag.isSome = true ∧ sendsHome away0.focus (.gensweep plain) = true :=
  ⟨_, rfl, by decide +kernel⟩

theorem witness_decode_encode : (Instr.sadd plain .i64 true 1 2 (.r 3)).wf = true ∧
    ∃ i, decodeBits 0x100400C3C2C17118 = .ok i :=
  ⟨by decide +kernel, isOk_iff.mpr (by decide +kernel)⟩

theorem witness_reserved_class : (0x7F00 : BitVec 128).extractLsb' 0 2 ≠ 3 ∧ (0x7F00 : BitVec 128).extractLsb' 8 4 = 0xF := by
  decide +kernel

/-- The code bytes at the slot that a step selects. -/
def Selects (s : State) (k : Nat) (b : Bool) (Q : List Byte → Prop) : Prop :=
  s.eventFirst = false ∧ s.select = some (k, b) ∧ ∃ bs, codeAt (begins s k b) k b bs ∧ Q bs

/-- The four bytes before the end of a fetch block hold the start of a NOP. -/
def crossing0 : State :=
  { base with mem := [(0x8000001D, 0x70)], tags := [(0x4000000, 1)],
              sheaves := [(0, { sheaf0 with a := PcSlot.start 0x8000001C 0xFFFFFFFF 63 })] }

theorem witness_step_runs : Selects (State.reset.withFetchWord 64 0x7000) 0 false
    (fun bs => lenBytes (firstWord bs) ≤ bs.length ∧ ∃ i, decodeBits (firstWord bs) = .ok i) :=
  ⟨by decide +kernel, by decide +kernel, _, ⟨by decide +kernel, by decide +kernel, rfl⟩, by decide +kernel,
    isOk_iff.mpr (by decide +kernel)⟩

theorem witness_reserved_word :
    Selects (State.reset.withFetchWord 64 0x7F00) 0 false
      (fun bs => lenBytes (firstWord bs) ≤ bs.length ∧ decodeBits (firstWord bs) = .error 1) ∧
    Selects crossing0 0 false (fun bs => bs.length < lenBytes (firstWord bs)) :=
  ⟨⟨by decide +kernel, by decide +kernel, _, ⟨by decide +kernel, by decide +kernel, rfl⟩, by decide +kernel, by decide +kernel⟩,
    ⟨by decide +kernel, by decide +kernel, _, ⟨by decide +kernel, by decide +kernel, rfl⟩, by decide +kernel⟩⟩

theorem witness_fetch : (∃ bs, base.fetchBlock 0 0x80000004 = .ok bs) ∧
    (0x80000000 : Word64).toNat = (0x80000004 : Word64).toNat / 32 * 32 ∧
    (∀ w, ((0x80000000 : Word64), w) ∉ (base.sheaf 0).code) ∧ ∃ w, base.readBlock (base.ctxOf 0) 0x80000000 = .ok w :=
  ⟨⟨_, rfl⟩, by decide, fun _ h => (nomatch h), ⟨_, rfl⟩⟩

/-- A sheaf whose PC stands in a block that it has kept in the form it still has in memory fetches that form. -/
theorem test_kept_same : ({ base with sheaves := [(0, { sheaf0 with
    code := [(0x80000000, List.replicate 32 0)] })] }).keptForm 0 0x80000000 = none := by
  decide +kernel

def due0 : State := { State.reset with host := { HostPort.init with cur := 0 }, due := [.identityEntry] }

theorem witness_step_event : due0.eventFirst = true ∧ due0.nextEvent = some (.identityEntry, []) ∧
    State.reset.due = [] ∧ State.reset.readySlots = [] := by
  decide +kernel

theorem witness_register_frame : ∃ F, registerForm base (.vadd plain .i32 4 (.v 5) (.r (.v 6))) = some F ∧
    (Instr.vadd plain .i32 4 (.v 5) (.r (.v 6))).wf = true ∧ base.issues (.vadd plain .i32 4 (.v 5) (.r (.v 6))) F.h F.c = true ∧
    quiet base base.focus ∧ base.focusSlot.micro = none :=
  ⟨_, rfl, by decide +kernel, by decide +kernel, ⟨by decide +kernel, by decide +kernel⟩, by decide +kernel⟩

/-- The store of lane 0 at 0x80001000. -/
def store0 : Instr := .stg one .b32 (.v 4) ⟨some 1, none, .imm8 0⟩

theorem witness_store : ∃ F h ty d p, storeOf store0 = some (h, ty, d, p) ∧ memoryForm (withS [(1, 0x80001000)]) store0 = some F ∧
    store0.wf = true ∧ (withS [(1, 0x80001000)]).issues store0 F.h F.c = true ∧
    F.ok ((withS [(1, 0x80001000)]).ex store0 F.h) ((withS [(1, 0x80001000)]).entered store0 F.h) ∧
    quiet (withS [(1, 0x80001000)]) 0 ∧ Safety.memOk (withS [(1, 0x80001000)]) ∧
    storedAt (p ((withS [(1, 0x80001000)]).ex store0 F.h) ((withS [(1, 0x80001000)]).entered store0 F.h))
      ((withS [(1, 0x80001000)]).ex store0 F.h) 0 = some 0x80001000 ∧
    (withS [(1, 0x80001000)]).accessGen (0x80001000 + 3) ≠ 0 ∧ 3 < tyBytes ty ∧
    ∀ M, 0 < M → storedAt (p ((withS [(1, 0x80001000)]).ex store0 F.h) ((withS [(1, 0x80001000)]).entered store0 F.h))
      ((withS [(1, 0x80001000)]).ex store0 F.h) M = none := by
  refine ⟨_, _, _, _, _, rfl, rfl, by decide +kernel, by decide +kernel, ⟨by decide +kernel, performs_of (by decide +kernel)⟩,
    ⟨by decide +kernel, by decide +kernel⟩, by unfold Safety.memOk; decide +kernel, by decide +kernel, by decide +kernel, by decide +kernel, ?_⟩
  intro M hM
  have lanes : ∀ L, L < 32 → 0 < L → ((withS [(1, 0x80001000)]).ex store0 one).exec.getLsbD L = false := by decide +kernel
  unfold storedAt
  rw [if_neg]
  rintro ⟨h1, h2⟩
  exact absurd (lanes M h1 hM) (by rw [h2]; decide)

theorem witness_load : readsOnly (.ldl one .b32 4 ⟨some 1, none, .imm8 0⟩) = true ∧
    Meets memoryForm base (.ldl one .b32 4 ⟨some 1, none, .imm8 0⟩) ∧ quiet base base.focus :=
  ⟨by decide +kernel, ⟨_, rfl, by decide +kernel, by decide +kernel, ⟨by decide +kernel, performs_of (by decide +kernel)⟩⟩,
    by decide +kernel, by decide +kernel⟩

/-- A fragment on unit 0 of module 0, whose page 0 is resident in storage frame 0. -/
def near0 : State :=
  { base with
    sheaves := [(0, sheaf0), (6144, { sheaf0 with frag := some { frag0 with home := 0 }, vbase := some 0 })]
    focus := 6144
    sregs := [(6144 * 64 + 1, ⟨0x0080000000000000, 3⟩)]
    pregs := [(6144 * 8, ⟨1, 3⟩)]
    mods := [(0, { Mod.init with leaf := [(0, 0x01E0000000000000)] })] }

def store1 : Instr := .stx one .b32 (.v 4) ⟨some 1, some (.v 2), .imm8 0⟩

/-- Its store of lane 0 at the first byte of the module. -/
theorem witness_module_store : ∃ F h ty d p, storeOf store1 = some (h, ty, d, p) ∧ memoryForm near0 store1 = some F ∧
    store1.wf = true ∧ near0.issues store1 F.h F.c = true ∧ F.ok (near0.ex store1 F.h) (near0.entered store1 F.h) ∧
    quiet near0 6144 ∧ Safety.memOk near0 ∧
    storedMod (p (near0.ex store1 F.h) (near0.entered store1 F.h)) (near0.ex store1 F.h) 0 = some (0, 0) ∧
    ∀ n, n < tyBytes ty → ¬ sameByte near0 0 4 (0 + n) := by
  refine ⟨_, _, _, _, _, rfl, rfl, by decide +kernel, by decide +kernel, ⟨by decide +kernel, performs_of (by decide +kernel)⟩,
    ⟨by decide +kernel, by decide +kernel⟩, by unfold Safety.memOk; decide +kernel, by decide +kernel, ?_⟩
  unfold sameByte
  decide +kernel

theorem witness_branch : branches (.brpJoin one 6 0x20) = true ∧ Meets controlForm base (.brpJoin one 6 0x20) ∧
    quiet base base.focus ∧ Safety.memOk base :=
  ⟨by decide +kernel, ⟨_, rfl, by decide +kernel, by decide +kernel, Or.inr (by decide +kernel)⟩,
    ⟨by decide +kernel, by decide +kernel⟩, by unfold Safety.memOk; decide +kernel⟩

/-- A handler at 0x80000100. -/
def handled0 : State := withS [(60, 0x80000100)]

theorem witness_trap : handled0.issues (.trap plain 0x2A) plain {} = true ∧ (handled0.sheaf 0).frag = none ∧
    (handled0.sheaf 0).baseGen ≠ 0 ∧ handled0.badSram = [] ∧ enters handled0 ∧ handles handled0 (handled0.focusSlot.pc + 8) ∧
    noPriv.issues (.trap plain 0x2A) plain {} = true ∧ (noPriv.sheaf 0).frag = none ∧ enters noPriv ∧
    ¬ handles noPriv (noPriv.focusSlot.pc + 8) ∧ Tab.find noPriv.launches (noPriv.sheaf 0).launch = some fetchLaunch ∧
    fetchLaunch.state = .active := by
  unfold enters handles
  decide +kernel

theorem witness_elect : (base.sheaf 0).baseGen ≠ 0 ∧ quiet base 0 ∧
    base.issues (.elect plain 6 8) plain { uses := [.dst (.p 6), ⟨1, .s 8, false, true, none⟩] } = true ∧
    stands base (.elect ⟨false, 1, false⟩ 6 8) ∧ (base.sheaf 0).pending (.p 1) = false ∧
    (base.ex (.elect ⟨false, 1, false⟩ 6 8) ⟨false, 1, false⟩).exec = 0 := by
  unfold quiet stands
  decide +kernel

theorem witness_partial_write : (1 : Word32) ≠ 0 ∧ vphys 0 (base.sheaf 0) 4 ≠ none ∧ vgen (base.sheaf 0) 4 ≠ 0 := by
  decide +kernel

theorem witness_frame : frame0.type.toNat < 10 ∧ frame0.payload.length = 32 * (frame0.len.toNat + 1) := by decide +kernel

theorem witness_round : fmtF32 ∈ formats ∧ 0x3F800000 < 2 ^ (fmtF32.e + fmtF32.m + 1) ∧ fmtF32.decode 0x3F800000 ≠ .nan := by
  decide +kernel

theorem witness_memory_form : Safety.memOk (State.reset.withFetchWord 64 0x7000) ∧
    ∃ t, step (State.reset.withFetchWord 64 0x7000) = .next t :=
  ⟨by unfold Safety.memOk; decide +kernel, _, rfl⟩

/-! Values of the spec's worked examples and rules. -/

def got {α : Type} (f : State → α) : Host.Outcome State Fault Refusal → Option α
  | .next t => some (f t)
  | _ => none

/-- The example of R185. -/
theorem test_sbfe : got (·.readS 0 1) (exec (.sbfe plain .i64 1 2 (.r 3) 8) (withS [(2, 0xF0A0), (3, 8)])) = some 0xFFFFFFFFFFFFFFF0 ∧
    got (·.readS 0 1) (exec (.sbfe plain .n64 1 2 (.r 3) 8) (withS [(2, 0xF0A0), (3, 8)])) = some 0xF0 := by
  decide +kernel

/-- The kernel scale_add (Table 8-9): v3 holds −5, and v12 is +0 in the lanes whose p2 is clear. -/
theorem test_scale_add : got (·.laneV 0 3 31) (exec (.vadd plain .i32 3 (.v 4) (.imm 0xFFFFFFFB)) base) = some 0xFFFFFFFB ∧
    got (·.laneV 0 12 0) (exec (.vfadd ⟨true, 2, false⟩ .f32 .rtz 12 (.v 4) (.r (.v 5))) base) = some 0 := by
  decide +kernel

/-- The kernel count3 (Table 9-3): a pass that goes on, and the last one. -/
theorem test_loop : got (fun t => (t.readS 0 7, ((t.sheaf 0).slot false).pc)) (exec (.loop plain 7 0x000003) (withS [(7, 3)])) =
      some (2, 0x8000000C) ∧
    got (fun t => (t.readS 0 7, ((t.sheaf 0).slot false).pc)) (exec (.loop plain 7 0x000003) (withS [(7, 1)])) = some (0, 0x80000008) := by
  decide +kernel

theorem test_sadd_sat : got (·.readS 0 1) (exec (.sadd plain .i64 true 1 2 (.r 3)) (withS [(2, 0x7FFFFFFFFFFFFFFF), (3, 1)])) =
      some 0x7FFFFFFFFFFFFFFF ∧
    got (·.readS 0 1) (exec (.sadd plain .i64 false 1 2 (.r 3)) (withS [(2, 0x7FFFFFFFFFFFFFFF), (3, 1)])) = some 0x8000000000000000 := by
  decide +kernel

/-- R185: a quotient by zero is zero, and its remainder the dividend. -/
theorem test_div_zero : got (·.readS 0 1) (exec (.sdiv plain .i64 1 2 (.r 3)) (withS [(2, 7)])) = some 0 ∧
    got (·.readS 0 1) (exec (.srem plain .i64 1 2 (.r 3)) (withS [(2, 7)])) = some 7 := by
  decide +kernel

/-- The lanes of v2 in the example of R229. -/
def red0 : State :=
  { base with pregs := [(0, ⟨0xF, 3⟩)]
              vregs := [(2, ⟨Vector.ofFn fun i => if i.val = 0 then 0x4B800000 else if i.val = 3 then 0xCB800000 else
                if i.val < 3 then 0x3F800000 else 0, 3, 1⟩)] }

/-- The example of R229: the tree gives 1.0 where lane order would give 0.0. -/
theorem test_vred_tree : got (·.readS 0 5) (exec (.vred one .f32 .add .rne 5 (.v 2)) red0) = some 0x3F800000 := by
  decide +kernel

def quant0 : State :=
  { base with vregs := [(4, ⟨Vector.ofFn fun i => if i.val = 0 then 0x42C80000 else if i.val = 1 then 0xC0400000 else
    if i.val = 2 then 0x3F400000 else 0, 3, 1⟩)] }

/-- The example of chapter 10 and R86: a block with 100, −3 and 0.75. -/
theorem test_vquant : got (fun t => (t.readS 0 3, (t.laneV 0 10 0).extractLsb' 20 4, (t.laneV 0 10 1).extractLsb' 20 4,
      (t.laneV 0 10 2).extractLsb' 20 4)) (exec (.vquant plain .e2m1 .rne 10 (.v 4) 3 5) quant0) = some (0x83, 0x7, 0x8, 0x0) := by
  decide +kernel

/-- The example of chapter 10: VFRACT of −2^−30 rounds to 1.0. -/
theorem test_vfract : got (·.laneV 0 4 0) (exec (.vfract plain .f32 .rne 4 (.s 1)) (withS [(1, 0xB0800000)])) = some 0x3F800000 := by
  decide +kernel

/-- The example of R67: element 10 of e3m2 splits into 0x3 and 0b10. -/
theorem test_vsplit6 : got (fun t => (t.laneV 0 31 0).extractLsb' 8 4) (exec (.vsplit6 plain .e3m2 false 31 (.s 1) 2) (withS [(1, 0x000E0000)])) = some 0x3 ∧
    got (fun t => (t.laneV 0 32 0).extractLsb' 20 2) (exec (.vsplit6 plain .e3m2 true 32 (.s 1) 2) (withS [(1, 0x000E0000)])) = some 2 := by
  decide +kernel

/-- R101: a constant-fill page of FRAME 0x3F80_0000 reads as f32 1.0. -/
theorem test_constant_page : ((List.range 4).map fun i => base.pageByte 0 0x03003F8000000000 (4 + i)) = [0, 0, 0x80, 0x3F] := by
  decide +kernel

/-- The example of R100: block 0x34 under swizzle 2 is block 0x43, on channel 3. -/
theorem test_swizzle : physByte 0x210000000A000000 0x3400 = 0x0A004300 ∧ channelOf 0x210000000A000000 0x0A004300 = 3 := by
  decide +kernel

/-- The example of R92: a range register with an offset reaches module 5. -/
theorem test_translate : (rangeLookup ((Vector.replicate 16 (0, 0, 0)).set 2 (0x700000000000 + 13, 0x7000FFFFF000, 0x7FE00000000000)) 0x700000123400 8 .rd).toOption.map
    (·.ia) = some 0x0080500000123400 := by
  decide +kernel

/-- Step 1 of Table 2-4: a join record with its two words, and the lanes that did not branch in slot B. -/
theorem test_divergence : got (fun t => (((t.sheaf 0).slot false).pc, ((t.sheaf 0).slot false).mask, ((t.sheaf 0).slot true).pc,
      ((t.sheaf 0).slot true).mask, ((t.sheaf 0).slot true).gov, (t.sheaf 0).depth))
      (exec (.brpJoin ⟨false, 1, false⟩ 0x40 0x200) { base with pregs := [(1, ⟨0xFFFF, 3⟩)] }) =
    some (0x80000100, 0xFFFF, 0x8000000C, 0xFFFF0000, 0, 2) ∧
    got (fun t => leNat (t.pkgRead (t.stackAddr 0 0) 16))
      (exec (.brpJoin ⟨false, 1, false⟩ 0x40 0x200) { base with pregs := [(1, ⟨0xFFFF, 3⟩)] }) =
    some (0x0000003F00000003 * 2 ^ 64 + 0xFFFFFFFF80000202) := by
  decide +kernel

/-- R382 and Table 18-8: TRAP #0x2A enters the handler at s60. -/
theorem test_trap : got (fun t => (t.readS 0 61, t.readS 0 63, ((t.sheaf 0).slot false).pc, ((t.sheaf 0).slot false).active))
    (exec (.trap plain 0x2A) handled0) = some (0x80000008, 0x2A, 0x80000100, true) := by
  decide +kernel

theorem test_elect : got (fun t => (t.readP 0 6, t.readS 0 8)) (exec (.elect one 6 8) { base with pregs := [(0, ⟨0xFFF0, 3⟩)] }) =
    some (0x10, 4) := by
  decide +kernel

/-- R55: the first store to a granule clears the rest of it. -/
theorem test_store_clears : got (fun t => (t.pkgByte 0x80001000, t.pkgByte 0x80001004, t.tag 0x80001000))
    (exec (.stg one .b32 (.s 2) ⟨some 1, none, .imm8 0⟩)
      { withS [(1, 0x80001000), (2, 0x55)] with mem := [(0x80001000, 9), (0x80001004, 9)] }) = some (0x55, 0, 1) := by
  decide +kernel

/-- R243: an arrival of 3 with EXP 2 completes one phase and leaves CNT 1. -/
theorem test_phase : (Bar.complete { Bar.of 0 with exp := 2 } 3).2 = 1 ∧ (Bar.complete { Bar.of 0 with exp := 2 } 3).1.phase = 1 ∧
    (Bar.complete { Bar.of 0 with exp := 2 } 3).1.cnt = 1 := by
  decide +kernel

/-- The example of R301: 0b1011 + 0b0110 in five rows is 17, and in four with .sat 15. -/
theorem test_bit_serial : fit 5 false false (11 + 6) = 17 ∧ fit 4 false true (11 + 6) = 15 ∧
    bsElem ((List.range 5).map fun b => bsRow 1 b fun e => if e = 3 then 17 else 0) false 3 = 17 := by
  decide +kernel

/-- The example of R304: plane 20 offers matching 43 of family 4 from t = 1,091,400 ns. -/
theorem test_rotor_slot : planeOffset 20 1091400 = 299 ∧ planeOffset 20 1091399 ≠ 299 := by
  decide +kernel

/-- The example of Table 1-3: ROLE of the default engine roles. -/
theorem test_default_role : State.reset.fibreRole 0 = 0 ∧ State.reset.fibreRole 80 = 1 ∧ State.reset.fibreRole 127 = 2 := by
  decide +kernel

/-- The example of chapter 5: the package addresses of a core's scratchpad and of a slice. -/
theorem test_addresses : ({ Crew.empty with core := 37, unit := 3 } : Crew).base = 0x12818000 ∧
    ({ Span.empty with cluster := 4, unit := 4 } : Span).base = 0x90100000 := by
  decide +kernel

/-- A NOP runs as the first instruction after reset (log entry 11). -/
theorem test_first_step : got (fun t => ((t.sheaf 0).slot false).pc) (step (State.reset.withFetchWord 64 0x7000)) = some 0x80000008 := by
  decide +kernel

theorem witness_bounds : (3 : Nat) ≤ 3 ∧ (0 : Nat) < 8 * 1 ∧ (0 : Nat) < 5 := by decide

/-- The check values of CRC-32 and of SHA3-256 of nothing (IEEE 802.3, FIPS 202). -/
theorem test_digests : crc32 ((List.range 9).map fun i => BitVec.ofNat 8 (0x31 + i)) = 0xCBF43926 ∧
    beNat (sha3 []) = 0xA7FFC6F8BF1ED76651C14756A061D662F580FF4DE43B49FA82D80A4B80F8434A := by
  decide +kernel

/-- The second test case of AES-256-GCM: a key, a nonce and one block of zeros. -/
theorem test_gcm : (beNat (aesGcm (List.replicate 32 0) (List.replicate 12 0) [] (List.replicate 16 0)).1,
      beNat (aesGcm (List.replicate 32 0) (List.replicate 12 0) [] (List.replicate 16 0)).2) =
    (0xCEA7403D4D606B6E074EC5D3BAF39D18, 0xD0D1C8A799996BF0265B98B5D48AB919) := by
  decide +kernel

/-- A frame read from its own image, and refused when a bit of it has changed. -/
theorem test_frame_image :
    frameOfImage (frameImage { frame0 with daddr := 0x123456789ABCDE, seq := 5, dst := 0x1FF, hop := 2, ctx := 0x3FF }) =
      some { frame0 with daddr := 0x123456789ABCDE, seq := 5, dst := 0x1FF, hop := 2, ctx := 0x3FF } ∧
    frameOfImage ((frameImage frame0).set 40 1) = none := by
  decide +kernel

/-- A continuation of the migrator of R364, over these lanes. -/
def migrant (m : Word32) : Cont :=
  { cont0 with
    mask := m
    vregs := [(2, 0xD, Vector.replicate 32 2), (5, 0, Vector.replicate 32 5), (8, 0xD, Vector.replicate 32 8),
      (10, 0, Vector.replicate 32 10), (16, 0, Vector.replicate 32 16)]
    sregs := [(4, 0x44), (5, 0x55)]
    wb := { RegMask.none with v := 0x10420 } }

/-- R364: the lengths, the register codes, the format tags and WV of its continuations. -/
theorem test_record : (migrant 0xFF).bytes.length = 352 ∧ (migrant 0xF00).bytes.length = 272 ∧
    ((migrant 0xFF).bytes.drop 64).take 5 = [0x02, 0x05, 0x08, 0x0A, 0x10] ∧
    ((migrant 0xFF).bytes.drop 80).take 2 = [0x0D, 0x0D] ∧ ((migrant 0xFF).bytes.drop 88).take 3 = [0xC4, 0xC5, 0] ∧
    (migrant 0xFF).header.extractLsb' 179 16 = 0x001A ∧ (migrant 0xFF).header.extractLsb' 206 5 = 5 := by
  decide +kernel

/-- R313: with no erased symbols 30 errors are corrected and 31 are not; with 34 erased, 13. -/
theorem test_correctable : correctable 0 30 = true ∧ correctable 0 31 = false ∧ correctable 34 13 = true ∧ correctable 34 14 = false := by
  decide

/-! Entry traps, matrix commands, arrivals and returns. -/

/-- An instruction issues at home, and its entry traps for a reason of its own. -/
def Late (s : State) (i : Instr) (Q : Form → Ex → State → Prop) : Prop :=
  ∃ F, (controlForm s i = some F ∨ memoryForm s i = some F) ∧ i.wf = true ∧ s.issues i F.h F.c = true ∧
    (s.sheaf s.focus).frag = none ∧ Q F (s.ex i F.h) (s.entered i F.h)

/-- A sheaf with two live slots under records of this depth; p1 holds lanes 0 to 7. -/
def both (d : Nat) : State :=
  { withSheaf { sheaf0 with
      depth := d
      a := { PcSlot.start 0x80000000 0xFFFF 63 with gov := d - 1 }
      b := { PcSlot.start 0x80000100 0xFFFF0000 63 with gov := d - 1 } } with
    pregs := [(1, ⟨0xFF, 3⟩)] }

/-- A misaligned target, and one outside the code region. -/
theorem witness_bad_target :
    Late (withS [(5, 0x80000012)]) (.braReg plain 5) (fun _ x t => targetOf t x.k (.braReg plain 5) = some 0x80000012 ∧
      ¬ goodTarget x.pc 0x80000012) ∧
    Late (withS [(5, 0x180000010)]) (.ret plain 5) (fun _ x t => targetOf t x.k (.ret plain 5) = some 0x180000010 ∧
      ¬ goodTarget x.pc 0x180000010) :=
  ⟨⟨_, Or.inl rfl, by decide +kernel, by decide +kernel, by decide +kernel, by decide +kernel⟩,
    ⟨_, Or.inl rfl, by decide +kernel, by decide +kernel, by decide +kernel, by decide +kernel⟩⟩

/-- The stack is full, or lacks one entry of three; with one entry fewer in use there is room. -/
theorem witness_full_stack :
    Late (both 64) (.brp ⟨false, 1, false⟩ 6) (fun _ x t => branchOf t x (.brp ⟨false, 1, false⟩ 6) = some false ∧
      x.exec ≠ (slotOf x t).mask ∧ 64 < (t.sheaf x.k).depth + needs x t false ∧ t.badStack x.k (needs x t false) = []) ∧
    Late (both 62) (.brpJoin ⟨false, 1, false⟩ 6 0x20) (fun _ x t =>
      branchOf t x (.brpJoin ⟨false, 1, false⟩ 6 0x20) = some true ∧ x.exec ≠ (slotOf x t).mask ∧
        64 < (t.sheaf x.k).depth + needs x t true ∧ t.badStack x.k (needs x t true) = []) ∧
    Late (both 61) (.brpJoin ⟨false, 1, false⟩ 6 0x20) (fun _ x t => (t.sheaf x.k).depth + needs x t true = 64) :=
  ⟨⟨_, Or.inl rfl, by decide +kernel, by decide +kernel, by decide +kernel, by decide +kernel⟩,
    ⟨_, Or.inl rfl, by decide +kernel, by decide +kernel, by decide +kernel, by decide +kernel⟩,
    ⟨_, Or.inl rfl, by decide +kernel, by decide +kernel, by decide +kernel, by decide +kernel⟩⟩

/-- Lanes 0 to 4 have offset 2, the others one past the crew's region. -/
def lanes0 : State :=
  { withS [(1, 0x1000)] with
    vregs := [(2, ⟨Vector.ofFn fun i => if i.val < 5 then 2 else 0x10000, 3, 0⟩), (4, ⟨Vector.replicate 32 9, 3, 0⟩)] }

def load1 : Instr := .ldl plain .b32 6 ⟨some 1, some (.v 2), .imm8 0⟩
def load2 : Instr := .lda one .b32 .acq .job 6 ⟨some 1, none, .imm8 2⟩

theorem witness_faulting :
    Late lanes0 load1 (fun _ x t => planOf load1 = some (region true .b32 ⟨some 1, some (.v 2), .imm8 0⟩ true) ∧
      t.barred x.k = false ∧ t.remoteOut x.k = false ∧
      (∀ L, L < 32 → x.exec.getLsbD L = true → mayLeave (region true .b32 ⟨some 1, some (.v 2), .imm8 0⟩ true x t) x t L = false) ∧
      faulted (region true .b32 ⟨some 1, some (.v 2), .imm8 0⟩ true x t) x = 0xFFFFFFE0 ∧
      ∃ r, laneFault (region true .b32 ⟨some 1, some (.v 2), .imm8 0⟩ true x t) x 5 = some r) ∧
    Late (withS [(1, 0x80001000)]) load2 (fun _ x t => planOf load2 = some (virt .b32 ⟨some 1, none, .imm8 2⟩ false .rd false true true) ∧
      t.barred x.k = false ∧ t.remoteOut x.k = false ∧
      (∀ L, L < 32 → x.exec.getLsbD L = true → mayLeave (virt .b32 ⟨some 1, none, .imm8 2⟩ false .rd false true true x t) x t L = false) ∧
      faulted (virt .b32 ⟨some 1, none, .imm8 2⟩ false .rd false true true x t) x = 0 ∧
      crooked (virt .b32 ⟨some 1, none, .imm8 2⟩ false .rd false true true x t) x = 1) :=
  ⟨⟨_, Or.inr rfl, by decide +kernel, by decide +kernel, by decide +kernel, rfl, by decide +kernel, by decide +kernel,
      by decide +kernel, by decide +kernel, _, rfl⟩,
    ⟨_, Or.inr rfl, by decide +kernel, by decide +kernel, by decide +kernel, rfl, by decide +kernel, by decide +kernel,
      by decide +kernel, by decide +kernel, by decide +kernel⟩⟩

/-- A command of this instruction, with nothing else captured. -/
def command (i : Instr) : MatCmd := { matCmd0 with instr := i, exec := 0xFFFFFFFF, load := 7 }

def Commands (i : Instr) : Prop := i.wf = true ∧ (base.crew (command i).crew).accGen ≠ 0 ∧ runs base (command i)

theorem witness_commands :
    Commands (.mma plain .f16 .k false 0 0 1 0xFFFF 0xFFFF 128) ∧ Commands (.mmas plain .f16 .z 0 0 1 0xFFFF 0xFFFF 1) ∧
    Commands (.mzero plain 0 none) ∧ Commands (.mew plain .f64 (.add 1) 0 2 none) ∧ Commands (.mlda plain .f32 0 0 none) ∧
    Commands (.mwrv plain .f32 0 0 (.v 2) 14) ∧ Commands (.mtrn plain 0 3) ∧ Commands (.mst plain .f32 .rne false 0 0 none) ∧
    Commands (.mrdv plain .f32 .rne false 0 4 0 14) := by
  unfold Commands runs sparseOk
  refine ⟨⟨by decide +kernel, by decide +kernel, by decide +kernel, by decide +kernel, by decide +kernel, trivial⟩,
    ⟨by decide +kernel, by decide +kernel, by decide +kernel, by decide +kernel, by decide +kernel, by decide +kernel, ?_⟩,
    ?_, ?_, ?_, ?_, ?_, ?_, ?_⟩
  · intro k hk
    have h : k = 0 := Nat.lt_one_iff.mp hk
    subst h
    exact ⟨by decide +kernel, by decide +kernel, fun e h1 h2 => absurd h2 (Nat.not_lt.mpr (le_trans (by decide +kernel) h1))⟩
  all_goals exact ⟨by decide +kernel, by decide +kernel, by decide +kernel, by decide +kernel, by decide +kernel, trivial⟩

/-- A load that a queued MRDV answers. -/
theorem witness_mrdv_load : ∃ l ∈ ((withSheaf { sheaf0 with loads := [load0] }).sheaf 0).loads, l.id = 7 := ⟨load0, by decide +kernel⟩

/-- A continuation of lanes 1 and 2 with two vector registers, two scalars and a predicate. -/
def cont1 : Cont :=
  { cont0 with
    mask := 6
    hgen := 3
    carry := ⟨0x60, 0x30, 2⟩
    wb := ⟨0x20, 0x10, 2⟩
    vregs := [(5, 3, Vector.ofFn fun i => BitVec.ofNat 32 (100 + i.val)), (6, 13, Vector.replicate 32 7)]
    sregs := [(4, 0x44), (5, 0x55)]
    pregs := [(1, 2)] }

def land0 : State := { base with conts := [(5, cont1)] }

theorem apart_of {t : State} {k : Nat} (h : ∀ p < (t.sheaf k).vcount, ∀ q < (t.sheaf k).vcount,
    vphys k (t.sheaf k) p = vphys k (t.sheaf k) q → p = q) : apart t k := fun p q hp hq e => h p hp q hq e

/-- It is accepted in visiting slot 16 of core 1, whose registers have homes of their own. -/
theorem witness_lands : Tab.find land0.conts 5 = some cont1 ∧ active land0 cont1.launch = true ∧
    (∃ b, land0.berth cont1 = .ok b ∧ b.place = 40 ∧ ∃ g v, land0.issueGen (genKey b.place) = some (g, v) ∧ g ≠ 0) ∧
    ∃ t, execContinuationArrival 5 land0 = .next t ∧ apart t 40 :=
  ⟨rfl, by decide +kernel, ⟨_, rfl, rfl, _, _, rfl, by decide +kernel⟩, _, rfl, apart_of (by decide +kernel)⟩

/-- Home with an open window for lanes 1 and 2, in which lane 0 has written s4 and lane 2 s5. -/
def home0 (kind : Nat) : State :=
  { withSheaf { sheaf0 with
      win := some ⟨0, 0x80000100, 6, [(4, 0), (5, 2)]⟩
      winCount := 1
      depth := 1
      a := { sheaf0.a with mask := 0xFFFFFFF9 } } with
    conts := [(5, { cont1 with kind := kind })] }

/-- A HOME's return, one with a fault, a refused one, and the lanes of a pre-empted span. -/
theorem witness_returns : ∀ kind ∈ [1, 2, 3, 4], Tab.find (home0 kind).conts 5 = some { cont1 with kind := kind } ∧
    active (home0 kind) 1 = true ∧ accessed (home0 kind) { cont1 with kind := kind } = true ∧
    (∃ y w, Tab.find (home0 kind).sheaves 0 = some y ∧ y.win = some w ∧
      y.belongs (carried (home0 kind) { cont1 with kind := kind }) = true ∧ y.baseGen ≠ 0 ∧ (∀ e, y.ext = some e → e.gen ≠ 0)) ∧
    (home0 kind).badCarry 0 cont1.carry = false ∧ apart (home0 kind) 0 := by
  intro kind _
  exact ⟨rfl, rfl, rfl, ⟨_, _, rfl, rfl, rfl, by decide, fun _ h => nomatch h⟩, rfl,
    apart_of (by show ∀ p < 64, ∀ q < 64, vphys 0 sheaf0 p = vphys 0 sheaf0 q → p = q; decide +kernel)⟩

/-- R298: a HOME writes the position that it marks in its lanes, and no scalar that a lower lane has written. -/
theorem test_return : got (fun t => (t.laneV 0 5 1, t.laneV 0 5 0, t.laneV 0 6 1, t.readS 0 4, t.readS 0 5)) (execMigrationReturn 5 (home0 1)) =
      some (101, 0, 0, 0, 0) ∧
    got (fun t => (t.laneV 0 5 2, t.laneV 0 6 1, t.readS 0 4, t.readS 0 5)) (execMigrationReturn 5 (home0 2)) = some (102, 7, 0, 0x55) := by
  decide +kernel

end Sys2Proof.Tests
end

section
/-!
PROOFS. The steps of the host port (`Obligations.HostSteps`): what each guard of the host port says, then one lemma for each step,
that in a state which meets the table's condition the model takes the effect of the table.
-/

namespace Sys2Proof.Proofs.HostPort

open Sys2Proof Sys2Proof.Machine Sys2Proof.Claims

/-! The guards of the host port. -/

@[simp] theorem configures_iff {s : State} : s.configures = true ↔ mappedState s := by
  simp [State.configures]

theorem windowFits_iff {off n : Nat} : windowFits off n = true ↔ inWindow off n := by
  simp [windowFits, inWindow, and_assoc]

/-- A cold reset waits in OPERATIONAL while some launch is being discarded. -/
theorem coldReset_waits_iff {s : State} : (s.host.cur = 4 && s.launches.any fun p => p.2.state == .discarding) = true ↔
    ¬ (s.host.cur = 4 → ∀ p ∈ s.launches, p.2.state ≠ .discarding) := by
  simp

theorem firmwares_ok_iff {s : State} : (List.range 3).all s.firmwareOk = true ↔ ∀ i < 3, s.firmwareOk i = true := by
  simp

theorem any_launch_of_ctx_eq_false {s : State} {c : Nat} (retired : ∀ p ∈ s.launches, p.2.ctx ≠ c) :
    (s.launches.any fun p => p.2.ctx == c) = false :=
  List.any_eq_false.mpr fun p hp => by simpa using retired p hp

/-- The model's search for a group of each direction is the condition of R20. -/
theorem splitKeeps_iff {s : State} {fb n : Nat} :
    (s.mapModules.all fun m =>
      ((s.fibresOf 0).any fun f => (List.range 8).any fun g =>
        s.moduleOfGroup f g == some m && decide (g < if f = fb then n else s.splitOf f) == true) &&
      (s.fibresOf 0).any fun f => (List.range 8).any fun g =>
        s.moduleOfGroup f g == some m && decide (g < if f = fb then n else s.splitOf f) == false) = true ↔
    splitKeeps s fb n := by
  simp [splitKeeps, and_comm]

/-! The table's updates and the model's are the same. -/

theorem modHost_eq_hostSet (s : State) (f : HostPort → HostPort) : s.modHost f = hostSet s f := rfl

theorem windowRecord_eq_windowPosts (s : State) (a : Nat) : s.windowRecord a = windowPosts s a := rfl

/-! One step at a time. -/

/-- The event has the effect of the table in a state that meets the table's condition. -/
def OccursIn (s : State) (i : Instr) : Prop := ∀ P t, hostSteps s i = some (P, t) → P → exec i s = .next t

theorem OccursIn.of_row {s t : State} {i : Instr} {P : Prop} (row : hostSteps s i = some (P, t))
    (run : P → exec i s = .next t) : OccursIn s i := by
  intro Q u h hQ
  obtain ⟨rfl, rfl⟩ := Prod.mk.inj (Option.some.inj (row.symm.trans h))
  exact run hQ

theorem OccursIn.of_none {s : State} {i : Instr} (h : hostSteps s i = none) : OccursIn s i :=
  fun _ _ row => nomatch h.symm.trans row

/-! Bring-up (Table 15-4). -/

theorem coldReset_occurs (s : State) : OccursIn s .coldReset := .of_row rfl fun free =>
  congrArg Host.Outcome.next (if_neg fun waits => coldReset_waits_iff.mp waits free)

theorem identityEntry_occurs (s : State) : OccursIn s .identityEntry := .of_row rfl fun cold =>
  congrArg Host.Outcome.next (if_pos cold)

theorem reqOptics_of_checked {s : State} (identity : s.host.cur = 1) (idle : s.host.training = false)
    (signed : ∀ i < 3, s.firmwareOk i = true) (roles : s.rolesOk = true) :
    s.reqOptics =
      let t : State := { s.modHost (fun h => { h with meas := s.measure, training := true }) with
        planes := s.planes.map fun (p : Nat × Plane) => (p.1, { p.2 with domain := none }) }
      t.tick.later (.opticsTrainingDone (t.free64.getLsbD 0)) := by
  have roles' : (s.modHost fun h => { h with meas := s.measure }).rolesOk = true := roles
  simp only [State.reqOptics, identity, idle, firmwares_ok_iff.mpr signed, roles']
  rfl

theorem stateReqOptics_occurs (s : State) : OccursIn s .stateReqOptics := .of_row rfl fun ⟨identity, idle, signed, roles⟩ =>
  congrArg Host.Outcome.next (reqOptics_of_checked identity idle signed roles)

theorem opticsTrainingDone_occurs (s : State) (ok : Bool) : OccursIn s (.opticsTrainingDone ok) :=
  .of_row rfl fun ⟨trained, identity, training, roles, domain⟩ => by
    have roles' : (s.modHost fun h => { h with training := false }).rolesOk = true := roles
    have domain' : (s.modHost fun h => { h with training := false }).oneDomain = true := domain
    show execOpticsTrainingDone ok s = _
    simp only [execOpticsTrainingDone, trained, identity, training, roles', domain']
    rfl

theorem stateReqMapped_occurs (s : State) : OccursIn s .stateReqMapped := .of_row rfl fun cond => by
  show Host.Outcome.next s.reqMapped = _
  rcases cond with ⟨optics, agree⟩ | ⟨operational, idle⟩
  · simp only [State.reqMapped, optics, agree]
    rfl
  · simp only [State.reqMapped, operational, idle]
    rfl

theorem stateReqOperational_occurs (s : State) : OccursIn s .stateReqOperational := .of_row rfl fun ⟨mapped, agree⟩ => by
  show Host.Outcome.next s.reqOperational = _
  simp only [State.reqOperational, mapped, agree]
  rfl

/-! Contexts (R336) and splits (R20). -/

theorem ctxCreate_occurs (s : State) (c : Nat) (w : Vector Word64 8) : OccursIn s (.ctxCreate c w) :=
  .of_row rfl fun ⟨mapped, inTable, unused, valid⟩ => congrArg Host.Outcome.next
    (if_neg (by simp [mapped, inTable, unused, valid]))

theorem ctxDelete_occurs (s : State) (c : Nat) : OccursIn s (.ctxDelete c) :=
  .of_row rfl fun ⟨mapped, used, retired⟩ => congrArg Host.Outcome.next
    (if_neg (by simp [mapped, used, any_launch_of_ctx_eq_false retired]))

theorem ctxPreSet_occurs (s : State) (c : Nat) : OccursIn s (.ctxPreSet c) :=
  .of_row rfl fun ⟨mapped, inTable⟩ => congrArg Host.Outcome.next
    (if_neg (by simp [mapped, inTable]))

theorem ctxPreClear_occurs (s : State) (c : Nat) : OccursIn s (.ctxPreClear c) :=
  .of_row rfl fun ⟨mapped, inTable⟩ => congrArg Host.Outcome.next
    (if_neg (by simp [mapped, inTable]))

theorem splitRequest_occurs (s : State) (fb : Nat) (v : Byte) : OccursIn s (.splitRequest fb v) :=
  .of_row rfl fun ⟨mapped, inTable, role, low, high, keeps⟩ => congrArg Host.Outcome.next
    (if_neg (by
      have kept := splitKeeps_iff.mpr keeps
      simp only [not_or]
      exact ⟨by simp [mapped], by omega, by simp [role], by omega, by omega, by
        simp only [kept, Bool.not_true, Bool.false_eq_true, not_false_eq_true]⟩))

/-! The window (R337). -/

theorem hostWindowRead_occurs (s : State) (off n : Nat) : OccursIn s (.hostWindowRead off n) :=
  .of_row rfl fun ⟨fits, isOpen⟩ => by
    show execHostWindowRead off n s = _
    simp only [execHostWindowRead, windowFits_iff.mpr fits, isOpen, Bool.not_true, Bool.false_or, Bool.not_eq_true', ne_eq,
      ite_not, Bool.false_eq_true, if_false, modHost_eq_hostSet, windowRecord_eq_windowPosts]

theorem hostWindowWrite_occurs (s : State) (off : Nat) (data : List Byte) : OccursIn s (.hostWindowWrite off data) :=
  .of_row rfl fun ⟨fits, isOpen⟩ => by
    show execHostWindowWrite off data s = _
    simp only [execHostWindowWrite, windowFits_iff.mpr fits, isOpen, Bool.not_true, Bool.not_eq_true', ne_eq, ite_not,
      Bool.false_eq_true, if_false, windowRecord_eq_windowPosts]

/-! Registers that a write only replaces (Table 15-2). -/

/-- Each register that the table lists is at its own branch of the model, with the states and the value that the table names. -/
theorem execRegisterWrite_of_plain {s : State} {off : Nat} {v : Word64} {r : List Nat × (HostPort → HostPort)}
    (row : plainRegister off v = some r) (now : s.host.cur ∈ r.1) (domain : off = 0x0010 → s.fibresOf 1 ≠ []) :
    execRegisterWrite off v s = .next (hostSet s r.2) := by
  have on : s.writable r.1 = true := by simpa [State.writable] using now
  unfold plainRegister at row
  split_ifs at row with role pkgnum win modmap safe fwlen
  · cases row
    simp [execRegisterWrite, role, on, modHost_eq_hostSet]
  · cases row
    simp [execRegisterWrite, pkgnum, on, domain pkgnum, modHost_eq_hostSet]
  · cases row
    simp [execRegisterWrite, win, on, modHost_eq_hostSet]
  · cases row
    simp (disch := omega) only [execRegisterWrite, if_pos, if_neg, on, modHost_eq_hostSet, if_true]
  · cases row
    simp (disch := omega) only [execRegisterWrite, if_pos, if_neg, on, modHost_eq_hostSet, if_true]
  · cases row
    simp (disch := omega) only [execRegisterWrite, if_pos, if_neg, on, modHost_eq_hostSet, if_true]

theorem registerWrite_occurs (s : State) (off : Nat) (v : Word64) : OccursIn s (.registerWrite off v) := by
  cases row : plainRegister off v with
  | none => exact .of_none (congrArg (Option.map _) row)
  | some r => exact .of_row (congrArg (Option.map _) row) fun ⟨now, domain⟩ => execRegisterWrite_of_plain row now domain

/-! Firmware (R350) and quotes (R351). -/

theorem firmwareStagingWrite_occurs (s : State) (off : Nat) (data : List Byte) : OccursIn s (.firmwareStagingWrite off data) :=
  .of_row rfl fun ⟨identity, some1, most64, inRegion⟩ => congrArg Host.Outcome.next
    (if_neg (by omega))

theorem qctlSign_occurs (s : State) : OccursIn s .qctlSign := .of_row rfl fun ⟨warm, idle⟩ =>
  congrArg Host.Outcome.next (if_neg (by simp [warm, idle]))

theorem quoteReady_occurs (s : State) : OccursIn s .quoteReady := by
  cases signing : s.host.signing with
  | none => exact .of_none (congrArg (Option.map _) signing)
  | some m =>
    refine .of_row (congrArg (Option.map _) signing) fun _ => ?_
    show execQuoteReady s = _
    simp only [execQuoteReady, signing, modHost_eq_hostSet]

/-- Settles O26: the rows of the table are the steps above, and every other event or instruction has no row. -/
theorem hostSteps : Obligations.HostSteps := by
  unfold Obligations.HostSteps
  intro i s
  show OccursIn s i
  cases i with
  | coldReset => exact coldReset_occurs s
  | identityEntry => exact identityEntry_occurs s
  | stateReqOptics => exact stateReqOptics_occurs s
  | opticsTrainingDone ok => exact opticsTrainingDone_occurs s ok
  | stateReqMapped => exact stateReqMapped_occurs s
  | stateReqOperational => exact stateReqOperational_occurs s
  | ctxCreate c w => exact ctxCreate_occurs s c w
  | ctxDelete c => exact ctxDelete_occurs s c
  | ctxPreSet c => exact ctxPreSet_occurs s c
  | ctxPreClear c => exact ctxPreClear_occurs s c
  | splitRequest fb v => exact splitRequest_occurs s fb v
  | hostWindowRead off n => exact hostWindowRead_occurs s off n
  | hostWindowWrite off data => exact hostWindowWrite_occurs s off data
  | registerWrite off v => exact registerWrite_occurs s off v
  | firmwareStagingWrite off data => exact firmwareStagingWrite_occurs s off data
  | qctlSign => exact qctlSign_occurs s
  | quoteReady => exact quoteReady_occurs s
  | _ => exact .of_none rfl

end Sys2Proof.Proofs.HostPort
end

section
/-!
PROOFS. What it takes for an instruction to complete as a table of `Claims` says, and the words that the model and the tables
compute in different ways: the lowest lane, the number of one bits, the low half of a scalar.
-/

namespace Sys2Proof.Proofs.Completion

open Sys2Proof Sys2Proof.Machine Sys2Proof.Claims

/-- An instruction in a state has the effect that a table gives it. -/
def CompletesIn (table : State → Instr → Option Form) (i : Instr) (s : State) : Prop :=
  ∀ F, table s i = some F → i.wf = true → s.issues i F.h F.c = true → F.ok (s.ex i F.h) (s.entered i F.h) →
    exec i s = .next (s.after i F.h (F.w (s.ex i F.h) (s.entered i F.h)) F.f)

theorem CompletesIn.of_none {table : State → Instr → Option Form} {i : Instr} {s : State} (h : table s i = none) :
    CompletesIn table i s := fun _ row => nomatch h.symm.trans row

/-- An instruction whose effect, under the condition of its entry, goes on and changes the state as the entry says. -/
theorem CompletesIn.of_effect {table : State → Instr → Option Form} {i : Instr} {s : State} {F : Form}
    {eff : Ex → State → Except TrapInfo (Flow × State)} (row : table s i = some F)
    (run : exec i s = .next (issue i F.h F.c eff s))
    (effect : i.wf = true → ∀ x t, x.exec ≠ 0 → F.ok x t → eff x t = .ok (F.w x t, F.f x t)) : CompletesIn table i s := by
  intro G rowG wf issued ok
  obtain rfl : F = G := Option.some.inj (row.symm.trans rowG)
  obtain ⟨-, -, -, lanes, -, -⟩ := State.issues_parts issued
  rw [run, issue_ok issued (effect wf _ _ lanes ok), State.after]

/-- An instruction that cannot trap in steps 12 to 14 and has the effect of its entry. -/
theorem CompletesIn.of_simple {table : State → Instr → Option Form} {i : Instr} {s : State} {h : Hdr} {us : List Use}
    {f g : Ex → State → State} (row : table s i = form h us g)
    (run : exec i s = .next (issue i h { uses := us } (simple f) s)) (effect : i.wf = true → ∀ x t, f x t = g x t) :
    CompletesIn table i s :=
  .of_effect row run fun wf x t _ _ => congrArg (fun u => Except.ok (Flow.next, u)) (effect wf x t)

/-! The model's words and those of the tables. -/

theorem length_takeWhile_not_eq_head?_filter (p : Nat → Bool) (n m : Nat) :
    ((List.range' n m).takeWhile fun i => !p i).length + n = (((List.range' n m).filter p).head?).getD (n + m) := by
  induction m generalizing n with
  | zero => simp
  | succ m ih =>
    rw [List.range'_succ]
    cases hp : p n with
    | true => simp [hp]
    | false =>
      have := ih (n + 1)
      rw [show n + 1 + m = n + (m + 1) by omega] at this
      simp only [List.takeWhile_cons, List.filter_cons, hp, Bool.not_false, if_true, Bool.false_eq_true, if_false,
        List.length_cons]
      omega

/-- The lowest lane of a mask, found by the model and by the tables. -/
theorem lowest_eq_first (m : Word32) : lowest m = first m := by
  simpa [lowest, first, lanesOf, lanes, List.range_eq_range'] using (length_takeWhile_not_eq_head?_filter m.getLsbD 0 32).symm

theorem popcNat_eq_length_filter (n x : Nat) : popcNat n x = ((List.range n).filter x.testBit).length := by
  induction n generalizing x with
  | zero => rfl
  | succ n ih =>
    have shift : x.testBit ∘ Nat.succ = (x / 2).testBit := funext fun i => Nat.testBit_succ x i
    rw [popcNat, ih, List.range_succ_eq_map, List.filter_cons, List.filter_map, shift, Nat.testBit_zero]
    rcases Nat.mod_two_eq_zero_or_one x with e | e
    · simp [e]
    · simp [e, Nat.add_comm]

/-- The low word of a scalar. -/
theorem low32_eq_setWidth (x : Word64) : x.extractLsb' 0 32 = x.setWidth 32 :=
  (BitVec.setWidth_eq_extractLsb' (by decide)).symm

theorem popc_eq_ones {w : Nat} (x : BitVec w) : popc x = ones x := popcNat_eq_length_filter w x.toNat

end Sys2Proof.Proofs.Completion
end

section
/-!
PROOFS. Cross-lane and predicate instructions (`Obligations.CrossLaneResults`): one lemma for each entry of `Claims.crossForm`.
-/

namespace Sys2Proof.Proofs.CrossLane

open Sys2Proof Sys2Proof.Machine Sys2Proof.Claims Sys2Proof.Proofs.Completion

theorem srcTag_eq_tagOf (t : State) (k : Nat) (a : VSrc) : t.srcTag k a = tagOf t k 0 a := by cases a <;> rfl

theorem srcTagHi_eq_tagOf (t : State) (k : Nat) (a : VSrc) : t.srcTagHi k a = tagOf t k 1 a := by cases a <;> rfl

theorem fromLane_eq_fetchLane (t : State) (x : Ex) (ty : Ty) (a : VSrc) (fill : Option VSrc) (L : Nat) (j : Int) :
    t.fromLane x ty a fill L j = fetchLane t x ty a fill L j := by
  unfold State.fromLane fetchLane
  cases fill <;> rfl

theorem writeTags_eq_put (t : State) (x : Ex) (ty : Ty) (d : VReg) (lo hi : BitVec 4) (v : Nat → Word64) :
    t.writeTags x ty d lo hi v = put x ty d lo hi v t := rfl

/-- A copy from another lane (R43, R227). -/
theorem crossCopy_completes {s : State} {i : Instr} {h : Hdr} {ty : Ty} {d : VReg} {a : VSrc} {bu : List Use}
    {fill : Option VSrc} {src from_ : State → Nat → Nat → Int} (row : crossForm s i = copy s h ty d a bu fill from_)
    (run : exec i s = .next (crossCopy i h ty d a bu fill src s)) (lane : ∀ t k L, src t k L = from_ t k L) :
    CompletesIn crossForm i s :=
  .of_simple row run fun _ x t => by
    simp only [writeTags_eq_put, srcTag_eq_tagOf, srcTagHi_eq_tagOf, fromLane_eq_fetchLane, lane]

theorem vshfl_completes (s : State) (h : Hdr) (ty : Ty) (mode : ShflMode) (d : VReg) (a : VSrc) (b : BSrc)
    (fill : Option VSrc) : CompletesIn crossForm (.vshfl h ty mode d a b fill) s :=
  crossCopy_completes (by rw [crossForm]) rfl fun _ _ _ => by cases mode <;> rfl

theorem vbcast_completes (s : State) (h : Hdr) (ty : Ty) (d : VReg) (a : VSrc) (b : SSrc) (fill : Option VSrc) :
    CompletesIn crossForm (.vbcast h ty d a b fill) s :=
  crossCopy_completes (by rw [crossForm]) rfl fun _ _ _ => by rw [low32_eq_setWidth]

theorem vlrot_completes (s : State) (h : Hdr) (ty : Ty) (d : VReg) (a : VSrc) (b : SSrc) (fill : Option VSrc) :
    CompletesIn crossForm (.vlrot h ty d a b fill) s :=
  crossCopy_completes (by rw [crossForm]) rfl fun _ _ _ => by rw [low32_eq_setWidth]

/-! Reductions and comparisons of lanes. -/

/-- Of the types that a reduction accepts, i32 is the signed one. -/
theorem tySigned_eq_of_accepts {op : RedOp} {ty : Ty} (h : op.accepts ty = true) : tySigned ty = decide (ty = .i32) := by
  cases ty with
  | i32 | n32 | b32 | f32 => rfl
  | _ => cases op <;> cases h

theorem accepts_of_wf_vred {h : Hdr} {ty : Ty} {op : RedOp} {rnd : Rnd} {d : SReg} {a : VSrc}
    (wf : (Instr.vred h ty op rnd d a).wf = true) : op.accepts ty = true := by
  simp only [Instr.wf, Bool.and_eq_true] at wf
  obtain ⟨⟨⟨⟨-, tyOk⟩, -⟩, -⟩, -⟩ := wf
  exact tyOk

theorem srndStep_eq_stepped (t : State) (x : Ex) (rnd : Rnd) : t.srndStep x.k rnd = stepped x rnd t := rfl

theorem vred_completes (s : State) (h : Hdr) (ty : Ty) (op : RedOp) (rnd : Rnd) (d : SReg) (a : VSrc) :
    CompletesIn crossForm (.vred h ty op rnd d a) s :=
  .of_simple (by rw [crossForm]) rfl fun wf x t => by
    simp only [srndStep_eq_stepped, tySigned_eq_of_accepts (accepts_of_wf_vred wf), decide_eq_true_eq, BitVec.zeroExtend]

theorem vscan_completes (s : State) (h : Hdr) (ty : Ty) (op : RedOp) (rnd : Rnd) (d : VReg) (a : VSrc) :
    CompletesIn crossForm (.vscan h ty op rnd d a) s :=
  .of_simple (by rw [crossForm]; rfl) rfl fun _ _ _ => rfl

theorem vmatch_completes (s : State) (h : Hdr) (ty : Ty) (d : VReg) (a : VSrc) :
    CompletesIn crossForm (.vmatch h ty d a) s :=
  .of_simple (by rw [crossForm]) rfl fun _ _ _ => by simp only [put1, beq_eq_decide]

/-! Predicates and the scalars they give. -/

theorem pred2_completes {s : State} {i : Instr} {h : Hdr} {d a b : PReg} {f : Word32 → Word32 → Word32}
    (row : crossForm s i = p2 h d a b f) (run : exec i s = .next (pred2 i h d a b f s)) : CompletesIn crossForm i s :=
  .of_simple row run fun _ _ _ => rfl

theorem pred1_completes {s : State} {i : Instr} {h : Hdr} {d a : PReg} {f : Word32 → Word32}
    (row : crossForm s i = p1 h d a f) (run : exec i s = .next (pred1 i h d a f s)) : CompletesIn crossForm i s :=
  .of_simple row run fun _ _ _ => rfl

theorem pset_completes (s : State) (h : Hdr) (d : PReg) (a : SReg) : CompletesIn crossForm (.pset h d a) s :=
  .of_simple (by rw [crossForm]) rfl fun _ _ _ => by rw [low32_eq_setWidth]

theorem psetImm_completes (s : State) (h : Hdr) (d : PReg) (imm : Word32) : CompletesIn crossForm (.psetImm h d imm) s :=
  .of_simple (by rw [crossForm]) rfl fun _ _ _ => rfl

theorem vballot_completes (s : State) (h : Hdr) (d : SReg) (a : PReg) : CompletesIn crossForm (.vballot h d a) s :=
  .of_simple (by rw [crossForm]; rfl) rfl fun _ _ _ => rfl

theorem pcnt_completes (s : State) (h : Hdr) (d : SReg) (a : PReg) : CompletesIn crossForm (.pcnt h d a) s :=
  .of_simple (by rw [crossForm]; rfl) rfl fun _ _ _ => by rw [popc_eq_ones]

theorem pfirst_completes (s : State) (h : Hdr) (d : SReg) (a : PReg) : CompletesIn crossForm (.pfirst h d a) s :=
  .of_simple (by rw [crossForm]; rfl) rfl fun _ _ _ => by rw [lowest_eq_first]

/-- Settles O5: the entries of the table are the lemmas above, and every other instruction has none. -/
theorem crossLaneResults : Obligations.CrossLaneResults := by
  unfold Obligations.CrossLaneResults
  intro i s
  suffices CompletesIn crossForm i s from this
  cases i with
  | vshfl h ty mode d a b fill => exact vshfl_completes s h ty mode d a b fill
  | vbcast h ty d a b fill => exact vbcast_completes s h ty d a b fill
  | vlrot h ty d a b fill => exact vlrot_completes s h ty d a b fill
  | vred h ty op rnd d a => exact vred_completes s h ty op rnd d a
  | vscan h ty op rnd d a => exact vscan_completes s h ty op rnd d a
  | vballot h d a => exact vballot_completes s h d a
  | vmatch h ty d a => exact vmatch_completes s h ty d a
  | pset h d a => exact pset_completes s h d a
  | psetImm h d imm => exact psetImm_completes s h d imm
  | pand h d a b => exact pred2_completes (by rw [crossForm]) rfl
  | por h d a b => exact pred2_completes (by rw [crossForm]) rfl
  | pxor h d a b => exact pred2_completes (by rw [crossForm]) rfl
  | pnot h d a => exact pred1_completes (by rw [crossForm]) rfl
  | pmov h d a => exact pred1_completes (by rw [crossForm]; rfl) rfl
  | pcnt h d a => exact pcnt_completes s h d a
  | pfirst h d a => exact pfirst_completes s h d a
  | _ => exact .of_none rfl

end Sys2Proof.Proofs.CrossLane
end

section
/-!
PROOFS. Control instructions (`Obligations.ControlResults`): what the checks of targets and of stack room say, what a branch and a
CALLI do when they pass, then one lemma for each entry of `Claims.controlForm`.
-/

namespace Sys2Proof.Proofs.Control

open Sys2Proof Sys2Proof.Machine Sys2Proof.Claims Sys2Proof.Proofs.Completion

/-! Targets and stack room. -/

theorem relTarget_eq_rel (pc : Word64) (off : BitVec 24) : relTarget pc off = rel pc off := by
  rw [relTarget, rel, low32_eq_setWidth]

theorem high32_eq_iff (x y : Word64) : x.extractLsb' 32 32 = y.extractLsb' 32 32 ↔ x.toNat / 2 ^ 32 = y.toNat / 2 ^ 32 := by
  rw [← BitVec.toNat_inj]
  have := x.isLt
  have := y.isLt
  simp only [BitVec.extractLsb'_toNat, Nat.shiftRight_eq_div_pow]
  omega

theorem low2_eq_zero_iff (x : Word64) : x.extractLsb' 0 2 = 0 ↔ x.toNat % 4 = 0 := by
  rw [← BitVec.toNat_inj]
  simp [BitVec.extractLsb'_toNat]

theorem targetOk_iff {pc w : Word64} : targetOk pc w = true ↔ goodTarget pc w := by
  simp only [targetOk, Bool.and_eq_true, beq_iff_eq, high32_eq_iff, low2_eq_zero_iff]

/-- With room on the divergence stack an instruction that needs entries goes on. -/
theorem withStack_of_room {x : Ex} {t : State} {n : Nat} (enough : room x t n) (f : State → Flow × State) :
    withStack x n t f = .ok (f t) := by
  obtain ⟨fits, sound⟩ := enough
  rw [withStack, if_neg fun h => h.2 (sound h.1), if_pos fits]

/-- What an instruction that needs entries does, it does in the state that has been checked. -/
theorem withStack_const (x : Ex) (n : Nat) (t : State) (f : State → Flow × State) :
    withStack x n t f = withStack x n t fun _ => f t := rfl

/-! Branches. -/

/-- A branch of all lanes of its slot needs no stack; any other needs the entries of those that do not branch. -/
theorem branch_eq (x : Ex) (t : State) (target next : Word64) (j : Option Word64) (pre : State → State) :
    branch x target next j pre t =
      if x.exec = (Claims.slotOf x t).mask then .ok (.own, branchTo x target next j pre t)
      else withStack x (needs x t j.isSome) t fun _ => (.own, branchTo x target next j pre t) := by
  unfold branch branchTo Claims.slotOf
  by_cases all : x.exec = ((t.sheaf x.k).slot x.b).mask
  · simp only [if_pos all]
  · simp only [if_neg all, needs, State.otherNeeds]
    rw [withStack_const]
    cases j <;> rfl

theorem branch_of_ok {x : Ex} {t : State} {j : Option Word64} (h : branchOk x t j.isSome) (target next : Word64)
    (pre : State → State) : branch x target next j pre t = .ok (.own, branchTo x target next j pre t) := by
  rw [branch_eq]
  split
  · rfl
  · next some_stay => exact withStack_of_room (h.resolve_left some_stay) _

theorem bra_completes (s : State) (h : Hdr) (off : BitVec 24) : CompletesIn controlForm (.bra h off) s :=
  .of_effect rfl rfl fun _ _ _ _ ok => by
    rw [relTarget_eq_rel]
    exact branch_of_ok (j := none) ok _ _ _

theorem braReg_completes (s : State) (h : Hdr) (a : SReg) : CompletesIn controlForm (.braReg h a) s :=
  .of_effect rfl rfl fun _ _ _ _ ⟨good, ok⟩ =>
    (if_pos (targetOk_iff.mpr good)).trans (branch_of_ok (j := none) ok _ _ _)

theorem brp_completes (s : State) (h : Hdr) (off : BitVec 24) : CompletesIn controlForm (.brp h off) s :=
  .of_effect rfl rfl fun _ _ _ _ ok => by
    rw [relTarget_eq_rel]
    exact branch_of_ok (j := none) ok _ _ _

theorem brpJoin_completes (s : State) (h : Hdr) (off : BitVec 24) (j : Word32) :
    CompletesIn controlForm (.brpJoin h off j) s :=
  .of_effect rfl rfl fun _ _ _ _ ok => by
    rw [relTarget_eq_rel, relPc, ← low32_eq_setWidth]
    exact branch_of_ok (j := some _) ok _ _ _

theorem loop_completes (s : State) (h : Hdr) (d : SReg) (off : BitVec 24) : CompletesIn controlForm (.loop h d off) s :=
  .of_effect rfl rfl fun _ x t _ ok => by
    simp only [sub_eq_zero, relTarget_eq_rel]
    by_cases last : t.readS x.k d.val = 1
    · simp [last]
    · simp only [if_neg last]
      exact branch_of_ok (j := none) (ok.resolve_left last) _ _ _

theorem call_completes (s : State) (h : Hdr) (d : SReg) (off : BitVec 24) : CompletesIn controlForm (.call h d off) s :=
  .of_effect rfl rfl fun _ _ _ _ ok => by
    rw [relTarget_eq_rel]
    exact branch_of_ok (j := none) ok _ _ _

theorem callReg_completes (s : State) (h : Hdr) (d a : SReg) : CompletesIn controlForm (.callReg h d a) s :=
  .of_effect rfl rfl fun _ _ _ _ ⟨good, ok⟩ =>
    (if_pos (targetOk_iff.mpr good)).trans (branch_of_ok (j := none) ok _ _ _)

/-! Joins and returns. -/

theorem join_completes (s : State) (h : Hdr) : CompletesIn controlForm (.join h) s :=
  .of_effect rfl rfl fun _ x t _ _ => by
    unfold joinAt Claims.slotOf
    dsimp only
    split <;> rfl

theorem ret_completes (s : State) (h : Hdr) (a : SReg) : CompletesIn controlForm (.ret h a) s :=
  .of_effect rfl rfl fun _ x t _ ⟨good, ok⟩ => by
    unfold Claims.slotOf at ok ⊢
    simp only [targetOk_iff.mpr good, Bool.not_true, Bool.false_eq_true, if_false]
    by_cases returns : t.returnsTo x.k ((t.sheaf x.k).slot x.b) (t.readS x.k a.val) = true
    · simp only [if_pos returns]
    · simp only [if_neg returns]
      exact branch_of_ok (j := none) (ok.resolve_left returns) _ _ _

theorem exit_completes (s : State) (h : Hdr) : CompletesIn controlForm (.exit h) s :=
  .of_effect rfl rfl fun _ _ _ _ _ => rfl

/-! CALLI. -/

/-- The model's lanes that enter the lowest lane's target. -/
theorem mask32_target_eq_together (x : Ex) (t : State) (a : VSrc) :
    (mask32 fun L => x.exec.getLsbD L && calliTarget t x a L == calliTarget t x a (lowest x.exec)) = together x t a := by
  simp only [together, beq_eq_decide]

/-- With the entries that it needs, CALLI enters the lowest lane's target: under the governing record where that is the call's
own, as a branch where all lanes go together, and under a record of its own otherwise. -/
theorem calliEnter_of_room {x : Ex} {t : State} {a : VSrc} (enough : room x t (calliNeeds x t a)) (d : SReg) :
    calliEnter x d a t = .ok (.own, calliTo x d a t) := by
  unfold calliNeeds Claims.slotOf at enough
  unfold calliEnter calliTo Claims.slotOf
  simp only [mask32_target_eq_together, decide_eq_true_eq] at enough ⊢
  by_cases own : t.returnsTo x.k ((t.sheaf x.k).slot x.b) (x.pc + 8) = true
  · simp only [if_pos own] at enough ⊢
    exact withStack_of_room enough _
  · simp only [if_neg own] at enough ⊢
    by_cases one : x.exec &&& ~~~together x t a = 0
    · simp only [if_pos one] at enough ⊢
      refine branch_of_ok (j := none) ?_ _ _ _
      by_cases all : x.exec = ((t.sheaf x.k).slot x.b).mask
      · exact .inl all
      · rw [if_neg all] at enough
        exact .inr enough
    · simp only [if_neg one] at enough ⊢
      exact withStack_of_room enough _

theorem calli_completes (s : State) (h : Hdr) (d : SReg) (a : VSrc) : CompletesIn controlForm (.calli h d a) s :=
  .of_effect rfl rfl fun _ x t _ ⟨⟨n, budget, held⟩, sound, enough⟩ => by
    simp only [budget, whenSound, sound, if_true, if_pos held]
    exact calliEnter_of_room enough d

/-! Traps. -/

theorem softTrap_eq (t : State) (x : Ex) (kind code : Byte) : t.softTrap x kind code = t.takeTrap x.k x.b (soft x kind code) := rfl

theorem trap_completes (s : State) (h : Hdr) (code : Byte) : CompletesIn controlForm (.trap h code) s :=
  .of_effect rfl rfl fun _ _ _ _ _ => rfl

theorem bkpt_completes (s : State) (h : Hdr) (code : Byte) : CompletesIn controlForm (.bkpt h code) s :=
  .of_effect rfl rfl fun _ x t _ _ => by
    simp only [softTrap_eq]
    split <;> rfl

theorem find_sheaf_of_active {t : State} {k : Nat} {b : Bool} (h : ((t.sheaf k).slot b).active = true) :
    ∃ y, Tab.find t.sheaves k = some y := by
  cases found : Tab.find t.sheaves k with
  | some y => exact ⟨y, rfl⟩
  | none =>
    have absent : t.sheaf k = Sheaf.empty := by simp [State.sheaf, Tab.get, found]
    rw [absent] at h
    cases b <;> cases h

theorem slot_modSlot_same {t : State} {k : Nat} {y : Sheaf} (found : Tab.find t.sheaves k = some y) (b : Bool)
    (f : PcSlot → PcSlot) : ((t.modSlot k b f).sheaf k).slot b = f ((t.sheaf k).slot b) := by
  rw [State.modSlot, State.sheaf_modSheaf_same t found, State.sheaf_of_find t found]
  cases b <;> rfl

/-- Where TRET resumes (R397): at RPC, in a microprogram where INMC is set. -/
def resumed (t : State) (x : Ex) (y : PcSlot) : PcSlot :=
  { y with
    pc := t.readS x.k 61
    micro := if (t.readS x.k 62).getLsbD 50 then
        (t.resumeMicro x.k x.b (t.readS x.k 61) ((t.readS x.k 62).extractLsb' 51 5).toNat).toOption
      else none
    active := false }

theorem trapReturn_of_ok {t : State} {x : Ex} (good : goodTarget x.pc (t.readS x.k 61))
    (ok : (t.readS x.k 62).getLsbD 50 = true → ∃ m, t.resumeMicro x.k x.b (t.readS x.k 61)
      ((t.readS x.k 62).extractLsb' 51 5).toNat = .ok m) : t.trapReturn x = t.modSlot x.k x.b (resumed t x) := by
  unfold State.trapReturn resumed
  simp only [targetOk_iff.mpr good, Bool.not_true, Bool.false_eq_true, if_false]
  by_cases inmc : (t.readS x.k 62).getLsbD 50 = true
  · obtain ⟨m, resumes⟩ := ok inmc
    simp only [if_pos inmc, resumes, Except.toOption]
  · simp only [if_neg inmc]

theorem tret_completes (s : State) (h : Hdr) : CompletesIn controlForm (.tret h) s :=
  .of_effect rfl rfl fun _ x t _ ⟨active, good, ok⟩ => by
    obtain ⟨y, found⟩ := find_sheaf_of_active active
    have stands : ((t.sheaf x.k).slot x.b).active = true := active
    have ended : (((t.modSlot x.k x.b (resumed t x)).sheaf x.k).slot x.b).active = false := by
      rw [slot_modSlot_same found, resumed]
    simp only [stands, Bool.not_true, Bool.false_eq_true, if_false, trapReturn_of_ok good ok, ended]
    rfl

theorem mcall_completes (s : State) (h : Hdr) (p0 p1 p2 p3 : Byte) (m : Fin 64) :
    CompletesIn controlForm (.mcall h p0 p1 p2 p3 m) s :=
  .of_effect rfl rfl fun _ x t _ ⟨sound, some_op⟩ => by
    simp only [sound, Bool.false_eq_true, if_false, if_neg some_op]

/-! Waiting, sleeping, electing. -/

theorem waita_completes (s : State) (h : Hdr) (d a : SReg) : CompletesIn controlForm (.waita h d a) s :=
  .of_simple rfl rfl fun _ x t => by
    by_cases none_watched : (t.sheaf x.k).watch = []
    · simp [none_watched]
    · by_cases hit : (t.sheaf x.k).watchHit = true
      · simp [none_watched, hit]
      · simp [none_watched, hit]

theorem sleepFor_eq_sleepN (n : Nat) (x : Ex) (t : State) : sleepFor n x t = sleepN n x t := rfl

theorem sleep_completes (s : State) (h : Hdr) (a : SReg) : CompletesIn controlForm (.sleep h a) s :=
  .of_simple rfl rfl fun _ x t => by rw [sleepFor_eq_sleepN, low32_eq_setWidth]

theorem sleepImm_completes (s : State) (h : Hdr) (n : Word32) : CompletesIn controlForm (.sleepImm h n) s :=
  .of_simple rfl rfl fun _ x t => sleepFor_eq_sleepN n.toNat x t

theorem elect_completes (s : State) (h : Hdr) (d : PReg) (a : SReg) : CompletesIn controlForm (.elect h d a) s :=
  .of_simple rfl rfl fun _ x t => by simp only [laneBit, lowest_eq_first]

/-- Settles O6: the entries of the table are the lemmas above, and every other instruction has none. -/
theorem controlResults : Obligations.ControlResults := by
  unfold Obligations.ControlResults
  intro i s
  suffices CompletesIn controlForm i s from this
  cases i with
  | nop h => exact .of_simple rfl rfl fun _ _ _ => rfl
  | bra h off => exact bra_completes s h off
  | braReg h a => exact braReg_completes s h a
  | brp h off => exact brp_completes s h off
  | brpJoin h off j => exact brpJoin_completes s h off j
  | join h => exact join_completes s h
  | loop h d off => exact loop_completes s h d off
  | call h d off => exact call_completes s h d off
  | callReg h d a => exact callReg_completes s h d a
  | calli h d a => exact calli_completes s h d a
  | ret h a => exact ret_completes s h a
  | exit h => exact exit_completes s h
  | yield h => exact .of_simple rfl rfl fun _ _ _ => rfl
  | trap h code => exact trap_completes s h code
  | bkpt h code => exact bkpt_completes s h code
  | tret h => exact tret_completes s h
  | mcall h p0 p1 p2 p3 m => exact mcall_completes s h p0 p1 p2 p3 m
  | waita h d a => exact waita_completes s h d a
  | sleep h a => exact sleep_completes s h a
  | sleepImm h n => exact sleepImm_completes s h n
  | elect h d a => exact elect_completes s h d a
  | _ => exact .of_none rfl

end Sys2Proof.Proofs.Control
end

section
/-!
PROOFS. The traps that entries raise themselves (`Obligations.EntryTraps`): a bad scalar target, a full divergence stack, and lane
addresses that fault or are not aligned.
-/

namespace Sys2Proof.Proofs.EntryTraps

open Sys2Proof Sys2Proof.Machine Sys2Proof.Claims Sys2Proof.Proofs.Completion Sys2Proof.Proofs.Control

theorem trapsLate_of_error {s : State} {i : Instr} {h : Hdr} {c : Checks} {info : TrapInfo}
    {eff : Ex → State → Except TrapInfo (Flow × State)} (run : exec i s = .next (issue i h c eff s))
    (issued : s.issues i h c = true) (error : eff (s.ex i h) (s.entered i h) = .error info) : trapsLate s i h info := by
  rw [trapsLate, run, issue_error issued error]

/-! Bad targets (R173). -/

theorem targetOk_eq_false {pc w : Word64} (bad : ¬ goodTarget pc w) : targetOk pc w = false :=
  Bool.eq_false_iff.mpr fun ok => bad (targetOk_iff.mp ok)

theorem badTarget_trapsLate {i : Instr} {s : State} {F : Form} {w : Word64} (row : controlForm s i = some F)
    (issued : s.issues i F.h F.c = true) (target : targetOf (s.entered i F.h) (s.ex i F.h).k i = some w)
    (bad : ¬ goodTarget (s.ex i F.h).pc w) : trapsLate s i F.h (badTarget (s.ex i F.h)) := by
  cases i with
  | braReg h a =>
    cases row
    cases target
    exact trapsLate_of_error rfl issued (if_neg (by rw [targetOk_eq_false bad]; decide))
  | callReg h d a =>
    cases row
    cases target
    exact trapsLate_of_error rfl issued (if_neg (by rw [targetOk_eq_false bad]; decide))
  | ret h a =>
    cases row
    cases target
    exact trapsLate_of_error rfl issued (if_pos (by rw [targetOk_eq_false bad]; decide))
  | _ => cases target

/-! A full divergence stack (R32, R394). -/

theorem withStack_of_full {x : Ex} {t : State} {n : Nat} (home : (t.sheaf x.k).frag = none)
    (full : 64 < (t.sheaf x.k).depth + n) (sound : t.badStack x.k n = []) (f : State → Flow × State) :
    withStack x n t f = .error ⟨0x0B, BitVec.ofNat 8 ((t.sheaf x.k).depth + n - 64), x.exec, 0⟩ := by
  have max : t.stackMax x.k = 64 := by simp [State.stackMax, home]
  simp only [withStack, sound, max, home, Nat.not_le.mpr full, ne_eq, not_true, and_false, if_false, Option.isSome_none,
    Bool.false_eq_true]

theorem branch_of_full {x : Ex} {t : State} {j : Option Word64} (home : (t.sheaf x.k).frag = none)
    (some_stay : x.exec ≠ (Claims.slotOf x t).mask) (full : 64 < (t.sheaf x.k).depth + needs x t j.isSome)
    (sound : t.badStack x.k (needs x t j.isSome) = []) (target next : Word64) (pre : State → State) :
    branch x target next j pre t =
      .error ⟨0x0B, BitVec.ofNat 8 ((t.sheaf x.k).depth + needs x t j.isSome - 64), x.exec, 0⟩ := by
  rw [branch_eq, if_neg some_stay, withStack_of_full home full sound]

/-- An instruction that branches, as `branchOf` says, does so by `branch`. -/
theorem branchOf_branch {i : Instr} {s : State} {F : Form} {x : Ex} {t : State} {j : Bool} (row : controlForm s i = some F)
    (branches : branchOf t x i = some j) : ∃ eff, exec i s = .next (issue i F.h F.c eff s) ∧
      ∃ target next jp pre, jp.isSome = j ∧ eff x t = branch x target next jp pre t := by
  cases i with
  | bra h off => cases row; cases branches; exact ⟨_, rfl, _, _, none, _, rfl, rfl⟩
  | brp h off => cases row; cases branches; exact ⟨_, rfl, _, _, none, _, rfl, rfl⟩
  | call h d off => cases row; cases branches; exact ⟨_, rfl, _, _, none, _, rfl, rfl⟩
  | brpJoin h off p => cases row; cases branches; exact ⟨_, rfl, _, _, some _, _, rfl, rfl⟩
  | loop h d off =>
    cases row
    obtain ⟨more, ⟨⟩⟩ := Option.ite_none_left_eq_some.mp branches
    exact ⟨_, rfl, _, _, none, _, rfl, if_neg (mt sub_eq_zero.mp more)⟩
  | braReg h a =>
    cases row
    obtain ⟨good, ⟨⟩⟩ := Option.ite_none_right_eq_some.mp branches
    exact ⟨_, rfl, _, _, none, _, rfl, if_pos (targetOk_iff.mpr good)⟩
  | callReg h d a =>
    cases row
    obtain ⟨good, ⟨⟩⟩ := Option.ite_none_right_eq_some.mp branches
    exact ⟨_, rfl, _, _, none, _, rfl, if_pos (targetOk_iff.mpr good)⟩
  | ret h a =>
    cases row
    obtain ⟨⟨good, leaves⟩, ⟨⟩⟩ := Option.ite_none_right_eq_some.mp branches
    refine ⟨_, rfl, _, _, none, _, rfl, (if_neg ?_).trans (if_neg ?_)⟩
    · rw [targetOk_iff.mpr good]; decide
    · exact Bool.eq_false_iff.mp leaves
  | _ => cases branches

/-! Masks of lanes. -/

theorem testBit_foldr_bits (f : Nat → Bool) (k n L : Nat) :
    ((List.range' k n).foldr (fun i m => 2 * m + (if f i then 1 else 0)) 0).testBit L = (decide (L < n) && f (k + L)) := by
  induction n generalizing k L with
  | zero => simp
  | succ n ih =>
    rw [List.range'_succ, List.foldr_cons]
    cases L with
    | zero => cases h : f k <;> simp [Nat.testBit_zero, Nat.add_mod]
    | succ L =>
      rw [Nat.testBit_succ, show ∀ m : Nat, (2 * m + (if f k then 1 else 0)) / 2 = m by intro m; split <;> omega, ih]
      simp [Nat.add_assoc, Nat.add_comm 1]

theorem getLsbD_mask32 (f : Nat → Bool) (L : Nat) : (mask32 f).getLsbD L = (decide (L < 32) && f L) := by
  rw [mask32, BitVec.getLsbD_ofNat, lanes, List.range_eq_range', testBit_foldr_bits]
  simp

/-- The lowest lane of a mask with some lane is in it. -/
theorem getLsbD_lowest {m : Word32} (h : m ≠ 0) : m.getLsbD (lowest m) = true := by
  have some_lane : lanesOf m ≠ [] := by
    intro empty
    refine h (BitVec.eq_of_getLsbD_eq fun L hL => ?_)
    have out := List.filter_eq_nil_iff.mp empty L (List.mem_range.mpr hL)
    simpa using out
  obtain ⟨L, rest, lanes_⟩ := List.exists_cons_of_ne_nil some_lane
  have mem : L ∈ lanesOf m := by rw [lanes_]; exact List.mem_cons_self
  rw [lowest, lanes_]
  exact (List.mem_filter.mp mem).2

theorem lt_of_getLsbD {m : Word32} {L : Nat} (h : m.getLsbD L = true) : L < 32 := by
  by_contra out
  rw [BitVec.getLsbD_of_ge m L (by omega)] at h
  cases h

/-! Lane addresses (R232, R233, R402, R403). -/

theorem faultKind_eq_kindOf (code : Byte) : faultKind code = kindOf code := by
  simp only [faultKind, kindOf, Nat.lt_succ_iff]

/-- A lane that stays in its place faults, or performs its access from here. -/
def laneFate (p : Access.Plan) (x : Ex) (L : Nat) : Fate := match Claims.laneFault p x L with
  | some r => .bad r
  | none => .here

theorem fate_of_stays {p : Access.Plan} {x : Ex} {t : State} {L : Nat} (stays : mayLeave p x t L = false) :
    t.fate x p.auto (p.va L) L (p.lane L) = laneFate p x L := by
  unfold mayLeave at stays
  unfold State.fate laneFate Claims.laneFault
  cases lane : p.lane L with
  | error r => rfl
  | ok a =>
    rw [lane] at stays
    cases space : a.space with
    | pkg q v => simp only [space]
    | peer q o => simp only [space]
    | mod m o =>
      simp only [space] at stays ⊢
      cases own : (nearMem x.k && moduleOf x.k == m) with
      | true => simp
      | false =>
        simp only [own, Bool.not_false, Bool.true_and, Bool.or_eq_false_iff] at stays
        obtain ⟨⟨stay, redep⟩, auto⟩ := stays
        simp [stay, redep, auto]

/-! The checks of a memory operand, over the places of its lanes: which lanes leave, which fault, which are not aligned. -/

section Checks

variable (p : Access.Plan) (x : Ex) (t : State) (lane : Nat → Except Refused Access)

def fateAt (L : Nat) : Fate := t.fate x p.auto (p.va L) L (lane L)

def goes : Word32 := mask32 fun L => x.exec.getLsbD L && fateAt p x t lane L == .go

def fails : Word32 := mask32 fun L => x.exec.getLsbD L && (match fateAt p x t lane L with
  | .bad _ => true
  | _ => false)

def addressAt (L : Nat) : BitVec 56 := match lane L with
  | .ok a => BitVec.ofNat 56 a.ia
  | .error r => r.addr

def uneven : Word32 := mask32 fun L => x.exec.getLsbD L && p.aligned && (addressAt lane L).toNat % p.n != 0

/-- The trap of lanes that fault (R403). -/
def failTrap : Except TrapInfo (Flow × State) := match fateAt p x t lane (lowest (fails p x t lane)) with
  | .bad r => .error ⟨kindOf r.code, r.code, fails p x t lane, r.addr⟩
  | _ => .error ⟨0, 0, fails p x t lane, 0⟩

end Checks

/-- The order of the checks of a memory operand: what some lanes that leave carry, the addresses, their alignment. -/
theorem memAccess_eq (p : Access.Plan) (perform : Ex → (Nat → Access) → State → State) (x : Ex) (t : State) :
    ∃ rest, memAccess p perform x t =
      if t.barred x.k then .ok (.wait, t)
      else match (if goes p x t p.lane = 0 then none else t.carryCheck x) with
        | some e => .error e
        | none =>
          if fails p x t p.lane ≠ 0 then failTrap p x t p.lane
          else if uneven p x p.lane ≠ 0 then
            .error ⟨0x0E, 0x08, uneven p x p.lane, addressAt p.lane (lowest (uneven p x p.lane))⟩
          else rest := by
  have lane (L : Nat) : (lanes.map p.lane).getD L (p.lane L) = p.lane L := by
    by_cases h : L < 32 <;> simp [lanes, List.getD_eq_getElem?_getD, h]
  unfold memAccess
  simp only [lane]
  exact ⟨_, rfl⟩

/-! Where every lane of Exec stays, the lanes that fault and those that are not aligned are those of the table. -/

theorem mask32_exec_congr {x : Ex} {f g : Nat → Bool} (h : ∀ L, x.exec.getLsbD L = true → f L = g L) :
    (mask32 fun L => x.exec.getLsbD L && f L) = mask32 fun L => x.exec.getLsbD L && g L := by
  congr 1
  funext L
  cases inExec : x.exec.getLsbD L with
  | false => rfl
  | true => rw [h L inExec]

section Stay

variable {p : Access.Plan} {x : Ex} {t : State}

/-- No lane of Exec leaves for its owner or was refused there. -/
def allStay (p : Access.Plan) (x : Ex) (t : State) : Prop :=
  ∀ L, L < 32 → x.exec.getLsbD L = true → mayLeave p x t L = false

theorem fateAt_of_allStay (stay : allStay p x t) {L : Nat} (inExec : x.exec.getLsbD L = true) :
    fateAt p x t p.lane L = laneFate p x L := fate_of_stays (stay L (lt_of_getLsbD inExec) inExec)

theorem goes_of_allStay (stay : allStay p x t) : goes p x t p.lane = 0 := by
  have none_goes : goes p x t p.lane = mask32 fun L => x.exec.getLsbD L && false :=
    mask32_exec_congr fun L inExec => by
      rw [fateAt_of_allStay stay inExec, laneFate]
      cases Claims.laneFault p x L <;> rfl
  rw [none_goes]
  simp only [Bool.and_false]
  decide

theorem fails_of_allStay (stay : allStay p x t) : fails p x t p.lane = faulted p x :=
  mask32_exec_congr fun L inExec => by
    rw [fateAt_of_allStay stay inExec, laneFate]
    cases Claims.laneFault p x L <;> rfl

theorem laneFault_eq_none {L : Nat} (sound : faulted p x = 0) (inExec : x.exec.getLsbD L = true) :
    Claims.laneFault p x L = none := by
  have out : (faulted p x).getLsbD L = false := by rw [sound]; simp
  rw [faulted, getLsbD_mask32] at out
  simpa [lt_of_getLsbD inExec, inExec] using out

/-- Where no lane faults, each has a place, whose address is checked for alignment. -/
theorem addressAt_eq_placeOf {L : Nat} (sound : Claims.laneFault p x L = none) :
    addressAt p.lane L = BitVec.ofNat 56 (Claims.placeOf p L).ia := by
  unfold Claims.laneFault at sound
  unfold addressAt Claims.placeOf
  cases lane : p.lane L with
  | error r => rw [lane] at sound; cases sound
  | ok a => rfl

theorem uneven_eq_crooked (sound : faulted p x = 0) : uneven p x p.lane = crooked p x := by
  simp only [uneven, crooked, Bool.and_assoc]
  exact mask32_exec_congr fun L inExec => by rw [addressAt_eq_placeOf (laneFault_eq_none sound inExec)]

theorem memAccess_of_faulted {r : Refused} (free : t.barred x.k = false) (stay : allStay p x t) (some_fault : faulted p x ≠ 0)
    (first : Claims.laneFault p x (lowest (faulted p x)) = some r) (perform : Ex → (Nat → Access) → State → State) :
    memAccess p perform x t = .error ⟨faultKind r.code, r.code, faulted p x, r.addr⟩ := by
  obtain ⟨rest, eq⟩ := memAccess_eq p perform x t
  have inExec : x.exec.getLsbD (lowest (faulted p x)) = true := by
    have h := getLsbD_lowest some_fault
    rw [faulted, getLsbD_mask32] at h
    simp only [Bool.and_eq_true] at h
    exact h.2.1
  have first_fate : fateAt p x t p.lane (lowest (faulted p x)) = .bad r := by
    rw [fateAt_of_allStay stay inExec, laneFate, first]
  simp only [eq, free, goes_of_allStay stay, fails_of_allStay stay, failTrap, first_fate, faultKind_eq_kindOf, ne_eq, some_fault,
    not_false_eq_true, if_true, Bool.false_eq_true, if_false]

theorem memAccess_of_crooked (free : t.barred x.k = false) (stay : allStay p x t) (sound : faulted p x = 0)
    (some_crooked : crooked p x ≠ 0) (perform : Ex → (Nat → Access) → State → State) :
    memAccess p perform x t =
      .error ⟨0x0E, 0x08, crooked p x, BitVec.ofNat 56 (Claims.placeOf p (lowest (crooked p x))).ia⟩ := by
  obtain ⟨rest, eq⟩ := memAccess_eq p perform x t
  have inExec : x.exec.getLsbD (lowest (crooked p x)) = true := by
    have h := getLsbD_lowest some_crooked
    rw [crooked, getLsbD_mask32] at h
    simp only [Bool.and_eq_true] at h
    exact h.2.1.1
  simp only [eq, free, goes_of_allStay stay, fails_of_allStay stay, sound, uneven_eq_crooked sound, some_crooked,
    addressAt_eq_placeOf (laneFault_eq_none sound inExec), ne_eq, not_true, not_false_eq_true, if_true, Bool.false_eq_true, if_false]

end Stay

/-! An access that publishes writes first (R112) is checked as one that does not. -/

theorem mapOld_eq (t : State) (q : Crew → Bool) (f : Crew → OldWord → OldWord) : ∃ cs, t.mapOld q f = { t with crews := cs } := by
  unfold State.mapOld
  split
  · exact ⟨t.crews, rfl⟩
  · exact ⟨_, rfl⟩

theorem pub_eq (b : Bool) (x : Ex) (t : State) : ∃ cs, pub b x t = { t with crews := cs } := by
  cases b with
  | false => exact ⟨t.crews, rfl⟩
  | true =>
    simp only [pub, if_true, State.publish]
    exact mapOld_eq t _ _

theorem barred_pub (b : Bool) (x : Ex) (t : State) : (pub b x t).barred x.k = t.barred x.k := by
  obtain ⟨cs, eq⟩ := pub_eq b x t
  rw [eq]; rfl

theorem mayLeave_pub (p : Access.Plan) (b : Bool) (x : Ex) (t : State) (L : Nat) :
    mayLeave p x (pub b x t) L = mayLeave p x t L := by
  obtain ⟨cs, eq⟩ := pub_eq b x t
  rw [eq]; rfl

theorem waitRemote_of_free {rel : Bool} {x : Ex} {t : State} (free : t.barred x.k = false) (home : t.remoteOut x.k = false)
    (go : State → Except TrapInfo (Flow × State)) : waitRemote rel x t go = go (pub rel x t) := by
  simp only [waitRemote, free, home, Bool.and_false, Bool.or_false, Bool.false_eq_true, if_false, pub]

/-- The effect of an access with a plan: once nothing is in its way, its memory operand is checked and its lanes perform. -/
def Accesses (p : Ex → State → Access.Plan) (eff : Ex → State → Except TrapInfo (Flow × State)) : Prop :=
  ∀ x t, t.barred x.k = false → t.remoteOut x.k = false → ∃ b perform, eff x t = memAccess (p x t) perform x (pub b x t)

/-- Each access of class 0x7 has the effect of its plan. -/
theorem planOf_accesses {i : Instr} {s : State} {F : Form} {p : Ex → State → Access.Plan} (row : memoryForm s i = some F)
    (plan : planOf i = some p) : ∃ eff, exec i s = .next (issue i F.h F.c eff s) ∧ Accesses p eff := by
  cases i with
  | ldl h ty d m => cases row; cases plan; exact ⟨_, rfl, fun _ _ _ _ => ⟨false, _, rfl⟩⟩
  | stl h ty d m => cases row; cases plan; exact ⟨_, rfl, fun _ _ _ _ => ⟨false, _, rfl⟩⟩
  | lds h ty d m => cases row; cases plan; exact ⟨_, rfl, fun _ _ _ _ => ⟨false, _, rfl⟩⟩
  | sts h ty d m => cases row; cases plan; exact ⟨_, rfl, fun _ _ _ _ => ⟨false, _, rfl⟩⟩
  | ldbLoc h ty d base off => cases row; cases plan; exact ⟨_, rfl, fun _ _ _ _ => ⟨false, _, rfl⟩⟩
  | ldg h ty d m => cases row; cases plan; exact ⟨_, rfl, fun _ _ free home => ⟨_, _, waitRemote_of_free free home _⟩⟩
  | stg h ty d m => cases row; cases plan; exact ⟨_, rfl, fun _ _ free home => ⟨_, _, waitRemote_of_free free home _⟩⟩
  | ldx h ty d m => cases row; cases plan; exact ⟨_, rfl, fun _ _ free home => ⟨_, _, waitRemote_of_free free home _⟩⟩
  | stx h ty d m => cases row; cases plan; exact ⟨_, rfl, fun _ _ free home => ⟨_, _, waitRemote_of_free free home _⟩⟩
  | ldb h ty d base off => cases row; cases plan; exact ⟨_, rfl, fun _ _ free home => ⟨_, _, waitRemote_of_free free home _⟩⟩
  | lda h ty ord scp d m => cases row; cases plan; exact ⟨_, rfl, fun _ _ free home => ⟨_, _, waitRemote_of_free free home _⟩⟩
  | str h ty ord scp c m => cases row; cases plan; exact ⟨_, rfl, fun _ _ free home => ⟨_, _, waitRemote_of_free free home _⟩⟩
  | atom h ty op ord scp d a b off c => cases row; cases plan; exact ⟨_, rfl, fun _ _ free home => ⟨_, _, waitRemote_of_free free home _⟩⟩
  | atomn h ty op ord scp a b off c => cases row; cases plan; exact ⟨_, rfl, fun _ _ free home => ⟨_, _, waitRemote_of_free free home _⟩⟩
  | acas h ty ord scp d a b off c => cases row; cases plan; exact ⟨_, rfl, fun _ _ free home => ⟨_, _, waitRemote_of_free free home _⟩⟩
  | _ => cases plan

/-! The three clauses. -/

section Clauses

variable {i : Instr} {s : State} {F : Form} (row : controlForm s i = some F ∨ memoryForm s i = some F)
  (issued : s.issues i F.h F.c = true)

include row

theorem controlForm_of_targetOf {t : State} {k : Nat} {w : Word64} (target : targetOf t k i = some w) :
    controlForm s i = some F :=
  row.resolve_right fun memory => by
    cases i with
    | braReg | callReg | ret => cases memory
    | _ => cases target

theorem controlForm_of_branchOf {x : Ex} {t : State} {j : Bool} (branches : branchOf t x i = some j) :
    controlForm s i = some F :=
  row.resolve_right fun memory => by
    cases i with
    | bra | brp | call | brpJoin | loop | braReg | callReg | ret => cases memory
    | _ => cases branches

theorem memoryForm_of_planOf {p : Ex → State → Access.Plan} (plan : planOf i = some p) : memoryForm s i = some F :=
  row.resolve_left fun control => by
    cases i with
    | ldl | stl | lds | sts | ldbLoc | ldg | stg | ldx | stx | ldb | lda | str | atom | atomn | acas => cases control
    | _ => cases plan

/-! The effect of the instruction is computed for `x`, in the state `t`. -/

variable {x : Ex} {t : State} (computed : x = s.ex i F.h ∧ t = s.entered i F.h)

include issued computed

theorem target_clause {w : Word64} (target : targetOf t x.k i = some w) (bad : ¬ goodTarget x.pc w) :
    trapsLate s i F.h ⟨0x0A, 1, x.exec, 0⟩ := by
  obtain ⟨rfl, rfl⟩ := computed
  exact badTarget_trapsLate (controlForm_of_targetOf row target) issued target bad

theorem stack_clause {j : Bool} (home : (s.sheaf s.focus).frag = none) (branches : branchOf t x i = some j)
    (some_stay : x.exec ≠ (Claims.slotOf x t).mask) (full : 64 < (t.sheaf x.k).depth + needs x t j)
    (sound : t.badStack x.k (needs x t j) = []) :
    trapsLate s i F.h ⟨0x0B, BitVec.ofNat 8 ((t.sheaf x.k).depth + needs x t j - 64), x.exec, 0⟩ := by
  obtain ⟨rfl, rfl⟩ := computed
  obtain ⟨eff, run, target, next, jp, pre, rfl, effect⟩ := branchOf_branch (controlForm_of_branchOf row branches) branches
  have at_home := (s.entered_frag i F.h s.focus).trans home
  exact trapsLate_of_error run issued (effect.trans (branch_of_full at_home some_stay full sound target next pre))

variable {p : Ex → State → Access.Plan} (plan : planOf i = some p) (free : t.barred x.k = false)
  (home : t.remoteOut x.k = false) (stay : allStay (p x t) x t)

include plan free home stay

/-- An access whose memory operand fails a check, in every state that differs from `t` only in what a release publishes,
traps. -/
theorem access_clause {info : TrapInfo} (error : ∀ u perform, u.barred x.k = false → allStay (p x t) x u →
    memAccess (p x t) perform x u = .error info) : trapsLate s i F.h info := by
  obtain ⟨rfl, rfl⟩ := computed
  obtain ⟨eff, run, accesses⟩ := planOf_accesses (memoryForm_of_planOf row plan) plan
  obtain ⟨b, perform, effect⟩ := accesses _ _ free home
  refine trapsLate_of_error run issued (effect.trans (error _ perform ?_ fun L hL inExec => ?_))
  · rw [barred_pub]; exact free
  · rw [mayLeave_pub]; exact stay L hL inExec

theorem fault_clause {r : Refused} (some_fault : faulted (p x t) x ≠ 0)
    (first : Claims.laneFault (p x t) x (lowest (faulted (p x t) x)) = some r) :
    trapsLate s i F.h ⟨faultKind r.code, r.code, faulted (p x t) x, r.addr⟩ :=
  access_clause row issued computed plan free home stay fun _ perform free stay =>
    memAccess_of_faulted free stay some_fault first perform

theorem crooked_clause (sound : faulted (p x t) x = 0) (some_crooked : crooked (p x t) x ≠ 0) :
    trapsLate s i F.h ⟨0x0E, 0x08, crooked (p x t) x,
      BitVec.ofNat 56 (Claims.placeOf (p x t) (lowest (crooked (p x t) x))).ia⟩ :=
  access_clause row issued computed plan free home stay fun _ perform free stay =>
    memAccess_of_crooked free stay sound some_crooked perform

end Clauses

/-- Settles O17, clause by clause. -/
theorem entryTraps : Obligations.EntryTraps := by
  unfold Obligations.EntryTraps
  intro i s F row _ issued home x t
  have computed : x = s.ex i F.h ∧ t = s.entered i F.h := ⟨rfl, rfl⟩
  refine ⟨?_, ?_, ?_⟩
  · intro w target bad
    exact target_clause row issued computed target bad
  · intro j branches some_stay full sound
    exact stack_clause row issued computed home branches some_stay full sound
  · intro p plan free remote stay
    exact ⟨fun r some_fault first => fault_clause row issued computed plan free remote stay some_fault first,
      fun sound some_crooked => crooked_clause row issued computed plan free remote stay sound some_crooked⟩

end Sys2Proof.Proofs.EntryTraps
end

section
/-!
PROOFS. Steps of cores (`Obligations.CoreSteps`). Every row of the table holds in a state whose table of cores has its canonical form
(`occurs_of_canonical`); the obligation quantifies over all states, and fails in one that lists a core twice.
-/

namespace Sys2Proof.Proofs.CoreSteps

open Sys2Proof Sys2Proof.Machine Sys2Proof.Claims

/-- An event has the effect of the table in a state that meets the table's condition. -/
def OccursIn (s : State) (i : Instr) : Prop := ∀ P t, coreSteps s i = some (P, t) → P → exec i s = .next t

theorem OccursIn.of_row {s t : State} {i : Instr} {P : Prop} (row : coreSteps s i = some (P, t))
    (run : P → exec i s = .next t) : OccursIn s i := by
  intro Q u h hQ
  cases row.symm.trans h
  exact run hQ

theorem OccursIn.of_none {s : State} {i : Instr} (h : coreSteps s i = none) : OccursIn s i :=
  fun _ _ row => nomatch h.symm.trans row

/-! Timers (R181, R182). -/

theorem waitaTimeout_occurs (s : State) (p : Place) : OccursIn s (.waitaTimeout p) := by
  intro P t row ok
  simp only [coreSteps] at row
  split at row
  · next d limit park =>
    cases row
    obtain ⟨limited, passed⟩ := ok
    show execWaitaTimeout p s = _
    simp only [execWaitaTimeout, park, if_neg (Nat.pos_iff_ne_zero.mp limited), if_pos passed, State.wakeWaita]
  · cases row

theorem sleepExpiry_occurs (s : State) (p : Place) : OccursIn s (.sleepExpiry p) := by
  intro P t row ok
  simp only [coreSteps] at row
  split at row
  · next u park =>
    cases row
    show execSleepExpiry p s = _
    simp only [execSleepExpiry, park, if_pos ok]
  · cases row

/-! Loads (R38, R404). -/

/-- A mask meets one of its lanes in that lane. -/
theorem and_laneBit_of_getLsbD {m : Word32} {L : Nat} (hL : L < 32) (h : m.getLsbD L = true) : m &&& laneBit L = laneBit L := by
  apply BitVec.eq_of_getLsbD_eq
  intro i hi
  by_cases same : i = L
  · subst same; simp [h]
  · have : (laneBit L).getLsbD i = false := by
      rw [laneBit, BitVec.getLsbD_ofNat, Nat.testBit_two_pow, decide_eq_false (Ne.symm same), Bool.and_false]
    simp [this]

theorem loadLaneReturn_occurs (s : State) (p : Place) (id lane : Nat) : OccursIn s (.loadLaneReturn p id lane) := by
  intro P t row ok
  simp only [coreSteps] at row
  obtain ⟨l, found, row⟩ := Option.map_eq_some_iff.mp row
  cases row
  obtain ⟨isLane, left, ready⟩ := ok
  have both : (l.left &&& l.ready).getLsbD lane = true := by rw [BitVec.getLsbD_and, left, ready]; rfl
  show execLoadLaneReturn p id lane s = _
  simp only [execLoadLaneReturn, State.returnLanes, found, and_laneBit_of_getLsbD isLane both]
  split <;> rfl

theorem memoryFaultSettle_occurs (s : State) (p : Place) (b : Bool) : OccursIn s (.memoryFaultSettle p b) := by
  intro P t row ok
  simp only [coreSteps] at row
  split at row
  · next id pc opc m micro park =>
    obtain ⟨l, found, row⟩ := Option.map_eq_some_iff.mp row
    cases row
    have none_out : l.left &&& ~~~l.ready &&& ~~~l.bad = 0 := ok
    show execMemoryFaultSettle p b s = _
    simp only [execMemoryFaultSettle, park, found, none_out, ne_eq, not_true, if_false]
  · cases row

/-! Trap entry (R382). -/

theorem trapEntry_occurs (s : State) (p : Place) (b : Bool) : OccursIn s (.trapEntry p b) := by
  intro P t row ok
  simp only [coreSteps] at row
  obtain ⟨trap, waiting, row⟩ := Option.map_eq_some_iff.mp row
  cases row
  obtain ⟨isThere, ⟨running, span, no_checkpoint⟩, enters⟩ := ok
  obtain ⟨y, found⟩ := Option.isSome_iff_exists.mp isThere
  have here : s.sheaf (placeKey p) = y := State.sheaf_of_find s found
  rw [here] at waiting span
  show execTrapEntry p b s = _
  cases launch : s.launchOf (placeKey p) with
  | none => rw [launch] at running; cases running
  | some l =>
    rw [launch] at running
    have active : (l.state == .active) = true := running
    simp [execTrapEntry, found, waiting, launch, active, span, no_checkpoint, enters]

/-! Extended blocks and the compactor (R49 to R51, R187). -/

/-- The table of cores has its canonical form. -/
def canonicalCores (s : State) : Prop := Tab.wf Core.init s.cores = true

theorem core_modCore_same {s : State} (canonical : canonicalCores s) (c : Nat) (f : Core → Core) :
    (s.modCore c f).core c = f (s.core c) := Tab.get_set_same _ _ _ _ canonical

theorem canonicalCores_modCore {s : State} (canonical : canonicalCores s) (c : Nat) (f : Core → Core) :
    canonicalCores (s.modCore c f) := Tab.wf_set _ _ _ _ canonical

theorem canonicalCores_of_cores_eq {s t : State} (canonical : canonicalCores s) (h : t.cores = s.cores) : canonicalCores t := by
  rw [canonicalCores, h]; exact canonical

theorem cores_advance (s : State) (k : Nat) (b : Bool) (n : Nat) : (s.advance k b n).cores = s.cores := by
  unfold State.advance State.mark
  split
  · rfl
  · simp only [apply_ite State.cores, State.modSlot_cores, State.modSheaf_cores, ite_self]

theorem cores_sweep (s : State) (key : Nat) : (s.sweep key).cores = s.cores := by
  simp only [State.sweep, apply_ite State.cores, State.later_cores, ite_self]

theorem cores_quarantine (s : State) (key : Nat) (g : Gen) : (s.quarantine key g).cores = s.cores := by
  simp only [State.quarantine, apply_ite State.cores, cores_sweep, ite_self]

theorem cores_issueGen {s t : State} {key : Nat} {g : Gen} (h : s.issueGen key = some (g, t)) : t.cores = s.cores := by
  unfold State.issueGen at h
  split at h
  · cases h
  · cases h; rfl

theorem cores_foldl_of_step {α : Type} (f : State → α → State) (step : ∀ s a, (f s a).cores = s.cores) (l : List α) (s : State) :
    (l.foldl f s).cores = s.cores := by
  induction l generalizing s with
  | nil => rfl
  | cons a l ih => exact (ih (f s a)).trans (step s a)

theorem canonicalCores_takeBlock {s t : State} {k n : Nat} (canonical : canonicalCores s) (h : s.takeBlock k n = some t) :
    canonicalCores t := by
  unfold State.takeBlock at h
  dsimp only at h
  split at h
  · cases h
  · split at h
    · cases h
    · next issued =>
      have canonical := canonicalCores_modCore (canonicalCores_of_cores_eq canonical (cores_issueGen issued))
      split at h
      · cases h
        exact canonicalCores_of_cores_eq (canonical _ _) (State.modSheaf_cores _ _ _)
      · cases h
        refine canonicalCores_modCore ?_ _ _
        rw [canonicalCores, cores_quarantine, State.modSheaf_cores, cores_foldl_of_step]
        · exact canonical _ _
        · intro u i
          simp only [apply_ite State.cores, ite_self]

/-- The head of a core's queue has been served, and the others of it wait. -/
def served (core : Nat) (r : PoolReq) (rest : List PoolReq) (u : State) : State :=
  let v := (u.modCore core fun c => { c with waiting := rest }).modSheaf r.place fun y => { y with park := none }
  if r.implicit then v else v.advance r.place r.b 8

theorem cores_served (core : Nat) (r : PoolReq) (rest : List PoolReq) (u : State) :
    (served core r rest u).cores = (u.modCore core fun c => { c with waiting := rest }).cores := by
  unfold served
  dsimp only
  split
  · rfl
  · rw [cores_advance]; rfl

/-- The head of a queue is met by what its sheaf holds, or by a block that can be taken. -/
def met (s : State) (r : PoolReq) : Option State :=
  if r.size ≤ (s.sheaf r.place).xblk then some s else s.takeBlock r.place r.size

theorem grantHead_of_waiting {s : State} {core : Nat} {r : PoolReq} {rest : List PoolReq}
    (waits : (s.core core).waiting = r :: rest) : s.grantHead core = (met s r).map (served core r rest) := by
  unfold State.grantHead
  rw [waits]
  rfl

theorem canonicalCores_met {s u : State} {r : PoolReq} (canonical : canonicalCores s) (h : met s r = some u) : canonicalCores u := by
  unfold met at h
  split at h
  · cases h; exact canonical
  · exact canonicalCores_takeBlock canonical h

/-- Serving as many requests as wait, and then asking the compactor for the first that could not be served, is going through the
requests. -/
theorem grantBlocks_eq_grants {core : Nat} (rs : List PoolReq) {s : State} (canonical : canonicalCores s)
    (waits : (s.core core).waiting = rs) :
    (let t := State.grantBlocks rs.length s core
      if (t.core core).waiting = [] then t else t.later (.compactorMove core)) = grants core rs s := by
  induction rs generalizing s with
  | nil => simp [State.grantBlocks, grants, waits]
  | cons r rest ih =>
    rw [List.length_cons, State.grantBlocks, grantHead_of_waiting waits, grants]
    cases head : met s r with
    | none =>
      unfold met at head
      simp [head, waits]
    | some u =>
      have canonical_u := canonicalCores_met canonical head
      have after := ih (canonicalCores_of_cores_eq (canonicalCores_modCore canonical_u core _) (cores_served core r rest u))
        (by
          rw [State.core, cores_served]
          exact congrArg Core.waiting (core_modCore_same canonical_u core _))
      unfold met at head
      simp only [head, Option.map_some]
      exact after

theorem offerBlocks_eq_offered {s : State} (canonical : canonicalCores s) (core : Nat) : s.offerBlocks core = offered core s :=
  grantBlocks_eq_grants _ canonical rfl

theorem extendedBlockGrant_occurs {s : State} (canonical : canonicalCores s) (core : Nat) :
    OccursIn s (.extendedBlockGrant core) :=
  .of_row rfl fun _ => congrArg Host.Outcome.next (offerBlocks_eq_offered canonical core)

theorem compactorMove_occurs (s : State) (core : Nat) : OccursIn s (.compactorMove core) := by
  intro P t row _
  simp only [coreSteps] at row
  split at row
  · next a r rest arena waits =>
    obtain ⟨m, picked, row⟩ := Option.map_eq_some_iff.mp row
    cases row
    show execCompactorMove core s = _
    simp only [execCompactorMove, arena, waits, picked]
  · cases row

/-- Registers copied one by one in the state are copied one by one in its register file. -/
theorem foldl_copy_vregs (old : Tab VCell) (dst src : Nat) (l : List Nat) (s : State) :
    (l.foldl (fun (t : State) i =>
      { t with vregs := Tab.set VCell.zero t.vregs (dst + i) (Tab.get VCell.zero old (src + i)) }) s) =
    { s with vregs := l.foldl (fun r i => Tab.set VCell.zero r (dst + i) (Tab.get VCell.zero old (src + i))) s.vregs } := by
  induction l generalizing s with
  | nil => rfl
  | cons i l ih => exact ih _

theorem compactorMoveDone_occurs {s : State} (canonical : canonicalCores s) (core : Nat) :
    OccursIn s (.compactorMoveDone core) := by
  intro P t row ok
  simp only [coreSteps] at row
  obtain ⟨⟨a, d⟩, move, row⟩ := Option.map_eq_some_iff.mp row
  cases row
  have sound (l : List Nat) (at_ : Nat) : (l.filter fun i => s.badRegs.contains (at_ + i)) = [] := by
    rw [show s.badRegs = [] from ok]
    simp
  show execCompactorMoveDone core s = _
  simp only [execCompactorMoveDone, move, sound, foldl_copy_vregs]
  refine congrArg Host.Outcome.next (offerBlocks_eq_offered (canonicalCores_modCore (canonicalCores_of_cores_eq canonical ?_) core _) core)
  split <;> rfl

/-! Sweepers (R57, R58, R205). -/

/-- The tags of the stale granules between two addresses are gone. -/
def swept (a e : Nat) (s : State) : State :=
  { s with tags := s.tags.filter fun p => !(decide (a ≤ 32 * p.1 ∧ 32 * p.1 < e) && s.stale (32 * p.1)) }

theorem sweepGranules_of_sound {s : State} (sound : s.badSram = []) (a n : Nat) : s.sweepGranules a n = swept a (a + n) s := by
  simp only [State.sweepGranules, swept, sound, List.filter_nil, List.foldl_nil]

/-- A pass has ended at a counter: values whose quarantine ends are free, those who wait for the pass or for a generation go on, and
another pass begins where one is wanted. -/
def passEnded (slice : Bool) (n : Nat) (s : State) : State :=
  let key := if slice then 256 + n else n
  let t : State := { s with gens := Tab.upd GenCtr.init s.gens key fun c => { c with
    passes := c.passes + 1
    quar := c.quar.filter fun q => decide (c.passes + 1 < q.2) } }
  let t := (t.wakeSweeps slice key ((s.genCtr key).passes + 1)).later .spanPlacement
  let t := if slice = false ∧ (t.core n).waiting ≠ [] then t.later (.extendedBlockGrant n) else t
  if (t.genCtr key).quar ≠ [] ∨ t.sweepWaited slice key then t.sweep key else t

/-- The pass of a cluster's slices. -/
theorem sweeperPassEnd_slice {s : State} {n : Nat} (inRange : n < 32) :
    execSweeperPassEnd true n s = .next (passEnded true n (s.sweepGranules (2 ^ 31 + n * 2 ^ 26) (2 ^ 26))) := by
  simp only [execSweeperPassEnd, passEnded, if_true, Nat.not_le.mpr inRange, if_false, Bool.not_true, Bool.false_and,
    Bool.false_eq_true, Bool.true_eq_false, false_and, Bool.or_eq_true, Bool.not_eq_true', List.isEmpty_eq_false_iff]
  rfl

/-- The pass of a core, where no register holds an error. -/
theorem sweeperPassEnd_core {s u : State} {n : Nat} (inRange : n < 256) (granules : s.sweepGranules (n * 2 ^ 23) (2 ^ 23) = u)
    (regs : u.badRegs = []) (words : u.badWords = []) :
    execSweeperPassEnd false n s = .next (passEnded false n (u.sweepRegs n)) := by
  have isCore : n < 1000 := by omega
  simp only [execSweeperPassEnd, passEnded, Bool.false_eq_true, if_false, Nat.not_le.mpr inRange, false_and, inRange, isCore, if_true,
    granules, regs, words, List.filter_nil, List.foldl_nil, Bool.not_false, Bool.true_and, decide_true, true_and, Bool.or_eq_true,
    Bool.not_eq_true', List.isEmpty_eq_false_iff]
  rfl

theorem sweeperPassEnd_occurs (s : State) (slice : Bool) (n : Nat) : OccursIn s (.sweeperPassEnd slice n) := by
  intro P t row ok
  simp only [coreSteps] at row
  cases row
  obtain ⟨some_unit, sound⟩ := ok
  show execSweeperPassEnd slice n s = _
  cases slice with
  | true =>
    rw [sweeperPassEnd_slice some_unit, sweepGranules_of_sound sound]
    rfl
  | false =>
    obtain ⟨inRange, regs, words⟩ : n < 256 ∧ s.badRegs = [] ∧ s.badWords = [] := some_unit
    exact sweeperPassEnd_core inRange (sweepGranules_of_sound sound _ _) regs words

/-- Every event of the table has its effect in a state whose table of cores has its canonical form. -/
theorem occurs_of_canonical {s : State} (canonical : canonicalCores s) (i : Instr) : OccursIn s i := by
  cases i with
  | waitaTimeout p => exact waitaTimeout_occurs s p
  | sleepExpiry p => exact sleepExpiry_occurs s p
  | loadLaneReturn p id lane => exact loadLaneReturn_occurs s p id lane
  | memoryFaultSettle p b => exact memoryFaultSettle_occurs s p b
  | trapEntry p b => exact trapEntry_occurs s p b
  | extendedBlockGrant core => exact extendedBlockGrant_occurs canonical core
  | compactorMove core => exact compactorMove_occurs s core
  | compactorMoveDone core => exact compactorMoveDone_occurs canonical core
  | sweeperPassEnd slice n => exact sweeperPassEnd_occurs s slice n
  | _ => exact .of_none rfl

/-! A core that is listed twice. -/

/-- A core at which a request for no registers waits, and which is otherwise as after reset. -/
def waitingCore : Core := { Core.init with waiting := [⟨0, false, 0, true⟩] }

/-- Core 0 is listed twice: its table is not in canonical form. -/
def listedTwice : State := { State.reset with cores := [(0, waitingCore), (0, waitingCore)] }

/-- The events that are due after an instruction. -/
def dueAfter (s : State) (i : Instr) : Option (List Event) :=
  match exec i s with
  | .next t => some t.due
  | _ => none

theorem dueAfter_grant : dueAfter listedTwice (.extendedBlockGrant 0) = some [.compactorMove 0] := by decide +kernel

theorem due_offered : (offered 0 listedTwice).due = [] := by decide +kernel

/-- Refutes O19: the request of `listedTwice` is met at once and leaves core 0 as after reset. `Tab.set` drops an entry that equals the
default, and so uncovers the second listing of core 0, whose queue holds the request again: the step finds it waiting and asks for the
compactor, which the table, going through the requests that waited at first, does not. With a canonical table of cores every row holds
(`occurs_of_canonical`). -/
theorem not_coreSteps : ¬ Obligations.CoreSteps := by
  unfold Obligations.CoreSteps
  intro occurs
  have run := occurs (.extendedBlockGrant 0) listedTwice True (offered 0 listedTwice) rfl trivial
  have after : dueAfter listedTwice (.extendedBlockGrant 0) = some [] := by simp only [dueAfter, run, due_offered]
  rw [dueAfter_grant] at after
  exact absurd after (by decide)

end Sys2Proof.Proofs.CoreSteps
end

section
/-!
PROOFS. `Obligations.BranchFrame` fails: a JOIN can end a fragment on a core. Its visiting slot is then free, the block of vector
registers that it held is offered to the request that waits on that core (R49, R187), and the registers of the sheaf that has asked
are copied into its new block.
-/

namespace Sys2Proof.Proofs.BranchFrame

open Sys2Proof Sys2Proof.Machine Sys2Proof.Claims

/-- A fragment in visiting slot 16 of core 0, whose home is place 24. -/
def visitor : Frag := ⟨24, 0, 0, 1, 3, 0, 0, 0x80000100, 1, 0, none, 0⟩

/-- It stands at the reconvergence PC of its only join record, no lane of which is left; it holds the 64 registers of the pool from
register 0 on. -/
def joining : Sheaf :=
  { Sheaf.empty with
    launch := 1
    frag := some visitor
    baseGen := 4
    vbase := some 0
    a := PcSlot.start 0x80000000 0xFFFFFFFF 0
    depth := 2
    fstack := [joinWord0 0 0x80000000, joinWord1 63 false] }

/-- A sheaf at home on the same core, which holds the 32 registers of the pool from register 64 on and waits for 64. -/
def asking : Sheaf :=
  { Sheaf.empty with
    launch := 1
    baseGen := 3
    ext := some ⟨64, 32, 5⟩
    a := PcSlot.start 0x80000000 0xFFFFFFFF 63
    park := some (.xacq false 64 false) }

/-- The pool of core 0 has no free block. -/
def fullPool : Core :=
  { Core.init with
    blocks := (0, 64) :: (64, 32) :: (96, 32) :: (List.range 23).map fun i => (128 * (i + 1), 128)
    waiting := [⟨0, false, 64, false⟩] }

/-- The first of the registers that the asking sheaf holds is live. -/
def crowded : State :=
  { State.reset with
    sheaves := [(0, asking), (16, joining)]
    cores := [(0, fullPool)]
    vregs := [(1024 + 64, ⟨Vector.replicate 32 1, 5, 0⟩)]
    focus := 16 }

def joinAll : Instr := .join ⟨false, 7, false⟩

/-- The vector registers after an instruction. -/
def vregsAfter (s : State) (i : Instr) : Option (Tab VCell) := match exec i s with
  | .next t => some t.vregs
  | _ => none

/-- The JOIN copies the live register into the block that the fragment held. -/
theorem vregsAfter_join : vregsAfter crowded joinAll =
    some [(1024, ⟨Vector.replicate 32 1, 1, 0⟩), (1024 + 64, ⟨Vector.replicate 32 1, 5, 0⟩)] := by
  decide +kernel

theorem quiet_crowded : quiet crowded crowded.focus := by
  unfold quiet
  decide +kernel

theorem memOk_crowded : Safety.memOk crowded := by
  unfold Safety.memOk
  decide +kernel

/-- Refutes O46: in `crowded` the JOIN completes, and the vector registers are not as they were. -/
theorem not_branchFrame : ¬ Obligations.BranchFrame := by
  unfold Obligations.BranchFrame
  intro frame
  obtain ⟨t, run, vregs, -⟩ := frame joinAll crowded _ rfl rfl (by decide +kernel) (by decide +kernel) trivial quiet_crowded memOk_crowded
  have after : vregsAfter crowded joinAll = some crowded.vregs := by simp only [vregsAfter, run, vregs]
  rw [vregsAfter_join] at after
  exact absurd after (by decide)

end Sys2Proof.Proofs.BranchFrame
end

section
/-!
PROOFS. The state after reset (`Obligations.ResetMemoryForm`, `Obligations.ResetState`) and partial writes of vector
registers (`Obligations.PartialWrite`).
-/

namespace Sys2Proof.Proofs.ResetAndLanes

open Sys2Proof Sys2Proof.Machine

/-! Reset: every table is empty, so every key reads as its absent value. -/

@[simp] theorem accessGen_reset (a : Nat) : State.reset.accessGen a = 0 := by
  rw [State.accessGen]
  split <;> rfl

@[simp] theorem pkgByte_reset (a : Nat) : State.reset.pkgByte a = 0 := by
  simp [State.pkgByte, State.stale]

theorem staleReg_reset (k : Nat) (r : Reg) (h : r ≠ .p 7) : State.reset.staleReg k r = true := by
  have noGen : (State.reset.sheaf k).baseGen = 0 := rfl
  cases r with
  | v r => simp [State.staleReg, vgen, noGen, show (State.reset.sheaf k).ext = none from rfl]
  | s r => simp [State.staleReg, noGen]
  | p r => simpa [State.staleReg, noGen] using h

/-- Settles O56: reset lists no byte, and the empty table is canonical. -/
theorem resetMemoryForm : Obligations.ResetMemoryForm := ⟨rfl, rfl⟩

/-- Settles O57: every field is the one that `State.reset` states, and what is read through empty tables is absent. -/
theorem resetState : Obligations.ResetState := by
  refine ⟨rfl, rfl, rfl, fun a => ⟨rfl, accessGen_reset a, pkgByte_reset a⟩, fun k r => ⟨?_, ?_, fun h => ?_⟩,
    fun _ _ => rfl, fun _ => ⟨rfl, rfl, rfl⟩, rfl⟩
  · exact if_pos (staleReg_reset k (.s r) nofun)
  · exact if_pos (staleReg_reset k (.v r) nofun)
  · exact (if_neg h).trans (if_pos (staleReg_reset k (.p r) (by simpa using h)))

/-! Partial writes. -/

theorem vec32_getD {α : Type} (f : Nat → α) {L : Nat} (h : L < 32) (d : α) : (vec32 f).getD L d = f L := by
  simp [vec32, Vector.getD, h]

/-- Settles O52: `State.readV_writeV_same` gives the granule that is read, and its lanes one by one. -/
theorem partialWrite : Obligations.PartialWrite := by
  refine fun s k r m f g => ⟨fun hm held live => ?_, s.writeV_empty k r f g⟩
  have read := s.readV_writeV_same k r m f g hm (Option.isSome_iff_ne_none.mpr held) live
  refine ⟨fun L hL => ?_, congrArg VCell.fmt read⟩
  calc (s.writeV k r m f g).laneV k r L
      = (vec32 fun L => if m.getLsbD L then f L else (s.readV k r).data.getD L 0).getD L 0 := by rw [State.laneV, read]
    _ = if m.getLsbD L then f L else s.laneV k r L := vec32_getD _ hL 0

end Sys2Proof.Proofs.ResetAndLanes
end

section
/-!
PROOFS. Every step keeps the canonical form of memory (`Obligations.MemoryFormKept`): one lemma for each operation
of the model that answers a state, in the order of the model's files. Memory changes by `Tab.set` alone, but for a
cold reset, which drops entries; an operation that writes no byte answers a state with the same memory, of which the
hypothesis itself is the proof.
-/

namespace Sys2Proof.Safety

open Sys2Proof Sys2Proof.Machine

variable {s t : State} {ε α : Type}

/-! What the lemmas are made of. -/

/-- The state of a result, where there is one, has the canonical form of memory. -/
def allSome : Option State → Prop
  | some t => memOk t
  | none => True

/-- The same of a result that is a state or an error. -/
def allOk : Except ε State → Prop
  | .ok t => memOk t
  | .error _ => True

/-- The same of a state that an effect answers beside how it goes on. -/
def flowOk : Except TrapInfo (Flow × State) → Prop
  | .ok r => memOk r.2
  | .error _ => True

/-- The same of a state that stands beside what was issued in it. -/
def genOk : Option (α × State) → Prop
  | some r => memOk r.2
  | none => True

/-- The same of the outcome of a step. -/
def nextOk : Host.Outcome State Fault Refusal → Prop
  | .next t => memOk t
  | _ => True

theorem allSome.get {o : Option State} (h : allSome o) (e : o = some t) : memOk t := by
  subst e
  exact h

theorem allOk.get {r : Except ε State} (h : allOk r) (e : r = .ok t) : memOk t := by
  subst e
  exact h

theorem flowOk.get {r : Except TrapInfo (Flow × State)} {w : Flow} (h : flowOk r) (e : r = .ok (w, t)) : memOk t := by
  subst e
  exact h

theorem genOk.get {o : Option (α × State)} {a : α} (h : genOk o) (e : o = some (a, t)) : memOk t := by
  subst e
  exact h

theorem memOk.of_eq (h : memOk s) (e : t.mem = s.mem) : memOk t := by
  unfold memOk
  rwa [e]

theorem memOk.foldl {f : State → α → State} {l : List α} (h : memOk s)
    (step : ∀ {t x}, memOk t → memOk (f t x)) : memOk (l.foldl f s) := by
  induction l generalizing s with
  | nil => exact h
  | cons x l ih => exact ih (step h)

theorem memOk.ite {c : Prop} [Decidable c] (h : memOk s) (g : memOk t) : memOk (if c then s else t) := by
  split
  · exact h
  · exact g

/-- A change of other fields. -/
theorem memOk.update {m : List Host.Cell} {tags vregs sregs pregs acc coreUnits sliceUnits sheaves crews spans
    launches cores gens ctxs nextLaunch nextSpan nextCrew subs chunks modCmds conts nextId gov xfers nextXid outq
    links relays mcasts flags halves groups lr waves grps fibreRec theos planes heard mods host waitRecs warm
    throttled excursion checkpoint ckptFault images badSram badRegs badWords time nanos due focus focusB frees
    choices} (h : Memory.wf m = true) :
    memOk (.mk m tags vregs sregs pregs acc coreUnits sliceUnits sheaves crews spans launches cores gens ctxs
      nextLaunch nextSpan nextCrew subs chunks modCmds conts nextId gov xfers nextXid outq links relays mcasts
      flags halves groups lr waves grps fibreRec theos planes heard mods host waitRecs warm throttled excursion
      checkpoint ckptFault images badSram badRegs badWords time nanos due focus focusB frees choices) := h

theorem memOk.opt {o : Option α} {f : α → State} (h : memOk s) (g : ∀ x, memOk (f x)) :
    memOk (match o with
      | none => s
      | some x => f x) := by
  cases o with
  | none => exact h
  | some x => exact g x

theorem allSome.ite {c : Prop} [Decidable c] {o p : Option State} (h : allSome o) (g : allSome p) :
    allSome (if c then o else p) := by
  split
  · exact h
  · exact g

theorem allSome.map {o : Option State} {f : State → State} (h : allSome o) (g : ∀ {t}, memOk t → memOk (f t)) :
    allSome (o.map f) := by
  cases o with
  | none => trivial
  | some t => exact g h

theorem memOk.of_fst {r : State × α} {a : α} (h : memOk r.1) (e : r = (t, a)) : memOk t := by
  subst e
  exact h

theorem memOk.of_snd {r : α × State} {a : α} (h : memOk r.2) (e : r = (a, t)) : memOk t := by
  subst e
  exact h

theorem memOk.foldl_of {β : Type} {f : β → α → β} {b : β} {l : List α} (π : β → State) (h : memOk (π b))
    (step : ∀ {b x}, memOk (π b) → memOk (π (f b x))) : memOk (π (l.foldl f b)) := by
  induction l generalizing b with
  | nil => exact h
  | cons x l ih => exact ih (step h)

theorem flowOk.ite {c : Prop} [Decidable c] {r q : Except TrapInfo (Flow × State)} (h : flowOk r) (g : flowOk q) :
    flowOk (if c then r else q) := by
  split
  · exact h
  · exact g

theorem flowOk.guard {o : Option TrapInfo} {r : Except TrapInfo (Flow × State)} (h : flowOk r) :
    flowOk (match o with
      | some t => .error t
      | none => r) := by
  cases o with
  | none => exact h
  | some t => trivial

theorem genOk.map {β : Type} {o : Option (α × State)} {f : α → β} (h : genOk o) :
    genOk (o.map fun r => (f r.1, r.2)) := by
  cases o with
  | none => trivial
  | some r => exact h

theorem memOk.of_some {o : Option State} (e : o = some t) (h : allSome o) : memOk t := h.get e

theorem memOk.of_ok {r : Except ε State} (e : r = .ok t) (h : allOk r) : memOk t := h.get e

theorem memOk.of_gen {o : Option (α × State)} {a : α} (e : o = some (a, t)) (h : genOk o) : memOk t := h.get e

theorem flowOk.ok {w : Flow} (h : memOk t) : flowOk (.ok (w, t)) := h

theorem nextOk.skip {c : Prop} [Decidable c] (h : memOk s) (g : memOk t) : nextOk (if c then .next s else .next t) := by
  split
  · exact h
  · exact g

theorem flowOk.check {c : Prop} [Decidable c] {e : TrapInfo} {r : Except TrapInfo (Flow × State)} (h : flowOk r) :
    flowOk (if c then .error e else r) := by
  split
  · trivial
  · exact h

theorem flowOk.bind {o : Except TrapInfo α} {f : α → Except TrapInfo (Flow × State)} (h : ∀ a, flowOk (f a)) :
    flowOk (match o with
      | .error e => .error e
      | .ok a => f a) := by
  cases o with
  | error e => trivial
  | ok a => exact h a

/-! `Machine/Regs.lean`. -/

theorem memOk.setSheaf (h : memOk s) {k x} : memOk (s.setSheaf k x) := memOk.update h

theorem memOk.modSheaf (h : memOk s) {k f} : memOk (s.modSheaf k f) := memOk.update h

theorem memOk.modCore (h : memOk s) {c f} : memOk (s.modCore c f) := memOk.update h

theorem memOk.modSlot (h : memOk s) {k b f} : memOk (s.modSlot k b f) := h.modSheaf

theorem memOk.writeV (h : memOk s) {k r m f fmt} : memOk (s.writeV k r m f fmt) := by
  unfold State.writeV
  split
  · exact h
  · split
    · exact h
    · exact memOk.update h

theorem memOk.writeV64 (h : memOk s) {k r m f fmt} : memOk (s.writeV64 k r m f fmt) := h.writeV.writeV

theorem memOk.writeS (h : memOk s) {k r x} : memOk (s.writeS k r x) := memOk.update h

theorem memOk.writeP (h : memOk s) {k r m x} : memOk (s.writeP k r m x) := h.ite (memOk.update h)

theorem memOk.modCrew (h : memOk s) {n f} : memOk (s.modCrew n f) := memOk.update h

theorem memOk.modSpan (h : memOk s) {n f} : memOk (s.modSpan n f) := memOk.update h

theorem memOk.modLaunch (h : memOk s) {n f} : memOk (s.modLaunch n f) := memOk.update h

theorem memOk.later (h : memOk s) {i} : memOk (s.later i) := memOk.update h

theorem memOk.tick (h : memOk s) : memOk s.tick := memOk.update h

theorem memOk.freshId (h : memOk s) : memOk (s.freshId).2 := by
  unfold State.freshId
  exact memOk.update h

/-! `Machine/Mem.lean`. -/

theorem memOk.setByte (h : memOk s) {a x} : memOk (s.setByte a x) := Tab.wf_set _ _ _ _ h

theorem memOk.stamp (h : memOk s) {a} : memOk (s.stamp a) := by
  rw [State.stamp_eq]
  refine memOk.ite h (memOk.update ?_)
  unfold State.zeroRun
  exact h.foldl fun ht => ht.setByte

theorem memOk.pkgSet (h : memOk s) {a x} : memOk (s.pkgSet a x) := h.ite h.stamp.setByte

theorem memOk.wakeWaita (h : memOk s) {k reason} : memOk (s.wakeWaita k reason) := by
  unfold State.wakeWaita
  split
  · exact h.writeS.modSheaf
  · exact h

theorem memOk.notify (h : memOk s) {g'} : memOk (s.notify g') := h.foldl fun ht => ht.modSheaf.wakeWaita

theorem memOk.pkgSetAll (h : memOk s) {a bs} : memOk (s.pkgSetAll a bs) := by
  induction bs generalizing s a with
  | nil => exact h
  | cons x xs ih => exact ih h.pkgSet

theorem memOk.mask (h : memOk s) {a n} : memOk (s.mask a n) := h.ite (memOk.update h)

theorem memOk.pkgWrite (h : memOk s) {a bs} : memOk (s.pkgWrite a bs) := h.pkgSetAll.mask.foldl fun ht => ht.notify

theorem memOk.storeLines (h : memOk s) {core a bs} : memOk (s.storeLines core a bs) := h.ite h.modCore

theorem memOk.dropRange (h : memOk s) {core a n} : memOk (s.dropRange core a n) := h.ite h.modCore

theorem memOk.freshen (h : memOk s) {k a n} : memOk (s.freshen k a n) := h.ite h.dropRange

theorem memOk.coreWrite (h : memOk s) {k a bs} : memOk (s.coreWrite k a bs) := h.pkgWrite.ite h.pkgWrite.storeLines

theorem memOk.dropCtx (h : memOk s) {core ctx} : memOk (s.dropCtx core ctx) := h.ite h.modCore

theorem memOk.dropUnit (h : memOk s) {a n} : memOk (s.dropUnit a n) := h.foldl fun ht => ht.dropRange

theorem memOk.fillLines (h : memOk s) {core ctx a n} : memOk (s.fillLines core ctx a n) :=
  memOk.ite (memOk.update h) (memOk.modCore (memOk.foldl (memOk.update h) fun ht => ht.dropRange))

/-! `Machine/ModuleMem.lean`. -/

theorem memOk.modMod (h : memOk s) {m f} : memOk (s.modMod m f) := memOk.update h

theorem memOk.setLeaf (h : memOk s) {m page w} : memOk (s.setLeaf m page w) := h.modMod

theorem memOk.reread (h : memOk s) {m first pages} : memOk (s.reread m first pages) := memOk.update h.modMod

theorem memOk.copyPage (h : memOk s) {m page} : memOk (s.copyPage m page).2 := by
  unfold State.copyPage
  dsimp only
  split
  · exact h
  · split
    · exact memOk.update h
    · exact memOk.modMod (memOk.update h)

theorem memOk.materialise (h : memOk s) {m page} : memOk (s.materialise m page).2 := by
  unfold State.materialise
  dsimp only
  split
  · exact h
  · split
    · exact memOk.later (memOk.update h)
    · generalize List.zipIdx _ = bytes
      exact memOk.foldl (memOk.setLeaf (memOk.update h)) fun ht => ht.setByte

theorem memOk.writePiece (h : memOk s) {m off bs} : memOk (s.writePiece m off bs).2 := by
  unfold State.writePiece
  dsimp only
  split
  · exact h.copyPage
  · split
    · exact h.copyPage.materialise
    · split
      · exact (h.copyPage.materialise.setLeaf.foldl fun ht => ht.setByte).modMod
      · exact h.copyPage.materialise.setLeaf.foldl fun ht => ht.setByte

theorem memOk.writePieces (h : memOk s) {m off bs ps} : memOk (s.writePieces m off bs ps).2 := by
  induction ps generalizing s with
  | nil => exact h
  | cons p ps ih =>
    unfold State.writePieces
    dsimp only
    split
    · exact h.writePiece
    · exact ih h.writePiece

theorem memOk.modWrite (h : memOk s) {m off bs kind} : memOk (s.modWrite m off bs kind).2 := by
  unfold State.modWrite
  dsimp only
  split
  · exact h
  · exact h.writePieces

/-! `Machine/Post.lean`. -/

theorem memOk.ctxWrite (h : memOk s) {ctx va bs} : allOk (s.ctxWrite ctx va bs) := by
  unfold State.ctxWrite
  split
  · trivial
  · split
    · exact h.pkgWrite
    · trivial
    · split
      split
      · exact h.modWrite.of_snd ‹_›
      · trivial

theorem memOk.queueField (h : memOk s) {ctx q byte x} : memOk (s.queueField ctx q byte x) := by
  unfold State.queueField
  split
  · exact h.ctxWrite.get ‹_›
  · exact h

theorem memOk.queueLost (h : memOk s) {ctx q} : memOk (s.queueLost ctx q) := h.queueField

theorem memOk.queueWrite (h : memOk s) {ctx q body} : memOk (s.queueWrite ctx q body) := by
  unfold State.queueWrite
  dsimp only
  split
  · exact h.queueLost
  · split
    · exact h.queueLost.ite (memOk.ite (memOk.update h.pkgWrite.queueField) h.pkgWrite.queueField)
    · exact h.queueLost

theorem memOk.postWaiting (h : memOk s) {ctx q} : memOk (s.postWaiting ctx q) :=
  memOk.foldl (memOk.update h) fun ht => memOk.ite (memOk.update ht.queueWrite) (memOk.update ht)

theorem memOk.postIn (h : memOk s) {ctx q body} : memOk (s.postIn ctx q body) :=
  h.postWaiting.queueLost.ite h.postWaiting.queueWrite

theorem memOk.readTable (h : memOk s) {ctx} : memOk (s.readTable ctx) := h.ite h.later

theorem memOk.noteFault (h : memOk s) {type sub} : memOk (s.noteFault type sub) := memOk.ite (memOk.update h) h

theorem memOk.post (h : memOk s) {type sub ctx node payload} : memOk (s.post type sub ctx node payload) := by
  unfold State.post
  dsimp only
  split
  · exact h.noteFault.readTable
  · exact h.noteFault.readTable.postIn

theorem memOk.postAll (h : memOk s) {type sub node payload} : memOk (s.postAll type sub node payload) :=
  h.foldl fun ht => ht.post

theorem memOk.postCompletion (h : memOk s) {sub ctx n tag} : memOk (s.postCompletion sub ctx n tag).1 := by
  unfold State.postCompletion
  dsimp only
  split
  · exact h.readTable
  · split
    · exact memOk.later (memOk.update h.readTable.postWaiting)
    · exact h.readTable.postWaiting.queueWrite

/-! `Machine/Launches.lean`. -/

theorem memOk.issueGen (h : memOk s) {key} : genOk (s.issueGen key) := by
  unfold State.issueGen
  split
  · trivial
  · exact memOk.update h

theorem memOk.sweep (h : memOk s) {key} : memOk (s.sweep key) := h.ite h.later

theorem memOk.quarantine (h : memOk s) {key g'} : memOk (s.quarantine key g') := h.ite (memOk.sweep (memOk.update h))

theorem memOk.emptyBlock (h : memOk s) {core start} : memOk (s.emptyBlock core start) := h.modCore

theorem memOk.takeBlock (h : memOk s) {k n} : allSome (s.takeBlock k n) := by
  unfold State.takeBlock
  dsimp only
  split
  · trivial
  · split
    · trivial
    · split
      · exact ((h.issueGen.get ‹_›).modCore).modSheaf
      · exact (((((h.issueGen.get ‹_›).modCore).foldl fun ht => memOk.ite (memOk.update ht)
          ht).modSheaf).quarantine).emptyBlock

theorem memOk.mark (h : memOk s) {k sw} : memOk (s.mark k sw) := h.modSheaf.ite h

theorem memOk.advance (h : memOk s) {k b n} : memOk (s.advance k b n) := by
  unfold State.advance
  split
  · exact h.modSlot
  · exact h.modSlot.ite h.modSlot.mark

theorem memOk.grantHead (h : memOk s) {core} : allSome (s.grantHead core) := by
  unfold State.grantHead
  split
  · trivial
  · refine allSome.map (allSome.ite h h.takeBlock) fun ht => ?_
    exact memOk.ite ht.modCore.modSheaf ht.modCore.modSheaf.advance

theorem memOk.grantBlocks {n} (h : memOk s) {core} : memOk (State.grantBlocks n s core) := by
  induction n generalizing s with
  | zero => exact h
  | succ n ih =>
    unfold State.grantBlocks
    split
    · exact h
    · exact ih (h.grantHead.get ‹_›)

theorem memOk.offerBlocks (h : memOk s) {core} : memOk (s.offerBlocks core) := h.grantBlocks.ite h.grantBlocks.later

theorem memOk.freeBlock (h : memOk s) {core start} : memOk (s.freeBlock core start) := h.emptyBlock.offerBlocks

theorem memOk.queueLeave (h : memOk s) {ctx kind charge modn f} : memOk (s.queueLeave ctx kind charge modn f) :=
  memOk.ite (memOk.later (memOk.update h)) (memOk.later (memOk.tick (memOk.update h)))

theorem memOk.askLeave (h : memOk s) {ctx kind charge modn f} : memOk (s.askLeave ctx kind charge modn f) := by
  unfold State.askLeave
  dsimp only
  split
  · exact h
  · split
    · split
      · exact memOk.later (memOk.update h)
      · exact memOk.update h
    · exact h.queueLeave

theorem memOk.grantLeave (h : memOk s) {q} : memOk (s.grantLeave q) := by
  unfold State.grantLeave
  dsimp only
  split
  · exact memOk.later (memOk.update h)
  · split
    · exact memOk.later (memOk.update h)
    · exact memOk.later (memOk.update h)
    · exact memOk.later (memOk.update h)
    · exact memOk.update h

theorem memOk.askAgain (h : memOk s) {a} : memOk (s.askAgain a) := by
  unfold State.askAgain
  split
  · exact h.later
  · exact h.later
  · exact h.later
  · exact h
  · exact h

theorem memOk.dropReservation (h : memOk s) {ctx num} : memOk (s.dropReservation ctx num) :=
  memOk.ite (memOk.foldl (memOk.update h) fun ht => ht.askAgain) h

theorem memOk.endReservations (h : memOk s) : memOk s.endReservations := h.foldl fun ht => ht.dropReservation

theorem memOk.endLeave (h : memOk s) {f} : memOk (s.endLeave f) := memOk.update h

theorem memOk.setCrewUnits (h : memOk s) {c g'} : memOk (s.setCrewUnits c g') :=
  (h.foldl fun ht => memOk.update ht).dropUnit

theorem memOk.setSpanUnits (h : memOk s) {p g'} : memOk (s.setSpanUnits p g') :=
  (h.foldl fun ht => memOk.update ht).dropUnit

theorem memOk.releasePlace (h : memOk s) {k} : memOk (s.releasePlace k) := by
  unfold State.releasePlace
  split
  · exact h
  extract_lets dropped left u v w
  have leftOk : memOk left := memOk.ite (memOk.update h) (memOk.modCore (memOk.update h))
  have grown : memOk v := by
    unfold v
    split
    · exact leftOk.quarantine
    · exact leftOk.quarantine.quarantine.ite leftOk.quarantine.quarantine.freeBlock
  have freed : memOk w := by
    unfold w
    split
    · exact grown
    · exact grown.ite grown.freeBlock
  exact freed.endLeave.ite freed

theorem memOk.releaseCrew (h : memOk s) {id} : memOk (s.releaseCrew id) := by
  unfold State.releaseCrew
  split
  · exact h
  · exact memOk.update (h.setCrewUnits.quarantine.quarantine.foldl fun ht => ht.releasePlace)

theorem memOk.releaseSpan (h : memOk s) {id} : memOk (s.releaseSpan id) := by
  unfold State.releaseSpan
  split
  · exact h
  · dsimp only
    split
    · exact ((h.foldl fun ht => ht.releaseCrew).modSpan).later
    · exact ((((h.foldl fun ht => ht.releaseCrew).setSpanUnits).quarantine).modSpan).later

theorem memOk.makeEligible (h : memOk s) {n} : memOk (s.makeEligible n) := h.modLaunch.later.later

theorem memOk.fire (h : memOk s) {n} : memOk (s.fire n) := by
  unfold State.fire
  split
  · exact h
  · exact h.ite (h.makeEligible.ite h.modLaunch)

theorem memOk.wakeLwait (h : memOk s) {k n code} : memOk (s.wakeLwait k n code) := by
  unfold State.wakeLwait
  split
  · exact h.writeS.modSheaf.dropCtx.ite h
  · exact h

theorem memOk.freeEntry (h : memOk s) {n discarded} : memOk (s.freeEntry n discarded) := by
  unfold State.freeEntry
  dsimp only
  refine memOk.foldl (memOk.update (memOk.foldl (memOk.update h) fun ht => ht.wakeLwait)) fun ht => ?_
  split
  · exact ht.modLaunch
  · exact ht.modLaunch.makeEligible.ite ht.modLaunch

theorem memOk.endLaunch (h : memOk s) {n discarded} : memOk (s.endLaunch n discarded) := by
  unfold State.endLaunch
  split
  · exact h
  · dsimp only
    split
    · exact (((h.endLeave.foldl fun ht => memOk.update ht).postCompletion).of_fst ‹_›).freeEntry
    · exact (((h.endLeave.foldl fun ht => memOk.update ht).postCompletion).of_fst ‹_›).modLaunch

theorem memOk.dropWork (h : memOk s) {n} : memOk (s.dropWork n) :=
  memOk.foldl (memOk.update (h.foldl fun ht => ht.endLeave)) fun ht => ht.releasePlace

theorem memOk.disarm (h : memOk s) {l} : memOk (s.disarm l) := by
  unfold State.disarm
  split
  · exact h
  · exact h.ite h.pkgWrite

theorem memOk.discardFuel {f} (h : memOk s) {n sub kind addr node} :
    memOk (State.discardFuel f s n sub kind addr node) := by
  induction f generalizing s n sub kind addr node with
  | zero => exact h
  | succ f ih =>
    unfold State.discardFuel
    split
    · exact h
    · dsimp only
      split
      · exact h
      · refine memOk.later (memOk.foldl ?_ fun ht => ih ht)
        refine memOk.foldl ?_ fun ht => ih ht
        refine memOk.dropWork (memOk.foldl ?_ fun ht => ht.modSpan)
        exact memOk.ite h.modLaunch.noteFault.disarm h.modLaunch.noteFault

theorem memOk.discardAt (h : memOk s) {n sub kind addr node} : memOk (s.discardAt n sub kind addr node) :=
  h.discardFuel

theorem memOk.discardEvery (h : memOk s) {sub} : memOk (s.discardEvery sub) := h.foldl fun ht => ht.discardAt

theorem memOk.controlFault (h : memOk s) : memOk s.controlFault :=
  memOk.ite (memOk.discardEvery (memOk.update h.noteFault)) h

theorem memOk.ifSound {act} (h : memOk s) (hact : ∀ {u}, memOk u → memOk (act u)) : memOk (s.ifSound act) :=
  h.controlFault.ite (hact h)

theorem memOk.discard (h : memOk s) {n sub kind addr} : memOk (s.discard n sub kind addr) := h.discardAt

/-! `Machine/Ops.lean`. -/

theorem memOk.keepOld (h : memOk s) {a n by_} : memOk (s.keepOld a n by_) := by
  unfold State.keepOld
  split
  · exact h
  · exact h.ite h.modCrew

theorem memOk.mapOld (h : memOk s) {p f} : memOk (s.mapOld p f) := h.ite (memOk.update h)

theorem memOk.learn (h : memOk s) {k m a n} : memOk (s.learn k m a n) := h.mapOld

theorem memOk.publish (h : memOk s) {k m} : memOk (s.publish k m) := h.mapOld

theorem memOk.containGranule (h : memOk s) {g'} : memOk (s.containGranule g') := by
  unfold State.containGranule
  split
  · exact h.discard
  · exact memOk.post (memOk.update h)

theorem memOk.contain (h : memOk s) {gs reader} : memOk (s.contain gs reader) := by
  unfold State.contain
  dsimp only
  split
  · exact h.foldl fun ht => ht.containGranule
  · exact (h.foldl fun ht => ht.containGranule).discard

theorem memOk.stackSet (h : memOk s) {k i w} : memOk (s.stackSet k i w) := h.modSheaf.ite h.pkgWrite

theorem memOk.push (h : memOk s) {k w} : memOk (s.push k w) := h.stackSet.modSheaf

theorem memOk.pushJoin (h : memOk s) {k mask j parent ra} : memOk (s.pushJoin k mask j parent ra) := h.push.push

theorem memOk.modRecord (h : memOk s) {k i f} : memOk (s.modRecord k i f) := h.stackSet

theorem memOk.exitRecords (h : memOk s) {k m} : memOk (s.exitRecords k m) := h.foldl fun ht => ht.modRecord.ite ht

theorem memOk.writeLoad (h : memOk s) {k l m} : memOk (s.writeLoad k l m) := by
  unfold State.writeLoad
  split
  · exact h.writeV.writeV
  · exact h.writeV
  · exact h.ite h.writeS
  · exact h

theorem memOk.setFmt (h : memOk s) {k r fmt} : memOk (s.setFmt k r fmt) := by
  unfold State.setFmt
  split
  · exact h
  · split
    · exact h
    · exact memOk.update h

theorem memOk.tagLoad (h : memOk s) {k a} : memOk (s.tagLoad k a) := by
  unfold State.tagLoad
  split
  · exact h.setFmt.setFmt
  · exact h.setFmt
  · exact h

theorem memOk.returnLanes (h : memOk s) {k id m} : memOk (s.returnLanes k id m) := by
  unfold State.returnLanes
  split
  · exact h
  · exact (h.writeLoad.tagLoad.ite h.writeLoad).modSheaf

theorem memOk.flushLoads (h : memOk s) {k m} : memOk (s.flushLoads k m) := h.foldl fun ht => ht.returnLanes

theorem memOk.freeVisitor (h : memOk s) {k} : memOk (s.freeVisitor k) := h.releasePlace.ite h

theorem memOk.leave (h : memOk s) {k b m} : memOk (s.leave k b m) := (h.exitRecords.ite h).modSlot

theorem memOk.fragReturnTrap (h : memOk s) {k b m pc kind rsn fcode faddr trap} :
    memOk (s.fragReturnTrap k b m pc kind rsn fcode faddr trap) := by
  unfold State.fragReturnTrap
  dsimp only
  exact memOk.later (memOk.leave (memOk.update h.flushLoads.publish.freshId))

theorem memOk.fragReturn (h : memOk s) {k b m pc kind rsn fcode faddr} :
    memOk (s.fragReturn k b m pc kind rsn fcode faddr) :=
  h.fragReturnTrap

theorem memOk.keepBlock (h : memOk s) {k b} : memOk (s.keepBlock k b) := by
  unfold State.keepBlock
  dsimp only
  split
  · exact h.ite h.modSheaf
  · exact h

theorem memOk.enterTrap (h : memOk s) {k b t'} : memOk (s.enterTrap k b t') :=
  h.writeS.writeS.writeS.modSlot.ite h.modSlot.discardAt

theorem memOk.takeTrap (h : memOk s) {k b t'} : memOk (s.takeTrap k b t') := by
  unfold State.takeTrap
  split
  · exact ((h.fragReturn.ite h.fragReturn.fragReturn).freeVisitor).ite h.fragReturnTrap.freeVisitor
  · exact h.enterTrap.ite h.modSlot.later

theorem memOk.slotWrite (h : memOk s) {a x} : memOk (s.slotWrite a x) := h.pkgWrite

theorem memOk.abwaitReturn (h : memOk s) {k b} : memOk (s.abwaitReturn k b) := h.modSheaf.advance.dropCtx

theorem memOk.wakeWaiters (h : memOk s) {a n} : memOk (s.wakeWaiters a n) :=
  h.foldl fun ht => ht.slotWrite.modSheaf.takeTrap.ite (ht.slotWrite.abwaitReturn.ite ht)

theorem memOk.phasesDone (h : memOk s) {a n} : memOk (s.phasesDone a n) :=
  h.ite (((h.slotWrite.foldl fun ht => ht.fire).ite h).wakeWaiters)

theorem memOk.arrive (h : memOk s) {a n} : memOk (s.arrive a n) := by
  unfold State.arrive
  dsimp only
  exact h.ite (h.containGranule.ite h.slotWrite.phasesDone)

theorem memOk.arriveFault (h : memOk s) {a code faddr} : memOk (s.arriveFault a code faddr) :=
  h.containGranule.ite ((h.slotWrite.foldl fun ht => ht.discard).wakeWaiters)

theorem memOk.rounds (h : memOk s) {cid} : memOk (s.rounds cid) := by
  unfold State.rounds
  extract_lets c w u p all v
  have woken : memOk (c.sheaves.foldl (fun (t : State) k => t.modSheaf k (·.unpark .cbar))
      (s.modCrew cid fun x => { x with cbar := 0 })) := h.modCrew.foldl fun ht => ht.modSheaf
  have crew : memOk u := memOk.ite (memOk.ite woken.dropCtx woken) h
  have span : memOk v := crew.modSpan
  exact memOk.ite (span.foldl fun ht => memOk.dropCtx (ht.foldl fun hu => hu.modSheaf)) crew

theorem memOk.refillOnce (h : memOk s) {k} : allSome (s.refillOnce k) := by
  unfold State.refillOnce
  dsimp only
  split
  · trivial
  · split
    · split
      · exact h.modSheaf.takeTrap
      · exact allSome.ite h.modSheaf h.modSheaf.modSheaf.takeTrap
    · exact allSome.ite trivial (allSome.ite h.modSheaf (allSome.ite h.modSheaf trivial))

theorem memOk.refillFuel {f k} (h : memOk s) : memOk (State.refillFuel f s k) := by
  induction f generalizing s with
  | zero => exact h
  | succ f ih =>
    unfold State.refillFuel
    split
    · exact h
    · exact ih (h.refillOnce.get ‹_›)

theorem memOk.checkEnd (h : memOk s) {k} : memOk (s.checkEnd k) :=
  h.ite (h.freeVisitor.ite (h.modSheaf.rounds.later.ite h.modSheaf.rounds))

theorem memOk.refill (h : memOk s) {k} : memOk (s.refill k) := h.ite (h.contain.ite h.refillFuel.checkEnd)

theorem memOk.finish (h : memOk s) {k h'} : memOk (s.finish k h') := h.mark.refill

theorem memOk.replayed (h : memOk s) {k b} : memOk (s.replayed k b) := h.modSlot

theorem memOk.picked (h : memOk s) {x} : memOk (s.picked x) := h.modSheaf.modCore

theorem memOk.trapped (h : memOk s) {x h' t'} : memOk (s.trapped x h' t') := h.takeTrap.finish

theorem memOk.goOn (h : memOk s) {i h' x replay a} : memOk (s.goOn i h' x replay a) := by
  unfold State.goOn
  split
  · exact h.advance.finish
  · exact h.finish
  · exact h.mark
  · exact h.modSlot.modSheaf

theorem memOk.issue {i h' c eff} (h : memOk s) (heff : ∀ {a1 u}, memOk u → flowOk (eff a1 u)) :
    memOk (issue i h' c eff s) := by
  unfold Machine.issue
  dsimp only
  split
  · exact h
  · split
    · exact h.fragReturn.refill
    · split
      · exact h.picked.trapped
      · split
        · exact h.picked.replayed.goOn
        · split
          · exact h.picked.trapped
          · split
            · exact h.picked.discardAt
            · split
              · exact h.picked.tick.trapped
              · exact ((heff h.picked.replayed).get ‹_›).goOn

theorem memOk.simple {f x} (h : memOk s) (hf : ∀ {a1 u}, memOk u → memOk (f a1 u)) : flowOk (simple f x s) := hf h

theorem memOk.whenSound {x bad r} (h : memOk s) (hr : flowOk r) : flowOk (whenSound x bad s r) :=
  flowOk.ite hr h.contain

theorem memOk.noteReady (h : memOk s) : memOk s.noteReady := memOk.update h

theorem memOk.skipPads (h : memOk s) : memOk s.skipPads := memOk.update h

theorem memOk.pass (h : memOk s) : memOk s.pass :=
  memOk.endReservations (memOk.update h.controlFault.skipPads.noteReady)

theorem memOk.begun (h : memOk s) : memOk s.begun := memOk.update h

/-! `Machine/Operands.lean`. -/

theorem memOk.writeTy (h : memOk s) {x ty d tag f} : memOk (s.writeTy x ty d tag f) := h.writeV64.ite h.writeV

/-! `Machine/Pool.lean`. -/

theorem memOk.xacq (h : memOk s) {k b n implicit} : memOk (s.xacq k b n implicit).1 := by
  unfold State.xacq
  dsimp only
  split
  · exact h
  · split
    · next e => exact memOk.of_some e (allSome.ite h.takeBlock trivial)
    · exact h.modCore.modSheaf.later.later

/-! `Machine/Control.lean`. -/

theorem memOk.placeOther (h : memOk s) {k b m pc gov} : memOk (s.placeOther k b m pc gov) := h.push.ite h.modSlot

theorem memOk.withStack {x need f} (h : memOk s) (hf : ∀ {u}, memOk u → memOk (f u).2) :
    flowOk (withStack x need s f) :=
  flowOk.ite h.contain (flowOk.ite (hf h) (flowOk.ite h.fragReturn trivial))

theorem memOk.goTo (h : memOk s) {x m pc gov} : memOk (s.goTo x m pc gov) := h.modSlot

theorem memOk.branch {x target next j pre} (h : memOk s) (hpre : ∀ {u}, memOk u → memOk (pre u)) :
    flowOk (branch x target next j pre s) := by
  unfold Machine.branch
  dsimp only
  split
  · exact (hpre h).goTo
  · refine memOk.withStack h fun ht => ?_
    split
    · exact (((hpre ht).pushJoin).goTo).placeOther
    · exact ((hpre ht).goTo).placeOther

theorem memOk.joinAt (h : memOk s) {x} : memOk (joinAt x s).2 := by
  unfold Machine.joinAt
  dsimp only
  split
  · exact h.modSlot
  · exact h

theorem memOk.softTrap (h : memOk s) {x kind code} : memOk (s.softTrap x kind code) := h.takeTrap

theorem memOk.trapReturn (h : memOk s) {x} : memOk (s.trapReturn x) := by
  unfold State.trapReturn
  dsimp only
  split
  · exact h.takeTrap
  · split
    · split
      · exact h.takeTrap
      · exact h.modSlot
    · exact h.modSlot

theorem memOk.calliEnter (h : memOk s) {x d a} : flowOk (calliEnter x d a s) :=
  flowOk.ite (h.withStack fun ht => ht.writeS.goTo.ite ht.writeS.goTo.placeOther)
    (flowOk.ite (h.branch fun ht => ht.writeS) (h.withStack fun ht => ht.writeS.pushJoin.goTo.placeOther))

theorem memOk.execCalli (h : memOk s) {h' d a} : nextOk (execCalli h' d a s) := by
  unfold Machine.execCalli
  refine memOk.issue h fun ht => ?_
  split
  · trivial
  · refine memOk.whenSound ht ?_
    split
    · exact ht.calliEnter
    · split
      · trivial
      · split
        · exact ht.xacq.of_fst ‹_›
        · exact (ht.xacq.of_fst ‹_›).calliEnter

theorem memOk.execWaita (h : memOk s) {h' d a} : nextOk (execWaita h' d a s) :=
  h.issue fun ht => ht.simple fun hu => hu.writeS.modSheaf.ite
    (hu.writeS.modSheaf.ite (hu.modSheaf.ite hu.modSheaf.later))

theorem memOk.execWaitaTimeout (h : memOk s) {p} : nextOk (execWaitaTimeout p s) := by
  unfold Machine.execWaitaTimeout
  dsimp only
  split
  · split
    · exact h
    · split
      · exact h.wakeWaita
      · exact h.later
  · exact h

theorem memOk.sleepFor (h : memOk s) {n x} : memOk (sleepFor n x s) := h.ite h.modSheaf.later

theorem memOk.execSleepExpiry (h : memOk s) {p} : nextOk (execSleepExpiry p s) := by
  unfold Machine.execSleepExpiry
  dsimp only
  split
  · split
    · exact h.modSheaf
    · exact h.later
  · exact h

/-! `Machine/Frames.lean`. -/

theorem memOk.newXid (h : memOk s) : memOk (s.newXid).2 := by
  unfold State.newXid
  exact memOk.update h

theorem memOk.openXfer (h : memOk s) {kind launch left out} : memOk (s.openXfer kind launch left out).2 := by
  unfold State.openXfer
  split
  exact memOk.update (h.newXid.of_snd ‹_›)

theorem memOk.pokeFrames (h : memOk s) : memOk s.pokeFrames := h.ite h.later

theorem memOk.sendOut (h : memOk s) {o} : memOk (s.sendOut o) := memOk.pokeFrames (memOk.update h)

theorem memOk.barPlace (h : memOk s) {k} : memOk (s.barPlace k) := memOk.update h

theorem memOk.sendAccess (h : memOk s) {kind k id mt bar r frames p} :
    memOk (s.sendAccess kind k id mt bar r frames p) := by
  unfold State.sendAccess
  dsimp only
  exact memOk.foldl (memOk.update h.openXfer) fun ht => ht.sendOut

theorem memOk.peerWrite (h : memOk s) {k ctx p a mt bs} : memOk (s.peerWrite k ctx p a mt bs) := h.sendAccess

theorem memOk.peerWriteAll (h : memOk s) {k ctx p a mt bs} : memOk (s.peerWriteAll k ctx p a mt bs) :=
  h.foldl fun ht => ht.peerWrite

theorem memOk.peerRead (h : memOk s) {k p a load lane ty acc acq} : memOk (s.peerRead k p a load lane ty acc acq) :=
  h.sendAccess

theorem memOk.peerAtom (h : memOk s) {k p a load ty op ls acc acq} : memOk (s.peerAtom k p a load ty op ls acc acq) :=
  h.sendAccess

theorem memOk.blockWrite (h : memOk s) {k va bs} : allOk (s.blockWrite k va bs) := by
  unfold State.blockWrite
  dsimp only
  split
  · trivial
  · split
    · exact h.peerWriteAll
    · exact h.coreWrite
    · trivial

theorem memOk.acquireL1 (h : memOk s) {k} : memOk (s.acquireL1 k) := h.ite h.dropCtx

theorem memOk.startLoad (h : memOk s) {k dest left ready bad vals code addr acq} :
    memOk (s.startLoad k dest left ready bad vals code addr acq).2 := by
  unfold State.startLoad
  split
  exact memOk.update ((h.freshId.of_snd ‹_›).modSheaf)

theorem memOk.homeWrite (h : memOk s) {ctx a bs} : memOk (s.homeWrite ctx a bs).2 := by
  unfold State.homeWrite
  split
  · exact h
  · split
    · exact h.foldl fun ht => ht.containGranule
    · exact h.keepOld.pkgWrite

theorem memOk.noteRefused (h : memOk s) {k ia} : memOk (s.noteRefused k ia) := h.modSheaf

/-! `Machine/Migrate.lean`. -/

theorem memOk.resumePath (h : memOk s) {k c entry} : memOk (s.resumePath k c entry) :=
  h.modSheaf.ite (h.modSheaf.ite (h.push.ite h.modSheaf))

theorem memOk.returnRegs (h : memOk s) {k w c} : memOk (s.returnRegs k w c) :=
  (((h.foldl fun ht => ht.writeV.ite ht).foldl fun ht => ht.writeP.ite ht).foldl fun ht => ht.writeS).modSheaf

theorem memOk.applyReturn (h : memOk s) {c} : memOk (s.applyReturn c) := by
  unfold State.applyReturn
  extract_lets k
  split
  · exact h
  split
  · exact h
  next w _ =>
    extract_lets u v y
    have back : memOk v := h.returnRegs.dropCtx.modSheaf
    have gone : memOk y := back.ite (back.modSheaf.ite (back.modSheaf.ite back).resumePath)
    exact h.ite (h.returnRegs.modSpan.ite (h.discardAt.ite gone.refill))

theorem memOk.openWindow (h : memOk s) {k b j away} : memOk (s.openWindow k b j away) := h.pushJoin.modSheaf

theorem memOk.moreAway (h : memOk s) {k m} : memOk (s.moreAway k m) := h.modSheaf

theorem memOk.refuseHere (h : memOk s) {k b m pc hops rsn auto} : memOk (s.refuseHere k b m pc hops rsn auto) := by
  unfold State.refuseHere
  dsimp only
  split
  · exact h.leave.applyReturn
  · exact memOk.later (memOk.update h.leave.freshId)

theorem memOk.depart (h : memOk s) {k b m o pc hops auto ia} : memOk (s.depart k b m o pc hops auto ia) := by
  unfold State.depart
  dsimp only
  split
  · exact h.flushLoads.publish.refuseHere
  · exact memOk.later (memOk.leave (memOk.update h.flushLoads.publish.freshId))

theorem memOk.departAll (h : memOk s) {k b go own pc hops auto ia} : memOk (s.departAll k b go own pc hops auto ia) :=
  h.foldl fun ht => ht.depart

/-! `Machine/Optics.lean`. -/

theorem memOk.modWave (h : memOk s) {f w g'} : memOk (s.modWave f w g') := memOk.update h

theorem memOk.modGrp (h : memOk s) {f g' h'} : memOk (s.modGrp f g' h') := memOk.update h

theorem memOk.modLink (h : memOk s) {f h'} : memOk (s.modLink f h') := memOk.update h

theorem memOk.modLr (h : memOk s) {l h'} : memOk (s.modLr l h') := memOk.update h

theorem memOk.modTheo (h : memOk s) {e h'} : memOk (s.modTheo e h') := memOk.update h

theorem memOk.modPlane (h : memOk s) {p h'} : memOk (s.modPlane p h') := memOk.update h

/-! `Machine/Memory.lean`. -/

theorem memOk.refusalTrap (h : memOk s) {x m ia} : memOk (s.refusalTrap x m ia) := h.modSheaf.modSlot.takeTrap

theorem memOk.sendLanes (h : memOk s) {x go at_} : memOk (s.sendLanes x go at_) :=
  (h.ite (h.moreAway.ite h.openWindow)).departAll

theorem memOk.holdSlot (h : memOk s) {x id lanes_ bad} : memOk (s.holdSlot x id lanes_ bad) :=
  h.ite (h.modSlot.later.ite h.modSlot)

theorem memOk.refuseLanes (h : memOk s) {x from_ m ia} : memOk (s.refuseLanes x from_ m ia) := by
  unfold State.refuseLanes
  dsimp only
  split
  · exact h.modSheaf.startLoad.holdSlot
  · exact h.modSheaf.modSheaf.holdSlot

theorem memOk.memAccess {p : Access.Plan} {perform : Ex → (Nat → Access) → State → State} {x} (h : memOk s)
    (hp : ∀ {x a u}, memOk u → memOk (perform x a u)) :
    flowOk (Machine.memAccess p perform x s) := by
  unfold Machine.memAccess
  extract_lets acc lane ia fate bad go crooked stay at_ rest strict errs
  refine flowOk.ite h (flowOk.guard (flowOk.ite ?_ (flowOk.check (flowOk.ite h.refusalTrap (flowOk.ite h
    (flowOk.check (flowOk.ite h.contain (flowOk.ite (hp h) (flowOk.ite (hp h).refuseLanes ?_)))))))))
  · split
    · trivial
    · trivial
  · exact memOk.withStack h fun hu => memOk.ite (hp hu.sendLanes) (hp hu.sendLanes).refuseLanes

theorem memOk.loadLanes (h : memOk s) {x ty dest once cached acq at_} :
    memOk (s.loadLanes x ty dest once cached acq at_) := by
  unfold State.loadLanes
  dsimp only
  split
  · exact h
  · refine memOk.holdSlot ?_
    refine memOk.foldl ?_ fun ht => ?_
    · refine memOk.startLoad ?_
      refine memOk.foldl h fun ht => ?_
      split
      · exact (ht.ite ht.freshen).learn
      · exact ht
    · split
      · exact ht.peerRead
      · exact ht

theorem memOk.fillLanes (h : memOk s) {x n at_} : memOk (s.fillLanes x n at_) := by
  unfold State.fillLanes
  refine memOk.foldl h fun ht => ?_
  split
  · exact ht.fillLines.ite ht
  · exact ht

theorem memOk.laneWrite (h : memOk s) {k L a bs} : memOk (s.laneWrite k L a bs).2 := by
  unfold State.laneWrite
  split
  · exact h.keepOld.coreWrite
  · exact h.peerWriteAll
  · exact h.modWrite

theorem memOk.storeLanes (h : memOk s) {x data at_} : memOk (s.storeLanes x data at_) := by
  unfold State.storeLanes
  extract_lets r u
  have stored : memOk u := by
    refine memOk.foldl_of (fun r : Word32 × Byte × BitVec 56 × State => r.2.2.2) h fun hb => ?_
    dsimp only
    split
    · exact hb.laneWrite
    · split <;> exact hb.laneWrite
  exact stored.ite stored.startLoad.holdSlot

theorem memOk.storeOrdered (h : memOk s) {strong x data at_} : memOk (s.storeOrdered strong x data at_) :=
  h.acquireL1.storeLanes.barPlace.publish.ite h.storeLanes

theorem memOk.laneAtom (h : memOk s) {k L a n f} : memOk (s.laneAtom k L a n f).2 := by
  unfold State.laneAtom
  split
  · exact h.learn.keepOld.pkgWrite.ite h.learn.keepOld.pkgWrite.dropRange
  · exact h
  · dsimp only
    split
    · exact h
    · split
      · exact h.modWrite
      · exact h.modWrite

theorem memOk.atomLanes (h : memOk s) {x ty dest op acq c nw f at_} :
    memOk (s.atomLanes x ty dest op acq c nw f at_) := by
  unfold State.atomLanes
  refine memOk.ite h ?_
  extract_lets n r got bad away vals e u left
  have done : memOk u := memOk.foldl_of (fun r : List (Nat × Got) × State => r.2) h fun hb => hb.laneAtom
  refine memOk.ite done (memOk.holdSlot (memOk.foldl done.startLoad fun hu => ?_))
  split
  · exact hu.peerAtom
  · exact hu

theorem memOk.waitRemote {rel x go} (h : memOk s) (hgo : ∀ {u}, memOk u → flowOk (go u)) :
    flowOk (waitRemote rel x s go) :=
  flowOk.ite h (hgo (h.publish.ite h))

theorem memOk.regionLoad (h : memOk s) {i h' ty d m lane} : memOk (regionLoad i h' ty d m lane s) :=
  h.issue fun ht => ht.memAccess fun hu => hu.loadLanes

theorem memOk.regionStore (h : memOk s) {i h' ty d m lane} : memOk (regionStore i h' ty d m lane s) :=
  h.issue fun ht => ht.memAccess fun hu => hu.storeLanes

theorem memOk.virtLoad (h : memOk s) {i h' ty d m pair} : memOk (virtLoad i h' ty d m pair s) :=
  h.issue fun ht => ht.waitRemote fun hu => hu.memAccess fun hv => ((hv.acquireL1.ite hv).fillLanes).loadLanes

theorem memOk.virtStore (h : memOk s) {i h' ty d m pair auto} : memOk (virtStore i h' ty d m pair auto s) :=
  h.issue fun ht => ht.waitRemote fun hu => hu.memAccess fun hv => hv.storeOrdered

theorem memOk.execLdb (h : memOk s) {h' ty d base off} : nextOk (execLdb h' ty d base off s) :=
  h.issue fun ht => ht.waitRemote fun hu => hu.memAccess fun hv => (hv.acquireL1.ite hv).loadLanes

theorem memOk.execLda (h : memOk s) {h' ty ord scp d m} : nextOk (execLda h' ty ord scp d m s) :=
  h.issue fun ht => ht.waitRemote fun hu => hu.memAccess fun hv => ((hv.acquireL1.ite hv).modSheaf).loadLanes

theorem memOk.atomic (h : memOk s) {i h' ty op ord scp dest m auto us c nw f} :
    memOk (atomic i h' ty op ord scp dest m auto us c nw f s) :=
  h.issue fun ht => ht.waitRemote fun hu => hu.memAccess fun hv => (((hv.acquireL1.ite hv).atomLanes).publish).ite
    ((hv.acquireL1.ite hv).atomLanes)

/-! `Machine/Barrier.lean`. -/

theorem memOk.slotGuard {x b go} (h : memOk s) (hgo : flowOk go) : flowOk (slotGuard x b s go) :=
  flowOk.ite h.contain hgo

theorem memOk.slotChange (h : memOk s) {i h' b us f} : memOk (slotChange i h' b us f s) := by
  unfold Machine.slotChange
  refine memOk.issue h fun ht => ?_
  refine memOk.slotGuard ht ?_
  refine memOk.waitRemote ht fun hu => ?_
  dsimp only
  exact hu.slotWrite.wakeWaiters.ite hu.slotWrite.phasesDone

theorem memOk.execAbwait (h : memOk s) {h' b a} : nextOk (execAbwait h' b a s) :=
  h.issue fun ht => ht.slotGuard (ht.waitRemote fun hu => flowOk.ite trivial
    (flowOk.ite hu.acquireL1 hu.slotWrite.modSheaf))

theorem memOk.slotTest (h : memOk s) {i h' d b a done} : memOk (slotTest i h' d b a done s) :=
  h.issue fun ht => ht.slotGuard (ht.waitRemote fun hu => flowOk.ite hu.writeS
    (flowOk.ite hu.acquireL1.writeS hu.writeS))

/-! `Machine/BitSerial.lean`. -/

theorem memOk.writeRows (h : memOk s) {x rows} : allOk (s.writeRows x rows) := by
  induction rows generalizing s with
  | nil => exact h
  | cons row rows ih =>
    unfold State.writeRows
    dsimp only
    split
    · exact ih h.keepOld.learn.coreWrite
    · trivial
    · split
      · exact ih h.modWrite
      · trivial

theorem memOk.bsLeave (h : memOk s) {x q} : allSome (s.bsLeave x q) := allSome.ite trivial h.askLeave.modSheaf

theorem memOk.bsEnd (h : memOk s) {x} : memOk (s.bsEnd x) := (h.endLeave.ite h).modSheaf

theorem memOk.bsTrap (h : memOk s) {x t'} : flowOk (bsTrap x s t') := flowOk.ite trivial h.bsEnd.takeTrap.refill

theorem memOk.bsGo {x q o eff} (h : memOk s) (heff : ∀ {u}, memOk u → memOk (eff u).2) :
    flowOk (bsGo x q o eff s) := by
  unfold Machine.bsGo
  extract_lets bad m left
  split
  · exact flowOk.ok h.bsEnd.fragReturn.refill
  split
  · split
    · split
      · exact flowOk.ok h.refusalTrap
      · exact flowOk.ok h.refuseLanes
    split
    · trivial
    · exact flowOk.ok h.sendLanes
  split
  · exact h.bsTrap
  split
  · exact flowOk.ok h.contain
  refine h.waitRemote fun {u} hu => ?_
  split
  next e => exact flowOk.ok (hu.bsLeave.get e)
  split
  next v e =>
    have hv : memOk v := (heff hu).of_snd e
    exact flowOk.ok hv.bsEnd
  next r v e =>
    have hv : memOk v := (heff hu).of_snd e
    exact flowOk.ok hv.bsEnd.takeTrap.refill

theorem memOk.bitSerial (h : memOk s) {i h' sat d a b c wa wb wd sg acc f} :
    memOk (Machine.bitSerial i h' sat d a b c wa wb wd sg acc f s) := by
  unfold Machine.bitSerial
  refine memOk.issue h fun ht => ?_
  extract_lets q w
  split
  · exact ht.bsTrap
  · refine memOk.bsGo ht fun hu => ?_
    split
    · exact hu
    · split
      · exact hu
      · split
        · exact hu
        · extract_lets res u
          have drawn : memOk u := hu.ite (memOk.update hu)
          split
          · split
            · exact drawn.ite drawn.modWrite
            · exact drawn
          · next e => exact memOk.of_ok e (memOk.writeRows drawn)

theorem memOk.execBspopc (h : memOk s) {h' d a c wa sg} : nextOk (execBspopc h' d a c wa sg s) := by
  unfold Machine.execBspopc
  refine memOk.issue h fun ht => ?_
  dsimp only
  split
  · exact ht.bsTrap
  · refine memOk.bsGo ht fun hu => ?_
    split
    · exact hu
    · exact hu.writeS.ite hu.writeS.tick

/-! `Machine/Scalar.lean`. -/

theorem memOk.scalar2 (h : memOk s) {i h' d a b f} : memOk (scalar2 i h' d a b f s) :=
  h.issue fun ht => ht.simple fun hu => hu.writeS

theorem memOk.scalar1 (h : memOk s) {i h' d a f} : memOk (scalar1 i h' d a f s) :=
  h.issue fun ht => ht.simple fun hu => hu.writeS

/-! `Machine/VecInt.lean`. -/

theorem memOk.vec2 (h : memOk s) {i h' ty d a b f} : memOk (vec2 i h' ty d a b f s) :=
  h.issue fun ht => ht.simple fun hu => hu.writeTy

theorem memOk.vec1 (h : memOk s) {i h' ty d a tag f} : memOk (vec1 i h' ty d a tag f s) :=
  h.issue fun ht => ht.simple fun hu => hu.writeTy

theorem memOk.vecCount (h : memOk s) {i h' ty d a b f} : memOk (vecCount i h' ty d a b f s) :=
  h.issue fun ht => ht.simple fun hu => hu.writeTy

theorem memOk.writeTags (h : memOk s) {x ty d lo hi f} : memOk (s.writeTags x ty d lo hi f) :=
  h.writeV.writeV.ite h.writeV

/-! `Machine/VecFloat.lean`. -/

theorem memOk.srndStep (h : memOk s) {k rnd} : memOk (s.srndStep k rnd) := h.modSheaf.ite h

theorem memOk.floatCr (h : memOk s) {i h' ty rnd d uses f} : memOk (floatCr i h' ty rnd d uses f s) :=
  h.issue fun ht => ht.simple fun hu => hu.writeTy.srndStep

theorem memOk.float2 (h : memOk s) {i h' ty rnd d a b f} : memOk (float2 i h' ty rnd d a b f s) := h.floatCr

theorem memOk.float3 (h : memOk s) {i h' ty rnd d a b c f} : memOk (float3 i h' ty rnd d a b c f s) := h.floatCr

theorem memOk.float1 (h : memOk s) {i h' ty rnd d a f} : memOk (float1 i h' ty rnd d a f s) := h.floatCr

theorem memOk.floatBits (h : memOk s) {i h' ty d a f} : memOk (floatBits i h' ty d a f s) := h.vec1

/-! `Machine/Convert.lean`. -/

theorem memOk.execVquant (h : memOk s) {h' dt rnd d a c p} : nextOk (execVquant h' dt rnd d a c p s) :=
  h.issue fun ht => ht.simple fun hu => hu.writeV.writeS.srndStep.modSheaf.ite hu.writeV.writeS.srndStep

theorem memOk.vdot (h : memOk s) {i h' ty rnd sat d a b} : memOk (vdot i h' ty rnd sat d a b s) :=
  h.issue fun ht => ht.simple fun hu => hu.writeV.srndStep

/-! `Machine/CrossLane.lean`. -/

theorem memOk.crossCopy (h : memOk s) {i h' ty d a bu fill src} : memOk (crossCopy i h' ty d a bu fill src s) :=
  h.issue fun ht => ht.simple fun hu => hu.writeTags

theorem memOk.pred2 (h : memOk s) {i h' d a b f} : memOk (pred2 i h' d a b f s) :=
  h.issue fun ht => ht.simple fun hu => hu.writeP

theorem memOk.pred1 (h : memOk s) {i h' d a f} : memOk (pred1 i h' d a f s) :=
  h.issue fun ht => ht.simple fun hu => hu.writeP

/-! `Machine/EvCore.lean`. -/

theorem memOk.execLoadLaneReturn (h : memOk s) {p id lane} : nextOk (execLoadLaneReturn p id lane s) :=
  h.returnLanes.freeVisitor

theorem memOk.settle (h : memOk s) {k b l pc opc micro} : memOk (s.settle k b l pc opc micro) :=
  h.returnLanes.tagLoad.modSheaf.fragReturn.refill.ite h.returnLanes.tagLoad.modSheaf.modSlot.takeTrap

theorem memOk.execMemoryFaultSettle (h : memOk s) {p b} : nextOk (execMemoryFaultSettle p b s) := by
  unfold Machine.execMemoryFaultSettle
  dsimp only
  split
  · split
    · exact h.modSlot
    · exact h.ite (h.modSlot.ite h.settle.refill)
  · exact h

theorem memOk.execTrapEntry (h : memOk s) {p b} : nextOk (execTrapEntry p b s) := by
  unfold Machine.execTrapEntry
  dsimp only
  split
  · exact h
  · split
    · exact h
    · exact h.enterTrap.refill.ite h.later

theorem memOk.execExtendedBlockGrant (h : memOk s) {core} : nextOk (execExtendedBlockGrant core s) := h.offerBlocks

theorem memOk.execCompactorMove (h : memOk s) {core} : nextOk (execCompactorMove core s) := by
  unfold Machine.execCompactorMove
  split
  · exact h
  · dsimp only
    split
    · exact h.later
    · exact h.modCore.later

theorem memOk.containReg (h : memOk s) {unit idx} : memOk (s.containReg unit idx) := by
  unfold State.containReg
  split
  · exact h.discardAt
  · exact memOk.post (memOk.update h)

theorem memOk.containWord (h : memOk s) {w} : memOk (s.containWord w) := by
  unfold State.containWord
  dsimp only
  split
  · split
    · exact h.discardAt
    · exact memOk.post (memOk.update h)
  · split
    · exact h.discardAt
    · exact memOk.post (memOk.update h)
  · split
    · exact h.discardAt
    · exact memOk.post (memOk.update h)
  · exact h
  · exact h

theorem memOk.execCompactorMoveDone (h : memOk s) {core} : nextOk (execCompactorMoveDone core s) := by
  unfold Machine.execCompactorMoveDone
  split
  · exact h
  · dsimp only
    split
    · exact h.modCore.containReg
    · refine memOk.offerBlocks ?_
      refine memOk.modCore ?_
      split
      · exact h.foldl fun ht => memOk.update ht
      · exact (h.foldl fun ht => memOk.update ht).modSheaf

theorem memOk.sweepRegs (h : memOk s) {unit} : memOk (s.sweepRegs unit) := memOk.update h

theorem memOk.sweepGranules (h : memOk s) {a n} : memOk (s.sweepGranules a n) :=
  memOk.foldl (memOk.update h) fun ht => ht.containGranule

theorem memOk.wakeSweeps (h : memOk s) {slice key passes} : memOk (s.wakeSweeps slice key passes) := by
  unfold State.wakeSweeps
  refine memOk.foldl h fun ht => ?_
  split
  · exact ht.modSheaf.advance.ite ht
  · exact ht

theorem memOk.execSweeperPassEnd (h : memOk s) {slice n} : nextOk (execSweeperPassEnd slice n s) := by
  unfold Machine.execSweeperPassEnd
  extract_lets key unit own regs u passes v w y
  have ownOk : memOk own := h.sweepGranules.ite h
  have regsOk : memOk regs := ownOk.foldl fun ht => ht.containReg
  have swept : memOk u := h.sweepGranules.ite (regsOk.foldl fun ht => ht.containWord).sweepRegs
  have woken : memOk w := (memOk.wakeSweeps (memOk.update swept)).later
  have granted : memOk y := woken.later.ite woken
  exact nextOk.skip h (granted.sweep.ite granted)

/-! `Machine/FarMemory.lean`. -/

theorem memOk.postTensor (h : memOk s) {x c} : memOk (s.postTensor x c).2 := by
  unfold State.postTensor
  dsimp only
  split
  · exact h.modSheaf
  · split
    · exact memOk.later (memOk.modSheaf (memOk.modCrew (memOk.update h.modCore)))
    · exact memOk.modSheaf (memOk.modCrew (memOk.update h.modCore))

theorem memOk.tensor (h : memOk s) {i h' kind ord b ra rb rc} : memOk (tensor i h' kind ord b ra rb rc s) := by
  unfold Machine.tensor
  refine memOk.issue h fun ht => ?_
  dsimp only
  refine flowOk.guard ?_
  exact ht.waitRemote fun hu => hu.postTensor

theorem memOk.sendCmd (h : memOk s) {m ctx c} : memOk (s.sendCmd m ctx c).2 := by
  unfold State.sendCmd
  split
  exact memOk.sendOut (memOk.update (h.openXfer.of_snd ‹_›))

theorem memOk.postCmd (h : memOk s) {x m c} : memOk (s.postCmd x m c) := by
  unfold State.postCmd
  split
  · split
    · exact h.arriveFault
    · exact h
  · exact h.sendCmd.modCrew

theorem memOk.twoArgs (h : memOk s) {i h' code ty op unit limit ord b ra rb rc} :
    memOk (twoArgs i h' code ty op unit limit ord b ra rb rc s) := by
  unfold Machine.twoArgs
  refine memOk.issue h fun ht => ?_
  dsimp only
  refine flowOk.check (.check (.check ?_))
  split
  · trivial
  · split
    · trivial
    · exact flowOk.ite trivial (flowOk.ite ht.arrive (ht.waitRemote fun hu => hu.postCmd))

theorem memOk.execMfill (h : memOk s) {h' ord scp sl a b c} : nextOk (execMfill h' ord scp sl a b c s) := by
  unfold Machine.execMfill
  refine memOk.issue h fun ht => ?_
  dsimp only
  refine flowOk.check ?_
  split
  · trivial
  · exact flowOk.ite ht.arrive (ht.waitRemote fun hu => hu.postCmd)

theorem memOk.execMsnap (h : memOk s) {h' ord scp d a b} : nextOk (execMsnap h' ord scp d a b s) := by
  unfold Machine.execMsnap
  refine memOk.issue h fun ht => ?_
  dsimp only
  refine flowOk.check (.check ?_)
  split
  · trivial
  · exact ht.waitRemote fun hu => flowOk.ite hu.writeS hu.sendCmd.modSheaf

theorem memOk.execMclose (h : memOk s) {h' ord scp a} : nextOk (execMclose h' ord scp a s) :=
  h.issue fun ht => flowOk.ite ht (flowOk.ite trivial (ht.waitRemote fun hu => hu.ite hu.sendCmd))

/-! `Machine/StateInstr.lean`. -/

theorem memOk.execXacq (h : memOk s) {h' n} : nextOk (execXacq h' n s) := by
  unfold Machine.execXacq
  refine memOk.issue h fun ht => ?_
  split
  · exact ht.xacq.of_fst ‹_›
  · exact ht.xacq.of_fst ‹_›

theorem memOk.dropBlock (h : memOk s) {k} : memOk (s.dropBlock k) := by
  unfold State.dropBlock
  split
  · exact h
  · exact h.modSheaf.quarantine.freeBlock

theorem memOk.execSread (h : memOk s) {h' d sr} : nextOk (execSread h' d sr s) := by
  unfold Machine.execSread
  split
  · exact h.issue fun ht => ht.simple fun hu => hu.writeV
  · exact h.issue fun ht => ht.simple fun hu => hu.writeS.tick

theorem memOk.execTagq (h : memOk s) {h' d src} : nextOk (execTagq h' d src s) := by
  unfold Machine.execTagq
  split
  · exact h.issue fun ht => ht.simple fun hu => hu.writeS
  · exact h.issue fun ht => ht.simple fun hu => hu.writeS
  · exact h.issue fun ht => ht.simple fun hu => hu.writeS
  · exact h.issue fun ht => ht.simple fun hu => hu.writeS

theorem memOk.execCtxsave (h : memOk s) {h' a} : nextOk (execCtxsave h' a s) := by
  unfold Machine.execCtxsave
  refine memOk.issue h fun ht => ?_
  split
  · trivial
  · split
    · exact ht.modSheaf
    · split
      · exact ht.discardAt
      · split
        · trivial
        · exact (ht.blockWrite.get ‹_›).modSheaf

theorem memOk.unstamp (h : memOk s) {k a} : memOk (s.unstamp k a) := by
  unfold State.unstamp
  split
  · split
    · exact h
    · exact memOk.update h
  · exact memOk.update h
  · exact memOk.update h

theorem memOk.ctxRestore (h : memOk s) {k bs} : memOk (s.ctxRestore k bs) :=
  (((h.foldl fun ht => ht.writeV.ite ht.unstamp).foldl fun ht => ht.writeS.ite ht.unstamp).foldl
    fun ht => ht.writeP.ite ht.unstamp).modSheaf

theorem memOk.execCtxload (h : memOk s) {h' a} : nextOk (execCtxload h' a s) := by
  unfold Machine.execCtxload
  refine memOk.issue h fun ht => ?_
  split
  · trivial
  · split
    · trivial
    · exact ht.whenSound (flowOk.ite trivial (flowOk.ite trivial ht.ctxRestore))

/-! `Machine/Matrix.lean`. -/

theorem memOk.setDesc (h : memOk s) {k n d} : memOk (s.setDesc k n d) := h.modCrew

theorem memOk.modEngine (h : memOk s) {core f} : memOk (s.modEngine core f) := h.modCore

theorem memOk.matPost {x c} (h : memOk s) (hc : ∀ {u}, memOk u → memOk (c u).2) : memOk (s.matPost x c).2 := by
  unfold State.matPost
  split
  split
  · exact (((hc h).of_snd ‹_›).modEngine).modSheaf
  · exact (((hc h).of_snd ‹_›).modEngine).later

theorem memOk.matEntered (h : memOk s) {c} : memOk (s.matEntered c) := by
  unfold State.matEntered
  split
  · exact h.modSheaf.advance
  · exact h

theorem memOk.fillQueue (h : memOk s) {core n} : memOk (s.fillQueue core n) := by
  induction n generalizing s with
  | zero => exact h
  | succ n ih =>
    unfold State.fillQueue
    dsimp only
    split
    · exact h
    · exact h.ite (ih h.modEngine.matEntered)

theorem memOk.matIssue (h : memOk s) {i h' c chk cap} : memOk (matIssue i h' c chk cap s) := by
  unfold Machine.matIssue
  refine memOk.issue h fun ht => ?_
  refine flowOk.guard ?_
  exact ht.matPost fun hu => hu

theorem memOk.execMrdv (h : memOk s) {h' ty rnd sat part d a r} : nextOk (execMrdv h' ty rnd sat part d a r s) := by
  unfold Machine.execMrdv
  refine memOk.issue h fun ht => ?_
  refine memOk.matPost ht fun hu => ?_
  split
  exact hu.startLoad.of_snd ‹_›

theorem memOk.ordered (h : memOk s) {x id} : memOk (s.ordered x id) := h.mapOld

theorem memOk.mfence (h : memOk s) {i h' c acq} : memOk (mfence i h' c acq s) := by
  unfold Machine.mfence
  refine memOk.issue h fun ht => ?_
  refine memOk.waitRemote ht fun hu => ?_
  refine memOk.matPost hu fun hv => ?_
  split
  exact ((hv.freshId.of_snd ‹_›).ordered).ite (hv.freshId.of_snd ‹_›)

theorem memOk.seeWrites (h : memOk s) {c} : memOk (s.seeWrites c) := h.ite (memOk.update h.modCrew)

theorem memOk.writeRow (h : memOk s) {c tile row f} : memOk (s.writeRow c tile row f) := h.ite (memOk.update h)

theorem memOk.multiply (h : memOk s) {c ty tb inc d rows cols depth bs} :
    allOk (s.multiply c ty tb inc d rows cols depth bs) := by
  unfold State.multiply
  split
  · trivial
  · split
    · trivial
    · exact h.foldl fun ht => ht.writeRow

theorem memOk.runMma (h : memOk s) {c ty inc f d rows cols depth} :
    allOk (s.runMma c ty inc f d rows cols depth) := by
  unfold State.runMma
  dsimp only
  split
  · exact h
  · split
    · trivial
    · exact h.multiply

theorem memOk.runMmas (h : memOk s) {c ty inc d rows cols depth} : allOk (s.runMmas c ty inc d rows cols depth) := by
  unfold State.runMmas
  split
  · trivial
  · split
    · exact h
    · exact h.multiply

theorem memOk.runMzero (h : memOk s) {c d ms} : memOk (s.runMzero c d ms) := h.foldl fun ht => ht.writeRow

theorem memOk.runMew (h : memOk s) {c ty op d a ms} : allOk (s.runMew c ty op d a ms) := by
  unfold State.runMew
  split
  · trivial
  · exact h.foldl fun ht => ht.writeRow

theorem memOk.storeElem (h : memOk s) {k a ty j v} : memOk (s.storeElem k a ty j v) := h.keepOld.pkgWrite

theorem memOk.runMst (h : memOk s) {c ty rnd sat a ms} : allOk (s.runMst c ty rnd sat a ms) := by
  unfold State.runMst
  dsimp only
  split
  · trivial
  · split
    · trivial
    · exact h.foldl fun ht => ht.foldl fun hu => hu.storeElem

theorem memOk.runMlda (h : memOk s) {c ty d ms} : allOk (s.runMlda c ty d ms) := by
  unfold State.runMlda
  split
  · trivial
  · exact h.foldl fun ht => ht.writeRow

theorem memOk.dropLoad (h : memOk s) {k id} : memOk (s.dropLoad k id) := h.modSheaf

theorem memOk.runMrdv (h : memOk s) {c ty rnd sat part a r} : allOk (s.runMrdv c ty rnd sat part a r) := by
  unfold State.runMrdv
  dsimp only
  split
  · trivial
  · split
    · trivial
    · exact memOk.update h.modSheaf.modEngine

theorem memOk.runMwrv (h : memOk s) {c ty part d r} : memOk (s.runMwrv c ty part d r) := h.foldl fun ht => ht.writeRow

theorem memOk.runMtrn (h : memOk s) {c d a} : allOk (s.runMtrn c d a) := by
  unfold State.runMtrn
  split
  · trivial
  · exact h.foldl fun ht => ht.writeRow

theorem memOk.mfenSeen (h : memOk s) {c} : memOk (s.mfenSeen c) := memOk.update h

theorem memOk.runMfen (h : memOk s) {c b} : memOk (s.runMfen c b) := by
  unfold State.runMfen
  dsimp only
  split
  · exact h.modCrew.mapOld.arrive
  · exact h.modCrew.mapOld.arriveFault

theorem memOk.matRun (h : memOk s) {c} : allOk (s.matRun c) := by
  unfold State.matRun
  split
  · exact h.runMma
  · exact h.runMmas
  · exact h.runMzero
  · exact h.runMew
  · exact h.runMst
  · exact h.runMlda
  · exact h.runMrdv
  · exact h.runMwrv
  · exact h.runMtrn
  · exact h.mfenSeen.runMfen
  · exact h.mfenSeen
  · exact h

theorem memOk.matFail (h : memOk s) {c e} : memOk (s.matFail c e) := by
  unfold State.matFail
  extract_lets u
  have dropped : memOk u := by
    unfold u
    split
    · exact h.dropLoad
    · exact h
  split
  · exact dropped.modCrew.tick
  · exact dropped.discardAt.ite dropped.contain

theorem memOk.matStart (h : memOk s) {core} : memOk (s.matStart core) := h.modEngine.later

theorem memOk.execMatrixCommandExecute (h : memOk s) {core} : nextOk (execMatrixCommandExecute core s) := by
  unfold Machine.execMatrixCommandExecute
  dsimp only
  split
  · exact h.fillQueue
  · split
    · exact h.fillQueue
    · split
      · exact h.fillQueue.discardAt
      · split
        · exact h.fillQueue.matStart
        · split
          · exact h.fillQueue.modEngine.matStart
          · split
            · exact h.fillQueue.endLeave.modEngine.later
            · exact h.fillQueue.modEngine.matStart.later.ite h.fillQueue.askLeave.later

theorem memOk.execMatrixCommandComplete (h : memOk s) {core} : nextOk (execMatrixCommandComplete core s) := by
  unfold Machine.execMatrixCommandComplete
  dsimp only
  split
  · exact h
  · refine memOk.ite h (memOk.ite h.later ?_)
    generalize e : State.seeWrites _ _ = u
    have seen : memOk u := e ▸ h.modEngine.seeWrites
    split
    · next run =>
      split at run
      · cases run
      · have done := (memOk.matRun seen).get run
        exact memOk.ite (memOk.later (memOk.ite done.fillQueue done.fillQueue.later))
          (memOk.ite done.fillQueue done.fillQueue.later)
    · exact memOk.ite (memOk.later (memOk.ite seen.matFail.fillQueue seen.matFail.fillQueue.later))
        (memOk.ite seen.matFail.fillQueue seen.matFail.fillQueue.later)

theorem memOk.execMatrixBurstEnd (h : memOk s) {core} : nextOk (execMatrixBurstEnd core s) :=
  h.ite (h.later.ite h.endLeave.modEngine)

/-! `Machine/Launch.lean`. -/

theorem memOk.loseWith (h : memOk s) {n preds} : memOk (s.loseWith n preds) := h.discardAt.ite h

theorem memOk.accept (h : memOk s) {ctx parent deps arm x} : memOk (s.accept ctx parent deps arm x).2 := by
  unfold State.accept
  dsimp only
  split
  · exact memOk.loseWith (memOk.slotWrite (memOk.update h))
  · exact memOk.ite (memOk.makeEligible (memOk.update h)) (memOk.loseWith (memOk.update h))

theorem memOk.answerLaunch (h : memOk s) {k b d code} : memOk (s.answerLaunch k b d code) := h.writeS.modSheaf.advance

theorem memOk.admitSheaf (h : memOk s) {q k b} : memOk (s.admitSheaf q k b) := by
  unfold State.admitSheaf
  dsimp only
  split
  · exact h.answerLaunch
  · exact h.answerLaunch.ite (h.answerLaunch.ite h.accept.answerLaunch)

theorem memOk.admitHost (h : memOk s) {q} : memOk (s.admitHost q) := by
  unfold State.admitHost
  split
  · exact h.postCompletion
  · exact h.accept

theorem memOk.execOrreryAdmit (h : memOk s) : nextOk (execOrreryAdmit s) := by
  unfold Machine.execOrreryAdmit
  refine memOk.ifSound h fun ht => ?_
  split
  · exact ht.ite ht.later
  · split
    · exact ht.ite ht.later
    · dsimp only
      split
      · exact memOk.ite (memOk.admitSheaf (memOk.update ht)) (memOk.contain (memOk.update ht))
      · exact memOk.admitHost (memOk.foldl (memOk.update ht) fun hu => hu.containGranule)

theorem memOk.launchWith (h : memOk s) {i h' d a arm} : memOk (launchWith i h' d a arm s) := by
  unfold Machine.launchWith
  refine memOk.issue h fun ht => ?_
  dsimp only
  split
  · trivial
  · refine flowOk.check ?_
    exact ht.whenSound (ht.waitRemote fun hu => memOk.later (memOk.modSheaf (memOk.update hu)))

theorem memOk.execLprio (h : memOk s) {h' a b} : nextOk (execLprio h' a b s) := by
  unfold Machine.execLprio
  refine memOk.issue h fun ht => ?_
  refine memOk.simple ht fun hu => ?_
  dsimp only
  split
  · exact hu
  · exact hu.modLaunch.ite hu

theorem memOk.execLwait (h : memOk s) {h' d a} : nextOk (execLwait h' d a s) := by
  unfold Machine.execLwait
  refine memOk.issue h fun ht => ?_
  refine memOk.simple ht fun hu => ?_
  dsimp only
  split
  · exact hu.writeS
  · exact hu.writeS.ite (hu.writeS.ite hu.modSheaf)

/-! `Machine/System.lean`. -/

theorem memOk.rangeWrite (h : memOk s) {k own ctx f} : memOk (s.rangeWrite k own ctx f) := h.ite (memOk.update h)

theorem memOk.invalidate (h : memOk s) {x m code w1 w3} : flowOk (invalidate x m code w1 w3 s) := by
  unfold Machine.invalidate
  refine memOk.waitRemote h fun ht => ?_
  split
  · exact ht
  · split
    exact (ht.sendCmd.of_snd ‹_›).modSheaf

theorem memOk.loadMicro (h : memOk s) {core m p} : memOk (s.loadMicro core m p) := memOk.update h.modCore

theorem memOk.loadStore (h : memOk s) {i h' a m n cores} : memOk (loadStore i h' a m n cores s) := by
  unfold Machine.loadStore
  refine memOk.issue h fun ht => ?_
  split
  · trivial
  · trivial
  · exact ht.contain
  · exact ht.foldl fun hu => hu.loadMicro

theorem memOk.execEvpost (h : memOk s) {h' a b c} : nextOk (execEvpost h' a b c s) :=
  h.issue fun ht => flowOk.ite (ht.waitRemote fun hu => hu.readTable.postIn.ite hu.readTable)
    (flowOk.ite (ht.waitRemote fun hu => hu.ite hu.later) trivial)

theorem memOk.reserve (h : memOk s) {ctx kind n hold} : memOk (s.reserve ctx kind n hold).2 := by
  unfold State.reserve
  dsimp only
  split
  · exact h
  · split
    · split
      · exact memOk.grantLeave (memOk.queueLeave (memOk.tick (memOk.update h)))
      · exact memOk.queueLeave (memOk.tick (memOk.update h))
    · exact memOk.queueLeave (memOk.tick (memOk.update h))

theorem memOk.execPreq (h : memOk s) {h' d a} : nextOk (execPreq h' d a s) := by
  unfold Machine.execPreq
  refine memOk.issue h fun ht => ?_
  refine memOk.simple ht fun hu => ?_
  dsimp only
  exact hu.reserve.writeS

theorem memOk.execDbgrd (h : memOk s) {h' w d a} : nextOk (execDbgrd h' w d a s) := by
  unfold Machine.execDbgrd
  refine memOk.issue h fun ht => ?_
  dsimp only
  split
  · exact ht.writeS.writeS
  · exact ht.writeS.writeS
  · refine flowOk.check ?_
    split
    · trivial
    · split
      · exact flowOk.ite ht.contain ht.writeS.writeS
      · trivial

theorem memOk.sweepWait (h : memOk s) {i h' slice key} : memOk (sweepWait i h' slice key s) :=
  h.issue fun ht => ht.modSheaf.sweep

/-! `Machine/Orrery.lean`. -/

theorem memOk.execSubmissionWrite (h : memOk s) {ctx off data} : nextOk (execSubmissionWrite ctx off data s) :=
  h.ite (h.post.ite (h.post.ite (memOk.later (memOk.update h))))

theorem memOk.issueGens (h : memOk s) {key n} : genOk (s.issueGens key n) := by
  induction n generalizing s with
  | zero => exact h
  | succ n ih =>
    unfold State.issueGens
    split
    · trivial
    · exact genOk.map (ih (h.issueGen.get ‹_›))

theorem memOk.placeCrew (h : memOk s) {launch span c x spanNum f} :
    allSome (s.placeCrew launch span c x spanNum f) := by
  unfold State.placeCrew
  dsimp only
  split
  · trivial
  · refine memOk.foldl ?_ fun ht => ht.setSheaf.writeS
    refine memOk.modCore ?_
    refine memOk.modSpan ?_
    split
    · exact memOk.dropCtx (memOk.setCrewUnits (memOk.update (h.issueGens.get ‹_›)))
    · exact memOk.setCrewUnits (memOk.update (h.issueGens.get ‹_›))

theorem memOk.placeCrews (h : memOk s) {launch span x spanNum c fs} :
    allSome (s.placeCrews launch span x spanNum c fs) := by
  induction fs generalizing s c with
  | nil => exact h
  | cons f fs ih =>
    unfold State.placeCrews
    split
    · trivial
    · exact ih (h.placeCrew.get ‹_›)

theorem memOk.placeSpan (h : memOk s) {n l f} : allSome (s.placeSpan n l f) := by
  unfold State.placeSpan
  dsimp only
  split
  · trivial
  · next e =>
    have placed := memOk.of_some e (memOk.placeCrews (memOk.update h))
    split
    · exact placed.modLaunch
    · split
      · trivial
      · exact (placed.issueGen.get ‹_›).modSpan.setSpanUnits.modLaunch

theorem memOk.placeFirst (h : memOk s) {l} : memOk (s.placeFirst l) := by
  induction l generalizing s with
  | nil => exact h
  | cons p l ih =>
    obtain ⟨n, id | id⟩ := p
    · unfold State.placeFirst
      split
      · exact ih h
      · refine memOk.ite (ih h.askLeave) ?_
        split
        · exact ih h
        · split
          · exact ih h
          · exact (h.placeSpan.get ‹_›).later
    · unfold State.placeFirst
      split
      · exact ih h
      · exact h.later.ite (ih h)

theorem memOk.execSpanPlacement (h : memOk s) : nextOk (execSpanPlacement s) :=
  h.later.ite (h.ifSound fun ht => ht.placeFirst)

theorem memOk.arriveCbar (h : memOk s) {ctx launch a} : memOk (s.arriveCbar ctx launch a) := by
  unfold State.arriveCbar
  dsimp only
  exact h.ite (h.arrive.ite ((h.arrive.ite h).ite h.openXfer.sendOut))

theorem memOk.retireLaunch (h : memOk s) {n} : memOk (s.retireLaunch n) := by
  unfold State.retireLaunch
  split
  · exact h
  · exact h.endLaunch.ite h

theorem memOk.retireSpan (h : memOk s) {id} : memOk (s.retireSpan id) := by
  unfold State.retireSpan
  dsimp only
  split
  · exact h
  · split
    · exact h.releaseSpan.modSpan
    · exact h.releaseSpan.modSpan.arriveCbar.modLaunch.retireLaunch

theorem memOk.reportEngine (h : memOk s) {c} : memOk (s.reportEngine c) := by
  unfold State.reportEngine
  split
  · exact h.foldl fun ht => ht.post
  · exact h

theorem memOk.execCrewRetire (h : memOk s) {id} : nextOk (execCrewRetire id s) := by
  unfold Machine.execCrewRetire
  split
  · exact h
  · exact h.ite (h.later.ite ((((h.reportEngine.foldl fun ht => ht.discard).releaseCrew).retireSpan).later))

theorem memOk.stopSheaf (h : memOk s) {k} : memOk (s.stopSheaf k) := by
  unfold State.stopSheaf
  dsimp only
  split
  · exact h.wakeWaita.modSheaf.modCore
  · exact h.wakeWaita

theorem memOk.recallFrag (h : memOk s) {k} : memOk (s.recallFrag k) := h.modSheaf.later

theorem memOk.stopAndRecall (h : memOk s) {id} : memOk (s.stopAndRecall id) :=
  (h.foldl fun ht => ht.stopSheaf).foldl fun ht => ht.recallFrag

theorem memOk.preempt (h : memOk s) {id} : memOk (s.preempt id) := h.modSpan.stopAndRecall.later

theorem memOk.execPreemptionWaitExpiry (h : memOk s) {n} : nextOk (execPreemptionWaitExpiry n s) := by
  unfold Machine.execPreemptionWaitExpiry
  refine memOk.ifSound h fun ht => ?_
  split
  · exact ht
  · split
    · exact ht
    · split
      · exact ht.later
      · split
        · exact ht.later
        · exact ((ht.foldl fun hu => hu.preempt).modLaunch).later

theorem memOk.pullFrag (h : memOk s) {k} : memOk (s.pullFrag k) := by
  unfold State.pullFrag
  dsimp only
  split
  · exact h
  · split
    · exact h.flushLoads.releasePlace
    · exact memOk.later (memOk.releasePlace (memOk.update h.flushLoads.freshId))

theorem memOk.execRecallTimeout (h : memOk s) {p} : nextOk (execRecallTimeout p s) := by
  unfold Machine.execRecallTimeout
  dsimp only
  split
  · exact h
  · split
    · exact h
    · exact h.later.ite h.discardAt

theorem memOk.writeSaved (h : memOk s) {ctx v} : memOk (s.writeSaved ctx v) := by
  unfold State.writeSaved
  dsimp only
  refine memOk.foldl (memOk.update h) fun ht => ?_
  refine memOk.foldl ht fun hu => ?_
  split
  · exact hu.ctxWrite.get ‹_›
  · exact hu

theorem memOk.execSpanSave (h : memOk s) {id} : nextOk (execSpanSave id s) := by
  unfold Machine.execSpanSave
  dsimp only
  split
  · exact h
  · split
    · exact (h.foldl fun ht => ht.pullFrag).later
    · split
      · exact (h.foldl fun ht => ht.pullFrag).contain
      · split
        · exact (h.foldl fun ht => ht.pullFrag).discardAt
        · exact (((h.foldl fun ht => ht.pullFrag).writeSaved).releaseSpan).modSpan

theorem memOk.restoreSheaf (h : memOk s) {v k sh} : allSome (s.restoreSheaf v k sh) := by
  unfold State.restoreSheaf
  dsimp only
  split
  · trivial
  · next e =>
    have issued := h.issueGen.get e
    split
    · trivial
    · next e =>
      refine memOk.foldl (memOk.foldl (memOk.foldl (memOk.setSheaf (memOk.of_gen e ?_)) fun ht => ht.writeV)
        fun ht => ht.writeS) fun ht => ht.writeP
      split
      · exact issued
      · split
        · next e => exact (issued.issueGen.get e).modCore
        · trivial

theorem memOk.restoreSheaves (h : memOk s) {v ps} : allSome (s.restoreSheaves v ps) := by
  induction ps generalizing s with
  | nil => exact h
  | cons p ps ih =>
    unfold State.restoreSheaves
    split
    · trivial
    · exact ih (h.restoreSheaf.get ‹_›)

theorem memOk.restoreCrew (h : memOk s) {v id c} : allSome (s.restoreCrew v id c) := by
  unfold State.restoreCrew
  split
  · trivial
  · exact memOk.foldl (memOk.setCrewUnits (memOk.update (h.issueGens.get ‹_›))) fun ht => memOk.update ht

theorem memOk.restoreCrews (h : memOk s) {v cs} : allSome (s.restoreCrews v cs) := by
  induction cs generalizing s with
  | nil => exact h
  | cons c cs ih =>
    unfold State.restoreCrews
    split
    · trivial
    · exact ih (h.restoreCrew.get ‹_›)

theorem memOk.resend (h : memOk s) {c} : memOk (s.resend c) := by
  unfold State.resend
  dsimp only
  exact memOk.later (memOk.update h.freshId)

theorem memOk.reparkSheaf (h : memOk s) {k} : memOk (s.reparkSheaf k) := by
  unfold State.reparkSheaf
  dsimp only
  refine memOk.refill ?_
  split
  · exact (((h.later.ite h).later).ite (h.later.ite h)).later
  · split
    · exact ((((((h.later.ite h).later).ite (h.later.ite h)).modSheaf).xacq).of_fst ‹_›).advance
    · exact (((((h.later.ite h).later).ite (h.later.ite h)).modSheaf).xacq).of_fst ‹_›
  · exact (((h.later.ite h).later).ite (h.later.ite h)).wakeWaiters
  · exact ((h.later.ite h).later).ite (h.later.ite h)

theorem memOk.rearm (h : memOk s) {c} : memOk (s.rearm c) := h.foldl fun ht => ht.slotWrite.ite ht

theorem memOk.restoreSpan (h : memOk s) {id p v} : allSome (s.restoreSpan id p v) := by
  unfold State.restoreSpan
  dsimp only
  split
  · trivial
  · next u e =>
    have sliced : memOk u := memOk.of_some e <| by
      split
      · exact h
      · split
        · trivial
        · next e => exact (h.issueGen.get e).modSpan.setSpanUnits
    split
    · trivial
    · next e =>
      have crews := sliced.restoreCrews.get e
      split
      · trivial
      · next e =>
        have sheaves := crews.restoreSheaves.get e
        refine memOk.foldl (memOk.foldl (memOk.foldl ?_ fun ht => ht.resend) fun ht => ht.reparkSheaf)
          fun ht => ht.later
        exact ((sheaves.foldl fun ht => ht.pkgSetAll).modSpan.foldl fun ht => ht.rearm).foldl fun ht => ht.dropCtx

theorem memOk.execSpanRestore (h : memOk s) {id} : nextOk (execSpanRestore id s) := by
  unfold Machine.execSpanRestore
  dsimp only
  split
  · exact h
  · split
    · exact h.later
    · split
      · exact h.contain
      · split
        · exact h.later
        · exact (h.restoreSpan.get ‹_›).later

/-! `Machine/EvEngines.lean`. -/

theorem memOk.pokeSend (h : memOk s) {core} : memOk (s.pokeSend core) := h.ite h.later

theorem memOk.askTensor (h : memOk s) {core} : memOk (s.askTensor core) := h.foldl fun ht => ht.askLeave

theorem memOk.launchChunk (h : memOk s) {core cmd c} : memOk (s.launchChunk core cmd c) := by
  unfold State.launchChunk
  dsimp only
  split
  · exact memOk.later (memOk.update h.freshId)
  · split
    · split
      · exact h.contain.ite (memOk.later (memOk.update h.freshId))
      · split
        · exact memOk.later (memOk.update h.freshId)
        · exact memOk.sendOut (memOk.openXfer (memOk.update h.freshId))
      · exact memOk.sendOut (memOk.openXfer (memOk.update h.freshId))
    · split
      · exact h.contain
      · split
        · exact memOk.sendOut (memOk.openXfer (memOk.update h.freshId))
        · split
          · exact memOk.later (memOk.update h.freshId)
          · exact memOk.sendOut (memOk.openXfer (memOk.update h.freshId))
        · exact memOk.later (memOk.update h.freshId)

theorem memOk.execChunkSend (h : memOk s) {core} : nextOk (execChunkSend core s) := by
  unfold Machine.execChunkSend
  dsimp only
  have asked := h.askTensor (core := core)
  split
  · exact memOk.ite asked asked.pokeSend
  · exact memOk.ite asked.discardAt
      (memOk.ite asked.modCrew.launchChunk.modCore asked.modCrew.launchChunk.modCore.pokeSend)

theorem memOk.chunkArrive (h : memOk s) {k code} : memOk (s.chunkArrive k code) :=
  h.modCrew.arrive.ite h.modCrew.arriveFault

theorem memOk.chunkDone (h : memOk s) {id k code} : memOk (s.chunkDone id k code) :=
  h.chunkArrive.ite (memOk.ite (memOk.update h) (memOk.foldl (memOk.update (memOk.update h))
    fun ht => ht.chunkArrive))

theorem memOk.chunkWrite (h : memOk s) {k} : memOk (s.chunkWrite k).2 := by
  unfold State.chunkWrite
  dsimp only
  split
  · exact h.keepOld.pkgWrite
  · split
    · exact h.pkgWrite
    · exact h.modWrite
    · exact h
    · exact h

theorem memOk.execChunkArrival (h : memOk s) {id} : nextOk (Machine.execChunkArrival id s) := by
  unfold Machine.execChunkArrival
  split
  · exact h
  · extract_lets live u v w
    have gone : memOk u := memOk.update h
    have done : memOk v := gone.modCrew.ite (gone.chunkDone.ite gone.chunkWrite.chunkDone)
    have ended : memOk w := done.ite done.endLeave
    exact memOk.ite ended ended.pokeSend

theorem memOk.execPermitGrant (h : memOk s) {power} : nextOk (execPermitGrant power s) := by
  unfold Machine.execPermitGrant
  dsimp only
  refine memOk.ifSound (memOk.update h) fun ht => ?_
  split
  · exact ht
  · exact (ht.grantLeave.ite ht).ite (((ht.grantLeave.ite ht).tick).later)

theorem memOk.execModuleRoomReport (h : memOk s) {m} : nextOk (execModuleRoomReport m s) := by
  unfold Machine.execModuleRoomReport
  refine memOk.ifSound h fun ht => ?_
  split
  · exact ht
  · exact ht.later.ite (ht.grantLeave.later.ite ht.grantLeave)

theorem memOk.execReservationExpiry (h : memOk s) {ctx num} : nextOk (execReservationExpiry ctx num s) := by
  unfold Machine.execReservationExpiry
  split
  · exact h
  · exact h.later.ite h.dropReservation

theorem memOk.recheck (h : memOk s) {ws full} : memOk (s.recheck ws full) := by
  induction ws generalizing s full with
  | nil => exact h
  | cons w ws ih =>
    unfold State.recheck
    dsimp only
    split
    · exact ih (memOk.update h)
    · refine ih ?_
      split
      · exact h.queueWrite.ite h
      · exact (h.queueWrite.ite h).freeEntry

theorem memOk.containTable (h : memOk s) {ctx g'} : memOk (s.containTable ctx g') :=
  h.containGranule.ite (h.containGranule.foldl fun ht => ht.discard)

theorem memOk.containTables (h : memOk s) : memOk s.containTables :=
  h.ite (h.foldl fun ht => ht.foldl fun hu => hu.containTable)

theorem memOk.execEventQueueRecheck (h : memOk s) : nextOk (execEventQueueRecheck s) :=
  h.ifSound fun ht => memOk.ite (memOk.recheck (memOk.update ht.containTables))
    (memOk.later (memOk.recheck (memOk.update ht.containTables)))

/-! `Machine/Fabric.lean`. -/

theorem memOk.sendRuns (h : memOk s) {x p runs slot flag} : memOk (s.sendRuns x p runs slot flag) := by
  unfold State.sendRuns
  dsimp only
  refine memOk.foldl h.openXfer fun ht => ?_
  split
  · exact ht.sendOut
  · exact ht.sendOut

theorem memOk.selfRuns (h : memOk s) {x runs slot flag} : memOk (s.selfRuns x runs slot flag) := by
  unfold State.selfRuns
  extract_lets ctx own bad u r
  have contained : memOk u := h.ite h.contain
  have done : memOk r.2.2 := by
    refine memOk.foldl_of (fun r : List Nat × Bool × State => r.2.2) contained fun hb => ?_
    split
    · next e => exact hb.homeWrite.of_snd e
    · next e => exact (hb.homeWrite.of_snd e).noteRefused
  split
  · exact done
  · exact done.foldl fun ht => ht.arrive
  · split
    · exact done
    · split
      · next e => exact done.homeWrite.of_snd e
      · next e => exact (done.homeWrite.of_snd e).noteRefused

theorem memOk.sendCover (h : memOk s) {x sp c slot flag} : memOk (s.sendCover x sp c slot flag) := by
  unfold State.sendCover
  split
  · exact h.sendRuns
  · exact h.selfRuns

theorem memOk.xsend (h : memOk s) {i h' ord d a rb rc flagged} : memOk (xsend i h' ord d a rb rc flagged s) := by
  unfold Machine.xsend
  refine memOk.issue h fun ht => ?_
  refine flowOk.ite trivial (flowOk.ite trivial (flowOk.ite trivial (flowOk.ite trivial (flowOk.ite trivial
    (flowOk.guard (flowOk.guard (flowOk.guard (flowOk.ite trivial (flowOk.ite ht.contain
      (ht.waitRemote fun hu => ?_))))))))))
  exact memOk.foldl hu fun hv => hv.sendCover

theorem memOk.execXget (h : memOk s) {h' ty ord scp d a b} : nextOk (execXget h' ty ord scp d a b s) := by
  unfold Machine.execXget
  refine memOk.issue h fun ht => ?_
  split
  · trivial
  · exact ht.waitRemote fun hu => (hu.acquireL1.ite hu).loadLanes

theorem memOk.execXatom (h : memOk s) {h' ty op ord scp d a b c} :
    nextOk (Machine.execXatom h' ty op ord scp d a b c s) := by
  unfold Machine.execXatom
  refine memOk.issue h fun ht => ?_
  split
  · trivial
  · refine memOk.waitRemote ht fun {v} hu => ?_
    extract_lets u
    have hw : memOk u := hu.acquireL1.ite hu
    exact flowOk.ok hw.atomLanes

theorem memOk.mcastStatus (h : memOk s) {k status neg crew slot} : memOk (s.mcastStatus k status neg crew slot) := by
  unfold State.mcastStatus
  dsimp only
  split
  · refine memOk.arrive ?_
    split
    · exact h.blockWrite.get ‹_›
    · exact h
  · split
    · exact h.blockWrite.get ‹_›
    · exact h

theorem memOk.execXmcast (h : memOk s) {h' ord scp d a b group len slot bv} :
    nextOk (Machine.execXmcast h' ord scp d a b group len slot bv s) := by
  unfold Machine.execXmcast
  refine memOk.issue h fun ht => ?_
  extract_lets n ctx va low st own ms cr bad strong sl kids
  clear_value ms kids
  refine flowOk.check (flowOk.check (flowOk.check (flowOk.check ?_)))
  split
  · trivial
  split
  · trivial
  refine flowOk.check ?_
  split
  · trivial
  split
  · exact flowOk.ok ht.contain
  refine ht.waitRemote fun {u} hu => ?_
  split
  · exact flowOk.ok hu.mcastStatus
  split
  next xid v e =>
    have hv : memOk v := hu.openXfer.of_snd e
    exact flowOk.ok (memOk.modSheaf (hv.foldl fun hw => hw.sendOut))

theorem memOk.execXfence (h : memOk s) {h' scp} : nextOk (execXfence h' scp s) := by
  unfold Machine.execXfence
  refine memOk.issue h fun ht => ?_
  dsimp only
  split
  · exact ht.modSheaf
  · split
    · exact ht.modSheaf.publish.acquireL1.ite ht.modSheaf.publish
    · exact ((ht.modSheaf.publish.acquireL1.ite ht.modSheaf.publish).modSheaf).takeTrap

theorem memOk.execXred (h : memOk s) {h' ty srnd ord scp d a b c} :
    nextOk (execXred h' ty srnd ord scp d a b c s) := by
  unfold Machine.execXred
  refine memOk.issue h fun ht => ?_
  dsimp only
  refine flowOk.check (.check (.check (.check ?_)))
  split
  · trivial
  · split
    · trivial
    · split
      · trivial
      · split
        · trivial
        · split
          · trivial
          · split
            · exact ht.contain
            · exact ht.waitRemote fun hu => hu.freshen.freshen.learn.coreWrite.modSheaf.sendCover

theorem memOk.execXresid (h : memOk s) {h' op} : nextOk (execXresid h' op s) := by
  unfold Machine.execXresid
  dsimp only
  refine memOk.issue h fun ht => ?_
  refine flowOk.check (.check (.check ?_))
  split
  · trivial
  · refine memOk.waitRemote ht fun hu => ?_
    split
    · exact hu.coreWrite
    · split
      · trivial
      · exact flowOk.ite hu.contain hu.freshen.coreWrite
    · exact flowOk.ite hu.contain hu.freshen.writeS.tick

theorem memOk.execXgrpSet (h : memOk s) {h' g' a} : nextOk (execXgrpSet h' g' a s) := by
  unfold Machine.execXgrpSet
  refine memOk.issue h fun ht => ?_
  split
  · trivial
  · exact memOk.update ht

theorem memOk.execXgrpGet (h : memOk s) {h' g' a} : nextOk (execXgrpGet h' g' a s) := by
  unfold Machine.execXgrpGet
  refine memOk.issue h fun ht => ?_
  split
  · trivial
  · exact ht.blockWrite.get ‹_›

/-! `Machine/Link.lean`. -/

theorem memOk.laterOnce (h : memOk s) {e} : memOk (s.laterOnce e) := h.ite h.later

theorem memOk.noteFrames (h : memOk s) {fb n} : memOk (s.noteFrames fb n) := by
  unfold State.noteFrames
  dsimp only
  split
  · exact h.modPlane.laterOnce
  · exact h.modLr.laterOnce.ite h.modLr
  · exact h

theorem memOk.lrSent (h : memOk s) {l o} : memOk (s.lrSent l o) := h.modLr.ite h.modLr.modLr.laterOnce.laterOnce

theorem memOk.mcastSent (h : memOk s) {o} : memOk (s.mcastSent o) :=
  h.ite (memOk.ite (memOk.laterOnce (memOk.update h)) (memOk.laterOnce (memOk.update h)))

theorem memOk.mayEscalate (h : memOk s) {fb g'} : memOk (s.mayEscalate fb g') := h.laterOnce.ite h

theorem memOk.countReplay (h : memOk s) {fb n} : memOk (s.countReplay fb n) :=
  h.tick.modGrp.modLink.pokeFrames.mayEscalate

theorem memOk.emit (h : memOk s) {fb o hops} : memOk (s.emit fb o hops) := by
  unfold State.emit
  dsimp only
  refine memOk.mcastSent ?_
  split
  · refine memOk.countReplay ?_
    split
    · exact h.modLink.laterOnce.noteFrames.lrSent
    · exact h.modLink.laterOnce.noteFrames
  · split
    · exact h.modLink.laterOnce.noteFrames.lrSent
    · exact h.modLink.laterOnce.noteFrames

theorem memOk.noteRelay (h : memOk s) {o} : memOk (s.noteRelay o) := h.ite (memOk.laterOnce (memOk.update h))

theorem memOk.ackLink (h : memOk s) {fb ack} : memOk (s.ackLink fb ack) := by
  unfold State.ackLink
  dsimp only
  split
  · exact h
  · split
    · exact h.modLink.modPlane.foldl fun ht => ht.noteRelay
    · exact h.modLink.modLr
    · exact h.modLink

theorem memOk.hear (h : memOk s) {fb} : memOk (s.hear fb) := h.ite (memOk.update h)

theorem memOk.control (h : memOk s) {fb f} : memOk (s.control fb f) := h.modLink.pokeFrames

theorem memOk.discardFrame (h : memOk s) {fb} : memOk (s.discardFrame fb) := h.ite h.modLink.control

theorem memOk.badFrame (h : memOk s) {fb} : memOk (s.badFrame fb) := h.tick.modGrp.discardFrame

theorem memOk.lrReceived (h : memOk s) {fb} : memOk (s.lrReceived fb) := h.ite (h.modLr.laterOnce.ite h.modLr)

theorem memOk.relayIn (h : memOk s) {fb f} : memOk (s.relayIn fb f) := by
  unfold State.relayIn
  split
  · exact h
  · split
    exact memOk.later (memOk.update ((h.freshId.of_snd ‹_›).tick))

theorem memOk.receive {fb f ty act} (h : memOk s) (hact : ∀ {u}, memOk u → memOk (act u)) :
    memOk (s.receive fb f ty act) :=
  h.ite (h.ite (h.hear.badFrame.ite (((h.hear.lrReceived.modLink.ackLink.relayIn.ite
    (hact h.hear.lrReceived.modLink.ackLink)).pokeFrames).ite
    (h.hear.lrReceived.control.ite h.hear.lrReceived.discardFrame))))

theorem memOk.resendFrames (h : memOk s) {fb} : memOk (s.resendFrames fb) :=
  h.ite h.modLink.noteFrames.countReplay.laterOnce

theorem memOk.linkRecord (h : memOk s) {type sub fb wl value aux} : memOk (s.linkRecord type sub fb wl value aux) :=
  h.postAll

theorem memOk.tryLink (h : memOk s) {l} : memOk (s.tryLink l) := h.ite h.tick.later

theorem memOk.loseLink (h : memOk s) {l} : memOk (s.loseLink l) := by
  unfold State.loseLink
  dsimp only
  split
  · exact h
  · refine memOk.laterOnce ?_
    refine memOk.tryLink ?_
    split
    · exact h.modLr
    · exact h.modLr.linkRecord

theorem memOk.requeue (h : memOk s) {fb out} : memOk (s.requeue fb out) :=
  h.ite (memOk.pokeFrames (memOk.update h.modLink))

theorem memOk.requeuePlane (h : memOk s) {p} : memOk (s.requeuePlane p) := by
  unfold State.requeuePlane
  split
  · exact h
  · exact h.requeue

theorem memOk.failPlane (h : memOk s) {p offset} : memOk (s.failPlane p offset) := by
  unfold State.failPlane
  split
  · exact h
  · exact h.ite h.modPlane.linkRecord.requeuePlane

theorem memOk.checkReach (h : memOk s) {m} : memOk (s.checkReach m) := h.laterOnce.ite (h.laterOnce.ite h)

theorem memOk.afterOut (h : memOk s) {fb g'} : memOk (s.afterOut fb g') := by
  unfold State.afterOut
  dsimp only
  split
  · split
    · exact h.checkReach
    · exact h
  · exact h.failPlane.ite h
  · exact h.loseLink.ite h
  · exact h

theorem memOk.replayOver (h : memOk s) {fb g'} : memOk (s.replayOver fb g') := h.ite h.requeue.resendFrames

theorem memOk.groupOut (h : memOk s) {fb g' forGood} : memOk (s.groupOut fb g' forGood) :=
  h.modGrp.ite h.modGrp.replayOver.afterOut

theorem memOk.groupIn (h : memOk s) {fb g'} : memOk (s.groupIn fb g') := by
  unfold State.groupIn
  dsimp only
  split
  · split
    · exact h.modGrp.pokeFrames.checkReach
    · exact h.modGrp.pokeFrames
  · exact h.modGrp.pokeFrames

/-! `Machine/EvFabric.lean`. -/

theorem memOk.sendIdle (h : memOk s) {fb ack} : memOk (s.sendIdle fb ack) := h.modLink.noteFrames

theorem memOk.sendOne (h : memOk s) {fb credit} : memOk (s.sendOne fb credit) := by
  unfold State.sendOne
  dsimp only
  split
  · exact memOk.sendIdle (memOk.modLink (memOk.ite (memOk.update h) h))
  · exact memOk.emit (memOk.update (memOk.ite (memOk.update h) h))
  · exact memOk.ite (memOk.sendIdle (memOk.ite (memOk.update h) h)) (memOk.ite (memOk.update h) h)

theorem memOk.execFrameSend (h : memOk s) {fibre} : nextOk (execFrameSend fibre s) :=
  h.tick.sendOne.later.ite h.tick.sendOne

theorem memOk.execReplayTimeout (h : memOk s) {fibre} : nextOk (execReplayTimeout fibre s) :=
  h.ite (h.later.ite h.resendFrames)

theorem memOk.execFrameCorrupt (h : memOk s) {fibre} : nextOk (execFrameCorrupt fibre s) := by
  unfold Machine.execFrameCorrupt
  extract_lets u l v y w
  have heard : memOk u := h.hear.tick
  have noted : memOk v := heard.modLr.discardFrame
  have told : memOk w := noted.linkRecord.modLr.ite noted
  exact h.ite ((told.modLr.tryLink.ite told).ite heard.badFrame)

theorem memOk.answer (h : memOk s) {fb f type payload daddr} : memOk (s.answer fb f type payload daddr) := h.sendOut

theorem memOk.ackFrame (h : memOk s) {fb f code} : memOk (s.ackFrame fb f code) := h.answer

theorem memOk.countFlag (h : memOk s) {src f ok} : memOk (s.countFlag src f ok).2 := by
  unfold State.countFlag
  dsimp only
  generalize (Option.getD _ _ : FlagRx).count f ok = r
  split
  · split
    · exact memOk.update h
    · split
      · next e => exact memOk.of_snd (memOk.homeWrite (memOk.update h)) e
      · next e => exact memOk.of_snd (memOk.homeWrite (memOk.update h)) e
  · exact memOk.update h

theorem memOk.refuseBad (h : memOk s) {fb f bad} : memOk (s.refuseBad fb f bad) :=
  (h.foldl fun ht => ht.containGranule).sendOut

theorem memOk.performWrite (h : memOk s) {fb f} : memOk (s.performWrite fb f) := by
  unfold State.performWrite
  dsimp only
  split
  · exact h.arrive.ackFrame.ite h.ackFrame
  · split
    · split
      · exact h.homeWrite.arrive.countFlag.ackFrame.ite h.homeWrite.arrive.countFlag.refuseBad
      · exact h.homeWrite.countFlag.ackFrame.ite h.homeWrite.countFlag.refuseBad
    · split
      · exact h.homeWrite.arrive.ackFrame.ite h.homeWrite.arrive.refuseBad
      · exact h.homeWrite.ackFrame.ite h.homeWrite.refuseBad

theorem memOk.execFrameWrite (h : memOk s) {fibre f} : nextOk (execFrameWrite fibre f s) :=
  h.receive fun ht => ht.performWrite.ite (ht.ackFrame.ite (ht.performWrite.modLr.later.ite ht.performWrite))

theorem memOk.execFrameReadRequest (h : memOk s) {fibre f} : nextOk (execFrameReadRequest fibre f s) :=
  h.receive fun ht => ht.ackFrame.ite (ht.refuseBad.ite ht.answer)

theorem memOk.performAtomic (h : memOk s) {fb f bs} : memOk (s.performAtomic fb f bs) :=
  h.ackFrame.ite (h.refuseBad.ite h.pkgWrite.answer)

theorem memOk.execFrameAtomicRequest (h : memOk s) {fibre f} : nextOk (execFrameAtomicRequest fibre f s) := by
  refine memOk.receive h fun hu => memOk.ite hu.performAtomic ?_
  split
  · exact memOk.update hu
  · exact memOk.performAtomic (memOk.update hu)

theorem memOk.settleLoad (h : memOk s) {k id} : memOk (s.settleLoad k id) := by
  unfold State.settleLoad
  split
  · exact h
  · split
    · exact h
    · refine memOk.foldl h fun ht => ?_
      split
      · exact ht.later.ite ht
      · exact ht

theorem memOk.loadValueIn (h : memOk s) {k id lane v} : memOk (s.loadValueIn k id lane v) := by
  unfold State.loadValueIn
  split
  · exact h
  · exact memOk.settleLoad (memOk.ite (memOk.acquireL1 (memOk.update h.modSheaf)) (memOk.update h.modSheaf))

theorem memOk.loadFaultIn (h : memOk s) {k id lane code addr} : memOk (s.loadFaultIn k id lane code addr) := by
  unfold State.loadFaultIn
  split
  · exact h
  · exact h.modSheaf.settleLoad

theorem memOk.closeXfer (h : memOk s) {xid} : memOk (s.closeXfer xid) := memOk.update h

theorem memOk.execFrameReadResponse (h : memOk s) {fibre f} : nextOk (execFrameReadResponse fibre f s) := by
  refine memOk.receive h fun hu => ?_
  dsimp only
  split
  · exact hu
  · split
    · exact hu.closeXfer.loadValueIn
    · exact memOk.later (memOk.update hu.closeXfer)
    · exact hu

theorem memOk.execFrameAtomicResponse (h : memOk s) {fibre f} : nextOk (execFrameAtomicResponse fibre f s) := by
  refine memOk.receive h fun hu => ?_
  dsimp only
  split
  · exact hu
  · split
    · exact hu.closeXfer.foldl fun hv => hv.loadValueIn
    · exact hu

theorem memOk.mcastEnd (h : memOk s) {xid k status neg crew slot} :
    memOk (s.mcastEnd xid k status neg crew slot) := by
  unfold State.mcastEnd
  dsimp only
  split
  · exact h.closeXfer.mcastStatus.modSheaf.advance.ite h.closeXfer
  · exact h.closeXfer

theorem memOk.mcastChild (h : memOk s) {xid child neg} : memOk (s.mcastChild xid child neg) := by
  unfold State.mcastChild
  split
  · exact h
  · split
    · exact h.ite (h.mcastEnd.ite (memOk.update h))
    · exact h

theorem memOk.mcastAck (h : memOk s) {f neg} : memOk (s.mcastAck f neg) := h.sendOut

theorem memOk.fwdChild (h : memOk s) {key child neg} : memOk (s.fwdChild key child neg) := by
  unfold State.fwdChild
  split
  · exact h
  · exact h.ite (memOk.ite (memOk.mcastAck (memOk.update h)) (memOk.update h))

theorem memOk.mcastIn (h : memOk s) {f} : memOk (s.mcastIn f) := by
  unfold State.mcastIn
  exact h.homeWrite.mcastAck.ite (memOk.foldl (memOk.update h.homeWrite) fun ht => ht.sendOut)

theorem memOk.execFrameMulticast (h : memOk s) {fibre f} : nextOk (execFrameMulticast fibre f s) :=
  h.receive fun ht => ht.mcastIn

theorem memOk.execMulticastMemberTimeout (h : memOk s) {xid child} :
    nextOk (execMulticastMemberTimeout xid child s) := by
  unfold Machine.execMulticastMemberTimeout
  split
  · split
    · exact h
    · exact h.ite (h.later.ite h.mcastChild)
  · split
    · exact h
    · exact h.ite (h.later.ite h.fwdChild)

theorem memOk.lrAcked (h : memOk s) {l f} : memOk (s.lrAcked l f).2 := by
  unfold State.lrAcked
  exact h.modLr

theorem memOk.ackXfer (h : memOk s) {f n} : memOk (s.ackXfer f n) := by
  unfold State.ackXfer
  dsimp only
  have counted {u : State} {xid : Nat} {c : Prop} [Decidable c] {xs : Tab Xfer} (hu : memOk u) :
      memOk (if c then u.closeXfer xid else { u with xfers := xs }) := hu.closeXfer.ite (memOk.update hu)
  split
  · exact h
  · refine memOk.ite h.closeXfer.discardAt ?_
    split
    · exact h.closeXfer.loadFaultIn
    · exact h.closeXfer.foldl fun ht => ht.loadFaultIn
    · exact memOk.later (memOk.update h.closeXfer)
    · exact h.mcastChild
    · exact h
    all_goals
      refine counted ?_
      split
      · exact memOk.ite h h.noteRefused
      · exact memOk.ite h h.noteRefused
      · exact h

theorem memOk.execFrameEndToEndAck (h : memOk s) {fibre f} : nextOk (execFrameEndToEndAck fibre f s) := by
  unfold Machine.execFrameEndToEndAck
  refine memOk.receive h fun ht => ?_
  dsimp only
  split
  · split
    · exact ht.lrAcked
    · split
      · exact ht.lrAcked.ite ht.lrAcked.ackXfer
      · exact ht.lrAcked.ite ht.lrAcked.ackXfer
      · exact ht.lrAcked
      · exact ht.lrAcked.ackXfer
  · exact ht.fwdChild.ite ht.ackXfer

theorem memOk.receiveIdle {fb f act} (h : memOk s) (hact : ∀ {u}, memOk u → memOk (act u)) :
    memOk (s.receiveIdle fb f act) :=
  h.ite (h.hear.badFrame.ite (hact h.hear.lrReceived.ackLink))

theorem memOk.replayReport (h : memOk s) {fb n} : memOk (s.replayReport fb n) :=
  h.tick.modGrp.modLink.mayEscalate.ite (memOk.linkRecord (memOk.update h.tick.modGrp.modLink.mayEscalate))

theorem memOk.idleIn (h : memOk s) {fb f} : memOk (s.idleIn fb f) :=
  ((h.resendFrames.ite h).replayReport).ite (h.resendFrames.ite h)

theorem memOk.execFrameIdle (h : memOk s) {fibre f} : nextOk (execFrameIdle fibre f s) :=
  h.receiveIdle fun ht => ht.idleIn

theorem memOk.execReplayRequest (h : memOk s) {fibre f} : nextOk (execReplayRequest fibre f s) :=
  h.receiveIdle fun ht => ht.idleIn

theorem memOk.execRelayForward (h : memOk s) {id} : nextOk (execRelayForward id s) := by
  unfold Machine.execRelayForward
  split
  · exact h
  · dsimp only
    split
    · exact memOk.update h
    · split
      · exact h.tick.later
      · exact memOk.emit (memOk.update h.tick)

theorem memOk.execRelayLossTimeout (h : memOk s) {peer} : nextOk (execRelayLossTimeout peer s) :=
  (((h.foldl fun ht => ht.closeXfer).foldl fun ht => ht.discardAt).laterOnce).ite
    ((h.foldl fun ht => ht.closeXfer).foldl fun ht => ht.discardAt)

theorem memOk.modCopy (h : memOk s) {m d a n} : memOk (s.modCopy m d a n).2 := by
  unfold State.modCopy
  split
  · exact h
  · exact h.modWrite

theorem memOk.refillPage (h : memOk s) {m page w} : memOk (s.refillPage m page w).2 := by
  unfold State.refillPage
  split
  dsimp only
  split
  · exact h.copyPage.of_snd ‹_›
  · exact ((h.copyPage.of_snd ‹_›).setLeaf).modMod

theorem memOk.fillParts (h : memOk s) {m d w ps} : memOk (s.fillParts m d w ps).2 := by
  induction ps generalizing s with
  | nil => exact h
  | cons p ps ih =>
    unfold State.fillParts
    extract_lets page r
    have filled : memOk r.2 := by
      unfold r
      split
      · exact h.refillPage
      · exact h.modWrite
    split
    · exact filled
    · exact ih filled

theorem memOk.modFill (h : memOk s) {m d n w} : memOk (s.modFill m d n w).2 := by
  unfold State.modFill
  dsimp only
  split
  · exact h
  · exact h.fillParts

theorem memOk.modReduce (h : memOk s) {m d a n ty op} : memOk (s.modReduce m d a n ty op).2 := by
  unfold State.modReduce
  dsimp only
  split
  · exact h
  · split
    · exact h.modWrite
    · exact h
    · exact h

theorem memOk.openVersion (h : memOk s) {m off n} : memOk (s.openVersion m off n).2 := by
  unfold State.openVersion
  dsimp only
  split
  · exact memOk.update h
  · split
    · exact memOk.update h
    · split
      · exact memOk.update h
      · exact memOk.modMod (memOk.update h)

theorem memOk.closeVersion (h : memOk s) {m off} : memOk (s.closeVersion m off) := h.modMod

theorem memOk.runCmd (h : memOk s) {c} : memOk (s.runCmd c).2.2 := by
  unfold State.runCmd
  dsimp only
  split
  · exact h.modCopy
  · exact h.modFill
  · exact h.modReduce
  · exact h.openVersion
  · exact h.closeVersion
  · exact h.reread
  · exact h.reread
  · exact h

theorem memOk.cmdDone (h : memOk s) {xid c code result} : memOk (s.cmdDone xid c code result) := by
  unfold State.cmdDone
  split
  · exact h.modCrew.ite (h.modCrew.arrive.ite h.modCrew.arriveFault)
  · split
    · dsimp only
      split
      · refine memOk.advance ?_
        refine memOk.modSheaf ?_
        split
        · exact h.writeS
        · exact h
      · exact h
    · exact h

theorem memOk.execFrameModuleCompletion (h : memOk s) {fibre f} : nextOk (execFrameModuleCompletion fibre f s) := by
  refine memOk.ite (memOk.ite h.hear.badFrame h) (memOk.ite h (memOk.receive h fun hu => ?_))
  dsimp only
  split
  · exact hu.closeXfer
  · exact memOk.cmdDone (memOk.runCmd (memOk.update hu.closeXfer))

/-! `Machine/EvHeliostat.lean`. -/

theorem memOk.dropCont (h : memOk s) {id} : memOk (s.dropCont id) := memOk.update h

theorem memOk.vacate (h : memOk s) {c} : memOk (s.vacate c) := by
  unfold State.vacate
  split
  · exact h.freeVisitor
  · exact h

theorem memOk.refuseDeparture (h : memOk s) {id c rsn} : memOk (s.refuseDeparture id c rsn) :=
  h.dropCont.applyReturn.ite (memOk.later (memOk.update h))

theorem memOk.execContinuationDepart (h : memOk s) {id} : nextOk (execContinuationDepart id s) := by
  unfold Machine.execContinuationDepart
  split
  · exact h
  · dsimp only
    split
    · exact h.dropCont
    · exact h.later.ite (h.discardAt.ite (memOk.vacate (h.refuseDeparture.ite (memOk.later (memOk.update h)))))

theorem memOk.refuseCont (h : memOk s) {id c rsn} : memOk (s.refuseCont id c rsn) := by
  unfold State.refuseCont
  refine memOk.foldl h.dropCont fun ht => ?_
  split
  exact memOk.later (memOk.update (ht.freshId.of_snd ‹_›))

theorem memOk.landRegs (h : memOk s) {k c} : memOk (s.landRegs k c) := by
  unfold State.landRegs
  split
  · exact ((h.foldl fun ht => ht.writeV).foldl fun ht => ht.writeS).foldl fun ht => ht.writeP
  · exact ((h.foldl fun ht => ht.writeV).foldl fun ht => ht.writeS).foldl fun ht => ht.writeP

theorem memOk.land (h : memOk s) {id c b} : allSome (s.land id c b) := by
  unfold State.land
  split
  · trivial
  · next e =>
    extract_lets k u v sh sh' w y
    have dropped : memOk u := (h.issueGen.get e).dropCont
    have placed : memOk v := by
      unfold v
      split
      · exact dropped
      · exact dropped.modCore
    have landed : memOk y := placed.setSheaf.landRegs.ite placed.setSheaf.landRegs.dropCtx
    exact memOk.ite landed.recallFrag landed

theorem memOk.execContinuationArrival (h : memOk s) {id} : nextOk (execContinuationArrival id s) := by
  unfold Machine.execContinuationArrival
  split
  · exact h
  · split
    · exact h.dropCont
    · split
      · exact h.tick.refuseCont
      · split
        · exact h.land.get ‹_›
        · exact h.later

theorem memOk.execMigrationReturn (h : memOk s) {id} : nextOk (execMigrationReturn id s) := by
  unfold Machine.execMigrationReturn
  split
  · exact h
  · exact h.dropCont.ite (h.later.ite h.dropCont.applyReturn.vacate)

/-! `Machine/EvOptics.lean`. -/

theorem memOk.execWavelengthWindowEnd (h : memOk s) {fibre wl corrected} :
    nextOk (execWavelengthWindowEnd fibre wl corrected s) :=
  h.ite ((h.modGrp.modWave.linkRecord.ite h.modGrp).ite (h.modGrp.modWave.ite h.modGrp.modWave))

theorem memOk.execUncorrectableCodeword (h : memOk s) {fibre group} :
    nextOk (execUncorrectableCodeword fibre group s) := by
  unfold Machine.execUncorrectableCodeword
  dsimp only
  split
  · exact h
  · split
    · exact h.tick
    · exact h.tick.modLink.modGrp.foldl fun ht => ht.laterOnce

theorem memOk.execLossOfLock (h : memOk s) {fibre wl} : nextOk (execLossOfLock fibre wl s) :=
  h.ite (h.modWave.later.laterOnce.ite h.modWave.later)

theorem memOk.slotSoon (h : memOk s) {f g'} : memOk (s.slotSoon f g') := h.laterOnce.ite h.tick.later

theorem memOk.execErasureDeclare (h : memOk s) {fibre wl} : nextOk (execErasureDeclare fibre wl s) :=
  h.ite (h.modWave.modGrp.linkRecord.slotSoon.groupOut.ite h.modWave.modGrp.linkRecord.slotSoon)

theorem memOk.spare (h : memOk s) {f g' old} : memOk (s.spare f g' old) := by
  unfold State.spare
  split
  · exact h
  · exact h.modWave.modWave.linkRecord

theorem memOk.spareFails (h : memOk s) {f g'} : memOk (s.spareFails f g') := by
  unfold State.spareFails
  split
  · exact h
  · exact h.modWave.linkRecord

theorem memOk.spareAndRetire (h : memOk s) {f g' lit} : memOk (s.spareAndRetire f g' lit).2 := by
  unfold State.spareAndRetire
  split
  · dsimp only
    split
    · exact h.spareFails
    · exact h.spare.groupIn.ite h.spare
  · split
    · exact h
    · split
      · exact h.spareFails
      · exact h.modWave.linkRecord.spare
  · exact h

theorem memOk.execRetrainSlot (h : memOk s) {fibre group lit} : nextOk (execRetrainSlot fibre group lit s) := by
  unfold Machine.execRetrainSlot
  refine memOk.ite h (memOk.ite h.laterOnce (memOk.ite h.later ?_))
  split
  next did u e =>
    have spared : memOk u := h.spareAndRetire.of_snd e
    extract_lets want turn v w
    have turned : memOk w := spared.modGrp.linkRecord.ite spared.modGrp
    refine memOk.ite ?_ turned
    split
    · exact turned.checkReach
    · exact turned

theorem memOk.execLinkEscalation (h : memOk s) {fibre group} : nextOk (execLinkEscalation fibre group s) :=
  h.ite h.laterOnce

theorem memOk.execForcedRetrain (h : memOk s) {fibre group} : nextOk (execForcedRetrain fibre group s) :=
  h.ite h.modGrp.tick.later

theorem memOk.execForcedRetrainEnd (h : memOk s) {fibre group ok} : nextOk (execForcedRetrainEnd fibre group ok s) :=
  h.ite ((((h.modGrp.linkRecord.foldl fun ht => ht.modWave.ite ht).resendFrames).pokeFrames).ite
    (h.modGrp.linkRecord.groupOut.ite h.modGrp.linkRecord.later))

theorem memOk.execLaserAgeingThreshold (h : memOk s) {fibre wl rise} :
    nextOk (Machine.execLaserAgeingThreshold fibre wl rise s) := by
  unfold Machine.execLaserAgeingThreshold
  extract_lets w threshold u v
  have aged : memOk v := h.modWave.slotSoon.ite h.modWave
  exact h.ite (h.later.ite (aged.modWave.linkRecord.ite (aged.modWave.ite aged)))

theorem memOk.execTheodoliteWatchdogReset (h : memOk s) {engine} : nextOk (execTheodoliteWatchdogReset engine s) :=
  h.ite ((h.modTheo.linkRecord.foldl fun ht => ht.groupOut).ite h.modTheo.linkRecord)

theorem memOk.execTheodoliteRecovered (h : memOk s) {engine} : nextOk (execTheodoliteRecovered engine s) :=
  h.ite ((h.modTheo.linkRecord.foldl fun ht => ht.modGrp.laterOnce).ite h.modTheo.linkRecord)

theorem memOk.guardRetrains (h : memOk s) {f} : memOk (s.guardRetrains f) := by
  unfold State.guardRetrains
  refine memOk.foldl h fun ht => ?_
  dsimp only
  split
  · exact ht.tick
  · split
    · exact ht.tick.spareAndRetire.of_snd ‹_›
    · exact ((ht.tick.spareAndRetire.of_snd ‹_›).modGrp).linkRecord

theorem memOk.windowEnds (h : memOk s) {p f} : memOk (s.windowEnds p f) := h.ite h.modPlane.requeuePlane

theorem memOk.execRotorSlotBoundary (h : memOk s) {plane} : nextOk (execRotorSlotBoundary plane s) := by
  unfold Machine.execRotorSlotBoundary
  split
  · exact h
  extract_lets waiting u v port w y
  have ended : memOk v := (h.ite h.windowEnds).tick
  have drawn : memOk w := memOk.ite (memOk.tick (memOk.update ended)) ended
  have slotted : memOk y := drawn.guardRetrains.ite drawn
  exact slotted.laterOnce.ite slotted

theorem memOk.execGuardBeacon (h : memOk s) {plane cycle slot domain} :
    nextOk (execGuardBeacon plane cycle slot domain s) := by
  unfold Machine.execGuardBeacon
  split
  · exact h
  · dsimp only
    split
    · split
      · exact memOk.ite (memOk.update (memOk.modPlane (memOk.update h))) (memOk.modPlane (memOk.update h))
      · exact memOk.ite (memOk.update (memOk.update h)) (memOk.update h)
    · exact memOk.ite (memOk.ite (memOk.update h.modPlane) h.modPlane) (memOk.ite (memOk.update h) h)

theorem memOk.execRotorPlaneFailure (h : memOk s) {plane offset} : nextOk (execRotorPlaneFailure plane offset s) := by
  unfold Machine.execRotorPlaneFailure
  split
  · exact h
  · exact h.failPlane.ite h

theorem memOk.execRotorPlaneRestore (h : memOk s) {plane offset} : nextOk (execRotorPlaneRestore plane offset s) := by
  unfold Machine.execRotorPlaneRestore
  split
  · exact h
  · exact h.ite (h.laterOnce.ite h.modPlane.linkRecord.pokeFrames)

theorem memOk.execLrRetryTimeout (h : memOk s) {link} : nextOk (execLrRetryTimeout link s) := by
  unfold Machine.execLrRetryTimeout
  split
  · exact h
  · dsimp only
    split
    · exact h
    · split
      · exact h.later
      · split
        · exact h.loseLink
        · split
          · split
            · exact memOk.later (memOk.modLr (memOk.linkRecord (memOk.pokeFrames (memOk.update h.modLr))))
            · exact memOk.later (memOk.pokeFrames (memOk.update h.modLr))
          · split
            · exact memOk.later (memOk.modLr (memOk.linkRecord (memOk.pokeFrames (memOk.update h.modLr))))
            · exact memOk.later (memOk.pokeFrames (memOk.update h.modLr))

theorem memOk.execLrAckTimeout (h : memOk s) {link} : nextOk (execLrAckTimeout link s) := by
  unfold Machine.execLrAckTimeout
  split
  · exact h
  · exact h.ite (h.later.ite h.loseLink)

theorem memOk.execLrTrainingAttempt (h : memOk s) {link ok} : nextOk (execLrTrainingAttempt link ok s) := by
  unfold Machine.execLrTrainingAttempt
  split
  · exact h
  · exact h.ite (h.later.ite (h.tick.tick.tick.later.ite (((h.tick.linkRecord.ite h.tick).modLr).later)))

theorem memOk.execLrLinkTrained (h : memOk s) {link keyHash rtt} : nextOk (execLrLinkTrained link keyHash rtt s) := by
  unfold Machine.execLrLinkTrained
  split
  · exact h
  · exact h.ite (h.tick.modLr.linkRecord.later.ite (memOk.pokeFrames (memOk.update h.modLr.modLr)))

theorem memOk.execLrLossDiscard (h : memOk s) {link} : nextOk (execLrLossDiscard link s) := by
  unfold Machine.execLrLossDiscard
  dsimp only
  split
  · exact h
  · split
    · exact h.later
    · refine memOk.foldl ?_ fun ht => ht.discardAt
      refine memOk.foldl ?_ fun ht => ht.closeXfer
      split
      · exact memOk.update h.modLr
      · exact memOk.modLink (memOk.update h.modLr)

theorem memOk.execLrRekey (h : memOk s) {link out} : nextOk (execLrRekey link out s) := h.modLr

theorem memOk.execLrDedupExpiry (h : memOk s) {link xid daddr} : nextOk (execLrDedupExpiry link xid daddr s) := by
  unfold Machine.execLrDedupExpiry
  dsimp only
  split
  · exact h
  · exact h.later.ite h.modLr

/-! `Machine/EvModule.lean`. -/

theorem memOk.moduleRecord (h : memOk s) {m sub value} : memOk (s.moduleRecord m sub value) := h.postAll

theorem memOk.loseFrags (h : memOk s) {places} : memOk (s.loseFrags places) := by
  unfold State.loseFrags
  refine memOk.foldl h fun ht => ?_
  split
  · exact ht.discardAt
  · exact ht

theorem memOk.loseCmd (h : memOk s) {xid c} : memOk (s.loseCmd xid c) :=
  memOk.ite (memOk.cmdDone (memOk.update h.closeXfer))
    (memOk.ite (memOk.cmdDone (memOk.update h.closeXfer)) (memOk.cmdDone (memOk.update h.closeXfer)))

theorem memOk.loseChunks (h : memOk s) {m} : memOk (s.loseChunks m) :=
  memOk.foldl (memOk.update h) fun ht => memOk.later (memOk.update ht.closeXfer)

theorem memOk.loseModule (h : memOk s) {m} : memOk (s.loseModule m) :=
  (h.modMod.loseChunks.foldl fun ht => ht.loseCmd).loseFrags

theorem memOk.execModuleFault (h : memOk s) {m sub addr unit} : nextOk (execModuleFault m sub addr unit s) := by
  unfold Machine.execModuleFault
  split
  · exact h
  · split
    · exact h.modMod.moduleRecord
    · exact memOk.moduleRecord (memOk.ite (memOk.update h) h)
    · exact h.moduleRecord
    · exact h.ite h.loseModule.moduleRecord
    · exact h.ite h.modMod.loseFrags.moduleRecord
    · exact h

theorem memOk.execModuleRecovered (h : memOk s) {m} : nextOk (execModuleRecovered m s) := h.ite h.modMod.moduleRecord

theorem memOk.execDiscardRelease (h : memOk s) {n} : nextOk (execDiscardRelease n s) := by
  unfold Machine.execDiscardRelease
  split
  · exact h
  · dsimp only
    split
    · exact h
    · split
      · exact h.later
      · split
        · exact memOk.endLaunch (memOk.post (memOk.foldl (memOk.update (h.foldl fun ht => ht.endLeave))
            fun ht => ht.releaseSpan))
        · exact memOk.endLaunch (memOk.post (memOk.foldl (memOk.update (h.foldl fun ht => ht.endLeave))
            fun ht => ht.releaseSpan))

theorem memOk.heatRecord (h : memOk s) {sub value} : memOk (s.heatRecord sub value) := h.postAll

theorem memOk.execThermalWarning (h : memOk s) {temp} : nextOk (execThermalWarning temp s) :=
  h.ite (memOk.heatRecord (memOk.update h))

theorem memOk.execThermalThrottle (h : memOk s) {temp} : nextOk (execThermalThrottle temp s) :=
  h.ite (memOk.heatRecord (memOk.update h))

theorem memOk.execThermalRecover (h : memOk s) {temp} : nextOk (execThermalRecover temp s) :=
  h.ite (memOk.heatRecord (memOk.update h))

theorem memOk.execPowerExcursion (h : memOk s) {power} : nextOk (execPowerExcursion power s) :=
  h.ite (memOk.heatRecord (memOk.update h))

theorem memOk.execPowerExcursionEnd (h : memOk s) {power} : nextOk (execPowerExcursionEnd power s) :=
  h.ite (memOk.update h)

theorem memOk.execThermalShutdown (h : memOk s) {temp} : nextOk (execThermalShutdown temp s) :=
  h.discardEvery.heatRecord.later

/-! `Machine/EvHost.lean`. -/

theorem memOk.modHost (h : memOk s) {f} : memOk (s.modHost f) := memOk.update h

theorem memOk.execColdReset (h : memOk s) : nextOk (execColdReset s) :=
  memOk.ite h.later (Tab.wf_filter _ _ _ h)

theorem memOk.execIdentityEntry (h : memOk s) : nextOk (execIdentityEntry s) := h.modHost.ite h

theorem memOk.refuseReq (h : memOk s) {err} : memOk (s.refuseReq err) := h.modHost

theorem memOk.enter (h : memOk s) {cur} : memOk (s.enter cur) := h.modHost

theorem memOk.reqOptics (h : memOk s) : memOk s.reqOptics :=
  h.ite (h.refuseReq.ite (h.ite (h.modHost.refuseReq.ite
    (h.modHost.refuseReq.ite (memOk.later (memOk.tick (memOk.update h.modHost.modHost)))))))

theorem memOk.execStateReqOptics (h : memOk s) : nextOk (execStateReqOptics s) := h.reqOptics

theorem memOk.execOpticsTrainingDone (h : memOk s) {ok} : nextOk (execOpticsTrainingDone ok s) :=
  h.ite (h.modHost.refuseReq.ite (h.modHost.refuseReq.ite
    (h.modHost.enter.modHost.foldl fun ht => ht.tick.laterOnce)))

theorem memOk.mapSet (h : memOk s) : memOk s.mapSet := memOk.update h

theorem memOk.reqMapped (h : memOk s) : memOk s.reqMapped := by
  unfold State.reqMapped
  split
  · exact h
  · exact h.mapSet.enter.ite h.refuseReq
  · exact h.enter.ite h.refuseReq
  · exact h.refuseReq

theorem memOk.execStateReqMapped (h : memOk s) : nextOk (execStateReqMapped s) := h.reqMapped

theorem memOk.reqOperational (h : memOk s) : memOk s.reqOperational := by
  unfold State.reqOperational
  split
  · exact h
  · exact h.refuseReq.ite (memOk.ite (memOk.update h.mapSet.enter) h.mapSet.enter)
  · exact h.refuseReq

theorem memOk.execStateReqOperational (h : memOk s) : nextOk (execStateReqOperational s) := h.reqOperational

theorem memOk.modCtx (h : memOk s) {c f} : memOk (s.modCtx c f) := memOk.update h

theorem memOk.createCtx (h : memOk s) {c w} : memOk (s.createCtx c w) := h.ite h.modCtx

theorem memOk.execCtxCreate (h : memOk s) {c w} : nextOk (execCtxCreate c w s) := h.createCtx

theorem memOk.deleteCtx (h : memOk s) {c} : memOk (s.deleteCtx c) := h.ite h.modCtx

theorem memOk.execCtxDelete (h : memOk s) {c} : nextOk (execCtxDelete c s) := h.deleteCtx

theorem memOk.setPre (h : memOk s) {c} : memOk (s.setPre c) := h.ite (h.modCtx.foldl fun ht => ht.ite ht.preempt)

theorem memOk.execCtxPreSet (h : memOk s) {c} : nextOk (execCtxPreSet c s) := h.setPre

theorem memOk.clearPre (h : memOk s) {c} : memOk (s.clearPre c) := h.ite h.modCtx.later

theorem memOk.execCtxPreClear (h : memOk s) {c} : nextOk (execCtxPreClear c s) := h.clearPre

theorem memOk.splitRequest (h : memOk s) {fibre n} : memOk (s.splitRequest fibre n) :=
  h.ite (h.modHost.foldl fun ht => ht.slotSoon)

theorem memOk.execSplitRequest (h : memOk s) {fibre n} : nextOk (execSplitRequest fibre n s) := h.splitRequest

theorem memOk.invarEnd (h : memOk s) {st fc us} : memOk (s.invarEnd st fc us) := h.modHost

theorem memOk.invarFails (h : memOk s) {us} : memOk (s.invarFails us) := h.tick.invarEnd

theorem memOk.invarBegin (h : memOk s) {cmd} : memOk (s.invarBegin cmd) := h.modHost

theorem memOk.askCheckpoint (h : memOk s) : memOk s.askCheckpoint :=
  h.ite (memOk.later (memOk.tick (memOk.foldl (memOk.update h.invarBegin) fun ht => ht.stopAndRecall)))

theorem memOk.execInvarCheckpoint (h : memOk s) : nextOk (execInvarCheckpoint s) := h.askCheckpoint

theorem memOk.containAll (h : memOk s) : memOk s.containAll :=
  ((h.foldl fun ht => ht.containGranule).foldl fun ht => ht.containReg).foldl fun ht => ht.containWord

theorem memOk.writePart (h : memOk s) {i p} : memOk (s.writePart i p).2 := by
  unfold State.writePart
  split
  · split
    · exact h
    · exact h.modWrite
  · exact h
  · exact h

theorem memOk.writeImage (h : memOk s) {i} : memOk (s.writeImage i).2 := by
  refine memOk.foldl_of (fun r : Byte × State => r.2) h fun hb => ?_
  split
  · exact hb.writePart
  · exact hb

theorem memOk.resume (h : memOk s) : memOk s.resume :=
  memOk.later (memOk.foldl (memOk.foldl (memOk.update h) fun ht => ht.modSpan.foldl fun hu => hu.resend)
    fun ht => ht.refill)

theorem memOk.execCheckpointDone (h : memOk s) {ok us} : nextOk (execCheckpointDone ok us s) := by
  unfold Machine.execCheckpointDone
  extract_lets u bad i
  have pulled : memOk u := h.foldl fun ht => ht.pullFrag
  refine memOk.ite h (memOk.ite pulled.later (memOk.ite pulled.containAll.invarFails.resume
    (memOk.ite pulled.invarFails.resume (memOk.ite pulled.invarFails.resume ?_))))
  split
  next t e => exact memOk.resume (memOk.update (pulled.writeImage.of_snd e).invarEnd)
  next c t _ e => exact (pulled.writeImage.of_snd e).invarEnd.resume

theorem memOk.askPersist (h : memOk s) : memOk s.askPersist := h.ite h.invarBegin.tick.later

theorem memOk.execInvarPersist (h : memOk s) : nextOk (execInvarPersist s) := h.askPersist

theorem memOk.execPersistDone (h : memOk s) {ok us} : nextOk (execPersistDone ok us s) := by
  unfold Machine.execPersistDone
  dsimp only
  split
  · exact h
  · split
    · split
      · exact h.invarEnd
      · exact memOk.later (memOk.update h.invarEnd)
    · exact memOk.invarEnd (memOk.update h)

theorem memOk.askRestore (h : memOk s) : memOk s.askRestore := h.ite (h.invarFails.ite h.invarBegin.tick.later)

theorem memOk.execInvarRestore (h : memOk s) : nextOk (execInvarRestore s) := h.askRestore

theorem memOk.restoreAll (h : memOk s) {ps} : allSome (s.restoreAll ps) := by
  induction ps generalizing s with
  | nil => exact h
  | cons p ps ih =>
    unfold State.restoreAll
    split
    · split
      · trivial
      · exact ih (h.restoreSpan.get ‹_›)
    · exact ih h

theorem memOk.resumeLaunch (h : memOk s) {n l} : memOk (s.resumeLaunch n l) := by
  unfold State.resumeLaunch
  split
  · exact h.endLaunch
  · exact h.later
  · exact h.modLaunch.later
  · exact h.modLaunch.later
  · exact h

theorem memOk.restoreImage (h : memOk s) {i} : allSome (s.restoreImage i) := by
  unfold State.restoreImage
  dsimp only
  split
  · trivial
  · next e =>
    have spans := memOk.of_some e (memOk.restoreAll (memOk.update h))
    exact memOk.later ((spans.foldl fun ht => ht.later).foldl fun ht => ht.resumeLaunch)

theorem memOk.execRestoreDone (h : memOk s) {ok us} : nextOk (execRestoreDone ok us s) := by
  unfold Machine.execRestoreDone
  split
  · exact h
  · split
    · exact h.invarFails
    · split
      · exact h.invarFails
      · split
        · exact h.later
        · exact (h.restoreImage.get ‹_›).invarEnd

theorem memOk.signQuote (h : memOk s) : memOk s.signQuote := h.ite h.modHost.later

theorem memOk.execQctlSign (h : memOk s) : nextOk (execQctlSign s) := h.signQuote

theorem memOk.execQuoteReady (h : memOk s) : nextOk (execQuoteReady s) := by
  unfold Machine.execQuoteReady
  split
  · exact h
  · exact memOk.modHost (memOk.update h)

theorem memOk.windowRecord (h : memOk s) {a} : memOk (s.windowRecord a) := h.post

theorem memOk.execHostWindowRead (h : memOk s) {off n} : nextOk (execHostWindowRead off n s) :=
  h.ite (h.modHost.ite ((((h.foldl fun ht => ht.containGranule).windowRecord).modHost).ite h.modHost))

theorem memOk.execHostWindowWrite (h : memOk s) {off data} : nextOk (execHostWindowWrite off data s) :=
  h.ite (h.ite (h.windowRecord.ite (((h.foldl fun ht => ht.containGranule).windowRecord).ite h.pkgWrite)))

theorem memOk.writeState (h : memOk s) {val} : memOk (s.writeState val) := by
  unfold State.writeState
  dsimp only
  split
  · exact h.modHost.reqOptics
  · exact h.modHost.reqMapped
  · exact h.modHost.reqOperational
  · exact h.modHost.refuseReq

theorem memOk.writeCtx (h : memOk s) {c w val} : memOk (s.writeCtx c w val) := by
  unfold State.writeCtx
  dsimp only
  split
  · exact (h.ite h.createCtx).ite (h.deleteCtx.ite h.modCtx)
  · exact h.ite h.modCtx
  · exact h.ite h.modCtx
  · exact h.ite h.modCtx
  · exact h.ite h.modCtx
  · exact h.setPre.ite h.clearPre
  · exact h

theorem memOk.writeRange (h : memOk s) {c n w val} : memOk (s.writeRange c n w val) := h.modCtx

theorem memOk.execRegisterWrite (h : memOk s) {off val} : nextOk (execRegisterWrite off val s) := by
  have on {states : List Nat} {t : State} (ht : memOk t) : memOk (if s.writable states then t else s) := ht.ite h
  have asked : memOk (match (val.extractLsb' 0 2).toNat with
      | 1 => s.askCheckpoint
      | 2 => s.askPersist
      | 3 => s.askRestore
      | _ => s) := by
    split
    · exact h.askCheckpoint
    · exact h.askPersist
    · exact h.askRestore
    · exact h
  exact memOk.ite h (memOk.ite (on h.writeState) (memOk.ite (on h.modHost) (memOk.ite (on (memOk.ite h h.modHost))
    (memOk.ite (on h.modHost) (memOk.ite (on h.modHost) (memOk.ite (on asked) (memOk.ite (on h.modHost)
      (memOk.ite (on h.modHost) (memOk.ite (on h.modHost) (memOk.ite (on (memOk.ite h.signQuote h))
        (memOk.ite (on h.modHost) (memOk.ite (on (memOk.ite h h.modHost))
          (memOk.ite (on (h.foldl fun ht => ht.splitRequest)) (memOk.ite (on h.modHost) (memOk.ite (on h.writeCtx)
            (memOk.ite (on (memOk.ite h.writeRange h)) h))))))))))))))))

theorem memOk.execFirmwareStagingWrite (h : memOk s) {off data} : nextOk (execFirmwareStagingWrite off data s) :=
  h.ite h.modHost

/-! `Machine/Migration.lean`. -/

theorem memOk.migrate (h : memOk s) {x d j go no own ia} : memOk (s.migrate x d j go no own ia).2 := by
  unfold State.migrate
  extract_lets sh left u v hops w y
  have opened : memOk v := h.writeS.ite (h.writeS.moreAway.ite h.writeS.openWindow)
  have gone : memOk w := opened.departAll
  have told : memOk y := gone.ite gone.refuseHere
  split
  · exact h.writeS
  · exact told

theorem memOk.execMig (h : memOk s) {h' d base idx off j} : nextOk (execMig h' d base idx off j s) := by
  unfold Machine.execMig
  dsimp only
  refine memOk.issue h fun ht => ?_
  refine flowOk.check (.check (.guard ?_))
  split
  · split
    · trivial
    · trivial
  · exact ht.withStack fun hu => hu.migrate

/-! The step (`Machine/Dispatch.lean`, `Machine/Events.lean`, `Machine/Step.lean`). -/

/-- An instruction or an event keeps the canonical form. -/
theorem memOk.exec (h : memOk s) {i} : nextOk (exec i s) := by
  cases i with
  | pad => exact h.modSlot
  | nop => exact h.issue fun ht => ht.simple fun hu => hu
  | bra => exact h.issue fun ht => ht.branch fun hu => hu
  | braReg => exact h.issue fun ht => flowOk.ite (ht.branch fun hu => hu) trivial
  | brp => exact h.issue fun ht => ht.branch fun hu => hu
  | brpJoin => exact h.issue fun ht => ht.branch fun hu => hu
  | join => exact h.issue fun ht => ht.joinAt
  | loop => exact h.issue fun ht => flowOk.ite ht.writeS (ht.branch fun hu => hu.writeS)
  | call => exact h.issue fun ht => ht.branch fun hu => hu.writeS
  | callReg => exact h.issue fun ht => flowOk.ite (ht.branch fun hu => hu.writeS) trivial
  | calli => exact h.execCalli
  | ret => exact h.issue fun ht => flowOk.ite trivial (flowOk.ite ht.modSlot (ht.branch fun hu => hu))
  | exit => exact h.issue fun ht => ht.exitRecords.modSlot
  | yield => exact h.issue fun ht => ht.simple fun hu => hu.modSheaf
  | trap => exact h.issue fun ht => ht.softTrap
  | tret => exact h.issue fun ht => flowOk.ite trivial (ht.trapReturn.ite ht.trapReturn.mark)
  | mcall => exact h.issue fun ht => flowOk.ite ht.discardAt (flowOk.ite trivial ht.modSlot)
  | bkpt => exact h.issue fun ht => flowOk.ite ht.softTrap ht
  | waita => exact h.execWaita
  | waitaTimeout => exact h.execWaitaTimeout
  | sleep => exact h.issue fun ht => ht.simple fun hu => hu.sleepFor
  | sleepImm => exact h.issue fun ht => ht.simple fun hu => hu.sleepFor
  | sleepExpiry => exact h.execSleepExpiry
  | elect => exact h.issue fun ht => ht.simple fun hu => hu.writeP.writeS
  | smov => exact h.scalar1
  | smovi => exact h.issue fun ht => ht.simple fun hu => hu.writeS
  | smovq => exact h.issue fun ht => ht.simple fun hu => hu.writeS
  | sadd => exact h.scalar2
  | ssub => exact h.scalar2
  | smul => exact h.scalar2
  | smulh => exact h.scalar2
  | sdiv => exact h.scalar2
  | srem => exact h.scalar2
  | sand => exact h.scalar2
  | sor => exact h.scalar2
  | sxor => exact h.scalar2
  | sshl => exact h.scalar2
  | sshr => exact h.scalar2
  | ssar => exact h.scalar2
  | smin => exact h.scalar2
  | smax => exact h.scalar2
  | scmp => exact h.scalar2
  | ssel => exact h.issue fun ht => ht.simple fun hu => hu.writeS
  | slea => exact h.scalar2
  | sclz => exact h.scalar1
  | spopc => exact h.scalar1
  | sbfe => exact h.scalar2
  | sbfi => exact h.issue fun ht => ht.simple fun hu => hu.writeS
  | vmov => exact h.issue fun ht => ht.simple fun hu => hu.writeTags
  | vmovi => exact h.issue fun ht => ht.simple fun hu => hu.writeTy
  | vidx => exact h.issue fun ht => ht.simple fun hu => hu.writeTy
  | vadd => exact h.vec2
  | vsub => exact h.vec2
  | vadds => exact h.vec2
  | vsubs => exact h.vec2
  | vmul => exact h.vec2
  | vmulh => exact h.vec2
  | vmad => exact h.issue fun ht => ht.simple fun hu => hu.writeTy
  | vmin => exact h.vec2
  | vmax => exact h.vec2
  | vabs => exact h.vec1
  | vneg => exact h.vec1
  | vand => exact h.vec2
  | vor => exact h.vec2
  | vxor => exact h.vec2
  | vnot => exact h.vec1
  | vshl => exact h.vecCount
  | vshr => exact h.vecCount
  | vsar => exact h.vecCount
  | vrot => exact h.vecCount
  | vbfe => exact h.vec2
  | vbfi => exact h.issue fun ht => ht.simple fun hu => hu.writeTy
  | vclz => exact h.vec1
  | vpopc => exact h.vec1
  | vbrev => exact h.vec1
  | vcmp => exact h.issue fun ht => ht.simple fun hu => hu.writeP
  | vsel => exact h.issue fun ht => ht.simple fun hu => hu.writeTags
  | vlea => exact h.vecCount
  | vfadd => exact h.float2
  | vfsub => exact h.float2
  | vfmul => exact h.float2
  | vfma => exact h.float3
  | vfnma => exact h.float3
  | vfmin => exact h.float2
  | vfmax => exact h.float2
  | vfabs => exact h.floatBits
  | vfneg => exact h.floatBits
  | vfcmp => exact h.issue fun ht => ht.simple fun hu => hu.writeP
  | vfclass => exact h.issue fun ht => ht.simple fun hu => hu.writeV
  | vfdiv => exact h.float2
  | vrcp => exact h.floatBits
  | vrsq => exact h.floatBits
  | vsqrt => exact h.float1
  | vexp2 => exact h.floatBits
  | vlog2 => exact h.floatBits
  | vsin => exact h.floatBits
  | vcos => exact h.floatBits
  | vtanh => exact h.floatBits
  | vfloor => exact h.float1
  | vceil => exact h.float1
  | vfract => exact h.float1
  | vfscale => exact h.floatCr
  | vcvt => exact h.issue fun ht => ht.simple fun hu => hu.writeTy.srndStep
  | vpack => exact h.issue fun ht => ht.simple fun hu => hu.writeV.srndStep
  | vunpk => exact h.issue fun ht => ht.simple fun hu => hu.writeV
  | vquant => exact h.execVquant
  | vdeq => exact h.issue fun ht => ht.simple fun hu => hu.writeV.srndStep
  | vsplit6 => exact h.issue fun ht => ht.simple fun hu => hu.writeV
  | vjoin6 => exact h.issue fun ht => ht.simple fun hu => hu.writeV
  | vdot8 => exact h.vdot
  | vdot4 => exact h.vdot
  | vtag => exact h.issue fun ht => ht.simple fun hu => hu.writeV
  | vsrnd => exact h.issue fun ht => ht.simple fun hu => hu.modSheaf
  | vsrndDraw => exact h.issue fun ht => ht.simple fun hu => hu.writeS.modSheaf
  | vshfl => exact h.crossCopy
  | vbcast => exact h.crossCopy
  | vlrot => exact h.crossCopy
  | vred => exact h.issue fun ht => ht.simple fun hu => hu.writeS.srndStep
  | vscan => exact h.issue fun ht => ht.simple fun hu => hu.writeV.srndStep
  | vballot => exact h.issue fun ht => ht.simple fun hu => hu.writeS
  | vmatch => exact h.issue fun ht => ht.simple fun hu => hu.writeV
  | pset => exact h.issue fun ht => ht.simple fun hu => hu.writeP
  | psetImm => exact h.issue fun ht => ht.simple fun hu => hu.writeP
  | pand => exact h.pred2
  | por => exact h.pred2
  | pxor => exact h.pred2
  | pnot => exact h.pred1
  | pmov => exact h.pred1
  | pcnt => exact h.issue fun ht => ht.simple fun hu => hu.writeS
  | pfirst => exact h.issue fun ht => ht.simple fun hu => hu.writeS
  | xacq => exact h.execXacq
  | xrel => exact h.issue fun ht => ht.simple fun hu => hu.dropBlock
  | sread => exact h.execSread
  | swrite => exact h.issue fun ht => flowOk.ite ht.modSheaf (flowOk.ite ht.modSheaf trivial)
  | genq => exact h.issue fun ht => ht.simple fun hu => hu.writeS
  | tagq => exact h.execTagq
  | rdtime => exact h.issue fun ht => ht.simple fun hu => hu.writeS
  | lread => exact h.issue fun ht => ht.simple fun hu => hu.startLoad
  | ctxsave => exact h.execCtxsave
  | ctxload => exact h.execCtxload
  | ldl => exact h.regionLoad
  | stl => exact h.regionStore
  | lds => exact h.regionLoad
  | sts => exact h.regionStore
  | ldg => exact h.virtLoad
  | stg => exact h.virtStore
  | ldx => exact h.virtLoad
  | stx => exact h.virtStore
  | ldb => exact h.execLdb
  | ldbLoc => exact h.issue fun ht => ht.memAccess fun hu => hu.loadLanes
  | lda => exact h.execLda
  | str => exact h.issue fun ht => ht.waitRemote fun hu => hu.memAccess fun hv => hv.storeOrdered
  | atom => exact h.atomic
  | atomn => exact h.atomic
  | acas => exact h.atomic
  | fence => exact h.issue fun ht => ht.waitRemote fun hu => hu.acquireL1.ite hu
  | prefg => exact h.issue fun ht => ht.simple fun hu => hu.foldl fun hv => hv.fillLines.ite hv
  | cflush => exact h.issue fun ht => ht.simple fun hu => hu.ite (hu.foldl fun hv => hv.dropRange)
  | cflushAll => exact h.issue fun ht => ht.simple fun hu => hu.acquireL1
  | abinit => exact h.slotChange
  | abexp => exact h.slotChange
  | abarr => exact h.issue fun ht => ht.slotGuard (ht.waitRemote fun hu => hu.arrive)
  | abwait => exact h.execAbwait
  | abtest => exact h.slotTest
  | abtestPar => exact h.slotTest
  | abret => exact h.slotChange
  | abq => exact h.issue fun ht => ht.slotGuard (ht.waitRemote fun hu => hu.writeS)
  | cbar => exact h.issue fun ht => ht.waitRemote fun hu => (((hu.acquireL1.ite hu).modSlot).modCrew).rounds
  | sbar => exact h.issue fun ht => ht.waitRemote fun hu => hu.acquireL1.modSlot.modSpan.rounds
  | tfetch => exact h.tensor
  | tstore => exact h.tensor
  | twin => exact h.issue fun ht => ht.simple fun hu => hu.modCrew
  | twq => exact h.issue fun ht => ht.simple fun hu => hu.writeS
  | mcopy => exact h.twoArgs
  | mfill => exact h.execMfill
  | mred => exact h.twoArgs
  | msnap => exact h.execMsnap
  | mclose => exact h.execMclose
  | tdset => exact h.issue fun ht => flowOk.ite trivial ht.setDesc
  | tdtag => exact h.issue fun ht => ht.simple fun hu => hu.setDesc
  | mma => exact h.matIssue
  | mmas => exact h.matIssue
  | mzero => exact h.matIssue
  | mew => exact h.matIssue
  | mst => exact h.matIssue
  | mlda => exact h.matIssue
  | mrdv => exact h.execMrdv
  | mwrv => exact h.matIssue
  | mtrn => exact h.matIssue
  | mfen => exact h.mfence
  | mfenNoarrive => exact h.mfence
  | mig => exact h.execMig
  | home => exact h.issue fun ht => flowOk.ite trivial (flowOk.ite ht.joinAt ht.fragReturn)
  | migset => exact h.issue fun ht => ht.simple fun hu => hu.modSheaf
  | migsetHome => exact h.issue fun ht => flowOk.ite trivial ht.modSheaf
  | migq => exact h.issue fun ht => ht.simple fun hu => hu.writeS
  | bsadd => exact h.bitSerial
  | bsmul => exact h.bitSerial
  | bsmac => exact h.bitSerial
  | bscmp => exact h.bitSerial
  | bspopc => exact h.execBspopc
  | xsend => exact h.xsend
  | xsendNobar => exact h.xsend
  | xsendf => exact h.xsend
  | xget => exact h.execXget
  | xatom => exact h.execXatom
  | xmcast => exact h.execXmcast
  | xfence => exact h.execXfence
  | xred => exact h.execXred
  | xresid => exact h.execXresid
  | xgrpSet => exact h.execXgrpSet
  | xgrpGet => exact h.execXgrpGet
  | lnch => exact h.launchWith
  | larm => exact h.launchWith
  | ldep => exact h.issue fun ht => flowOk.ite trivial ht.modSheaf
  | lprio => exact h.execLprio
  | lwait => exact h.execLwait
  | rrset => exact h.issue fun ht => ht.simple fun hu => hu.rangeWrite
  | rrinv => exact h.issue fun ht => ht.simple fun hu => hu.rangeWrite
  | pginv => exact h.issue fun ht => flowOk.ite (ht.waitRemote fun hu => hu) ht.invalidate
  | pginvMod => exact h.issue fun ht => flowOk.ite (ht.waitRemote fun hu => hu) ht.invalidate
  | wcsld => exact h.loadStore
  | wcsldAll => exact h.loadStore
  | evpost => exact h.execEvpost
  | preq => exact h.execPreq
  | preqRel => exact h.issue fun ht => ht.simple fun hu => hu.dropReservation
  | dbgrd => exact h.execDbgrd
  | gensweep => exact h.sweepWait
  | gensweepSlice => exact h.sweepWait
  | loadLaneReturn => exact h.execLoadLaneReturn
  | memoryFaultSettle => exact h.execMemoryFaultSettle
  | trapEntry => exact h.execTrapEntry
  | extendedBlockGrant => exact h.execExtendedBlockGrant
  | compactorMove => exact h.execCompactorMove
  | compactorMoveDone => exact h.execCompactorMoveDone
  | sweeperPassEnd => exact h.execSweeperPassEnd
  | submissionWrite => exact h.execSubmissionWrite
  | orreryAdmit => exact h.execOrreryAdmit
  | spanPlacement => exact h.execSpanPlacement
  | crewRetire => exact h.execCrewRetire
  | preemptionWaitExpiry => exact h.execPreemptionWaitExpiry
  | spanSave => exact h.execSpanSave
  | spanRestore => exact h.execSpanRestore
  | recallTimeout => exact h.execRecallTimeout
  | chunkSend => exact h.execChunkSend
  | chunkArrival => exact h.execChunkArrival
  | matrixCommandExecute => exact h.execMatrixCommandExecute
  | matrixCommandComplete => exact h.execMatrixCommandComplete
  | matrixBurstEnd => exact h.execMatrixBurstEnd
  | permitGrant => exact h.execPermitGrant
  | moduleRoomReport => exact h.execModuleRoomReport
  | reservationExpiry => exact h.execReservationExpiry
  | eventQueueRecheck => exact h.execEventQueueRecheck
  | continuationDepart => exact h.execContinuationDepart
  | continuationArrival => exact h.execContinuationArrival
  | migrationReturn => exact h.execMigrationReturn
  | frameSend => exact h.execFrameSend
  | frameWrite => exact h.execFrameWrite
  | frameReadRequest => exact h.execFrameReadRequest
  | frameReadResponse => exact h.execFrameReadResponse
  | frameAtomicRequest => exact h.execFrameAtomicRequest
  | frameAtomicResponse => exact h.execFrameAtomicResponse
  | frameEndToEndAck => exact h.execFrameEndToEndAck
  | frameMulticast => exact h.execFrameMulticast
  | frameIdle => exact h.execFrameIdle
  | replayRequest => exact h.execReplayRequest
  | frameModuleCompletion => exact h.execFrameModuleCompletion
  | frameCorrupt => exact h.execFrameCorrupt
  | replayTimeout => exact h.execReplayTimeout
  | relayForward => exact h.execRelayForward
  | relayLossTimeout => exact h.execRelayLossTimeout
  | multicastMemberTimeout => exact h.execMulticastMemberTimeout
  | rotorSlotBoundary => exact h.execRotorSlotBoundary
  | guardBeacon => exact h.execGuardBeacon
  | rotorPlaneFailure => exact h.execRotorPlaneFailure
  | rotorPlaneRestore => exact h.execRotorPlaneRestore
  | wavelengthWindowEnd => exact h.execWavelengthWindowEnd
  | uncorrectableCodeword => exact h.execUncorrectableCodeword
  | lossOfLock => exact h.execLossOfLock
  | erasureDeclare => exact h.execErasureDeclare
  | linkEscalation => exact h.execLinkEscalation
  | retrainSlot => exact h.execRetrainSlot
  | forcedRetrain => exact h.execForcedRetrain
  | forcedRetrainEnd => exact h.execForcedRetrainEnd
  | laserAgeingThreshold => exact h.execLaserAgeingThreshold
  | theodoliteWatchdogReset => exact h.execTheodoliteWatchdogReset
  | theodoliteRecovered => exact h.execTheodoliteRecovered
  | lrRetryTimeout => exact h.execLrRetryTimeout
  | lrAckTimeout => exact h.execLrAckTimeout
  | lrTrainingAttempt => exact h.execLrTrainingAttempt
  | lrLinkTrained => exact h.execLrLinkTrained
  | lrLossDiscard => exact h.execLrLossDiscard
  | lrRekey => exact h.execLrRekey
  | lrDedupExpiry => exact h.execLrDedupExpiry
  | moduleFault => exact h.execModuleFault
  | moduleRecovered => exact h.execModuleRecovered
  | discardRelease => exact h.execDiscardRelease
  | thermalWarning => exact h.execThermalWarning
  | thermalThrottle => exact h.execThermalThrottle
  | thermalRecover => exact h.execThermalRecover
  | powerExcursion => exact h.execPowerExcursion
  | thermalShutdown => exact h.execThermalShutdown
  | coldReset => exact h.execColdReset
  | identityEntry => exact h.execIdentityEntry
  | stateReqOptics => exact h.execStateReqOptics
  | opticsTrainingDone => exact h.execOpticsTrainingDone
  | stateReqMapped => exact h.execStateReqMapped
  | stateReqOperational => exact h.execStateReqOperational
  | ctxCreate => exact h.execCtxCreate
  | ctxDelete => exact h.execCtxDelete
  | ctxPreSet => exact h.execCtxPreSet
  | ctxPreClear => exact h.execCtxPreClear
  | splitRequest => exact h.execSplitRequest
  | invarCheckpoint => exact h.execInvarCheckpoint
  | checkpointDone => exact h.execCheckpointDone
  | invarPersist => exact h.execInvarPersist
  | persistDone => exact h.execPersistDone
  | invarRestore => exact h.execInvarRestore
  | restoreDone => exact h.execRestoreDone
  | qctlSign => exact h.execQctlSign
  | quoteReady => exact h.execQuoteReady
  | hostWindowRead => exact h.execHostWindowRead
  | hostWindowWrite => exact h.execHostWindowWrite
  | registerWrite => exact h.execRegisterWrite
  | powerExcursionEnd => exact h.execPowerExcursionEnd
  | firmwareStagingWrite => exact h.execFirmwareStagingWrite

theorem memOk.runEvent (h : memOk s) {e} : nextOk (runEvent e s) := by
  cases e with
  | waitaTimeout => exact h.execWaitaTimeout
  | sleepExpiry => exact h.execSleepExpiry
  | loadLaneReturn => exact h.execLoadLaneReturn
  | memoryFaultSettle => exact h.execMemoryFaultSettle
  | trapEntry => exact h.execTrapEntry
  | extendedBlockGrant => exact h.execExtendedBlockGrant
  | compactorMove => exact h.execCompactorMove
  | compactorMoveDone => exact h.execCompactorMoveDone
  | sweeperPassEnd => exact h.execSweeperPassEnd
  | submissionWrite => exact h.execSubmissionWrite
  | orreryAdmit => exact h.execOrreryAdmit
  | spanPlacement => exact h.execSpanPlacement
  | crewRetire => exact h.execCrewRetire
  | preemptionWaitExpiry => exact h.execPreemptionWaitExpiry
  | spanSave => exact h.execSpanSave
  | spanRestore => exact h.execSpanRestore
  | recallTimeout => exact h.execRecallTimeout
  | chunkSend => exact h.execChunkSend
  | chunkArrival => exact h.execChunkArrival
  | matrixCommandExecute => exact h.execMatrixCommandExecute
  | matrixCommandComplete => exact h.execMatrixCommandComplete
  | matrixBurstEnd => exact h.execMatrixBurstEnd
  | permitGrant => exact h.execPermitGrant
  | moduleRoomReport => exact h.execModuleRoomReport
  | reservationExpiry => exact h.execReservationExpiry
  | eventQueueRecheck => exact h.execEventQueueRecheck
  | continuationDepart => exact h.execContinuationDepart
  | continuationArrival => exact h.execContinuationArrival
  | migrationReturn => exact h.execMigrationReturn
  | frameSend => exact h.execFrameSend
  | frameWrite => exact h.execFrameWrite
  | frameReadRequest => exact h.execFrameReadRequest
  | frameReadResponse => exact h.execFrameReadResponse
  | frameAtomicRequest => exact h.execFrameAtomicRequest
  | frameAtomicResponse => exact h.execFrameAtomicResponse
  | frameEndToEndAck => exact h.execFrameEndToEndAck
  | frameMulticast => exact h.execFrameMulticast
  | frameIdle => exact h.execFrameIdle
  | replayRequest => exact h.execReplayRequest
  | frameModuleCompletion => exact h.execFrameModuleCompletion
  | frameCorrupt => exact h.execFrameCorrupt
  | replayTimeout => exact h.execReplayTimeout
  | relayForward => exact h.execRelayForward
  | relayLossTimeout => exact h.execRelayLossTimeout
  | multicastMemberTimeout => exact h.execMulticastMemberTimeout
  | rotorSlotBoundary => exact h.execRotorSlotBoundary
  | guardBeacon => exact h.execGuardBeacon
  | rotorPlaneFailure => exact h.execRotorPlaneFailure
  | rotorPlaneRestore => exact h.execRotorPlaneRestore
  | wavelengthWindowEnd => exact h.execWavelengthWindowEnd
  | uncorrectableCodeword => exact h.execUncorrectableCodeword
  | lossOfLock => exact h.execLossOfLock
  | erasureDeclare => exact h.execErasureDeclare
  | linkEscalation => exact h.execLinkEscalation
  | retrainSlot => exact h.execRetrainSlot
  | forcedRetrain => exact h.execForcedRetrain
  | forcedRetrainEnd => exact h.execForcedRetrainEnd
  | laserAgeingThreshold => exact h.execLaserAgeingThreshold
  | theodoliteWatchdogReset => exact h.execTheodoliteWatchdogReset
  | theodoliteRecovered => exact h.execTheodoliteRecovered
  | lrRetryTimeout => exact h.execLrRetryTimeout
  | lrAckTimeout => exact h.execLrAckTimeout
  | lrTrainingAttempt => exact h.execLrTrainingAttempt
  | lrLinkTrained => exact h.execLrLinkTrained
  | lrLossDiscard => exact h.execLrLossDiscard
  | lrRekey => exact h.execLrRekey
  | lrDedupExpiry => exact h.execLrDedupExpiry
  | moduleFault => exact h.execModuleFault
  | moduleRecovered => exact h.execModuleRecovered
  | discardRelease => exact h.execDiscardRelease
  | thermalWarning => exact h.execThermalWarning
  | thermalThrottle => exact h.execThermalThrottle
  | thermalRecover => exact h.execThermalRecover
  | powerExcursion => exact h.execPowerExcursion
  | thermalShutdown => exact h.execThermalShutdown
  | coldReset => exact h.execColdReset
  | identityEntry => exact h.execIdentityEntry
  | stateReqOptics => exact h.execStateReqOptics
  | opticsTrainingDone => exact h.execOpticsTrainingDone
  | stateReqMapped => exact h.execStateReqMapped
  | stateReqOperational => exact h.execStateReqOperational
  | ctxCreate => exact h.execCtxCreate
  | ctxDelete => exact h.execCtxDelete
  | ctxPreSet => exact h.execCtxPreSet
  | ctxPreClear => exact h.execCtxPreClear
  | splitRequest => exact h.execSplitRequest
  | invarCheckpoint => exact h.execInvarCheckpoint
  | checkpointDone => exact h.execCheckpointDone
  | invarPersist => exact h.execInvarPersist
  | persistDone => exact h.execPersistDone
  | invarRestore => exact h.execInvarRestore
  | restoreDone => exact h.execRestoreDone
  | qctlSign => exact h.execQctlSign
  | quoteReady => exact h.execQuoteReady
  | hostWindowRead => exact h.execHostWindowRead
  | hostWindowWrite => exact h.execHostWindowWrite
  | registerWrite => exact h.execRegisterWrite
  | powerExcursionEnd => exact h.execPowerExcursionEnd
  | firmwareStagingWrite => exact h.execFirmwareStagingWrite

theorem memOk.stepSlot (h : memOk s) {k b} : nextOk (stepSlot s k b) := by
  unfold Machine.stepSlot
  dsimp only
  have begun : memOk ({ s with focus := k, focusB := b } : State).begun := memOk.begun (memOk.update h)
  split
  · exact memOk.exec begun.keepBlock
  · exact begun.takeTrap.refill
  · exact begun.contain

theorem nextOk.onNext {o : Host.Outcome State Fault Refusal} {f : State → State} (h : nextOk o)
    (g : ∀ {t}, memOk t → memOk (f t)) : nextOk (onNext f o) := by
  cases o with
  | next t => exact g h
  | fault r => trivial
  | refused r => trivial

/-- A step keeps the canonical form: a due event, an instruction, or the passing of time alone. -/
theorem memOk.step (h : memOk s) : nextOk (step s) := by
  refine nextOk.onNext ?_ memOk.pass
  split
  · split
    · exact h
    · exact memOk.runEvent (memOk.begun (memOk.update h))
  · split
    · exact h
    · exact h.stepSlot

/-- Settles O55: `memOk.step`, read at the state that the step answers. -/
theorem memoryFormKept : Obligations.MemoryFormKept := by
  intro s t h e
  have kept := h.step
  rwa [e] at kept

end Sys2Proof.Safety
end

section
/-!
PROOFS. State instructions (`Obligations.StateResults`): where the model and `Claims` write a value in different ways, then one
lemma for each entry of `Claims.stateForm`.
-/

namespace Sys2Proof.Proofs.StateInstr

open Sys2Proof Sys2Proof.Machine Sys2Proof.Claims Sys2Proof.Proofs.Completion

/-! The extended block. -/

theorem xacq_of_held {t : State} {k n : Nat} (held : n ≤ (t.sheaf k).xblk) (b implicit : Bool) :
    t.xacq k b n implicit = (t, true) := if_pos held

theorem xacq_of_taken {t u : State} {k n : Nat} (more : ¬ n ≤ (t.sheaf k).xblk) (first : (t.core (unitOf k)).waiting = [])
    (taken : t.takeBlock k n = some u) (b implicit : Bool) : t.xacq k b n implicit = (u, true) := by
  simp only [State.xacq, if_neg more, if_pos first, taken]

theorem xacq_completes (s : State) (h : Hdr) (n : XSize) : CompletesIn stateForm (.xacq h n) s :=
  .of_effect rfl rfl fun _ x t _ ok => by
    by_cases held : XSize.regs n ≤ (t.sheaf x.k).xblk
    · simp only [xacq_of_held held, if_pos held]
    · obtain ⟨first, some⟩ := ok.resolve_left held
      obtain ⟨u, taken⟩ := Option.isSome_iff_exists.mp some
      simp only [xacq_of_taken held first taken, if_neg held, taken, Option.getD_some]

theorem xrel_completes (s : State) (h : Hdr) : CompletesIn stateForm (.xrel h) s :=
  .of_simple rfl rfl fun _ _ _ => rfl

/-! Special registers. -/

/-- The scalar form of SREAD reads a register other than sr.lane. -/
theorem sr_ne_zero_of_wf {h : Hdr} {r : SReg} {sr : BitVec 4} (wf : (Instr.sread h (.s r) sr).wf = true) : sr ≠ 0 := by
  simp only [Instr.wf, Bool.and_eq_true] at wf
  obtain ⟨⟨-, other⟩, -⟩ := wf
  exact bne_iff_ne.mp other

theorem special_eq {sr : BitVec 4} (other : sr ≠ 0) (t : State) (k : Nat) : t.special k sr = Claims.special t k sr := by
  have pos : sr.toNat ≠ 0 := fun e => other (BitVec.eq_of_toNat_eq e)
  have lt := sr.isLt
  unfold State.special Claims.special
  generalize sr.toNat = n at pos lt
  interval_cases n
  · contradiction
  all_goals rfl

theorem sread_completes (s : State) (h : Hdr) (d : VSrc) (sr : BitVec 4) : CompletesIn stateForm (.sread h d sr) s := by
  cases d with
  | v r => exact .of_simple rfl rfl fun _ _ _ => rfl
  | s r => exact .of_simple rfl rfl fun wf x t => by rw [special_eq (sr_ne_zero_of_wf wf)]

theorem and_not_eq_ite (q b : Bool) : (q && !b) = if b then false else q := by cases b <;> simp

theorem swrite_completes (s : State) (h : Hdr) (sr : BitVec 4) (a : SReg) : CompletesIn stateForm (.swrite h sr a) s :=
  .of_effect rfl rfl fun _ x t _ ok => by
    rcases ok with rfl | rfl
    · rfl
    · have other : ¬ (13 : BitVec 4) = 12 := by decide
      simp only [if_neg other, if_true, and_not_eq_ite]

/-! Generations and tags. -/

theorem genq_completes (s : State) (h : Hdr) (which : GenWhich) (d : SReg) : CompletesIn stateForm (.genq h which d) s :=
  .of_simple rfl rfl fun _ x t => by
    cases which with
    | visit =>
      simp only [State.genOf]
      split <;> rfl
    | _ => rfl

/-- The position of a format tag in the word that TAGQ gives. -/
theorem tag_mul_16_eq_shift (tag : BitVec 4) : BitVec.ofNat 64 (tag.toNat * 16) = (tag.zeroExtend 64 : Word64) <<< 4 := by
  apply BitVec.eq_of_toNat_eq
  simp [BitVec.toNat_shiftLeft, Nat.shiftLeft_eq]

theorem boolWord_not (b : Bool) : boolWord (!b) = if b then 0 else 1 := by cases b <;> rfl

theorem tagq_completes (s : State) (h : Hdr) (d : SReg) (src : TagqSrc) : CompletesIn stateForm (.tagq h d src) s := by
  cases src with
  | vec a =>
    cases a with
    | v r => exact .of_simple rfl rfl fun _ x t => by rw [tag_mul_16_eq_shift, boolWord_not]
    | s r => exact .of_simple rfl rfl fun _ x t => by rw [boolWord_not]
  | sca r => exact .of_simple rfl rfl fun _ x t => by rw [boolWord_not]
  | acc a row => exact .of_effect rfl rfl fun _ x t _ _ => by simp only [simple, boolWord_not]

theorem rdtime_completes (s : State) (h : Hdr) (dom : Bool) (d : SReg) : CompletesIn stateForm (.rdtime h dom d) s :=
  .of_simple rfl rfl fun _ _ _ => rfl

theorem lread_completes (s : State) (h : Hdr) (d a : SReg) : CompletesIn stateForm (.lread h d a) s :=
  .of_simple rfl rfl fun _ _ _ => rfl

/-! Save-area entries. -/

theorem ctxsave_completes (s : State) (h : Hdr) (a : SReg) : CompletesIn stateForm (.ctxsave h a) s :=
  .of_effect rfl rfl fun _ x t _ ⟨idle, sound, va, u, entry, written⟩ => by
    simp only [entry, idle, sound, written, Bool.false_eq_true, if_false]

theorem ctxload_completes (s : State) (h : Hdr) (a : SReg) : CompletesIn stateForm (.ctxload h a) s :=
  .of_effect rfl rfl fun _ x t _ ⟨va, bs, entry, read, sound, held, clean⟩ => by
    simp [entry, read, whenSound, sound, clean, Nat.not_lt.mpr held]

/-- Settles O7: the entries of the table are the lemmas above, and every other instruction has none. -/
theorem stateResults : Obligations.StateResults := by
  unfold Obligations.StateResults
  intro i s
  suffices CompletesIn stateForm i s from this
  cases i with
  | xacq h n => exact xacq_completes s h n
  | xrel h => exact xrel_completes s h
  | sread h d sr => exact sread_completes s h d sr
  | swrite h sr a => exact swrite_completes s h sr a
  | genq h which d => exact genq_completes s h which d
  | tagq h d src => exact tagq_completes s h d src
  | rdtime h dom d => exact rdtime_completes s h dom d
  | lread h d a => exact lread_completes s h d a
  | ctxsave h a => exact ctxsave_completes s h a
  | ctxload h a => exact ctxload_completes s h a
  | _ => exact .of_none rfl

end Sys2Proof.Proofs.StateInstr
end

section
/-!
PROOFS. Steps of the Heliostat (`Obligations.HeliostatSteps`): where the model and `Claims` write a condition or a continuation in
different ways, what lists of register writes leave to be read, then the departure, the arrival and the return of a continuation.
-/

namespace Sys2Proof.Proofs.Heliostat

open Sys2Proof Sys2Proof.Machine Sys2Proof.Claims

/-! The model's conditions and those of the tables. -/

theorem launchActive_eq_active (s : State) (n : Nat) : s.launchActive n = active s n := by
  unfold State.launchActive active
  cases Tab.find s.launches n <;> rfl

theorem settled_eq_accessed (s : State) (c : Cont) : s.settled c = accessed s c := by
  unfold State.settled accessed
  rw [List.not_any_eq_all_not]
  congr 1
  · refine congrArg (List.all s.xfers) (funext fun x => ?_)
    cases x.2.kind <;> simp [bne]
  · cases c.src <;> rfl

theorem carriedNow_eq_carried (s : State) (c : Cont) : s.carriedNow c = carried s c := by
  unfold State.carriedNow carried
  cases c.src <;> rfl

theorem vacate_eq_emptied (t : State) (c : Cont) : t.vacate c = emptied c t := by
  unfold State.vacate emptied State.freeVisitor
  cases c.src with
  | none => rfl
  | some p => simp only [Bool.and_eq_true, Bool.not_eq_true', beq_iff_eq, List.isEmpty_iff, and_assoc]

/-- A departure reads registers again; it changes neither the home, nor the kind, nor the carry set. -/
theorem carried_keeps (s : State) (c : Cont) :
    (carried s c).home = c.home ∧ (carried s c).kind = c.kind ∧ (carried s c).carry = c.carry := by
  unfold carried
  split
  · exact ⟨rfl, rfl, rfl⟩
  · split <;> exact ⟨rfl, rfl, rfl⟩

/-! Departures (R123, R289, R293). -/

/-- An event has the effect of the table in a state that meets the table's condition. -/
def OccursIn (s : State) (i : Instr) : Prop := ∀ P t, heliostatSteps s i = some (P, t) → P → exec i s = .next t

theorem OccursIn.of_none {s : State} {i : Instr} (h : heliostatSteps s i = none) : OccursIn s i :=
  fun _ _ row => nomatch h.symm.trans row

/-- A departure that is not refused, or refused with reason 5. -/
theorem departure_eq_departed (s : State) (id : Nat) (c : Cont) :
    (let d := s.carriedNow c;
      (if d.strict && d.stale then s.refuseDeparture id d 5
      else { s with conts := Tab.put s.conts id d }.later (.continuationArrival id)).vacate c) = departed s id c := by
  simp only [departed, vacate_eq_emptied, carriedNow_eq_carried, State.refuseDeparture, State.dropCont, Bool.and_eq_true,
    beq_iff_eq]

theorem continuationDepart_occurs (s : State) (id : Nat) : OccursIn s (.continuationDepart id) := by
  intro P t row ok
  simp only [heliostatSteps] at row
  obtain ⟨c, found, row⟩ := Option.map_eq_some_iff.mp row
  cases row
  obtain ⟨runs, sound⟩ := ok
  have no_error : (c.src.any fun p => s.badCarry p.1 c.carry) = false := by
    cases src : c.src with
    | none => rfl
    | some p => exact sound p.1 p.2 src
  show execContinuationDepart id s = _
  simp only [execContinuationDepart, found, launchActive_eq_active, runs, settled_eq_accessed, no_error, Bool.not_true,
    Bool.false_eq_true, if_false]
  cases done : accessed s c with
  | false => rfl
  | true => exact congrArg Host.Outcome.next (departure_eq_departed s id c)

/-! Refusals at the destination (R293). -/

theorem refuseCont_eq_turnedBack (s : State) (id : Nat) (c : Cont) (r : Nat) :
    s.tick.refuseCont id c r = turnedBack s id c r := rfl

theorem continuationArrival_occurs (s : State) (id : Nat) : OccursIn s (.continuationArrival id) := by
  intro P t row ok
  simp only [heliostatSteps] at row
  obtain ⟨c, found, row⟩ := Option.bind_eq_some_iff.mp row
  show execContinuationArrival id s = _
  cases berth : s.berth c with
  | error r =>
    rw [berth] at row
    cases row
    simp only [execContinuationArrival, found, launchActive_eq_active, show active s c.launch = true from ok, berth,
      Bool.not_true, Bool.false_eq_true, if_false, refuseCont_eq_turnedBack]
  | ok b =>
    rw [berth] at row
    cases row
    obtain ⟨runs, none_free⟩ := ok
    simp only [execContinuationArrival, found, launchActive_eq_active, runs, berth, State.land, none_free,
      Bool.not_true, Bool.false_eq_true, if_false]

/-! Returns that no window takes (R292). -/

theorem applyReturn_of_no_window {s : State} {c : Cont}
    (none_takes : ∀ y w, Tab.find s.sheaves c.home = some y → y.win = some w → y.belongs c = false) :
    s.applyReturn c = s := by
  unfold State.applyReturn
  dsimp only
  split
  · rfl
  · next y found =>
    split
    · rfl
    · next w window => simp only [none_takes y w found window, Bool.not_false, if_true]

theorem migrationReturn_occurs (s : State) (id : Nat) : OccursIn s (.migrationReturn id) := by
  intro P t row ok
  simp only [heliostatSteps] at row
  obtain ⟨c, found, row⟩ := Option.map_eq_some_iff.mp row
  cases row
  obtain ⟨runs, none_takes⟩ := ok
  show execMigrationReturn id s = _
  simp only [execMigrationReturn, found, launchActive_eq_active, runs, settled_eq_accessed, carriedNow_eq_carried,
    vacate_eq_emptied, Bool.not_true, Bool.false_eq_true, if_false]
  cases done : accessed s c with
  | false => rfl
  | true =>
    have ⟨at_home, _⟩ := carried_keeps s c
    have kept : (s.dropCont id).applyReturn (carried s c) = s.dropCont id :=
      applyReturn_of_no_window (by rw [at_home]; exact none_takes done)
    rw [kept]
    rfl

theorem heliostat_occurs (s : State) (i : Instr) : OccursIn s i := by
  cases i with
  | continuationDepart id => exact continuationDepart_occurs s id
  | continuationArrival id => exact continuationArrival_occurs s id
  | migrationReturn id => exact migrationReturn_occurs s id
  | _ => exact .of_none rfl

/-! What lists of register writes leave (R55, R56). -/

theorem lastOf_append {α : Type} (l : List (Nat × α)) (p : Nat × α) (r : Nat) :
    lastOf (l ++ [p]) r = if p.1 = r then some p.2 else lastOf l r := by
  rw [lastOf, List.reverse_append, List.reverse_singleton, List.singleton_append, List.find?_cons]
  by_cases same : p.1 = r
  · simp [same]
  · rw [if_neg same, beq_false_of_ne same, lastOf]

theorem vphys_isSome_iff (k : Nat) (y : Sheaf) (r : Nat) : (vphys k y r).isSome = true ↔ r < y.vcount := by
  unfold vphys Sheaf.vcount
  by_cases base : r < 64
  · simp only [if_pos base, Option.isSome_some, true_iff]
    omega
  · cases ext : y.ext with
    | none => simp [base]
    | some e =>
      simp only [if_neg base]
      by_cases held : r - 64 < e.size
      · simp only [if_pos held, Option.isSome_some, true_iff]
        omega
      · simp only [if_neg held, Option.isSome_none, Bool.false_eq_true, false_iff]
        omega

/-- The generations under which a place writes its registers are not 0x0000. -/
def live (s : State) (k : Nat) : Prop :=
  (s.sheaf k).baseGen ≠ 0 ∧ ∀ e, (s.sheaf k).ext = some e → e.gen ≠ 0

theorem vgen_ne_zero_of_live {s : State} {k r : Nat} (alive : live s k) (held : r < (s.sheaf k).vcount) :
    vgen (s.sheaf k) r ≠ 0 := by
  obtain ⟨base, ext⟩ := alive
  unfold vgen
  unfold Sheaf.vcount at held
  by_cases low : r < 64
  · rwa [if_pos low]
  · rw [if_neg low]
    cases e : (s.sheaf k).ext with
    | none => simp only [e] at held; omega
    | some x => exact ext x e

/-- A write of a vector register leaves a register with another home alone. -/
theorem readV_writeV_other {s : State} {k q r : Nat} (other : vphys k (s.sheaf k) q ≠ vphys k (s.sheaf k) r) (m : Word32)
    (f : Nat → Word32) (fmt : BitVec 4) : (s.writeV k r m f fmt).readV k q = s.readV k q := by
  have sheaf_eq : (s.writeV k r m f fmt).sheaf k = s.sheaf k := by simp only [State.sheaf, State.writeV_sheaves]
  have raw : (s.writeV k r m f fmt).vraw k q = s.vraw k q := by
    simp only [State.vraw, sheaf_eq]
    cases there : vphys k (s.sheaf k) q with
    | none => rfl
    | some j =>
      cases home : vphys k (s.sheaf k) r with
      | none => simp only [State.writeV, home, ite_self]
      | some i =>
        have apart : j ≠ i := fun same => other (by rw [there, home, same])
        simp only [State.writeV, home]
        split
        · rfl
        · exact Tab.get_put_other _ _ apart _
  have stale : (s.writeV k r m f fmt).staleReg k (.v q) = s.staleReg k (.v q) := by
    simp only [State.staleReg, raw, sheaf_eq]
  rw [State.readV, State.readV, stale, raw]

theorem readP_writeP_other (s : State) (k : Nat) {q r : Nat} (m x : Word32) (other : q ≠ r) :
    (s.writeP k r m x).readP k q = s.readP k q := by
  unfold State.writeP
  split
  · rfl
  · have raw : ∀ v bad, State.praw { s with pregs := Tab.put s.pregs (k * 8 + r) v, badWords := bad } k q = s.praw k q :=
      fun v bad => Tab.get_put_other _ _ (by omega) _
    simp only [State.readP, State.staleReg, raw]
    rfl

theorem getLsbD_mergeMask (m new old : Word32) {L : Nat} (hL : L < 32) :
    (mergeMask m new old).getLsbD L = if m.getLsbD L then new.getLsbD L else old.getLsbD L := by
  simp only [mergeMask, BitVec.getLsbD_or, BitVec.getLsbD_and, BitVec.getLsbD_not, hL, decide_true, Bool.true_and]
  cases m.getLsbD L <;> simp

/-- Writes of vector registers in the lanes of a mask, one after another. -/
def writesV (s : State) (k : Nat) (m : Word32) (l : List (Nat × BitVec 4 × Vector Word32 32)) : State :=
  l.foldl (fun t p => t.writeV k p.1 m (fun L => p.2.2.getD L 0) p.2.1) s

def writesS (s : State) (k : Nat) (l : List (Nat × Word64)) : State := l.foldl (fun t p => t.writeS k p.1 p.2) s

def writesP (s : State) (k : Nat) (m : Word32) (l : List (Nat × Word32)) : State :=
  l.foldl (fun t p => t.writeP k p.1 m p.2) s

/-- A part of a state that no write of a list changes is unchanged by the list. -/
theorem foldl_keeps {α β : Type} {f : State → α → State} (part : State → β) (keeps : ∀ t a, part (f t a) = part t)
    (l : List α) (s : State) : part (l.foldl f s) = part s := by
  induction l generalizing s with
  | nil => rfl
  | cons a l ih => exact (ih (f s a)).trans (keeps s a)

theorem sheaves_writesV (s : State) (k : Nat) (m : Word32) (l) : (writesV s k m l).sheaves = s.sheaves :=
  foldl_keeps State.sheaves (fun _ _ => State.writeV_sheaves ..) l s

theorem sheaves_writesS (s : State) (k : Nat) (l) : (writesS s k l).sheaves = s.sheaves :=
  foldl_keeps (f := fun t (p : Nat × Word64) => t.writeS k p.1 p.2) State.sheaves (fun _ _ => rfl) l s

theorem sheaves_writesP (s : State) (k : Nat) (m : Word32) (l) : (writesP s k m l).sheaves = s.sheaves :=
  foldl_keeps State.sheaves (fun _ _ => State.writeP_sheaves ..) l s

@[simp] theorem sheaf_writesV (s : State) (k : Nat) (m : Word32) (l) (j : Nat) : (writesV s k m l).sheaf j = s.sheaf j := by
  simp only [State.sheaf, sheaves_writesV]

@[simp] theorem sheaf_writesS (s : State) (k : Nat) (l) (j : Nat) : (writesS s k l).sheaf j = s.sheaf j := by
  simp only [State.sheaf, sheaves_writesS]

@[simp] theorem sheaf_writesP (s : State) (k : Nat) (m : Word32) (l) (j : Nat) : (writesP s k m l).sheaf j = s.sheaf j := by
  simp only [State.sheaf, sheaves_writesP]

theorem sregs_writesV (s : State) (k : Nat) (m : Word32) (l) : (writesV s k m l).sregs = s.sregs :=
  foldl_keeps State.sregs (fun _ _ => State.writeV_sregs ..) l s

theorem pregs_writesV (s : State) (k : Nat) (m : Word32) (l) : (writesV s k m l).pregs = s.pregs :=
  foldl_keeps State.pregs (fun _ _ => State.writeV_pregs ..) l s

theorem vregs_writesS (s : State) (k : Nat) (l) : (writesS s k l).vregs = s.vregs :=
  foldl_keeps (f := fun t (p : Nat × Word64) => t.writeS k p.1 p.2) State.vregs (fun _ _ => rfl) l s

theorem pregs_writesS (s : State) (k : Nat) (l) : (writesS s k l).pregs = s.pregs :=
  foldl_keeps (f := fun t (p : Nat × Word64) => t.writeS k p.1 p.2) State.pregs (fun _ _ => rfl) l s

theorem vregs_writesP (s : State) (k : Nat) (m : Word32) (l) : (writesP s k m l).vregs = s.vregs :=
  foldl_keeps State.vregs (fun _ _ => State.writeP_vregs ..) l s

theorem sregs_writesP (s : State) (k : Nat) (m : Word32) (l) : (writesP s k m l).sregs = s.sregs :=
  foldl_keeps State.sregs (fun _ _ => State.writeP_sregs ..) l s

/-! A read sees the writes of its own register file alone. -/

theorem readV_of_vregs {s t : State} {k : Nat} (regs : t.vregs = s.vregs) (sheaf : t.sheaf k = s.sheaf k) (r : Nat) :
    t.readV k r = s.readV k r := by
  have raw : t.vraw k r = s.vraw k r := by simp only [State.vraw, regs, sheaf]
  have stale : t.staleReg k (.v r) = s.staleReg k (.v r) := by simp only [State.staleReg, raw, sheaf]
  rw [State.readV, State.readV, stale, raw]

theorem readS_of_sregs {s t : State} {k : Nat} (regs : t.sregs = s.sregs) (sheaf : t.sheaf k = s.sheaf k) (r : Nat) :
    t.readS k r = s.readS k r := by
  have raw : t.sraw k r = s.sraw k r := by simp only [State.sraw, regs]
  have stale : t.staleReg k (.s r) = s.staleReg k (.s r) := by simp only [State.staleReg, raw, sheaf]
  rw [State.readS, State.readS, stale, raw]

theorem readP_of_pregs {s t : State} {k : Nat} (regs : t.pregs = s.pregs) (sheaf : t.sheaf k = s.sheaf k) (r : Nat) :
    t.readP k r = s.readP k r := by
  have raw : t.praw k r = s.praw k r := by simp only [State.praw, regs]
  have stale : t.staleReg k (.p r) = s.staleReg k (.p r) := by simp only [State.staleReg, raw, sheaf]
  rw [State.readP, State.readP, stale, raw]

@[simp] theorem readV_writesS (s : State) (k : Nat) (l) (r : Nat) : (writesS s k l).readV k r = s.readV k r :=
  readV_of_vregs (vregs_writesS ..) (sheaf_writesS ..) r

@[simp] theorem readV_writesP (s : State) (k : Nat) (m : Word32) (l) (r : Nat) : (writesP s k m l).readV k r = s.readV k r :=
  readV_of_vregs (vregs_writesP ..) (sheaf_writesP ..) r

@[simp] theorem readS_writesV (s : State) (k : Nat) (m : Word32) (l) (r : Nat) : (writesV s k m l).readS k r = s.readS k r :=
  readS_of_sregs (sregs_writesV ..) (sheaf_writesV ..) r

@[simp] theorem readS_writesP (s : State) (k : Nat) (m : Word32) (l) (r : Nat) : (writesP s k m l).readS k r = s.readS k r :=
  readS_of_sregs (sregs_writesP ..) (sheaf_writesP ..) r

@[simp] theorem readP_writesV (s : State) (k : Nat) (m : Word32) (l) (r : Nat) : (writesV s k m l).readP k r = s.readP k r :=
  readP_of_pregs (pregs_writesV ..) (sheaf_writesV ..) r

@[simp] theorem readP_writesS (s : State) (k : Nat) (l) (r : Nat) : (writesS s k l).readP k r = s.readP k r :=
  readP_of_pregs (pregs_writesS ..) (sheaf_writesS ..) r

/-- Under an empty mask a register keeps its lanes, whatever was to be written. -/
theorem elim_of_empty {α β : Type} (o : Option α) (old : β) (new : α → β) (L : Nat) :
    (o.elim old fun e => if (0 : Word32).getLsbD L then new e else old) = old := by
  cases o with
  | none => rfl
  | some e => exact if_neg (by simp)

/-- A register of vectors after writes of a list: the last value of the list in the lanes of the mask, with its format tag. -/
theorem readV_writesV {s : State} {k r : Nat} (alive : live s k) (own : apart s k) (held : r < (s.sheaf k).vcount) (m : Word32)
    (l : List (Nat × BitVec 4 × Vector Word32 32)) :
    (∀ L, L < 32 → (writesV s k m l).laneV k r L =
      (lastOf l r).elim (s.laneV k r L) fun e => if m.getLsbD L then e.2.getD L 0 else s.laneV k r L) ∧
    ∀ e, lastOf l r = some e → m ≠ 0 → ((writesV s k m l).readV k r).fmt = e.1 := by
  induction l using List.reverseRecOn with
  | nil => exact ⟨fun _ _ => rfl, nofun⟩
  | append_singleton l p ih =>
    obtain ⟨lanes, tag⟩ := ih
    have sheaf : (writesV s k m l).sheaf k = s.sheaf k := sheaf_writesV ..
    have step : writesV s k m (l ++ [p]) =
        (writesV s k m l).writeV k p.1 m (fun L => p.2.2.getD L 0) p.2.1 := List.foldl_concat ..
    rw [step, lastOf_append]
    by_cases none_written : m = 0
    · subst none_written
      rw [State.writeV_empty]
      refine ⟨fun L hL => ?_, fun _ _ nonempty => absurd rfl nonempty⟩
      rw [lanes L hL, elim_of_empty, elim_of_empty]
    by_cases same : p.1 = r
    · subst same
      have home : (vphys k ((writesV s k m l).sheaf k) p.1).isSome = true := by
        rw [sheaf]
        exact (vphys_isSome_iff _ _ _).mpr held
      have gen : vgen ((writesV s k m l).sheaf k) p.1 ≠ 0 := by
        rw [sheaf]
        exact vgen_ne_zero_of_live alive held
      have read := State.readV_writeV_same (writesV s k m l) k p.1 m (fun L => p.2.2.getD L 0) p.2.1 none_written home gen
      rw [if_pos rfl]
      refine ⟨fun L hL => ?_, fun e last _ => ?_⟩
      · rw [State.laneV, read, ResetAndLanes.vec32_getD _ hL, Option.elim_some]
        by_cases bit : m.getLsbD L = true
        · rw [if_pos bit, if_pos bit]
        · rw [if_neg bit, if_neg bit]
          refine (lanes L hL).trans ?_
          cases lastOf l p.1 with
          | none => rfl
          | some e => exact if_neg bit
      · cases last
        rw [read]
    · have homes : vphys k ((writesV s k m l).sheaf k) r ≠ vphys k ((writesV s k m l).sheaf k) p.1 := by
        rw [sheaf]
        intro shared
        have held' := (vphys_isSome_iff _ _ _).mp (shared ▸ (vphys_isSome_iff _ _ _).mpr held)
        exact same (own _ _ held' held shared.symm)
      rw [if_neg same]
      simp only [State.laneV, readV_writeV_other homes]
      exact ⟨lanes, tag⟩

theorem readS_writesS {s : State} {k : Nat} (base : (s.sheaf k).baseGen ≠ 0) (l : List (Nat × Word64)) (r : Nat) :
    (writesS s k l).readS k r = (lastOf l r).getD (s.readS k r) := by
  induction l using List.reverseRecOn with
  | nil => rfl
  | append_singleton l p ih =>
    have step : writesS s k (l ++ [p]) = (writesS s k l).writeS k p.1 p.2 := List.foldl_concat ..
    rw [step, lastOf_append]
    by_cases same : p.1 = r
    · subst same
      rw [if_pos rfl, Option.getD_some]
      exact State.readS_writeS_same _ _ _ _ (by rwa [sheaf_writesS])
    · rw [if_neg same, State.readS_writeS_other _ _ _ (Ne.symm same), ih]

theorem readP_writesP {s : State} {k : Nat} (base : (s.sheaf k).baseGen ≠ 0) (m : Word32) (l : List (Nat × Word32)) {r L : Nat}
    (written : r < 7) (hL : L < 32) : ((writesP s k m l).readP k r).getLsbD L = (lastOf l r).elim ((s.readP k r).getLsbD L)
      fun v => if m.getLsbD L then v.getLsbD L else (s.readP k r).getLsbD L := by
  induction l using List.reverseRecOn with
  | nil => rfl
  | append_singleton l p ih =>
    have step : writesP s k m (l ++ [p]) = (writesP s k m l).writeP k p.1 m p.2 := List.foldl_concat ..
    rw [step, lastOf_append]
    by_cases none_written : m = 0
    · subst none_written
      rw [State.writeP_empty, ih, elim_of_empty, elim_of_empty]
    by_cases same : p.1 = r
    · subst same
      rw [if_pos rfl, Option.elim_some,
        State.readP_writeP_same _ _ _ _ _ (by omega) none_written (by rwa [sheaf_writesP]), getLsbD_mergeMask _ _ _ hL]
      by_cases bit : m.getLsbD L = true
      · rw [if_pos bit, if_pos bit]
      · rw [if_neg bit, if_neg bit, ih]
        cases lastOf l p.1 with
        | none => rfl
        | some v => exact if_neg bit
    · rw [if_neg same, readP_writeP_other _ _ _ _ (Ne.symm same), ih]

section

variable {s t : State} {k : Nat} {m : Word32} {vs : List (Nat × BitVec 4 × Vector Word32 32)} {ss : List (Nat × Word64)}
  {ps : List (Nat × Word32)}

/-- What has been written, from what is read of each register file. -/
theorem wrote_of_reads (alive : live s k) (own : apart s k) (sheaf : t.sheaf k = s.sheaf k)
    (readV : ∀ r, t.readV k r = (writesV s k m vs).readV k r)
    (readS : ∀ r, t.readS k r = (lastOf ss r).getD (s.readS k r))
    (readP : ∀ r L, r < 7 → L < 32 → (t.readP k r).getLsbD L = (lastOf ps r).elim ((s.readP k r).getLsbD L)
      fun v => if m.getLsbD L then v.getLsbD L else (s.readP k r).getLsbD L) : wrote s t k m vs ss ps := by
  have written {r} (held : r < (t.sheaf k).vcount) := readV_writesV alive own (sheaf ▸ held) m vs
  refine ⟨fun r L held hL => ?_, fun r e held last nonempty => ?_, fun r _ => readS r, fun r L isPred hL => ?_⟩
  · obtain ⟨lanes, -⟩ := written held
    rw [State.laneV, readV]
    refine (lanes L hL).trans ?_
    cases lastOf vs r <;> rfl
  · obtain ⟨-, tag⟩ := written held
    rw [readV]
    exact tag e last nonempty
  · rw [readP r L isPred hL]
    cases lastOf ps r <;> rfl

/-- The order of the writes of an arrival. -/
theorem wrote_vectors_scalars_predicates (alive : live s k) (own : apart s k) :
    wrote s (writesP (writesS (writesV s k m vs) k ss) k m ps) k m vs ss ps := by
  have ⟨base, _⟩ := alive
  refine wrote_of_reads alive own (by simp) (fun r => by simp) (fun r => ?_) fun r L isPred hL => ?_
  · rw [readS_writesP, readS_writesS (by rwa [sheaf_writesV]), readS_writesV]
  · rw [readP_writesP (by rwa [sheaf_writesS, sheaf_writesV]) m ps isPred hL, readP_writesS, readP_writesV]

/-- The order of the writes of a return. -/
theorem wrote_vectors_predicates_scalars (alive : live s k) (own : apart s k) :
    wrote s (writesS (writesP (writesV s k m vs) k m ps) k ss) k m vs ss ps := by
  have ⟨base, _⟩ := alive
  refine wrote_of_reads alive own (by simp) (fun r => by simp) (fun r => ?_) fun r L isPred hL => ?_
  · rw [readS_writesS (by rwa [sheaf_writesP, sheaf_writesV]), readS_writesP, readS_writesV]
  · rw [readP_writesS, readP_writesP (by rwa [sheaf_writesV]) m ps isPred hL, readP_writesV]

/-! Reads depend on where the registers of a place lie. -/

theorem vcount_of_regView (view : (t.sheaf k).regView = (s.sheaf k).regView) : (t.sheaf k).vcount = (s.sheaf k).vcount := by
  have ext : (t.sheaf k).ext = (s.sheaf k).ext := congrArg (·.2.1) view
  rw [Sheaf.vcount, Sheaf.vcount, ext]

theorem apart_of_regView (view : (t.sheaf k).regView = (s.sheaf k).regView) (own : apart t k) : apart s k := by
  have ext : (t.sheaf k).ext = (s.sheaf k).ext := congrArg (·.2.1) view
  have vbase : (t.sheaf k).vbase = (s.sheaf k).vbase := congrArg (·.2.2) view
  intro p q
  have each := own p q
  simp only [vcount_of_regView view, vphys, ext, vbase] at each
  exact each

/-- What has been written depends on the registers alone. -/
theorem wrote_of_sameRegs {s' t' : State} (before : s.sameRegs s' k) (after : t.sameRegs t' k) (h : wrote s' t k m vs ss ps) :
    wrote s t' k m vs ss ps := by
  obtain ⟨lanes, tags, scalars, preds⟩ := h
  have ⟨_, _, _, view⟩ := after
  refine ⟨fun r L held hL => ?_, fun r e held last nonempty => ?_, fun r hr => ?_, fun r L hr hL => ?_⟩
  · rw [vcount_of_regView view] at held
    have lane := lanes r L held hL
    simp only [State.laneV, before.readV] at lane ⊢
    rw [after.readV]
    exact lane
  · rw [vcount_of_regView view] at held
    rw [after.readV]
    exact tags r e held last nonempty
  · rw [after.readS, scalars r hr, before.readS]
  · have lane := preds r L hr hL
    simp only [before.readP] at lane
    rw [after.readP]
    exact lane

end

/-! Arrivals (R293, R295). -/

/-- The blocks of a berth are held. -/
def holdBlocks (s : State) (b : Berth) (c : Cont) : State := match b.base with
  | none => s
  | some a => s.modCore (unitOf b.place) fun y =>
    let t := Tab.put y.blocks a 64
    { y with blocks := match b.ext with
        | none => t
        | some e => Tab.put t e (xblkSize c.xblk) }

/-- The sheaf of a continuation where it lands. -/
def guest (home : Sheaf) (c : Cont) (b : Berth) (g : Gen) : Sheaf := match c.frozen with
  | none => visitor home c b g
  | some f => (visitor home c b g).thaw f

theorem guest_of_none {c : Cont} (frozen : c.frozen = none) (home : Sheaf) (b : Berth) (g : Gen) :
    guest home c b g = visitor home c b g := by rw [guest, frozen]

theorem guest_of_some {c : Cont} {f : Frozen} (frozen : c.frozen = some f) (home : Sheaf) (b : Berth) (g : Gen) :
    guest home c b g = (visitor home c b g).thaw f := by rw [guest, frozen]

/-- The lanes in which a continuation brings registers. -/
def landMask (c : Cont) : Word32 := if c.frozen.isSome then 0xFFFFFFFF else c.mask

theorem landRegs_eq_writes (s : State) (k : Nat) (c : Cont) : s.landRegs k c =
    writesP (writesS (writesV s k (landMask c) (broughtV c)) k (broughtS c)) k (landMask c) (broughtP c) := by
  unfold State.landRegs landMask broughtV broughtS broughtP
  cases c.frozen with
  | none => rfl
  | some f => simp only [writesV, List.foldl_map]; rfl

/-- A berth with its sheaf, before registers are written. -/
def housed (s : State) (id : Nat) (c : Cont) (b : Berth) (g : Gen) : State :=
  let u := holdBlocks (s.dropCont id) b c
  u.setSheaf b.place (guest (u.sheaf c.home) c b g)

/-- The state in which a continuation has been accepted under a generation. -/
def landed (s : State) (id : Nat) (c : Cont) (b : Berth) (g : Gen) : State :=
  let u := (housed s id c b g).landRegs b.place c
  let w := if nearMem b.place then u else u.dropCtx (unitOf b.place) c.ctx
  if w.stopped c.home then w.recallFrag b.place else w

theorem land_eq_landed {s v : State} {c : Cont} {b : Berth} {g : Gen} (id : Nat)
    (issued : s.issueGen (genKey b.place) = some (g, v)) : s.land id c b = some (landed v id c b g) := by
  unfold State.land
  rw [issued]
  rfl

theorem arrival_eq_landed {s v : State} {id : Nat} {c : Cont} {b : Berth} {g : Gen} (found : Tab.find s.conts id = some c)
    (runs : active s c.launch = true) (berth : s.berth c = .ok b) (issued : s.issueGen (genKey b.place) = some (g, v)) :
    exec (.continuationArrival id) s = .next (landed v id c b g) := by
  show execContinuationArrival id s = _
  simp only [execContinuationArrival, found, launchActive_eq_active, runs, berth, land_eq_landed id issued, Bool.not_true,
    Bool.false_eq_true, if_false]

/-- Issuing a generation touches its counter alone. -/
theorem issueGen_keeps {s v : State} {key : Nat} {g : Gen} (issued : s.issueGen key = some (g, v)) :
    v.conts = s.conts ∧ v.sheaves = s.sheaves ∧ v.vregs = s.vregs ∧ v.sregs = s.sregs ∧ v.pregs = s.pregs := by
  unfold State.issueGen at issued
  split at issued
  · cases issued
  · cases issued
    exact ⟨rfl, rfl, rfl, rfl, rfl⟩

/-- Holding blocks touches a core alone. -/
theorem holdBlocks_keeps (s : State) (b : Berth) (c : Cont) :
    (holdBlocks s b c).conts = s.conts ∧ (holdBlocks s b c).sheaves = s.sheaves ∧ (holdBlocks s b c).vregs = s.vregs ∧
      (holdBlocks s b c).sregs = s.sregs ∧ (holdBlocks s b c).pregs = s.pregs := by
  unfold holdBlocks
  split <;> exact ⟨rfl, rfl, rfl, rfl, rfl⟩

/-- A sheaf whose fragment is recalled, or not, at a time. -/
def recalledAt (r : Option Nat) (y : Sheaf) : Sheaf := { y with frag := y.frag.map fun f => { f with recalled := r } }

theorem recalledAt_none_guest (home : Sheaf) (c : Cont) (b : Berth) (g : Gen) :
    recalledAt none (guest home c b g) = guest home c b g := by
  unfold guest
  cases c.frozen <;> rfl

theorem sheaves_landRegs (s : State) (k : Nat) (c : Cont) : (s.landRegs k c).sheaves = s.sheaves := by
  rw [landRegs_eq_writes, sheaves_writesP, sheaves_writesS, sheaves_writesV]

theorem conts_landRegs (s : State) (k : Nat) (c : Cont) : (s.landRegs k c).conts = s.conts := by
  rw [landRegs_eq_writes]
  calc (writesP (writesS (writesV s k (landMask c) (broughtV c)) k (broughtS c)) k (landMask c) (broughtP c)).conts
      = (writesS (writesV s k (landMask c) (broughtV c)) k (broughtS c)).conts :=
        foldl_keeps State.conts (fun _ _ => State.writeP_conts ..) ..
    _ = (writesV s k (landMask c) (broughtV c)).conts :=
        foldl_keeps (f := fun t (p : Nat × Word64) => t.writeS k p.1 p.2) State.conts (fun _ _ => rfl) ..
    _ = s.conts := foldl_keeps State.conts (fun _ _ => State.writeV_conts ..) ..

/-- What follows the registers of an arrival: lines are discarded, and the fragment is recalled where its home has been stopped.
Neither touches continuations or registers. -/
theorem after_landRegs (u : State) (k : Nat) (c : Cont) {y : Sheaf} (found : Tab.find u.sheaves k = some y)
    (fresh : recalledAt none y = y) :
    let w := if nearMem k then u else u.dropCtx (unitOf k) c.ctx
    let t := if w.stopped c.home then w.recallFrag k else w
    t.conts = u.conts ∧ u.sameRegs t k ∧ ∃ r, t.sheaf k = recalledAt r y := by
  intro w t
  have kept : w.sheaves = u.sheaves ∧ w.vregs = u.vregs ∧ w.sregs = u.sregs ∧ w.pregs = u.pregs ∧ w.conts = u.conts := by
    unfold w State.dropCtx
    split
    · exact ⟨rfl, rfl, rfl, rfl, rfl⟩
    · split <;> exact ⟨rfl, rfl, rfl, rfl, rfl⟩
  obtain ⟨sheaves, vregs, sregs, pregs, conts⟩ := kept
  have found_w : Tab.find w.sheaves k = some y := sheaves ▸ found
  have same : u.sameRegs w k := ⟨vregs, sregs, pregs, by simp only [State.sheaf, sheaves]⟩
  unfold t
  split
  · refine ⟨conts, same.trans (w.sameRegs_modSheaf k k _ fun _ => rfl), some ((y.frag.bind (·.recalled)).getD w.nanos), ?_⟩
    refine (w.sheaf_modSheaf_same found_w _).trans ?_
    unfold recalledAt
    cases y.frag <;> rfl
  · exact ⟨conts, same, none, (w.sheaf_of_find found_w).trans fresh.symm⟩

theorem find_housed (s : State) (id : Nat) (c : Cont) (b : Berth) (g : Gen) :
    Tab.find (housed s id c b g).sheaves b.place = some (guest (s.sheaf c.home) c b g) := by
  obtain ⟨-, sheaves, -⟩ := holdBlocks_keeps (s.dropCont id) b c
  refine (Tab.find_put_same _ _ _).trans (congrArg (fun y => some (guest y c b g)) ?_)
  rw [State.sheaf, sheaves]
  rfl

/-- An accepted continuation is gone, its sheaf stands in the berth, and its registers are written there. -/
theorem landed_spec (s : State) (id : Nat) (c : Cont) (b : Berth) (g : Gen) :
    (landed s id c b g).conts = Tab.del s.conts id ∧
      ((housed s id c b g).landRegs b.place c).sameRegs (landed s id c b g) b.place ∧
      ∃ r, (landed s id c b g).sheaf b.place = recalledAt r (guest (s.sheaf c.home) c b g) := by
  have found : Tab.find ((housed s id c b g).landRegs b.place c).sheaves b.place = some (guest (s.sheaf c.home) c b g) := by
    rw [sheaves_landRegs, find_housed]
  obtain ⟨conts, same, sheaf⟩ := after_landRegs _ b.place c found (recalledAt_none_guest ..)
  refine ⟨conts.trans ?_, same, sheaf⟩
  obtain ⟨kept, -⟩ := holdBlocks_keeps (s.dropCont id) b c
  rw [conts_landRegs]
  exact kept

theorem live_housed (s : State) (id : Nat) (c : Cont) (b : Berth) {g : Gen} (some_gen : g ≠ 0) :
    live (housed s id c b g) b.place := by
  have fields : (guest (s.sheaf c.home) c b g).baseGen = g ∧
      (guest (s.sheaf c.home) c b g).ext = b.ext.map fun e => ExtBlk.mk e (xblkSize c.xblk) g := by
    unfold guest
    cases c.frozen <;> exact ⟨rfl, rfl⟩
  obtain ⟨base, ext⟩ := fields
  rw [live, State.sheaf_of_find _ (find_housed s id c b g), base, ext]
  refine ⟨some_gen, fun e he => ?_⟩
  obtain ⟨a, -, rfl⟩ := Option.map_eq_some_iff.mp he
  exact some_gen

theorem sheaf_setSheaf_same (s : State) (k : Nat) (y : Sheaf) : (s.setSheaf k y).sheaf k = y := Tab.get_put_same ..

theorem wrote_landed {s v : State} {id : Nat} {c : Cont} {b : Berth} {g : Gen} (issued : s.issueGen (genKey b.place) = some (g, v))
    (own : apart (landed v id c b g) b.place) (some_gen : g ≠ 0) :
    wrote (s.setSheaf b.place ((landed v id c b g).sheaf b.place)) (landed v id c b g) b.place (landMask c) (broughtV c)
      (broughtS c) (broughtP c) := by
  obtain ⟨-, after, r, sheaf⟩ := landed_spec v id c b g
  obtain ⟨-, -, vregs, sregs, pregs⟩ := issueGen_keeps issued
  obtain ⟨-, -, heldV, heldS, heldP⟩ := holdBlocks_keeps (v.dropCont id) b c
  have view : ((landed v id c b g).sheaf b.place).regView = ((housed v id c b g).sheaf b.place).regView := by
    rw [sheaf, State.sheaf_of_find _ (find_housed v id c b g)]
    rfl
  have before : (s.setSheaf b.place ((landed v id c b g).sheaf b.place)).sameRegs (housed v id c b g) b.place :=
    ⟨heldV.trans vregs, heldS.trans sregs, heldP.trans pregs, by rw [sheaf_setSheaf_same, view]⟩
  rw [landRegs_eq_writes] at after
  exact wrote_of_sameRegs before after
    (wrote_vectors_scalars_predicates (live_housed v id c b some_gen) (apart_of_regView view own))

/-- An accepted continuation has the fields of its sheaf, whether or not it is recalled at once. -/
theorem lands : Lands := by
  intro s id c b g v found runs berth issued
  obtain ⟨conts, -, r, sheaf⟩ := landed_spec v id c b g
  obtain ⟨kept, sheaves, -⟩ := issueGen_keeps issued
  refine ⟨landed v id c b g, arrival_eq_landed found runs berth issued, by rw [conts, kept], ?_⟩
  have home : v.sheaf c.home = s.sheaf c.home := by rw [State.sheaf, State.sheaf, sheaves]
  have written := wrote_landed (id := id) (c := c) issued
  rw [home] at sheaf
  dsimp only
  rw [sheaf] at written ⊢
  cases frozen : c.frozen with
  | none =>
    rw [landMask, frozen] at written
    rw [guest_of_none frozen] at written ⊢
    exact ⟨rfl, rfl, rfl, rfl, rfl, rfl, rfl, rfl, rfl, rfl, ⟨_, rfl, rfl, rfl, rfl, rfl, rfl, rfl, rfl, rfl, rfl⟩,
      ⟨rfl, rfl, rfl, rfl, rfl, rfl, rfl, rfl⟩, written⟩
  | some f =>
    rw [landMask, frozen] at written
    rw [guest_of_some frozen] at written ⊢
    exact ⟨rfl, rfl, rfl, rfl, rfl, rfl, rfl, rfl, rfl, rfl, ⟨_, rfl, rfl, rfl, rfl, rfl, rfl, rfl, rfl, rfl, rfl⟩,
      ⟨rfl, rfl, rfl, rfl, rfl, rfl⟩, written⟩

/-! Returns (R292, R298). -/

theorem returnScalars_eq_scalars (w : Window) (c : Cont) : returnScalars w c = scalars w c := by
  refine List.filter_congr fun p _ => Bool.eq_iff_iff.mpr ?_
  simp [imp_iff_not_or]

/-- The registers of a return, before its window notes them. -/
def returned (s : State) (k : Nat) (w : Window) (c : Cont) : State :=
  writesS (writesP (writesV s k c.mask (c.vregs.filter fun p => c.kind ≠ 1 ∨ c.wb.v.getLsbD p.1 = true)) k c.mask
    (c.pregs.filter fun p => c.kind ≠ 1 ∨ c.wb.p.getLsbD p.1 = true)) k (scalars w c)

/-- Writes of a list that are made under a condition are the writes of those that meet it. -/
theorem foldl_guarded {α β : Type} (p : α → Prop) [DecidablePred p] (f : β → α → β) (l : List α) (b : β) :
    l.foldl (fun b a => if p a then f b a else b) b = (l.filter fun a => p a).foldl f b := by
  rw [List.foldl_filter]
  simp only [decide_eq_true_eq]

theorem returnRegs_eq_returned (s : State) (k : Nat) (w : Window) (c : Cont) : s.returnRegs k w c =
    (returned s k w c).modSheaf k fun y => { y with win := y.win.map fun z =>
      { z with scal := (scalars w c).map (fun p => (p.1, lowest c.mask)) ++
        z.scal.filter fun q => (scalars w c).all fun p => p.1 != q.1 } } := by
  unfold State.returnRegs returned writesV writesP writesS
  simp only [foldl_guarded, returnScalars_eq_scalars]

/-- A return that its window takes. -/
theorem applyReturn_of_taken {s : State} {c : Cont} {y : Sheaf} {w : Window} (found : Tab.find s.sheaves c.home = some y)
    (window : y.win = some w) (takes : y.belongs c = true) (sound : c.kind ≠ 4 → s.badCarry c.home c.carry = false) :
    s.applyReturn c = if c.kind = 4 then
        (s.returnRegs c.home w c).modSpan y.span fun p => { p with recalls := p.recalls ++ [c] }
      else backTo c w (s.returnRegs c.home w c) := by
  unfold State.applyReturn
  simp only [found, window, takes, Bool.not_true, Bool.false_eq_true, if_false]
  by_cases resent : c.kind = 4
  · simp only [if_pos resent]
  · simp only [if_neg resent, sound resent, Bool.false_eq_true, if_false]
    rfl

/-- A part of a state that no register write changes. -/
theorem returned_keeps {β : Type} (part : State → β) (keepsV : ∀ t k r m f fmt, part (State.writeV t k r m f fmt) = part t)
    (keepsS : ∀ t k r x, part (State.writeS t k r x) = part t) (keepsP : ∀ t k r m x, part (State.writeP t k r m x) = part t)
    (s : State) (k : Nat) (w : Window) (c : Cont) : part (returned s k w c) = part s := by
  unfold returned writesS writesP writesV
  rw [foldl_keeps part fun _ _ => keepsS .., foldl_keeps part fun _ _ => keepsP .., foldl_keeps part fun _ _ => keepsV ..]

theorem sheaves_returned (s : State) (k : Nat) (w : Window) (c : Cont) : (returned s k w c).sheaves = s.sheaves := by
  unfold returned
  rw [sheaves_writesS, sheaves_writesP, sheaves_writesV]

/-- The registers are written by `returnRegs`; the rest of the step is that of `applyReturn` where the window takes the return. -/
theorem returns : Returns := by
  intro s id c y w found runs done home window takes base ext sound own d
  have stands : s.sheaf c.home = y := s.sheaf_of_find home
  have alive : live (s.dropCont id) c.home := by
    show (s.sheaf c.home).baseGen ≠ 0 ∧ ∀ e, (s.sheaf c.home).ext = some e → e.gen ≠ 0
    rw [stands]
    exact ⟨base, ext⟩
  have kept : (returned (s.dropCont id) c.home w d).sameRegs ((s.dropCont id).returnRegs c.home w d) c.home := by
    rw [returnRegs_eq_returned]
    exact State.sameRegs_modSheaf _ _ _ _ fun _ => rfl
  refine ⟨(s.dropCont id).returnRegs c.home w d, ?_, ?_, ?_, ?_, ?_, ?_⟩
  · exact wrote_of_sameRegs ⟨rfl, rfl, rfl, rfl⟩ kept (wrote_vectors_predicates_scalars alive own)
  · rw [returnRegs_eq_returned]
    exact returned_keeps State.conts State.writeV_conts State.writeS_conts State.writeP_conts ..
  · rw [returnRegs_eq_returned]
    exact returned_keeps State.mem State.writeV_mem State.writeS_mem State.writeP_mem ..
  · rw [returnRegs_eq_returned]
    exact returned_keeps State.tags State.writeV_tags State.writeS_tags State.writeP_tags ..
  · rw [returnRegs_eq_returned, State.modSheaf_sheaves, Tab.find_mod_same, sheaves_returned]
    show (Tab.find s.sheaves c.home).map _ = _
    rw [home, Option.map_some, window]
    rfl
  · have run : (s.dropCont id).applyReturn d = if d.kind = 4 then
        ((s.dropCont id).returnRegs c.home w d).modSpan y.span fun p => { p with recalls := p.recalls ++ [d] }
      else backTo d w ((s.dropCont id).returnRegs c.home w d) := by
      have ⟨(at_home : d.home = c.home), (of_kind : d.kind = c.kind), (of_carry : d.carry = c.carry)⟩ := carried_keeps s c
      rw [← at_home] at home sound ⊢
      rw [← of_kind, ← of_carry] at sound
      exact applyReturn_of_taken home window takes sound
    show execMigrationReturn id s = _
    simp only [execMigrationReturn, found, launchActive_eq_active, runs, settled_eq_accessed, done, carriedNow_eq_carried,
      vacate_eq_emptied, Bool.not_true, Bool.false_eq_true, if_false]
    exact congrArg (fun t => Host.Outcome.next (emptied c t)) run

/-- Settles O22: the rows of the table, what an accepted continuation holds, and what a return writes. -/
theorem heliostatSteps : Obligations.HeliostatSteps :=
  ⟨fun i s => heliostat_occurs s i, lands, returns⟩

end Sys2Proof.Proofs.Heliostat
end

section
/-!
PROOFS. Float formats (`Obligations.RoundExact`): an encoding as its fields, what each kind of encoding decodes to, and the
rounding of each such value.
-/

namespace Sys2Proof.Proofs.Formats

open Sys2Proof Sys2Proof.Machine Sys2Proof.Claims

/-- An encoding is its sign, exponent field and mantissa (R70). -/
theorem encoding_eq_fields (f : Fmt) {x : Nat} (hx : x < 2 ^ (f.e + f.m + 1)) :
    x = f.sign (x / 2 ^ (f.m + f.e) % 2 == 1) + (x / 2 ^ f.m % 2 ^ f.e * 2 ^ f.m + x % 2 ^ f.m) := by
  have low : x / 2 ^ f.m % 2 ^ f.e * 2 ^ f.m + x % 2 ^ f.m = x % 2 ^ (f.m + f.e) := by
    rw [pow_add, Nat.mod_mul, Nat.mul_comm, Nat.add_comm]
  have high : x / 2 ^ (f.m + f.e) < 2 := by
    rw [Nat.div_lt_iff_lt_mul (by positivity), ← pow_succ', Nat.add_comm f.m]
    exact hx
  have split := Nat.div_add_mod x (2 ^ (f.m + f.e))
  rw [low, Fmt.sign, Nat.add_comm f.e]
  obtain h | h := Nat.le_one_iff_eq_zero_or_eq_one.mp (Nat.le_of_lt_succ high)
  · rw [h] at split ⊢
    simpa using split.symm
  · rw [h] at split ⊢
    simpa using split.symm

/-- A value that is a multiple m of its own unit 2^u, with u the unit of its binade, keeps m when it is rounded (R74). -/
theorem round_of_unit (f : Fmt) (mode : Rnd) (draw : Nat) (neg : Bool) {m enc : Nat} {u : Int} (some1 : m ≠ 0)
    (unit : u = (if (Nat.log2 m : Int) + u < 1 - f.bias then 1 - f.bias else (Nat.log2 m : Int) + u) - f.m)
    (encodes : (if m < 2 ^ f.m then m else (u + f.m + f.bias - 1).toNat * 2 ^ f.m + m) = enc)
    (bounded : (Nat.log2 m : Int) + u ≤ (2 ^ f.e : Nat) - f.bias + 1) (fits : enc ≤ f.maxFin) :
    f.round mode draw false (.fin neg m u) = f.sign neg + enc := by
  have whole : roundMag mode draw neg m u u = m := by simp [roundMag]
  simp only [Fmt.round, if_neg some1, if_neg (Int.not_lt.mpr bounded), ← unit, whole, encodes, if_neg (Nat.not_lt.mpr fits)]

/-- An exponent field and mantissa that are no infinity and no NaN lie within the finite encodings (R72). -/
theorem fields_le_maxFin (f : Fmt) {m e : Nat} (hm : m < 2 ^ f.m) (he : e < 2 ^ f.e)
    (finite : ¬ (f.kind = .ieee ∧ e = 2 ^ f.e - 1)) (number : ¬ (f.kind = .nanOnly ∧ e = 2 ^ f.e - 1 ∧ m = 2 ^ f.m - 1)) :
    e * 2 ^ f.m + m ≤ f.maxFin := by
  have rows : ∀ k, e + 1 ≤ k → e * 2 ^ f.m + m + 1 ≤ k * 2 ^ f.m := fun k hk =>
    calc e * 2 ^ f.m + m + 1 ≤ (e + 1) * 2 ^ f.m := by rw [Nat.succ_mul]; omega
      _ ≤ k * 2 ^ f.m := Nat.mul_le_mul_right _ hk
  have all := rows (2 ^ f.e) he
  rw [← pow_add] at all
  unfold Fmt.maxFin
  cases kind : f.kind with
  | ieee =>
    have notTop : e ≠ 2 ^ f.e - 1 := fun top => finite ⟨kind, top⟩
    have := rows (2 ^ f.e - 1) (by omega)
    show _ ≤ (2 ^ f.e - 1) * 2 ^ f.m - 1
    omega
  | plain => exact Nat.le_sub_one_of_lt all
  | nanOnly =>
    by_cases top : e = 2 ^ f.e - 1
    · have notLast : m ≠ 2 ^ f.m - 1 := fun last => number ⟨kind, top, last⟩
      have : (e + 1) * 2 ^ f.m = 2 ^ (f.e + f.m) := by rw [top, Nat.sub_add_cancel (by omega), pow_add]
      rw [Nat.succ_mul] at this
      show _ ≤ 2 ^ (f.e + f.m) - 2
      omega
    · have := rows (2 ^ f.e - 1) (by omega)
      have : (2 ^ f.e - 1) * 2 ^ f.m + 2 ^ f.m = 2 ^ (f.e + f.m) := by
        rw [← Nat.succ_mul, Nat.succ_eq_add_one, Nat.sub_add_cancel (by omega), pow_add]
      have : 1 ≤ 2 ^ f.m := Nat.one_le_two_pow
      show _ ≤ 2 ^ (f.e + f.m) - 2
      omega

/-- A subnormal value or zero rounds to its mantissa under the exponent field 0 (R70, R74). -/
theorem round_subnormal (f : Fmt) (mode : Rnd) (draw : Nat) (neg : Bool) {m : Nat} (hm : m < 2 ^ f.m) (fits : m ≤ f.maxFin) :
    f.round mode draw false (.fin neg m (1 - f.bias - f.m)) = f.sign neg + m := by
  by_cases zero : m = 0
  · simp [Fmt.round, zero]
  · have low : Nat.log2 m < f.m := (Nat.log2_lt zero).mpr hm
    have : (0 : Int) ≤ (2 ^ f.e : Nat) := Int.natCast_nonneg _
    exact round_of_unit f mode draw neg zero (by rw [if_pos (by omega)]) (if_pos hm) (by omega) fits

/-- A normal value rounds to its exponent field and the mantissa below its leading one (R70, R74). -/
theorem round_normal (f : Fmt) (mode : Rnd) (draw : Nat) (neg : Bool) {m e : Nat} (hm : m < 2 ^ f.m) (he : e < 2 ^ f.e)
    (normal : e ≠ 0) (fits : e * 2 ^ f.m + m ≤ f.maxFin) :
    f.round mode draw false (.fin neg (m + 2 ^ f.m) (e - f.bias - f.m)) = f.sign neg + (e * 2 ^ f.m + m) := by
  have some1 : m + 2 ^ f.m ≠ 0 := by have := Nat.one_le_two_pow (n := f.m); omega
  have leading : Nat.log2 (m + 2 ^ f.m) = f.m :=
    (Nat.log2_eq_iff some1).mpr ⟨by omega, by rw [pow_succ]; omega⟩
  refine round_of_unit f mode draw neg some1 ?_ ?_ (by rw [leading]; omega) fits
  · rw [leading, if_neg (by omega)]
    omega
  · rw [if_neg (by omega), show ((e : Int) - f.bias - f.m + f.m + f.bias - 1).toNat = e - 1 by omega, ← Nat.add_assoc,
      Nat.add_right_comm, ← Nat.succ_mul, Nat.succ_eq_add_one, Nat.sub_add_cancel (by omega)]

/-- In a format of any width and kind, rounding gives back an encoding that is not NaN. -/
theorem round_decode (f : Fmt) (mode : Rnd) (draw : Nat) {x : Nat} (hx : x < 2 ^ (f.e + f.m + 1)) (number : f.decode x ≠ .nan) :
    f.round mode draw false (f.decode x) = x := by
  conv_rhs => rw [encoding_eq_fields f hx]
  have hm : x % 2 ^ f.m < 2 ^ f.m := Nat.mod_lt _ (by positivity)
  have he : x / 2 ^ f.m % 2 ^ f.e < 2 ^ f.e := Nat.mod_lt _ (by positivity)
  unfold Fmt.decode at number ⊢
  generalize x % 2 ^ f.m = m, x / 2 ^ f.m % 2 ^ f.e = e, (x / 2 ^ (f.m + f.e) % 2 == 1) = neg at hm he number ⊢
  by_cases infinite : f.kind = .ieee ∧ e = 2 ^ f.e - 1
  · obtain ⟨kind, top⟩ := infinite
    have zero : m = 0 := by
      by_contra h
      simp [kind, top, h] at number
    simp [kind, top, zero, Fmt.round, Fmt.infinity]
  by_cases nan : f.kind = .nanOnly ∧ e = 2 ^ f.e - 1 ∧ m = 2 ^ f.m - 1
  · obtain ⟨kind, top, last⟩ := nan
    simp [kind, top, last] at number
  have fits := fields_le_maxFin f hm he infinite nan
  rw [if_neg (by simpa using infinite), if_neg (by simpa [and_assoc] using nan)]
  split_ifs with subnormal
  · rw [subnormal, Nat.zero_mul, Nat.zero_add] at fits ⊢
    exact round_subnormal f mode draw neg hm fits
  · exact round_normal f mode draw neg hm he subnormal fits

/-- Settles O53: every format of the table is one of those that `round_decode` speaks of. -/
theorem roundExact : Obligations.RoundExact := by
  unfold Obligations.RoundExact
  intro f _ mode draw x hx number
  exact round_decode f mode draw hx number

end Sys2Proof.Proofs.Formats
end

section
/-!
PROOFS. Vector float instructions (`Obligations.VectorFloatResults`): the model's elements and lanes are those of the table, the
sign bit of an element as a number and as a bit, then one lemma for each shape of instruction.
-/

namespace Sys2Proof.Proofs.VecFloat

open Sys2Proof Sys2Proof.Machine Sys2Proof.Claims Sys2Proof.Proofs.Completion

/-! Types. -/

theorem tyOk_of_wf {i : Instr} (wf : i.wf = true) : i.tyOk = true := by
  simp only [Instr.wf, Bool.and_eq_true] at wf
  obtain ⟨⟨⟨⟨-, types⟩, -⟩, -⟩, -⟩ := wf
  exact types

theorem isVF_cases {ty : Ty} (h : ty.isVF = true) : ty = .f32 ∨ ty = .f64 ∨ ty = .f16x2 ∨ ty = .bf16x2 := by
  cases ty <;> simp [Ty.isVF] at h ⊢

theorem isVF_of_isF3264 {ty : Ty} (h : ty.isF3264 = true) : ty.isVF = true := by
  cases ty <;> simp [Ty.isF3264, Ty.isVF] at h ⊢

theorem isVF_of_isAp {ty : Ty} (h : ty.isAp = true) : ty.isVF = true := by
  cases ty <;> simp [Ty.isAp, Ty.isVF] at h ⊢

/-! Elements of a lane. -/

theorem elemCount_pos (ty : Ty) : 0 < elemCount ty := by cases ty <;> decide

/-- Element j as a quotient and as a field of the lane. -/
theorem elemBits_eq_elem {ty : Ty} (vf : ty.isVF = true) (a : Word64) {j : Nat} (hj : j < elemCount ty) :
    elemBits ty a j = elem ty a j := by
  obtain rfl | rfl | rfl | rfl := isVF_cases vf
  · obtain rfl : j = 0 := Nat.lt_one_iff.mp hj
    simp [elemBits, elem, elemWidth, elemCount, Ty.is64]
  · obtain rfl : j = 0 := Nat.lt_one_iff.mp hj
    simpa [elemBits, elem, elemWidth, elemCount, Ty.is64] using Nat.mod_eq_of_lt a.isLt
  · simp [elemBits, elem, elemWidth, elemCount, Nat.shiftRight_eq_div_pow]
  · simp [elemBits, elem, elemWidth, elemCount, Nat.shiftRight_eq_div_pow]

theorem elemVal_eq_fval {ty : Ty} (vf : ty.isVF = true) (a : Word64) {j : Nat} (hj : j < elemCount ty) :
    elemVal ty a j = fval ty a j := congrArg (tyFmt ty).decode (elemBits_eq_elem vf a hj)

theorem ofNat_add_mul_eq_append (x y : Nat) :
    BitVec.ofNat 64 (x % 2 ^ 16 + y % 2 ^ 16 * 2 ^ 16) = (BitVec.ofNat 16 y ++ BitVec.ofNat 16 x).setWidth 64 := by
  apply BitVec.eq_of_toNat_eq
  rw [BitVec.toNat_setWidth, BitVec.toNat_append, BitVec.toNat_ofNat, BitVec.toNat_ofNat, BitVec.toNat_ofNat,
    Nat.shiftLeft_eq, Nat.mul_comm (y % _), ← Nat.two_pow_add_eq_or_of_lt (Nat.mod_lt _ (by decide)), Nat.add_comm]

/-- The lane of the elements, as a sum and as their concatenation. -/
theorem elemJoin_eq_join {ty : Ty} (vf : ty.isVF = true) {f g : Nat → Nat} (same : ∀ j < elemCount ty, f j = g j) :
    elemJoin ty f = join ty g := by
  have first := same 0 (elemCount_pos ty)
  obtain rfl | rfl | rfl | rfl := isVF_cases vf
  · simp [elemJoin, join, elemWidth, elemCount, Ty.is64, first, BitVec.toNat_eq]
  · simp [elemJoin, join, elemWidth, elemCount, Ty.is64, first, BitVec.toNat_eq]
  · simpa [elemJoin, join, elemWidth, elemCount, first, same 1 (by decide)] using ofNat_add_mul_eq_append (g 0) (g 1)
  · simpa [elemJoin, join, elemWidth, elemCount, first, same 1 (by decide)] using ofNat_add_mul_eq_append (g 0) (g 1)

/-! Destinations. -/

theorem writeTy_eq_put (t : State) (x : Ex) (ty : Ty) (d : VReg) (tag : BitVec 4) (v : Nat → Word64) :
    t.writeTy x ty d tag v = put x ty d tag tag v t := by
  unfold State.writeTy put State.writeV64
  split <;> rfl

/-- Two lane values leave the same bits in a destination of a type: both registers of a pair, or the low word. -/
def sameLane (ty : Ty) (a b : Word64) : Prop := if ty.is64 then a = b else a.setWidth 32 = b.setWidth 32

theorem put_congr {ty : Ty} {v w : Nat → Word64} (same : ∀ L, sameLane ty (v L) (w L)) (x : Ex) (d : VReg) (lo hi : BitVec 4)
    (t : State) : put x ty d lo hi v t = put x ty d lo hi w t := by
  unfold sameLane at same
  unfold put
  split_ifs at same ⊢ with wide
  · rw [funext same]
  · exact congrArg (t.writeV x.k d.val x.exec · lo) (funext same)

theorem sameLane_of_eq {ty : Ty} {a b : Word64} (h : a = b) : sameLane ty a b := by
  unfold sameLane
  split
  · exact h
  · rw [h]

/-! The sign bit (R79). -/

theorem ofNat_mod_two_pow_eq_and {w : Nat} (x : BitVec (w + 1)) :
    BitVec.ofNat (w + 1) (x.toNat % 2 ^ w) = x &&& ~~~BitVec.intMin (w + 1) := by
  apply BitVec.eq_of_getLsbD_eq
  intro i hi
  simp only [BitVec.getLsbD_ofNat, Nat.testBit_mod_two_pow, BitVec.getLsbD_and, BitVec.getLsbD_not, BitVec.getLsbD_intMin,
    BitVec.testBit_toNat, hi, decide_true, Bool.true_and]
  obtain rfl | low : i = w ∨ i < w := by omega
  · simp
  · simp [low, Nat.ne_of_lt low]

theorem ofNat_add_two_pow_eq_xor {w : Nat} (x : BitVec (w + 1)) :
    BitVec.ofNat (w + 1) (x.toNat + 2 ^ w) = x ^^^ BitVec.intMin (w + 1) := by
  apply BitVec.eq_of_getLsbD_eq
  intro i hi
  simp only [BitVec.getLsbD_ofNat, BitVec.getLsbD_xor, BitVec.getLsbD_intMin, hi, decide_true, Bool.true_and, Nat.add_comm x.toNat]
  obtain rfl | low : i = w ∨ i < w := by omega
  · simp [Nat.testBit_two_pow_add_eq, BitVec.testBit_toNat]
  · simp [Nat.testBit_two_pow_add_gt low, BitVec.testBit_toNat, Nat.ne_of_lt low]

theorem setWidth32_eq_append (v : Word64) : v.setWidth 32 = v.extractLsb' 16 16 ++ v.extractLsb' 0 16 := by
  rw [BitVec.extractLsb'_append_extractLsb'_eq_extractLsb' (by rfl), BitVec.setWidth_eq_extractLsb' (by decide)]

/-- The low word of a lane that was joined from one or two elements. -/
theorem setWidth32_extended (x : Word32) : (x.setWidth 64).setWidth 32 = x :=
  (BitVec.setWidth_setWidth_of_le x (by decide)).trans (BitVec.setWidth_eq x)

/-- VFABS on the elements clears the sign bits of the lane. -/
theorem join_mod_sameLane {ty : Ty} (vf : ty.isVF = true) (v : Word64) :
    sameLane ty (join ty fun j => elem ty v j % 2 ^ (elemWidth ty - 1)) (v &&& ~~~signBits ty) := by
  have pair : BitVec.ofNat 16 ((v.extractLsb' 16 16).toNat % 2 ^ 15) ++ BitVec.ofNat 16 ((v.extractLsb' 0 16).toNat % 2 ^ 15) =
      v.setWidth 32 &&& ~~~0x80008000#32 := by
    rw [ofNat_mod_two_pow_eq_and, ofNat_mod_two_pow_eq_and, ← BitVec.and_append, setWidth32_eq_append]
    rfl
  obtain rfl | rfl | rfl | rfl := isVF_cases vf
  · exact (setWidth32_extended _).trans ((ofNat_mod_two_pow_eq_and (v.setWidth 32)).trans (BitVec.setWidth_and (y := ~~~signBits .f32)).symm)
  · exact ofNat_mod_two_pow_eq_and v
  · exact (setWidth32_extended _).trans (pair.trans (BitVec.setWidth_and (y := ~~~signBits .f16x2)).symm)
  · exact (setWidth32_extended _).trans (pair.trans (BitVec.setWidth_and (y := ~~~signBits .bf16x2)).symm)

/-- VFNEG on the elements flips the sign bits of the lane. -/
theorem join_add_sameLane {ty : Ty} (vf : ty.isVF = true) (v : Word64) :
    sameLane ty (join ty fun j => elem ty v j + 2 ^ (elemWidth ty - 1)) (v ^^^ signBits ty) := by
  have pair : BitVec.ofNat 16 ((v.extractLsb' 16 16).toNat + 2 ^ 15) ++ BitVec.ofNat 16 ((v.extractLsb' 0 16).toNat + 2 ^ 15) =
      v.setWidth 32 ^^^ 0x80008000#32 := by
    rw [ofNat_add_two_pow_eq_xor, ofNat_add_two_pow_eq_xor, ← BitVec.xor_append, setWidth32_eq_append]
    rfl
  obtain rfl | rfl | rfl | rfl := isVF_cases vf
  · exact (setWidth32_extended _).trans ((ofNat_add_two_pow_eq_xor (v.setWidth 32)).trans (BitVec.setWidth_xor (y := signBits .f32)).symm)
  · exact ofNat_add_two_pow_eq_xor v
  · exact (setWidth32_extended _).trans (pair.trans (BitVec.setWidth_xor (y := signBits .f16x2)).symm)
  · exact (setWidth32_extended _).trans (pair.trans (BitVec.setWidth_xor (y := signBits .bf16x2)).symm)

/-! The shapes of instruction. -/

section
variable {s : State} {i : Instr} {h : Hdr} {ty : Ty} {rnd : Rnd} {d : VReg} {a c : VSrc} {b : BSrc}

/-- A correctly rounded instruction: the exact values of its elements are those of the table. -/
theorem fr_completes {us : List Use} {v w : State → Nat → Nat → Nat → FV} (row : floatForm s i = fr h ty rnd d us w)
    (run : exec i s = .next (floatCr i h ty rnd d us v s)) (types : i.wf = true → ty.isVF = true)
    (values : ty.isVF = true → ∀ t k L j, j < elemCount ty → v t k L j = w t k L j) : CompletesIn floatForm i s :=
  .of_simple row run fun wf x t => by
    have lane : ∀ L, (elemJoin ty fun j => t.roundElem x.k ty rnd L j (v t x.k L j)) =
        join ty fun j => (tyFmt ty).round rnd (drawOf (t.sheaf x.k).srnd j L) false (w t x.k L j) := fun L =>
      elemJoin_eq_join (types wf) fun j hj => by rw [values (types wf) t x.k L j hj, State.roundElem]
    rw [writeTy_eq_put, funext lane]
    rfl

theorem fr1_completes {f : FV → FV} (row : floatForm s i = fr1 h ty rnd d a f)
    (run : exec i s = .next (float1 i h ty rnd d a f s)) (types : i.wf = true → ty.isVF = true) : CompletesIn floatForm i s :=
  fr_completes row run types fun vf t k L j hj => by rw [elemVal_eq_fval vf _ hj]

theorem fr2_completes {f : FV → FV → FV} (row : floatForm s i = fr2 h ty rnd d a b f)
    (run : exec i s = .next (float2 i h ty rnd d a b f s)) (types : i.wf = true → ty.isVF = true) : CompletesIn floatForm i s :=
  fr_completes row run types fun vf t k L j hj => by rw [elemVal_eq_fval vf _ hj, elemVal_eq_fval vf _ hj]

theorem fr3_completes {f : FV → FV → FV → FV} (row : floatForm s i = fr3 h ty rnd d a b c f)
    (run : exec i s = .next (float3 i h ty rnd d a b c f s)) (types : i.wf = true → ty.isVF = true) : CompletesIn floatForm i s :=
  fr_completes row run types fun vf t k L j hj => by
    rw [elemVal_eq_fval vf _ hj, elemVal_eq_fval vf _ hj, elemVal_eq_fval vf _ hj]

/-- An instruction on the encodings of the elements, where the table gives the lane. -/
theorem bits_completes {f : Nat → Nat} {g : Word64 → Word64} (row : floatForm s i = v1 h ty d a (tyTag ty) g)
    (run : exec i s = .next (floatBits i h ty d a f s)) (types : i.wf = true → ty.isVF = true)
    (lane : ty.isVF = true → ∀ v, sameLane ty (join ty fun j => f (elem ty v j)) (g v)) : CompletesIn floatForm i s :=
  .of_simple (f := fun x t => t.writeTy x ty d (tyTag ty) fun L => elemJoin ty fun j => f (elemBits ty (t.vsrc x.k ty L a) j))
    row run fun wf x t => by
    have joined : ∀ v, (elemJoin ty fun j => f (elemBits ty v j)) = join ty fun j => f (elem ty v j) := fun v =>
      elemJoin_eq_join (types wf) fun j hj => congrArg f (elemBits_eq_elem (types wf) v hj)
    rw [writeTy_eq_put]
    refine put_congr (fun L => ?_) x d _ _ t
    rw [joined]
    exact lane (types wf) _

theorem ap_completes {fn : ApFn} (row : floatForm s i = ap h ty d a fn)
    (run : exec i s = .next (floatBits i h ty d a (approxBits fn ty) s)) (types : i.wf = true → ty.isAp = true) :
    CompletesIn floatForm i s :=
  bits_completes row run (fun wf => isVF_of_isAp (types wf)) fun _ _ => sameLane_of_eq rfl

end

/-! Comparisons and classes (R80, R215). -/

theorem vfcmp_completes (s : State) (h : Hdr) (ty : Ty) (c : FCond) (d : PReg) (a : VSrc) (b : BSrc) :
    CompletesIn floatForm (.vfcmp h ty c d a b) s :=
  .of_simple (by rw [floatForm]) rfl fun wf x t => by
    have vf : ty.isVF = true := isVF_of_isF3264 (tyOk_of_wf wf)
    simp only [elemVal_eq_fval vf _ (elemCount_pos ty)]

theorem vfclass_completes (s : State) (h : Hdr) (ty : Ty) (d : VReg) (a : VSrc) :
    CompletesIn floatForm (.vfclass h ty d a) s :=
  .of_simple (by rw [floatForm]) rfl fun wf x t => by
    have vf : ty.isVF = true := isVF_of_isF3264 (tyOk_of_wf wf)
    simp only [elemBits_eq_elem vf _ (elemCount_pos ty)]

theorem vfscale_completes (s : State) (h : Hdr) (ty : Ty) (rnd : Rnd) (d : VReg) (a : VSrc) (b : BSrc) :
    CompletesIn floatForm (.vfscale h ty rnd d a b) s :=
  fr_completes (w := fun t k L j => (fval ty (t.vsrc k ty L a) j).scale (t.count32 k L b).toInt) (by rw [floatForm]) rfl
    tyOk_of_wf fun vf _ _ _ _ hj => congrArg (FV.scale · _) (elemVal_eq_fval vf _ hj)

/-- Settles O3: the entries of the table are of the shapes above, and every other instruction has none. -/
theorem vectorFloatResults : Obligations.VectorFloatResults := by
  unfold Obligations.VectorFloatResults
  intro i s
  suffices CompletesIn floatForm i s from this
  cases i with
  | vfadd h ty rnd d a b => exact fr2_completes (by rw [floatForm]) rfl tyOk_of_wf
  | vfsub h ty rnd d a b => exact fr2_completes (by rw [floatForm]) rfl tyOk_of_wf
  | vfmul h ty rnd d a b => exact fr2_completes (by rw [floatForm]) rfl tyOk_of_wf
  | vfma h ty rnd d a b c => exact fr3_completes (by rw [floatForm]; rfl) rfl tyOk_of_wf
  | vfnma h ty rnd d a b c => exact fr3_completes (by rw [floatForm]) rfl tyOk_of_wf
  | vfmin h ty d a b => exact fr2_completes (by rw [floatForm]) rfl tyOk_of_wf
  | vfmax h ty d a b => exact fr2_completes (by rw [floatForm]) rfl tyOk_of_wf
  | vfabs h ty d a => exact bits_completes (by rw [floatForm]) rfl tyOk_of_wf join_mod_sameLane
  | vfneg h ty d a => exact bits_completes (by rw [floatForm]) rfl tyOk_of_wf join_add_sameLane
  | vfcmp h ty c d a b => exact vfcmp_completes s h ty c d a b
  | vfclass h ty d a => exact vfclass_completes s h ty d a
  | vfdiv h ty rnd d a b => exact fr2_completes (by rw [floatForm]) rfl fun wf => isVF_of_isF3264 (tyOk_of_wf wf)
  | vsqrt h ty rnd d a => exact fr1_completes (by rw [floatForm]) rfl fun wf => isVF_of_isF3264 (tyOk_of_wf wf)
  | vrcp h ty d a => exact ap_completes (by rw [floatForm]) rfl tyOk_of_wf
  | vrsq h ty d a => exact ap_completes (by rw [floatForm]) rfl tyOk_of_wf
  | vexp2 h ty d a => exact ap_completes (by rw [floatForm]) rfl tyOk_of_wf
  | vlog2 h ty d a => exact ap_completes (by rw [floatForm]) rfl tyOk_of_wf
  | vsin h ty d a => exact ap_completes (by rw [floatForm]) rfl tyOk_of_wf
  | vcos h ty d a => exact ap_completes (by rw [floatForm]) rfl tyOk_of_wf
  | vtanh h ty d a => exact ap_completes (by rw [floatForm]) rfl tyOk_of_wf
  | vfloor h ty d a => exact fr1_completes (by rw [floatForm]) rfl tyOk_of_wf
  | vceil h ty d a => exact fr1_completes (by rw [floatForm]) rfl tyOk_of_wf
  | vfract h ty rnd d a => exact fr1_completes (by rw [floatForm]) rfl tyOk_of_wf
  | vfscale h ty rnd d a b => exact vfscale_completes s h ty rnd d a b
  | _ => exact .of_none rfl

end Sys2Proof.Proofs.VecFloat
end

section
/-!
PROOFS. Matrix commands (`Obligations.MatrixValues`): the statement asks of a command no more than a well-formed instruction, and so
speaks of an MMA with F = 1 whose second descriptor carries a tag that names no format. R266 traps such a command at issue; of
one that is performed all the same, the model reads elements of four bits where `Claims.operand` reads elements of 32.
-/

namespace Sys2Proof.Proofs.MatrixOperands

open Sys2Proof Sys2Proof.Machine Sys2Proof.Claims

/-- Crew 0 with two units of core 0 and one tile. -/
def unitCrew : Crew := { Crew.empty with units := 2, scrGen := 1, tiles := [0], accGen := 1, retired := false }

/-- The region of the crew holds 1.0 as f16 at offset 0 and 1.0 as f32 at offset 32. -/
def unitState : State :=
  { State.reset with
    mem := [(1, 0x3C), (34, 0x80), (35, 0x3F)]
    tags := [(0, 1), (1, 1)]
    coreUnits := [(0, 1), (1, 1)]
    crews := [(0, unitCrew)] }

/-- MMA of one row, one column and one element, with F = 1 and a second descriptor tagged none. -/
def untagged : MatCmd :=
  { instr := .mma ⟨false, 7, false⟩ .f16 .z true 0 0 1 1 1 1
    crew := 0, launch := 0, place := 0, strict := false
    da := ⟨0, 2⟩
    db := ⟨32, 0⟩
    scalar := 0, vals := Vector.replicate 32 0, exec := 0xFFFFFFFF, load := 0, bad := false }

theorem runs_untagged : runs unitState untagged := ⟨rfl, rfl, rfl, trivial⟩

/-- The statement gives element [0][0] of the product the value 1.0 × 1.0. -/
theorem tileValues_untagged :
    (tileValues unitState untagged).map (fun p => (p.1, p.2 0 0)) = some (0, some (acc96 (.fin false 1 0))) := by
  decide +kernel

/-- The model gives it 1.0 × 0, from the low four bits of the f32. -/
theorem matRun_untagged : (unitState.matRun untagged).toOption.map (fun t => tileAt t untagged 0 0 0) = some 0 := by
  decide +kernel

/-- The command cannot have issued: MMA with these descriptors is a tag trap at site 2 (R266). -/
theorem mmaCheck_untagged (s : State) (x : Ex) (da : s.desc x.k 0 = untagged.da) (db : s.desc x.k 1 = untagged.db) :
    s.mmaCheck x .f16 true 0 1 1 1 1 = some (descTagTrap x 0 2) := by
  have tagA : tagCheck x (s.desc x.k 0) .f16 1 = none := by rw [da]; rfl
  have tagB : (s.desc x.k 1).tag = 0 := by rw [db]; rfl
  simp [State.mmaCheck, tagA, tagB, tagGroup]

/-- Refutes O60: the premises leave the tag of the second descriptor free, and with F = 1 and the tag none the element that the
model writes is not the one of `Claims.productOf`. -/
theorem not_matrixValues : ¬ Obligations.MatrixValues := by
  unfold Obligations.MatrixValues
  intro h
  obtain ⟨performed, values⟩ := h unitState untagged (by decide) (by decide)
  obtain ⟨t, run⟩ := performed runs_untagged
  obtain ⟨⟨d, v⟩, row, entry⟩ := Option.map_eq_some_iff.mp tileValues_untagged
  obtain ⟨rfl, claimed⟩ := Prod.mk.inj entry
  have written : tileAt t untagged 0 0 0 = 0 := by
    have := matRun_untagged
    rw [run] at this
    exact Option.some.inj this
  have element := ((values t run).1 0 v row).1 0 0 (by decide) (by decide)
  rw [written, show v 0 0 = _ from claimed, Option.getD_some] at element
  exact absurd element (by decide +kernel)

end Sys2Proof.Proofs.MatrixOperands
end

section
/-!
PROOFS. The steps of the Orrery (`Obligations.OrrerySteps`): what each operation of the Orrery does once its checks pass and nothing
that it reads holds an uncorrectable error, then one lemma for each step of the table.
-/

namespace Sys2Proof.Proofs.OrrerySteps

open Sys2Proof Sys2Proof.Machine Sys2Proof.Claims

/-- An event has the effect of a table in a state that meets the table's condition. -/
def OccursIn (table : State → Instr → Option (Prop × State)) (s : State) (i : Instr) : Prop :=
  ∀ P t, table s i = some (P, t) → P → exec i s = .next t

theorem OccursIn.of_none {table : State → Instr → Option (Prop × State)} {s : State} {i : Instr} (h : table s i = none) :
    OccursIn table s i :=
  fun _ _ row => nomatch h.symm.trans row

/-! What is read without an uncorrectable error (R386, R414). -/

theorem ifSound_of_sound {s : State} (sound : s.badWords = []) (act : State → State) : s.ifSound act = act s := by
  simp [State.ifSound, sound]

theorem badAt_of_sound {s : State} (sound : s.badSram = []) (ctx : Nat) (va : Word64) (n : Nat) : s.badAt ctx va n = [] :=
  if_pos sound

theorem savedErrors_of_sound {s : State} (sound : s.badSram = []) (ctx : Nat) (v : Saved) : s.savedErrors ctx v = [] := by
  simp [State.savedErrors, badAt_of_sound sound]

theorem spanErrors_of_sound {s : State} (sound : s.badSram = []) (p : Span) : s.spanErrors p = [] := if_pos sound

theorem spanWordError_of_sound {s : State} (regs : s.badRegs = []) (words : s.badWords = []) (p : Span) :
    s.spanWordError p = false := by
  simp [State.spanWordError, regs, words]

theorem reportEngine_of_no_errors (s : State) {c : Crew} (sound : c.engErr = []) : s.reportEngine c = s := by
  unfold State.reportEngine
  split
  · rw [sound, List.foldl_nil]
  · rfl

/-! Submission and admission (R129, R130, R139). -/

theorem submissionWrite_occurs (s : State) (ctx off : Nat) (data : List Byte) :
    OccursIn orrerySteps s (.submissionWrite ctx off data) := by
  intro P t row ok
  cases row
  obtain ⟨operational, aligned, size, valid⟩ := ok
  show execSubmissionWrite ctx off data s = _
  simp [execSubmissionWrite, operational, aligned, size, valid, hostSubmission]

/-- The Orrery accepts a record of a sheaf that passes its checks, and answers its launch number. -/
theorem admitSheaf_of_record {s : State} {q : Submission} {k : Nat} {b : Bool} {x : LaunchRec}
    (readable : s.readRecord q.ctx q.bytes = some x) (armable : q.arm.isSome = true → x.armable = true)
    (room : s.windowRoom = true) :
    s.admitSheaf q k b =
      let r := s.accept q.ctx (s.sheaf k).launch q.deps (q.arm.map fun n => ((s.sheaf k).crew, n)) x
      r.2.answerLaunch k b q.dest (BitVec.ofNat 64 r.1) := by
  have meets : (q.arm.isSome && !x.armable) = false := by
    cases arm : q.arm.isSome with
    | false => rfl
    | true => simp [armable arm]
  simp [State.admitSheaf, readable, meets, room]

theorem admitHost_of_record {s : State} {q : Submission} {x : LaunchRec} (readable : s.readRecord q.ctx q.bytes = some x) :
    s.admitHost q = (s.accept q.ctx 0 [] none x).2 := by
  simp only [State.admitHost, readable]

theorem orreryAdmit_occurs (s : State) : OccursIn orrerySteps s .orreryAdmit := by
  intro P t row ok
  simp only [orrerySteps] at row
  show execOrreryAdmit s = _
  split at row
  · cases row
  · next q rest next_is =>
    split at row
    · next k b x origin readable =>
      cases row
      obtain ⟨sound, operational, noErrors, armable, room⟩ := ok
      simp only [execOrreryAdmit, ifSound_of_sound sound, operational, ne_eq, not_true, if_false, next_is, origin, noErrors,
        if_true, admitSheaf_of_record readable armable room]
    · next x origin readable =>
      cases row
      obtain ⟨sound, operational, noErrors⟩ := ok
      simp only [execOrreryAdmit, ifSound_of_sound sound, operational, ne_eq, not_true, if_false, next_is, origin, noErrors,
        List.foldl_nil, admitHost_of_record readable]
    · cases row

/-! Placement (R134 to R136). -/

/-- The first of the waiting launches is placed where it fits. -/
theorem placeFirst_of_fit {s u : State} {n : Nat} {l : Launch} {f : Fit} (others : List (Nat × Option Nat))
    (found : Tab.find s.launches n = some l) (leave : 64 < l.record.total → s.gov.holds (.launch n) = true)
    (fits : s.fit l.record = some f) (placed : s.placeSpan n l f = some u) :
    s.placeFirst ((n, none) :: others) = u.later .spanPlacement := by
  have granted : ¬ (64 < l.record.total ∧ (!s.gov.holds (.launch n)) = true) := fun ⟨large, none_held⟩ => by
    simp [leave large] at none_held
  simp only [State.placeFirst, found, if_neg granted, fits, placed]

theorem spanPlacement_occurs (s : State) : OccursIn orrerySteps s .spanPlacement := by
  intro P t row ok
  simp only [orrerySteps] at row
  split at row
  · next n others order =>
    obtain ⟨l, found, row⟩ := Option.bind_eq_some_iff.mp row
    obtain ⟨f, fits, row⟩ := Option.bind_eq_some_iff.mp row
    obtain ⟨u, placed, row⟩ := Option.map_eq_some_iff.mp row
    cases row
    obtain ⟨operational, noCheckpoint, sound, leave⟩ := ok
    show execSpanPlacement s = _
    simp [execSpanPlacement, operational, noCheckpoint, ifSound_of_sound sound, order, placeFirst_of_fit others found leave fits placed]
  · cases row

/-! Retirement (R138). -/

theorem active_iff {s : State} {n : Nat} :
    active s n = true ↔ ∃ l, Tab.find s.launches n = some l ∧ (l.state == .active) = true := by
  cases h : Tab.find s.launches n <;> simp [active, h]

theorem crewRetire_occurs (s : State) (id : Nat) : OccursIn orrerySteps s (.crewRetire id) := by
  intro P t row ok
  simp only [orrerySteps] at row
  obtain ⟨c, found, row⟩ := Option.map_eq_some_iff.mp row
  cases row
  obtain ⟨running, ended, posted, flight, matrix, performed, noCheckpoint, unarmed, noErrors⟩ := ok
  obtain ⟨l, launch, isActive⟩ := active_iff.mp running
  have done : (c.sheaves.any fun k => s.remoteOut k || s.writesOut k) = false :=
    List.any_eq_false.mpr fun k hk => by simp [performed k hk]
  show execCrewRetire id s = _
  simp only [execCrewRetire, found, launch, isActive, ended, posted, flight, matrix, noCheckpoint, done,
    reportEngine_of_no_errors s noErrors, Bool.not_true, Bool.false_eq_true, ne_eq, not_true, or_self, if_false]
  rw [List.filter_congr (l := s.launches), unarmed, List.foldl_nil]
  intro p _
  cases p.2.arm <;> rfl

/-! Pre-emption (R140). -/

theorem preemptionWaitExpiry_occurs (s : State) (n : Nat) : OccursIn orrerySteps s (.preemptionWaitExpiry n) := by
  intro P t row ok
  simp only [orrerySteps] at row
  obtain ⟨l, found, row⟩ := Option.bind_eq_some_iff.mp row
  obtain ⟨vs, chosen, row⟩ := Option.map_eq_some_iff.mp row
  cases row
  obtain ⟨sound, wants, unarmed, waited, noCheckpoint, leave⟩ := ok
  have may : ¬ (s.nanos < l.eligibleAt + 50000 ∨ s.checkpoint = true ∨
      64 < l.record.total ∧ (!s.gov.holds (.launch n)) = true) := by
    rintro (early | checkpoint | ⟨large, none_held⟩)
    · omega
    · simp [noCheckpoint] at checkpoint
    · simp [leave large] at none_held
  show execPreemptionWaitExpiry n s = _
  simp only [execPreemptionWaitExpiry, ifSound_of_sound sound, found, wants, unarmed, if_neg may, chosen, Option.isSome_none,
    Bool.not_true, Bool.false_eq_true, or_self, if_false]

theorem recallTimeout_occurs (s : State) (p : Place) : OccursIn orrerySteps s (.recallTimeout p) := by
  intro P t row late
  simp only [orrerySteps] at row
  obtain ⟨f, frag, row⟩ := Option.bind_eq_some_iff.mp row
  obtain ⟨since, recalled, row⟩ := Option.map_eq_some_iff.mp row
  cases row
  show execRecallTimeout p s = _
  simp only [execRecallTimeout, frag, recalled, if_neg (Nat.not_lt.mpr late)]

/-! Save and restore (R141 to R143). -/

theorem spanSave_occurs (s : State) (id : Nat) : OccursIn orrerySteps s (.spanSave id) := by
  intro P t row ok
  cases row
  obtain ⟨saving, home, drained, sram, regs, words⟩ := ok
  show execSpanSave id s = _
  simp only [execSpanSave, saving, home, drained, spanErrors_of_sound sram, spanWordError_of_sound regs words, List.filter_nil,
    List.foldl_nil, ne_eq, not_true, Bool.not_true, Bool.false_eq_true, if_false]

theorem spanRestore_occurs (s : State) (id : Nat) : OccursIn orrerySteps s (.spanRestore id) := by
  intro P t row ok
  simp only [orrerySteps] at row
  obtain ⟨v, saved, row⟩ := Option.bind_eq_some_iff.mp row
  obtain ⟨u, restored, row⟩ := Option.map_eq_some_iff.mp row
  cases row
  obtain ⟨isSaved, room, noCheckpoint, sound⟩ := ok
  show execSpanRestore id s = _
  simp only [execSpanRestore, saved, isSaved, room, noCheckpoint, savedErrors_of_sound sound, restored, ne_eq, not_true,
    Bool.not_true, Bool.false_eq_true, or_self, if_false]

/-- Settles O20: the rows of the table are the steps above, and every other event or instruction has no row. -/
theorem orrerySteps : Obligations.OrrerySteps := by
  unfold Obligations.OrrerySteps
  intro i s
  show OccursIn Claims.orrerySteps s i
  cases i with
  | submissionWrite ctx off data => exact submissionWrite_occurs s ctx off data
  | orreryAdmit => exact orreryAdmit_occurs s
  | spanPlacement => exact spanPlacement_occurs s
  | crewRetire id => exact crewRetire_occurs s id
  | preemptionWaitExpiry n => exact preemptionWaitExpiry_occurs s n
  | spanSave id => exact spanSave_occurs s id
  | spanRestore id => exact spanRestore_occurs s id
  | recallTimeout p => exact recallTimeout_occurs s p
  | _ => exact .of_none rfl

end Sys2Proof.Proofs.OrrerySteps
end

section
/-!
PROOFS. The encoding (`Obligations.DecodeEncode`, `Obligations.DecodedBits`, `Obligations.ReservedClass`,
`Obligations.DecodedWords`): the word of an instruction decodes to it, and a word that decodes is the word of the instruction read.
-/

namespace Sys2Proof.Proofs.Encoding

open Sys2Proof Sys2Proof.Laws

/-! From the instruction to the word. -/

/-- Each instruction form has its round trip in `Laws`; an event is never well formed. -/
theorem encoding_statement (i : Instr) : Encoding.Statement i := by
  cases i with
  | pad p => exact Encoding.pad p
  | nop h => exact Encoding.nop h
  | bra h off => exact Encoding.bra h off
  | braReg h a => exact Encoding.braReg h a
  | brp h off => exact Encoding.brp h off
  | brpJoin h off j => exact Encoding.brpJoin h off j
  | join h => exact Encoding.join h
  | loop h d off => exact Encoding.loop h d off
  | call h d off => exact Encoding.call h d off
  | callReg h d a => exact Encoding.callReg h d a
  | calli h d a => exact Encoding.calli h d a
  | ret h a => exact Encoding.ret h a
  | exit h => exact Encoding.exit h
  | yield h => exact Encoding.yield h
  | trap h code => exact Encoding.trap h code
  | tret h => exact Encoding.tret h
  | mcall h p0 p1 p2 p3 m => exact Encoding.mcall h p0 p1 p2 p3 m
  | bkpt h code => exact Encoding.bkpt h code
  | waita h d a => exact Encoding.waita h d a
  | sleep h a => exact Encoding.sleep h a
  | sleepImm h n => exact Encoding.sleepImm h n
  | elect h d a => exact Encoding.elect h d a
  | smov h d a => exact Encoding.smov h d a
  | smovi h ty d imm => exact Encoding.smovi h ty d imm
  | smovq h d imm => exact Encoding.smovq h d imm
  | sadd h ty sat d a b => exact Encoding.sadd h ty sat d a b
  | ssub h ty sat d a b => exact Encoding.ssub h ty sat d a b
  | smul h ty sat d a b => exact Encoding.smul h ty sat d a b
  | smulh h ty d a b => exact Encoding.smulh h ty d a b
  | sdiv h ty d a b => exact Encoding.sdiv h ty d a b
  | srem h ty d a b => exact Encoding.srem h ty d a b
  | sand h d a b => exact Encoding.sand h d a b
  | sor h d a b => exact Encoding.sor h d a b
  | sxor h d a b => exact Encoding.sxor h d a b
  | sshl h ty d a b => exact Encoding.sshl h ty d a b
  | sshr h ty d a b => exact Encoding.sshr h ty d a b
  | ssar h d a b => exact Encoding.ssar h d a b
  | smin h ty d a b => exact Encoding.smin h ty d a b
  | smax h ty d a b => exact Encoding.smax h ty d a b
  | scmp h ty cond d a b => exact Encoding.scmp h ty cond d a b
  | ssel h d a b c => exact Encoding.ssel h d a b c
  | slea h ty d a b sh => exact Encoding.slea h ty d a b sh
  | sclz h d a => exact Encoding.sclz h d a
  | spopc h d a => exact Encoding.spopc h d a
  | sbfe h ty d a b w => exact Encoding.sbfe h ty d a b w
  | sbfi h d a b w => exact Encoding.sbfi h d a b w
  | vmov h ty d a => exact Encoding.vmov h ty d a
  | vmovi h ty d imm => exact Encoding.vmovi h ty d imm
  | vidx h d b => exact Encoding.vidx h d b
  | vadd h ty d a b => exact Encoding.vadd h ty d a b
  | vsub h ty d a b => exact Encoding.vsub h ty d a b
  | vadds h ty d a b => exact Encoding.vadds h ty d a b
  | vsubs h ty d a b => exact Encoding.vsubs h ty d a b
  | vmul h ty sat d a b => exact Encoding.vmul h ty sat d a b
  | vmulh h ty d a b => exact Encoding.vmulh h ty d a b
  | vmad h ty sat d a b c => exact Encoding.vmad h ty sat d a b c
  | vmin h ty d a b => exact Encoding.vmin h ty d a b
  | vmax h ty d a b => exact Encoding.vmax h ty d a b
  | vabs h ty sat d a => exact Encoding.vabs h ty sat d a
  | vneg h ty sat d a => exact Encoding.vneg h ty sat d a
  | vand h ty d a b => exact Encoding.vand h ty d a b
  | vor h ty d a b => exact Encoding.vor h ty d a b
  | vxor h ty d a b => exact Encoding.vxor h ty d a b
  | vnot h ty d a => exact Encoding.vnot h ty d a
  | vshl h ty d a b => exact Encoding.vshl h ty d a b
  | vshr h ty d a b => exact Encoding.vshr h ty d a b
  | vsar h ty d a b => exact Encoding.vsar h ty d a b
  | vrot h d a b => exact Encoding.vrot h d a b
  | vbfe h ty d a b w => exact Encoding.vbfe h ty d a b w
  | vbfi h d a b w => exact Encoding.vbfi h d a b w
  | vclz h d a => exact Encoding.vclz h d a
  | vpopc h d a => exact Encoding.vpopc h d a
  | vbrev h d a => exact Encoding.vbrev h d a
  | vcmp h ty cond d a b => exact Encoding.vcmp h ty cond d a b
  | vsel h ty d a b c => exact Encoding.vsel h ty d a b c
  | vlea h ty d a b sh => exact Encoding.vlea h ty d a b sh
  | vfadd h ty rnd d a b => exact Encoding.vfadd h ty rnd d a b
  | vfsub h ty rnd d a b => exact Encoding.vfsub h ty rnd d a b
  | vfmul h ty rnd d a b => exact Encoding.vfmul h ty rnd d a b
  | vfma h ty rnd d a b c => exact Encoding.vfma h ty rnd d a b c
  | vfnma h ty rnd d a b c => exact Encoding.vfnma h ty rnd d a b c
  | vfmin h ty d a b => exact Encoding.vfmin h ty d a b
  | vfmax h ty d a b => exact Encoding.vfmax h ty d a b
  | vfabs h ty d a => exact Encoding.vfabs h ty d a
  | vfneg h ty d a => exact Encoding.vfneg h ty d a
  | vfcmp h ty cond d a b => exact Encoding.vfcmp h ty cond d a b
  | vfclass h ty d a => exact Encoding.vfclass h ty d a
  | vfdiv h ty rnd d a b => exact Encoding.vfdiv h ty rnd d a b
  | vrcp h ty d a => exact Encoding.vrcp h ty d a
  | vrsq h ty d a => exact Encoding.vrsq h ty d a
  | vsqrt h ty rnd d a => exact Encoding.vsqrt h ty rnd d a
  | vexp2 h ty d a => exact Encoding.vexp2 h ty d a
  | vlog2 h ty d a => exact Encoding.vlog2 h ty d a
  | vsin h ty d a => exact Encoding.vsin h ty d a
  | vcos h ty d a => exact Encoding.vcos h ty d a
  | vtanh h ty d a => exact Encoding.vtanh h ty d a
  | vfloor h ty d a => exact Encoding.vfloor h ty d a
  | vceil h ty d a => exact Encoding.vceil h ty d a
  | vfract h ty rnd d a => exact Encoding.vfract h ty rnd d a
  | vfscale h ty rnd d a b => exact Encoding.vfscale h ty rnd d a b
  | vcvt h dt st rnd sat d a => exact Encoding.vcvt h dt st rnd sat d a
  | vpack h dt rnd sat d a b p => exact Encoding.vpack h dt rnd sat d a b p
  | vunpk h dt st d a p => exact Encoding.vunpk h dt st d a p
  | vquant h dt rnd d a c p => exact Encoding.vquant h dt rnd d a c p
  | vdeq h st rnd d a b p => exact Encoding.vdeq h st rnd d a b p
  | vsplit6 h ty lo d a p => exact Encoding.vsplit6 h ty lo d a p
  | vjoin6 h ty d a b p => exact Encoding.vjoin6 h ty d a b p
  | vdot8 h ty rnd sat d a b => exact Encoding.vdot8 h ty rnd sat d a b
  | vdot4 h ty rnd sat d a b => exact Encoding.vdot4 h ty rnd sat d a b
  | vtag h d a tag => exact Encoding.vtag h d a tag
  | vsrnd h a => exact Encoding.vsrnd h a
  | vsrndDraw h d => exact Encoding.vsrndDraw h d
  | vshfl h ty mode d a b fill => exact Encoding.vshfl h ty mode d a b fill
  | vbcast h ty d a b fill => exact Encoding.vbcast h ty d a b fill
  | vlrot h ty d a b fill => exact Encoding.vlrot h ty d a b fill
  | vred h ty op rnd d a => exact Encoding.vred h ty op rnd d a
  | vscan h ty op rnd d a => exact Encoding.vscan h ty op rnd d a
  | vballot h d a => exact Encoding.vballot h d a
  | vmatch h ty d a => exact Encoding.vmatch h ty d a
  | pset h d a => exact Encoding.pset h d a
  | psetImm h d imm => exact Encoding.psetImm h d imm
  | pand h d a b => exact Encoding.pand h d a b
  | por h d a b => exact Encoding.por h d a b
  | pxor h d a b => exact Encoding.pxor h d a b
  | pnot h d a => exact Encoding.pnot h d a
  | pmov h d a => exact Encoding.pmov h d a
  | pcnt h d a => exact Encoding.pcnt h d a
  | pfirst h d a => exact Encoding.pfirst h d a
  | xacq h n => exact Encoding.xacq h n
  | xrel h => exact Encoding.xrel h
  | sread h d sr => exact Encoding.sread h d sr
  | swrite h sr a => exact Encoding.swrite h sr a
  | genq h which d => exact Encoding.genq h which d
  | tagq h d src => exact Encoding.tagq h d src
  | rdtime h dom d => exact Encoding.rdtime h dom d
  | lread h d a => exact Encoding.lread h d a
  | ctxsave h a => exact Encoding.ctxsave h a
  | ctxload h a => exact Encoding.ctxload h a
  | ldl h ty d m => exact Encoding.ldl h ty d m
  | stl h ty d m => exact Encoding.stl h ty d m
  | lds h ty d m => exact Encoding.lds h ty d m
  | sts h ty d m => exact Encoding.sts h ty d m
  | ldg h ty d m => exact Encoding.ldg h ty d m
  | stg h ty d m => exact Encoding.stg h ty d m
  | ldx h ty d m => exact Encoding.ldx h ty d m
  | stx h ty d m => exact Encoding.stx h ty d m
  | ldb h ty d base off => exact Encoding.ldb h ty d base off
  | ldbLoc h ty d base off => exact Encoding.ldbLoc h ty d base off
  | lda h ty ord scp d m => exact Encoding.lda h ty ord scp d m
  | str h ty ord scp c m => exact Encoding.str h ty ord scp c m
  | atom h ty op ord scp d a b off c => exact Encoding.atom h ty op ord scp d a b off c
  | atomn h ty op ord scp a b off c => exact Encoding.atomn h ty op ord scp a b off c
  | acas h ty ord scp d a b off c => exact Encoding.acas h ty ord scp d a b off c
  | fence h ord scp => exact Encoding.fence h ord scp
  | prefg h m => exact Encoding.prefg h m
  | cflush h m => exact Encoding.cflush h m
  | cflushAll h => exact Encoding.cflushAll h
  | abinit h b a => exact Encoding.abinit h b a
  | abexp h b a => exact Encoding.abexp h b a
  | abarr h b a => exact Encoding.abarr h b a
  | abwait h b a => exact Encoding.abwait h b a
  | abtest h d b a => exact Encoding.abtest h d b a
  | abtestPar h d b a => exact Encoding.abtestPar h d b a
  | abret h b => exact Encoding.abret h b
  | abq h w d b => exact Encoding.abq h w d b
  | cbar h => exact Encoding.cbar h
  | sbar h => exact Encoding.sbar h
  | tfetch h ord scp s a b c => exact Encoding.tfetch h ord scp s a b c
  | tstore h ord scp s a b c => exact Encoding.tstore h ord scp s a b c
  | twin h a => exact Encoding.twin h a
  | twq h w d => exact Encoding.twq h w d
  | mcopy h ord scp s a b c => exact Encoding.mcopy h ord scp s a b c
  | mfill h ord scp s a b c => exact Encoding.mfill h ord scp s a b c
  | mred h ty op ord scp s a b c => exact Encoding.mred h ty op ord scp s a b c
  | msnap h ord scp d a b => exact Encoding.msnap h ord scp d a b
  | mclose h ord scp a => exact Encoding.mclose h ord scp a
  | tdset h ty d a b => exact Encoding.tdset h ty d a b
  | tdtag h d tag => exact Encoding.tdtag h d tag
  | mma h ty inc f d a b rows cols depth => exact Encoding.mma h ty inc f d a b rows cols depth
  | mmas h ty inc d a b rows cols depth => exact Encoding.mmas h ty inc d a b rows cols depth
  | mzero h d ms => exact Encoding.mzero h d ms
  | mew h ty op d a ms => exact Encoding.mew h ty op d a ms
  | mst h ty rnd sat d a ms => exact Encoding.mst h ty rnd sat d a ms
  | mlda h ty d a ms => exact Encoding.mlda h ty d a ms
  | mrdv h ty rnd sat part d a r => exact Encoding.mrdv h ty rnd sat part d a r
  | mwrv h ty part d a r => exact Encoding.mwrv h ty part d a r
  | mtrn h d a => exact Encoding.mtrn h d a
  | mfen h ord scp s => exact Encoding.mfen h ord scp s
  | mfenNoarrive h scp => exact Encoding.mfenNoarrive h scp
  | mig h d base idx off j => exact Encoding.mig h d base idx off j
  | home h => exact Encoding.home h
  | migset h part wb mask => exact Encoding.migset h part wb mask
  | migsetHome h j => exact Encoding.migsetHome h j
  | migq h w d => exact Encoding.migq h w d
  | bsadd h sat d a b c wa wb wd sg => exact Encoding.bsadd h sat d a b c wa wb wd sg
  | bsmul h sat d a b c wa wb wd sg => exact Encoding.bsmul h sat d a b c wa wb wd sg
  | bsmac h sat d a b c wa wb wd sg => exact Encoding.bsmac h sat d a b c wa wb wd sg
  | bscmp h cond d a b c wa wb wd sg => exact Encoding.bscmp h cond d a b c wa wb wd sg
  | bspopc h d a c wa sg => exact Encoding.bspopc h d a c wa sg
  | xsend h ord scp d a b c => exact Encoding.xsend h ord scp d a b c
  | xsendNobar h ord scp a b c => exact Encoding.xsendNobar h ord scp a b c
  | xsendf h ord scp d a b c => exact Encoding.xsendf h ord scp d a b c
  | xget h ty ord scp d a b => exact Encoding.xget h ty ord scp d a b
  | xatom h ty op ord scp d a b c => exact Encoding.xatom h ty op ord scp d a b c
  | xmcast h ord scp d a b g len slot bv => exact Encoding.xmcast h ord scp d a b g len slot bv
  | xfence h scp => exact Encoding.xfence h scp
  | xred h ty srnd ord scp d a b c => exact Encoding.xred h ty srnd ord scp d a b c
  | xresid h op => exact Encoding.xresid h op
  | xgrpSet h g a => exact Encoding.xgrpSet h g a
  | xgrpGet h g a => exact Encoding.xgrpGet h g a
  | lnch h d a => exact Encoding.lnch h d a
  | larm h d a b => exact Encoding.larm h d a b
  | ldep h a => exact Encoding.ldep h a
  | lprio h a b => exact Encoding.lprio h a b
  | lwait h d a => exact Encoding.lwait h d a
  | rrset h a b c own ctx n => exact Encoding.rrset h a b c own ctx n
  | rrinv h own ctx mask => exact Encoding.rrinv h own ctx mask
  | pginv h a b => exact Encoding.pginv h a b
  | pginvMod h a => exact Encoding.pginvMod h a
  | wcsld h a m n => exact Encoding.wcsld h a m n
  | wcsldAll h a m n => exact Encoding.wcsldAll h a m n
  | evpost h a b c => exact Encoding.evpost h a b c
  | preq h d a => exact Encoding.preq h d a
  | preqRel h a => exact Encoding.preqRel h a
  | dbgrd h w d a => exact Encoding.dbgrd h w d a
  | gensweep h => exact Encoding.gensweep h
  | gensweepSlice h => exact Encoding.gensweepSlice h
  | _ => exact fun wf => nomatch (show false = true from wf)

/-- Settles O33: the round trip of each form. -/
theorem decodeEncode : Obligations.DecodeEncode := encoding_statement

/-! From the word to the instruction. -/

/-- What the decoder accepts, it reads from its fields, well formed and encoding to those fields. -/
theorem decodeRaw_eq_ok {r : Raw} {i : Instr} (h : decodeRaw r = .ok i) :
    candidate r = some i ∧ i.wf = true ∧ encodeRaw i = r := by
  unfold decodeRaw at h
  cases read : candidate r with
  | none => simp [read] at h
  | some j =>
    simp only [read] at h
    split at h
    · next accepted =>
      cases h
      simpa using accepted
    · cases h

/-- A pad has no fields: `encodeRaw` gives it the reserved class 0xF, which no role reads. -/
theorem ne_pad_of_decodeRaw {r : Raw} {i : Instr} (h : decodeRaw r = .ok i) (p : BitVec 30) : i ≠ .pad p := by
  rintro rfl
  obtain ⟨read, -, rfl⟩ := decodeRaw_eq_ok h
  cases read

theorem encode_of_ne_pad {i : Instr} (h : ∀ p, i ≠ .pad p) : encode i = (encodeRaw i).toBits := by
  unfold encode
  split
  · next p => exact absurd rfl (h p)
  · rfl

theorem bytes_of_ne_pad {i : Instr} (h : ∀ p, i ≠ .pad p) : i.bytes = (encodeRaw i).len.bytes := by
  unfold Instr.bytes
  split
  · next p => exact absurd rfl (h p)
  · rfl

/-- The bits below n under the m bits from n on. -/
theorem append_low (w : BitVec 128) (n m : Nat) : w.extractLsb' n m ++ w.extractLsb' 0 n = w.extractLsb' 0 (m + n) :=
  BitVec.extractLsb'_append_extractLsb'_eq_extractLsb' (Nat.zero_add n).symm

/-! Pad words. -/

theorem lenBytes_pad {w : BitVec 128} (pad : w.extractLsb' 0 2 = 3) : lenBytes w = 4 := by
  rw [lenBytes, pad]
  rfl

/-- A pad word is its own encoding. -/
theorem encode_pad_getLsbD {w : BitVec 128} (pad : w.extractLsb' 0 2 = 3) {n : Nat} (h : n < 32) :
    (encode (.pad (w.extractLsb' 2 30))).getLsbD n = w.getLsbD n := by
  show ((w.extractLsb' 2 30 ++ (3 : BitVec 2)).setWidth 128).getLsbD n = _
  rw [← pad, append_low w 2 30]
  simp [h, show n < 128 by omega]

/-! Words of fields. -/

/-- The length that LEN gives a word that is no pad (Table 8-1). -/
def lenOf (x : BitVec 2) : Len := match x.toNat with
  | 1 => .w96
  | 2 => .w128
  | _ => .w64

theorem ofBits_len (w : BitVec 128) : (Raw.ofBits w).len = lenOf (w.extractLsb' 0 2) := rfl

theorem lenOf_code {x : BitVec 2} (h : x ≠ 3) : (lenOf x).code = x := by
  revert x
  decide

theorem ofBits_len_code {w : BitVec 128} (noPad : w.extractLsb' 0 2 ≠ 3) : (Raw.ofBits w).len.code = w.extractLsb' 0 2 :=
  lenOf_code noPad

theorem ofBits_len_bytes {w : BitVec 128} (noPad : w.extractLsb' 0 2 ≠ 3) : (Raw.ofBits w).len.bytes = lenBytes w := by
  rw [ofBits_len, lenBytes]
  generalize w.extractLsb' 0 2 = x at noPad ⊢
  revert x
  decide

theorem ofBits_ext (w : BitVec 128) : (Raw.ofBits w).ext = match (Raw.ofBits w).len with
    | .w64 => 0
    | .w96 => (w.extractLsb' 64 32).setWidth 64
    | .w128 => w.extractLsb' 64 64 := rfl

theorem ofBool_getLsbD (w : BitVec 128) (n : Nat) : BitVec.ofBool (w.getLsbD n) = w.extractLsb' n 1 := by
  ext i hi
  obtain rfl : i = 0 := by omega
  simp

/-- The fields of a word, put together again, are its low 64 bits under the extension. -/
theorem toBits_ofBits {w : BitVec 128} (noPad : w.extractLsb' 0 2 ≠ 3) :
    (Raw.ofBits w).toBits = (Raw.ofBits w).ext ++ w.extractLsb' 0 64 := by
  rw [Raw.toBits, ofBits_len_code noPad]
  simp only [Raw.ofBits, ofBool_getLsbD]
  rw [append_low w 2 1, append_low w 3 5, append_low w 8 4, append_low w 12 3, append_low w 15 1, append_low w 16 8,
    append_low w 24 8, append_low w 32 8, append_low w 40 8, append_low w 48 8, append_low w 56 8]

/-- The fields of a word hold every bit of its length. -/
theorem toBits_ofBits_getLsbD {w : BitVec 128} (noPad : w.extractLsb' 0 2 ≠ 3) {n : Nat} (h : n < 8 * lenBytes w) :
    (Raw.ofBits w).toBits.getLsbD n = w.getLsbD n := by
  rw [← ofBits_len_bytes noPad] at h
  rw [toBits_ofBits noPad, BitVec.getLsbD_append, ofBits_ext]
  by_cases low : n < 64
  · simp [low]
  · have above : 64 + (n - 64) = n := by omega
    cases len : (Raw.ofBits w).len with
    | w64 => simp only [len, Len.bytes] at h; omega
    | w96 => simp only [len, Len.bytes] at h; simp [low, above, show n - 64 < 32 by omega, show n - 64 < 64 by omega]
    | w128 => simp only [len, Len.bytes] at h; simp [low, above, show n - 64 < 64 by omega]

/-- Settles O34: a pad word is read as it stands; any other word holds the fields that its instruction encodes to. -/
theorem decodedBits : Obligations.DecodedBits := by
  unfold Obligations.DecodedBits
  intro w i h
  unfold decodeBits at h
  by_cases pad : w.extractLsb' 0 2 = 3
  · rw [if_pos pad] at h
    cases h
    rw [lenBytes_pad pad]
    exact ⟨rfl, rfl, fun n below => encode_pad_getLsbD pad below⟩
  · rw [if_neg pad] at h
    obtain ⟨-, wf, fields⟩ := decodeRaw_eq_ok h
    have noPad := ne_pad_of_decodeRaw h
    refine ⟨wf, ?_, fun n below => ?_⟩
    · rw [bytes_of_ne_pad noPad, fields, ofBits_len_bytes pad]
    · rw [encode_of_ne_pad noPad, fields, toBits_ofBits_getLsbD pad below]

/-! Reserved words and worked words. -/

/-- Settles O35: no role reads class 0xF. -/
theorem reservedClass : Obligations.ReservedClass := by
  unfold Obligations.ReservedClass
  intro w noPad cls
  have unread : candidate (Raw.ofBits w) = none := by
    have reads : (Raw.ofBits w).cls = 0xF := cls
    rw [candidate, reads]
    rfl
  rw [decodeBits, if_neg noPad, decodeRaw, unread]

/-- Settles O32: each word is decoded. -/
theorem decodedWords : Obligations.DecodedWords :=
  ⟨rfl, rfl, rfl, rfl, rfl, rfl, rfl, rfl, rfl, rfl, rfl, rfl, rfl, rfl, rfl, rfl, rfl⟩

end Sys2Proof.Proofs.Encoding
end

section
/-!
PROOFS. Fetching and operand forms: a pad word (`Obligations.PadCompletes`), the forms of a fetch block
(`Obligations.FetchedForms`), and a scalar as a vector source (`Obligations.ScalarAsVectorSource`).
-/

namespace Sys2Proof.Proofs.FetchAndOperands

open Sys2Proof Sys2Proof.Machine

/-! Pads (R148). -/

theorem Tab.mod_congr {β : Type} {t : Tab β} {k : Nat} {f g : β → β} (h : ∀ y, Tab.find t k = some y → f y = g y) :
    Tab.mod t k f = Tab.mod t k g := by
  unfold Tab.mod
  cases found : Tab.find t k with
  | none => rfl
  | some y => simp only [h y found]

theorem Tab.mod_id {β : Type} (t : Tab β) (k : Nat) : Tab.mod t k id = t := by
  unfold Tab.mod
  cases found : Tab.find t k with
  | none => rfl
  | some y => exact Tab.put_self t k y found

/-- A change of a PC slot depends only on the slot as it stands. -/
theorem modSlot_congr {s : State} {k : Nat} {b : Bool} {f g : PcSlot → PcSlot}
    (h : f ((s.sheaf k).slot b) = g ((s.sheaf k).slot b)) : s.modSlot k b f = s.modSlot k b g := by
  unfold State.modSlot State.modSheaf
  rw [Tab.mod_congr fun y found => ?_]
  rw [s.sheaf_of_find found] at h
  rw [Sheaf.modSlot, h, Sheaf.modSlot]

theorem Sheaf.modSlot_id (y : Sheaf) (b : Bool) : y.modSlot b id = y := by cases b <;> rfl

theorem modSlot_id (s : State) (k : Nat) (b : Bool) : s.modSlot k b id = s := by
  have same : (fun y : Sheaf => y.modSlot b id) = id := funext fun y => Sheaf.modSlot_id y b
  rw [State.modSlot, same, State.modSheaf, Tab.mod_id]

/-- Settles O18: the pad changes its slot as the slot's liveness says. -/
theorem padCompletes : Obligations.PadCompletes := by
  unfold Obligations.PadCompletes
  refine fun p s => ⟨fun live => ?_, fun dead => ?_⟩
  · exact congrArg Host.Outcome.next (modSlot_congr (if_pos live))
  · have stays : ¬ s.focusSlot.live = true := Bool.eq_false_iff.mp dead
    calc exec (.pad p) s
        = .next (s.modSlot s.focus s.focusB id) := congrArg Host.Outcome.next (modSlot_congr (if_neg stays))
      _ = .next s := by rw [modSlot_id]

/-! Fetch blocks (R147, R149). -/

/-- The block of a PC starts at the multiple of 32 below it. -/
theorem blockOf_toNat (pc : Word64) : (blockOf pc).toNat = pc.toNat / 32 * 32 := by
  have mask : ∀ i < 64, (~~~(31 : Word64)).getLsbD i = decide (5 ≤ i) := by decide
  have cleared : blockOf pc = pc >>> 5 <<< 5 := by
    refine BitVec.eq_of_getLsbD_eq fun i hi => ?_
    rw [blockOf, BitVec.getLsbD_and, mask i hi, BitVec.getLsbD_shiftLeft, BitVec.getLsbD_ushiftRight]
    by_cases inBlock : i < 5
    · simp [inBlock, Nat.not_le.mpr inBlock]
    · simp [hi, inBlock, Nat.le_of_not_lt inBlock, show 5 + (i - 5) = i by omega]
  have := pc.isLt
  rw [cleared, BitVec.toNat_shiftLeft, BitVec.toNat_ushiftRight, Nat.shiftLeft_eq, Nat.shiftRight_eq_div_pow]
  omega

theorem offset_toNat (pc : Word64) : (pc.extractLsb' 0 5).toNat = pc.toNat % 32 := by
  simp [BitVec.extractLsb'_toNat]

theorem eq_blockOf {pc blk : Word64} (h : blk.toNat = pc.toNat / 32 * 32) : blk = blockOf pc :=
  BitVec.eq_of_toNat_eq (h.trans (blockOf_toNat pc).symm)

/-- A fetch returns a kept form of its block where it chooses one, and otherwise the form in memory. -/
theorem fetchBlock_of_kept {s : State} {k : Nat} {pc : Word64} {whole : List Byte}
    (kept : s.keptForm k (blockOf pc) = some whole) : s.fetchBlock k pc = .ok (whole.drop (pc.toNat % 32)) := by
  rw [State.fetchBlock, kept, offset_toNat]

theorem fetchBlock_of_read {s : State} {k : Nat} {pc : Word64} (kept : s.keptForm k (blockOf pc) = none) :
    s.fetchBlock k pc = (s.readBlock (s.ctxOf k) (blockOf pc)).map (List.drop (pc.toNat % 32)) := by
  rw [State.fetchBlock, kept, offset_toNat]
  cases s.readBlock (s.ctxOf k) (blockOf pc) <;> rfl

/-- Settles O59: the two ways of a fetch. -/
theorem fetchedForms : Obligations.FetchedForms := by
  unfold Obligations.FetchedForms
  refine ⟨fun s k pc bs fetched => ?_, fun s k pc blk whole start unkept read => ?_⟩
  · refine ⟨blockOf pc, ?_⟩
    cases kept : s.keptForm k (blockOf pc) with
    | some whole =>
      rw [fetchBlock_of_kept kept] at fetched
      cases fetched
      exact ⟨whole, blockOf_toNat pc, rfl, .inr (s.keptForm_mem k _ whole kept)⟩
    | none =>
      rw [fetchBlock_of_read kept] at fetched
      cases read : s.readBlock (s.ctxOf k) (blockOf pc) with
      | error r => simp [read, Except.map] at fetched
      | ok whole =>
        rw [read] at fetched
        cases fetched
        exact ⟨whole, blockOf_toNat pc, rfl, .inl rfl⟩
  · obtain rfl := eq_blockOf start
    rw [fetchBlock_of_read (s.keptForm_none k _ unkept), read]
    rfl

/-! Scalars in vector sources (R155). -/

/-- Settles O50: of a type of 32 bits the low half of the register, and one source under no tag. -/
theorem scalarAsVectorSource : Obligations.ScalarAsVectorSource := by
  unfold Obligations.ScalarAsVectorSource
  refine fun s k ty n r => ⟨fun L => ?_, rfl⟩
  have low : (s.readS k r.val).extractLsb' 0 32 = (s.readS k r.val).setWidth 32 := Completion.low32_eq_setWidth _
  rw [low]
  rfl

end Sys2Proof.Proofs.FetchAndOperands
end

section
/-!
PROOFS. How an instruction on registers goes on (`Obligations.NextInstruction`): its effect leaves the PC slots of its sheaf alone,
its own slot advances by its length, and refilling fills only a free slot.
-/

namespace Sys2Proof.Proofs.NextInstruction

open Sys2Proof Sys2Proof.Machine Sys2Proof.Claims

/-! A slot that stands at a PC. -/

/-- A slot of a sheaf is live on a mask at a PC, outside a microprogram. -/
def StandsAt (s : State) (k : Nat) (b : Bool) (mask : Word32) (pc : Word64) : Prop :=
  ((s.sheaf k).slot b).live = true ∧ ((s.sheaf k).slot b).mask = mask ∧ ((s.sheaf k).slot b).pc = pc ∧
    ((s.sheaf k).slot b).micro = none

/-- What `StandsAt` and `quiet` read of a sheaf. -/
def standing (b : Bool) (y : Sheaf) : Bool × Word32 × Word64 × Option MicroPos × List Cont :=
  ((y.slot b).live, (y.slot b).mask, (y.slot b).pc, (y.slot b).micro, y.returns)

theorem StandsAt.congr {s t : State} {k : Nat} {b : Bool} {mask : Word32} {pc : Word64} (h : StandsAt s k b mask pc)
    (same : standing b (t.sheaf k) = standing b (s.sheaf k)) : StandsAt t k b mask pc := by
  simp only [standing, Prod.mk.injEq] at same
  obtain ⟨live, mask, pc, micro, -⟩ := same
  simpa only [StandsAt, live, mask, pc, micro] using h

theorem quiet_congr {s t : State} {k : Nat} {b : Bool} (h : quiet s k) (sram : t.badSram = s.badSram)
    (same : standing b (t.sheaf k) = standing b (s.sheaf k)) : quiet t k := by
  simp only [standing, Prod.mk.injEq] at same
  obtain ⟨-, -, -, -, returns⟩ := same
  simpa only [quiet, sram, returns] using h

/-- A live slot is one of a sheaf that is there. -/
theorem StandsAt.found {s : State} {k : Nat} {b : Bool} {mask : Word32} {pc : Word64} (h : StandsAt s k b mask pc) :
    Tab.find s.sheaves k = some (s.sheaf k) := by
  cases found : Tab.find s.sheaves k with
  | some y => rw [s.sheaf_of_find found]
  | none =>
    have absent : s.sheaf k = Sheaf.empty := by simp [State.sheaf, Tab.get, found]
    have live := h.1
    rw [absent] at live
    cases b <;> cases live

theorem StandsAt.sheaf_modSheaf {s : State} {k : Nat} {b : Bool} {mask : Word32} {pc : Word64} (h : StandsAt s k b mask pc)
    (f : Sheaf → Sheaf) : (s.modSheaf k f).sheaf k = f (s.sheaf k) :=
  s.sheaf_modSheaf_same h.found f

theorem slot_setSlot_same (y : Sheaf) (b : Bool) (x : PcSlot) : (y.setSlot b x).slot b = x := by cases b <;> rfl

theorem slot_setSlot_other (y : Sheaf) {b c : Bool} (h : c ≠ b) (x : PcSlot) : (y.setSlot c x).slot b = y.slot b := by
  obtain rfl := Bool.eq_not.mpr h
  cases b <;> rfl

theorem returns_setSlot (y : Sheaf) (b : Bool) (x : PcSlot) : (y.setSlot b x).returns = y.returns := by cases b <;> rfl

/-! Refilling (R31). -/

/-- Of two slots that are not both live, the one that is filled is not the live one. -/
theorem freeSlot_ne {y : Sheaf} {b : Bool} (live : (y.slot b).live = true) (one : ¬ (y.a.live = true ∧ y.b.live = true)) :
    y.a.live ≠ b := by
  cases b with
  | false => exact fun free => by rw [Sheaf.slot] at live; simp_all
  | true => exact fun full => one ⟨full, live⟩

/-- A change of the sheaf that keeps the slot, and adds no return. -/
theorem StandsAt.modSheaf {s : State} {k : Nat} {b : Bool} {mask : Word32} {pc : Word64} (h : StandsAt s k b mask pc)
    (calm : quiet s k) {f : Sheaf → Sheaf} (slot : (f (s.sheaf k)).slot b = (s.sheaf k).slot b)
    (returns : (f (s.sheaf k)).returns ⊆ (s.sheaf k).returns) :
    StandsAt (s.modSheaf k f) k b mask pc ∧ quiet (s.modSheaf k f) k := by
  unfold StandsAt quiet
  rw [h.sheaf_modSheaf, slot]
  exact ⟨h, calm.1, fun c mem => calm.2 c (returns mem)⟩

/-- One act of refilling leaves a live slot where it stands; a quiet sheaf stays quiet. -/
theorem refillOnce_standsAt {s t : State} {k : Nat} {b : Bool} {mask : Word32} {pc : Word64} (h : StandsAt s k b mask pc)
    (calm : quiet s k) (acts : s.refillOnce k = some t) : StandsAt t k b mask pc ∧ quiet t k := by
  unfold State.refillOnce at acts
  dsimp only at acts
  split at acts
  · cases acts
  next one =>
  have other := freeSlot_ne h.1 one
  split at acts
  next c cs waiting =>
    obtain ⟨noFault, noTrap⟩ := calm.2 c (by simp [waiting])
    simp only [noFault, noTrap, if_true, Option.some.injEq] at acts
    subst acts
    refine h.modSheaf calm (slot_setSlot_other _ other _) ?_
    rw [returns_setSlot, waiting]
    exact List.subset_cons_self c cs
  next none_waits =>
    split at acts
    · cases acts
    split at acts
    · cases acts
      refine h.modSheaf calm (slot_setSlot_other _ other _) ?_
      rw [returns_setSlot]
      exact List.Subset.refl _
    split at acts
    · cases acts
      refine h.modSheaf calm ?_ ?_
      · split
        · rfl
        · exact slot_setSlot_other _ other _
      · split
        · exact List.Subset.refl _
        · rw [returns_setSlot]
          exact List.Subset.refl _
    · cases acts

theorem refillFuel_standsAt (n : Nat) {s : State} {k : Nat} {b : Bool} {mask : Word32} {pc : Word64}
    (h : StandsAt s k b mask pc) (calm : quiet s k) : StandsAt (State.refillFuel n s k) k b mask pc := by
  induction n generalizing s with
  | zero => exact h
  | succ n ih =>
    unfold State.refillFuel
    cases acts : s.refillOnce k with
    | none => exact h
    | some t =>
      obtain ⟨stands, calm⟩ := refillOnce_standsAt h calm acts
      exact ih stands calm

/-- A sheaf with a live slot has not ended. -/
theorem checkEnd_of_standsAt {s : State} {k : Nat} {b : Bool} {mask : Word32} {pc : Word64} (h : StandsAt s k b mask pc) :
    s.checkEnd k = s := by
  have live : ((s.sheaf k).a.live || (s.sheaf k).b.live) = true := by
    have own := h.1
    cases b <;> simp_all [Sheaf.slot]
  unfold State.checkEnd
  simp [live]

theorem refill_standsAt {s : State} {k : Nat} {b : Bool} {mask : Word32} {pc : Word64} (h : StandsAt s k b mask pc)
    (calm : quiet s k) : StandsAt (s.refill k) k b mask pc := by
  have readable : s.badStack k 0 = [] := by simp [State.badStack, State.badGranules, calm.1]
  have filled := refillFuel_standsAt 80 h calm
  unfold State.refill
  split
  · exact h
  · simp only [readable, ne_eq, not_true, if_false]
    rwa [checkEnd_of_standsAt filled]

/-! Going on. -/

theorem mark_standsAt {s : State} {k : Nat} {b : Bool} {mask : Word32} {pc : Word64} (h : StandsAt s k b mask pc)
    (calm : quiet s k) (sw : Bool) : StandsAt (s.mark k sw) k b mask pc ∧ quiet (s.mark k sw) k := by
  unfold State.mark
  split
  · exact h.modSheaf calm rfl (List.Subset.refl _)
  · exact ⟨h, calm⟩

/-- Outside a microprogram an instruction that ends passes its slot on by its length. -/
theorem advance_standsAt {s : State} {k : Nat} {b : Bool} {mask : Word32} {pc : Word64} (h : StandsAt s k b mask pc)
    (calm : quiet s k) (n : Nat) :
    StandsAt (s.advance k b n) k b mask (pc + BitVec.ofNat 64 n) ∧ quiet (s.advance k b n) k := by
  have found := h.found
  obtain ⟨live, onMask, atPc, noMicro⟩ := h
  have moved : s.advance k b n = s.modSlot k b fun sl => { sl with pc := sl.pc + BitVec.ofNat 64 n } := by
    rw [State.advance, noMicro]
  have slot : ((s.advance k b n).sheaf k).slot b =
      { (s.sheaf k).slot b with pc := ((s.sheaf k).slot b).pc + BitVec.ofNat 64 n } := by
    rw [moved, State.modSlot, s.sheaf_modSheaf_same found, Sheaf.modSlot, slot_setSlot_same]
  have returns : ((s.advance k b n).sheaf k).returns = (s.sheaf k).returns := by
    rw [moved, State.modSlot, s.sheaf_modSheaf_same found, Sheaf.modSlot, returns_setSlot]
  have sram : (s.advance k b n).badSram = s.badSram := by rw [moved]; rfl
  refine ⟨?_, ?_⟩
  · unfold StandsAt
    rw [slot]
    exact ⟨live, onMask, congrArg (· + BitVec.ofNat 64 n) atPc, noMicro⟩
  · unfold quiet
    rw [returns, sram]
    exact calm

theorem goOn_next_standsAt {t : State} {x : Ex} {mask : Word32} {pc : Word64} (h : StandsAt t x.k x.b mask pc)
    (calm : quiet t x.k) (i : Instr) (g : Hdr) (replay : Word32) :
    StandsAt (t.goOn i g x replay .next) x.k x.b mask (pc + BitVec.ofNat 64 i.bytes) := by
  obtain ⟨advanced, calm⟩ := advance_standsAt h calm i.bytes
  obtain ⟨marked, calm⟩ := mark_standsAt advanced calm g.sw
  exact refill_standsAt marked calm

/-! Issuing. -/

theorem standing_modSlot {b c : Bool} {f : PcSlot → PcSlot} (y : Sheaf)
    (same : ∀ sl, (f sl).live = sl.live ∧ (f sl).mask = sl.mask ∧ (f sl).pc = sl.pc ∧ (f sl).micro = sl.micro) :
    standing b (y.modSlot c f) = standing b y := by
  obtain ⟨live, mask, pc, micro⟩ := same (y.slot c)
  by_cases own : c = b
  · subst own
    simp only [standing, Sheaf.modSlot, slot_setSlot_same, returns_setSlot, live, mask, pc, micro]
  · simp only [standing, Sheaf.modSlot, slot_setSlot_other _ own, returns_setSlot]

theorem standing_issued (b c : Bool) (y : Sheaf) : standing b (y.issued c) = standing b y := by
  unfold Sheaf.issued
  dsimp only
  split
  · rfl
  · exact standing_modSlot _ fun _ => ⟨rfl, rfl, rfl, rfl⟩

/-- Selecting a slot and using its replay mask moves no slot. -/
theorem standing_entered (s : State) (i : Instr) (h : Hdr) (k : Nat) (b : Bool) :
    standing b ((s.entered i h).sheaf k) = standing b (s.sheaf k) := by
  have replayed := (s.picked (s.ex i h)).sheaf_modSheaf_part (s.ex i h).k k (·.modSlot (s.ex i h).b fun sl =>
    if sl.active then sl else { sl with replay := 0 }) (standing b)
    fun y => standing_modSlot y fun sl => by split <;> exact ⟨rfl, rfl, rfl, rfl⟩
  have picked := s.sheaf_modSheaf_part (s.ex i h).k k (·.issued (s.ex i h).b) (standing b)
    fun y => standing_issued b (s.ex i h).b y
  exact replayed.trans picked

/-! The effects of the tables of registers. -/

/-- An effect leaves the PC slots and the returns of a sheaf, and the errors of SRAM, as they were. -/
def KeepsPaths (k : Nat) (s t : State) : Prop := t.badSram = s.badSram ∧ ∀ b, standing b (t.sheaf k) = standing b (s.sheaf k)

theorem KeepsPaths.of_eq {k : Nat} {s t : State} (sram : t.badSram = s.badSram) (sheaves : t.sheaves = s.sheaves) :
    KeepsPaths k s t :=
  ⟨sram, fun b => by rw [State.sheaf, sheaves, State.sheaf]⟩

theorem KeepsPaths.refl (k : Nat) (s : State) : KeepsPaths k s s := .of_eq rfl rfl

theorem KeepsPaths.ite {k : Nat} {s t u : State} {c : Prop} [Decidable c] (h : KeepsPaths k s t) (g : KeepsPaths k s u) :
    KeepsPaths k s (if c then t else u) := by
  split
  · exact h
  · exact g

theorem KeepsPaths.trans {k : Nat} {s t u : State} (h : KeepsPaths k s t) (g : KeepsPaths k t u) : KeepsPaths k s u :=
  ⟨g.1.trans h.1, fun b => (g.2 b).trans (h.2 b)⟩

theorem KeepsPaths.modSheaf {k j : Nat} {s t : State} (h : KeepsPaths k s t) (f : Sheaf → Sheaf)
    (same : ∀ b y, standing b (f y) = standing b y) : KeepsPaths k s (t.modSheaf j f) :=
  h.trans ⟨rfl, fun b => t.sheaf_modSheaf_part j k f (standing b) (same b)⟩

theorem KeepsPaths.writeS (s : State) (k j r : Nat) (x : Word64) : KeepsPaths k s (s.writeS j r x) := .of_eq rfl rfl

theorem KeepsPaths.writeP (s : State) (k j r : Nat) (m x : Word32) : KeepsPaths k s (s.writeP j r m x) :=
  .of_eq (by simp) (by simp)

theorem KeepsPaths.writeV (s : State) (k j r : Nat) (m : Word32) (f : Nat → Word32) (tag : BitVec 4) :
    KeepsPaths k s (s.writeV j r m f tag) :=
  .of_eq (by simp) (by simp)

theorem KeepsPaths.writeTy (s : State) (k : Nat) (x : Ex) (ty : Ty) (d : VReg) (tag : BitVec 4) (f : Nat → Word64) :
    KeepsPaths k s (s.writeTy x ty d tag f) := by
  unfold State.writeTy State.writeV64
  split
  · exact (writeV _ _ _ _ _ _ _).trans (writeV _ _ _ _ _ _ _)
  · exact writeV _ _ _ _ _ _ _

theorem KeepsPaths.writeTags (s : State) (k : Nat) (x : Ex) (ty : Ty) (d : VReg) (lo hi : BitVec 4) (f : Nat → Word64) :
    KeepsPaths k s (s.writeTags x ty d lo hi f) := by
  unfold State.writeTags
  dsimp only
  split
  · exact (writeV _ _ _ _ _ _ _).trans (writeV _ _ _ _ _ _ _)
  · exact writeV _ _ _ _ _ _ _

theorem KeepsPaths.srndStep {k j : Nat} {s t : State} (h : KeepsPaths k s t) (rnd : Rnd) : KeepsPaths k s (t.srndStep j rnd) := by
  unfold State.srndStep
  split
  · exact h.modSheaf _ fun _ _ => rfl
  · exact h

/-- An instruction of a table issues with the table's header and checks, and its effect cannot trap and leaves the paths of the
sheaf alone. -/
def Plain (table : State → Instr → Option Form) (i : Instr) (s : State) : Prop :=
  ∀ F, table s i = some F → i.wf = true →
    ∃ f, exec i s = .next (issue i F.h F.c (simple f) s) ∧ ∀ x t, KeepsPaths x.k t (f x t)

theorem Plain.of_none {table : State → Instr → Option Form} {i : Instr} {s : State} (h : table s i = none) : Plain table i s :=
  fun _ row => nomatch h.symm.trans row

/-- The registers that the model and the table name may be written in different ways. -/
theorem Plain.of_uses {table : State → Instr → Option Form} {i : Instr} {s : State} {h : Hdr} {us vs : List Use}
    {f g : Ex → State → State} (row : table s i = form h us g) (run : exec i s = .next (issue i h { uses := vs } (simple f) s))
    (uses : i.wf = true → vs = us) (keeps : ∀ x t, KeepsPaths x.k t (f x t)) : Plain table i s := by
  intro F rowF wf
  obtain rfl : _ = F := Option.some.inj (row.symm.trans rowF)
  obtain rfl := uses wf
  exact ⟨f, run, keeps⟩

theorem Plain.of_effect {table : State → Instr → Option Form} {i : Instr} {s : State} {h : Hdr} {us : List Use}
    {f g : Ex → State → State} (row : table s i = form h us g) (run : exec i s = .next (issue i h { uses := us } (simple f) s))
    (keeps : ∀ x t, KeepsPaths x.k t (f x t)) : Plain table i s :=
  .of_uses row run (fun _ => rfl) keeps

theorem scalar_plain (i : Instr) (s : State) : Plain scalarForm i s := by
  cases i with
  | smov | smovi | smovq | sadd | ssub | smul | smulh | sdiv | srem | sand | sor | sxor | sshl | sshr | ssar | smin | smax | scmp
  | ssel | slea | sclz | spopc | sbfe | sbfi => exact .of_effect rfl rfl fun _ _ => .writeS _ _ _ _ _
  | _ => exact .of_none rfl

theorem vecInt_plain (i : Instr) (s : State) : Plain vecIntForm i s := by
  cases i with
  | vmov | vsel => exact .of_effect rfl rfl fun _ _ => .writeTags _ _ _ _ _ _ _ _
  | vcmp => exact .of_effect rfl rfl fun _ _ => .writeP _ _ _ _ _ _
  | vmovi | vidx | vadd | vsub | vadds | vsubs | vmul | vmulh | vmad | vmin | vmax | vabs | vneg | vand | vor | vxor | vnot
  | vshl | vshr | vsar | vrot | vbfe | vbfi | vclz | vpopc | vbrev | vlea =>
    exact .of_effect rfl rfl fun _ _ => .writeTy _ _ _ _ _ _ _
  | _ => exact .of_none rfl

section

variable {s : State} {i : Instr} {h : Hdr} {ty : Ty} {rnd : Rnd} {d : VReg} {a c : VSrc} {b : BSrc}

theorem floatCr_plain {us : List Use} {v w : State → Nat → Nat → Nat → FV} (row : floatForm s i = fr h ty rnd d us v)
    (run : exec i s = .next (floatCr i h ty rnd d us w s)) : Plain floatForm i s :=
  .of_effect row run fun _ _ => .srndStep (.writeTy _ _ _ _ _ _ _) _

theorem float1_plain {v w : FV → FV} (row : floatForm s i = fr1 h ty rnd d a v)
    (run : exec i s = .next (float1 i h ty rnd d a w s)) : Plain floatForm i s :=
  floatCr_plain row run

theorem float2_plain {v w : FV → FV → FV} (row : floatForm s i = fr2 h ty rnd d a b v)
    (run : exec i s = .next (float2 i h ty rnd d a b w s)) : Plain floatForm i s :=
  floatCr_plain row run

theorem float3_plain {v w : FV → FV → FV → FV} (row : floatForm s i = fr3 h ty rnd d a b c v)
    (run : exec i s = .next (float3 i h ty rnd d a b c w s)) : Plain floatForm i s :=
  floatCr_plain row run

theorem vec1_plain {table : State → Instr → Option Form} {tag tag' : BitVec 4} {v w : Word64 → Word64}
    (row : table s i = v1 h ty d a tag v) (run : exec i s = .next (vec1 i h ty d a tag' w s)) : Plain table i s :=
  .of_effect row run fun _ _ => .writeTy _ _ _ _ _ _ _

/-- An instruction given by its encodings is one of a single operand. -/
theorem floatBits_plain {tag : BitVec 4} {v : Word64 → Word64} {w : Nat → Nat} (row : floatForm s i = v1 h ty d a tag v)
    (run : exec i s = .next (floatBits i h ty d a w s)) : Plain floatForm i s :=
  vec1_plain row (run.trans (congrArg Host.Outcome.next (floatBits.eq_1 ..)))

end

theorem float_plain (i : Instr) (s : State) : Plain floatForm i s := by
  cases i with
  | vfcmp => exact .of_effect rfl rfl fun _ _ => .writeP _ _ _ _ _ _
  | vfclass => exact .of_effect rfl rfl fun _ _ => .writeV _ _ _ _ _ _ _
  | vfabs | vfneg => exact floatBits_plain (by rw [floatForm]) rfl
  | vrcp | vrsq | vexp2 | vlog2 | vsin | vcos | vtanh => exact floatBits_plain (by rw [floatForm, ap]) rfl
  | vsqrt | vfloor | vceil | vfract => exact float1_plain (by rw [floatForm]) rfl
  | vfadd | vfsub | vfmul | vfmin | vfmax | vfdiv => exact float2_plain (by rw [floatForm]) rfl
  | vfma | vfnma => exact float3_plain (by rw [floatForm]) rfl
  | vfscale => exact floatCr_plain (by rw [floatForm]) rfl
  | _ => exact .of_none rfl

/-- The source type of VPACK (R218). -/
theorem packSource_eq (dt : Ty) :
    (if packInt dt = true then Ty.i32 else .f32) = if dt = .i8x4 ∨ dt = .i4x8 then .i32 else .f32 := by
  cases dt <;> rfl

theorem vpack_plain (s : State) (h : Hdr) (dt : Ty) (rnd : Rnd) (sat : Bool) (d : VReg) (a : VSrc) (b : BSrc) (p : Fin 8) :
    Plain convertForm (.vpack h dt rnd sat d a b p) s :=
  .of_uses rfl rfl (fun _ => by rw [packSource_eq]) fun _ _ => .srndStep (.writeV _ _ _ _ _ _ _) _

theorem vquant_plain (s : State) (h : Hdr) (dt : Ty) (rnd : Rnd) (d : VReg) (a : VSrc) (c : SReg) (p : Fin 8) :
    Plain convertForm (.vquant h dt rnd d a c p) s :=
  .of_effect rfl rfl fun _ _ =>
    have stored := KeepsPaths.srndStep ((KeepsPaths.writeV _ _ _ _ _ _ _).trans (.writeS _ _ _ _ _)) rnd
    .ite (stored.modSheaf _ fun _ _ => rfl) stored

/-- A dot product, whose accumulator carries the tag that its table gives (R223). -/
theorem vdot_plain {s : State} {i : Instr} {h : Hdr} {ty : Ty} {rnd : Rnd} {sat : Bool} {d : VReg} {a : VSrc} {b : BSrc}
    {tag : BitVec 4} {g : Ex → State → State}
    (row : convertForm s i = form h (vmerge d (some tag) ++ srcTyped 1 ty a ++ bsrcTyped ty b) g)
    (run : exec i s = .next (vdot i h ty rnd sat d a b s))
    (tags : i.wf = true → (if packInt ty = true then tyTag .i32 else tyTag .f32) = tag) : Plain convertForm i s :=
  .of_uses row (run.trans (congrArg Host.Outcome.next (vdot.eq_1 ..))) (fun wf => by rw [tags wf]) fun _ _ =>
    .srndStep (.writeV _ _ _ _ _ _ _) _

theorem tyOk_of_wf {i : Instr} (wf : i.wf = true) : i.tyOk = true := by
  simp only [Instr.wf, Bool.and_eq_true] at wf
  obtain ⟨⟨⟨⟨-, tyOk⟩, -⟩, -⟩, -⟩ := wf
  exact tyOk

theorem vdot8_plain (s : State) (h : Hdr) (ty : Ty) (rnd : Rnd) (sat : Bool) (d : VReg) (a : VSrc) (b : BSrc) :
    Plain convertForm (.vdot8 h ty rnd sat d a b) s :=
  vdot_plain rfl rfl fun wf => by
    have types : (ty == .i8x4 || ty == .e4m3 || ty == .e5m2) = true := tyOk_of_wf wf
    revert types
    cases ty <;> decide

theorem vdot4_plain (s : State) (h : Hdr) (ty : Ty) (rnd : Rnd) (sat : Bool) (d : VReg) (a : VSrc) (b : BSrc) :
    Plain convertForm (.vdot4 h ty rnd sat d a b) s :=
  vdot_plain rfl rfl fun wf => by
    have types : (ty == .i4x8 || ty == .e2m1) = true := tyOk_of_wf wf
    revert types
    cases ty <;> decide

theorem convert_plain (i : Instr) (s : State) : Plain convertForm i s := by
  cases i with
  | vcvt => exact .of_effect rfl rfl fun _ _ => .srndStep (.writeTy _ _ _ _ _ _ _) _
  | vpack h dt rnd sat d a b p => exact vpack_plain s h dt rnd sat d a b p
  | vunpk | vsplit6 | vjoin6 | vtag => exact .of_effect rfl rfl fun _ _ => .writeV _ _ _ _ _ _ _
  | vquant h dt rnd d a c p => exact vquant_plain s h dt rnd d a c p
  | vdeq => exact .of_effect rfl rfl fun _ _ => .srndStep (.writeV _ _ _ _ _ _ _) _
  | vdot8 h ty rnd sat d a b => exact vdot8_plain s h ty rnd sat d a b
  | vdot4 h ty rnd sat d a b => exact vdot4_plain s h ty rnd sat d a b
  | vsrnd => exact .of_effect rfl rfl fun _ _ => (KeepsPaths.refl _ _).modSheaf _ fun _ _ => rfl
  | vsrndDraw => exact .of_effect rfl rfl fun _ _ => (KeepsPaths.writeS _ _ _ _ _).modSheaf _ fun _ _ => rfl
  | _ => exact .of_none rfl

theorem crossCopy_plain {s : State} {i : Instr} {h : Hdr} {ty : Ty} {d : VReg} {a : VSrc} {bu : List Use} {fill : Option VSrc}
    {src from_ : State → Nat → Nat → Int} (row : crossForm s i = copy s h ty d a bu fill from_)
    (run : exec i s = .next (crossCopy i h ty d a bu fill src s)) : Plain crossForm i s :=
  .of_effect row run fun _ _ => .writeTags _ _ _ _ _ _ _ _

theorem cross_plain (i : Instr) (s : State) : Plain crossForm i s := by
  cases i with
  | vshfl | vbcast | vlrot => exact crossCopy_plain (by rw [crossForm]) rfl
  | vred => exact .of_effect rfl rfl fun _ _ => .srndStep (.writeS _ _ _ _ _) _
  | vscan => exact .of_effect rfl rfl fun _ _ => .srndStep (.writeV _ _ _ _ _ _ _) _
  | vmatch => exact .of_effect rfl rfl fun _ _ => .writeV _ _ _ _ _ _ _
  | vballot | pcnt | pfirst => exact .of_effect rfl rfl fun _ _ => .writeS _ _ _ _ _
  | pset | psetImm | pand | por | pxor | pnot | pmov => exact .of_effect rfl rfl fun _ _ => .writeP _ _ _ _ _ _
  | _ => exact .of_none rfl

theorem Plain.orElse {f g : State → Instr → Option Form} {i : Instr} {s : State} (hf : Plain f i s) (hg : Plain g i s) :
    Plain (fun s i => (f s i).orElse fun _ => g s i) i s := by
  intro F row
  cases left : f s i with
  | some G =>
    simp only [left, Option.orElse_some] at row
    exact hf F (left.trans row)
  | none =>
    simp only [left, Option.orElse_none] at row
    exact hg F row

theorem register_plain (i : Instr) (s : State) : Plain registerForm i s :=
  (scalar_plain i s).orElse ((vecInt_plain i s).orElse ((float_plain i s).orElse ((convert_plain i s).orElse (cross_plain i s))))

/-- Settles O42: the slot stands where it stood until it advances, and refilling leaves it there. -/
theorem nextInstruction : Obligations.NextInstruction := by
  unfold Obligations.NextInstruction
  intro i s F row wf issued calm noMicro
  obtain ⟨f, run, keeps⟩ := register_plain i s F row wf
  obtain ⟨live, -, -, -, -, -⟩ := State.issues_parts issued
  obtain ⟨sram, paths⟩ := keeps (s.ex i F.h) (s.entered i F.h)
  have enters := standing_entered s i F.h s.focus s.focusB
  have stands : StandsAt s s.focus s.focusB s.focusSlot.mask s.focusSlot.pc := ⟨live, rfl, rfl, noMicro⟩
  have calmEntered : quiet (s.entered i F.h) s.focus := quiet_congr calm rfl enters
  have done := (stands.congr enters).congr (paths s.focusB)
  have calmDone := quiet_congr calmEntered sram (paths s.focusB)
  obtain ⟨live, mask, pc, -⟩ := goOn_next_standsAt (x := s.ex i F.h) done calmDone i F.h s.focusSlot.replay
  exact ⟨s.completed i F.h f, by rw [run, issue_simple issued], live, mask, pc⟩

end Sys2Proof.Proofs.NextInstruction
end

section
/-!
PROOFS. `Obligations.RegisterFrame` fails: a write of a whole register gives its check bits their right values again (R414), so
an instruction whose destination holds an uncorrectable error takes that register off the list of errors, which is state besides the
destination registers.
-/

namespace Sys2Proof.Proofs.RegisterFrame

open Sys2Proof Sys2Proof.Machine Sys2Proof.Claims

/-- A sheaf at place 0 that runs on all its lanes. -/
def running : Sheaf := { Sheaf.empty with launch := 1, baseGen := 3, a := PcSlot.start 0x80000000 0xFFFFFFFF 63 }

/-- Its scalar register s5 holds an uncorrectable error. -/
def marred : State := { State.reset with sheaves := [(0, running)], badWords := [.scalar 0 5] }

/-- s5 := 7. -/
def move : Instr := .smovq ⟨false, 7, false⟩ 5 7

/-- The words with errors after an instruction. -/
def badWordsAfter (s : State) (i : Instr) : Option (List BadWord) := match exec i s with
  | .next t => some t.badWords
  | _ => none

/-- The move writes s5 as a whole and reads nothing, so it completes, and no word with an error is left. -/
theorem badWordsAfter_move : badWordsAfter marred move = some [] := by decide +kernel

theorem quiet_marred : quiet marred marred.focus := by
  unfold quiet
  decide +kernel

/-- Refutes O41: in `marred` the move completes, and the words with errors are not as they were. -/
theorem not_registerFrame : ¬ Obligations.RegisterFrame := by
  unfold Obligations.RegisterFrame
  intro frame
  obtain ⟨t, run, ⟨only, -⟩, -⟩ := frame move marred _ rfl rfl (by decide +kernel) quiet_marred
  have kept : t.badWords = marred.badWords := (congrArg State.badWords only).trans rfl
  have after : badWordsAfter marred move = some marred.badWords := by simp only [badWordsAfter, run, kept]
  rw [badWordsAfter_move] at after
  exact absurd after (by decide)

end Sys2Proof.Proofs.RegisterFrame
end

section
/-!
PROOFS. How an instruction of the tables issues: the model runs it through `issue` with the header and the checks of its table, so
steps 4 to 6 of Table 19-1 decide what an instruction does that may not execute (`Obligations.PrivilegeTrap`), and one whose Exec
is empty only goes on (`Obligations.EmptyExec`).
-/

namespace Sys2Proof.Proofs.Issuing

open Sys2Proof Sys2Proof.Machine Sys2Proof.Claims Sys2Proof.Proofs.NextInstruction

/-! The tables. -/

/-- An instruction of a table issues with the table's header and checks. -/
def Issued (table : State → Instr → Option Form) (i : Instr) (s : State) : Prop :=
  ∀ F, table s i = some F → i.wf = true → ∃ eff, exec i s = .next (issue i F.h F.c eff s)

theorem Issued.of_none {table : State → Instr → Option Form} {i : Instr} {s : State} (h : table s i = none) : Issued table i s :=
  fun _ row => nomatch h.symm.trans row

theorem Issued.of_row {table : State → Instr → Option Form} {i : Instr} {s : State} {F : Form} (row : table s i = some F)
    (run : ∃ eff, exec i s = .next (issue i F.h F.c eff s)) : Issued table i s := by
  intro G rowG _
  obtain rfl := Option.some.inj (row.symm.trans rowG)
  exact run

theorem Issued.orElse {f g : State → Instr → Option Form} {i : Instr} {s : State} (hf : Issued f i s) (hg : Issued g i s) :
    Issued (fun s i => (f s i).orElse fun _ => g s i) i s := by
  intro F row
  cases left : f s i with
  | some G =>
    simp only [left, Option.orElse_some] at row
    exact hf F (left.trans row)
  | none =>
    simp only [left, Option.orElse_none] at row
    exact hg F row

theorem register_issued (i : Instr) (s : State) : Issued registerForm i s := by
  intro F row wf
  obtain ⟨f, run, -⟩ := register_plain i s F row wf
  exact ⟨simple f, run⟩

theorem control_issued (i : Instr) (s : State) : Issued controlForm i s := by
  cases i with
  | nop | bra | braReg | brp | brpJoin | join | loop | call | callReg | calli | ret | exit | yield | trap | bkpt | tret | mcall
  | waita | sleep | sleepImm | elect => exact .of_row rfl ⟨_, rfl⟩
  | _ => exact .of_none rfl

theorem state_issued (i : Instr) (s : State) : Issued stateForm i s := by
  cases i with
  | xacq | xrel | swrite | genq | rdtime | lread | ctxsave | ctxload => exact .of_row rfl ⟨_, rfl⟩
  | sread h d => cases d with
    | v | s => exact .of_row rfl ⟨_, rfl⟩
  | tagq h d w => cases w with
    | vec a => cases a with
      | v | s => exact .of_row rfl ⟨_, rfl⟩
    | sca | acc => exact .of_row rfl ⟨_, rfl⟩
  | _ => exact .of_none rfl

theorem memory_issued (i : Instr) (s : State) : Issued memoryForm i s := by
  cases i with
  | ldl | stl | lds | sts | ldbLoc | ldg | stg | ldx | stx | ldb | lda | str | atom | atomn | acas | fence | prefg | cflush
  | cflushAll => exact .of_row rfl ⟨_, rfl⟩
  | _ => exact .of_none rfl

theorem barrier_issued (i : Instr) (s : State) : Issued barrierForm i s := by
  cases i with
  | abinit | abexp | abarr | abwait | abtest | abtestPar | abret | abq | cbar | sbar => exact .of_row rfl ⟨_, rfl⟩
  | _ => exact .of_none rfl

theorem far_issued (i : Instr) (s : State) : Issued farForm i s := by
  cases i with
  | tfetch | tstore | twin | twq | mcopy | mred | mfill | msnap | mclose => exact .of_row rfl ⟨_, rfl⟩
  | _ => exact .of_none rfl

theorem matrix_issued (i : Instr) (s : State) : Issued matrixForm i s := by
  cases i with
  | tdset | tdtag | mma | mmas | mzero | mew | mst | mlda | mrdv | mwrv | mtrn | mfen | mfenNoarrive => exact .of_row rfl ⟨_, rfl⟩
  | _ => exact .of_none rfl

theorem migration_issued (i : Instr) (s : State) : Issued migrationForm i s := by
  cases i with
  | mig | home | migset | migsetHome | migq => exact .of_row rfl ⟨_, rfl⟩
  | _ => exact .of_none rfl

theorem bitSerial_issued (i : Instr) (s : State) : Issued bitSerialForm i s := by
  cases i with
  | bsadd | bsmul | bsmac | bscmp | bspopc => exact .of_row rfl ⟨_, rfl⟩
  | _ => exact .of_none rfl

/-- XSEND, with a target barrier or without one, and XSENDF. -/
theorem send_issued {i : Instr} {s : State} {h : Hdr} {ord : Order} {d : Option SReg} {a : VReg} {b c : SReg} {flagged : Bool}
    (row : fabricForm s i = sendForm h ord d a b c flagged)
    (run : exec i s = .next (xsend i h ord d a b c flagged s)) : Issued fabricForm i s := by
  refine .of_row row ?_
  rw [run]
  unfold xsend
  cases d with
  | none => exact ⟨_, rfl⟩
  | some r => exact ⟨_, rfl⟩

theorem fabric_issued (i : Instr) (s : State) : Issued fabricForm i s := by
  cases i with
  | xsend | xsendNobar | xsendf => exact send_issued (by rw [fabricForm]) rfl
  | xget | xatom | xmcast | xfence | xred | xgrpSet | xgrpGet => exact .of_row rfl ⟨_, rfl⟩
  | xresid h op => cases op with
    | rd | clr | set => exact .of_row rfl ⟨_, rfl⟩
  | _ => exact .of_none rfl

theorem launch_issued (i : Instr) (s : State) : Issued launchForm i s := by
  cases i with
  | lnch | larm | ldep | lprio | lwait => exact .of_row rfl ⟨_, rfl⟩
  | _ => exact .of_none rfl

theorem system_issued (i : Instr) (s : State) : Issued systemForm i s := by
  cases i with
  | rrset | rrinv | pginv | pginvMod | wcsld | wcsldAll | evpost | preq | preqRel | dbgrd | gensweep
  | gensweepSlice => exact .of_row rfl ⟨_, rfl⟩
  | _ => exact .of_none rfl

/-- Every instruction of the tables issues as its table says. -/
theorem form_issued (i : Instr) (s : State) : Issued formOf i s :=
  (register_issued i s).orElse <| (control_issued i s).orElse <| (state_issued i s).orElse <| (memory_issued i s).orElse <|
    (barrier_issued i s).orElse <| (far_issued i s).orElse <| (matrix_issued i s).orElse <| (migration_issued i s).orElse <|
    (bitSerial_issued i s).orElse <| (fabric_issued i s).orElse <| (launch_issued i s).orElse (system_issued i s)

/-! Steps 4 to 6 of Table 19-1. -/

/-- What these steps read of a sheaf. -/
def earlyView (y : Sheaf) : Option Frag × Nat × BitVec 8 := (y.frag, y.launch, y.pp)

theorem earlyView_issued (y : Sheaf) (b : Bool) : earlyView (y.issued b) = earlyView y := by
  unfold Sheaf.issued
  dsimp only
  split
  · rfl
  · cases b <;> rfl

/-- Selecting a slot changes nothing that these steps read. -/
theorem checkEarly_picked (s : State) (x : Ex) (k : Nat) (h : Hdr) (c : Checks) (mask : Word32) :
    (s.picked x).checkEarly k h c mask = s.checkEarly k h c mask := by
  have same : earlyView ((s.picked x).sheaf k) = earlyView (s.sheaf k) :=
    s.sheaf_modSheaf_part x.k k (·.issued x.b) earlyView fun y => earlyView_issued y x.b
  simp only [earlyView, Prod.mk.injEq] at same
  obtain ⟨frag, launch, pp⟩ := same
  have sameCtx : (s.picked x).ctxOf k = s.ctxOf k := by
    simp only [State.ctxOf, State.launchOf, frag, launch]
    rfl
  simp only [State.checkEarly, sameCtx, Sheaf.pending, pp]
  rfl

theorem checkEarly_none {s : State} {k : Nat} {h : Hdr} {c : Checks} (mask : Word32)
    (priv : ¬(c.priv = true ∧ (s.ctx (s.ctxOf k)).priv = false)) (dbg : ¬(c.dbg = true ∧ s.attested (s.ctxOf k) = false))
    (guard : (s.sheaf k).pending (.p h.gp.val) = false) : s.checkEarly k h c mask = none := by
  simp only [State.checkEarly, Bool.not_eq_true']
  rw [if_neg priv, if_neg dbg, guard, if_neg Bool.false_ne_true]

theorem checkEarly_priv {s : State} {k : Nat} {h : Hdr} {c : Checks} (mask : Word32) (needs : c.priv = true)
    (lacks : (s.ctx (s.ctxOf k)).priv = false) : s.checkEarly k h c mask = some ⟨0x02, 0, mask, 0⟩ := by
  simp [State.checkEarly, needs, lacks]

theorem checkEarly_dbg {s : State} {k : Nat} {h : Hdr} {c : Checks} (mask : Word32) (needs : c.dbg = true)
    (priv : (s.ctx (s.ctxOf k)).priv = true) (lacks : s.attested (s.ctxOf k) = false) :
    s.checkEarly k h c mask = some ⟨0x02, 1, mask, 0⟩ := by
  simp [State.checkEarly, needs, priv, lacks]

/-! The obligations. -/

/-- Settles O30: no check of steps 4 and 5 refuses the instruction, and `issue` gives it no effect. -/
theorem emptyExec : Obligations.EmptyExec := by
  unfold Obligations.EmptyExec
  intro i s F row wf ⟨live, here⟩ priv dbg guard empty
  obtain ⟨eff, run⟩ := form_issued i s F row wf
  have passes := (checkEarly_picked s (s.ex i F.h) ..).trans (checkEarly_none s.focusSlot.mask priv dbg guard)
  rw [run, issue_empty live here passes empty]

/-- An instruction that step 4 or 5 refuses traps (R381). -/
theorem trapsWith_of_early {i : Instr} {s : State} {F : Form} {t : TrapInfo} (row : formOf s i = some F) (wf : i.wf = true)
    (standing : stands s i) (refused : s.checkEarly s.focus F.h F.c s.focusSlot.mask = some t) : trapsWith s i F.h t := by
  obtain ⟨eff, run⟩ := form_issued i s F row wf
  obtain ⟨live, here⟩ := standing
  rw [trapsWith, run, issue_early live here ((checkEarly_picked ..).trans refused)]

/-- The tables mark the instructions of R161 as privileged. -/
theorem priv_of_privileged {i : Instr} {s : State} {F : Form} (row : formOf s i = some F) (listed : privileged s i = true) :
    F.c.priv = true := by
  cases i with
  | tret | ctxsave | ctxload | xgrpSet | xgrpGet | rrset | rrinv | pginv | pginvMod | wcsld | wcsldAll | evpost | preq | preqRel
  | dbgrd | gensweep | gensweepSlice =>
    obtain rfl := Option.some.inj row
    rfl
  | _ => exact nomatch listed

/-- Settles O28: step 4 of Table 19-1 refuses the instruction, and for DBGRD without attested debug mode step 5 does. -/
theorem privilegeTrap : Obligations.PrivilegeTrap := by
  unfold Obligations.PrivilegeTrap
  intro i s F row wf standing
  constructor
  · intro listed lacks
    exact trapsWith_of_early row wf standing (checkEarly_priv _ (priv_of_privileged row listed) lacks)
  · rintro h w d a rfl priv lacks
    obtain rfl := Option.some.inj row
    exact trapsWith_of_early row wf standing (checkEarly_dbg _ rfl priv lacks)

end Sys2Proof.Proofs.Issuing
end

section
/-!
PROOFS. Scalar instructions (`Obligations.ScalarResults`): the integers, bit counts and bit fields that the model computes are
those of Table 9-2 and R185, at every width; then the entries of `Claims.scalarForm`.
-/

namespace Sys2Proof.Proofs.Scalar

open Sys2Proof Sys2Proof.Machine Sys2Proof.Claims Sys2Proof.Proofs.Completion Sys2Proof.Proofs.NextInstruction

/-! Integers of a type (R68, R69). -/

theorem readI_eq_int {w : Nat} (signed : Bool) (x : BitVec w) : readI signed x = int signed x := rfl

theorem narrowI_eq_fit (w : Nat) (signed sat : Bool) (v : Int) : narrowI w signed sat v = fit w signed sat v := by
  have unit : (0 : Int) < 2 ^ (w - 1) := by positivity
  have units : (0 : Int) < 2 ^ w := by positivity
  cases sat with
  | false => rfl
  | true =>
    unfold narrowI clampI fit
    simp only [if_true, Nat.cast_pow, Nat.cast_ofNat]
    congr 1
    cases signed with
    | true => simp only [if_true]; split_ifs <;> omega
    | false => simp only [Bool.false_eq_true, if_false]; split_ifs <;> omega

/-- Of the scalar types i64 is the signed one (R184). -/
theorem tySigned_eq_of_isS {ty : Ty} (h : (ty.isS || ty == .b64) = true) : tySigned ty = (ty == .i64) := by
  cases ty with
  | i64 | n64 | b64 => rfl
  | _ => cases h

theorem sval_eq_int {ty : Ty} (h : (ty.isS || ty == .b64) = true) (x : Word64) : sval ty x = int (ty == .i64) x := by
  rw [sval, tySigned_eq_of_isS h, readI_eq_int]

theorem arith_eq_sArith {ty : Ty} (h : ty.isS = true) (sat : Bool) (f : Int → Int → Int) (a b : Word64) :
    arith ty sat f a b = sArith ty sat f a b := by
  have scalar : (ty.isS || ty == .b64) = true := by rw [h, Bool.true_or]
  rw [arith, sArith, sval_eq_int scalar, sval_eq_int scalar, tySigned_eq_of_isS scalar, narrowI_eq_fit]

/-- A word holds its own value. -/
theorem fit_int {w : Nat} (signed : Bool) (x : BitVec w) : fit w signed false (int signed x) = x := by
  cases signed with
  | true => exact BitVec.ofInt_toInt
  | false => simp [fit, int, BitVec.ofInt_natCast]

theorem sArith_min (ty : Ty) (a b : Word64) :
    (if int (ty == .i64) a ≤ int (ty == .i64) b then a else b) = sArith ty false min a b := by
  rw [sArith, min_def]
  split <;> rw [fit_int]

theorem sArith_max (ty : Ty) (a b : Word64) :
    (if int (ty == .i64) b ≤ int (ty == .i64) a then a else b) = sArith ty false max a b := by
  rw [sArith, max_comm, max_def]
  split <;> rw [fit_int]

theorem condHolds_eq_cond (c : Cond) (a b : Int) : condHolds c a b = cond c a b := by
  cases c with
  | eq => exact beq_eq_decide ..
  | ne => simp [condHolds, Claims.cond, bne, beq_eq_decide]
  | lt | le | gt | ge => rfl

/-! Counts of bits. -/

theorem takeWhile_range_not {n k : Nat} {p : Nat → Bool} (hk : k < n) (low : ∀ i < k, p i = false) (at_k : p k = true) :
    (List.range n).takeWhile (fun i => !p i) = List.range k := by
  obtain ⟨m, rfl⟩ := Nat.exists_eq_add_of_lt hk
  rw [Nat.add_assoc, List.range_add, List.takeWhile_append_of_pos fun i mem => by simp [low i (List.mem_range.mp mem)],
    List.range_succ_eq_map]
  simp [at_k]

theorem clz_eq_leading {w : Nat} (x : BitVec w) : clz x = leading x := by
  unfold clz leading
  split
  next zero => simp [zero, List.takeWhile_eq_self_iff.mpr fun _ _ => rfl]
  next some1 =>
    have nonzero : x.toNat ≠ 0 := fun e => some1 (BitVec.eq_of_toNat_eq e)
    have top : Nat.log2 x.toNat < w := (Nat.log2_lt nonzero).mpr x.isLt
    have above : ∀ i < w - 1 - Nat.log2 x.toNat, x.getMsbD i = false := fun i hi => by
      have : x.toNat < 2 ^ (w - 1 - i) := (Nat.log2_lt nonzero).mp (by omega)
      simp [BitVec.getMsbD, BitVec.getLsbD, Nat.testBit_lt_two_pow this]
    have highest : x.getMsbD (w - 1 - Nat.log2 x.toNat) = true := by
      have : w - 1 - (w - 1 - Nat.log2 x.toNat) = Nat.log2 x.toNat := by omega
      simp [BitVec.getMsbD, BitVec.getLsbD, this, Nat.testBit_log2 nonzero]
      omega
    rw [takeWhile_range_not (by omega) above highest, List.length_range]

/-! Bit fields (R185). -/

/-- The field of an operand, of at most the width of the result. -/
theorem bitField_eq_extract {n : Nat} (signed : Bool) (a : Int) (pos : Nat) {w : Nat} (some1 : 1 ≤ w) (hw : w ≤ n) :
    BitVec.ofNat n (bitField n signed a pos w) = extract n signed a pos w := by
  have nonneg : 0 ≤ a / 2 ^ pos % 2 ^ w := Int.emod_nonneg _ (by positivity)
  have bounded : a / 2 ^ pos % 2 ^ w < 2 ^ w := Int.emod_lt_of_pos _ (by positivity)
  unfold bitField extract
  dsimp only
  generalize a / 2 ^ pos % 2 ^ w = f at nonneg bounded
  lift f to Nat using nonneg
  norm_cast at bounded
  have halves : 2 ^ w = 2 * 2 ^ (w - 1) := by rw [← pow_succ', Nat.sub_add_cancel some1]
  have topBit : (f / 2 ^ (w - 1) % 2 == 1) = decide ((2 : Int) ^ (w - 1) ≤ f) := by
    have : f / 2 ^ (w - 1) < 2 := (Nat.div_lt_iff_lt_mul (by positivity)).mpr (by omega)
    rw [Nat.mod_eq_of_lt this, beq_eq_decide, decide_eq_decide]
    norm_cast
    rw [← Nat.one_le_div_iff (by positivity)]
    omega
  rw [Int.toNat_natCast, topBit]
  split
  · have fits : 2 ^ w ≤ 2 ^ n := Nat.pow_le_pow_right (by decide) hw
    apply BitVec.eq_of_toInt_eq
    rw [← BitVec.ofInt_natCast, BitVec.toInt_ofInt, BitVec.toInt_ofInt, ← Int.add_bmod_right (f - 2 ^ w)]
    congr 1
    push_cast [fits]
    ring
  · exact (BitVec.ofInt_natCast n f).symm

/-- The insertion as a word: the field from the position on holds the low bits of the operand. -/
theorem getLsbD_insert {n : Nat} (d a : BitVec n) (pos : Nat) {w i : Nat} (hw : w ≤ n) (hi : i < n) :
    (insert d a pos w).getLsbD i = if pos ≤ i ∧ i < pos + w then a.getLsbD (i - pos) else d.getLsbD i := by
  simp only [Claims.insert, BitVec.getLsbD_or, BitVec.getLsbD_and, BitVec.getLsbD_not, BitVec.getLsbD_shiftLeft,
    BitVec.getLsbD_ushiftRight, BitVec.getLsbD_allOnes, hi, decide_true, Bool.true_and]
  by_cases from_pos : pos ≤ i
  · have inField : n - w + (i - pos) < n ↔ i < pos + w := by omega
    by_cases below : i < pos + w <;> simp [from_pos, below, inField, Nat.not_lt.mpr from_pos]
  · simp [from_pos, Nat.lt_of_not_le from_pos]

/-- The number that an insertion leaves: what is above the field, the field, what is below it. -/
theorem bitInsert_eq_parts (n d a pos w : Nat) : bitInsert n d a pos w =
    2 ^ pos * (2 ^ min w (n - pos) * (d / 2 ^ pos / 2 ^ min w (n - pos)) + a % 2 ^ min w (n - pos)) + d % 2 ^ pos := by
  have low := Nat.div_add_mod d (2 ^ pos)
  have high := Nat.div_add_mod (d / 2 ^ pos) (2 ^ min w (n - pos))
  unfold bitInsert
  dsimp only
  generalize 2 ^ min w (n - pos) = m at high ⊢
  generalize 2 ^ pos = p at low high ⊢
  have whole : d = p * (m * (d / p / m)) + d % p + d / p % m * p := by
    conv_lhs => rw [← low, ← high]
    ring
  have rest : d - d / p % m * p = p * (m * (d / p / m)) + d % p := Nat.sub_eq_of_eq_add whole
  rw [rest]
  ring

/-- The insertion as a number, bit by bit. -/
theorem testBit_bitInsert {n : Nat} (d a : Nat) {pos : Nat} (w : Nat) {i : Nat} (hpos : pos < n) (hi : i < n) :
    (bitInsert n d a pos w).testBit i = if pos ≤ i ∧ i < pos + w then a.testBit (i - pos) else d.testBit i := by
  rw [bitInsert_eq_parts, Nat.testBit_two_pow_mul_add _ (Nat.mod_lt _ (by positivity)),
    Nat.testBit_two_pow_mul_add _ (Nat.mod_lt _ (by positivity))]
  by_cases from_pos : pos ≤ i
  · have inField : i - pos < min w (n - pos) ↔ i < pos + w := by omega
    by_cases below : i < pos + w
    · simp [from_pos, below, Nat.not_lt.mpr from_pos, inField, Nat.testBit_mod_two_pow]
    · simp only [Nat.not_lt.mpr from_pos, inField, below, and_false, if_false, Nat.testBit_div_two_pow]
      congr 1
      omega
  · simp [from_pos, Nat.lt_of_not_le from_pos, Nat.testBit_mod_two_pow]

theorem insert_eq_ofNat_bitInsert {n : Nat} (d a : BitVec n) {pos w : Nat} (hpos : pos < n) (hw : w ≤ n) :
    BitVec.ofNat n (bitInsert n d.toNat a.toNat pos w) = insert d a pos w := by
  refine BitVec.eq_of_getLsbD_eq fun i hi => ?_
  rw [getLsbD_insert d a pos hw hi, BitVec.getLsbD_ofNat, testBit_bitInsert _ _ w hpos hi]
  simp [hi, BitVec.getLsbD]

/-! Shifts and powers. -/

theorem pow_two_eq_twoPow (w n : Nat) : (2 : BitVec w) ^ n = BitVec.twoPow w n := by
  apply BitVec.eq_of_toNat_eq
  simp [BitVec.toNat_twoPow, BitVec.toNat_pow, ← Nat.pow_mod]

/-! Well-formed fields. -/

theorem fldOk_of_wf {i : Instr} (wf : i.wf = true) : i.fldOk = true := by
  simp only [Instr.wf, Bool.and_eq_true] at wf
  exact wf.2

theorem bitsOk_of_wf_sbfe {h : Hdr} {ty : Ty} {d a : SReg} {b : SSrc} {w : Byte} (wf : (Instr.sbfe h ty d a b w).wf = true) :
    1 ≤ w.toNat ∧ w.toNat ≤ 64 := by
  simpa [Instr.fldOk] using fldOk_of_wf wf

theorem bitsOk_of_wf_sbfi {h : Hdr} {d a : SReg} {b : SSrc} {w : Byte} (wf : (Instr.sbfi h d a b w).wf = true) :
    1 ≤ w.toNat ∧ w.toNat ≤ 64 := by
  simpa [Instr.fldOk] using fldOk_of_wf wf

/-! The entries. -/

/-- An instruction of two operands whose result is that of its entry. -/
theorem scalar2_completes {s : State} {i : Instr} {h : Hdr} {d a : SReg} {b : SSrc} {f g : Word64 → Word64 → Word64}
    (row : scalarForm s i = s2 h d a b g) (run : exec i s = .next (scalar2 i h d a b f s))
    (value : i.wf = true → ∀ p q, f p q = g p q) : CompletesIn scalarForm i s :=
  .of_simple row run fun wf x t => by rw [value wf]

/-- An instruction of one operand. -/
theorem scalar1_completes {s : State} {i : Instr} {h : Hdr} {d a : SReg} {f g : Word64 → Word64}
    (row : scalarForm s i = s1 h d a g) (run : exec i s = .next (scalar1 i h d a f s)) (value : ∀ p, f p = g p) :
    CompletesIn scalarForm i s :=
  .of_simple row run fun _ x t => by rw [value]

/-- Integer arithmetic of a scalar type. -/
theorem arith_completes {s : State} {i : Instr} {h : Hdr} {ty : Ty} {sat : Bool} {d a : SReg} {b : SSrc} {f : Int → Int → Int}
    (row : scalarForm s i = s2 h d a b (sArith ty sat f)) (run : exec i s = .next (scalar2 i h d a b (arith ty sat f) s))
    (typed : i.tyOk = ty.isS) : CompletesIn scalarForm i s :=
  scalar2_completes row run fun wf _ _ => arith_eq_sArith (typed.symm.trans (tyOk_of_wf wf)) _ _ _ _

theorem smovi_completes (s : State) (h : Hdr) (ty : Ty) (d : SReg) (imm : Word32) :
    CompletesIn scalarForm (.smovi h ty d imm) s :=
  .of_simple rfl rfl fun wf x t => by
    have scalar : ty.isS = true := tyOk_of_wf wf
    have signed : tySigned ty = decide (ty = .i64) := by
      rw [tySigned_eq_of_isS (by rw [scalar, Bool.true_or]), beq_eq_decide]
    simp only [signed, decide_eq_true_eq, BitVec.zeroExtend]

/-- An operand of an instruction on a scalar type. -/
theorem sval_of_wf {i : Instr} {ty : Ty} (wf : i.wf = true) (typed : i.tyOk = ty.isS) (x : Word64) :
    sval ty x = int (ty == .i64) x := by
  have scalar : ty.isS = true := typed.symm.trans (tyOk_of_wf wf)
  exact sval_eq_int (by rw [scalar, Bool.true_or]) x

section

variable (s : State) (h : Hdr) (ty : Ty) (d a : SReg) (b : SSrc)

theorem smin_completes : CompletesIn scalarForm (.smin h ty d a b) s :=
  scalar2_completes rfl rfl fun wf p q => by rw [sval_of_wf wf rfl, sval_of_wf wf rfl, sArith_min]

theorem smax_completes : CompletesIn scalarForm (.smax h ty d a b) s :=
  scalar2_completes rfl rfl fun wf p q => by rw [sval_of_wf wf rfl, sval_of_wf wf rfl, sArith_max]

theorem scmp_completes (c : Cond) : CompletesIn scalarForm (.scmp h ty c d a b) s :=
  scalar2_completes rfl rfl fun wf p q => by
    rw [sval_of_wf wf rfl, sval_of_wf wf rfl, condHolds_eq_cond, boolWord]

theorem ssel_completes (c : SReg) : CompletesIn scalarForm (.ssel h d a b c) s :=
  .of_simple rfl rfl fun _ x t => by simp only [ne_eq, ite_not]

theorem slea_completes (sh : Byte) : CompletesIn scalarForm (.slea h ty d a b sh) s :=
  scalar2_completes (by rw [scalarForm]) rfl fun _ p q => by rw [BitVec.shiftLeft_eq_mul_twoPow, pow_two_eq_twoPow]

theorem sbfe_completes (w : Byte) : CompletesIn scalarForm (.sbfe h ty d a b w) s :=
  scalar2_completes rfl rfl fun wf p q => by
    obtain ⟨some1, most64⟩ := bitsOk_of_wf_sbfe wf
    have typed : (ty.isS || ty == .b64) = true := tyOk_of_wf wf
    rw [bitField_eq_extract _ _ _ some1 most64, sval_eq_int typed, tySigned_eq_of_isS typed]

theorem sbfi_completes (w : Byte) : CompletesIn scalarForm (.sbfi h d a b w) s :=
  .of_simple rfl rfl fun wf x t => by
    obtain ⟨-, most64⟩ := bitsOk_of_wf_sbfi wf
    rw [insert_eq_ofNat_bitInsert _ _ (Nat.mod_lt _ (by decide)) most64]

end

/-- Settles O1: the entries of the table are of the shapes above, and every other instruction has none. -/
theorem scalarResults : Obligations.ScalarResults := by
  unfold Obligations.ScalarResults
  intro i s
  suffices CompletesIn scalarForm i s from this
  cases i with
  | smov => exact scalar1_completes (by rw [scalarForm]; rfl) rfl fun _ => rfl
  | sclz => exact scalar1_completes (by rw [scalarForm]) rfl fun p => by rw [clz_eq_leading]
  | spopc => exact scalar1_completes (by rw [scalarForm]) rfl fun p => by rw [popc_eq_ones]
  | smovi h ty d imm => exact smovi_completes s h ty d imm
  | smovq => exact .of_simple rfl rfl fun _ _ _ => rfl
  | sadd | ssub | smul | smulh | sdiv | srem => exact arith_completes rfl rfl rfl
  | sand | sor | sxor | sshl | sshr | ssar => exact scalar2_completes rfl rfl fun _ _ _ => rfl
  | smin h ty d a b => exact smin_completes s h ty d a b
  | smax h ty d a b => exact smax_completes s h ty d a b
  | scmp h ty c d a b => exact scmp_completes s h ty d a b c
  | ssel h d a b c => exact ssel_completes s h d a b c
  | slea h ty d a b sh => exact slea_completes s h ty d a b sh
  | sbfe h ty d a b w => exact sbfe_completes s h ty d a b w
  | sbfi h d a b w => exact sbfi_completes s h d a b w
  | _ => exact .of_none rfl

end Sys2Proof.Proofs.Scalar
end

section
/-!
PROOFS. Launch instructions (`Obligations.LaunchResults`): what a release does with nothing under way, which launches a context
knows, then one lemma for each entry of `Claims.launchForm`.
-/

namespace Sys2Proof.Proofs.Launch

open Sys2Proof Sys2Proof.Machine Sys2Proof.Claims Sys2Proof.Proofs.Completion Sys2Proof.Proofs.EntryTraps

/-- A release with nothing under way goes on once it has published the writes of its lanes (R112). -/
theorem waitRemote_of_clear {x : Ex} {t : State} (free : clear true x t) (go : State → Except TrapInfo (Flow × State)) :
    waitRemote true x t go = go (pub true x t) :=
  waitRemote_of_free free.1 (free.2 rfl) go

/-! Records (R194). -/

/-- LNCH and LARM: the record can be read, with its extension block, and nothing is under way. -/
theorem submit_completes {s : State} {i : Instr} {h : Hdr} {d a : SReg} {arm : Option BSlot}
    (row : launchForm s i = submitForm h d a arm) (run : exec i s = .next (launchWith i h d a arm s)) :
    CompletesIn launchForm i s :=
  .of_effect row run fun _ x t _ ⟨⟨bs, read, fresh, sound, extSound⟩, free⟩ => by
    simp only [read, fresh, sound, extSound, List.append_nil, whenSound, if_true, Bool.false_eq_true, if_false,
      waitRemote_of_clear free]

theorem ldep_completes (s : State) (h : Hdr) (a : SReg) : CompletesIn launchForm (.ldep h a) s :=
  .of_effect rfl rfl fun _ _ _ _ few => if_neg (Nat.not_le.mpr few)

/-! Launches that are in the window (R196, R197). -/

theorem low2_toNat (x : Word64) : (x.extractLsb' 0 2).toNat = x.toNat % 4 := by
  simp [BitVec.extractLsb'_toNat]

theorem known_of_absent {t : State} {n : Nat} (k : Nat) (absent : Tab.find t.launches n = none) : known t k n = none := by
  rw [known, absent, Option.filter_none]

theorem known_of_found {t : State} {n : Nat} {l : Machine.Launch} (k : Nat) (found : Tab.find t.launches n = some l) :
    known t k n = if l.ctx = t.ctxOf k then some l else none := by
  rw [known, found, Option.filter_some]
  simp only [beq_iff_eq]

theorem lprio_completes (s : State) (h : Hdr) (a b : SReg) : CompletesIn launchForm (.lprio h a b) s :=
  .of_simple rfl rfl fun _ x t => by
    dsimp only
    rw [low2_toNat]
    cases found : Tab.find t.launches (t.readS x.k a.val).toNat with
    | none => simp [known_of_absent x.k found]
    | some l => by_cases own : l.ctx = t.ctxOf x.k <;> simp [known_of_found x.k found, own]

theorem lwait_completes (s : State) (h : Hdr) (d a : SReg) : CompletesIn launchForm (.lwait h d a) s :=
  .of_simple rfl rfl fun _ x t => by
    unfold lwaitTo
    dsimp only
    cases found : Tab.find t.launches (t.readS x.k a.val).toNat with
    | none => simp [known_of_absent x.k found]
    | some l =>
      by_cases own : l.ctx = t.ctxOf x.k
      · cases issuing : Tab.find t.launches (t.sheaf x.k).launch with
        | none => simp [known_of_found x.k found, own, ownLine, issuing]
        | some m => simp [known_of_found x.k found, own, ownLine, issuing]
      · simp [known_of_found x.k found, own]

/-- Settles O15: the entries of the table are the lemmas above, and every other instruction has none. -/
theorem launchResults : Obligations.LaunchResults := by
  unfold Obligations.LaunchResults
  intro i s
  suffices CompletesIn launchForm i s from this
  cases i with
  | lnch => exact submit_completes rfl rfl
  | larm => exact submit_completes rfl rfl
  | ldep h a => exact ldep_completes s h a
  | lprio h a b => exact lprio_completes s h a b
  | lwait h d a => exact lwait_completes s h d a
  | _ => exact .of_none rfl

end Sys2Proof.Proofs.Launch
end

section
/-!
PROOFS. System instructions (`Obligations.SystemResults`): the words that the model and `Claims` mask, split or join in different
ways, what a release and a reading of a queue table leave alone, then one lemma for each entry of `Claims.systemForm`.
-/

namespace Sys2Proof.Proofs.System

open Sys2Proof Sys2Proof.Machine Sys2Proof.Claims Sys2Proof.Proofs.Completion Sys2Proof.Proofs.EntryTraps
open Sys2Proof.Proofs.Launch (waitRemote_of_clear)

/-- An instruction of class 0xE that cannot trap in steps 12 to 14 and has the effect of its entry. -/
theorem sys_completes {s : State} {i : Instr} {h : Hdr} {us : List Use} {f g : Ex → State → State}
    (row : systemForm s i = sysForm h us (fun _ _ => True) (fun _ _ => .next) g)
    (run : exec i s = .next (issue i h { priv := true, uses := us } (simple f) s)) (effect : ∀ x t, f x t = g x t) :
    CompletesIn systemForm i s :=
  .of_effect row run fun _ x t _ _ => congrArg (fun u => Except.ok (Flow.next, u)) (effect x t)

/-! Fields of a word. -/

theorem field_toNat (v : Word64) (lo n : Nat) : (v.extractLsb' lo n).toNat = v.toNat / 2 ^ lo % 2 ^ n := by
  rw [BitVec.extractLsb'_toNat, Nat.shiftRight_eq_div_pow]

theorem low_toNat (v : Word64) (n : Nat) : (v.extractLsb' 0 n).toNat = v.toNat % 2 ^ n := by
  rw [field_toNat, pow_zero, Nat.div_one]

/-! Range registers (R199, Tables 5-2 to 5-4). -/

theorem getLsbD_keep (v also : Word64) (hi lo : Nat) {i : Nat} (hi64 : i < 64) :
    (keep v hi lo also).getLsbD i = (decide (lo ≤ i) && decide (i < hi) && !also.getLsbD i && v.getLsbD i) := by
  simp only [keep, BitVec.getLsbD_and, BitVec.getLsbD_not, BitVec.getLsbD_ofNat, hi64, decide_true, Bool.true_and,
    Nat.testBit_mul_two_pow, Nat.testBit_div_two_pow, Nat.testBit_mod_two_pow]
  by_cases above : lo ≤ i
  · simp only [above, Nat.sub_add_cancel, decide_true, Bool.true_and, BitVec.getLsbD]
    ac_rfl
  · simp [above]

/-- The mask of the bits that are kept. -/
theorem and_eq_keep (v : Word64) {mask also : Word64} {hi lo : Nat}
    (bits : ∀ i < 64, mask.getLsbD i = (decide (lo ≤ i) && decide (i < hi) && !also.getLsbD i)) :
    v &&& mask = keep v hi lo also :=
  BitVec.eq_of_getLsbD_eq fun i hi64 => by rw [BitVec.getLsbD_and, bits i hi64, getLsbD_keep _ _ _ _ hi64, Bool.and_comm]

theorem rangeValue_eq_keep (a b c : Word64) :
    rangeValue a b c = (keep a 57 0 0xC02, keep b 57 12 0, keep c 56 12 0) := by
  have first : ∀ i < 64, rangeMasks.1.getLsbD i = (decide (0 ≤ i) && decide (i < 57) && !(0xC02 : Word64).getLsbD i) := by
    decide
  have second : ∀ i < 64, rangeMasks.2.1.getLsbD i = (decide (12 ≤ i) && decide (i < 57) && !(0 : Word64).getLsbD i) := by
    decide
  have third : ∀ i < 64, rangeMasks.2.2.getLsbD i = (decide (12 ≤ i) && decide (i < 56) && !(0 : Word64).getLsbD i) := by
    decide
  rw [rangeValue, and_eq_keep a first, and_eq_keep b second, and_eq_keep c third]

theorem rangeWrite_eq_ranges (x : Ex) (t : State) (own : Bool) (ctx : BitVec 10)
    {g : Vector (Word64 × Word64 × Word64) 16 → Vector (Word64 × Word64 × Word64) 16}
    {f : Fin 16 → Word64 × Word64 × Word64 → Word64 × Word64 × Word64}
    (each : ∀ rr, g rr = Vector.ofFn fun i => f i (rr.get i)) : t.rangeWrite x.k own ctx g = ranges own ctx x t f := by
  unfold State.rangeWrite ranges
  simp only [each, Bool.and_eq_true, Bool.not_eq_true']

theorem rrset_completes (s : State) (h : Hdr) (a b c : SReg) (own : Bool) (ctx : BitVec 10) (n : BitVec 4) :
    CompletesIn systemForm (.rrset h a b c own ctx n) s :=
  sys_completes rfl rfl fun x t => rangeWrite_eq_ranges x t own ctx fun rr => by
    rw [rangeValue_eq_keep]
    refine Vector.ext fun i hi => ?_
    rw [Vector.getElem_setIfInBounds, Vector.getElem_ofFn]
    simp only [eq_comm (a := n.toNat)]
    rfl

theorem rrinv_completes (s : State) (h : Hdr) (own : Bool) (ctx : BitVec 10) (mask : BitVec 16) :
    CompletesIn systemForm (.rrinv h own ctx mask) s :=
  sys_completes rfl rfl fun x t => rangeWrite_eq_ranges x t own ctx fun rr => by
    refine Vector.ext fun i hi => ?_
    rw [Vector.getElem_ofFn, Vector.getElem_ofFn]
    simp [Vector.getD, Vector.get, hi]

/-! Page invalidation (R200). -/

theorem modl_pub (b : Bool) (x : Ex) (t : State) (m : Nat) : (pub b x t).modl m = t.modl m := by
  obtain ⟨cs, eq⟩ := pub_eq b x t
  rw [eq]; rfl

/-- A page's address. -/
theorem and_not_ffff (v : Word64) : v &&& ~~~(0xFFFF : Word64) = v.extractLsb' 16 48 ++ (0 : BitVec 16) := by
  have mask : ∀ i < 64, (~~~(0xFFFF : Word64)).getLsbD i = !decide (i < 16) := by decide
  refine BitVec.eq_of_getLsbD_eq fun i hi => ?_
  rw [BitVec.getLsbD_and, mask i hi, BitVec.getLsbD_append]
  by_cases low : i < 16
  · simp [low]
  · simp [low, Nat.add_sub_cancel' (Nat.le_of_not_lt low)]
    omega

/-- The module and the space of a page are those of any address in it. -/
theorem page_toNat (v : Word64) : (v &&& ~~~(0xFFFF : Word64)).toNat = v.toNat / 2 ^ 16 * 2 ^ 16 := by
  rw [and_not_ffff, BitVec.toNat_append, field_toNat, Nat.shiftLeft_eq]
  have := v.isLt
  simp
  omega

theorem moduleAt_eq (v : Word64) : moduleAt v = v.toNat / 2 ^ 44 % 2 ^ 11 := field_toNat v 44 11

theorem page_module (v : Word64) : (v &&& ~~~(0xFFFF : Word64)).toNat / 2 ^ 44 % 2 ^ 11 = moduleAt v := by
  rw [page_toNat, moduleAt_eq]
  omega

theorem page_space (v : Word64) : (v &&& ~~~(0xFFFF : Word64)).toNat / 2 ^ 55 = 1 ↔ v.extractLsb' 55 9 = 1 := by
  have := v.isLt
  rw [page_toNat, ← BitVec.toNat_inj, field_toNat]
  show _ ↔ _ = 1
  omega

theorem invalidate_of_clear {x : Ex} {t : State} (free : clear true x t) (m code : Nat) (w1 w3 : Word64) :
    invalidate x m code w1 w3 t =
      .ok (if (t.modl m).unreachable then .next else .stay, pagesOf x m code w1 w3 (pub true x t)) := by
  rw [invalidate, waitRemote_of_clear free, pagesOf, modl_pub]
  split <;> rfl

theorem pagesIn_eq_false_iff {a b : SReg} {x : Ex} {t : State} : pagesIn a b x t = false ↔
    (t.readS x.k a.val &&& ~~~(0xFFFF : Word64)).toNat / 2 ^ 55 ≠ 1 ∨ (!t.mapped (moduleAt (t.readS x.k a.val))) = true ∨
      t.readS x.k b.val = 0 := by
  rw [Ne, page_space]
  simp only [pagesIn, Bool.and_eq_false_iff, decide_eq_false_iff_not, Bool.not_eq_true', ne_eq, not_not, or_assoc]

theorem pginv_completes (s : State) (h : Hdr) (a b : SReg) : CompletesIn systemForm (.pginv h a b) s :=
  .of_effect rfl rfl fun _ x t _ free => by
    simp only [page_module, ← pagesIn_eq_false_iff, waitRemote_of_clear free, invalidate_of_clear free]
    rw [and_not_ffff]
    cases pagesIn a b x t with
    | false => rfl
    | true => cases (t.modl (moduleAt (t.readS x.k a.val))).unreachable <;> rfl

theorem pginvMod_completes (s : State) (h : Hdr) (a : SReg) : CompletesIn systemForm (.pginvMod h a) s :=
  .of_effect rfl rfl fun _ x t _ free => by
    simp only [← moduleAt_eq, waitRemote_of_clear free, invalidate_of_clear free]
    cases t.mapped (moduleAt (t.readS x.k a.val)) <;> cases (t.modl (moduleAt (t.readS x.k a.val))).unreachable <;> rfl

/-! The writable control store (R201). -/

theorem loadStore_completes {s : State} {i : Instr} {h : Hdr} {a : SReg} {m : Fin 64} {n : BitVec 5} {cores : Ex → List Nat}
    (row : systemForm s i = wcsForm h a m n cores) (run : exec i s = .next (loadStore i h a m n cores s)) :
    CompletesIn systemForm i s :=
  .of_effect row run fun _ x t _ ⟨bs, image⟩ => by
    simp only [image]
    rfl

/-! Events (R202). -/

/-- The router's reading of a queue table leaves at most its own act to come. -/
theorem readTable_eq (t : State) (ctx : Nat) : ∃ due, t.readTable ctx = { t with due := due } := by
  unfold State.readTable
  split
  · exact ⟨t.due, rfl⟩
  · exact ⟨_, rfl⟩

theorem evpost_completes (s : State) (h : Hdr) (a b c : SReg) : CompletesIn systemForm (.evpost h a b c) s :=
  .of_effect rfl rfl fun _ x t _ ⟨free, code⟩ => by
    simp only [waitRemote_of_clear free]
    obtain ⟨cs, published⟩ := pub_eq true x t
    by_cases queue : (t.readS x.k a.val).toNat < 16
    · obtain ⟨due, read⟩ := readTable_eq (pub true x t) (t.ctxOf x.k)
      have sameCtx : ((pub true x t).readTable (t.ctxOf x.k)).ctxOf x.k = t.ctxOf x.k := by rw [read, published]; rfl
      have sameLow : ((pub true x t).readTable (t.ctxOf x.k)).readS x.k b.val = t.readS x.k b.val := by rw [read, published]; rfl
      simp only [if_pos queue, if_neg (Nat.not_le.mpr queue), software, sameCtx, sameLow]
    · obtain ⟨all, one⟩ := code.resolve_left queue
      have largest : (t.readS x.k a.val).toNat = 0xFFFFFFFF := by rw [all]; rfl
      simp [largest, one]

/-! Reservations (R203). -/

/-- A request of no units is one of 1, but for a module's (R203). -/
theorem units_eq (kind n : Nat) : (if n = 0 ∧ kind ≠ 3 then 1 else n) = if kind = 3 then n else max 1 n := by
  split_ifs <;> omega

theorem preq_completes (s : State) (h : Hdr) (d a : SReg) : CompletesIn systemForm (.preq h d a) s :=
  sys_completes rfl rfl fun x t => by
    simp only [field_toNat, units_eq, pow_zero, Nat.div_one]
    rfl

theorem preqRel_completes (s : State) (h : Hdr) (a : SReg) : CompletesIn systemForm (.preqRel h a) s :=
  sys_completes rfl rfl fun x t => by rw [low_toNat]

/-! Raw reads (R204). -/

theorem ofNat_mul_add_eq_append {n : Nat} (a : BitVec n) (b : BitVec 16) (w : Nat) :
    BitVec.ofNat w (a.toNat * 2 ^ 16 + b.toNat) = (a ++ b).setWidth w := by
  apply BitVec.eq_of_toNat_eq
  rw [BitVec.toNat_ofNat, BitVec.toNat_setWidth, BitVec.toNat_append, ← Nat.shiftLeft_add_eq_or_of_lt b.isLt,
    Nat.shiftLeft_eq]

theorem ofNat_mul_or_eq_append (a : BitVec 16) (b : BitVec 32) :
    BitVec.ofNat 64 (a.toNat * 2 ^ 32) ||| b.setWidth 64 = (a ++ b).setWidth 64 := by
  have ha := a.isLt
  have hb := b.isLt
  apply BitVec.eq_of_toNat_eq
  rw [BitVec.toNat_or, BitVec.toNat_ofNat, BitVec.toNat_setWidth, BitVec.toNat_setWidth, BitVec.toNat_append,
    Nat.shiftLeft_eq, Nat.mod_eq_of_lt (by omega), Nat.mod_eq_of_lt (by omega), Nat.mod_eq_of_lt]
  rw [← Nat.shiftLeft_eq, ← Nat.shiftLeft_add_eq_or_of_lt hb, Nat.shiftLeft_eq]
  omega

theorem rawReg_eq (x : Ex) (t : State) (v : Word64) : t.rawReg v.toNat = debugRead .reg v x t := by
  simp only [State.rawReg, debugRead, field_toNat, pow_zero, Nat.div_one, ofNat_mul_add_eq_append]
  rfl

theorem rawAcc_eq (x : Ex) (t : State) (v : Word64) : t.rawAcc v.toNat = debugRead .acc v x t := by
  simp only [State.rawAcc, debugRead, field_toNat, pow_zero, Nat.div_one, ofNat_mul_or_eq_append]
  rfl

/-- DBGRD.mem reads eight bytes of package space as they stand, with their granule's tag. -/
theorem debugRead_mem {x : Ex} {t : State} {v : Word64} {acc : Access} {p : Nat} {g : Bool}
    (translated : t.translate (t.ctxOf x.k) v 8 .rd = .ok acc) (space : acc.space = .pkg p g) : debugRead .mem v x t =
      (BitVec.ofNat 64 (leNat ((List.range 8).map fun i => t.byte (p + i))), (t.tag p).setWidth 64) := by
  obtain ⟨_, _, _, _, _, _⟩ := acc
  cases space
  simp only [debugRead, translated]

theorem dbgrd_completes (s : State) (h : Hdr) (w : DbgWhat) (d a : SReg) : CompletesIn systemForm (.dbgrd h w d a) s :=
  .of_effect rfl rfl fun _ x t _ ok => by
    cases w with
    | reg => simp only [rawReg_eq x]
    | acc => simp only [rawAcc_eq x]
    | mem =>
      obtain ⟨aligned, acc, p, g, translated, space, sound⟩ := ok rfl
      simp only [aligned, translated, space, sound, debugRead_mem translated space, ne_eq, not_true, if_false]

/-- Settles O16: the entries of the table are the lemmas above, and every other instruction has none. -/
theorem systemResults : Obligations.SystemResults := by
  unfold Obligations.SystemResults
  intro i s
  suffices CompletesIn systemForm i s from this
  cases i with
  | rrset h a b c own ctx n => exact rrset_completes s h a b c own ctx n
  | rrinv h own ctx mask => exact rrinv_completes s h own ctx mask
  | pginv h a b => exact pginv_completes s h a b
  | pginvMod h a => exact pginvMod_completes s h a
  | wcsld | wcsldAll => exact loadStore_completes rfl rfl
  | evpost h a b c => exact evpost_completes s h a b c
  | preq h d a => exact preq_completes s h d a
  | preqRel h a => exact preqRel_completes s h a
  | dbgrd h w d a => exact dbgrd_completes s h w d a
  | gensweep | gensweepSlice => exact .of_effect rfl rfl fun _ _ _ _ _ => rfl
  | _ => exact .of_none rfl

end Sys2Proof.Proofs.System
end

section
/-!
PROOFS. ELECT (`Obligations.Elected`): a slot that runs in a quiet sheaf goes on, in a microprogram or outside one, with the
registers of its sheaf as they were.
-/

namespace Sys2Proof.Proofs.Elect

open Sys2Proof Sys2Proof.Machine Sys2Proof.Claims Sys2Proof.Proofs.Control
open Sys2Proof.Proofs.NextInstruction
open Sys2Proof.Proofs.Heliostat (getLsbD_mergeMask)

/-! A slot that runs. -/

/-- A slot of a quiet sheaf is live, in a microprogram or outside one. -/
def Runs (s : State) (k : Nat) (b : Bool) : Prop := ((s.sheaf k).slot b).live = true ∧ quiet s k

/-- What `Runs` reads of a sheaf. -/
def running (b : Bool) (y : Sheaf) : Bool × List Cont := ((y.slot b).live, y.returns)

theorem Runs.congr {s t : State} {k : Nat} {b : Bool} (h : Runs s k b) (sram : t.badSram = s.badSram)
    (same : running b (t.sheaf k) = running b (s.sheaf k)) : Runs t k b := by
  simp only [running, Prod.mk.injEq] at same
  obtain ⟨live, returns⟩ := same
  simpa only [Runs, quiet, live, sram, returns] using h

/-- A live slot is one of a sheaf that is there. -/
theorem find_sheaf_of_live {s : State} {k : Nat} {b : Bool} (live : ((s.sheaf k).slot b).live = true) :
    Tab.find s.sheaves k = some (s.sheaf k) := by
  cases found : Tab.find s.sheaves k with
  | some y => rw [s.sheaf_of_find found]
  | none =>
    have absent : s.sheaf k = Sheaf.empty := by simp [State.sheaf, Tab.get, found]
    rw [absent] at live
    cases b <;> cases live

/-- A state that a running slot goes on to, with the registers of its sheaf as they were. -/
abbrev GoesOn (s t : State) (k : Nat) (b : Bool) : Prop := Runs t k b ∧ s.sameRegs t k

/-- A change of the sheaf that leaves its running slot live, adds no return and moves no register. -/
theorem Runs.modSheaf {s : State} {k : Nat} {b : Bool} (h : Runs s k b) {f : Sheaf → Sheaf}
    (live : ((f (s.sheaf k)).slot b).live = ((s.sheaf k).slot b).live) (returns : (f (s.sheaf k)).returns ⊆ (s.sheaf k).returns)
    (view : ∀ y, (f y).regView = y.regView) : GoesOn s (s.modSheaf k f) k b := by
  obtain ⟨lives, sram, calm⟩ := h
  refine ⟨?_, s.sameRegs_modSheaf k k f view⟩
  unfold Runs quiet
  rw [s.sheaf_modSheaf_same (find_sheaf_of_live lives), live]
  exact ⟨lives, sram, fun c mem => calm c (returns mem)⟩

/-- Such a change which also fills the other slot. -/
theorem Runs.fill {s : State} {k : Nat} {b c : Bool} (h : Runs s k b) (other : c ≠ b) (x : PcSlot) (f : Sheaf → Sheaf)
    (slot : (f (s.sheaf k)).slot b = (s.sheaf k).slot b) (returns : (f (s.sheaf k)).returns ⊆ (s.sheaf k).returns)
    (view : ∀ y, (f y).regView = y.regView) : GoesOn s (s.modSheaf k fun y => (f y).setSlot c x) k b := by
  refine h.modSheaf ?_ ?_ fun y => ?_
  · rw [slot_setSlot_other _ other, slot]
  · rwa [returns_setSlot]
  · rw [Sheaf.regView_setSlot, view]

/-! Refilling. -/

/-- One act of refilling takes a return without a fault or a trap, or an entry of the stack, into the slot that is free. -/
theorem refillOnce_goesOn {s t : State} {k : Nat} {b : Bool} (h : Runs s k b) (acts : s.refillOnce k = some t) :
    GoesOn s t k b := by
  have ⟨live, _, calm⟩ := h
  unfold State.refillOnce at acts
  dsimp only at acts
  split at acts
  · cases acts
  next one =>
  have other := freeSlot_ne live one
  split at acts
  next c cs waiting =>
    obtain ⟨noFault, noTrap⟩ := calm c (by simp [waiting])
    simp only [noFault, noTrap, if_true, Option.some.injEq] at acts
    subst acts
    exact h.fill other _ (fun y => { y with returns := cs }) rfl (by simp [waiting]) fun _ => rfl
  next none_waits =>
    split at acts
    · cases acts
    split at acts
    · cases acts
      exact h.fill other _ (fun y => { y with depth := y.depth - 1 }) rfl (List.Subset.refl _) fun _ => rfl
    split at acts
    · obtain rfl := Option.some.inj acts
      split
      · exact h.modSheaf rfl (List.Subset.refl _) fun _ => rfl
      · exact h.fill other _ _ rfl (List.Subset.refl _) fun _ => rfl
    · cases acts

theorem refillFuel_goesOn (n : Nat) {s : State} {k : Nat} {b : Bool} (h : Runs s k b) :
    GoesOn s (State.refillFuel n s k) k b := by
  induction n generalizing s with
  | zero => exact ⟨h, .refl s k⟩
  | succ n ih =>
    unfold State.refillFuel
    cases acts : s.refillOnce k with
    | none => exact ⟨h, .refl s k⟩
    | some t =>
      obtain ⟨runs, same⟩ := refillOnce_goesOn h acts
      obtain ⟨runsLater, sameLater⟩ := ih runs
      exact ⟨runsLater, same.trans sameLater⟩

/-- A sheaf with a running slot has not ended. -/
theorem checkEnd_of_runs {s : State} {k : Nat} {b : Bool} (h : Runs s k b) : s.checkEnd k = s := by
  obtain ⟨live, -⟩ := h
  have some_live : ((s.sheaf k).a.live || (s.sheaf k).b.live) = true := by
    cases b <;> simp_all [Sheaf.slot]
  unfold State.checkEnd
  simp [some_live]

theorem refill_goesOn {s : State} {k : Nat} {b : Bool} (h : Runs s k b) : GoesOn s (s.refill k) k b := by
  have ⟨_, sram, _⟩ := h
  have readable : s.badStack k 0 = [] := by simp [State.badStack, State.badGranules, sram]
  have filled := refillFuel_goesOn 80 h
  unfold State.refill
  split
  · exact ⟨h, .refl s k⟩
  · simp only [readable, ne_eq, not_true, if_false]
    rwa [checkEnd_of_runs filled.1]

/-! Going on. -/

theorem running_modSlot {b c : Bool} {f : PcSlot → PcSlot} (y : Sheaf) (live : ∀ sl, (f sl).live = sl.live) :
    running b (y.modSlot c f) = running b y := by
  by_cases own : c = b
  · subst own
    simp only [running, Sheaf.modSlot, slot_setSlot_same, returns_setSlot, live]
  · simp only [running, Sheaf.modSlot, slot_setSlot_other _ own, returns_setSlot]

theorem Runs.modSlot {s : State} {k : Nat} {b : Bool} (h : Runs s k b) (c : Bool) {f : PcSlot → PcSlot}
    (live : ∀ sl, (f sl).live = sl.live) : GoesOn s (s.modSlot k c f) k b :=
  ⟨h.congr rfl (s.sheaf_modSheaf_part k k _ (running b) fun y => running_modSlot y live), s.sameRegs_modSlot k k c f⟩

theorem mark_goesOn {s : State} {k : Nat} {b : Bool} (h : Runs s k b) (sw : Bool) : GoesOn s (s.mark k sw) k b := by
  unfold State.mark
  split
  · exact h.modSheaf rfl (List.Subset.refl _) fun _ => rfl
  · exact ⟨h, .refl s k⟩

theorem advance_goesOn {s : State} {k : Nat} {b : Bool} (h : Runs s k b) (n : Nat) : GoesOn s (s.advance k b n) k b := by
  unfold State.advance
  split
  · exact h.modSlot b fun _ => rfl
  · split
    · exact h.modSlot b fun _ => rfl
    · obtain ⟨runs, same⟩ := h.modSlot b (f := fun sl => { sl with pc := sl.pc + 12, micro := none }) fun _ => rfl
      obtain ⟨runsMarked, sameMarked⟩ := mark_goesOn runs _
      exact ⟨runsMarked, same.trans sameMarked⟩

/-- An instruction that goes on to the next one leaves the registers as its effect left them. -/
theorem sameRegs_goOn_next {t : State} {x : Ex} (h : Runs t x.k x.b) (i : Instr) (g : Hdr) (replay : Word32) :
    t.sameRegs (t.goOn i g x replay .next) x.k := by
  obtain ⟨advanced, same⟩ := advance_goesOn h i.bytes
  obtain ⟨marked, sameMarked⟩ := mark_goesOn advanced g.sw
  exact (same.trans sameMarked).trans (refill_goesOn marked).2

/-- A slot that issues an instruction runs. -/
theorem runs_entered {s : State} (live : s.focusSlot.live = true) (calm : quiet s s.focus) (i : Instr) (h : Hdr) :
    Runs (s.entered i h) s.focus s.focusB := by
  refine Runs.congr (s := s) ⟨live, calm⟩ rfl ?_
  have same := standing_entered s i h s.focus s.focusB
  simp only [standing, Prod.mk.injEq] at same
  obtain ⟨sameLive, -, -, -, sameReturns⟩ := same
  rw [running, sameLive, sameReturns, running]

/-! ELECT (R183). -/

theorem getLsbD_ofNat_pow (n : Nat) {L : Nat} (hL : L < 32) : (BitVec.ofNat 32 (2 ^ n)).getLsbD L = decide (L = n) := by
  rw [BitVec.getLsbD_ofNat, Nat.testBit_two_pow]
  simp [hL, eq_comm]

/-- What ELECT writes. -/
def electWrites (k : Nat) (d : PReg) (a : SReg) (m : Word32) (t : State) : State :=
  (t.writeP k d.val m (BitVec.ofNat 32 (2 ^ first m))).writeS k a.val (BitVec.ofNat 64 (first m))

theorem sheaf_electWrites (k : Nat) (d : PReg) (a : SReg) (m : Word32) (t : State) (j : Nat) :
    (electWrites k d a m t).sheaf j = t.sheaf j := by
  simp only [electWrites, State.sheaf, State.writeS_sheaves, State.writeP_sheaves]

theorem readS_electWrites {k : Nat} {t : State} (d : PReg) (a : SReg) (m : Word32) (base : (t.sheaf k).baseGen ≠ 0) :
    (electWrites k d a m t).readS k a.val = BitVec.ofNat 64 (first m) := by
  refine State.readS_writeS_same _ _ _ _ ?_
  simpa only [State.sheaf, State.writeP_sheaves] using base

theorem readP_electWrites {k : Nat} {t : State} {d : PReg} (a : SReg) {m : Word32} (plain : d.val ≠ 7) (some_lane : m ≠ 0)
    (base : (t.sheaf k).baseGen ≠ 0) {L : Nat} (hL : L < 32) : ((electWrites k d a m t).readP k d.val).getLsbD L =
      if m.getLsbD L then decide (L = first m) else (t.readP k d.val).getLsbD L := by
  rw [electWrites, State.readP_writeS, State.readP_writeP_same _ _ _ _ _ plain some_lane base, getLsbD_mergeMask _ _ _ hL,
    getLsbD_ofNat_pow _ hL]

/-- Settles O51: what ELECT writes is what its registers hold once the slot has gone on. -/
theorem elected : Obligations.Elected := by
  unfold Obligations.Elected
  intro h d a s base calm
  refine ⟨fun issued => ?_, fun ⟨live, here⟩ guard empty => ?_⟩
  · obtain ⟨live, -, -, some_lane, -, -⟩ := State.issues_parts issued
    have run := elect_completes s h d a _ rfl rfl issued trivial
    have enteredBase : ((s.entered (.elect h d a) h).sheaf s.focus).baseGen ≠ 0 := by
      rwa [(s.sameRegs_entered (.elect h d a) h s.focus).baseGen]
    have runs : Runs (electWrites s.focus d a (s.ex (.elect h d a) h).exec (s.entered (.elect h d a) h)) s.focus s.focusB :=
      (runs_entered live calm _ _).congr (by simp [electWrites]) (by rw [sheaf_electWrites])
    have same := sameRegs_goOn_next (x := s.ex (.elect h d a) h) runs (.elect h d a) h s.focusSlot.replay
    refine ⟨_, run, fun plain L hL => ?_, ?_⟩
    · rw [← State.entered_readP s (.elect h d a) h, ← readP_electWrites a plain some_lane enteredBase hL]
      exact congrArg (·.getLsbD L) (same.readP d.val)
    · exact (same.readS a.val).trans (readS_electWrites d a _ enteredBase)
  · have run := Issuing.emptyExec (.elect h d a) s _ rfl rfl ⟨live, here⟩ (by simp) (by simp) guard empty
    obtain ⟨-, sregs, pregs, -⟩ := sameRegs_goOn_next (x := s.ex (.elect h d a) h) (runs_entered live calm (.elect h d a) h)
      (.elect h d a) h s.focusSlot.replay
    exact ⟨_, run, pregs, sregs⟩

end Sys2Proof.Proofs.Elect
end

section
/-!
PROOFS. A handled trap (`Obligations.TrapEntered`): issuing TRAP changes nothing that the entry of its trap reads, and what the
entry writes.
-/

namespace Sys2Proof.Proofs.TrapEntry

open Sys2Proof Sys2Proof.Machine Sys2Proof.Claims Sys2Proof.Proofs.Control
open Sys2Proof.Proofs.NextInstruction (standing standing_entered)
open Sys2Proof.Proofs.Elect (find_sheaf_of_live)

/-! What the entry of a trap reads (R382, R383). -/

/-- What a trap's entry reads of a sheaf. -/
def trapView (b : Bool) (y : Sheaf) : Option Frag × Nat × BitVec 64 × Bool × Bool :=
  (y.frag, y.launch, y.ps, (y.slot b).active, (y.slot (!b)).active)

theorem trapView_modSlot {b c : Bool} {f : PcSlot → PcSlot} (y : Sheaf) (active : ∀ sl, (f sl).active = sl.active) :
    trapView b (y.modSlot c f) = trapView b y := by
  cases b <;> cases c <;> simp [trapView, Sheaf.modSlot, Sheaf.setSlot, Sheaf.slot, active]

theorem trapView_issued (b c : Bool) (y : Sheaf) : trapView b (y.issued c) = trapView b y := by
  unfold Sheaf.issued
  dsimp only
  split
  · rfl
  · exact trapView_modSlot _ fun _ => rfl

/-- Selecting a slot and using its replay mask changes nothing that a trap's entry reads. -/
theorem trapView_entered (s : State) (i : Instr) (h : Hdr) (k : Nat) (b : Bool) :
    trapView b ((s.entered i h).sheaf k) = trapView b (s.sheaf k) := by
  have replayed := (s.picked (s.ex i h)).sheaf_modSheaf_part (s.ex i h).k k (·.modSlot (s.ex i h).b fun sl =>
    if sl.active then sl else { sl with replay := 0 }) (trapView b)
    fun y => trapView_modSlot y fun sl => by split <;> rfl
  have picked := s.sheaf_modSheaf_part (s.ex i h).k k (·.issued (s.ex i h).b) (trapView b)
    fun y => trapView_issued b (s.ex i h).b y
  exact replayed.trans picked

theorem canEnter_entered {s : State} (enters : enters s) (i : Instr) (h : Hdr) :
    (s.entered i h).canEnter s.focus s.focusB = true := by
  obtain ⟨p61, p62, p63, other⟩ := enters
  have same := trapView_entered s i h s.focus s.focusB
  simp only [trapView, Prod.mk.injEq] at same
  obtain ⟨-, -, ps, -, sameOther⟩ := same
  simp only [Sheaf.pending] at p61 p62 p63
  simp only [State.canEnter, Sheaf.pending, ps, sameOther, p61, p62, p63, other, Bool.not_false, Bool.and_self]

/-- The conditions of R383, in the state in which the trap is taken. -/
theorem trapHandled_entered {s : State} {t : Trap} (handled : handles s t.rpc) (i : Instr) (h : Hdr) :
    (s.entered i h).trapHandled s.focus s.focusB t = true := by
  obtain ⟨priv, aligned, region, active⟩ := handled
  have same := trapView_entered s i h s.focus s.focusB
  simp only [trapView, Prod.mk.injEq] at same
  obtain ⟨frag, launch, -, sameActive, -⟩ := same
  have sameCtx : (s.entered i h).ctxOf s.focus = s.ctxOf s.focus := by
    simp only [State.ctxOf, State.launchOf, frag, launch]
    rfl
  have notActive : (((s.entered i h).sheaf s.focus).slot s.focusB).active = false := sameActive.trans active
  have privileged : ((s.entered i h).ctx (s.ctxOf s.focus)).priv = true := priv
  simp only [State.trapHandled, sameCtx, State.entered_readS, notActive, privileged, (low2_eq_zero_iff _).mpr aligned,
    (high32_eq_iff _ _).mpr region, beq_self_eq_true, Bool.not_false, Bool.and_self]

/-! What it writes. -/

/-- What the entry of a handled trap writes: its record, and the slot at S[60]. -/
def recordTrap (k : Nat) (b : Bool) (r : Trap) (t : State) : State :=
  ((t.writeS k 61 r.rpc).writeS k 62 (r.s62 b)).writeS k 63 (r.addr.setWidth 64)

def enterHandler (k : Nat) (b : Bool) (r : Trap) (t : State) : State :=
  (recordTrap k b r t).modSlot k b fun sl => { sl with pc := t.readS k 60, micro := none, active := true, waiting := none }

theorem takeTrap_of_handled {k : Nat} {b : Bool} {r : Trap} {t : State} (home : (t.sheaf k).frag = none)
    (free : t.canEnter k b = true) (handled : t.trapHandled k b r = true) : t.takeTrap k b r = enterHandler k b r t := by
  simp only [State.takeTrap, home, free, if_true, State.enterTrap, handled]
  rfl

section

variable {k : Nat} {t : State} (b : Bool) (r : Trap) (base : (t.sheaf k).baseGen ≠ 0)

theorem readS_recordTrap_other {q : Nat} (hq : q < 61) : (recordTrap k b r t).readS k q = t.readS k q := by
  rw [recordTrap, State.readS_writeS_other _ _ _ (by omega), State.readS_writeS_other _ _ _ (by omega),
    State.readS_writeS_other _ _ _ (by omega)]

include base

theorem readS_recordTrap_61 : (recordTrap k b r t).readS k 61 = r.rpc := by
  rw [recordTrap, State.readS_writeS_other _ _ _ (by decide), State.readS_writeS_other _ _ _ (by decide)]
  exact State.readS_writeS_same _ _ _ _ base

theorem readS_recordTrap_62 : (recordTrap k b r t).readS k 62 = r.s62 b := by
  rw [recordTrap, State.readS_writeS_other _ _ _ (by decide)]
  exact State.readS_writeS_same _ _ _ _ base

theorem readS_recordTrap_63 : (recordTrap k b r t).readS k 63 = r.addr.setWidth 64 :=
  State.readS_writeS_same _ _ _ _ base

end

/-- A switch marker moves no slot. -/
theorem slot_mark (s : State) (k : Nat) (sw : Bool) (b : Bool) : ((s.mark k sw).sheaf k).slot b = (s.sheaf k).slot b := by
  unfold State.mark
  split
  · exact s.sheaf_modSheaf_part k k _ (·.slot b) fun _ => by cases b <;> rfl
  · rfl

theorem sameRegs_mark (s : State) (k : Nat) (sw : Bool) : s.sameRegs (s.mark k sw) k := by
  unfold State.mark
  split
  · exact s.sameRegs_modSheaf k k _ fun _ => rfl
  · exact .refl s k

theorem mem_mark (s : State) (k : Nat) (sw : Bool) : (s.mark k sw).mem = s.mem := by
  unfold State.mark
  split <;> rfl

/-- The slot whose trap is handled stands at S[60] on its lanes. -/
theorem slot_enterHandler {k : Nat} {b : Bool} {t : State} (found : Tab.find t.sheaves k = some (t.sheaf k)) (r : Trap) :
    ((enterHandler k b r t).sheaf k).slot b =
      { (t.sheaf k).slot b with pc := t.readS k 60, micro := none, active := true, waiting := none } :=
  slot_modSlot_same (t := recordTrap k b r t) found b _

/-- The state in which the handler of a trap begins. -/
def handlerState (k : Nat) (b : Bool) (r : Trap) (sw : Bool) (t : State) : State := (enterHandler k b r t).mark k sw

/-- It has the registers that the entry recorded. -/
theorem sameRegs_handlerState (k : Nat) (b : Bool) (r : Trap) (sw : Bool) (t : State) :
    (recordTrap k b r t).sameRegs (handlerState k b r sw t) k :=
  ((recordTrap k b r t).sameRegs_modSlot k k b _).trans (sameRegs_mark _ k sw)

theorem vregs_handlerState (k : Nat) (b : Bool) (r : Trap) (sw : Bool) (t : State) : (handlerState k b r sw t).vregs = t.vregs :=
  (sameRegs_handlerState k b r sw t).1

theorem pregs_handlerState (k : Nat) (b : Bool) (r : Trap) (sw : Bool) (t : State) : (handlerState k b r sw t).pregs = t.pregs := by
  obtain ⟨-, -, pregs, -⟩ := sameRegs_handlerState k b r sw t
  exact pregs

theorem mem_handlerState (k : Nat) (b : Bool) (r : Trap) (sw : Bool) (t : State) : (handlerState k b r sw t).mem = t.mem :=
  mem_mark (enterHandler k b r t) k sw

theorem slot_handlerState {k : Nat} {b : Bool} {t : State} (live : ((t.sheaf k).slot b).live = true) (r : Trap) (sw : Bool) :
    ((handlerState k b r sw t).sheaf k).slot b =
      { (t.sheaf k).slot b with pc := t.readS k 60, micro := none, active := true, waiting := none } :=
  (slot_mark (enterHandler k b r t) k sw b).trans (slot_enterHandler (find_sheaf_of_live live) r)

/-- TRAP that enters at once and is handled leaves the state in which its handler begins (R179). -/
theorem exec_trap_of_handled {h : Hdr} {code : Byte} {s : State} (issued : s.issues (.trap h code) h {} = true)
    (home : (s.sheaf s.focus).frag = none) (free : enters s) (handled : handles s (s.focusSlot.pc + 8)) :
    ∃ sw, exec (.trap h code) s =
      .next (handlerState s.focus s.focusB (soft (s.ex (.trap h code) h) 0x14 code) sw (s.entered (.trap h code) h)) := by
  have run := trap_completes s h code _ rfl rfl issued trivial
  have taken := takeTrap_of_handled (r := soft (s.ex (.trap h code) h) 0x14 code)
    ((s.entered_frag (.trap h code) h s.focus).trans home) (canEnter_entered free (.trap h code) h)
    (trapHandled_entered handled (.trap h code) h)
  simp only [handlerState, ← taken]
  exact ⟨_, run⟩

theorem addr_soft (x : Ex) (kind code : Byte) : (soft x kind code).addr.setWidth 64 = code.zeroExtend 64 := by
  have short := code.isLt
  apply BitVec.eq_of_toNat_eq
  simp only [soft, BitVec.zeroExtend, BitVec.toNat_setWidth]
  omega

/-- Settles O47: the handler's slot and registers, as the entry leaves them. -/
theorem trapEntered : Obligations.TrapEntered := by
  unfold Obligations.TrapEntered
  intro h code s issued home base _ free handled
  obtain ⟨sw, run⟩ := exec_trap_of_handled issued home free handled
  obtain ⟨live, -, -, -, -, -⟩ := State.issues_parts issued
  have stands := standing_entered s (.trap h code) h s.focus s.focusB
  simp only [standing, Prod.mk.injEq] at stands
  obtain ⟨sameLive, sameMask, -, -, -⟩ := stands
  have liveEntered := sameLive.trans live
  have enteredBase : ((s.entered (.trap h code) h).sheaf s.focus).baseGen ≠ 0 := by
    rwa [(s.sameRegs_entered (.trap h code) h s.focus).baseGen]
  have slot := slot_handlerState liveEntered (soft (s.ex (.trap h code) h) 0x14 code) sw
  have regs := sameRegs_handlerState s.focus s.focusB (soft (s.ex (.trap h code) h) 0x14 code) sw (s.entered (.trap h code) h)
  refine ⟨_, run, ?_, ?_, ?_, ?_, ?_, ?_, ?_, fun q hq => ?_, ?_, ?_, ?_⟩
  · exact (regs.readS 61).trans (readS_recordTrap_61 _ _ enteredBase)
  · exact (regs.readS 62).trans (readS_recordTrap_62 _ _ enteredBase)
  · rw [regs.readS 63, readS_recordTrap_63 _ _ enteredBase, addr_soft]
  · rw [slot]
    exact State.entered_readS ..
  · rw [slot]
  · rw [slot]
    exact sameMask
  · rw [slot]
    exact liveEntered
  · rw [regs.readS q, readS_recordTrap_other _ _ hq, State.entered_readS]
  · rw [vregs_handlerState, State.entered_vregs]
  · rw [pregs_handlerState, State.entered_pregs]
  · rw [mem_handlerState, State.entered_mem]

end Sys2Proof.Proofs.TrapEntry
end

section
/-!
PROOFS. Vector integer instructions (`Obligations.VectorIntegerResults`): the model reads, narrows and packs lanes as Table 10-2
does on the integer types, shifts and bit fields leave the bits of the table in a lane of their width; then the entries of
`Claims.vecIntForm`.
-/

namespace Sys2Proof.Proofs.VecInt

open Sys2Proof Sys2Proof.Machine Sys2Proof.Claims Sys2Proof.Proofs.Completion Sys2Proof.Proofs.Scalar Sys2Proof.Proofs.CrossLane
  Sys2Proof.Proofs.VecFloat

/-! The integer types (R212, R213). -/

theorem isI3264x4_of_isI3264 {ty : Ty} (h : ty.isI3264 = true) : ty.isI3264x4 = true := by
  cases ty with
  | i32 | n32 | i64 | n64 => rfl
  | _ => cases h

theorem isI3264x4_of_isI32x4 {ty : Ty} (h : ty.isI32x4 = true) : ty.isI3264x4 = true := by
  cases ty with
  | i32 | n32 | i8x4 => rfl
  | _ => cases h

theorem isI3264x4_of_isI32 {ty : Ty} (h : ty.isI32 = true) : ty.isI3264x4 = true := by
  cases ty with
  | i32 | n32 => rfl
  | _ => cases h

theorem isI3264x4_of_isAbs {ty : Ty} (h : ty.isAbs = true) : ty.isI3264x4 = true := by
  cases ty with
  | i32 | i64 | i8x4 => rfl
  | _ => cases h

theorem is64_eq_false_of_isI32 {ty : Ty} (h : ty.isI32 = true) : ty.is64 = false := by
  cases ty with
  | i32 | n32 => rfl
  | _ => cases h

theorem tySigned_eq_signedTy {ty : Ty} (h : ty.isI3264x4 = true) : tySigned ty = signedTy ty := by
  cases ty with
  | i32 | n32 | i64 | n64 | i8x4 => rfl
  | _ => cases h

/-! Lanes as integers (R68, R69). -/

theorem laneInt_eq_lane {ty : Ty} (h : ty.isI3264x4 = true) (a : Word64) : laneInt ty a = lane ty a := by
  rw [laneInt, lane, tySigned_eq_signedTy h, readI_eq_int, readI_eq_int]

theorem laneNarrow_eq_fitLane {ty : Ty} (h : ty.isI3264x4 = true) (sat : Bool) (v : Int) :
    laneNarrow ty sat v = fitLane ty sat v := by
  rw [laneNarrow, fitLane, tySigned_eq_signedTy h, narrowI_eq_fit, narrowI_eq_fit]

/-- Four bytes side by side, as a number. -/
theorem toNat_append_bytes (b3 b2 b1 b0 : BitVec 8) :
    (b3 ++ b2 ++ b1 ++ b0).toNat = b0.toNat + b1.toNat * 2 ^ 8 + b2.toNat * 2 ^ 16 + b3.toNat * 2 ^ 24 := by
  rw [BitVec.toNat_append, BitVec.toNat_append, BitVec.toNat_append, ← Nat.shiftLeft_add_eq_or_of_lt b2.isLt,
    ← Nat.shiftLeft_add_eq_or_of_lt b1.isLt, ← Nat.shiftLeft_add_eq_or_of_lt b0.isLt]
  simp only [Nat.shiftLeft_eq]
  omega

theorem packBytes_eq_append (sat : Bool) (f : Nat → Int) :
    packBytes sat f =
      (fit 8 true sat (f 3) ++ fit 8 true sat (f 2) ++ fit 8 true sat (f 1) ++ fit 8 true sat (f 0)).setWidth 64 := by
  rw [packBytes, ← BitVec.ofNat_toNat, toNat_append_bytes]
  simp only [narrowI_eq_fit]

theorem laneArith_eq_vArith {ty : Ty} (h : ty.isI3264x4 = true) (sat : Bool) (f : Int → Int → Int) (a b : Word64) :
    laneArith ty sat f a b = vArith ty sat f a b := by
  rw [laneArith, vArith, laneNarrow_eq_fitLane h, laneInt_eq_lane h, laneInt_eq_lane h, packBytes_eq_append]
  rfl

/-! What a 32-bit destination takes of a lane. -/

theorem sameLane_iff_of_narrow {ty : Ty} (narrow : ty.is64 = false) {a b : Word64} :
    sameLane ty a b ↔ a.setWidth 32 = b.setWidth 32 := by
  simp [sameLane, narrow]

/-- A lane of a type of 32 bits is the extension of a word. -/
def holdsLane (ty : Ty) (p : Word64) : Prop := ty.is64 = false → ∃ v : Word32, p = v.setWidth 64

theorem holdsLane_vsrc (t : State) (k : Nat) (ty : Ty) (L : Nat) (a : VSrc) : holdsLane ty (t.vsrc k ty L a) := fun narrow => by
  cases a with
  | v r => exact ⟨_, by rw [State.vsrc, narrow, if_neg Bool.false_ne_true]⟩
  | s r => exact ⟨_, by rw [State.vsrc, narrow, if_neg Bool.false_ne_true]⟩

theorem tyWidth_of_narrow {ty : Ty} (narrow : ty.is64 = false) : tyWidth ty = 32 := by simp [tyWidth, narrow]

theorem tyWidth_of_wide {ty : Ty} (wide : ty.is64 = true) : tyWidth ty = 64 := by simp [tyWidth, wide]

/-- A shift of the whole lane leaves in the lane what the shift of a word of its type's width does, when the shifts agree on
the extension of a word. -/
theorem shift_sameLane {ty : Ty} {p : Word64} (q : Word32) (held : holdsLane ty p) {f : (w : Nat) → BitVec w → Nat → BitVec w}
    {g : Word64 → Nat → Word64} (whole : ∀ x n, g x n = f 64 x n)
    (word : ∀ (v : Word32) n, (g (v.setWidth 64) n).setWidth 32 = f 32 v n) :
    sameLane ty (g p (q.toNat % tyWidth ty)) (shift ty f p q) := by
  cases width : ty.is64 with
  | true => exact sameLane_of_eq (by rw [shift, width, if_pos rfl, tyWidth_of_wide width, whole])
  | false =>
    obtain ⟨v, rfl⟩ := held width
    rw [sameLane_iff_of_narrow width, shift, width, if_neg Bool.false_ne_true, tyWidth_of_narrow width, word,
      setWidth32_extended, setWidth32_extended]

theorem setWidth_shiftLeft_extended (v : Word32) (n : Nat) : (v.setWidth 64 <<< n).setWidth 32 = v <<< n := by
  rw [BitVec.setWidth_shiftLeft_of_le (by decide), setWidth32_extended]

theorem setWidth_ushiftRight_extended (v : Word32) (n : Nat) : (v.setWidth 64 >>> n).setWidth 32 = v >>> n := by
  rw [← BitVec.setWidth_ushiftRight (by decide), setWidth32_extended]

/-- The arithmetic shift as a quotient. -/
theorem fit_div_two_pow {w : Nat} (x : BitVec w) (n : Nat) : fit w true false (x.toInt / 2 ^ n) = x.sshiftRight n := by
  rw [BitVec.sshiftRight, Int.shiftRight_eq_div_pow]
  rfl

theorem sar_sameLane {ty : Ty} (typed : ty = .i32 ∨ ty = .i64) (p : Word64) (q : Word32) :
    sameLane ty (laneNarrow ty false (laneInt ty p / 2 ^ (q.toNat % tyWidth ty)))
      (shift ty (fun _ a n => a.sshiftRight n) p q) := by
  obtain rfl | rfl := typed
  · exact sameLane_of_eq (congrArg (BitVec.setWidth 64) (fit_div_two_pow (p.setWidth 32) _))
  · exact sameLane_of_eq (fit_div_two_pow p _)

/-- A number in a lane of 32 bits. -/
theorem sameLane_ofNat {ty : Ty} (narrow : ty.is64 = false) {n : Nat} {v : Word32} (h : BitVec.ofNat 32 n = v) :
    sameLane ty (BitVec.ofNat 64 n) (v.setWidth 64) := by
  rw [sameLane_iff_of_narrow narrow, BitVec.setWidth_ofNat_of_le (by decide), h, setWidth32_extended]

theorem abs_eq_ite (p : Int) : (if p < 0 then -p else p) = |p| := by
  split
  next neg => exact (abs_of_neg neg).symm
  next nonneg => exact (abs_of_nonneg (Int.not_lt.mp nonneg)).symm

/-! The shapes of instruction. -/

section
variable {s : State} {i : Instr} {h : Hdr} {ty : Ty} {d : VReg} {a : VSrc} {b : BSrc}

theorem v2_completes {f g : Word64 → Word64 → Word64} (row : vecIntForm s i = v2 h ty d a b g)
    (run : exec i s = .next (vec2 i h ty d a b f s)) (value : i.wf = true → ∀ p q, sameLane ty (f p q) (g p q)) :
    CompletesIn vecIntForm i s :=
  .of_simple row run fun wf x t => (writeTy_eq_put ..).trans (put_congr (fun _ => value wf _ _) x d _ _ t)

theorem v1_completes {tag : BitVec 4} {f g : Word64 → Word64} (row : vecIntForm s i = v1 h ty d a tag g)
    (run : exec i s = .next (vec1 i h ty d a tag f s)) (value : i.wf = true → ∀ p, sameLane ty (f p) (g p)) :
    CompletesIn vecIntForm i s :=
  .of_simple row run fun wf x t => (writeTy_eq_put ..).trans (put_congr (fun _ => value wf _) x d _ _ t)

/-- An instruction whose B is one value of 32 bits. -/
theorem vc_completes {f g : Word64 → Word32 → Word64} (row : vecIntForm s i = vc h ty d a b g)
    (run : exec i s = .next (vecCount i h ty d a b f s))
    (value : i.wf = true → ∀ p q, holdsLane ty p → sameLane ty (f p q) (g p q)) : CompletesIn vecIntForm i s :=
  .of_simple row run fun wf x t =>
    (writeTy_eq_put ..).trans (put_congr (fun _ => value wf _ _ (holdsLane_vsrc _ _ _ _ _)) x d _ _ t)

/-- Exact arithmetic of an integer type. -/
theorem arith2_completes {sat : Bool} {f : Int → Int → Int} (row : vecIntForm s i = v2 h ty d a b (vArith ty sat f))
    (run : exec i s = .next (vec2 i h ty d a b (laneArith ty sat f) s)) (types : i.wf = true → ty.isI3264x4 = true) :
    CompletesIn vecIntForm i s :=
  v2_completes row run fun wf _ _ => sameLane_of_eq (laneArith_eq_vArith (types wf) ..)

/-- A bitwise operation of two operands. -/
theorem bits2_completes {f : Word64 → Word64 → Word64} (row : vecIntForm s i = v2 h ty d a b f)
    (run : exec i s = .next (vec2 i h ty d a b f s)) : CompletesIn vecIntForm i s :=
  v2_completes row run fun _ _ _ => sameLane_of_eq rfl

end

/-! The entries. `delta` unfolds the table and not the shape of the entry, so that the lane function of the shape is read off. -/

section
variable (s : State) (h : Hdr) (ty : Ty) (d : VReg) (a : VSrc) (b : BSrc)

theorem vmov_completes : CompletesIn vecIntForm (.vmov h ty d a) s :=
  .of_simple rfl rfl fun _ x t => by
    rw [writeTags_eq_put, srcTag_eq_tagOf, srcTagHi_eq_tagOf]

theorem vmovi_completes (imm : Word32) : CompletesIn vecIntForm (.vmovi h ty d imm) s :=
  .of_simple rfl rfl fun _ _ _ => writeTy_eq_put ..

theorem vidx_completes (b : SSrc) : CompletesIn vecIntForm (.vidx h d b) s :=
  .of_simple rfl rfl fun _ _ _ => writeTy_eq_put ..

theorem vmad_completes (sat : Bool) (c : VSrc) : CompletesIn vecIntForm (.vmad h ty sat d a b c) s :=
  .of_simple rfl rfl fun wf x t => by
    have integer : ty.isI3264x4 = true := isI3264x4_of_isI32 (tyOk_of_wf wf)
    simp only [writeTy_eq_put, laneNarrow_eq_fitLane integer, laneInt_eq_lane integer]

theorem vabs_completes (sat : Bool) : CompletesIn vecIntForm (.vabs h ty sat d a) s :=
  v1_completes (by delta vecIntForm; rfl) rfl fun wf p => sameLane_of_eq (by
    rw [laneArith_eq_vArith (isI3264x4_of_isAbs (tyOk_of_wf wf))]
    simp only [abs_eq_ite])

theorem vneg_completes (sat : Bool) : CompletesIn vecIntForm (.vneg h ty sat d a) s :=
  v1_completes (by delta vecIntForm; rfl) rfl fun wf p => sameLane_of_eq (by
    rw [laneArith_eq_vArith (isI3264x4_of_isAbs (tyOk_of_wf wf))])

theorem vshl_completes : CompletesIn vecIntForm (.vshl h ty d a b) s :=
  vc_completes (by delta vecIntForm; rfl) rfl fun _ _ q held => shift_sameLane q held (fun _ _ => rfl) setWidth_shiftLeft_extended

theorem vshr_completes : CompletesIn vecIntForm (.vshr h ty d a b) s :=
  vc_completes (by delta vecIntForm; rfl) rfl fun _ _ q held => shift_sameLane q held (fun _ _ => rfl) setWidth_ushiftRight_extended

theorem vsar_completes : CompletesIn vecIntForm (.vsar h ty d a b) s :=
  vc_completes (by delta vecIntForm; rfl) rfl fun wf p q _ => by
    have typed : (ty == .i32 || ty == .i64) = true := tyOk_of_wf wf
    exact sar_sameLane (by simpa using typed) p q

theorem vbfe_completes (w : Byte) : CompletesIn vecIntForm (.vbfe h ty d a b w) s :=
  v2_completes (by delta vecIntForm; rfl) rfl fun wf p q => by
    have typed : ty.isI32 = true := tyOk_of_wf wf
    have integer : ty.isI3264x4 = true := isI3264x4_of_isI32 typed
    obtain ⟨some1, most32⟩ : 1 ≤ w.toNat ∧ w.toNat ≤ 32 := by simpa [Instr.fldOk] using fldOk_of_wf wf
    rw [laneInt_eq_lane integer, tySigned_eq_signedTy integer]
    exact sameLane_ofNat (is64_eq_false_of_isI32 typed) (bitField_eq_extract _ _ _ some1 most32)

theorem vbfi_completes (w : Byte) : CompletesIn vecIntForm (.vbfi h d a b w) s :=
  .of_simple rfl rfl fun wf x t => by
    obtain ⟨-, most32⟩ : 1 ≤ w.toNat ∧ w.toNat ≤ 32 := by simpa [Instr.fldOk] using fldOk_of_wf wf
    refine (writeTy_eq_put ..).trans (put_congr (fun L => ?_) x d _ _ t)
    obtain ⟨v, word⟩ := holdsLane_vsrc t x.k .b32 L a rfl
    rw [word, setWidth32_extended, BitVec.toNat_setWidth_of_le (by decide)]
    exact sameLane_ofNat rfl (insert_eq_ofNat_bitInsert _ v (Nat.mod_lt _ (by decide)) most32)

/-- A count of the bits of a lane of 32 bits. -/
theorem count_completes {i : Instr} {f g : Word32 → Nat}
    (row : vecIntForm s i = v1 h .b32 d a 0xD (lane32 fun p => BitVec.ofNat 32 (g p)))
    (run : exec i s = .next (vec1 i h .b32 d a 0xD (fun p => BitVec.ofNat 64 (f (p.setWidth 32))) s)) (same : ∀ p, f p = g p) :
    CompletesIn vecIntForm i s :=
  v1_completes row run fun _ p => by
    rw [same]
    exact sameLane_ofNat rfl rfl

theorem vcmp_completes (c : Cond) (d : PReg) : CompletesIn vecIntForm (.vcmp h ty c d a b) s :=
  .of_simple rfl rfl fun wf x t => by
    have integer : ty.isI3264x4 = true := isI3264x4_of_isI3264 (tyOk_of_wf wf)
    simp only [condHolds_eq_cond, laneInt_eq_lane integer]

theorem vsel_completes (c : PReg) : CompletesIn vecIntForm (.vsel h ty d a b c) s :=
  .of_simple rfl rfl fun _ x t => by
    simp only [writeTags_eq_put, srcTag_eq_tagOf, srcTagHi_eq_tagOf]
    cases b with
    | r y => rfl
    | imm y => rfl

theorem vlea_completes (sh : Byte) : CompletesIn vecIntForm (.vlea h ty d a b sh) s :=
  vc_completes (by delta vecIntForm; rfl) rfl fun wf p q _ => sameLane_of_eq (by
    have integer : ty.isI3264x4 = true := isI3264x4_of_isI3264 (tyOk_of_wf wf)
    rw [laneNarrow_eq_fitLane integer, laneInt_eq_lane integer, tySigned_eq_signedTy integer, readI_eq_int])

end

/-- Settles O2: the entries of the table are of the shapes above, and every other instruction has none. -/
theorem vectorIntegerResults : Obligations.VectorIntegerResults := by
  unfold Obligations.VectorIntegerResults
  intro i s
  suffices CompletesIn vecIntForm i s from this
  cases i with
  | vmov h ty d a => exact vmov_completes s h ty d a
  | vmovi h ty d imm => exact vmovi_completes s h ty d imm
  | vidx h d b => exact vidx_completes s h d b
  | vadd | vsub | vmin | vmax => exact arith2_completes (by delta vecIntForm; rfl) rfl tyOk_of_wf
  | vadds | vsubs => exact arith2_completes (by delta vecIntForm; rfl) rfl fun wf => isI3264x4_of_isI32x4 (tyOk_of_wf wf)
  | vmul | vmulh => exact arith2_completes (by delta vecIntForm; rfl) rfl fun wf => isI3264x4_of_isI32 (tyOk_of_wf wf)
  | vmad h ty sat d a b c => exact vmad_completes s h ty d a b sat c
  | vabs h ty sat d a => exact vabs_completes s h ty d a sat
  | vneg h ty sat d a => exact vneg_completes s h ty d a sat
  | vand | vor | vxor => exact bits2_completes (by delta vecIntForm; rfl) rfl
  | vnot => exact v1_completes (by delta vecIntForm; rfl) rfl fun _ _ => sameLane_of_eq rfl
  | vshl h ty d a b => exact vshl_completes s h ty d a b
  | vshr h ty d a b => exact vshr_completes s h ty d a b
  | vsar h ty d a b => exact vsar_completes s h ty d a b
  | vrot => exact vc_completes (by delta vecIntForm; rfl) rfl fun _ _ _ _ => sameLane_of_eq rfl
  | vbfe h ty d a b w => exact vbfe_completes s h ty d a b w
  | vbfi h d a b w => exact vbfi_completes s h d a b w
  | vclz h d a => exact count_completes s h d a (by delta vecIntForm; rfl) rfl clz_eq_leading
  | vpopc h d a => exact count_completes s h d a (by delta vecIntForm; rfl) rfl popc_eq_ones
  | vbrev => exact v1_completes (by delta vecIntForm; rfl) rfl fun _ _ => sameLane_of_eq rfl
  | vcmp h ty c d a b => exact vcmp_completes s h ty a b c d
  | vsel h ty d a b c => exact vsel_completes s h ty d a b c
  | vlea h ty d a b sh => exact vlea_completes s h ty d a b sh
  | _ => exact .of_none rfl

end Sys2Proof.Proofs.VecInt
end

section
/-!
PROOFS. Conversions, packing and quantisation (`Obligations.ConversionResults`): a field that the model replaces or reads as a
number is the field of bits that the table names, and the parts of Table 10-6 and of the planes lie within the lane; then the
entries of `Claims.convertForm`.
-/

namespace Sys2Proof.Proofs.Convert

open Sys2Proof Sys2Proof.Machine Sys2Proof.Claims Sys2Proof.Proofs.Completion Sys2Proof.Proofs.CrossLane
  Sys2Proof.Proofs.VecFloat Sys2Proof.Proofs.VecInt
open Sys2Proof.Proofs.Scalar (insert_eq_ofNat_bitInsert)
open Sys2Proof.Proofs.NextInstruction (packSource_eq)

/-! Fields of a lane. -/

theorem getField_eq_div_mod (a : Word32) (p w : Nat) : getField a p w = a.toNat / 2 ^ p % 2 ^ w := by
  rw [getField, BitVec.toNat_ushiftRight, Nat.shiftRight_eq_div_pow]

theorem sixPart_eq_getField (a : Word32) (j lo w : Nat) : sixPart a j lo w = getField a (8 * j + lo) w :=
  (getField_eq_div_mod ..).symm

/-- A field that lies within the lane. -/
theorem insertBits_eq_setField (old : Word32) {p w : Nat} (v : Nat) (some1 : 0 < w) (fits : p + w ≤ 32) :
    insertBits old p w v = setField old p w v := by
  have low : (BitVec.ofNat 32 v).toNat % 2 ^ w = v % 2 ^ w := by
    rw [BitVec.toNat_ofNat, Nat.mod_mod_of_dvd _ (pow_dvd_pow 2 (by omega))]
  have number : insertBits old p w v = BitVec.ofNat 32 (bitInsert 32 old.toNat (BitVec.ofNat 32 v).toNat p w) := by
    rw [insertBits, bitInsert, Nat.min_eq_left (by omega), low]
  rw [number, insert_eq_ofNat_bitInsert _ _ (by omega) (by omega)]
  rfl

/-! Parts of a packed lane (Table 10-6). -/

theorem partWidth_pos (ty : Ty) : 0 < partWidth ty := by cases ty <;> decide

/-- The parts of VPACK fill a lane, two elements each. -/
theorem packParts_mul_width (ty : Ty) : ty.packParts * (2 * partWidth ty) = 32 := by cases ty <;> rfl

/-- The elements of a packed lane fill it. -/
theorem unpkParts_mul_width (ty : Ty) : ty.unpkParts * partWidth ty = 32 := by cases ty <;> rfl

/-- The two elements of a part of VPACK. -/
theorem insert_part_eq {ty : Ty} {p : Nat} (part : p < ty.packParts) (old : Word32) (v0 v1 : Nat) :
    insertBits (insertBits old (2 * p * partWidth ty) (partWidth ty) v0) ((2 * p + 1) * partWidth ty) (partWidth ty) v1 =
      setField (setField old (2 * p * partWidth ty) (partWidth ty) v0) ((2 * p + 1) * partWidth ty) (partWidth ty) v1 := by
  have pos := partWidth_pos ty
  have within : (2 * p + 1) * partWidth ty + partWidth ty ≤ 32 :=
    calc (2 * p + 1) * partWidth ty + partWidth ty = (p + 1) * (2 * partWidth ty) := by ring
      _ ≤ ty.packParts * (2 * partWidth ty) := Nat.mul_le_mul_right _ part
      _ = 32 := packParts_mul_width ty
  have adjacent : 2 * p * partWidth ty + partWidth ty = (2 * p + 1) * partWidth ty := by ring
  rw [insertBits_eq_setField old v0 pos (by omega), insertBits_eq_setField _ v1 pos within]

/-- One element of a packed lane. -/
theorem insert_element_eq {ty : Ty} {p : Nat} (part : p < ty.unpkParts) (old : Word32) (v : Nat) :
    insertBits old (p * partWidth ty) (partWidth ty) v = setField old (p * partWidth ty) (partWidth ty) v :=
  insertBits_eq_setField old v (partWidth_pos ty) <|
    calc p * partWidth ty + partWidth ty = (p + 1) * partWidth ty := (Nat.succ_mul ..).symm
      _ ≤ ty.unpkParts * partWidth ty := Nat.mul_le_mul_right _ part
      _ = 32 := unpkParts_mul_width ty

/-! Elements of six bits (R222). -/

/-- Element j of a byte form goes into its place of a plane. -/
theorem insert_plane_eq (lo : Bool) (p : Fin 4) {j : Nat} (hj : j < 4) (v old : Word32) :
    (if lo then insertBits old (8 * p.val + 2 * j) 2 (sixPart v j 0 2)
      else insertBits old (16 * (p.val % 2) + 4 * j) 4 (sixPart v j 2 4)) =
    if lo then setField old (8 * p.val + 2 * j) 2 (getField v (8 * j) 2)
      else setField old (16 * (p.val % 2) + 4 * j) 4 (getField v (8 * j + 2) 4) := by
  rw [sixPart_eq_getField, sixPart_eq_getField, Nat.add_zero, insertBits_eq_setField _ _ (by decide) (by omega),
    insertBits_eq_setField _ _ (by decide) (by omega)]

/-- A field above all the bits of a number. -/
theorem insertBits_above {n p : Nat} (w v : Nat) (below : n < 2 ^ p) (hp : p ≤ 32) :
    insertBits (BitVec.ofNat 32 n) p w v = BitVec.ofNat 32 (n + v % 2 ^ w * 2 ^ p) := by
  have word : n < 2 ^ 32 := below.trans_le (Nat.pow_le_pow_right (by decide) hp)
  rw [insertBits, BitVec.toNat_ofNat, Nat.mod_eq_of_lt word, Nat.div_eq_of_lt below, Nat.zero_mod, Nat.zero_mul, Nat.sub_zero]

/-- Four bytes put into an empty lane one after another stand side by side. -/
theorem foldl_insert_bytes (v : Nat → Nat) :
    (List.range 4).foldl (fun old j => insertBits old (8 * j) 8 (v j)) 0 =
      BitVec.ofNat 8 (v 3) ++ BitVec.ofNat 8 (v 2) ++ BitVec.ofNat 8 (v 1) ++ BitVec.ofNat 8 (v 0) := by
  show insertBits (insertBits (insertBits (insertBits (BitVec.ofNat 32 0) 0 8 (v 0)) 8 8 (v 1)) 16 8 (v 2)) 24 8 (v 3) = _
  rw [insertBits_above 8 (v 0) (by decide) (by decide), insertBits_above 8 (v 1) (by omega) (by decide),
    insertBits_above 8 (v 2) (by omega) (by decide), insertBits_above 8 (v 3) (by omega) (by decide)]
  apply BitVec.eq_of_toNat_eq
  rw [toNat_append_bytes]
  simp only [BitVec.toNat_ofNat]
  omega

/-! Dot products (R223). -/

theorem dot8Tag_eq {ty : Ty} (types : (ty == .i8x4 || ty == .e4m3 || ty == .e5m2) = true) :
    (if packInt ty = true then tyTag .i32 else tyTag .f32) = if ty = .i8x4 then 0xD else 1 := by
  revert types
  cases ty <;> decide

theorem dot4Tag_eq {ty : Ty} (types : (ty == .i4x8 || ty == .e2m1) = true) :
    (if packInt ty = true then tyTag .i32 else tyTag .f32) = if ty = .i4x8 then 0xD else 1 := by
  revert types
  cases ty <;> decide

/-! Entries whose registers are written in different ways. -/

theorem completes_of_uses {table : State → Instr → Option Form} {i : Instr} {s : State} {h : Hdr} {us vs : List Use}
    {f g : Ex → State → State} (row : table s i = form h us g) (run : exec i s = .next (issue i h { uses := vs } (simple f) s))
    (uses : i.wf = true → vs = us) (effect : i.wf = true → ∀ x t, f x t = g x t) : CompletesIn table i s := by
  intro F rowF wf
  obtain rfl := uses wf
  exact CompletesIn.of_simple row run effect F rowF wf

theorem mdOk_of_wf {i : Instr} (wf : i.wf = true) : i.mdOk = true := by
  simp only [Instr.wf, Bool.and_eq_true] at wf
  obtain ⟨⟨⟨-, modifiers⟩, -⟩, -⟩ := wf
  exact modifiers

/-! The entries. -/

section
variable (s : State) (h : Hdr) (dt st ty : Ty) (rnd : Rnd) (sat : Bool) (d : VReg) (a : VSrc) (b : BSrc)

theorem vcvt_completes : CompletesIn convertForm (.vcvt h dt st rnd sat d a) s :=
  .of_simple rfl rfl fun _ x t => by rw [writeTy_eq_put, srndStep_eq_stepped]

theorem vpack_completes (p : Fin 8) : CompletesIn convertForm (.vpack h dt rnd sat d a b p) s :=
  completes_of_uses rfl rfl (fun _ => by rw [packSource_eq]) fun wf x t => by
    obtain ⟨part, -⟩ : p.val < dt.packParts ∧ _ := by
      simpa only [Instr.mdOk, Bool.and_eq_true, decide_eq_true_eq] using mdOk_of_wf wf
    simp only [srndStep_eq_stepped, packSource_eq, insert_part_eq part]
    rfl

theorem vunpk_completes (p : Fin 8) : CompletesIn convertForm (.vunpk h dt st d a p) s :=
  .of_simple rfl rfl fun _ _ _ => rfl

theorem vquant_completes (c : SReg) (p : Fin 8) : CompletesIn convertForm (.vquant h dt rnd d a c p) s :=
  .of_simple rfl rfl fun wf x t => by
    have part : p.val < dt.unpkParts := of_decide_eq_true (mdOk_of_wf wf)
    have value : ∀ v, elemVal .f32 v 0 = fval .f32 v 0 := fun v => elemVal_eq_fval rfl v (elemCount_pos .f32)
    simp only [srndStep_eq_stepped, insert_element_eq part, value, BitVec.zeroExtend]

theorem vdeq_completes (b : SSrc) (p : Fin 8) : CompletesIn convertForm (.vdeq h st rnd d a b p) s :=
  .of_simple rfl rfl fun _ x t => by
    simp only [srndStep_eq_stepped, getField_eq_div_mod, put1]
    rfl

theorem vsplit6_completes (lo : Bool) (p : Fin 4) : CompletesIn convertForm (.vsplit6 h ty lo d a p) s :=
  .of_simple rfl rfl fun _ x t => by
    refine congrArg (t.writeV x.k d.val x.exec · _) (funext fun L => ?_)
    simp only [List.range, List.range.loop, List.foldl_cons, List.foldl_nil]
    rw [insert_plane_eq lo p (by decide), insert_plane_eq lo p (by decide), insert_plane_eq lo p (by decide),
      insert_plane_eq lo p (by decide)]

theorem vjoin6_completes (p : Fin 4) : CompletesIn convertForm (.vjoin6 h ty d a b p) s :=
  .of_simple rfl rfl fun _ x t => by
    simp only [foldl_insert_bytes, getField_eq_div_mod, Nat.mul_comm 4]
    rfl

/-- A dot product, whose accumulator carries the tag that its table gives. -/
theorem vdot_completes {i : Instr} {tag : BitVec 4}
    (row : convertForm s i = form h (vmerge d (some tag) ++ srcTyped 1 ty a ++ bsrcTyped ty b) fun x t =>
      stepped x rnd (put1 x d tag (fun L => dotLane ty rnd sat (drawOf (t.sheaf x.k).srnd 0 L) (t.vsrc32 x.k L a)
        ((t.bsrc x.k ty L b).setWidth 32) (t.laneV x.k d.val L)) t))
    (run : exec i s = .next (vdot i h ty rnd sat d a b s))
    (tags : i.wf = true → (if packInt ty = true then tyTag .i32 else tyTag .f32) = tag) : CompletesIn convertForm i s :=
  completes_of_uses row (run.trans (congrArg Host.Outcome.next (vdot.eq_1 ..))) (fun wf => by rw [tags wf]) fun wf x t => by
    rw [tags wf, srndStep_eq_stepped, put1]

theorem vdot8_completes : CompletesIn convertForm (.vdot8 h ty rnd sat d a b) s :=
  vdot_completes s h ty rnd sat d a b rfl rfl fun wf => dot8Tag_eq (tyOk_of_wf wf)

theorem vdot4_completes : CompletesIn convertForm (.vdot4 h ty rnd sat d a b) s :=
  vdot_completes s h ty rnd sat d a b rfl rfl fun wf => dot4Tag_eq (tyOk_of_wf wf)

theorem vtag_completes (tag : BitVec 4) : CompletesIn convertForm (.vtag h d a tag) s :=
  .of_simple rfl rfl fun _ _ _ => rfl

theorem vsrnd_completes (a : SReg) : CompletesIn convertForm (.vsrnd h a) s :=
  .of_simple rfl rfl fun _ x t => by simp only [srndOf]

theorem vsrndDraw_completes (d : SReg) : CompletesIn convertForm (.vsrndDraw h d) s :=
  .of_simple rfl rfl fun _ _ _ => rfl

end

/-- Settles O4: the entries of the table are the lemmas above, and every other instruction has none. -/
theorem conversionResults : Obligations.ConversionResults := by
  unfold Obligations.ConversionResults
  intro i s
  suffices CompletesIn convertForm i s from this
  cases i with
  | vcvt h dt st rnd sat d a => exact vcvt_completes s h dt st rnd sat d a
  | vpack h dt rnd sat d a b p => exact vpack_completes s h dt rnd sat d a b p
  | vunpk h dt st d a p => exact vunpk_completes s h dt st d a p
  | vquant h dt rnd d a c p => exact vquant_completes s h dt rnd d a c p
  | vdeq h st rnd d a b p => exact vdeq_completes s h st rnd d a b p
  | vsplit6 h ty lo d a p => exact vsplit6_completes s h ty d a lo p
  | vjoin6 h ty d a b p => exact vjoin6_completes s h ty d a b p
  | vdot8 h ty rnd sat d a b => exact vdot8_completes s h ty rnd sat d a b
  | vdot4 h ty rnd sat d a b => exact vdot4_completes s h ty rnd sat d a b
  | vtag h d a tag => exact vtag_completes s h d a tag
  | vsrnd h a => exact vsrnd_completes s h a
  | vsrndDraw h d => exact vsrndDraw_completes s h d
  | _ => exact .of_none rfl

end Sys2Proof.Proofs.Convert
end

section
/-!
PROOFS. Matrix instructions at issue (`Obligations.MatrixResults`): descriptors that pass the checks of R262, R265 and R266, how
a command meets the queue of R259, then one lemma for each shape of entry of `Claims.matrixForm`.
-/

namespace Sys2Proof.Proofs.Matrix

open Sys2Proof Sys2Proof.Machine Sys2Proof.Claims Sys2Proof.Proofs.Completion Sys2Proof.Proofs.EntryTraps

/-! Descriptors (R262). -/

/-- A field of whole granules ends in five zero bits. -/
theorem low5_eq_zero {v : BitVec 128} {lo : Nat} (whole : (v.extractLsb' lo 32).toNat % 32 = 0) : v.extractLsb' lo 5 = 0 := by
  refine BitVec.eq_of_toNat_eq ?_
  rw [BitVec.extractLsb'_toNat] at whole ⊢
  simp only [BitVec.ofNat_eq_ofNat, BitVec.toNat_ofNat]
  omega

theorem reason_eq_zero {d : TDesc} (good : goodDesc d) : d.reason = 0 := by
  obtain ⟨reserved, base, stride, plane, scales⟩ := good
  have aligned : ¬(d.bits.extractLsb' 0 5 ≠ 0 ∨ d.bits.extractLsb' 32 5 ≠ 0) := by
    rintro (low | low)
    · exact low (low5_eq_zero base)
    · exact low (low5_eq_zero stride)
  have planed : ¬(if d.tag == 7 || d.tag == 9 then decide (d.lpo < 4) else decide (d.lpo ≠ 0)) = true := by
    by_cases six : d.tag = 7 ∨ d.tag = 9
    · rw [if_pos six] at plane
      simp only [Bool.or_eq_true, beq_iff_eq, if_pos six, decide_eq_true_eq, not_lt, plane]
    · rw [if_neg six] at plane
      simp only [Bool.or_eq_true, beq_iff_eq, if_neg six, decide_eq_true_eq, not_not, plane]
  have scaled : ¬(d.sm && !floatTag d.tag) = true := by
    cases sm : d.sm with
    | false => simp
    | true => simp [scales sm]
  unfold TDesc.reason
  dsimp only
  rw [if_neg (not_not_intro reserved), if_neg aligned, if_neg planed, if_neg scaled]

/-! Checks at issue (R265, R266, R269). -/

/-- Checks made in turn raise no trap when none of them does. -/
theorem none_in_turn {o : Option TrapInfo} {f : Unit → Option TrapInfo} (here : o = none) (rest : f () = none) :
    o.orElse f = none :=
  (Option.orElse_eq_none o (f ())).mpr ⟨here, rest⟩

theorem descCheck_of_good {d : TDesc} {noSm : Bool} (x : Ex) (n : Nat) (good : goodDesc d)
    (unscaled : noSm = true → d.sm = false) : descCheck x n d noSm = none := by
  have plain : ¬(noSm && d.sm) = true := by
    rw [Bool.and_eq_true]
    rintro ⟨asked, sm⟩
    exact Bool.false_ne_true ((unscaled asked).symm.trans sm)
  rw [descCheck, if_neg (not_not_intro (reason_eq_zero good)), if_neg plain]

theorem tagCheck_of_tag {d : TDesc} {ty : Ty} (x : Ex) (site : Nat) (tag : d.tag = 0 ∨ d.tag = tyTag ty) :
    tagCheck x d ty site = none := if_pos tag

theorem runsCheck_of_inRegion {t : State} {x : Ex} {rs : List (Nat × Nat)} (within : inRegion t x rs) : t.runsCheck x rs = none := by
  have none_out : (rs.find? fun r => decide ((t.crew (t.sheaf x.k).crew).size < r.1 + r.2)) = none :=
    List.find?_eq_none.mpr fun r mem => by simpa using within r mem
  rw [State.runsCheck]
  simp only [none_out, Option.map_none]

theorem sparseReason_eq_zero {d : TDesc} (good : goodDesc d) (unscaled : d.sm = false) (flat : d.sstr = 0) :
    sparseReason d = 0 := by
  rw [sparseReason, if_neg (not_not_intro (reason_eq_zero good)), if_neg (by simp [unscaled]), if_neg (not_not_intro flat)]

theorem rowsCheck_of_rowsIn {t : State} {x : Ex} {ty : Ty} {d : Desc} {ms : Masks} (site : Nat) (ready : rowsIn d ty ms x t) :
    t.rowsCheck x ty d site ms = none := by
  obtain ⟨⟨tag, good⟩, unscaled, within⟩ := ready
  exact none_in_turn (tagCheck_of_tag x site tag) <| none_in_turn (descCheck_of_good x d.val good fun _ => unscaled) <|
    runsCheck_of_inRegion within

/-! The queue (R259). -/

theorem queueRoom_iff (x : Ex) (t : State) : queueRoom x t = true ↔
    ¬(32 ≤ (t.engine (unitOf x.k)).queue.length ∨ (t.engine (unitOf x.k)).waiting ≠ []) := by
  simp only [queueRoom, State.engine, decide_eq_true_eq, not_or, not_le, not_not]

/-- Only the engine of the core says whether a command joins its queue. -/
theorem queueFlow_of_cores {x : Ex} {t u : State} (same : u.cores = t.cores) : queueFlow x u = queueFlow x t := by
  have core : u.core (unitOf x.k) = t.core (unitOf x.k) := by rw [State.core, State.core, same]
  rw [queueFlow, queueFlow, queueRoom, queueRoom, core]

/-- A command is captured, and joins the queue or waits for an entry. -/
theorem matPost_eq (t : State) (x : Ex) (c : State → MatCmd × State) :
    t.matPost x c = (queueFlow x (c t).2, enqueue x (c t).1 (c t).2) := by
  unfold State.matPost queueFlow enqueue
  by_cases room : queueRoom x (c t).2 = true
  · simp only [if_pos room, if_neg ((queueRoom_iff x _).mp room)]
    rfl
  · simp only [if_neg room, if_pos (not_not.mp (mt (queueRoom_iff x _).mpr room))]
    rfl

/-! The shapes of entry. -/

/-- A command whose checks pass under the condition of its entry and which captures what its entry says. -/
theorem mat_completes {s : State} {i : Instr} {h : Hdr} {c : Checks} {ok : Ex → State → Prop} {cmd : Ex → State → MatCmd}
    {chk : Ex → State → Option TrapInfo} {cap : Ex → State → MatCmd → MatCmd} (row : matrixForm s i = matForm h c ok cmd)
    (run : exec i s = .next (matIssue i h c chk cap s)) (passes : ∀ x t, ok x t → chk x t = none)
    (captured : ∀ x t, cap x t (t.matCmd x i) = cmd x t) : CompletesIn matrixForm i s :=
  .of_effect row run fun _ x t _ ready => by simp only [passes x t ready, matPost_eq, captured]

/-- A command that has nothing to check at issue. -/
theorem unchecked_completes {s : State} {i : Instr} {h : Hdr} {c : Checks} {cmd : Ex → State → MatCmd}
    {cap : Ex → State → MatCmd → MatCmd} (row : matrixForm s i = matForm h c (fun _ _ => True) cmd)
    (run : exec i s = .next (matIssue i h c (fun _ _ => none) cap s)) (captured : ∀ x t, cap x t (t.matCmd x i) = cmd x t) :
    CompletesIn matrixForm i s :=
  mat_completes row run (fun _ _ _ => rfl) captured

/-- With nothing under way that it waits for, an instruction that may release goes on, having published where it does (R112). -/
theorem waitRemote_of_clear {acq : Bool} {x : Ex} {t : State} (free : clear acq x t)
    (go : State → Except TrapInfo (Flow × State)) : waitRemote acq x t go = go (pub acq x t) := by
  obtain ⟨past, home⟩ := free
  cases acq with
  | true => exact waitRemote_of_free past (home rfl) go
  | false => simp [waitRemote, past, pub]

theorem cores_pub (b : Bool) (x : Ex) (t : State) : (pub b x t).cores = t.cores := by
  obtain ⟨cs, eq⟩ := pub_eq b x t
  rw [eq]

theorem cores_ordered (t : State) (x : Ex) (id : Nat) : (t.ordered x id).cores = t.cores := by
  obtain ⟨cs, eq⟩ := mapOld_eq t _ _
  rw [State.ordered, eq]

/-- MFEN takes its number, and orders writes where it acquires, without a change of any core (R277). -/
theorem fence_completes {s : State} {i : Instr} {h : Hdr} {c : Checks} {acq : Bool} (row : matrixForm s i = fenceForm h c acq i)
    (run : exec i s = .next (mfence i h c acq s)) : CompletesIn matrixForm i s :=
  .of_effect row run fun _ x t _ free => by
    rw [waitRemote_of_clear free, matPost_eq]
    refine congrArg (fun w => Except.ok (w, _)) (queueFlow_of_cores ?_)
    cases acq with
    | true => exact (cores_ordered _ x _).trans (cores_pub true x t)
    | false => exact cores_pub false x t

/-! The entries. -/

section
variable (s : State) (h : Hdr) (ty : Ty)

theorem tdset_completes (d : Desc) (a b : SReg) : CompletesIn matrixForm (.tdset h ty d a b) s :=
  .of_effect rfl rfl fun _ _ _ _ good => if_neg (not_not_intro (reason_eq_zero good))

theorem tdtag_completes (d : Desc) (tag : BitVec 4) : CompletesIn matrixForm (.tdtag h d tag) s :=
  .of_simple rfl rfl fun _ _ _ => rfl

theorem mma_completes (inc : Incoming) (f : Bool) (d : Tile) (a b : Desc) (rows cols depth : BitVec 16) :
    CompletesIn matrixForm (.mma h ty inc f d a b rows cols depth) s :=
  mat_completes rfl rfl (fun x t ready => by
    obtain ⟨⟨tagA, goodA⟩, goodB, tagB, unscaled, within⟩ := ready
    refine none_in_turn (tagCheck_of_tag x 1 tagA) <| none_in_turn ?_ <|
      none_in_turn (descCheck_of_good x a.val goodA fun int => (unscaled int).1) <|
      none_in_turn (descCheck_of_good x b.val goodB fun int => (unscaled int).2) <| runsCheck_of_inRegion within
    cases f with
    | true => exact if_pos tagB
    | false => exact tagCheck_of_tag x 2 tagB) fun _ _ => rfl

theorem mmas_completes (inc : Incoming) (d : Tile) (a b : Desc) (rows cols depth : BitVec 16) :
    CompletesIn matrixForm (.mmas h ty inc d a b rows cols depth) s :=
  mat_completes rfl rfl (fun x t ready => by
    obtain ⟨⟨tagA, goodA⟩, unscaledA, ⟨tagB, goodB⟩, unscaledB, flat, within⟩ := ready
    exact none_in_turn (tagCheck_of_tag x 1 tagA) <| none_in_turn (tagCheck_of_tag x 2 tagB) <|
      none_in_turn (descCheck_of_good x a.val goodA fun _ => unscaledA) <|
      none_in_turn (if_neg (not_not_intro (sparseReason_eq_zero goodB unscaledB flat))) <| runsCheck_of_inRegion within)
    fun _ _ => rfl

theorem mew_completes (op : MewOp) (d a : Tile) (ms : Masks) : CompletesIn matrixForm (.mew h ty op d a ms) s :=
  unchecked_completes rfl rfl fun _ _ => by cases op <;> rfl

theorem mst_completes (rnd : Rnd) (sat : Bool) (d : Desc) (a : Tile) (ms : Masks) :
    CompletesIn matrixForm (.mst h ty rnd sat d a ms) s :=
  mat_completes rfl rfl (fun _ _ => rowsCheck_of_rowsIn 4) fun _ _ => rfl

theorem mlda_completes (d : Tile) (a : Desc) (ms : Masks) : CompletesIn matrixForm (.mlda h ty d a ms) s :=
  mat_completes rfl rfl (fun _ _ => rowsCheck_of_rowsIn 1) fun _ _ => rfl

/-- The load of MRDV is its sheaf's; the core's engine is the one it found. -/
theorem mrdv_completes (rnd : Rnd) (sat : Bool) (part : Fin 8) (d : VReg) (a : Tile) (r : Byte) :
    CompletesIn matrixForm (.mrdv h ty rnd sat part d a r) s :=
  .of_effect rfl rfl fun _ x t _ _ => by
    rw [matPost_eq]
    exact congrArg (fun w => Except.ok (w, _)) (queueFlow_of_cores rfl)

end

/-- Settles O13: the entries of the table are the lemmas above, and every other instruction has none. -/
theorem matrixResults : Obligations.MatrixResults := by
  unfold Obligations.MatrixResults
  intro i s
  suffices CompletesIn matrixForm i s from this
  cases i with
  | tdset h ty d a b => exact tdset_completes s h ty d a b
  | tdtag h d tag => exact tdtag_completes s h d tag
  | mma h ty inc f d a b rows cols depth => exact mma_completes s h ty inc f d a b rows cols depth
  | mmas h ty inc d a b rows cols depth => exact mmas_completes s h ty inc d a b rows cols depth
  | mzero => exact unchecked_completes rfl rfl fun _ _ => rfl
  | mew h ty op d a ms => exact mew_completes s h ty op d a ms
  | mst h ty rnd sat d a ms => exact mst_completes s h ty rnd sat d a ms
  | mlda h ty d a ms => exact mlda_completes s h ty d a ms
  | mrdv h ty rnd sat part d a r => exact mrdv_completes s h ty rnd sat part d a r
  | mwrv => exact unchecked_completes rfl rfl fun _ _ => rfl
  | mtrn => exact unchecked_completes rfl rfl fun _ _ => rfl
  | mfen => exact fence_completes rfl rfl
  | mfenNoarrive => exact fence_completes rfl rfl
  | _ => exact .of_none rfl

end Sys2Proof.Proofs.Matrix
end

section
/-!
PROOFS. Arrays held as bit rows (R301): an element is read as the number whose bits stand in its rows, so that an array written as
rows reads back its elements (`Obligations.BitRowsReadBack`); and the bit-serial instructions (`Obligations.BitSerialResults`).
-/

namespace Sys2Proof.Proofs.BitSerial

open Sys2Proof Sys2Proof.Machine Sys2Proof.Claims Sys2Proof.Proofs.Completion Sys2Proof.Proofs.EntryTraps Sys2Proof.Proofs.Scalar
open Sys2Proof.Proofs.Matrix (waitRemote_of_clear)

/-! Elements as words (R301). -/

/-- The bit of an element in a row. -/
def bitAt (e : Nat) (r : List Byte) : Bool := (r.getD (e / 8) 0).getLsbD (e % 8)

theorem toNat_ofBoolListLE_map {α : Type} (p : α → Bool) (l : List α) :
    ((BitVec.ofBoolListLE (l.map p)).toNat : Int) = l.foldr (fun a n => 2 * n + (if p a then 1 else 0)) 0 := by
  induction l with
  | nil => rfl
  | cons a l ih =>
    show ((BitVec.concat (BitVec.ofBoolListLE (l.map p)) (p a)).toNat : Int) = _
    rw [BitVec.toNat_concat, List.foldr_cons, ← ih, Nat.mul_comm]
    cases p a <;> simp

theorem msb_ofBoolListLE_map {α : Type} (p : α → Bool) (l : List α) :
    (BitVec.ofBoolListLE (l.map p)).msb = l.getLast?.any p := by
  rw [BitVec.msb, BitVec.getMsbD_ofBoolListLE, List.getD_eq_getElem?_getD, Nat.sub_zero, ← List.getLast?_eq_getElem?]
  cases l using List.reverseRecOn <;> simp

/-- The model's reading of an element is that of the tables. -/
theorem bsElem_eq_element (rows : List (List Byte)) (signed : Bool) (e : Nat) : bsElem rows signed e = element rows signed e := by
  show _ = int signed (BitVec.ofBoolListLE (rows.map (bitAt e)))
  rw [int, BitVec.toInt_eq_msb_cond, msb_ofBoolListLE_map, toNat_ofBoolListLE_map, List.length_map]
  cases signed <;> rfl

/-! Rows as written. -/

theorem testBit_sum_two_pow (p : Nat → Bool) (n i : Nat) :
    ((List.range n).map fun t => if p t then 2 ^ t else 0).sum.testBit i = (decide (i < n) && p i) := by
  induction n generalizing p i with
  | zero => simp
  | succ n ih =>
    have halves : ((List.range (n + 1)).map fun t => if p t then 2 ^ t else 0).sum =
        2 * ((List.range n).map fun t => if p (t + 1) then 2 ^ t else 0).sum + (if p 0 then 1 else 0) := by
      rw [List.range_succ_eq_map, List.map_cons, List.sum_cons, List.map_map, ← List.sum_map_mul_left, Nat.add_comm]
      simp only [Function.comp_def, Nat.succ_eq_add_one, mul_ite, Nat.pow_succ', Nat.mul_zero, Nat.pow_zero]
    rw [halves]
    cases i with
    | zero => cases p 0 <;> simp [Nat.testBit_zero, Nat.add_mod]
    | succ i =>
      rw [Nat.testBit_succ, show ∀ m : Nat, (2 * m + (if p 0 then 1 else 0)) / 2 = m by intro m; split <;> omega, ih]
      simp

theorem bitAt_bsRow {n e : Nat} (within : e < 8 * n) (b : Nat) (f : Nat → Nat) : bitAt e (bsRow n b f) = (f e).testBit b := by
  have byte : e / 8 < n := Nat.div_lt_of_lt_mul within
  have bit : e % 8 < 8 := Nat.mod_lt e (by decide)
  rw [bitAt, bsRow, List.getD_eq_getElem?_getD, List.getElem?_map, List.getElem?_range byte, Option.map_some, Option.getD_some,
    BitVec.getLsbD_ofNat, testBit_sum_two_pow fun t => (f (8 * (e / 8) + t)).testBit b, Nat.div_add_mod]
  simp [bit]

/-- Words of one width with the same bits are the same integer. -/
theorem int_congr {v w : Nat} {x : BitVec v} {y : BitVec w} (width : v = w) (bits : ∀ i < w, x.getLsbD i = y.getLsbD i)
    (signed : Bool) : int signed x = int signed y := by
  subst width
  rw [BitVec.eq_of_getLsbD_eq bits]

/-- Settles O54: the bits of element e in the rows are the low bits of f e. -/
theorem bitRowsReadBack : Obligations.BitRowsReadBack := by
  unfold Obligations.BitRowsReadBack
  intro n w f signed e within _
  rw [bsElem_eq_element]
  refine int_congr (by simp) (fun i hi => ?_) signed
  have bit : (((List.range w).map fun b => bsRow n b f).map (bitAt e)).getD i false = (f e).testBit i := by
    simp [List.getD_eq_getElem?_getD, hi, bitAt_bsRow within]
  rw [BitVec.getLsbD_ofNat, decide_eq_true hi, Bool.true_and, ← bit]
  exact BitVec.getLsbD_ofBoolListLE

/-! The effects (R302). -/

/-- An operation that holds its leave, or needs none, asks for none. -/
theorem bsLeave_of_ready {q : BsShape} {o : BsOps} {x : Ex} {t : State} (ready : bitReady q o x t) :
    (pub (bitStrong o t) x t).bsLeave x q = none := by
  obtain ⟨near, -⟩ := ready
  obtain ⟨cs, published⟩ := pub_eq (bitStrong o t) x t
  rw [published, State.bsLeave, if_pos]
  cases place : nearMem x.k with
  | false => rfl
  | true =>
    by_cases small : q.n < 65536
    · simp [small]
    · simp [(near place).2 (Nat.le_of_not_lt small)]

/-- Operands in reach leave a bit-serial instruction its effect. -/
theorem bsGo_of_ready {q : BsShape} {o : BsOps} {x : Ex} {t u : State} {eff : State → Option Refused × State}
    (ready : bitReady q o x t) (effect : eff (pub (bitStrong o t) x t) = (none, u)) :
    bsGo x q o eff t = .ok (.next, u.bsEnd x) := by
  have given := bsLeave_of_ready ready
  obtain ⟨near, core, fresh, sound, free⟩ := ready
  have own : (nearMem x.k && !(o.all.all (ownRow x.k))) = false := by
    cases place : nearMem x.k with
    | false => rfl
    | true => simpa using (near place).1
  have here : (if nearMem x.k then none else o.away) = none := by
    cases place : nearMem x.k with
    | false => exact core place
    | true => rfl
  unfold bsGo
  simp only [own, here, fresh, sound, Bool.false_eq_true, if_false, ne_eq, not_true]
  exact (waitRemote_of_clear free _).trans (by simp only [given, effect])

/-! The entries (R301). -/

theorem bit_completes {s : State} {i : Instr} {h : Hdr} {sat : Bool} {d a b c : SReg} {wa wb wd : BitVec 4} {sg acc : Bool}
    {f : Int → Int → Int → Int} (row : bitSerialForm s i = bitForm h sat d a b c wa wb wd sg acc f)
    (run : exec i s = .next (bitSerial i h sat d a b c wa wb wd sg acc f s)) : CompletesIn bitSerialForm i s :=
  .of_effect row run fun _ x t _ ok => by
    unfold shape at ok ⊢
    obtain ⟨shaped, o, ra, rb, rd, u, ops, ready, readA, readB, readD, written⟩ := ok
    simp only [ops, readA, readB, readD, written]
    refine bsGo_of_ready ready ?_
    simp only [readA, readB, readD, shaped, if_true, narrowI_eq_fit, bsElem_eq_element, written]

theorem bspopc_completes (s : State) (h : Hdr) (d a c : SReg) (wa : BitVec 4) (sg : Bool) :
    CompletesIn bitSerialForm (.bspopc h d a c wa sg) s :=
  .of_effect rfl rfl fun _ x t _ ok => by
    unfold shape at ok ⊢
    obtain ⟨shaped, o, ra, ops, ready, readA⟩ := ok
    simp only [ops, readA]
    refine bsGo_of_ready ready ?_
    simp only [readA, shaped, if_true]

/-- Settles O12: the four operations of two arrays are one shape of entry, and BSPOPC has its own. -/
theorem bitSerialResults : Obligations.BitSerialResults := by
  unfold Obligations.BitSerialResults
  intro i s
  suffices CompletesIn bitSerialForm i s from this
  cases i with
  | bsadd => exact bit_completes (by rw [bitSerialForm]) rfl
  | bsmul => exact bit_completes (by rw [bitSerialForm]) rfl
  | bsmac => exact bit_completes (by rw [bitSerialForm]) rfl
  | bscmp h cc =>
    exact bit_completes (by simp only [bitSerialForm, ← condHolds_eq_cond]) rfl
  | bspopc h d a c wa sg => exact bspopc_completes s h d a c wa sg
  | _ => exact .of_none rfl

end Sys2Proof.Proofs.BitSerial
end

section
/-!
PROOFS. Migration instructions (`Obligations.MigrationResults`): the lanes that MIG sends away are those of the table, then one
lemma for each entry of `Claims.migrationForm`; and the instructions at which a fragment returns (`Obligations.FragmentSentHome`).
-/

namespace Sys2Proof.Proofs.Migration

open Sys2Proof Sys2Proof.Machine Sys2Proof.Claims Sys2Proof.Proofs.Completion Sys2Proof.Proofs.EntryTraps
  Sys2Proof.Proofs.Control
open Sys2Proof.Proofs.Issuing (form_issued)

/-! Join PCs and lanes (R28, R290). -/

theorem setWidth_signExtend (j : Word32) : (j.signExtend 64).setWidth 32 = j :=
  BitVec.eq_of_getLsbD_eq fun i hi => by
    rw [BitVec.getLsbD_setWidth, BitVec.getLsbD_signExtend, if_pos hi, decide_eq_true hi,
      decide_eq_true (hi.trans (by decide : 32 < 64)), Bool.true_and, Bool.true_and]

theorem pcOffset_eq_pcAt (pc : Word64) (j : Word32) : pcOffset pc j = pcAt pc j := by
  rw [pcOffset, pcAt, low32_eq_setWidth, low32_eq_setWidth, BitVec.setWidth_add _ _ (by decide), setWidth_signExtend]

theorem getD_map_lanes {α : Type} (f : Nat → α) (L : Nat) : (lanes.map f).getD L (f L) = f L := by
  by_cases h : L < 32 <;> simp [lanes, List.getD_eq_getElem?_getD, h]

/-- A mask of lanes none of which is in it. -/
theorem mask32_eq_zero {f : Nat → Bool} (out : ∀ L < 32, f L = false) : mask32 f = 0 :=
  BitVec.eq_of_getLsbD_eq fun L hL => by
    rw [getLsbD_mask32, out L hL, Bool.and_false]
    exact BitVec.getLsbD_zero.symm

/-- Where the model sends a lane of MIG: nowhere, where its place is refused or a refusal keeps it here. -/
def migOwner (x : Ex) (lane : Nat → Except Refused Access) (L : Nat) : Owner := match lane L with
  | .ok a => if x.stay.getLsbD L then .here else ownerOf x.k a.space
  | .error _ => .here

/-- The lanes of MIG that the model sends away, or whose range keeps them from leaving. -/
def awayLanes (x : Ex) (lane : Nat → Except Refused Access) (may : Bool) : Word32 :=
  mask32 fun L => x.exec.getLsbD L && migOwner x lane L != .here && (match lane L with
    | .ok a => a.mig == may
    | .error _ => false)

theorem migAway_eq_awayLanes (x : Ex) (lane : Nat → Except Refused Access) (may : Bool) :
    migAway x lane may = awayLanes x lane may := by
  unfold migAway awayLanes migOwner
  congr 1
  funext L
  cases lane L with
  | error r => simp
  | ok a => cases x.stay.getLsbD L <;> simp [Bool.and_assoc]

/-- The lanes of MIG whose translation is refused. -/
def refusedLanes (x : Ex) (lane : Nat → Except Refused Access) : Word32 :=
  mask32 fun L => x.exec.getLsbD L && (match lane L with
    | .ok _ => false
    | .error _ => true)

theorem refusedLanes_eq_zero {x : Ex} {lane : Nat → Except Refused Access}
    (placed : ∀ L, L < 32 → x.exec.getLsbD L = true → ∃ a, lane L = .ok a) : refusedLanes x lane = 0 := by
  refine mask32_eq_zero fun L hL => ?_
  cases inExec : x.exec.getLsbD L with
  | false => rfl
  | true =>
    obtain ⟨a, place⟩ := placed L hL inExec
    simp only [place, Bool.and_false]

/-! The entries. -/

theorem mig_completes (s : State) (h : Hdr) (d : SReg) (base : Option SReg) (idx : Option VSrc) (off : Byte) (j : Word32) :
    CompletesIn migrationForm (.mig h d base idx off j) s :=
  .of_effect rfl rfl fun _ x t _ ⟨outside, window, carry, placed, enough⟩ => by
    have sound := refusedLanes_eq_zero placed
    simp only [getD_map_lanes, pcOffset_eq_pcAt, outside, window, carry, Bool.false_eq_true, if_false, migrated]
    simp only [migAway_eq_awayLanes] at enough ⊢
    exact (if_neg (not_not_intro sound)).trans (withStack_of_room enough _)

/-- HOME at home is a JOIN; in a fragment it sends its lanes back. -/
theorem home_completes (s : State) (h : Hdr) : CompletesIn migrationForm (.home h) s :=
  .of_effect rfl rfl fun _ x t _ (outside : x.inmc = false) => by
    unfold joinAt Claims.slotOf
    simp only [outside, Bool.false_eq_true, if_false]
    by_cases home : (t.sheaf x.k).frag.isNone = true
    · simp only [if_pos home]
      split <;> rfl
    · simp only [if_neg home]

theorem migsetHome_completes (s : State) (h : Hdr) (j : Word32) : CompletesIn migrationForm (.migsetHome h j) s :=
  .of_effect rfl rfl fun _ x t _ (outside : x.inmc = false) => by
    simp only [outside, pcOffset_eq_pcAt, Bool.false_eq_true, if_false]

/-- Settles O11: the entries of the table are the lemmas above, and every other instruction has none. -/
theorem migrationResults : Obligations.MigrationResults := by
  unfold Obligations.MigrationResults
  intro i s
  suffices CompletesIn migrationForm i s from this
  cases i with
  | mig h d base idx off j => exact mig_completes s h d base idx off j
  | home h => exact home_completes s h
  | migset => exact .of_simple rfl rfl fun _ _ _ => rfl
  | migsetHome h j => exact migsetHome_completes s h j
  | migq => exact .of_simple rfl rfl fun _ _ _ => rfl
  | _ => exact .of_none rfl

/-! Fragments (Table 13-5). -/

/-- A fragment that reaches an instruction only its home executes returns with KIND 2 and no effect (R296). -/
theorem issue_of_sendsHome {i : Instr} {h : Hdr} {c : Checks} {s : State} (live : s.focusSlot.live = true)
    (frag : (s.sheaf s.focus).frag.isSome = true) (home : sendsHome s.focus i = true)
    (eff : Ex → State → Except TrapInfo (Flow × State)) :
    issue i h c eff s = (s.fragReturn s.focus s.focusB s.focusSlot.mask s.focusSlot.pc 2 0 0 0).refill s.focus := by
  have away : ((s.sheaf (s.ex i h).k).frag.isSome && sendsHome (s.ex i h).k i) = true := Bool.and_eq_true_iff.mpr ⟨frag, home⟩
  simp only [issue, live, away, Bool.not_true, Bool.false_eq_true, if_false, if_true]
  rfl

/-- Settles O31: every instruction of the tables issues, and a fragment that reaches one that sends it home goes home. -/
theorem fragmentSentHome : Obligations.FragmentSentHome := by
  unfold Obligations.FragmentSentHome
  intro i s F row wf live away home
  obtain ⟨eff, run⟩ := form_issued i s F row wf
  rw [run, issue_of_sendsHome live away home]

end Sys2Proof.Proofs.Migration
end

section
/-!
PROOFS. The step (`Obligations.StepTakesEvent`, `Obligations.EventsAreInstructions`, `Obligations.StepAnswers`): what comes
next, an event as an instruction, and that every instruction answers a next state.
-/

namespace Sys2Proof.Proofs.Steps

open Sys2Proof Sys2Proof.Machine

/-! What comes next. -/

theorem step_of_event {s : State} {e : Event} {rest : List Event} (first : s.eventFirst = true)
    (next : s.nextEvent = some (e, rest)) :
    step s = onNext State.pass (runEvent e { s with due := rest }.begun) := by
  unfold step
  rw [if_pos first, next]

theorem eventFirst_of_none {s : State} (noEvent : s.due = []) : s.eventFirst = false := by
  unfold State.eventFirst
  rw [noEvent]

theorem select_of_none {s : State} (noSlot : s.readySlots = []) : s.select = none := by
  unfold State.select
  rw [noSlot]
  rfl

theorem step_of_idle {s : State} (noEvent : s.due = []) (noSlot : s.readySlots = []) : step s = .next s.pass := by
  unfold step
  rw [eventFirst_of_none noEvent, select_of_none noSlot]
  rfl

/-- Settles O37: `step_of_event` and `step_of_idle`. -/
theorem stepTakesEvent : Obligations.StepTakesEvent :=
  ⟨fun _ _ _ => step_of_event, fun _ => step_of_idle⟩

/-- Settles O38: `runEvent` and `exec` send an event and its constructor to the same function. -/
theorem eventsAreInstructions : Obligations.EventsAreInstructions := by
  unfold Obligations.EventsAreInstructions
  and_intros <;> intros <;> rfl

/-! Every outcome is a next state. -/

/-- An outcome that is neither a fault nor a refusal. -/
def Answers (o : Host.Outcome State Fault Refusal) : Prop := ∃ t, o = .next t

theorem Answers.next {t : State} : Answers (.next t) := ⟨t, rfl⟩

theorem Answers.ite {c : Prop} [Decidable c] {o p : Host.Outcome State Fault Refusal} (ho : Answers o) (hp : Answers p) :
    Answers (if c then o else p) := by
  split
  · exact ho
  · exact hp

theorem Answers.onNext {f : State → State} {o : Host.Outcome State Fault Refusal} (h : Answers o) :
    Answers (onNext f o) := by
  obtain ⟨t, rfl⟩ := h
  exact .next

theorem waitaTimeout_answers (p : Place) (s : State) : Answers (execWaitaTimeout p s) := by
  unfold execWaitaTimeout
  dsimp only
  split
  · exact .ite .next (.ite .next .next)
  · exact .next

theorem sleepExpiry_answers (p : Place) (s : State) : Answers (execSleepExpiry p s) := by
  unfold execSleepExpiry
  dsimp only
  split
  · exact .ite .next .next
  · exact .next

theorem sweeperPassEnd_answers (slice : Bool) (n : Nat) (s : State) : Answers (execSweeperPassEnd slice n s) :=
  .ite .next .next

theorem exec_answers (i : Instr) (s : State) : Answers (exec i s) := by
  cases i with
  | waitaTimeout p => exact waitaTimeout_answers p s
  | sleepExpiry p => exact sleepExpiry_answers p s
  | sweeperPassEnd slice n => exact sweeperPassEnd_answers slice n s
  | _ => exact ⟨_, rfl⟩

theorem runEvent_answers (e : Event) (s : State) : Answers (runEvent e s) := by
  cases e with
  | waitaTimeout p => exact waitaTimeout_answers p s
  | sleepExpiry p => exact sleepExpiry_answers p s
  | sweeperPassEnd slice n => exact sweeperPassEnd_answers slice n s
  | _ => exact ⟨_, rfl⟩

theorem stepSlot_answers (s : State) (k : Nat) (b : Bool) : Answers (stepSlot s k b) := by
  unfold stepSlot
  dsimp only
  split
  · exact exec_answers _ _
  · exact .next
  · exact .next

theorem step_answers (s : State) : Answers (step s) := by
  refine .onNext (.ite ?_ ?_)
  · split
    · exact .next
    · exact runEvent_answers _ _
  · split
    · exact .next
    · exact stepSlot_answers _ _ _

/-- Settles O39: `step_answers`. -/
theorem stepAnswers : Obligations.StepAnswers := step_answers

end Sys2Proof.Proofs.Steps
end

section
/-!
PROOFS. The common checks (`Obligations.HazardTraps`): the checks of steps 7 to 11 in the terms of `Claims.hazards`.
-/

namespace Sys2Proof.Proofs.Hazards

open Sys2Proof Sys2Proof.Machine Sys2Proof.Claims Sys2Proof.Proofs.Issuing

/-- The trap of a check that fails. -/
def hazardTrap (exec : Word32) (found : Byte × Byte) : TrapInfo := ⟨found.1, found.2, exec, 0⟩

section
variable {α : Type} {o : Option α} {found : Option (Byte × Byte)} {exec : Word32} {rest : Option TrapInfo}
  {l : List (Option (Byte × Byte))}

/-- A check that fails decides. -/
theorem first_some {a : α} (f : α → Byte × Byte) (same : found = o.map f) (e : o = some a) :
    some (hazardTrap exec (f a)) = ((found :: l).findSome? id).map (hazardTrap exec) := by
  rw [same, e]
  rfl

/-- A check that holds leaves the decision to those after it. -/
theorem first_none (f : α → Byte × Byte) (same : found = o.map f) (e : o = none)
    (later : rest = (l.findSome? id).map (hazardTrap exec)) :
    rest = ((found :: l).findSome? id).map (hazardTrap exec) := by
  rw [same, e]
  exact later

theorem first_skip (later : rest = (l.findSome? id).map (hazardTrap exec)) :
    rest = ((none :: l).findSome? id).map (hazardTrap exec) := later

end

/-- What a check of a register names. -/
def sited (kind : Byte) (v : Use) : Byte × Byte := (kind, BitVec.ofNat 8 v.site)

theorem atSite_if (c : Prop) [Decidable c] (us : List Use) (kind : Byte) (p : Use → Bool) :
    (if c then atSite us kind p else none) =
      (if c then firstUse us p else none).map (sited kind) := by
  split <;> rfl

theorem noSlot_eq (o : Option Crew) (n : Nat) :
    (o.all fun q => decide (q.bar ≤ n)) = !(o.any fun q => decide (n < q.bar)) := by
  cases o with
  | none => rfl
  | some q => simp [← decide_not]

theorem held_eq (y : Sheaf) : 64 + y.xblk = y.vcount := by
  unfold Sheaf.xblk Sheaf.vcount
  omega

/-- What the check of a format tag names. -/
def tagHazard (u : State) (k : Nat) (v : Use) : Byte × Byte := (0x05, tagFound u k v.reg ++ BitVec.ofNat 4 v.site)

/-- Where an instruction names a tag that its source does not carry. -/
theorem badTag_eq (u : State) (k : Nat) (v : Use) :
    (match v.tag with
      | none => false
      | some w => v.rd && tagFound u k v.reg != 0 && tagFound u k v.reg != w) =
      (v.rd && tagFound u k v.reg != 0 && v.tag.any fun w => tagFound u k v.reg != w) := by
  cases v.tag with
  | none => exact (Bool.and_false _).symm
  | some w => rfl

theorem checkUses_eq_hazards (u : State) (k : Nat) (h : Hdr) (c : Checks) (exec : Word32) :
    u.checkUses k h c exec = ((hazards u k h c).findSome? id).map (hazardTrap exec) := by
  unfold State.checkUses hazards
  simp only [noSlot_eq, held_eq]
  -- The checks in their order: overlap, pending, held, slot, tile, guard, source, tag.
  split
  · next e => exact first_some (sited 0x09) (atSite_if (c.noOverlap = true) ..) e
  next e =>
  refine first_none (sited 0x09) (atSite_if (c.noOverlap = true) ..) e ?_
  split
  · next e => exact first_some (sited 0x04) rfl e
  next e =>
  refine first_none (sited 0x04) rfl e ?_
  split
  · next e => exact first_some (sited 0x07) rfl e
  next e =>
  refine first_none (sited 0x07) rfl e ?_
  split
  · next e => exact first_some (fun n => (0x10, BitVec.ofNat 8 n)) rfl e
  next e =>
  refine first_none (fun n => (0x10, BitVec.ofNat 8 n)) rfl e ?_
  split
  · next e => exact first_some (fun n => (0x11, BitVec.ofNat 8 n)) rfl e
  next e =>
  refine first_none (fun n => (0x11, BitVec.ofNat 8 n)) rfl e ?_
  split
  · rfl
  refine first_skip ?_
  split
  · next e => exact first_some (sited 0x06) (atSite_if ((u.sheaf k).strict = true) ..) e
  next e =>
  refine first_none (sited 0x06) (atSite_if ((u.sheaf k).strict = true) ..) e ?_
  have tagged : _ = (firstUse c.uses _).map (tagHazard u k) :=
    congrArg (fun p => (firstUse c.uses p).map (tagHazard u k)) (funext fun v => (badTag_eq u k v).symm)
  split
  · next e => exact first_some (tagHazard u k) tagged e
  · next e => exact first_none (tagHazard u k) tagged e rfl

theorem checkEarly_guard {s : State} {k : Nat} {h : Hdr} {c : Checks} (mask : Word32)
    (priv : ¬(c.priv = true ∧ (s.ctx (s.ctxOf k)).priv = false)) (dbg : ¬(c.dbg = true ∧ s.attested (s.ctxOf k) = false))
    (guard : (s.sheaf k).pending (.p h.gp.val) = true) : s.checkEarly k h c mask = some ⟨0x04, 0, mask, 0⟩ := by
  simp only [State.checkEarly, Bool.not_eq_true']
  rw [if_neg priv, if_neg dbg, guard, if_pos rfl]

theorem trapsWith_of_uses {i : Instr} {s : State} {F : Form} {t : TrapInfo} (row : formOf s i = some F) (wf : i.wf = true)
    (standing : stands s i) (early : s.checkEarly s.focus F.h F.c s.focusSlot.mask = none) (runs : (s.ex i F.h).exec ≠ 0)
    (refused : (s.picked (s.ex i F.h)).checkUses s.focus F.h F.c (s.ex i F.h).exec = some t) : trapsWith s i F.h t := by
  obtain ⟨eff, run⟩ := form_issued i s F row wf
  obtain ⟨live, here⟩ := standing
  rw [trapsWith, run, issue_uses live here ((checkEarly_picked ..).trans early) runs refused]

/-- Settles O29: `checkEarly_guard` and `checkUses_eq_hazards`, each with the rule of `issue` for its trap. -/
theorem hazardTraps : Obligations.HazardTraps := by
  intro i s F row wf standing priv dbg
  refine ⟨fun guard => trapsWith_of_early row wf standing (checkEarly_guard _ priv dbg guard),
    fun guard runs kind detail found => trapsWith_of_uses row wf standing (checkEarly_none _ priv dbg guard) runs ?_⟩
  rw [checkUses_eq_hazards, found]
  rfl

end Sys2Proof.Proofs.Hazards
end

section
/-!
PROOFS. Checkpoint, persist and restore (`Obligations.InvarSteps`): one lemma for each row of `Claims.invarSteps`.
-/

namespace Sys2Proof.Proofs.Invar

open Sys2Proof Sys2Proof.Machine Sys2Proof.Claims Sys2Proof.Proofs.OrrerySteps

/-- An event has the effect of a table's row when it has it under the row's condition. -/
theorem occursIn_of_row {table : State → Instr → Option (Prop × State)} {s t : State} {i : Instr} {P : Prop}
    (row : table s i = some (P, t)) (run : P → exec i s = .next t) : OccursIn table s i := by
  intro Q u h hQ
  cases row.symm.trans h
  exact run hQ

/-- A command of the Invar is taken. -/
theorem takes_iff {s : State} : (!s.configures ∨ s.host.invarSt = 1) ↔ ¬ (mappedState s ∧ s.host.invarSt ≠ 1) := by
  rw [not_and_or, ← HostPort.configures_iff, not_not, Bool.not_eq_true, Bool.not_eq_true']

theorem invarCheckpoint_occurs (s : State) : OccursIn invarSteps s .invarCheckpoint := occursIn_of_row rfl fun ok =>
  congrArg Host.Outcome.next (if_neg fun refused => takes_iff.mp refused ok)

theorem invarPersist_occurs (s : State) : OccursIn invarSteps s .invarPersist := occursIn_of_row rfl fun ok =>
  congrArg Host.Outcome.next (if_neg fun refused => takes_iff.mp refused ok)

theorem restores_iff {s : State} : (s.host.cur ≠ 4 ∨ s.launches ≠ [] ∨ !s.images.any s.imageStands) ↔
    ¬ (s.host.cur = 4 ∧ s.launches = [] ∧ s.images.any s.imageStands = true) := by
  rw [not_and_or, not_and_or, Bool.not_eq_true, Bool.not_eq_true']

theorem invarRestore_occurs (s : State) : OccursIn invarSteps s .invarRestore := occursIn_of_row rfl fun ok => by
  refine congrArg Host.Outcome.next ?_
  unfold State.askRestore
  rw [if_neg fun refused => takes_iff.mp refused ok]
  simp only [restores_iff, ite_not]
  rfl

/-- With no error anywhere and every span drained, the checkpoint engine writes its image or fails. -/
theorem checkpointDone_occurs (s : State) (ok : Bool) (us : Nat) : OccursIn invarSteps s (.checkpointDone ok us) :=
  occursIn_of_row rfl fun ⟨asked, saved, drained, homes, sram, regs, words⟩ => by
    have all_drained : (s.runningSpans.all fun p => s.drained p.1) = true := List.all_eq_true.mpr drained
    have none_saving : (s.spans.any fun p => p.2.state == .saving) = false := by simpa using saved
    show execCheckpointDone ok us s = _
    simp only [execCheckpointDone, asked, homes, all_drained, none_saving, sram, regs, words, List.filter_nil, List.foldl_nil,
      List.any_nil, bne_self_eq_false, Bool.or_self, Bool.not_true, Bool.false_eq_true, if_false, Bool.not_eq_true']
    by_cases fault : s.ckptFault = true
    · rw [if_pos fault, if_pos (.inl fault)]
      rfl
    by_cases fails : ok = false ∨ s.safeBases = []
    · rw [if_neg fault, if_pos fails, if_pos (.inr fails)]
      rfl
    rw [if_neg fault, if_neg fails, if_neg (not_or.mpr ⟨fault, fails⟩)]
    split
    · next u written => rw [written, if_neg fun refused => refused rfl]; rfl
    · next c u refused written => rw [written, if_pos (show (c, u).1 ≠ 0 from refused)]; rfl

theorem mask52_eq : ~~~((1 : Word64) <<< 52) = 0xFFEFFFFFFFFFFFFF := by decide

theorem persistDone_occurs (s : State) (ok : Bool) (us : Nat) : OccursIn invarSteps s (.persistDone ok us) :=
  occursIn_of_row rfl fun command => by
    show execPersistDone ok us s = _
    simp only [execPersistDone, command, mask52_eq]
    cases ok with
    | false =>
      simp only [ne_eq, not_true, Bool.not_false, if_true, if_false]
      rfl
    | true =>
      simp only [ne_eq, not_true, Bool.not_true, Bool.false_eq_true, if_false, List.contains_eq_mem, decide_eq_true_eq]
      rfl

theorem restoreDone_occurs (s : State) (ok : Bool) (us : Nat) : OccursIn invarSteps s (.restoreDone ok us) :=
  occursIn_of_row rfl fun command => by
    show execRestoreDone ok us s = _
    simp only [execRestoreDone, command, ne_eq, not_true, if_false, Bool.not_eq_true']
    rfl

/-- Settles O27: a lemma for each row; the other instructions are in no row. -/
theorem invarSteps : Obligations.InvarSteps := by
  intro i s
  cases i with
  | invarCheckpoint => exact invarCheckpoint_occurs s
  | checkpointDone ok us => exact checkpointDone_occurs s ok us
  | invarPersist => exact invarPersist_occurs s
  | persistDone ok us => exact persistDone_occurs s ok us
  | invarRestore => exact invarRestore_occurs s
  | restoreDone ok us => exact restoreDone_occurs s ok us
  | _ => exact OccursIn.of_none rfl

end Sys2Proof.Proofs.Invar
end

section
/-!
PROOFS. Modules, discards, heat and power (`Obligations.ModuleSteps`): one lemma for each row of `Claims.moduleSteps`.
-/

namespace Sys2Proof.Proofs.Modules

open Sys2Proof Sys2Proof.Machine Sys2Proof.Claims Sys2Proof.Proofs.OrrerySteps
open Sys2Proof.Proofs.Invar (occursIn_of_row)

/-! Modules (R415 to R417). -/

theorem unmapped_iff {s : State} {m : Nat} : (!s.mapped m) = true ↔ ¬ s.mapped m = true := by
  rw [Bool.not_eq_true, Bool.not_eq_true']

theorem moduleFault_occurs (s : State) (m sub addr unit : Nat) : OccursIn moduleSteps s (.moduleFault m sub addr unit) := by
  match sub with
  | 0 | 1 | 2 => exact occursIn_of_row rfl fun mapped => congrArg Host.Outcome.next (if_neg fun no => unmapped_iff.mp no mapped)
  | 3 =>
    refine occursIn_of_row rfl fun ⟨mapped, reachable⟩ => ?_
    show execModuleFault m 3 addr unit s = _
    simp only [execModuleFault, mapped, reachable, Bool.not_true, Bool.false_eq_true, if_false]
  | 4 =>
    refine occursIn_of_row rfl fun ⟨mapped, unit_lt, sound⟩ => ?_
    have fails : ¬ (64 ≤ unit ∨ (s.modl m).badUnits.contains unit) := by simp [unit_lt, sound]
    show execModuleFault m 4 addr unit s = _
    simp only [execModuleFault, mapped, Bool.not_true, Bool.false_eq_true, if_false, if_neg fails]
  | _ + 5 => exact OccursIn.of_none rfl

theorem moduleRecovered_occurs (s : State) (m : Nat) : OccursIn moduleSteps s (.moduleRecovered m) :=
  occursIn_of_row rfl fun lost => congrArg Host.Outcome.next (by simp only [lost, Bool.not_true, Bool.false_eq_true, if_false])

/-! The end of a discard (Table 18-4). -/

/-- Nothing that a launch sent is under way. -/
theorem stillOut_eq_false {s : State} {n : Nat}
    (landed : ∀ p ∈ s.chunks, p.2.landed = false → (s.crew p.2.crew).launch ≠ n)
    (answered : ∀ p ∈ s.xfers, p.2.launch ≠ n) :
    s.stillOut n = false := by
  simp only [State.stillOut, Bool.or_eq_false_iff, List.any_eq_false]
  exact ⟨fun p hp => by simpa using landed p hp, fun p hp => by simpa using answered p hp⟩

theorem discardRelease_occurs (s : State) (n : Nat) : OccursIn moduleSteps s (.discardRelease n) := by
  intro P t row ok
  obtain ⟨l, found, row⟩ := Option.map_eq_some_iff.mp row
  cases row
  obtain ⟨discarding, landed, answered⟩ := ok
  show execDiscardRelease n s = _
  simp only [execDiscardRelease, found, discarding, ne_eq, not_true, if_false, stillOut_eq_false landed answered,
    Bool.false_eq_true]
  rfl

/-! Heat and power (R385, Table 18-10). -/

theorem thermalWarning_occurs (s : State) (v : Nat) : OccursIn moduleSteps s (.thermalWarning v) :=
  occursIn_of_row rfl fun hot => congrArg Host.Outcome.next (if_neg (Nat.not_le_of_lt hot))

theorem thermalThrottle_occurs (s : State) (v : Nat) : OccursIn moduleSteps s (.thermalThrottle v) :=
  occursIn_of_row rfl fun hot => congrArg Host.Outcome.next (if_neg (Nat.not_le_of_lt hot))

theorem thermalRecover_occurs (s : State) (v : Nat) : OccursIn moduleSteps s (.thermalRecover v) :=
  occursIn_of_row rfl fun ⟨cool, limited⟩ => congrArg Host.Outcome.next (if_neg <| by
    rcases limited with warm | throttled
    · simp [cool, warm]
    · simp [cool, throttled])

theorem powerExcursion_occurs (s : State) (v : Nat) : OccursIn moduleSteps s (.powerExcursion v) :=
  occursIn_of_row rfl fun high => congrArg Host.Outcome.next (if_neg (Nat.not_le_of_lt high))

theorem powerExcursionEnd_occurs (s : State) (v : Nat) : OccursIn moduleSteps s (.powerExcursionEnd v) :=
  occursIn_of_row rfl fun ⟨low, lasts⟩ => congrArg Host.Outcome.next (if_neg (by simp [low, lasts]))

theorem thermalShutdown_occurs (s : State) (v : Nat) : OccursIn moduleSteps s (.thermalShutdown v) :=
  occursIn_of_row rfl fun _ => rfl

/-- Settles O25: a lemma for each row; the other instructions are in no row. -/
theorem moduleSteps : Obligations.ModuleSteps := by
  intro i s
  cases i with
  | moduleFault m sub addr unit => exact moduleFault_occurs s m sub addr unit
  | moduleRecovered m => exact moduleRecovered_occurs s m
  | discardRelease n => exact discardRelease_occurs s n
  | thermalWarning v => exact thermalWarning_occurs s v
  | thermalThrottle v => exact thermalThrottle_occurs s v
  | thermalRecover v => exact thermalRecover_occurs s v
  | powerExcursion v => exact powerExcursion_occurs s v
  | powerExcursionEnd v => exact powerExcursionEnd_occurs s v
  | thermalShutdown v => exact thermalShutdown_occurs s v
  | _ => exact OccursIn.of_none rfl

end Sys2Proof.Proofs.Modules
end

section
/-!
PROOFS. A trap that is not handled (`Obligations.TrapUnhandled`): what a discard leaves of the window of launches, and the
state of the launch that it discards.
-/

namespace Sys2Proof.Proofs.Discard

open Sys2Proof Sys2Proof.Machine Sys2Proof.Claims Sys2Proof.Proofs.Control Sys2Proof.Proofs.TrapEntry

/-! What leaves the window of launches and domain time alone. -/

/-- The window of launches, and domain time. -/
def kept (s : State) : Tab Launch × Nat := (s.launches, s.nanos)

section

variable (s : State)

theorem kept_foldl {α : Type} {f : State → α → State} (same : ∀ t x, kept (f t x) = kept t) (l : List α) :
    kept (l.foldl f s) = kept s := by
  induction l generalizing s with
  | nil => rfl
  | cons x l ih => exact (ih _).trans (same s x)

theorem kept_later_if (c : Prop) [Decidable c] (e : Event) : kept (if c then s else s.later e) = kept s := by
  split <;> rfl

theorem kept_noteFault (type sub : Nat) : kept (s.noteFault type sub) = kept s := by
  unfold State.noteFault
  split <;> rfl

theorem kept_wakeWaita (k : Nat) (code : Word64) : kept (s.wakeWaita k code) = kept s := by
  unfold State.wakeWaita
  split <;> rfl

theorem kept_notify (g : Nat) : kept (s.notify g) = kept s := by
  unfold State.notify
  refine kept_foldl s (fun t p => ?_) _
  exact kept_wakeWaita _ _ _

theorem kept_stamp (a : Nat) : kept (s.stamp a) = kept s := by
  unfold State.stamp
  split
  · rfl
  · generalize List.range 32 = cells
    exact kept_foldl s (f := fun t i => t.setByte (a / 32 * 32 + i) 0) (fun _ _ => rfl) cells

theorem kept_pkgSet (a : Nat) (x : Byte) : kept (s.pkgSet a x) = kept s := by
  unfold State.pkgSet
  split
  · rfl
  · exact kept_stamp s a

theorem kept_pkgSetAll (a : Nat) (bs : List Byte) : kept (s.pkgSetAll a bs) = kept s := by
  induction bs generalizing s a with
  | nil => rfl
  | cons x xs ih => exact (ih _ _).trans (kept_pkgSet s a x)

theorem kept_mask (a n : Nat) : kept (s.mask a n) = kept s := by
  unfold State.mask
  split <;> rfl

theorem kept_pkgWrite (a : Nat) (bs : List Byte) : kept (s.pkgWrite a bs) = kept s :=
  ((kept_foldl _ kept_notify _).trans (kept_mask _ _ _)).trans (kept_pkgSetAll s a bs)

theorem kept_disarm (l : Launch) : kept (s.disarm l) = kept s := by
  unfold State.disarm
  split
  · rfl
  · split
    · rfl
    · exact kept_pkgWrite s _ _

theorem kept_quarantine (key : Nat) (g : Gen) : kept (s.quarantine key g) = kept s := by
  unfold State.quarantine
  split
  · rfl
  · exact kept_later_if _ _ _

theorem kept_mark (k : Nat) (sw : Bool) : kept (s.mark k sw) = kept s := by
  unfold State.mark
  split <;> rfl

theorem kept_advance (k : Nat) (b : Bool) (n : Nat) : kept (s.advance k b n) = kept s := by
  unfold State.advance
  split
  · rfl
  · split
    · rfl
    · exact kept_mark _ _ _

theorem kept_issueGen {s t : State} {key : Nat} {g : Gen} (issued : s.issueGen key = some (g, t)) :
    kept t = kept s := by
  unfold State.issueGen at issued
  split at issued
  · cases issued
  · cases issued
    rfl

theorem kept_takeBlock {s t : State} {k n : Nat} (taken : s.takeBlock k n = some t) : kept t = kept s := by
  unfold State.takeBlock at taken
  dsimp only at taken
  split at taken
  · cases taken
  split at taken
  · cases taken
  next g u issued =>
  have same := kept_issueGen issued
  split at taken
  · cases taken
    exact same
  · cases taken
    refine Eq.trans (kept_quarantine _ _ _) (Eq.trans (kept_foldl _ (fun v i => ?_) _) same)
    split <;> rfl

theorem kept_grantHead {s t : State} {core : Nat} (granted : s.grantHead core = some t) :
    kept t = kept s := by
  unfold State.grantHead at granted
  split at granted
  · cases granted
  obtain ⟨u, taken, rfl⟩ := Option.map_eq_some_iff.mp granted
  have same : kept u = kept s := by
    split at taken
    · cases taken
      rfl
    · exact kept_takeBlock taken
  dsimp only
  split
  · exact same
  · exact (kept_advance _ _ _ _).trans same

theorem kept_grantBlocks (n : Nat) (core : Nat) : kept (State.grantBlocks n s core) = kept s := by
  induction n generalizing s with
  | zero => rfl
  | succ n ih =>
    unfold State.grantBlocks
    split
    · rfl
    · next granted => exact (ih _).trans (kept_grantHead granted)

theorem kept_freeBlock (core start : Nat) : kept (s.freeBlock core start) = kept s :=
  (kept_later_if _ _ _).trans (kept_grantBlocks (s.emptyBlock core start) _ _)

theorem kept_if {c : Prop} [Decidable c] {t u : State} (ht : kept t = kept s) (hu : kept u = kept s) :
    kept (if c then t else u) = kept s := by
  split
  · exact ht
  · exact hu

theorem kept_releasePlace (k : Nat) : kept (s.releasePlace k) = kept s := by
  unfold State.releasePlace
  split
  · rfl
  next y found =>
  extract_lets dropped left u v w
  have left_same : kept u = kept s := (kept_quarantine _ _ _).trans (kept_if _ rfl rfl)
  have grown : kept v = kept s := by
    unfold v
    split
    · exact left_same
    · refine kept_if _ ?_ ((kept_freeBlock _ _ _).trans ?_)
      · exact (kept_quarantine _ _ _).trans left_same
      · exact (kept_quarantine _ _ _).trans left_same
  have freed : kept w = kept s := by
    unfold w
    split
    · exact grown
    · exact kept_if _ grown ((kept_freeBlock _ _ _).trans grown)
  exact kept_if _ freed freed

theorem kept_dropWork (n : Nat) : kept (s.dropWork n) = kept s := by
  unfold State.dropWork
  refine (kept_foldl _ (fun t p => kept_releasePlace t _) _).trans ?_
  exact kept_foldl s (f := fun t c => t.endLeave (.matrix c)) (fun _ _ => rfl) _

end

/-! A launch that is being discarded stays so. -/

/-- The window holds a launch that is being discarded, in its entry n. -/
def holdsDiscard (n : Nat) (m : Launch) (s : State) : Prop :=
  Tab.find s.launches n = some m ∧ m.state = .discarding

theorem holdsDiscard_congr {n : Nat} {m : Launch} {s t : State} (h : holdsDiscard n m s) (same : t.launches = s.launches) :
    holdsDiscard n m t := by
  rwa [holdsDiscard, same]

theorem holdsDiscard_foldl {n : Nat} {m : Launch} {α : Type} {f : State → α → State}
    (keep : ∀ t x, holdsDiscard n m t → holdsDiscard n m (f t x)) (l : List α) {s : State} (h : holdsDiscard n m s) :
    holdsDiscard n m (l.foldl f s) := by
  induction l generalizing s with
  | nil => exact h
  | cons x l ih => exact ih (keep s x h)

/-- The state after the first three steps of a discard (Table 18-4), whose entry is marked. -/
def discardMarked (s : State) (n : Nat) (l : Launch) (sub : Nat) (kind : Byte) (addr : BitVec 56) (node : Nat) : State :=
  let s := s.modLaunch n fun l => { l with state := .discarding, sub := sub, kind := kind, faddr := addr, node := node }
  let s := s.noteFault 2 sub
  let s := if l.state = .armed then s.disarm l else s
  let s := (s.spans.filter fun p => p.2.launch == n && p.2.state != .retired).foldl
    (fun (t : State) p => t.modSpan p.1 fun x => { x with state := .discarded, saved := none }) s
  s.dropWork n

theorem kept_discardMarked (s : State) (n : Nat) (l : Launch) (sub : Nat) (kind : Byte) (addr : BitVec 56) (node : Nat) :
    kept (discardMarked s n l sub kind addr node) = kept (s.modLaunch n fun l =>
      { l with state := .discarding, sub := sub, kind := kind, faddr := addr, node := node }) := by
  unfold discardMarked
  refine (kept_dropWork _ _).trans ((kept_foldl _ (fun t p => ?_) _).trans ?_)
  · rfl
  · exact kept_if _ ((kept_disarm _ _).trans (kept_noteFault _ _ _)) (kept_noteFault _ _ _)

theorem launches_discardMarked (s : State) (n : Nat) (l : Launch) (sub : Nat) (kind : Byte) (addr : BitVec 56) (node : Nat) :
    (discardMarked s n l sub kind addr node).launches = Tab.mod s.launches n fun l =>
      { l with state := .discarding, sub := sub, kind := kind, faddr := addr, node := node } :=
  congrArg Prod.fst (kept_discardMarked s n l sub kind addr node)

theorem holdsDiscard_discardFuel {n : Nat} {m : Launch} (fuel : Nat) {s : State} (h : holdsDiscard n m s) (i sub : Nat)
    (kind : Byte) (addr : BitVec 56) (node : Nat) : holdsDiscard n m (State.discardFuel fuel s i sub kind addr node) := by
  induction fuel generalizing s i sub kind addr node with
  | zero => exact h
  | succ fuel ih =>
    unfold State.discardFuel
    split
    · exact h
    next l found =>
    dsimp only
    split
    · exact h
    next goes =>
    refine holdsDiscard_congr (s := _) ?_ (State.later_launches _ _)
    refine holdsDiscard_foldl (fun t x ht => ih ht _ _ _ _ _) _ ?_
    refine holdsDiscard_foldl (fun t x ht => ih ht _ _ _ _ _) _ ?_
    obtain ⟨found_n, discarding⟩ := h
    have other : n ≠ i := by
      rintro rfl
      cases found_n.symm.trans found
      exact goes (.inl discarding)
    refine ⟨?_, discarding⟩
    rw [← found_n, ← Tab.find_mod_other s.launches other]
    exact congrArg (Tab.find · n) (launches_discardMarked s i l sub kind addr node)

/-- A launch that is discarded has what its discard says of it. -/
theorem holdsDiscard_discardAt {s : State} {n : Nat} {l : Launch} (found : Tab.find s.launches n = some l)
    (active : l.state = .active) (sub : Nat) (kind : Byte) (addr : BitVec 56) (node : Nat) :
    holdsDiscard n { l with state := .discarding, sub := sub, kind := kind, faddr := addr, node := node }
      (s.discardAt n sub kind addr node) := by
  unfold State.discardAt State.discardFuel
  have goes : ¬ (l.state = .discarding ∨ l.state = .ending) := by simp [active]
  simp only [found, if_neg goes]
  refine holdsDiscard_congr (s := _) ?_ (State.later_launches _ _)
  refine holdsDiscard_foldl (fun t x ht => holdsDiscard_discardFuel _ ht _ _ _ _ _) _ ?_
  refine holdsDiscard_foldl (fun t x ht => holdsDiscard_discardFuel _ ht _ _ _ _ _) _ ?_
  refine ⟨?_, rfl⟩
  refine (congrArg (Tab.find · n) (launches_discardMarked s n l sub kind addr node)).trans ?_
  rw [Tab.find_mod_same, found]
  rfl

/-! The trap. -/

/-- A trap is handled in the state in which it is taken only under the conditions of R383. -/
theorem handles_of_trapHandled_entered {s : State} {t : Trap} (i : Instr) (h : Hdr)
    (handled : (s.entered i h).trapHandled s.focus s.focusB t = true) : handles s t.rpc := by
  have same := trapView_entered s i h s.focus s.focusB
  simp only [trapView, Prod.mk.injEq] at same
  obtain ⟨frag, launch, -, sameActive, -⟩ := same
  have sameCtx : (s.entered i h).ctxOf s.focus = s.ctxOf s.focus := by
    simp only [State.ctxOf, State.launchOf, frag, launch]
    rfl
  simp only [State.trapHandled, sameCtx, State.entered_readS, sameActive, Bool.and_eq_true, beq_iff_eq, low2_eq_zero_iff,
    high32_eq_iff, Bool.not_eq_true'] at handled
  obtain ⟨⟨⟨priv, aligned⟩, region⟩, active⟩ := handled
  exact ⟨priv, aligned, region, active⟩

theorem takeTrap_of_unhandled {k : Nat} {b : Bool} {r : Trap} {t : State} (home : (t.sheaf k).frag = none)
    (free : t.canEnter k b = true) (unhandled : t.trapHandled k b r = false) :
    t.takeTrap k b r = (t.modSlot k b fun sl => { sl with waiting := none }).discardAt (t.sheaf k).launch 1 r.kind
      ((r.rpc.extractLsb' 2 55).setWidth 56) (nodeOfUnit (unitOf k)) := by
  simp only [State.takeTrap, home, free, if_true, State.enterTrap, unhandled]
  rfl

/-- Settles O48: the trap discards the launch, and its entry stands as the discard leaves it. -/
theorem trapUnhandled : Obligations.TrapUnhandled := by
  intro h code s l issued home free unhandled found active
  obtain ⟨sw, run⟩ : ∃ sw, exec (.trap h code) s = .next
      (((s.entered (.trap h code) h).takeTrap s.focus s.focusB (soft (s.ex (.trap h code) h) 0x14 code)).mark s.focus sw) :=
    ⟨_, trap_completes s h code _ rfl rfl issued trivial⟩
  have refused : (s.entered (.trap h code) h).trapHandled s.focus s.focusB (soft (s.ex (.trap h code) h) 0x14 code) = false :=
    Bool.eq_false_iff.mpr fun handled => unhandled (handles_of_trapHandled_entered _ _ handled)
  have taken := takeTrap_of_unhandled ((s.entered_frag (.trap h code) h s.focus).trans home)
    (canEnter_entered free (.trap h code) h) refused
  have same := trapView_entered s (.trap h code) h s.focus s.focusB
  simp only [trapView, Prod.mk.injEq] at same
  obtain ⟨-, launch, -, -, -⟩ := same
  rw [launch] at taken
  obtain ⟨entry, discarding⟩ := holdsDiscard_discardAt (s := (s.entered (.trap h code) h).modSlot s.focus s.focusB
    fun sl => { sl with waiting := none }) found active 1 0x14 ((s.focusSlot.pc + 8).extractLsb' 2 55 |>.setWidth 56)
    (nodeOfUnit (unitOf s.focus))
  refine ⟨_, _, run, ?_, discarding, rfl, rfl, rfl⟩
  refine (congrArg (fun p => Tab.find p.1 _) (kept_mark _ _ _)).trans ?_
  rw [taken]
  exact entry

end Sys2Proof.Proofs.Discard
end

section
/-!
PROOFS. The image of a frame (`Obligations.FrameImages`): the fields of a header, bytes as numbers, and the 292 bytes.
-/

namespace Sys2Proof.Proofs.FrameBytes

open Sys2Proof Sys2Proof.Machine

/-! Bytes as numbers. -/

theorem length_leBytes (n w : Nat) : (leBytes n w).length = n := by
  induction n generalizing w with
  | zero => rfl
  | succ n ih => exact congrArg (· + 1) (ih _)

theorem leNat_leBytes (n w : Nat) : leNat (leBytes n w) = w % 256 ^ n := by
  induction n generalizing w with
  | zero => rw [Nat.pow_zero, Nat.mod_one]; rfl
  | succ n ih =>
    have low : (BitVec.ofNat 8 (w % 256)).toNat = w % 256 := by simp
    rw [leBytes, leNat, ih, low, Nat.pow_succ', Nat.mod_mul (a := 256)]

theorem leNat_leBytes_toNat {n w : Nat} (x : BitVec w) (fits : 2 ^ w = 256 ^ n) : leNat (leBytes n x.toNat) = x.toNat := by
  rw [leNat_leBytes, ← fits, Nat.mod_eq_of_lt x.isLt]

/-! The header (Table 14-2). -/

theorem ordf_frameHeader (f : Frame) : (frameHeader f).getLsbD 52 = f.ordf := by
  simp only [frameHeader, BitVec.getLsbD_append]
  simp

theorem last_frameHeader (f : Frame) : (frameHeader f).getLsbD 51 = f.last := by
  simp only [frameHeader, BitVec.getLsbD_append]
  simp

/-- A header gives its frame back, with the payload that stands beside it. -/
theorem frameOfHeader_frameHeader (f : Frame) (payload : List Byte) :
    frameOfHeader (frameHeader f) payload = { f with payload := payload } := by
  simp only [frameOfHeader, ordf_frameHeader, last_frameHeader]
  simp (disch := omega) only [frameHeader, BitVec.extractLsb'_append_eq_of_le,
    BitVec.extractLsb'_append_eq_of_add_le]
  simp

theorem len_frameHeader (f : Frame) : (frameHeader f).extractLsb' 53 3 = f.len :=
  congrArg Frame.len (frameOfHeader_frameHeader f [])

theorem headerOk_frameHeader {f : Frame} (known : f.type.toNat < 10) : headerOk (frameHeader f) = true := by
  have type : (frameHeader f).extractLsb' 58 4 = f.type := congrArg Frame.type (frameOfHeader_frameHeader f [])
  have reserved : (frameHeader f).extractLsb' 0 5 = 0 := by
    simp (disch := omega) only [frameHeader, BitVec.extractLsb'_append_eq_of_add_le]
    rfl
  simp [headerOk, type, known, reserved]

/-! The image. -/

theorem length_padded {bs : List Byte} (short : bs.length ≤ 256) : (padded bs).length = 256 := by
  simp [padded]
  omega

theorem take_padded {bs : List Byte} (short : bs.length ≤ 256) : (padded bs).take bs.length = bs := by
  rw [padded, List.take_of_length_le short, List.take_left]

/-- The 288 bytes that the CRC covers. -/
def frameBody (f : Frame) : List Byte := leBytes 32 (frameHeader f).toNat ++ padded f.payload

theorem length_frameBody {f : Frame} (short : f.payload.length ≤ 256) : (frameBody f).length = 288 := by
  rw [frameBody, List.length_append, length_leBytes, length_padded short]

theorem take_frameImage {f : Frame} (short : f.payload.length ≤ 256) : (frameImage f).take 288 = frameBody f :=
  List.take_left' (length_frameBody short)

theorem drop_frameImage {f : Frame} (short : f.payload.length ≤ 256) :
    (frameImage f).drop 288 = leBytes 4 (crc32 (frameBody f)).toNat :=
  List.drop_left' (length_frameBody short)

theorem length_frameImage {f : Frame} (short : f.payload.length ≤ 256) : (frameImage f).length = 292 := by
  have image : frameImage f = frameBody f ++ leBytes 4 (crc32 (frameBody f)).toNat := rfl
  rw [image, List.length_append, length_frameBody short, length_leBytes]

theorem header_frameBody (f : Frame) : BitVec.ofNat 256 (leNat ((frameBody f).take 32)) = frameHeader f := by
  rw [frameBody, List.take_left' (length_leBytes _ _), leNat_leBytes_toNat _ (by decide), BitVec.ofNat_toNat, BitVec.setWidth_eq]

theorem drop_frameBody (f : Frame) : (frameBody f).drop 32 = padded f.payload := List.drop_left' (length_leBytes _ _)

/-- Settles O58: the header and the payload are read from the body, which the CRC that follows it confirms. -/
theorem frameImages : Obligations.FrameImages := by
  intro f known size
  have short : f.payload.length ≤ 256 := by
    have := f.len.isLt
    omega
  have crc : leNat ((frameImage f).drop 288) = (crc32 (frameBody f)).toNat := by
    rw [drop_frameImage short, leNat_leBytes_toNat _ (by decide)]
  simp only [frameOfImage, take_frameImage short, header_frameBody, len_frameHeader, drop_frameBody, ← size, take_padded short,
    length_frameImage short, crc, headerOk_frameHeader known, frameOfHeader_frameHeader, true_and, if_true]

end Sys2Proof.Proofs.FrameBytes
end

section
/-!
PROOFS. The records of the link layer: posting one changes neither the window of launches nor domain time.
-/

namespace Sys2Proof.Proofs.Records

open Sys2Proof Sys2Proof.Machine Sys2Proof.Proofs.Discard

variable (s : State)

/-! Writes of module bytes. -/

theorem kept_setBytes {α : Type} (place : α → Nat) (byte : α → Byte) (l : List α) :
    kept (l.foldl (fun t p => t.setByte (place p) (byte p)) s) = kept s :=
  kept_foldl s (f := fun t p => t.setByte (place p) (byte p)) (fun _ _ => rfl) l

theorem kept_copyPage (m page : Nat) : kept (s.copyPage m page).2 = kept s := by
  unfold State.copyPage
  split
  · rfl
  · dsimp only
    split <;> rfl

theorem kept_materialise (m page : Nat) : kept (s.materialise m page).2 = kept s := by
  unfold State.materialise
  dsimp only
  split
  · rfl
  · split
    · rfl
    · generalize List.zipIdx _ = bytes
      exact kept_setBytes (State.setLeaf _ _ _ _) _ _ bytes

theorem kept_writePiece (m off : Nat) (bs : List Byte) : kept (s.writePiece m off bs).2 = kept s := by
  have copied := kept_copyPage s m (off / 2 ^ 16)
  have made := (kept_materialise (s.copyPage m (off / 2 ^ 16)).2 m (off / 2 ^ 16)).trans copied
  unfold State.writePiece
  dsimp only
  split
  · exact copied
  · split
    · exact made
    · split
      · exact (kept_setBytes (State.setLeaf _ _ _ _) _ _ bs.zipIdx).trans made
      · exact (kept_setBytes (State.setLeaf _ _ _ _) _ _ bs.zipIdx).trans made

theorem kept_writePieces (m off : Nat) (bs : List Byte) (ps : List (Nat × Nat)) :
    kept (s.writePieces m off bs ps).2 = kept s := by
  induction ps generalizing s with
  | nil => rfl
  | cons p ps ih =>
    unfold State.writePieces
    dsimp only
    split
    · exact kept_writePiece s _ _ _
    · exact (ih _).trans (kept_writePiece s _ _ _)

theorem kept_modWrite (m off : Nat) (bs : List Byte) (kind : AKind) : kept (s.modWrite m off bs kind).2 = kept s := by
  unfold State.modWrite
  dsimp only
  split
  · rfl
  · exact kept_writePieces s _ _ _ _

theorem kept_ctxWrite {t : State} {ctx : Nat} {va : Word64} {bs : List Byte} (written : s.ctxWrite ctx va bs = .ok t) :
    kept t = kept s := by
  unfold State.ctxWrite at written
  split at written
  · cases written
  · split at written
    · cases written
      exact kept_pkgWrite s _ _
    · cases written
    · split at written
      next module_written =>
      split at written
      · cases written
        exact (congrArg (fun r => kept r.2) module_written).symm.trans (kept_modWrite s _ _ _ _)
      · cases written

/-! Posts (R377, R379). -/

theorem kept_queueField (ctx q byte : Nat) (x : Word32) : kept (s.queueField ctx q byte x) = kept s := by
  unfold State.queueField
  split
  · next written => exact kept_ctxWrite s written
  · rfl

theorem kept_queueLost (ctx q : Nat) : kept (s.queueLost ctx q) = kept s := kept_queueField s _ _ _ _

theorem kept_queueWrite (ctx q : Nat) (body : BitVec 256) : kept (s.queueWrite ctx q body) = kept s := by
  unfold State.queueWrite
  dsimp only
  split
  · exact kept_queueLost s _ _
  · split
    · refine kept_if _ (kept_queueLost s _ _) ?_
      have written : ∀ p bs n, kept ((s.pkgWrite p bs).queueField ctx q 24 n) = kept s := fun p bs n =>
        (kept_queueField _ _ _ _ _).trans (kept_pkgWrite s p bs)
      split
      · exact written _ _ _
      · exact written _ _ _
    · exact kept_queueLost s _ _

theorem kept_postWaiting (ctx q : Nat) : kept (s.postWaiting ctx q) = kept s := by
  unfold State.postWaiting
  refine kept_foldl { s with waitRecs := [] } (fun t w => ?_) _
  dsimp only
  split
  · exact kept_queueWrite t _ _ _
  · rfl

theorem kept_postIn (ctx q : Nat) (body : BitVec 256) : kept (s.postIn ctx q body) = kept s :=
  kept_if _ ((kept_queueLost _ _ _).trans (kept_postWaiting s _ _)) ((kept_queueWrite _ _ _ _).trans (kept_postWaiting s _ _))

theorem kept_readTable (ctx : Nat) : kept (s.readTable ctx) = kept s := kept_later_if s _ _

theorem kept_post (type sub ctx node : Nat) (payload : BitVec 128) : kept (s.post type sub ctx node payload) = kept s := by
  have read := (kept_readTable (s.noteFault type sub) ctx).trans (kept_noteFault s type sub)
  unfold State.post
  dsimp only
  split
  · exact read
  · exact (kept_postIn _ _ _ _).trans read

theorem kept_linkRecord (type sub fb wl value aux : Nat) : kept (s.linkRecord type sub fb wl value aux) = kept s :=
  kept_foldl s (fun t _ => kept_post t _ _ _ _ _) _

theorem nanos_linkRecord (type sub fb wl value aux : Nat) : (s.linkRecord type sub fb wl value aux).nanos = s.nanos :=
  congrArg Prod.snd (kept_linkRecord s type sub fb wl value aux)

end Sys2Proof.Proofs.Records
end

section
/-!
PROOFS. Optics (`Obligations.OpticsSteps`): where the model and `Claims` write a step in different ways, then one lemma for
each row of `Claims.opticsSteps`.
-/

namespace Sys2Proof.Proofs.Optics

open Sys2Proof Sys2Proof.Machine Sys2Proof.Claims Sys2Proof.Proofs.OrrerySteps
open Sys2Proof.Proofs.Invar (occursIn_of_row)
open Sys2Proof.Proofs.Records (nanos_linkRecord)

/-- An event of a plane or a link has the effect of a table's row when it has it on its fibre. -/
theorem occursIn_of_map {α : Type} {table : State → Instr → Option (Prop × State)} {s : State} {i : Instr} {o : Option α}
    {g : α → Prop × State} (row : table s i = o.map g) (run : ∀ x, o = some x → (g x).1 → exec i s = .next (g x).2) :
    OccursIn table s i := by
  intro P t h ok
  obtain ⟨x, found, e⟩ := Option.map_eq_some_iff.mp (row.symm.trans h)
  have goes := run x found
  rw [e] at goes
  exact goes ok

/-! Wavelengths (R418, R421 to R423). -/

theorem unlit_iff {s : State} {fb wl : Nat} :
    (!(s.wave fb wl).lit ∨ 128 ≤ fb ∨ 128 ≤ wl) ↔ ¬ litAt s fb wl := by
  simp only [litAt, not_and_or, Bool.not_eq_true', Bool.not_eq_true, Nat.not_lt]

theorem wavelengthWindowEnd_occurs (s : State) (fb wl n : Nat) : OccursIn opticsSteps s (.wavelengthWindowEnd fb wl n) :=
  occursIn_of_row rfl fun lit => by
    refine congrArg Host.Outcome.next ((if_neg fun no => unlit_iff.mp no lit).trans ?_)
    unfold windowEnds
    dsimp only
    split
    · simp only [← Nat.not_lt, ite_not]
    · by_cases quiet : 100 ≤ if n ≤ 128 then (s.wave fb wl).quiet + 1 else 0
      · simp only [quiet, if_true]
      · simp only [quiet, if_false]

theorem uncorrectableCodeword_occurs (s : State) (fb g : Nat) : OccursIn opticsSteps s (.uncorrectableCodeword fb g) :=
  occursIn_of_row rfl fun ⟨fibre, group⟩ => by
    refine congrArg Host.Outcome.next ((if_neg (by omega)).trans ?_)
    rfl

theorem lossOfLock_occurs (s : State) (fb wl : Nat) : OccursIn opticsSteps s (.lossOfLock fb wl) :=
  occursIn_of_row rfl fun lit => congrArg Host.Outcome.next (if_neg fun no => unlit_iff.mp no lit)

theorem erasureDeclare_occurs (s : State) (fb wl : Nat) : OccursIn opticsSteps s (.erasureDeclare fb wl) :=
  occursIn_of_row rfl fun lit => by
    refine congrArg Host.Outcome.next ((if_neg fun no => unlit_iff.mp no lit).trans ?_)
    simp only [← Nat.not_lt (b := 2), ite_not]

theorem laserAgeingThreshold_occurs (s : State) (fb wl rise : Nat) :
    OccursIn opticsSteps s (.laserAgeingThreshold fb wl rise) :=
  occursIn_of_row rfl fun ⟨lit, settled⟩ => by
    refine congrArg Host.Outcome.next ((if_neg fun no => unlit_iff.mp no lit).trans ?_)
    rw [settled]
    rfl

/-! Retraining (R421, R424). -/

theorem linkEscalation_occurs (s : State) (fb g : Nat) : OccursIn opticsSteps s (.linkEscalation fb g) :=
  occursIn_of_row rfl fun ⟨fibre, group, escalates⟩ => congrArg Host.Outcome.next (if_neg (by simp [escalates]; omega))

theorem retrainSlot_occurs (s : State) (fb g : Nat) (lit : Bool) : OccursIn opticsSteps s (.retrainSlot fb g lit) :=
  occursIn_of_row rfl fun ⟨role, fibre, group, isOpen, unused, settled⟩ => by
    show execRetrainSlot fb g lit s = _
    unfold execRetrainSlot
    rw [if_neg (by omega), if_neg (by simp [isOpen, unused]), settled]
    rfl

theorem forcedRetrain_occurs (s : State) (fb g : Nat) : OccursIn opticsSteps s (.forcedRetrain fb g) :=
  occursIn_of_row rfl fun ⟨fibre, group, idle, serves⟩ => congrArg Host.Outcome.next (if_neg (by
    rcases serves with h | h <;> simp [h, idle] <;> omega))

theorem forcedRetrainEnd_occurs (s : State) (fb g : Nat) (ok : Bool) : OccursIn opticsSteps s (.forcedRetrainEnd fb g ok) := by
  cases ok with
  | false =>
    exact occursIn_of_row rfl fun busy => congrArg Host.Outcome.next ((if_neg (by simp [busy])).trans (if_neg Bool.false_ne_true))
  | true =>
    exact occursIn_of_row rfl fun busy => congrArg Host.Outcome.next ((if_neg (by simp [busy])).trans (if_pos rfl))

/-! Theodolites (R425). -/

theorem theodoliteWatchdogReset_occurs (s : State) (e : Nat) : OccursIn opticsSteps s (.theodoliteWatchdogReset e) :=
  occursIn_of_row rfl fun engine => by
    refine congrArg Host.Outcome.next ((if_neg (Nat.not_le_of_lt engine)).trans ?_)
    simp only [← Nat.not_lt (b := 3), ite_not]

theorem theodoliteRecovered_occurs (s : State) (e : Nat) : OccursIn opticsSteps s (.theodoliteRecovered e) :=
  occursIn_of_row rfl fun held => by
    refine congrArg Host.Outcome.next ((if_neg (by simp [held])).trans ?_)
    dsimp only
    rw [nanos_linkRecord]
    simp only [← Nat.not_lt, ite_not]

/-! Rotor planes (R305 to R307, R426). -/

theorem windowEnds_eq_windowOver (s : State) (p f : Nat) : s.windowEnds p f = windowOver s p f := rfl

theorem guardRetrains_eq_sparedInGuard (s : State) (f : Nat) : s.guardRetrains f = sparedInGuard s f := by
  unfold State.guardRetrains sparedInGuard
  congr 1
  funext u g
  dsimp only
  cases used : u.tick.free64.getLsbD 0 with
  | false => rfl
  | true =>
    generalize u.tick.spareAndRetire f g (u.tick.free64.getLsbD 1) = r
    obtain ⟨did, t⟩ := r
    cases did with
    | false => rfl
    | true => rfl

theorem rotorSlotBoundary_occurs (s : State) (plane : Nat) : OccursIn opticsSteps s (.rotorSlotBoundary plane) :=
  occursIn_of_map rfl fun f found _ => by
    show execRotorSlotBoundary plane s = _
    unfold execRotorSlotBoundary slotBegins
    simp only [found, windowEnds_eq_windowOver, guardRetrains_eq_sparedInGuard, Bool.and_eq_true, Bool.or_eq_true,
      bne_iff_ne, beq_iff_eq, Bool.not_eq_true']

/-- While the optics train, the model measures the delay of a plane as the first beacon's row says. -/
theorem measured_eq {s : State} (identity : s.host.cur = 1) (training : s.host.training = true) (plane : Nat) :
    (if s.host.cur = 1 ∧ s.host.training = true ∧ (Tab.find s.host.delay plane).isNone = true then
        { s with host := { s.host with
            delay := Tab.set 0 s.host.delay plane (Config.fibreDelay plane &&& 0xFFFFFFFFFFFF0000) } }
      else s) = (firstBeacon s plane).1 := by
  simp only [firstBeacon, identity, training, true_and]

theorem firstBeacon_training (s : State) (plane : Nat) :
    (firstBeacon s plane).1.host.cur = s.host.cur ∧ (firstBeacon s plane).1.host.training = s.host.training := by
  unfold firstBeacon
  dsimp only
  split <;> exact ⟨rfl, rfl⟩

theorem guardBeacon_occurs (s : State) (plane cycle slot domain : Nat) :
    OccursIn opticsSteps s (.guardBeacon plane cycle slot domain) :=
  occursIn_of_map rfl fun f found cond => by
    show execGuardBeacon plane cycle slot domain s = _
    rcases cond with ⟨identity, training⟩ | ⟨trained, known, working⟩
    · obtain ⟨cur, train⟩ := firstBeacon_training s plane
      have early : ¬ 2 ≤ s.host.cur := by omega
      simp only [execGuardBeacon, found, measured_eq identity training, cur, train, if_pos (And.intro identity training),
        if_neg early]
      rfl
    · have late : ¬ (s.host.cur = 1 ∧ s.host.training = true) := by omega
      have measured : ¬ (s.host.cur = 1 ∧ s.host.training = true ∧ (Tab.find s.host.delay plane).isNone = true) := by omega
      have corrects : 2 ≤ s.host.cur ∧ (s.plane plane).domain = some domain ∧ (!(s.plane plane).whole) = true :=
        ⟨trained, known, by rw [working]; rfl⟩
      simp only [execGuardBeacon, found, if_neg measured, if_neg late, if_pos corrects, if_pos trained]
      rfl

theorem failPlane_of_working {s : State} {plane f : Nat} {offset : Option Nat} (found : s.planeFibre plane = some f)
    (working : (s.plane plane).whole = false) (unknown : ∀ o, offset = some o → o ∉ (s.plane plane).offs) :
    s.failPlane plane offset = ((s.modPlane plane fun y => match offset with
      | none => { y with whole := true, failedSlot := slotNumber plane (s.planeTime plane) }
      | some o => { y with offs := o :: y.offs, failedSlot := slotNumber plane (s.planeTime plane) }).linkRecord 13 0 f 0
        (offset.getD 0xFFFF) plane).requeuePlane plane := by
  unfold State.failPlane
  cases offset with
  | none => simp only [found, working, Bool.or_self, Bool.false_eq_true, if_false]
  | some o => simp [found, working, unknown o rfl]

theorem rotorPlaneFailure_occurs (s : State) (plane : Nat) (offset : Option Nat) :
    OccursIn opticsSteps s (.rotorPlaneFailure plane offset) := by
  cases offset with
  | none =>
    refine occursIn_of_map rfl fun f found ⟨silent, working⟩ => ?_
    show execRotorPlaneFailure plane none s = _
    simp only [execRotorPlaneFailure, found, silent, if_true,
      failPlane_of_working (offset := none) found working (fun _ e => nomatch e)]
    rfl
  | some o =>
    refine occursIn_of_map rfl fun f found ⟨silent, working, unknown⟩ => ?_
    show execRotorPlaneFailure plane (some o) s = _
    simp only [execRotorPlaneFailure, found, silent, if_true,
      failPlane_of_working (offset := some o) found working (fun _ e => Option.some.inj e ▸ unknown)]
    rfl

theorem rotorPlaneRestore_occurs (s : State) (plane : Nat) (offset : Option Nat) :
    OccursIn opticsSteps s (.rotorPlaneRestore plane offset) := by
  cases offset with
  | none =>
    refine occursIn_of_map rfl fun f found ⟨failed, slots, out, in_⟩ => ?_
    show execRotorPlaneRestore plane none s = _
    simp only [execRotorPlaneRestore, found, failed, out, in_, Nat.not_lt.mpr slots, or_self, if_false,
      Bool.not_true, Bool.false_eq_true]
    rfl
  | some o =>
    refine occursIn_of_map rfl fun f found ⟨failed, slots, out, in_⟩ => ?_
    show execRotorPlaneRestore plane (some o) s = _
    have listed : (s.plane plane).offs.contains o = true := by simpa using failed
    simp only [execRotorPlaneRestore, found, listed, out, in_, Nat.not_lt.mpr slots, or_self, if_false,
      Bool.not_true, Bool.false_eq_true, ne_eq, decide_not]
    rfl

/-! Long-reach links (R318, R319, R353, R430 to R433). -/

/-- A change of a link is what it does to the link as it stands. -/
theorem modLr_congr (s : State) (l : Nat) {f g : LrLink → LrLink} (same : f (s.lrLink l) = g (s.lrLink l)) :
    s.modLr l f = s.modLr l g := by
  unfold State.modLr Tab.upd
  rw [show Tab.get LrLink.init s.lr l = s.lrLink l from rfl, same]

theorem lrLink_congr {s t : State} (same : s.lr = t.lr) (l : Nat) : s.lrLink l = t.lrLink l :=
  congrArg (Tab.get LrLink.init · l) same

theorem lrLink_pokeFrames (s : State) (l : Nat) : s.pokeFrames.lrLink l = s.lrLink l := by
  unfold State.pokeFrames
  split <;> rfl

theorem nanos_pokeFrames (s : State) : s.pokeFrames.nanos = s.nanos := by
  unfold State.pokeFrames
  split <;> rfl

/-- A link stands as it was changed, unless the change made it as a link that was never used. -/
theorem lrLink_modLr_same {s : State} {l : Nat} {f : LrLink → LrLink} (used : f (s.lrLink l) ≠ LrLink.init) :
    (s.modLr l f).lrLink l = f (s.lrLink l) := by
  have stored : (s.modLr l f).lr = Tab.put s.lr l (f (s.lrLink l)) := if_neg used
  rw [State.lrLink, stored]
  exact Tab.get_put_same _ _ _ _

theorem lrAckTimeout_occurs (s : State) (l : Nat) : OccursIn opticsSteps s (.lrAckTimeout l) :=
  occursIn_of_map rfl fun f found ⟨up, waits, silent⟩ => by
    show execLrAckTimeout l s = _
    simp only [execLrAckTimeout, found, up, waits, Nat.not_lt.mpr silent, or_self, if_false]

theorem lrTrainingAttempt_occurs (s : State) (l : Nat) (ok : Bool) : OccursIn opticsSteps s (.lrTrainingAttempt l ok) := by
  cases ok with
  | false =>
    refine occursIn_of_map rfl fun f found ⟨down, up, time⟩ => ?_
    show execLrTrainingAttempt l false s = _
    have waits : ¬ ((s.lrLink l).state = .trained ∨ s.host.cur < 2) := not_or.mpr ⟨down, Nat.not_lt.mpr up⟩
    simp only [execLrTrainingAttempt, found, if_neg waits, Nat.not_lt.mpr time, if_false, Bool.false_eq_true]
  | true =>
    refine occursIn_of_map rfl fun f found ⟨down, up, time⟩ => ?_
    show execLrTrainingAttempt l true s = _
    have waits : ¬ ((s.lrLink l).state = .trained ∨ s.host.cur < 2) := not_or.mpr ⟨down, Nat.not_lt.mpr up⟩
    simp only [execLrTrainingAttempt, found, if_neg waits, Nat.not_lt.mpr time, if_false, if_true]
    rfl

theorem lrLinkTrained_occurs (s : State) (l : Nat) (key : BitVec 256) (rtt : Nat) :
    OccursIn opticsSteps s (.lrLinkTrained l key rtt) :=
  occursIn_of_map rfl fun f found ⟨down, up, expected⟩ => by
    show execLrLinkTrained l key rtt s = _
    have waits : ¬ ((s.lrLink l).state = .trained ∨ s.host.cur < 2) := not_or.mpr ⟨down, Nat.not_lt.mpr up⟩
    have matching : ¬ key ≠ BitVec.ofNat 256 (leNat ((List.range 32).map fun i => Tab.get 0 s.host.lrpeer (32 * l + i))) :=
      not_not_intro expected
    simp only [execLrLinkTrained, found, if_neg waits, if_neg matching]
    rfl

theorem lrLossDiscard_occurs (s : State) (l : Nat) : OccursIn opticsSteps s (.lrLossDiscard l) :=
  occursIn_of_row rfl fun ⟨down, late⟩ => by
    show execLrLossDiscard l s = _
    simp only [execLrLossDiscard, if_neg down, Nat.not_lt.mpr late, if_false]
    rfl

theorem lrRekey_occurs (s : State) (l : Nat) (out : Bool) : OccursIn opticsSteps s (.lrRekey l out) := by
  cases out with
  | false =>
    refine occursIn_of_row rfl fun ⟨trained, used⟩ => ?_
    refine congrArg Host.Outcome.next (modLr_congr s l ?_)
    simp only [trained, ne_eq, not_true, if_false, Bool.false_eq_true, if_neg (Nat.not_lt.mpr used)]
  | true =>
    refine occursIn_of_row rfl fun ⟨trained, used⟩ => ?_
    refine congrArg Host.Outcome.next (modLr_congr s l ?_)
    simp only [trained, ne_eq, not_true, if_false, if_true, if_neg (Nat.not_lt.mpr used)]

theorem lrDedupExpiry_occurs (s : State) (l : Nat) (xid : BitVec 16) (a : BitVec 56) :
    OccursIn opticsSteps s (.lrDedupExpiry l xid a) :=
  occursIn_of_map rfl fun p found expired => by
    show execLrDedupExpiry l xid a s = _
    simp only [execLrDedupExpiry, found, Nat.not_lt.mpr expired, if_false]

/-- The resends of a link's late frames are counted (R432). -/
def lateCounted (s : State) (l : Nat) : State := s.modLr l fun y => { y with
  retries := y.retries + (lateFrames s l).length
  unacked := y.unacked.map fun w => if (lateFrames s l).contains w then { w with resends := w.resends + 1 } else w }

/-- The late frames of a link have been resent (R319). -/
def resentLate (s : State) (l : Nat) : State :=
  { lateCounted s l with
    outq := ((lateFrames s l).map fun (w : LrWait) => (lateCounted s l).resent w.o) ++ (lateCounted s l).outq }.pokeFrames

/-- A record of resent frames is posted when it is due (R432). -/
def resendRecord (t : State) (l f n : Nat) (due : Bool) : State :=
  if due then (t.linkRecord 12 0 f 0 n l).modLr l fun y => { y with lastRec0 := some t.nanos } else t

theorem lastRec0_resentLate {s : State} {l : Nat} (some_late : lateFrames s l ≠ []) :
    ((resentLate s l).lrLink l).lastRec0 = (s.lrLink l).lastRec0 := by
  have counted : 0 < (lateFrames s l).length := List.length_pos_iff.mpr some_late
  have stands : (lateCounted s l).lrLink l = _ := lrLink_modLr_same fun unused => by
    have none_sent : (s.lrLink l).retries + (lateFrames s l).length = 0 := congrArg LrLink.retries unused
    omega
  have same := congrArg LrLink.lastRec0 stands
  rw [resentLate, lrLink_pokeFrames]
  exact (congrArg LrLink.lastRec0 (lrLink_congr (t := lateCounted s l) rfl l)).trans same

/-- The time since the last record of a link is over. -/
theorem due_iff (o : Option Nat) (gap now : Nat) :
    (o.all fun r => decide (r + gap ≤ now)) = !(o.any fun r => decide (now < r + gap)) := by
  cases o with
  | none => rfl
  | some r => simp [← decide_not]

theorem any_late_iff {l : List LrWait} : (l.any fun w => decide (4 ≤ w.resends)) = true ↔ ∃ w ∈ l, 4 ≤ w.resends := by
  simp only [List.any_eq_true, decide_eq_true_eq]

theorem execLrRetryTimeout_of_late {s : State} {l f : Nat} (found : s.linkFibre l = some f)
    (trained : (s.lrLink l).state = .trained) (some_late : lateFrames s l ≠ []) :
    execLrRetryTimeout l s = .next (if ∃ w ∈ lateFrames s l, 4 ≤ w.resends then s.loseLink l
      else (resendRecord (resentLate s l) l f (lateFrames s l).length
        ((s.lrLink l).lastRec0.all fun r => decide (r + 1000000 ≤ (resentLate s l).nanos))).later (.lrRetryTimeout l)) := by
  have waiting : (s.lrLink l).unacked ≠ [] := fun none => some_late (by simp [lateFrames, none])
  have goes : ¬ ((s.lrLink l).state ≠ .trained ∨ (s.lrLink l).unacked = []) := by simp [trained, waiting]
  unfold execLrRetryTimeout
  rw [found]
  refine congrArg Host.Outcome.next ((if_neg goes).trans ((if_neg some_late).trans ?_))
  by_cases lost : ∃ w ∈ lateFrames s l, 4 ≤ w.resends
  · rw [if_pos lost]
    exact if_pos (any_late_iff.mpr lost)
  · rw [if_neg lost]
    refine (if_neg fun any => lost (any_late_iff.mp any)).trans ?_
    cases (s.lrLink l).lastRec0 with
    | none => rfl
    | some r =>
      rw [Option.all_some]
      rfl

theorem lrRetryTimeout_row (s : State) (l : Nat) : opticsSteps s (.lrRetryTimeout l) = (s.linkFibre l).map fun f =>
    ((s.lrLink l).state = .trained ∧ lateFrames s l ≠ [],
      if ∃ w ∈ lateFrames s l, 4 ≤ w.resends then s.loseLink l
      else (if (((resentLate s l).lrLink l).lastRec0.any fun r => decide ((resentLate s l).nanos < r + 1000000)) = true then
          resentLate s l
        else resendRecord (resentLate s l) l f (lateFrames s l).length true).later (.lrRetryTimeout l)) := rfl

theorem lrRetryTimeout_occurs (s : State) (l : Nat) : OccursIn opticsSteps s (.lrRetryTimeout l) :=
  occursIn_of_map (lrRetryTimeout_row s l) fun f found ⟨trained, some_late⟩ => by
    refine (execLrRetryTimeout_of_late found trained some_late).trans ?_
    rw [due_iff, ← lastRec0_resentLate some_late]
    cases ((resentLate s l).lrLink l).lastRec0.any fun r => decide ((resentLate s l).nanos < r + 1000000) with
    | false => rfl
    | true => rfl

/-- Settles O24: a lemma for each row; the other instructions are in no row. -/
theorem opticsSteps : Obligations.OpticsSteps := by
  intro i s
  cases i with
  | rotorSlotBoundary plane => exact rotorSlotBoundary_occurs s plane
  | guardBeacon plane cycle slot domain => exact guardBeacon_occurs s plane cycle slot domain
  | rotorPlaneFailure plane offset => exact rotorPlaneFailure_occurs s plane offset
  | rotorPlaneRestore plane offset => exact rotorPlaneRestore_occurs s plane offset
  | wavelengthWindowEnd fb wl n => exact wavelengthWindowEnd_occurs s fb wl n
  | uncorrectableCodeword fb g => exact uncorrectableCodeword_occurs s fb g
  | lossOfLock fb wl => exact lossOfLock_occurs s fb wl
  | erasureDeclare fb wl => exact erasureDeclare_occurs s fb wl
  | linkEscalation fb g => exact linkEscalation_occurs s fb g
  | retrainSlot fb g lit => exact retrainSlot_occurs s fb g lit
  | forcedRetrain fb g => exact forcedRetrain_occurs s fb g
  | forcedRetrainEnd fb g ok => exact forcedRetrainEnd_occurs s fb g ok
  | laserAgeingThreshold fb wl rise => exact laserAgeingThreshold_occurs s fb wl rise
  | theodoliteWatchdogReset e => exact theodoliteWatchdogReset_occurs s e
  | theodoliteRecovered e => exact theodoliteRecovered_occurs s e
  | lrRetryTimeout l => exact lrRetryTimeout_occurs s l
  | lrAckTimeout l => exact lrAckTimeout_occurs s l
  | lrTrainingAttempt l ok => exact lrTrainingAttempt_occurs s l ok
  | lrLinkTrained l key rtt => exact lrLinkTrained_occurs s l key rtt
  | lrLossDiscard l => exact lrLossDiscard_occurs s l
  | lrRekey l out => exact lrRekey_occurs s l out
  | lrDedupExpiry l xid a => exact lrDedupExpiry_occurs s l xid a
  | _ => exact OccursIn.of_none rfl

end Sys2Proof.Proofs.Optics
end

section
/-!
PROOFS. Frames and the link layer (`Obligations.FabricSteps`): what is not changed where a frame is accepted, where the model
and `Claims` write a step in different ways, then one lemma for each row of `Claims.fabricSteps`.
-/

namespace Sys2Proof.Proofs.Frames

open Sys2Proof Sys2Proof.Machine Sys2Proof.Claims Sys2Proof.Proofs.OrrerySteps
open Sys2Proof.Proofs.Invar (occursIn_of_row)
open Sys2Proof.Proofs.Optics (occursIn_of_map due_iff)

/-! What accepting a frame leaves alone. -/

/-- The host port and the module commands. -/
def ported (s : State) : HostPort × Tab ModCmd := (s.host, s.modCmds)

section

variable (s : State)

theorem ported_laterOnce (e : Event) : ported (s.laterOnce e) = ported s := by
  unfold State.laterOnce
  split <;> rfl

theorem ported_hear (fb : Nat) : ported (s.hear fb) = ported s := by
  unfold State.hear
  split <;> rfl

theorem ported_lrReceived (fb : Nat) : ported (s.lrReceived fb) = ported s := by
  unfold State.lrReceived
  split
  · rfl
  · dsimp only
    split
    · exact ported_laterOnce _ _
    · rfl

theorem ported_noteRelay (o : OutFrame) : ported (s.noteRelay o) = ported s := by
  unfold State.noteRelay
  split
  · rfl
  · exact ported_laterOnce _ _

theorem ported_noteRelays (l : List OutFrame) : ported (l.foldl State.noteRelay s) = ported s := by
  induction l generalizing s with
  | nil => rfl
  | cons o l ih => exact (ih _).trans (ported_noteRelay s o)

theorem ported_ackLink (fb : Nat) (ack : BitVec 16) : ported (s.ackLink fb ack) = ported s := by
  unfold State.ackLink
  dsimp only
  split
  · rfl
  · split
    · exact ported_noteRelays _ _
    · rfl
    · rfl

theorem ported_accepted (fb : Nat) (f : Frame) : ported (accepted s fb f) = ported s :=
  (ported_ackLink _ _ _).trans ((ported_lrReceived _ _).trans (ported_hear s fb))

theorem host_accepted (fb : Nat) (f : Frame) : (accepted s fb f).host = s.host := congrArg Prod.fst (ported_accepted s fb f)

theorem modCmds_accepted (fb : Nat) (f : Frame) : (accepted s fb f).modCmds = s.modCmds :=
  congrArg Prod.snd (ported_accepted s fb f)

/-- The role of a fibre is in the host port. -/
theorem fibreRole_congr {s t : State} (same : t.host = s.host) (g : Nat) : t.fibreRole g = s.fibreRole g :=
  congrArg (fun h : HostPort => h.role.toNat / 4 ^ (g / 8) % 4) same

theorem fibreRole_accepted (fb g : Nat) (f : Frame) : (accepted s fb f).fibreRole g = s.fibreRole g :=
  fibreRole_congr (host_accepted s fb f) g

theorem fibreRole_hear (fb g : Nat) : (s.hear fb).tick.fibreRole g = s.fibreRole g :=
  fibreRole_congr (congrArg Prod.fst (ported_hear s fb)) g

end

/-! Receiving. -/

section

variable {s : State} {fb : Nat} {f : Frame} {ty : BitVec 4}

/-- A frame that arrives in sequence is accepted. -/
theorem receive_of_inSequence (arrives : inSequence s fb f ty) (act : State → State) :
    s.receive fb f ty act = (act (accepted s fb f)).pokeFrames := by
  obtain ⟨carries, type, next, here⟩ := arrives
  have relays : ¬ (s.fibreRole fb = 1 ∧ f.dst ≠ s.host.pkgnum ∧ f.hop ≠ 2 ∧ (!s.relayRoom f.hop) = true) :=
    fun ⟨rotor, elsewhere, _⟩ => elsewhere (here rotor)
  have stays : ¬ ((accepted s fb f).fibreRole fb = 1 ∧ f.dst ≠ (accepted s fb f).host.pkgnum) := by
    rw [fibreRole_accepted, host_accepted]
    exact fun ⟨rotor, elsewhere⟩ => elsewhere (here rotor)
  unfold State.receive
  rw [if_neg (by simp [carries]), if_neg relays, if_neg (not_not_intro type)]
  dsimp only
  rw [if_pos next]
  exact congrArg State.pokeFrames (if_neg stays)

theorem receiveIdle_of_type (carries : s.carriesIn fb = true) (type : f.type = 7) (act : State → State) :
    s.receiveIdle fb f act = act (((s.hear fb).lrReceived fb).ackLink fb f.ack) := by
  unfold State.receiveIdle
  rw [if_neg (by simp [carries]), if_neg (not_not_intro type)]

/-- A row of a frame that arrives in sequence: its event does the row's effect where the frame is accepted. -/
theorem exec_of_receive {i : Instr} {act : State → State} (run : exec i s = .next (s.receive fb f ty act))
    (arrives : inSequence s fb f ty) : exec i s = .next (act (accepted s fb f)).pokeFrames := by
  rw [run, receive_of_inSequence arrives]

end

theorem frameWrite_occurs (s : State) (fb : Nat) (f : Frame) : OccursIn fabricSteps s (.frameWrite fb f) :=
  occursIn_of_row rfl fun ⟨arrives, near⟩ => by
    refine (exec_of_receive rfl arrives).trans ?_
    rw [if_pos ((fibreRole_accepted s fb fb f).trans_ne near)]

theorem frameReadRequest_occurs (s : State) (fb : Nat) (f : Frame) : OccursIn fabricSteps s (.frameReadRequest fb f) :=
  occursIn_of_row rfl fun arrives => by
    refine (exec_of_receive rfl arrives).trans ?_
    simp only [Bool.not_eq_true', ite_not, ne_eq]
    rfl

theorem frameReadResponse_occurs (s : State) (fb : Nat) (f : Frame) : OccursIn fabricSteps s (.frameReadResponse fb f) := by
  intro P t row arrives
  obtain ⟨x, found, row⟩ := Option.bind_eq_some_iff.mp row
  obtain ⟨u, answered, row⟩ := Option.map_eq_some_iff.mp row
  cases row
  refine (exec_of_receive rfl arrives).trans ?_
  dsimp only
  rw [found]
  dsimp only
  cases kind : x.kind with
  | read k id lane ty off va =>
    rw [kind] at answered
    cases answered
    rfl
  | chunk id =>
    rw [kind] at answered
    cases answered
    rfl
  | _ =>
    rw [kind] at answered
    cases answered

theorem frameAtomicRequest_occurs (s : State) (fb : Nat) (f : Frame) : OccursIn fabricSteps s (.frameAtomicRequest fb f) :=
  occursIn_of_row rfl fun ⟨arrives, whole, granted, sound⟩ => by
    refine (exec_of_receive rfl arrives).trans ?_
    rw [if_pos whole]
    unfold State.performAtomic
    dsimp only
    rw [show f.daddr.toNat % 2 ^ 32 = frameAddr f from rfl, if_neg (by simp [granted]), if_neg (not_not_intro sound)]

theorem frameAtomicResponse_occurs (s : State) (fb : Nat) (f : Frame) : OccursIn fabricSteps s (.frameAtomicResponse fb f) := by
  intro P t row arrives
  obtain ⟨x, found, row⟩ := Option.bind_eq_some_iff.mp row
  obtain ⟨u, answered, row⟩ := Option.map_eq_some_iff.mp row
  cases row
  refine (exec_of_receive rfl arrives).trans ?_
  dsimp only
  rw [found]
  dsimp only
  cases kind : x.kind with
  | atom k id ty op ls =>
    rw [kind] at answered
    cases answered
    rfl
  | _ =>
    rw [kind] at answered
    cases answered

theorem frameEndToEndAck_occurs (s : State) (fb : Nat) (f : Frame) : OccursIn fabricSteps s (.frameEndToEndAck fb f) :=
  occursIn_of_row rfl fun ⟨arrives, near, single⟩ => by
    refine (exec_of_receive rfl arrives).trans ?_
    rw [if_neg ((fibreRole_accepted s fb fb f).trans_ne near)]
    exact congrArg (fun u : State => Host.Outcome.next u.pokeFrames) (if_neg fun forwarded => single forwarded.1)

theorem frameMulticast_occurs (s : State) (fb : Nat) (f : Frame) : OccursIn fabricSteps s (.frameMulticast fb f) :=
  occursIn_of_row rfl fun arrives =>
    exec_of_receive (act := fun t => t.mcastIn f) rfl arrives

theorem frameModuleCompletion_occurs (s : State) (fb : Nat) (f : Frame) :
    OccursIn fabricSteps s (.frameModuleCompletion fb f) :=
  occursIn_of_map rfl fun c found ⟨arrives, memory, routed⟩ => by
    show execFrameModuleCompletion fb f s = _
    have listed : Tab.find s.modCmds f.xid.toNat = some c := modCmds_accepted s fb f ▸ found
    have routes : ¬ ((Tab.find s.modCmds f.xid.toNat).any fun c => !s.routesFrom fb (cmdPlace c.w1).1) = true := by
      simp [listed, routed]
    unfold execFrameModuleCompletion
    rw [if_neg (not_not_intro memory), if_neg routes, receive_of_inSequence arrives]
    dsimp only
    rw [found]
    dsimp only
    unfold moduleDone
    simp only [ne_eq, ite_not]
    rfl

theorem frameCorrupt_occurs (s : State) (fb : Nat) : OccursIn fabricSteps s (.frameCorrupt fb) :=
  occursIn_of_row rfl fun ⟨carries, near⟩ => by
    show execFrameCorrupt fb s = _
    unfold execFrameCorrupt
    rw [if_neg (by simp [carries])]
    exact congrArg Host.Outcome.next (if_neg fun far => near ((fibreRole_hear s fb fb).symm.trans far.1))

/-! Replays (R315, R419, R420, R436). -/

theorem countReplay_eq_sentAgain (s : State) (fb n : Nat) : s.countReplay fb n = sentAgain s fb n := rfl

theorem resendFrames_eq_replayed (s : State) (fb : Nat) : s.resendFrames fb = replayed s fb := rfl

/-- A record may be posted on a fibre: the time since the last one is over, or there was none. -/
def recordDue (last : Option Nat) (gap now : Nat) : Bool := match last with
  | some u => decide (u + gap ≤ now)
  | none => true

theorem recordDue_eq (last : Option Nat) (gap now : Nat) :
    recordDue last gap now = !(last.any fun u => decide (now < u + gap)) := by
  rw [← due_iff]
  cases last with
  | none => rfl
  | some u => rfl

/-- A record that is not due leaves the state; the two ways in which this is written agree. -/
theorem unless_due_eq {α : Type} (last : Option Nat) (gap now : Nat) (quiet told : α) :
    (if (!recordDue last gap now) = true then quiet else told) =
      if (last.any fun u => decide (now < u + gap)) = true then quiet else told := by
  rw [recordDue_eq, Bool.not_not]

theorem replayReport_eq_replayTold (s : State) (fb n : Nat) : s.replayReport fb n = replayTold s fb n :=
  unless_due_eq _ _ _ _ _

theorem idleIn_eq_idled (s : State) (fb : Nat) (f : Frame) :
    (((s.hear fb).lrReceived fb).ackLink fb f.ack).idleIn fb f = idled s fb f := by
  unfold State.idleIn idled
  simp only [resendFrames_eq_replayed, replayReport_eq_replayTold]

theorem frameIdle_occurs (s : State) (fb : Nat) (f : Frame) : OccursIn fabricSteps s (.frameIdle fb f) :=
  occursIn_of_row rfl fun ⟨carries, type⟩ =>
    congrArg Host.Outcome.next ((receiveIdle_of_type carries type _).trans (idleIn_eq_idled s fb f))

theorem replayRequest_occurs (s : State) (fb : Nat) (f : Frame) : OccursIn fabricSteps s (.replayRequest fb f) :=
  occursIn_of_row rfl fun ⟨carries, type⟩ =>
    congrArg Host.Outcome.next ((receiveIdle_of_type carries type _).trans (idleIn_eq_idled s fb f))

theorem replayTimeout_occurs (s : State) (fb : Nat) : OccursIn fabricSteps s (.replayTimeout fb) :=
  occursIn_of_row rfl fun ⟨waits, late, room⟩ => by
    show execReplayTimeout fb s = _
    unfold execReplayTimeout
    rw [if_neg waits]
    exact congrArg Host.Outcome.next (if_neg (not_or.mpr ⟨Nat.not_lt.mpr late, room⟩))

/-! Relays and multicasts (R311, R428, R429). -/

theorem silentSince_iff {s : State} {peer since : Nat} : s.silentSince peer since = true ↔ silent s peer since :=
  decide_eq_true_iff

theorem relayForward_occurs (s : State) (id : Nat) : OccursIn fabricSteps s (.relayForward id) :=
  occursIn_of_map rfl fun r found sound => by
    show execRelayForward id s = _
    unfold execRelayForward
    rw [found]
    refine congrArg Host.Outcome.next ((if_neg (by simp [show r.bad = false from sound])).trans ?_)
    dsimp only
    split
    · next none_ready => rw [none_ready]
    · next ready => rw [ready]

theorem relayLossTimeout_occurs (s : State) (peer : Nat) : OccursIn fabricSteps s (.relayLossTimeout peer) :=
  occursIn_of_row rfl fun _ => by
    rfl

theorem multicastMemberTimeout_occurs (s : State) (xid child : Nat) :
    OccursIn fabricSteps s (.multicastMemberTimeout xid child) := by
  intro P t row ok
  show execMulticastMemberTimeout xid child s = _
  unfold execMulticastMemberTimeout
  simp only [fabricSteps, silentMember] at row
  split at row
  · next own =>
    obtain ⟨x, found, row⟩ := Option.bind_eq_some_iff.mp row
    rw [if_pos own, found]
    cases kind : x.kind with
    | mcast k status g crew slot =>
      rw [kind] at row
      cases row
      obtain ⟨listed, quiet⟩ := ok
      simp only [listed, silentSince_iff.mpr quiet, kind, Bool.not_true, Bool.false_eq_true, if_false]
    | _ =>
      rw [kind] at row
      cases row
  · next forwarded =>
    obtain ⟨w, found, row⟩ := Option.map_eq_some_iff.mp row
    cases row
    obtain ⟨listed, quiet⟩ := ok
    simp only [if_neg forwarded, found, listed, silentSince_iff.mpr quiet, Bool.not_true, Bool.false_eq_true, if_false]

/-! Sending (R305, R310, R315, R436). -/

/-- The state in which a fibre chooses what it sends: on a rotor fibre the routes of the waiting frames are settled (R310). -/
def routed (s : State) (fb : Nat) : State :=
  if s.fibreRole fb = 1 then { s.tick with outq := s.outq.map s.tick.fixRoute } else s.tick

/-- The waiting frame that may leave, unless it needs a credit that the next package has not given. -/
def nextData (s : State) (fb : Nat) : Option (OutFrame × List Nat × List OutFrame) :=
  if (s.fibreRole fb != 1 || s.tick.free64.getLsbD 0) = true then (routed s fb).takeFrame fb [] (routed s fb).outq else none

/-- The control frame that leaves ahead of the waiting frames. -/
def controlFirst (s : State) (fb : Nat) : Option Frame :=
  ((routed s fb).link fb).nextControl ((nextData s fb).any fun q => q.1.again)

theorem credit_iff {p : Nat} {b : Bool} : (p != 1 || b) = true ↔ p ≠ 1 ∨ b = true := by simp

theorem execFrameSend_eq (s : State) (fb : Nat) : execFrameSend fb s = .next (sendOn fb
    (match (if decide (0 < s.tick.sendRoom fb) = true then controlFirst s fb else none), nextData s fb with
    | some f, _ => ((routed s fb).modLink fb fun y => { y with control := y.control.tail }).sendIdle fb f.ack
    | none, some (o, h, rest) => { routed s fb with outq := rest }.emit fb o h
    | none, none => if decide (0 < s.tick.sendRoom fb) && ((routed s fb).link fb).owesAck then
        (routed s fb).sendIdle fb (((routed s fb).link fb).expSeq - 1) else routed s fb)) := rfl

theorem frameLeaves_eq (s : State) (fb : Nat) : frameLeaves s fb = match controlFirst s fb, nextData s fb with
    | some f, _ => some (0 < s.tick.sendRoom fb, sendOn fb
        (((routed s fb).modLink fb fun y => { y with control := y.control.tail }).sendIdle fb f.ack))
    | none, some p => some (True, sendOn fb ({ routed s fb with outq := p.2.2 }.emit fb p.1 p.2.1))
    | none, none => some (0 < s.tick.sendRoom fb ∧ ((routed s fb).link fb).acked ≠ ((routed s fb).link fb).expSeq - 1,
        sendOn fb ((routed s fb).sendIdle fb (((routed s fb).link fb).expSeq - 1))) := by
  unfold controlFirst nextData
  simp only [credit_iff]
  rfl

theorem frameSend_occurs (s : State) (fb : Nat) : OccursIn fabricSteps s (.frameSend fb) := by
  intro P t row ok
  replace row : frameLeaves s fb = some (P, t) := row
  rw [frameLeaves_eq] at row
  refine (execFrameSend_eq s fb).trans ?_
  cases control : controlFirst s fb with
  | some f =>
    rw [control] at row
    cases row
    rw [if_pos (decide_eq_true ok)]
  | none =>
    rw [control] at row
    rw [ite_self]
    cases data : nextData s fb with
    | some p =>
      rw [data] at row
      cases row
      rfl
    | none =>
      rw [data] at row
      cases row
      obtain ⟨room, owed⟩ := ok
      have owes : ((routed s fb).link fb).owesAck = true := by simpa [Link.owesAck] using owed
      simp only [room, owes, decide_true, Bool.and_true, if_true]

/-- Settles O23: a lemma for each row; the other instructions are in no row. -/
theorem fabricSteps : Obligations.FabricSteps := by
  intro i s
  cases i with
  | frameSend fb => exact frameSend_occurs s fb
  | frameWrite fb f => exact frameWrite_occurs s fb f
  | frameReadRequest fb f => exact frameReadRequest_occurs s fb f
  | frameReadResponse fb f => exact frameReadResponse_occurs s fb f
  | frameAtomicRequest fb f => exact frameAtomicRequest_occurs s fb f
  | frameAtomicResponse fb f => exact frameAtomicResponse_occurs s fb f
  | frameEndToEndAck fb f => exact frameEndToEndAck_occurs s fb f
  | frameMulticast fb f => exact frameMulticast_occurs s fb f
  | frameIdle fb f => exact frameIdle_occurs s fb f
  | replayRequest fb f => exact replayRequest_occurs s fb f
  | frameModuleCompletion fb f => exact frameModuleCompletion_occurs s fb f
  | frameCorrupt fb => exact frameCorrupt_occurs s fb
  | replayTimeout fb => exact replayTimeout_occurs s fb
  | relayForward id => exact relayForward_occurs s id
  | relayLossTimeout peer => exact relayLossTimeout_occurs s peer
  | multicastMemberTimeout xid child => exact multicastMemberTimeout_occurs s xid child
  | _ => exact OccursIn.of_none rfl

end Sys2Proof.Proofs.Frames
end

section
/-!
PROOFS. Fabric instructions (`Obligations.FabricResults`): lanes that all name a place, the words that the model and `Claims`
cut from a scalar in different ways, then one lemma for each entry of `Claims.fabricForm`.
-/

namespace Sys2Proof.Proofs.Fabric

open Sys2Proof Sys2Proof.Machine Sys2Proof.Claims Sys2Proof.Proofs.Completion Sys2Proof.Proofs.EntryTraps
open Sys2Proof.Proofs.Matrix (waitRemote_of_clear)
open Sys2Proof.Proofs.Migration (refusedLanes_eq_zero mask32_eq_zero)
open Sys2Proof.Proofs.System (field_toNat low_toNat)

/-! Lanes. -/

theorem mem_lanesOf {m : Word32} {L : Nat} : L ∈ lanesOf m ↔ L < 32 ∧ m.getLsbD L = true := by
  simp [lanesOf, lanes]

/-- No lane is refused when each names a place. -/
theorem laneFault_eq_none {x : Ex} {f : Nat → Except Refused Access} (placed : lanesOk x f) : laneFault x f = none :=
  if_pos (refusedLanes_eq_zero placed)

/-- The mask of the lanes of Exec that a check catches, when it catches none. -/
theorem caught_eq_zero {x : Ex} {p : Nat → Bool} (clean : ∀ L, L < 32 → x.exec.getLsbD L = true → p L = false) :
    (mask32 fun L => x.exec.getLsbD L && p L) = 0 :=
  mask32_eq_zero fun L low => by
    cases inExec : x.exec.getLsbD L with
    | false => rfl
    | true => exact clean L low inExec

theorem any_lanesOf_congr {m : Word32} {p q : Nat → Bool} (same : ∀ L, L < 32 → m.getLsbD L = true → p L = q L) :
    (lanesOf m).any p = (lanesOf m).any q := by
  refine Bool.eq_iff_iff.mpr ?_
  simp only [List.any_eq_true]
  refine exists_congr fun L => and_congr_right fun listed => ?_
  obtain ⟨low, inMask⟩ := mem_lanesOf.mp listed
  rw [same L low inMask]

/-! Words. -/

theorem high_toNat (v : Word64) : (v.extractLsb' 32 32).toNat = v.toNat / 2 ^ 32 := by
  rw [field_toNat, Nat.mod_eq_of_lt]
  have := v.isLt
  omega

/-! XSEND and XSENDF (R323, R324). -/

/-- Where the model reads the bytes that a lane sends: not in module space (R88). -/
def sendSource (q : SendArgs) (x : Ex) (t : State) (L : Nat) : Except Refused Access := match sendFrom q x t L with
  | .ok b => (match b.space with
    | .mod _ _ => .error ⟨0x07, BitVec.ofNat 56 b.ia⟩
    | _ => Except.ok b)
  | .error r => .error r

theorem sendSource_of_ok {q : SendArgs} {x : Ex} {t : State} {L : Nat} {o : Access} (place : sendFrom q x t L = .ok o)
    (near : ∀ m n, o.space ≠ .mod m n) : sendSource q x t L = .ok o := by
  rw [sendSource, place]
  dsimp only
  split
  · next space => exact absurd space (near _ _)
  · rfl

section
variable (d : Option SReg) (b c : SReg) (x : Ex) (t : State)

theorem sendArgs_n : (sendArgs d b c x t).n = (t.readS x.k c.val).toNat % 2 ^ 32 := by
  simp only [sendArgs, low_toNat]

theorem sendArgs_stride : (sendArgs d b c x t).stride = (t.readS x.k c.val).toNat / 2 ^ 32 := by
  simp only [sendArgs, high_toNat]

end

section
variable {q : SendArgs} {x : Ex} {t : State} (sources : ∀ L, L < 32 → x.exec.getLsbD L = true →
  ∃ o, sendFrom q x t L = .ok o ∧ (∀ m n, o.space ≠ .mod m n) ∧ t.strictStale o q.n = false)
include sources

theorem sendSource_eq {L : Nat} (low : L < 32) (inExec : x.exec.getLsbD L = true) : sendSource q x t L = sendFrom q x t L := by
  obtain ⟨o, place, near, -⟩ := sources L low inExec
  rw [sendSource_of_ok place near, place]

theorem sendSource_found : lanesOk x (sendSource q x t) := fun L low inExec => by
  obtain ⟨o, place, -, -⟩ := sources L low inExec
  exact ⟨o, (sendSource_eq sources low inExec).trans place⟩

theorem sendSource_fresh :
    (mask32 fun L => x.exec.getLsbD L && t.strictStale (gotAccess (sendSource q x t L)) q.n) = 0 :=
  caught_eq_zero fun L low inExec => by
    obtain ⟨o, place, -, fresh⟩ := sources L low inExec
    rw [sendSource_eq sources low inExec, place]
    exact fresh

theorem sendStrong_eq (a : VReg) : ((lanesOf x.exec).any fun L => t.effMt (gotAccess (sendTo a q x t L)) == 3 ||
    t.effMt (gotAccess (sendSource q x t L)) == 3) = sendStrong a q x t :=
  any_lanesOf_congr fun L low inExec => by rw [sendSource_eq sources low inExec]

end

theorem badAt_lanes_eq_nil {q : SendArgs} {x : Ex} {t : State}
    (sound : ∀ L, L < 32 → x.exec.getLsbD L = true → t.badAt (t.ctxOf x.k) (q.va L) q.n = []) :
    ((lanesOf x.exec).map fun L => t.badAt (t.ctxOf x.k) (q.va L) q.n).flatten = [] := by
  simp only [List.flatten_eq_nil_iff, List.mem_map]
  rintro l ⟨L, listed, rfl⟩
  obtain ⟨low, inExec⟩ := mem_lanesOf.mp listed
  exact sound L low inExec

/-- Where the model sends the flag or the barrier slot of a lane. -/
theorem markTo_eq (a : VReg) (d : Option SReg) (flagged : Bool) (q : SendArgs) (x : Ex) (t : State) :
    (fun L => match d with
      | some _ => t.selTarget x (t.laneV x.k a.val L) (q.slot.setWidth 32) (if flagged then 4 else 32) .wr true
      | none => sendTo a q x t L) = markTo a d flagged q x t := by
  funext L
  cases d with
  | none => simp [markTo]
  | some r => simp [markTo, low32_eq_setWidth]

/-- A check of lanes that catches none lets the instruction go on. -/
theorem past_laneFault {x : Ex} {f : Nat → Except Refused Access} (placed : lanesOk x f)
    (go : Except TrapInfo (Flow × State)) :
    (match laneFault x f with
      | some e => .error e
      | none => go) = go := by
  rw [laneFault_eq_none placed]

theorem send_completes {s : State} {i : Instr} {h : Hdr} {ord : Order} {d : Option SReg} {a : VReg} {b c : SReg}
    {flagged : Bool} (row : fabricForm s i = sendForm h ord d a b c flagged)
    (run : exec i s = .next (xsend i h ord d a b c flagged s)) : CompletesIn fabricForm i s := by
  unfold xsend at run
  refine .of_effect row run fun _ x t _ ok => ?_
  obtain ⟨atLeast, atMost, whole, spaced, flag, straight, placed, marked, sources, sound, free⟩ := ok
  simp only [← sendArgs_n d b c x t, ← sendArgs_stride d b c x t]
  have volumes : ¬ (flagged && (lanesOf x.exec).any fun L => decide (2 ^ 23 <
      volumeOf (fun M => (t.laneV x.k a.val M).toNat) (fun M => (t.laneV x.k (a.val + 1) M).toNat) (sendArgs d b c x t).n
        (lanesOf x.exec) L)) = true := by
    simp only [Bool.and_eq_true, List.any_eq_true, decide_eq_true_eq]
    rintro ⟨flags, L, listed, excess⟩
    exact Nat.not_lt.mpr ((flag flags).2 L listed) excess
  have aligned : ¬ (flagged && (sendArgs d b c x t).slot.toNat % 4 != 0) = true := by
    simp only [Bool.and_eq_true, bne_iff_ne]
    exact fun ⟨flags, off⟩ => off (flag flags).1
  rw [← markTo_eq] at marked
  refine (if_neg (by omega)).trans <| (if_neg volumes).trans <| (if_neg (by simp [whole, spaced])).trans <|
    (if_neg aligned).trans <|
    (if_neg (not_not_intro (caught_eq_zero fun L low inExec => by simp [straight L low inExec]))).trans <|
    (past_laneFault placed _).trans <| (past_laneFault marked _).trans <| (past_laneFault (sendSource_found sources) _).trans <|
    (if_neg (not_not_intro (sendSource_fresh sources))).trans <| (if_neg (not_not_intro (badAt_lanes_eq_nil sound))).trans <|
    (congrArg (fun b => waitRemote (b || Order.acquires ord) x t _) (sendStrong_eq sources a)).trans <|
    (waitRemote_of_clear free _).trans ?_
  simp only [low_toNat]
  rfl

section
variable (s : State) (h : Hdr) (ord : Order) (scp : Scope) (d : SReg) (a : VReg) (b c : SReg)

theorem xsend_completes : CompletesIn fabricForm (.xsend h ord scp d a b c) s :=
  send_completes (d := some d) (flagged := false) rfl rfl

theorem xsendNobar_completes : CompletesIn fabricForm (.xsendNobar h ord scp a b c) s :=
  send_completes (d := none) (flagged := false) rfl rfl

theorem xsendf_completes : CompletesIn fabricForm (.xsendf h ord scp d a b c) s :=
  send_completes (d := some d) (flagged := true) rfl rfl

end

/-! XGET and XATOM (R325, R326). -/

theorem getD_map_lanes {α : Type} (f : Nat → α) (L : Nat) (e : α) : (lanes.map f).getD L e = if L < 32 then f L else e := by
  by_cases low : L < 32 <;> simp [lanes, List.getD_eq_getElem?_getD, low]

/-- The lanes of XGET and XATOM, each at an aligned place. -/
theorem selLanes_of_placed {ty : Ty} {a b : VSrc} {kind : AKind} {far : Bool} {x : Ex} {t : State}
    (placed : lanesOk x (peerLane ty a b kind far x t))
    (aligned : ∀ L, L < 32 → x.exec.getLsbD L = true → (t.vsrc32 x.k L b).toNat % tyBytes ty = 0) :
    selLanes x t ty a b kind far = .ok (peerAt ty a b kind far x t) := by
  have found : lanesOk x fun L => if L < 32 then peerLane ty a b kind far x t L else .error ⟨0, 0⟩ := fun L low inExec => by
    obtain ⟨at_, place⟩ := placed L low inExec
    exact ⟨at_, (if_pos low).trans place⟩
  have straight : (mask32 fun L => x.exec.getLsbD L && (t.vsrc32 x.k L b).toNat % tyBytes ty != 0) = 0 :=
    caught_eq_zero fun L low inExec => by simp [aligned L low inExec]
  unfold selLanes
  simp only [getD_map_lanes, straight, ne_eq, not_true, if_false]
  rw [show (laneFault x fun L => if L < 32 then t.selTarget x (t.vsrc32 x.k L a) (t.vsrc32 x.k L b) (tyBytes ty) kind far
    else .error ⟨0, 0⟩) = none from laneFault_eq_none found]
  rfl

section
variable (s : State) (h : Hdr) (ty : Ty) (ord : Order) (scp : Scope) (d : VReg) (a b : VSrc)

theorem xget_completes : CompletesIn fabricForm (.xget h ty ord scp d a b) s :=
  .of_effect rfl rfl fun _ x t _ ⟨placed, aligned, free⟩ => by
    simp only [selLanes_of_placed placed aligned]
    exact waitRemote_of_clear free _

theorem xatom_completes (op : AtomOp) (c : VSrc) : CompletesIn fabricForm (.xatom h ty op ord scp d a b c) s :=
  .of_effect rfl rfl fun _ x t _ ⟨placed, aligned, free⟩ => by
    simp only [selLanes_of_placed placed aligned]
    exact waitRemote_of_clear free _

end

/-! What publishing leaves alone (R112). -/

section
variable (m : Bool) (x : Ex) (t : State)

/-- What does not depend on the crews is as it was before writes were published. -/
theorem congr_pub {α : Type} (g : State → α) (blind : ∀ cs, g { t with crews := cs } = g t) : g (pub m x t) = g t := by
  obtain ⟨cs, eq⟩ := pub_eq m x t
  rw [eq, blind]

/-- The places of a crew's region and slots. -/
def regionOf (c : Crew) : Nat × Nat × Nat := (c.base, c.size, c.bar)

/-- Granules of slots, of crews in the same places. -/
theorem inSlot_congr {c d : Crew} (same : regionOf c = regionOf d) (a : Nat) :
    (decide (c.slotAddr c.bar + 32 ≤ a) && decide (a < c.slotAddr 0 + 32)) =
      (decide (d.slotAddr d.bar + 32 ≤ a) && decide (a < d.slotAddr 0 + 32)) := by
  obtain ⟨base, size, bar⟩ : c.base = d.base ∧ c.size = d.size ∧ c.bar = d.bar := by simpa [regionOf] using same
  have slots : ∀ n, c.slotAddr n = d.slotAddr n := fun n => by simp only [Crew.slotAddr, base, size]
  rw [slots, slots, bar]

/-- A crew of the same places, whose old words an update may change. -/
def reworded (q : Crew → Bool) (f : Crew → OldWord → OldWord) (c : Crew) : Crew :=
  if q c then { c with old := c.old.map (f c) } else c

theorem regionOf_reworded (q : Crew → Bool) (f : Crew → OldWord → OldWord) (c : Crew) :
    regionOf (reworded q f c) = regionOf c := by
  unfold reworded
  split <;> rfl

/-- A region holds an address. -/
def holds (a : Nat) (r : Nat × Nat × Nat) : Bool := decide (r.1 ≤ a) && decide (a < r.1 + r.2.1)

theorem crewAt_eq (a : Nat) : t.crewAt a = t.crews.find? fun p => holds a (regionOf p.2) := rfl

theorem mapOld_of_some (q : Crew → Bool) (f : Crew → OldWord → OldWord)
    (some_old : (t.crews.all fun c => c.2.old.isEmpty) = false) :
    t.mapOld q f = { t with crews := t.crews.map fun c => (c.1, reworded q f c.2) } :=
  if_neg (by simp [some_old])

theorem find?_reworded (q : Crew → Bool) (f : Crew → OldWord → OldWord) (l : Tab Crew) (g : Nat × Nat × Nat → Bool) :
    (l.map fun c => (c.1, reworded q f c.2)).find? (fun p => g (regionOf p.2)) =
      (l.find? fun p => g (regionOf p.2)).map fun p => (p.1, reworded q f p.2) := by
  rw [List.find?_map]
  simp only [Function.comp_def, regionOf_reworded]

theorem crewAt_mapOld (q : Crew → Bool) (f : Crew → OldWord → OldWord) (a : Nat)
    (some_old : (t.crews.all fun c => c.2.old.isEmpty) = false) :
    (t.mapOld q f).crewAt a = (t.crewAt a).map fun p => (p.1, reworded q f p.2) := by
  rw [mapOld_of_some t q f some_old, crewAt_eq, crewAt_eq]
  exact find?_reworded q f t.crews (holds a)

/-- The old words of a crew are no part of its region and slots (R118). -/
theorem inSlot_mapOld (q : Crew → Bool) (f : Crew → OldWord → OldWord) (a : Nat) :
    (t.mapOld q f).inSlot a = t.inSlot a := by
  cases some_old : t.crews.all fun c => c.2.old.isEmpty with
  | true => rw [State.mapOld, some_old, if_pos rfl]
  | false =>
    rw [State.inSlot, State.inSlot, crewAt_mapOld t q f a some_old]
    cases t.crewAt a with
    | none => rfl
    | some c =>
      dsimp only [Option.map_some]
      exact inSlot_congr (regionOf_reworded q f c.2) a

theorem inSlot_pub (a : Nat) : (pub m x t).inSlot a = t.inSlot a := by
  cases m with
  | false => rfl
  | true =>
    simp only [pub, if_true, State.publish]
    exact inSlot_mapOld t _ _ a

theorem stale_pub (a : Nat) : (pub m x t).stale a = t.stale a :=
  congr_pub m x t (State.stale · a) fun _ => rfl

theorem strictStale_pub (a : Access) (n : Nat) : (pub m x t).strictStale a n = t.strictStale a n := by
  unfold State.strictStale
  simp only [stale_pub, inSlot_pub]

theorem translate_pub (ctx : Nat) (va : Word64) (n : Nat) (kind : AKind) :
    (pub m x t).translate ctx va n kind = t.translate ctx va n kind :=
  congr_pub m x t (State.translate · ctx va n kind) fun _ => rfl

theorem ctxOf_pub (k : Nat) : (pub m x t).ctxOf k = t.ctxOf k :=
  congr_pub m x t (State.ctxOf · k) fun _ => rfl

theorem staleTrap_pub (lanes : Word32) : (pub m x t).staleTrap lanes = t.staleTrap lanes :=
  congr_pub m x t (State.staleTrap · lanes) fun _ => rfl

/-- An operand in package space is found, or refused, as before writes were published. -/
theorem pkgArg_pub (y : Ex) (va : Word64) (n : Nat) (kind : AKind) : (pub m x t).pkgArg y va n kind = t.pkgArg y va n kind := by
  unfold State.pkgArg
  simp only [ctxOf_pub, translate_pub, strictStale_pub, staleTrap_pub]

theorem badGranules_pub (p n : Nat) : (pub m x t).badGranules p n = t.badGranules p n :=
  congr_pub m x t (State.badGranules · p n) fun _ => rfl

theorem sheaf_pub (k : Nat) : (pub m x t).sheaf k = t.sheaf k :=
  congr_pub m x t (State.sheaf · k) fun _ => rfl

end

/-! XFENCE (R329, R429). -/

theorem sheaves_acquireIf (b : Bool) (k : Nat) (t : State) : (acquireIf b k t).sheaves = t.sheaves := by
  unfold acquireIf State.acquireL1 State.dropCtx State.modCore
  split
  · split
    · rfl
    · split <;> rfl
  · rfl

/-- A change of a sheaf that keeps a field keeps it in every sheaf. -/
theorem sheaf_modSheaf_congr {α : Type} (g : Sheaf → α) {f : Sheaf → Sheaf} (keeps : ∀ y, g (f y) = g y) (t : State)
    (k : Nat) : g ((t.modSheaf k f).sheaf k) = g (t.sheaf k) := by
  unfold State.sheaf State.modSheaf Tab.get
  rw [Tab.find_mod_same]
  cases Tab.find t.sheaves k with
  | none => rfl
  | some y => exact keeps y

/-- The sheaf no longer waits, and the writes of its lanes are published. -/
def fenced (x : Ex) (t : State) : State := pub true x (t.modSheaf x.k fun y => { y with block := none })

theorem refusedAddr_fenced (b : Bool) (x : Ex) (t : State) :
    ((acquireIf b x.k (fenced x t)).sheaf x.k).refusedAddr = (t.sheaf x.k).refusedAddr := by
  rw [State.sheaf, sheaves_acquireIf]
  refine (congrArg Sheaf.refusedAddr (sheaf_pub true x _ x.k)).trans ?_
  exact sheaf_modSheaf_congr (f := fun y => { y with block := none }) Sheaf.refusedAddr (fun _ => rfl) t x.k

theorem xfence_completes (s : State) (h : Hdr) (scp : Scope) : CompletesIn fabricForm (.xfence h scp) s :=
  .of_effect rfl rfl fun _ x t _ ⟨home, written, granted⟩ => by
    have kept := (refusedAddr_fenced ((fenced x t).farScope x.k scp) x t).trans granted
    simp only [acquireIf, fenced, pub, if_true] at kept ⊢
    simp only [home, written, kept, Bool.or_false, Bool.false_eq_true, if_false]

/-! XMCAST (R328). -/

/-- The frames of XMCAST carry their group in PCNT, in the model and in the table. -/
theorem mcastFrames_eq (ctx low : Nat) (g : Byte) (bs : List Byte) :
    (fun (v : State) p xid => v.mcastFrame ctx p low xid g.toNat bs) =
      fun v p xid => { v.peerFrame 6 ctx p low xid bs with pcnt := g.zeroExtend 16 } :=
  congrArg (fun (pcnt : BitVec 16) (v : State) p xid => { v.peerFrame 6 ctx p low xid bs with pcnt := pcnt })
    (BitVec.ofNat_toNat 16 g)

/-- What XMCAST does: a frame goes to each child, and the sheaf waits for the answers. -/
def mcastOut (frame : State → Nat → Nat → Frame) (x : Ex) (kind : XKind) (launch n low : Nat) (ms kids : List Nat)
    (v : State) : State :=
  let o := v.openXfer kind launch kids.length (ms.map fun p => (peerIa p low, n))
  (kids.foldl (fun (u : State) p => u.sendOut ⟨frame u p o.1, .short, [], launch, [], [], false⟩) o.2).modSheaf x.k
    fun y => { y with block := some (.mcast x.b o.1) }

theorem childrenOf_root (ms : List Nat) : childrenOf ms 0 true = ms.take 2 := by
  match ms with
  | [] => rfl
  | [p] => rfl
  | p :: q :: _ => rfl

/-- Members that all name a place refuse nothing. -/
theorem no_refusal {l : List Nat} {f : Nat → Except Refused Access} (placed : ∀ p ∈ l, ∃ q, f p = .ok q)
    {refused : Nat → Option Refused} (kept : ∀ p q, f p = .ok q → refused p = none) : l.findSome? refused = none :=
  List.findSome?_eq_none_iff.mpr fun p member => by
    obtain ⟨q, place⟩ := placed p member
    exact kept p q place

theorem xmcast_completes (s : State) (h : Hdr) (ord : Order) (scp : Scope) (d a b : SReg) (g : Byte) (len : BitVec 3)
    (slot : BSlot) (bv : Bool) : CompletesIn fabricForm (.xmcast h ord scp d a b g len slot bv) s :=
  .of_effect rfl rfl fun _ x t _ ok => by
    obtain ⟨armed, straight, within, aligned, placed, ⟨st, status, near⟩, ⟨bs, read⟩, sound, free⟩ := ok
    have unarmed : ¬ (bv && decide ((t.crew (t.sheaf x.k).crew).bar ≤ slot.val)) = true := by
      simp only [Bool.and_eq_true, decide_eq_true_eq]
      exact fun ⟨bars, beyond⟩ => Nat.not_lt.mpr beyond (armed bars)
    obtain rfl : (t.opRead x (t.readS x.k a.val) (32 * (len.toNat + 1))).toOption.getD [] = bs := by
      rw [read]
      rfl
    have bytes : (len.toNat + 1) * 32 = 32 * (len.toNat + 1) := Nat.mul_comm _ _
    rw [bytes, ← low_toNat]
    refine (if_neg unarmed).trans <| (if_neg (Nat.not_lt.mpr within)).trans <| (if_neg (not_not_intro straight)).trans <|
      (if_neg (not_not_intro aligned)).trans ?_
    split
    · next r refusal =>
      exact nomatch (no_refusal placed fun p q place => by simp only [place]).symm.trans refusal
    · rw [status]
      refine (if_neg ?_).trans ?_
      · split
        · next space => exact absurd space (near _ _)
        · exact Bool.false_ne_true
      · rw [read]
        refine (if_neg (not_not_intro sound)).trans <| (waitRemote_of_clear free _).trans ?_
        rw [sheaf_pub, childrenOf_root]
        by_cases alone : t.members g.toNat t.host.pkgnum.toNat = []
        · simp only [if_pos alone]
        · simp only [if_neg alone]
          generalize pub _ x t = w
          generalize (t.opRead x (t.readS x.k a.val) (32 * (len.toNat + 1))).toOption.getD [] = bs
          generalize ((t.readS x.k b.val).extractLsb' 0 32).toNat = low
          generalize 32 * (len.toNat + 1) = n
          have sent := congrArg (fun frame => Except.ok (ε := TrapInfo) (Flow.stay, mcastOut frame x
            (.mcast x.k (t.readS x.k d.val) g.toNat (t.sheaf x.k).crew (if bv then some slot else none))
            (t.sheaf x.k).launch n low (t.members g.toNat t.host.pkgnum.toNat)
            ((t.members g.toNat t.host.pkgnum.toNat).take 2) w)) (mcastFrames_eq (t.ctxOf x.k) low g bs)
          exact sent

/-! Vectors of f32 values in package SRAM (R330, R331). -/

theorem lowCount_eq (t : State) (x : Ex) (c : SReg) : lowCount t x c = (t.readS x.k c.val).toNat % 2 ^ 32 := low_toNat _ _

theorem vectorOf_of_at {t : State} {x : Ex} {a : SReg} {n p : Nat} {kind : AKind} (at_ : vectorAt t x a n kind p) :
    vectorOf t x a n kind = p := by
  rw [vectorOf, at_.2]
  rfl

/-- A count of values that passes the checks of XRED and XRESID. -/
theorem count_inRange {n : Nat} (ok : countOk n) : ¬ (n < 32 ∨ 65536 < n ∨ n % 32 ≠ 0) := by
  obtain ⟨atLeast, atMost, whole⟩ := ok
  omega

/-! XRED (R330). -/

theorem sums_eq (l m : List Nat) : ((l.zip m).map fun p =>
    fmtF32.decode (fmtF32.round .rne 0 false (FV.add false (fmtF32.decode p.1) (fmtF32.decode p.2)))) =
      List.zipWith addF32 l m := List.map_zip_eq_zipWith

/-- The state in which XRED reads its operands. -/
def redRead (x : Ex) (n pa pb : Nat) (w : State) : State :=
  ((w.freshen x.k pa (4 * n)).freshen x.k pb (4 * n)).learn x.k x.exec pa (4 * n)

/-- What XRED does with the sums of its operands: it writes the residuals and sends the image. -/
def reduced (sum : List Nat → List Nat → List FV) (x : Ex) (ty : Ty) (srnd : Bool) (n low pa pb : Nat) (sp : Space)
    (slot : Option Nat) (w : State) : State :=
  let v := redRead x n pa pb w
  let bl := redBlocks ty srnd n (sum (v.readF32 pa n) (v.readF32 pb n)) (v.sheaf x.k).srnd
  ((v.coreWrite x.k pb (writeF32 (bl.map fun q => q.2.2.1).flatten)).modSheaf x.k fun y => { y with
    qnv := y.qnv || bl.any (fun q => q.2.2.2)
    srnd := if srnd then stepState y.srnd else y.srnd }).sendCover x sp
    (Cover.add [] low none (imageOf ty (bl.map fun q => q.2.1).flatten (bl.map fun q => q.1))) slot none

/-- The barrier slot of XRED, if it has one, is at its destination. -/
theorem slot_found {x : Ex} {t : State} {sel bar : Word32} {tgt : Access}
    (marked : bar ≠ 0 → ∃ q, t.selTarget x sel bar 32 .wr true = .ok q) :
    ∃ q, (if bar.toNat = 0 then .ok tgt else t.selTarget x sel (BitVec.ofNat 32 bar.toNat) 32 .wr true) = Except.ok q := by
  rw [BitVec.ofNat_toNat, BitVec.setWidth_eq]
  by_cases none : bar.toNat = 0
  · exact ⟨tgt, if_pos none⟩
  · obtain ⟨q, place⟩ := marked fun zero => none (congrArg BitVec.toNat zero)
    exact ⟨q, (if_neg none).trans place⟩

theorem xred_completes (s : State) (h : Hdr) (ty : Ty) (srnd : Bool) (ord : Order) (scp : Scope) (d a b c : SReg) :
    CompletesIn fabricForm (.xred h ty srnd ord scp d a b c) s :=
  .of_effect rfl rfl fun _ x t _ ok => by
    obtain ⟨count, straight, ⟨tgt, target⟩, free, marked, pa, pb, pd, atA, atB, atD, soundA, soundB⟩ := ok
    obtain rfl := vectorOf_of_at atA
    obtain rfl := vectorOf_of_at atB
    dsimp only at target
    obtain rfl : gotAccess _ = tgt := congrArg gotAccess target
    obtain ⟨q, slotted⟩ := slot_found marked
    rw [← lowCount_eq t x c, ← high_toNat (t.readS x.k c.val), ← high_toNat (t.readS x.k d.val), ← low32_eq_setWidth]
    refine (if_neg (count_inRange count)).trans <| (if_neg (not_not_intro atA.1)).trans <|
      (if_neg (not_not_intro atB.1)).trans <| (if_neg (not_not_intro straight)).trans ?_
    rw [atA.2, atB.2, atD.2, target]
    dsimp only
    rw [slotted]
    refine (if_neg (not_not_intro ?_)).trans <| (waitRemote_of_clear free _).trans ?_
    · rw [soundA, soundB]
      rfl
    · dsimp only
      generalize pub _ x t = w
      generalize (gotAccess _).space = sp
      generalize ((t.readS x.k c.val).extractLsb' 32 32).toNat = low
      generalize ((t.readS x.k d.val).extractLsb' 32 32).toNat = bar
      have sent := congrArg (fun sum => Except.ok (ε := TrapInfo) (Flow.next, reduced sum x ty srnd (lowCount t x c) low
        (vectorOf t x a (lowCount t x c) .rd) (vectorOf t x b (lowCount t x c) .rd) sp (if bar = 0 then none else some bar) w))
        (funext fun l => funext fun m => sums_eq l m)
      exact sent

/-! XRESID (R331). -/

/-- The word that XRESID gives: how many magnitudes are not zero, and the largest, or a free word where one is NaN. -/
def residWord (random : Word64) (ms : List Nat) : Word64 :=
  BitVec.ofNat 32 (ms.filter (· ≠ 0)).length ++
    (if ∃ m ∈ ms, (fmtF32.decode m).isNan = true then random.setWidth 32 else BitVec.ofNat 32 (ms.foldl max 0))

theorem residWord_eq (random : Word64) (ms : List Nat) : BitVec.ofNat 32 (ms.filter (· != 0)).length ++
    (if (ms.any fun m => (fmtF32.decode m).isNan) = true then random.setWidth 32 else BitVec.ofNat 32 (ms.foldl max 0)) =
      residWord random ms := by
  have nonzero : ms.filter (· != 0) = ms.filter (· ≠ 0) := List.filter_congr fun m _ =>
    Bool.eq_iff_iff.mpr (by simp)
  rw [residWord, nonzero, if_congr List.any_eq_true rfl rfl]

theorem xresidRd_completes (s : State) (h : Hdr) (d a c : SReg) : CompletesIn fabricForm (.xresid h (.rd d a c)) s :=
  .of_effect rfl rfl fun _ x t _ ⟨count, p, at_, sound, free⟩ => by
    simp only [vectorOf_of_at at_]
    obtain ⟨straight, found⟩ := at_
    simp only [lowCount_eq] at count found sound free ⊢
    refine (if_neg (count_inRange count)).trans <| (if_neg (not_not_intro straight)).trans <|
      (if_neg (by simp)).trans ?_
    simp only [found]
    refine (waitRemote_of_clear free _).trans ?_
    refine (if_neg (not_not_intro ((badGranules_pub _ x t _ _).trans sound))).trans ?_
    exact congrArg (fun w => Except.ok (Flow.next, (State.writeS _ x.k d.val w).tick)) (residWord_eq _ _)

theorem xresidClr_completes (s : State) (h : Hdr) (a c : SReg) : CompletesIn fabricForm (.xresid h (.clr a c)) s :=
  .of_effect rfl rfl fun _ x t _ ⟨count, ⟨p, at_⟩, free⟩ => by
    simp only [vectorOf_of_at at_]
    obtain ⟨straight, found⟩ := at_
    simp only [lowCount_eq] at count found free ⊢
    refine (if_neg (count_inRange count)).trans <| (if_neg (not_not_intro straight)).trans <|
      (if_neg (by simp)).trans ?_
    simp only [found]
    exact waitRemote_of_clear free _

theorem xresidSet_completes (s : State) (h : Hdr) (a b c : SReg) : CompletesIn fabricForm (.xresid h (.set a b c)) s :=
  .of_effect rfl rfl fun _ x t _ ⟨count, p, q, at_, from_, sound, free⟩ => by
    simp only [vectorOf_of_at at_, vectorOf_of_at from_]
    obtain ⟨straight, found⟩ := at_
    obtain ⟨even, source⟩ := from_
    simp only [lowCount_eq] at count found source sound free ⊢
    refine (if_neg (count_inRange count)).trans <| (if_neg (not_not_intro straight)).trans <|
      (if_neg (not_not_intro even)).trans ?_
    simp only [found]
    refine (waitRemote_of_clear free _).trans ?_
    simp only [pkgArg_pub, source, badGranules_pub, sound]
    rfl

/-! The group table (R327). -/

theorem xgrpSet_completes (s : State) (h : Hdr) (g : Byte) (a : SReg) : CompletesIn fabricForm (.xgrpSet h g a) s :=
  .of_effect rfl rfl fun _ x t _ ⟨bs, read⟩ => by
    simp only [read]
    rfl

theorem xgrpGet_completes (s : State) (h : Hdr) (g : Byte) (a : SReg) : CompletesIn fabricForm (.xgrpGet h g a) s :=
  .of_effect rfl rfl fun _ x t _ ⟨u, written⟩ => by
    simp only [written]
    rfl

/-- Settles O14: the entries of the table are the lemmas above, and every other instruction has none. -/
theorem fabricResults : Obligations.FabricResults := by
  unfold Obligations.FabricResults
  intro i s
  suffices CompletesIn fabricForm i s from this
  cases i with
  | xsend h ord scp d a b c => exact xsend_completes s h ord scp d a b c
  | xsendNobar h ord scp a b c => exact xsendNobar_completes s h ord scp a b c
  | xsendf h ord scp d a b c => exact xsendf_completes s h ord scp d a b c
  | xget h ty ord scp d a b => exact xget_completes s h ty ord scp d a b
  | xatom h ty op ord scp d a b c => exact xatom_completes s h ty ord scp d a b op c
  | xmcast h ord scp d a b g len slot bv => exact xmcast_completes s h ord scp d a b g len slot bv
  | xfence h scp => exact xfence_completes s h scp
  | xred h ty srnd ord scp d a b c => exact xred_completes s h ty srnd ord scp d a b c
  | xresid h op =>
    cases op with
    | rd d a c => exact xresidRd_completes s h d a c
    | clr a c => exact xresidClr_completes s h a c
    | set a b c => exact xresidSet_completes s h a b c
  | xgrpSet h g a => exact xgrpSet_completes s h g a
  | xgrpGet h g a => exact xgrpGet_completes s h g a
  | _ => exact .of_none rfl

end Sys2Proof.Proofs.Fabric
end
